-- ==== Sys2Proof/Word.lean ====
section
/-! DEFINITION. The word types of the Brintiro V9 and their plainest arithmetic (spec 00 R2, R5). -/

namespace Sys2Proof

/-- One byte of storage. -/
abbrev Byte := BitVec 8
/-- A 16-bit sub-element. -/
abbrev W16 := BitVec 16
/-- A 32-bit lane, scratchpad word or instruction word. -/
abbrev W32 := BitVec 32
/-- A 64-bit scalar register, system register or dword. -/
abbrev Word := BitVec 64
/-- A register number 0 to 63 (01 R39). -/
abbrev Reg := BitVec 6
/-- A 57-bit device virtual address, the width of PC (01 R10). -/
abbrev VAddr := BitVec 57
/-- The activity mask of 96 lanes (05 R110): bit i is lane i. -/
abbrev Mask := BitVec 96
/-- One vector register: lane i is element i of a list of 96 lanes (01 R10). -/
abbrev VReg := List W32

/-- Lanes of a group (05 R109). -/
def laneCount : Nat := 96

/-- Bits [hi:lo] of `x` as a natural number, for `w` bits from `lo`. -/
def bitsAt (x lo w : Nat) : Nat := (x >>> lo) % 2 ^ w

/-- Bit `n` of a natural number. -/
def bitAt (x n : Nat) : Bool := x.testBit n

/-- A Bool as the number 1 or 0. -/
def b2n (b : Bool) : Nat := if b then 1 else 0

/-- A Bool as the 64-bit word 1 or 0 (04 R96). -/
def b2w (b : Bool) : Word := if b then 1#64 else 0#64

/-- The next multiple of `k` that is not below `n`, divided by `k`. -/
def ceilDiv (n k : Nat) : Nat := (n + k - 1) / k

end Sys2Proof
end

