-- ==== Sys2Proof/Kinds.lean ====
section
/-! DEFINITION. The fixed sets of names that instructions and events carry: clause classes, types, rounding modes,
fault codes and operand kinds. -/

namespace Sys2Proof

/-- Engine class of a clause (01 Table 1.4), the host harts' Xlmenc space (20 R362), or an event of the machine,
which has no word. -/
inductive Cls where
  | sv | mem | sync | eng | fab | sys | xlm | event
  deriving DecidableEq, Repr

/-- Rounding modes (03 Table 3.7). -/
inductive Rm where
  | rne | rtz | rdn | rup
  deriving DecidableEq, Repr

/-- The rounding mode of a two-bit code. -/
def Rm.ofCode (c : BitVec 2) : Rm :=
  if c = 0#2 then .rne else if c = 1#2 then .rtz else if c = 2#2 then .rdn else .rup

/-- Floating-point types (03 Table 3.2). -/
inductive FTy where
  | f64 | f32 | f16 | bf16 | e4m3 | e5m2
  deriving DecidableEq, Repr

/-- Vector lane types (01 Table 1.10). -/
inductive VTy where
  | i32 | n32 | i16x2 | n16x2 | i8x4 | n8x4 | f32 | f64 | f16x2 | bf16x2 | e4m3x4 | e5m2x4
  deriving DecidableEq, Repr

/-- The lane type of a TYPE code; 12 to 15 are reserved. -/
def VTy.ofCode (c : BitVec 4) : Option VTy :=
  match c.toNat with
  | 0 => some .i32 | 1 => some .n32 | 2 => some .i16x2 | 3 => some .n16x2 | 4 => some .i8x4 | 5 => some .n8x4
  | 6 => some .f32 | 7 => some .f64 | 8 => some .f16x2 | 9 => some .bf16x2 | 10 => some .e4m3x4
  | 11 => some .e5m2x4 | _ => none

/-- The lane type of a TYPE code that the decoder has accepted. -/
def VTy.of (c : BitVec 4) : VTy := (VTy.ofCode c).getD .i32

/-- Width of a sub-element in bits (03 Table 3.6; 06 R144). -/
def VTy.width : VTy → Nat
  | .i32 | .n32 | .f32 => 32
  | .f64 => 64
  | .i16x2 | .n16x2 | .f16x2 | .bf16x2 => 16
  | .i8x4 | .n8x4 | .e4m3x4 | .e5m2x4 => 8

/-- Sub-elements per lane; an f64 element takes two lanes and counts one (03 R69). -/
def VTy.subs : VTy → Nat
  | .i32 | .n32 | .f32 | .f64 => 1
  | .i16x2 | .n16x2 | .f16x2 | .bf16x2 => 2
  | .i8x4 | .n8x4 | .e4m3x4 | .e5m2x4 => 4

/-- Sub-elements read as signed (06 R144). -/
def VTy.signed : VTy → Bool
  | .i32 | .i16x2 | .i8x4 => true
  | _ => false

/-- The floating-point type of a lane type, if it is one. -/
def VTy.fty : VTy → Option FTy
  | .f32 => some .f32 | .f64 => some .f64 | .f16x2 => some .f16 | .bf16x2 => some .bf16
  | .e4m3x4 => some .e4m3 | .e5m2x4 => some .e5m2
  | _ => none

/-- Scalar conversion types (02 Table 2.5). -/
inductive CvTy where
  | i64 | n64 | fp (t : FTy)
  deriving DecidableEq, Repr

/-- The conversion type of a code of 02 Table 2.5. -/
def CvTy.ofCode (c : BitVec 3) : CvTy :=
  match c.toNat with
  | 0 => .i64 | 1 => .n64 | 2 => .fp .f64 | 3 => .fp .f32 | 4 => .fp .f16 | 5 => .fp .bf16 | 6 => .fp .e4m3
  | _ => .fp .e5m2

/-- Matrix type codes (02 Table 2.10). -/
inductive MmTy where
  | bf16 | f16 | e4m3 | e5m2 | i8 | bf16pw8 | e4m3pw8 | f64
  deriving DecidableEq, Repr

/-- The matrix type of a code; 8 to 15 are unassigned. -/
def MmTy.ofCode (c : Nat) : Option MmTy :=
  match c with
  | 0 => some .bf16 | 1 => some .f16 | 2 => some .e4m3 | 3 => some .e5m2 | 4 => some .i8
  | 5 => some .bf16pw8 | 6 => some .e4m3pw8 | 7 => some .f64 | _ => none

/-- Integer condition codes (02 Table 2.3). -/
inductive Cond where
  | eq | ne | lt | ge | ltn | gen
  deriving DecidableEq, Repr

/-- The condition of a code 0 to 5. -/
def Cond.ofCode (c : BitVec 3) : Cond :=
  match c.toNat with
  | 0 => .eq | 1 => .ne | 2 => .lt | 3 => .ge | 4 => .ltn | _ => .gen

/-- Trap and fault codes (17 Table 17.1). -/
inductive Code where
  | rangeLocked | breakpoint | trap
  | illegalInstruction | illegalClause | illegalRun | misaligned | accessUnleased | accessMode | ownership
  | heapLimit | windowBounds | windowWriter | badLantern | lanternPane | splitDepth | launchDepth | barrierCount
  | stackOverflow | matrixCheck | engineFormat | privilege | leaseUnresolved | replayDiverged | windowGone
  | routeDenied
  deriving DecidableEq, Repr

/-- The number of a code in reports (17 Table 17.1). -/
def Code.num : Code → Nat
  | .rangeLocked => 0x01 | .breakpoint => 0x02 | .trap => 0x03
  | .illegalInstruction => 0x10 | .illegalClause => 0x11 | .illegalRun => 0x12 | .misaligned => 0x13
  | .accessUnleased => 0x14 | .accessMode => 0x15 | .ownership => 0x16 | .heapLimit => 0x17
  | .windowBounds => 0x18 | .windowWriter => 0x19 | .badLantern => 0x1A | .lanternPane => 0x1B
  | .splitDepth => 0x1C | .launchDepth => 0x1D | .barrierCount => 0x1E | .stackOverflow => 0x1F
  | .matrixCheck => 0x20 | .engineFormat => 0x21 | .privilege => 0x22 | .leaseUnresolved => 0x23
  | .replayDiverged => 0x24 | .windowGone => 0x25 | .routeDenied => 0x26

/-- Access kinds of 10 Table 10.2. -/
inductive Acc where
  | load | fetch | store | atomic
  deriving DecidableEq, Repr

/-- What an atomic does at its ordering point (12 Table 12.1; 11 R246; 07 R167). -/
inductive AtomOp where
  | add | min | max | and | or | xor | xchg | fadd | cas | rlock | runlock | wlock | wunlock | evtPub | evtWait
  deriving DecidableEq, Repr

/-- Scopes of an invalidation (10 R224): an ASID and a virtual range, an ASID, everything, or a frame range. -/
inductive InvScope where
  | range (asid lo hi : Nat) | asid (asid : Nat) | all | frames (first count : Nat)
  deriving DecidableEq, Repr

/-- A request that can arrive at its ordering point (10 R225): entry `k` of a cluster's store buffer, or entry
`k` of a group's outstanding loads. -/
inductive Arrive where
  | store (cluster k : Nat) | load (gid k : Nat)
  deriving DecidableEq, Repr

/-- A request that waits at a core port (19 R360): the oldest store of a group's FIFO, its outstanding request
`k`, or the copy command `k` of a core. -/
inductive PortReq where
  | store (gid : Nat) | load (gid k : Nat) | copy (core k : Nat)
  deriving DecidableEq, Repr

/-- Where an uncorrectable error is detected (17 Table 17.5). -/
inductive ErrAt where
  | memLine (line : Nat) | lanternLine (line : Nat) | poolRow (core row : Nat) | fabricFlit (port : Nat)
  | packageUnit
  deriving DecidableEq, Repr

/-- Units whose correctable errors are counted, with the unit codes of 17 Table 17.4 and the near caches of R328. -/
inductive UnitKind where
  | lane | pane | bank | array | link | nearCache
  deriving DecidableEq, Repr

/-- The unit code of an error-log record (17 Table 17.4); a near cache is never retired. -/
def UnitKind.code : UnitKind → Nat
  | .lane => 0 | .pane => 1 | .bank => 2 | .array => 3 | .link => 4 | .nearCache => 0xFF

/-- Who makes an access of the management window: a PCIe function (0 is the hypervisor's), or code of a hart at physical
0x380_0000_0000 (27 R434). -/
inductive MgmtFrom where
  | function (n : Nat) | hart (h : Nat)
  deriving DecidableEq, Repr

/-- Moves of a TDI that a TDISP message asks for (25 R421). -/
inductive TdispOp where
  | lock | start | stop | bindStream | unbindStream
  deriving DecidableEq, Repr

/-- A flit of a stream: its sequence number, its sealed payload and its tag (25 R408). -/
structure Flit where
  seq : Nat
  body : List Byte
  tag : List Byte
  deriving DecidableEq, Repr

/-- What a member on another package brings to a collective (25 R414, R415): its rank, kind, length, TYPE, operation and bytes. -/
structure PeerPart where
  rank : Nat
  bcast : Bool
  len : Nat
  typ : Nat
  op : Nat
  bytes : List Byte
  deriving DecidableEq, Repr

/-- A packet of the Ultra Ethernet Transport (25 R418, R419): a read of some bytes, or a part of a write and whether it is the last to
be placed, with its sealed payload. -/
structure UePkt where
  read : Option Nat
  last : Bool
  f : Flit
  deriving DecidableEq, Repr

end Sys2Proof
end

