-- ==== Sys2Proof/Machine/Fp.lean ====
section
/-! DEFINITION. Number formats and exact arithmetic (spec 03): floating-point values, rounding once from an exact real,
NaN selection, conversions, pw8 and the order of dot products. Exact reals are dyadic or rational numbers in integers. -/

namespace Sys2Proof.Machine

/-- The five sticky flags of FPF (03 Table 3.8): bit 4 NV, 3 DZ, 2 OF, 1 UF, 0 NX. -/
abbrev Flags := BitVec 5
/-- Invalid operation. -/
def Flags.nv : Flags := 16#5
/-- Division of a finite non-zero value by zero; logarithm or reciprocal of zero. -/
def Flags.dz : Flags := 8#5
/-- Overflow. -/
def Flags.ov : Flags := 4#5
/-- Underflow. -/
def Flags.uf : Flags := 2#5
/-- Inexact. -/
def Flags.nx : Flags := 1#5
/-- No flag. -/
def Flags.none : Flags := 0#5
/-- A flag if a condition holds. -/
def Flags.when (f : Flags) (c : Bool) : Flags := if c then f else 0#5

/-! ### Formats (03 Table 3.2) -/

/-- Bits of a type. -/
def fpBits : FTy → Nat
  | .f64 => 64 | .f32 => 32 | .f16 | .bf16 => 16 | .e4m3 | .e5m2 => 8
/-- Fraction bits f. -/
def fpFrac : FTy → Nat
  | .f64 => 52 | .f32 => 23 | .f16 => 10 | .bf16 => 7 | .e4m3 => 3 | .e5m2 => 2
/-- Exponent bits e. -/
def fpExp (t : FTy) : Nat := fpBits t - fpFrac t - 1
/-- The exponent bias. -/
def fpBias (t : FTy) : Nat := 2 ^ (fpExp t - 1) - 1
/-- Precision p with the hidden bit. -/
def fpPrec (t : FTy) : Nat := fpFrac t + 1
/-- The exponent of the smallest normal. -/
def fpEmin (t : FTy) : Int := 1 - (fpBias t : Int)
/-- The exponent of the largest finite value; e4m3 uses the all-ones exponent for finite values (R64). -/
def fpEmax (t : FTy) : Int := if t = .e4m3 then 8 else (fpBias t : Int)
/-- The significand of the largest finite value, as an integer of p bits; e4m3's is 0b1110. -/
def fpMaxSig (t : FTy) : Nat := if t = .e4m3 then 14 else 2 ^ fpPrec t - 1
/-- The encoding of sign, exponent field and fraction field. -/
def fpPack (t : FTy) (s : Bool) (e f : Nat) : Nat := b2n s * 2 ^ (fpBits t - 1) + e * 2 ^ fpFrac t + f
/-- The quiet bit of a NaN's fraction field (R64). -/
def fpQuietBit (t : FTy) : Nat := 2 ^ (fpFrac t - 1)
/-- The encoding of a NaN with a sign and a fraction field. -/
def fpNaN (t : FTy) (s : Bool) (f : Nat) : Nat := fpPack t s (2 ^ fpExp t - 1) f
/-- The canonical NaN (R64). -/
def fpCanon (t : FTy) : Nat := if t = .e4m3 then 0x7F else fpNaN t false (fpQuietBit t)
/-- The infinity of a sign; a type without infinity is not asked. -/
def fpInf (t : FTy) (s : Bool) : Nat := fpPack t s (2 ^ fpExp t - 1) 0
/-- The largest finite value with a sign. -/
def fpMax (t : FTy) (s : Bool) : Nat :=
  if t = .e4m3 then b2n s * 128 + 0x7E else fpPack t s (2 ^ fpExp t - 2) (2 ^ fpFrac t - 1)
/-- The zero of a sign. -/
def fpZero (t : FTy) (s : Bool) : Nat := fpPack t s 0 0

/-- A decoded value: a NaN with its sign and fraction field, an infinity, or (−1)^s × m × 2^e. -/
inductive FVal where
  | nan (s : Bool) (f : Nat)
  | inf (s : Bool)
  | fin (s : Bool) (m : Nat) (e : Int)
  deriving DecidableEq, Repr

/-- The value of an encoding (03, opening of "Binary floating-point types"; R64). -/
def fpDec (t : FTy) (x : Nat) : FVal :=
  let s := bitAt x (fpBits t - 1)
  let e := bitsAt x (fpFrac t) (fpExp t)
  let f := bitsAt x 0 (fpFrac t)
  if t = .e4m3 then
    if e = 15 ∧ f = 7 then .nan s f
    else if e = 0 then .fin s f (-9) else .fin s (8 + f) ((e : Int) - 10)
  else if e = 2 ^ fpExp t - 1 then (if f = 0 then .inf s else .nan s f)
  else if e = 0 then .fin s f (fpEmin t - fpFrac t)
  else .fin s (2 ^ fpFrac t + f) ((e : Int) - fpBias t - fpFrac t)

/-- A signalling NaN: the quiet bit is clear; e4m3's NaN is quiet (R64). -/
def FVal.snan (t : FTy) : FVal → Bool
  | .nan _ f => t ≠ .e4m3 && !bitAt f (fpFrac t - 1)
  | _ => false
/-- Any NaN. -/
def FVal.isNaN : FVal → Bool
  | .nan _ _ => true | _ => false
/-- An infinity. -/
def FVal.isInf : FVal → Bool
  | .inf _ => true | _ => false
/-- A zero. -/
def FVal.isZero : FVal → Bool
  | .fin _ m _ => m = 0 | _ => false
/-- The sign. -/
def FVal.sign : FVal → Bool
  | .nan s _ => s | .inf s => s | .fin s _ _ => s
/-- Negation leaves a NaN as it stands (R73). -/
def FVal.neg : FVal → FVal
  | .nan s f => .nan s f | .inf s => .inf (!s) | .fin s m e => .fin (!s) m e
/-- Negation under a condition. -/
def FVal.negIf (c : Bool) (v : FVal) : FVal := if c then v.neg else v

/-! ### Rounding (R71, R73, R78) -/

/-- A result in its encoding, with the flags it raises. -/
structure FRes where
  bits : Nat
  fl : Flags
  deriving DecidableEq, Repr

/-- floor(log2(num / den)) for a positive rational. -/
def floorLog2 (num den : Nat) : Int :=
  let g : Int := (num.log2 : Int) - den.log2
  if 0 ≤ g then (if num < den * 2 ^ g.toNat then g - 1 else g)
  else (if num * 2 ^ (-g).toNat < den then g - 1 else g)

/-- Whether a magnitude of quotient `q` with remainder `r` of `d` rounds up under a mode (03 Table 3.7). -/
def roundsUp (rm : Rm) (s : Bool) (q r d : Nat) : Bool :=
  match rm with
  | .rne => d < 2 * r || (2 * r = d && q % 2 = 1)
  | .rtz => false
  | .rdn => s && r ≠ 0
  | .rup => !s && r ≠ 0

/-- The result that replaces an overflow (03 Table 3.7; R73). -/
def overflowTo (t : FTy) (rm : Rm) (sat s : Bool) : Nat :=
  match t with
  | .e4m3 => if sat then fpMax t s else fpNaN t s 7
  | .e5m2 => if sat then fpMax t s else fpInf t s
  | _ =>
    match rm with
    | .rne => fpInf t s
    | .rtz => fpMax t s
    | .rdn => if s then fpInf t s else fpMax t s
    | .rup => if s then fpMax t s else fpInf t s

/-- round(x, t, rm) of R71 for the exact real (−1)^s × num / den, with num and den positive, and the flags of R78.
`sat` is SN of a result in e4m3 or e5m2 (R73). -/
def roundTo (t : FTy) (rm : Rm) (sat s : Bool) (num den : Nat) : FRes :=
  let e := floorLog2 num den
  let qe : Int := max e (fpEmin t) - fpFrac t
  let n := if 0 ≤ qe then num else num * 2 ^ (-qe).toNat
  let d := if 0 ≤ qe then den * 2 ^ qe.toNat else den
  let q0 := n / d
  let r := n % d
  let q := if roundsUp rm s q0 r d then q0 + 1 else q0
  let inexact : Bool := r ≠ 0
  let top : Int := fpEmax t - fpFrac t
  let m := if q = 2 ^ fpPrec t then 2 ^ fpFrac t else q
  let qe' := if q = 2 ^ fpPrec t then qe + 1 else qe
  if top < qe' ∨ (qe' = top ∧ fpMaxSig t < m) then
    ⟨overflowTo t rm sat s, Flags.ov ||| Flags.nx⟩
  else
    let tiny : Bool := m < 2 ^ fpFrac t
    let fl := Flags.nx.when inexact ||| Flags.uf.when (inexact && tiny)
    if tiny then ⟨fpPack t s 0 m, fl⟩
    else ⟨fpPack t s ((qe' + fpFrac t + fpBias t).toNat) (m - 2 ^ fpFrac t), fl⟩

/-- A dyadic number m × 2^e, exactly. -/
structure Dy where
  m : Int
  e : Int
  deriving DecidableEq, Repr

/-- The exact value of a finite operand. -/
def dyOf (s : Bool) (m : Nat) (e : Int) : Dy := ⟨if s then -(m : Int) else m, e⟩

/-- The exact sum. -/
def Dy.add (x y : Dy) : Dy :=
  let e := min x.e y.e
  ⟨x.m * 2 ^ (x.e - e).toNat + y.m * 2 ^ (y.e - e).toNat, e⟩
/-- The exact product. -/
def Dy.mul (x y : Dy) : Dy := ⟨x.m * y.m, x.e + y.e⟩

/-- Rounds a non-zero dyadic number. -/
def roundDy (t : FTy) (rm : Rm) (sat : Bool) (x : Dy) : FRes :=
  roundTo t rm sat (x.m < 0) (x.m.natAbs * 2 ^ x.e.toNat) (2 ^ (-x.e).toNat)

/-! ### NaN selection (R73, R74) -/

/-- A NaN of type `t` made quiet; in e4m3 and e5m2 the canonical NaN (R73, R74). -/
def quieted (t : FTy) (s : Bool) (f : Nat) : Nat :=
  match t with
  | .e4m3 | .e5m2 => fpCanon t
  | _ => fpNaN t s (f ||| fpQuietBit t)

/-- The first NaN of the operands in order, made quiet, and NV where an operand signals (R74 step 1). -/
def pickNaN (t : FTy) (vs : List FVal) : Option FRes :=
  let sig := vs.any (FVal.snan t)
  (vs.find? FVal.isNaN).map fun v =>
    match v with
    | .nan s f => ⟨quieted t s f, Flags.nv.when sig⟩
    | _ => ⟨fpCanon t, Flags.nv.when sig⟩

/-- An invalid operation (R74 step 2). -/
def invalid (t : FTy) : FRes := ⟨fpCanon t, Flags.nv⟩

/-- An infinity delivered as a result of a type: e4m3 and e5m2 follow R73, the others hold it. R73 speaks of an infinity
converted into e5m2; that an infinite result of e5m2x4 arithmetic is delivered in the same way is the model's choice
(log 42). -/
def deliverInf (t : FTy) (sat s : Bool) : FRes :=
  match t with
  | .e4m3 => if sat then ⟨fpMax t s, Flags.nx⟩ else ⟨fpNaN t s 7, Flags.nv⟩
  | .e5m2 => if sat then ⟨fpMax t s, Flags.nx⟩ else ⟨fpInf t s, Flags.none⟩
  | _ => ⟨fpInf t s, Flags.none⟩

/-- The sign of an exact zero sum (R72): equal signs keep it, others give + except under RDN. -/
def zeroSumSign (rm : Rm) (a b : Bool) : Bool := if a = b then a else rm = .rdn

/-! ### Operations (R85; 04 R98, R102) -/

/-- round(x + y) of values that are no NaN. -/
def addVals (t : FTy) (rm : Rm) (sat : Bool) (x y : FVal) : FRes :=
  match x, y with
  | .inf a, .inf b => if a = b then deliverInf t sat a else invalid t
  | .inf a, _ => deliverInf t sat a
  | _, .inf b => deliverInf t sat b
  | .fin a m e, .fin b n f =>
    let z := (dyOf a m e).add (dyOf b n f)
    if z.m = 0 then ⟨fpZero t (if m = 0 ∧ n = 0 then zeroSumSign rm a b else rm = .rdn), Flags.none⟩
    else roundDy t rm sat z
  | _, _ => invalid t

/-- x + y, each negated first in a negating form (R73). -/
def fpAdd (t : FTy) (rm : Rm) (sat neg : Bool) (a b : Nat) : FRes :=
  let x := fpDec t a
  let y := fpDec t b
  (pickNaN t [x, y]).getD (addVals t rm sat (x.negIf neg) (y.negIf neg))

/-- x − y, or (−x) − (−y) in a negating form. -/
def fpSub (t : FTy) (rm : Rm) (sat neg : Bool) (a b : Nat) : FRes :=
  let x := fpDec t a
  let y := fpDec t b
  (pickNaN t [x, y]).getD (addVals t rm sat (x.negIf neg) (y.negIf (!neg)))

/-- The exact product of values that are no NaN, or none where it is 0 × ∞ (R74). -/
def mulVals : FVal → FVal → Option FVal
  | .inf a, .inf b => some (.inf (a != b))
  | .inf a, .fin b m _ => if m = 0 then none else some (.inf (a != b))
  | .fin a m _, .inf b => if m = 0 then none else some (.inf (a != b))
  | .fin a m e, .fin b n f => some (.fin (a != b) (m * n) (e + f))
  | _, _ => none

/-- Rounds a value to a type; a zero keeps its sign. -/
def roundVal (t : FTy) (rm : Rm) (sat : Bool) : FVal → FRes
  | .nan _ _ => invalid t
  | .inf s => deliverInf t sat s
  | .fin s m e => if m = 0 then ⟨fpZero t s, Flags.none⟩ else roundDy t rm sat (dyOf s m e)

/-- x × y, or (−x) × y in a negating form. -/
def fpMul (t : FTy) (rm : Rm) (sat neg : Bool) (a b : Nat) : FRes :=
  let x := fpDec t a
  let y := fpDec t b
  (pickNaN t [x, y]).getD
    (match mulVals (x.negIf neg) y with
     | some v => roundVal t rm sat v
     | none => invalid t)

/-- x / y, or (−x) / y in a negating form. -/
def fpDiv (t : FTy) (rm : Rm) (neg : Bool) (a b : Nat) : FRes :=
  let x := fpDec t a
  let y := fpDec t b
  (pickNaN t [x, y]).getD
    (match x.negIf neg, y with
     | .inf _, .inf _ => invalid t
     | .inf s, .fin u _ _ => ⟨fpInf t (s != u), Flags.none⟩
     | .fin s _ _, .inf u => ⟨fpZero t (s != u), Flags.none⟩
     | .fin s m e, .fin u n f =>
       if n = 0 then (if m = 0 then invalid t else ⟨fpInf t (s != u), Flags.dz⟩)
       else if m = 0 then ⟨fpZero t (s != u), Flags.none⟩
       else roundTo t rm false (s != u) (m * 2 ^ (e - f).toNat) (n * 2 ^ (f - e).toNat)
     | _, _ => invalid t)

/-- One bit of an integer square root per unit of fuel, from the top: the largest `r` with r² ≤ n below 2^k. -/
def isqrt (n : Nat) : Nat → Nat → Nat
  | 0, r => r
  | k + 1, r => isqrt n k (if (r + 2 ^ k) * (r + 2 ^ k) ≤ n then r + 2 ^ k else r)

/-- The square root of m × 2^e (m > 0) with at least 60 significant bits and a last bit that says whether the root
goes on: enough for one rounding to any type (R85). -/
def sqrtDy (m : Nat) (e : Int) : Dy :=
  let k : Nat := 128 + e.natAbs % 2
  let n := m * 2 ^ k
  let r := isqrt n (n.log2 / 2 + 1) 0
  ⟨2 * r + b2n (r * r ≠ n), (e - k) / 2 - 1⟩

/-- The square root, rounded once; of the negated operand in a negating form. -/
def fpSqrt (t : FTy) (rm : Rm) (neg : Bool) (a : Nat) : FRes :=
  let x := fpDec t a
  (pickNaN t [x]).getD
    (match x.negIf neg with
     | .fin s m e => if m = 0 then ⟨fpZero t s, Flags.none⟩ else if s then invalid t else roundDy t rm false (sqrtDy m e)
     | .inf s => if s then invalid t else ⟨fpInf t false, Flags.none⟩
     | _ => invalid t)

/-- p + c with p = x × y or −(x × y), formed exactly and rounded once (04 R102; R74 steps 1 to 3). -/
def fpFma (t : FTy) (rm : Rm) (sat neg : Bool) (a b c : Nat) : FRes :=
  let x := fpDec t a
  let y := fpDec t b
  let z := fpDec t c
  match pickNaN t [x, y, z] with
  | some r =>
    if (mulVals x y).isNone && !x.isNaN && !y.isNaN then ⟨r.bits, Flags.nv⟩ else r
  | none =>
    match mulVals (x.negIf neg) y with
    | none => invalid t
    | some p => addVals t rm sat p z

/-! ### Order and comparison -/

/-- A finite or infinite value as a number that orders like it: infinities stand beyond all finite values. -/
def FVal.lt (x y : FVal) : Bool :=
  match x, y with
  | .inf a, .inf b => a && !b
  | .inf a, .fin _ _ _ => a
  | .fin _ _ _, .inf b => !b
  | .fin a m e, .fin b n f => ((dyOf a m e).add (dyOf (!b) n f)).m < 0
  | _, _ => false

/-- The order of min and max: −0 stands below +0 (R74). -/
def FVal.ltz (x y : FVal) : Bool := x.lt y || (x.isZero && y.isZero && x.sign && !y.sign)

/-- The lesser operand, or the NaN that R74 selects; only NV can be raised (04 R98). -/
def fpMin (t : FTy) (a b : Nat) : FRes :=
  let x := fpDec t a
  let y := fpDec t b
  (pickNaN t [x, y]).getD ⟨if x.ltz y then bitsAt a 0 (fpBits t) else bitsAt b 0 (fpBits t), Flags.none⟩

/-- The greater operand, or the NaN that R74 selects. -/
def fpMaxOp (t : FTy) (a b : Nat) : FRes :=
  let x := fpDec t a
  let y := fpDec t b
  (pickNaN t [x, y]).getD ⟨if y.ltz x then bitsAt a 0 (fpBits t) else bitsAt b 0 (fpBits t), Flags.none⟩

/-- Equality of values: −0 equals +0 (04 R100). -/
def FVal.eqv (x y : FVal) : Bool := !x.isNaN && !y.isNaN && !x.lt y && !y.lt x

/-- s.fcmp's conditions and NV (04 Table 4.6): 0 eq, 1 lt, 2 le, 3 un. -/
def fpCmp (t : FTy) (c : Nat) (a b : Nat) : Bool × Flags :=
  let x := fpDec t a
  let y := fpDec t b
  let nan := x.isNaN || y.isNaN
  let sig := x.snan t || y.snan t
  match c with
  | 0 => (x.eqv y, Flags.nv.when sig)
  | 1 => (x.lt y, Flags.nv.when nan)
  | 2 => (!nan && !y.lt x, Flags.nv.when nan)
  | _ => (nan, Flags.nv.when sig)

/-- s.fclass's one-hot mask (04 Table 4.5). -/
def fpClass (t : FTy) (a : Nat) : Nat :=
  match fpDec t a with
  | .nan s f => if FVal.snan t (.nan s f) then 2 ^ 8 else 2 ^ 9
  | .inf s => if s then 1 else 2 ^ 7
  | .fin s m _ =>
    if m = 0 then (if s then 2 ^ 3 else 2 ^ 4)
    else if m < 2 ^ fpFrac t then (if s then 2 ^ 2 else 2 ^ 5) else (if s then 2 ^ 1 else 2 ^ 6)

/-! ### Conversions (R73, R75, R76) -/

/-- A NaN converted between types, with NV where it signals (R75). -/
def nanCvt (src dst : FTy) (s : Bool) (f : Nat) : FRes :=
  let fl := Flags.nv.when (FVal.snan src (.nan s f))
  let bits :=
    match dst, src with
    | .e4m3, _ => fpCanon .e4m3
    | .e5m2, _ => fpCanon .e5m2
    | _, .e4m3 => fpNaN dst s (fpQuietBit dst)
    | _, .e5m2 => fpNaN dst s (fpQuietBit dst)
    | _, _ =>
      let f' := if fpFrac src ≤ fpFrac dst then f * 2 ^ (fpFrac dst - fpFrac src) else f / 2 ^ (fpFrac src - fpFrac dst)
      fpNaN dst s (f' ||| fpQuietBit dst)
  ⟨bits, fl⟩

/-- A conversion between floating-point types. -/
def fpToFp (src dst : FTy) (rm : Rm) (sat : Bool) (a : Nat) : FRes :=
  match fpDec src a with
  | .nan s f => nanCvt src dst s f
  | v => roundVal dst rm sat v

/-- Smallest and largest value of an integer type of `w` bits (03 Table 3.1). -/
def intRange (signed : Bool) (w : Nat) : Int × Int :=
  if signed then (-(2 ^ (w - 1) : Nat), (2 ^ (w - 1) : Nat) - 1) else (0, (2 ^ w : Nat) - 1)

/-- sat(x, type): the nearer end of the range (00 R9, R62). -/
def satInt (signed : Bool) (w : Nat) (x : Int) : Int :=
  min (max x (intRange signed w).1) (intRange signed w).2

/-- An integer's two's-complement bits at a width. -/
def wrapInt (w : Nat) (x : Int) : Nat := (x % (2 ^ w : Nat)).toNat

/-- The integer a field of `w` bits holds. -/
def toInt (signed : Bool) (w : Nat) (x : Nat) : Int :=
  let y := x % 2 ^ w
  if signed && bitAt y (w - 1) then (y : Int) - (2 ^ w : Nat) else y

/-- A real (−1)^s × m × 2^e rounded to an integer under a mode, and whether that changed it. -/
def roundToInt (rm : Rm) (s : Bool) (m : Nat) (e : Int) : Int × Bool :=
  let n := m * 2 ^ e.toNat
  let d := 2 ^ (-e).toNat
  let q := n / d
  let q' := if roundsUp rm s q (n % d) d then q + 1 else q
  (if s then -(q' : Int) else q', n % d ≠ 0)

/-- A conversion from floating point to an integer type of `w` bits (R76). -/
def fpToInt (src : FTy) (rm : Rm) (sat signed : Bool) (w : Nat) (a : Nat) : FRes :=
  let lo := (intRange signed w).1
  let hi := (intRange signed w).2
  let indefinite : Nat := if signed then 2 ^ (w - 1) else 2 ^ w - 1
  let out (x : Int) : FRes := ⟨if sat then wrapInt w x else indefinite, Flags.nv⟩
  match fpDec src a with
  | .nan _ _ => out 0
  | .inf s => out (if s then lo else hi)
  | .fin s m e =>
    let r := roundToInt rm s m e
    if r.1 < lo then out lo else if hi < r.1 then out hi
    else ⟨wrapInt w r.1, Flags.nx.when r.2⟩

/-- A conversion from an integer to floating point (R76). -/
def intToFp (dst : FTy) (rm : Rm) (sat : Bool) (x : Int) : FRes :=
  if x = 0 then ⟨fpZero dst false, Flags.none⟩ else roundDy dst rm sat ⟨x, 0⟩

/-- A conversion between integer types: bits wrapped, or clamped with SN (04 Table 4.7, 06 R149). No flag is raised. -/
def intToInt (srcSigned : Bool) (srcW : Nat) (sat dstSigned : Bool) (dstW : Nat) (a : Nat) : FRes :=
  let x := toInt srcSigned srcW a
  ⟨wrapInt dstW (if sat then satInt dstSigned dstW x else x), Flags.none⟩

/-! ### pw8 (R66 to R68) -/

/-- One term of a pw8 byte: its sign and its shift, 7 for a zero term. -/
def pwTerm (x : Nat) : Dy :=
  let c := bitsAt x 0 3
  if c = 7 then ⟨0, 0⟩ else ⟨if bitAt x 3 then -1 else 1, -(c : Int)⟩

/-- The value of a pw8 byte: the exact sum of its two terms. -/
def pwValue (x : Nat) : Dy := (pwTerm (bitsAt x 4 4)).add (pwTerm (bitsAt x 0 4))

/-- The canonical encoding of a pw8 value given in units of 2^−6 (R67): zero is 0x77; a power of two one term; else
two terms of one sign; else a difference of powers. -/
def pwCanon (v : Int) : Option Nat :=
  let s := b2n (v < 0)
  let n := v.natAbs
  let exps := List.range 7
  if n = 0 then some 0x77
  else
    match exps.find? (fun c => n = 2 ^ (6 - c)) with
    | some c => some (s * 128 + c * 16 + 7)
    | none =>
      let pairs := exps.flatMap fun a => exps.map fun b => (a, b)
      match pairs.find? (fun p => p.1 ≤ p.2 ∧ n = 2 ^ (6 - p.1) + 2 ^ (6 - p.2)) with
      | some (a, b) => some (s * 128 + a * 16 + s * 8 + b)
      | none =>
        (pairs.find? (fun p => p.1 < p.2 ∧ n + 2 ^ (6 - p.2) = 2 ^ (6 - p.1))).map fun p =>
          s * 128 + p.1 * 16 + (1 - s) * 8 + p.2

/-! ### Dot products (R79 to R81) -/

/-- One term of a dot product: a NaN (signalling or not), an invalid product, an infinity, or an exact value with the
sign of its zero. -/
inductive Term where
  | nan (sig : Bool)
  | bad
  | inf (s : Bool)
  | val (x : Dy) (zs : Bool)
  deriving DecidableEq, Repr

/-- A value as a term. -/
def termOf (t : FTy) (v : FVal) : Term :=
  match v with
  | .nan s f => .nan (FVal.snan t (.nan s f))
  | .inf s => .inf s
  | .fin s m e => .val (dyOf s m e) s

/-- The product of two floating-point operands as a term. -/
def prodTerm (t : FTy) (a b : Nat) : Term :=
  let x := fpDec t a
  let y := fpDec t b
  if x.isNaN || y.isNaN then .nan (x.snan t || y.snan t)
  else match mulVals x y with
    | none => .bad
    | some v => termOf t v

/-- The product of an activation and a pw8 weight (R68). -/
def pwProdTerm (t : FTy) (a w : Nat) : Term :=
  match fpDec t a with
  | .nan s f => .nan (FVal.snan t (.nan s f))
  | .inf s =>
    let t1 := (pwTerm (bitsAt w 4 4)).m
    let t2 := (pwTerm (bitsAt w 0 4)).m
    if t1 = 0 ∧ t2 = 0 then .val ⟨0, 0⟩ false
    else if (t1 < 0 ∧ 0 < t2) ∨ (0 < t1 ∧ t2 < 0) then .bad
    else .inf (s != (t1 + t2 < 0 : Bool))
  | .fin s m e =>
    let t1 := (pwTerm (bitsAt w 4 4)).m
    let t2 := (pwTerm (bitsAt w 0 4)).m
    .val ((dyOf s m e).mul (pwValue w)) (t1 ≠ 0 && t2 ≠ 0 && (s != (t1 < 0 : Bool)) && (s != (t2 < 0 : Bool)))

/-- Rounds the exact sum of a group's terms with the accumulator once (R79, R80). -/
def groupSum (t : FTy) (ts : List Term) : FRes :=
  let nan := ts.any fun x => match x with | .nan _ => true | _ => false
  let sig := ts.any fun x => match x with | .nan g => g | .bad => true | _ => false
  let bad := ts.any fun x => match x with | .bad => true | _ => false
  let pinf := ts.any fun x => match x with | .inf s => !s | _ => false
  let ninf := ts.any fun x => match x with | .inf s => s | _ => false
  if nan || bad || (pinf && ninf) then ⟨fpCanon t, Flags.nv.when (sig || (pinf && ninf))⟩
  else if pinf then ⟨fpInf t false, Flags.none⟩
  else if ninf then ⟨fpInf t true, Flags.none⟩
  else
    let sum : Dy := ts.foldl (fun (a : Dy) x => match x with | .val y _ => a.add y | _ => a) ⟨0, 0⟩
    let allNeg := ts.all fun x => match x with | .val y z => y.m = 0 && z | _ => false
    if sum.m = 0 then ⟨fpZero t allNeg, Flags.none⟩ else roundDy t .rne false sum

/-- The groups of 16 products in ascending k, one rounding per group; a short group is padded with +0 (R79). -/
def dotGroups (t : FTy) (acc : Nat) (fl : Flags) : Nat → List Term → FRes
  | 0, _ => ⟨acc, fl⟩
  | k + 1, ts =>
    match ts with
    | [] => ⟨acc, fl⟩
    | _ =>
      let grp := ts.take 16
      let pad := if grp.length < 16 then [Term.val ⟨0, 0⟩ false] else []
      let r := groupSum t (termOf t (fpDec t acc) :: grp ++ pad)
      dotGroups t r.bits (fl ||| r.fl) k (ts.drop 16)

/-- A floating-point dot product of all its product terms into an accumulator. -/
def dotProduct (t : FTy) (acc : Nat) (ts : List Term) : FRes := dotGroups t acc Flags.none (ts.length / 16 + 1) ts

end Sys2Proof.Machine
end

