-- ==== Sys2Proof/Syntax.lean ====
section
/-! DEFINITION. The instructions and events of the Brintiro V9: one constructor per row of spec/opcode_table.json.

An instruction word's constructor holds its operand fields as the table names them, at their widths: register numbers,
raw type and rounding codes, immediates. What a field may hold is WellFormed's matter (02 R46). An event has no word: its
operands say which structure it happens to (spec 95), and State.agenda names the events that happen. -/

namespace Sys2Proof

/-- Instructions and events, in the order of the opcode table. -/
inductive Instr where
  /-- Writes the 64-bit sum of two scalar registers modulo 2^64 (R89). -/
  | sAdd (d a b : Reg)
  /-- Writes the 64-bit difference of two scalar registers modulo 2^64 (R89). -/
  | sSub (d a b : Reg)
  /-- Writes the bitwise AND of two scalar registers (R89). -/
  | sAnd (d a b : Reg)
  /-- Writes the bitwise OR of two scalar registers (R89). -/
  | sOr (d a b : Reg)
  /-- Writes the bitwise XOR of two scalar registers (R89). -/
  | sXor (d a b : Reg)
  /-- Writes a AND NOT b (R89). -/
  | sAndn (d a b : Reg)
  /-- Shifts a left by b[5:0] (R89). -/
  | sShl (d a b : Reg)
  /-- Shifts a right logically by b[5:0] (R89). -/
  | sShr (d a b : Reg)
  /-- Shifts a right arithmetically by b[5:0] (R89). -/
  | sSra (d a b : Reg)
  /-- Rotates a left by b[5:0] (R89). -/
  | sRot (d a b : Reg)
  /-- Writes the lesser of a and b as i64 (R89). -/
  | sMin (d a b : Reg)
  /-- Writes the greater of a and b as i64 (R89). -/
  | sMax (d a b : Reg)
  /-- Writes the lesser of a and b as n64 (R89). -/
  | sMinn (d a b : Reg)
  /-- Writes the greater of a and b as n64 (R89). -/
  | sMaxn (d a b : Reg)
  /-- Copies a scalar register (R89). -/
  | sMov (d a : Reg)
  /-- Writes the low 64 bits of the product (R89). -/
  | sMul (d a b : Reg)
  /-- Writes bits 127:64 of the signed product (R89). -/
  | sMulh (d a b : Reg)
  /-- Writes bits 127:64 of the natural product (R89). -/
  | sMulhn (d a b : Reg)
  /-- Signed division truncating toward zero, with fixed results for zero divisor and overflow (R90). -/
  | sDiv (d a b : Reg)
  /-- Natural division, all ones on a zero divisor (R90). -/
  | sDivn (d a b : Reg)
  /-- Signed remainder with the sign of the dividend (R90). -/
  | sRem (d a b : Reg)
  /-- Natural remainder (R90). -/
  | sRemn (d a b : Reg)
  /-- Counts leading zero bits of a (R89). -/
  | sClz (d a : Reg)
  /-- Counts trailing zero bits of a (R89). -/
  | sCtz (d a : Reg)
  /-- Counts set bits of a (R89). -/
  | sPop (d a : Reg)
  /-- Extracts a bit field of a described by sb (R91). -/
  | sBext (d a b : Reg)
  /-- Inserts the low bits of a into a field of d described by sb (R91). -/
  | sBins (d a b : Reg)
  /-- Writes 1 when the integer condition cc holds between a and b, else 0 (R96). -/
  | sCmp (d a b : Reg) (c : BitVec 3)
  /-- Writes a if c is non-zero, else b (R97). -/
  | sSel (d a b c : Reg)
  /-- Writes a plus b shifted left by a 3-bit shift (R92). -/
  | sLea (d a b : Reg) (s : BitVec 3)
  /-- Adds a sign-extended 13-bit immediate (R93). -/
  | sAddi (d a : Reg) (i : BitVec 13)
  /-- ANDs a sign-extended immediate (R93). -/
  | sAndi (d a : Reg) (i : BitVec 13)
  /-- ORs a sign-extended immediate (R93). -/
  | sOri (d a : Reg) (i : BitVec 13)
  /-- XORs a sign-extended immediate (R93). -/
  | sXori (d a : Reg) (i : BitVec 13)
  /-- Shifts left by an immediate 0-63 (R93). -/
  | sShli (d a i : Reg)
  /-- Shifts right logically by an immediate 0-63 (R93). -/
  | sShri (d a i : Reg)
  /-- Shifts right arithmetically by an immediate 0-63 (R93). -/
  | sSrai (d a i : Reg)
  /-- Compares a with a sign-extended immediate under condition cc (R96). -/
  | sCmpi (c : BitVec 3) (d a : Reg) (i : BitVec 13)
  /-- Loads a sign-extended 19-bit immediate (R94). -/
  | sLi (d : Reg) (i : BitVec 19)
  /-- Shifts d left by 19 and adds a zero-extended immediate (R94). -/
  | sLim (d : Reg) (i : BitVec 19)
  /-- Does nothing but counts toward RC (R95). -/
  | nop
  /-- Adds two f32 or f64 values with one rounding (R98). -/
  | sFadd (d a b : Reg) (r : BitVec 2) (f : BitVec 1)
  /-- Subtracts two floating-point values with one rounding (R98). -/
  | sFsub (d a b : Reg) (r : BitVec 2) (f : BitVec 1)
  /-- Multiplies two floating-point values with one rounding (R98). -/
  | sFmul (d a b : Reg) (r : BitVec 2) (f : BitVec 1)
  /-- Divides two floating-point values with one rounding (R98). -/
  | sFdiv (d a b : Reg) (r : BitVec 2) (f : BitVec 1)
  /-- Computes a rounded floating-point square root (R98). -/
  | sFsqrt (d a : Reg) (r : BitVec 2) (f : BitVec 1)
  /-- Writes the lesser floating-point operand (R98). -/
  | sFmin (d a b : Reg) (f : BitVec 1)
  /-- Writes the greater floating-point operand (R98). -/
  | sFmax (d a b : Reg) (f : BitVec 1)
  /-- Writes a one-hot class mask of a floating-point value (R99). -/
  | sFclass (d a : Reg) (f : BitVec 1)
  /-- Compares two floating-point values under eq, lt, le or un (R100). -/
  | sFcmp (d a b : Reg) (c : BitVec 3) (f : BitVec 1)
  /-- Converts a scalar between the types of Table 2.5 (R101). -/
  | sFcvt (d a : Reg) (s t : BitVec 3) (r : BitVec 2) (n : BitVec 1)
  /-- Computes a fused multiply-add with one rounding (R102). -/
  | sFma (f : BitVec 1) (r : BitVec 2) (d a b c : Reg) (n : BitVec 1)
  /-- Branches unconditionally to a PC-relative header (R103). -/
  | branch (i : BitVec 19)
  /-- Branches when the tested register is zero (R103). -/
  | bz (d : Reg) (i : BitVec 19)
  /-- Branches when the tested register is non-zero (R103). -/
  | bnz (d : Reg) (i : BitVec 19)
  /-- Decrements the counter and branches while it is non-zero (R103). -/
  | loop (d : Reg) (i : BitVec 19)
  /-- Jumps to the header address in a register (R104). -/
  | jr (a : Reg)
  /-- Calls a PC-relative target, sliding the window and writing the link (R105). -/
  | call (k : BitVec 2) (i : BitVec 19)
  /-- Calls a register target, sliding the window and writing the link (R105). -/
  | callr (a : Reg) (k : BitVec 2)
  /-- Returns through s59, sliding the window back, or ends the group when s59 is zero (R106). -/
  | ret
  /-- Branches when condition cc holds between d and a (R103). -/
  | bcmp (c : BitVec 3) (d a : Reg) (i : BitVec 13)
  /-- Adds integer lanes, optionally saturating (R144). -/
  | vAdd (d a b : Reg) (t : BitVec 4) (n : BitVec 1)
  /-- Subtracts integer lanes, optionally saturating (R144). -/
  | vSub (d a b : Reg) (t : BitVec 4) (n : BitVec 1)
  /-- Multiplies integer lanes, optionally saturating (R144). -/
  | vMul (d a b : Reg) (t : BitVec 4) (n : BitVec 1)
  /-- Writes the high half of integer lane products (R144). -/
  | vMulh (d a b : Reg) (t : BitVec 4)
  /-- Bitwise AND of lanes (R144). -/
  | vAnd (d a b : Reg)
  /-- Bitwise OR of lanes (R144). -/
  | vOr (d a b : Reg)
  /-- Bitwise XOR of lanes (R144). -/
  | vXor (d a b : Reg)
  /-- Bitwise AND NOT of lanes (R144). -/
  | vAndn (d a b : Reg)
  /-- Shifts integer sub-elements left, optionally saturating (R144). -/
  | vShl (d a b : Reg) (t : BitVec 4) (n : BitVec 1)
  /-- Shifts integer sub-elements right logically (R144). -/
  | vShr (d a b : Reg) (t : BitVec 4)
  /-- Shifts integer sub-elements right arithmetically (R144). -/
  | vSra (d a b : Reg) (t : BitVec 4)
  /-- Writes the lesser integer sub-element (R144). -/
  | vMin (d a b : Reg) (t : BitVec 4)
  /-- Writes the greater integer sub-element (R144). -/
  | vMax (d a b : Reg) (t : BitVec 4)
  /-- Writes the absolute value of signed sub-elements (R144). -/
  | vAbs (d a : Reg) (t : BitVec 4) (n : BitVec 1)
  /-- Counts leading zeros of integer sub-elements (R144). -/
  | vClz (d a : Reg) (t : BitVec 4)
  /-- Counts set bits of integer sub-elements (R144). -/
  | vPop (d a : Reg) (t : BitVec 4)
  /-- Adds floating-point lanes or sub-elements (R146). -/
  | vFadd (d a b : Reg) (t : BitVec 4) (r : BitVec 2) (n : BitVec 1)
  /-- Subtracts floating-point lanes or sub-elements (R146). -/
  | vFsub (d a b : Reg) (t : BitVec 4) (r : BitVec 2) (n : BitVec 1)
  /-- Multiplies floating-point lanes or sub-elements (R146). -/
  | vFmul (d a b : Reg) (t : BitVec 4) (r : BitVec 2) (n : BitVec 1)
  /-- Writes the lesser floating-point element (R146). -/
  | vFmin (d a b : Reg) (t : BitVec 4)
  /-- Writes the greater floating-point element (R146). -/
  | vFmax (d a b : Reg) (t : BitVec 4)
  /-- Divides f32 or f64 elements (R146). -/
  | vFdiv (d a b : Reg) (t : BitVec 4) (r : BitVec 2) (n : BitVec 1)
  /-- Square root of f32 or f64 elements (R146). -/
  | vFsqrt (d a : Reg) (t : BitVec 4) (r : BitVec 2)
  /-- Approximate f32 reciprocal (R148). -/
  | vFrcp (d a : Reg)
  /-- Approximate f32 reciprocal square root (R148). -/
  | vFrsq (d a : Reg)
  /-- Approximate f32 base-2 exponential (R148). -/
  | vFexp2 (d a : Reg)
  /-- Approximate f32 base-2 logarithm (R148). -/
  | vFlog2 (d a : Reg)
  /-- Converts lanes between vector TYPEs (R149). -/
  | vCvt (d a : Reg) (u t : BitVec 4) (r : BitVec 2) (n : BitVec 1)
  /-- Narrows 32-bit values into a packed type (R150). -/
  | vPack (d a b : Reg) (t : BitVec 4) (r : BitVec 2) (n : BitVec 1)
  /-- Widens one sub-element of each lane to 32 bits (R151). -/
  | vUnpack (d a k : Reg) (t : BitVec 4)
  /-- Compares lanes and writes a mask triple (R152). -/
  | vCmp (d a b : Reg) (t : BitVec 4) (c : BitVec 3)
  /-- Selects lanes from a or b under a mask triple (R153). -/
  | vSel (d a b c : Reg)
  /-- Integer multiply-add of i32 lanes (R145). -/
  | vMad (d a b c : Reg) (n : BitVec 1)
  /-- Fused multiply-add of f32 lanes, RNE (R147). -/
  | vFmaF32 (d a b c : Reg) (n : BitVec 1)
  /-- Fused multiply-add of f64 elements, RNE (R147). -/
  | vFmaF64 (d a b c : Reg) (n : BitVec 1)
  /-- Fused multiply-add of f16 sub-elements, RNE (R147). -/
  | vFmaF16x2 (d a b c : Reg) (n : BitVec 1)
  /-- Fused multiply-add of bf16 sub-elements, RNE (R147). -/
  | vFmaBf16x2 (d a b c : Reg) (n : BitVec 1)
  /-- Writes a sign-extended immediate to active lanes (R154). -/
  | vLi (d : Reg) (i : BitVec 19)
  /-- Copies active lanes of a vector register (R154). -/
  | vMov (d a : Reg)
  /-- Broadcasts a scalar into active lanes or f64 elements (R154). -/
  | vBcast (d a : Reg) (t : BitVec 4)
  /-- Reads one lane into a scalar register (R155). -/
  | vGet (d a b : Reg)
  /-- Writes one active lane from a scalar register (R155). -/
  | vSet (d a b : Reg)
  /-- Writes each active lane's index (R154). -/
  | vIota (d : Reg)
  /-- Permutes lanes by per-lane indices (R156). -/
  | vPerm (d a b : Reg)
  /-- Shuffles lanes by rotate, butterfly, down or up (R157). -/
  | vShfl (d a b : Reg)
  /-- Floating-point sum reduction by the fixed tree (R158). -/
  | vRsum (d a : Reg) (t : BitVec 4)
  /-- Maximum reduction into a scalar (R158). -/
  | vRmax (d a : Reg) (t : BitVec 4)
  /-- Minimum reduction into a scalar (R158). -/
  | vRmin (d a : Reg) (t : BitVec 4)
  /-- Exact integer sum reduction into 64 bits (R158). -/
  | vRsumi (d a : Reg) (t : BitVec 4)
  /-- Inclusive prefix sum over lanes (R159). -/
  | vScan (d a : Reg) (t : BitVec 4) (r : BitVec 2)
  /-- Splits the executing path into T and F paths or pushes a nested entry (R113). -/
  | vSplit (d : Reg) (i : BitVec 19)
  /-- Joins divergent paths at the innermost open join header (R115). -/
  | vJoin
  /-- Sweeps an add over scratchpad tiles in steps of up to 96 points (R161). -/
  | vSweepAdd (d a : BitVec 3) (b : Reg) (t : BitVec 4) (r : BitVec 2) (n : BitVec 1)
  /-- Sweeps a multiply over scratchpad tiles (R161). -/
  | vSweepMul (d a : BitVec 3) (b : Reg) (t : BitVec 4) (r : BitVec 2) (n : BitVec 1)
  /-- Sweeps a maximum over scratchpad tiles (R161). -/
  | vSweepMax (d a : BitVec 3) (b : Reg) (t : BitVec 4) (r : BitVec 2) (n : BitVec 1)
  /-- Sweeps a minimum over scratchpad tiles (R161). -/
  | vSweepMin (d a : BitVec 3) (b : Reg) (t : BitVec 4) (r : BitVec 2) (n : BitVec 1)
  /-- Sweeps a fused multiply-add over scratchpad tiles (R161). -/
  | vSweepFma (d a b : BitVec 3) (t : BitVec 4) (r : BitVec 2) (n : BitVec 1)
  /-- Sweeps a conversion over scratchpad tiles (R161). -/
  | vSweepCvt (d a : BitVec 3) (t : BitVec 4) (r : BitVec 2) (n : BitVec 1)
  /-- Loads a sign-extended scalar from scratchpad (R266). -/
  | lLds (d b : Reg) (z : BitVec 2) (o : BitVec 10)
  /-- Loads a zero-extended scalar from scratchpad (R266). -/
  | lLdsN (d b : Reg) (z : BitVec 2) (o : BitVec 10)
  /-- Loads a vector register from scratchpad (R266). -/
  | lLdv (d b : Reg) (o : BitVec 10)
  /-- Indexed load of lanes from scratchpad (R266). -/
  | lLdvX (d a b : Reg) (s : BitVec 1) (e : BitVec 2)
  /-- Stores a scalar to scratchpad (R266). -/
  | lSts (d b : Reg) (z : BitVec 2) (o : BitVec 10)
  /-- Stores a vector register to scratchpad (R266). -/
  | lStv (d b : Reg) (o : BitVec 10)
  /-- Indexed store of lanes to scratchpad (R266). -/
  | lStvX (d a b : Reg) (e : BitVec 2)
  /-- Waits for a full word, reads it and sets it empty (R268). -/
  | lLdfTake (d b : Reg) (z : BitVec 1) (o : BitVec 10)
  /-- Waits for a full word and reads it (R268). -/
  | lLdfPeek (d b : Reg) (z : BitVec 1) (o : BitVec 10)
  /-- Waits for an empty word, writes it and sets it full (R268). -/
  | lStfFill (d b : Reg) (z : BitVec 1) (o : BitVec 10)
  /-- Writes a word and sets it full (R268). -/
  | lStfForce (d b : Reg) (z : BitVec 1) (o : BitVec 10)
  /-- Sets the F/E bits of a range full (R269). -/
  | lFeFull (d a b : Reg)
  /-- Sets the F/E bits of a range empty (R269). -/
  | lFeEmpty (d a b : Reg)
  /-- Counts full words in a range (R269). -/
  | lFeTest (d a b : Reg)
  /-- Opens a read-only cluster window (R270). -/
  | lWopenRo (d a b : Reg)
  /-- Opens a single-writer cluster window (R270). -/
  | lWopenSw (d a b : Reg)
  /-- Closes a cluster window after admitted accesses complete (R271). -/
  | lWclose (a : Reg)
  /-- Far load of a sign-extended scalar (R272). -/
  | fLds (d b : Reg) (z : BitVec 2) (o : BitVec 10)
  /-- Far load of a zero-extended scalar (R272). -/
  | fLdsN (d b : Reg) (z : BitVec 2) (o : BitVec 10)
  /-- Far load of a vector register (R272). -/
  | fLdv (d b : Reg) (o : BitVec 10)
  /-- Far indexed load of lanes (R272). -/
  | fLdvX (d a b : Reg) (s : BitVec 1) (e : BitVec 2)
  /-- Far store of a scalar (R272). -/
  | fSts (d b : Reg) (z : BitVec 2) (o : BitVec 10)
  /-- Far store of a vector register (R272). -/
  | fStv (d b : Reg) (o : BitVec 10)
  /-- Far indexed store of lanes (R272). -/
  | fStvX (d a b : Reg) (e : BitVec 2)
  /-- Far load that bypasses the near cache (R272). -/
  | fLdb (d b : Reg) (z : BitVec 2) (o : BitVec 10)
  /-- Far store that never allocates a lantern line (R272). -/
  | fStb (d b : Reg) (z : BitVec 2) (o : BitVec 10)
  /-- Prefetches a 64-byte line (R273). -/
  | pf (h : BitVec 1) (b : Reg) (o : BitVec 10)
  /-- Prefetches a 128-byte line (R273). -/
  | pfW (h : BitVec 1) (b : Reg) (o : BitVec 10)
  /-- Atomic add at the ordering point, returning the old value (R274). -/
  | aAdd (d a b : Reg) (w : BitVec 1)
  /-- Atomic minimum (R274). -/
  | aMin (d a b : Reg) (n w : BitVec 1)
  /-- Atomic maximum (R274). -/
  | aMax (d a b : Reg) (n w : BitVec 1)
  /-- Atomic AND (R274). -/
  | aAnd (d a b : Reg) (w : BitVec 1)
  /-- Atomic OR (R274). -/
  | aOr (d a b : Reg) (w : BitVec 1)
  /-- Atomic XOR (R274). -/
  | aXor (d a b : Reg) (w : BitVec 1)
  /-- Atomic exchange (R274). -/
  | aXchg (d a b : Reg) (w : BitVec 1)
  /-- Atomic floating-point add, optionally merging (R245). -/
  | aFadd (d a b : Reg) (m w : BitVec 1)
  /-- 32-bit atomic compare-and-swap (R274). -/
  | aCas (d a b c : Reg)
  /-- 64-bit atomic compare-and-swap (R274). -/
  | aCasD (d a b c : Reg)
  /-- Tries to take a reader lock, acquiring on success (R275). -/
  | aRlock (d a : Reg)
  /-- Releases then drops a reader lock (R275). -/
  | aRunlock (d a : Reg)
  /-- Tries to take the writer lock (R275). -/
  | aWlock (d a : Reg)
  /-- Releases then clears the writer lock (R275). -/
  | aWunlock (d a : Reg)
  /-- Holds the slot until the path slot's accesses meet the scope's conditions (R237). -/
  | fenceScope (s : BitVec 3)
  /-- Release fence at the scope inferred for a sync variable (R241). -/
  | fenceRel (a : Reg)
  /-- Acquire fence at the scope inferred for a sync variable (R241). -/
  | fenceAcq (a : Reg)
  /-- Holds until unacknowledged remote stores are zero (R238). -/
  | fenceW
  /-- Defines a lantern class from an LDR (R277). -/
  | lnDef (a : Reg)
  /-- Starts a change of a defined lantern class (R199). -/
  | lnResize (a : Reg)
  /-- Writes back dirty lantern lines of a range (R278). -/
  | lnFlush (a b : Reg)
  /-- Writes back and invalidates lantern lines of a range (R278). -/
  | lnInv (a b : Reg)
  /-- Reads the status word of a lantern class (R279). -/
  | lnStat (d a : Reg)
  /-- Submits a child grid's launch record into the PLQ (R165). -/
  | launch (d a : Reg)
  /-- Parks until enough teams of a grid have published, retiring it when all have (R166). -/
  | join (a b : Reg)
  /-- Releases and atomically increments an event word (R167). -/
  | evtPub (a : Reg)
  /-- Parks until an event word is non-zero, then decrements it (R167). -/
  | evtWait (a : Reg)
  /-- Arrives at a named barrier (R168). -/
  | barArrive (a : Reg) (n : BitVec 4)
  /-- Waits for the barrier generation to complete (R168). -/
  | barWait (n : BitVec 4)
  /-- Arrives at and waits on a named barrier (R169). -/
  | barSync (a : Reg) (n : BitVec 4)
  /-- Wins the next round of elections or not (R170). -/
  | elect (d : Reg)
  /-- Compacts active lanes of up to four groups at a rendezvous (R171). -/
  | gRegroup (d a : Reg)
  /-- Ends the run with the effect of a yield hint (R172). -/
  | yield
  /-- Arms the path slot's monitor on a line (R173). -/
  | monArm (a : Reg)
  /-- Parks until a monitor cause is latched and reports it (R173). -/
  | monWait (d : Reg)
  /-- Parks until the four counters fall to the given limits (R174). -/
  | wait (t c s l : BitVec 3)
  /-- Parks until any masked tag is set (R175). -/
  | tagWaitAny (d a : Reg)
  /-- Parks until all masked tags are set (R175). -/
  | tagWaitAll (d a : Reg)
  /-- Writes the index of the lowest set masked tag (R175). -/
  | tagFfs (d a : Reg)
  /-- Clears masked tags (R175). -/
  | tagClr (a : Reg)
  /-- Binds an iterator slot to a checked record (R304). -/
  | cpIter (d : BitVec 3) (a : Reg)
  /-- Starts a copy from far memory into scratchpad (R305). -/
  | cpIn (d a : BitVec 3) (t : Reg) (f : BitVec 1)
  /-- Starts a copy from scratchpad to far memory (R305). -/
  | cpOut (d a : BitVec 3) (t : Reg)
  /-- Starts a row gather by an index record (R308). -/
  | cpGather (d a b : BitVec 3) (t : Reg) (f : BitVec 1)
  /-- Starts a fill of a destination with a scalar value (R309). -/
  | cpFill (d : BitVec 3) (a t : Reg) (f : BitVec 1)
  /-- Starts a local-to-local or far-to-far copy (R305). -/
  | cpCopy (d a : BitVec 3) (t : Reg) (f : BitVec 1)
  /-- Snapshots a B quarter from vector registers into staging (R310). -/
  | mmBind (q : BitVec 2) (a : Reg) (k t : BitVec 4)
  /-- Queues clearing of a tile and its status (R312). -/
  | mmZero (n : BitVec 4)
  /-- Queues a pair-team matrix product into a tile (R313). -/
  | mmPair (n : BitVec 4) (a b : Reg) (t : BitVec 4)
  /-- Queues a single-core matrix product into a tile (R313). -/
  | mmOne (n : BitVec 4) (a b : Reg) (t : BitVec 4)
  /-- Queues a raw read of one tile row into a vector register (R314). -/
  | mmRd (d : Reg) (n : BitVec 4) (b : Reg)
  /-- Queues a scaled read of one tile row into a vector register (R314). -/
  | mmRdScale (d : Reg) (n : BitVec 4) (b v : Reg)
  /-- Queues a write of one tile row from a vector register (R315). -/
  | mmWr (n : BitVec 4) (a b : Reg)
  /-- Queues a read of a tile's status (R316). -/
  | mmChk (d : Reg) (n : BitVec 4)
  /-- Opens a fabric window from a descriptor (R425). -/
  | wOpen (d a : Reg)
  /-- Starts closing a fabric window (R426). -/
  | wClose (a : Reg)
  /-- Starts a one-sided put into a remote window (R427). -/
  | wPut (d a b t : Reg)
  /-- Starts a one-sided get from a remote window (R427). -/
  | wGet (d a b t : Reg)
  /-- Parks until a window's target counter reaches a count (R429). -/
  | wWait (a b : Reg)
  /-- Reads a window's target counter (R429). -/
  | wCntT (d a : Reg)
  /-- Reads a window's origin counter and error count (R429). -/
  | wCntO (d a : Reg)
  /-- Contributes to an all-reduce collective (R430). -/
  | collAr (d a b : Reg) (t : BitVec 4) (o : BitVec 2)
  /-- Takes part in a broadcast collective (R430). -/
  | collBc (d a b : Reg)
  /-- Parks until a collective ends and frees its slot (R431). -/
  | collWait (d a : Reg)
  /-- Cancels a collective before its result exists (R431). -/
  | collCancel (a : Reg)
  /-- Posts an Ultra Ethernet write or read (R432). -/
  | uePost (d a b : Reg)
  /-- Returns the oldest unreturned completion of a UE queue (R432). -/
  | uePoll (d a : Reg)
  /-- Reads a system register (R13). -/
  | sysRd (d : Reg) (r : BitVec 13)
  /-- Writes a system register that has no behaviour of its own (R13). -/
  | sysWr (a : Reg) (r : BitVec 13)
  /-- Sets WSB and WSP together while WSP equals WSB (R34). -/
  | sysWrWsb (a : Reg)
  /-- Sets WSL when not below WSP (R34). -/
  | sysWrWsl (a : Reg)
  /-- Writes the bits of the core's copy tags that are not BUSY (R290). -/
  | sysWrTags (a : Reg)
  /-- Returns from the trap handler, restoring mask and PC (R322). -/
  | tret (a : Reg)
  /-- Reads the core cycle counter (R381). -/
  | rdcyc (d : Reg)
  /-- Raises the resumable trap TRAP with an immediate code (R324). -/
  | trap (c : BitVec 13)
  /-- Raises BREAKPOINT with an immediate code (R324). -/
  | brk (c : BitVec 13)
  /-- Ends the executing path slot (R324). -/
  | halt
  /-- Emits a MARK trace packet when tracing admits it (R386). -/
  | traceMark (a : Reg) (m : BitVec 13)
  /-- Configures a counter, trace or comparator selector of the core's Lamplight units (R381). -/
  | ctrCfg (a b : Reg)
  /-- Selector 0x33 resumes a debug-stopped group (R388). -/
  | debugResume (a b : Reg)
  /-- Selector 0x3C releases the guest's Lamplight units on the core (R375). -/
  | release (a b : Reg)
  /-- Selector 0x40 reads and arms a replay control block (R389). -/
  | replayArm (a b : Reg)
  /-- Reads a Lamplight selector (R381). -/
  | ctrRd (d a : Reg)
  /-- Makes a replay checkpoint with a marker (R392). -/
  | rpMark (m : BitVec 13)
  /-- Creates an enclave from a descriptor (R365). -/
  | encMake (s d : BitVec 5)
  /-- Runs the hart inside an enclave, resuming or starting a thread (R367). -/
  | encEnter (t s d : BitVec 5)
  /-- Ends an enclave and frees its resources (R366). -/
  | encKill (s d : BitVec 5)
  /-- Seals an enclave page out to a hypervisor buffer (R371). -/
  | pgOut (s d : BitVec 5)
  /-- Restores a sealed page image into a frame (R372). -/
  | pgIn (s d : BitVec 5)
  /-- Transfers frames between POT owners and states (R373). -/
  | potXfer (s d : BitVec 5)
  /-- Leaves the enclave with an exit value (R368). -/
  | encExit (s : BitVec 5)
  /-- Copies an enclave page to a hypervisor page (R369). -/
  | encOut (t s d : BitVec 5)
  /-- Copies a hypervisor page into an enclave page (R369). -/
  | encIn (t s d : BitVec 5)
  /-- Writes a signed attestation report (R370). -/
  | encRep (t s d : BitVec 5)
  /-- An interrupt, for M-mode or HS-mode, seals the enclave thread's context and returns PREEMPTED (R368). -/
  | enclaveThreadInterrupt (h cause : Nat) (toM : Bool)
  /-- A hart store to a kick register appends a record address to the queue's FIFO (R341). -/
  | kickStore (h enc off size : Nat) (v : Word)
  /-- A kick store held on a full FIFO is appended once room appears (R341). -/
  | kickStoreAccept (enc q : Nat)
  /-- A die admits at most one record from the highest-priority eligible SIMT queue (R132). -/
  | admissionOpportunity (die : Nat)
  /-- A task leaves Depend once every task it depends on is DONE (R253). -/
  | dependRelease (task : Nat)
  /-- A task leaves Arbitrate when no conflicting task of another queue runs ahead of it (R255). -/
  | arbitrateRelease (task : Nat)
  /-- Walks every region page and either raises the leases or enters RESIDE, PENDING or COUNT (R220). -/
  | leaseWalk (task : Nat)
  /-- After 65,536 die cycles in PENDING the lease walks again (R220). -/
  | leasePendingTimeout (task : Nat)
  /-- The edge engine writes back, invalidates or forwards one line of an overlap (R256). -/
  | edgeLineAction (task : Nat)
  /-- Chandler tries to place waiting teams, evicting waiting parents where needed (R177). -/
  | placementAttempt (part : Nat)
  /-- At a slot's run boundary, chooses and binds the next ready group for one run (R135). -/
  | runArbitration (core slot : Nat)
  /-- A parked group's condition holds and it becomes READY to reissue (R25). -/
  | parkWake (gid : Nat)
  /-- A monitor latches SPURIOUS at any time (R173). -/
  | monitorSpurious (gid : Nat) (f : Bool)
  /-- An ENDING group becomes ENDED once its counters drain (R138). -/
  | groupEnded (gid : Nat)
  /-- Publishes a completed team's stores, completion map and counter (R137). -/
  | teamPublish (team : Nat)
  /-- At slice end, halts every group of the enclave in place (R347). -/
  | enclaveHalt (enc : Nat)
  /-- At slice start, restores sealed rows and makes teams READY (R349). -/
  | enclaveResume (enc : Nat)
  /-- A far load's data writes its destination and LD falls (R272). -/
  | farLoadReturn (gid k : Nat)
  /-- A store passes the core store point into the cluster store buffer and ST falls (R233). -/
  | coreStorePointPass (gid : Nat)
  /-- A request reaches its ordering point and its colour count falls (R225). -/
  | orderingPointArrival (r : Arrive)
  /-- An atomic or bundle executes indivisibly at the ordering point (R243). -/
  | atomicExecute (ms : List (Nat × Nat))
  /-- An atomic's old value returns to its register and LD falls (R274). -/
  | atomicReturn (gid k : Nat)
  /-- A held replayed request becomes next in its line's sequence and executes (R393). -/
  | orderGateRelease (gid k : Nat)
  /-- A request held 2^24 cycles ends the task with REPLAY_DIVERGED (R393). -/
  | orderGateTimeout (gid k : Nat)
  /-- The owner performs a window store and the remote-store count falls (R188). -/
  | windowStorePerformed (gid k : Nat)
  /-- The owning core returns a window load's data (R267). -/
  | windowLoadReturn (gid : Nat)
  /-- A request held on a released line is served once the release is visible to it (R242). -/
  | svtWidening (die k : Nat)
  /-- A copy command's last element is written; ranges release, tag sets, CP falls, flags OR in (R306). -/
  | copyComplete (core k : Nat)
  /-- A copy element fails a check, stopping the command and ending the task (R289). -/
  | copyElementFault (core k : Nat)
  /-- A queued tile operation starts once the previous entry retires (R297). -/
  | tileOpStart (core : Nat)
  /-- A tile operation commits after its check, writing results and lowering TL (R299). -/
  | tileOpRetire (core : Nat) (faults : List (List (Nat × Nat × Nat)))
  /-- A KEEP-LINES cursor moves the lines of one old pane-set (R200). -/
  | resizeCursorStep (part cls die : Nat)
  /-- A FLUSH-ALL cursor writes back and invalidates one pane-set (R201). -/
  | flushCursorStep (part cls die : Nat)
  /-- An invalidation is posted to the hub die's broadcast (R224). -/
  | invalidation (sc : InvScope)
  /-- A DTU acknowledges once the old colour's count is zero (R226). -/
  | dtuAcknowledge (die : Nat)
  /-- A DTU walk ends and installs or fails the translation (R215). -/
  | walkComplete (die k : Nat)
  /-- A VALID write to a migration entry starts a frame move (R227). -/
  | migrationEntryWrite (ctl k src dst : Nat)
  /-- The controller moves one line and advances CURSOR (R228). -/
  | migrationStep (ctl k : Nat) (tagOk : Bool)
  /-- A VALID = 0 write after DONE retires the move (R229). -/
  | migrationRetire (ctl k : Nat)
  /-- Writes a memory map table entry's hash unless locked (R205). -/
  | mmtWrite (k hash : Nat)
  /-- Writes a partition record, ignored on overlap or for live partitions (R352). -/
  | partitionRecordWrite (part : Nat) (ds : List Word)
  /-- Writes a virtual interface record, ignored if shares would exceed 65,536 (R355). With `name` the creations that follow name the
  interface (R354). -/
  | virtualInterfaceWrite (vi : Nat) (d0 d1 : Word) (name : Bool)
  /-- Writes GUAR or BURST of a frame account (R230). -/
  | frameAccountWrite (vi : Nat) (burst : Bool) (n : Nat)
  /-- Writes a die's CORE_TOKENS for the next refill (R401). -/
  | coreTokensWrite (die n : Nat)
  /-- Writes FAB_TOKENS for fabric metering (R406). -/
  | fabTokensWrite (n : Nat)
  /-- Writes the package id once after reset (R434). -/
  | pkgidWrite (n : Nat)
  /-- Writes the package power limit within 800-3,200 W (R435). -/
  | plimitWrite (n : Nat)
  /-- The hypervisor acquires or releases a Lamplight unit, suspending or resuming a guest session (R376). -/
  | lamplightAcquisition (core : Nat) (trace acquire : Bool)
  /-- Writes a management register that has no behaviour of its own (R434). With `v` absent the access reads. -/
  | managementWrite (src : MgmtFrom) (off : Nat) (v : Option Word)
  /-- Refills each core bucket entry and shares the pool among active tenants (R359). -/
  | tokenRefill (core : Nat)
  /-- A request waiting at the core port takes a token and leaves (R360). -/
  | portRequestDepart (r : PortReq)
  /-- Refills fabric egress buckets every 1,024 fabric cycles (R406). -/
  | fabricTokenRefill
  /-- When queue room returns after drops, a LOST packet is written (R385). -/
  | traceLost (core : Nat)
  /-- A unit counts a corrected error in its current window (R328). -/
  | correctableError (u : UnitKind) (ix : Nat) (line : Option Nat)
  /-- Each 2^30-cycle window boundary clears a unit's error count (R328). -/
  | errorWindowBoundary (u : UnitKind) (ix : Nat)
  /-- An uncorrectable error resets its attributed domain (R330). -/
  | uncorrectableError (place : ErrAt)
  /-- A task's first fault stops its groups and descendants (R325). -/
  | taskEnd (task : Nat)
  /-- Once every group has stopped, the fault record is written to the queue (R327). -/
  | faultRecord (task : Nat)
  /-- Power or temperature over limit halves tile-operation admission (R435). -/
  | throttling (pnow tmax : Nat)
  /-- A die sensor at 105 °C resets the package (R436). -/
  | thermalTrip (die temp : Nat)
  /-- Power-on or package reset runs the verified boot order (R433). `sigs` says of each image in the order of Table 27.1 whether
  its Ed25519 and its ML-DSA-65 signature verify, `trained` whether the memory trains, `frames` the frames that step 6 sets to
  firmware. -/
  | powerOn (sigs : List (Bool × Bool)) (trained : Bool) (frames : List Nat)
  /-- A die-to-die flit is received, checked and retried on CRC failure (R403). -/
  | dieToDieFlit (link : Nat) (crcOk : Bool) (enc : Nat)
  /-- A Tuilos flit is received with link-level retry (R404). -/
  | tuilosFlit (port : Nat) (ok : Bool)
  /-- A stream slot binds to a peer after mutual SPDM attestation (R407). -/
  | streamBinding (enc slot : Nat) (ed ml : Bool) (meas : BitVec 384) (agreed : Bool) (session : Nat) (create : Word)
  /-- A binding undecided in 2^31 fabric cycles fails with PEERFAIL (R411). -/
  | streamBindingTimeout (enc slot : Nat)
  /-- A stream flit is authenticated and sequence-checked or discarded (R408). -/
  | streamFlitReceive (enc slot : Nat) (f : Flit)
  /-- A put arrives at a target window and is admitted or refused (R412). -/
  | putArrival (wid off enc slot : Nat) (data : List Byte)
  /-- A get arrives at a target window and is served or refused (R412). -/
  | getArrival (wid off len enc slot : Nat)
  /-- TCNT rises once all bytes of a put reach their ordering points (R412). -/
  | tcntIncrement (wid : Nat)
  /-- A put or get acknowledgement returns, raising OCNT or OERR and setting the tag (R412). -/
  | transferAcknowledgement (xfer : Nat) (ok : Bool) (data : List Byte)
  /-- A peer receives a window close notice and acknowledges when quiet (R413). -/
  | closeNotice (enc slot wid : Nat)
  /-- The peer's acknowledgement makes a CLOSING window CLOSED (R413). -/
  | closeAcknowledgement (wid : Nat)
  /-- A collective's result is written into member windows (R415). -/
  | collectiveResult (grp k status : Nat) (peers : List PeerPart)
  /-- A member's end makes pending and later collectives GONE (R417). -/
  | collectiveMemberGone (grp rank : Nat)
  /-- An Ultra Ethernet packet is placed in its target window (R419). -/
  | uePacket (wid off : Nat) (peer : BitVec 128) (p : UePkt)
  /-- A UE post ends and its completion is queued (R419). -/
  | ueCompletion (enc q k status : Nat) (data : List Byte)
  /-- DMA on a bound IDE stream is admitted as a put or aborted (R421). -/
  | hostDma (stream wid off : Nat) (wr : Bool) (data : List Byte)
  /-- A host CXL.mem access reaches device frames (R420). -/
  | cxlMemAccess (wr : Bool) (pa : Nat) (data : List Byte)
  /-- SPDM GET_VERSION request answered by the Sconce (R340). `box` is the requester's DOE mailbox: 0 of function 0, v + 1 of
  interface v; a larger number is a requester over the fabric. -/
  | getVersion (box : Nat) (req : List Byte)
  /-- SPDM GET_CAPABILITIES request answered by the Sconce (R340). -/
  | getCapabilities (box : Nat) (req : List Byte)
  /-- SPDM NEGOTIATE_ALGORITHMS request answered by the Sconce (R340). -/
  | negotiateAlgorithms (box : Nat) (req : List Byte)
  /-- SPDM GET_DIGESTS request answered by the Sconce (R340). -/
  | getDigests (box : Nat) (req : List Byte)
  /-- SPDM GET_CERTIFICATE request answered by the Sconce (R340). -/
  | getCertificate (box : Nat) (req : List Byte)
  /-- SPDM CHALLENGE answered with a doubly signed response (R340). -/
  | challenge (box : Nat) (req : List Byte)
  /-- SPDM GET_MEASUREMENTS returns firmware or enclave measurements (R340). -/
  | getMeasurements (box index enc : Nat) (req : List Byte)
  /-- SPDM KEY_EXCHANGE opens a mutually authenticated session (R407). -/
  | keyExchange (box session : Nat) (req : List Byte)
  /-- SPDM FINISH completes a session (R407). -/
  | finish (box session : Nat) (ok : Bool)
  /-- The hypervisor advances GET of the pager queue, letting Chandler post a held residency request (R335). -/
  | pagerGetAdvance (enc : Nat)
  /-- A lantern write-back made by ln.flush or ln.inv reaches its memory controller, and the instruction's ST entry falls when the last one arrives (R278). -/
  | writeBackArrival (gid k : Nat)
  /-- An interrupt that becomes pending stops a running enc.make or enc.kill with RESTART (R365). -/
  | pendingInterrupt (h : Nat)
  /-- A package stopped by a failed boot step answers a request on the recovery mailbox of the host DOE (R433). -/
  | recoveryMailboxRequest (req : List Byte)
  /-- A TDISP message moves a TDI of a virtual function or attached device into or out of RUN and binds or unbinds its selective IDE stream (R421). -/
  | tdispRequest (op : TdispOp) (tdi enc stream : Nat)
  /-- The Sconce's SPDM attestation of the switch reduction engines on a collective group's routes completes, letting a COLL w.open return (R414). -/
  | switchEngineAttestation (grp part nmemb : Nat) (ok : Option Bool)
  deriving DecidableEq, Repr

end Sys2Proof
end

