-- ==== Sys2Proof/WellFormed.lean ====
section
/-! DEFINITION. Which operand values an instruction accepts: the third bullet of 02 R46 with the sets of R53, R54, R55
and of the tables of 02, and the ranges of the operands of events. A word whose fields fail these checks is no
instruction. -/

namespace Sys2Proof

/-- A condition code as a number. -/
def cc (c : BitVec 3) : Nat := c.toNat

/-- TYPE in INT = 0 to 5 (02 R54). -/
def tyInt (t : BitVec 4) : Bool := t.toNat ≤ 5
/-- TYPE in W = 0, 1. -/
def tyW (t : BitVec 4) : Bool := t.toNat ≤ 1
/-- TYPE in SINT = 0, 2, 4. -/
def tySint (t : BitVec 4) : Bool := t = 0#4 || t = 2#4 || t = 4#4
/-- TYPE in FP = 6 to 11. -/
def tyFp (t : BitVec 4) : Bool := 6 ≤ t.toNat && t.toNat ≤ 11
/-- TYPE in FW = 6, 7. -/
def tyFw (t : BitVec 4) : Bool := t = 6#4 || t = 7#4
/-- TYPE in 0, 1, 6, 7 (v.cmp, v.rmax, v.rmin). -/
def tyCmp (t : BitVec 4) : Bool := tyW t || tyFw t
/-- TYPE in 0, 1, 6 (v.scan, v.sweep). -/
def tySw (t : BitVec 4) : Bool := tyW t || t = 6#4
/-- TYPE in PK = 2 to 5, 8 to 11. -/
def tyPk (t : BitVec 4) : Bool := (2 ≤ t.toNat && t.toNat ≤ 5) || (8 ≤ t.toNat && t.toNat ≤ 11)

/-- The RM column "any" of 02 R54: all four modes for TYPE 6 to 9, else only 0b00. -/
def rmAny (t : BitVec 4) (r : BitVec 2) : Bool := (6 ≤ t.toNat && t.toNat ≤ 9) || r = 0#2

/-- The four faulting combinations of s.fcvt (02 R53). -/
def fcvtOk (s t : BitVec 3) (r : BitVec 2) (n : BitVec 1) : Bool :=
  s ≠ t && !(n = 1#1 && (2 ≤ t.toNat && t.toNat ≤ 5)) && !(r ≠ 0#2 && 6 ≤ t.toNat) && !(r ≠ 0#2 && s.toNat ≤ 1)

/-- Accepted pairs, RM and SN of v.cvt; `u` is the destination TYPE and `t` the source (02 R55, 06 R149). -/
def vcvtOk (u t : BitVec 4) (r : BitVec 2) (n : BitVec 1) : Bool :=
  let a := t.toNat
  let b := u.toNat
  let set1 (x : Nat) := x = 0 || x = 1 || x = 6
  let set2 (x : Nat) := x = 2 || x = 3 || x = 8 || x = 9
  let set3 (x : Nat) := x = 4 || x = 5 || x = 10 || x = 11
  (a ≠ b) &&
  ((set1 a && set1 b) || (set2 a && set2 b) || (set3 a && set3 b) || (a = 7 && set1 b) || (b = 7 && set1 a)) &&
  (r = 0#2 || (6 ≤ a && 6 ≤ b && b ≤ 9)) &&
  (n = 0#1 || b ≤ 5 || b = 10 || b = 11)

/-- RM and SN of v.pack (06 R150). -/
def vpackOk (t : BitVec 4) (r : BitVec 2) (n : BitVec 1) : Bool :=
  tyPk t && (r = 0#2 || t = 8#4 || t = 9#4) && !(n = 1#1 && (t = 8#4 || t = 9#4))

/-- The index of v.unpack (02 R55). -/
def vunpackOk (k : Reg) (t : BitVec 4) : Bool :=
  tyPk t && k.toNat < (VTy.of t).subs

/-- A mask triple's base is at most 61 (02 R48, R55). -/
def tripleOk (n : Reg) : Bool := n.toNat ≤ 61

/-- v.cmp (02 R55). -/
def vcmpOk (d : Reg) (t : BitVec 4) (c : BitVec 3) : Bool :=
  tripleOk d && tyCmp t && c.toNat ≤ 6 && !(c = 6#3 && tyW t)

/-- TYPE, RM and SN of a sweep (02 Table 2.6, 06 R160). -/
def sweepTypeOk (t : BitVec 4) (r : BitVec 2) (n : BitVec 1) : Bool :=
  tySw t && rmAny t r && !(n = 1#1 && t = 6#4)

/-- The b field of a sweep is an iterator 0 to 7, or 63 (02 R55). -/
def sweepOk (b : Reg) (t : BitVec 4) (r : BitVec 2) (n : BitVec 1) : Bool :=
  (b.toNat ≤ 7 || b = 63#6) && sweepTypeOk t r n

/-- Matrix type codes 0 to 7 (02 Table 2.10). -/
def mmTypeOk (t : BitVec 4) : Bool := t.toNat ≤ 7

/-- TYPE and operation of coll.ar (02 Table 2.11). -/
def collOk (t : BitVec 4) (o : BitVec 2) : Bool :=
  (t = 0#4 || t = 1#4 || t = 6#4 || t = 7#4 || t = 9#4) && o ≠ 3#2

/-- The register numbers of sys.wr that rows of their own name (WSB, WSL, TAGS, TRET) are not sys.wr's. -/
def sysWrOwn (r : BitVec 13) : Bool := r ≠ 0x48#13 && r ≠ 0x49#13 && r ≠ 0x10#13 && r ≠ 0x2B#13

/-- Whether the operands of an instruction or event lie in the sets the spec gives. -/
def Instr.wellFormed : Instr → Bool
  | .sAdd _ _ _ => true
  | .sSub _ _ _ => true
  | .sAnd _ _ _ => true
  | .sOr _ _ _ => true
  | .sXor _ _ _ => true
  | .sAndn _ _ _ => true
  | .sShl _ _ _ => true
  | .sShr _ _ _ => true
  | .sSra _ _ _ => true
  | .sRot _ _ _ => true
  | .sMin _ _ _ => true
  | .sMax _ _ _ => true
  | .sMinn _ _ _ => true
  | .sMaxn _ _ _ => true
  | .sMov _ _ => true
  | .sMul _ _ _ => true
  | .sMulh _ _ _ => true
  | .sMulhn _ _ _ => true
  | .sDiv _ _ _ => true
  | .sDivn _ _ _ => true
  | .sRem _ _ _ => true
  | .sRemn _ _ _ => true
  | .sClz _ _ => true
  | .sCtz _ _ => true
  | .sPop _ _ => true
  | .sBext _ _ _ => true
  | .sBins _ _ _ => true
  | .sCmp _ _ _ c => cc c ≤ 5
  | .sSel _ _ _ _ => true
  | .sLea _ _ _ _ => true
  | .sAddi _ _ _ => true
  | .sAndi _ _ _ => true
  | .sOri _ _ _ => true
  | .sXori _ _ _ => true
  | .sShli _ _ _ => true
  | .sShri _ _ _ => true
  | .sSrai _ _ _ => true
  | .sCmpi c _ _ _ => cc c ≤ 5
  | .sLi _ _ => true
  | .sLim _ _ => true
  | .nop => true
  | .sFadd _ _ _ _ _ => true
  | .sFsub _ _ _ _ _ => true
  | .sFmul _ _ _ _ _ => true
  | .sFdiv _ _ _ _ _ => true
  | .sFsqrt _ _ _ _ => true
  | .sFmin _ _ _ _ => true
  | .sFmax _ _ _ _ => true
  | .sFclass _ _ _ => true
  | .sFcmp _ _ _ c _ => cc c ≤ 3
  | .sFcvt _ _ s t r n => fcvtOk s t r n
  | .sFma _ _ _ _ _ _ _ => true
  | .branch _ => true
  | .bz _ _ => true
  | .bnz _ _ => true
  | .loop _ _ => true
  | .jr _ => true
  | .call _ _ => true
  | .callr _ _ => true
  | .ret => true
  | .bcmp c _ _ _ => cc c ≤ 5
  | .vAdd _ _ _ t _ => tyInt t
  | .vSub _ _ _ t _ => tyInt t
  | .vMul _ _ _ t _ => tyInt t
  | .vMulh _ _ _ t => tyInt t
  | .vAnd _ _ _ => true
  | .vOr _ _ _ => true
  | .vXor _ _ _ => true
  | .vAndn _ _ _ => true
  | .vShl _ _ _ t _ => tyInt t
  | .vShr _ _ _ t => tyInt t
  | .vSra _ _ _ t => tyInt t
  | .vMin _ _ _ t => tyInt t
  | .vMax _ _ _ t => tyInt t
  | .vAbs _ _ t _ => tySint t
  | .vClz _ _ t => tyInt t
  | .vPop _ _ t => tyInt t
  | .vFadd _ _ _ t r _ => tyFp t && rmAny t r
  | .vFsub _ _ _ t r _ => tyFp t && rmAny t r
  | .vFmul _ _ _ t r _ => tyFp t && rmAny t r
  | .vFmin _ _ _ t => tyFp t
  | .vFmax _ _ _ t => tyFp t
  | .vFdiv _ _ _ t r _ => tyFw t && rmAny t r
  | .vFsqrt _ _ t r => tyFw t && rmAny t r
  | .vFrcp _ _ => true
  | .vFrsq _ _ => true
  | .vFexp2 _ _ => true
  | .vFlog2 _ _ => true
  | .vCvt _ _ u t r n => vcvtOk u t r n
  | .vPack _ _ _ t r n => vpackOk t r n
  | .vUnpack _ _ k t => vunpackOk k t
  | .vCmp d _ _ t c => vcmpOk d t c
  | .vSel _ _ _ c => tripleOk c
  | .vMad _ _ _ _ _ => true
  | .vFmaF32 _ _ _ _ _ => true
  | .vFmaF64 _ _ _ _ _ => true
  | .vFmaF16x2 _ _ _ _ _ => true
  | .vFmaBf16x2 _ _ _ _ _ => true
  | .vLi _ _ => true
  | .vMov _ _ => true
  | .vBcast _ _ t => t = 0#4 || t = 7#4
  | .vGet _ _ _ => true
  | .vSet _ _ _ => true
  | .vIota _ => true
  | .vPerm _ _ _ => true
  | .vShfl _ _ _ => true
  | .vRsum _ _ t => tyFw t
  | .vRmax _ _ t => tyCmp t
  | .vRmin _ _ t => tyCmp t
  | .vRsumi _ _ t => tyW t
  | .vScan _ _ t r => tySw t && rmAny t r
  | .vSplit d _ => tripleOk d
  | .vJoin => true
  | .vSweepAdd _ _ b t r n => sweepOk b t r n
  | .vSweepMul _ _ b t r n => sweepOk b t r n
  | .vSweepMax _ _ b t r n => sweepOk b t r n
  | .vSweepMin _ _ b t r n => sweepOk b t r n
  | .vSweepFma _ _ _ t r n => sweepTypeOk t r n
  | .vSweepCvt _ _ t r n => sweepTypeOk t r n
  | .lLds _ _ _ _ => true
  | .lLdsN _ _ _ _ => true
  | .lLdv _ _ _ => true
  | .lLdvX _ _ _ _ e => e ≠ 3#2
  | .lSts _ _ _ _ => true
  | .lStv _ _ _ => true
  | .lStvX _ _ _ e => e ≠ 3#2
  | .lLdfTake _ _ _ _ => true
  | .lLdfPeek _ _ _ _ => true
  | .lStfFill _ _ _ _ => true
  | .lStfForce _ _ _ _ => true
  | .lFeFull _ _ _ => true
  | .lFeEmpty _ _ _ => true
  | .lFeTest _ _ _ => true
  | .lWopenRo _ _ _ => true
  | .lWopenSw _ _ _ => true
  | .lWclose _ => true
  | .fLds _ _ _ _ => true
  | .fLdsN _ _ _ _ => true
  | .fLdv _ _ _ => true
  | .fLdvX _ _ _ _ e => e ≠ 3#2
  | .fSts _ _ _ _ => true
  | .fStv _ _ _ => true
  | .fStvX _ _ _ e => e ≠ 3#2
  | .fLdb _ _ _ _ => true
  | .fStb _ _ _ _ => true
  | .pf _ _ _ => true
  | .pfW _ _ _ => true
  | .aAdd _ _ _ _ => true
  | .aMin _ _ _ _ _ => true
  | .aMax _ _ _ _ _ => true
  | .aAnd _ _ _ _ => true
  | .aOr _ _ _ _ => true
  | .aXor _ _ _ _ => true
  | .aXchg _ _ _ _ => true
  | .aFadd _ _ _ _ _ => true
  | .aCas _ _ _ _ => true
  | .aCasD _ _ _ _ => true
  | .aRlock _ _ => true
  | .aRunlock _ _ => true
  | .aWlock _ _ => true
  | .aWunlock _ _ => true
  | .fenceScope s => s ≠ 7#3
  | .fenceRel _ => true
  | .fenceAcq _ => true
  | .fenceW => true
  | .lnDef _ => true
  | .lnResize _ => true
  | .lnFlush _ _ => true
  | .lnInv _ _ => true
  | .lnStat _ _ => true
  | .launch _ _ => true
  | .join _ _ => true
  | .evtPub _ => true
  | .evtWait _ => true
  | .barArrive _ _ => true
  | .barWait _ => true
  | .barSync _ _ => true
  | .elect _ => true
  | .gRegroup _ _ => true
  | .yield => true
  | .monArm _ => true
  | .monWait _ => true
  | .wait _ _ _ _ => true
  | .tagWaitAny _ _ => true
  | .tagWaitAll _ _ => true
  | .tagFfs _ _ => true
  | .tagClr _ => true
  | .cpIter _ _ => true
  | .cpIn _ _ _ _ => true
  | .cpOut _ _ _ => true
  | .cpGather _ _ _ _ _ => true
  | .cpFill _ _ _ _ => true
  | .cpCopy _ _ _ _ => true
  | .mmBind _ a k t => mmTypeOk t && a.toNat + 4 * (k.toNat + 1) - 1 ≤ 63
  | .mmZero _ => true
  | .mmPair _ _ _ t => mmTypeOk t
  | .mmOne _ _ _ t => mmTypeOk t
  | .mmRd _ _ _ => true
  | .mmRdScale _ _ _ _ => true
  | .mmWr _ _ _ => true
  | .mmChk _ _ => true
  | .wOpen _ _ => true
  | .wClose _ => true
  | .wPut _ _ _ _ => true
  | .wGet _ _ _ _ => true
  | .wWait _ _ => true
  | .wCntT _ _ => true
  | .wCntO _ _ => true
  | .collAr _ _ _ t o => collOk t o
  | .collBc _ _ _ => true
  | .collWait _ _ => true
  | .collCancel _ => true
  | .uePost _ _ _ => true
  | .uePoll _ _ => true
  | .sysRd _ _ => true
  | .sysWr _ r => sysWrOwn r
  | .sysWrWsb _ => true
  | .sysWrWsl _ => true
  | .sysWrTags _ => true
  | .tret _ => true
  | .rdcyc _ => true
  | .trap _ => true
  | .brk _ => true
  | .halt => true
  | .traceMark _ _ => true
  | .ctrCfg _ _ => true
  | .debugResume _ _ => true
  | .release _ _ => true
  | .replayArm _ _ => true
  | .ctrRd _ _ => true
  | .rpMark _ => true
  | .encMake _ _ => true
  | .encEnter _ _ _ => true
  | .encKill _ _ => true
  | .pgOut _ _ => true
  | .pgIn _ _ => true
  | .potXfer _ _ => true
  | .encExit _ => true
  | .encOut _ _ _ => true
  | .encIn _ _ _ => true
  | .encRep _ _ _ => true
  | .enclaveThreadInterrupt h _ _ => h < 64
  | .kickStore h _ _ _ _ => h < 64
  | .kickStoreAccept _ q => q < 16
  | .admissionOpportunity die => die < 4
  | .dependRelease _ => true
  | .arbitrateRelease _ => true
  | .leaseWalk _ => true
  | .leasePendingTimeout _ => true
  | .edgeLineAction _ => true
  | .placementAttempt _ => true
  | .runArbitration core slot => core < 512 && slot < 2
  | .parkWake _ => true
  | .monitorSpurious _ _ => true
  | .groupEnded _ => true
  | .teamPublish _ => true
  | .enclaveHalt _ => true
  | .enclaveResume _ => true
  | .farLoadReturn _ _ => true
  | .coreStorePointPass _ => true
  | .orderingPointArrival _ => true
  | .atomicExecute _ => true
  | .atomicReturn _ _ => true
  | .orderGateRelease _ _ => true
  | .orderGateTimeout _ _ => true
  | .windowStorePerformed _ _ => true
  | .windowLoadReturn _ => true
  | .svtWidening die _ => die < 4
  | .copyComplete core _ => core < 512
  | .copyElementFault core _ => core < 512
  | .tileOpStart core => core < 512
  | .tileOpRetire core faults => core < 512 && faults.length ≤ 2
  | .resizeCursorStep _ cls die => cls < 64 && die < 4
  | .flushCursorStep _ cls die => cls < 64 && die < 4
  | .invalidation _ => true
  | .dtuAcknowledge die => die < 4
  | .walkComplete die _ => die < 4
  | .migrationEntryWrite ctl k _ _ => ctl < 5 && k < 64
  | .migrationStep ctl k _ => ctl < 5 && k < 64
  | .migrationRetire ctl k => ctl < 5 && k < 64
  | .mmtWrite k hash => k < 2816 && hash < 4
  | .partitionRecordWrite part ds => part < 255 && ds.length = 64
  | .virtualInterfaceWrite vi _ _ _ => vi < 256
  | .frameAccountWrite vi _ _ => vi < 256
  | .coreTokensWrite die _ => die < 4
  | .fabTokensWrite _ => true
  | .pkgidWrite _ => true
  | .plimitWrite _ => true
  | .lamplightAcquisition core _ _ => core < 512
  | .managementWrite _ _ _ => true
  | .tokenRefill core => core < 512
  | .portRequestDepart _ => true
  | .fabricTokenRefill => true
  | .traceLost core => core < 512
  | .correctableError _ _ _ => true
  | .errorWindowBoundary _ _ => true
  | .uncorrectableError _ => true
  | .taskEnd _ => true
  | .faultRecord _ => true
  | .throttling _ _ => true
  | .thermalTrip die _ => die ≤ 4
  | .powerOn _ _ _ => true
  | .dieToDieFlit link _ _ => link < 10
  | .tuilosFlit port _ => port < 18
  | .streamBinding _ _ _ _ _ _ _ _ => true
  | .streamBindingTimeout _ slot => slot < 64
  | .streamFlitReceive _ _ _ => true
  | .putArrival _ _ _ _ _ => true
  | .getArrival _ _ _ _ _ => true
  | .tcntIncrement _ => true
  | .transferAcknowledgement _ _ _ => true
  | .closeNotice _ _ _ => true
  | .closeAcknowledgement _ => true
  | .collectiveResult _ _ _ _ => true
  | .collectiveMemberGone _ _ => true
  | .uePacket _ _ _ _ => true
  | .ueCompletion _ q _ _ _ => q < 16
  | .hostDma _ _ _ _ _ => true
  | .cxlMemAccess _ _ _ => true
  | .getVersion _ _ => true
  | .getCapabilities _ _ => true
  | .negotiateAlgorithms _ _ => true
  | .getDigests _ _ => true
  | .getCertificate _ _ => true
  | .challenge _ _ => true
  | .getMeasurements _ _ _ _ => true
  | .keyExchange _ _ _ => true
  | .finish _ _ _ => true
  | .pagerGetAdvance _ => true
  | .writeBackArrival _ _ => true
  | .pendingInterrupt h => h < 64
  | .recoveryMailboxRequest _ => true
  | .tdispRequest _ _ _ _ => true
  | .switchEngineAttestation _ _ _ _ => true

end Sys2Proof
end

