-- ==== Sys2Proof/Decode.lean ====
section
/-! DEFINITION. Clause headers, the decoder and the encoder (01 R14, R15, R38, R39; 02 R46 to R61; 20 R362, R363).
The decoder is total: a word that is no instruction of its clause's class decodes to none, and the machine then faults
ILLEGAL_INSTRUCTION. It reads the opcode, demands the fixed bits that remain, takes the operand fields and asks
WellFormed. The encoder is written from the same tables of the spec. -/

namespace Sys2Proof

/-- A decoded clause header (01 Table 1.4). -/
structure Header where
  cls : Cls
  ph : Nat
  y : Bool
  endRun : Bool
  wt : Nat
  wc : Nat
  ws : Nat
  wl : Nat
  n : Nat
  deriving DecidableEq, Repr

/-- `len` bits of a word from bit `lo`, as a number. -/
def fldN (w : W32) (lo len : Nat) : Nat := w.toNat / 2 ^ lo % 2 ^ len

/-- `len` bits of a word from bit `lo`, as an operand field. -/
def fld (w : W32) (lo len : Nat) : BitVec len := BitVec.ofNat len (w.toNat / 2 ^ lo)

/-- The class of a CLASS code of a header; 0b110 and 0b111 are illegal (01 Table 1.4). -/
def classOf (c : Nat) : Option Cls :=
  match c with
  | 0 => some .sv | 1 => some .mem | 2 => some .sync | 3 => some .eng | 4 => some .fab | 5 => some .sys
  | _ => none

/-- The header a word holds, or none where 01 R15 faults ILLEGAL_CLAUSE. -/
def decodeHeader (w : W32) : Option Header :=
  if fldN w 28 4 = 0b1010 ∧ fldN w 23 5 = 0 ∧ fldN w 0 4 ≠ 0 then
    (classOf (fldN w 4 3)).map fun c =>
      { cls := c, ph := fldN w 21 2, y := fldN w 20 1 = 1, endRun := fldN w 19 1 = 1, wt := fldN w 16 3,
        wc := fldN w 13 3, ws := fldN w 10 3, wl := fldN w 7 3, n := fldN w 0 4 }
  else none

/-- SV opcode 0x00. -/
def sv00 (w : W32) : Option Instr :=
  if fldN w 0 7 = 14 ∧ fldN w 7 6 = 0 then some (.sMov (fld w 19 6) (fld w 13 6))
  else if fldN w 0 7 = 24 ∧ fldN w 7 6 = 0 then some (.sClz (fld w 19 6) (fld w 13 6))
  else if fldN w 0 7 = 25 ∧ fldN w 7 6 = 0 then some (.sCtz (fld w 19 6) (fld w 13 6))
  else if fldN w 0 7 = 26 ∧ fldN w 7 6 = 0 then some (.sPop (fld w 19 6) (fld w 13 6))
  else if fldN w 0 7 = 0 then some (.sAdd (fld w 19 6) (fld w 13 6) (fld w 7 6))
  else if fldN w 0 7 = 1 then some (.sSub (fld w 19 6) (fld w 13 6) (fld w 7 6))
  else if fldN w 0 7 = 2 then some (.sAnd (fld w 19 6) (fld w 13 6) (fld w 7 6))
  else if fldN w 0 7 = 3 then some (.sOr (fld w 19 6) (fld w 13 6) (fld w 7 6))
  else if fldN w 0 7 = 4 then some (.sXor (fld w 19 6) (fld w 13 6) (fld w 7 6))
  else if fldN w 0 7 = 5 then some (.sAndn (fld w 19 6) (fld w 13 6) (fld w 7 6))
  else if fldN w 0 7 = 6 then some (.sShl (fld w 19 6) (fld w 13 6) (fld w 7 6))
  else if fldN w 0 7 = 7 then some (.sShr (fld w 19 6) (fld w 13 6) (fld w 7 6))
  else if fldN w 0 7 = 8 then some (.sSra (fld w 19 6) (fld w 13 6) (fld w 7 6))
  else if fldN w 0 7 = 9 then some (.sRot (fld w 19 6) (fld w 13 6) (fld w 7 6))
  else if fldN w 0 7 = 10 then some (.sMin (fld w 19 6) (fld w 13 6) (fld w 7 6))
  else if fldN w 0 7 = 11 then some (.sMax (fld w 19 6) (fld w 13 6) (fld w 7 6))
  else if fldN w 0 7 = 12 then some (.sMinn (fld w 19 6) (fld w 13 6) (fld w 7 6))
  else if fldN w 0 7 = 13 then some (.sMaxn (fld w 19 6) (fld w 13 6) (fld w 7 6))
  else if fldN w 0 7 = 16 then some (.sMul (fld w 19 6) (fld w 13 6) (fld w 7 6))
  else if fldN w 0 7 = 17 then some (.sMulh (fld w 19 6) (fld w 13 6) (fld w 7 6))
  else if fldN w 0 7 = 18 then some (.sMulhn (fld w 19 6) (fld w 13 6) (fld w 7 6))
  else if fldN w 0 7 = 20 then some (.sDiv (fld w 19 6) (fld w 13 6) (fld w 7 6))
  else if fldN w 0 7 = 21 then some (.sDivn (fld w 19 6) (fld w 13 6) (fld w 7 6))
  else if fldN w 0 7 = 22 then some (.sRem (fld w 19 6) (fld w 13 6) (fld w 7 6))
  else if fldN w 0 7 = 23 then some (.sRemn (fld w 19 6) (fld w 13 6) (fld w 7 6))
  else if fldN w 0 7 = 28 then some (.sBext (fld w 19 6) (fld w 13 6) (fld w 7 6))
  else if fldN w 0 7 = 29 then some (.sBins (fld w 19 6) (fld w 13 6) (fld w 7 6))
  else none

/-- SV opcode 0x01. -/
def sv01 (w : W32) : Option Instr :=
  if fldN w 3 4 = 0 then some (.sCmp (fld w 19 6) (fld w 13 6) (fld w 7 6) (fld w 0 3))
  else none

/-- SV opcode 0x02. -/
def sv02 (w : W32) : Option Instr :=
  if fldN w 0 1 = 0 then some (.sSel (fld w 19 6) (fld w 13 6) (fld w 7 6) (fld w 1 6))
  else none

/-- SV opcode 0x03. -/
def sv03 (w : W32) : Option Instr :=
  if fldN w 3 4 = 0 then some (.sLea (fld w 19 6) (fld w 13 6) (fld w 7 6) (fld w 0 3))
  else none

/-- SV opcode 0x08. -/
def sv08 (w : W32) : Option Instr :=
  some (.sAddi (fld w 19 6) (fld w 13 6) (fld w 0 13))

/-- SV opcode 0x09. -/
def sv09 (w : W32) : Option Instr :=
  some (.sAndi (fld w 19 6) (fld w 13 6) (fld w 0 13))

/-- SV opcode 0x0A. -/
def sv0A (w : W32) : Option Instr :=
  some (.sOri (fld w 19 6) (fld w 13 6) (fld w 0 13))

/-- SV opcode 0x0B. -/
def sv0B (w : W32) : Option Instr :=
  some (.sXori (fld w 19 6) (fld w 13 6) (fld w 0 13))

/-- SV opcode 0x0C. -/
def sv0C (w : W32) : Option Instr :=
  if fldN w 6 7 = 0 then some (.sShli (fld w 19 6) (fld w 13 6) (fld w 0 6))
  else none

/-- SV opcode 0x0D. -/
def sv0D (w : W32) : Option Instr :=
  if fldN w 6 7 = 0 then some (.sShri (fld w 19 6) (fld w 13 6) (fld w 0 6))
  else none

/-- SV opcode 0x0E. -/
def sv0E (w : W32) : Option Instr :=
  if fldN w 6 7 = 0 then some (.sSrai (fld w 19 6) (fld w 13 6) (fld w 0 6))
  else none

/-- SV opcode 0x10 to 0x17. -/
def sv10 (w : W32) : Option Instr :=
  some (.sCmpi (fld w 25 3) (fld w 19 6) (fld w 13 6) (fld w 0 13))

/-- SV opcode 0x18. -/
def sv18 (w : W32) : Option Instr :=
  some (.sLi (fld w 19 6) (fld w 0 19))

/-- SV opcode 0x19. -/
def sv19 (w : W32) : Option Instr :=
  some (.sLim (fld w 19 6) (fld w 0 19))

/-- SV opcode 0x1F. -/
def sv1F (w : W32) : Option Instr :=
  if fldN w 0 25 = 0 then some (.nop)
  else none

/-- SV opcode 0x20. -/
def sv20 (w : W32) : Option Instr :=
  if fldN w 3 4 = 7 ∧ fldN w 1 2 = 0 ∧ fldN w 7 6 = 0 then some (.sFclass (fld w 19 6) (fld w 13 6) (fld w 0 1))
  else if fldN w 3 4 = 4 ∧ fldN w 7 6 = 0 then some (.sFsqrt (fld w 19 6) (fld w 13 6) (fld w 1 2) (fld w 0 1))
  else if fldN w 3 4 = 5 ∧ fldN w 1 2 = 0 then some (.sFmin (fld w 19 6) (fld w 13 6) (fld w 7 6) (fld w 0 1))
  else if fldN w 3 4 = 6 ∧ fldN w 1 2 = 0 then some (.sFmax (fld w 19 6) (fld w 13 6) (fld w 7 6) (fld w 0 1))
  else if fldN w 3 4 = 0 then some (.sFadd (fld w 19 6) (fld w 13 6) (fld w 7 6) (fld w 1 2) (fld w 0 1))
  else if fldN w 3 4 = 1 then some (.sFsub (fld w 19 6) (fld w 13 6) (fld w 7 6) (fld w 1 2) (fld w 0 1))
  else if fldN w 3 4 = 2 then some (.sFmul (fld w 19 6) (fld w 13 6) (fld w 7 6) (fld w 1 2) (fld w 0 1))
  else if fldN w 3 4 = 3 then some (.sFdiv (fld w 19 6) (fld w 13 6) (fld w 7 6) (fld w 1 2) (fld w 0 1))
  else none

/-- SV opcode 0x21. -/
def sv21 (w : W32) : Option Instr :=
  if fldN w 1 3 = 0 then some (.sFcmp (fld w 19 6) (fld w 13 6) (fld w 7 6) (fld w 4 3) (fld w 0 1))
  else none

/-- SV opcode 0x22. -/
def sv22 (w : W32) : Option Instr :=
  if fldN w 3 4 = 0 then some (.sFcvt (fld w 19 6) (fld w 13 6) (fld w 10 3) (fld w 7 3) (fld w 1 2) (fld w 0 1))
  else none

/-- SV opcode 0x28 to 0x2F. -/
def sv28 (w : W32) : Option Instr :=
  some (.sFma (fld w 27 1) (fld w 25 2) (fld w 19 6) (fld w 13 6) (fld w 7 6) (fld w 1 6) (fld w 0 1))

/-- SV opcode 0x30. -/
def sv30 (w : W32) : Option Instr :=
  if fldN w 19 6 = 0 then some (.branch (fld w 0 19))
  else none

/-- SV opcode 0x31. -/
def sv31 (w : W32) : Option Instr :=
  some (.bz (fld w 19 6) (fld w 0 19))

/-- SV opcode 0x32. -/
def sv32 (w : W32) : Option Instr :=
  some (.bnz (fld w 19 6) (fld w 0 19))

/-- SV opcode 0x33. -/
def sv33 (w : W32) : Option Instr :=
  some (.loop (fld w 19 6) (fld w 0 19))

/-- SV opcode 0x34. -/
def sv34 (w : W32) : Option Instr :=
  if fldN w 0 13 = 0 ∧ fldN w 19 6 = 0 then some (.jr (fld w 13 6))
  else none

/-- SV opcode 0x35. -/
def sv35 (w : W32) : Option Instr :=
  if fldN w 21 4 = 0 then some (.call (fld w 19 2) (fld w 0 19))
  else none

/-- SV opcode 0x36. -/
def sv36 (w : W32) : Option Instr :=
  if fldN w 2 11 = 0 ∧ fldN w 19 6 = 0 then some (.callr (fld w 13 6) (fld w 0 2))
  else none

/-- SV opcode 0x37. -/
def sv37 (w : W32) : Option Instr :=
  if fldN w 0 25 = 0 then some (.ret)
  else none

/-- SV opcode 0x38 to 0x3F. -/
def sv38 (w : W32) : Option Instr :=
  some (.bcmp (fld w 25 3) (fld w 19 6) (fld w 13 6) (fld w 0 13))

/-- SV opcode 0x40. -/
def sv40 (w : W32) : Option Instr :=
  if fldN w 1 2 = 0 then some (.vAdd (fld w 19 6) (fld w 13 6) (fld w 7 6) (fld w 3 4) (fld w 0 1))
  else none

/-- SV opcode 0x41. -/
def sv41 (w : W32) : Option Instr :=
  if fldN w 1 2 = 0 then some (.vSub (fld w 19 6) (fld w 13 6) (fld w 7 6) (fld w 3 4) (fld w 0 1))
  else none

/-- SV opcode 0x42. -/
def sv42 (w : W32) : Option Instr :=
  if fldN w 1 2 = 0 then some (.vMul (fld w 19 6) (fld w 13 6) (fld w 7 6) (fld w 3 4) (fld w 0 1))
  else none

/-- SV opcode 0x43. -/
def sv43 (w : W32) : Option Instr :=
  if fldN w 0 3 = 0 then some (.vMulh (fld w 19 6) (fld w 13 6) (fld w 7 6) (fld w 3 4))
  else none

/-- SV opcode 0x44. -/
def sv44 (w : W32) : Option Instr :=
  if fldN w 0 7 = 0 then some (.vAnd (fld w 19 6) (fld w 13 6) (fld w 7 6))
  else none

/-- SV opcode 0x45. -/
def sv45 (w : W32) : Option Instr :=
  if fldN w 0 7 = 0 then some (.vOr (fld w 19 6) (fld w 13 6) (fld w 7 6))
  else none

/-- SV opcode 0x46. -/
def sv46 (w : W32) : Option Instr :=
  if fldN w 0 7 = 0 then some (.vXor (fld w 19 6) (fld w 13 6) (fld w 7 6))
  else none

/-- SV opcode 0x47. -/
def sv47 (w : W32) : Option Instr :=
  if fldN w 0 7 = 0 then some (.vAndn (fld w 19 6) (fld w 13 6) (fld w 7 6))
  else none

/-- SV opcode 0x48. -/
def sv48 (w : W32) : Option Instr :=
  if fldN w 1 2 = 0 then some (.vShl (fld w 19 6) (fld w 13 6) (fld w 7 6) (fld w 3 4) (fld w 0 1))
  else none

/-- SV opcode 0x49. -/
def sv49 (w : W32) : Option Instr :=
  if fldN w 0 3 = 0 then some (.vShr (fld w 19 6) (fld w 13 6) (fld w 7 6) (fld w 3 4))
  else none

/-- SV opcode 0x4A. -/
def sv4A (w : W32) : Option Instr :=
  if fldN w 0 3 = 0 then some (.vSra (fld w 19 6) (fld w 13 6) (fld w 7 6) (fld w 3 4))
  else none

/-- SV opcode 0x4B. -/
def sv4B (w : W32) : Option Instr :=
  if fldN w 0 3 = 0 then some (.vMin (fld w 19 6) (fld w 13 6) (fld w 7 6) (fld w 3 4))
  else none

/-- SV opcode 0x4C. -/
def sv4C (w : W32) : Option Instr :=
  if fldN w 0 3 = 0 then some (.vMax (fld w 19 6) (fld w 13 6) (fld w 7 6) (fld w 3 4))
  else none

/-- SV opcode 0x4D. -/
def sv4D (w : W32) : Option Instr :=
  if fldN w 1 2 = 0 ∧ fldN w 7 6 = 0 then some (.vAbs (fld w 19 6) (fld w 13 6) (fld w 3 4) (fld w 0 1))
  else none

/-- SV opcode 0x4E. -/
def sv4E (w : W32) : Option Instr :=
  if fldN w 0 3 = 0 ∧ fldN w 7 6 = 0 then some (.vClz (fld w 19 6) (fld w 13 6) (fld w 3 4))
  else none

/-- SV opcode 0x4F. -/
def sv4F (w : W32) : Option Instr :=
  if fldN w 0 3 = 0 ∧ fldN w 7 6 = 0 then some (.vPop (fld w 19 6) (fld w 13 6) (fld w 3 4))
  else none

/-- SV opcode 0x50. -/
def sv50 (w : W32) : Option Instr :=
  some (.vFadd (fld w 19 6) (fld w 13 6) (fld w 7 6) (fld w 3 4) (fld w 1 2) (fld w 0 1))

/-- SV opcode 0x51. -/
def sv51 (w : W32) : Option Instr :=
  some (.vFsub (fld w 19 6) (fld w 13 6) (fld w 7 6) (fld w 3 4) (fld w 1 2) (fld w 0 1))

/-- SV opcode 0x52. -/
def sv52 (w : W32) : Option Instr :=
  some (.vFmul (fld w 19 6) (fld w 13 6) (fld w 7 6) (fld w 3 4) (fld w 1 2) (fld w 0 1))

/-- SV opcode 0x53. -/
def sv53 (w : W32) : Option Instr :=
  if fldN w 0 3 = 0 then some (.vFmin (fld w 19 6) (fld w 13 6) (fld w 7 6) (fld w 3 4))
  else none

/-- SV opcode 0x54. -/
def sv54 (w : W32) : Option Instr :=
  if fldN w 0 3 = 0 then some (.vFmax (fld w 19 6) (fld w 13 6) (fld w 7 6) (fld w 3 4))
  else none

/-- SV opcode 0x55. -/
def sv55 (w : W32) : Option Instr :=
  some (.vFdiv (fld w 19 6) (fld w 13 6) (fld w 7 6) (fld w 3 4) (fld w 1 2) (fld w 0 1))

/-- SV opcode 0x56. -/
def sv56 (w : W32) : Option Instr :=
  if fldN w 0 1 = 0 ∧ fldN w 7 6 = 0 then some (.vFsqrt (fld w 19 6) (fld w 13 6) (fld w 3 4) (fld w 1 2))
  else none

/-- SV opcode 0x57. -/
def sv57 (w : W32) : Option Instr :=
  if fldN w 0 13 = 48 then some (.vFrcp (fld w 19 6) (fld w 13 6))
  else none

/-- SV opcode 0x58. -/
def sv58 (w : W32) : Option Instr :=
  if fldN w 0 13 = 48 then some (.vFrsq (fld w 19 6) (fld w 13 6))
  else none

/-- SV opcode 0x59. -/
def sv59 (w : W32) : Option Instr :=
  if fldN w 0 13 = 48 then some (.vFexp2 (fld w 19 6) (fld w 13 6))
  else none

/-- SV opcode 0x5A. -/
def sv5A (w : W32) : Option Instr :=
  if fldN w 0 13 = 48 then some (.vFlog2 (fld w 19 6) (fld w 13 6))
  else none

/-- SV opcode 0x5B. -/
def sv5B (w : W32) : Option Instr :=
  if fldN w 11 2 = 0 then some (.vCvt (fld w 19 6) (fld w 13 6) (fld w 7 4) (fld w 3 4) (fld w 1 2) (fld w 0 1))
  else none

/-- SV opcode 0x5C. -/
def sv5C (w : W32) : Option Instr :=
  some (.vPack (fld w 19 6) (fld w 13 6) (fld w 7 6) (fld w 3 4) (fld w 1 2) (fld w 0 1))

/-- SV opcode 0x5D. -/
def sv5D (w : W32) : Option Instr :=
  if fldN w 0 3 = 0 then some (.vUnpack (fld w 19 6) (fld w 13 6) (fld w 7 6) (fld w 3 4))
  else none

/-- SV opcode 0x5E. -/
def sv5E (w : W32) : Option Instr :=
  some (.vCmp (fld w 19 6) (fld w 13 6) (fld w 7 6) (fld w 3 4) (fld w 0 3))

/-- SV opcode 0x5F. -/
def sv5F (w : W32) : Option Instr :=
  if fldN w 0 1 = 0 then some (.vSel (fld w 19 6) (fld w 13 6) (fld w 7 6) (fld w 1 6))
  else none

/-- SV opcode 0x60. -/
def sv60 (w : W32) : Option Instr :=
  some (.vMad (fld w 19 6) (fld w 13 6) (fld w 7 6) (fld w 1 6) (fld w 0 1))

/-- SV opcode 0x61. -/
def sv61 (w : W32) : Option Instr :=
  some (.vFmaF32 (fld w 19 6) (fld w 13 6) (fld w 7 6) (fld w 1 6) (fld w 0 1))

/-- SV opcode 0x62. -/
def sv62 (w : W32) : Option Instr :=
  some (.vFmaF64 (fld w 19 6) (fld w 13 6) (fld w 7 6) (fld w 1 6) (fld w 0 1))

/-- SV opcode 0x63. -/
def sv63 (w : W32) : Option Instr :=
  some (.vFmaF16x2 (fld w 19 6) (fld w 13 6) (fld w 7 6) (fld w 1 6) (fld w 0 1))

/-- SV opcode 0x64. -/
def sv64 (w : W32) : Option Instr :=
  some (.vFmaBf16x2 (fld w 19 6) (fld w 13 6) (fld w 7 6) (fld w 1 6) (fld w 0 1))

/-- SV opcode 0x68. -/
def sv68 (w : W32) : Option Instr :=
  some (.vLi (fld w 19 6) (fld w 0 19))

/-- SV opcode 0x69. -/
def sv69 (w : W32) : Option Instr :=
  if fldN w 0 13 = 0 then some (.vMov (fld w 19 6) (fld w 13 6))
  else none

/-- SV opcode 0x6A. -/
def sv6A (w : W32) : Option Instr :=
  if fldN w 0 3 = 0 ∧ fldN w 7 6 = 0 then some (.vBcast (fld w 19 6) (fld w 13 6) (fld w 3 4))
  else none

/-- SV opcode 0x6B. -/
def sv6B (w : W32) : Option Instr :=
  if fldN w 0 7 = 0 then some (.vGet (fld w 19 6) (fld w 13 6) (fld w 7 6))
  else none

/-- SV opcode 0x6C. -/
def sv6C (w : W32) : Option Instr :=
  if fldN w 0 7 = 0 then some (.vSet (fld w 19 6) (fld w 13 6) (fld w 7 6))
  else none

/-- SV opcode 0x6D. -/
def sv6D (w : W32) : Option Instr :=
  if fldN w 0 19 = 0 then some (.vIota (fld w 19 6))
  else none

/-- SV opcode 0x6E. -/
def sv6E (w : W32) : Option Instr :=
  if fldN w 0 7 = 0 then some (.vPerm (fld w 19 6) (fld w 13 6) (fld w 7 6))
  else none

/-- SV opcode 0x6F. -/
def sv6F (w : W32) : Option Instr :=
  if fldN w 0 7 = 0 then some (.vShfl (fld w 19 6) (fld w 13 6) (fld w 7 6))
  else none

/-- SV opcode 0x70. -/
def sv70 (w : W32) : Option Instr :=
  if fldN w 0 3 = 0 ∧ fldN w 7 6 = 0 then some (.vRsum (fld w 19 6) (fld w 13 6) (fld w 3 4))
  else none

/-- SV opcode 0x71. -/
def sv71 (w : W32) : Option Instr :=
  if fldN w 0 3 = 0 ∧ fldN w 7 6 = 0 then some (.vRmax (fld w 19 6) (fld w 13 6) (fld w 3 4))
  else none

/-- SV opcode 0x72. -/
def sv72 (w : W32) : Option Instr :=
  if fldN w 0 3 = 0 ∧ fldN w 7 6 = 0 then some (.vRmin (fld w 19 6) (fld w 13 6) (fld w 3 4))
  else none

/-- SV opcode 0x73. -/
def sv73 (w : W32) : Option Instr :=
  if fldN w 0 3 = 0 ∧ fldN w 7 6 = 0 then some (.vRsumi (fld w 19 6) (fld w 13 6) (fld w 3 4))
  else none

/-- SV opcode 0x74. -/
def sv74 (w : W32) : Option Instr :=
  if fldN w 0 1 = 0 ∧ fldN w 7 6 = 0 then some (.vScan (fld w 19 6) (fld w 13 6) (fld w 3 4) (fld w 1 2))
  else none

/-- SV opcode 0x75. -/
def sv75 (w : W32) : Option Instr :=
  some (.vSplit (fld w 19 6) (fld w 0 19))

/-- SV opcode 0x76. -/
def sv76 (w : W32) : Option Instr :=
  if fldN w 0 25 = 0 then some (.vJoin)
  else none

/-- SV opcode 0x78. -/
def sv78 (w : W32) : Option Instr :=
  if fldN w 16 3 = 0 ∧ fldN w 22 3 = 0 then some (.vSweepAdd (fld w 19 3) (fld w 13 3) (fld w 7 6) (fld w 3 4) (fld w 1 2) (fld w 0 1))
  else none

/-- SV opcode 0x79. -/
def sv79 (w : W32) : Option Instr :=
  if fldN w 16 3 = 0 ∧ fldN w 22 3 = 0 then some (.vSweepMul (fld w 19 3) (fld w 13 3) (fld w 7 6) (fld w 3 4) (fld w 1 2) (fld w 0 1))
  else none

/-- SV opcode 0x7A. -/
def sv7A (w : W32) : Option Instr :=
  if fldN w 16 3 = 0 ∧ fldN w 22 3 = 0 then some (.vSweepMax (fld w 19 3) (fld w 13 3) (fld w 7 6) (fld w 3 4) (fld w 1 2) (fld w 0 1))
  else none

/-- SV opcode 0x7B. -/
def sv7B (w : W32) : Option Instr :=
  if fldN w 16 3 = 0 ∧ fldN w 22 3 = 0 then some (.vSweepMin (fld w 19 3) (fld w 13 3) (fld w 7 6) (fld w 3 4) (fld w 1 2) (fld w 0 1))
  else none

/-- SV opcode 0x7C. -/
def sv7C (w : W32) : Option Instr :=
  if fldN w 10 3 = 0 ∧ fldN w 16 3 = 0 ∧ fldN w 22 3 = 0 then some (.vSweepFma (fld w 19 3) (fld w 13 3) (fld w 7 3) (fld w 3 4) (fld w 1 2) (fld w 0 1))
  else none

/-- SV opcode 0x7D. -/
def sv7D (w : W32) : Option Instr :=
  if fldN w 7 6 = 63 ∧ fldN w 16 3 = 0 ∧ fldN w 22 3 = 0 then some (.vSweepCvt (fld w 19 3) (fld w 13 3) (fld w 3 4) (fld w 1 2) (fld w 0 1))
  else none

/-- SV words (02 Tables 2.1 to 2.6). -/
def rawSv (w : W32) : Option Instr :=
  match fldN w 25 7 with
  | 0 => sv00 w
  | 1 => sv01 w
  | 2 => sv02 w
  | 3 => sv03 w
  | 8 => sv08 w
  | 9 => sv09 w
  | 10 => sv0A w
  | 11 => sv0B w
  | 12 => sv0C w
  | 13 => sv0D w
  | 14 => sv0E w
  | 16 | 17 | 18 | 19 | 20 | 21 | 22 | 23 => sv10 w
  | 24 => sv18 w
  | 25 => sv19 w
  | 31 => sv1F w
  | 32 => sv20 w
  | 33 => sv21 w
  | 34 => sv22 w
  | 40 | 41 | 42 | 43 | 44 | 45 | 46 | 47 => sv28 w
  | 48 => sv30 w
  | 49 => sv31 w
  | 50 => sv32 w
  | 51 => sv33 w
  | 52 => sv34 w
  | 53 => sv35 w
  | 54 => sv36 w
  | 55 => sv37 w
  | 56 | 57 | 58 | 59 | 60 | 61 | 62 | 63 => sv38 w
  | 64 => sv40 w
  | 65 => sv41 w
  | 66 => sv42 w
  | 67 => sv43 w
  | 68 => sv44 w
  | 69 => sv45 w
  | 70 => sv46 w
  | 71 => sv47 w
  | 72 => sv48 w
  | 73 => sv49 w
  | 74 => sv4A w
  | 75 => sv4B w
  | 76 => sv4C w
  | 77 => sv4D w
  | 78 => sv4E w
  | 79 => sv4F w
  | 80 => sv50 w
  | 81 => sv51 w
  | 82 => sv52 w
  | 83 => sv53 w
  | 84 => sv54 w
  | 85 => sv55 w
  | 86 => sv56 w
  | 87 => sv57 w
  | 88 => sv58 w
  | 89 => sv59 w
  | 90 => sv5A w
  | 91 => sv5B w
  | 92 => sv5C w
  | 93 => sv5D w
  | 94 => sv5E w
  | 95 => sv5F w
  | 96 => sv60 w
  | 97 => sv61 w
  | 98 => sv62 w
  | 99 => sv63 w
  | 100 => sv64 w
  | 104 => sv68 w
  | 105 => sv69 w
  | 106 => sv6A w
  | 107 => sv6B w
  | 108 => sv6C w
  | 109 => sv6D w
  | 110 => sv6E w
  | 111 => sv6F w
  | 112 => sv70 w
  | 113 => sv71 w
  | 114 => sv72 w
  | 115 => sv73 w
  | 116 => sv74 w
  | 117 => sv75 w
  | 118 => sv76 w
  | 120 => sv78 w
  | 121 => sv79 w
  | 122 => sv7A w
  | 123 => sv7B w
  | 124 => sv7C w
  | 125 => sv7D w
  | _ => none

/-- MEM opcode 0x00. -/
def mem00 (w : W32) : Option Instr :=
  if fldN w 12 1 = 0 then some (.lLds (fld w 19 6) (fld w 13 6) (fld w 10 2) (fld w 0 10))
  else none

/-- MEM opcode 0x01. -/
def mem01 (w : W32) : Option Instr :=
  if fldN w 12 1 = 0 then some (.lLdsN (fld w 19 6) (fld w 13 6) (fld w 10 2) (fld w 0 10))
  else none

/-- MEM opcode 0x02. -/
def mem02 (w : W32) : Option Instr :=
  if fldN w 10 3 = 7 then some (.lLdv (fld w 19 6) (fld w 13 6) (fld w 0 10))
  else none

/-- MEM opcode 0x03. -/
def mem03 (w : W32) : Option Instr :=
  if fldN w 3 4 = 0 then some (.lLdvX (fld w 19 6) (fld w 13 6) (fld w 7 6) (fld w 2 1) (fld w 0 2))
  else none

/-- MEM opcode 0x04. -/
def mem04 (w : W32) : Option Instr :=
  if fldN w 12 1 = 0 then some (.lSts (fld w 19 6) (fld w 13 6) (fld w 10 2) (fld w 0 10))
  else none

/-- MEM opcode 0x05. -/
def mem05 (w : W32) : Option Instr :=
  if fldN w 10 3 = 7 then some (.lStv (fld w 19 6) (fld w 13 6) (fld w 0 10))
  else none

/-- MEM opcode 0x06. -/
def mem06 (w : W32) : Option Instr :=
  if fldN w 2 5 = 0 then some (.lStvX (fld w 19 6) (fld w 13 6) (fld w 7 6) (fld w 0 2))
  else none

/-- MEM opcode 0x08. -/
def mem08 (w : W32) : Option Instr :=
  if fldN w 11 2 = 1 then some (.lLdfTake (fld w 19 6) (fld w 13 6) (fld w 10 1) (fld w 0 10))
  else none

/-- MEM opcode 0x09. -/
def mem09 (w : W32) : Option Instr :=
  if fldN w 11 2 = 1 then some (.lLdfPeek (fld w 19 6) (fld w 13 6) (fld w 10 1) (fld w 0 10))
  else none

/-- MEM opcode 0x0A. -/
def mem0A (w : W32) : Option Instr :=
  if fldN w 11 2 = 1 then some (.lStfFill (fld w 19 6) (fld w 13 6) (fld w 10 1) (fld w 0 10))
  else none

/-- MEM opcode 0x0B. -/
def mem0B (w : W32) : Option Instr :=
  if fldN w 11 2 = 1 then some (.lStfForce (fld w 19 6) (fld w 13 6) (fld w 10 1) (fld w 0 10))
  else none

/-- MEM opcode 0x0C. -/
def mem0C (w : W32) : Option Instr :=
  if fldN w 0 7 = 0 then some (.lFeFull (fld w 19 6) (fld w 13 6) (fld w 7 6))
  else if fldN w 0 7 = 1 then some (.lFeEmpty (fld w 19 6) (fld w 13 6) (fld w 7 6))
  else if fldN w 0 7 = 2 then some (.lFeTest (fld w 19 6) (fld w 13 6) (fld w 7 6))
  else none

/-- MEM opcode 0x0D. -/
def mem0D (w : W32) : Option Instr :=
  if fldN w 0 7 = 0 then some (.lWopenRo (fld w 19 6) (fld w 13 6) (fld w 7 6))
  else if fldN w 0 7 = 1 then some (.lWopenSw (fld w 19 6) (fld w 13 6) (fld w 7 6))
  else none

/-- MEM opcode 0x0E. -/
def mem0E (w : W32) : Option Instr :=
  if fldN w 0 13 = 0 ∧ fldN w 19 6 = 0 then some (.lWclose (fld w 13 6))
  else none

/-- MEM opcode 0x20. -/
def mem20 (w : W32) : Option Instr :=
  if fldN w 12 1 = 0 then some (.fLds (fld w 19 6) (fld w 13 6) (fld w 10 2) (fld w 0 10))
  else none

/-- MEM opcode 0x21. -/
def mem21 (w : W32) : Option Instr :=
  if fldN w 12 1 = 0 then some (.fLdsN (fld w 19 6) (fld w 13 6) (fld w 10 2) (fld w 0 10))
  else none

/-- MEM opcode 0x22. -/
def mem22 (w : W32) : Option Instr :=
  if fldN w 10 3 = 7 then some (.fLdv (fld w 19 6) (fld w 13 6) (fld w 0 10))
  else none

/-- MEM opcode 0x23. -/
def mem23 (w : W32) : Option Instr :=
  if fldN w 3 4 = 0 then some (.fLdvX (fld w 19 6) (fld w 13 6) (fld w 7 6) (fld w 2 1) (fld w 0 2))
  else none

/-- MEM opcode 0x24. -/
def mem24 (w : W32) : Option Instr :=
  if fldN w 12 1 = 0 then some (.fSts (fld w 19 6) (fld w 13 6) (fld w 10 2) (fld w 0 10))
  else none

/-- MEM opcode 0x25. -/
def mem25 (w : W32) : Option Instr :=
  if fldN w 10 3 = 7 then some (.fStv (fld w 19 6) (fld w 13 6) (fld w 0 10))
  else none

/-- MEM opcode 0x26. -/
def mem26 (w : W32) : Option Instr :=
  if fldN w 2 5 = 0 then some (.fStvX (fld w 19 6) (fld w 13 6) (fld w 7 6) (fld w 0 2))
  else none

/-- MEM opcode 0x28. -/
def mem28 (w : W32) : Option Instr :=
  if fldN w 12 1 = 0 then some (.fLdb (fld w 19 6) (fld w 13 6) (fld w 10 2) (fld w 0 10))
  else none

/-- MEM opcode 0x29. -/
def mem29 (w : W32) : Option Instr :=
  if fldN w 12 1 = 0 then some (.fStb (fld w 19 6) (fld w 13 6) (fld w 10 2) (fld w 0 10))
  else none

/-- MEM opcode 0x2A. -/
def mem2A (w : W32) : Option Instr :=
  if fldN w 10 3 = 5 ∧ fldN w 20 5 = 0 then some (.pf (fld w 19 1) (fld w 13 6) (fld w 0 10))
  else if fldN w 10 3 = 6 ∧ fldN w 20 5 = 0 then some (.pfW (fld w 19 1) (fld w 13 6) (fld w 0 10))
  else none

/-- MEM opcode 0x40. -/
def mem40 (w : W32) : Option Instr :=
  if fldN w 1 6 = 0 then some (.aAdd (fld w 19 6) (fld w 13 6) (fld w 7 6) (fld w 0 1))
  else none

/-- MEM opcode 0x41. -/
def mem41 (w : W32) : Option Instr :=
  if fldN w 2 5 = 0 then some (.aMin (fld w 19 6) (fld w 13 6) (fld w 7 6) (fld w 1 1) (fld w 0 1))
  else none

/-- MEM opcode 0x42. -/
def mem42 (w : W32) : Option Instr :=
  if fldN w 2 5 = 0 then some (.aMax (fld w 19 6) (fld w 13 6) (fld w 7 6) (fld w 1 1) (fld w 0 1))
  else none

/-- MEM opcode 0x43. -/
def mem43 (w : W32) : Option Instr :=
  if fldN w 1 6 = 0 then some (.aAnd (fld w 19 6) (fld w 13 6) (fld w 7 6) (fld w 0 1))
  else none

/-- MEM opcode 0x44. -/
def mem44 (w : W32) : Option Instr :=
  if fldN w 1 6 = 0 then some (.aOr (fld w 19 6) (fld w 13 6) (fld w 7 6) (fld w 0 1))
  else none

/-- MEM opcode 0x45. -/
def mem45 (w : W32) : Option Instr :=
  if fldN w 1 6 = 0 then some (.aXor (fld w 19 6) (fld w 13 6) (fld w 7 6) (fld w 0 1))
  else none

/-- MEM opcode 0x46. -/
def mem46 (w : W32) : Option Instr :=
  if fldN w 1 6 = 0 then some (.aXchg (fld w 19 6) (fld w 13 6) (fld w 7 6) (fld w 0 1))
  else none

/-- MEM opcode 0x47. -/
def mem47 (w : W32) : Option Instr :=
  if fldN w 1 1 = 0 ∧ fldN w 3 4 = 0 then some (.aFadd (fld w 19 6) (fld w 13 6) (fld w 7 6) (fld w 2 1) (fld w 0 1))
  else none

/-- MEM opcode 0x48. -/
def mem48 (w : W32) : Option Instr :=
  if fldN w 0 1 = 0 then some (.aCas (fld w 19 6) (fld w 13 6) (fld w 7 6) (fld w 1 6))
  else none

/-- MEM opcode 0x49. -/
def mem49 (w : W32) : Option Instr :=
  if fldN w 0 1 = 0 then some (.aCasD (fld w 19 6) (fld w 13 6) (fld w 7 6) (fld w 1 6))
  else none

/-- MEM opcode 0x4A. -/
def mem4A (w : W32) : Option Instr :=
  if fldN w 0 13 = 0 then some (.aRlock (fld w 19 6) (fld w 13 6))
  else none

/-- MEM opcode 0x4B. -/
def mem4B (w : W32) : Option Instr :=
  if fldN w 0 13 = 0 then some (.aRunlock (fld w 19 6) (fld w 13 6))
  else none

/-- MEM opcode 0x4C. -/
def mem4C (w : W32) : Option Instr :=
  if fldN w 0 13 = 0 then some (.aWlock (fld w 19 6) (fld w 13 6))
  else none

/-- MEM opcode 0x4D. -/
def mem4D (w : W32) : Option Instr :=
  if fldN w 0 13 = 0 then some (.aWunlock (fld w 19 6) (fld w 13 6))
  else none

/-- MEM opcode 0x60. -/
def mem60 (w : W32) : Option Instr :=
  if fldN w 3 22 = 0 then some (.fenceScope (fld w 0 3))
  else none

/-- MEM opcode 0x61. -/
def mem61 (w : W32) : Option Instr :=
  if fldN w 0 13 = 0 ∧ fldN w 19 6 = 0 then some (.fenceRel (fld w 13 6))
  else none

/-- MEM opcode 0x62. -/
def mem62 (w : W32) : Option Instr :=
  if fldN w 0 13 = 0 ∧ fldN w 19 6 = 0 then some (.fenceAcq (fld w 13 6))
  else none

/-- MEM opcode 0x63. -/
def mem63 (w : W32) : Option Instr :=
  if fldN w 0 25 = 0 then some (.fenceW)
  else none

/-- MEM opcode 0x70. -/
def mem70 (w : W32) : Option Instr :=
  if fldN w 0 13 = 0 ∧ fldN w 19 6 = 0 then some (.lnDef (fld w 13 6))
  else none

/-- MEM opcode 0x71. -/
def mem71 (w : W32) : Option Instr :=
  if fldN w 0 13 = 0 ∧ fldN w 19 6 = 0 then some (.lnResize (fld w 13 6))
  else none

/-- MEM opcode 0x72. -/
def mem72 (w : W32) : Option Instr :=
  if fldN w 0 7 = 0 ∧ fldN w 19 6 = 0 then some (.lnFlush (fld w 13 6) (fld w 7 6))
  else none

/-- MEM opcode 0x73. -/
def mem73 (w : W32) : Option Instr :=
  if fldN w 0 7 = 0 ∧ fldN w 19 6 = 0 then some (.lnInv (fld w 13 6) (fld w 7 6))
  else none

/-- MEM opcode 0x74. -/
def mem74 (w : W32) : Option Instr :=
  if fldN w 0 13 = 0 then some (.lnStat (fld w 19 6) (fld w 13 6))
  else none

/-- MEM words (02 Table 2.7). -/
def rawMem (w : W32) : Option Instr :=
  match fldN w 25 7 with
  | 0 => mem00 w
  | 1 => mem01 w
  | 2 => mem02 w
  | 3 => mem03 w
  | 4 => mem04 w
  | 5 => mem05 w
  | 6 => mem06 w
  | 8 => mem08 w
  | 9 => mem09 w
  | 10 => mem0A w
  | 11 => mem0B w
  | 12 => mem0C w
  | 13 => mem0D w
  | 14 => mem0E w
  | 32 => mem20 w
  | 33 => mem21 w
  | 34 => mem22 w
  | 35 => mem23 w
  | 36 => mem24 w
  | 37 => mem25 w
  | 38 => mem26 w
  | 40 => mem28 w
  | 41 => mem29 w
  | 42 => mem2A w
  | 64 => mem40 w
  | 65 => mem41 w
  | 66 => mem42 w
  | 67 => mem43 w
  | 68 => mem44 w
  | 69 => mem45 w
  | 70 => mem46 w
  | 71 => mem47 w
  | 72 => mem48 w
  | 73 => mem49 w
  | 74 => mem4A w
  | 75 => mem4B w
  | 76 => mem4C w
  | 77 => mem4D w
  | 96 => mem60 w
  | 97 => mem61 w
  | 98 => mem62 w
  | 99 => mem63 w
  | 112 => mem70 w
  | 113 => mem71 w
  | 114 => mem72 w
  | 115 => mem73 w
  | 116 => mem74 w
  | _ => none

/-- SYNC opcode 0x00. -/
def sync00 (w : W32) : Option Instr :=
  if fldN w 0 13 = 0 then some (.launch (fld w 19 6) (fld w 13 6))
  else none

/-- SYNC opcode 0x01. -/
def sync01 (w : W32) : Option Instr :=
  if fldN w 0 7 = 0 ∧ fldN w 19 6 = 0 then some (.join (fld w 13 6) (fld w 7 6))
  else none

/-- SYNC opcode 0x02. -/
def sync02 (w : W32) : Option Instr :=
  if fldN w 0 13 = 0 ∧ fldN w 19 6 = 0 then some (.evtPub (fld w 13 6))
  else none

/-- SYNC opcode 0x03. -/
def sync03 (w : W32) : Option Instr :=
  if fldN w 0 13 = 0 ∧ fldN w 19 6 = 0 then some (.evtWait (fld w 13 6))
  else none

/-- SYNC opcode 0x04. -/
def sync04 (w : W32) : Option Instr :=
  if fldN w 4 9 = 0 ∧ fldN w 19 6 = 0 then some (.barArrive (fld w 13 6) (fld w 0 4))
  else none

/-- SYNC opcode 0x05. -/
def sync05 (w : W32) : Option Instr :=
  if fldN w 4 21 = 0 then some (.barWait (fld w 0 4))
  else none

/-- SYNC opcode 0x06. -/
def sync06 (w : W32) : Option Instr :=
  if fldN w 4 9 = 0 ∧ fldN w 19 6 = 0 then some (.barSync (fld w 13 6) (fld w 0 4))
  else none

/-- SYNC opcode 0x07. -/
def sync07 (w : W32) : Option Instr :=
  if fldN w 0 19 = 0 then some (.elect (fld w 19 6))
  else none

/-- SYNC opcode 0x08. -/
def sync08 (w : W32) : Option Instr :=
  if fldN w 0 13 = 0 then some (.gRegroup (fld w 19 6) (fld w 13 6))
  else none

/-- SYNC opcode 0x09. -/
def sync09 (w : W32) : Option Instr :=
  if fldN w 0 25 = 0 then some (.yield)
  else none

/-- SYNC opcode 0x0A. -/
def sync0A (w : W32) : Option Instr :=
  if fldN w 0 13 = 0 ∧ fldN w 19 6 = 0 then some (.monArm (fld w 13 6))
  else none

/-- SYNC opcode 0x0B. -/
def sync0B (w : W32) : Option Instr :=
  if fldN w 0 19 = 0 then some (.monWait (fld w 19 6))
  else none

/-- SYNC opcode 0x0C. -/
def sync0C (w : W32) : Option Instr :=
  if fldN w 12 13 = 0 then some (.wait (fld w 9 3) (fld w 6 3) (fld w 3 3) (fld w 0 3))
  else none

/-- SYNC opcode 0x0D. -/
def sync0D (w : W32) : Option Instr :=
  if fldN w 0 13 = 0 then some (.tagWaitAny (fld w 19 6) (fld w 13 6))
  else if fldN w 0 13 = 1 then some (.tagWaitAll (fld w 19 6) (fld w 13 6))
  else none

/-- SYNC opcode 0x0E. -/
def sync0E (w : W32) : Option Instr :=
  if fldN w 0 13 = 0 then some (.tagFfs (fld w 19 6) (fld w 13 6))
  else none

/-- SYNC opcode 0x0F. -/
def sync0F (w : W32) : Option Instr :=
  if fldN w 0 13 = 0 ∧ fldN w 19 6 = 0 then some (.tagClr (fld w 13 6))
  else none

/-- SYNC words (02 Table 2.8). -/
def rawSync (w : W32) : Option Instr :=
  match fldN w 25 7 with
  | 0 => sync00 w
  | 1 => sync01 w
  | 2 => sync02 w
  | 3 => sync03 w
  | 4 => sync04 w
  | 5 => sync05 w
  | 6 => sync06 w
  | 7 => sync07 w
  | 8 => sync08 w
  | 9 => sync09 w
  | 10 => sync0A w
  | 11 => sync0B w
  | 12 => sync0C w
  | 13 => sync0D w
  | 14 => sync0E w
  | 15 => sync0F w
  | _ => none

/-- ENG opcode 0x00. -/
def eng00 (w : W32) : Option Instr :=
  if fldN w 0 13 = 0 ∧ fldN w 22 3 = 0 then some (.cpIter (fld w 19 3) (fld w 13 6))
  else none

/-- ENG opcode 0x01. -/
def eng01 (w : W32) : Option Instr :=
  if fldN w 7 6 = 0 ∧ fldN w 16 3 = 0 ∧ fldN w 22 3 = 0 then some (.cpIn (fld w 19 3) (fld w 13 3) (fld w 1 6) (fld w 0 1))
  else none

/-- ENG opcode 0x02. -/
def eng02 (w : W32) : Option Instr :=
  if fldN w 0 1 = 0 ∧ fldN w 7 6 = 0 ∧ fldN w 16 3 = 0 ∧ fldN w 22 3 = 0 then some (.cpOut (fld w 19 3) (fld w 13 3) (fld w 1 6))
  else none

/-- ENG opcode 0x03. -/
def eng03 (w : W32) : Option Instr :=
  if fldN w 10 3 = 0 ∧ fldN w 16 3 = 0 ∧ fldN w 22 3 = 0 then some (.cpGather (fld w 19 3) (fld w 13 3) (fld w 7 3) (fld w 1 6) (fld w 0 1))
  else none

/-- ENG opcode 0x04. -/
def eng04 (w : W32) : Option Instr :=
  if fldN w 7 6 = 0 ∧ fldN w 22 3 = 0 then some (.cpFill (fld w 19 3) (fld w 13 6) (fld w 1 6) (fld w 0 1))
  else none

/-- ENG opcode 0x05. -/
def eng05 (w : W32) : Option Instr :=
  if fldN w 7 6 = 0 ∧ fldN w 16 3 = 0 ∧ fldN w 22 3 = 0 then some (.cpCopy (fld w 19 3) (fld w 13 3) (fld w 1 6) (fld w 0 1))
  else none

/-- ENG opcode 0x10. -/
def eng10 (w : W32) : Option Instr :=
  if fldN w 0 3 = 0 ∧ fldN w 11 2 = 0 ∧ fldN w 21 4 = 0 then some (.mmBind (fld w 19 2) (fld w 13 6) (fld w 7 4) (fld w 3 4))
  else none

/-- ENG opcode 0x11. -/
def eng11 (w : W32) : Option Instr :=
  if fldN w 0 19 = 0 ∧ fldN w 23 2 = 0 then some (.mmZero (fld w 19 4))
  else none

/-- ENG opcode 0x12. -/
def eng12 (w : W32) : Option Instr :=
  if fldN w 0 3 = 0 ∧ fldN w 23 2 = 0 then some (.mmPair (fld w 19 4) (fld w 13 6) (fld w 7 6) (fld w 3 4))
  else none

/-- ENG opcode 0x13. -/
def eng13 (w : W32) : Option Instr :=
  if fldN w 0 3 = 0 ∧ fldN w 23 2 = 0 then some (.mmOne (fld w 19 4) (fld w 13 6) (fld w 7 6) (fld w 3 4))
  else none

/-- ENG opcode 0x14. -/
def eng14 (w : W32) : Option Instr :=
  if fldN w 0 1 = 0 ∧ fldN w 17 2 = 0 ∧ fldN w 1 6 = 0 then some (.mmRd (fld w 19 6) (fld w 13 4) (fld w 7 6))
  else if fldN w 0 1 = 1 ∧ fldN w 17 2 = 0 then some (.mmRdScale (fld w 19 6) (fld w 13 4) (fld w 7 6) (fld w 1 6))
  else none

/-- ENG opcode 0x15. -/
def eng15 (w : W32) : Option Instr :=
  if fldN w 0 7 = 0 ∧ fldN w 23 2 = 0 then some (.mmWr (fld w 19 4) (fld w 13 6) (fld w 7 6))
  else none

/-- ENG opcode 0x16. -/
def eng16 (w : W32) : Option Instr :=
  if fldN w 0 13 = 0 ∧ fldN w 17 2 = 0 then some (.mmChk (fld w 19 6) (fld w 13 4))
  else none

/-- ENG words (02 Table 2.9). -/
def rawEng (w : W32) : Option Instr :=
  match fldN w 25 7 with
  | 0 => eng00 w
  | 1 => eng01 w
  | 2 => eng02 w
  | 3 => eng03 w
  | 4 => eng04 w
  | 5 => eng05 w
  | 16 => eng10 w
  | 17 => eng11 w
  | 18 => eng12 w
  | 19 => eng13 w
  | 20 => eng14 w
  | 21 => eng15 w
  | 22 => eng16 w
  | _ => none

/-- FAB opcode 0x00. -/
def fab00 (w : W32) : Option Instr :=
  if fldN w 0 13 = 0 then some (.wOpen (fld w 19 6) (fld w 13 6))
  else none

/-- FAB opcode 0x01. -/
def fab01 (w : W32) : Option Instr :=
  if fldN w 0 13 = 0 ∧ fldN w 19 6 = 0 then some (.wClose (fld w 13 6))
  else none

/-- FAB opcode 0x02. -/
def fab02 (w : W32) : Option Instr :=
  if fldN w 0 1 = 0 then some (.wPut (fld w 19 6) (fld w 13 6) (fld w 7 6) (fld w 1 6))
  else none

/-- FAB opcode 0x03. -/
def fab03 (w : W32) : Option Instr :=
  if fldN w 0 1 = 0 then some (.wGet (fld w 19 6) (fld w 13 6) (fld w 7 6) (fld w 1 6))
  else none

/-- FAB opcode 0x04. -/
def fab04 (w : W32) : Option Instr :=
  if fldN w 0 7 = 0 ∧ fldN w 19 6 = 0 then some (.wWait (fld w 13 6) (fld w 7 6))
  else none

/-- FAB opcode 0x05. -/
def fab05 (w : W32) : Option Instr :=
  if fldN w 0 13 = 0 then some (.wCntT (fld w 19 6) (fld w 13 6))
  else if fldN w 0 13 = 1 then some (.wCntO (fld w 19 6) (fld w 13 6))
  else none

/-- FAB opcode 0x06. -/
def fab06 (w : W32) : Option Instr :=
  if fldN w 2 1 = 0 then some (.collAr (fld w 19 6) (fld w 13 6) (fld w 7 6) (fld w 3 4) (fld w 0 2))
  else none

/-- FAB opcode 0x07. -/
def fab07 (w : W32) : Option Instr :=
  if fldN w 0 7 = 0 then some (.collBc (fld w 19 6) (fld w 13 6) (fld w 7 6))
  else none

/-- FAB opcode 0x08. -/
def fab08 (w : W32) : Option Instr :=
  if fldN w 0 13 = 0 then some (.collWait (fld w 19 6) (fld w 13 6))
  else none

/-- FAB opcode 0x09. -/
def fab09 (w : W32) : Option Instr :=
  if fldN w 0 13 = 0 ∧ fldN w 19 6 = 0 then some (.collCancel (fld w 13 6))
  else none

/-- FAB opcode 0x0A. -/
def fab0A (w : W32) : Option Instr :=
  if fldN w 0 7 = 0 then some (.uePost (fld w 19 6) (fld w 13 6) (fld w 7 6))
  else none

/-- FAB opcode 0x0B. -/
def fab0B (w : W32) : Option Instr :=
  if fldN w 0 13 = 0 then some (.uePoll (fld w 19 6) (fld w 13 6))
  else none

/-- FAB words (02 Table 2.11). -/
def rawFab (w : W32) : Option Instr :=
  match fldN w 25 7 with
  | 0 => fab00 w
  | 1 => fab01 w
  | 2 => fab02 w
  | 3 => fab03 w
  | 4 => fab04 w
  | 5 => fab05 w
  | 6 => fab06 w
  | 7 => fab07 w
  | 8 => fab08 w
  | 9 => fab09 w
  | 10 => fab0A w
  | 11 => fab0B w
  | _ => none

/-- SYS opcode 0x00. -/
def sys00 (w : W32) : Option Instr :=
  if fldN w 13 6 = 0 then some (.sysRd (fld w 19 6) (fld w 0 13))
  else none

/-- SYS opcode 0x01. -/
def sys01 (w : W32) : Option Instr :=
  if fldN w 19 6 = 0 ∧ fldN w 0 13 = 72 then some (.sysWrWsb (fld w 13 6))
  else if fldN w 19 6 = 0 ∧ fldN w 0 13 = 73 then some (.sysWrWsl (fld w 13 6))
  else if fldN w 19 6 = 0 ∧ fldN w 0 13 = 16 then some (.sysWrTags (fld w 13 6))
  else if fldN w 19 6 = 0 ∧ fldN w 0 13 = 43 then some (.tret (fld w 13 6))
  else if fldN w 19 6 = 0 then some (.sysWr (fld w 13 6) (fld w 0 13))
  else none

/-- SYS opcode 0x02. -/
def sys02 (w : W32) : Option Instr :=
  if fldN w 0 19 = 0 then some (.rdcyc (fld w 19 6))
  else none

/-- SYS opcode 0x03. -/
def sys03 (w : W32) : Option Instr :=
  if fldN w 13 12 = 0 then some (.trap (fld w 0 13))
  else none

/-- SYS opcode 0x04. -/
def sys04 (w : W32) : Option Instr :=
  if fldN w 13 12 = 0 then some (.brk (fld w 0 13))
  else none

/-- SYS opcode 0x05. -/
def sys05 (w : W32) : Option Instr :=
  if fldN w 0 25 = 0 then some (.halt)
  else none

/-- SYS opcode 0x06. -/
def sys06 (w : W32) : Option Instr :=
  if fldN w 19 6 = 0 then some (.traceMark (fld w 13 6) (fld w 0 13))
  else none

/-- SYS opcode 0x07. -/
def sys07 (w : W32) : Option Instr :=
  if fldN w 0 7 = 0 ∧ fldN w 19 6 = 0 then some (.ctrCfg (fld w 13 6) (fld w 7 6))
  else none

/-- SYS opcode 0x08. -/
def sys08 (w : W32) : Option Instr :=
  if fldN w 0 13 = 0 then some (.ctrRd (fld w 19 6) (fld w 13 6))
  else none

/-- SYS opcode 0x09. -/
def sys09 (w : W32) : Option Instr :=
  if fldN w 13 12 = 0 then some (.rpMark (fld w 0 13))
  else none

/-- SYS words (02 Table 2.12). -/
def rawSys (w : W32) : Option Instr :=
  match fldN w 25 7 with
  | 0 => sys00 w
  | 1 => sys01 w
  | 2 => sys02 w
  | 3 => sys03 w
  | 4 => sys04 w
  | 5 => sys05 w
  | 6 => sys06 w
  | 7 => sys07 w
  | 8 => sys08 w
  | 9 => sys09 w
  | _ => none

/-- RV64 custom-0 and custom-1 words (20 Table 20.1). -/
def rawXlm (w : W32) : Option Instr :=
  if fldN w 25 7 ≠ 0 then none else
  match fldN w 0 7, fldN w 12 3 with
  | 11, 0 => if fldN w 20 5 = 0 then some (.encMake (fld w 15 5) (fld w 7 5)) else none
  | 11, 1 => some (.encEnter (fld w 20 5) (fld w 15 5) (fld w 7 5))
  | 11, 2 => if fldN w 20 5 = 0 then some (.encKill (fld w 15 5) (fld w 7 5)) else none
  | 11, 3 => if fldN w 20 5 = 0 then some (.pgOut (fld w 15 5) (fld w 7 5)) else none
  | 11, 4 => if fldN w 20 5 = 0 then some (.pgIn (fld w 15 5) (fld w 7 5)) else none
  | 11, 5 => if fldN w 20 5 = 0 then some (.potXfer (fld w 15 5) (fld w 7 5)) else none
  | 43, 0 => if fldN w 7 5 = 0 ∧ fldN w 20 5 = 0 then some (.encExit (fld w 15 5)) else none
  | 43, 1 => some (.encOut (fld w 20 5) (fld w 15 5) (fld w 7 5))
  | 43, 2 => some (.encIn (fld w 20 5) (fld w 15 5) (fld w 7 5))
  | 43, 3 => some (.encRep (fld w 20 5) (fld w 15 5) (fld w 7 5))
  | _, _ => none

/-- The instruction a word's fixed bits name in a class, before WellFormed is asked. -/
def decodeRaw (c : Cls) (w : W32) : Option Instr :=
  match c with
  | .sv => rawSv w | .mem => rawMem w | .sync => rawSync w | .eng => rawEng w | .fab => rawFab w
  | .sys => rawSys w | .xlm => rawXlm w | .event => none

/-- The instruction that a word is in a clause of class `c`, or none where 02 R46 faults ILLEGAL_INSTRUCTION. -/
def decode (c : Cls) (w : W32) : Option Instr :=
  (decodeRaw c w).filter Instr.wellFormed

/-- The class whose clauses hold an instruction; an event has no word. -/
def Instr.cls : Instr → Cls
  | .sAdd _ _ _ => .sv
  | .sSub _ _ _ => .sv
  | .sAnd _ _ _ => .sv
  | .sOr _ _ _ => .sv
  | .sXor _ _ _ => .sv
  | .sAndn _ _ _ => .sv
  | .sShl _ _ _ => .sv
  | .sShr _ _ _ => .sv
  | .sSra _ _ _ => .sv
  | .sRot _ _ _ => .sv
  | .sMin _ _ _ => .sv
  | .sMax _ _ _ => .sv
  | .sMinn _ _ _ => .sv
  | .sMaxn _ _ _ => .sv
  | .sMov _ _ => .sv
  | .sMul _ _ _ => .sv
  | .sMulh _ _ _ => .sv
  | .sMulhn _ _ _ => .sv
  | .sDiv _ _ _ => .sv
  | .sDivn _ _ _ => .sv
  | .sRem _ _ _ => .sv
  | .sRemn _ _ _ => .sv
  | .sClz _ _ => .sv
  | .sCtz _ _ => .sv
  | .sPop _ _ => .sv
  | .sBext _ _ _ => .sv
  | .sBins _ _ _ => .sv
  | .sCmp _ _ _ _ => .sv
  | .sSel _ _ _ _ => .sv
  | .sLea _ _ _ _ => .sv
  | .sAddi _ _ _ => .sv
  | .sAndi _ _ _ => .sv
  | .sOri _ _ _ => .sv
  | .sXori _ _ _ => .sv
  | .sShli _ _ _ => .sv
  | .sShri _ _ _ => .sv
  | .sSrai _ _ _ => .sv
  | .sCmpi _ _ _ _ => .sv
  | .sLi _ _ => .sv
  | .sLim _ _ => .sv
  | .nop => .sv
  | .sFadd _ _ _ _ _ => .sv
  | .sFsub _ _ _ _ _ => .sv
  | .sFmul _ _ _ _ _ => .sv
  | .sFdiv _ _ _ _ _ => .sv
  | .sFsqrt _ _ _ _ => .sv
  | .sFmin _ _ _ _ => .sv
  | .sFmax _ _ _ _ => .sv
  | .sFclass _ _ _ => .sv
  | .sFcmp _ _ _ _ _ => .sv
  | .sFcvt _ _ _ _ _ _ => .sv
  | .sFma _ _ _ _ _ _ _ => .sv
  | .branch _ => .sv
  | .bz _ _ => .sv
  | .bnz _ _ => .sv
  | .loop _ _ => .sv
  | .jr _ => .sv
  | .call _ _ => .sv
  | .callr _ _ => .sv
  | .ret => .sv
  | .bcmp _ _ _ _ => .sv
  | .vAdd _ _ _ _ _ => .sv
  | .vSub _ _ _ _ _ => .sv
  | .vMul _ _ _ _ _ => .sv
  | .vMulh _ _ _ _ => .sv
  | .vAnd _ _ _ => .sv
  | .vOr _ _ _ => .sv
  | .vXor _ _ _ => .sv
  | .vAndn _ _ _ => .sv
  | .vShl _ _ _ _ _ => .sv
  | .vShr _ _ _ _ => .sv
  | .vSra _ _ _ _ => .sv
  | .vMin _ _ _ _ => .sv
  | .vMax _ _ _ _ => .sv
  | .vAbs _ _ _ _ => .sv
  | .vClz _ _ _ => .sv
  | .vPop _ _ _ => .sv
  | .vFadd _ _ _ _ _ _ => .sv
  | .vFsub _ _ _ _ _ _ => .sv
  | .vFmul _ _ _ _ _ _ => .sv
  | .vFmin _ _ _ _ => .sv
  | .vFmax _ _ _ _ => .sv
  | .vFdiv _ _ _ _ _ _ => .sv
  | .vFsqrt _ _ _ _ => .sv
  | .vFrcp _ _ => .sv
  | .vFrsq _ _ => .sv
  | .vFexp2 _ _ => .sv
  | .vFlog2 _ _ => .sv
  | .vCvt _ _ _ _ _ _ => .sv
  | .vPack _ _ _ _ _ _ => .sv
  | .vUnpack _ _ _ _ => .sv
  | .vCmp _ _ _ _ _ => .sv
  | .vSel _ _ _ _ => .sv
  | .vMad _ _ _ _ _ => .sv
  | .vFmaF32 _ _ _ _ _ => .sv
  | .vFmaF64 _ _ _ _ _ => .sv
  | .vFmaF16x2 _ _ _ _ _ => .sv
  | .vFmaBf16x2 _ _ _ _ _ => .sv
  | .vLi _ _ => .sv
  | .vMov _ _ => .sv
  | .vBcast _ _ _ => .sv
  | .vGet _ _ _ => .sv
  | .vSet _ _ _ => .sv
  | .vIota _ => .sv
  | .vPerm _ _ _ => .sv
  | .vShfl _ _ _ => .sv
  | .vRsum _ _ _ => .sv
  | .vRmax _ _ _ => .sv
  | .vRmin _ _ _ => .sv
  | .vRsumi _ _ _ => .sv
  | .vScan _ _ _ _ => .sv
  | .vSplit _ _ => .sv
  | .vJoin => .sv
  | .vSweepAdd _ _ _ _ _ _ => .sv
  | .vSweepMul _ _ _ _ _ _ => .sv
  | .vSweepMax _ _ _ _ _ _ => .sv
  | .vSweepMin _ _ _ _ _ _ => .sv
  | .vSweepFma _ _ _ _ _ _ => .sv
  | .vSweepCvt _ _ _ _ _ => .sv
  | .lLds _ _ _ _ => .mem
  | .lLdsN _ _ _ _ => .mem
  | .lLdv _ _ _ => .mem
  | .lLdvX _ _ _ _ _ => .mem
  | .lSts _ _ _ _ => .mem
  | .lStv _ _ _ => .mem
  | .lStvX _ _ _ _ => .mem
  | .lLdfTake _ _ _ _ => .mem
  | .lLdfPeek _ _ _ _ => .mem
  | .lStfFill _ _ _ _ => .mem
  | .lStfForce _ _ _ _ => .mem
  | .lFeFull _ _ _ => .mem
  | .lFeEmpty _ _ _ => .mem
  | .lFeTest _ _ _ => .mem
  | .lWopenRo _ _ _ => .mem
  | .lWopenSw _ _ _ => .mem
  | .lWclose _ => .mem
  | .fLds _ _ _ _ => .mem
  | .fLdsN _ _ _ _ => .mem
  | .fLdv _ _ _ => .mem
  | .fLdvX _ _ _ _ _ => .mem
  | .fSts _ _ _ _ => .mem
  | .fStv _ _ _ => .mem
  | .fStvX _ _ _ _ => .mem
  | .fLdb _ _ _ _ => .mem
  | .fStb _ _ _ _ => .mem
  | .pf _ _ _ => .mem
  | .pfW _ _ _ => .mem
  | .aAdd _ _ _ _ => .mem
  | .aMin _ _ _ _ _ => .mem
  | .aMax _ _ _ _ _ => .mem
  | .aAnd _ _ _ _ => .mem
  | .aOr _ _ _ _ => .mem
  | .aXor _ _ _ _ => .mem
  | .aXchg _ _ _ _ => .mem
  | .aFadd _ _ _ _ _ => .mem
  | .aCas _ _ _ _ => .mem
  | .aCasD _ _ _ _ => .mem
  | .aRlock _ _ => .mem
  | .aRunlock _ _ => .mem
  | .aWlock _ _ => .mem
  | .aWunlock _ _ => .mem
  | .fenceScope _ => .mem
  | .fenceRel _ => .mem
  | .fenceAcq _ => .mem
  | .fenceW => .mem
  | .lnDef _ => .mem
  | .lnResize _ => .mem
  | .lnFlush _ _ => .mem
  | .lnInv _ _ => .mem
  | .lnStat _ _ => .mem
  | .launch _ _ => .sync
  | .join _ _ => .sync
  | .evtPub _ => .sync
  | .evtWait _ => .sync
  | .barArrive _ _ => .sync
  | .barWait _ => .sync
  | .barSync _ _ => .sync
  | .elect _ => .sync
  | .gRegroup _ _ => .sync
  | .yield => .sync
  | .monArm _ => .sync
  | .monWait _ => .sync
  | .wait _ _ _ _ => .sync
  | .tagWaitAny _ _ => .sync
  | .tagWaitAll _ _ => .sync
  | .tagFfs _ _ => .sync
  | .tagClr _ => .sync
  | .cpIter _ _ => .eng
  | .cpIn _ _ _ _ => .eng
  | .cpOut _ _ _ => .eng
  | .cpGather _ _ _ _ _ => .eng
  | .cpFill _ _ _ _ => .eng
  | .cpCopy _ _ _ _ => .eng
  | .mmBind _ _ _ _ => .eng
  | .mmZero _ => .eng
  | .mmPair _ _ _ _ => .eng
  | .mmOne _ _ _ _ => .eng
  | .mmRd _ _ _ => .eng
  | .mmRdScale _ _ _ _ => .eng
  | .mmWr _ _ _ => .eng
  | .mmChk _ _ => .eng
  | .wOpen _ _ => .fab
  | .wClose _ => .fab
  | .wPut _ _ _ _ => .fab
  | .wGet _ _ _ _ => .fab
  | .wWait _ _ => .fab
  | .wCntT _ _ => .fab
  | .wCntO _ _ => .fab
  | .collAr _ _ _ _ _ => .fab
  | .collBc _ _ _ => .fab
  | .collWait _ _ => .fab
  | .collCancel _ => .fab
  | .uePost _ _ _ => .fab
  | .uePoll _ _ => .fab
  | .sysRd _ _ => .sys
  | .sysWr _ _ => .sys
  | .sysWrWsb _ => .sys
  | .sysWrWsl _ => .sys
  | .sysWrTags _ => .sys
  | .tret _ => .sys
  | .rdcyc _ => .sys
  | .trap _ => .sys
  | .brk _ => .sys
  | .halt => .sys
  | .traceMark _ _ => .sys
  | .ctrCfg _ _ => .sys
  | .debugResume _ _ => .sys
  | .release _ _ => .sys
  | .replayArm _ _ => .sys
  | .ctrRd _ _ => .sys
  | .rpMark _ => .sys
  | .encMake _ _ => .xlm
  | .encEnter _ _ _ => .xlm
  | .encKill _ _ => .xlm
  | .pgOut _ _ => .xlm
  | .pgIn _ _ => .xlm
  | .potXfer _ _ => .xlm
  | .encExit _ => .xlm
  | .encOut _ _ _ => .xlm
  | .encIn _ _ _ => .xlm
  | .encRep _ _ _ => .xlm
  | .enclaveThreadInterrupt _ _ _ => .event
  | .kickStore _ _ _ _ _ => .event
  | .kickStoreAccept _ _ => .event
  | .admissionOpportunity _ => .event
  | .dependRelease _ => .event
  | .arbitrateRelease _ => .event
  | .leaseWalk _ => .event
  | .leasePendingTimeout _ => .event
  | .edgeLineAction _ => .event
  | .placementAttempt _ => .event
  | .runArbitration _ _ => .event
  | .parkWake _ => .event
  | .monitorSpurious _ _ => .event
  | .groupEnded _ => .event
  | .teamPublish _ => .event
  | .enclaveHalt _ => .event
  | .enclaveResume _ => .event
  | .farLoadReturn _ _ => .event
  | .coreStorePointPass _ => .event
  | .orderingPointArrival _ => .event
  | .atomicExecute _ => .event
  | .atomicReturn _ _ => .event
  | .orderGateRelease _ _ => .event
  | .orderGateTimeout _ _ => .event
  | .windowStorePerformed _ _ => .event
  | .windowLoadReturn _ => .event
  | .svtWidening _ _ => .event
  | .copyComplete _ _ => .event
  | .copyElementFault _ _ => .event
  | .tileOpStart _ => .event
  | .tileOpRetire _ _ => .event
  | .resizeCursorStep _ _ _ => .event
  | .flushCursorStep _ _ _ => .event
  | .invalidation _ => .event
  | .dtuAcknowledge _ => .event
  | .walkComplete _ _ => .event
  | .migrationEntryWrite _ _ _ _ => .event
  | .migrationStep _ _ _ => .event
  | .migrationRetire _ _ => .event
  | .mmtWrite _ _ => .event
  | .partitionRecordWrite _ _ => .event
  | .virtualInterfaceWrite _ _ _ _ => .event
  | .frameAccountWrite _ _ _ => .event
  | .coreTokensWrite _ _ => .event
  | .fabTokensWrite _ => .event
  | .pkgidWrite _ => .event
  | .plimitWrite _ => .event
  | .lamplightAcquisition _ _ _ => .event
  | .managementWrite _ _ _ => .event
  | .tokenRefill _ => .event
  | .portRequestDepart _ => .event
  | .fabricTokenRefill => .event
  | .traceLost _ => .event
  | .correctableError _ _ _ => .event
  | .errorWindowBoundary _ _ => .event
  | .uncorrectableError _ => .event
  | .taskEnd _ => .event
  | .faultRecord _ => .event
  | .throttling _ _ => .event
  | .thermalTrip _ _ => .event
  | .powerOn _ _ _ => .event
  | .dieToDieFlit _ _ _ => .event
  | .tuilosFlit _ _ => .event
  | .streamBinding _ _ _ _ _ _ _ _ => .event
  | .streamBindingTimeout _ _ => .event
  | .streamFlitReceive _ _ _ => .event
  | .putArrival _ _ _ _ _ => .event
  | .getArrival _ _ _ _ _ => .event
  | .tcntIncrement _ => .event
  | .transferAcknowledgement _ _ _ => .event
  | .closeNotice _ _ _ => .event
  | .closeAcknowledgement _ => .event
  | .collectiveResult _ _ _ _ => .event
  | .collectiveMemberGone _ _ => .event
  | .uePacket _ _ _ _ => .event
  | .ueCompletion _ _ _ _ _ => .event
  | .hostDma _ _ _ _ _ => .event
  | .cxlMemAccess _ _ _ => .event
  | .getVersion _ _ => .event
  | .getCapabilities _ _ => .event
  | .negotiateAlgorithms _ _ => .event
  | .getDigests _ _ => .event
  | .getCertificate _ _ => .event
  | .challenge _ _ => .event
  | .getMeasurements _ _ _ _ => .event
  | .keyExchange _ _ _ => .event
  | .finish _ _ _ => .event
  | .pagerGetAdvance _ => .event
  | .writeBackArrival _ _ => .event
  | .pendingInterrupt _ => .event
  | .recoveryMailboxRequest _ => .event
  | .tdispRequest _ _ _ _ => .event
  | .switchEngineAttestation _ _ _ _ => .event

/-- A word with fixed bits `m` and each value of `fs` added at its bit position (04, opening: op × 2^25 + d × 2^19 + …). -/
def wordOf (m : Nat) (fs : List (Nat × Nat)) : Option W32 :=
  some (BitVec.ofNat 32 (fs.foldl (fun x f => x + f.1 * 2 ^ f.2) m))

/-- The word of an instruction (01 Table 1.8, 02, 20 R362); none for an event. The rows DEBUG_RESUME, RELEASE and
REPLAY_ARM are uses of ctr.cfg's word, which a register selects (21 Table 21.5). -/
def encode : Instr → Option W32
  | .sAdd d a b => wordOf 0x00000000 [(d.toNat, 19), (a.toNat, 13), (b.toNat, 7)]
  | .sSub d a b => wordOf 0x00000001 [(d.toNat, 19), (a.toNat, 13), (b.toNat, 7)]
  | .sAnd d a b => wordOf 0x00000002 [(d.toNat, 19), (a.toNat, 13), (b.toNat, 7)]
  | .sOr d a b => wordOf 0x00000003 [(d.toNat, 19), (a.toNat, 13), (b.toNat, 7)]
  | .sXor d a b => wordOf 0x00000004 [(d.toNat, 19), (a.toNat, 13), (b.toNat, 7)]
  | .sAndn d a b => wordOf 0x00000005 [(d.toNat, 19), (a.toNat, 13), (b.toNat, 7)]
  | .sShl d a b => wordOf 0x00000006 [(d.toNat, 19), (a.toNat, 13), (b.toNat, 7)]
  | .sShr d a b => wordOf 0x00000007 [(d.toNat, 19), (a.toNat, 13), (b.toNat, 7)]
  | .sSra d a b => wordOf 0x00000008 [(d.toNat, 19), (a.toNat, 13), (b.toNat, 7)]
  | .sRot d a b => wordOf 0x00000009 [(d.toNat, 19), (a.toNat, 13), (b.toNat, 7)]
  | .sMin d a b => wordOf 0x0000000A [(d.toNat, 19), (a.toNat, 13), (b.toNat, 7)]
  | .sMax d a b => wordOf 0x0000000B [(d.toNat, 19), (a.toNat, 13), (b.toNat, 7)]
  | .sMinn d a b => wordOf 0x0000000C [(d.toNat, 19), (a.toNat, 13), (b.toNat, 7)]
  | .sMaxn d a b => wordOf 0x0000000D [(d.toNat, 19), (a.toNat, 13), (b.toNat, 7)]
  | .sMov d a => wordOf 0x0000000E [(d.toNat, 19), (a.toNat, 13)]
  | .sMul d a b => wordOf 0x00000010 [(d.toNat, 19), (a.toNat, 13), (b.toNat, 7)]
  | .sMulh d a b => wordOf 0x00000011 [(d.toNat, 19), (a.toNat, 13), (b.toNat, 7)]
  | .sMulhn d a b => wordOf 0x00000012 [(d.toNat, 19), (a.toNat, 13), (b.toNat, 7)]
  | .sDiv d a b => wordOf 0x00000014 [(d.toNat, 19), (a.toNat, 13), (b.toNat, 7)]
  | .sDivn d a b => wordOf 0x00000015 [(d.toNat, 19), (a.toNat, 13), (b.toNat, 7)]
  | .sRem d a b => wordOf 0x00000016 [(d.toNat, 19), (a.toNat, 13), (b.toNat, 7)]
  | .sRemn d a b => wordOf 0x00000017 [(d.toNat, 19), (a.toNat, 13), (b.toNat, 7)]
  | .sClz d a => wordOf 0x00000018 [(d.toNat, 19), (a.toNat, 13)]
  | .sCtz d a => wordOf 0x00000019 [(d.toNat, 19), (a.toNat, 13)]
  | .sPop d a => wordOf 0x0000001A [(d.toNat, 19), (a.toNat, 13)]
  | .sBext d a b => wordOf 0x0000001C [(d.toNat, 19), (a.toNat, 13), (b.toNat, 7)]
  | .sBins d a b => wordOf 0x0000001D [(d.toNat, 19), (a.toNat, 13), (b.toNat, 7)]
  | .sCmp d a b c => wordOf 0x02000000 [(d.toNat, 19), (a.toNat, 13), (b.toNat, 7), (c.toNat, 0)]
  | .sSel d a b c => wordOf 0x04000000 [(d.toNat, 19), (a.toNat, 13), (b.toNat, 7), (c.toNat, 1)]
  | .sLea d a b s => wordOf 0x06000000 [(d.toNat, 19), (a.toNat, 13), (b.toNat, 7), (s.toNat, 0)]
  | .sAddi d a i => wordOf 0x10000000 [(d.toNat, 19), (a.toNat, 13), (i.toNat, 0)]
  | .sAndi d a i => wordOf 0x12000000 [(d.toNat, 19), (a.toNat, 13), (i.toNat, 0)]
  | .sOri d a i => wordOf 0x14000000 [(d.toNat, 19), (a.toNat, 13), (i.toNat, 0)]
  | .sXori d a i => wordOf 0x16000000 [(d.toNat, 19), (a.toNat, 13), (i.toNat, 0)]
  | .sShli d a i => wordOf 0x18000000 [(d.toNat, 19), (a.toNat, 13), (i.toNat, 0)]
  | .sShri d a i => wordOf 0x1A000000 [(d.toNat, 19), (a.toNat, 13), (i.toNat, 0)]
  | .sSrai d a i => wordOf 0x1C000000 [(d.toNat, 19), (a.toNat, 13), (i.toNat, 0)]
  | .sCmpi c d a i => wordOf 0x20000000 [(c.toNat, 25), (d.toNat, 19), (a.toNat, 13), (i.toNat, 0)]
  | .sLi d i => wordOf 0x30000000 [(d.toNat, 19), (i.toNat, 0)]
  | .sLim d i => wordOf 0x32000000 [(d.toNat, 19), (i.toNat, 0)]
  | .nop => wordOf 0x3E000000 []
  | .sFadd d a b r f => wordOf 0x40000000 [(d.toNat, 19), (a.toNat, 13), (b.toNat, 7), (r.toNat, 1), (f.toNat, 0)]
  | .sFsub d a b r f => wordOf 0x40000008 [(d.toNat, 19), (a.toNat, 13), (b.toNat, 7), (r.toNat, 1), (f.toNat, 0)]
  | .sFmul d a b r f => wordOf 0x40000010 [(d.toNat, 19), (a.toNat, 13), (b.toNat, 7), (r.toNat, 1), (f.toNat, 0)]
  | .sFdiv d a b r f => wordOf 0x40000018 [(d.toNat, 19), (a.toNat, 13), (b.toNat, 7), (r.toNat, 1), (f.toNat, 0)]
  | .sFsqrt d a r f => wordOf 0x40000020 [(d.toNat, 19), (a.toNat, 13), (r.toNat, 1), (f.toNat, 0)]
  | .sFmin d a b f => wordOf 0x40000028 [(d.toNat, 19), (a.toNat, 13), (b.toNat, 7), (f.toNat, 0)]
  | .sFmax d a b f => wordOf 0x40000030 [(d.toNat, 19), (a.toNat, 13), (b.toNat, 7), (f.toNat, 0)]
  | .sFclass d a f => wordOf 0x40000038 [(d.toNat, 19), (a.toNat, 13), (f.toNat, 0)]
  | .sFcmp d a b c f => wordOf 0x42000000 [(d.toNat, 19), (a.toNat, 13), (b.toNat, 7), (c.toNat, 4), (f.toNat, 0)]
  | .sFcvt d a s t r n => wordOf 0x44000000 [(d.toNat, 19), (a.toNat, 13), (s.toNat, 10), (t.toNat, 7), (r.toNat, 1), (n.toNat, 0)]
  | .sFma f r d a b c n => wordOf 0x50000000 [(f.toNat, 27), (r.toNat, 25), (d.toNat, 19), (a.toNat, 13), (b.toNat, 7), (c.toNat, 1), (n.toNat, 0)]
  | .branch i => wordOf 0x60000000 [(i.toNat, 0)]
  | .bz d i => wordOf 0x62000000 [(d.toNat, 19), (i.toNat, 0)]
  | .bnz d i => wordOf 0x64000000 [(d.toNat, 19), (i.toNat, 0)]
  | .loop d i => wordOf 0x66000000 [(d.toNat, 19), (i.toNat, 0)]
  | .jr a => wordOf 0x68000000 [(a.toNat, 13)]
  | .call k i => wordOf 0x6A000000 [(k.toNat, 19), (i.toNat, 0)]
  | .callr a k => wordOf 0x6C000000 [(a.toNat, 13), (k.toNat, 0)]
  | .ret => wordOf 0x6E000000 []
  | .bcmp c d a i => wordOf 0x70000000 [(c.toNat, 25), (d.toNat, 19), (a.toNat, 13), (i.toNat, 0)]
  | .vAdd d a b t n => wordOf 0x80000000 [(d.toNat, 19), (a.toNat, 13), (b.toNat, 7), (t.toNat, 3), (n.toNat, 0)]
  | .vSub d a b t n => wordOf 0x82000000 [(d.toNat, 19), (a.toNat, 13), (b.toNat, 7), (t.toNat, 3), (n.toNat, 0)]
  | .vMul d a b t n => wordOf 0x84000000 [(d.toNat, 19), (a.toNat, 13), (b.toNat, 7), (t.toNat, 3), (n.toNat, 0)]
  | .vMulh d a b t => wordOf 0x86000000 [(d.toNat, 19), (a.toNat, 13), (b.toNat, 7), (t.toNat, 3)]
  | .vAnd d a b => wordOf 0x88000000 [(d.toNat, 19), (a.toNat, 13), (b.toNat, 7)]
  | .vOr d a b => wordOf 0x8A000000 [(d.toNat, 19), (a.toNat, 13), (b.toNat, 7)]
  | .vXor d a b => wordOf 0x8C000000 [(d.toNat, 19), (a.toNat, 13), (b.toNat, 7)]
  | .vAndn d a b => wordOf 0x8E000000 [(d.toNat, 19), (a.toNat, 13), (b.toNat, 7)]
  | .vShl d a b t n => wordOf 0x90000000 [(d.toNat, 19), (a.toNat, 13), (b.toNat, 7), (t.toNat, 3), (n.toNat, 0)]
  | .vShr d a b t => wordOf 0x92000000 [(d.toNat, 19), (a.toNat, 13), (b.toNat, 7), (t.toNat, 3)]
  | .vSra d a b t => wordOf 0x94000000 [(d.toNat, 19), (a.toNat, 13), (b.toNat, 7), (t.toNat, 3)]
  | .vMin d a b t => wordOf 0x96000000 [(d.toNat, 19), (a.toNat, 13), (b.toNat, 7), (t.toNat, 3)]
  | .vMax d a b t => wordOf 0x98000000 [(d.toNat, 19), (a.toNat, 13), (b.toNat, 7), (t.toNat, 3)]
  | .vAbs d a t n => wordOf 0x9A000000 [(d.toNat, 19), (a.toNat, 13), (t.toNat, 3), (n.toNat, 0)]
  | .vClz d a t => wordOf 0x9C000000 [(d.toNat, 19), (a.toNat, 13), (t.toNat, 3)]
  | .vPop d a t => wordOf 0x9E000000 [(d.toNat, 19), (a.toNat, 13), (t.toNat, 3)]
  | .vFadd d a b t r n => wordOf 0xA0000000 [(d.toNat, 19), (a.toNat, 13), (b.toNat, 7), (t.toNat, 3), (r.toNat, 1), (n.toNat, 0)]
  | .vFsub d a b t r n => wordOf 0xA2000000 [(d.toNat, 19), (a.toNat, 13), (b.toNat, 7), (t.toNat, 3), (r.toNat, 1), (n.toNat, 0)]
  | .vFmul d a b t r n => wordOf 0xA4000000 [(d.toNat, 19), (a.toNat, 13), (b.toNat, 7), (t.toNat, 3), (r.toNat, 1), (n.toNat, 0)]
  | .vFmin d a b t => wordOf 0xA6000000 [(d.toNat, 19), (a.toNat, 13), (b.toNat, 7), (t.toNat, 3)]
  | .vFmax d a b t => wordOf 0xA8000000 [(d.toNat, 19), (a.toNat, 13), (b.toNat, 7), (t.toNat, 3)]
  | .vFdiv d a b t r n => wordOf 0xAA000000 [(d.toNat, 19), (a.toNat, 13), (b.toNat, 7), (t.toNat, 3), (r.toNat, 1), (n.toNat, 0)]
  | .vFsqrt d a t r => wordOf 0xAC000000 [(d.toNat, 19), (a.toNat, 13), (t.toNat, 3), (r.toNat, 1)]
  | .vFrcp d a => wordOf 0xAE000030 [(d.toNat, 19), (a.toNat, 13)]
  | .vFrsq d a => wordOf 0xB0000030 [(d.toNat, 19), (a.toNat, 13)]
  | .vFexp2 d a => wordOf 0xB2000030 [(d.toNat, 19), (a.toNat, 13)]
  | .vFlog2 d a => wordOf 0xB4000030 [(d.toNat, 19), (a.toNat, 13)]
  | .vCvt d a u t r n => wordOf 0xB6000000 [(d.toNat, 19), (a.toNat, 13), (u.toNat, 7), (t.toNat, 3), (r.toNat, 1), (n.toNat, 0)]
  | .vPack d a b t r n => wordOf 0xB8000000 [(d.toNat, 19), (a.toNat, 13), (b.toNat, 7), (t.toNat, 3), (r.toNat, 1), (n.toNat, 0)]
  | .vUnpack d a k t => wordOf 0xBA000000 [(d.toNat, 19), (a.toNat, 13), (k.toNat, 7), (t.toNat, 3)]
  | .vCmp d a b t c => wordOf 0xBC000000 [(d.toNat, 19), (a.toNat, 13), (b.toNat, 7), (t.toNat, 3), (c.toNat, 0)]
  | .vSel d a b c => wordOf 0xBE000000 [(d.toNat, 19), (a.toNat, 13), (b.toNat, 7), (c.toNat, 1)]
  | .vMad d a b c n => wordOf 0xC0000000 [(d.toNat, 19), (a.toNat, 13), (b.toNat, 7), (c.toNat, 1), (n.toNat, 0)]
  | .vFmaF32 d a b c n => wordOf 0xC2000000 [(d.toNat, 19), (a.toNat, 13), (b.toNat, 7), (c.toNat, 1), (n.toNat, 0)]
  | .vFmaF64 d a b c n => wordOf 0xC4000000 [(d.toNat, 19), (a.toNat, 13), (b.toNat, 7), (c.toNat, 1), (n.toNat, 0)]
  | .vFmaF16x2 d a b c n => wordOf 0xC6000000 [(d.toNat, 19), (a.toNat, 13), (b.toNat, 7), (c.toNat, 1), (n.toNat, 0)]
  | .vFmaBf16x2 d a b c n => wordOf 0xC8000000 [(d.toNat, 19), (a.toNat, 13), (b.toNat, 7), (c.toNat, 1), (n.toNat, 0)]
  | .vLi d i => wordOf 0xD0000000 [(d.toNat, 19), (i.toNat, 0)]
  | .vMov d a => wordOf 0xD2000000 [(d.toNat, 19), (a.toNat, 13)]
  | .vBcast d a t => wordOf 0xD4000000 [(d.toNat, 19), (a.toNat, 13), (t.toNat, 3)]
  | .vGet d a b => wordOf 0xD6000000 [(d.toNat, 19), (a.toNat, 13), (b.toNat, 7)]
  | .vSet d a b => wordOf 0xD8000000 [(d.toNat, 19), (a.toNat, 13), (b.toNat, 7)]
  | .vIota d => wordOf 0xDA000000 [(d.toNat, 19)]
  | .vPerm d a b => wordOf 0xDC000000 [(d.toNat, 19), (a.toNat, 13), (b.toNat, 7)]
  | .vShfl d a b => wordOf 0xDE000000 [(d.toNat, 19), (a.toNat, 13), (b.toNat, 7)]
  | .vRsum d a t => wordOf 0xE0000000 [(d.toNat, 19), (a.toNat, 13), (t.toNat, 3)]
  | .vRmax d a t => wordOf 0xE2000000 [(d.toNat, 19), (a.toNat, 13), (t.toNat, 3)]
  | .vRmin d a t => wordOf 0xE4000000 [(d.toNat, 19), (a.toNat, 13), (t.toNat, 3)]
  | .vRsumi d a t => wordOf 0xE6000000 [(d.toNat, 19), (a.toNat, 13), (t.toNat, 3)]
  | .vScan d a t r => wordOf 0xE8000000 [(d.toNat, 19), (a.toNat, 13), (t.toNat, 3), (r.toNat, 1)]
  | .vSplit d i => wordOf 0xEA000000 [(d.toNat, 19), (i.toNat, 0)]
  | .vJoin => wordOf 0xEC000000 []
  | .vSweepAdd d a b t r n => wordOf 0xF0000000 [(d.toNat, 19), (a.toNat, 13), (b.toNat, 7), (t.toNat, 3), (r.toNat, 1), (n.toNat, 0)]
  | .vSweepMul d a b t r n => wordOf 0xF2000000 [(d.toNat, 19), (a.toNat, 13), (b.toNat, 7), (t.toNat, 3), (r.toNat, 1), (n.toNat, 0)]
  | .vSweepMax d a b t r n => wordOf 0xF4000000 [(d.toNat, 19), (a.toNat, 13), (b.toNat, 7), (t.toNat, 3), (r.toNat, 1), (n.toNat, 0)]
  | .vSweepMin d a b t r n => wordOf 0xF6000000 [(d.toNat, 19), (a.toNat, 13), (b.toNat, 7), (t.toNat, 3), (r.toNat, 1), (n.toNat, 0)]
  | .vSweepFma d a b t r n => wordOf 0xF8000000 [(d.toNat, 19), (a.toNat, 13), (b.toNat, 7), (t.toNat, 3), (r.toNat, 1), (n.toNat, 0)]
  | .vSweepCvt d a t r n => wordOf 0xFA001F80 [(d.toNat, 19), (a.toNat, 13), (t.toNat, 3), (r.toNat, 1), (n.toNat, 0)]
  | .lLds d b z o => wordOf 0x00000000 [(d.toNat, 19), (b.toNat, 13), (z.toNat, 10), (o.toNat, 0)]
  | .lLdsN d b z o => wordOf 0x02000000 [(d.toNat, 19), (b.toNat, 13), (z.toNat, 10), (o.toNat, 0)]
  | .lLdv d b o => wordOf 0x04001C00 [(d.toNat, 19), (b.toNat, 13), (o.toNat, 0)]
  | .lLdvX d a b s e => wordOf 0x06000000 [(d.toNat, 19), (a.toNat, 13), (b.toNat, 7), (s.toNat, 2), (e.toNat, 0)]
  | .lSts d b z o => wordOf 0x08000000 [(d.toNat, 19), (b.toNat, 13), (z.toNat, 10), (o.toNat, 0)]
  | .lStv d b o => wordOf 0x0A001C00 [(d.toNat, 19), (b.toNat, 13), (o.toNat, 0)]
  | .lStvX d a b e => wordOf 0x0C000000 [(d.toNat, 19), (a.toNat, 13), (b.toNat, 7), (e.toNat, 0)]
  | .lLdfTake d b z o => wordOf 0x10000800 [(d.toNat, 19), (b.toNat, 13), (z.toNat, 10), (o.toNat, 0)]
  | .lLdfPeek d b z o => wordOf 0x12000800 [(d.toNat, 19), (b.toNat, 13), (z.toNat, 10), (o.toNat, 0)]
  | .lStfFill d b z o => wordOf 0x14000800 [(d.toNat, 19), (b.toNat, 13), (z.toNat, 10), (o.toNat, 0)]
  | .lStfForce d b z o => wordOf 0x16000800 [(d.toNat, 19), (b.toNat, 13), (z.toNat, 10), (o.toNat, 0)]
  | .lFeFull d a b => wordOf 0x18000000 [(d.toNat, 19), (a.toNat, 13), (b.toNat, 7)]
  | .lFeEmpty d a b => wordOf 0x18000001 [(d.toNat, 19), (a.toNat, 13), (b.toNat, 7)]
  | .lFeTest d a b => wordOf 0x18000002 [(d.toNat, 19), (a.toNat, 13), (b.toNat, 7)]
  | .lWopenRo d a b => wordOf 0x1A000000 [(d.toNat, 19), (a.toNat, 13), (b.toNat, 7)]
  | .lWopenSw d a b => wordOf 0x1A000001 [(d.toNat, 19), (a.toNat, 13), (b.toNat, 7)]
  | .lWclose a => wordOf 0x1C000000 [(a.toNat, 13)]
  | .fLds d b z o => wordOf 0x40000000 [(d.toNat, 19), (b.toNat, 13), (z.toNat, 10), (o.toNat, 0)]
  | .fLdsN d b z o => wordOf 0x42000000 [(d.toNat, 19), (b.toNat, 13), (z.toNat, 10), (o.toNat, 0)]
  | .fLdv d b o => wordOf 0x44001C00 [(d.toNat, 19), (b.toNat, 13), (o.toNat, 0)]
  | .fLdvX d a b s e => wordOf 0x46000000 [(d.toNat, 19), (a.toNat, 13), (b.toNat, 7), (s.toNat, 2), (e.toNat, 0)]
  | .fSts d b z o => wordOf 0x48000000 [(d.toNat, 19), (b.toNat, 13), (z.toNat, 10), (o.toNat, 0)]
  | .fStv d b o => wordOf 0x4A001C00 [(d.toNat, 19), (b.toNat, 13), (o.toNat, 0)]
  | .fStvX d a b e => wordOf 0x4C000000 [(d.toNat, 19), (a.toNat, 13), (b.toNat, 7), (e.toNat, 0)]
  | .fLdb d b z o => wordOf 0x50000000 [(d.toNat, 19), (b.toNat, 13), (z.toNat, 10), (o.toNat, 0)]
  | .fStb d b z o => wordOf 0x52000000 [(d.toNat, 19), (b.toNat, 13), (z.toNat, 10), (o.toNat, 0)]
  | .pf h b o => wordOf 0x54001400 [(h.toNat, 19), (b.toNat, 13), (o.toNat, 0)]
  | .pfW h b o => wordOf 0x54001800 [(h.toNat, 19), (b.toNat, 13), (o.toNat, 0)]
  | .aAdd d a b w => wordOf 0x80000000 [(d.toNat, 19), (a.toNat, 13), (b.toNat, 7), (w.toNat, 0)]
  | .aMin d a b n w => wordOf 0x82000000 [(d.toNat, 19), (a.toNat, 13), (b.toNat, 7), (n.toNat, 1), (w.toNat, 0)]
  | .aMax d a b n w => wordOf 0x84000000 [(d.toNat, 19), (a.toNat, 13), (b.toNat, 7), (n.toNat, 1), (w.toNat, 0)]
  | .aAnd d a b w => wordOf 0x86000000 [(d.toNat, 19), (a.toNat, 13), (b.toNat, 7), (w.toNat, 0)]
  | .aOr d a b w => wordOf 0x88000000 [(d.toNat, 19), (a.toNat, 13), (b.toNat, 7), (w.toNat, 0)]
  | .aXor d a b w => wordOf 0x8A000000 [(d.toNat, 19), (a.toNat, 13), (b.toNat, 7), (w.toNat, 0)]
  | .aXchg d a b w => wordOf 0x8C000000 [(d.toNat, 19), (a.toNat, 13), (b.toNat, 7), (w.toNat, 0)]
  | .aFadd d a b m w => wordOf 0x8E000000 [(d.toNat, 19), (a.toNat, 13), (b.toNat, 7), (m.toNat, 2), (w.toNat, 0)]
  | .aCas d a b c => wordOf 0x90000000 [(d.toNat, 19), (a.toNat, 13), (b.toNat, 7), (c.toNat, 1)]
  | .aCasD d a b c => wordOf 0x92000000 [(d.toNat, 19), (a.toNat, 13), (b.toNat, 7), (c.toNat, 1)]
  | .aRlock d a => wordOf 0x94000000 [(d.toNat, 19), (a.toNat, 13)]
  | .aRunlock d a => wordOf 0x96000000 [(d.toNat, 19), (a.toNat, 13)]
  | .aWlock d a => wordOf 0x98000000 [(d.toNat, 19), (a.toNat, 13)]
  | .aWunlock d a => wordOf 0x9A000000 [(d.toNat, 19), (a.toNat, 13)]
  | .fenceScope s => wordOf 0xC0000000 [(s.toNat, 0)]
  | .fenceRel a => wordOf 0xC2000000 [(a.toNat, 13)]
  | .fenceAcq a => wordOf 0xC4000000 [(a.toNat, 13)]
  | .fenceW => wordOf 0xC6000000 []
  | .lnDef a => wordOf 0xE0000000 [(a.toNat, 13)]
  | .lnResize a => wordOf 0xE2000000 [(a.toNat, 13)]
  | .lnFlush a b => wordOf 0xE4000000 [(a.toNat, 13), (b.toNat, 7)]
  | .lnInv a b => wordOf 0xE6000000 [(a.toNat, 13), (b.toNat, 7)]
  | .lnStat d a => wordOf 0xE8000000 [(d.toNat, 19), (a.toNat, 13)]
  | .launch d a => wordOf 0x00000000 [(d.toNat, 19), (a.toNat, 13)]
  | .join a b => wordOf 0x02000000 [(a.toNat, 13), (b.toNat, 7)]
  | .evtPub a => wordOf 0x04000000 [(a.toNat, 13)]
  | .evtWait a => wordOf 0x06000000 [(a.toNat, 13)]
  | .barArrive a n => wordOf 0x08000000 [(a.toNat, 13), (n.toNat, 0)]
  | .barWait n => wordOf 0x0A000000 [(n.toNat, 0)]
  | .barSync a n => wordOf 0x0C000000 [(a.toNat, 13), (n.toNat, 0)]
  | .elect d => wordOf 0x0E000000 [(d.toNat, 19)]
  | .gRegroup d a => wordOf 0x10000000 [(d.toNat, 19), (a.toNat, 13)]
  | .yield => wordOf 0x12000000 []
  | .monArm a => wordOf 0x14000000 [(a.toNat, 13)]
  | .monWait d => wordOf 0x16000000 [(d.toNat, 19)]
  | .wait t c s l => wordOf 0x18000000 [(t.toNat, 9), (c.toNat, 6), (s.toNat, 3), (l.toNat, 0)]
  | .tagWaitAny d a => wordOf 0x1A000000 [(d.toNat, 19), (a.toNat, 13)]
  | .tagWaitAll d a => wordOf 0x1A000001 [(d.toNat, 19), (a.toNat, 13)]
  | .tagFfs d a => wordOf 0x1C000000 [(d.toNat, 19), (a.toNat, 13)]
  | .tagClr a => wordOf 0x1E000000 [(a.toNat, 13)]
  | .cpIter d a => wordOf 0x00000000 [(d.toNat, 19), (a.toNat, 13)]
  | .cpIn d a t f => wordOf 0x02000000 [(d.toNat, 19), (a.toNat, 13), (t.toNat, 1), (f.toNat, 0)]
  | .cpOut d a t => wordOf 0x04000000 [(d.toNat, 19), (a.toNat, 13), (t.toNat, 1)]
  | .cpGather d a b t f => wordOf 0x06000000 [(d.toNat, 19), (a.toNat, 13), (b.toNat, 7), (t.toNat, 1), (f.toNat, 0)]
  | .cpFill d a t f => wordOf 0x08000000 [(d.toNat, 19), (a.toNat, 13), (t.toNat, 1), (f.toNat, 0)]
  | .cpCopy d a t f => wordOf 0x0A000000 [(d.toNat, 19), (a.toNat, 13), (t.toNat, 1), (f.toNat, 0)]
  | .mmBind q a k t => wordOf 0x20000000 [(q.toNat, 19), (a.toNat, 13), (k.toNat, 7), (t.toNat, 3)]
  | .mmZero n => wordOf 0x22000000 [(n.toNat, 19)]
  | .mmPair n a b t => wordOf 0x24000000 [(n.toNat, 19), (a.toNat, 13), (b.toNat, 7), (t.toNat, 3)]
  | .mmOne n a b t => wordOf 0x26000000 [(n.toNat, 19), (a.toNat, 13), (b.toNat, 7), (t.toNat, 3)]
  | .mmRd d n b => wordOf 0x28000000 [(d.toNat, 19), (n.toNat, 13), (b.toNat, 7)]
  | .mmRdScale d n b v => wordOf 0x28000001 [(d.toNat, 19), (n.toNat, 13), (b.toNat, 7), (v.toNat, 1)]
  | .mmWr n a b => wordOf 0x2A000000 [(n.toNat, 19), (a.toNat, 13), (b.toNat, 7)]
  | .mmChk d n => wordOf 0x2C000000 [(d.toNat, 19), (n.toNat, 13)]
  | .wOpen d a => wordOf 0x00000000 [(d.toNat, 19), (a.toNat, 13)]
  | .wClose a => wordOf 0x02000000 [(a.toNat, 13)]
  | .wPut d a b t => wordOf 0x04000000 [(d.toNat, 19), (a.toNat, 13), (b.toNat, 7), (t.toNat, 1)]
  | .wGet d a b t => wordOf 0x06000000 [(d.toNat, 19), (a.toNat, 13), (b.toNat, 7), (t.toNat, 1)]
  | .wWait a b => wordOf 0x08000000 [(a.toNat, 13), (b.toNat, 7)]
  | .wCntT d a => wordOf 0x0A000000 [(d.toNat, 19), (a.toNat, 13)]
  | .wCntO d a => wordOf 0x0A000001 [(d.toNat, 19), (a.toNat, 13)]
  | .collAr d a b t o => wordOf 0x0C000000 [(d.toNat, 19), (a.toNat, 13), (b.toNat, 7), (t.toNat, 3), (o.toNat, 0)]
  | .collBc d a b => wordOf 0x0E000000 [(d.toNat, 19), (a.toNat, 13), (b.toNat, 7)]
  | .collWait d a => wordOf 0x10000000 [(d.toNat, 19), (a.toNat, 13)]
  | .collCancel a => wordOf 0x12000000 [(a.toNat, 13)]
  | .uePost d a b => wordOf 0x14000000 [(d.toNat, 19), (a.toNat, 13), (b.toNat, 7)]
  | .uePoll d a => wordOf 0x16000000 [(d.toNat, 19), (a.toNat, 13)]
  | .sysRd d r => wordOf 0x00000000 [(d.toNat, 19), (r.toNat, 0)]
  | .sysWr a r => wordOf 0x02000000 [(a.toNat, 13), (r.toNat, 0)]
  | .sysWrWsb a => wordOf 0x02000048 [(a.toNat, 13)]
  | .sysWrWsl a => wordOf 0x02000049 [(a.toNat, 13)]
  | .sysWrTags a => wordOf 0x02000010 [(a.toNat, 13)]
  | .tret a => wordOf 0x0200002B [(a.toNat, 13)]
  | .rdcyc d => wordOf 0x04000000 [(d.toNat, 19)]
  | .trap c => wordOf 0x06000000 [(c.toNat, 0)]
  | .brk c => wordOf 0x08000000 [(c.toNat, 0)]
  | .halt => wordOf 0x0A000000 []
  | .traceMark a m => wordOf 0x0C000000 [(a.toNat, 13), (m.toNat, 0)]
  | .ctrCfg a b => wordOf 0x0E000000 [(a.toNat, 13), (b.toNat, 7)]
  | .debugResume a b => wordOf 0x0E000000 [(a.toNat, 13), (b.toNat, 7)]
  | .release a b => wordOf 0x0E000000 [(a.toNat, 13), (b.toNat, 7)]
  | .replayArm a b => wordOf 0x0E000000 [(a.toNat, 13), (b.toNat, 7)]
  | .ctrRd d a => wordOf 0x10000000 [(d.toNat, 19), (a.toNat, 13)]
  | .rpMark m => wordOf 0x12000000 [(m.toNat, 0)]
  | .encMake s d => wordOf 0x0000000B [(s.toNat, 15), (d.toNat, 7)]
  | .encEnter t s d => wordOf 0x0000100B [(t.toNat, 20), (s.toNat, 15), (d.toNat, 7)]
  | .encKill s d => wordOf 0x0000200B [(s.toNat, 15), (d.toNat, 7)]
  | .pgOut s d => wordOf 0x0000300B [(s.toNat, 15), (d.toNat, 7)]
  | .pgIn s d => wordOf 0x0000400B [(s.toNat, 15), (d.toNat, 7)]
  | .potXfer s d => wordOf 0x0000500B [(s.toNat, 15), (d.toNat, 7)]
  | .encExit s => wordOf 0x0000002B [(s.toNat, 15)]
  | .encOut t s d => wordOf 0x0000102B [(t.toNat, 20), (s.toNat, 15), (d.toNat, 7)]
  | .encIn t s d => wordOf 0x0000202B [(t.toNat, 20), (s.toNat, 15), (d.toNat, 7)]
  | .encRep t s d => wordOf 0x0000302B [(t.toNat, 20), (s.toNat, 15), (d.toNat, 7)]
  | .enclaveThreadInterrupt _ _ _ => none
  | .kickStore _ _ _ _ _ => none
  | .kickStoreAccept _ _ => none
  | .admissionOpportunity _ => none
  | .dependRelease _ => none
  | .arbitrateRelease _ => none
  | .leaseWalk _ => none
  | .leasePendingTimeout _ => none
  | .edgeLineAction _ => none
  | .placementAttempt _ => none
  | .runArbitration _ _ => none
  | .parkWake _ => none
  | .monitorSpurious _ _ => none
  | .groupEnded _ => none
  | .teamPublish _ => none
  | .enclaveHalt _ => none
  | .enclaveResume _ => none
  | .farLoadReturn _ _ => none
  | .coreStorePointPass _ => none
  | .orderingPointArrival _ => none
  | .atomicExecute _ => none
  | .atomicReturn _ _ => none
  | .orderGateRelease _ _ => none
  | .orderGateTimeout _ _ => none
  | .windowStorePerformed _ _ => none
  | .windowLoadReturn _ => none
  | .svtWidening _ _ => none
  | .copyComplete _ _ => none
  | .copyElementFault _ _ => none
  | .tileOpStart _ => none
  | .tileOpRetire _ _ => none
  | .resizeCursorStep _ _ _ => none
  | .flushCursorStep _ _ _ => none
  | .invalidation _ => none
  | .dtuAcknowledge _ => none
  | .walkComplete _ _ => none
  | .migrationEntryWrite _ _ _ _ => none
  | .migrationStep _ _ _ => none
  | .migrationRetire _ _ => none
  | .mmtWrite _ _ => none
  | .partitionRecordWrite _ _ => none
  | .virtualInterfaceWrite _ _ _ _ => none
  | .frameAccountWrite _ _ _ => none
  | .coreTokensWrite _ _ => none
  | .fabTokensWrite _ => none
  | .pkgidWrite _ => none
  | .plimitWrite _ => none
  | .lamplightAcquisition _ _ _ => none
  | .managementWrite _ _ _ => none
  | .tokenRefill _ => none
  | .portRequestDepart _ => none
  | .fabricTokenRefill => none
  | .traceLost _ => none
  | .correctableError _ _ _ => none
  | .errorWindowBoundary _ _ => none
  | .uncorrectableError _ => none
  | .taskEnd _ => none
  | .faultRecord _ => none
  | .throttling _ _ => none
  | .thermalTrip _ _ => none
  | .powerOn _ _ _ => none
  | .dieToDieFlit _ _ _ => none
  | .tuilosFlit _ _ => none
  | .streamBinding _ _ _ _ _ _ _ _ => none
  | .streamBindingTimeout _ _ => none
  | .streamFlitReceive _ _ _ => none
  | .putArrival _ _ _ _ _ => none
  | .getArrival _ _ _ _ _ => none
  | .tcntIncrement _ => none
  | .transferAcknowledgement _ _ _ => none
  | .closeNotice _ _ _ => none
  | .closeAcknowledgement _ => none
  | .collectiveResult _ _ _ _ => none
  | .collectiveMemberGone _ _ => none
  | .uePacket _ _ _ _ => none
  | .ueCompletion _ _ _ _ _ => none
  | .hostDma _ _ _ _ _ => none
  | .cxlMemAccess _ _ _ => none
  | .getVersion _ _ => none
  | .getCapabilities _ _ => none
  | .negotiateAlgorithms _ _ => none
  | .getDigests _ _ => none
  | .getCertificate _ _ => none
  | .challenge _ _ => none
  | .getMeasurements _ _ _ _ => none
  | .keyExchange _ _ _ => none
  | .finish _ _ _ => none
  | .pagerGetAdvance _ => none
  | .writeBackArrival _ _ => none
  | .pendingInterrupt _ => none
  | .recoveryMailboxRequest _ => none
  | .tdispRequest _ _ _ _ => none
  | .switchEngineAttestation _ _ _ _ => none

/-- Whether decoding an instruction's word gives the instruction itself: not for an event, and not for the three rows
whose word is ctr.cfg's. -/
def Instr.ownWord : Instr → Bool
  | .sAdd _ _ _ => true
  | .sSub _ _ _ => true
  | .sAnd _ _ _ => true
  | .sOr _ _ _ => true
  | .sXor _ _ _ => true
  | .sAndn _ _ _ => true
  | .sShl _ _ _ => true
  | .sShr _ _ _ => true
  | .sSra _ _ _ => true
  | .sRot _ _ _ => true
  | .sMin _ _ _ => true
  | .sMax _ _ _ => true
  | .sMinn _ _ _ => true
  | .sMaxn _ _ _ => true
  | .sMov _ _ => true
  | .sMul _ _ _ => true
  | .sMulh _ _ _ => true
  | .sMulhn _ _ _ => true
  | .sDiv _ _ _ => true
  | .sDivn _ _ _ => true
  | .sRem _ _ _ => true
  | .sRemn _ _ _ => true
  | .sClz _ _ => true
  | .sCtz _ _ => true
  | .sPop _ _ => true
  | .sBext _ _ _ => true
  | .sBins _ _ _ => true
  | .sCmp _ _ _ _ => true
  | .sSel _ _ _ _ => true
  | .sLea _ _ _ _ => true
  | .sAddi _ _ _ => true
  | .sAndi _ _ _ => true
  | .sOri _ _ _ => true
  | .sXori _ _ _ => true
  | .sShli _ _ _ => true
  | .sShri _ _ _ => true
  | .sSrai _ _ _ => true
  | .sCmpi _ _ _ _ => true
  | .sLi _ _ => true
  | .sLim _ _ => true
  | .nop => true
  | .sFadd _ _ _ _ _ => true
  | .sFsub _ _ _ _ _ => true
  | .sFmul _ _ _ _ _ => true
  | .sFdiv _ _ _ _ _ => true
  | .sFsqrt _ _ _ _ => true
  | .sFmin _ _ _ _ => true
  | .sFmax _ _ _ _ => true
  | .sFclass _ _ _ => true
  | .sFcmp _ _ _ _ _ => true
  | .sFcvt _ _ _ _ _ _ => true
  | .sFma _ _ _ _ _ _ _ => true
  | .branch _ => true
  | .bz _ _ => true
  | .bnz _ _ => true
  | .loop _ _ => true
  | .jr _ => true
  | .call _ _ => true
  | .callr _ _ => true
  | .ret => true
  | .bcmp _ _ _ _ => true
  | .vAdd _ _ _ _ _ => true
  | .vSub _ _ _ _ _ => true
  | .vMul _ _ _ _ _ => true
  | .vMulh _ _ _ _ => true
  | .vAnd _ _ _ => true
  | .vOr _ _ _ => true
  | .vXor _ _ _ => true
  | .vAndn _ _ _ => true
  | .vShl _ _ _ _ _ => true
  | .vShr _ _ _ _ => true
  | .vSra _ _ _ _ => true
  | .vMin _ _ _ _ => true
  | .vMax _ _ _ _ => true
  | .vAbs _ _ _ _ => true
  | .vClz _ _ _ => true
  | .vPop _ _ _ => true
  | .vFadd _ _ _ _ _ _ => true
  | .vFsub _ _ _ _ _ _ => true
  | .vFmul _ _ _ _ _ _ => true
  | .vFmin _ _ _ _ => true
  | .vFmax _ _ _ _ => true
  | .vFdiv _ _ _ _ _ _ => true
  | .vFsqrt _ _ _ _ => true
  | .vFrcp _ _ => true
  | .vFrsq _ _ => true
  | .vFexp2 _ _ => true
  | .vFlog2 _ _ => true
  | .vCvt _ _ _ _ _ _ => true
  | .vPack _ _ _ _ _ _ => true
  | .vUnpack _ _ _ _ => true
  | .vCmp _ _ _ _ _ => true
  | .vSel _ _ _ _ => true
  | .vMad _ _ _ _ _ => true
  | .vFmaF32 _ _ _ _ _ => true
  | .vFmaF64 _ _ _ _ _ => true
  | .vFmaF16x2 _ _ _ _ _ => true
  | .vFmaBf16x2 _ _ _ _ _ => true
  | .vLi _ _ => true
  | .vMov _ _ => true
  | .vBcast _ _ _ => true
  | .vGet _ _ _ => true
  | .vSet _ _ _ => true
  | .vIota _ => true
  | .vPerm _ _ _ => true
  | .vShfl _ _ _ => true
  | .vRsum _ _ _ => true
  | .vRmax _ _ _ => true
  | .vRmin _ _ _ => true
  | .vRsumi _ _ _ => true
  | .vScan _ _ _ _ => true
  | .vSplit _ _ => true
  | .vJoin => true
  | .vSweepAdd _ _ _ _ _ _ => true
  | .vSweepMul _ _ _ _ _ _ => true
  | .vSweepMax _ _ _ _ _ _ => true
  | .vSweepMin _ _ _ _ _ _ => true
  | .vSweepFma _ _ _ _ _ _ => true
  | .vSweepCvt _ _ _ _ _ => true
  | .lLds _ _ _ _ => true
  | .lLdsN _ _ _ _ => true
  | .lLdv _ _ _ => true
  | .lLdvX _ _ _ _ _ => true
  | .lSts _ _ _ _ => true
  | .lStv _ _ _ => true
  | .lStvX _ _ _ _ => true
  | .lLdfTake _ _ _ _ => true
  | .lLdfPeek _ _ _ _ => true
  | .lStfFill _ _ _ _ => true
  | .lStfForce _ _ _ _ => true
  | .lFeFull _ _ _ => true
  | .lFeEmpty _ _ _ => true
  | .lFeTest _ _ _ => true
  | .lWopenRo _ _ _ => true
  | .lWopenSw _ _ _ => true
  | .lWclose _ => true
  | .fLds _ _ _ _ => true
  | .fLdsN _ _ _ _ => true
  | .fLdv _ _ _ => true
  | .fLdvX _ _ _ _ _ => true
  | .fSts _ _ _ _ => true
  | .fStv _ _ _ => true
  | .fStvX _ _ _ _ => true
  | .fLdb _ _ _ _ => true
  | .fStb _ _ _ _ => true
  | .pf _ _ _ => true
  | .pfW _ _ _ => true
  | .aAdd _ _ _ _ => true
  | .aMin _ _ _ _ _ => true
  | .aMax _ _ _ _ _ => true
  | .aAnd _ _ _ _ => true
  | .aOr _ _ _ _ => true
  | .aXor _ _ _ _ => true
  | .aXchg _ _ _ _ => true
  | .aFadd _ _ _ _ _ => true
  | .aCas _ _ _ _ => true
  | .aCasD _ _ _ _ => true
  | .aRlock _ _ => true
  | .aRunlock _ _ => true
  | .aWlock _ _ => true
  | .aWunlock _ _ => true
  | .fenceScope _ => true
  | .fenceRel _ => true
  | .fenceAcq _ => true
  | .fenceW => true
  | .lnDef _ => true
  | .lnResize _ => true
  | .lnFlush _ _ => true
  | .lnInv _ _ => true
  | .lnStat _ _ => true
  | .launch _ _ => true
  | .join _ _ => true
  | .evtPub _ => true
  | .evtWait _ => true
  | .barArrive _ _ => true
  | .barWait _ => true
  | .barSync _ _ => true
  | .elect _ => true
  | .gRegroup _ _ => true
  | .yield => true
  | .monArm _ => true
  | .monWait _ => true
  | .wait _ _ _ _ => true
  | .tagWaitAny _ _ => true
  | .tagWaitAll _ _ => true
  | .tagFfs _ _ => true
  | .tagClr _ => true
  | .cpIter _ _ => true
  | .cpIn _ _ _ _ => true
  | .cpOut _ _ _ => true
  | .cpGather _ _ _ _ _ => true
  | .cpFill _ _ _ _ => true
  | .cpCopy _ _ _ _ => true
  | .mmBind _ _ _ _ => true
  | .mmZero _ => true
  | .mmPair _ _ _ _ => true
  | .mmOne _ _ _ _ => true
  | .mmRd _ _ _ => true
  | .mmRdScale _ _ _ _ => true
  | .mmWr _ _ _ => true
  | .mmChk _ _ => true
  | .wOpen _ _ => true
  | .wClose _ => true
  | .wPut _ _ _ _ => true
  | .wGet _ _ _ _ => true
  | .wWait _ _ => true
  | .wCntT _ _ => true
  | .wCntO _ _ => true
  | .collAr _ _ _ _ _ => true
  | .collBc _ _ _ => true
  | .collWait _ _ => true
  | .collCancel _ => true
  | .uePost _ _ _ => true
  | .uePoll _ _ => true
  | .sysRd _ _ => true
  | .sysWr _ _ => true
  | .sysWrWsb _ => true
  | .sysWrWsl _ => true
  | .sysWrTags _ => true
  | .tret _ => true
  | .rdcyc _ => true
  | .trap _ => true
  | .brk _ => true
  | .halt => true
  | .traceMark _ _ => true
  | .ctrCfg _ _ => true
  | .debugResume _ _ => false
  | .release _ _ => false
  | .replayArm _ _ => false
  | .ctrRd _ _ => true
  | .rpMark _ => true
  | .encMake _ _ => true
  | .encEnter _ _ _ => true
  | .encKill _ _ => true
  | .pgOut _ _ => true
  | .pgIn _ _ => true
  | .potXfer _ _ => true
  | .encExit _ => true
  | .encOut _ _ _ => true
  | .encIn _ _ _ => true
  | .encRep _ _ _ => true
  | .enclaveThreadInterrupt _ _ _ => false
  | .kickStore _ _ _ _ _ => false
  | .kickStoreAccept _ _ => false
  | .admissionOpportunity _ => false
  | .dependRelease _ => false
  | .arbitrateRelease _ => false
  | .leaseWalk _ => false
  | .leasePendingTimeout _ => false
  | .edgeLineAction _ => false
  | .placementAttempt _ => false
  | .runArbitration _ _ => false
  | .parkWake _ => false
  | .monitorSpurious _ _ => false
  | .groupEnded _ => false
  | .teamPublish _ => false
  | .enclaveHalt _ => false
  | .enclaveResume _ => false
  | .farLoadReturn _ _ => false
  | .coreStorePointPass _ => false
  | .orderingPointArrival _ => false
  | .atomicExecute _ => false
  | .atomicReturn _ _ => false
  | .orderGateRelease _ _ => false
  | .orderGateTimeout _ _ => false
  | .windowStorePerformed _ _ => false
  | .windowLoadReturn _ => false
  | .svtWidening _ _ => false
  | .copyComplete _ _ => false
  | .copyElementFault _ _ => false
  | .tileOpStart _ => false
  | .tileOpRetire _ _ => false
  | .resizeCursorStep _ _ _ => false
  | .flushCursorStep _ _ _ => false
  | .invalidation _ => false
  | .dtuAcknowledge _ => false
  | .walkComplete _ _ => false
  | .migrationEntryWrite _ _ _ _ => false
  | .migrationStep _ _ _ => false
  | .migrationRetire _ _ => false
  | .mmtWrite _ _ => false
  | .partitionRecordWrite _ _ => false
  | .virtualInterfaceWrite _ _ _ _ => false
  | .frameAccountWrite _ _ _ => false
  | .coreTokensWrite _ _ => false
  | .fabTokensWrite _ => false
  | .pkgidWrite _ => false
  | .plimitWrite _ => false
  | .lamplightAcquisition _ _ _ => false
  | .managementWrite _ _ _ => false
  | .tokenRefill _ => false
  | .portRequestDepart _ => false
  | .fabricTokenRefill => false
  | .traceLost _ => false
  | .correctableError _ _ _ => false
  | .errorWindowBoundary _ _ => false
  | .uncorrectableError _ => false
  | .taskEnd _ => false
  | .faultRecord _ => false
  | .throttling _ _ => false
  | .thermalTrip _ _ => false
  | .powerOn _ _ _ => false
  | .dieToDieFlit _ _ _ => false
  | .tuilosFlit _ _ => false
  | .streamBinding _ _ _ _ _ _ _ _ => false
  | .streamBindingTimeout _ _ => false
  | .streamFlitReceive _ _ _ => false
  | .putArrival _ _ _ _ _ => false
  | .getArrival _ _ _ _ _ => false
  | .tcntIncrement _ => false
  | .transferAcknowledgement _ _ _ => false
  | .closeNotice _ _ _ => false
  | .closeAcknowledgement _ => false
  | .collectiveResult _ _ _ _ => false
  | .collectiveMemberGone _ _ => false
  | .uePacket _ _ _ _ => false
  | .ueCompletion _ _ _ _ _ => false
  | .hostDma _ _ _ _ _ => false
  | .cxlMemAccess _ _ _ => false
  | .getVersion _ _ => false
  | .getCapabilities _ _ => false
  | .negotiateAlgorithms _ _ => false
  | .getDigests _ _ => false
  | .getCertificate _ _ => false
  | .challenge _ _ => false
  | .getMeasurements _ _ _ _ => false
  | .keyExchange _ _ _ => false
  | .finish _ _ _ => false
  | .pagerGetAdvance _ => false
  | .writeBackArrival _ _ => false
  | .pendingInterrupt _ => false
  | .recoveryMailboxRequest _ => false
  | .tdispRequest _ _ _ _ => false
  | .switchEngineAttestation _ _ _ _ => false

/-- Operand bits of an instruction's word; the other bits are fixed. -/
def Instr.operandBits : Instr → Nat
  | .sAdd _ _ _ => 18
  | .sSub _ _ _ => 18
  | .sAnd _ _ _ => 18
  | .sOr _ _ _ => 18
  | .sXor _ _ _ => 18
  | .sAndn _ _ _ => 18
  | .sShl _ _ _ => 18
  | .sShr _ _ _ => 18
  | .sSra _ _ _ => 18
  | .sRot _ _ _ => 18
  | .sMin _ _ _ => 18
  | .sMax _ _ _ => 18
  | .sMinn _ _ _ => 18
  | .sMaxn _ _ _ => 18
  | .sMov _ _ => 12
  | .sMul _ _ _ => 18
  | .sMulh _ _ _ => 18
  | .sMulhn _ _ _ => 18
  | .sDiv _ _ _ => 18
  | .sDivn _ _ _ => 18
  | .sRem _ _ _ => 18
  | .sRemn _ _ _ => 18
  | .sClz _ _ => 12
  | .sCtz _ _ => 12
  | .sPop _ _ => 12
  | .sBext _ _ _ => 18
  | .sBins _ _ _ => 18
  | .sCmp _ _ _ _ => 21
  | .sSel _ _ _ _ => 24
  | .sLea _ _ _ _ => 21
  | .sAddi _ _ _ => 25
  | .sAndi _ _ _ => 25
  | .sOri _ _ _ => 25
  | .sXori _ _ _ => 25
  | .sShli _ _ _ => 18
  | .sShri _ _ _ => 18
  | .sSrai _ _ _ => 18
  | .sCmpi _ _ _ _ => 28
  | .sLi _ _ => 25
  | .sLim _ _ => 25
  | .nop => 0
  | .sFadd _ _ _ _ _ => 21
  | .sFsub _ _ _ _ _ => 21
  | .sFmul _ _ _ _ _ => 21
  | .sFdiv _ _ _ _ _ => 21
  | .sFsqrt _ _ _ _ => 15
  | .sFmin _ _ _ _ => 19
  | .sFmax _ _ _ _ => 19
  | .sFclass _ _ _ => 13
  | .sFcmp _ _ _ _ _ => 22
  | .sFcvt _ _ _ _ _ _ => 21
  | .sFma _ _ _ _ _ _ _ => 28
  | .branch _ => 19
  | .bz _ _ => 25
  | .bnz _ _ => 25
  | .loop _ _ => 25
  | .jr _ => 6
  | .call _ _ => 21
  | .callr _ _ => 8
  | .ret => 0
  | .bcmp _ _ _ _ => 28
  | .vAdd _ _ _ _ _ => 23
  | .vSub _ _ _ _ _ => 23
  | .vMul _ _ _ _ _ => 23
  | .vMulh _ _ _ _ => 22
  | .vAnd _ _ _ => 18
  | .vOr _ _ _ => 18
  | .vXor _ _ _ => 18
  | .vAndn _ _ _ => 18
  | .vShl _ _ _ _ _ => 23
  | .vShr _ _ _ _ => 22
  | .vSra _ _ _ _ => 22
  | .vMin _ _ _ _ => 22
  | .vMax _ _ _ _ => 22
  | .vAbs _ _ _ _ => 17
  | .vClz _ _ _ => 16
  | .vPop _ _ _ => 16
  | .vFadd _ _ _ _ _ _ => 25
  | .vFsub _ _ _ _ _ _ => 25
  | .vFmul _ _ _ _ _ _ => 25
  | .vFmin _ _ _ _ => 22
  | .vFmax _ _ _ _ => 22
  | .vFdiv _ _ _ _ _ _ => 25
  | .vFsqrt _ _ _ _ => 18
  | .vFrcp _ _ => 12
  | .vFrsq _ _ => 12
  | .vFexp2 _ _ => 12
  | .vFlog2 _ _ => 12
  | .vCvt _ _ _ _ _ _ => 23
  | .vPack _ _ _ _ _ _ => 25
  | .vUnpack _ _ _ _ => 22
  | .vCmp _ _ _ _ _ => 25
  | .vSel _ _ _ _ => 24
  | .vMad _ _ _ _ _ => 25
  | .vFmaF32 _ _ _ _ _ => 25
  | .vFmaF64 _ _ _ _ _ => 25
  | .vFmaF16x2 _ _ _ _ _ => 25
  | .vFmaBf16x2 _ _ _ _ _ => 25
  | .vLi _ _ => 25
  | .vMov _ _ => 12
  | .vBcast _ _ _ => 16
  | .vGet _ _ _ => 18
  | .vSet _ _ _ => 18
  | .vIota _ => 6
  | .vPerm _ _ _ => 18
  | .vShfl _ _ _ => 18
  | .vRsum _ _ _ => 16
  | .vRmax _ _ _ => 16
  | .vRmin _ _ _ => 16
  | .vRsumi _ _ _ => 16
  | .vScan _ _ _ _ => 18
  | .vSplit _ _ => 25
  | .vJoin => 0
  | .vSweepAdd _ _ _ _ _ _ => 19
  | .vSweepMul _ _ _ _ _ _ => 19
  | .vSweepMax _ _ _ _ _ _ => 19
  | .vSweepMin _ _ _ _ _ _ => 19
  | .vSweepFma _ _ _ _ _ _ => 16
  | .vSweepCvt _ _ _ _ _ => 13
  | .lLds _ _ _ _ => 24
  | .lLdsN _ _ _ _ => 24
  | .lLdv _ _ _ => 22
  | .lLdvX _ _ _ _ _ => 21
  | .lSts _ _ _ _ => 24
  | .lStv _ _ _ => 22
  | .lStvX _ _ _ _ => 20
  | .lLdfTake _ _ _ _ => 23
  | .lLdfPeek _ _ _ _ => 23
  | .lStfFill _ _ _ _ => 23
  | .lStfForce _ _ _ _ => 23
  | .lFeFull _ _ _ => 18
  | .lFeEmpty _ _ _ => 18
  | .lFeTest _ _ _ => 18
  | .lWopenRo _ _ _ => 18
  | .lWopenSw _ _ _ => 18
  | .lWclose _ => 6
  | .fLds _ _ _ _ => 24
  | .fLdsN _ _ _ _ => 24
  | .fLdv _ _ _ => 22
  | .fLdvX _ _ _ _ _ => 21
  | .fSts _ _ _ _ => 24
  | .fStv _ _ _ => 22
  | .fStvX _ _ _ _ => 20
  | .fLdb _ _ _ _ => 24
  | .fStb _ _ _ _ => 24
  | .pf _ _ _ => 17
  | .pfW _ _ _ => 17
  | .aAdd _ _ _ _ => 19
  | .aMin _ _ _ _ _ => 20
  | .aMax _ _ _ _ _ => 20
  | .aAnd _ _ _ _ => 19
  | .aOr _ _ _ _ => 19
  | .aXor _ _ _ _ => 19
  | .aXchg _ _ _ _ => 19
  | .aFadd _ _ _ _ _ => 20
  | .aCas _ _ _ _ => 24
  | .aCasD _ _ _ _ => 24
  | .aRlock _ _ => 12
  | .aRunlock _ _ => 12
  | .aWlock _ _ => 12
  | .aWunlock _ _ => 12
  | .fenceScope _ => 3
  | .fenceRel _ => 6
  | .fenceAcq _ => 6
  | .fenceW => 0
  | .lnDef _ => 6
  | .lnResize _ => 6
  | .lnFlush _ _ => 12
  | .lnInv _ _ => 12
  | .lnStat _ _ => 12
  | .launch _ _ => 12
  | .join _ _ => 12
  | .evtPub _ => 6
  | .evtWait _ => 6
  | .barArrive _ _ => 10
  | .barWait _ => 4
  | .barSync _ _ => 10
  | .elect _ => 6
  | .gRegroup _ _ => 12
  | .yield => 0
  | .monArm _ => 6
  | .monWait _ => 6
  | .wait _ _ _ _ => 12
  | .tagWaitAny _ _ => 12
  | .tagWaitAll _ _ => 12
  | .tagFfs _ _ => 12
  | .tagClr _ => 6
  | .cpIter _ _ => 9
  | .cpIn _ _ _ _ => 13
  | .cpOut _ _ _ => 12
  | .cpGather _ _ _ _ _ => 16
  | .cpFill _ _ _ _ => 16
  | .cpCopy _ _ _ _ => 13
  | .mmBind _ _ _ _ => 16
  | .mmZero _ => 4
  | .mmPair _ _ _ _ => 20
  | .mmOne _ _ _ _ => 20
  | .mmRd _ _ _ => 16
  | .mmRdScale _ _ _ _ => 22
  | .mmWr _ _ _ => 16
  | .mmChk _ _ => 10
  | .wOpen _ _ => 12
  | .wClose _ => 6
  | .wPut _ _ _ _ => 24
  | .wGet _ _ _ _ => 24
  | .wWait _ _ => 12
  | .wCntT _ _ => 12
  | .wCntO _ _ => 12
  | .collAr _ _ _ _ _ => 24
  | .collBc _ _ _ => 18
  | .collWait _ _ => 12
  | .collCancel _ => 6
  | .uePost _ _ _ => 18
  | .uePoll _ _ => 12
  | .sysRd _ _ => 19
  | .sysWr _ _ => 19
  | .sysWrWsb _ => 6
  | .sysWrWsl _ => 6
  | .sysWrTags _ => 6
  | .tret _ => 6
  | .rdcyc _ => 6
  | .trap _ => 13
  | .brk _ => 13
  | .halt => 0
  | .traceMark _ _ => 19
  | .ctrCfg _ _ => 12
  | .debugResume _ _ => 12
  | .release _ _ => 12
  | .replayArm _ _ => 12
  | .ctrRd _ _ => 12
  | .rpMark _ => 13
  | .encMake _ _ => 10
  | .encEnter _ _ _ => 15
  | .encKill _ _ => 10
  | .pgOut _ _ => 10
  | .pgIn _ _ => 10
  | .potXfer _ _ => 10
  | .encExit _ => 5
  | .encOut _ _ _ => 15
  | .encIn _ _ _ => 15
  | .encRep _ _ _ => 15
  | .enclaveThreadInterrupt _ _ _ => 32
  | .kickStore _ _ _ _ _ => 32
  | .kickStoreAccept _ _ => 32
  | .admissionOpportunity _ => 32
  | .dependRelease _ => 32
  | .arbitrateRelease _ => 32
  | .leaseWalk _ => 32
  | .leasePendingTimeout _ => 32
  | .edgeLineAction _ => 32
  | .placementAttempt _ => 32
  | .runArbitration _ _ => 32
  | .parkWake _ => 32
  | .monitorSpurious _ _ => 32
  | .groupEnded _ => 32
  | .teamPublish _ => 32
  | .enclaveHalt _ => 32
  | .enclaveResume _ => 32
  | .farLoadReturn _ _ => 32
  | .coreStorePointPass _ => 32
  | .orderingPointArrival _ => 32
  | .atomicExecute _ => 32
  | .atomicReturn _ _ => 32
  | .orderGateRelease _ _ => 32
  | .orderGateTimeout _ _ => 32
  | .windowStorePerformed _ _ => 32
  | .windowLoadReturn _ => 32
  | .svtWidening _ _ => 32
  | .copyComplete _ _ => 32
  | .copyElementFault _ _ => 32
  | .tileOpStart _ => 32
  | .tileOpRetire _ _ => 32
  | .resizeCursorStep _ _ _ => 32
  | .flushCursorStep _ _ _ => 32
  | .invalidation _ => 32
  | .dtuAcknowledge _ => 32
  | .walkComplete _ _ => 32
  | .migrationEntryWrite _ _ _ _ => 32
  | .migrationStep _ _ _ => 32
  | .migrationRetire _ _ => 32
  | .mmtWrite _ _ => 32
  | .partitionRecordWrite _ _ => 32
  | .virtualInterfaceWrite _ _ _ _ => 32
  | .frameAccountWrite _ _ _ => 32
  | .coreTokensWrite _ _ => 32
  | .fabTokensWrite _ => 32
  | .pkgidWrite _ => 32
  | .plimitWrite _ => 32
  | .lamplightAcquisition _ _ _ => 32
  | .managementWrite _ _ _ => 32
  | .tokenRefill _ => 32
  | .portRequestDepart _ => 32
  | .fabricTokenRefill => 32
  | .traceLost _ => 32
  | .correctableError _ _ _ => 32
  | .errorWindowBoundary _ _ => 32
  | .uncorrectableError _ => 32
  | .taskEnd _ => 32
  | .faultRecord _ => 32
  | .throttling _ _ => 32
  | .thermalTrip _ _ => 32
  | .powerOn _ _ _ => 32
  | .dieToDieFlit _ _ _ => 32
  | .tuilosFlit _ _ => 32
  | .streamBinding _ _ _ _ _ _ _ _ => 32
  | .streamBindingTimeout _ _ => 32
  | .streamFlitReceive _ _ _ => 32
  | .putArrival _ _ _ _ _ => 32
  | .getArrival _ _ _ _ _ => 32
  | .tcntIncrement _ => 32
  | .transferAcknowledgement _ _ _ => 32
  | .closeNotice _ _ _ => 32
  | .closeAcknowledgement _ => 32
  | .collectiveResult _ _ _ _ => 32
  | .collectiveMemberGone _ _ => 32
  | .uePacket _ _ _ _ => 32
  | .ueCompletion _ _ _ _ _ => 32
  | .hostDma _ _ _ _ _ => 32
  | .cxlMemAccess _ _ _ => 32
  | .getVersion _ _ => 32
  | .getCapabilities _ _ => 32
  | .negotiateAlgorithms _ _ => 32
  | .getDigests _ _ => 32
  | .getCertificate _ _ => 32
  | .challenge _ _ => 32
  | .getMeasurements _ _ _ _ => 32
  | .keyExchange _ _ _ => 32
  | .finish _ _ _ => 32
  | .pagerGetAdvance _ => 32
  | .writeBackArrival _ _ => 32
  | .pendingInterrupt _ => 32
  | .recoveryMailboxRequest _ => 32
  | .tdispRequest _ _ _ _ => 32
  | .switchEngineAttestation _ _ _ _ => 32

/-- The classes a word of the opcode table may belong to. -/
def tableClasses : List Cls := [.sv, .mem, .sync, .eng, .fab, .sys, .xlm]

/-- Of two readings, the one with fewer operand bits; the first on a tie. -/
def moreSpecific (a b : Option Instr) : Option Instr :=
  match a, b with
  | none, b => b
  | a, none => a
  | some i, some j => if j.operandBits < i.operandBits then some j else some i

/-- The instruction of a table word taken alone. A word means nothing without its clause's class (02, opening), which
the number does not carry: of the classes in which the word is an instruction, the one that fixes the most of its bits
is taken (log 11). -/
def decodeTableWord (nbits w : Nat) : Option Instr :=
  if nbits = 32 then
    (tableClasses.map fun c => decode c (BitVec.ofNat 32 w)).foldl moreSpecific none
  else none

end Sys2Proof
end

