-- ==== Sys2Proof/Config.lean ====
section
/-! DEFINITION. What an implementation fixes and the free values of the model: opaque constants without a body.
Nothing in Lean can evaluate them, so every statement holds whatever they are. Each is named in the assumption log. -/

namespace Sys2Proof.Config

/-- A fresh 64-bit value that the spec leaves open, drawn by the counter `State.fresh` (log 1). -/
opaque freeWord : Nat → Word

/-- Which of the values within its error bound an approximating instruction delivers: a fixed function of the
operation (0 v.frcp, 1 v.frsq, 2 v.fexp2, 3 v.flog2) and its input bits (06 R148; log 5). -/
opaque approxPick : Nat → W32 → Nat

/-- SHA-384 (18 R337, 27 R433), uninterpreted (log 8). -/
opaque sha384 : List Byte → BitVec 384

/-- The key stream of AES-256-GCM under a key and a nonce: byte `n` of the counter-mode stream (18 R343; log 8). -/
opaque gcmStream : BitVec 256 → List Byte → Nat → Byte

/-- The 16-byte AES-256-GCM tag under a key, a nonce, the additional data and the ciphertext (18 R343; log 8). -/
opaque gcmTag : BitVec 256 → List Byte → List Byte → List Byte → BitVec 128

/-- HKDF-SHA-384 of the device sealing secret with an info string (18 R337; log 8). -/
opaque sealKey : List Byte → BitVec 256

/-- The AES-256-XTS key that draw `n` of the Sconce's random generator gives (18 R337 step 3; log 7). -/
opaque freshXts : Nat → BitVec 512

/-- The integrity key of the same draw (18 R337 step 3; log 7). -/
opaque freshInteg : Nat → BitVec 32

/-- The AES-256-XTS keys of owner 0 (index 0) and of commons group g (index g + 1), which the package holds from its boot on
(18 R339; log 7). -/
opaque bootXts : Nat → BitVec 512

/-- Their integrity keys (18 R339; log 7). -/
opaque bootInteg : Nat → BitVec 32

/-- AES-256-XTS encryption of a line under a key, with its physical address as the tweak (18 R339; log 7). -/
opaque xtsLine : BitVec 512 → Nat → List Byte → List Byte

/-- The 32-bit tag of a line: a MAC under an integrity key over the ciphertext and the physical address (18 R339; log 7). -/
opaque lineMac : BitVec 32 → List Byte → Nat → BitVec 32

/-- The key of one direction of a stream, from the session and the info string (25 R407; log 8). -/
opaque streamKey : Nat → List Byte → BitVec 256

/-- The AES-256-GCM key of one direction of a pair of Ultra Ethernet peers, from its info string (25 R418; log 73). -/
opaque ueKey : List Byte → BitVec 256

/-- The AES-256-GCM key that draw `n` of the Sconce's random generator gives a selective IDE stream (25 R420; log 73). -/
opaque ideKey : Nat → BitVec 256

/-- The 64-byte Ed25519 signature of a message by the Sconce's identity key (18 R340; log 8). -/
opaque signEd25519 : List Byte → BitVec 512

/-- The 3,309-byte ML-DSA-65 signature of a message by the Sconce's identity key (18 R340; log 8). -/
opaque signMlDsa65 : List Byte → BitVec 26472

/-- A certificate chain or digest body that the Sconce returns to an SPDM requester (18 R340; log 8). -/
opaque spdmBody : Nat → List Byte → List Byte

/-- The measurement of firmware image n (27 R433: SHA-384 over the image as loaded; log 8). -/
opaque firmwareMeasurement : Nat → BitVec 384

/-- The layout private to the device in which a halted group's state is written into the reserved bytes of its
register rows (18 R347): byte `n` of the 1,408 bytes of group state `k` (log 10). -/
opaque haltedByte : Nat → Nat → Byte

/-- The vector of a hart's trap into HS-mode or M-mode: the handler belongs to the hypervisor (20 R363; log 9). -/
opaque hartTrapVector : Nat → Word

/-- The reset vector of the hub firmware, at which hart 0 is released (27 R433 step 7; log 9). -/
opaque hubResetVector : Word

end Sys2Proof.Config
end

