-- ==== Sys2Proof/Machine/State.lean ====
section
/-! DEFINITION. The state of the machine as plain data, its faults and refusals, and the state after reset. A field
without a rule beside it belongs to the model (log 2). A sparse map lists key and value with rising keys and never the
default value; its operations are in Machine/SMap.lean. -/

namespace Sys2Proof.Machine

/-- A sparse map from numbers. -/
abbrev SMap (α : Type) := List (Nat × α)

/-! ### A group (01 Table 1.1) -/

/-- State of a path slot (05 R111). -/
inductive PSt where
  | free | live | atJoin | ended
  deriving DecidableEq, Repr

/-- An entry of a reconvergence stack (05 R114). -/
structure StackEnt where
  join : Nat
  fmask : Mask
  acc : Mask
  sideF : Bool
  /-- WPOS at the split that pushed it (01 R37) -/
  wpos : Nat
  deriving DecidableEq, Repr

/-- What a parked path slot waits for (01 R25): the condition under which it is issued again. -/
inductive Park where
  /-- F/E bits of `size` bytes at an offset of a group's allocation -/
  | fe (owner off size : Nat) (full : Bool)
  | barrier (n : Nat)
  | event (va : Nat)
  | join (task need : Nat)
  | plq
  | monitor
  | counters (ld st cp tl : Nat)
  | tags (mask : Word) (all : Bool)
  | lantern (part cls : Nat)
  | sealedWindow (core win : Nat)
  | regroup (mask : Nat)
  | binding (enc slot : Nat)
  | wcnt (wid n ext : Nat)
  | coll (enc slot : Nat)
  deriving DecidableEq, Repr

/-- A monitor's latched cause; a later constructor ranks lower (07 R173). -/
inductive Cause where
  | store | lost | spurious
  deriving DecidableEq, Repr

/-- An armed monitor: the number (physical address / 64) of its line, and its latched cause. -/
structure Monitor where
  line : Nat
  cause : Option Cause
  deriving DecidableEq, Repr

/-- What each path slot holds on its own (05 R111). -/
structure PathState where
  pc : VAddr := 0
  cwi : Nat := 0
  mask : Mask := 0
  ld : Nat := 0
  st : Nat := 0
  cp : Nat := 0
  tl : Nat := 0
  /-- unacknowledged remote stores (09 R188) -/
  rst : Nat := 0
  stack : List StackEnt := []
  stat : PSt := .free
  park : Option Park := none
  mon : Option Monitor := none
  /-- barrier tokens: an unlisted barrier's token is empty (07 R168) -/
  toks : SMap Nat := []
  /-- a bar.sync has arrived and waits (07 R169) -/
  arrived : Bool := false
  /-- the task that a parked join waits on, until it completes (07 R166, R176) -/
  joinOf : Option Nat := none
  /-- the grid whose retirement by another join completed the join that waited on it (07 R166) -/
  joined : Option Nat := none
  /-- the header word of the current clause once it has been fetched and its waits have passed -/
  hdr : Option W32 := none
  /-- the word about to issue does not match a comparator again (21 R387) -/
  noMatch : Bool := false
  /-- store-buffer sequence at the first issue of a fence that holds the slot (11 R237) -/
  fence : Option Nat := none
  /-- the v.sweep words whose first issue has passed its checks and which have not completed (06 R160) -/
  sweeps : List (VAddr × Nat) := []
  /-- the result that a parked w.open or coll.wait writes when it is issued again (25 R410; 26 R431) -/
  result : Option Word := none
  /-- places in their cluster's store buffer of the stores whose values a load of the path slot has taken (11 R236) -/
  seen : List Nat := []
  deriving DecidableEq, Repr

/-- Where a register field leads: a ring slot, a fixed register, a word of a path slot's mask, or nowhere. -/
inductive RLoc where
  | ring (n : Nat) | fix (r : Nat) | mask (pathF : Bool) (k : Nat) | zero
  deriving DecidableEq, Repr

/-- One element of a far access: its lane, its virtual address and the physical address of each byte. -/
structure Elem where
  lane : Nat
  va : Nat
  pas : List Nat
  deriving DecidableEq, Repr

/-- An atomic's operation, width in bytes, natural order, merge permission and operands (12 R274). -/
structure Atom where
  op : AtomOp
  w : Nat
  nat : Bool
  merge : Bool
  x : Nat
  y : Nat
  deriving DecidableEq, Repr

/-- A far load or atomic that has left the issue slot (01 R27; 12 R272, R274). -/
structure Req where
  /-- place in the order of issue -/
  seq : Nat
  pathF : Bool
  vec : Bool
  dst : RLoc
  size : Nat
  signed : Bool
  /-- looks up and fills the near cache (09 R190) -/
  near : Bool
  /-- a prefetch: no counter, no destination (12 R273) -/
  pf : Bool
  elems : List Elem
  atom : Option Atom
  /-- values taken at the ordering point, one per element -/
  data : Option (List Nat)
  /-- elements that a return has written to the destination (12 R272) -/
  wrote : Nat
  /-- 64-byte requests that have not left the core port, and those that have and are in flight (19 R356; log 46) -/
  port : Nat
  sent : Nat
  /-- colour and number of requests counted by the DTU (10 R225) -/
  col : Option (Bool × Nat)
  /-- an order gate holds it (21 R393) -/
  gate : Bool
  /-- the cycle in which its gate began to hold it (21 R393) -/
  gateFrom : Nat
  deriving DecidableEq, Repr

/-- An entry of a group's store FIFO (11 R233): bytes in the order they are written. -/
structure StoreEnt where
  /-- place in the order of issue -/
  seq : Nat
  pathF : Bool
  bytes : List (Nat × Byte)
  /-- f.stb: never allocates (12 R272) -/
  stb : Bool
  port : Nat
  sent : Nat
  col : Option (Bool × Nat)
  /-- the lines that a translation gave: the ones its colour counts (10 R225) -/
  paged : List Nat
  deriving DecidableEq, Repr

/-- An ln.flush or ln.inv in progress: lines still to act on, once it has left the core (12 R278). -/
structure LnOp where
  /-- place in the order of issue -/
  seq : Nat
  pathF : Bool
  inv : Bool
  lo : Nat
  hi : Nat
  started : Bool
  lines : List (Nat × Nat)
  deriving DecidableEq, Repr

/-- A lock operation or evt.wait that has left and holds its slot: the physical address of its word, and the word's old
value once that has returned (07 R167; 12 R275). -/
structure EvtHold where
  pa : Nat
  old : Option Word
  deriving DecidableEq, Repr

/-- What a store through one cluster window still has to do (09 R188): bytes by their offset in the owner group's
allocation, and the offsets of words whose F/E bit it sets full. -/
structure WinPart where
  core : Nat
  win : Nat
  owner : Nat
  bytes : List (Nat × Byte)
  fe : List Nat
  deriving DecidableEq, Repr

/-- A window store that counts as unacknowledged. -/
structure WinStore where
  /-- place in the order of issue -/
  seq : Nat
  pathF : Bool
  parts : List WinPart
  deriving DecidableEq, Repr

/-- The open top-level split: its join header, F entry, and WPOS then (05 R113; 01 R36). -/
structure Split where
  join : Nat
  fEntry : Nat
  wpos : Nat
  deriving DecidableEq, Repr

/-- A group's state in 05 Table 5.7. -/
inductive GSt where
  | ready | bound | parked | halted | ending | ended
  deriving DecidableEq, Repr

/-- A fault or unhandled trap as its record carries it (17 Table 17.3). -/
structure Report where
  code : Code
  fra : Word
  pc : Nat
  cwi : Nat
  pathF : Bool
  mask : Mask
  prec : Bool
  unhandled : Bool
  noGroup : Bool
  dep : Bool
  ident : Nat
  queue : Nat
  core : Nat
  counters : Nat
  cyc : Word
  deriving DecidableEq, Repr

/-- One group: its control thread, registers and shared state (01 Table 1.1; 05 R111). -/
structure Group where
  gid : Nat := 0
  team : Nat := 0
  core : Nat := 0
  slot : Nat := 0
  /-- residency index on the core (05 R135) -/
  resid : Nat := 0
  enc : Nat := 0
  stat : GSt := .ready
  sring : SMap Word := []
  sfix : SMap Word := []
  vring : SMap VReg := []
  vfix : SMap VReg := []
  wpos : Nat := 0
  wlow : Nat := 0
  wsb : Word := 0
  wsl : Word := 0
  wsp : Word := 0
  rc : Nat := 0
  t : PathState := {}
  f : PathState := {}
  /-- the executing path slot is F (05 Table 5.1 CUR) -/
  curF : Bool := false
  split : Option Split := none
  /-- 05 R116: the last run was the splitting run; the slot that ran it; its streak; PH of its last clause -/
  afterSplit : Bool := false
  lastF : Bool := false
  streak : Nat := 0
  lastPh : Nat := 0
  /-- Y seen in the run in progress, and Y of the run before (05 R135) -/
  y : Bool := false
  yielded : Bool := false
  /-- runs others have taken since it became ready (05 R135) -/
  w : Nat := 0
  /-- the run has reached a boundary and the slot is to be released -/
  runOver : Bool := false
  /-- the run ended with the first arrival at the top-level join (05 Table 5.7) -/
  firstAt : Bool := false
  fpf : BitVec 5 := 0
  tvec : Word := 0
  trctl : BitVec 2 := 0
  tst : BitVec 9 := 0
  frc : Word := 0
  fra : Word := 0
  frpc : Word := 0
  frm : Word := 0
  frmh : Word := 0
  hb : Word := 0
  hl : Word := 0
  ho : Word := 0
  hlc : Word := 0
  poolw : BitVec 32 := 0
  iters : SMap Word := []
  fifo : List StoreEnt := []
  reqs : List Req := []
  lnOps : List LnOp := []
  winStores : List WinStore := []
  /-- the windows of a load that holds its slot, and whether the owning cores have returned its data (12 R267) -/
  winRet : Option (List (Nat × Nat) × Bool) := none
  evt : Option EvtHold := none
  /-- the place in the order of arrival of a fetch that waits at the port (19 R360) -/
  fetchAt : Option Nat := none
  elects : Nat := 0
  /-- result of a rendezvous that the last participant completed (07 R171) -/
  regroupRes : Option Nat := none
  storeCount : Nat := 0
  storeHash : Word := 0xCBF29CE484222325#64
  ckpt : Nat := 0
  /-- conditional transfers of the run, oldest first (21 Table 21.9) -/
  taken : List Bool := []
  /-- header address and index of the word that issued last (21 Table 21.8) -/
  wordAt : VAddr × Nat := (0, 0)
  /-- a SYNC packet is due (21 Table 21.9) -/
  syncDue : Bool := true
  /-- debug stop: the number in its STOP packet (21 R388) -/
  stopped : Option Nat := none
  /-- the time it parked, for eviction's order (05 R134) -/
  parkedAt : Nat := 0
  deriving DecidableEq, Repr

/-! ### A core -/

/-- State of a pool row (09 Table 9.2). -/
inductive RowSt where
  | free | live | claimable
  deriving DecidableEq, Repr

/-- A pool row tag, with the team that holds the row and its place in the team's row map. -/
structure RowTag where
  stat : RowSt := .free
  owner : Nat := 0
  team : Nat := 0
  ix : Nat := 0
  deriving DecidableEq, Repr

/-- A cluster window entry (09 R186). -/
structure Win where
  gid : Nat
  enc : Nat
  /-- the opener's SELF address -/
  addr : Nat
  sw : Bool
  writer : Nat
  closing : Bool
  deriving DecidableEq, Repr

/-- A near-cache line (09 R190); the cache lists the most recently used first. -/
structure NearLine where
  line : Nat
  owner : Nat
  data : List Byte
  deriving DecidableEq, Repr

/-- Size kinds of a translation entry (10 R214). -/
inductive PageKind where
  | k4 | m2 | g1
  deriving DecidableEq, Repr

/-- A POT entry (10 Table 10.3). -/
structure Pot where
  cgroup : Nat := 0
  leases : Nat := 0
  cls : Nat := 0
  stat : Nat := 0
  owner : Nat := 0
  deriving DecidableEq, Repr

/-- A translation entry with its cached POT check (10 R214, R218): `pots` lists the entries of its frames as they stood, but
for lease counts. For a 2 MiB block, `mask` says which of its eight pages it holds; the physical base is that of the block's
own first byte, modulo 2^56. -/
structure Tlb where
  enc : Nat
  asid : Nat
  kind : PageKind
  vbase : Nat
  pbase : Nat
  mask : Nat
  r : Bool
  w : Bool
  x : Bool
  d : Bool
  pots : SMap Pot
  deriving DecidableEq, Repr

/-- An entry of the range-lock table (11 R248): intervals of pool bytes, or of an enclave's far virtual bytes. -/
structure LockRange where
  far : Bool
  enc : Nat
  segs : List (Nat × Nat)
  dst : Bool
  /-- the operation that holds it -/
  op : Nat
  deriving DecidableEq, Repr

/-- A copy command in flight (14 R289), with its records as read at issue: the index record of a gather, and the value
of a fill. -/
structure Copy where
  id : Nat
  /-- place in the order of issue -/
  seq : Nat
  gid : Nat
  pathF : Bool
  tag : Nat
  flag : Bool
  src : List Word
  dst : List Word
  idx : List Word
  fill : Option Word
  pc : Nat
  cwi : Nat
  /-- far requests that have not left the core port, counted once nothing holds the command back, and those in flight (15 R307) -/
  port : Option Nat
  sent : Nat := 0
  /-- the translations that walks have brought for it (10 R215) -/
  pages : List Tlb := []
  deriving DecidableEq, Repr

/-- What a tile operation does (15 R308 to R316). -/
inductive TileKind where
  | zero | one | pair | rd (row : Nat) (scale : Option VReg) | wr (row : Nat) (data : VReg) | chk
  deriving DecidableEq, Repr

/-- An entry of a core's tile queue (14 R296). -/
structure TileOp where
  /-- one number for the entries of one instruction -/
  seq : Nat
  gid : Nat
  team : Nat
  pathF : Bool
  kind : TileKind
  n : Nat
  typ : Nat
  k : Nat
  /-- the address of A -/
  aAddr : Nat
  dst : RLoc
  mask : Mask
  pc : Nat
  cwi : Nat
  running : Bool
  /-- the follower's share of a pair operation -/
  share : Bool
  /-- the operation's number in the range-lock table; 0 for none -/
  lock : Nat
  deriving DecidableEq, Repr

/-- A staged quarter of B: its registers, type, K and the team that bound it (14 R294). -/
structure Quarter where
  typ : Nat
  k : Nat
  team : Nat
  regs : List VReg
  deriving DecidableEq, Repr

/-- A tile's status (14 R300). -/
structure TileStat where
  used : Bool := false
  flags : BitVec 5 := 0
  reruns : Nat := 0
  typ : Nat := 0
  deriving DecidableEq, Repr

/-- An entry of a core's bucket table or of the fabric egress (19 Table 19.3; 25 R406). -/
structure Bucket where
  vi : Nat
  act : Bool
  frac : Nat
  level : Nat
  cap : Nat
  deriving DecidableEq, Repr

/-- An issue slot: the bound group, the one bound before, the leaf of a hold in progress (01 R24), the top-down leaves it
has counted (21 R378), and the cycles of the core that it has not counted yet since its words have still to issue (log 4). -/
structure Slot where
  bound : Option Nat := none
  last : Option Nat := none
  holds : Option Nat := none
  leaves : SMap Nat := []
  lag : Nat := 0
  deriving DecidableEq, Repr

/-- A holder of a Lamplight unit (21 R375). -/
inductive Holder where
  | hyp | enc (e : Nat)
  deriving DecidableEq, Repr

/-- A core's counter bank (21 R375, R381). `suspended` is the guest session the hypervisor displaced. -/
structure Bank where
  holder : Option Holder := none
  suspended : Option Nat := none
  cfg : SMap Word := []
  count : SMap Nat := []
  ovf : SMap Bool := []
  gids : SMap Nat := []
  /-- per slot, leaves of intervals in which the guest's session was suspended -/
  base : List (SMap Nat) := []
  /-- per slot, leaves counted at the hypervisor's acquisition -/
  snap : List (SMap Nat) := []
  /-- ctr.cfg writes kept while suspended: selector, value and the issuing group -/
  kept : List (Nat × Word × Nat) := []
  deriving DecidableEq, Repr

/-- A core's trace unit (21 R375, R384 to R388). -/
structure Trace where
  holder : Option Holder := none
  suspended : Option Nat := none
  ctl : BitVec 2 := 0
  base : Word := 0
  size : Word := 0
  written : Nat := 0
  queue : List (List Word) := []
  dropped : Nat := 0
  hostLost : Bool := false
  /-- drops of the suspended guest's session -/
  saved : Nat := 0
  /-- packets that the hypervisor's session has written out, oldest first (log 54) -/
  hypOut : List (List Word) := []
  cmps : SMap Word := []
  /-- ctr.cfg writes kept while suspended -/
  kept : List (Nat × Word × Nat) := []
  deriving DecidableEq, Repr

/-- Core state. -/
structure Core where
  cyc : Word := 0
  /-- places of the accesses whose next request has waited at the port for a token (21 Table 21.4) -/
  waited : List Nat := []
  tagSet : BitVec 64 := 0
  tagBusy : BitVec 64 := 0
  rows : SMap RowTag := []
  pool : List Host.Cell := []
  fe : SMap Bool := []
  wins : SMap Win := []
  near : List NearLine := []
  l1 : List Tlb := []
  locks : List LockRange := []
  copies : List Copy := []
  tileq : List TileOp := []
  /-- CYC when the array admitted its last tile operation (27 R435) -/
  admitted : Option Word := none
  /-- the next number of an engine operation -/
  opNext : Nat := 1
  staging : SMap Quarter := []
  /-- tile statuses, keyed by team × 16 + tile -/
  tstat : SMap TileStat := []
  /-- armed monitors in arming order (07 R173) -/
  mons : List (Nat × Bool) := []
  buckets : List Bucket := []
  /-- refills that CYC has brought (19 R359) -/
  refills : Nat := 0
  slot0 : Slot := {}
  slot1 : Slot := {}
  bank : Bank := {}
  trace : Trace := {}
  deriving DecidableEq, Repr

/-! ### A die -/

/-- An entry of a cluster's store buffer: bytes of one 64-byte line (11 R233). -/
structure BufEnt where
  seq : Nat
  gid : Nat
  pathF : Bool
  core : Nat
  enc : Nat
  bytes : List (Nat × Byte)
  stb : Bool
  col : Option Bool
  deriving DecidableEq, Repr

/-- A walk (10 R215) and the group whose word waits for it, or whose copy command `op` does, 0 for a word; `res` is its outcome
once it has ended, kept until that word or command goes on. -/
structure Walk where
  gid : Nat
  enc : Nat
  asid : Nat
  va : Nat
  kind : Acc
  res : Option (Option Code)
  op : Nat := 0
  deriving DecidableEq, Repr

/-- The source of a request, as a sync-variable entry records it: a core, a hub-die hart, another package, or a host
(11 R239). -/
inductive Party where
  | core (c : Nat) | hart | remote | host
  deriving DecidableEq, Repr

/-- A sync-variable entry (11 Table 11.4) with the set recorded at its latest release, and the party whose request the serving
point holds (11 R242). -/
structure Svt where
  rel : Bool
  remote : Bool
  host : Bool
  line : Nat
  cl : Nat
  multi : Bool
  core : Nat
  relCl : Nat
  relMulti : Bool
  relCore : Nat
  /-- the releasing group, and the place of its release in the order of issue -/
  relGid : Nat
  relSeq : Nat
  want : Option Party
  deriving DecidableEq, Repr

/-- An order block open for record (21 R390): chunks of path, ORD and length, oldest first. -/
structure OrderBlock where
  enc : Nat
  line : Nat
  chunks : List (Bool × Nat × Nat)
  deriving DecidableEq, Repr

/-- Compute-die state. -/
structure Die where
  /-- the die's clock, where no core of it is ahead (00 R4; log 4) -/
  cyc : Nat := 0
  llt : List Tlb := []
  walks : List Walk := []
  colour : Bool := false
  n0 : Nat := 0
  n1 : Nat := 0
  /-- the invalidation being handled, and those waiting -/
  inval : Option InvScope := none
  invalQ : List InvScope := []
  svt : List Svt := []
  coreTokens : Nat := 1024
  blocks : List OrderBlock := []
  /-- round-robin place per priority: the pair served last (05 R132) -/
  served : SMap (Nat × Nat) := []
  /-- invalidations accepted, for the leases that wait for one (10 R220) -/
  accepted : Nat := 0
  /-- falls of lease counts, for the leases that wait for one (10 R220; log 33) -/
  leaseFalls : Nat := 0
  deriving DecidableEq, Repr

/-! ### Lanterns and frames -/

/-- A lantern definition: the two dwords of its LDR (09 Table 9.5). -/
structure Ldr where
  d0 : Word
  d1 : Word
  deriving DecidableEq, Repr

/-- A change in progress (09 R199): the old definition, its kind, and the cursor of each old instance. -/
structure Change where
  old : Ldr
  flushAll : Bool
  cursors : SMap Nat
  deriving DecidableEq, Repr

/-- A class of a partition. -/
structure ClassDef where
  ldr : Ldr
  change : Option Change
  deriving DecidableEq, Repr

/-- A valid lantern line; the list holds the most recently used first. `dirty` has one bit per byte. -/
structure LLine where
  part : Nat
  cls : Nat
  die : Nat
  line : Nat
  size : Nat
  pane : Nat
  set : Nat
  slice : Nat
  newGeo : Bool
  data : List Byte
  dirty : Nat
  deriving DecidableEq, Repr

/-- A migration table entry (10 Table 10.6), with the source's state before the move. -/
structure Migr where
  valid : Bool := false
  done : Bool := false
  cursor : Nat := 0
  src : Nat := 0
  dst : Nat := 0
  was : Pot := {}
  deriving DecidableEq, Repr

/-! ### Chandler -/

/-- Stages of a task (05 Table 5.6). -/
inductive Stage where
  | queued | depend | arbitrate | lease | edge | place | running | done | removed
  deriving DecidableEq, Repr

/-- Lease states (10 Table 10.4). -/
inductive LeaseSt where
  | walk | reside | pending | count | held | failed | released
  deriving DecidableEq, Repr

/-- The position of the edge engine in a task's overlaps (11 R258): how many pairs of regions it has finished, the phase within
the pair, and the virtual address of the next line. -/
structure EdgeAt where
  pair : Nat
  phase : Nat
  va : Nat
  /-- the lines that it has forwarded, by their physical addresses -/
  sent : List Nat := []
  deriving DecidableEq, Repr

/-- A task: one grid from launch or admission to its end. -/
structure Task where
  id : Nat
  enc : Nat
  queue : Nat
  grid : Nat
  depth : Nat
  /-- the launching team; none for a kicked record -/
  parent : Option Nat
  recAt : Nat
  /-- the 64 dwords of the launch record as Chandler copied it -/
  rcd : List Word
  stage : Stage
  lease : LeaseSt
  attempts : Nat
  /-- invalidations that the admitting die had accepted when the lease began to wait -/
  waitFrom : Nat
  /-- the cycle in which the lease became PENDING (10 R220) -/
  pendFrom : Nat
  /-- frames whose lease count this task has raised -/
  frames : List Nat
  /-- tasks it depended on or arbitrated behind -/
  producers : List Nat
  /-- its place in the order of admission -/
  admitted : Nat
  /-- its place in the order of arrival at Arbitrate, and the cycle of that arrival (11 R255) -/
  arbitrated : Nat
  arbCyc : Nat
  /-- the die that Chandler fixed for its placement (11 R257), and the regions whose overlap is forwarded to it -/
  forward : Option Nat
  fixed : List Nat
  /-- the edge engine's place; none before it has begun -/
  edgeAt : Option EdgeAt
  placed : Nat
  published : Nat
  retired : Bool
  fault : Option Report
  supp : Nat
  ended : Bool
  reported : Bool
  /-- recorded (1) or replayed (2) under the enclave's block (21 R389) -/
  replay : Nat
  /-- dies its teams have been placed on, one bit each -/
  ranOn : Nat
  deriving DecidableEq, Repr

/-- Team states (05 Table 5.7). -/
inductive TeamSt where
  | waiting | resident | evicted | draining | published
  deriving DecidableEq, Repr

/-- A barrier (07 R168). -/
structure Barrier where
  c : Nat := 0
  a : Nat := 0
  g : Nat := 0
  deriving DecidableEq, Repr

/-- A HELD entry of a pending-launch queue (05 R129). -/
structure PlqEnt where
  ix : Nat
  task : Nat
  order : Nat
  deriving DecidableEq, Repr

/-- A team (05 R121). `rows` is its row map on each of its cores; `lost` its sealed row-map indexes. -/
structure Team where
  id : Nat
  task : Nat
  index : Nat
  stat : TeamSt
  cores : List Nat
  rows : List (List Nat)
  lost : List (Nat × Nat)
  /-- cores whose staging image is in the save area (18 R349) -/
  stagingLost : List Nat
  gids : List Nat
  bars : SMap Barrier
  e : Nat
  plq : List PlqEnt
  haltedAt : Nat
  deriving DecidableEq, Repr

/-! ### Enclaves, partitions, harts -/

/-- The heap triple of 18 Table 18.1. -/
structure Heap where
  hb : Nat
  hl : Nat
  ho : Nat
  hlc : Nat
  deriving DecidableEq, Repr

/-- A stream slot (25 R407, R408, R411). -/
structure Stream where
  peerPkg : Nat
  peerEnc : Nat
  meas : BitVec 384
  bound : Bool
  started : Nat
  failed : Bool
  session : Nat
  /-- CREATE of the peer enclave -/
  peerCreate : Word
  sent : Nat
  accepted : List Nat
  discards : Nat
  broken : Bool
  /-- the enclave that owns the slot, and its CREATE -/
  own : Nat
  ownCreate : Word
  /-- accepted flits of messages that have not arrived in full: sequence number and payload -/
  inbox : List (Nat × List Byte) := []
  deriving DecidableEq, Repr

/-- A collective slot of an enclave (25 R416): the group, collective k, the status once it has ended, and the path slots
whose coll.wait waits on it. -/
structure CollSlot where
  cgroup : Nat
  k : Nat
  status : Option Nat
  waiters : List (Nat × Bool)
  deriving DecidableEq, Repr

/-- A post in flight (25 R419): its id, local window and offset there, and its descriptor. -/
structure UePost where
  id : Nat
  wid : Nat
  off : Nat
  desc : List Word
  deriving DecidableEq, Repr

/-- A UE queue (25 R418, R419): next post id, posts in flight, completions not returned. -/
structure UeQueue where
  next : Nat := 0
  flight : List UePost := []
  done : List (Nat × Nat) := []
  deriving DecidableEq, Repr

/-- The record-and-replay controller of an enclave (21 R389 to R393). -/
structure Replay where
  block : Option Nat := none
  armed : Bool := false
  mode : Nat := 0
  queue : Nat := 0
  logBase : Nat := 0
  logSize : Nat := 0
  logUsed : Nat := 0
  task : Option Nat := none
  tooBig : Bool := false
  outside : Bool := false
  diverged : Bool := false
  overflow : Bool := false
  /-- lines with a first logged element (record) -/
  lines : List Nat := []
  /-- elements consumed of each line's sequence, and checkpoint blocks consumed (replay) -/
  used : SMap Nat := []
  ckpts : Nat := 0
  deriving DecidableEq, Repr

/-- Progress of enc.make or enc.kill by a hart (20 R365, R366): pages done, and the initial page list. -/
structure Making where
  kill : Bool
  hart : Nat
  pages : Nat
  init : Nat
  ninit : Nat
  deriving DecidableEq, Repr

/-- A live enclave, or one being made or ended (18 R334 to R341). -/
structure Enclave where
  id : Nat := 0
  vi : Nat := 0
  part : Nat := 0
  asid : Nat := 0
  root : Nat := 0
  ecs : Nat := 0
  harts : BitVec 64 := 0
  nstream : Nat := 0
  save : Nat := 0
  saven : Nat := 0
  pvt : Nat := 0
  pvtn : Nat := 0
  pins : List (Nat × Nat) := []
  heaps : List Heap := []
  /-- HEAP and PRIO of each queue -/
  queues : List (Nat × Nat) := []
  create : Word := 0
  mctr : Word := 0
  meas : BitVec 384 := 0
  live : Bool := false
  making : Option Making := none
  descAt : Nat := 0
  /-- stream slots reserved, with the link keys requested for them (18 R337 step 6; 25 R407) -/
  slots : Nat := 0
  /-- frames of pinned pages that hold a lease count for the enclave (10 R213) -/
  pinned : List Nat := []
  /-- save-area granules in use (18 R335) -/
  granules : List Nat := []
  /-- the edge cursor's dwords per queue (11 Table 11.8) -/
  edges : SMap (Word × Word) := []
  faultIx : Nat := 0
  dropped : Nat := 0
  /-- kick FIFO of each queue, oldest first, and stores held at full FIFOs (18 R341) -/
  kicks : SMap (List Word) := []
  kickHeld : List (Nat × Nat × Word) := []
  halted : Bool := false
  /-- pages with a residency request outstanding, each with the frame it stood in (10 R222; 22 R396), and requests held for room -/
  resident : List (Nat × Nat) := []
  resHeld : List (Nat × Nat × Nat) := []
  replay : Replay := {}
  streams : SMap Stream := []
  colls : SMap CollSlot := []
  ue : SMap UeQueue := []
  deriving DecidableEq, Repr

/-- A route entry of a partition record: RV, FIRST, LAST and RPORTS (19 Table 19.1). -/
structure Route where
  valid : Bool := false
  first : Nat := 0
  last : Nat := 0
  ports : Nat := 0
  deriving DecidableEq, Repr

/-- A partition record (19 Table 19.1). -/
structure Part where
  valid : Bool := false
  ports : Nat := 0
  clusters : Nat := 0
  quotas : List Nat := [0, 0, 0, 0]
  commons : Nat := 0
  /-- the 16 route entries -/
  routes : List Route := List.replicate 16 {}
  mem : List Nat := []
  deriving DecidableEq, Repr

/-- A virtual interface record (19 Table 19.2). -/
structure Vi where
  valid : Bool := false
  part : Nat := 0xFF
  share : Nat := 0
  deriving DecidableEq, Repr

/-- The keys of an owner of frames, as every memory controller holds them: its AES-256-XTS key and its integrity key (18 R337,
R339). -/
structure KeySlot where
  xts : BitVec 512 := 0
  integ : BitVec 32 := 0
  deriving DecidableEq, Repr

/-- A frame account (10 Table 10.7). -/
structure Acct where
  guar : Nat := 0
  burst : Nat := 0
  deriving DecidableEq, Repr

/-- Hart modes. -/
inductive HMode where
  | m | hs | vs | vu | u
  deriving DecidableEq, Repr

/-- A hub-die hart (18 Table 18.6; 20). `csr` lists the ten S-mode registers in Table 18.6's order; `hs` is the state
that enc.enter saved. -/
structure Hart where
  released : Bool := false
  pc : Word := 0
  x : SMap Word := []
  f : SMap Word := []
  fcsr : Word := 0
  vcfg : SMap Word := []
  v : SMap (BitVec 256) := []
  csr : SMap Word := []
  mode : HMode := .m
  inside : Option Nat := none
  hs : Option (List Word) := none
  /-- rd and its value, written once the invalidation that the instruction posted is acknowledged (10 R224) -/
  await : Option (Nat × Word) := none
  /-- cause, epc and tval of the last exception taken out of the modelled modes (log 9) -/
  cause : Word := 0
  epc : Word := 0
  tval : Word := 0
  deriving DecidableEq, Repr

/-! ### The fabric (25) -/

/-- States of a fabric window. -/
inductive FwSt where
  | opening | opened | closing | closed
  deriving DecidableEq, Repr

/-- A fabric window (25 R409, Table 25.2): its descriptor's 16 dwords, counters, and the admitted transfers whose TCNT
has not risen (1 for one that is acknowledged). A far window's frames are listed in order of their pages. Enclave 0 owns
a window that waits for its peer after its enclave has ended. -/
structure FWin where
  wid : Nat
  enc : Nat
  gid : Nat
  core : Nat
  desc : List Word
  stat : FwSt
  tcnt : Nat := 0
  ocnt : Nat := 0
  oerr : Nat := 0
  flight : List Nat := []
  frames : List Nat := []
  noticed : Bool := false
  /-- pool rows of a LOCAL window's bytes, in order -/
  rows : List Nat := []
  /-- the path slot whose w.open has not returned -/
  opener : Option (Nat × Bool) := none
  /-- the enclave that owned a window of an enclave that has ended, and its CREATE -/
  ghost : Option (Nat × Word) := none
  deriving DecidableEq, Repr

/-- A put or get that left its origin (25 R412; 26 R427). -/
structure Xfer where
  /-- its number in the range-lock table -/
  id : Nat
  /-- place in the order of issue, which names it -/
  seq : Nat
  get : Bool
  gid : Nat
  pathF : Bool
  core : Nat
  enc : Nat
  tag : Nat
  wid : Nat
  loc : Nat
  len : Nat
  handle : Word
  off : Nat
  port : Nat
  col : Option (Bool × Nat)
  /-- the stream slot on which it left -/
  slot : Nat := 0
  /-- the enclave that issued a transfer of an enclave that has ended, and its CREATE -/
  ghost : Option (Nat × Word) := none
  deriving DecidableEq, Repr

/-- What one local member brings to collective `k` (25 R414, R415): its rank, window and place, length in bytes, TYPE and
operation, the collective slot, and the issuing path slot with its place in the order of issue. -/
structure Contrib where
  k : Nat
  rank : Nat
  enc : Nat
  wid : Nat
  off : Nat
  len : Nat
  typ : Nat
  op : Nat
  bcast : Bool
  slot : Nat
  gid : Nat
  pathF : Bool
  seq : Nat
  deriving DecidableEq, Repr

/-- A collective group as the switches hold it (25 R414, R417). -/
structure CGroup where
  cgroup : Nat
  part : Nat
  nmemb : Nat
  attested : Option Bool
  gone : List Nat
  /-- collectives issued by each local member rank -/
  issued : SMap Nat
  contribs : List Contrib
  /-- status of each collective that has ended (25 Table 25.5) -/
  ended : SMap Nat
  deriving DecidableEq, Repr

/-- A TDI of a virtual function or attached device (25 R421). -/
structure Tdi where
  run : Bool
  locked : Bool
  enc : Nat
  stream : Option Nat
  /-- the AES-256-GCM key of its selective IDE stream (25 R420; log 73) -/
  key : BitVec 256 := 0
  deriving DecidableEq, Repr

/-- SPDM state of the Sconce towards one requester (18 R340): the step reached and the transcript. -/
structure Spdm where
  version : Bool := false
  caps : Bool := false
  algs : Bool := false
  transcript : List Byte := []
  sessions : List (Nat × Bool) := []
  deriving DecidableEq, Repr

/-- What the machine sends to outside parties (log 2). -/
inductive Sent where
  | spdm (box kind : Nat) (body : List Byte)
  | put (wid off : Nat) (flits : List Flit)
  | getReq (wid off len : Nat) (flits : List Flit)
  | ack (wid : Nat) (ok : Bool) (flits : List Flit)
  | notice (wid : Nat) (flits : List Flit)
  | noticeAck (wid : Nat) (flits : List Flit)
  | dmaAbort (stream : Nat)
  | cxl (data : List Byte) (poison : Bool)
  | collEnd (grp k status : Nat)
  | ue (enc q id : Nat) (pkts : List Flit)
  | ueRefused (wid : Nat)
  | ueData (wid off : Nat) (pkts : List Flit)
  | mailbox
  | mgmt (v : Word)
  deriving DecidableEq, Repr

/-- The firmware that the package boots: whether the Ed25519 and the ML-DSA-65 signature of each image of 27 Table 27.1 verify, whether
the memory trains, and the frames that step 6 sets to firmware (27 R433; log 3). -/
structure Firmware where
  sigs : List (Bool × Bool) := List.replicate 5 (true, true)
  trained : Bool := true
  frames : List Nat := []
  deriving DecidableEq, Repr

/-- What moves at the next step when the agenda is empty. -/
inductive Focus where
  | none | slot (core slot : Nat) | hart
  deriving DecidableEq, Repr

/-- Everything the spec gives the machine. -/
structure State where
  g : Group := {}
  groups : SMap Group := []
  focus : Focus := .none
  /-- the group that came to the focus last, and whether a hart has moved since -/
  turn : Nat := 0
  hartLast : Bool := false
  /-- the hart that executes the next Xlmenc instruction -/
  hartAt : Nat := 0
  agenda : List Instr := []
  /-- the focused group's slot issued nothing in the last step (01 R24) -/
  held : Bool := false
  fresh : Nat := 0
  outbox : List Sent := []
  seq : Nat := 0
  cores : SMap Core := []
  dies : SMap Die := []
  /-- cluster store buffers, keyed by die × 16 + cluster -/
  bufs : SMap (List BufEnt) := []
  mem : List Host.Cell := []
  pot : SMap Pot := []
  mmt : SMap Nat := []
  chans : SMap Nat := []
  classes : SMap ClassDef := []
  lines : List LLine := []
  poison : List Nat := []
  withheld : List Nat := []
  migr : SMap Migr := []
  tasks : SMap Task := []
  teams : SMap Team := []
  encs : SMap Enclave := []
  creation : Word := 0
  /-- key slots by enclave id; one that is not listed is zero (18 R337 step 3, R339; log 7) -/
  keys : SMap KeySlot := []
  /-- the interface that the next creation names (19 R354; log 23) -/
  viNamed : Nat := 0
  parts : SMap Part := []
  vis : SMap Vi := []
  accts : SMap Acct := []
  fabTokens : Nat := 8192
  fabBuckets : List Bucket := []
  fabCyc : Nat := 0
  /-- refills that the fabric clock has brought (25 R406) -/
  fabRefills : Nat := 0
  pkgid : Nat := 0
  pkgidSet : Bool := false
  plimit : Nat := 3200
  pnow : Nat := 0
  tmax : Nat := 0
  trip : Bool := false
  thr : Bool := false
  hubCyc : Nat := 0
  /-- the Sconce's clock (00 R4) -/
  sconceCyc : Nat := 0
  /-- the latest 256 records, oldest first, and the number of records ever written (17 R333) -/
  errlog : List (List Word) := []
  errTotal : Nat := 0
  /-- refused accesses of hosts: 0 CXL.mem read, 1 CXL.mem write, 2 DMA, with the line's address or the stream (25 R420, R421; log 53) -/
  hostLog : List (Nat × Nat) := []
  /-- correctable errors of a unit: the window of its clock they fell in, and their number (17 R328) -/
  errs : SMap (Nat × Nat) := []
  retired : List (Nat × Nat) := []
  linkRetry : SMap Nat := []
  harts : SMap Hart := []
  fwins : List FWin := []
  /-- bound streams, with their slots, of enclaves that have ended: their windows' closings go on on them (25 R413; log 74) -/
  dead : List (Nat × Stream) := []
  xfers : List Xfer := []
  cgroups : List CGroup := []
  tdis : SMap Tdi := []
  /-- SPDM state by DOE mailbox: 0 of function 0, v + 1 of interface v; larger numbers are requesters over the fabric
  (18 R340; 19 R354) -/
  spdm : SMap Spdm := []
  /-- the boot step reached, and whether the package runs (27 R433) -/
  boot : Nat := 7
  running : Bool := true
  fw : Firmware := {}
  deriving DecidableEq, Repr

/-- How a run of the model stops; no instruction of the spec is stopped by one. -/
inductive Fault where
  /-- Nothing can move: raised by the idle step of a package stopped at a failed boot step (27 R433). Safe. -/
  | stopped
  deriving DecidableEq, Repr

/-- What the model gives no meaning. -/
inductive Refusal where
  /-- Raised by an arm of exec whose instruction has no meaning yet. Safe. -/
  | notModelled (mnemonic : String)
  /-- Raised by a step of a hart whose next word is of the RV64 base set, which the spec does not describe
  (20 R362 names Xlmenc only). Safe. -/
  | baseRv64
  deriving DecidableEq, Repr

/-- The machine right after reset (27 R433): dies held, no enclave, every frame free and zero, hart 0 released in
M-mode. The fields' own defaults are their reset values. -/
def State.reset : State :=
  { harts := [(0, { released := true, mode := .m, pc := Config.hubResetVector })] }

end Sys2Proof.Machine
end

