-- ==== Sys2Proof/Machine/SMap.lean ====
section
/-! DEFINITION. Operations of sparse maps: reading with a default, writing (writing the default removes the entry), and
the canonical form: keys strictly rise and no entry holds the default. Memory is one of these maps, with byte 0 as what
an unlisted address reads as (27 R433 step 6). -/

namespace Sys2Proof.Machine

/-- The value at a key. -/
def smGet {α : Type} (d : α) : SMap α → Nat → α
  | [], _ => d
  | (k, v) :: m, n => if n = k then v else smGet d m n

/-- The entry at a key, if one is listed. -/
def smFind {α : Type} : SMap α → Nat → Option α
  | [], _ => none
  | (k, v) :: m, n => if n = k then some v else smFind m n

/-- The map without a key. -/
def smErase {α : Type} : SMap α → Nat → SMap α
  | [], _ => []
  | (k, v) :: m, n => if n = k then smErase m n else (k, v) :: smErase m n

/-- Adds an entry in its place by rising key. -/
def smIns {α : Type} (n : Nat) (v : α) : SMap α → SMap α
  | [] => [(n, v)]
  | (k, w) :: m => if n < k then (n, v) :: (k, w) :: m else (k, w) :: smIns n v m

/-- Lists a value at a key, whatever the value. -/
def smPut {α : Type} (m : SMap α) (n : Nat) (v : α) : SMap α := smIns n v (smErase m n)

/-- Writes a value at a key; the default is not listed. -/
def smSet {α : Type} [DecidableEq α] (d : α) (m : SMap α) (n : Nat) (v : α) : SMap α :=
  if v = d then smErase m n else smPut m n v

/-- Writes consecutive values from a key. -/
def smSetAll {α : Type} [DecidableEq α] (d : α) (m : SMap α) (ws : List (Nat × α)) : SMap α :=
  ws.foldl (fun m w => smSet d m w.1 w.2) m

/-- The entries that satisfy a test of key and value. -/
def smFilter {α : Type} (p : Nat → α → Bool) (m : SMap α) : SMap α := m.filter fun e => p e.1 e.2

/-- Changes every listed value; one that becomes the default is not listed. -/
def smMap {α : Type} [DecidableEq α] (d : α) (f : Nat → α → α) (m : SMap α) : SMap α :=
  (m.map fun e => (e.1, f e.1 e.2)).filter fun e => e.2 ≠ d

/-- Keys strictly rise from a bound and no value is the default. -/
def smWfFrom {α : Type} [DecidableEq α] (d : α) : Nat → SMap α → Bool
  | _, [] => true
  | b, (k, v) :: m => b ≤ k && v ≠ d && smWfFrom d (k + 1) m

/-- The canonical form of a sparse map. -/
def smWf {α : Type} [DecidableEq α] (d : α) (m : SMap α) : Bool := smWfFrom d 0 m

/-- The canonical form of memory: addresses strictly rise, and no listed byte is the 0 of an unlisted address. -/
def Memory.wf (m : List Host.Cell) : Bool := smWf (0#8) m

/-- One byte of physical memory or of a pool. -/
def memByte (m : List Host.Cell) (a : Nat) : Byte := smGet (0#8) m a

/-- Writes one byte. -/
def memPut (m : List Host.Cell) (a : Nat) (b : Byte) : List Host.Cell := smSet (0#8) m a b

/-- Writes bytes at their addresses, in list order. -/
def memPutAll (m : List Host.Cell) (ws : List (Nat × Byte)) : List Host.Cell := smSetAll (0#8) m ws

/-! ### Bytes and numbers, little-endian (00 R2) -/

/-- The number that bytes hold, the first byte lowest. -/
def leNat : List Byte → Nat
  | [] => 0
  | b :: bs => b.toNat + 256 * leNat bs

/-- The low `n` bytes of a number, the lowest first. -/
def leBytes : Nat → Nat → List Byte
  | 0, _ => []
  | n + 1, x => BitVec.ofNat 8 x :: leBytes n (x / 256)

/-- Bytes of a list of dwords. -/
def dwordBytes (ds : List Word) : List Byte := ds.flatMap fun d => leBytes 8 d.toNat

/-- `n` dwords of a byte list. -/
def bytesDwords : Nat → List Byte → List Word
  | 0, _ => []
  | n + 1, bs => BitVec.ofNat 64 (leNat (bs.take 8)) :: bytesDwords n (bs.drop 8)

/-- Addresses of `n` bytes from `a`. -/
def addrs (a n : Nat) : List Nat := (List.range n).map (a + ·)

/-- The distinct elements of a list. -/
def uniq (l : List Nat) : List Nat := l.foldr (fun x r => if r.contains x then r else x :: r) []

/-- Replaces the element at an index of a list. -/
def setAt {α : Type} (l : List α) (i : Nat) (v : α) : List α := l.set i v

/-- Removes the element at an index of a list. -/
def dropAt {α : Type} (l : List α) (i : Nat) : List α := l.eraseIdx i

end Sys2Proof.Machine
end

