-- ==== Sys2Proof/Machine/Access.lean ====
section
/-! DEFINITION. Reading and writing the parts of State: the core, die, group, task, team and enclave of a number, the
executing path slot, and a free value. -/

namespace Sys2Proof.Machine

/-- A core by its number: die × 128 + cluster × 8 + core (01 R10; 00 R1). -/
def State.core (s : State) (c : Nat) : Core := smGet {} s.cores c
/-- Changes a core. -/
def State.modCore (s : State) (c : Nat) (f : Core → Core) : State :=
  { s with cores := smSet {} s.cores c (f (s.core c)) }
/-- A compute die 0 to 3. -/
def State.die (s : State) (d : Nat) : Die := smGet {} s.dies d
/-- Changes a die. -/
def State.modDie (s : State) (d : Nat) (f : Die → Die) : State := { s with dies := smSet {} s.dies d (f (s.die d)) }
/-- An enclave by its id; a dead one is not live. -/
def State.encl (s : State) (e : Nat) : Enclave := smGet {} s.encs e
/-- Changes an enclave. -/
def State.modEnc (s : State) (e : Nat) (f : Enclave → Enclave) : State :=
  { s with encs := smSet {} s.encs e (f (s.encl e)) }
/-- A partition record. -/
def State.part (s : State) (p : Nat) : Part := smGet {} s.parts p
/-- Changes a partition record. -/
def State.modPart (s : State) (p : Nat) (f : Part → Part) : State := { s with parts := smSet {} s.parts p (f (s.part p)) }
/-- A virtual interface record. -/
def State.vi (s : State) (v : Nat) : Vi := smGet {} s.vis v
/-- A frame's POT entry. -/
def State.potOf (s : State) (f : Nat) : Pot := smGet {} s.pot f
/-- Writes a frame's POT entry. -/
def State.setPot (s : State) (f : Nat) (p : Pot) : State := { s with pot := smSet {} s.pot f p }
/-- The admitting die of a partition: the lowest with a cluster of it (05 R132). -/
def State.admitDie (s : State) (part : Nat) : Nat :=
  ((List.range 4).find? fun d => bitsAt (s.part part).clusters (16 * d) 16 ≠ 0).getD 0
/-- A hart. -/
def State.hart (s : State) (h : Nat) : Hart := smGet {} s.harts h
/-- Changes a hart. -/
def State.modHart (s : State) (h : Nat) (f : Hart → Hart) : State := { s with harts := smSet {} s.harts h (f (s.hart h)) }
/-- A task. -/
def State.task (s : State) (t : Nat) : Option Task := smFind s.tasks t
/-- Changes a task that exists. -/
def State.modTask (s : State) (t : Nat) (f : Task → Task) : State :=
  match s.task t with
  | some x => { s with tasks := smPut s.tasks t (f x) }
  | none => s
/-- A team. -/
def State.team (s : State) (t : Nat) : Option Team := smFind s.teams t
/-- Changes a team that exists. -/
def State.modTeam (s : State) (t : Nat) (f : Team → Team) : State :=
  match s.team t with
  | some x => { s with teams := smPut s.teams t (f x) }
  | none => s

/-- A group by its number: the one at the focus, or one of the others. -/
def State.group (s : State) (gid : Nat) : Option Group :=
  if s.g.gid = gid then (if gid = 0 then none else some s.g) else smFind s.groups gid
/-- Writes a group back where it stands. -/
def State.setGroup (s : State) (x : Group) : State :=
  if s.g.gid = x.gid then { s with g := x } else { s with groups := smPut s.groups x.gid x }
/-- Changes a group that exists. -/
def State.modGroup (s : State) (gid : Nat) (f : Group → Group) : State :=
  match s.group gid with
  | some x => s.setGroup (f x)
  | none => s
/-- Every group, the focused one first. -/
def State.allGroups (s : State) : List Group := (if s.g.gid = 0 then [] else [s.g]) ++ s.groups.map (·.2)

/-- Whether a team stands on its cores. -/
def Team.onCores (t : Team) : Bool := t.stat = .resident || t.stat = .draining
/-- Groups resident on a core: those of teams that stand there which have not ended (05 R121). -/
def State.residents (s : State) (core : Nat) : List Group :=
  s.allGroups.filter fun g => g.core = core && g.stat ≠ .ended && (((s.team g.team).map Team.onCores).getD true)

/-- The largest CYC of some cores, and a clock of its own where that is ahead (00 R4; log 4). -/
def State.clockOf (s : State) (p : Nat → Bool) (own : Nat) : Nat :=
  (s.cores.filter fun c => p c.1).foldl (fun m c => max m c.2.cyc.toNat) own
/-- A die's clock. -/
def State.dieClock (s : State) (d : Nat) : Nat := s.clockOf (fun c => c / 128 = d) (s.die d).cyc
/-- The fabric's clock. -/
def State.fabClock (s : State) : Nat := s.clockOf (fun _ => true) s.fabCyc
/-- The hub die's clock. -/
def State.hubClock (s : State) : Nat := s.clockOf (fun _ => true) s.hubCyc
/-- The Sconce's clock. -/
def State.sconceClock (s : State) : Nat := s.clockOf (fun _ => true) s.sconceCyc

/-- Changes the focused group. -/
def State.modG (s : State) (f : Group → Group) : State := { s with g := f s.g }

/-- A path slot. -/
def Group.path (g : Group) (f : Bool) : PathState := if f then g.f else g.t
/-- Writes a path slot. -/
def Group.setPath (g : Group) (f : Bool) (p : PathState) : Group := if f then { g with f := p } else { g with t := p }
/-- The executing path slot. -/
def Group.p (g : Group) : PathState := g.path g.curF
/-- Writes the executing path slot. -/
def Group.setP (g : Group) (p : PathState) : Group := g.setPath g.curF p
/-- Changes a path slot. -/
def Group.modPath (g : Group) (f : Bool) (h : PathState → PathState) : Group := g.setPath f (h (g.path f))
/-- Changes the executing path slot. -/
def Group.modP (g : Group) (h : PathState → PathState) : Group := g.setP (h g.p)

/-- The die of a core. -/
def dieOfCore (c : Nat) : Nat := c / 128
/-- The cluster of a core, numbered over the package: die × 16 + cluster. -/
def clusterOf (c : Nat) : Nat := c / 8

/-- A fresh value that the spec leaves open, and the counter's advance (log 1). -/
def State.draw (s : State) : Word × State := (Config.freeWord s.fresh, { s with fresh := s.fresh + 1 })

/-- The task that a group runs. -/
def State.taskOf (s : State) (g : Group) : Option Task := (s.team g.team).bind fun t => s.task t.task
/-- The partition of a group's enclave. -/
def State.partOf (s : State) (g : Group) : Nat := (s.encl g.enc).part

/-- The header of the executing path slot's clause. -/
def Group.header (g : Group) : Option Header := g.p.hdr.bind decodeHeader
/-- Words in the current clause; 1 where no header is held. -/
def Group.clauseLen (g : Group) : Nat := (g.header.map Header.n).getD 1
/-- Whether the word about to issue is its clause's last. -/
def Group.lastWord (g : Group) : Bool := g.p.cwi + 1 = g.clauseLen
/-- The address of the next header in sequence: H + 4 × (N + 1) (01 R16). -/
def Group.nextHeader (g : Group) : VAddr := g.p.pc + BitVec.ofNat 57 (4 * (g.clauseLen + 1))

/-- A group's fields of POOLW (09 Table 9.1). -/
def Group.regRows (g : Group) : Nat := bitsAt g.poolw.toNat 0 8
/-- Scratchpad rows. -/
def Group.scrRows (g : Group) : Nat := bitsAt g.poolw.toNat 8 8
/-- Accumulator rows. -/
def Group.accRows (g : Group) : Nat := bitsAt g.poolw.toNat 16 8

/-- s56 and s57 of a group (05 Tables 5.2, 5.3). -/
def Group.s56 (g : Group) : Word := smGet 0 g.sfix 56
/-- Team geometry. -/
def Group.s57 (g : Group) : Word := smGet 0 g.sfix 57
/-- GROUP: the index within the team. -/
def Group.index (g : Group) : Nat := bitsAt g.s56.toNat 0 5
/-- The 48 bits that name the group in reports and windows. -/
def Group.ident (g : Group) : Nat := bitsAt g.s56.toNat 0 48
/-- GROUPS of the team. -/
def Group.teamGroups (g : Group) : Nat := bitsAt g.s57.toNat 0 6
/-- PAIR of the team. -/
def Group.pair (g : Group) : Bool := bitAt g.s57.toNat 6
/-- HALF: the core of the pair. -/
def Group.half (g : Group) : Nat := bitsAt g.s57.toNat 7 1
/-- DEPTH of the team's grid. -/
def Group.depth (g : Group) : Nat := bitsAt g.s57.toNat 28 4
/-- The team's groups on this group's core, Ng (09 R182). -/
def Group.onCore (g : Group) : Nat :=
  if g.pair then (if g.half = 0 then (g.teamGroups + 1) / 2 else g.teamGroups / 2) else g.teamGroups
/-- The group's ordinal among them, h. -/
def Group.ordinal (g : Group) : Nat := if g.pair then g.index / 2 else g.index
/-- Bytes of the group's scratchpad allocation (09 R182). -/
def Group.allocBytes (g : Group) : Nat := g.scrRows / g.onCore * 4096

/-- LD, ST, CP and TL of a path slot in OUTC's layout (01 Table 1.3). -/
def PathState.outc (p : PathState) : Nat := p.ld + p.st * 2 ^ 8 + p.cp * 2 ^ 16 + p.tl * 2 ^ 24

/-- PATHS (05 Table 5.1). -/
def Group.paths (g : Group) : Nat :=
  b2n (g.t.stat ≠ .free) + 2 * b2n (g.f.stat ≠ .free) + 4 * b2n g.curF +
  8 * b2n (g.t.stat = .atJoin || g.t.stat = .ended) + 16 * b2n (g.f.stat = .atJoin || g.f.stat = .ended) +
  2 ^ 8 * g.t.stack.length + 2 ^ 12 * g.f.stack.length

end Sys2Proof.Machine
end

