-- ==== Sys2Proof/Machine/Operands.lean ====
section
/-! DEFINITION. Operand forms: scalar and vector register fields through the windows (01 R10, R11, R28; 04 R87), lanes
and packed sub-elements (03 R69, R70; 05 R110), and immediates (01 R39). -/

namespace Sys2Proof.Machine

/-- Where a scalar register field leads (01 R11, R28). -/
def Group.loc (g : Group) (r : Reg) : RLoc :=
  if r.toNat < 48 then .ring ((g.wpos + r.toNat) % 64)
  else if r.toNat < 60 then .fix r.toNat
  else if r.toNat < 63 then .mask g.curF (r.toNat - 60)
  else .zero

/-- Where a vector register field leads. -/
def Group.vloc (g : Group) (r : Reg) : RLoc :=
  if r.toNat < 48 then .ring ((g.wpos + r.toNat) % 64) else .fix r.toNat

/-- Word `k` of a mask: lanes 32k to 32k + 31. -/
def maskWord (m : Mask) (k : Nat) : Nat := bitsAt m.toNat (32 * k) 32
/-- A mask with word `k` replaced. -/
def setMaskWord (m : Mask) (k v : Nat) : Mask :=
  BitVec.ofNat 96 (m.toNat - maskWord m k * 2 ^ (32 * k) + v % 2 ^ 32 * 2 ^ (32 * k))

/-- Reads a scalar register place. -/
def Group.rd (g : Group) : RLoc → Word
  | .ring n => smGet 0 g.sring n
  | .fix r => smGet 0 g.sfix r
  | .mask f k => BitVec.ofNat 64 (maskWord (g.path f).mask k)
  | .zero => 0

/-- Writes a scalar register place: s56 and s57 discard, a mask word keeps bits [31:0], s63 discards (01 Table 1.2). -/
def Group.wr (g : Group) (l : RLoc) (v : Word) : Group :=
  match l with
  | .ring n => { g with sring := smSet 0 g.sring n v }
  | .fix r => if r = 56 ∨ r = 57 then g else { g with sfix := smSet 0 g.sfix r v }
  | .mask f k => g.modPath f fun p => { p with mask := setMaskWord p.mask k v.toNat }
  | .zero => g

/-- A scalar register's value. -/
def Group.sr (g : Group) (r : Reg) : Word := g.rd (g.loc r)
/-- Writes a scalar register. -/
def Group.setS (g : Group) (r : Reg) (v : Word) : Group := g.wr (g.loc r) v

/-- The zero vector register. -/
def vzero : VReg := List.replicate 96 0#32

/-- Reads a vector register place. -/
def Group.vrd (g : Group) : RLoc → VReg
  | .ring n => smGet vzero g.vring n
  | .fix r => smGet vzero g.vfix r
  | _ => vzero
/-- Writes a vector register place. -/
def Group.vwr (g : Group) (l : RLoc) (v : VReg) : Group :=
  match l with
  | .ring n => { g with vring := smSet vzero g.vring n v }
  | .fix r => { g with vfix := smSet vzero g.vfix r v }
  | _ => g
/-- A vector register's value. -/
def Group.vr (g : Group) (r : Reg) : VReg := g.vrd (g.vloc r)

/-- Lane `i` of a vector register. -/
def lane (v : VReg) (i : Nat) : W32 := v.getD i 0
/-- Whether lane `i` is active in the executing path slot (05 R110). -/
def Group.active (g : Group) (i : Nat) : Bool := bitAt g.p.mask.toNat i
/-- The active lanes in ascending order. -/
def Group.lanes (g : Group) : List Nat := (List.range 96).filter g.active
/-- The active f64 elements: element j is active when lane 2j is (03 R69). -/
def Group.elems64 (g : Group) : List Nat := (List.range 48).filter fun j => g.active (2 * j)

/-- Lanes replaced under a mask: lane i takes `f i` where it is active, else it keeps its value. -/
def mergeLanes (m : Mask) (old : VReg) (f : Nat → W32) : VReg :=
  (List.range 96).map fun i => if bitAt m.toNat i then f i else lane old i
/-- f64 elements replaced under a mask, both lanes of each active element (03 R69). -/
def merge64 (m : Mask) (old : VReg) (f : Nat → Nat) : VReg :=
  (List.range 96).map fun i =>
    if bitAt m.toNat (i / 2 * 2) then BitVec.ofNat 32 (f (i / 2) / 2 ^ (32 * (i % 2))) else lane old i

/-- f64 element `j` of a vector register. -/
def elem64 (v : VReg) (j : Nat) : Nat := (lane v (2 * j)).toNat + 2 ^ 32 * (lane v (2 * j + 1)).toNat
/-- Sub-element `k` of `w` bits of a lane (03 Table 3.6). -/
def subElem (x : W32) (w k : Nat) : Nat := bitsAt x.toNat (w * k) w
/-- A lane built from sub-elements, the first lowest. -/
def packSubs (w : Nat) : List Nat → Nat
  | [] => 0
  | x :: xs => x % 2 ^ w + 2 ^ w * packSubs w xs

/-- Writes active lanes of a vector register. -/
def Group.setV (g : Group) (r : Reg) (f : Nat → W32) : Group :=
  g.vwr (g.vloc r) (mergeLanes g.p.mask (g.vr r) f)
/-- Writes active f64 elements of a vector register. -/
def Group.setV64 (g : Group) (r : Reg) (f : Nat → Nat) : Group :=
  g.vwr (g.vloc r) (merge64 g.p.mask (g.vr r) f)

/-- A sign-extended immediate (01 R39). -/
def simm {n : Nat} (i : BitVec n) : Word := i.signExtend 64
/-- A condition triple's 96 bits: bits [31:0] of three consecutive scalar registers (05 R113). -/
def Group.triple (g : Group) (n : Reg) : Mask :=
  BitVec.ofNat 96 ((g.sr n).toNat % 2 ^ 32 + (g.sr (n + 1)).toNat % 2 ^ 32 * 2 ^ 32 + (g.sr (n + 2)).toNat % 2 ^ 32 * 2 ^ 64)
/-- Writes a mask triple: three words in the low halves of three registers, higher bits zero. -/
def Group.setTriple (g : Group) (n : Reg) (m : Mask) : Group :=
  ((g.setS n (BitVec.ofNat 64 (maskWord m 0))).setS (n + 1) (BitVec.ofNat 64 (maskWord m 1))).setS (n + 2)
    (BitVec.ofNat 64 (maskWord m 2))

end Sys2Proof.Machine
end

