-- ==== Sys2Proof/Machine/Flags.lean ====
section
/-! DEFINITION. Flags and pure scalar results: the sticky FPF (03 R77), integer conditions (02 Table 2.3), the integer
ALU (04 R89 to R92, R96) and the scalar conversions (04 R101). -/

namespace Sys2Proof.Machine

/-- ORs flags into FPF (03 R77). -/
def Group.orFpf (g : Group) (f : Flags) : Group := { g with fpf := g.fpf ||| f }

/-- An integer condition between two 64-bit words (02 Table 2.3). -/
def condHolds (c : Cond) (a b : Word) : Bool :=
  match c with
  | .eq => a = b
  | .ne => a ≠ b
  | .lt => a.toInt < b.toInt
  | .ge => b.toInt ≤ a.toInt
  | .ltn => a.toNat < b.toNat
  | .gen => b.toNat ≤ a.toNat

/-- The shift amount of a register operand: b[5:0] (04 R89). -/
def shAmt (b : Word) : Nat := b.toNat % 64

/-- Rotate left by b[5:0]. -/
def rotl (a : Word) (n : Nat) : Word := (a <<< n) ||| (a >>> (64 - n))

/-- Zero bits above the highest set bit; 64 for zero. -/
def clz64 (a : Word) : Nat := if a = 0 then 64 else 63 - a.toNat.log2
/-- The lowest set bit's index, searched upwards. -/
def ctzFrom (x : Nat) : Nat → Nat → Nat
  | 0, i => i
  | k + 1, i => if bitAt x i then i else ctzFrom x k (i + 1)
/-- Zero bits below the lowest set bit; 64 for zero. -/
def ctz64 (a : Word) : Nat := ctzFrom a.toNat 64 0
/-- Set bits of the low `w` bits. -/
def popBits (x : Nat) : Nat → Nat
  | 0 => 0
  | w + 1 => b2n (bitAt x w) + popBits x w

/-- Signed quotient and remainder (04 R90). -/
def divS (a b : Word) : Word × Word :=
  if b = 0 then (BitVec.allOnes 64, a)
  else (BitVec.ofInt 64 (a.toInt.tdiv b.toInt), BitVec.ofInt 64 (a.toInt.tmod b.toInt))
/-- Natural quotient and remainder (04 R90). -/
def divU (a b : Word) : Word × Word :=
  if b = 0 then (BitVec.allOnes 64, a)
  else (BitVec.ofNat 64 (a.toNat / b.toNat), BitVec.ofNat 64 (a.toNat % b.toNat))

/-- Width and lowest bit of a bit-field descriptor (04 Table 4.3). -/
def fieldOf (b : Word) : Nat × Nat := (min (bitsAt b.toNat 8 7) 64, bitsAt b.toNat 0 6)
/-- s.bext (04 R91). -/
def bext (a b : Word) : Word :=
  let (w, lo) := fieldOf b
  BitVec.ofNat 64 (bitsAt a.toNat lo w)
/-- s.bins (04 R91). -/
def bins (d a b : Word) : Word :=
  let (w, lo) := fieldOf b
  let m : Nat := (2 ^ w - 1) * 2 ^ lo
  BitVec.ofNat 64 ((d.toNat &&& ((2 ^ 64 - 1) ^^^ (m % 2 ^ 64))) ||| (a.toNat % 2 ^ w * 2 ^ lo))

/-- The type of F: f32 or f64. -/
def fTy (f : BitVec 1) : FTy := if f = 1#1 then .f64 else .f32
/-- Slot cycles of a scalar floating-point word by its type (04 Table 4.10). -/
def fCycles (f : BitVec 1) (n m : Nat) : Nat := if f = 1#1 then m else n

/-- s.fcvt (04 Table 4.7). -/
def scalarCvt (src dst : CvTy) (rm : Rm) (sat : Bool) (a : Nat) : FRes :=
  match src, dst with
  | .fp x, .fp y => fpToFp x y rm sat a
  | .fp x, .i64 => fpToInt x rm sat true 64 a
  | .fp x, .n64 => fpToInt x rm sat false 64 a
  | .i64, .fp y => intToFp y .rne sat (toInt true 64 a)
  | .n64, .fp y => intToFp y .rne sat (toInt false 64 a)
  | .i64, .n64 => intToInt true 64 sat false 64 a
  | .n64, .i64 => intToInt false 64 sat true 64 a
  | _, _ => ⟨a, Flags.none⟩

/-- A conversion with a 64-bit type takes 3 slot cycles, another 2 (04 Table 4.10). -/
def cvtCycles (s t : BitVec 3) : Nat := if s.toNat ≤ 2 ∨ t.toNat ≤ 2 then 3 else 2

end Sys2Proof.Machine
end

