-- ==== Sys2Proof/Machine/Trace.lean ====
section
/-! DEFINITION. What Lamplight sees while words issue (21): the cycle counter, the top-down leaves of both issue slots,
programmable counters, and trace packets entering the unit's queue. Nothing here changes what an instruction computes. -/

namespace Sys2Proof.Machine

/-- Leaves of 21 Table 21.1 that the model names. -/
def leafUseful : Nat := 0x00
/-- Issued, masked-off. -/
def leafMasked : Nat := 0x01
/-- Issued, beat continuation. -/
def leafBeat : Nat := 0x02
/-- Not issued, no resident group. -/
def leafNone : Nat := 0x03
/-- Not issued, front end. -/
def leafFront : Nat := 0x04
/-- Waiting, LD; ST, CP and TL follow it. -/
def leafLd : Nat := 0x05
/-- Waiting, ST. -/
def leafSt : Nat := 0x06
/-- Waiting, CP. -/
def leafCp : Nat := 0x07
/-- Waiting, TL. -/
def leafTl : Nat := 0x08
/-- Waiting, event. -/
def leafEvent : Nat := 0x0B
/-- Waiting, range lock. -/
def leafLock : Nat := 0x0D
/-- Waiting, lease. -/
def leafLease : Nat := 0x0E
/-- Resource, vector pipe. -/
def leafPipe : Nat := 0x0F
/-- Resource, matrix array. -/
def leafArray : Nat := 0x10
/-- Resource, window spill or fill. -/
def leafSpill : Nat := 0x11
/-- Halted by pre-emption. -/
def leafHalted : Nat := 0x12

/-- The leaves an interior node sums, by its index 0x13 to 0x17: issued, not issued, waiting, resource, total. -/
def nodeHolds (node leaf : Nat) : Bool :=
  match node with
  | 0x13 => leaf ≤ 2
  | 0x14 => leaf = 3 || leaf = 4
  | 0x15 => 5 ≤ leaf && leaf ≤ 0x0E
  | 0x16 => 0x0F ≤ leaf && leaf ≤ 0x11
  | 0x17 => leaf ≤ 0x12
  | n => n = leaf

/-- A four-dword packet (21 Table 21.8). -/
def packet (typ : Nat) (pathF : Bool) (cwi gid pc : Nat) (mask : Mask) (payload : Nat) : List Word :=
  [BitVec.ofNat 64 (typ * 2 ^ 59 + b2n pathF * 2 ^ 58 + cwi % 16 * 2 ^ 54 + gid % 2 ^ 48), BitVec.ofNat 64 (pc % 2 ^ 57),
   BitVec.ofNat 64 (bitsAt mask.toNat 0 64), BitVec.ofNat 64 (payload % 2 ^ 32 * 2 ^ 32 + maskWord mask 2)]

/-- A packet as a hypervisor's unit holds it: TYPE, PATH and GID only (21 R377). -/
def hypPacket (p : List Word) : List Word :=
  [BitVec.ofNat 64 ((p.getD 0 0).toNat / 2 ^ 58 * 2 ^ 58 + (p.getD 0 0).toNat % 2 ^ 48), 0, 0, 0]

/-- Whether 21 R385 admits packets of a group: it is traced, its core's unit has EN set, and its enclave or the hypervisor holds
the unit. -/
def State.traces (s : State) (g : Group) : Bool :=
  let u := (s.core g.core).trace
  bitAt g.trctl.toNat 0 && bitAt u.ctl.toNat 0 && (u.holder = some (.enc g.enc) || u.holder = some .hyp)

/-- A unit takes a packet as its holder may see it; a full queue drops it. -/
def Trace.put (u : Trace) (p : List Word) : Trace :=
  if u.queue.length < 64 then { u with queue := u.queue ++ [if u.holder = some .hyp then hypPacket p else p] }
  else { u with dropped := min (u.dropped + 1) (2 ^ 31 - 1) }

/-- A SYNC packet of a group: the core that runs it (21 Table 21.9). -/
def syncPacket (g : Group) : List Word := packet 0 g.curF (g.p.cwi + 1) g.ident g.p.pc.toNat g.p.mask (g.core % 512)

/-- Room has returned after dropped packets, or the hypervisor has given the unit back: a LOST packet, then a SYNC packet of each
traced group, before any other (21 R376, R384). -/
def State.catchUp (s : State) (core : Nat) : State :=
  let u := (s.core core).trace
  if (u.dropped = 0 ∧ !u.hostLost) ∨ 64 ≤ u.queue.length then s
  else
    let gs := s.allGroups.filter fun g => g.core = core && s.traces g
    let u' : Trace := { u with dropped := 0, hostLost := false }
    let u' := u'.put (packet 9 false 0 0 0 0 (u.dropped + b2n u.hostLost * 2 ^ 31))
    s.modCore core fun c => { c with trace := gs.foldl (fun u g => u.put (syncPacket g)) u' }

/-- Queues a packet of a group in its core's trace unit where 21 R385 admits it. -/
def State.emitPacket (s : State) (g : Group) (p : List Word) : State :=
  if s.traces g then (s.catchUp g.core).modCore g.core fun c => { c with trace := c.trace.put p } else s

/-- A packet about the executing path slot's present clause and word. -/
def State.emit (s : State) (g : Group) (typ payload : Nat) : State :=
  s.emitPacket g (packet typ g.curF (g.p.cwi + 1) g.ident g.p.pc.toNat g.p.mask payload)

/-- A configured counter counts event `evid` of a group, or of no group, in the view of the enclave that holds the bank (21 Table
21.6, R375, R377). -/
def Bank.counts (b : Bank) (i : Nat) (cfg : Word) (evid : Nat) (g : Option (Nat × Nat)) : Bool :=
  bitAt cfg.toNat 18 && bitsAt cfg.toNat 0 16 = evid && match g with
  | some (gid, enc) => b.holder = some (.enc enc) && (!bitAt cfg.toNat 19 || smGet 0 b.gids i = gid)
  | none => b.holder ≠ none && b.holder ≠ some .hyp && !bitAt cfg.toNat 19

/-- Adds `n` events to every counter that counts them; a count wraps modulo 2^48 and sets OVF. -/
def Bank.addEvents (b : Bank) (evid n : Nat) (g : Option (Nat × Nat)) : Bank :=
  b.cfg.foldl (fun b c =>
    if b.counts c.1 c.2 evid g then
      let x := smGet 0 b.count c.1 + n
      { b with count := smSet 0 b.count c.1 (x % 2 ^ 48)
               ovf := smSet false b.ovf c.1 (smGet false b.ovf c.1 || 2 ^ 48 ≤ x) }
    else b) b

/-- Counters whose PLOG period an addition of `n` crosses (21 Table 21.6). -/
def Bank.samples (b : Bank) (evid n : Nat) (g : Option (Nat × Nat)) : List Nat :=
  (b.cfg.filter fun c =>
    let plog := bitsAt c.2.toNat 27 5
    b.counts c.1 c.2 evid g && plog ≠ 0 &&
      smGet 0 b.count c.1 / 2 ^ (plog + 7) < (smGet 0 b.count c.1 + n) / 2 ^ (plog + 7)).map (·.1)

/-- `n` events at a core, of a group or of none; `leaf` is the slot-cycle's leaf for samples, 0x1F for other events. A sample names
the group, so an event of none makes no sample. -/
def State.eventAt (s : State) (core : Nat) (o : Option Group) (evid leaf n : Nat) : State :=
  let b := (s.core core).bank
  let who := o.map fun g => (g.gid, g.enc)
  if b.cfg.isEmpty then s
  else
    let sam := b.samples evid n who
    let s := s.modCore core fun c => { c with bank := b.addEvents evid n who }
    match o with
    | some g => sam.foldl (fun s i => s.emit g 7 (i + leaf * 2 ^ 8)) s
    | none => s

/-- `n` events attributed to a group. -/
def State.event (s : State) (g : Group) (evid leaf n : Nat) : State := s.eventAt g.core (some g) evid leaf n

end Sys2Proof.Machine
end

