-- ==== Sys2Proof/Machine/Local.lean ====
section
/-! DEFINITION. The scratchpad (09 R179 to R189): local addresses, allocations through the team's row map, cluster
windows, full/empty bits, and the range-lock check of 11 R248. -/

namespace Sys2Proof.Machine

/-- A local access that has passed its checks: the owning core and group, the first byte's offset in the owner's
allocation, the pool offset of each byte, and the window it goes through. -/
structure LocalAcc where
  core : Nat
  owner : Nat
  base : Nat
  offs : List Nat
  win : Option Nat
  deriving DecidableEq, Repr

/-- What the checks of a local access answer. -/
inductive LocRes where
  | ok (a : LocalAcc) | bad (c : Code) | sealedOut (core win : Nat)
  deriving DecidableEq, Repr

/-- A team's row map on a core (09 R181). -/
def Team.rowsOn (t : Team) (core : Nat) : List Nat := (((t.cores.zip t.rows).find? fun x => x.1 = core).map (·.2)).getD []

/-- The row-map index of a byte of a group's allocation (09 R182; rows stand in the order registers, scratchpad,
accumulators, 18 R350 example). -/
def Group.rowIx (g : Group) (off : Nat) : Nat := g.regRows + g.ordinal * (g.scrRows / g.onCore) + off / 4096

/-- The pool offset of a byte of a group's allocation. -/
def State.poolOff (s : State) (g : Group) (off : Nat) : Option Nat :=
  (s.team g.team).bind fun t => ((t.rowsOn g.core)[g.rowIx off]?).map fun r => r * 4096 + off % 4096

/-- The pool offset of byte `b` of accumulator row `9n + row` of a team on a core (14 R293). -/
def State.tileOff (s : State) (team core regs scr n b : Nat) : Option Nat :=
  (s.team team).bind fun t => ((t.rowsOn core)[regs + scr + 9 * n + b / 4096]?).map fun r => r * 4096 + b % 4096

/-- Whether the row map of a group holds a sealed row at a byte of its allocation. -/
def State.sealedAt (s : State) (g : Group) (off : Nat) : Bool :=
  match s.team g.team with
  | some t => t.lost.contains (g.core, g.rowIx off)
  | none => true

/-- Bytes of an allocation as pool offsets, with the row owner check of 09 R180. -/
def State.allocAcc (s : State) (g : Group) (off len : Nat) (enc : Nat) : Except Code LocalAcc :=
  let offs := (addrs off len).map (s.poolOff g)
  if offs.all (fun o => match o with | some x => ((smGet {} (s.core g.core).rows (x / 4096)).owner = enc : Bool) | none => false)
  then .ok ⟨g.core, g.gid, off, offs.filterMap id, none⟩ else .error .ownership

/-- A SELF access (09 R182, R183). -/
def State.selfAcc (s : State) (g : Group) (a len : Nat) : Except Code LocalAcc :=
  if a / 2 ^ 24 ≠ 0 ∨ !bitAt a 23 then .error .windowBounds
  else if g.allocBytes < a % 2 ^ 20 + len then .error .windowBounds
  else s.allocAcc g (a % 2 ^ 20) len g.enc

/-- Whether a SELF store enters one of the opener's open single-writer windows without being its named writer
(09 R187). -/
def State.ownWindowBar (s : State) (g : Group) (off len : Nat) : Bool :=
  (s.core g.core).wins.any fun w =>
    w.2.gid = g.gid && w.2.sw && !w.2.closing && w.2.writer ≠ g.ident &&
      (off < w.2.addr % 2 ^ 20 + 128 && w.2.addr % 2 ^ 20 < off + len)

/-- An access through a cluster window (09 R187). -/
def State.winAcc (s : State) (g : Group) (a len : Nat) (write : Bool) : LocRes :=
  let core := clusterOf g.core * 8 + bitsAt a 20 3
  let n := bitsAt a 7 9
  if bitsAt a 16 4 ≠ 0 then .bad .windowBounds
  else match smFind (s.core core).wins n with
    | none => .bad .windowBounds
    | some w =>
      if (w.closing ∧ !((g.winRet.map (·.1)).getD []).contains (core, n)) ∨ 128 < a % 128 + len then .bad .windowBounds
      else if w.enc ≠ g.enc then .bad .ownership
      else if write ∧ (!w.sw ∨ w.writer ≠ g.ident) then .bad .windowWriter
      else match s.group w.gid with
        | none => .bad .windowBounds
        | some o =>
          if s.sealedAt o (w.addr % 2 ^ 20) then .sealedOut core n
          else match s.allocAcc o (w.addr % 2 ^ 20 + a % 128) len w.enc with
            | .ok x => .ok { x with win := some n }
            | .error c => .bad c

/-- The checks of a local access of `len` bytes at an exact address, alignment first (09 R183, R187; 12 R264). -/
def State.localCheck (s : State) (g : Group) (a : Int) (len align : Nat) (write : Bool) : LocRes :=
  let n := wrapInt 64 a
  if n % min align 128 ≠ 0 then .bad .misaligned
  else if a < 0 ∨ 2 ^ 24 ≤ a then .bad .windowBounds
  else if bitAt n 23 then
    match s.selfAcc g n len with
    | .ok x => if write ∧ s.ownWindowBar g (n % 2 ^ 20) len then .bad .windowWriter else .ok x
    | .error c => .bad c
  else s.winAcc g n len write

/-- A byte range meets intervals. -/
def inSegs (segs : List (Nat × Nat)) (o : Nat) : Bool := segs.any fun x => x.1 ≤ o && o < x.2

/-- Whether an access of pool bytes conflicts with a range lock of the core (11 R248). -/
def Core.lockedLocal (c : Core) (offs : List Nat) (write : Bool) : Bool :=
  c.locks.any fun r => !r.far && (r.dst || write) && offs.any (inSegs r.segs)
/-- Whether an access of far virtual bytes conflicts. -/
def Core.lockedFar (c : Core) (enc : Nat) (va len : Nat) (write : Bool) : Bool :=
  c.locks.any fun r => r.far && r.enc = enc && (r.dst || write) && r.segs.any fun x => va < x.2 && x.1 < va + len

/-- Whether two entries share a byte. -/
def LockRange.meets (a b : LockRange) : Bool :=
  a.far = b.far && (!a.far || a.enc = b.enc) && a.segs.any fun x => b.segs.any fun y => x.1 < y.2 && y.1 < x.2

/-- Whether an earlier operation's entry holds an operation back (11 R250). -/
def Core.heldBack (c : Core) (op : Nat) : Bool :=
  c.locks.any fun a => a.op = op && c.locks.any fun b => b.op < op && (a.dst || b.dst) && a.meets b

/-- The windows that a group has opened on its core admit no more accesses (09 R189). -/
def Core.closeWins (c : Core) (gid : Nat) : Core :=
  { c with wins := c.wins.map fun (w : Nat × Win) => if w.2.gid = gid then (w.1, { w.2 with closing := true }) else w }

/-- Bytes of a core's pool. -/
def State.poolRead (s : State) (a : LocalAcc) : List Byte := a.offs.map (memByte (s.core a.core).pool)
/-- Writes bytes of a core's pool. -/
def State.poolWrite (s : State) (a : LocalAcc) (bs : List Byte) : State :=
  s.modCore a.core fun c => { c with pool := memPutAll c.pool (a.offs.zip bs) }

/-- The F/E bit of the word that holds a pool byte (09 R184). -/
def State.feFull (s : State) (core off : Nat) : Bool := smGet false (s.core core).fe (off / 4)
/-- Sets or clears the F/E bits of the words of pool bytes. -/
def State.setFe (s : State) (core : Nat) (offs : List Nat) (b : Bool) : State :=
  s.modCore core fun c => { c with fe := offs.foldl (fun m o => smSet false m (o / 4) b) c.fe }
/-- The first byte of each word of a local access. -/
def LocalAcc.words (a : LocalAcc) : List Nat := a.offs.filter fun o => o % 4 = 0

end Sys2Proof.Machine
end

