-- ==== Sys2Proof/Machine/Lantern.lean ====
section
/-! DEFINITION. Physical memory and lanterns (09 R192 to R207; 10 R228): where a line stands, lookups during a change,
allocation and replacement, write policies, and the channel counters. -/

namespace Sys2Proof.Machine

/-! ### LDR fields (09 Table 9.5) -/

/-- CLASS. -/
def Ldr.cls (l : Ldr) : Nat := bitsAt l.d0.toNat 0 6
/-- MODE: 0 HOME, 1 REPLICA, 2 BYPASS. -/
def Ldr.mode (l : Ldr) : Nat := bitsAt l.d0.toNat 8 2
/-- HOMEDIE. -/
def Ldr.home (l : Ldr) : Nat := bitsAt l.d0.toNat 16 2
/-- DIES, one bit per die. -/
def Ldr.dies (l : Ldr) : Nat := bitsAt l.d0.toNat 20 4
/-- LSZ. -/
def Ldr.lsz (l : Ldr) : Nat := bitsAt l.d0.toNat 24 2
/-- WFIRST. -/
def Ldr.wfirst (l : Ldr) : Nat := bitsAt l.d0.toNat 28 4
/-- The associativity W. -/
def Ldr.w (l : Ldr) : Nat := 2 ^ bitsAt l.d0.toNat 32 3
/-- WPOL: 0 write-back, 1 write-through, 2 no-allocate, 3 read-only. -/
def Ldr.wpol (l : Ldr) : Nat := bitsAt l.d0.toNat 36 2
/-- PART. -/
def Ldr.part (l : Ldr) : Nat := bitsAt l.d0.toNat 40 8
/-- FIRST. -/
def Ldr.first (l : Ldr) : Nat := bitsAt l.d1.toNat 0 6
/-- PER. -/
def Ldr.per (l : Ldr) : Nat := bitsAt l.d1.toNat 8 7
/-- CLMASK. -/
def Ldr.clmask (l : Ldr) : Nat := bitsAt l.d1.toNat 16 16
/-- The line size L in bytes. -/
def Ldr.size (l : Ldr) : Nat := 64 * 2 ^ l.lsz
/-- Panes of one instance in ascending order (09 R193). -/
def Ldr.panes (l : Ldr) : List Nat :=
  ((List.range 16).filter (bitAt l.clmask)).flatMap fun c => (List.range l.per).map fun k => 64 * c + l.first + k
/-- Slices of each pane. -/
def Ldr.slices (l : Ldr) : List Nat := (List.range l.w).map (l.wfirst + ·)
/-- Sets per pane. -/
def Ldr.sets (l : Ldr) : Nat := 8192 / l.size
/-- The pane-set of a physical address: pane index, pane, set (09 R197). -/
def Ldr.place (l : Ldr) (pa : Nat) : Nat × Nat × Nat :=
  let n := l.panes.length
  let x := pa / l.size
  (x % n, l.panes.getD (x % n) 0, x / n % l.sets)
/-- Pane-sets of one instance. -/
def Ldr.total (l : Ldr) : Nat := l.panes.length * l.sets
/-- The cursor position of a physical address (09 R200). -/
def Ldr.pos (l : Ldr) (pa : Nat) : Nat := (l.place pa).1 * l.sets + (l.place pa).2.2
/-- The dies that hold an instance. -/
def Ldr.instDies (l : Ldr) : List Nat :=
  match l.mode with
  | 0 => [l.home]
  | 1 => (List.range 4).filter (bitAt l.dies)
  | _ => []
/-- The 64-byte lines of a range of physical bytes, by number. -/
def lineChunks (pa n : Nat) : List Nat := (List.range (ceilDiv (pa % 64 + n) 64)).map (pa / 64 + ·)
/-- The die whose instance serves an access from die `d`; none for BYPASS (09 R195). -/
def Ldr.servedBy (l : Ldr) (d : Nat) : Option Nat :=
  match l.mode with
  | 0 => some l.home
  | 1 => if bitAt l.dies d then some d else (List.range 4).find? (bitAt l.dies)
  | _ => none

/-- Class 0 as every VALID partition first has it: BYPASS (09 R196). -/
def defaultLdr (part : Nat) : Ldr := ⟨BitVec.ofNat 64 (part * 2 ^ 40 + 2 * 2 ^ 8), 0⟩

/-- The die whose instance serves an access from die `d`: the old definition's until a FLUSH-ALL change ends (09 R195, R201). -/
def ClassDef.servedBy (k : ClassDef) (d : Nat) : Option Nat :=
  match k.change with
  | some c => if c.flushAll then c.old.servedBy d else k.ldr.servedBy d
  | none => k.ldr.servedBy d

/-- A class of a partition (09 R192, R196). -/
def State.classDef (s : State) (part cls : Nat) : Option ClassDef :=
  match smFind s.classes (part * 64 + cls) with
  | some d => some d
  | none => if cls = 0 ∧ (s.part part).valid then some ⟨defaultLdr part, none⟩ else none

/-! ### Physical memory (09 R204; 10 R228) -/

/-- Where a byte of physical memory stands while a frame moves: a line below CURSOR stands at the destination. -/
def State.home (s : State) (pa : Nat) : Nat :=
  match s.migr.find? fun e => e.2.valid && e.2.src = pa / 4096 with
  | some e => if pa / 64 % 64 < e.2.cursor then e.2.dst * 4096 + pa % 4096 else pa
  | none => pa

/-- The address under which a byte of a moving frame is known: an access that names the destination while the entry is VALID is
one to the source (10 R228, R229; log 34). -/
def State.canon (s : State) (pa : Nat) : Nat :=
  match s.migr.find? fun e => e.2.valid && e.2.dst = pa / 4096 with
  | some e => e.2.src * 4096 + pa % 4096
  | none => pa

/-- A byte of memory behind the lanterns. -/
def State.memAt (s : State) (pa : Nat) : Byte := memByte s.mem (s.home (s.canon pa))
/-- `n` bytes of memory behind the lanterns. -/
def State.memBytes (s : State) (pa n : Nat) : List Byte := (addrs pa n).map s.memAt
/-- Writes bytes of memory behind the lanterns; a written line is no longer poisoned (17 Table 17.5). -/
def State.memWrite (s : State) (ws : List (Nat × Byte)) : State :=
  { s with mem := memPutAll s.mem (ws.map fun w => (s.home (s.canon w.1), w.2))
           poison := s.poison.filter fun l => !ws.any fun w => w.1 / 64 = l }

/-- Tier region of a physical address, its base and N (09 Table 9.8). -/
def tierOf (pa : Nat) : Nat × Nat × Nat :=
  if pa < 0xC000000000 then (pa / 0x3000000000, pa / 0x3000000000 * 0x3000000000, 192) else (4, 0x10000000000, 64)
/-- Whether an address lies in the memory map. -/
def inMemory (pa : Nat) : Bool := pa < 0xC000000000 || (0x10000000000 ≤ pa && pa < 0x30000000000)
/-- The MMT entry of an address (09 R205). -/
def mmtIndex (pa : Nat) : Nat := if pa < 0xC000000000 then pa / 2 ^ 30 else 768 + (pa - 0x10000000000) / 2 ^ 30
/-- The channel hash of a 256-byte chunk: chunk q of a region of N channels, under HASH (09 R206). -/
def channelHash (hash q n : Nat) : Nat :=
  let p := q / n
  let j := q % n
  match hash with
  | 0 => j
  | 1 => (q + (bitsAt p 0 8 ^^^ bitsAt p 8 8 ^^^ bitsAt p 16 8)) % n
  | 2 => 4 * (if j / 4 = 47 then 47 else (j / 4 + p) % 47) + j % 4
  | _ => (q + 47 * (p / 32 % 4) + 5 * (p / 32 / 4)) % n
/-- The pseudo-channel or sub-channel of a physical address. -/
def State.channelOf (s : State) (pa : Nat) : Nat :=
  let t := tierOf pa
  channelHash (smGet 0 s.mmt (mmtIndex pa)) ((pa - t.2.1) / 256) t.2.2
/-- Adds to a 48-bit channel counter: its dword's number in the counter pages (09 R207). -/
def State.bumpChan (s : State) (pa k n : Nat) : State :=
  let key := ((tierOf pa).1 * 0x4000 + 64 * s.channelOf pa) / 8 + k
  { s with chans := smSet 0 s.chans key ((smGet 0 s.chans key + n) % 2 ^ 48) }
/-- A 64-byte request at a memory controller: a read or a write, a row hit, a row conflict or a closed row, and the cycles that
refresh held it, which the spec leaves open (09 R207; log 1). -/
def State.countAt (s : State) (pa : Nat) (write : Bool) : State :=
  let d := (s.bumpChan pa (b2n write) 1).draw
  let k := d.1.toNat % 3
  ((d.2.bumpChan pa 4 (d.1.toNat / 3)).bumpChan pa 2 (b2n (k == 0))).bumpChan pa 3 (b2n (k == 1))
/-- Requests for 64-byte lines, each where the line stands (09 R207). -/
def State.countMem (s : State) (lines : List Nat) (write : Bool) : State :=
  lines.foldl (fun s l => s.countAt (s.home (s.canon (l * 64))) write) s

/-! ### Lines -/

/-- A line that holds a physical address at a die, in the pane-set a definition gives it (09 R198): in its own slices,
or in another lantern's. -/
def State.lineAt (s : State) (l : Ldr) (die pa : Nat) : Option LLine :=
  let (_, pane, set) := l.place pa
  s.lines.find? fun x => x.die = die && x.pane = pane && x.set = set && x.size = l.size && x.line = pa / l.size * l.size

/-- Whether a line is an instance's own. -/
def LLine.own (x : LLine) (part cls : Nat) : Bool := x.part = part && x.cls = cls
/-- The same place. -/
def LLine.same (x y : LLine) : Bool := x.die = y.die && x.pane = y.pane && x.set = y.set && x.slice = y.slice

/-- A latched cause; a later one replaces it only where it ranks higher: STORE, LOST, SPURIOUS (07 R173). -/
def Monitor.latch (m : Monitor) (c : Cause) : Monitor :=
  match m.cause, c with
  | none, c => { m with cause := some c }
  | some .spurious, c => { m with cause := some c }
  | some .lost, .store => { m with cause := some .store }
  | _, _ => m

/-- Latches a cause in the monitors of a group's path slots that watch one of some 64-byte lines. -/
def Group.latch (g : Group) (hit : Nat → Bool) (c : Cause) : Group :=
  let f (p : PathState) : PathState :=
    match p.mon with
    | some m => if hit m.line then { p with mon := some (m.latch c) } else p
    | none => p
  { g with t := f g.t, f := f g.f }

/-- A cause is latched in one path slot's monitor. -/
def Group.latchPath (g : Group) (f : Bool) (c : Cause) : Group :=
  g.modPath f fun p => { p with mon := p.mon.map fun m => m.latch c }

/-- Latches a cause in every monitor that reads one of some lines through an instance, given by the die that serves it
(07 R173). -/
def State.latchAll (s : State) (part cls : Nat) (inst : Option Nat) (hit : Nat → Bool) (c : Cause) : State :=
  let sees (g : Group) : Bool :=
    match s.classDef part cls with
    | some d => d.servedBy (g.core / 128) = inst
    | none => true
  let f (g : Group) : Group :=
    if (g.t.mon.isSome || g.f.mon.isSome) && (s.encl g.enc).part = part && sees g then g.latch hit c else g
  { s with g := f s.g, groups := s.groups.map fun x => (x.1, f x.2) }

/-- Replaces a line where it stands. -/
def State.setLine (s : State) (x : LLine) : State := { s with lines := s.lines.map fun y => if y.same x then x else y }
/-- Removes a line; monitors that read it through its instance latch LOST (07 R173). -/
def State.dropLine (s : State) (x : LLine) : State :=
  ({ s with lines := s.lines.filter fun y => !y.same x }).latchAll x.part x.cls (some x.die)
    (fun l => x.line / 64 ≤ l && l < (x.line + x.size) / 64) .lost
/-- Marks a line as used last (09 R197). -/
def State.touch (s : State) (x : LLine) : State := { s with lines := x :: s.lines.filter fun y => !y.same x }

/-- The dirty bytes of a line. -/
def LLine.dirtyBytes (x : LLine) : List (Nat × Byte) :=
  ((List.range x.size).filter (bitAt x.dirty)).map fun i => (x.line + i, x.data.getD i 0)
/-- The 64-byte lines with a dirty byte. -/
def LLine.dirtyChunks (x : LLine) : List Nat :=
  ((List.range (x.size / 64)).filter fun i => bitsAt x.dirty (64 * i) 64 ≠ 0).map (x.line / 64 + ·)
/-- Writes back a line's dirty bytes; the line stays, clean. -/
def State.writeBack (s : State) (x : LLine) : State :=
  if x.dirty = 0 then s else ((s.memWrite x.dirtyBytes).setLine { x with dirty := 0 }).countMem x.dirtyChunks true

/-- A retired pane allocates nothing (17 Table 17.4). -/
def State.paneRetired (s : State) (die pane : Nat) : Bool :=
  s.retired.contains (1, die * 1024 + pane)

/-- Places a line in an instance's pane-set: a free slice of its ways, else the least recently used of them, whose
dirty bytes are written back first (09 R197, R200). -/
def State.insertLine (s : State) (l : Ldr) (x : LLine) : State :=
  let (_, pane, set) := l.place x.line
  let here := s.lines.filter fun y => y.die = x.die && y.pane = pane && y.set = set && l.slices.contains y.slice
  match l.slices.find? fun w => !here.any (·.slice = w) with
  | some w => { s with lines := { x with pane := pane, set := set, slice := w } :: s.lines }
  | none =>
    match here.getLast? with
    | some v =>
      let s := (s.writeBack v).dropLine v
      { s with lines := { x with pane := pane, set := set, slice := v.slice } :: s.lines }
    | none => s

/-- Bytes of a line replaced; `dirt` marks them dirty. -/
def LLine.put (x : LLine) (ws : List (Nat × Byte)) (dirt : Bool) : LLine :=
  ws.foldl (fun x w =>
    if x.line ≤ w.1 ∧ w.1 < x.line + x.size then
      { x with data := setAt x.data (w.1 - x.line) w.2
               dirty := if dirt then x.dirty ||| 2 ^ (w.1 - x.line) else x.dirty }
    else x) x

/-- What serves an access of a class from a die: a line that is present, an allocation in a definition's instance, or
memory alone (09 R195, R200, R201). -/
inductive Served where
  | line (x : LLine) (wpol : Nat) (own : Bool)
  | alloc (l : Ldr) (die : Nat) (newGeo : Bool)
  | memory
  deriving DecidableEq, Repr

/-- The write policy of the lantern that a line belongs to. -/
def State.linePolicy (s : State) (x : LLine) : Nat := ((s.classDef x.part x.cls).map fun d => d.ldr.wpol).getD 0

/-- The lookup of 09 R195, R197, R198, R200 and R201. In a FLUSH-ALL change an instance whose own cursor has ended serves from
memory, and the new definition begins, once every instance's cursor has ended (log 36). -/
def State.serving (s : State) (part cls die pa : Nat) : Served :=
  let pa := s.canon pa
  match s.classDef part cls with
  | none => .memory
  | some d =>
    let found (l : Ldr) (at_ : Nat) : Option LLine := s.lineAt l at_ pa
    match d.change with
    | none =>
      match d.ldr.servedBy die with
      | none => .memory
      | some i =>
        match found d.ldr i with
        | some x => .line x (s.linePolicy x) (x.own part cls)
        | none => if s.paneRetired i (d.ldr.place pa).2.1 then .memory else .alloc d.ldr i false
    | some c =>
      if c.flushAll then
        match c.old.servedBy die with
        | none => .memory
        | some i =>
          match found c.old i with
          | some x => .line x (s.linePolicy x) (x.own part cls)
          | none => .memory
      else
        match d.ldr.servedBy die with
        | none => .memory
        | some i =>
          let old := if smGet 0 c.cursors i ≤ c.old.pos pa then found c.old i else none
          match old with
          | some x => .line x (s.linePolicy x) (x.own part cls)
          | none =>
            match found d.ldr i with
            | some x => .line x (s.linePolicy x) (x.own part cls)
            | none => if s.paneRetired i (d.ldr.place pa).2.1 then .memory else .alloc d.ldr i true

/-- A fresh clean line of memory for an instance. -/
def State.freshLine (s : State) (part cls die pa : Nat) (l : Ldr) (newGeo : Bool) : LLine :=
  let a := s.canon pa / l.size * l.size
  { part := part, cls := cls, die := die, line := a, size := l.size, pane := 0, set := 0, slice := 0, newGeo := newGeo
    data := s.memBytes a l.size, dirty := 0 }

/-- The bytes an access would obtain at its ordering point, with nothing changed. -/
def State.peek (s : State) (part cls die pa n : Nat) : List Byte :=
  match s.serving part cls die pa with
  | .line x _ _ => (addrs (s.canon pa) n).map fun a => x.data.getD (a - x.line) 0
  | _ => s.memBytes pa n

/-- Allocates the line of an address, read from memory (09 R197, R207). -/
def State.allocate (s : State) (part cls die pa : Nat) (l : Ldr) (newGeo : Bool) (ws : List (Nat × Byte)) : State :=
  let x := s.freshLine part cls die pa l newGeo
  (s.countMem (lineChunks x.line x.size) false).insertLine l (x.put ws true)

/-- A load of bytes of one 64-byte line at its ordering point (09 R197, R198, Table 9.6). -/
def State.serveLoad (s : State) (part cls die pa n : Nat) : List Byte × State :=
  let bs := s.peek part cls die pa n
  match s.serving part cls die pa with
  | .line x _ own => (bs, if own then s.touch x else s)
  | .memory => (bs, s.countMem [pa / 64] false)
  | .alloc l i g =>
    if l.wpol = 2 then (bs, s.countMem [pa / 64] false) else (bs, s.allocate part cls i pa l g [])

/-- The memory reads of a coherent access that changes no lantern: one for each of its 64-byte lines that no lantern line holds
(09 R207; 10 R215). -/
def State.countPeek (s : State) (part : Nat) (pas : List Nat) : State :=
  (uniq (pas.map (· / 64))).foldl (fun s l =>
    match s.serving part (s.potOf (l / 64)).cls 0 (l * 64) with
    | .line .. => s
    | _ => s.countMem [l] false) s

/-- A store of bytes of one 64-byte line at its ordering point; f.stb never allocates (12 R272). A line that another lantern holds is
written where it stands under that lantern's policy; one whose policy is read-only takes the bytes as write-back would (log 64). -/
def State.serveStore (s : State) (part cls die : Nat) (ws : List (Nat × Byte)) (stb : Bool) : State :=
  match ws.map fun w => (s.canon w.1, w.2) with
  | [] => s
  | (pa, b) :: r =>
    let ws := (pa, b) :: r
    let straight (s : State) : State := (s.memWrite ws).countMem [pa / 64] true
    match s.serving part cls die pa with
    | .line x pol own =>
      let s := if pol = 1 then straight s else s
      let y := x.put ws (pol ≠ 1)
      if own then s.touch y else s.setLine y
    | .memory => straight s
    | .alloc l i g => if l.wpol = 0 ∧ !stb then s.allocate part cls i pa l g ws else straight s

end Sys2Proof.Machine
end

