-- ==== Sys2Proof/Machine/Translate.lean ====
section
/-! DEFINITION. Translation and access checks (10 R208 to R218): the heap triple, region records, pinned ranges and
fabric windows, the TLBs, the Sv57 walk, the POT check and the class check. -/

namespace Sys2Proof.Machine

/-! ### Launch record fields (05 Tables 5.4, 5.5) -/

/-- Dword at byte offset `o` of a record. -/
def recDw (r : List Word) (o : Nat) : Nat := (r.getD (o / 8) 0).toNat

/-- A region record. -/
structure Region where
  base : Nat
  extent : Nat
  mode : Nat
  rop : Nat
  rtype : Nat
  deriving DecidableEq, Repr

/-- Region record `i` of a launch record. -/
def regionAt (r : List Word) (i : Nat) : Region :=
  let o := 0x80 + 24 * i
  { base := recDw r o, extent := bitsAt (recDw r (o + 8)) 0 48, mode := bitsAt (recDw r (o + 16)) 0 2
    rop := bitsAt (recDw r (o + 16)) 2 3, rtype := bitsAt (recDw r (o + 16)) 5 3 }
/-- The region records of a task. -/
def Task.regions (t : Task) : List Region := (List.range (bitsAt (recDw t.rcd 8) 32 4)).map (regionAt t.rcd)

/-- Whether a RED region admits an atomic (10 R212). -/
def redAdmits (r : Region) (a : Atom) : Bool :=
  let i32 := r.rtype = 0 || r.rtype = 1
  let i64 := r.rtype = 2 || r.rtype = 3
  let width := (a.w = 4 && i32) || (a.w = 8 && i64)
  let sgn := if a.nat then (r.rtype = 1 || r.rtype = 3) else (r.rtype = 0 || r.rtype = 2)
  match a.op with
  | .add => r.rop = 0 && width
  | .min => r.rop = 1 && width && sgn
  | .max => r.rop = 2 && width && sgn
  | .and => r.rop = 3 && width
  | .or => r.rop = 4 && width
  | .xor => r.rop = 5 && width
  | .fadd => r.rop = 0 && ((a.w = 4 && r.rtype = 4) || (a.w = 8 && r.rtype = 5))
  | _ => false

/-- Whether a region mode admits an access kind (10 Table 10.2). -/
def Region.admits (r : Region) (k : Acc) (a : Option Atom) : Bool :=
  match r.mode, k with
  | 0, .load | 0, .fetch => true
  | 1, .load | 1, .store => true
  | 2, _ => true
  | 3, .atomic => (a.map (redAdmits r)).getD false
  | _, _ => false

/-- Ranges that admit accesses without a region record: pinned pages, and the local ranges of open fabric windows
(10 R213). A fabric window admits loads and stores only. -/
def State.freeRanges (s : State) (enc : Nat) : List (Nat × Nat × Bool) :=
  ((s.encl enc).pins.map fun p => (p.1, p.1 + 4096 * p.2, true)) ++
  ((s.fwins.filter fun w => w.enc = enc && w.stat = .opened && !bitAt (w.desc.getD 2 0).toNat 3).map fun w =>
    ((w.desc.getD 0 0).toNat, (w.desc.getD 0 0).toNat + (w.desc.getD 1 0).toNat, false))

/-- Step 2 and 3 of 10 Table 10.1 for one byte: covered, and covered by a range that admits the kind. -/
def byteCovered (regs : List Region) (free : List (Nat × Nat × Bool)) (k : Acc) (a : Option Atom) (va : Nat) :
    Bool × Bool :=
  let rs := regs.filter fun r => r.base ≤ va && va < r.base + r.extent
  let fs := free.filter fun r => r.1 ≤ va && va < r.2.1
  (!rs.isEmpty || !fs.isEmpty,
   rs.any (fun r => r.admits k a) || fs.any fun r => r.2.2 || k = .load || k = .store)

/-! ### The Sv57 walk (10 R215) -/

/-- A leaf found by a walk: its page kind, bases, permission bits, and where its PTE stands. -/
structure Leaf where
  kind : PageKind
  vbase : Nat
  pbase : Nat
  r : Bool
  w : Bool
  x : Bool
  a : Bool
  d : Bool
  user : Bool
  pte : Nat
  deriving DecidableEq, Repr

/-- Bytes as harts and walkers see them: the line of the home instance where it is present, else memory (10 R215). -/
def State.coherent (s : State) (part pa n : Nat) : List Byte := s.peek part (s.potOf (pa / 4096)).cls 0 pa n

/-- A PTE is invalid where 10 R215 says so; U is asked of leaves, since Sv57 clears it in pointers (log 15). -/
def pteBad (p : Nat) (leaf : Bool) : Bool :=
  !bitAt p 0 || (bitAt p 2 && !bitAt p 1) || bitAt p 63 || bitsAt p 61 2 ≠ 0 || bitsAt p 54 7 ≠ 0 || (leaf && !bitAt p 4)

/-- Walks from a table frame at a level 4 to 0; fuel is the level, and `u` asks U of the leaf. -/
def State.walkFrom (s : State) (part va : Nat) (u : Bool) : Nat → Nat → Option Leaf
  | 0, _ => none
  | lv + 1, frame =>
    let at_ := frame * 4096 + 8 * bitsAt va (12 + 9 * lv) 9
    let p := leNat (s.coherent part at_ 8)
    let leaf := bitAt p 1 || bitAt p 3
    if pteBad p (leaf && u) then none
    else
      let ppn := bitsAt p 10 44
      if leaf then
        if ppn % 2 ^ (9 * lv) ≠ 0 then none
        else
          let span := min lv 2
          let vb := va / 2 ^ (12 + 9 * span) * 2 ^ (12 + 9 * span)
          let pb := ppn * 4096 + (vb - va / 2 ^ (12 + 9 * lv) * 2 ^ (12 + 9 * lv))
          some { kind := if lv = 0 then .k4 else if lv = 1 then .m2 else .g1, vbase := vb, pbase := pb, r := bitAt p 1
                 w := bitAt p 2, x := bitAt p 3, a := bitAt p 6, d := bitAt p 7, user := bitAt p 4, pte := at_ }
      else s.walkFrom part va u lv ppn

/-- The addresses of the PTEs that such a walk reads. -/
def State.walkPtes (s : State) (part va : Nat) : Nat → Nat → List Nat
  | 0, _ => []
  | lv + 1, frame =>
    let at_ := frame * 4096 + 8 * bitsAt va (12 + 9 * lv) 9
    let p := leNat (s.coherent part at_ 8)
    at_ :: (if pteBad p false || bitAt p 1 || bitAt p 3 then [] else s.walkPtes part va lv (bitsAt p 10 44))

/-- The walk of an address in an enclave's tables reads its PTEs from memory (09 R207). -/
def State.countWalk (s : State) (enc va : Nat) : State :=
  s.countPeek (s.encl enc).part (s.walkPtes (s.encl enc).part va 5 (s.encl enc).root)
/-- Whether some of `n` bytes stand in a poisoned line: an access that reads them resets its partition (17 Table 17.5). -/
def State.poisoned (s : State) (pa n : Nat) : Bool := (lineChunks pa n).any fun l => s.poison.contains (s.canon (l * 64) / 64)
/-- Whether such a walk reads a poisoned line. -/
def State.walkPoisoned (s : State) (enc va : Nat) : Bool :=
  (s.walkPtes (s.encl enc).part va 5 (s.encl enc).root).any fun a => s.poisoned a 8

/-- The leaf of a virtual address in an enclave's tables. -/
def State.leafOf (s : State) (enc va : Nat) : Option Leaf :=
  s.walkFrom (s.encl enc).part va true 5 (s.encl enc).root

/-- Step 4 for a leaf: A, and D for a write, must be set; then the permission (10 R215). -/
def Leaf.check (l : Leaf) (k : Acc) : Option Code :=
  let write := k = .store || k = .atomic
  if !l.a || (write && !l.d) then some .accessUnleased
  else match k with
    | .load => if l.r then none else some .accessMode
    | .fetch => if l.x then none else some .accessMode
    | _ => if l.w && l.r then none else some .accessMode

/-- The physical address that a leaf gives. -/
def Leaf.pa (l : Leaf) (va : Nat) : Nat := l.pbase + (va - l.vbase)

/-! ### The TLBs (10 R214) -/

/-- Whether an entry translates an address for an access; a write needs the entry to know D. -/
def Tlb.hits (t : Tlb) (enc asid va : Nat) (k : Acc) : Bool :=
  t.enc = enc && t.asid = asid && (t.d || !(k = .store || k = .atomic)) &&
  match t.kind with
  | .k4 => va / 2 ^ 12 = t.vbase / 2 ^ 12
  | .m2 => va / 2 ^ 24 = t.vbase / 2 ^ 24 && bitAt t.mask (va / 2 ^ 21 % 8)
  | .g1 => va / 2 ^ 30 = t.vbase / 2 ^ 30
/-- The physical address from an entry. -/
def Tlb.pa (t : Tlb) (va : Nat) : Nat :=
  match t.kind with
  | .m2 => (t.pbase + va % 2 ^ 24) % 2 ^ 56
  | _ => t.pbase + (va - t.vbase)
/-- The pages of an entry: virtual base, physical base and bytes. -/
def Tlb.pages (t : Tlb) : List (Nat × Nat × Nat) :=
  match t.kind with
  | .k4 => [(t.vbase, t.pbase, 2 ^ 12)]
  | .g1 => [(t.vbase, t.pbase, 2 ^ 30)]
  | .m2 => ((List.range 8).filter (bitAt t.mask)).map fun j =>
      (t.vbase + 2 ^ 21 * j, (t.pbase + 2 ^ 21 * j) % 2 ^ 56, 2 ^ 21)
/-- Whether a frame is one of an entry's. -/
def Tlb.holdsFrame (t : Tlb) (f : Nat) : Bool := t.pages.any fun p => p.2.1 / 4096 ≤ f && f < (p.2.1 + p.2.2) / 4096
/-- The POT entry of a frame as a translation entry keeps it: lease counts move without an invalidation (10 R219). -/
def Pot.plain (p : Pot) : Pot := { p with leases := 0 }
/-- An entry with the POT result of its frames as they stand (10 R214). -/
def State.cachePots (s : State) (t : Tlb) : Tlb :=
  { t with pots := (s.pot.filter fun p => t.holdsFrame p.1 && inMemory (p.1 * 4096)).map fun p => (p.1, p.2.plain) }
/-- Owner, state and class of all frames of an entry of 2 MiB pages, where they are equal. -/
def Tlb.common (t : Tlb) : Option (Nat × Nat × Nat) :=
  let k (p : Pot) : Nat × Nat × Nat := (p.owner, p.stat, p.cls)
  match t.pots with
  | [] => some (0, 0, 0)
  | (_, p) :: r => if t.pots.length = 512 * t.pages.length ∧ r.all (fun q => k q.2 = k p) then some (k p) else none
/-- Permission of an entry for an access. -/
def Tlb.check (t : Tlb) (k : Acc) : Option Code :=
  match k with
  | .load => if t.r then none else some .accessMode
  | .fetch => if t.x then none else some .accessMode
  | _ => if t.w && t.r then none else some .accessMode
/-- The LLT set of an entry. -/
def Tlb.set (t : Tlb) : Nat :=
  match t.kind with
  | .k4 => t.vbase / 2 ^ 12 % 2048
  | .m2 => t.vbase / 2 ^ 24 % 2048
  | .g1 => t.vbase / 2 ^ 30 % 2048

/-- The entry that translates an address: first level, then LLT. -/
def State.tlbFor (s : State) (core enc va : Nat) (k : Acc) : Option Tlb :=
  let asid := (s.encl enc).asid
  match (s.core core).l1.find? fun t => t.hits enc asid va k with
  | some t => some t
  | none => (s.die (dieOfCore core)).llt.find? fun t => t.hits enc asid va k

/-- Keeps the first `n` of a list's entries that satisfy a test, and all others: replacement of the least recently
used. -/
def keepFirst {α : Type} (p : α → Bool) : Nat → List α → List α
  | _, [] => []
  | 0, x :: xs => if p x then keepFirst p 0 xs else x :: keepFirst p 0 xs
  | n + 1, x :: xs => if p x then x :: keepFirst p n xs else x :: keepFirst p (n + 1) xs

/-- Installs a translation in the LLT as the most recent of its set of 8 ways; 2 MiB pages of one block with equal
offset, permissions, POT owner, state and class share an entry (10 R214). -/
def lltInstall (llt : List Tlb) (t : Tlb) : List Tlb :=
  let like (u : Tlb) : Bool :=
    t.kind = .m2 && u.kind = .m2 && u.enc = t.enc && u.asid = t.asid && u.vbase = t.vbase && u.pbase = t.pbase &&
      u.r = t.r && u.w = t.w && u.x = t.x && u.d = t.d && t.common.isSome && u.common = t.common
  let t' := match llt.find? like with
    | some u => { t with mask := t.mask ||| u.mask, pots := t.pots.foldl (fun m p => smPut m p.1 p.2) u.pots }
    | none => t
  keepFirst (fun u => u.set = t.set) 8 (t' :: llt.filter fun u => !like u)

/-- A leaf as a translation entry. -/
def Leaf.tlb (l : Leaf) (enc asid : Nat) : Tlb :=
  let block := l.vbase / 2 ^ 24 * 2 ^ 24
  { enc := enc, asid := asid, kind := l.kind
    vbase := if l.kind = .m2 then block else l.vbase
    pbase := if l.kind = .m2 then (l.pbase + 2 ^ 56 - (l.vbase - block)) % 2 ^ 56 else l.pbase
    mask := if l.kind = .m2 then 2 ^ (l.vbase / 2 ^ 21 % 8) else 0
    r := l.r, w := l.w, x := l.x, d := l.d, pots := [] }

/-! ### The checks in order (10 Table 10.1) -/

/-- Step 5 for a frame of POT entry `p` (10 R218). A commons frame that moves is admitted as before (10 R228; log 22). -/
def State.potAdmits (s : State) (enc : Nat) (p : Pot) (k : Acc) : Option Code :=
  let common : Option Code :=
    if k = .store ∨ k = .atomic then some .accessMode
    else if bitAt (s.part (s.encl enc).part).commons p.cgroup then none else some .ownership
  match p.stat with
  | 1 | 2 | 3 => if p.owner = enc then none else some .ownership
  | 5 => if p.owner = 0x3FFF then common else if p.owner = enc then none else some .ownership
  | 6 => common
  | _ => some .ownership

/-- The POT entry of a frame of memory. The kick pages have entries too, and only harts reach them (18 R341). -/
def State.memPot (s : State) (f : Nat) : Pot := if inMemory (f * 4096) then s.potOf f else {}

/-- Step 5 for a frame as the POT stands. -/
def State.potCheck (s : State) (enc frame : Nat) (k : Acc) : Option Code :=
  s.potAdmits enc (s.memPot frame) k

/-- Step 6 for a frame of class `cls`: the class is defined and admits the access; atomics need HOME or BYPASS (09 R195,
R197). While a FLUSH-ALL change runs, MODE and WPOL are those of the new definition (log 65). -/
def State.classCheck (s : State) (enc cls : Nat) (k : Acc) : Option Code :=
  match s.classDef (s.encl enc).part cls with
  | none => some .badLantern
  | some d =>
    let write := k = .store || k = .atomic
    if write ∧ d.ldr.mode ≠ 2 ∧ d.ldr.wpol = 3 then some .accessMode
    else if k = .atomic ∧ d.ldr.mode = 1 then some .accessMode
    else none

/-- What the checks of a far access answer: the physical address of each byte and whether the heap gave it, a fault,
or a page that a walk must translate first. -/
inductive FarRes where
  | ok (pas : List Nat) (heap : Bool) | bad (c : Code) | miss (va : Nat)
  deriving DecidableEq, Repr

/-- Steps 5 and 6 over frames given by their POT entries. -/
def State.potChecks (s : State) (enc : Nat) (ps : List Pot) (k : Acc) : Option Code :=
  match ps.findSome? fun p => s.potAdmits enc p k with
  | some c => some c
  | none => ps.findSome? fun p => s.classCheck enc p.cls k

/-- Steps 5 and 6 over physical bytes as the POT stands. -/
def State.frameChecks (s : State) (enc : Nat) (pas : List Nat) (k : Acc) : Option Code :=
  s.potChecks enc ((uniq (pas.map (· / 4096))).map s.memPot) k

/-- The heap reservation's end (10 R209). -/
def Group.heapTop (g : Group) : Nat := g.hb.toNat + ceilDiv g.hl.toNat (2 ^ 30) * 2 ^ 30

/-- Whether a walk is the one that a group's access to a page waits for: its word's, or its copy command's. -/
def Walk.is (w : Walk) (gid op va : Nat) (k : Acc) : Bool := w.gid = gid && w.op = op && w.va = va / 4096 * 4096 && w.kind = k

/-- The failure of the walk that an access waited for. No other access sees it (10 R214). -/
def State.walkFail (s : State) (g : Group) (op va : Nat) (k : Acc) : Option Code :=
  ((s.die (dieOfCore g.core)).walks.find? fun w => w.is g.gid op va k && (w.res.bind id).isSome).bind fun w => w.res.bind id

/-- Steps 4 to 6 for paged bytes: each page by the entry that `find` gives, with its cached POT result, or by the outcome of its
walk (10 R214, R219). -/
def State.pagedBy (s : State) (enc : Nat) (find : Nat → Option Tlb) (fail : Nat → Option Code) (vas : List Nat) (k : Acc) : FarRes :=
  let pages := uniq (vas.map (· / 4096 * 4096))
  let one (p : Nat) : Option FarRes :=
    match find p with
    | some t => (t.check k).map .bad
    | none =>
      match fail p with
      | some c => some (.bad c)
      | none => some (.miss p)
  match pages.findSome? one with
  | some r => r
  | none =>
    let found := vas.map fun v => match find v with
      | some t => (t.pa v, smGet ({} : Pot) t.pots (t.pa v / 4096))
      | none => (0, {})
    match s.potChecks enc (found.map (·.2)) k with
    | some c => .bad c
    | none => .ok (found.map fun x => s.canon x.1) false

/-- Steps 4 to 6 for paged bytes of a word of a group. -/
def State.pagedRes (s : State) (g : Group) (vas : List Nat) (k : Acc) : FarRes :=
  s.pagedBy g.enc (s.tlbFor g.core g.enc · k) (s.walkFail g 0 · k) vas k

/-- Steps 4 to 6 for paged bytes of a copy command: by the TLBs, or by what walks have brought for it. -/
def State.pagedCopy (s : State) (g : Group) (op : Nat) (pages : List Tlb) (vas : List Nat) (k : Acc) : FarRes :=
  s.pagedBy g.enc (fun v => (s.tlbFor g.core g.enc v k).or (pages.find? fun t => t.hits g.enc (s.encl g.enc).asid v k))
    (s.walkFail g op · k) vas k

/-- The checks of a far access of `len` bytes at an exact address (10 R208, R209, R212); `paged` makes steps 4 to 6 of paged
bytes. -/
def State.farCheckBy (s : State) (paged : List Nat → FarRes) (g : Group) (ea : Int) (len : Nat) (k : Acc) (a : Option Atom) : FarRes :=
  if ea < 0 ∨ (2 ^ 57 : Int) < ea + len then .bad .accessUnleased
  else
    let va := ea.toNat
    let hb := g.hb.toNat
    let top := g.heapTop
    if hb ≤ va ∧ va < top then
      if hb + g.hl.toNat < va + len then .bad .heapLimit
      else
        let pas := (addrs va len).map fun v => (v + g.ho.toNat) % 2 ^ 57
        match s.frameChecks g.enc pas k with
        | some c => .bad c
        | none => .ok (pas.map s.canon) true
    else if va < hb ∧ hb < top ∧ hb < va + len then .bad .accessUnleased
    else
      let vas := addrs va len
      let regs := ((s.taskOf g).map Task.regions).getD []
      let cov := vas.map (byteCovered regs (s.freeRanges g.enc) k a)
      if cov.any fun c => !c.1 then .bad .accessUnleased
      else if cov.any fun c => !c.2 then .bad .accessMode
      else paged vas

/-- The checks of a far access of a word of a group. -/
def State.farCheck (s : State) (g : Group) (ea : Int) (len : Nat) (k : Acc) (a : Option Atom) : FarRes :=
  s.farCheckBy (s.pagedRes g · k) g ea len k a

/-- Starts the walk of a page that misses, up to 128 at once on a die (10 R215), for a word or for a copy command `op`. -/
def State.walkFor (s : State) (g : Group) (op va : Nat) (k : Acc) : State :=
  let d := dieOfCore g.core
  let w : Walk := { gid := g.gid, enc := g.enc, asid := (s.encl g.enc).asid, va := va / 4096 * 4096, kind := k, res := none, op := op }
  let s' := s.event g 0x0201 0x1F 1
  if (s.die d).walks.any (fun x => x.is g.gid op va k && x.res.isNone) ∨ 128 ≤ ((s.die d).walks.filter fun x => x.res.isNone).length
  then s
  else (s'.event g 0x0202 0x1F 1).modDie d fun x => { x with walks := (x.walks.filter fun y => !y.is g.gid op va k) ++ [w] }

/-- Starts the walk of a page for a word; what waits holds its slot. -/
def State.startWalk (s : State) (g : Group) (va : Nat) (k : Acc) : State := s.walkFor g 0 va k

/-- Whether a group's word has waited for the walk of a page. -/
def State.walked (s : State) (g : Group) (va : Nat) (k : Acc) : Bool :=
  (s.die (dieOfCore g.core)).walks.any fun w => w.is g.gid 0 va k

/-- A group's word, or its copy command, goes on: what its walks found is no longer kept. -/
def State.forgetWalks (s : State) (g : Group) (op : Nat) : State :=
  s.modDie (dieOfCore g.core) fun d => { d with walks := d.walks.filter fun w => w.gid ≠ g.gid || w.op ≠ op }
/-- A group's word goes on. -/
def State.clearWalks (s : State) (g : Group) : State := s.forgetWalks g 0

/-- A copy of a used translation in the core's first level, 64 entries, most recent first. -/
def State.refill (s : State) (g : Group) (va : Nat) (k : Acc) : State :=
  match s.tlbFor g.core g.enc va k with
  | none => s
  | some t =>
    let s := s.modCore g.core fun c => { c with l1 := (t :: c.l1.filter (· ≠ t)).take 64 }
    s.modDie (dieOfCore g.core) fun d => { d with llt := if d.llt.contains t then t :: d.llt.filter (· ≠ t) else d.llt }

/-- The physical address of an enclave's virtual address through some heap triples, else through its tables, for an
access that Chandler or a unit makes: steps 1, 4, 5 and 6 only (05 R126). An address inside a reservation but past its HL fails
with HEAP_LIMIT, as 10 R209 has it of a group's access, though R126 step 3 does not list that code (log 38). -/
def State.xlatIn (s : State) (enc : Nat) (hs : List Heap) (va : Nat) (k : Acc) : Except Code Nat :=
  if 2 ^ 57 ≤ va then .error .accessUnleased
  else
    let step4 : Except Code Nat :=
      match hs.find? fun h => h.hb ≤ va && va < h.hb + ceilDiv h.hl (2 ^ 30) * 2 ^ 30 with
      | some h => if va < h.hb + h.hl then .ok ((va + h.ho) % 2 ^ 57) else .error .heapLimit
      | none =>
        match s.leafOf enc va with
        | none => .error .accessUnleased
        | some l =>
          match l.check k with
          | some c => .error c
          | none => .ok (l.pa va)
    match step4 with
    | .error c => .error c
    | .ok pa =>
      match s.frameChecks enc [pa] k with
      | some c => .error c
      | none => .ok (s.canon pa)

end Sys2Proof.Machine
end

