-- ==== Sys2Proof/Machine/SyncVar.lean ====
section
/-! DEFINITION. The entries of the sync-variable tables (11 R239, R240, R242): where a line is served, what an entry records of a
request, and when the serving point holds one. -/

namespace Sys2Proof.Machine

/-! ### Entries (11 Table 11.4) -/

/-- The class of an access's frame. -/
def State.clsOf (s : State) (pa : Nat) : Nat := (s.potOf (pa / 4096)).cls

/-- The die whose instance or tables serve a line for a die: HOME and REPLICA by their definition, BYPASS by the memory
controller's die, die 0 for the LPDDR6 tier (11 R239). -/
def State.svtDie (s : State) (part die pa : Nat) : Nat :=
  match (s.classDef part (s.clsOf pa)).bind fun d => d.servedBy die with
  | some i => i
  | none => if (tierOf pa).1 < 4 then (tierOf pa).1 else 0

/-- Whether a line's class is REPLICA. -/
def State.isReplica (s : State) (part pa : Nat) : Bool :=
  ((s.classDef part (s.clsOf pa)).map fun d => d.ldr.mode = 1 : Option Bool).getD false

/-- The CL bit of a cluster, or of the harts. -/
def Party.bit : Party → Nat
  | .core c => 2 ^ clusterOf c
  | .hart => 2 ^ 15
  | _ => 0

/-- Records a party in an entry. -/
def Svt.touch (e : Svt) (p : Party) : Svt :=
  { e with cl := e.cl ||| p.bit, remote := e.remote || p = .remote, host := e.host || p = .host
           multi := e.multi || (match p with | .core c => c ≠ e.core | _ => false) }

/-- Whether a party lies outside the set that the entry recorded at its latest release (11 R242). -/
def Svt.outside (e : Svt) (p : Party) : Bool :=
  match p with
  | .core c => !bitAt e.relCl (clusterOf c) || (!e.relMulti && c ≠ e.relCore)
  | .hart => !bitAt e.relCl 15
  | .remote => !e.remote
  | .host => !e.host

/-- The scope inferred for a line as a core sees it: 1 core to 6 system (11 R240). A REPLICA line is capped at die. 11 Table 11.4 gives
bit 15 of CL0 to cluster 15 of die 0 and to the harts: wherever it is set, a hart is taken to have touched the line (log 67). -/
def Svt.scope (e : Svt) (core : Nat) (replica : Bool) : Nat :=
  let die := dieOfCore core
  let otherDie := (List.range 64).any fun b => bitAt e.cl b && b / 16 ≠ die
  let otherCl := (List.range 64).any fun b => bitAt e.cl b && b / 16 = die && b ≠ clusterOf core
  let n := if e.host then 6 else if e.remote then 5 else if otherDie || bitAt e.cl 15 then 4 else if otherCl then 3
    else if e.multi || e.core ≠ core then 2 else 1
  if replica then min n 3 else n

/-- The entry of a line in a die's table. -/
def State.svtOf (s : State) (die line : Nat) : Option Svt := (s.die die).svt.find? fun e => e.line = line

/-- Puts an entry first in its table, as the most recently used. -/
def State.svtPut (s : State) (die : Nat) (e : Svt) : State :=
  s.modDie die fun d => { d with svt := e :: d.svt.filter fun x => x.line ≠ e.line }

/-- A request reaches the serving point: an entry that exists records its source. -/
def State.svtRecord (s : State) (die line : Nat) (p : Party) : State :=
  match s.svtOf die line with
  | some e => s.svtPut die (e.touch p)
  | none => s

/-- Whether the serving point holds a request of a party (11 R242). -/
def State.svtHolds (s : State) (die line : Nat) (p : Party) : Bool :=
  match s.svtOf die line with
  | some e => e.rel && e.outside p
  | none => false

/-- A request of a party on some die reaches the serving point of an address. -/
def State.svtSee (s : State) (part die pa : Nat) (p : Party) : State := s.svtRecord (s.svtDie part die pa) (pa / 64) p

/-- Whether the serving point of an address holds a request of a party on some die. -/
def State.svtBlocked (s : State) (part die pa : Nat) (p : Party) : Bool := s.svtHolds (s.svtDie part die pa) (pa / 64) p

/-- A held request asks for the widening of the release that holds it (11 R242). -/
def State.svtAsk (s : State) (part die pa : Nat) (p : Party) : State :=
  s.modDie (s.svtDie part die pa) fun d => { d with svt := d.svt.map fun e =>
    if e.line = pa / 64 ∧ e.want.isNone then { e with want := some p } else e }

/-- Whether the serving point of some line holds a party's request; lines come with the partition that names their classes. -/
def State.linesHeld (s : State) (ls : List (Nat × Nat)) (p : Party) : Bool := ls.any fun l => s.svtBlocked l.1 0 l.2 p
/-- The held requests among a party's ask for widenings. -/
def State.linesAsk (s : State) (ls : List (Nat × Nat)) (p : Party) : State :=
  (ls.filter fun l => s.svtBlocked l.1 0 l.2 p).foldl (fun s l => s.svtAsk l.1 0 l.2 p) s
/-- A party's requests reach the serving points. -/
def State.linesSee (s : State) (ls : List (Nat × Nat)) (p : Party) : State := ls.foldl (fun s l => s.svtSee l.1 0 l.2 p) s

/-- The three dwords of an entry as a Lamplight dump gives them (11 Table 11.4). -/
def Svt.dwords (e : Svt) : List Word :=
  [BitVec.ofNat 64 (2 ^ 63 + b2n e.rel * 2 ^ 62 + b2n e.remote * 2 ^ 61 + b2n e.host * 2 ^ 60 + e.line % 2 ^ 51 * 64),
   BitVec.ofNat 64 e.cl, BitVec.ofNat 64 (b2n e.multi * 2 ^ 9 + e.core % 2 ^ 9)]

end Sys2Proof.Machine
end

