-- ==== Sys2Proof/Machine/Near.lean ====
section
/-! DEFINITION. The near cache (09 R190, R191), the cluster store buffer as a source of loads (11 R233, R235), and the
tokens of a core's network port (19 R356 to R360; 24 R400). -/

namespace Sys2Proof.Machine

/-! ### Near cache -/

/-- The set of a line's address. -/
def nearSet (pa : Nat) : Nat := pa / 64 % 128

/-- The copy of the line that holds an address, for an enclave: only a load of the same enclave hits. -/
def Core.nearLine (c : Core) (enc pa : Nat) : Option NearLine := c.near.find? fun l => l.line = pa / 64 && l.owner = enc

/-- Places a line as the most recently used of its set, which keeps 8. -/
def Core.nearPut (c : Core) (l : NearLine) : Core :=
  let rest := c.near.filter fun x => !(x.line = l.line && x.owner = l.owner)
  { c with near := keepFirst (fun x => x.line % 128 = l.line % 128) 8 (l :: rest) }

/-- Invalidates lines. -/
def Core.nearDrop (c : Core) (p : NearLine → Bool) : Core := { c with near := c.near.filter fun l => !p l }

/-- A store that passes the core store point updates every copy of its line (09 R191). -/
def Core.nearStore (c : Core) (ws : List (Nat × Byte)) : Core :=
  { c with near := c.near.map fun l =>
      { l with data := ws.foldl (fun d w => if w.1 / 64 = l.line then setAt d (w.1 % 64) w.2 else d) l.data } }

/-- Invalidates an enclave's lines in a core's near cache (11 R237, R241). -/
def State.nearInvalidate (s : State) (core enc : Nat) : State := s.modCore core fun c => c.nearDrop fun l => l.owner = enc

/-! ### Buffered stores -/

/-- The latest of the stores of some cores that writes a byte. -/
def bufByte (es : List BufEnt) (p : BufEnt → Bool) (pa : Nat) : Option Byte :=
  es.reverse.findSome? fun e => if p e then (e.bytes.reverse.find? fun b => b.1 = pa).map (·.2) else none

/-- A cluster's store buffer. -/
def State.buf (s : State) (cluster : Nat) : List BufEnt := smGet [] s.bufs cluster
/-- Writes a cluster's store buffer. -/
def State.setBuf (s : State) (cluster : Nat) (b : List BufEnt) : State := { s with bufs := smSet [] s.bufs cluster b }

/-- What a class serves at an address from a core's die: sources 2, 4 and 5 of 11 R235. -/
def State.beyondNear (s : State) (core part pa : Nat) : Byte :=
  let b := s.buf (clusterOf core)
  match bufByte b (fun e => e.core = core) pa with
  | some x => x
  | none =>
    match bufByte b (fun e => e.core ≠ core) pa with
    | some x => x
    | none => (s.peek part (s.potOf (pa / 4096)).cls (dieOfCore core) pa 1).headD 0

/-- Fills a line on a miss and makes it the most recently used; a hit is only made so (09 R190). A fill reaches the serving
point, which records its core (11 R239). -/
def State.nearFill (s : State) (core enc part pa : Nat) : State :=
  match (s.core core).nearLine enc pa with
  | some l => s.modCore core (·.nearPut l)
  | none =>
    let bs := (addrs (pa / 64 * 64) 64).map (s.beyondNear core part)
    let s := (s.serveLoad part (s.potOf (pa / 4096)).cls (dieOfCore core) pa 1).2.svtSee part (dieOfCore core) pa (.core core)
    s.modCore core (·.nearPut { line := pa / 64, owner := enc, data := bs })

/-- A lookup by an access of a group raises an event: a hit in its lantern's own slices, one in another lantern's, or a miss; an
access that no lantern serves raises none (21 Table 21.4; 09 R198). -/
def State.lookupEvent (s : State) (g : Group) (part pa : Nat) : State :=
  let die := dieOfCore g.core
  let cls := (s.potOf (pa / 4096)).cls
  match s.serving part cls die pa with
  | .line _ _ own => s.event g (if own then 0x0203 else 0x0204) 0x1F 1
  | .alloc .. => s.event g 0x0205 0x1F 1
  | .memory => if ((s.classDef part cls).bind fun d => d.servedBy die).isSome then s.event g 0x0205 0x1F 1 else s

/-- A far load's use of the near cache: a miss raises its events and fills the line. -/
def State.nearLoad (s : State) (g : Group) (part pa : Nat) : State :=
  let s := if ((s.core g.core).nearLine g.enc pa).isSome then s else (s.event g 0x0200 0x1F 1).lookupEvent g part pa
  s.nearFill g.core g.enc part pa

/-! ### Port tokens -/

/-- The virtual interface of an enclave. -/
def State.viOf (s : State) (enc : Nat) : Nat := (s.encl enc).vi

/-- An entry of a bucket table as a dword (19 Table 19.3). -/
def Bucket.word (b : Bucket) : Word := BitVec.ofNat 64 (b.vi % 256 * 2 ^ 56 + b2n b.act * 2 ^ 51 + b.frac % 65536 * 2 ^ 16 + b.level % 2 ^ 14)

/-- Whether an interface holds a token at a core's port. -/
def Core.hasToken (c : Core) (vi : Nat) : Bool := c.buckets.any fun b => b.vi = vi && 1 ≤ b.level

/-- A request takes a token and marks its interface as active (19 R360). -/
def Core.takeToken (c : Core) (vi : Nat) : Core :=
  { c with buckets := c.buckets.map fun b => if b.vi = vi then { b with level := b.level - 1, act := true } else b }

/-- A request that waits marks its interface as active. -/
def Core.waitToken (c : Core) (vi : Nat) : Core :=
  { c with buckets := c.buckets.map fun b => if b.vi = vi then { b with act := true } else b }

/-- Whether a refill of a core's table is due: a request that comes now is checked after it (19 R359). -/
def Core.refillDue (c : Core) : Bool := decide (c.refills ≠ c.cyc.toNat / 1024)

/-- A request waits for a token: its interface is active, and it counts once (19 R360; 21 Table 21.4). -/
def State.waitAt (s : State) (g : Group) (seq : Nat) : State :=
  let s' := s.modCore g.core (·.waitToken (s.viOf g.enc))
  if (s.core g.core).waited.contains seq then s'
  else (s'.event g 0x0207 0x1F 1).modCore g.core fun c => { c with waited := c.waited ++ [seq] }

/-- A request that leaves no longer waits. -/
def Core.waitOver (c : Core) (seq : Nat) : Core := { c with waited := c.waited.filter (· ≠ seq) }

/-- The distinct 64-byte chunks of physical bytes (19 R356). -/
def chunksOf (pas : List Nat) : List Nat := uniq (pas.map (· / 64))

/-- How many requests a load or fetch of physical bytes makes at the port: all its chunks, or those that miss the near
cache where it looks that up. -/
def State.portCount (s : State) (core enc : Nat) (near : Bool) (pas : List Nat) : Nat :=
  ((chunksOf pas).filter fun l => !(near && ((s.core core).nearLine enc (l * 64)).isSome)).length

/-- Places in the order of arrival of the requests of an interface that wait at a core's port. -/
def State.portSeqs (s : State) (core vi : Nat) : List Nat :=
  let k := s.core core
  let gs := s.allGroups.filter fun g => g.core = core && s.viOf g.enc = vi
  gs.flatMap fun g =>
    ((g.reqs.filter fun r => r.port ≠ 0).map (·.seq)) ++ ((g.fifo.filter fun r => r.port ≠ 0).map (·.seq)) ++
    ((k.copies.filter fun c => c.gid = g.gid && (c.port.map fun n => decide (n ≠ 0)).getD false && !k.heldBack c.id).map (·.seq)) ++
    (if g.stat = .bound then g.fetchAt.toList else [])

/-- Whether an interface may take a token at a core's port: it holds one, and no refill is due (19 R359). -/
def Core.mayTake (c : Core) (vi : Nat) : Bool := c.hasToken vi && !c.refillDue

/-- The far requests of a core in flight, its copy engine's among them: at most 256, so at most 32,768 on a die's 128 cores (00
Table 0.1; 15 R307). A store's requests count until the cluster's buffer takes the store (log 46). -/
def State.inFlight (s : State) (core : Nat) : Nat :=
  ((s.allGroups.filter fun g => g.core = core).map fun g => (g.reqs.map (·.sent)).sum + (g.fifo.map (·.sent)).sum).sum +
    ((s.core core).copies.map (·.sent)).sum

/-- A request in flight of an access that is still leaving, or of a copy command, is answered while others wait for room; what it
brings is taken with the rest of its access (log 46). -/
def State.answerOne (s : State) (core : Nat) : Option State :=
  match (s.core core).copies.findIdx? fun c => c.sent ≠ 0 with
  | some i => some (s.modCore core fun c => { c with copies := c.copies.modify i fun e => { e with sent := e.sent - 1 } })
  | none =>
    let leaving (r : Req) : Bool := r.port ≠ 0 && r.sent ≠ 0
    let taken (e : StoreEnt) : Bool := e.port ≠ 0 && e.sent ≠ 0
    let f (g : Group) : Option Group :=
      match g.reqs.findIdx? leaving, g.fifo.findIdx? taken with
      | some i, _ => some { g with reqs := g.reqs.modify i fun r => { r with sent := r.sent - 1 } }
      | none, some i => some { g with fifo := g.fifo.modify i fun e => { e with sent := e.sent - 1 } }
      | none, none => none
    ((s.allGroups.filter fun g => g.core = core).findSome? f).map s.setGroup

/-! ### Fetch (01 R21; 24 R400) -/

/-- What a fetch of one word answers; `port` is a miss that finds no token, `held` one that a release through the line at a
physical address holds (11 R242), `poison` one that reads a poisoned line (17 Table 17.5). -/
inductive Fetched where
  | word (w : W32) | bad (c : Code) | miss (va : Nat) | port | held (pa : Nat) | poison
  deriving DecidableEq, Repr

/-- A byte of code: the near cache's copy, else what a fill would bring. -/
def State.codeByte (s : State) (g : Group) (pa : Nat) : Byte :=
  match (s.core g.core).nearLine g.enc pa with
  | some l => l.data.getD (pa % 64) 0
  | none => s.beyondNear g.core (s.partOf g) pa

/-- Fetches a word through the checks of a far load of kind fetch. -/
def State.fetchWord (s : State) (g : Group) (va : Nat) : Fetched :=
  match s.farCheck g va 4 .fetch none with
  | .ok pas _ =>
    if s.portCount g.core g.enc true pas = 0 then .word (BitVec.ofNat 32 (leNat (pas.map (s.codeByte g))))
    else if !(s.core g.core).mayTake (s.viOf g.enc) || 256 ≤ s.inFlight g.core ||
        (s.portSeqs g.core (s.viOf g.enc)).any (fun q => g.fetchAt.all (q < ·)) then .port
    else if s.svtBlocked (s.partOf g) (dieOfCore g.core) (pas.headD 0) (.core g.core) then .held (pas.headD 0)
    else if s.poison.contains (pas.headD 0 / 64) then .poison
    else .word (BitVec.ofNat 32 (leNat (pas.map (s.codeByte g))))
  | .bad c => .bad c
  | .miss v => .miss v

/-- A held fetch waits in its slot and asks for the widening. -/
def State.fetchHeld (s : State) (g : Group) (pa : Nat) : State :=
  s.svtAsk (s.partOf g) (dieOfCore g.core) pa (.core g.core)

/-- The translation, the near cache and the port after a fetch of a word: a miss takes a token and fills the line, and the page's
entry is the most recently used. The walks that fetches of the group waited for are no longer kept. -/
def State.fetched (s : State) (g : Group) (va : Nat) : State :=
  let s := (s.modDie (dieOfCore g.core) fun d => { d with walks := d.walks.filter fun w => !(w.gid = g.gid && w.kind = .fetch) }).modGroup
    g.gid fun g => { g with fetchAt := none }
  match s.farCheck g va 4 .fetch none with
  | .ok (pa :: _) heap =>
    let s := if heap then s else s.refill g va .fetch
    if s.portCount g.core g.enc true [pa] = 0 then s.modCore g.core fun c =>
      match c.nearLine g.enc pa with
      | some l => c.nearPut l
      | none => c
    else (((s.event g 0x0200 0x1F 1).lookupEvent g (s.partOf g) pa).modCore g.core fun c => (c.takeToken (s.viOf g.enc)).waitOver (g.fetchAt.getD 0)).nearFill g.core g.enc (s.partOf g) pa
  | _ => s

end Sys2Proof.Machine
end

