-- ==== Sys2Proof/Machine/Slots.lean ====
section
/-! DEFINITION. The cycles of issue slots: the wait fields that a clause opens with (01 R19), readiness and the choice of a path
slot (05 R116, R136), the leaf that each slot-cycle counts under (21 R378, R379), and spending slot cycles. -/

namespace Sys2Proof.Machine

/-- An issue slot of a core. -/
def Core.slot (c : Core) (x : Nat) : Slot := if x = 0 then c.slot0 else c.slot1
/-- Changes an issue slot. -/
def Core.modSlot (c : Core) (x : Nat) (f : Slot → Slot) : Core :=
  if x = 0 then { c with slot0 := f c.slot0 } else { c with slot1 := f c.slot1 }
/-- The wait fields of a header pass for a path slot (01 R19). -/
def waitsPass (h : Header) (p : PathState) : Bool :=
  (h.wl = 7 || p.ld ≤ h.wl) && (h.ws = 7 || p.st ≤ h.ws) && (h.wc = 7 || p.cp ≤ h.wc) && (h.wt = 7 || p.tl ≤ h.wt)

/-- The header of a path slot's next clause: the one it holds, else the word at its PC where a fetch brings it. -/
def State.nextClause (s : State) (g : Group) (f : Bool) : Option Header :=
  let p := g.path f
  match p.hdr with
  | some w => decodeHeader w
  | none =>
    match s.fetchWord g p.pc.toNat with
    | .word w => decodeHeader w
    | _ => none

/-! ### Readiness -/

/-- Whether a path slot's next clause passes R19; what cannot be fetched or decoded is ready to fault. -/
def State.clausePasses (s : State) (g : Group) (f : Bool) : Bool :=
  (g.path f).hdr.isSome || ((s.nextClause g f).map fun h => waitsPass h (g.path f)).getD true

/-- Whether a path slot may be scheduled beside the other: not while the window is away from the split's position
(01 R36), nor while a handler is active in the other (17 R321). -/
def Group.mayRun (g : Group) (f : Bool) : Bool :=
  (match g.split with | some x => x.wpos = g.wpos || f = g.lastF | none => true) &&
  (!bitAt g.tst.toNat 8 || f = bitAt g.tst.toNat 3)

/-- A ready path slot: LIVE, not parked, its next clause passing R19 (05 R116). -/
def State.pathReady (s : State) (g : Group) (f : Bool) : Bool :=
  (g.path f).stat = .live && (g.path f).park.isNone && g.mayRun f && s.clausePasses g f

/-- The path slot that takes the next run (05 R116). -/
def State.choosePath (s : State) (g : Group) : Option Bool :=
  match s.pathReady g false, s.pathReady g true with
  | false, false => none
  | true, false => some false
  | false, true => some true
  | true, true =>
    if g.afterSplit then some false
    else if g.lastPh = 1 ∧ g.streak < 4 then some g.lastF else some (!g.lastF)

/-- A group is ready (05 R136): one that is PARKED first becomes READY, once its wait is satisfied (05 Table 5.7). -/
def State.groupReady (s : State) (g : Group) : Bool :=
  g.stat = .ready && g.stopped.isNone && (s.choosePath g).isSome && !(s.encl g.enc).halted

/-! ### Throttling (27 R435) -/

/-- The head of a core's tile queue with its group; a follower's share follows its leader. -/
def State.tileHead (s : State) (core : Nat) : Option (Group × TileOp × List Nat) :=
  (s.core core).tileq.head?.bind fun e => (s.group e.gid).bind fun g =>
    match e.kind with
    | .pair =>
      if e.share ∨ ((s.core (core + 1)).tileq.head?.map TileOp.seq) ≠ some e.seq then none else some (g, e, [core, core + 1])
    | _ => some (g, e, [core])

/-- Throttling keeps a core's array from admitting an operation in this cycle: it admits one in a cycle whose CYC is even
(log 56). -/
def State.admitsNone (s : State) (core : Nat) : Bool :=
  s.thr && ((s.core core).cyc.toNat % 2 = 1 || (s.core core).admitted = some (s.core core).cyc)

/-- Throttling alone delays the head of a core's queue. -/
def State.tileDelayed (s : State) (core : Nat) : Bool :=
  match s.tileHead core with
  | some (g, e, cs) => !e.running && !(s.core g.core).heldBack e.lock && cs.any s.admitsNone
  | none => false

/-! ### Leaves -/

/-- The first counter that a wait condition fails, as a leaf (21 R379 step 3). -/
def PathState.failLeaf (p : PathState) (ld st cp tl : Nat) : Nat :=
  if ld < 7 ∧ ld < p.ld then leafLd else if st < 7 ∧ st < p.st then leafSt
  else if cp < 7 ∧ cp < p.cp then leafCp else if tl < 7 ∧ tl < p.tl then leafTl else leafEvent

/-- Why a parked path slot waits (21 Table 21.3). A wait that the table does not name counts as event (log 55). -/
def PathState.parkLeaf (p : PathState) : Park → Nat
  | .fe .. => 0x09
  | .barrier _ | .regroup _ => 0x0A
  | .event _ | .join .. | .plq | .lantern .. | .binding .. | .wcnt .. | .coll .. => leafEvent
  | .monitor => 0x0C
  | .counters a b c d => p.failLeaf a b c d
  | .tags .. => leafCp
  | .sealedWindow .. => leafLease

/-- Why a path slot of a group that is not ready waits: its park; a LIVE one that RANGE_LOCKED sent back to its word, or whose
clause R19 holds; an arrival at the join (21 Table 21.3). -/
def State.pathLeaf (s : State) (g : Group) (f : Bool) : Option Nat :=
  let p := g.path f
  match p.park, p.stat with
  | some w, _ => some (p.parkLeaf w)
  | none, .atJoin => some leafEvent
  | none, .live =>
    if p.noMatch ∧ g.frc = BitVec.ofNat 64 (Code.num .rangeLocked) then some leafLock
    else match s.nextClause g f with
      | some h => if waitsPass h p then none else some (p.failLeaf h.wl h.ws h.wc h.wt)
      | none => none
  | none, _ => none

/-- Why a group that is not ready waits: as its last path slot does, else as the other (21 Table 21.3). An ending group waits for
its counters. -/
def State.waitLeaf (s : State) (g : Group) : Nat :=
  if g.stat = .ending then g.p.failLeaf 0 0 0 0
  else match s.pathLeaf g g.curF with
    | some l => l
    | none => (s.pathLeaf g (!g.curF)).getD leafFront

/-- Resident groups of a core whose home is a slot (05 R135). -/
def State.homeGroups (s : State) (core slot : Nat) : List Group :=
  (s.residents core).filter fun g => g.slot = slot

/-- Of two groups the one with the lower residency index. -/
def lowerResid (a b : Group) : Group := if b.resid < a.resid then b else a

/-- Whether a slot is in a run that nothing holds, or is free while a group of it is ready: its words still issue in the cycles
that pass (01 R24; 05 R135). -/
def State.slotRuns (s : State) (core slot : Nat) : Bool :=
  match ((s.core core).slot slot).bound.bind s.group with
  | some _ => ((s.core core).slot slot).holds.isNone
  | none => (s.homeGroups core slot).any s.groupReady

/-- The group and leaf of a slot that issues nothing: a bound one is held (21 R379). -/
def State.idleLeaf (s : State) (core slot : Nat) : Option Group × Nat :=
  match ((s.core core).slot slot).bound.bind s.group with
  | some g => (some g, (((s.core core).slot slot).holds).getD leafFront)
  | none =>
    match s.homeGroups core slot with
    | [] => (none, leafNone)
    | g :: gs =>
      match (g :: gs).filter fun g => g.stat ≠ .halted with
      | [] => (some g, leafHalted)
      | h :: hs => let x := hs.foldl lowerResid h; (some x, s.waitLeaf x)

/-- Adds slot cycles to a leaf, kept per enclave (21 R377, R378). -/
def Slot.addLeaf (x : Slot) (enc leaf n : Nat) : Slot :=
  { x with leaves := smSet 0 x.leaves (enc * 32 + leaf) (smGet 0 x.leaves (enc * 32 + leaf) + n) }

/-- A slot of a core counts `n` cycles under a leaf of a group, or of none. -/
def Core.countSlot (c : Core) (slot : Nat) (o : Option Group × Nat) (n : Nat) : Core :=
  c.modSlot slot (·.addLeaf ((o.1.map Group.enc).getD 0) o.2 n)

/-- The slot-cycles of a group, or of none, as the holder of the core's counter bank sees them: another enclave's count as no
resident group (21 R377). -/
def State.slotView (s : State) (core : Nat) (o : Option Group × Nat) : Option Group × Nat :=
  match o.1 with
  | some g => if (s.core core).bank.holder = some (.enc g.enc) then o else (none, leafNone)
  | none => (none, leafNone)

/-- `n` slot-cycles raise the events of their leaf and of the interior nodes that hold it (21 R378). -/
def State.slotEvent (s : State) (core : Nat) (o : Option Group × Nat) (n : Nat) : State :=
  let v := s.slotView core o
  (List.range 5).foldl (fun s i => if nodeHolds (0x13 + i) v.2 then s.eventAt core v.1 (0x113 + i) v.2 n else s)
    (s.eventAt core v.1 (0x100 + v.2) v.2 n)

/-- A slot counts `n` cycles under a leaf, with their events; of those that it waits for TL, the one that throttling delays its core's
array by counts as matrix array (27 R435). -/
def State.countCycles (s : State) (core slot : Nat) (o : Option Group × Nat) (n : Nat) : State :=
  let count (s : State) (l n : Nat) : State := (s.modCore core (·.countSlot slot (o.1, l) n)).slotEvent core (o.1, l) n
  if n ≠ 0 ∧ o.2 = leafTl ∧ s.tileDelayed core then
    let s' := count s leafArray 1
    if n = 1 then s' else count s' leafTl (n - 1)
  else count s o.2 n

/-- `n` cycles of a core pass for a slot whose words do not issue now. One in a run lags: it counts them when its words issue or
are held. Any other counts them, and those it lags by, under its leaf (21 R378; log 4). -/
def State.slotPass (s : State) (core slot n : Nat) : State :=
  if n = 0 then s
  else if s.slotRuns core slot then s.modCore core (·.modSlot slot fun x => { x with lag := x.lag + n })
  else (s.countCycles core slot (s.idleLeaf core slot) (n + ((s.core core).slot slot).lag)).modCore core
    (·.modSlot slot fun x => { x with lag := 0 })

/-- The focused group's slot spends `n` cycles in a leaf: first those it lags by, then new ones, by which CYC advances and which
pass for the core's other slot (21 R378; log 4). -/
def State.spend (s : State) (leaf n : Nat) : State :=
  if n = 0 then s
  else
    let g := s.g
    let k := n - ((s.core g.core).slot g.slot).lag
    let s := (s.modCore g.core fun c => { c with cyc := c.cyc + BitVec.ofNat 64 k }).modCore g.core
      (·.modSlot g.slot fun x => { x with holds := none, lag := x.lag - n })
    (s.countCycles g.core g.slot (some g, leaf) n).slotPass g.core (1 - g.slot) k

/-- The core's other slot where it lags behind the one at the focus and can go on (log 4). -/
def State.slotBehind (s : State) : Option (Nat × Nat) :=
  match s.focus with
  | .slot c x => if ((s.core c).slot (1 - x)).lag ≠ 0 ∧ s.slotRuns c (1 - x) then some (c, 1 - x) else none
  | _ => none

/-- The cycles of an issued word: the first under `leaf`, the others as beat continuation, or every one as masked-off
(04 R108; 06 R143). -/
def State.spendWord (s : State) (leaf n : Nat) : State :=
  if leaf = leafMasked then s.spend leaf n else (s.spend leaf 1).spend leafBeat (n - 1)

end Sys2Proof.Machine
end

