-- ==== Sys2Proof/Machine/Ops.lean ====
section
/-! DEFINITION. The named operations every meaning uses: issuing and retiring a word (01 R16, R22, R25), run boundaries,
ending a task with a fault (17 R325, R326, R437), TAKING A TRAP and RETURNING from one (17 R321, R322), the register
windows (01 R30, R31), and parking (01 R25). -/

namespace Sys2Proof.Machine

/-- What a meaning answers. -/
abbrev Out := Host.Outcome State Fault Refusal

/-- What an outside party asks of the package: one that a failed boot step stopped answers nothing but GET_VERSION and the recovery
mailbox (27 R433). -/
def whenRunning (k : State → State) (s : State) : Out := .next (if s.running then k s else s)

/-! ### Words and runs -/

/-- A run boundary: RC becomes 0 and the slot is to be released (01 R22). -/
def Group.boundary (g : Group) : Group := { g with rc := 0, runOver := true, winRet := none }

/-- The hints of a clause that has been left (01 R20; 05 R116, R135). -/
def Group.noteHints (g : Group) : Group :=
  match g.header with
  | some h => { g with y := g.y || h.y, lastPh := h.ph }
  | none => g

/-- After the last word of a clause: a run boundary where END is set. -/
def Group.clauseEnd (g : Group) : Group :=
  if (g.header.map Header.endRun).getD false then g.noteHints.boundary else g.noteHints

/-- The word has issued and control goes on in sequence (01 R16, R22). -/
def Group.advance (g : Group) : Group :=
  let g := { g with rc := g.rc + 1 }
  if g.lastWord then
    let nh := g.nextHeader
    g.clauseEnd.modP fun p => { p with pc := nh, cwi := 0, hdr := none, noMatch := false }
  else g.modP fun p => { p with cwi := p.cwi + 1, noMatch := false }

/-- The word has issued and control goes to the header at `t` (01 R17, R22): a taken transfer is no boundary. -/
def Group.jump (g : Group) (t : VAddr) : Group :=
  ({ g with rc := g.rc + 1 }.clauseEnd).modP fun p => { p with pc := t, cwi := 0, hdr := none, noMatch := false }

/-- Completes a word of `n` slot cycles. -/
def State.retire (n : Nat) (s : State) : State := (s.spendWord leafUseful n).modG Group.advance

/-- The leaf of a vector word's first cycle: useful, or masked-off with no active lane (05 R110). -/
def Group.vleaf (g : Group) : Nat := if g.p.mask = 0 then leafMasked else leafUseful

/-- Completes a vector word. -/
def State.retireV (n : Nat) (s : State) : State := (s.spendWord s.g.vleaf n).modG Group.advance

/-- Completes a taken transfer: one slot cycle and two front-end cycles (04 R108). -/
def State.retireJump (t : VAddr) (s : State) : State := ((s.spendWord leafUseful 1).spend leafFront 2).modG (·.jump t)

/-- The slot stays bound and issues nothing in this cycle, and did not in those it lags by; other slots' cycles count it under the
same leaf (01 R24). -/
def State.hold (leaf : Nat) (s : State) : State :=
  { ((s.spend leaf (max 1 ((s.core s.g.core).slot s.g.slot).lag)).modCore s.g.core fun c => c.modSlot s.g.slot fun x => { x with holds := some leaf }) with held := true }

/-- The path parks: a run boundary before the word, which is issued again later (01 R25). -/
def State.park (why : Park) (s : State) : State :=
  s.modG fun g => { (g.noteHints.modP fun p => { p with park := some why }).boundary with stat := .parked }

/-- Writes a scalar register; a write to s60 to s62 emits a MASK packet (21 Table 21.9). -/
def State.setS (s : State) (d : Reg) (v : Word) : State :=
  let s := s.modG (·.setS d v)
  if 60 ≤ d.toNat ∧ d.toNat < 63 then s.emit s.g 3 (2 ^ (d.toNat - 60)) else s

/-! ### Ending a task (17 R325, R326, R327) -/

/-- The report of the executing path slot for word `cwi` of its clause (17 Table 17.3). -/
def State.report (s : State) (code : Code) (fra : Word) (cwi : Nat) (prec unhandled : Bool) : Report :=
  { code := code, fra := fra, pc := s.g.p.pc.toNat, cwi := cwi, pathF := s.g.curF, mask := s.g.p.mask, prec := prec
    unhandled := unhandled, noGroup := false, dep := false, ident := s.g.ident
    queue := ((s.taskOf s.g).map Task.queue).getD 0, core := s.g.core, counters := s.g.p.outc
    cyc := (s.core s.g.core).cyc }

/-- Whether a report comes before another of the same cycle: by lower die, then lower s56[47:0], then T before F (17 R326).
The cycle is the reporting core's (log 4). -/
def Report.before (r x : Report) : Bool :=
  !r.noGroup && !x.noGroup && r.cyc = x.cyc &&
    (r.core / 128 < x.core / 128 ||
      (r.core / 128 = x.core / 128 && (r.ident < x.ident || (r.ident = x.ident && !r.pathF && x.pathF))))

/-- A report reaches Chandler: the task's first becomes its fault, later ones are counted until its record is written
(17 R326). A task that ends with its ancestor has no record of its own (log 16). -/
def Task.addReport (t : Task) (r : Report) : Task :=
  match t.fault with
  | none => if t.ended then t else { t with fault := some r }
  | some x =>
    if t.reported then t
    else { t with fault := some (if r.before x ∧ !t.ended then r else x), supp := min (t.supp + 1) 255 }

/-- The focused group stops with a report: a run boundary, and its task is to end (17 R325). -/
def State.stopWith (r : Report) (s : State) : State :=
  let s := match s.team s.g.team with
    | some t => s.modTask t.task (·.addReport r)
    | none => s
  s.modG fun g => { g.boundary with stat := .halted }

/-- A precise fault of the word about to issue (17 R319, R326). -/
def State.takeFault (code : Code) (fra : Word) (s : State) : State :=
  s.stopWith (s.report code fra (s.g.p.cwi + 1) true false)

/-- The address of the word about to issue, the FRA of a fault whose rule names none (17 R437). -/
def State.wordAddr (s : State) : Word := BitVec.ofNat 64 (s.g.p.pc.toNat + 4 * (s.g.p.cwi + 1))

/-- A fault whose FRA is the faulting word's address. -/
def State.faultHere (code : Code) (s : State) : State := s.takeFault code s.wordAddr

/-- A fault at the header itself: CWI 0 (01 R15, R21). -/
def State.headerFault (code : Code) (fra : Word) (s : State) : State := s.stopWith (s.report code fra 0 true false)

/-! ### Register windows (01 R28 to R35) -/

/-- Bytes of a spill block of positions p to p + 7 (01 Table 1.6). -/
def Group.spillBytes (g : Group) (p : Nat) : List Byte :=
  ((List.range 8).flatMap fun i => leBytes 8 (smGet 0 g.sring ((p + i) % 64)).toNat) ++
  ((List.range 8).flatMap fun i => (smGet vzero g.vring ((p + i) % 64)).flatMap fun x => leBytes 4 x.toNat)

/-- Lanes of a vector register from 384 bytes. -/
def bytesLanes : Nat → List Byte → VReg
  | 0, _ => []
  | n + 1, bs => BitVec.ofNat 32 (leNat (bs.take 4)) :: bytesLanes n (bs.drop 4)

/-- Positions p to p + 7 filled from a spill block. -/
def Group.fillBytes (g : Group) (p : Nat) (bs : List Byte) : Group :=
  (List.range 8).foldl (fun g i =>
    { g with
      sring := smSet 0 g.sring ((p + i) % 64) (BitVec.ofNat 64 (leNat ((bs.drop (8 * i)).take 8)))
      vring := smSet vzero g.vring ((p + i) % 64) (bytesLanes 96 ((bs.drop (64 + 384 * i)).take 384)) }) g

/-- Whether an address is a SELF address (09 R183). -/
def isSelf (a : Nat) : Bool := a < 2 ^ 24 && bitAt a 23

/-- A block of the spill area: a SELF access, and WSL a SELF address (01 R34). -/
def State.blockAcc (s : State) (a : Nat) : Except Code LocalAcc :=
  if isSelf s.g.wsl.toNat then s.selfAcc s.g a 3136 else .error .windowBounds

/-- Spills the oldest block, or the fault of 01 R34. -/
def State.spillBlock (s : State) : Except Code State :=
  match s.blockAcc s.g.wsp.toNat with
  | .error _ => .error .windowBounds
  | .ok a => .ok (((s.poolWrite a (s.g.spillBytes s.g.wlow)).modG fun g =>
      { g with wsp := g.wsp + 3136, wlow := g.wlow + 8 }).spend leafSpill 13)

/-- Fills the most recent block. -/
def State.fillBlock (s : State) : Except Code State :=
  match s.blockAcc (s.g.wsp - 3136).toNat with
  | .error _ => .error .windowBounds
  | .ok a => .ok ((s.modG fun g =>
      { g.fillBytes (g.wlow - 8) (s.poolRead a) with wsp := g.wsp - 3136, wlow := g.wlow - 8 }).spend leafSpill 13)

/-- Several spills; a failing block leaves what came before it and names its first byte (01 R34). -/
def State.spills : Nat → State → State × Option (Code × Word)
  | 0, s => (s, none)
  | n + 1, s =>
    match s.spillBlock with
    | .ok s' => State.spills n s'
    | .error c => (s, some (c, s.g.wsp))

/-- Several fills. -/
def State.fills : Nat → State → State × Option (Code × Word)
  | 0, s => (s, none)
  | n + 1, s =>
    match s.fillBlock with
    | .ok s' => State.fills n s'
    | .error c => (s, some (c, s.g.wsp - 3136))

/-- Blocks that a slide of k must spill (01 R30). -/
def Group.spillCount (g : Group) (k : Nat) : Nat := (g.wpos + k + 48 - (64 + g.wlow)) / 8

/-- Moves the window up by k, spilling first; STACK_OVERFLOW where the spill area is too small (01 R30). With a block that fails
none is spilled, so that the state is unchanged, as 04 R105 says of a call and 01 R34 permits (log 31). -/
def State.slideUp (k : Nat) (s : State) : State × Option (Code × Word) :=
  let n := s.g.spillCount k
  if s.g.wsl.toNat < s.g.wsp.toNat + n * 3136 then (s, some (.stackOverflow, s.g.wsp))
  else
    match s.spills n with
    | (s', none) => (s'.modG fun g => { g with wpos := g.wpos + k }, none)
    | (_, f) => (s, f)

/-- Moves the window down to a position and fills while WLOW lies above it (01 R31). A block that fails leaves what the blocks
before it did (01 R34; log 31). -/
def State.slideTo (pos : Nat) (s : State) : State × Option (Code × Word) :=
  let s := s.modG fun g => { g with wpos := pos }
  s.fills ((s.g.wlow - s.g.wpos + 7) / 8)

/-! ### Traps (17 R321, R322) -/

/-- An ADDR packet of word `cwi` of a clause, whose PC is the target; NOBR suppresses it (21 Table 21.9). -/
def State.emitAddr (s : State) (cwi : Nat) (target : VAddr) (kind : Nat) : State :=
  if bitAt s.g.trctl.toNat 1 then s
  else s.emitPacket s.g (packet 2 s.g.curF cwi s.g.ident target.toNat s.g.p.mask kind)

/-- Taking a trap raised by the word about to issue: FRC, FRA, FRPC, FRM, FRMH and TST are saved, the window slides by
48, and the path continues at TVEC after a run boundary. With no vector, or inside a handler, the task ends and its
record carries UNHANDLED. -/
def State.takeTrap (code : Code) (fra : Word) (s : State) : State :=
  if s.g.tvec = 0 ∨ bitAt s.g.tst.toNat 8 then s.stopWith (s.report code fra (s.g.p.cwi + 1) true true)
  else
    let p := s.g.p
    let s := s.modG fun g => { g with
      frc := BitVec.ofNat 64 code.num, fra := fra, frpc := p.pc.setWidth 64
      frm := BitVec.ofNat 64 (bitsAt p.mask.toNat 0 64), frmh := BitVec.ofNat 64 (maskWord p.mask 2)
      tst := BitVec.ofNat 9 (256 + (p.cwi + 1) * 16 + 8 * b2n g.curF) }
    match s.slideUp 48 with
    | (s, some (c, a)) => s.takeFault c a
    | (s, none) =>
      let s := s.modG fun g =>
        (g.noteHints.modP fun p => { p with pc := g.tvec.setWidth 57, cwi := 0, hdr := none, noMatch := false }).boundary
      s.emitAddr (p.cwi + 1) s.g.p.pc 3

/-- Returning from the handler (17 R322): the window slides back, the trapped path's mask, PC and CWI are restored, ACT
clears, and a run boundary follows. -/
def State.trapReturn (skip : Bool) (s : State) : State :=
  let cwi := s.g.p.cwi + 1
  if s.g.wpos < 48 then s.takeFault .stackOverflow s.g.wsp
  else
    match s.slideTo (s.g.wpos - 48) with
    | (s, some (c, a)) => s.takeFault c a
    | (s, none) =>
      let s := (s.spendWord leafUseful 1).modG fun g =>
        let f := bitAt g.tst.toNat 3
        let m := BitVec.ofNat 96 (g.frm.toNat + g.frmh.toNat % 2 ^ 32 * 2 ^ 64)
        let k := bitsAt g.tst.toNat 4 4 - 1 + b2n skip
        let going (p : PathState) := p.sweeps.filter (· = (g.frpc.setWidth 57, k))
        { ((g.noteHints.modPath f fun p =>
            { p with pc := g.frpc.setWidth 57, cwi := k, mask := m, hdr := none, noMatch := !skip, sweeps := going p }).boundary) with
          tst := g.tst &&& 0xFF#9 }
      s.emitAddr cwi s.g.p.pc 4

end Sys2Proof.Machine
end

