-- ==== Sys2Proof/Machine/Sched.lean ====
section
/-! DEFINITION. Issue slots and runs: releasing a slot at a run boundary (05 R138), and run arbitration (05 R135). -/

namespace Sys2Proof.Machine

/-! ### Release and arbitration -/

/-- State of a group whose run has ended (05 Table 5.7). One whose run parked, or ended with the first arrival at the top-level
join, is PARKED unless a path slot is ready; so is one with no path slot left that could run. -/
def State.afterRun (s : State) (g : Group) : GSt :=
  let could (p : PathState) : Bool := p.stat = .live && p.park.isNone
  match g.stat with
  | .bound => if g.firstAt then (if (s.choosePath g).isSome then .ready else .parked)
    else if could g.t || could g.f then .ready else .parked
  | .parked => if (s.choosePath g).isSome then .ready else .parked
  | x => x

/-- A BRANCH packet at the boundary of a run with conditional transfers, of the run's last word (21 Tables 21.8, 21.9), unless
NOBR. -/
def State.emitBranch (s : State) : State :=
  if s.g.taken.isEmpty ∨ bitAt s.g.trctl.toNat 1 then s
  else s.emitPacket s.g (packet 1 s.g.curF s.g.wordAt.2 s.g.ident s.g.wordAt.1.toNat s.g.p.mask
    (s.g.taken.length * 2 ^ 24 + s.g.taken.foldr (fun b n => b2n b + 2 * n) 0))

/-- The slot at the focus is released at a run boundary and the group goes back among the others. -/
def State.release (s : State) : State :=
  let s := s.emitBranch
  let g := s.g
  let stat := s.afterRun { g with lastF := g.curF }
  let g' := { g with
    stat := stat, yielded := g.y, y := false, lastF := g.curF, runOver := false, firstAt := false, taken := []
    w := if stat = .ready then g.w else 0, parkedAt := if stat = .parked then s.seq else g.parkedAt }
  { (s.modCore g.core fun c => c.modSlot g.slot fun x => { x with bound := none }) with
    g := {}, focus := .none, seq := s.seq + 1, groups := smPut s.groups g.gid g' }

/-- Whether a run ended with the first arrival at the top-level join while the other path slot is ready: the group then stays
BOUND, and that slot takes the next run (05 Table 5.7, R116). -/
def State.staysBound (s : State) : Bool :=
  s.g.firstAt && s.pathReady { s.g with lastF := s.g.curF } (!s.g.curF)

/-- Priority of a group's queue (05 R131). -/
def State.prioOf (s : State) (g : Group) : Nat :=
  (((s.taskOf g).bind fun t => (s.encl t.enc).queues[t.queue]?).map (·.2)).getD 0

/-- Whether `a` wins against `b` under 05 R135: aged, then priority, then W, then the lowest residency index. -/
def State.winsOver (s : State) (a b : Group) : Bool :=
  let ka := (b2n (16 ≤ a.w), s.prioOf a, a.w)
  let kb := (b2n (16 ≤ b.w), s.prioOf b, b.w)
  if ka.1 ≠ kb.1 then kb.1 < ka.1
  else if ka.2.1 ≠ kb.2.1 then kb.2.1 < ka.2.1
  else if ka.2.2 ≠ kb.2.2 then kb.2.2 < ka.2.2
  else a.resid < b.resid

/-- The ready groups of a slot; one whose last run yielded is left out, at this boundary only, when another is there
(05 R135). -/
def State.candidates (s : State) (core slot : Nat) : List Group :=
  let c := (s.homeGroups core slot).filter s.groupReady
  let c' := c.filter fun g => !g.yielded
  if c'.isEmpty then c else c'

/-- A group takes a run of a slot: W of the slot's other ready groups rises, and what Y left out counts again (05 R135). -/
def State.takeRun (s : State) (core slot gid : Nat) : State :=
  let s' := (s.candidates core slot).foldl (fun s h =>
    if h.gid = gid then s else s.modGroup h.gid fun h => { h with w := h.w + 1 }) s
  (s.homeGroups core slot).foldl (fun s h => s.modGroup h.gid fun h => { h with yielded := false }) s'

/-- The next run of a group that stays BOUND at its first arrival at the join. -/
def State.nextPath (s : State) : State :=
  (s.emitBranch.takeRun s.g.core s.g.slot s.g.gid).modG fun g => { g with
    stat := .bound, y := false, lastF := g.curF, curF := !g.curF, runOver := false, firstAt := false
    afterSplit := false, streak := 0, taken := [] }

/-- The group that wins a slot. -/
def State.winner (s : State) (core slot : Nat) : Option Group :=
  match s.candidates core slot with
  | [] => none
  | g :: gs => some (gs.foldl (fun a b => if s.winsOver b a then b else a) g)

/-- The group at the focus goes back among the others, its slot still bound. -/
def State.unfocus (s : State) : State :=
  if s.g.gid = 0 then { s with focus := .none }
  else { s with g := {}, focus := .none, groups := smPut s.groups s.g.gid s.g }

/-- A group of the others comes to the focus. -/
def State.focusOn (s : State) (g : Group) (core slot : Nat) : State :=
  { s with g := g, focus := .slot core slot, turn := g.gid, hartLast := false, groups := smErase s.groups g.gid }

/-- Binds a slot to its winner for one run (05 R135), or moves the focus to the group it is bound to; an empty slot
idles. -/
def State.arbitrate (s : State) (core slot : Nat) : State :=
  let s := s.unfocus
  match ((s.core core).slot slot).bound.bind s.group with
  | some g => s.focusOn g core slot
  | none =>
    match s.winner core slot with
    | none => s
    | some g =>
      let f := (s.choosePath g).getD false
      let other := s.pathReady g (!f)
      let s := s.takeRun core slot g.gid
      let g' := { g with
        stat := .bound, yielded := false, w := 0, curF := f, afterSplit := false
        streak := if !other then 0 else if f = g.lastF then g.streak + 1 else 1 }
      let was := ((s.core core).slot slot).last
      let s := s.modCore core fun c => c.modSlot slot fun x => { x with bound := some g.gid, last := some g.gid }
      let s := s.focusOn g' core slot
      if was = some g.gid ∨ was = none then s else s.spend leafFront 1

/-- Whether a group can come to the focus: its slot is bound to it, or free while it is ready. -/
def State.slotDue (s : State) (g : Group) : Bool :=
  match ((s.core g.core).slot g.slot).bound with
  | some gid => gid = g.gid
  | none => s.groupReady g

/-- The slot that comes to the focus next, in rising order of the groups after the last one, other than a given place
(log 2). -/
def State.nextSlotBut (s : State) (p : Group → Bool) : Option (Nat × Nat) :=
  let gs := s.allGroups.filter fun g => p g && s.slotDue g
  let g : Option Group := match gs.find? fun g => s.turn < g.gid with
    | some g => some g
    | none => gs.head?
  g.map fun g => (g.core, g.slot)
/-- The slot that comes to the focus next. -/
def State.nextSlot (s : State) : Option (Nat × Nat) := s.nextSlotBut fun _ => true

/-- RUN_ARBITRATION: at a slot's run boundary the next ready group is chosen and bound; a slot in a run comes to the
focus (05 R135; log 2). -/
def execRunArbitration (core slot : Nat) (s : State) : Out := .next (s.arbitrate core slot)

/-- A fetch that waits at the port, with its place among the requests that wait there: for a refill that is due, for room among the
requests in flight, or for a token (24 R400; 19 R359, R360). -/
def State.portHold (leaf : Nat) (s : State) : State :=
  let s : State := if s.g.fetchAt.isSome then s else { s with seq := s.seq + 1, g := { s.g with fetchAt := some s.seq } }
  let c := s.core s.g.core
  if c.refillDue then { s with held := true }
  else if c.hasToken (s.viOf s.g.enc) then
    ((if 256 ≤ s.inFlight s.g.core then (s.answerOne s.g.core).getD s else s) : State).hold leaf
  else (s.waitAt s.g (s.g.fetchAt.getD 0)).hold leaf

/-! ### Comparators (21 R387) -/

/-- The comparator that a group about to issue word 1 of a clause matches. -/
def State.comparator (s : State) (g : Group) : Option Nat :=
  let u := (s.core g.core).trace
  if g.p.cwi = 0 ∧ !g.p.noMatch ∧ u.holder = some (.enc g.enc) then
    (u.cmps.find? fun c => bitAt c.2.toNat 63 && bitsAt c.2.toNat 0 57 = g.p.pc.toNat).map (·.1)
  else none

/-- A BREAKPOINT: a debug session halts the group, whose monitors latch LOST, and writes STOP and DUMP packets; otherwise a trap
(21 R388; 07 R173). -/
def State.breakpoint (fra : Word) (stop : Nat) (s : State) : State :=
  let u := (s.core s.g.core).trace
  if bitAt u.ctl.toNat 1 ∧ u.holder = some (.enc s.g.enc) then
    let s := s.emit s.g 8 stop
    let g := s.g
    let s := s.emitPacket g
      [BitVec.ofNat 64 (13 * 2 ^ 59 + b2n g.curF * 2 ^ 58 + (g.p.cwi + 1) * 2 ^ 54 + g.ident), BitVec.ofNat 64 g.p.outc,
       BitVec.ofNat 64 (g.wpos + g.wlow * 2 ^ 32), g.fpf.setWidth 64]
    s.modG fun g => { ((g.latchPath false .lost).latchPath true .lost).boundary with stat := .halted, stopped := some stop }
  else s.takeTrap .breakpoint fra

end Sys2Proof.Machine
end

