-- ==== Sys2Proof/Machine/Lamplight.lean ====
section
/-! DEFINITION. What the machine itself writes into and reads from an enclave's memory, and the record-and-replay
controller's blocks and checkpoints (21 R390, R391). -/

namespace Sys2Proof.Machine

/-! ### The machine's own accesses -/

/-- Cuts bytes at 64-byte lines: pieces with their addresses. Fuel is the number of pieces. -/
def lineCuts : Nat → Nat → List Byte → List (Nat × List Byte)
  | 0, _, _ => []
  | n + 1, a, bs =>
    let k := 64 - a % 64
    if bs.isEmpty then [] else (a, bs.take k) :: lineCuts n (a + k) (bs.drop k)

/-- Bytes cut at lines. -/
def cuts (a : Nat) (bs : List Byte) : List (Nat × List Byte) := lineCuts (bs.length / 64 + 2) a bs

/-- Bytes of an enclave's far memory as the ordering point holds them, or the code of the first page that fails. -/
def State.readIn (s : State) (enc : Nat) (hs : List Heap) (va n : Nat) : Except Code (List Byte) :=
  (cuts va (List.replicate n 0#8)).foldl (fun (r : Except Code (List Byte)) c =>
    match r, s.xlatIn enc hs c.1 .load with
    | .error e, _ => .error e
    | .ok _, .error e => .error e
    | .ok bs, .ok pa => .ok (bs ++ s.coherent (s.encl enc).part pa c.2.length)) (.ok [])

/-- A unit's read; a page that fails its checks reads as none. -/
def State.devRead (s : State) (enc va n : Nat) : Option (List Byte) :=
  match s.readIn enc (s.encl enc).heaps va n with
  | .ok bs => some bs
  | .error _ => none

/-! ### Outside parties of a recording (21 R393, R394) -/

/-- The blocks of an enclave's log in order. -/
def State.logBlocks (s : State) (enc : Nat) : List (List Word) :=
  let r := (s.encl enc).replay
  (List.range (r.logUsed / 64)).filterMap fun i => (s.devRead enc (r.logBase + 64 * i) 64).map (bytesDwords 8)

/-- The elements of a line in a log: path and ORD, in order. -/
def lineElements (line : Nat) (bs : List (List Word)) : List (Bool × Nat) :=
  (bs.filter fun b => bitsAt (b.getD 0 0).toNat 62 2 = 0 && bitsAt (b.getD 0 0).toNat 6 51 = line).flatMap fun b =>
    (List.range (bitsAt (b.getD 0 0).toNat 0 6)).flatMap fun k =>
      let h := bitsAt (b.getD (1 + k / 4) 0).toNat (16 * (k % 4)) 16
      List.replicate (bitsAt h 0 6 + 1) (bitAt h 15, bitsAt h 6 9)

/-- How a group takes part: 0 not, 1 recorded, 2 replayed (21 R389). -/
def State.replayMode (s : State) (g : Group) : Nat := ((s.taskOf g).map Task.replay).getD 0

/-- Whether an enclave's running block knows a line: it has logged an element of it, or its log holds one. -/
def State.recordedLine (s : State) (e line : Nat) : Bool :=
  let r := (s.encl e).replay
  r.task.isSome && if r.mode = 1 then r.lines.contains line else !(lineElements line (s.logBlocks e)).isEmpty

/-- The enclaves whose running block knows a line and to which a party is outside; `own` says of an enclave that the party is of its
task. -/
def State.recorders (s : State) (line : Nat) (own : Nat → Bool) : List Nat :=
  (s.encs.filter fun e => !own e.1 && s.recordedLine e.1 line).map (·.1)

/-- A party outside the recorded or replayed task writes a line of it: OUTSIDE (21 R394). That a plain load does not touch a line in this
sense is the model's reading (log 71). -/
def State.markOutside (s : State) (line : Nat) (own : Nat → Bool) : State :=
  (s.recorders line own).foldl (fun s e => s.modEnc e fun x => { x with replay := { x.replay with outside := true } }) s

/-- Whether a group is of the task that an enclave records or replays. -/
def State.inReplay (s : State) (gid e : Nat) : Bool :=
  ((s.group gid).map fun g => g.enc = e && s.replayMode g ≠ 0).getD false

/-! ### Writes at package scope -/

/-- A store at package scope by Chandler, a hub-die hart or a unit: the class serves it and monitors latch STORE. -/
def State.hubPut (s : State) (part pa : Nat) (bs : List Byte) : State :=
  let cls := (s.potOf (pa / 4096)).cls
  (s.serveStore part cls 0 ((addrs pa bs.length).zip bs) false).latchAll part cls
    ((s.classDef part cls).bind fun d => d.servedBy 0) (fun l => l = pa / 64) .store

/-- Such a store by a party outside every recording. -/
def State.hubStore (s : State) (part pa : Nat) (bs : List Byte) : State := (s.markOutside (pa / 64) fun _ => false).hubPut part pa bs

/-- Writes bytes of an enclave's far memory, line by line, through some heap triples; a page that fails its checks is not
written. -/
def State.writeVia (put : State → Nat → Nat → List Byte → State) (s : State) (enc : Nat) (hs : List Heap) (va : Nat) (bs : List Byte) :
    State :=
  (cuts va bs).foldl (fun s c =>
    match s.xlatIn enc hs c.1 .store with
    | .ok pa => put s (s.encl enc).part pa c.2
    | .error _ => s) s

/-- Writes bytes of an enclave's far memory at package scope. -/
def State.writeIn (s : State) (enc : Nat) (hs : List Heap) (va : Nat) (bs : List Byte) : State :=
  s.writeVia State.hubStore enc hs va bs

/-- A unit's write into an enclave's far memory (21 R385, R389). -/
def State.devWrite (s : State) (enc va : Nat) (bs : List Byte) : State := s.writeIn enc (s.encl enc).heaps va bs

/-! ### Record and replay -/

/-- ORD of a group: TEAM × GROUPS + GROUP (21 R390). -/
def Group.ord (g : Group) : Nat := (bitsAt g.s56.toNat 8 16 * g.teamGroups + g.index) % 512

/-- Appends a block to an enclave's log; a full log drops it and sets OVERFLOW (21 R394). -/
def State.appendBlock (s : State) (enc : Nat) (b : List Word) : State :=
  let r := (s.encl enc).replay
  if r.logSize < r.logUsed + 64 then s.modEnc enc fun e => { e with replay := { e.replay with overflow := true } }
  else (s.devWrite enc (r.logBase + r.logUsed) (dwordBytes ((b ++ List.replicate 8 0).take 8))).modEnc enc fun e =>
    { e with replay := { e.replay with logUsed := e.replay.logUsed + 64 } }

/-- A checkpoint block (21 Table 21.11). -/
def checkpointBlock (g : Group) (cause mark : Nat) : List Word :=
  [BitVec.ofNat 64 (2 ^ 62 + cause * 2 ^ 60 + g.ord * 2 ^ 48 + g.ckpt % 2 ^ 48), BitVec.ofNat 64 g.storeCount, g.storeHash,
   BitVec.ofNat 64 mark]

/-- The checkpoint blocks of an ORD in a log. -/
def checkpointsOf (ord : Nat) (bs : List (List Word)) : List (List Word) :=
  bs.filter fun b => bitsAt (b.getD 0 0).toNat 62 2 = 1 && bitsAt (b.getD 0 0).toNat 48 9 = ord

/-- A checkpoint of the focused group: a block appended in record, a block compared in replay. Answers the FRA of
REPLAY_DIVERGED where the comparison fails (21 R391). -/
def State.checkpoint (s : State) (cause mark : Nat) : State × Option Word :=
  let g := s.g
  let done := s.modG fun g => { g with ckpt := g.ckpt + 1 }
  match s.replayMode g with
  | 1 => (done.appendBlock g.enc (checkpointBlock g cause mark), none)
  | 2 =>
    let want := checkpointBlock g cause mark
    match (checkpointsOf g.ord (s.logBlocks g.enc))[g.ckpt]? with
    | some b =>
      if bitsAt (b.getD 0 0).toNat 60 2 = cause ∧ (b.drop 1).take 3 = want.drop 1 then
        (done.modEnc g.enc fun e => { e with replay := { e.replay with ckpts := e.replay.ckpts + 1 } }, none)
      else (s.modEnc g.enc fun e => { e with replay := { e.replay with diverged := true } }, some (BitVec.ofNat 64 g.ckpt))
    | none =>
      (s.modEnc g.enc fun e => { e with replay := { e.replay with diverged := true } }, some (BitVec.ofNat 64 g.ckpt))
  | _ => (s, none)

/-- The hash of a store's bytes, in the order they are given (21 R391). -/
def hashBytes (h : Word) (bs : List (Nat × Byte)) : Word :=
  bs.foldl (fun h x => (h ^^^ BitVec.ofNat 64 (x.1 % 2 ^ 57 * 256 + x.2.toNat)) * 0x00000100000001B3#64) h

/-- A store instruction of a recorded group counts and hashes its bytes; every 256th makes a checkpoint. -/
def State.countStore (s : State) (bs : List (Nat × Byte)) : State × Option Word :=
  if s.replayMode s.g = 0 ∨ bs.isEmpty then (s, none)
  else
    let t := s.modG fun g => { g with storeCount := g.storeCount + 1, storeHash := hashBytes g.storeHash bs }
    if t.g.storeCount % 256 = 0 then
      match t.checkpoint 0 0 with
      | (t', none) => (t', none)
      | (_, some a) => (s.modEnc s.g.enc fun e => { e with replay := { e.replay with diverged := true } }, some a)
    else (t, none)

end Sys2Proof.Machine
end

