-- ==== Sys2Proof/Machine/MemLocal.lean ====
section
/-! DEFINITION. Local loads and stores, full/empty forms and cluster windows (12 R262 to R271; 09 R183 to R189). -/

namespace Sys2Proof.Machine

/-! ### Addresses and checks (12 R262 to R264) -/

/-- The bytes of an M-format size code (01 Table 1.9). -/
def sizeOf : Nat → Nat
  | 0 => 1 | 1 => 2 | 2 => 4 | 3 => 8 | 4 => 16 | 5 => 64 | 6 => 128 | _ => 384
/-- The address of an M-format access, computed exactly. -/
def Group.ea (g : Group) (b : Reg) (off : BitVec 10) (size : Nat) : Int := (g.sr b).toNat + off.toInt * size
/-- One scalar access; its lane is not used. -/
def onePiece (a : Int) : List (Nat × Int) := [(0, a)]
/-- The accesses of the active lanes of an M-format vector word. -/
def Group.rowPieces (g : Group) (a : Int) : List (Nat × Int) := g.lanes.map fun i => (i, a + 4 * i)
/-- The accesses of the active lanes of an indexed word: s[a] + b[i] read as i32. -/
def Group.indexPieces (g : Group) (a b : Reg) : List (Nat × Int) :=
  g.lanes.map fun i => (i, (g.sr a).toNat + (lane (g.vr b) i).toInt)

/-- What the first pass over the lanes of a local word answers. -/
inductive LocalRes where
  | ok (as : List LocalAcc) | bad (c : Code) (fra : Word) | sealedOut (core win : Nat)
  deriving DecidableEq, Repr

/-- The first fault in ascending lane order, else a window whose rows are sealed out, else every access. -/
def localPass : List (LocRes × Int) → LocalRes
  | [] => .ok []
  | (.bad c, a) :: _ => .bad c (BitVec.ofInt 64 a)
  | (.ok x, _) :: r =>
    match localPass r with
    | .ok as => .ok (x :: as)
    | y => y
  | (.sealedOut c w, _) :: r =>
    match localPass r with
    | .bad c' a => .bad c' a
    | _ => .sealedOut c w

/-- A local word's two passes: faults, a park on a sealed-out window (09 R189), range locks (11 R248), then its effect. -/
def withLocal (ps : List (Nat × Int)) (len align : Nat) (write : Bool) (k : List LocalAcc → State → Out) (s : State) : Out :=
  match localPass (ps.map fun p => (s.localCheck s.g p.2 len align write, p.2)) with
  | .bad c a => .next (s.takeFault c a)
  | .sealedOut c w => .next (s.park (.sealedWindow c w))
  | .ok as =>
    match (as.zip ps).find? fun x => (s.core x.1.core).lockedLocal x.1.offs write with
    | some x => .next (s.takeTrap .rangeLocked (BitVec.ofInt 64 x.2.2))
    | none => k as s

/-- The windows that accesses go through. -/
def winsOf (as : List LocalAcc) : List (Nat × Nat) := as.filterMap fun a => a.win.map fun w => (a.core, w)

/-- A load through a window holds the slot until the owning cores return its data (12 R267). -/
def withWindowData (as : List LocalAcc) (k : State → Out) (s : State) : Out :=
  if winsOf as = [] then k s
  else match s.g.winRet with
    | some (_, true) => k (s.modG fun g => { g with winRet := none })
    | some (_, false) => .next (s.hold leafLd)
    | none => .next ((s.modG fun g => { g with winRet := some (winsOf as, false) }).hold leafLd)

/-- The bytes of a store by address, for its hash and checkpoint (21 R391). -/
def storeBytes (ps : List (Nat × Int)) (len : Nat) (data : Nat → Nat) : List (Nat × Byte) :=
  ps.flatMap fun p => (addrs (wrapInt 64 p.2) len).zip (leBytes len (data p.1))

/-- A store instruction's count and hash come first: a replay that diverges stops it before it takes effect. -/
def withStoreCount (bs : List (Nat × Byte)) (k : State → Out) (s : State) : Out :=
  match s.countStore bs with
  | (s, some a) => .next (s.takeFault .replayDiverged a)
  | (s, none) => k s

/-! ### Writing (12 R266, R267; 09 R188) -/

/-- An access through a window as a part of a window store. -/
def LocalAcc.part (a : LocalAcc) (data : List Byte) (fe : Bool) : WinPart :=
  { core := a.core, win := a.win.getD 0, owner := a.owner, bytes := (addrs a.base data.length).zip data
    fe := if fe then (addrs a.base data.length).filter fun o => o % 4 = 0 else [] }

/-- Adds a window store and raises the path slot's unacknowledged remote stores. -/
def State.addWinStore (s : State) (parts : List WinPart) : State :=
  s.modG fun g => { g.modP (fun p => { p with rst := p.rst + 1 }) with
    winStores := g.winStores ++ [{ seq := s.seq, pathF := g.curF, parts := parts }] }

/-- The window parts of a local store's pieces in ascending lane order. A byte that a higher lane writes by SELF is not theirs: it
holds that lane's value (12 R266). -/
def localParts : List (LocalAcc × List Byte) → List WinPart
  | [] => []
  | (a, bs) :: r =>
    if a.win.isNone then localParts r
    else
      let taken (o : Nat) : Bool := r.any fun y => y.1.win.isNone && y.1.core = a.core && y.1.offs.contains o
      let p := a.part bs false
      { p with bytes := ((p.bytes.zip a.offs).filter fun x => !taken x.2).map (·.1) } :: localParts r

/-- Writes the pieces of a local store in ascending lane order: SELF pieces at once, window pieces as one window store. -/
def State.localWrite (s : State) (xs : List (LocalAcc × List Byte)) : State :=
  let s := (xs.filter fun x => x.1.win.isNone).foldl (fun s x => s.poolWrite x.1 x.2) s
  let ws := localParts xs
  if ws.isEmpty then s else s.addWinStore ws

/-- Performs a part of a window store in its owner's rows. -/
def State.performPart (s : State) (p : WinPart) : State :=
  match s.group p.owner with
  | none => s
  | some o =>
    let ws := p.bytes.filterMap fun b => (s.poolOff o b.1).map fun x => (x, b.2)
    let s := s.modCore p.core fun c => { c with pool := memPutAll c.pool ws }
    s.setFe p.core (p.fe.filterMap (s.poolOff o)) true

/-- Whether a part's owner rows are in the pool (09 R188, R189). -/
def State.partReady (s : State) (p : WinPart) : Bool :=
  match s.group p.owner with
  | some o => p.bytes.all fun b => !s.sealedAt o b.1
  | none => true

/-- A part of a window store may be performed: its rows are in the pool, and a part that sets F/E bits waits for the earlier
window stores of its path slot to that core (11 R247). -/
def State.mayPerform (s : State) (earlier : List WinStore) (w : WinStore) (p : WinPart) : Bool :=
  s.partReady p && (p.fe.isEmpty || !(earlier.any fun e => e.pathF = w.pathF && e.parts.any fun q => q.core = p.core))

/-- Performs what may be performed at one core of a group's window stores, in order; `done` are those before. -/
def State.performStores (core : Nat) : List WinStore → List WinStore → State → State × List WinStore
  | [], done, s => (s, done)
  | w :: r, done, s =>
    let may (p : WinPart) : Bool := p.core = core && s.mayPerform done w p
    performStores core r (done ++ [{ w with parts := w.parts.filter fun p => !may p }]) ((w.parts.filter may).foldl State.performPart s)

/-- An engine operation of a core registers local ranges: the window stores that the core has admitted are performed first, so
that none of them meets the new lock as it arrives (09 R188; 11 R248; log 35). -/
def State.clearWay (s : State) (core : Nat) (rs : List LockRange) : State :=
  if rs.all (·.far) then s
  else s.allGroups.foldl (fun s g =>
    if g.winStores.any fun w => w.parts.any fun p => p.core = core then
      let r := State.performStores core g.winStores [] s
      r.1.modGroup g.gid fun g => { g with winStores := r.2 }
    else s) s

/-- The parts of the executing path slot's earlier window stores at one owner core. -/
def State.partsAt (s : State) (core : Nat) : List WinPart :=
  (s.g.winStores.filter fun w => w.pathF = s.g.curF).flatMap fun w => w.parts.filter fun p => p.core = core

/-- An earlier window store of the executing path slot to one owner core whose rows are sealed out: it waits under 09 R189. -/
def State.sealedBefore (s : State) (core : Nat) : Option WinPart :=
  (s.partsAt core).find? fun p => !s.partReady p

/-- An F/E write follows the earlier window stores of its path slot to the same owner core (11 R247). While one of those
waits for sealed-out rows (09 R188, R189), the write parks with it (log 28). -/
def withBefore (a : LocalAcc) (k : State → Out) (s : State) : Out :=
  if a.win.isNone then k s
  else match s.sealedBefore a.core with
    | some p => .next (s.park (.sealedWindow p.core p.win))
    | none => k s

/-- Performs the earlier window stores of the executing path slot to one owner core, as an F/E write through a window
needs (11 R247); they stay unacknowledged. -/
def State.performBefore (s : State) (core : Nat) : State :=
  ((s.partsAt core).foldl State.performPart s).modG fun g =>
    { g with winStores := g.winStores.map fun w =>
        if w.pathF = g.curF then { w with parts := w.parts.filter fun p => p.core ≠ core } else w }

/-- A local value as a load extends it. -/
def extend (size : Nat) (signed : Bool) (x : Nat) : Nat := if signed then wrapInt 64 (toInt true (8 * size) x) else x

/-! ### Loads and stores (12 R266) -/

/-- A scalar local load. -/
def localLoad (d b : Reg) (z : BitVec 2) (off : BitVec 10) (signed : Bool) (s : State) : Out :=
  let n := sizeOf z.toNat
  withLocal (onePiece (s.g.ea b off n)) n n false (fun as s =>
    withWindowData as (fun s =>
      let x := leNat (as.flatMap s.poolRead)
      .next ((s.setS d (BitVec.ofNat 64 (extend n signed x))).retire 1)) s) s
/-- l.lds (12 R266). -/
def execLLds (d b : Reg) (z : BitVec 2) (o : BitVec 10) (s : State) : Out := localLoad d b z o true s
/-- l.lds.n (12 R266). -/
def execLLdsN (d b : Reg) (z : BitVec 2) (o : BitVec 10) (s : State) : Out := localLoad d b z o false s

/-- Lanes loaded from local accesses, in the order of the pieces. -/
def State.lanesRead (s : State) (ps : List (Nat × Int)) (as : List LocalAcc) (size : Nat) (signed : Bool) : SMap Nat :=
  (ps.zip as).map fun x => (x.1.1, extend size signed (leNat (s.poolRead x.2)))

/-- A vector local load of the given pieces. -/
def localLoadV (d : Reg) (ps : List (Nat × Int)) (size : Nat) (signed : Bool) (s : State) : Out :=
  withLocal ps size size false (fun as s =>
    withWindowData as (fun s =>
      let xs := s.lanesRead ps as size signed
      .next ((s.modG fun g => g.setV d fun i => BitVec.ofNat 32 (smGet 0 xs i)).retireV 3)) s) s

/-- A full-vector address must be a multiple of 128 where a lane is active (12 R264). -/
def withRow (a : Int) (k : State → Out) (s : State) : Out :=
  if s.g.lanes ≠ [] ∧ a % 128 ≠ 0 then .next (s.takeFault .misaligned (BitVec.ofInt 64 a)) else k s

/-- l.ldv (12 R266). -/
def execLLdv (d b : Reg) (o : BitVec 10) (s : State) : Out :=
  let a := s.g.ea b o 384
  withRow a (localLoadV d (s.g.rowPieces a) 4 false) s
/-- Element bytes of an indexed form (12 R261). -/
def elemBytes (e : BitVec 2) : Nat := 2 ^ e.toNat
/-- l.ldv.x (12 R266). -/
def execLLdvX (d a b : Reg) (g : BitVec 1) (e : BitVec 2) (s : State) : Out :=
  localLoadV d (s.g.indexPieces a b) (elemBytes e) (g = 1#1) s

/-- A local store of given pieces and data by lane. -/
def localStore (ps : List (Nat × Int)) (size : Nat) (data : Nat → Nat) (k : State → State) (s : State) : Out :=
  withLocal ps size size true (fun as s =>
    withStoreCount (storeBytes ps size data) (fun s =>
      .next (k (s.localWrite ((as.zip ps).map fun x => (x.1, leBytes size (data x.2.1)))))) s) s

/-- l.sts (12 R266). -/
def execLSts (d b : Reg) (z : BitVec 2) (o : BitVec 10) (s : State) : Out :=
  let n := sizeOf z.toNat
  let x := (s.g.sr d).toNat
  localStore (onePiece (s.g.ea b o n)) n (fun _ => x) (State.retire 1) s
/-- l.stv (12 R266). -/
def execLStv (d b : Reg) (o : BitVec 10) (s : State) : Out :=
  let a := s.g.ea b o 384
  let v := s.g.vr d
  withRow a (localStore (s.g.rowPieces a) 4 (fun i => (lane v i).toNat) (State.retireV 3)) s
/-- l.stv.x: the higher-numbered lane wins a byte that two lanes write (12 R266). -/
def execLStvX (d a b : Reg) (e : BitVec 2) (s : State) : Out :=
  let v := s.g.vr d
  localStore (s.g.indexPieces a b) (elemBytes e) (fun i => (lane v i).toNat) (State.retireV 3) s

/-! ### Full/empty forms (12 R268, R269; 09 R184, R185) -/

/-- Bytes of an F/E form: a word or a word pair. -/
def feSize (z : BitVec 1) : Nat := if z = 1#1 then 8 else 4

/-- Whether every word of an access has its F/E bit in a state. -/
def State.feAll (s : State) (a : LocalAcc) (full : Bool) : Bool := a.words.all fun o => s.feFull a.core o = full

/-- An F/E load: parks until the word is full, then reads it in one step with the change of its bit. -/
def feLoad (take : Bool) (d b : Reg) (z : BitVec 1) (off : BitVec 10) (s : State) : Out :=
  let n := feSize z
  withLocal (onePiece (s.g.ea b off n)) n n false (fun as s =>
    match as with
    | [] => .next s
    | a :: _ =>
      if !s.feAll a true then .next (s.park (.fe a.owner a.base n true))
      else withWindowData as (fun s =>
        let x := leNat (s.poolRead a)
        let s := if take then s.setFe a.core a.words false else s
        .next ((s.setS d (BitVec.ofNat 64 x)).retire 1)) s) s
/-- l.ldf.take (12 R268). -/
def execLLdfTake (d b : Reg) (z : BitVec 1) (o : BitVec 10) (s : State) : Out := feLoad true d b z o s
/-- l.ldf.peek (12 R268). -/
def execLLdfPeek (d b : Reg) (z : BitVec 1) (o : BitVec 10) (s : State) : Out := feLoad false d b z o s

/-- An F/E store. Through a window the fill is performed as it issues, after the earlier window stores of the path slot
to the same owner core, and is acknowledged later (11 R247). -/
def feStore (fill : Bool) (d b : Reg) (z : BitVec 1) (off : BitVec 10) (s : State) : Out :=
  let n := feSize z
  let x := (s.g.sr d).toNat
  let ps := onePiece (s.g.ea b off n)
  withLocal ps n n true (fun as s =>
    match as with
    | [] => .next s
    | a :: _ => withBefore a (fun s =>
      let s := if a.win.isSome then s.performBefore a.core else s
      if fill ∧ !s.feAll a false then .next (s.park (.fe a.owner a.base n false))
      else withStoreCount (storeBytes ps n fun _ => x) (fun s =>
        let s := if a.win.isSome ∧ !fill then s.addWinStore [a.part (leBytes n x) true]
          else
            let s := (s.poolWrite a (leBytes n x)).setFe a.core a.words true
            if a.win.isSome then s.addWinStore [] else s
        .next (s.retire 1)) s) s) s
/-- l.stf.fill (12 R268). -/
def execLStfFill (d b : Reg) (z : BitVec 1) (o : BitVec 10) (s : State) : Out := feStore true d b z o s
/-- l.stf.force (12 R268). -/
def execLStfForce (d b : Reg) (z : BitVec 1) (o : BitVec 10) (s : State) : Out := feStore false d b z o s

/-- The access of an l.fe form over [s[a], s[a] + s[b]); a length of 0 writes 0 and touches nothing. -/
def feRange (write : Bool) (d a b : Reg) (k : LocalAcc → State → State × Nat) (s : State) : Out :=
  let base := s.g.sr a
  let n := (s.g.sr b).toNat
  if base.toNat % 4 ≠ 0 then .next (s.takeFault .misaligned base)
  else if n % 4 ≠ 0 then .next (s.faultHere .misaligned)
  else if n = 0 then .next ((s.setS d 0).retire 1)
  else withLocal (onePiece base.toNat) n 4 write (fun as s =>
    match as with
    | [] => .next s
    | x :: _ =>
      let done (s : State) : Out :=
        let r := k x s
        let s := if write ∧ x.win.isSome then r.1.addWinStore [] else r.1
        .next ((s.setS d (BitVec.ofNat 64 r.2)).retire (1 + ceilDiv (n / 4) 32))
      if write then withBefore x (fun s => done (if x.win.isSome then s.performBefore x.core else s)) s
      else withWindowData as done s) s
/-- How many of an access's words have a bit in a state. -/
def State.feCount (s : State) (a : LocalAcc) (full : Bool) : Nat := (a.words.filter fun o => s.feFull a.core o = full).length
/-- l.fe.full: d is the number of words it changed (12 R269). -/
def execLFeFull (d a b : Reg) (s : State) : Out :=
  feRange true d a b (fun x s => (s.setFe x.core x.words true, s.feCount x false)) s
/-- l.fe.empty (12 R269). -/
def execLFeEmpty (d a b : Reg) (s : State) : Out :=
  feRange true d a b (fun x s => (s.setFe x.core x.words false, s.feCount x true)) s
/-- l.fe.test (12 R269). -/
def execLFeTest (d a b : Reg) (s : State) : Out := feRange false d a b (fun x s => (s, s.feCount x true)) s

/-! ### Windows (09 R186, R189; 12 R270, R271) -/

/-- Opens a window at the lowest free entry of 512; all ones where none is free. -/
def winOpen (sw : Bool) (d a : Reg) (writer : Nat) (s : State) : Out :=
  let g := s.g
  let addr := (g.sr a).toNat
  if addr % 128 ≠ 0 then .next (s.takeFault .misaligned (g.sr a))
  else if 2 ^ 24 ≤ addr ∨ !bitAt addr 23 ∨ g.allocBytes < addr % 2 ^ 20 + 128 then .next (s.takeFault .windowBounds (g.sr a))
  else match (List.range 512).find? fun w => (smFind (s.core g.core).wins w).isNone with
    | none => .next ((s.setS d (BitVec.allOnes 64)).retire 1)
    | some w =>
      let e : Win := { gid := g.gid, enc := g.enc, addr := addr, sw := sw, writer := writer, closing := false }
      let s := s.modCore g.core fun c => { c with wins := smPut c.wins w e }
      .next ((s.setS d (BitVec.ofNat 64 (g.core % 8 * 2 ^ 20 + w * 128))).retire 1)
/-- l.wopen.ro; its b field is ignored (12 R270). -/
def execLWopenRo (d a _b : Reg) (s : State) : Out := winOpen false d a 0 s
/-- l.wopen.sw: the writer is bits [47:0] of s[b] (12 R270). -/
def execLWopenSw (d a b : Reg) (s : State) : Out := winOpen true d a ((s.g.sr b).toNat % 2 ^ 48) s

/-- Whether an access that a window has admitted is still to be performed (09 R189). -/
def State.windowBusy (s : State) (core n : Nat) : Bool :=
  s.allGroups.any fun g =>
    (g.winStores.any fun w => w.parts.any fun p => p.core = core && p.win = n) ||
    ((g.winRet.map (·.1)).getD []).contains (core, n)

/-- l.wclose: holds its slot until the admitted accesses are performed; the entry is free after that (12 R271). No table names the
leaf of the held cycles: the model counts them as waiting, ST (log 70). -/
def execLWclose (a : Reg) (s : State) : Out :=
  let g := s.g
  let x := (g.sr a).toNat
  let n := bitsAt x 7 9
  if 2 ^ 24 ≤ x ∨ bitAt x 23 ∨ bitsAt x 16 4 ≠ 0 ∨ bitsAt x 20 3 ≠ g.core % 8 then .next (s.faultHere .windowBounds)
  else match smFind (s.core g.core).wins n with
    | none => .next (s.faultHere .windowBounds)
    | some w =>
      if w.gid ≠ g.gid then .next (s.faultHere .privilege)
      else if s.windowBusy g.core n then
        .next ((s.modCore g.core fun c => { c with wins := smPut c.wins n { w with closing := true } }).hold leafSt)
      else .next ((s.modCore g.core fun c => { c with wins := smErase c.wins n }).retire 1)

end Sys2Proof.Machine
end

