-- ==== Sys2Proof/Machine/Svt.lean ====
section
/-! DEFINITION. Stores reaching their ordering points (11 R233; 10 R225), and synchronisation variables with their
inferred scopes (11 R239 to R242). -/

namespace Sys2Proof.Machine

/-! ### Colours (10 R225) -/

/-- A request that used a translation of a die takes its colour; the colour's count rises. -/
def State.colourUp (s : State) (die n : Nat) : State :=
  s.modDie die fun d => if d.colour then { d with n1 := d.n1 + n } else { d with n0 := d.n0 + n }
/-- Requests of a colour reach their ordering points. -/
def State.colourDown (s : State) (die : Nat) (k : Bool) (n : Nat) : State :=
  s.modDie die fun d => if k then { d with n1 := d.n1 - n } else { d with n0 := d.n0 - n }

/-! ### Arrival of a buffered store -/

/-- A store reaches its ordering point: the class serves it, monitors latch STORE, the line's entry records its core, a recording
that knows the line and to which the group is outside learns of it (21 R394), and its colour falls. -/
def State.storeArrives (s : State) (e : BufEnt) : State :=
  let pa := (e.bytes.headD (0, 0)).1
  let part := (s.encl e.enc).part
  let die := dieOfCore e.core
  let cls := s.clsOf pa
  let s := match s.group e.gid with
    | some g => s.lookupEvent g part pa
    | none => s
  let s := (s.markOutside (pa / 64) (s.inReplay e.gid)).serveStore part cls die e.bytes e.stb
  let s := s.latchAll part cls ((s.classDef part cls).bind fun d => d.servedBy die) (fun l => l = pa / 64) .store
  let s := s.svtSee part die pa (.core e.core)
  match e.col with
  | some k => s.colourDown die k 1
  | none => s

/-- The physical address that names the line of a buffered store. -/
def BufEnt.pa (e : BufEnt) : Nat := (e.bytes.headD (0, 0)).1

/-- Entry `k` of a buffer is the earliest of its line. -/
def State.storeFirst (s : State) (cluster k : Nat) (e : BufEnt) : Bool :=
  !(((s.buf cluster).take k).any fun x => x.pa / 64 = e.pa / 64)

/-- Whether the serving point holds a buffered store. -/
def State.storeHeld (s : State) (e : BufEnt) : Bool :=
  s.svtBlocked (s.encl e.enc).part (dieOfCore e.core) e.pa (.core e.core)

/-- Entry `k` of a buffer may leave: no earlier entry is of its line, and the line's entry does not hold it. -/
def State.storeMayArrive (s : State) (cluster k : Nat) : Bool :=
  match (s.buf cluster)[k]? with
  | none => false
  | some e => s.storeFirst cluster k e && !s.storeHeld e

/-- The window stores of a group that a release ordered are performed. -/
def State.performOld (s : State) (gid seq : Nat) : State :=
  match s.group gid with
  | none => s
  | some g =>
    let old (w : WinStore) : Bool := w.seq ≤ seq
    let s := ((g.winStores.filter old).flatMap (·.parts)).foldl State.performPart s
    s.modGroup gid fun g => { g with winStores := g.winStores.map fun w => if old w then { w with parts := [] } else w }

/-- The stores that a cluster's buffer took before a sequence number reach their ordering points one after another, the release that
holds one being widened first: its own stores become visible, and its entry records the party (11 R242). Fuel bounds how far one
release waits for another. -/
def State.drainTo : Nat → Nat → Nat → State → State
  | fuel, cluster, seq, s =>
    ((s.buf cluster).filter fun e => e.seq < seq).foldl (fun s e =>
      if !(s.buf cluster).contains e then s
      else
        let die := s.svtDie (s.encl e.enc).part (dieOfCore e.core) e.pa
        let s := match fuel, if s.storeHeld e then s.svtOf die (e.pa / 64) else none with
          | n + 1, some v =>
            ((State.drainTo n (clusterOf v.relCore) v.relSeq s).performOld v.relGid v.relSeq).svtPut die
              { v.touch (.core e.core) with rel := false, want := none }
          | _, _ => s
        if !(s.buf cluster).contains e then s
        else (s.setBuf cluster ((s.buf cluster).filter fun x => x ≠ e)).storeArrives e) s

/-- Every store that a cluster's buffer took before a sequence number reaches its ordering point. -/
def State.drainBuf (s : State) (cluster seq : Nat) : State := State.drainTo 64 cluster seq s

/-- Whether some store that a release ordered is not yet visible at a scope that covers a party (11 R242). The releasing cluster
sees its buffer, and its members alone can reach a scratchpad through a window; another package or a host is covered once the
group's earlier transfers have completed at both ends. -/
def State.relPending (s : State) (e : Svt) (p : Party) : Bool :=
  let buffered := (s.buf (clusterOf e.relCore)).any fun b => b.seq < e.relSeq
  let remote := ((s.group e.relGid).map fun g => g.winStores.any fun w => w.seq ≤ e.relSeq).getD false
  let moving := s.xfers.any fun x => x.gid = e.relGid && x.seq < e.relSeq
  match p with
  | .core c => if clusterOf c = clusterOf e.relCore then remote else buffered
  | .hart => buffered
  | .remote | .host => buffered || moving

/-- Whether an entry's release can be made visible at system scope at once: what its eviction waits for (11 R242). -/
def State.svtSettled (s : State) (e : Svt) : Bool :=
  !e.rel || !(s.xfers.any fun x => x.gid = e.relGid && x.seq < e.relSeq) &&
    ((s.group e.relGid).map fun g => g.winStores.all fun w => e.relSeq < w.seq || w.parts.all s.partReady).getD true

/-- Whether a line has an entry, or can be given one now. -/
def State.svtRoom (s : State) (die line : Nat) : Bool :=
  (s.svtOf die line).isSome || (s.die die).svt.length < 4096 || (((s.die die).svt.getLast?).map s.svtSettled).getD true

/-- The stores of a release are made visible at system scope: its buffered stores reach their ordering points, and its window
stores are performed. -/
def State.settleRelease (s : State) (e : Svt) : State :=
  (s.drainBuf (clusterOf e.relCore) e.relSeq).performOld e.relGid e.relSeq

/-- Names a line's entry, allocating one where there is none; a full table evicts its oldest entry, whose release is
made visible first (11 R239, R242). -/
def State.svtName (s : State) (die line : Nat) (p : Party) : State :=
  match s.svtOf die line with
  | some e => s.svtPut die (e.touch p)
  | none =>
    let t := (s.die die).svt
    let s :=
      if t.length < 4096 then s
      else match t.getLast? with
        | some v =>
          (if v.rel then s.settleRelease v else s).modDie die fun d => { d with svt := d.svt.dropLast }
        | none => s
    let c := match p with | .core c => c | _ => 0
    let e : Svt := { rel := false, remote := false, host := false, line := line, cl := 0, multi := false, core := c, relCl := 0,
                     relMulti := false, relCore := 0, relGid := 0, relSeq := 0, want := none }
    s.svtPut die (e.touch p)

/-- Records a release through a variable (11 R241); what the group issues later has a later place in the order of issue. -/
def State.svtRelease (s : State) (die line core gid : Nat) : State :=
  match s.svtOf die line with
  | some e => { s with seq := s.seq + 1 }.svtPut die { e with
      rel := true, relCl := e.cl, relMulti := e.multi, relCore := core, relGid := gid, relSeq := s.seq, want := none }
  | none => s

/-- SVT_WIDENING: the release's stores have become visible at a scope that covers the party whose request is held; the entry
records that party and REL clears (11 R242). -/
def execSvtWidening (die k : Nat) (s : State) : Out :=
  match (s.die die).svt[k]? with
  | some e =>
    match e.want with
    | some p =>
      if e.rel ∧ !s.relPending e p then
        .next (s.modDie die fun d => { d with svt := d.svt.set k { e.touch p with rel := false, want := none } })
      else .next s
    | none => .next s
  | none => .next s

/-- A hub-die hart's access to a line: it is recorded, after a widening at once where a release holds it (11 R239, R242). -/
def State.hartTouch (s : State) (part pa : Nat) : State :=
  let die := s.svtDie part 0 pa
  match s.svtOf die (pa / 64) with
  | some e =>
    let s := if e.rel ∧ e.outside .hart then s.drainBuf (clusterOf e.relCore) e.relSeq else s
    s.svtPut die { e.touch .hart with rel := e.rel && !e.outside .hart, want := if e.outside .hart then none else e.want }
  | none => s

end Sys2Proof.Machine
end

