-- ==== Sys2Proof/Machine/Ending.lean ====
section
/-! DEFINITION. A hart's state as the dwords of 18 Table 18.6, and the end of an enclave (20 R366; 17 R331): what leaves
with it and what returns to the hypervisor. -/

namespace Sys2Proof.Machine

/-! ### A hart's state in dwords (18 Table 18.6) -/

/-- The enclave-visible state of a hart: 512 dwords. Inside an enclave, mode hs is S-mode. -/
def Hart.body (h : Hart) : List Word :=
  [h.pc] ++ (List.range 31).map (fun i => smGet 0 h.x (i + 1)) ++ (List.range 32).map (smGet 0 h.f) ++ [h.fcsr] ++
  (List.range 4).map (smGet 0 h.vcfg) ++ [b2w (h.mode = .hs)] ++ (List.range 10).map (smGet 0 h.csr) ++
  List.replicate 48 0 ++
  ((List.range 32).flatMap fun i => bytesDwords 4 (leBytes 32 (smGet 0 h.v i).toNat)) ++ List.replicate 256 0

/-- A hart loaded from such dwords; its mode is S-mode or U-mode. -/
def Hart.load (h : Hart) (ds : List Word) : Hart :=
  let dw (i : Nat) : Word := ds.getD i 0
  { h with
    pc := dw 0
    x := smSetAll 0 [] ((List.range 31).map fun i => (i + 1, dw (i + 1)))
    f := smSetAll 0 [] ((List.range 32).map fun i => (i, dw (32 + i)))
    fcsr := dw 64
    vcfg := smSetAll 0 [] ((List.range 4).map fun i => (i, dw (65 + i)))
    mode := if dw 69 = 0 then .u else .hs
    csr := smSetAll 0 [] ((List.range 10).map fun i => (i, dw (70 + i)))
    v := smSetAll 0 [] ((List.range 32).map fun i =>
      (i, BitVec.ofNat 256 (leNat (dwordBytes ((ds.drop (128 + 4 * i)).take 4))))) }

/-- Writes an integer register; x0 discards. -/
def Hart.setX (h : Hart) (r : Nat) (v : Word) : Hart := if r = 0 then h else { h with x := smSet 0 h.x r v }

/-- The state that enc.enter keeps: rd, the mode as a number, and the HS-mode state. -/
def Hart.saved (h : Hart) (rd : Nat) : List Word := [BitVec.ofNat 64 rd, b2w (h.mode = .hs)] ++ h.body

/-- A hart leaves its enclave: its HS-mode state returns, and rd of its enc.enter takes a value (20 R367, R368). -/
def Hart.leave (h : Hart) (v : Word) : Hart :=
  match h.hs with
  | some (rd :: m :: ds) => ({ h.load ds with mode := if m = 0 then .m else .hs, inside := none, hs := none }).setX rd.toNat v
  | _ => { h with inside := none }

/-- Every hart inside an enclave leaves with DEAD (20 Table 20.2). -/
def State.hartsLeave (s : State) (e : Nat) : State :=
  { s with harts := smMap {} (fun _ h => if h.inside = some e then h.leave 12 else h) s.harts }

/-! ### Residency (05 Table 5.7; 19 R357; 24 R402) -/

/-- Whether an interface still has a resident group, an engine operation, or a request that waits at the port on a core. A group
that has been evicted and has not ended keeps the entry while its requests wait (19 R357, R360; 24 R402; log 58). -/
def State.viOnCore (s : State) (core vi : Nat) : Bool :=
  let runs (gid : Nat) : Bool := ((s.group gid).map fun g => decide (s.viOf g.enc = vi)).getD false
  ((s.residents core).any fun g => s.viOf g.enc = vi) || !(s.portSeqs core vi).isEmpty || ((s.core core).copies.any fun x => runs x.gid) ||
    ((s.core core).tileq.any fun x => runs x.gid)

/-- Bucket entries whose last condition has lapsed are freed. -/
def State.dropBuckets (s : State) (core : Nat) : State :=
  s.modCore core fun c => { c with buckets := c.buckets.filter fun b => s.viOnCore core b.vi }

/-- A group is no more. -/
def State.dropGroup (s : State) (gid : Nat) : State :=
  match s.group gid with
  | none => s
  | some g =>
    let s := s.modCore g.core fun c => c.modSlot g.slot fun x => if x.bound = some gid then { x with bound := none } else x
    if s.g.gid = gid then { s with g := {}, focus := .none } else { s with groups := smErase s.groups gid }

/-- Zeroes physical frames in memory; nothing of them stays cached or poisoned. -/
def State.zeroFrames (s : State) (fs : List Nat) : State :=
  { s with
    mem := s.mem.filter fun c => !fs.contains (c.1 / 4096)
    lines := s.lines.filter fun l => !fs.contains (l.line / 4096)
    poison := s.poison.filter fun l => !fs.contains (l / 64) }

/-! ### Pool rows (09 R180) -/

/-- Rows return to FREE; their contents and F/E bits are zero. -/
def Core.freeRows (c : Core) (p : RowTag → Bool) : Core :=
  let rs := (c.rows.filter fun r => p r.2).map (·.1)
  { c with
    rows := smFilter (fun _ r => !p r) c.rows
    pool := c.pool.filter fun x => !rs.contains (x.1 / 4096)
    fe := c.fe.filter fun x => !rs.contains (x.1 / 1024) }

/-- Rows that hold a LOCAL fabric window stay LIVE without their team until it is CLOSED (25 R409). -/
def Core.holdRows (c : Core) (keep : List Nat) (team : Nat) : Core :=
  { c with rows := c.rows.map fun (r : Nat × RowTag) =>
      if keep.contains r.1 && r.2.team = team then (r.1, { r.2 with team := 0 }) else r }

/-! ### Lamplight units of an enclave that ends (21 R375) -/

/-- A guest's session on a core ends. -/
def Core.releaseUnits (c : Core) (e : Nat) : Core :=
  let b := c.bank
  let u := c.trace
  { c with
    bank := if b.holder = some (.enc e) then {}
      else if b.suspended = some e then { holder := b.holder, snap := b.snap } else b
    trace := if u.holder = some (.enc e) then {}
      else if u.suspended = some e then { holder := u.holder, ctl := u.ctl, base := u.base, size := u.size } else u }

/-- The engine operations of groups that end stop on a core, with their lock ranges and tags; `xs` are their transfers there. -/
def Core.stopEngines (c : Core) (gids : List Nat) (e : Nat) (xs : List Xfer) : Core :=
  let ops := ((c.copies.filter fun x => gids.contains x.gid).map (·.id)) ++
    ((c.tileq.filter fun x => gids.contains x.gid).map (·.lock)) ++ xs.map (·.id)
  let tags := (c.copies.filter fun x => gids.contains x.gid).map (·.tag) ++ xs.map (·.tag)
  { c with
    copies := c.copies.filter fun x => !gids.contains x.gid
    tileq := c.tileq.filter fun x => !gids.contains x.gid
    locks := c.locks.filter fun r => !(ops.contains r.op || (r.far && r.enc = e))
    tagBusy := tags.foldl (fun m t => m &&& ~~~(BitVec.ofNat 64 (2 ^ t))) c.tagBusy
    mons := c.mons.filter fun m => !gids.contains m.1 }

/-! ### Invalidations (10 R224 to R226) -/

/-- Whether an invalidation names a page of a translation entry. -/
def InvScopeHits (sc : InvScope) (t : Tlb) : Bool :=
  match sc with
  | .range a lo hi => t.asid = a && t.pages.any fun p => lo < p.1 + p.2.2 && p.1 < hi
  | .asid a => t.asid = a
  | .all => true
  | .frames f n => t.pages.any fun p => f * 4096 < p.2.1 + p.2.2 && p.2.1 < (f + n) * 4096

/-- The count of requests of a colour in flight. -/
def Die.count (d : Die) (k : Bool) : Nat := if k then d.n1 else d.n0

/-- A DTU accepts an invalidation: matching entries, those that copy commands hold among them, and its walks go, and its colour
flips (steps 1 to 3). -/
def State.acceptInval (s : State) (die : Nat) (sc : InvScope) : State :=
  let s := s.modDie die fun d => { d with
    llt := d.llt.filter fun t => !InvScopeHits sc t, walks := [], colour := !d.colour, inval := some sc, accepted := d.accepted + 1 }
  { s with cores := smMap {} (fun k c =>
      if dieOfCore k = die then { c with
        l1 := c.l1.filter fun t => !InvScopeHits sc t
        copies := c.copies.map fun x => { x with pages := x.pages.filter fun t => !InvScopeHits sc t } } else c) s.cores }

/-- INVALIDATION: posted to all four DTUs; one that is at work takes it later. -/
def State.postInval (s : State) (sc : InvScope) : State :=
  (List.range 4).foldl (fun s d =>
    if (s.die d).inval.isSome then s.modDie d fun x => { x with invalQ := x.invalQ ++ [sc] } else s.acceptInval d sc) s
/-- Maximal runs of consecutive numbers of an ascending list: first and length. -/
def frameRuns : List Nat → List (Nat × Nat)
  | [] => []
  | f :: fs =>
    match frameRuns fs with
    | (g, n) :: rest => if g = f + 1 then (f, n + 1) :: rest else (f, 1) :: (g, n) :: rest
    | [] => [(f, 1)]

/-- A change to the ownership of some frames is followed by an invalidation by frame range (10 R219). -/
def State.invalFrames (s : State) (fs : List Nat) : State :=
  (frameRuns fs).foldl (fun s r => s.postInval (.frames r.1 r.2)) s

/-- Lowers a lease count: a fall on the die whose Chandler raised it (10 R217, R220; log 33). -/
def State.lowerLease (s : State) (die f : Nat) : State :=
  let p := s.potOf f
  (s.setPot f { p with leases := p.leases - 1, stat := if p.stat = 2 ∧ p.leases ≤ 1 then 1 else p.stat }).modDie die fun d =>
    { d with leaseFalls := d.leaseFalls + 1 }

/-! ### The end of an enclave (20 R366; 17 R331 steps 1 to 4) -/

/-- The cycles that a slot counted for an enclave that ends count for none of the enclaves that may take its id (21 R377). -/
def Slot.forget (x : Slot) (e : Nat) : Slot :=
  { x with leaves := x.leaves.foldl (fun m k =>
      let key := if k.1 / 32 = e then k.1 % 32 else k.1
      smSet 0 m key (smGet 0 m key + k.2)) [] }

/-- What a core loses when an enclave ends. -/
def Core.endEnclave (c : Core) (e : Nat) (gids teams : List Nat) (xs : List Xfer) : Core :=
  let c := ((c.stopEngines gids e xs).freeRows fun r => r.owner = e).releaseUnits e
  { c with
    slot0 := c.slot0.forget e
    slot1 := c.slot1.forget e
    wins := smFilter (fun _ w => w.enc ≠ e) c.wins
    near := c.near.filter fun l => l.owner ≠ e
    l1 := c.l1.filter fun t => t.enc ≠ e
    staging := smFilter (fun _ q => !teams.contains q.team) c.staging }

/-- What a die loses when an enclave ends. -/
def Die.endEnclave (d : Die) (e : Nat) : Die :=
  { d with
    llt := d.llt.filter fun t => t.enc ≠ e
    walks := d.walks.filter fun w => w.enc ≠ e
    blocks := d.blocks.filter fun b => b.enc ≠ e }

/-- The far requests of groups that end no longer count under their colours. -/
def State.uncolour (s : State) (gids : List Nat) (e : Nat) : State :=
  let cols : List (Nat × Bool × Nat) :=
    ((s.allGroups.filter fun g => gids.contains g.gid).flatMap fun g =>
      (g.reqs.filterMap fun r => r.col.map fun c => (dieOfCore g.core, c.1, if r.data.isSome then 0 else c.2)) ++
      (g.fifo.filterMap fun r => r.col.map fun c => (dieOfCore g.core, c.1, c.2))) ++
    (s.bufs.flatMap fun b => (b.2.filter fun x => x.enc = e).filterMap fun x => x.col.map fun c => (b.1 / 16, c, 1)) ++
    ((s.xfers.filter fun x => x.enc = e).filterMap fun x => x.col.map fun c => (dieOfCore x.core, c.1, c.2))
  cols.foldl (fun s c => s.colourDown c.1 c.2.1 c.2.2) s

/-- The ranks of an enclave's collective windows become gone in their groups (25 R417). -/
def State.membersGone (s : State) (e : Nat) : State :=
  let ms := (s.fwins.filter fun w => w.enc = e && bitAt (w.desc.getD 2 0).toNat 2).map fun w =>
    (bitsAt (w.desc.getD 3 0).toNat 32 12, bitsAt (w.desc.getD 3 0).toNat 0 11)
  { s with cgroups := s.cgroups.map fun c =>
      { c with gone := c.gone ++ (ms.filter fun m => m.1 = c.cgroup && !c.gone.contains m.2).map (·.2)
               contribs := c.contribs.filter fun x => x.enc ≠ e } }

/-- A window of an enclave that ends keeps its id and the puts it has admitted, with no memory, until its peer has acknowledged
(25 R413). -/
def FWin.orphan (e : Nat) (create : Word) (w : FWin) : Option FWin :=
  if w.enc ≠ e then some w
  else if (w.desc.getD 2 0).toNat % 8 = 0 && !bitAt (w.desc.getD 2 0).toNat 5 || w.opener.isSome then none
  else some { w with enc := 0, stat := .closing, frames := [], rows := [], ghost := some (e, create) }

/-- A transfer of an enclave that ends is discarded before it leaves; one that has left is in flight until it returns (25 R413). -/
def Xfer.orphan (e : Nat) (create : Word) (x : Xfer) : Option Xfer :=
  if x.enc ≠ e then some x
  else if x.port ≠ 0 then none
  else some { x with enc := 0, gid := 0, wid := 65536, ghost := some (e, create) }

/-- Fabric bucket entries: one for each interface with a window that is not CLOSED (25 R406; log 21). -/
def State.fixFabBuckets (s : State) : State :=
  let vis := uniq ((s.fwins.filter fun w => w.enc ≠ 0).map fun w => s.viOf w.enc)
  let kept := s.fabBuckets.filter fun b => vis.contains b.vi
  { s with fabBuckets := kept ++ (vis.filter fun v => !kept.any fun b => b.vi = v).map fun v => ⟨v, false, 0, 0, 1⟩ }

/-- Ends an enclave: harts leave, work stops, windows close, frames and rows are zeroed and freed, its control
frames, version table and save area return to owner 0, and then its key slots are zero. -/
def State.endEnclave (s : State) (e : Nat) : State :=
  let x := s.encl e
  let gids := (s.allGroups.filter fun g => g.enc = e).map (·.gid)
  let tids := (s.tasks.filter fun t => t.2.enc = e).map (·.1)
  let teams := (s.teams.filter fun t => tids.contains t.2.task).map (·.1)
  let s := (s.hartsLeave e).uncolour gids e
  let s := gids.foldl State.dropGroup s
  let s := s.membersGone e
  let mine := (s.pot.filter fun p => p.2.owner = e).map (·.1)
  let leased := ((s.tasks.filter fun t => t.2.enc = e).flatMap fun t => t.2.frames) ++ x.pinned ++
    ((s.fwins.filter fun w => w.enc = e).flatMap fun w => (uniq w.frames).filter fun f => (s.potOf f).stat ≠ 3)
  let keep := addrs (x.ecs / 4096) 3 ++ addrs (x.pvt / 4096) (ceilDiv (x.pvtn * 32) 4096)
  let saves := addrs (x.save / 4096) x.saven
  let s := { s with
    tasks := smFilter (fun t _ => !tids.contains t) s.tasks
    teams := smFilter (fun t _ => !teams.contains t) s.teams
    cores := smMap {} (fun k c => c.endEnclave e gids teams (s.xfers.filter fun x => x.enc = e && x.core = k)) s.cores
    dies := smMap {} (fun _ d => d.endEnclave e) s.dies
    bufs := smMap [] (fun _ b => b.filter fun y => y.enc ≠ e) s.bufs
    fwins := s.fwins.filterMap (FWin.orphan e x.create)
    xfers := s.xfers.filterMap (Xfer.orphan e x.create)
    dead := s.dead ++ x.streams.filter fun (t : Nat × Stream) => t.2.bound
    tdis := s.tdis.map fun (t : Nat × Tdi) =>
      if t.2.stream.isSome && t.2.enc = e then (t.1, { t.2 with run := false, stream := none, key := 0 }) else t
    encs := smErase s.encs e
    keys := smErase s.keys e }
  let s := leased.foldl (·.lowerLease (s.admitDie x.part)) s
  let s := s.zeroFrames (mine ++ keep ++ saves)
  let s := mine.foldl (fun s f => s.setPot f (if keep.contains f then { stat := 1 } else {})) s
  let s := s.invalFrames mine
  ((List.range 512).foldl (fun s c => if (s.core c).buckets.isEmpty then s else s.dropBuckets c) s).fixFabBuckets

/-! ### The error log (17 R333) -/

/-- Writes an error log record; a full log overwrites its oldest. -/
def State.logError (s : State) (kind unit part ix addr remain : Nat) : State :=
  let r : List Word := [BitVec.ofNat 64 (kind * 2 ^ 56 + unit * 2 ^ 48 + part * 2 ^ 40 + ix), BitVec.ofNat 64 addr,
    BitVec.ofNat 64 remain, BitVec.ofNat 64 s.hubClock]
  let l := s.errlog ++ [r]
  { s with errlog := l.drop (l.length - 256), errTotal := s.errTotal + 1 }

/-- An enclave whose sealed image fails on resume ends, with a record that names its partition (18 R349). -/
def State.endTampered (s : State) (e : Nat) : State :=
  let p := (s.encl e).part
  (s.endEnclave e).logError 1 0xFF p 0 0 0

/-! ### Resets (17 R331; 27 R433) -/

/-- A partition reset: its enclaves end, and its lines and class tables are cleared without write-back. -/
def State.partitionReset (s : State) (p : Nat) : State :=
  let es := (s.encs.filter fun e => e.2.part = p && (e.2.live || e.2.making.isSome)).map (·.1)
  let s := es.foldl State.endEnclave s
  let mine (c : Nat) : Bool := bitAt (s.part p).clusters (clusterOf c)
  let s := { s with
    lines := s.lines.filter fun l => l.part ≠ p
    classes := smFilter (fun k _ => k / 64 ≠ p) s.classes
    cores := smMap {} (fun k c => if mine k then { c with near := [] } else c) s.cores }
  s.logError 2 0 p 0 0 0

/-- The steps of the boot order that pass: an image must carry both signatures valid, and step 4 trains the memory (18 R340;
27 Table 27.1). Steps 6 and 7 check nothing. -/
def bootSteps (sigs : List (Bool × Bool)) (trained : Bool) : Nat :=
  let ok := (List.range 5).takeWhile fun k => sigs.getD k (false, false) = (true, true) && (k ≠ 3 || trained)
  if ok.length = 5 then 7 else ok.length

/-- The machine after the boot order: the frames that step 6 sets to firmware are so, and hart 0 is released; a package whose step
fails stops there with no hart and no die released (27 R433). -/
def bootState (fw : Firmware) : State :=
  let n := bootSteps fw.sigs fw.trained
  if n = 7 then { State.reset with fw := fw, pot := fw.frames.foldl (fun m f => smSet {} m f { stat := 7 }) [] }
  else { State.reset with fw := fw, harts := [], boot := n, running := false }

/-- A package reset: everything is as after the boot order, but for the error log and the retired units; `trip` is TRIP. -/
def State.packageReset (s : State) (trip : Bool) : State :=
  let s := s.logError 2 0xFF 0xFF 0 0 0
  { bootState s.fw with
    errlog := s.errlog, errTotal := s.errTotal, retired := s.retired, trip := trip, fresh := s.fresh, outbox := s.outbox, seq := s.seq }

end Sys2Proof.Machine
end

