-- ==== Sys2Proof/Machine/Seal.lean ====
section
/-! DEFINITION. Sealed images and the version table (18 R336, R338, R343, R344), row claims and staging images (18 R348,
R349; 09 R181), and their restoring. -/

namespace Sys2Proof.Machine

/-! ### The version table (18 Table 18.3) -/

/-- Kinds of sealed images. -/
def kindPage : Nat := 1
/-- A pool row. -/
def kindRow : Nat := 2
/-- A staging or hart context. -/
def kindCtx : Nat := 3

/-- Dword `k` of a version-table entry. -/
def State.pvtDw (s : State) (e i k : Nat) : Nat := leNat (s.memBytes ((s.encl e).pvt + 32 * i + 8 * k) 8)

/-- The valid entry of a kind and object. -/
def State.pvtFind (s : State) (e kind obj : Nat) : Option Nat :=
  (List.range (s.encl e).pvtn).find? fun i =>
    s.pvtDw e i 0 = 2 ^ 63 + kind && s.pvtDw e i 1 = obj

/-- The lowest free entry. -/
def State.pvtFree (s : State) (e : Nat) : Option Nat :=
  (List.range (s.encl e).pvtn).find? fun i => !bitAt (s.pvtDw e i 0) 63

/-- How many entries are free, counted up to two. -/
def State.pvtRoom (s : State) (e n : Nat) : Bool :=
  n ≤ ((List.range (s.encl e).pvtn).filter fun i => !bitAt (s.pvtDw e i 0) 63).length

/-- Writes an entry. -/
def State.pvtWrite (s : State) (e i : Nat) (d0 obj version cg : Nat) : State :=
  let a := (s.encl e).pvt + 32 * i
  (s.memWrite ((addrs a 32).zip (leBytes 8 d0 ++ leBytes 8 obj ++ leBytes 8 version ++ leBytes 8 cg))).countMem [a / 64] true

/-- Invalidates an entry and frees its granules. -/
def State.pvtDrop (s : State) (e i : Nat) : State :=
  let cg := s.pvtDw e i 3
  let gs := addrs (cg % 2 ^ 32) (cg / 2 ^ 32)
  (s.pvtWrite e i 0 0 0 0).modEnc e fun x => { x with granules := x.granules.filter fun g => !gs.contains g }

/-! ### Images (18 R343) -/

/-- The info string of an enclave's sealing key: the bytes "seal", the enclave id and CREATE (18 R337). -/
def Enclave.sealInfo (x : Enclave) : List Byte := [0x73#8, 0x65#8, 0x61#8, 0x6C#8] ++ leBytes 8 x.id ++ leBytes 8 x.create.toNat

/-- The header of an image. -/
def imageHeader (kind enc obj version len : Nat) : List Byte :=
  leBytes 8 0x5345414C4C425639 ++ leBytes 8 (kind * 2 ^ 32 + enc) ++ leBytes 8 obj ++ leBytes 8 version ++ leBytes 8 len ++
    List.replicate 24 0

/-- The nonce of an image. -/
def imageNonce (kind version : Nat) : List Byte := leBytes 4 kind ++ leBytes 8 version

/-- A body under its key stream; the same operation both ways. -/
def gcmBody (key : BitVec 256) (nonce body : List Byte) : List Byte :=
  body.zipIdx.map fun b => b.1 ^^^ Config.gcmStream key nonce b.2

/-- The tag of a sealed body, as its 16 bytes. -/
def gcmTag (key : BitVec 256) (nonce aad c : List Byte) : List Byte := leBytes 16 (Config.gcmTag key nonce aad c).toNat

/-- Both signatures of a hash by the Sconce's identity keys: Ed25519, then ML-DSA-65 (18 R340). -/
def signatures (h : List Byte) : List Byte := leBytes 64 (Config.signEd25519 h).toNat ++ leBytes 3309 (Config.signMlDsa65 h).toNat

/-- Seals a body under the next version of MCTR: the image, its version, and the state (18 R338). -/
def State.sealImage (s : State) (e kind obj : Nat) (body : List Byte) : List Byte × Nat × State :=
  let x := s.encl e
  let v := x.mctr.toNat
  let h := imageHeader kind e obj v body.length
  let key := Config.sealKey x.sealInfo
  let n := imageNonce kind v
  let c := gcmBody key n body
  (h ++ c ++ gcmTag key n h c, v, s.modEnc e fun x => { x with mctr := x.mctr + 1 })

/-- Why an image is not accepted. -/
inductive ImageBad where
  | stale | tampered
  deriving DecidableEq, Repr

/-- Accepts an image of `len` body bytes: the steps of 18 R344 in order, then its version-table entry is invalidated. LENGTH is no
field of step 1; the tag covers it. -/
def State.openImage (s : State) (e kind obj len : Nat) (img : List Byte) : Except ImageBad (List Byte × State) :=
  let dw (i : Nat) : Nat := leNat ((img.drop (8 * i)).take 8)
  if dw 0 ≠ 0x5345414C4C425639 ∨ dw 1 / 2 ^ 32 ≠ kind ∨ dw 1 % 2 ^ 32 / 2 ^ 14 ≠ 0 ∨ dw 4 / 2 ^ 32 ≠ 0 ∨ dw 5 ≠ 0 ∨ dw 6 ≠ 0 ∨ dw 7 ≠ 0
  then .error .stale
  else if dw 1 % 2 ^ 14 ≠ e ∨ dw 2 ≠ obj then .error .stale
  else match s.pvtFind e kind obj with
    | none => .error .stale
    | some i =>
      if s.pvtDw e i 2 ≠ dw 3 then .error .stale
      else
        let key := Config.sealKey (s.encl e).sealInfo
        let n := imageNonce kind (dw 3)
        let c := (img.drop 64).take len
        if dw 4 ≠ len ∨ (img.drop (64 + len)).take 16 ≠ gcmTag key n (img.take 64) c then .error .tampered
        else .ok (gcmBody key n c, s.pvtDrop e i)

/-! ### Save-area granules -/

/-- The lowest run of `n` free granules of an enclave's save area. -/
def Enclave.granuleRun (x : Enclave) (n : Nat) : Option Nat :=
  (List.range (x.saven + 1 - n)).find? fun g => n ≤ x.saven && (addrs g n).all fun i => !x.granules.contains i

/-- Takes granules, seals a body into them, and writes the version-table entry after it. -/
def State.sealToSave (s : State) (e kind obj : Nat) (body : List Byte) : Option State :=
  let n := ceilDiv (64 + body.length + 16) 4096
  match (s.encl e).granuleRun n, s.pvtFree e with
  | some g, some i =>
    let r := s.sealImage e kind obj body
    let t := r.2.2.modEnc e fun x => { x with granules := x.granules ++ addrs g n }
    let a := (s.encl e).save + 4096 * g
    let t := (t.memWrite ((addrs a r.1.length).zip r.1)).countMem (lineChunks a r.1.length) true
    some (t.pvtWrite e i (2 ^ 63 + kind) obj r.2.1 (n * 2 ^ 32 + g))
  | _, _ => none

/-- Restores a body of `len` bytes from the save area. -/
def State.openFromSave (s : State) (e kind obj len : Nat) : Except ImageBad (List Byte × State) :=
  match s.pvtFind e kind obj with
  | none => .error .stale
  | some i =>
    let a := (s.encl e).save + 4096 * (s.pvtDw e i 3 % 2 ^ 32)
    (s.countMem (((s.encl e).pvt + 32 * i) / 64 :: lineChunks a (64 + len + 16)) false).openImage e kind obj len (s.memBytes a (64 + len + 16))

/-! ### Row and staging images -/

/-- The object id of a row or of a staging image (18 Table 18.4). -/
def rowObj (grid team sub half ix : Nat) : Nat := grid * 2 ^ 40 + team * 2 ^ 24 + sub * 2 ^ 16 + half * 2 ^ 8 + ix

/-- POOLW of a task's record. -/
def Task.poolw (t : Task) : Nat := recDw t.rcd 0x10 % 2 ^ 32
/-- Register rows. -/
def Task.regRows (t : Task) : Nat := bitsAt t.poolw 0 8
/-- Scratchpad rows. -/
def Task.scrRows (t : Task) : Nat := bitsAt t.poolw 8 8
/-- Accumulator rows. -/
def Task.accRows (t : Task) : Nat := bitsAt t.poolw 16 8
/-- All rows on one core. -/
def Task.rowsPerCore (t : Task) : Nat := t.regRows + t.scrRows + t.accRows
/-- PAIR. -/
def Task.pair (t : Task) : Bool := bitAt (recDw t.rcd 0x10) 32
/-- GROUPS. -/
def Task.groups (t : Task) : Nat := bitsAt (recDw t.rcd 8) 16 6

/-- A group's register rows as bytes (01 Table 1.5); the last 1,408 are private to the device (log 10). -/
def Group.rowBytes (g : Group) : List Byte :=
  ((List.range 64).flatMap fun i => (smGet vzero g.vring i).flatMap fun x => leBytes 4 x.toNat) ++
  ((List.range 16).flatMap fun i => (smGet vzero g.vfix (48 + i)).flatMap fun x => leBytes 4 x.toNat) ++
  ((List.range 64).flatMap fun i => leBytes 8 (smGet 0 g.sring i).toNat) ++
  ((List.range 16).flatMap fun i => leBytes 8 (g.rd (g.loc (BitVec.ofNat 6 (48 + i)))).toNat) ++
  (List.range 1408).map (Config.haltedByte g.gid)

/-- The body of a row's image: a register row from its group, another row from the pool, a scratchpad row with its F/E
bits. -/
def State.rowBody (s : State) (core row : Nat) (t : Team) (x : Task) (ix : Nat) : List Byte :=
  let c := s.core core
  if ix < x.regRows then
    match s.allGroups.find? fun g => g.team = t.id && g.core = core && g.ordinal = ix / 8 with
    | some g => (g.rowBytes.drop (ix % 8 * 4096)).take 4096
    | none => List.replicate 4096 0
  else
    let data := (addrs (row * 4096) 4096).map (memByte c.pool)
    if ix < x.regRows + x.scrRows then
      data ++ (List.range 128).map fun j => BitVec.ofNat 8
        ((List.range 8).foldl (fun b k => b + b2n (smGet false c.fe (row * 1024 + 8 * j + k)) * 2 ^ k) 0)
    else data

/-- Bytes of a restored row into the pool. -/
def State.putRow (s : State) (core row : Nat) (x : Task) (ix : Nat) (body : List Byte) : State :=
  if ix < x.regRows then s
  else s.modCore core fun c =>
    let c := { c with pool := memPutAll c.pool ((addrs (row * 4096) 4096).zip body) }
    if ix < x.regRows + x.scrRows then
      { c with fe := smSetAll false c.fe ((List.range 1024).map fun j => (row * 1024 + j, bitAt (body.getD (4096 + j / 8) 0).toNat (j % 8))) }
    else c

/-- HALF of a core in a team. -/
def Team.halfOf (t : Team) (core : Nat) : Nat := if 1 < t.cores.length then core % 2 else 0

/-- A tile status as 8 bytes (15 Table 15.3). -/
def TileStat.word (x : TileStat) : Nat := x.reruns * 2 ^ 24 + x.typ * 2 ^ 20 + b2n x.used * 2 ^ 16 + x.flags.toNat
/-- A tile status from 8 bytes. -/
def tileStatOf (n : Nat) : TileStat :=
  { used := bitAt n 16, flags := BitVec.ofNat 5 n, reruns := bitsAt n 24 8, typ := bitsAt n 20 4 }

/-- The staging image's body: the four quarters, their descriptors, and the team's tile statuses. -/
def State.stagingBody (s : State) (core team : Nat) : List Byte :=
  let c := s.core core
  let q (i : Nat) : Option Quarter := (smFind c.staging i).bind fun q => if q.team = team then some q else none
  let regs (i : Nat) : List Byte := ((q i).map fun q => q.regs.flatMap fun v => v.flatMap fun x => leBytes 4 x.toNat).getD []
  ((List.range 4).flatMap fun i => (regs i ++ List.replicate 24576 0).take 24576) ++
  ((List.range 4).flatMap fun i => match q i with
    | some q => leBytes 8 (2 ^ 63 + q.typ * 2 ^ 32 + q.k) ++ leBytes 8 q.team
    | none => List.replicate 16 0) ++
  (List.range 16).flatMap fun n => leBytes 8 (smGet {} c.tstat (team * 16 + n)).word

/-- Vector registers from bytes. -/
def regsOf (n : Nat) (bs : List Byte) : List VReg := (List.range n).map fun i => bytesLanes 96 (bs.drop (384 * i))

/-- A core takes the contents of a staging image. -/
def Core.putStaging (c : Core) (team : Nat) (body : List Byte) : Core :=
  let d (k : Nat) : Nat := leNat ((body.drop (98304 + 8 * k)).take 8)
  let c := (List.range 4).foldl (fun (c : Core) i =>
    if bitAt (d (2 * i)) 63 then
      let typ := bitsAt (d (2 * i)) 32 8
      let k := d (2 * i) % 2 ^ 32
      let n := if typ = 7 then k / 2 else k / 4
      { c with staging := smPut c.staging i ⟨typ, k, team, regsOf n (body.drop (24576 * i))⟩ }
    else c) c
  { c with tstat := (List.range 16).foldl (fun m n => smSet {} m (team * 16 + n) (tileStatOf (leNat ((body.drop (98368 + 8 * n)).take 8)))) c.tstat }

/-- A team's staging leaves a core. -/
def Core.clearStaging (c : Core) (team : Nat) : Core :=
  { c with staging := smFilter (fun _ q => q.team ≠ team) c.staging
           tstat := smFilter (fun k _ => k / 16 ≠ team) c.tstat }

/-! ### Claims (18 R348; 09 R181) -/

/-- Claims a CLAIMABLE row: the staging image first where it is the first accumulator row of its team claimed on the core,
then the row's image; the row is zeroed and becomes FREE. None where granules or version-table entries are too few. -/
def State.claimRow (s : State) (core row : Nat) : Option State :=
  let tag := smGet {} (s.core core).rows row
  match s.team tag.team with
  | none => none
  | some t =>
    match s.task t.task with
    | none => none
    | some x =>
      let e := tag.owner
      let acc := x.regRows + x.scrRows ≤ tag.ix
      let first := acc && !(t.lost.any fun l => l.1 = core && x.regRows + x.scrRows ≤ l.2) && !t.stagingLost.contains core
      if !s.pvtRoom e (if first then 2 else 1) then none
      else
        let half := t.halfOf core
        let staged : Option State :=
          if first then
            (s.sealToSave e kindCtx (rowObj x.grid t.index 1 half 0) (s.stagingBody core t.id)).map fun s =>
              (s.modCore core (·.clearStaging t.id)).modTeam t.id fun t => { t with stagingLost := t.stagingLost ++ [core] }
          else some s
        match staged with
        | none => none
        | some s1 =>
          (s1.sealToSave e kindRow (rowObj x.grid t.index 0 half tag.ix) (s.rowBody core row t x tag.ix)).map fun s2 =>
            (s2.modCore core fun c => c.freeRows fun r => r = tag).modTeam t.id fun t => { t with lost := t.lost ++ [(core, tag.ix)] }

/-- Of two claimable rows of a core, the one taken first: its team halted longer ago, then the higher row-map index, which
is the order of 09 R181 and 18 R348. Of teams that one event halted, the lower team number counts as halted first (log 29). -/
def State.claimsBefore (s : State) (a b : Nat × RowTag) : Bool :=
  let h (r : Nat × RowTag) : Nat := ((s.team r.2.team).map Team.haltedAt).getD 0
  h a < h b || (h a = h b && (a.2.team < b.2.team || (a.2.team = b.2.team && b.2.ix < a.2.ix)))

/-- The claimable row of a core to take next, not of a given team. -/
def State.nextClaim (s : State) (core notTeam : Nat) : Option Nat :=
  let rs := (s.core core).rows.filter fun r => r.2.stat = .claimable && r.2.team ≠ notTeam
  match rs with
  | [] => none
  | r :: rest => some (rest.foldl (fun a b => if s.claimsBefore b a then b else a) r).1

/-- FREE rows of a core, ascending. -/
def Core.freeList (c : Core) : List Nat := (List.range 256).filter fun r => (smFind c.rows r).isNone

/-- Makes `n` rows of a core FREE by claims. What claims have freed stays free where a later one fails (18 R350 example). -/
def State.makeRoom (s : State) (core notTeam n : Nat) : Nat → State
  | 0 => s
  | fuel + 1 =>
    if n ≤ (s.core core).freeList.length then s
    else match s.nextClaim core notTeam with
      | none => s
      | some r =>
        match s.claimRow core r with
        | none => s
        | some s' => State.makeRoom s' core notTeam n fuel

/-- FREE and CLAIMABLE rows of a core. -/
def State.rowsAvail (s : State) (core notTeam : Nat) : Nat :=
  (s.core core).freeList.length +
    ((s.core core).rows.filter fun r => r.2.stat = .claimable && r.2.team ≠ notTeam).length

/-- Tags a row as a team's. -/
def State.takeRow (s : State) (core row enc team ix : Nat) : State :=
  s.modCore core fun c => { c with rows := smPut c.rows row { stat := .live, owner := enc, team := team, ix := ix } }

/-! ### Restoring (18 R349) -/

/-- Restores one sealed row of a team into a row of a core that the team has taken; an image that fails ends the enclave. -/
def State.restoreRow (s : State) (e team core ix row : Nat) : State :=
  match s.team team with
  | none => s
  | some t =>
    match s.task t.task with
    | some x =>
      let scr := x.regRows ≤ ix && ix < x.regRows + x.scrRows
      match s.openFromSave e kindRow (rowObj x.grid t.index 0 (t.halfOf core) ix) (if scr then 4224 else 4096) with
      | .error _ => s.endTampered e
      | .ok (body, s) =>
        let s := s.putRow core row x ix body
        s.modTeam team fun t => { t with
          lost := t.lost.filter fun l => l ≠ (core, ix)
          rows := (t.cores.zip t.rows).map fun c => if c.1 = core then c.2.set ix row else c.2 }
    | none => s

/-- Restores a team's staging on a core before its first use there (18 R349). -/
def State.restoreStaging (s : State) (e team core : Nat) : State :=
  match s.team team with
  | none => s
  | some t =>
    if !t.stagingLost.contains core then s
    else match s.task t.task with
      | none => s
      | some x =>
        match s.openFromSave e kindCtx (rowObj x.grid t.index 1 (t.halfOf core) 0) 98496 with
        | .error _ => s.endTampered e
        | .ok (body, s) =>
          (s.modCore core (·.putStaging team body)).modTeam team fun t =>
            { t with stagingLost := t.stagingLost.filter (· ≠ core) }

/-- A staging image that its team never needed is discarded without a check (22 R395). -/
def State.discardStaging (s : State) (e : Nat) (t : Team) (x : Task) : State :=
  t.stagingLost.foldl (fun s core =>
    match s.pvtFind e kindCtx (rowObj x.grid t.index 1 (t.halfOf core) 0) with
    | some i => s.pvtDrop e i
    | none => s) s

end Sys2Proof.Machine
end

