-- ==== Sys2Proof/Machine/Errors.lean ====
section
/-! DEFINITION. Correctable errors and retirement, uncorrectable errors and their domains (17 R328 to R333), power and
temperature, the boot order (27 R433 to R436), and link flits (25 R403, R404). -/

namespace Sys2Proof.Machine

/-! ### Retirement (17 R328, R329) -/

/-- Units of a code that one die, or the package for link ports, has in all. -/
def unitTotal : UnitKind → Nat
  | .lane => 8192 | .pane => 1024 | .bank => 64 | .array => 128 | .link => 18 | .nearCache => 128

/-- The die of a unit's index (17 Table 17.4). -/
def unitDie (u : UnitKind) (ix : Nat) : Nat :=
  match u with
  | .lane => ix / 65536 | .pane => ix / 1024 | .bank => ix / 64 | .array => ix / 128 | _ => 0

/-- Lanes of a Tuilos port in service. -/
def State.portLanes (s : State) (port : Nat) : Nat :=
  8 - ((List.range 8).filter fun l => s.retired.contains (4, port * 8 + l)).length
/-- Whether a port is in service: at least 4 lanes (25 R404). -/
def State.portUp (s : State) (port : Nat) : Bool := 4 ≤ s.portLanes port

/-- Units of a code that remain in service on a unit's die, or ports in the package. A pipe's spare lane serves for its first
retired one, and a pipe with two is retired whole (17 Table 17.4). -/
def State.remaining (s : State) (u : UnitKind) (ix : Nat) : Nat :=
  let gone := (s.retired.filter fun r => r.1 = u.code && unitDie u r.2 = unitDie u ix).map (·.2)
  match u with
  | .link => ((List.range 18).filter s.portUp).length
  | .lane => unitTotal u - 32 * ((uniq (gone.map (· / 32))).filter fun p => 2 ≤ (gone.filter fun l => l / 32 = p).length).length
  | u => unitTotal u - gone.length

/-- Writes back and drops the lines of panes of a die that retire. -/
def State.dropPanes (s : State) (die : Nat) (p : Nat → Bool) : State :=
  (s.lines.filter fun l => l.die = die && p l.pane).foldl (fun s l => (s.writeBack l).dropLine l) s

/-- Retires a unit and writes its record; a port with fewer than 4 lanes leaves service with a record of its own. The panes of a
bank that retires are retired as panes, under the bank's one record (log 48). -/
def State.retireUnit (s : State) (u : UnitKind) (ix : Nat) : State :=
  let also : List (Nat × Nat) := match u with
    | .bank => ((addrs (16 * ix) 16).map fun p => (UnitKind.pane.code, p)).filter fun r => !s.retired.contains r
    | _ => []
  let t : State := { s with retired := s.retired ++ (u.code, ix) :: also }
  let t := match u with
    | .pane => t.dropPanes (ix / 1024) fun p => p = ix % 1024
    | .bank => t.dropPanes (ix / 64) fun p => p / 16 = ix % 64
    | _ => t
  let t := t.logError 0 u.code 0xFF ix 0 (t.remaining u ix)
  if u = .link ∧ s.portUp (ix / 8) ∧ !t.portUp (ix / 8) then t.logError 0 4 0xFF (ix / 8 * 8) 0 (t.remaining .link ix) else t

/-- A unit's key in the map of counts. -/
def errKey (u : UnitKind) (ix : Nat) : Nat := u.code * 2 ^ 32 + ix

/-- The clock of a unit: its core's, its die's, or the fabric's (17 R328). -/
def State.unitClock (s : State) (u : UnitKind) (ix : Nat) : Nat :=
  match u with
  | .lane => (s.core (ix / 65536 * 128 + ix % 65536 / 64)).cyc.toNat
  | .array | .nearCache => (s.core ix).cyc.toNat
  | .pane | .bank => s.dieClock (unitDie u ix)
  | .link => s.fabClock

/-- The window of 2^30 cycles in which a unit's clock stands. -/
def State.errWindow (s : State) (u : UnitKind) (ix : Nat) : Nat := s.unitClock u ix / 2 ^ 30

/-- A unit's count in its present window. -/
def State.errCount (s : State) (u : UnitKind) (ix : Nat) : Nat :=
  let e := smGet (0, 0) s.errs (errKey u ix)
  if e.1 = s.errWindow u ix then e.2 else 0

/-- A unit counts a correctable error; the fourth in one window retires it (17 R328). -/
def State.correctable (s : State) (u : UnitKind) (ix : Nat) : State :=
  if s.retired.contains (u.code, ix) then s
  else
    let n := s.errCount u ix + 1
    let s : State := { s with errs := smSet (0, 0) s.errs (errKey u ix) (s.errWindow u ix, n) }
    if n = 4 ∧ u ≠ .nearCache then s.retireUnit u ix else s

/-- A clean line whose check fails is invalidated and fetched again: a near-cache line of core `ix`, or a lantern line of pane
`ix` (17 R328). A dirty line is no matter of a correctable error. -/
def State.refetch (s : State) (u : UnitKind) (ix line : Nat) : State :=
  match u with
  | .nearCache =>
    ((s.core ix).near.filter fun l => l.line = line).foldl (fun s l =>
      (s.modCore ix fun c => c.nearDrop fun x => x.line = l.line && x.owner = l.owner).nearFill ix l.owner (s.encl l.owner).part
        (line * 64)) s
  | .pane =>
    (s.lines.filter fun l => l.die = ix / 1024 && l.pane = ix % 1024 && l.line / 64 ≤ line && line < (l.line + l.size) / 64 &&
      l.dirty = 0).foldl (fun s l =>
        (s.setLine { l with data := s.memBytes l.line l.size }).countMem (lineChunks l.line l.size) false) s
  | _ => s

/-- CORRECTABLE_ERROR: the unit counts it; `line` is the clean line whose check failed, where one did (17 R328). -/
def execCorrectableError (u : UnitKind) (ix : Nat) (line : Option Nat) (s : State) : Out :=
  .next ((match line with | some l => s.refetch u ix l | none => s).correctable u ix)

/-- ERROR_WINDOW_BOUNDARY: where the unit's clock has passed into a later window its count clears (17 R328). -/
def execErrorWindowBoundary (u : UnitKind) (ix : Nat) (s : State) : Out :=
  .next (if (smGet (0, 0) s.errs (errKey u ix)).1 = s.errWindow u ix then s
    else { s with errs := smSet (0, 0) s.errs (errKey u ix) (s.errWindow u ix, 0) })

/-! ### Keys (18 R339) -/

/-- The key slot of a frame's owner: an enclave's, owner 0's, or that of the commons group which CGROUP names. -/
def State.keySlot (s : State) (f : Nat) : KeySlot :=
  let p := s.potOf f
  if p.owner = 0 then ⟨Config.bootXts 0, Config.bootInteg 0⟩
  else if p.owner = 0x3FFF then ⟨Config.bootXts (p.cgroup + 1), Config.bootInteg (p.cgroup + 1)⟩
  else smGet {} s.keys p.owner

/-- The ciphertext that the memory holds of a 64-byte line; `State.mem` lists its plaintext. -/
def State.cipherLine (s : State) (line : Nat) : List Byte :=
  Config.xtsLine (s.keySlot (line / 64)).xts (line * 64) (s.memBytes (line * 64) 64)
/-- The integrity tag that the memory holds of a 64-byte line. -/
def State.lineTag (s : State) (line : Nat) : BitVec 32 :=
  Config.lineMac (s.keySlot (line / 64)).integ (s.cipherLine line) (line * 64)

/-! ### Uncorrectable errors (17 R330 to R332) -/

/-- A frame's POT entry; of one that moves, the entry it had before (10 R228). -/
def State.potSettled (s : State) (f : Nat) : Pot :=
  match s.migr.find? fun m => m.2.valid && (m.2.src = f || m.2.dst = f) with
  | some m => m.2.was
  | none => s.potOf f

/-- The partition of a frame's POT owner, if an enclave owns it, one still being made among them. -/
def State.framePart (s : State) (f : Nat) : Option Nat :=
  let o := (s.potSettled f).owner
  if o = 0 ∨ o = 0x3FFF then none else if (s.encl o).live || (s.encl o).making.isSome then some (s.encl o).part else none

/-- Resets a partition, or only writes a record where no partition owns what failed. -/
def State.resetDomain (s : State) (p : Option Nat) (addr : Nat) : State :=
  match p with
  | some p => s.partitionReset p
  | none => s.logError 1 0xFF 0xFF 0 addr 0

/-- An uncorrectable error of a memory line, by the state of its frame (17 Table 17.5). -/
def State.memError (s : State) (line : Nat) : State :=
  let f := line / 64
  let s := s.bumpChan (line * 64) 5 1
  match (s.potSettled f).stat with
  | 0 => ({ s with withheld := if s.withheld.contains f then s.withheld else s.withheld ++ [f] } : State).logError 1 0xFF 0xFF 0 (line * 64) 0
  | 6 =>
    let line := s.canon (line * 64) / 64
    { s with poison := if s.poison.contains line then s.poison else s.poison ++ [line] }
  | 7 => s.packageReset false
  | _ => s.resetDomain (s.framePart f) (line * 64)

/-- The partition that owns a Tuilos port. -/
def State.portPart (s : State) (port : Nat) : Option Nat :=
  (s.parts.find? fun p => p.2.valid && bitAt p.2.ports port).map (·.1)

/-- UNCORRECTABLE_ERROR (17 R330). -/
def execUncorrectableError (place : ErrAt) (s : State) : Out :=
  .next (match place with
    | .memLine l => s.memError l
    | .lanternLine l => s.resetDomain (s.framePart (l / 64)) (l * 64)
    | .poolRow c r =>
      let o := (smGet {} (s.core c).rows r).owner
      s.resetDomain (if (s.encl o).live then some (s.encl o).part else none) 0
    | .fabricFlit p => s.resetDomain (s.portPart p) 0
    | .packageUnit => s.packageReset false)

/-- DIE_TO_DIE_FLIT: the sixteenth consecutive failure is an uncorrectable error (25 R403). -/
def execDieToDieFlit (link : Nat) (crcOk : Bool) (enc : Nat) (s : State) : Out :=
  let n := if crcOk then 0 else smGet 0 s.linkRetry link + 1
  if n < 16 then .next { s with linkRetry := smSet 0 s.linkRetry link n }
  else
    let s := { s with linkRetry := smSet 0 s.linkRetry link 0 }
    .next (if (s.encl enc).live ∨ (s.encl enc).making.isSome then s.partitionReset (s.encl enc).part else s.packageReset false)

/-- TUILOS_FLIT: a flit that still fails after link retry resets the partition that owns the port (25 R404); a package
whose id is out of range accepts nothing (25 R405). -/
def execTuilosFlit (port : Nat) (ok : Bool) (s : State) : Out :=
  if ok ∨ 1536 ≤ s.pkgid ∨ !s.portUp port then .next s else .next (s.resetDomain (s.portPart port) 0)

/-! ### Power, temperature, boot (27) -/

/-- THR (27 R435). -/
def State.throttle (s : State) : State := { s with thr := s.plimit < s.pnow || 95 ≤ s.tmax }
/-- The temperature at which a die's sensor trips (27 R436). -/
def tripDegrees : Nat := 105

/-- THROTTLING: a new mean power and hottest sensor, which may trip (27 R435, R436). -/
def execThrottling (pnow tmax : Nat) (s : State) : Out :=
  .next (if tripDegrees ≤ tmax % 256 then s.packageReset true
    else ({ s with pnow := pnow % 2 ^ 16, tmax := tmax % 256 } : State).throttle)
/-- THERMAL_TRIP: the sensor of a die reads a temperature; at 105 °C the package resets with TRIP set (27 R436). -/
def execThermalTrip (_die temp : Nat) (s : State) : Out := .next (if tripDegrees ≤ temp then s.packageReset true else s)

/-- POWER_ON: the boot order of the package's firmware (27 R433). -/
def execPowerOn (sigs : List (Bool × Bool)) (trained : Bool) (frames : List Nat) (s : State) : Out :=
  .next { bootState ⟨sigs, trained, frames⟩ with fresh := s.fresh, outbox := s.outbox, seq := s.seq }

end Sys2Proof.Machine
end

