-- ==== Sys2Proof/Machine/Far.lean ====
section
/-! DEFINITION. Far loads, stores, prefetch and atomics as they issue (12 R262 to R265, R272 to R275; 11 R243), and the
fences (11 R237, R238, R241). What follows the issue happens in the events of Machine/FarEvents.lean. -/

namespace Sys2Proof.Machine

/-! ### Checks (12 R264, R265) -/

/-- What the first pass over the lanes of a far word answers; `miss` lists the pages that walks must translate. -/
inductive FarAll where
  | ok (rs : List (List Nat × Bool)) | bad (c : Code) (fra : Word) | miss (vas : List Nat)
  deriving DecidableEq, Repr

/-- The lowest lane that fails decides, once every lower lane is translated. -/
def farPass : List (FarRes × Int) → FarAll
  | [] => .ok []
  | (.bad c, a) :: _ => .bad c (BitVec.ofInt 64 a)
  | (.ok pas h, _) :: r =>
    match farPass r with
    | .ok rs => .ok ((pas, h) :: rs)
    | y => y
  | (.miss v, _) :: r => .miss (v :: r.filterMap fun x => match x.1 with | .miss w => some w | _ => none)

/-- One lane's checks: alignment first. -/
def State.farOne (s : State) (g : Group) (a : Int) (len align : Nat) (k : Acc) (at_ : Option Atom) : FarRes :=
  if a % (min align 128 : Nat) ≠ 0 then .bad .misaligned else s.farCheck g a len k at_

/-- The leaf of a wait: LD for loads and atomics, ST for stores (21 Table 21.2 step 4). -/
def accLeaf : Acc → Nat
  | .store => leafSt
  | _ => leafLd

/-- Pages of an access that the core's first level does not hold: a hit in the LLT adds 6 cycles (12 R265). -/
def State.lltPages (s : State) (g : Group) (vas : List Nat) (k : Acc) : List Nat :=
  (uniq (vas.map (· / 4096 * 4096))).filter fun p =>
    !((s.core g.core).l1.any fun t => t.hits g.enc (s.encl g.enc).asid p k) && (s.tlbFor g.core g.enc p k).isSome

/-- The translation of an access whose checks have passed: 6 cycles where a page hits in the LLT only, none where the access
waited for a walk, since the greatest of its pages counts, and the pages' entries in the core's first level (12 R265; log 37). -/
def State.translated (s : State) (g : Group) (vas : List Nat) (k : Acc) : State :=
  let pages := uniq (vas.map (· / 4096 * 4096))
  let s := if (s.lltPages g vas k).isEmpty || pages.any (s.walked g · k) then s else s.spend (accLeaf k) 6
  pages.foldl (fun s v => s.refill g v k) (s.clearWalks g)

/-- A far word's translation, faults and range locks, then its effect with the physical bytes of each lane. -/
def withFar (ps : List (Nat × Int)) (len align : Nat) (k : Acc) (at_ : Option Atom)
    (next : List (List Nat × Bool) → State → Out) (s : State) : Out :=
  let g := s.g
  match farPass (ps.map fun p => (s.farOne g p.2 len align k at_, p.2)) with
  | .bad c a => .next ((s.clearWalks g).takeFault c a)
  | .miss vs => .next ((vs.foldl (fun s v => s.startWalk g v k) s).hold (accLeaf k))
  | .ok rs =>
    match ps.find? fun p => (s.core g.core).lockedFar g.enc p.2.toNat len (k = .store || k = .atomic) with
    | some p => .next (s.takeTrap .rangeLocked (BitVec.ofInt 64 p.2))
    | none =>
      let vas := ((ps.zip rs).filter fun x => !x.2.2).flatMap fun x => [x.1.2.toNat, x.1.2.toNat + len - 1]
      next rs (s.translated g vas k)

/-- The lines of an access that a translation gave. -/
def pagedLines (rs : List (List Nat × Bool)) : List Nat := chunksOf ((rs.filter fun r => !r.2).flatMap (·.1))

/-- The requests of an access take the colour that their die's DTU has; heap accesses are not counted (10 R225). -/
def State.takeColour (s : State) (rs : List (List Nat × Bool)) : State × Option (Bool × Nat) :=
  let n := (pagedLines rs).length
  let die := dieOfCore s.g.core
  if n = 0 then (s, none) else (s.colourUp die n, some ((s.die die).colour, n))

/-! ### Loads (12 R272) -/

/-- Sends a request: it joins the group's outstanding requests, and LD rises unless it is a prefetch or an evt.wait. -/
def State.send (s : State) (r : Req) (rs : List (List Nat × Bool)) (counted : Bool) : State :=
  let c := s.takeColour rs
  let pas := rs.flatMap (·.1)
  let n := if r.atom.isSome then 1 else c.1.portCount c.1.g.core c.1.g.enc r.near pas
  let r := { r with seq := c.1.seq, col := c.2, port := n, sent := 0 }
  { c.1 with
    seq := c.1.seq + 1
    g := { (if counted then c.1.g.modP fun p => { p with ld := p.ld + 1 } else c.1.g) with reqs := c.1.g.reqs ++ [r] } }

/-- A request without its lanes. -/
def blankReq (g : Group) (vec : Bool) (dst : RLoc) (size : Nat) (signed near pf : Bool) (elems : List Elem)
    (atom : Option Atom) : Req :=
  { seq := 0, pathF := g.curF, vec := vec, dst := dst, size := size, signed := signed, near := near, pf := pf
    elems := elems, atom := atom, data := none, wrote := 0, port := 0, sent := 0, col := none, gate := false, gateFrom := 0 }

/-- A load counts once in LD, however many lines it touches; a counter at 63 holds it (01 R19). -/
def farLoad (ps : List (Nat × Int)) (vec : Bool) (dst : RLoc) (size align : Nat) (signed near : Bool)
    (k : State → State) (s : State) : Out :=
  withFar ps size align .load none (fun rs s =>
    if 63 ≤ s.g.p.ld then .next (s.hold leafLd)
    else
      let es := (ps.zip rs).map fun x => { lane := x.1.1, va := x.1.2.toNat, pas := x.2.1 }
      .next (k (s.send (blankReq s.g vec dst size signed near false es none) rs true))) s

/-- A scalar far load. -/
def farLoadS (d b : Reg) (z : BitVec 2) (o : BitVec 10) (signed near : Bool) (s : State) : Out :=
  let n := sizeOf z.toNat
  farLoad (onePiece (s.g.ea b o n)) false (s.g.loc d) n n signed near (State.retire 1) s
/-- f.lds (12 R272). -/
def execFLds (d b : Reg) (z : BitVec 2) (o : BitVec 10) (s : State) : Out := farLoadS d b z o true true s
/-- f.lds.n (12 R272). -/
def execFLdsN (d b : Reg) (z : BitVec 2) (o : BitVec 10) (s : State) : Out := farLoadS d b z o false true s
/-- f.ldb skips the near cache and zero-extends (12 R272). -/
def execFLdb (d b : Reg) (z : BitVec 2) (o : BitVec 10) (s : State) : Out := farLoadS d b z o false false s

/-- A word with no active lane makes no access and changes no counter (12 R263). -/
def withLanes (ps : List (Nat × Int)) (k : State → Out) (s : State) : Out := if ps.isEmpty then .next (s.retireV 3) else k s

/-- f.ldv (12 R272). -/
def execFLdv (d b : Reg) (o : BitVec 10) (s : State) : Out :=
  let a := s.g.ea b o 384
  let ps := s.g.rowPieces a
  withLanes ps (withRow a (farLoad ps true (s.g.vloc d) 4 4 false true (State.retireV 3))) s
/-- f.ldv.x (12 R272). -/
def execFLdvX (d a b : Reg) (g : BitVec 1) (e : BitVec 2) (s : State) : Out :=
  let ps := s.g.indexPieces a b
  withLanes ps (farLoad ps true (s.g.vloc d) (elemBytes e) (elemBytes e) (g = 1#1) true (State.retireV 3)) s

/-! ### Stores (12 R272; 11 R233) -/

/-- A store enters the group's FIFO as one entry and raises ST. -/
def farStore (ps : List (Nat × Int)) (size align : Nat) (data : Nat → Nat) (stb : Bool) (k : State → State) (s : State) : Out :=
  withFar ps size align .store none (fun rs s =>
    if 63 ≤ s.g.p.st then .next (s.hold leafSt)
    else withStoreCount (storeBytes ps size data) (fun s =>
      let bs := (ps.zip rs).flatMap fun x => x.2.1.zip (leBytes size (data x.1.1))
      let c := s.takeColour rs
      let e : StoreEnt :=
        { seq := c.1.seq, pathF := c.1.g.curF, bytes := bs, stb := stb, port := (chunksOf (bs.map (·.1))).length, sent := 0, col := c.2
          paged := pagedLines rs }
      .next (k { c.1 with
        seq := c.1.seq + 1
        g := { c.1.g.modP (fun p => { p with st := p.st + 1 }) with fifo := c.1.g.fifo ++ [e] } })) s) s

/-- A scalar far store. -/
def farStoreS (d b : Reg) (z : BitVec 2) (o : BitVec 10) (stb : Bool) (s : State) : Out :=
  let n := sizeOf z.toNat
  let x := (s.g.sr d).toNat
  farStore (onePiece (s.g.ea b o n)) n n (fun _ => x) stb (State.retire 1) s
/-- f.sts (12 R272). -/
def execFSts (d b : Reg) (z : BitVec 2) (o : BitVec 10) (s : State) : Out := farStoreS d b z o false s
/-- f.stb never allocates a lantern line (12 R272). -/
def execFStb (d b : Reg) (z : BitVec 2) (o : BitVec 10) (s : State) : Out := farStoreS d b z o true s
/-- f.stv (12 R272). -/
def execFStv (d b : Reg) (o : BitVec 10) (s : State) : Out :=
  let a := s.g.ea b o 384
  let v := s.g.vr d
  let ps := s.g.rowPieces a
  withLanes ps (withRow a (farStore ps 4 4 (fun i => (lane v i).toNat) false (State.retireV 3))) s
/-- f.stv.x (12 R272). -/
def execFStvX (d a b : Reg) (e : BitVec 2) (s : State) : Out :=
  let v := s.g.vr d
  let ps := s.g.indexPieces a b
  withLanes ps (farStore ps (elemBytes e) (elemBytes e) (fun i => (lane v i).toNat) false (State.retireV 3)) s

/-! ### Prefetch (12 R273) -/

/-- A prefetch that fails a check, or whose class is BYPASS or no-allocate, is dropped. -/
def prefetch (size : Nat) (h : BitVec 1) (b : Reg) (off : BitVec 10) (s : State) : Out :=
  let g := s.g
  let a0 := g.ea b off size
  let a : Int := a0 - a0 % size
  match s.farCheck g a size .load none with
  | .bad _ => .next ((s.clearWalks g).retire 1)
  | .miss v => .next ((s.startWalk g v .load).hold leafLd)
  | .ok pas heap =>
    let s := s.translated g (if heap then [] else [a.toNat, a.toNat + size - 1]) .load
    let dead := pas.any fun pa =>
      match s.classDef (s.partOf g) (s.clsOf pa) with
      | some d => d.ldr.mode = 2 || d.ldr.wpol = 2
      | none => true
    if dead then .next (s.retire 1)
    else
      let r := blankReq g false .zero size false (h = 0#1) true [{ lane := 0, va := a.toNat, pas := pas }] none
      .next ((s.send r [(pas, heap)] false).retire 1)
/-- pf (12 R273). -/
def execPf (h : BitVec 1) (b : Reg) (o : BitVec 10) (s : State) : Out := prefetch 64 h b o s
/-- pf.w (12 R273). -/
def execPfW (h : BitVec 1) (b : Reg) (o : BitVec 10) (s : State) : Out := prefetch 128 h b o s

/-! ### Fences (11 R237, R238, R241; 12 R276) -/

/-- What still keeps a fence of a scope from completing for the executing path slot, as the leaf it waits under. A fence
of die scope or wider waits for the stores that the cluster's buffer held when it issued, and for the group's own. -/
def State.fenceLeaf (s : State) (scope : Nat) : Option Nat :=
  let g := s.g
  let p := g.p
  let snap := p.fence.getD s.seq
  if p.ld ≠ 0 then some leafLd
  else if 1 ≤ scope ∧ p.st ≠ 0 then some leafSt
  else if 2 ≤ scope ∧ p.rst ≠ 0 then some leafSt
  else if 3 ≤ scope ∧ (s.buf (clusterOf g.core)).any (fun e => e.seq < snap || (e.gid = g.gid && e.pathF = g.curF)) then some leafSt
  else if 5 ≤ scope ∧ s.xfers.any (fun x => x.gid = g.gid && x.pathF = g.curF) then some leafSt
  else none

/-- A fence that waits holds its slot; the buffer's place is noted at its first issue. -/
def State.holdFence (leaf : Nat) (s : State) : State :=
  (s.modG fun g => g.modP fun p => { p with fence := some (p.fence.getD s.seq) }).hold leaf

/-- A fence that has completed. -/
def Group.fenceDone (g : Group) : Group := g.modP fun p => { p with fence := none }

/-- fence at a scope (11 R237). -/
def execFenceScope (c : BitVec 3) (s : State) : Out :=
  match s.fenceLeaf c.toNat with
  | some l => .next (s.holdFence l)
  | none =>
    let s := s.modG Group.fenceDone
    .next ((if 2 ≤ c.toNat then s.nearInvalidate s.g.core s.g.enc else s).retire 1)

/-- fence.w (11 R238). -/
def execFenceW (s : State) : Out := if s.g.p.rst ≠ 0 then .next (s.hold leafSt) else .next (s.retire 1)

/-- The scope that an access to a variable's line is ordered at: system where no entry names the line, else inferred
from its entry with the issuer recorded (11 R240). The entry exists afterwards. -/
def State.nameScope (s : State) (pa : Nat) : State × Nat :=
  let g := s.g
  let part := s.partOf g
  let die := s.svtDie part (dieOfCore g.core) pa
  let known := (s.svtOf die (pa / 64)).isSome
  let s' := s.svtName die (pa / 64) (.core g.core)
  let rep := s.isReplica part pa
  (s', if known then ((s'.svtOf die (pa / 64)).map fun e => e.scope g.core rep).getD 6 else if rep then 3 else 6)

/-- A word that names a variable reaches its line's serving point: it waits there while a release holds the line for its core, and
while no entry can be made (11 R239, R242). -/
def withEntry (pa : Nat) (k : State → Out) (s : State) : Out :=
  let g := s.g
  let part := s.partOf g
  let die := dieOfCore g.core
  if s.svtBlocked part die pa (.core g.core) then .next ((s.svtAsk part die pa (.core g.core)).hold leafSt)
  else if s.svtRoom (s.svtDie part die pa) (pa / 64) then k s else .next (s.hold leafSt)

/-- The release half on a variable: the conditions of the inferred scope, without the near-cache invalidation, then the
release recorded in the entry (11 R241). The scope is inferred afresh each time the word issues. -/
def State.releaseOn (s : State) (pa : Nat) (done : State → Out) : Out :=
  withEntry pa (fun s =>
    let n := s.nameScope pa
    let g := s.g
    match s.fenceLeaf n.2 with
    | some l => .next (s.holdFence l)
    | none =>
      let s := n.1.modG Group.fenceDone
      done (s.svtRelease (s.svtDie (s.partOf g) (dieOfCore g.core) pa) (pa / 64) g.core g.gid)) s

/-- The acquire half: LD is 0, and the near cache is invalidated where the scope is cluster or wider (11 R241). -/
def State.acquireOn (s : State) (pa : Nat) (done : State → Out) : Out :=
  if s.g.p.ld ≠ 0 then .next (s.hold leafLd)
  else withEntry pa (fun s =>
    let n := s.nameScope pa
    done (if 2 ≤ n.2 then n.1.nearInvalidate s.g.core s.g.enc else n.1)) s

/-- A variable's address is checked as a far load of one byte. -/
def withVar (a : Reg) (k : Nat → State → Out) (s : State) : Out :=
  let v := s.g.sr a
  match s.farCheck s.g v.toNat 1 .load none with
  | .bad c => .next ((s.clearWalks s.g).takeFault c v)
  | .miss w => .next ((s.startWalk s.g w .load).hold leafLd)
  | .ok pas heap => k (pas.headD 0) (s.translated s.g (if heap then [] else [v.toNat]) .load)

/-- fence.rel (11 R241). -/
def execFenceRel (a : Reg) (s : State) : Out := withVar a (fun pa s => s.releaseOn pa fun s => .next (s.retire 1)) s
/-- fence.acq (11 R241). -/
def execFenceAcq (a : Reg) (s : State) : Out := withVar a (fun pa s => s.acquireOn pa fun s => .next (s.retire 1)) s

/-! ### Atomics (12 R274; 11 R243) -/

/-- The checks of an atomic at s[a], and then its request. -/
def withAtomic (a : Reg) (at_ : Atom) (k : List Nat → Bool → State → Out) (s : State) : Out :=
  withFar (onePiece (s.g.sr a).toNat) at_.w at_.w .atomic (some at_) (fun rs s =>
    match rs with
    | (pas, h) :: _ => k pas h s
    | [] => .next s) s

/-- Sends an atomic: LD rises, or holds it at 63. -/
def sendAtomic (dst : RLoc) (at_ : Atom) (pas : List Nat) (heap counted : Bool) (va : Nat) (k : State → State) (s : State) : Out :=
  if counted ∧ 63 ≤ s.g.p.ld then .next (s.hold leafLd)
  else .next (k (s.send (blankReq s.g false dst at_.w false false false [{ lane := 0, va := va, pas := pas }] (some at_))
    [(pas, heap)] counted))

/-- An atomic whose word ends when it has left. -/
def atomicWord (d a : Reg) (at_ : Atom) (s : State) : Out :=
  let va := (s.g.sr a).toNat
  let dst := s.g.loc d
  withAtomic a at_ (fun pas h s => sendAtomic dst at_ pas h true va (State.retire 1) s) s

/-- Operands of an atomic: width by W, the low bytes of s[b]. -/
def atomOf (op : AtomOp) (w : BitVec 1) (nat : Bool) (merge : Bool) (x y : Word) : Atom :=
  let n := if w = 1#1 then 8 else 4
  { op := op, w := n, nat := nat, merge := merge, x := x.toNat % 2 ^ (8 * n), y := y.toNat % 2 ^ (8 * n) }

/-- a.add (12 R274). -/
def execAAdd (d a b : Reg) (w : BitVec 1) (s : State) : Out := atomicWord d a (atomOf .add w false true (s.g.sr b) 0) s
/-- a.min (12 R274). -/
def execAMin (d a b : Reg) (n w : BitVec 1) (s : State) : Out := atomicWord d a (atomOf .min w (n = 1#1) true (s.g.sr b) 0) s
/-- a.max (12 R274). -/
def execAMax (d a b : Reg) (n w : BitVec 1) (s : State) : Out := atomicWord d a (atomOf .max w (n = 1#1) true (s.g.sr b) 0) s
/-- a.and (12 R274). -/
def execAAnd (d a b : Reg) (w : BitVec 1) (s : State) : Out := atomicWord d a (atomOf .and w false true (s.g.sr b) 0) s
/-- a.or (12 R274). -/
def execAOr (d a b : Reg) (w : BitVec 1) (s : State) : Out := atomicWord d a (atomOf .or w false true (s.g.sr b) 0) s
/-- a.xor (12 R274). -/
def execAXor (d a b : Reg) (w : BitVec 1) (s : State) : Out := atomicWord d a (atomOf .xor w false true (s.g.sr b) 0) s
/-- a.xchg (12 R274). -/
def execAXchg (d a b : Reg) (w : BitVec 1) (s : State) : Out := atomicWord d a (atomOf .xchg w false false (s.g.sr b) 0) s
/-- a.fadd, which merges only with M = 1 (11 R245). -/
def execAFadd (d a b : Reg) (m w : BitVec 1) (s : State) : Out :=
  atomicWord d a (atomOf .fadd w false (m = 1#1) (s.g.sr b) 0) s
/-- a.cas (12 R274). -/
def execACas (d a b c : Reg) (s : State) : Out := atomicWord d a (atomOf .cas 0 false false (s.g.sr b) (s.g.sr c)) s
/-- a.cas.d (12 R274). -/
def execACasD (d a b c : Reg) (s : State) : Out := atomicWord d a (atomOf .cas 1 false false (s.g.sr b) (s.g.sr c)) s

/-! ### Locks (11 R246; 12 R275) -/

/-- A lock word's operands. -/
def lockAtom (op : AtomOp) : Atom := { op := op, w := 4, nat := true, merge := false, x := 0, y := 0 }

/-- A lock acquire holds its slot until the old word has returned; a successful one then acquires as fence.acq does on the word's
line. -/
def lockAcquire (op : AtomOp) (got : Nat → Bool) (d a : Reg) (s : State) : Out :=
  let va := (s.g.sr a).toNat
  match s.g.evt with
  | some ⟨_, none⟩ => .next (s.hold leafLd)
  | some ⟨pa, some old⟩ =>
    let done (s : State) : Out := .next ((s.modG fun g => { g with evt := none }).retire 1)
    if got old.toNat then s.acquireOn pa done else done s
  | none =>
    let dst := s.g.loc d
    withAtomic a (lockAtom op) (fun pas h s =>
      sendAtomic dst (lockAtom op) pas h true va
        (fun s => (s.modG fun g => { g with evt := some ⟨pas.headD 0, none⟩ }).hold leafLd) s) s

/-- A lock word's fields (11 Table 11.5): WH, WW, WP, READERS. -/
def lockFields (x : Nat) : Bool × Bool × Bool × Nat := (bitAt x 31, bitAt x 30, bitAt x 29, x % 2 ^ 29)
/-- Whether a.rlock acquires (11 Table 11.6). -/
def rlockGets (x : Nat) : Bool :=
  let f := lockFields x
  !f.1 && !(f.2.2.1 && f.2.1) && f.2.2.2 < 2 ^ 29 - 1
/-- Whether a.wlock acquires. -/
def wlockGets (x : Nat) : Bool := !(lockFields x).1 && (lockFields x).2.2.2 = 0
/-- The new word of a lock operation. -/
def lockNew (op : AtomOp) (x : Nat) : Nat :=
  let f := lockFields x
  match op with
  | .rlock => if rlockGets x then x + 1 else x
  | .runlock => if 0 < f.2.2.2 then x - 1 else x
  | .wlock => if wlockGets x then x + 2 ^ 31 - (if f.2.1 then 2 ^ 30 else 0) else if f.2.1 then x else x + 2 ^ 30
  | _ => if f.1 then x - 2 ^ 31 else x

/-- a.rlock (11 R246). -/
def execARlock (d a : Reg) (s : State) : Out := lockAcquire .rlock rlockGets d a s
/-- a.wlock (11 R246). -/
def execAWlock (d a : Reg) (s : State) : Out := lockAcquire .wlock wlockGets d a s

/-- An unlock first releases as fence.rel does, holding its slot (12 R275). -/
def lockRelease (op : AtomOp) (d a : Reg) (s : State) : Out :=
  let va := (s.g.sr a).toNat
  let dst := s.g.loc d
  withAtomic a (lockAtom op) (fun pas h s =>
    s.releaseOn (pas.headD 0) fun s => sendAtomic dst (lockAtom op) pas h true va (State.retire 1) s) s
/-- a.runlock (11 R246). -/
def execARunlock (d a : Reg) (s : State) : Out := lockRelease .runlock d a s
/-- a.wunlock (11 R246). -/
def execAWunlock (d a : Reg) (s : State) : Out := lockRelease .wunlock d a s

end Sys2Proof.Machine
end

