-- ==== Sys2Proof/Machine/FarEvents.lean ====
section
/-! DEFINITION. What follows the issue of far accesses: the core store point and the ordering points (11 R233 to R236;
10 R225), atomics and bundles (11 R243 to R246), the order gate and the order blocks of record and replay (21 R390, R393),
and returns (12 R272, R274). An event whose condition does not hold changes nothing. -/

namespace Sys2Proof.Machine

/-! ### The core store point (11 R233, R234) -/

/-- Whether bytes touch a 64-byte line. -/
def onLine (bs : List (Nat × Byte)) (line : Nat) : Bool := bs.any fun b => b.1 / 64 = line
/-- The lines of a request. -/
def Req.lines (r : Req) : List Nat := chunksOf (r.elems.flatMap (·.pas))

/-- Whether the oldest store of a group may pass: all its chunks have left the port, no earlier load of the group waits
for its values, and no earlier atomic of its path slot on one of its lines waits to execute. -/
def Group.mayPass (g : Group) (e : StoreEnt) : Bool :=
  e.port = 0 && !(g.reqs.any fun r =>
    r.seq < e.seq && r.data.isNone && !r.pf &&
      (r.atom.isNone || (r.pathF = e.pathF && r.lines.any fun l => onLine e.bytes l)))

/-- The pieces of a store in the cluster's buffer, one for each line; those of lines that a translation gave carry its colour. -/
def StoreEnt.pieces (e : StoreEnt) (seq gid core enc : Nat) : List BufEnt :=
  (chunksOf (e.bytes.map (·.1))).map fun l =>
    { seq := seq, gid := gid, pathF := e.pathF, core := core, enc := enc, bytes := e.bytes.filter fun b => b.1 / 64 = l
      stb := e.stb, col := if e.paged.contains l then e.col.map (·.1) else none }

/-- CORE_STORE_POINT_PASS: the store enters the cluster's buffer, near-cache copies take it, and ST falls. -/
def execCoreStorePointPass (gid : Nat) (s : State) : Out :=
  match s.group gid with
  | none => .next s
  | some g =>
    match g.fifo with
    | [] => .next s
    | e :: rest =>
      if !g.mayPass e then .next s
      else
        let c := clusterOf g.core
        let s := s.setBuf c (s.buf c ++ e.pieces s.seq g.gid g.core g.enc)
        let s := s.modCore g.core (·.nearStore e.bytes)
        .next ({ s with seq := s.seq + 1 }.setGroup
          ({ g with fifo := rest }.modPath e.pathF fun p => { p with st := p.st - 1 }))

/-! ### Loads at their ordering points (11 R235; 09 R190) -/

/-- The latest byte that a group's own FIFO holds at an address, of stores issued before a place. -/
def Group.fifoByte (g : Group) (seq pa : Nat) : Option Byte :=
  g.fifo.reverse.findSome? fun e =>
    if e.seq < seq then (e.bytes.reverse.find? fun b => b.1 = pa).map (·.2) else none

/-- The byte a load takes from sources 1 to 4 of 11 R235; none where only the serving point holds it. -/
def State.closeByte (s : State) (g : Group) (r : Req) (pa : Nat) : Option Byte :=
  match g.fifoByte r.seq pa with
  | some b => some b
  | none =>
    let buf := s.buf (clusterOf g.core)
    match bufByte buf (fun e => e.core = g.core) pa with
    | some b => some b
    | none =>
      match if r.near then (s.core g.core).nearLine g.enc pa else none with
      | some l => some (l.data.getD (pa % 64) 0)
      | none => bufByte buf (fun e => e.core ≠ g.core) pa

/-- The byte a load takes. -/
def State.loadByte (s : State) (g : Group) (r : Req) (pa : Nat) : Byte :=
  match s.closeByte g r pa with
  | some b => b
  | none => (s.peek (s.partOf g) (s.clsOf pa) (dieOfCore g.core) pa 1).headD 0

/-- The physical bytes of a request on a line. -/
def Req.pasOn (r : Req) (line : Nat) : List Nat := (r.elems.flatMap (·.pas)).filter fun a => a / 64 = line

/-- Whether a request reaches a line's serving point: some byte of it stands nowhere nearer, or it fills the near cache. -/
def State.reaches (s : State) (g : Group) (r : Req) (line : Nat) : Bool :=
  ((r.pasOn line).any fun pa => (s.closeByte g r pa).isNone) ||
    (r.near && ((s.core g.core).nearLine g.enc (line * 64)).isNone)

/-- What a load does at a line: the near cache is filled or used, or the serving point counts the access and records its
source. -/
def State.loadLine (s : State) (g : Group) (r : Req) (line : Nat) : State :=
  let pa := line * 64
  let part := s.partOf g
  let die := dieOfCore g.core
  let far := s.reaches g r line
  if r.near then s.nearLoad g part pa
  else if far then ((s.lookupEvent g part pa).serveLoad part (s.clsOf pa) die pa 1).2.svtSee part die pa (.core g.core) else s

/-- Whether an outstanding load has come to its ordering point: its chunks have left, every earlier load of the group has
its values, and every earlier atomic of its path slot on its lines has executed. -/
def Group.loadDue (g : Group) (r : Req) : Bool :=
  r.atom.isNone && r.data.isNone && r.port = 0 &&
  !(g.reqs.any fun q => q.seq < r.seq && q.data.isNone && !q.pf &&
      (q.atom.isNone || (q.pathF = r.pathF && q.lines.any r.lines.contains)))
/-- The first line of a load whose serving point holds it (11 R242). -/
def State.loadHeld (s : State) (g : Group) (r : Req) : Option Nat :=
  r.lines.find? fun l => s.reaches g r l && s.svtBlocked (s.partOf g) (dieOfCore g.core) (l * 64) (.core g.core)
/-- Whether a load may take its values. -/
def State.mayLoad (s : State) (g : Group) (r : Req) : Bool := g.loadDue r && (s.loadHeld g r).isNone

/-- A group's request `k` replaced or removed. -/
def Group.setReq (g : Group) (k : Nat) (r : Option Req) : Group :=
  { g with reqs := match r with | some x => g.reqs.set k x | none => g.reqs.eraseIdx k }

/-- A request's colour falls (10 R225). -/
def State.reqDone (s : State) (g : Group) (r : Req) : State :=
  match r.col with
  | some (c, n) => s.colourDown (dieOfCore g.core) c n
  | none => s

/-- The request that a word makes when it reads far bytes at its issue. -/
def State.issueReq (s : State) (g : Group) (pas : List Nat) : Req :=
  { blankReq g false .zero 0 false true false [{ lane := 0, va := 0, pas := pas }] none with seq := s.seq }

/-- The path slot of a load remembers the buffered stores of its cluster that hold the values it takes: an atomic of the slot on
such a line does not go before them (11 R236). -/
def State.sawOf (s : State) (g : Group) (r : Req) : Group :=
  let b := s.buf (clusterOf g.core)
  let same (e : BufEnt) (pa : Nat) : Bool :=
    match e.bytes.reverse.find? fun x => x.1 = pa with
    | some x => (g.fifoByte r.seq pa).isNone && s.closeByte g r pa = some x.2
    | none => false
  let new := (b.filter fun e => r.elems.any fun x => x.pas.any (same e)).map (·.seq)
  g.modPath r.pathF fun p => { p with seen := uniq (new ++ p.seen.filter fun q => b.any fun e => e.seq = q) }

/-- Far bytes that a word reads at its issue, as a load of the group at that place would. -/
def State.readNow (s : State) (g : Group) (pas : List Nat) : List Byte := pas.map (s.loadByte g (s.issueReq g pas))

/-- A record read from far memory at issue, with every check of a far load of its size (12 R277; 07 R165; 26 R425): the word waits
while an earlier far load of the group has not taken its values (11 R234) or a serving point holds the read, and each line is
filled and recorded as a load does it. -/
def withRead (va : Int) (len align : Nat) (k : List Byte → State → Out) (s : State) : Out :=
  withFar (onePiece va) len align .load none (fun rs s =>
    match rs with
    | (pas, _) :: _ =>
      let r := s.issueReq s.g pas
      if !s.g.loadDue r then .next (s.hold leafLd) else match s.loadHeld s.g r with
      | some l => .next ((s.svtAsk (s.partOf s.g) (dieOfCore s.g.core) (l * 64) (.core s.g.core)).hold leafLd)
      | none =>
        if r.lines.any fun l => s.poison.contains l && s.reaches s.g r l then .next (s.partitionReset (s.partOf s.g))
        else k (s.readNow s.g pas) (r.lines.foldl (fun s l => s.loadLine s.g r l) (s.setGroup (s.sawOf s.g r)))
    | [] => .next s) s

/-- A load takes its values; a prefetch only fills the near cache and the lantern. -/
def State.loadArrives (s : State) (g : Group) (k : Nat) (r : Req) : State :=
  let vals := r.elems.map fun e => leNat (e.pas.map (s.loadByte g r))
  let bad := r.lines.any fun l => s.poison.contains l && s.reaches g r l
  let s := if r.pf then s else s.setGroup (s.sawOf g r)
  let s := r.lines.foldl (fun s l => s.loadLine g r l) s
  let s := s.reqDone g r
  let s := s.modGroup g.gid fun g => g.setReq k (if r.pf then none else some { r with data := some vals })
  if bad then s.partitionReset (s.partOf g) else s

/-- ORDERING_POINT_ARRIVAL (10 R225; 11 R233, R235); a request that a release holds asks for its widening (11 R242). -/
def execOrderingPointArrival (r : Arrive) (s : State) : Out :=
  match r with
  | .store c k =>
    match (s.buf c)[k]? with
    | some e =>
      .next (if !s.storeFirst c k e then s
        else if s.storeHeld e then s.svtAsk (s.encl e.enc).part (dieOfCore e.core) e.pa (.core e.core)
        else (s.setBuf c ((s.buf c).eraseIdx k)).storeArrives e)
    | none => .next s
  | .load gid k =>
    match s.group gid with
    | none => .next s
    | some g =>
      match g.reqs[k]? with
      | some q =>
        .next (if !g.loadDue q then s
          else match s.loadHeld g q with
            | some l => s.svtAsk (s.partOf g) (dieOfCore g.core) (l * 64) (.core g.core)
            | none => s.loadArrives g k q)
      | none => .next s

/-- A returned value written to one lane of a vector register (12 R272). -/
def Group.writeLane (g : Group) (r : Req) (l v : Nat) : Group :=
  g.vwr r.dst ((List.range 96).map fun i =>
    if i = l then BitVec.ofNat 32 (extend r.size r.signed v) else lane (g.vrd r.dst) i)

/-- A register write by a return, with its MASK packet where the destination is a mask word (21 Table 21.9). -/
def State.writeReturn (s : State) (gid : Nat) (dst : RLoc) (v : Word) : State :=
  let s := s.modGroup gid (·.wr dst v)
  match dst, s.group gid with
  | .mask f k, some g => s.emitPacket g (packet 3 f 0 g.ident (g.path f).pc.toNat (g.path f).mask (2 ^ k))
  | _, _ => s

/-- FAR_LOAD_RETURN: the data writes the destination, a vector register one lane at a time in ascending order of lanes (log 40),
and LD falls when the last is written (12 R272; 01 R27). A window position that has left the ring since the issue is written in the
ring slot taken at issue, whatever stands there now (log 59). -/
def execFarLoadReturn (gid k : Nat) (s : State) : Out :=
  match s.group gid with
  | none => .next s
  | some g =>
    match g.reqs[k]? with
    | none => .next s
    | some r =>
      match r.data, r.atom with
      | some vals, none =>
        let last : Bool := !r.vec || r.elems.length ≤ r.wrote + 1
        let s := s.setGroup (if last then (g.setReq k none).modPath r.pathF fun p => { p with ld := p.ld - 1 }
          else g.setReq k (some { r with wrote := r.wrote + 1 }))
        match r.vec, r.elems[r.wrote]? with
        | true, some e => .next (s.modGroup gid fun g => g.writeLane r e.lane (vals.getD r.wrote 0))
        | true, none => .next s
        | false, _ => .next (s.writeReturn gid r.dst (BitVec.ofNat 64 (extend r.size r.signed (vals.headD 0))))
      | _, _ => .next s

/-! ### Atomics (11 R243 to R246; 12 Table 12.1) -/

/-- The new value of an atomic. -/
def Atom.apply (a : Atom) (old : Nat) : Nat :=
  let n := 2 ^ (8 * a.w)
  let le (x y : Nat) : Bool := toInt (!a.nat) (8 * a.w) x ≤ toInt (!a.nat) (8 * a.w) y
  match a.op with
  | .add => (old + a.x) % n
  | .min => if le old a.x then old else a.x
  | .max => if le a.x old then old else a.x
  | .and => old &&& a.x
  | .or => old ||| a.x
  | .xor => old ^^^ a.x
  | .xchg => a.x
  | .fadd => (fpAdd (if a.w = 8 then .f64 else .f32) .rne false false old a.x).bits
  | .cas => if old = a.x then a.y else old
  | .evtPub => (old + 1) % n
  | .evtWait => if old = 0 then 0 else old - 1
  | op => lockNew op old

/-- Members of a bundle in turn: the old value of each, and the last new value. A merged a.fadd adds the members first,
and each receives the value before the bundle (11 R244, R245). -/
def bundleRun (ms : List Atom) (old : Nat) : List Nat × Nat :=
  match ms with
  | [] => ([], old)
  | [a] => ([old], a.apply old)
  | a :: rest =>
    if a.op = .fadd then
      let sum := rest.foldl (fun x b => { b with x := x }.apply b.x) a.x
      (ms.map fun _ => old, { a with x := sum }.apply old)
    else ms.foldl (fun (r : List Nat × Nat) m => (r.1 ++ [r.2], m.apply r.2)) ([], old)

/-- An atomic of a group that waits at its ordering point. -/
structure Waiting where
  g : Group
  k : Nat
  r : Req
  a : Atom
  deriving DecidableEq, Repr

/-- The waiting atomic that a pair of group and request number names. -/
def State.waiting (s : State) (m : Nat × Nat) : Option Waiting :=
  (s.group m.1).bind fun g => g.reqs[m.2]?.bind fun r => r.atom.map fun a => ⟨g, m.2, r, a⟩

/-- The line of a waiting atomic. -/
def Waiting.line (w : Waiting) : Nat := (w.r.lines).headD 0
/-- The cycles of the die that serves its line. -/
def State.servingClock (s : State) (w : Waiting) : Nat := s.dieClock (s.svtDie (s.partOf w.g) (dieOfCore w.g.core) (w.line * 64))
/-- Its first physical byte. -/
def Waiting.pa (w : Waiting) : Nat := (w.r.elems.flatMap (·.pas)).headD 0

/-- Whether an atomic has left the core and come to its ordering point: its chunk has left the port, no earlier store of
its path slot to the line is in the FIFO or the cluster's buffer, nor a buffered one whose value the slot has read (11 R236), and
no earlier load or atomic of the path slot on the line waits. -/
def State.atomDue (s : State) (w : Waiting) : Bool :=
  w.r.data.isNone && w.r.port = 0 &&
  !(w.g.fifo.any fun e => e.seq < w.r.seq && e.pathF = w.r.pathF && onLine e.bytes w.line) &&
  !((s.buf (clusterOf w.g.core)).any fun e =>
    ((e.gid = w.g.gid && e.pathF = w.r.pathF) || (w.g.path w.r.pathF).seen.contains e.seq) && onLine e.bytes w.line) &&
  !(w.g.reqs.any fun q => q.seq < w.r.seq && q.pathF = w.r.pathF && q.data.isNone && !q.pf && q.lines.contains w.line)
/-- Whether a release through its line holds an atomic (11 R242). -/
def State.atomHeld (s : State) (w : Waiting) : Bool :=
  s.svtBlocked (s.partOf w.g) (dieOfCore w.g.core) (w.line * 64) (.core w.g.core)
/-- Whether an atomic may execute: it has come, nothing holds it, and its line has or can be given an entry. -/
def State.atPoint (s : State) (w : Waiting) : Bool :=
  s.atomDue w && !s.atomHeld w && s.svtRoom (s.svtDie (s.partOf w.g) (dieOfCore w.g.core) (w.line * 64)) w.line
/-- An atomic that a release holds asks for its widening. -/
def State.atomAsk (s : State) (w : Waiting) : State :=
  if s.atomDue w ∧ s.atomHeld w then s.svtAsk (s.partOf w.g) (dieOfCore w.g.core) (w.line * 64) (.core w.g.core) else s

/-- Whether requests may be one bundle (11 R244, R245). -/
def mayMerge (x y : Waiting) : Bool :=
  x.a.merge && y.a.merge && x.a.op = y.a.op && x.a.w = y.a.w && x.a.nat = y.a.nat && x.pa = y.pa

/-- Members in ascending order of s56 bits [47:0], T before F (11 R244). -/
def bundleLe (x y : Waiting) : Bool :=
  x.g.ident < y.g.ident || (x.g.ident = y.g.ident && (!x.r.pathF || y.r.pathF))

/-- Puts a member in its place. -/
def bundleIns (x : Waiting) : List Waiting → List Waiting
  | [] => [x]
  | y :: ys => if bundleLe x y then x :: y :: ys else y :: bundleIns x ys

/-! ### Order blocks and the order gate (21 R390, R393) -/

/-- An order block as its 8 dwords. -/
def orderBlock (b : OrderBlock) : List Word :=
  let half (c : Bool × Nat × Nat) : Nat := b2n c.1 * 2 ^ 15 + c.2.1 % 512 * 2 ^ 6 + (c.2.2 - 1) % 64
  BitVec.ofNat 64 (b.line * 64 + b.chunks.length) ::
    bytesDwords 7 (b.chunks.flatMap (fun c => leBytes 2 (half c)) ++ List.replicate (56 - 2 * b.chunks.length) 0)

/-- A block with one more element, if it has room. -/
def OrderBlock.push (b : OrderBlock) (pathF : Bool) (ord : Nat) : Option OrderBlock :=
  match b.chunks.getLast? with
  | some (p, o, n) =>
    if p = pathF ∧ o = ord ∧ n < 64 then some { b with chunks := b.chunks.dropLast ++ [(p, o, n + 1)] }
    else if b.chunks.length < 28 then some { b with chunks := b.chunks ++ [(pathF, ord, 1)] } else none
  | none => some { b with chunks := [(pathF, ord, 1)] }

/-- Logs an element on a line of a die: a full block is written and continued, and a 65th block writes the oldest. -/
def State.logElement (s : State) (die enc line : Nat) (pathF : Bool) (ord : Nat) : State :=
  let bs := (s.die die).blocks
  let fresh : OrderBlock := { enc := enc, line := line, chunks := [(pathF, ord, 1)] }
  match bs.find? fun b => b.enc = enc && b.line = line with
  | some b =>
    let rest := bs.filter fun x => !(x.enc = enc && x.line = line)
    match b.push pathF ord with
    | some b' => s.modDie die fun d => { d with blocks := bs.map fun x => if x.enc = enc && x.line = line then b' else x }
    | none => (s.appendBlock enc (orderBlock b)).modDie die fun d => { d with blocks := rest ++ [fresh] }
  | none =>
    match if bs.length < 64 then none else bs.head? with
    | some o => (s.appendBlock o.enc (orderBlock o)).modDie die fun d => { d with blocks := bs.drop 1 ++ [fresh] }
    | none => s.modDie die fun d => { d with blocks := bs ++ [fresh] }

/-- Every open block of an enclave is written, as at DONE (21 R390). -/
def State.flushBlocks (s : State) (enc : Nat) : State :=
  (List.range 4).foldl (fun s die =>
    let bs := (s.die die).blocks.filter fun b => b.enc = enc
    (bs.foldl (fun s b => s.appendBlock enc (orderBlock b)) s).modDie die fun d =>
      { d with blocks := d.blocks.filter fun b => b.enc ≠ enc }) s

/-- Elements that an order gate consumes for a request: the leading ones of ORD 511, and its own. None where another
request is next (21 R393). -/
def gateTake (es : List (Bool × Nat)) (pathF : Bool) (ord : Nat) : Option Nat :=
  let skip := (es.takeWhile fun e => e.2 = 511).length
  match es.drop skip with
  | [] => some skip
  | e :: _ => if e = (pathF, ord) then some (skip + 1) else none

/-- How the order gate receives a request of a replayed group: the elements it consumes, or held. -/
def State.gate (s : State) (w : Waiting) : Option Nat :=
  if s.replayMode w.g ≠ 2 then some 0
  else gateTake ((lineElements w.line (s.logBlocks w.g.enc)).drop (smGet 0 (s.encl w.g.enc).replay.used w.line)) w.r.pathF w.g.ord

/-- An atomic on a line by a party outside a recorded or replayed task: OUTSIDE, and in record an element of ORD 511 (21 R390,
R393). -/
def State.outsideAtomic (s : State) (die line : Nat) (pathF : Bool) (own : Nat → Bool) : State :=
  ((s.recorders line own).filter fun e => (s.encl e).replay.mode = 1).foldl (fun s e => s.logElement die e line pathF 511)
    (s.markOutside line own)

/-- What record and replay note of an executed request: an element of its own task, or an outside party on a recorded
line. -/
def State.noteOrder (s : State) (w : Waiting) (took : Nat) : State :=
  let die := s.svtDie (s.partOf w.g) (dieOfCore w.g.core) (w.line * 64)
  let s := match s.replayMode w.g with
    | 1 => (s.logElement die w.g.enc w.line w.r.pathF w.g.ord).modEnc w.g.enc fun e =>
        { e with replay := { e.replay with lines := if e.replay.lines.contains w.line then e.replay.lines else e.replay.lines ++ [w.line] } }
    | 2 => s.modEnc w.g.enc fun e =>
        { e with replay := { e.replay with used := smSet 0 e.replay.used w.line (smGet 0 e.replay.used w.line + took) } }
    | _ => s
  s.outsideAtomic die w.line w.r.pathF (s.inReplay w.g.gid)

/-- A bundle, or one atomic, executes: the line is read, changed and written in one step (11 R243). Each member of a bundle of
several counts as one that joined it (21 Table 21.4). -/
def State.runAtomics (s : State) (ms : List Waiting) (took : Nat) : State :=
  match ms with
  | [] => s
  | m :: _ =>
    let part := s.partOf m.g
    let die := dieOfCore m.g.core
    let cls := s.clsOf m.pa
    let bad := s.poison.contains m.line
    let s := ms.foldl (fun s w => (s.svtName (s.svtDie part (dieOfCore w.g.core) m.pa) m.line (.core w.g.core)).reqDone w.g w.r) s
    let s := if ms.length ≤ 1 then s else ms.foldl (fun s w => s.event w.g 0x0206 0x1F 1) s
    let got := (s.lookupEvent m.g part m.pa).serveLoad part cls die m.pa m.a.w
    let run := bundleRun (ms.map (·.a)) (leNat got.1)
    let s := got.2.serveStore part cls die ((addrs m.pa m.a.w).zip (leBytes m.a.w run.2)) false
    let s := s.latchAll part cls ((s.classDef part cls).bind fun d => d.servedBy die) (fun l => l = m.line) .store
    let s := (ms.zip run.1).foldl (fun s x =>
      (s.noteOrder x.1 took).modGroup x.1.g.gid fun g => g.setReq x.1.k (some { x.1.r with data := some [x.2] })) s
    if bad then s.partitionReset part else s

/-- Requests of a replayed group that an order gate holds are discarded; their colours fall (23 R399). -/
def State.dropHeld (s : State) (g : Group) : State :=
  let held (r : Req) : Bool := r.gate && r.data.isNone
  let s := (g.reqs.filter held).foldl (fun s r => s.reqDone g r) s
  s.modGroup g.gid fun g => { g with reqs := g.reqs.filter fun r => !held r }

/-- An order gate holds a request; where its task has ended, it is discarded (21 R393; 23 R399). -/
def State.gateHold (s : State) (w : Waiting) : State :=
  let s := s.modGroup w.g.gid fun g => g.setReq w.k (some { w.r with
    gate := true, gateFrom := if w.r.gate then w.r.gateFrom else s.servingClock w })
  if ((s.taskOf w.g).map Task.ended).getD false then ((s.group w.g.gid).map s.dropHeld).getD s else s

/-- ATOMIC_EXECUTE: the named requests execute as one, if they have reached the point and may merge; a replayed request
that is not next in its line's order is held at the gate. -/
def execAtomicExecute (ms : List (Nat × Nat)) (s : State) : Out :=
  match ms.mapM s.waiting with
  | none => .next s
  | some [] => .next s
  | some [w] =>
    if !s.atPoint w then .next (s.atomAsk w)
    else match s.gate w with
      | some n => .next (s.runAtomics [w] n)
      | none => .next (s.gateHold w)
  | some (w :: ws) =>
    let all := w :: ws
    if all.all s.atPoint ∧ ws.all (mayMerge w) ∧ all.all (fun x => s.replayMode x.g ≠ 2) ∧ ms.Nodup then
      .next (s.runAtomics (all.foldl (fun r x => bundleIns x r) []) 0)
    else .next s

/-- ORDER_GATE_RELEASE: a held request that has become next executes (21 R393). -/
def execOrderGateRelease (gid k : Nat) (s : State) : Out :=
  match s.waiting (gid, k) with
  | some w =>
    if w.r.gate ∧ s.atPoint w then
      match s.gate w with
      | some n => .next (s.runAtomics [w] n)
      | none => .next s
    else .next s
  | none => .next s

/-- A group's report that is not precise (17 R326). -/
def State.groupReport (s : State) (g : Group) (pathF : Bool) (code : Code) (fra : Word) (pc cwi : Nat) : Report :=
  let p := g.path pathF
  { code := code, fra := fra, pc := pc, cwi := cwi, pathF := pathF, mask := p.mask, prec := false, unhandled := false
    noGroup := false, dep := false, ident := g.ident, queue := ((s.taskOf g).map Task.queue).getD 0, core := g.core
    counters := p.outc, cyc := (s.core g.core).cyc }

/-- The descendants of a task; fuel bounds the depth. -/
def State.descendants (s : State) : Nat → Nat → List Nat
  | 0, _ => []
  | n + 1, t =>
    let kids := (s.tasks.filter fun u => ((u.2.parent.bind s.team).map fun (m : Team) => decide (m.task = t)).getD false).map (·.1)
    kids ++ kids.flatMap (s.descendants n)

/-- Groups of some tasks. -/
def State.groupsOf (s : State) (ts : List Nat) : List Group :=
  s.allGroups.filter fun g => ((s.team g.team).map fun (m : Team) => ts.contains m.task).getD false

/-- Whether every group of some tasks has stopped. -/
def State.stoppedAll (s : State) (ts : List Nat) : Bool :=
  (s.groupsOf ts).all fun g => (g.stat = .halted || g.stat = .ending || g.stat = .ended) && !g.runOver

/-- Whether a task is ending and every group of it and of its descendants has stopped. -/
def State.taskStopped (s : State) (task : Nat) : Bool :=
  ((s.task task).map Task.ended).getD false && s.stoppedAll (task :: s.descendants 10 task)

/-- A report of a group reaches Chandler; one that comes after every group has stopped is not counted (17 R326). -/
def State.reportOf (s : State) (g : Group) (r : Report) : State :=
  match s.team g.team with
  | some t => if s.taskStopped t.task then s else s.modTask t.task (·.addReport r)
  | none => s

/-- ORDER_GATE_TIMEOUT: a request held for 2^24 cycles of the serving die ends its task with REPLAY_DIVERGED (21 R393). -/
def execOrderGateTimeout (gid k : Nat) (s : State) : Out :=
  match s.waiting (gid, k) with
  | some w =>
    if w.r.gate ∧ w.r.data.isNone ∧ w.r.gateFrom + 2 ^ 24 ≤ s.servingClock w then
      let s := s.modEnc w.g.enc fun e => { e with replay := { e.replay with diverged := true } }
      let p := w.g.path w.r.pathF
      .next (s.reportOf w.g (s.groupReport w.g w.r.pathF .replayDiverged (BitVec.ofNat 64 (w.line * 64)) p.pc.toNat (p.cwi + 1)))
    else .next s
  | none => .next s

/-- The old value as an atomic's destination receives it (12 Table 12.1, R275). -/
def Atom.old (a : Atom) (x : Nat) : Nat :=
  match a.op with
  | .fadd | .rlock | .runlock | .wlock | .wunlock => x
  | _ => if a.nat then x else extend a.w true x

/-- What the return of an atomic does besides its register: a lock acquire or an evt.wait that holds its slot learns the
old word. -/
def Group.evtReturn (g : Group) (a : Atom) (x : Nat) : Group :=
  match a.op with
  | .rlock | .wlock | .evtWait => { g with evt := g.evt.map fun h => { h with old := some (BitVec.ofNat 64 x) } }
  | _ => g

/-- ATOMIC_RETURN (12 R274; 07 R167). -/
def execAtomicReturn (gid k : Nat) (s : State) : Out :=
  match s.waiting (gid, k) with
  | some w =>
    match w.r.data with
    | some (x :: _) =>
      let g := (w.g.setReq k none).evtReturn w.a x
      let g := if w.a.op = .evtWait then g else g.modPath w.r.pathF fun p => { p with ld := p.ld - 1 }
      let s := s.setGroup g
      .next (if w.a.op = .evtPub ∨ w.a.op = .evtWait then s
        else s.writeReturn gid w.r.dst (BitVec.ofNat 64 (w.a.old x)))
    | _ => .next s
  | none => .next s

/-! ### Cluster windows (09 R188; 12 R267) -/

/-- WINDOW_STORE_PERFORMED: the owners perform what they can; the store is acknowledged when all of it is performed. -/
def execWindowStorePerformed (gid k : Nat) (s : State) : Out :=
  match s.group gid with
  | none => .next s
  | some g =>
    match g.winStores[k]? with
    | none => .next s
    | some w =>
      let may := s.mayPerform (g.winStores.take k) w
      let left := w.parts.filter fun p => !may p
      let s := (w.parts.filter may).foldl State.performPart s
      .next (s.modGroup gid fun g =>
        if left.isEmpty then
          { g.modPath w.pathF (fun p => { p with rst := p.rst - 1 }) with winStores := g.winStores.eraseIdx k }
        else { g with winStores := g.winStores.set k { w with parts := left } })

/-- WINDOW_LOAD_RETURN: the owning cores return the data of a load that holds its slot (12 R267). -/
def execWindowLoadReturn (gid : Nat) (s : State) : Out :=
  .next (s.modGroup gid fun g => { g with winRet := g.winRet.map fun w => (w.1, true) })

end Sys2Proof.Machine
end

