-- ==== Sys2Proof/Machine/Sync.lean ====
section
/-! DEFINITION. Synchronisation instructions (spec 07) but for launch: join, events, barriers, elect, g.regroup, yield,
monitors, and waits on counters and tags. -/

namespace Sys2Proof.Machine

/-! ### Join (07 R166) -/

/-- TEAMS of a task's record. -/
def Task.teams (t : Task) : Nat := bitsAt (recDw t.rcd 8) 0 16

/-- The unretired grid of an id that a team launched. -/
def State.childGrid (s : State) (g : Group) (h : Nat) : Option Task :=
  (s.tasks.find? fun t => t.2.enc = g.enc && t.2.grid = h && t.2.parent = some g.team && !t.2.retired).map (·.2)

/-- A grid retires: every join that waits on it completes, one that has been woken or halted as well (07 R166, R176). -/
def State.retireGrid (s : State) (task : Nat) : State :=
  let h := (s.task task).map Task.grid
  let f (p : PathState) : PathState := if p.joinOf = some task then { p with joinOf := none, joined := h } else p
  let s := s.modTask task fun t => { t with retired := true }
  let all (x : Group) : Group := { x with t := f x.t, f := f x.f }
  { s with g := all s.g, groups := s.groups.map fun (x : Nat × Group) => (x.1, all x.2) }

/-- join (07 R166). -/
def execJoin (a b : Reg) (s : State) : Out :=
  let h := s.g.sr a
  let n := (s.g.sr b).toNat
  let done (s : State) : State := (s.modG fun g => g.modP fun p => { p with joinOf := none, joined := none }).retire 1
  if s.g.p.joined = some h.toNat then .next (done s)
  else if 2 ^ 24 ≤ h.toNat then .next (s.takeFault .privilege h)
  else match s.childGrid s.g h.toNat with
    | none => .next (s.takeFault .privilege h)
    | some t =>
      let need := if n = 0 ∨ t.teams ≤ n then t.teams else n
      if t.published < need then .next ((s.modG fun g => g.modP fun p => { p with joinOf := some t.id }).park (.join t.id need))
      else .next (done (if need = t.teams then s.retireGrid t.id else s))

/-! ### Events (07 R167) -/

/-- An event's operands. -/
def eventAtom (op : AtomOp) : Atom := { op := op, w := 8, nat := true, merge := op = .evtPub, x := 0, y := 0 }

/-- What still keeps the group's earlier stores from being visible at package scope (07 R165 step 4). -/
def State.packageLeaf (s : State) : Option Nat :=
  let g := s.g
  let snap := g.p.fence.getD s.seq
  if g.p.st ≠ 0 ∨ g.p.rst ≠ 0 ∨ g.fifo ≠ [] ∨ g.winStores ≠ [] then some leafSt
  else if (s.buf (clusterOf g.core)).any fun e => e.seq < snap || e.gid = g.gid then some leafSt
  else none

/-- Holds the slot until the group's earlier stores are visible at package scope. -/
def packageRelease (k : State → Out) (s : State) : Out :=
  match s.packageLeaf with
  | some l => .next (s.holdFence l)
  | none => k (s.modG Group.fenceDone)

/-- evt.pub (07 R167). -/
def execEvtPub (a : Reg) (s : State) : Out :=
  let va := (s.g.sr a).toNat
  withAtomic a (eventAtom .evtPub) (fun pas h s =>
    packageRelease (fun s => sendAtomic .zero (eventAtom .evtPub) pas h true va (State.retire 1) s) s) s

/-- evt.wait: parks while the word is zero; its decrement holds the slot, and one that finds zero parks again
(07 R167). -/
def execEvtWait (a : Reg) (s : State) : Out :=
  let va := (s.g.sr a).toNat
  match s.g.evt with
  | some ⟨_, none⟩ => .next (s.hold leafLd)
  | some ⟨_, some old⟩ =>
    let s := s.modG fun g => { g with evt := none }
    if old = 0 then .next (s.park (.event va)) else .next (s.retire 1)
  | none =>
    withAtomic a (eventAtom .evtWait) (fun pas h s =>
      let pa := pas.headD 0
      if leNat (s.peek (s.partOf s.g) (s.clsOf pa) (dieOfCore s.g.core) pa 8) = 0 then .next (s.park (.event va))
      else sendAtomic .zero (eventAtom .evtWait) pas h false va
        (fun s => (s.modG fun g => { g with evt := some ⟨pa, none⟩ }).hold leafLd) s) s

/-! ### Barriers (07 R168, R169) -/

/-- A barrier of the executing group's team. -/
def State.barrier (s : State) (n : Nat) : Barrier := ((s.team s.g.team).map fun t => smGet {} t.bars n).getD {}
/-- Writes a barrier. -/
def State.setBarrier (s : State) (n : Nat) (b : Barrier) : State :=
  s.modTeam s.g.team fun t => { t with bars := smSet {} t.bars n b }

/-- An arrival: the count's checks, the order of earlier stores, then the barrier and the token. -/
def arrive (a : Reg) (n : Nat) (k : State → Out) (s : State) : Out :=
  let g := s.g
  let c := g.sr a
  let b := s.barrier n
  if c = 0 ∨ g.teamGroups < c.toNat ∨ (b.a ≠ 0 ∧ c.toNat ≠ b.c) then .next (s.takeFault .barrierCount c)
  else if g.p.st ≠ 0 ∨ (g.pair ∧ g.p.rst ≠ 0) then .next (s.hold leafSt)
  else
    let b' : Barrier := if b.a + 1 = c.toNat then { c := c.toNat, a := 0, g := b.g + 1 } else { b with c := c.toNat, a := b.a + 1 }
    k ((s.setBarrier n b').modG fun g => g.modP fun p => { p with toks := smPut p.toks n b.g })

/-- A wait on the generation of the path slot's token. -/
def barrierWait (n : Nat) (s : State) : Out :=
  let done (s : State) : Out :=
    let s := s.modG fun g => g.modP fun p => { p with toks := smErase p.toks n, arrived := false }
    .next (s.retire 1)
  match smFind s.g.p.toks n with
  | none => done s
  | some t => if (s.barrier n).g ≠ t then done s else .next (s.park (.barrier n))

/-- bar.arrive (07 R168). -/
def execBarArrive (a : Reg) (n : BitVec 4) (s : State) : Out := arrive a n.toNat (fun s => .next (s.retire 1)) s
/-- bar.wait (07 R168). -/
def execBarWait (n : BitVec 4) (s : State) : Out := barrierWait n.toNat s
/-- bar.sync: an arrival that has taken effect is not made again (07 R169). -/
def execBarSync (a : Reg) (n : BitVec 4) (s : State) : Out :=
  if s.g.p.arrived then barrierWait n.toNat s
  else arrive a n.toNat (fun s => barrierWait n.toNat (s.modG fun g => g.modP fun p => { p with arrived := true })) s

/-! ### Election and regroup (07 R170, R171; 05 R120) -/

/-- elect (07 R170). -/
def execElect (d : Reg) (s : State) : Out :=
  let m := s.g.elects
  let e := ((s.team s.g.team).map Team.e).getD 0
  let s := s.modG fun g => { g with elects := m + 1 }
  if e ≤ m then .next (((s.modTeam s.g.team fun t => { t with e := m + 1 }).setS d 1).retire 1)
  else .next ((s.setS d 0).retire 1)

/-- A group of a team by its index. -/
def State.teamGroup (s : State) (team i : Nat) : Option Group :=
  s.allGroups.find? fun g => g.team = team && g.index = i

/-- A group that is not at the focus stops with a precise fault of the word it is parked on. -/
def State.faultGroup (s : State) (g : Group) (code : Code) (fra : Word) : State :=
  let p := g.p
  let s := s.reportOf g { s.groupReport g g.curF code fra p.pc.toNat (p.cwi + 1) with prec := true }
  s.modGroup g.gid fun g => { g.modP (fun p => { p with park := none }) with stat := .halted }

/-- Groups of a team parked on a regroup, with the masks they named: not one whose rendezvous is complete, nor one that is
halted and has left it (07 R171). -/
def State.regrouping (s : State) (team : Nat) : List (Group × Nat) :=
  s.allGroups.filterMap fun g => if g.team = team ∧ g.regroupRes.isNone ∧ g.stat ≠ .halted then
    (match g.t.park with | some (.regroup m) => some (g, m) | _ => none) else none

/-- Whether a group meets the conditions of 05 R120 on itself. -/
def Group.regroupable (g : Group) : Bool :=
  !g.curF && g.t.stat = .live && g.f.stat = .free && g.t.stack.isEmpty && g.wsp = g.wsb

/-- The active lanes of the participants, in order: group number and lane. -/
def regroupLanes (gs : List Group) : List (Nat × Nat) :=
  gs.zipIdx.flatMap fun x => (x.1.lanes).map fun l => (x.2, l)

/-- A vector register after lanes `from` on of the list have moved into it. -/
def movedReg (src : List VReg) (ls : List (Nat × Nat)) (old : VReg) : VReg :=
  (List.range 96).map fun j => match ls[j]? with
    | some (i, l) => lane (src.getD i []) l
    | none => lane old j

/-- One participant with the lanes that the regroup gives it. -/
def Group.takeLanes (g : Group) (gs : List Group) (ls : List (Nat × Nat)) : Group :=
  let ring := (List.range 64).map fun n => (n, movedReg (gs.map fun h => smGet vzero h.vring n) ls (smGet vzero g.vring n))
  let fix := (List.range 16).map fun n =>
    (48 + n, movedReg (gs.map fun h => smGet vzero h.vfix (48 + n)) ls (smGet vzero g.vfix (48 + n)))
  { g with
    vring := smSetAll vzero g.vring ring, vfix := smSetAll vzero g.vfix fix
    t := { g.t with mask := BitVec.ofNat 96 (2 ^ min ls.length 96 - 1) } }

/-- The regroup of all participants; each but the last to arrive finds its result when it issues again. -/
def State.regroup (s : State) (gs : List Group) : State :=
  let ls := regroupLanes gs
  gs.zipIdx.foldl (fun s x =>
    let mine := (ls.drop (96 * x.2)).take 96
    let g := x.1.takeLanes gs mine
    s.setGroup { g with regroupRes := some mine.length }) s

/-- g.regroup (07 R171). Two points are the model's: a participant whose LD is not zero holds its slot before it parks (log 62), and a
named group that is ENDING already counts as ended (log 63). -/
def execGRegroup (d a : Reg) (s : State) : Out :=
  let g := s.g
  let m := (g.sr a).toNat % 2 ^ 32
  let bad : Out := .next (s.takeFault .barrierCount (BitVec.ofNat 64 m))
  let ixs := (List.range 32).filter (bitAt m)
  match g.regroupRes with
  | some n => .next (((s.modG fun g => { g with regroupRes := none }).setS d (BitVec.ofNat 64 n)).retire 1)
  | none =>
    if ixs.length = 0 ∨ 4 < ixs.length ∨ !bitAt m g.index ∨ (ixs.any fun i => g.teamGroups ≤ i) then bad
    else if g.pair ∧ (ixs.any fun i => i % 2 ≠ g.index % 2) then bad
    else
      let others := (ixs.filter fun i => i ≠ g.index).map (s.teamGroup g.team)
      let parked := s.regrouping g.team
      if others.any fun o => (match o with | none => true | some x => x.stat = .ended || x.stat = .ending) then
        let s := (parked.filter fun x => x.2 = m).foldl (fun s x => s.faultGroup x.1 .barrierCount (BitVec.ofNat 64 m)) s
        .next (s.takeFault .barrierCount (BitVec.ofNat 64 m))
      else if parked.any fun x => x.2 ≠ m ∧ (bitAt m x.1.index ∨ bitAt x.2 g.index) then bad
      else if !g.regroupable ∨ (parked.any fun x => x.2 = m && x.1.wpos ≠ g.wpos) then bad
      else if g.t.ld ≠ 0 ∨ g.f.ld ≠ 0 then .next (s.hold leafLd)
      else
        let there := parked.filter fun x => x.2 = m
        if there.length + 1 < ixs.length then .next (s.park (.regroup m))
        else
          let gs := ixs.filterMap (s.teamGroup g.team)
          let s := s.regroup gs
          let n := s.g.regroupRes.getD 0
          .next (((s.modG fun g => { g with regroupRes := none }).setS d (BitVec.ofNat 64 n)).retire (1 + 3 * gs.length))

/-- yield: a run boundary after the word, with the effect of Y (07 R172). -/
def execYield (s : State) : Out :=
  .next ((s.retire 1).modG fun g => { g.noteHints.boundary with y := true })

/-! ### Monitors (07 R173) -/

/-- Enters a path slot's monitor as the one armed last on a core; a 65th entry evicts the one armed longest, which latches
LOST. -/
def State.enterMon (s : State) (core gid : Nat) (f : Bool) : State :=
  let s := s.modCore core fun c => { c with mons := (c.mons.filter fun m => m ≠ (gid, f)) ++ [(gid, f)] }
  match (s.core core).mons with
  | old :: rest =>
    if 64 < (s.core core).mons.length then
      (s.modCore core fun c => { c with mons := rest }).modGroup old.1 fun h => h.latchPath old.2 .lost
    else s
  | [] => s

/-- mon.arm: the arm is a request to the line's serving point, which records it, or holds it for a release (07 R173; 11 R239,
R242). -/
def execMonArm (a : Reg) (s : State) : Out :=
  withVar a (fun pa s =>
    let g := s.g
    let part := s.partOf g
    let die := dieOfCore g.core
    if s.svtBlocked part die pa (.core g.core) then .next ((s.svtAsk part die pa (.core g.core)).hold leafLd)
    else
      let s := s.modG fun g => g.modP fun p => { p with mon := some { line := pa / 64, cause := none } }
      .next (((s.svtSee part die pa (.core g.core)).enterMon g.core g.gid g.curF).retire 1)) s

/-- The result of a cause. -/
def Cause.num : Cause → Word
  | .store => 0 | .lost => 1 | .spurious => 2

/-- mon.wait (07 R173). -/
def execMonWait (d : Reg) (s : State) : Out :=
  let g := s.g
  match g.p.mon with
  | none => .next ((s.setS d 1).retire 1)
  | some m =>
    match m.cause with
    | none => .next (s.park .monitor)
    | some c =>
      let s := s.modG fun g => g.modP fun p => { p with mon := none }
      let s := s.modCore g.core fun k => { k.nearDrop (fun l => l.line = m.line) with
        mons := k.mons.filter fun x => x ≠ (g.gid, g.curF) }
      .next ((s.setS d c.num).retire 1)

/-- MONITOR_SPURIOUS (07 R173). -/
def execMonitorSpurious (gid : Nat) (f : Bool) (s : State) : Out := .next (s.modGroup gid fun g => g.latchPath f .spurious)

/-! ### Counters and tags (07 R174, R175) -/

/-- Whether counters are at most their limits; 7 imposes none. -/
def PathState.within (p : PathState) (ld st cp tl : Nat) : Bool :=
  (ld = 7 || p.ld ≤ ld) && (st = 7 || p.st ≤ st) && (cp = 7 || p.cp ≤ cp) && (tl = 7 || p.tl ≤ tl)

/-- wait (07 R174). -/
def execWait (t c l n : BitVec 3) (s : State) : Out :=
  if s.g.p.within n.toNat l.toNat c.toNat t.toNat then .next (s.retire 1)
  else .next (s.park (.counters n.toNat l.toNat c.toNat t.toNat))

/-- TAGS of the executing group's core. -/
def State.tags (s : State) : Word := (s.core s.g.core).tagSet

/-- Whether a tag wait's condition holds. -/
def tagsMet (tags mask : Word) (all : Bool) : Bool := mask = 0 || (if all then tags &&& mask = mask else tags &&& mask ≠ 0)

/-- tag.wait (07 R175). -/
def tagWait (all : Bool) (d a : Reg) (s : State) : Out :=
  let m := s.g.sr a
  if tagsMet s.tags m all then .next ((s.setS d (s.tags &&& m)).retire 1) else .next (s.park (.tags m all))
/-- tag.wait.any. -/
def execTagWaitAny (d a : Reg) (s : State) : Out := tagWait false d a s
/-- tag.wait.all. -/
def execTagWaitAll (d a : Reg) (s : State) : Out := tagWait true d a s
/-- tag.ffs: 64 where no bit is set. -/
def execTagFfs (d a : Reg) (s : State) : Out :=
  .next ((s.setS d (BitVec.ofNat 64 (ctz64 (s.tags &&& s.g.sr a)))).retire 1)
/-- tag.clr. -/
def execTagClr (a : Reg) (s : State) : Out :=
  let m := s.g.sr a
  .next ((s.modCore s.g.core fun c => { c with tagSet := c.tagSet &&& ~~~m }).retire 1)

end Sys2Proof.Machine
end

