-- ==== Sys2Proof/Machine/Launch.lean ====
section
/-! DEFINITION. Launch records and their checks (05 R125, R126; 09 R179), child launches (05 R128, R129; 07 R165), and
admission of kicked and launched records (05 R124, R131, R132; 21 R389). -/

namespace Sys2Proof.Machine

/-! ### Fresh numbers -/

/-- A number that no group, team or task holds (log 2). -/
def State.newId (s : State) : Nat :=
  1 + (s.allGroups.map (·.gid) ++ s.teams.map (·.1) ++ s.tasks.map (·.1)).foldl max s.seq

/-- The lowest grid id from 1 that names no grid of an enclave that is not both completed and retired (05 R124;
log 14). -/
def State.freeGrid (s : State) (enc : Nat) : Nat :=
  let used := (s.tasks.filter fun t => t.2.enc = enc && !(t.2.stage = .done && t.2.retired)).map fun t => t.2.grid
  ((List.range (used.length + 1)).map (· + 1)).find? (fun g => !used.contains g) |>.getD 0

/-! ### Checks (05 R126) -/

/-- A region record that breaks 05 Table 5.5. -/
def regionBad (r : List Word) (i : Nat) : Bool :=
  let o := 0x80 + 24 * i
  let b := recDw r o
  let x := recDw r (o + 8)
  let m := recDw r (o + 16)
  let g := regionAt r i
  b % 64 ≠ 0 || 2 ^ 57 ≤ b || 2 ^ 48 ≤ x || x = 0 || x % 64 ≠ 0 || 2 ^ 57 < b + x || 2 ^ 8 ≤ m ||
  (if g.mode = 3 then 5 < g.rop || 5 < g.rtype || (3 ≤ g.rop && 4 ≤ g.rtype) else g.rop ≠ 0 || g.rtype ≠ 0)

/-- A field out of range, or a reserved field or region record that is not zero. -/
def recordBadFields (r : List Word) : Bool :=
  let d1 := recDw r 8
  let d2 := recDw r 0x10
  let nreg := bitsAt d1 32 4
  let lanes := bitsAt d1 24 7
  let groups := bitsAt d1 16 6
  let pair := bitAt d2 32
  recDw r 0 % 4 ≠ 0 || 2 ^ 57 ≤ recDw r 0 ||
  bitsAt d1 36 28 ≠ 0 || bitAt d1 31 || bitsAt d1 22 2 ≠ 0 ||
  lanes = 0 || 96 < lanes || (if pair then groups < 2 || 32 < groups else groups < 1 || 16 < groups) || d1 % 2 ^ 16 = 0 ||
  2 ^ 33 ≤ d2 || 2 ^ 48 ≤ recDw r 0x18 || recDw r 0x20 % 8 ≠ 0 || recDw r 0x28 % 8 ≠ 0 ||
  recDw r 0x30 ≠ 0 || recDw r 0x38 ≠ 0 || recDw r 0x1E8 ≠ 0 || recDw r 0x1F0 ≠ 0 || recDw r 0x1F8 ≠ 0 ||
  ((List.range 15).any fun i => if i < nreg then regionBad r i
    else (List.range 3).any fun k => recDw r (0x80 + 24 * i + 8 * k) ≠ 0)

/-- Groups of a record's team on one core at most. -/
def recordOnCore (r : List Word) : Nat :=
  let groups := bitsAt (recDw r 8) 16 6
  if bitAt (recDw r 0x10) 32 then (groups + 1) / 2 else groups

/-- A pool word that breaks 09 R179, the register rows included. -/
def poolwBad (r : List Word) : Bool :=
  let w := recDw r 0x10 % 2 ^ 32
  let regs := bitsAt w 0 8
  let scr := bitsAt w 8 8
  let acc := bitsAt w 16 8
  bitsAt w 24 8 ≠ 0 || 256 < regs + scr + acc || scr < 16 || 192 < scr || 144 < acc || scr < recordOnCore r ||
    regs < 8 * recordOnCore r

/-- Cores of a partition, ascending by die, cluster and core. -/
def State.partCores (s : State) (part : Nat) : List Nat :=
  (List.range 512).filter fun c => bitAt (s.part part).clusters (clusterOf c)

/-- The heap triple index of a queue. -/
def Enclave.heapOf (x : Enclave) (q : Nat) : Nat := ((x.queues[q]?).getD (0, 0)).1
/-- The priority of a queue. -/
def Enclave.prioOf (x : Enclave) (q : Nat) : Nat := ((x.queues[q]?).getD (0, 0)).2

/-- The heap triple of a queue, as the list of triples its accesses use. -/
def Enclave.heapsOf (x : Enclave) (q : Nat) : List Heap := (x.heaps[x.heapOf q]?).toList

/-- Whether a page lies in a pinned range (10 R213). -/
def Enclave.pinsPage (x : Enclave) (va : Nat) : Bool := x.pins.any fun r => r.1 ≤ va && va < r.1 + 4096 * r.2

/-- The page of an address as the enclave's own: HOME or BYPASS class (05 R126 step 5). -/
def State.complOk (s : State) (enc queue va : Nat) : Bool :=
  let x := s.encl enc
  let pa : Option Nat :=
    match (x.heapsOf queue).find? fun h => h.hb ≤ va && va < h.hb + h.hl with
    | some h => some ((va + h.ho) % 2 ^ 57)
    | none => (s.leafOf enc va).map fun l => l.pa va
  match pa.map s.canon with
  | none => false
  | some p =>
    let t := s.potOf (p / 4096)
    t.owner = enc && (t.stat = 1 || t.stat = 2 || t.stat = 3 || t.stat = 5) &&
      ((s.classDef x.part t.cls).map fun d => d.ldr.mode ≠ 1 : Option Bool).getD false

/-- Steps 4 and 5 of 05 R126 for a record that has been read. -/
def State.recordCheck (s : State) (enc queue : Nat) (r : List Word) : Option Code :=
  let pairs := (s.partCores (s.encl enc).part).filter fun c => c % 2 = 0
  if recordBadFields r ∨ poolwBad r ∨ (bitAt (recDw r 0x10) 32 ∧ pairs = []) then some .illegalInstruction
  else if recDw r 0x20 ≠ 0 ∧ !s.complOk enc queue (recDw r 0x20) then some .accessMode
  else if recDw r 0x28 ≠ 0 ∧ !s.complOk enc queue (recDw r 0x28) then some .accessMode
  else none

/-! ### launch (07 R165) -/

/-- A new task. -/
def newTask (id enc queue grid depth : Nat) (parent : Option Nat) (at_ : Nat) (r : List Word) (st : Stage) : Task :=
  { id := id, enc := enc, queue := queue, grid := grid, depth := depth, parent := parent, recAt := at_, rcd := r, stage := st
    lease := .walk, attempts := 0, waitFrom := 0, pendFrom := 0, frames := [], producers := [], admitted := 0, arbitrated := 0, arbCyc := 0, forward := none
    fixed := [], edgeAt := none, placed := 0, published := 0, retired := false, fault := none, supp := 0, ended := false, reported := false
    replay := 0, ranOn := 0 }

/-- The lowest-numbered FREE entry of a pending-launch queue. -/
def Team.freePlq (t : Team) : Option Nat := (List.range 4).find? fun i => !t.plq.any fun e => e.ix = i

/-- launch (07 R165). -/
def execLaunch (d a : Reg) (s : State) : Out :=
  let g := s.g
  let at_ := g.sr a
  if g.index ≠ 0 then .next (s.takeFault .privilege at_)
  else if g.depth = 9 then .next (s.takeFault .launchDepth at_)
  else withRead at_.toNat 512 64 (fun bs s =>
    let r := bytesDwords 64 bs
    let queue := ((s.taskOf s.g).map Task.queue).getD 0
    match s.recordCheck g.enc queue r with
    | some c => .next (s.takeFault c at_)
    | none =>
      match (s.team g.team).bind fun t => t.freePlq with
      | none => .next (s.park .plq)
      | some ix => packageRelease (fun s =>
          let id := s.newId
          let grid := s.freeGrid g.enc
          let t := newTask id g.enc queue grid (g.depth + 1) (some g.team) at_.toNat r .queued
          let e : PlqEnt := { ix := ix, task := id, order := s.seq }
          let s : State := { s with tasks := smPut s.tasks id t, seq := s.seq + 1 }
          let s := s.modTeam g.team fun t => { t with plq := t.plq ++ [e] }
          .next ((s.setS d (BitVec.ofNat 64 grid)).retire 1)) s) s

/-! ### Conflicts and ancestry (11 R253, R254) -/

/-- Whether two region records conflict. -/
def regionsMeet (a b : Region) : Bool :=
  a.base < b.base + b.extent && b.base < a.base + a.extent &&
    !((a.mode = 0 && b.mode = 0) || (a.mode = 3 && b.mode = 3 && a.rop = b.rop && a.rtype = b.rtype))
/-- Whether two tasks have conflicting regions. -/
def Task.meets (a b : Task) : Bool := a.regions.any fun x => b.regions.any (regionsMeet x)

/-- The ancestors of a task; fuel bounds the depth. -/
def State.ancestors (s : State) : Nat → Task → List Nat
  | 0, _ => []
  | n + 1, t =>
    match (t.parent.bind s.team).bind fun m => s.task m.task with
    | some p => p.id :: s.ancestors n p
    | none => []
/-- Whether one task is an ancestor of the other. -/
def State.kin (s : State) (a b : Task) : Bool := (s.ancestors 10 a).contains b.id || (s.ancestors 10 b).contains a.id

/-- Whether a task stands in its queue's dependence window. -/
def Task.inWindow (t : Task) : Bool :=
  match t.stage with
  | .queued | .done | .removed => false
  | _ => true

/-- The tasks of a queue's window. -/
def State.window (s : State) (enc queue : Nat) : List Task :=
  (s.tasks.filter fun t => t.2.enc = enc && t.2.queue = queue && t.2.inWindow).map (·.2)

/-! ### Admission (05 R132) -/

/-- The HELD entry that a queue admits from first. 05 R129 orders the entries of one team: of entries of several teams the model
takes the oldest (log 60). -/
def State.held4 (s : State) (enc queue : Nat) : List (Nat × PlqEnt) :=
  let es := s.teams.flatMap fun t => (t.2.plq.filter fun e =>
    ((s.task e.task).map fun x => x.enc = enc && x.queue = queue : Option Bool).getD false).map fun e => (t.1, e)
  match es with
  | [] => []
  | e :: rest => [rest.foldl (fun a b => if b.2.order < a.2.order then b else a) e]

/-- Whether a queue can be admitted from: its window has room and a record waits. -/
def State.admissible (s : State) (enc queue : Nat) : Bool :=
  (s.window enc queue).length < 64 && (s.held4 enc queue ≠ [] || smGet [] (s.encl enc).kicks queue ≠ [])

/-- The admissible queues of a die: priority, enclave, queue. -/
def State.admitQueues (s : State) (die : Nat) : List (Nat × Nat × Nat) :=
  (s.encs.filter fun e => e.2.live && s.admitDie e.2.part = die).flatMap fun e =>
    ((List.range e.2.queues.length).filter (s.admissible e.1)).map fun q => (e.2.prioOf q, e.1, q)

/-- The queue that a die admits from: the highest priority, then round robin after the pair it served last. -/
def State.admitNext (s : State) (die : Nat) : Option (Nat × Nat × Nat) :=
  let qs := s.admitQueues die
  let top := qs.foldl (fun m q => max m q.1) 0
  let qs := qs.filter fun q => q.1 = top
  let least (l : List (Nat × Nat × Nat)) : Option (Nat × Nat × Nat) :=
    match l with
    | [] => none
    | x :: xs => some (xs.foldl (fun a b => if b.2.1 < a.2.1 || (b.2.1 = a.2.1 && b.2.2 < a.2.2) then b else a) x)
  match smFind (s.die die).served top with
  | none => least qs
  | some l =>
    match least (qs.filter fun q => l.1 < q.2.1 || (l.1 = q.2.1 && l.2 < q.2.2)) with
    | some q => some q
    | none => least qs

/-! ### Fault records (17 R327) -/

/-- The eight dwords of a fault record. -/
def Report.dwords (r : Report) (dropped supp : Nat) : List Word :=
  let g : Bool := r.noGroup
  [BitVec.ofNat 64 (2 ^ 63 + b2n r.prec * 2 ^ 62 + b2n g * 2 ^ 61 + b2n r.dep * 2 ^ 60 + b2n r.unhandled * 2 ^ 59 +
      dropped * 2 ^ 32 + supp * 2 ^ 24 + (if g then 0 else r.cwi % 16 * 2 ^ 20 + b2n r.pathF * 2 ^ 19) + r.code.num), r.fra,
   BitVec.ofNat 64 (if g then 0 else r.pc), BitVec.ofNat 64 (if g then 0 else bitsAt r.mask.toNat 0 64),
   BitVec.ofNat 64 (if g then 0 else bitsAt r.mask.toNat 64 32), BitVec.ofNat 64 (r.queue * 2 ^ 48 + r.ident),
   BitVec.ofNat 64 (if g then 0 else bitsAt r.core 0 9 * 2 ^ 32 + r.counters), if g then 0 else r.cyc]

/-- Writes a record in the enclave's fault queue; a slot that is still VALID drops it. -/
def State.faultWrite (s : State) (enc : Nat) (r : Report) (supp : Nat) : State :=
  let x := s.encl enc
  let at_ := x.ecs + 0x2000 + 64 * x.faultIx
  let old := leNat (s.coherent x.part at_ 8)
  if bitAt old 63 then s.modEnc enc fun x => { x with dropped := min (x.dropped + 1) 65535 }
  else (s.hubStore x.part at_ (dwordBytes (r.dwords x.dropped supp))).modEnc enc fun x =>
    { x with faultIx := (x.faultIx + 1) % 64, dropped := 0 }

/-- A report that names no group. -/
def bareReport (code : Code) (fra : Word) (grid queue : Nat) (dep : Bool) : Report :=
  { code := code, fra := fra, pc := 0, cwi := 0, pathF := false, mask := 0, prec := false, unhandled := false, noGroup := true
    dep := dep, ident := grid * 2 ^ 24, queue := queue, core := 0, counters := 0, cyc := 0 }

/-! ### Entering the window -/

/-- The armed replay block takes the next task admitted from its queue; a task of more than 511 groups runs unrecorded
(21 R389). -/
def State.arm (s : State) (t : Task) : Task × State :=
  let r := (s.encl t.enc).replay
  if !r.armed ∨ r.queue ≠ t.queue then (t, s)
  else
    let big : Bool := 511 < t.teams * t.groups
    ({ t with replay := if big then 0 else r.mode },
     s.modEnc t.enc fun x => { x with replay := { x.replay with armed := false, task := some t.id, tooBig := big } })

/-- A task enters its window: the earlier tasks of the window that it conflicts with are its producers. -/
def State.enterWindow (s : State) (t : Task) : State :=
  let before := (s.window t.enc t.queue).mergeSort fun a b => a.admitted ≤ b.admitted
  let ps := (before.filter fun p => p.id ≠ t.id && p.meets t && !s.kin p t).map (·.id)
  let r := State.arm { s with seq := s.seq + 1 } { t with stage := .depend, producers := ps, admitted := s.seq }
  { r.2 with tasks := smPut r.2.tasks t.id r.1 }

/-- Reads a kicked record as 05 R126 step 3 gives it: its dwords, or the code of the first failure. -/
def State.readKicked (s : State) (enc q at_ : Nat) : Except Code (List Word) :=
  if at_ % 64 ≠ 0 then .error .misaligned
  else match s.readIn enc ((s.encl enc).heapsOf q) at_ 512 with
    | .error c => .error c
    | .ok bs => .ok (bytesDwords 64 bs)

/-- Whether the read of a kicked record meets a poisoned line (17 Table 17.5). -/
def State.kickedPoisoned (s : State) (enc q at_ : Nat) : Bool :=
  (cuts at_ (List.replicate 512 0#8)).any fun c => match s.xlatIn enc ((s.encl enc).heapsOf q) c.1 .load with
    | .ok pa => s.poisoned pa c.2.length
    | .error _ => false

/-- The read of a kicked record at the memory controllers (09 R207). -/
def State.countKicked (s : State) (enc q at_ : Nat) : State :=
  s.countPeek (s.encl enc).part ((cuts at_ (List.replicate 512 0#8)).filterMap fun c =>
    (s.xlatIn enc ((s.encl enc).heapsOf q) c.1 .load).toOption)

/-- ADMISSION_OPPORTUNITY: at most one record enters its window; a kicked record that fails is reported (05 R132). -/
def execAdmissionOpportunity (die : Nat) (s : State) : Out :=
  match s.admitNext die with
  | none => .next s
  | some (prio, enc, q) =>
    let s := s.modDie die fun d => { d with served := smPut d.served prio (enc, q) }
    match s.held4 enc q with
    | (team, e) :: _ =>
      let s := s.modTeam team fun t => { t with plq := t.plq.filter fun x => x.ix ≠ e.ix }
      match s.task e.task with
      | some t => .next (s.enterWindow t)
      | none => .next s
    | [] =>
      match smGet [] (s.encl enc).kicks q with
      | [] => .next s
      | at_ :: rest =>
        let s := s.modEnc enc fun x => { x with kicks := smSet [] x.kicks q rest }
        let s := s.countKicked enc q at_.toNat
        let bad (c : Code) : Out := .next (s.faultWrite enc (bareReport c at_ 0 q false) 0)
        if s.kickedPoisoned enc q at_.toNat then .next (s.partitionReset (s.encl enc).part) else
        match s.readKicked enc q at_.toNat with
        | .error c => bad c
        | .ok r =>
          match s.recordCheck enc q r with
          | some c => bad c
          | none =>
            let id := s.newId
            let t := newTask id enc q (s.freeGrid enc) 0 none at_.toNat r .depend
            .next (s.enterWindow t)

end Sys2Proof.Machine
end

