-- ==== Sys2Proof/Machine/Wake.lean ====
section
/-! DEFINITION. When a parked instruction's condition holds (01 R25; 05 R138), and the event that makes its group ready to
issue it again. -/

namespace Sys2Proof.Machine

/-- Whether a fabric window's target counter has reached a count, wrap included (26 R429). -/
def tcntReached (tcnt n : Nat) : Bool := (tcnt + 2 ^ 48 - n % 2 ^ 48) % 2 ^ 48 < 2 ^ 47

/-- A window of a package's number. -/
def State.fwin (s : State) (wid : Nat) : Option FWin := s.fwins.find? fun w => w.wid = wid

/-- Whether an event's word is not zero; an address that no longer passes its checks is left to the reissue. -/
def State.eventSet (s : State) (g : Group) (va : Nat) : Bool :=
  match s.farCheck g va 8 .atomic (some (eventAtom .evtWait)) with
  | .ok pas _ =>
    let pa := pas.headD 0
    leNat (s.peek (s.partOf g) (s.clsOf pa) (dieOfCore g.core) pa 8) ≠ 0
  | _ => true

/-- Whether the condition that a path slot is parked on holds. -/
def State.parkMet (s : State) (g : Group) (p : PathState) (w : Park) : Bool :=
  match w with
  | .fe owner off size full => match s.group owner with
    | none => true
    | some o => !s.sealedAt o off && (List.range (size / 4)).all fun i =>
        ((s.poolOff o (off + 4 * i)).map fun x => decide (s.feFull o.core x = full)).getD true
  | .barrier n =>
    let gen : Nat := (((s.team g.team).map fun (x : Team) => (smGet {} x.bars n).g)).getD 0
    ((smFind p.toks n).map fun (t : Nat) => decide (gen ≠ t)).getD true
  | .event va => s.eventSet g va
  | .join t need => p.joined.isSome || (((s.task t).map fun (x : Task) => decide (need ≤ x.published)).getD true)
  | .plq => (((s.team g.team).map fun (t : Team) => t.freePlq.isSome).getD true)
  | .monitor => ((p.mon.map fun (m : Monitor) => m.cause.isSome).getD true)
  | .counters ld st cp tl => p.within ld st cp tl
  | .tags m all => tagsMet (s.core g.core).tagSet m all
  | .lantern part cls => ((s.classDef part cls).map fun (d : ClassDef) => d.change.isNone).getD true
  | .sealedWindow core win =>
    match smFind (s.core core).wins win with
    | none => true
    | some w => match s.group w.gid with
      | none => true
      | some o => !s.sealedAt o (w.addr % 2 ^ 20)
  | .regroup _ => g.regroupRes.isSome
  | .binding .. | .coll .. => p.result.isSome
  | .wcnt wid n ext => ((s.fwin wid).map fun (w : FWin) =>
      w.stat = .closed || w.enc ≠ g.enc || (w.desc.getD 1 0).toNat ≠ ext || tcntReached w.tcnt n).getD true

/-- A path slot whose condition holds leaves its park. -/
def State.wakePath (s : State) (g : Group) (p : PathState) : PathState :=
  match p.park with
  | some w => if s.parkMet g p w then { p with park := none } else p
  | none => p

/-- Whether some parked wait of a group is satisfied. -/
def State.waitMet (s : State) (g : Group) : Bool :=
  let met (p : PathState) : Bool := (p.park.map (s.parkMet g p)).getD false
  met g.t || met g.f

/-- Whether what a parked group waits for has come: some parked wait is satisfied, or a path slot that R19 held is ready
(05 Table 5.7). -/
def State.parkDone (s : State) (g : Group) : Bool := s.waitMet g || (s.choosePath g).isSome

/-- PARK_WAKE: the path slots whose conditions hold may issue again; a parked group becomes READY. -/
def execParkWake (gid : Nat) (s : State) : Out :=
  match s.group gid with
  | none => .next s
  | some g =>
    if !(s.waitMet g || (g.stat = .parked && s.parkDone g)) ∨ g.stat = .halted then .next s
    else .next (s.setGroup { g with
      t := s.wakePath g g.t, f := s.wakePath g g.f, stat := if g.stat = .parked then .ready else g.stat })

end Sys2Proof.Machine
end

