-- ==== Sys2Proof/Machine/Place.lean ====
section
/-! DEFINITION. Placing teams on cores, starting their groups, halting and evicting teams, and resuming them (05 R121,
R123, R133, R134; 08 R177, R178; 09 R181; 18 R347 to R349). -/

namespace Sys2Proof.Machine

/-- A task that has a fault or has ended starts nothing more (17 R325). -/
def Task.over (t : Task) : Bool := t.ended || t.fault.isSome

/-! ### Residents (05 R121, R133; 19 R358) -/

/-- Groups of a record's team on the core that stands at a place in its list of cores. -/
def Task.groupsAt (t : Task) (i : Nat) : Nat :=
  if t.pair then (if i = 0 then (t.groups + 1) / 2 else t.groups / 2) else t.groups

/-- Teams whose places are fixed and which have not started, with their tasks (11 R257). -/
def State.plannedTeams (s : State) : List (Team × Task) :=
  s.teams.filterMap fun m => match s.task m.2.task with
    | some t => if m.2.stat = .waiting && m.2.gids.isEmpty then some (m.2, t) else none
    | none => none

/-- Groups that teams with fixed places will bring to a core. -/
def State.planned (s : State) (core : Nat) : Nat :=
  (s.plannedTeams.map fun m =>
    (m.1.cores.zipIdx.map fun c => if c.1 = core then m.2.groupsAt c.2 else 0).foldl (· + ·) 0).foldl (· + ·) 0

/-- Interfaces that have an entry in a core's bucket table, or will have one for a team with a fixed place (19 R358). -/
def State.coreVis (s : State) (core : Nat) : List Nat :=
  uniq ((s.core core).buckets.map Bucket.vi ++
    (s.plannedTeams.filter fun m => m.1.cores.contains core).map fun m => s.viOf m.2.enc)

/-- Resident groups of a core with those that are planned. -/
def State.load (s : State) (core : Nat) : Nat := (s.residents core).length + s.planned core

/-- A core's matrix array, or its pair's, is retired (17 Table 17.4). -/
def State.arrayOut (s : State) (core : Nat) : Bool :=
  s.retired.contains (3, core) || s.retired.contains (3, if core % 2 = 0 then core + 1 else core - 1)

/-- Whether a core can hold `n` groups and `rows` rows of a task, claims included, leaving one team's rows alone. -/
def State.canHold (s : State) (t : Task) (team core n rows : Nat) : Bool :=
  let vis := s.coreVis core
  s.load core + n ≤ 32 && rows ≤ s.rowsAvail core team && (vis.contains (s.viOf t.enc) || vis.length < 32) &&
    (t.accRows = 0 || !s.arrayOut core)

/-- The places a task's team may take: a core, or the even and odd core of a pair; for a task whose overlap is forwarded, on
the die fixed for it (11 R257). -/
def State.places (s : State) (t : Task) : List (List Nat) :=
  let cs := (s.partCores (s.encl t.enc).part).filter fun c => (t.forward.map fun d => decide (dieOfCore c = d)).getD true
  if t.pair then (cs.filter fun c => c % 2 = 0).map fun c => [c, c + 1] else cs.map fun c => [c]

/-- Groups that a new team brings to each core of its place. -/
def Task.newGroups (t : Task) : List Nat := if t.pair then [t.groupsAt 0, t.groupsAt 1] else [t.groupsAt 0]

/-- Whether a place can hold a team that brings `ns` groups to its cores. -/
def State.placeOk (s : State) (t : Task) (team : Nat) (ns cs : List Nat) : Bool :=
  (cs.zip ns).all fun c => s.canHold t team c.1 c.2 t.rowsPerCore

/-- Resident groups over a place. -/
def State.placeLoad (s : State) (cs : List Nat) : Nat := (cs.map s.load).foldl (· + ·) 0

/-- The place with the fewest resident groups; ties go to the lowest (05 R133). -/
def State.bestPlace (s : State) (t : Task) (team : Nat) (ns : List Nat) (ps : List (List Nat)) : Option (List Nat) :=
  match ps.filter (s.placeOk t team ns) with
  | [] => none
  | p :: rest => some (rest.foldl (fun a b => if s.placeLoad b < s.placeLoad a then b else a) p)

/-! ### Taking rows (09 R181) -/

/-- Takes `n` rows of a core for a team at row-map indexes from `ix`; none where claims fail. -/
def State.takeRows (s : State) (core enc team n : Nat) : Option (List Nat) × State :=
  let s := s.makeRoom core team n 256
  let rs := ((s.core core).freeList).take n
  if rs.length < n then (none, s)
  else (some rs, rs.zipIdx.foldl (fun s r => s.takeRow core r.1 enc team r.2) s)

/-- Takes a team's rows on every core of a place, or none of them. -/
def State.takePlace (s : State) (enc team n : Nat) : List Nat → Option (List (List Nat)) × State
  | [] => (some [], s)
  | c :: cs =>
    match s.takeRows c enc team n with
    | (none, s) => (none, s)
    | (some r, s) =>
      match s.takePlace enc team n cs with
      | (some rs, s) => (some (r :: rs), s)
      | (none, s) => (none, s.modCore c fun k => k.freeRows fun x => x.team = team)

/-! ### Starting groups (01 R12; 05 R123, R125) -/

/-- The lowest residency index that no resident group of a core holds. -/
def State.freeResid (s : State) (core : Nat) : Nat :=
  ((List.range 64).find? fun i => !(s.residents core).any fun g => g.resid = i).getD 0

/-- The slot of a core with fewer resident groups, slot 0 on a tie. -/
def State.homeSlot (s : State) (core : Nat) : Nat :=
  let n (x : Nat) : Nat := ((s.residents core).filter fun g => g.slot = x).length
  if n 1 < n 0 then 1 else 0

/-- A group as it starts, from its task's record. -/
def startGroup (t : Task) (h : Heap) (team ix core slot resid gid i : Nat) : Group :=
  let r := t.rcd
  let half := if t.pair then i % 2 else 0
  let wsb := 0x800000 + 64 * bitsAt (recDw r 0x18) 0 16
  let fix := ((List.range 8).map fun k => (48 + k, BitVec.ofNat 64 (recDw r (0x40 + 8 * k)))) ++
    [(56, BitVec.ofNat 64 (t.grid * 2 ^ 24 + ix * 2 ^ 8 + i)),
     (57, BitVec.ofNat 64 (t.depth * 2 ^ 28 + t.teams * 2 ^ 8 + half * 2 ^ 7 + b2n t.pair * 2 ^ 6 + t.groups)),
     (58, BitVec.ofNat 64 (0x800000 + 64 * bitsAt (recDw r 0x18) 32 16))]
  { gid := gid, team := team, core := core, slot := slot, resid := resid, enc := t.enc, stat := .ready
    sfix := smSetAll 0 [] fix
    wsb := BitVec.ofNat 64 wsb, wsp := BitVec.ofNat 64 wsb
    wsl := BitVec.ofNat 64 (wsb + 64 * bitsAt (recDw r 0x18) 16 16)
    t := { pc := BitVec.ofNat 57 (recDw r 0), mask := BitVec.ofNat 96 (2 ^ bitsAt (recDw r 8) 24 7 - 1), stat := .live }
    hb := BitVec.ofNat 64 h.hb, hl := BitVec.ofNat 64 h.hl, ho := BitVec.ofNat 64 h.ho, hlc := BitVec.ofNat 64 h.hlc
    poolw := BitVec.ofNat 32 t.poolw }

/-- An interface's bucket entry on a core, made where it has none and the table of 32 has room (19 R357). -/
def Core.giveBucket (c : Core) (vi : Nat) : Core :=
  if (c.buckets.any fun b => b.vi = vi) || 32 ≤ c.buckets.length then c
  else { c with buckets := c.buckets ++ [{ vi := vi, act := false, frac := 0, level := 0, cap := 1 }] }

/-- Starts every group of a team on its cores; the team is RESIDENT. -/
def State.startTeam (s : State) (t : Task) (m : Team) : State :=
  let x := s.encl t.enc
  let heap : Heap := (x.heaps[x.heapOf t.queue]?).getD ⟨0, 0, 0, 0⟩
  let s := m.cores.foldl (fun s c => s.modCore c (·.giveBucket (s.viOf t.enc))) s
  let first := s.newId
  let s := { s with teams := smPut s.teams m.id { m with stat := .resident, gids := addrs first t.groups } }
  let s := (List.range t.groups).foldl (fun s i =>
    let core := m.cores.getD (if t.pair then i % 2 else 0) 0
    let g := startGroup t heap m.id m.index core (s.homeSlot core) (s.freeResid core) (first + i) i
    { s with groups := smPut s.groups g.gid g }) s
  s.modTask t.id fun t => { t with
    placed := t.placed + 1, stage := .running
    ranOn := m.cores.foldl (fun b c => b ||| 2 ^ dieOfCore c) t.ranOn }

/-- A new team of a task. -/
def newTeam (id task ix : Nat) (cs : List Nat) (rows : List (List Nat)) : Team :=
  { id := id, task := task, index := ix, stat := .waiting, cores := cs, rows := rows, lost := [], stagingLost := [], gids := []
    bars := [], e := 0, plq := [], haltedAt := 0 }

/-- Takes rows for team `id` at the best of some places; a place whose claims fail counts as unable (18 R348). Fuel is the
number of places. -/
def State.takeBest (s : State) (t : Task) (id : Nat) (ns : List Nat) :
    List (List Nat) → Nat → Option (List Nat × List (List Nat)) × State
  | _, 0 => (none, s)
  | ps, n + 1 =>
    match s.bestPlace t id ns ps with
    | none => (none, s)
    | some p =>
      match s.takePlace t.enc id t.rowsPerCore p with
      | (some rs, s) => (some (p, rs), s)
      | (none, s) => s.takeBest t id ns (ps.filter (· ≠ p)) n

/-- Takes rows for a new team at the best of some places. -/
def State.seatTeam (s : State) (t : Task) (ix : Nat) (ps : List (List Nat)) : Option Team × State :=
  let id := s.newId
  match s.takeBest t id t.newGroups ps 512 with
  | (some p, s) => (some (newTeam id t.id ix p.1 p.2), s)
  | (none, s) => (none, s)

/-! ### Halting (18 R347; 05 R134) -/

/-- Pool rows of a core that hold a LOCAL fabric window which is not CLOSED (25 R409). -/
def State.localWindowRows (s : State) (core : Nat) : List Nat :=
  (s.fwins.filter fun w => w.core = core).flatMap FWin.rows

/-- Whether a team stands in a slice that has ended, or has been evicted. -/
def State.setAside (s : State) (t : Team) : Bool :=
  t.stat = .evicted || t.stat = .waiting || (((s.task t.task).map fun x => (s.encl x.enc).halted).getD false)

/-- The rows of a team that a halt or an eviction has set aside become CLAIMABLE on all its cores once the CP and TL counters
of all its groups are zero (09 R180; 14 R291). -/
def State.settleRows (s : State) (team : Nat) : State :=
  let idle (p : PathState) : Bool := p.cp = 0 && p.tl = 0
  match s.team team with
  | none => s
  | some t =>
    if s.setAside t && t.gids.all fun i => ((s.group i).map fun g => (g.stat = .halted || g.stat = .ended) && idle g.t && idle g.f).getD true then
      t.cores.foldl (fun s core =>
        let keep := s.localWindowRows core
        s.modCore core fun c => { c with rows := c.rows.map fun (r : Nat × RowTag) =>
          if r.2.team = team && r.2.stat = .live && !keep.contains r.1 then (r.1, { r.2 with stat := .claimable }) else r }) s
    else s

/-- An engine operation of a group has left a core: a halted team's rows settle, and an interface that has left the core loses its
entry there (14 R291; 24 R402). -/
def State.opOver (s : State) (gid core : Nat) : State :=
  match s.group gid with
  | some g => if g.stat = .halted then (s.settleRows g.team).dropBuckets core else s
  | none => s

/-- A group halts in place: its monitors latch LOST, and it emits HALT. -/
def State.haltOne (s : State) (gid : Nat) (keepPark : Bool) : State :=
  match s.group gid with
  | none => s
  | some g =>
    if g.stat = .ready ∨ g.stat = .parked then
      let s := s.emitPacket g (packet 11 g.curF 0 g.ident g.p.pc.toNat g.p.mask 0)
      let off (p : PathState) : PathState := if keepPark then p else { p with park := none }
      s.setGroup { ((g.latchPath false .lost).latchPath true .lost) with
        stat := .halted, t := off ((g.latchPath false .lost).t), f := off ((g.latchPath true .lost).f), w := 0 }
    else s

/-- Halts every group of a team that is not bound, and settles its rows. -/
def State.haltTeam (s : State) (team : Nat) (keepPark : Bool) : State :=
  match s.team team with
  | none => s
  | some t =>
    let s := t.gids.foldl (fun s g => s.haltOne g keepPark) s
    let s := s.modTeam team fun t => { t with haltedAt := s.seq }
    ({ s with seq := s.seq + 1 } : State).settleRows team

/-- A request of the group was discarded at an order gate: LD still counts it, or the slot still waits for its old word (23
R399). -/
def Group.cut (g : Group) : Bool :=
  decide ((g.reqs.filter fun r => !r.pf).length < g.t.ld + g.f.ld) ||
    ((g.evt.map fun h => h.old.isNone).getD false && !(g.reqs.any fun r => r.atom.isSome))

/-- A group of an ended task is held for a request that was discarded: it cannot reach a run boundary, and stops there (17 R325;
23 R399). -/
def State.cutOff (s : State) : Bool :=
  s.g.cut && ((s.core s.g.core).slot s.g.slot).holds = some leafLd && ((s.taskOf s.g).map Task.ended).getD false

/-- The run of the group at the focus ends. Where the other path slot is to follow its first arrival at the join, the group
stays BOUND; else it goes back among the others, and halts where its task has ended or its enclave is halted (05 Table 5.7;
17 R325 step 2; 18 R347 step 1). -/
def State.runEnd (s : State) : State :=
  let g := s.g
  let ended := ((s.taskOf g).map Task.ended).getD false
  let halted := (s.encl g.enc).halted
  if !ended && !halted && s.staysBound then s.nextPath
  else
    let s := s.release
    if ended then s.haltOne g.gid false
    else if halted then
      ((s.haltOne g.gid false).modTeam g.team fun t => { t with haltedAt := s.seq }).settleRows g.team
    else s

/-- Evicts a team: its groups halt with their waits kept, and it leaves its cores (05 R134). -/
def State.evict (s : State) (team : Nat) : State :=
  let s := (s.modTeam team fun t => { t with stat := .evicted }).haltTeam team true
  (((s.team team).map Team.cores).getD []).foldl State.dropBuckets s

/-- A waiting parent: resident, with an incomplete child grid, and every group parked or ended; a group whose wait is satisfied
is parked no longer (05 R134, Table 5.7). -/
def State.waitingParent (s : State) (t : Team) : Bool :=
  t.stat = .resident &&
  (s.tasks.any fun x => x.2.parent = some t.id && x.2.stage ≠ .done && !x.2.ended) &&
  t.gids.all fun i => match s.group i with
    | some g => (g.stat = .parked && !s.parkDone g) || g.stat = .ended
    | none => true

/-- When a team's last group parked. -/
def State.parkTime (s : State) (t : Team) : Nat := (t.gids.filterMap fun i => (s.group i).map (·.parkedAt)).foldl max 0

/-- The teams that a task descends from: the team that launched it, the team that launched that team's task, and so on;
fuel bounds the depth. -/
def State.ancestorTeams (s : State) : Nat → Task → List Nat
  | 0, _ => []
  | n + 1, t =>
    match t.parent.bind s.team with
    | none => []
    | some m => m.id :: (((s.task m.task).map (s.ancestorTeams n)).getD [])

/-- The waiting parent to evict for a team of a task: of the teams it descends from, the most recently parked. -/
def State.victim (s : State) (t : Task) : Option Team :=
  match ((s.ancestorTeams 10 t).filterMap s.team).filter s.waitingParent with
  | [] => none
  | m :: rest => some (rest.foldl (fun a b => if s.parkTime a < s.parkTime b then b else a) m)

/-- Finds a team its place, evicting waiting parents one by one while it fits nowhere (05 R134). Fuel bounds the evictions. -/
def State.takeEvicting {α : Type} (t : Task) (take : State → Option α × State) : Nat → State → Option α × State
  | 0, s => take s
  | n + 1, s =>
    match take s with
    | (some m, s) => (some m, s)
    | (none, s) =>
      match s.victim t with
      | none => (none, s)
      | some v => State.takeEvicting t take n (s.evict v.id)

/-! ### Resuming (18 R349; 08 R178) -/

/-- Gives a team's groups back to their slots: those that were halted become READY, reissue what they were parked on, and
emit RESUME (21 Table 21.9). -/
def State.readyTeam (s : State) (t : Team) : State :=
  let s := t.cores.foldl (fun s c => s.modCore c fun k => { k with rows := k.rows.map fun (r : Nat × RowTag) =>
    if r.2.team = t.id then (r.1, { r.2 with stat := .live }) else r }) s
  t.gids.foldl (fun s i => match s.group i with
    | none => s
    | some g =>
      if g.stat = .halted && g.stopped.isNone then
        let s := s.setGroup { g with stat := .ready, w := 0, syncDue := true
                                     t := { g.t with park := none }, f := { g.f with park := none } }
        s.emitPacket g (packet 12 g.curF 0 g.ident g.p.pc.toNat g.p.mask 0)
      else s) s

/-- Restores a team's sealed rows of one core while rows can be had; fuel is their number. -/
def State.restoreCore (s : State) (e team core : Nat) : Nat → State
  | 0 => s
  | n + 1 =>
    match (s.team team).bind fun t => (t.lost.find? fun l => l.1 = core) with
    | none => s
    | some l =>
      let s := s.makeRoom core team 1 1
      match (s.core core).freeList with
      | [] => s
      | row :: _ => ((s.takeRow core row e team l.2).restoreRow e team core l.2 row).restoreCore e team core n

/-- Restores what a team lacks on the cores of its rows. -/
def State.restoreTeam (s : State) (x : Task) (t : Team) : State := t.cores.foldl (fun s c => s.restoreCore x.enc t.id c 256) s

/-- Whether nothing of a team is sealed out. -/
def State.whole (s : State) (team : Nat) : Bool := ((s.team team).map fun t => t.lost.isEmpty).getD false

/-- Resumes a team that stands on its cores: with every row in place its groups become READY (18 R349). -/
def State.resumeTeam (s : State) (team : Nat) : State :=
  match s.team team with
  | none => s
  | some t =>
    match s.task t.task with
    | none => s
    | some x =>
      let s := s.restoreTeam x t
      if s.whole team then s.readyTeam t else s

/-- Whether an evicted team holds an open cluster window. -/
def State.hasWindow (s : State) (t : Team) : Bool :=
  t.cores.any fun c => (s.core c).wins.any fun w => t.gids.contains w.2.gid

/-- The groups of a team that have not ended, by the core of its place. -/
def State.liveGroups (s : State) (x : Task) (t : Team) : List Nat :=
  let n (i : Nat) : Nat := (t.gids.zipIdx.filter fun g => (!x.pair || g.2 % 2 = i) &&
    ((s.group g.1).map fun h => decide (h.stat ≠ .ended)).getD false).length
  if x.pair then [n 0, n 1] else [n 0]

/-- Whether a returning team fits on the cores that hold its rows. -/
def State.fitsBack (s : State) (x : Task) (t : Team) : Bool :=
  (t.cores.zip (s.liveGroups x t)).all fun c => s.canHold x t.id c.1 c.2 ((t.lost.filter fun l => l.1 = c.1).length)

/-- Seals a team's unclaimed rows of its cores in the order of claims (08 R178 step 1). A row that cannot be sealed, for want of
granules or PVT entries or since it is not CLAIMABLE, stays; the model goes on to the rows after it and keeps what it has sealed
(log 57). -/
def State.spillTeam (s : State) (t : Team) : State :=
  t.cores.foldl (fun s c =>
    ((List.range 256).reverse.filterMap fun ix =>
      ((s.core c).rows.find? fun r => r.2.team = t.id && r.2.stat = .claimable && r.2.ix = ix).map (·.1)).foldl
      (fun s r => (s.claimRow c r).getD s) s) s

/-- A team becomes resident on its cores: each group that has not ended takes its home slot and residency index anew
(05 R133), and none of them counts on a core before it has. Its monitors are entered there. -/
def State.seatGroups (s : State) (x : Task) (team : Nat) : State :=
  match s.team team with
  | none => s
  | some t =>
    let mons := t.gids.flatMap fun i => ((s.group i).map fun g =>
      ((s.core g.core).mons.filter fun m => m.1 = i)).getD []
    let s := t.gids.foldl (fun s i => match s.group i with
      | some g =>
        let s := s.modCore g.core fun c => { c with mons := c.mons.filter fun m => m.1 ≠ i }
        s.setGroup { g with core := 512 }
      | none => s) s
    let s := s.modTeam team fun t => { t with stat := .resident }
    let s := t.cores.foldl (fun s c => s.modCore c (·.giveBucket (s.viOf x.enc))) s
    let s := t.gids.zipIdx.foldl (fun s i =>
      let core := t.cores.getD (if x.pair then i.2 % 2 else 0) 0
      let slot := s.homeSlot core
      let resid := s.freeResid core
      s.modGroup i.1 fun g => { g with core := core, slot := slot, resid := resid }) s
    mons.foldl (fun s m => match s.group m.1 with
      | some g => s.enterMon g.core m.1 m.2
      | none => s) s

/-- A team's groups, rows and staging move to other cores, where every row is still to be restored. -/
def State.moveTeam (s : State) (x : Task) (t : Team) (cs : List Nat) (rows : List (List Nat)) : State :=
  let s := s.modTeam t.id fun t => { t with
    cores := cs, rows := rows, lost := cs.flatMap fun c => (List.range x.rowsPerCore).map fun i => (c, i)
    stagingLost := t.stagingLost.map fun c => cs.getD (t.cores.idxOf c) c }
  t.cores.foldl State.dropBuckets (s.seatGroups x t.id)

/-- Restores every row of a team into the rows it has taken. -/
def State.restoreAll (s : State) (x : Task) (team : Nat) (cs : List Nat) (rows : List (List Nat)) : State :=
  (cs.zip rows).foldl (fun s c => c.2.zipIdx.foldl (fun s r => s.restoreRow x.enc team c.1 r.2 r.1) s) s

/-- A returning team takes the cores that hold its rows again, where 05 R121 can be met there and all its sealed rows can be had
(08 R178; 18 R348); what it took and could not use is CLAIMABLE again. -/
def State.takeOwn (x : Task) (team : Nat) (s : State) : Option Unit × State :=
  match s.team team with
  | none => (none, s)
  | some t =>
    if s.fitsBack x t then
      let s := s.restoreTeam x t
      if s.whole team then (some (), s) else (none, s.settleRows team)
    else (none, s)

/-- A team that has its own cores again is resident there and goes on. -/
def State.backHome (s : State) (x : Task) (team : Nat) : State := (s.seatGroups x team).resumeTeam team

/-- A team that can take no other cores waits for its own, with the evictions of 05 R134 while it does not fit there. -/
def State.seatOwn (s : State) (x : Task) (team : Nat) : State :=
  match State.takeEvicting x (State.takeOwn x team) 32 s with
  | (some (), s) => s.backHome x team
  | (none, s) => s

/-- A place for a returning team by 05 R133, away from its old cores, where none of its rows is left (08 R178 steps 2 and 3): with
the evictions of R134 where it fits nowhere; its rows are unsealed there. -/
def State.seatAgain (s : State) (x : Task) (t : Team) : State :=
  match State.takeEvicting x (fun s => s.takeBest x t.id (s.liveGroups x t) (s.places x) 512) 32 s with
  | (none, s) => s
  | (some p, s) =>
    let s := (s.moveTeam x t p.1 p.2).restoreAll x t.id p.1 p.2
    if s.whole t.id then (match s.team t.id with | some t => s.readyTeam t | none => s) else s

/-- A returning team takes its place again: its own cores first. A team that holds an open window (25 R409), whose task's place is
fixed (11 R257; 13 R281), or of which a row stays after step 1 of 08 R178, takes no other. -/
def State.returnTeam (s : State) (t : Team) : State :=
  match s.task t.task with
  | none => s
  | some x =>
    match State.takeOwn x t.id s with
    | (some (), s) => s.backHome x t.id
    | (none, s) =>
      if x.forward.isSome || s.hasWindow t then s.seatOwn x t.id
      else
        let s := s.spillTeam t
        if t.cores.any fun c => (s.core c).rows.any fun r => r.2.team = t.id then s.seatOwn x t.id else s.seatAgain x t

/-! ### The attempt (08 R177) -/

/-- Places what it can of a task, in ascending team index; stops at the first team that fits nowhere. -/
def State.placeTask (s : State) (task : Nat) : Nat → State
  | 0 => s
  | n + 1 =>
    match s.task task with
    | none => s
    | some t =>
      if t.over ∨ t.teams ≤ t.placed then s
      else
        match s.teams.find? fun m => m.2.task = task && m.2.index = t.placed && m.2.stat = .waiting && m.2.gids.isEmpty with
        | some m => (s.startTeam t m.2).placeTask task n
        | none =>
          match State.takeEvicting t (fun s => s.seatTeam t t.placed (s.places t)) 32 s with
          | (some m, s) => (s.startTeam t m).placeTask task n
          | (none, s) => s

/-- Whether a task's teams may be placed: at Place or running, the enclave in its slice. -/
def State.placeable (s : State) (t : Task) : Bool :=
  (t.stage = .place || t.stage = .running) && t.placed < t.teams && !t.over && !(s.encl t.enc).halted

/-- The earliest placeable task of each queue of a partition. Queues are tried in rising task number (log 30). -/
def State.placeList (s : State) (part : Nat) : List Nat :=
  ((s.tasks.filter fun t => (s.encl t.2.enc).part = part && s.placeable t.2 &&
    !(s.tasks.any fun u => u.2.enc = t.2.enc && u.2.queue = t.2.queue && s.placeable u.2 && u.2.admitted < t.2.admitted)).map (·.1))

/-- Teams that are back in placement, or stand on their cores with rows still sealed, in rising team number (log 30). -/
def State.returning (s : State) (part : Nat) : List Team :=
  (s.teams.filter fun t => (((s.task t.2.task).map fun x =>
    (s.encl x.enc).part = part && !(s.encl x.enc).halted && !x.over) : Option Bool).getD false &&
    t.2.gids ≠ [] && (t.2.stat = .waiting || (t.2.onCores && t.2.lost ≠ []))).map (·.2)

/-- An evicted team returns to placement once one of its parked waits is satisfied (05 R134). -/
def State.recall (s : State) : State :=
  (s.teams.filter fun t => t.2.stat = .evicted && t.2.gids.any fun i => ((s.group i).map s.parkDone).getD false).foldl
    (fun s t => s.modTeam t.1 fun t => { t with stat := .waiting }) s

/-- PLACEMENT_ATTEMPT. Returning teams come first; one that fits nowhere does not hold back the others, whose end it may need
(05 R134, R139; log 30). -/
def execPlacementAttempt (part : Nat) (s : State) : Out :=
  let s := s.recall
  let s := (s.returning part).foldl (fun s t => if t.stat = .waiting then s.returnTeam t else s.resumeTeam t.id) s
  .next ((s.placeList part).foldl (fun s t => s.placeTask t 65536) s)

/-! ### Slices (18 R347, R349) -/

/-- The teams of an enclave that stand on their cores. -/
def State.standing (s : State) (enc : Nat) : List Nat :=
  (s.teams.filter fun t => t.2.onCores && (((s.task t.2.task).map fun x => x.enc = enc) : Option Bool).getD false).map (·.1)

/-- ENCLAVE_HALT: every group of the enclave that is not bound halts; a bound one halts at its next run boundary. -/
def execEnclaveHalt (enc : Nat) (s : State) : Out :=
  if !(s.encl enc).live then .next s
  else
    let s := s.modEnc enc fun x => { x with halted := true }
    .next ((s.standing enc).foldl (fun s t => s.haltTeam t false) s)

/-- ENCLAVE_RESUME: sealed rows are restored and teams become READY; a task that is to end resumes nothing. -/
def execEnclaveResume (enc : Nat) (s : State) : Out :=
  if !(s.encl enc).live then .next s
  else
    let s := s.modEnc enc fun x => { x with halted := false }
    let ts := (s.standing enc).filter fun t => (((s.team t).bind fun m => s.task m.task).map fun x => !x.over).getD false
    .next (ts.foldl State.resumeTeam s)

end Sys2Proof.Machine
end

