-- ==== Sys2Proof/Machine/Chandler.lean ====
section
/-! DEFINITION. Chandler's stages between admission and placement (05 Table 5.6): Depend and Arbitrate (11 R253 to R255),
leases and residency requests (10 R211, R220 to R223; 18 R335), and the edge engine (11 R256 to R259; 13 R281). -/

namespace Sys2Proof.Machine

/-! ### Depend and Arbitrate (11 R253, R255) -/

/-- A task runs from entering Lease until it is DONE. -/
def Task.runs (t : Task) : Bool :=
  match t.stage with
  | .lease | .edge | .place | .running => true
  | _ => false

/-- Tasks of other queues of the enclave that conflict with a task and are not its kin. -/
def State.rivals (s : State) (t : Task) : List Task :=
  (s.tasks.filter fun u => u.2.enc = t.enc && u.2.queue ≠ t.queue && u.2.meets t && !s.kin u.2 t).map (·.2)

/-- Whether every task of a list is DONE or gone. -/
def State.allDone (s : State) (ts : List Nat) : Bool :=
  ts.all fun p => ((s.task p).map fun (x : Task) => decide (x.stage = .done)).getD true

/-- A task arbitrates behind others: they are its producers. -/
def Task.behind (t : Task) (ps : List Nat) : Task := { t with producers := t.producers ++ ps.filter fun p => !t.producers.contains p }

/-- DEPEND_RELEASE: every task it depends on is DONE; the rivals that run become its producers. -/
def execDependRelease (task : Nat) (s : State) : Out :=
  match s.task task with
  | none => .next s
  | some t =>
    if t.stage ≠ .depend ∨ t.over ∨ !s.allDone t.producers then .next s
    else
      let now := s.dieClock (s.admitDie (s.encl t.enc).part)
      let running := ((s.rivals t).filter Task.runs).map (·.id)
      let s : State := { s with seq := s.seq + 1 }
      .next (s.modTask task fun t => { t with stage := .arbitrate, arbitrated := s.seq, arbCyc := now }.behind running)

/-- Whether a task that waits in Arbitrate is ahead of another one: the first to arrive, and of one cycle's arrivals the one of the
higher queue priority, then of the lower queue number (11 R255). -/
def State.aheadOf (s : State) (u t : Task) : Bool :=
  let p (x : Task) : Nat := (s.encl x.enc).prioOf x.queue
  u.arbCyc < t.arbCyc || (u.arbCyc = t.arbCyc && (p t < p u || (p t = p u && u.queue < t.queue)))

/-- Whether a rival that has not arrived will do so in this cycle, ahead of a task. -/
def State.arrives (s : State) (u t : Task) : Bool :=
  let now := s.dieClock (s.admitDie (s.encl t.enc).part)
  u.stage = .depend && !u.over && s.allDone u.producers && s.aheadOf { u with arbCyc := now } t

/-- ARBITRATE_RELEASE: no conflicting task of another queue runs or waits ahead of it. The task becomes a producer of those that
wait behind it. -/
def execArbitrateRelease (task : Nat) (s : State) : Out :=
  match s.task task with
  | none => .next s
  | some t =>
    let rs := s.rivals t
    if t.stage ≠ .arbitrate ∨ t.over ∨ rs.any fun u => u.runs || (u.stage = .arbitrate && s.aheadOf u t) || s.arrives u t then .next s
    else
      let s := s.modTask task fun t => { t with stage := .lease, lease := .walk, attempts := 0 }
      .next ((rs.filter fun u => u.stage = .arbitrate).foldl (fun s u => s.modTask u.id (·.behind [task])) s)

/-! ### Lease counts (10 R217, R221, R229) -/

/-- The frame whose entry counts leases: the source of a valid migration. -/
def State.leaseFrame (s : State) (f : Nat) : Nat :=
  match s.migr.find? fun (e : Nat × Migr) => e.2.valid && e.2.dst = f with
  | some e => e.2.src
  | none => f

/-- Raises a lease count. -/
def State.raiseLease (s : State) (f : Nat) : State :=
  let p := s.potOf f
  s.setPot f { p with leases := p.leases + 1, stat := if p.stat = 1 then 2 else p.stat }

/-- Lowers every count that a task raised. -/
def State.releaseLeases (s : State) (task : Nat) : State :=
  match s.task task with
  | none => s
  | some t =>
    (t.frames.foldl (·.lowerLease (s.admitDie (s.encl t.enc).part)) s).modTask task fun t =>
      { t with frames := [], lease := .released }

/-! ### The walk (10 R211, R220) -/

/-- The heap triples that an enclave binds. -/
def State.heapsBound (s : State) (enc : Nat) : List Heap :=
  let x := s.encl enc
  (x.queues.map fun q => (x.heaps[q.1]?).toList).flatten

/-- The pages of a task's regions in walk order, each with the mode of its first region; heap pages are left out. -/
def State.walkPages (s : State) (t : Task) : List (Nat × Nat) :=
  let hs := s.heapsBound t.enc
  let ps := t.regions.flatMap fun r =>
    ((List.range (ceilDiv (r.base + r.extent) 4096 - r.base / 4096)).map fun i => ((r.base / 4096 + i) * 4096, r.mode)).filter
      fun p => !hs.any fun h => h.hb ≤ p.1 && p.1 < h.hb + h.hl
  ps.foldl (fun l p => if l.any fun q => q.1 = p.1 then l else l ++ [p]) []

/-- What a walk finds of one page. -/
inductive Found where
  | ok (l : Leaf) (frame : Nat) | sealedOut | invalid | bad (c : Code)
  deriving DecidableEq, Repr

/-- The access kind that a region mode asks for. -/
def modeKind (m : Nat) : Acc := if m = 0 then .load else if m = 1 then .store else .atomic

/-- Checks one page with R215 and R218; A and D are set later, by the raise. -/
def State.walkPage (s : State) (enc : Nat) (p : Nat × Nat) : Found :=
  match s.leafOf enc p.1 with
  | none => .invalid
  | some l =>
    match ({ l with a := true, d := true }).check (modeKind p.2) with
    | some c => .bad c
    | none =>
      let f := l.pa p.1 / 4096
      let e := s.potOf f
      if e.stat = 4 ∧ e.owner = enc then .sealedOut
      else match s.potCheck enc f (modeKind p.2) with
        | some c => .bad c
        | none => .ok l f

/-! ### Residency requests (10 R222; 18 R335; 23 R396) -/

/-- Writes held requests to the pager queue while it has room; fuel is their number. -/
def State.postHeld (s : State) (enc : Nat) : Nat → State
  | 0 => s
  | n + 1 =>
    let x := s.encl enc
    match x.resHeld with
    | [] => s
    | (va, grid, queue) :: rest =>
      let at_ := x.ecs + 0x1000
      let put := leNat (s.coherent x.part at_ 8)
      let get := leNat (s.coherent x.part (at_ + 8) 8)
      if (put + 2 ^ 64 - get) % 2 ^ 64 = 255 then s
      else
        let s := s.hubStore x.part (at_ + 16 * (1 + put % 255)) (leBytes 8 va ++ leBytes 8 (grid * 2 ^ 16 + queue))
        let s := s.hubStore x.part at_ (leBytes 8 (put + 1))
        (s.modEnc enc fun x => { x with resHeld := rest }).postHeld enc n

/-- Asks for pages that have no request outstanding. -/
def State.requestPages (s : State) (t : Task) (vas : List Nat) : State :=
  let new := vas.filter fun v => !(s.encl t.enc).resident.any fun r => r.1 = v
  let s := s.modEnc t.enc fun x => { x with
    resident := x.resident ++ new.map fun v => (v, ((s.leafOf t.enc v).map fun l => l.pa v / 4096).getD 0)
    resHeld := x.resHeld ++ new.map fun v => (v, t.grid, t.queue) }
  s.postHeld t.enc (s.encl t.enc).resHeld.length

/-- PAGER_GET_ADVANCE: the hypervisor has read a request and adds 1 to GET; a held request may be posted. -/
def execPagerGetAdvance (enc : Nat) (s : State) : Out :=
  let x := s.encl enc
  if !x.live then .next s
  else
    let at_ := x.ecs + 0x1008
    let get := leNat (s.coherent x.part at_ 8)
    let s := s.hubStore x.part at_ (leBytes 8 (get + 1))
    .next (s.postHeld enc x.resHeld.length)

/-! ### Raising (10 R221) -/

/-- Sets A, and D where a written region covers the page, in a leaf. -/
def State.setAD (s : State) (part : Nat) (l : Leaf) (d : Bool) : State :=
  let b := leNat (s.coherent part l.pte 1)
  s.hubStore part l.pte (leBytes 1 (b ||| 0x40 ||| (if d then 0x80 else 0)))

/-- Whether some W, RW or RED region of a task covers part of a page. -/
def Task.writes (t : Task) (page : Nat) : Bool :=
  t.regions.any fun r => r.mode ≠ 0 && r.base < page + 4096 && page < r.base + r.extent

/-- A task ends before placement with a code (10 R220, R223; 17 R325). -/
def State.failTask (s : State) (t : Task) (code : Code) (fra : Nat) : State :=
  s.modTask t.id fun x => (x.addReport (bareReport code (BitVec.ofNat 64 fra) t.grid t.queue false))

/-! ### Overlaps (11 R256) -/

/-- One overlap: the producer's dies, the region index of the consumer, the producer's GRID and the range. -/
structure Overlap where
  ran : Nat
  region : Nat
  pgrid : Nat
  lo : Nat
  hi : Nat
  deriving DecidableEq, Repr

/-- Joins an interval to disjoint intervals: the ones it meets become one with it. -/
def joinRange (r : Nat × Nat) (l : List (Nat × Nat)) : List (Nat × Nat) :=
  let meet := l.filter fun x => x.1 ≤ r.2 && r.1 ≤ x.2
  meet.foldl (fun (a : Nat × Nat) x => (min a.1 x.1, max a.2 x.2)) r :: l.filter fun x => !(x.1 ≤ r.2 && r.1 ≤ x.2)

/-- The union of some intervals as disjoint ones, ascending. -/
def joined (l : List (Nat × Nat)) : List (Nat × Nat) := (l.foldr joinRange []).mergeSort fun a b => a.1 ≤ b.1

/-- The overlaps of a consumer in the engine's order: producers in window order, regions ascending, and of each region what it
shares with the producer, ascending (11 R258). -/
def State.overlaps (s : State) (t : Task) : List Overlap :=
  ((t.producers.filterMap s.task).mergeSort fun a b => a.admitted ≤ b.admitted).flatMap fun p =>
    t.regions.zipIdx.flatMap fun r =>
      (joined ((p.regions.filter fun q => q.mode ≠ 0 && regionsMeet r.1 q).map fun q =>
        (max r.1.base q.base, min (r.1.base + r.1.extent) (q.base + q.extent)))).map fun o => ⟨p.ranOn, r.2, p.grid, o.1, o.2⟩

/-- The physical address of a byte of a task's regions: a heap triple that the enclave binds, its own queue's before others, else
the enclave's tables (10 R211). -/
def State.regionPa (s : State) (enc queue va : Nat) : Option Nat :=
  match ((s.encl enc).heapsOf queue ++ s.heapsBound enc).find? fun h => h.hb ≤ va && va < h.hb + h.hl with
  | some h => some (s.canon ((va + h.ho) % 2 ^ 57))
  | none => (s.leafOf enc va).map fun l => s.canon (l.pa va)

/-- The pieces of a range, page by page: physical address, length and class. -/
def State.pieces (s : State) (enc queue lo hi : Nat) : List (Nat × Nat × Nat) :=
  ((List.range (ceilDiv hi 4096 - lo / 4096)).map fun i => (lo / 4096 + i) * 4096).filterMap fun page =>
    let a := max lo page
    (s.regionPa enc queue a).map fun pa => (pa, min hi (page + 4096) - a, s.clsOf pa)

/-- The REPLICA pieces of a range. -/
def State.replicaPieces (s : State) (enc queue lo hi : Nat) : List (Nat × Nat × Nat) :=
  (s.pieces enc queue lo hi).filter fun p => s.isReplica (s.encl enc).part p.1

/-! ### Fixing a forwarding die (11 R257; 13 R281) -/

/-- Seats the teams of a task from an index on places of one die, or none of them. -/
def State.seatAll (s : State) (t : Task) (ps : List (List Nat)) (ix : Nat) : Nat → Option State
  | 0 => some s
  | n + 1 =>
    match s.seatTeam t ix ps with
    | (some m, s) => State.seatAll { s with teams := smPut s.teams m.id m } t ps (ix + 1) n
    | (none, _) => none

/-- Whether a class has an instance on a die and is in no FLUSH-ALL change. -/
def State.forwardsTo (s : State) (part cls die : Nat) : Bool :=
  ((s.classDef part cls).map fun k =>
    k.ldr.mode = 1 && k.ldr.instDies.contains die && !((k.change.map Change.flushAll).getD false) : Option Bool).getD false

/-- The regions whose REPLICA overlap with all producers is at most 8 MiB, and the dies of DIES of a class that lies there. -/
def State.forwardable (s : State) (t : Task) : List Nat × List Nat :=
  let os := s.overlaps t
  let reps (i : Nat) : List (Nat × Nat × Nat) :=
    (joined ((os.filter fun o => o.region = i).map fun o => (o.lo, o.hi))).flatMap fun r =>
      s.replicaPieces t.enc t.queue r.1 r.2
  let size (i : Nat) : Nat := ((reps i).map fun p => p.2.1).sum
  let regs := (uniq (os.map (·.region))).filter fun i => 0 < size i && size i ≤ 2 ^ 23
  let cls := uniq (regs.flatMap fun i => (reps i).map fun p => p.2.2)
  (regs, (List.range 4).filter fun d => cls.any fun c => s.forwardsTo (s.encl t.enc).part c d)

/-- On reaching Edge, Chandler fixes the lowest die on which every team can be placed at once. -/
def State.fixForward (s : State) (task : Nat) : State :=
  match s.task task with
  | none => s
  | some t =>
    let f := s.forwardable t
    let try_ (d : Nat) : Option State :=
      (s.seatAll t ((s.places t).filter fun p => p.all fun c => dieOfCore c = d) 0 t.teams).map fun s =>
        s.modTask task fun t => { t with forward := some d, fixed := f.1 }
    (f.2.findSome? try_).getD s

/-! ### The edge engine (11 R256, R258, R259) -/

/-- The lines of a class that hold a byte, on every die. -/
def State.copies (s : State) (part cls pa : Nat) : List LLine :=
  s.lines.filter fun l => l.part = part && l.cls = cls && l.line ≤ pa && pa < l.line + l.size

/-- The copies on dies that satisfy a test, in ascending die order. -/
def onDies (ls : List LLine) (p : Nat → Bool) : List LLine :=
  (List.range 4).flatMap fun d => ls.filter fun l => l.die = d && p d

/-- Writes back the copies of a byte: on dies that are not the producer's first. -/
def State.lineClean (s : State) (part cls ran pa : Nat) : State :=
  let ls := s.copies part cls pa
  (onDies ls (bitAt ran)).foldl State.writeBack ((onDies ls fun d => !bitAt ran d).foldl State.writeBack s)

/-- Invalidates the copies of a byte; one that has become dirty again is written back first, so that no dirty byte is lost. -/
def State.lineHome (s : State) (part cls ran pa : Nat) : State :=
  let s := s.lineClean part cls ran pa
  (s.copies part cls pa).foldl State.dropLine s

/-- A line's clean bytes as memory now holds them; what other dies have just written back is seen (log 17). -/
def State.refreshLine (s : State) (l : LLine) : LLine :=
  { l with data := ((s.memBytes l.line l.size).zip l.data).zipIdx.map fun b => if bitAt l.dirty b.2 then b.1.2 else b.1.1 }

/-- Moves a dirty line into a die's instance, still dirty, over any line there. -/
def State.moveTo (s : State) (part cls die : Nat) (l : LLine) : State :=
  let s := s.dropLine l
  match s.serving part cls die l.line with
  | .line x _ _ => s.setLine (x.put l.dirtyBytes true)
  | .alloc m i g => s.allocate part cls i l.line m g l.dirtyBytes
  | .memory => (s.memWrite l.dirtyBytes).countMem l.dirtyChunks true

/-- Forwards the copies of a byte to a die. `again` says that the engine has forwarded the line for this consumer before: the die's
dirty line is then the forwarded one and stays, so that a repetition changes nothing (11 R258). -/
def State.lineForward (s : State) (part cls ran dst pa : Nat) (again : Bool) : State :=
  let s := (onDies (s.copies part cls pa) fun d => !bitAt ran d && d ≠ dst).foldl State.writeBack s
  let s := (onDies (s.copies part cls pa) (· = dst)).foldl (fun s l =>
    if (bitAt ran dst ∨ again) ∧ l.dirty ≠ 0 then s.setLine (s.refreshLine l) else (s.writeBack l).dropLine l) s
  let s := (onDies (s.copies part cls pa) fun d => bitAt ran d && d ≠ dst).foldl (fun s l =>
    if l.dirty = 0 then s else s.moveTo part cls dst l) s
  (onDies (s.copies part cls pa) (· ≠ dst)).foldl State.dropLine s

/-- The line size of the REPLICA lantern that serves a class, in its definition or in the one that a FLUSH-ALL change is leaving
(11 R259); none where no REPLICA lantern serves it. -/
def ClassDef.replicaSize (d : ClassDef) : Option Nat :=
  match d.change with
  | some c =>
    if c.flushAll then (if c.old.mode = 1 then some c.old.size else none) else if d.ldr.mode = 1 then some d.ldr.size else none
  | none => if d.ldr.mode = 1 then some d.ldr.size else none

/-- What the engine finds at an address of an overlap: the physical byte, class and line size of a REPLICA line, or nothing to act
on in the page. -/
def State.edgeSpot (s : State) (t : Task) (va : Nat) : Option (Nat × Nat × Nat) :=
  (s.regionPa t.enc t.queue va).bind fun pa =>
    (s.classDef (s.encl t.enc).part (s.clsOf pa)).bind fun d => d.replicaSize.map fun n => (pa, s.clsOf pa, n)

/-- Whether the overlaps of a region are forwarded, and to which die. -/
def Task.forwards (t : Task) (region : Nat) : Option Nat := if t.fixed.contains region then t.forward else none

/-- One line's action for a consumer: a write-back, an invalidation, or a forward, which is both where the line's class cannot be
forwarded (11 R257, R259). -/
def State.edgeLine (s : State) (t : Task) (o : Overlap) (e : EdgeAt) (va : Nat) : State :=
  match s.edgeSpot t va with
  | none => s
  | some (pa, cls, n) =>
    let part := (s.encl t.enc).part
    match e.phase with
    | 0 => s.lineClean part cls o.ran pa
    | 1 => s.lineHome part cls o.ran pa
    | _ => match t.forwards o.region with
      | some dst =>
        if s.forwardsTo part cls dst then s.lineForward part cls o.ran dst pa (e.sent.contains (pa / n * n)) else s.lineHome part cls o.ran pa
      | none => s.lineHome part cls o.ran pa

/-- The engine's place once it has acted at an address: a line that it forwarded is known to have been (11 R258). -/
def State.edgeSent (s : State) (t : Task) (o : Overlap) (e : EdgeAt) : EdgeAt :=
  match s.edgeSpot t e.va, t.forwards o.region with
  | some (pa, cls, n), some dst =>
    if e.phase = 2 ∧ s.forwardsTo (s.encl t.enc).part cls dst then { e with sent := pa / n * n :: e.sent } else e
  | _, _ => e

/-- Where the engine begins with pair `i`: a forward, or the write-backs of a pair that is not forwarded; after the last pair, the
near caches. -/
def edgeFrom (t : Task) (os : List Overlap) (i : Nat) : EdgeAt :=
  match os[i]? with
  | some o => { pair := i, phase := if (t.forwards o.region).isSome then 2 else 0, va := o.lo }
  | none => { pair := os.length, phase := 3, va := (os.getLast?.map (·.hi)).getD 0 }

/-- The address after the line or page at an address. -/
def State.edgeAfter (s : State) (t : Task) (va : Nat) : Nat :=
  match s.edgeSpot t va with
  | some (_, _, n) => (va / n + 1) * n
  | none => (va / 4096 + 1) * 4096

/-- The engine's place after the action at `e`, which lies in overlap `o`. -/
def State.edgeNext (s : State) (t : Task) (os : List Overlap) (o : Overlap) (e : EdgeAt) : EdgeAt :=
  let v := s.edgeAfter t e.va
  let e := s.edgeSent t o e
  if v < o.hi then { e with va := v } else if e.phase = 0 then { e with phase := 1, va := o.lo }
  else { edgeFrom t os (e.pair + 1) with sent := e.sent }

/-- The edge cursor's dwords (11 Table 11.8). -/
def edgeCursor (t : Task) (os : List Overlap) (e : EdgeAt) : Word × Word :=
  let o := (os[e.pair]?.or os.getLast?).getD ⟨0, 0, 0, 0, 0⟩
  (BitVec.ofNat 64 (2 ^ 63 + e.phase * 2 ^ 60 + o.region * 2 ^ 56 + o.pgrid * 2 ^ 24 + t.grid), BitVec.ofNat 64 (e.va / 64 * 64))

/-- The engine's place in a task's overlaps, with the cursor that shows it in the enclave's control structure. -/
def State.edgeAt (s : State) (t : Task) (os : List Overlap) (e : EdgeAt) : State :=
  (s.modTask t.id fun t => { t with edgeAt := some e }).modEnc t.enc fun x => { x with edges := smPut x.edges t.queue (edgeCursor t os e) }

/-- Whether a task is the first of its queue at Edge; the queue has one cursor (18 Table 18.2). -/
def State.edgeTurn (s : State) (t : Task) : Bool :=
  !s.tasks.any fun u => u.2.enc = t.enc && u.2.queue = t.queue && u.2.stage = .edge && u.2.admitted < t.admitted

/-- The engine takes up the first task of a queue at Edge, if it has not. -/
def State.edgeBegin (s : State) (enc queue : Nat) : State :=
  match s.tasks.find? fun u => u.2.enc = enc && u.2.queue = queue && u.2.stage = .edge && s.edgeTurn u.2 with
  | some (_, t) => if t.edgeAt.isSome then s else s.edgeAt t (s.overlaps t) (edgeFrom t (s.overlaps t) 0)
  | none => s

/-- The end of an edge: the enclave's near-cache lines of every overlap go, REL clears in the entries of those lines, the task
reaches Place, and the engine takes up the next task of the queue. -/
def State.edgeEnd (s : State) (t : Task) (os : List Overlap) : State :=
  let part := (s.encl t.enc).part
  let ps := os.flatMap fun o => s.pieces t.enc t.queue o.lo o.hi
  let hit (line : Nat) : Bool := ps.any fun p => p.1 < line * 64 + 64 && line * 64 < p.1 + p.2.1
  let mine (c : Nat) : Bool := bitAt (s.part part).clusters (clusterOf c)
  let clear (e : Svt) : Svt := if hit e.line then { e with rel := false, want := none } else e
  let s := { s with
    cores := smMap {} (fun k c => if mine k then c.nearDrop fun l => l.owner = t.enc && hit l.line else c) s.cores
    dies := smMap {} (fun _ (d : Die) => { d with svt := d.svt.map clear }) s.dies }
  ((s.modTask t.id fun t => { t with stage := .place }).modEnc t.enc fun x => { x with edges := smErase x.edges t.queue }).edgeBegin
    t.enc t.queue

/-- EDGE_LINE_ACTION: the engine acts on the next line, or ends the edge. Nothing moves while the enclave is halted. -/
def execEdgeLineAction (task : Nat) (s : State) : Out :=
  match s.task task with
  | none => .next s
  | some t =>
    if t.stage ≠ .edge ∨ t.over ∨ (s.encl t.enc).halted ∨ !s.edgeTurn t then .next s
    else
      let os := s.overlaps t
      let e := t.edgeAt.getD (edgeFrom t os 0)
      match os[e.pair]? with
      | none => .next (s.edgeEnd t os)
      | some o => .next ((s.edgeLine t o e e.va).edgeAt t os (s.edgeNext t os o e))

/-! ### LEASE_WALK -/

/-- A walk that has found every page valid and resident: the counts rise together, or the lease waits in COUNT. -/
def State.leaseRaise (s : State) (t : Task) (ps : List (Nat × Leaf × Nat)) : State :=
  let part := (s.encl t.enc).part
  let fs := (uniq (ps.map fun p => s.leaseFrame p.2.2)).filter fun f => (s.potOf f).stat ≠ 3
  if fs.any fun f => 255 ≤ (s.potOf f).leases then
    s.modTask t.id fun t => { t with lease := .count, waitFrom := (s.die (s.admitDie part)).leaseFalls }
  else
    let s := ps.foldl (fun s p => s.setAD part p.2.1 (t.writes p.1)) s
    let s := fs.foldl State.raiseLease s
    ((s.modTask t.id fun t => { t with lease := .held, frames := fs, stage := .edge }).fixForward t.id).edgeBegin t.enc t.queue

/-- Whether a waiting lease walks again. -/
def State.leaseWakes (s : State) (t : Task) : Bool :=
  match t.lease with
  | .walk => true
  | .reside | .pending => t.waitFrom < (s.die (s.admitDie (s.encl t.enc).part)).accepted
  | .count => t.waitFrom < (s.die (s.admitDie (s.encl t.enc).part)).leaseFalls
  | _ => false

/-- One walk of a task's pages. One that reads a poisoned line resets the partition (17 Table 17.5). -/
def State.leaseWalk (s : State) (t : Task) : State :=
  if (s.walkPages t).any fun p => s.walkPoisoned t.enc p.1 then s.partitionReset (s.encl t.enc).part else
  let s := (s.walkPages t).foldl (fun s p => s.countWalk t.enc p.1) s
  let found := (s.walkPages t).map fun p => (p.1, s.walkPage t.enc p)
  let bad := found.findSome? fun x => match x.2 with | .bad c => some (x.1, c) | _ => none
  match bad with
  | some (va, c) => s.failTask t c va
  | none =>
    let gone := (found.filter fun x => x.2 = .sealedOut).map (·.1)
    let inv := (found.filter fun x => x.2 = .invalid).map (·.1)
    let s := s.requestPages t gone
    let seen := (s.die (s.admitDie (s.encl t.enc).part)).accepted
    match inv, gone with
    | v :: _, _ =>
      if 8 ≤ t.attempts then (s.modTask t.id fun t => { t with lease := .failed }).failTask t .leaseUnresolved v
      else s.modTask t.id fun t => { t with lease := .pending, attempts := t.attempts + 1, waitFrom := seen, pendFrom := s.dieClock (s.admitDie (s.encl t.enc).part) }
    | [], _ :: _ => s.modTask t.id fun t => { t with lease := .reside, waitFrom := seen }
    | [], [] =>
      s.leaseRaise t (found.filterMap fun x => match x.2 with | .ok l f => some (x.1, l, f) | _ => none)

/-- LEASE_WALK. -/
def execLeaseWalk (task : Nat) (s : State) : Out :=
  match s.task task with
  | none => .next s
  | some t => if t.stage ≠ .lease ∨ t.over ∨ !s.leaseWakes t then .next s else .next (s.leaseWalk t)

/-- LEASE_PENDING_TIMEOUT: after 65,536 cycles of the admitting die in PENDING the lease walks again; before that nothing changes. -/
def execLeasePendingTimeout (task : Nat) (s : State) : Out :=
  match s.task task with
  | none => .next s
  | some t =>
    if t.stage ≠ .lease ∨ t.over ∨ t.lease ≠ .pending ∨ s.dieClock (s.admitDie (s.encl t.enc).part) < t.pendFrom + 65536 then .next s
    else .next (s.leaseWalk t)

/-! ### Kick registers (18 R341) -/

/-- Whether a hart is held by a store of its own at a full FIFO. -/
def State.kickWaits (s : State) (h : Nat) : Bool := s.encs.any fun (e : Nat × Enclave) => e.2.kickHeld.any fun k => k.1 = h

/-- KICK_STORE: an 8-byte store of a record's address to register q of a kick page; a store of another size, to an unused
queue or elsewhere in the page is ignored, and one to a full FIFO is held, and its hart with it. -/
def execKickStore (h enc off size : Nat) (v : Word) (s : State) : Out :=
  let x := s.encl enc
  if !x.live ∨ size ≠ 8 ∨ off % 8 ≠ 0 ∨ x.queues.length ≤ off / 8 ∨ (s.hart h).inside ≠ some enc ∨ s.kickWaits h then .next s
  else if 64 ≤ (smGet [] x.kicks (off / 8)).length ∨ x.kickHeld.any fun k => k.2.1 = off / 8 then
    .next (s.modEnc enc fun x => { x with kickHeld := x.kickHeld ++ [(h, off / 8, v)] })
  else .next (s.modEnc enc fun x => { x with kicks := smSet [] x.kicks (off / 8) (smGet [] x.kicks (off / 8) ++ [v]) })

/-- KICK_STORE_ACCEPT: the oldest store held at a queue's FIFO enters it once it has room. -/
def execKickStoreAccept (enc q : Nat) (s : State) : Out :=
  let x := s.encl enc
  match x.kickHeld.find? fun k => k.2.1 = q with
  | some k =>
    if 64 ≤ (smGet [] x.kicks q).length then .next s
    else .next (s.modEnc enc fun x => { x with
      kickHeld := x.kickHeld.erase k, kicks := smSet [] x.kicks q (smGet [] x.kicks q ++ [k.2.2]) })
  | none => .next s

end Sys2Proof.Machine
end

