-- ==== Sys2Proof/Machine/Fabric.lean ====
section
/-! DEFINITION. Fabric windows (25 R407 to R413; 26 R424 to R426, R429): descriptors, streams and their binding, opening,
closing, counters, and the bytes behind a window. -/

namespace Sys2Proof.Machine

/-! ### Descriptor fields (25 Table 25.2) -/

/-- Dword `i` of a descriptor. -/
def descDw (d : List Word) (i : Nat) : Nat := (d.getD i 0).toNat
/-- An address without its spelling: CORE is ignored where SELF is set (09 Table 9.3). -/
def plainAddr (a : Nat) : Nat := if isSelf a then 2 ^ 23 + a % 2 ^ 20 else a
/-- BASE. -/
def FWin.base (w : FWin) : Nat := plainAddr (descDw w.desc 0)
/-- EXTENT. -/
def FWin.ext (w : FWin) : Nat := descDw w.desc 1
/-- PUT. -/
def FWin.puts (w : FWin) : Bool := bitAt (descDw w.desc 2) 0
/-- GET. -/
def FWin.gets (w : FWin) : Bool := bitAt (descDw w.desc 2) 1
/-- COLL. -/
def descColl (d : List Word) : Bool := bitAt (descDw d 2) 2
/-- LOCAL. -/
def descLocal (d : List Word) : Bool := bitAt (descDw d 2) 3
/-- HOSTDMA. -/
def FWin.dma (w : FWin) : Bool := bitAt (descDw w.desc 2) 4
/-- UE. -/
def descUe (d : List Word) : Bool := bitAt (descDw d 2) 5
/-- STREAM. -/
def descStream (d : List Word) : Nat := bitsAt (descDw d 2) 8 6
/-- PEERENC. -/
def descPeerEnc (d : List Word) : Nat := bitsAt (descDw d 2) 32 14
/-- PEERPKG. -/
def descPeerPkg (d : List Word) : Nat := bitsAt (descDw d 2) 48 11
/-- RANK. -/
def descRank (d : List Word) : Nat := bitsAt (descDw d 3) 0 11
/-- NMEMB. -/
def descMembers (d : List Word) : Nat := bitsAt (descDw d 3) 11 11
/-- CGROUP. -/
def descGroup (d : List Word) : Nat := bitsAt (descDw d 3) 32 12
/-- The queue of a UE window. -/
def descQueue (d : List Word) : Nat := bitsAt (descDw d 3) 32 4
/-- EXPMEAS. -/
def descMeas (d : List Word) : BitVec 384 := BitVec.ofNat 384 (leNat (dwordBytes ((d.drop 4).take 6)))
/-- Whether a window needs a stream: it accepts something remote. -/
def descStreamed (d : List Word) : Bool := descDw d 2 % 8 ≠ 0 || descUe d

/-- Status 1: a reserved field set, a field out of range, or flags not admitted together (COLL and UE read CGROUP in two
ways; log 20). -/
def descBad (d : List Word) : Bool :=
  let l := descLocal d
  let f := descDw d 2
  let m := descDw d 3
  (if l then descDw d 0 / 2 ^ 24 ≠ 0 || !bitAt (descDw d 0) 23 || descDw d 0 % 128 ≠ 0
   else descDw d 0 / 2 ^ 57 ≠ 0 || descDw d 0 % 4096 ≠ 0) ||
  descDw d 1 = 0 || descDw d 1 / 2 ^ 37 ≠ 0 || descDw d 1 % (if l then 128 else 4096) ≠ 0 ||
  bitsAt f 59 5 ≠ 0 || bitsAt f 46 2 ≠ 0 || bitsAt f 14 18 ≠ 0 || bitsAt f 6 2 ≠ 0 ||
  bitsAt m 44 20 ≠ 0 || bitsAt m 22 10 ≠ 0 || (d.drop 10).any (· ≠ 0) ||
  (descColl d && (descMembers d < 2 || 1536 < descMembers d || descMembers d ≤ descRank d || descUe d)) ||
  (descUe d && bitsAt m 36 8 ≠ 0) ||
  (!descStreamed d && (descPeerPkg d ≠ 0 || descPeerEnc d ≠ 0 || descStream d ≠ 0 || descMeas d ≠ 0))

/-! ### The memory behind a window (25 R409) -/

/-- The frame of a far page that a window may lie on: owned, resident, and of a HOME or BYPASS class. -/
def State.winFrame (s : State) (enc va : Nat) : Option Nat :=
  let x := s.encl enc
  let pa : Option Nat :=
    match x.heaps.find? fun h => h.hb ≤ va && va < h.hb + h.hl with
    | some h => some ((va + h.ho) % 2 ^ 57)
    | none => (s.leafOf enc va).map fun l => l.pa va
  pa.bind fun pa =>
    let f := s.leaseFrame (pa / 4096)
    let t := s.potOf f
    let ok := t.owner = enc && (t.stat = 1 || t.stat = 2 || t.stat = 3 || t.stat = 5) &&
      ((s.classDef x.part t.cls).map fun d => d.ldr.mode ≠ 1 : Option Bool).getD false
    if ok then some f else none

/-- The frames of a far window in order; none where a page fails. -/
def State.winFrames (s : State) (enc base ext : Nat) : Option (List Nat) :=
  (List.range (ext / 4096)).foldr (fun i r =>
    match s.winFrame enc (base + 4096 * i), r with
    | some f, some fs => some (f :: fs)
    | _, _ => none) (some [])

/-- The pool rows of a LOCAL window of a group. -/
def State.winRows (s : State) (g : Group) (base ext : Nat) : List Nat :=
  let off := base % 2 ^ 20
  (List.range (ceilDiv (off + ext) 4096 - off / 4096)).filterMap fun i =>
    (s.poolOff g ((off / 4096 + i) * 4096)).map (· / 4096)

/-- The pool byte at an offset of a LOCAL window. -/
def FWin.poolByte (w : FWin) (off : Nat) : Nat :=
  let o := w.base % 2 ^ 20
  w.rows.getD ((o + off) / 4096 - o / 4096) 0 * 4096 + (o + off) % 4096

/-- The physical byte at an offset of a far window. -/
def FWin.farByte (w : FWin) (off : Nat) : Nat := w.frames.getD (off / 4096) 0 * 4096 + off % 4096

/-- Bytes of a window as the fabric reads them at package scope. -/
def State.winRead (s : State) (w : FWin) (off n : Nat) : List Byte :=
  if descLocal w.desc then (addrs off n).map fun o => memByte (s.core w.core).pool (w.poolByte o)
  else (addrs off n).map fun o => (s.coherent (s.encl w.enc).part (w.farByte o) 1).headD 0

/-- Bytes of a window as its own side contributes them: stores past the core store point are seen (11 R251; 26 R430). -/
def State.winSource (s : State) (w : FWin) (core off n : Nat) : List Byte :=
  if descLocal w.desc then s.winRead w off n
  else (addrs off n).map fun o => s.beyondNear core (s.encl w.enc).part (w.farByte o)

/-- Writes bytes of a window through its ordering points, as stores of its enclave (25 R412). -/
def State.winWrite (s : State) (w : FWin) (off : Nat) (bs : List Byte) : State :=
  if descLocal w.desc then
    s.modCore w.core fun c => { c with pool := memPutAll c.pool (((addrs off bs.length).map w.poolByte).zip bs) }
  else (cuts off bs).foldl (fun s c => s.hubStore (s.encl w.enc).part (w.farByte c.1) c.2) s

/-- The lines of far memory behind bytes of a window, for the tables of sync variables (11 R239). -/
def State.winLines (s : State) (w : FWin) (off n : Nat) : List (Nat × Nat) :=
  if descLocal w.desc then []
  else (cuts off (List.replicate n 0)).map fun c => ((s.encl w.enc).part, w.farByte c.1)

/-- The reads of the memory controllers behind a read of bytes of a window count (09 R207). -/
def State.countWin (s : State) (w : FWin) (off n : Nat) : State :=
  s.countPeek (s.encl w.enc).part ((s.winLines w off n).map (·.2))

/-! ### Windows in the package -/

/-- Changes a window. -/
def State.modFwin (s : State) (wid : Nat) (f : FWin → FWin) : State :=
  { s with fwins := s.fwins.map fun w => if w.wid = wid then f w else w }

/-- Delivers the result of a parked w.open or coll.wait. -/
def State.deliver (s : State) (gid : Nat) (pathF : Bool) (v : Word) : State :=
  s.modGroup gid fun g => g.modPath pathF fun p => { p with result := some v }

/-- A window handle (25 Table 25.3). -/
def State.handleOf (s : State) (w : FWin) : Word := BitVec.ofNat 64 (s.pkgid % 2 ^ 11 * 2 ^ 52 + w.wid * 2 ^ 36 + w.ext / 64)
/-- A failure value with a status of 25 Table 25.4. -/
def wFail (status : Nat) : Word := BitVec.ofNat 64 (2 ^ 63 + status)

/-- A window leaves the package: leases fall, LOCAL rows may be claimed or freed, and its id may be reused (25 R413). -/
def State.dropFwin (s : State) (wid : Nat) : State :=
  match s.fwin wid with
  | none => s
  | some w =>
    let s : State := { s with fwins := s.fwins.filter fun x => x.wid ≠ wid }
    let die := s.admitDie (s.encl w.enc).part
    let s := (uniq w.frames).foldl (fun s f => if (s.potOf f).stat = 3 then s else s.lowerLease die f) s
    let keep := s.localWindowRows w.core
    let mine := w.rows.filter fun r => !keep.contains r
    let s := s.modCore w.core fun c =>
      let free := (c.rows.filter fun r => mine.contains r.1 && r.2.team = 0).map (·.1)
      { c with rows := c.rows.filter fun (r : Nat × RowTag) => !free.contains r.1
               pool := c.pool.filter fun x => !free.contains (x.1 / 4096)
               fe := c.fe.filter fun x => !free.contains (x.1 / 1024) }
    let teams := uniq (((s.core w.core).rows.filter fun r => mine.contains r.1).map fun r => r.2.team)
    (teams.foldl (fun s t => if t = 0 then s else s.settleRows t) s).fixFabBuckets

/-! ### Opening (25 R407, R409, R410; 26 R425) -/

/-- The stream slot that a window names. -/
def State.streamOf (s : State) (w : FWin) : Option Stream := smFind (s.encl w.enc).streams (descStream w.desc)

/-- A collective group's record in the switches. -/
def State.cgroup (s : State) (part grp : Nat) : Option CGroup := s.cgroups.find? fun c => c.cgroup = grp && c.part = part

/-- Whether all that an OPENING window waits for has come: its stream is bound and its switch engines are attested. -/
def State.mayOpen (s : State) (w : FWin) : Bool :=
  (!descStreamed w.desc || ((s.streamOf w).map Stream.bound).getD false) &&
  (!descColl w.desc || (((s.cgroup (s.encl w.enc).part (descGroup w.desc)).bind CGroup.attested).getD false))

/-- An OPENING window opens, and its handle is delivered; one that w.close has named meanwhile closes, and its opener
receives PEERFAIL (26 R426). -/
def State.settleFwin (s : State) (w : FWin) : State :=
  match w.opener with
  | none => s
  | some (gid, f) =>
    if !s.mayOpen w then s
    else if w.stat = .opening then
      (s.modFwin w.wid fun w => { w with stat := .opened, opener := none }).deliver gid f (s.handleOf w)
    else (s.modFwin w.wid fun w => { w with opener := none }).deliver gid f (wFail 4)

/-- An OPENING window whose binding or attestation failed is not opened; its opener receives PEERFAIL (25 R411). -/
def State.refuseFwin (s : State) (w : FWin) : State :=
  match w.opener with
  | none => s
  | some (gid, f) => (s.dropFwin w.wid).deliver gid f (wFail 4)

/-- A stream slot asked to bind. -/
def newStream (d : List Word) (now own : Nat) (create : Word) : Stream :=
  { own := own, ownCreate := create, peerPkg := descPeerPkg d, peerEnc := descPeerEnc d, meas := descMeas d, bound := false, started := now, failed := false
    session := 0, peerCreate := 0, sent := 0, accepted := [], discards := 0, broken := false }

/-- Whether a slot is bound, or being bound, to another peer than a descriptor names. -/
def Stream.other (x : Stream) (d : List Word) : Bool :=
  x.peerPkg ≠ descPeerPkg d || x.peerEnc ≠ descPeerEnc d || x.meas ≠ descMeas d

/-- The status of a descriptor that cannot be opened; the lowest that applies (log 20). -/
def State.openStatus (s : State) (g : Group) (d : List Word) : Option Nat :=
  let x := s.encl g.enc
  if descBad d then some 1
  else
    let noMem : Bool :=
      if descLocal d then g.allocBytes < descDw d 0 % 2 ^ 20 + descDw d 1
      else match s.winFrames g.enc (descDw d 0) (descDw d 1) with
        | none => true
        | some fs => fs.any fun f => (s.potOf f).stat ≠ 3 && 255 ≤ (s.potOf f).leases
    if noMem then some 2
    else if descStreamed d ∧ x.slots ≤ descStream d then some 3
    else if descStreamed d ∧ ((smFind x.streams (descStream d)).map fun t => t.other d).getD false then some 4
    else if ((List.range 65536).find? fun w => !s.fwins.any fun y => y.wid = w).isNone then some 5
    else if descColl d ∧ ((s.cgroup x.part (descGroup d)).map fun c => decide (c.nmemb ≠ descMembers d)).getD true then some 6
    else none

/-- A window for a descriptor that has passed, with its leases and its stream slot. -/
def State.makeFwin (s : State) (g : Group) (d : List Word) : FWin × State :=
  let wid := ((List.range 65536).find? fun w => !s.fwins.any fun y => y.wid = w).getD 0
  let fs := if descLocal d then [] else (s.winFrames g.enc (descDw d 0) (descDw d 1)).getD []
  let w : FWin :=
    { wid := wid, enc := g.enc, gid := g.gid, core := g.core, desc := d, stat := .opening, frames := fs
      rows := if descLocal d then s.winRows g (descDw d 0) (descDw d 1) else [], opener := some (g.gid, g.curF) }
  let s := (uniq fs).foldl (fun s f => if (s.potOf f).stat = 3 then s else s.raiseLease f) s
  let s := if descStreamed d then s.modEnc g.enc fun e =>
      if (smFind e.streams (descStream d)).isNone then { e with streams := smPut e.streams (descStream d) (newStream d s.fabClock g.enc e.create) }
      else e
    else s
  (w, ({ s with fwins := s.fwins ++ [w] } : State).fixFabBuckets)

/-- w.open with its descriptor read. -/
def openWith (d : Reg) (bs : List Byte) (s : State) : Out :=
  let ds := bytesDwords 16 bs
  match s.openStatus s.g ds with
  | some st => .next ((s.setS d (wFail st)).retire 2)
  | none =>
    let r := s.makeFwin s.g ds
    if r.2.mayOpen r.1 then
      .next (((r.2.modFwin r.1.wid fun w => { w with stat := .opened, opener := none }).setS d (r.2.handleOf r.1)).retire 2)
    else .next (r.2.park (.binding s.g.enc (descStream ds)))

/-- Reads a descriptor of the fabric: a local load of a SELF address, else a far load. -/
def withDesc (a : Word) (n : Nat) (k : List Byte → State → Out) (s : State) : Out :=
  if isSelf a.toNat then
    withLocal (onePiece a.toNat) n n false (fun as s =>
      match as with
      | x :: _ => k (s.poolRead x) s
      | [] => .next s) s
  else withRead a.toNat n n k s

/-- w.open (26 R425): a reissue finds the binding in progress or decided (25 R410). -/
def execWOpen (d a : Reg) (s : State) : Out :=
  match s.g.p.result with
  | some v => .next (((s.modG fun g => g.modP fun p => { p with result := none }).setS d v).retire 2)
  | none =>
    match s.fwins.find? fun w => w.opener = some (s.g.gid, s.g.curF) with
    | some w => .next (s.park (.binding s.g.enc (descStream w.desc)))
    | none => withDesc (s.g.sr a) 128 (openWith d) s

/-! ### Handles (26 R424) -/

/-- Checks a handle that names a local window. -/
def withHandle (h : Word) (k : FWin → State → Out) (s : State) : Out :=
  let x := h.toNat
  if bitAt x 63 ∨ bitsAt x 52 11 ≠ s.pkgid % 2 ^ 11 then .next (s.takeFault .windowGone h)
  else match s.fwin (bitsAt x 36 16) with
    | none => .next (s.takeFault .windowGone h)
    | some w =>
      if w.enc ≠ s.g.enc then .next (s.takeFault .privilege h)
      else if w.stat = .closed ∨ w.ext / 64 ≠ x % 2 ^ 36 then .next (s.takeFault .windowGone h)
      else k w s

/-- w.close (26 R426). -/
def execWClose (a : Reg) (s : State) : Out :=
  withHandle (s.g.sr a) (fun w s => .next ((s.modFwin w.wid fun w => { w with stat := .closing }).retire 1)) s

/-- What a reader of the target counter may rely on: its near-cache lines of the window are dropped (11 R251). -/
def State.sawCounter (s : State) (w : FWin) : State :=
  s.modCore s.g.core fun c => c.nearDrop fun l => l.owner = s.g.enc && w.frames.contains (l.line / 64)

/-- w.wait (26 R429). -/
def execWWait (a b : Reg) (s : State) : Out :=
  withHandle (s.g.sr a) (fun w s =>
    let n := (s.g.sr b).toNat
    if tcntReached w.tcnt n then .next ((s.sawCounter w).retire 1) else .next (s.park (.wcnt w.wid n w.ext))) s
/-- w.cnt.t (26 R429). -/
def execWCntT (d a : Reg) (s : State) : Out :=
  withHandle (s.g.sr a) (fun w s => .next (((s.sawCounter w).setS d (BitVec.ofNat 64 w.tcnt)).retire 1)) s
/-- w.cnt.o (26 R429). -/
def execWCntO (d a : Reg) (s : State) : Out :=
  withHandle (s.g.sr a) (fun w s => .next ((s.setS d (BitVec.ofNat 64 (w.oerr * 2 ^ 48 + w.ocnt))).retire 1)) s

/-! ### Binding (25 R407, R411, R414) -/

/-- Windows that wait on a stream slot. -/
def State.waitingOn (s : State) (enc slot : Nat) : List FWin :=
  s.fwins.filter fun w => w.enc = enc && w.opener.isSome && descStreamed w.desc && descStream w.desc = slot

/-- A binding that fails: the slot stays unbound. -/
def State.bindingFails (s : State) (enc slot : Nat) : State :=
  ((s.waitingOn enc slot).foldl State.refuseFwin s).modEnc enc fun e => { e with streams := smErase e.streams slot }

/-- Within one package the peer binds only when its own window names this enclave on the same slot, with its measurement
(25 R407 steps 2 and 3). -/
def State.peerAgrees (s : State) (enc slot : Nat) (t : Stream) : Bool :=
  t.peerPkg ≠ s.pkgid ||
  ((s.encl t.peerEnc).live && (s.encl t.peerEnc).meas = t.meas &&
    ((smFind (s.encl t.peerEnc).streams slot).map fun (u : Stream) =>
      u.peerPkg = s.pkgid && u.peerEnc = enc && u.meas = (s.encl enc).meas : Option Bool).getD false)

/-- A slot is bound: the windows that wait for it open. -/
def State.bindStream (s : State) (enc slot : Nat) (t : Stream) (session : Nat) (create : Word) : State :=
  let s := s.modEnc enc fun e =>
    { e with streams := smPut e.streams slot { t with bound := true, session := session, peerCreate := create } }
  (s.waitingOn enc slot).foldl State.settleFwin s

/-- STREAM_BINDING (25 R407): an SPDM session with the peer package gives the verdicts on both signatures and the peer enclave's MEAS and
CREATE; the peer's own check and window are `agreed`. Within one package both sides are here. A binding decided after the limit of
25 R411 fails. -/
def execStreamBinding (enc slot : Nat) (ed ml : Bool) (meas : BitVec 384) (agreed : Bool) (session : Nat) (create : Word) (s : State) : Out :=
  match smFind (s.encl enc).streams slot with
  | none => .next s
  | some t =>
    .next (if t.bound ∨ 1536 ≤ s.pkgid then s
      else if t.started + 2 ^ 31 ≤ s.fabClock ∨ !ed ∨ !ml then s.bindingFails enc slot
      else if t.peerPkg = s.pkgid then
        let p := s.encl t.peerEnc
        if !p.live then s
        else if p.meas ≠ t.meas then s.bindingFails enc slot
        else if !s.peerAgrees enc slot t then s
        else s.bindStream enc slot t session p.create
      else if meas ≠ t.meas then s.bindingFails enc slot
      else if !agreed then s
      else s.bindStream enc slot t session create)

/-- STREAM_BINDING_TIMEOUT: 2^31 fabric cycles without a decision (25 R411). -/
def execStreamBindingTimeout (enc slot : Nat) (s : State) : Out :=
  match smFind (s.encl enc).streams slot with
  | none => .next s
  | some t => .next (if t.bound ∨ s.fabClock < t.started + 2 ^ 31 then s else s.bindingFails enc slot)

/-- SWITCH_ENGINE_ATTESTATION: the switches' configuration names a group for a partition, and every engine on its routes is attested, or
some is not (25 R414; log 72). -/
def execSwitchEngineAttestation (grp part nmemb : Nat) (ok : Option Bool) (s : State) : Out :=
  let s : State :=
    if s.cgroups.any fun c => c.cgroup = grp then s
    else { s with cgroups := s.cgroups ++ [⟨grp, part, nmemb, none, [], [], [], []⟩] }
  match ok with
  | none => .next s
  | some ok =>
    let s : State := { s with cgroups := s.cgroups.map fun c => if c.cgroup = grp then { c with attested := if ok then some true else none } else c }
    let ws := s.fwins.filter fun w => w.opener.isSome && descColl w.desc && descGroup w.desc = grp
    .next (ws.foldl (fun s w => if ok then s.settleFwin w else s.refuseFwin w) s)

/-! ### Flits (25 R407, R408) -/

/-- The info string of a direction's key: the bytes "tuilos", both enclave ids, both CREATE values and the slot index, the sender's
first (log 52). -/
def streamInfo (a b : Nat) (ca cb : Word) (slot : Nat) : List Byte :=
  [0x74#8, 0x75#8, 0x69#8, 0x6C#8, 0x6F#8, 0x73#8] ++ leBytes 8 a ++ leBytes 8 b ++ leBytes 8 ca.toNat ++ leBytes 8 cb.toNat ++ leBytes 8 slot

/-- The key under which a slot sends. -/
def Stream.keyOut (t : Stream) (slot : Nat) : BitVec 256 :=
  Config.streamKey t.session (streamInfo t.own t.peerEnc t.ownCreate t.peerCreate slot)
/-- The key under which a slot receives. -/
def Stream.keyIn (t : Stream) (slot : Nat) : BitVec 256 :=
  Config.streamKey t.session (streamInfo t.peerEnc t.own t.peerCreate t.ownCreate slot)

/-- The nonce of a flit: the slot index, four zero bytes and the sequence number. -/
def flitNonce (slot seq : Nat) : List Byte := leBytes 1 slot ++ leBytes 4 0 ++ leBytes 8 seq

/-- A payload of up to 256 bytes as a flit of a slot. -/
def sealFlit (key : BitVec 256) (slot seq : Nat) (bs : List Byte) : Flit :=
  let c := gcmBody key (flitNonce slot seq) bs
  ⟨seq, c, gcmTag key (flitNonce slot seq) [] c⟩

/-- The payload of a flit; none where its tag fails. -/
def openFlit (key : BitVec 256) (slot : Nat) (f : Flit) : Option (List Byte) :=
  if f.tag = gcmTag key (flitNonce slot f.seq) [] f.body then some (gcmBody key (flitNonce slot f.seq) f.body) else none

/-- Data cut into payloads of up to `n` bytes; a message without data is one empty payload. -/
def payloads (n : Nat) (data : List Byte) : List (List Byte) :=
  (List.range (max 1 (ceilDiv data.length n))).map fun i => (data.drop (n * i)).take n

/-- Payloads sealed under rising sequence numbers. -/
def sealAll (key : BitVec 256) (slot seq : Nat) (ps : List (List Byte)) : List Flit :=
  ps.zipIdx.map fun p => sealFlit key slot (seq + p.2) p.1

/-- A stream is stored where it was: its enclave's slot, or among the streams of enclaves that have ended. -/
def State.putStream (s : State) (slot : Nat) (t : Stream) : State :=
  if ((smFind (s.encl t.own).streams slot).map fun (u : Stream) => decide (u.ownCreate = t.ownCreate)).getD false then
    s.modEnc t.own fun e => { e with streams := smPut e.streams slot t }
  else { s with dead := s.dead.map fun d => if d.1 = slot && d.2.own = t.own && d.2.ownCreate = t.ownCreate then (slot, t) else d }

/-- The streams of a slot: the enclave's own, and those of ended enclaves of the same id. -/
def State.streamsAt (s : State) (enc slot : Nat) : List Stream :=
  (smFind (s.encl enc).streams slot).toList ++ (s.dead.filter fun d => d.1 = slot && d.2.own = enc).map (·.2)

/-- Sends a message on a stream, sealed flit by flit. -/
def State.sayOn (s : State) (slot : Nat) (t : Stream) (data : List Byte) (m : List Flit → Sent) : State :=
  let fs := sealAll (t.keyOut slot) slot t.sent (payloads 256 data)
  ({ s with outbox := s.outbox ++ [m fs] } : State).putStream slot { t with sent := t.sent + fs.length }

/-- Sends a message on an enclave's slot, or, of an enclave that has ended, on its last stream there; a package whose id is out of range
sends nothing (25 R405). -/
def State.say (s : State) (enc slot : Nat) (ghost : Option (Nat × Word)) (data : List Byte) (m : List Flit → Sent) : State :=
  let t := match ghost with
    | none => smFind (s.encl enc).streams slot
    | some (e, c) => (s.streamsAt e slot).find? fun t => t.ownCreate = c
  match t with
  | some t => if 1536 ≤ s.pkgid then s else s.sayOn slot t data m
  | none => s

/-- Takes a message from a stream: flits with consecutive sequence numbers whose payloads are its data (25 R408). -/
def Stream.take (t : Stream) (data : List Byte) : Option Stream :=
  let ps := payloads 256 data
  (t.inbox.find? fun y => ps.zipIdx.all fun p => t.inbox.contains (y.1 + p.2, p.1)).map fun y =>
    { t with inbox := t.inbox.filter fun z => z.1 < y.1 || y.1 + ps.length ≤ z.1 }

/-- The stream of a slot on which a message has arrived in full, without it; a package whose id is out of range accepts nothing
(25 R405). -/
def State.hears (s : State) (enc slot : Nat) (data : List Byte) : Option Stream :=
  if 1536 ≤ s.pkgid then none else (s.streamsAt enc slot).findSome? fun t => t.take data

/-- The same on the stream of one enclave alone, which may have ended. -/
def State.hearsOwn (s : State) (enc slot : Nat) (ghost : Option (Nat × Word)) (data : List Byte) : Option Stream :=
  let me := ghost.getD (enc, (s.encl enc).create)
  if 1536 ≤ s.pkgid then none
  else ((s.streamsAt me.1 slot).filter fun t => t.ownCreate = me.2).findSome? fun t => t.take data

/-! ### Closing (25 R413) -/

/-- Whether nothing of this package still uses a window. -/
def State.fwinQuiet (s : State) (w : FWin) : Bool :=
  w.flight.isEmpty && !(s.xfers.any fun x => x.wid = w.wid) && !(s.cgroups.any fun c => c.contribs.any fun x => x.wid = w.wid) &&
  !(s.encs.any fun (e : Nat × Enclave) => e.2.ue.any fun (q : Nat × UeQueue) => q.2.flight.any fun p => p.wid = w.wid)

/-- Whether no transfer of an enclave of this package that names a window is in flight. -/
def State.noneNames (s : State) (pkg wid : Nat) : Bool :=
  !(s.xfers.any fun x => bitsAt x.handle.toNat 52 11 = pkg && bitsAt x.handle.toNat 36 16 = wid)

/-- The next move of a window that closes: it is CLOSED where no peer has to be asked, or its notice is sent. -/
def State.closeStep (s : State) (w : FWin) : Option State :=
  if w.stat ≠ .closing ∨ w.opener.isSome ∨ w.noticed ∨ !s.fwinQuiet w then none
  else if !descStreamed w.desc then some (s.dropFwin w.wid)
  else if descPeerPkg w.desc = s.pkgid then (if s.noneNames s.pkgid w.wid then some (s.dropFwin w.wid) else none)
  else if 1536 ≤ s.pkgid then none
  else some ((s.modFwin w.wid fun w => { w with noticed := true }).say w.enc (descStream w.desc) w.ghost [] (.notice w.wid))

/-- CLOSE_NOTICE: a peer's window `wid` closes; it is acknowledged once nothing that names it is in flight from here. -/
def execCloseNotice (enc slot wid : Nat) (s : State) : Out :=
  match s.hears enc slot [] with
  | none => .next s
  | some t => .next (if s.noneNames t.peerPkg wid then s.sayOn slot t [] (.noticeAck wid) else s)

/-- CLOSE_ACKNOWLEDGEMENT: a CLOSING window becomes CLOSED. -/
def execCloseAcknowledgement (wid : Nat) (s : State) : Out :=
  match s.fwin wid with
  | none => .next s
  | some w =>
    match s.hearsOwn w.enc (descStream w.desc) w.ghost [] with
    | none => .next s
    | some t => .next (if w.stat = .closing ∧ w.noticed then (s.putStream (descStream w.desc) t).dropFwin wid else s)

end Sys2Proof.Machine
end

