-- ==== Sys2Proof/Machine/Finish.lean ====
section
/-! DEFINITION. The end of groups, teams and grids (05 R130, R137, R138), the replay block's end (21 R389; 23 R397 to R399),
and a task's end by a fault (17 R325 to R327). -/

namespace Sys2Proof.Machine

/-! ### GROUP_ENDED (05 Table 5.7; 09 R189; 24 R402) -/

/-- Whether a group's counters are all zero in both path slots. -/
def Group.drained (g : Group) : Bool :=
  let zero (p : PathState) : Bool := p.ld = 0 && p.st = 0 && p.cp = 0 && p.tl = 0 && p.rst = 0
  zero g.t && zero g.f

/-- Whether some window of a group still has an access to perform. -/
def State.groupWindowBusy (s : State) (g : Group) : Bool :=
  (s.core g.core).wins.any fun w => w.2.gid = g.gid && s.windowBusy g.core w.1

/-- A group that becomes ENDED: its windows close, its monitors go, and its interface's entry is freed when it was the
last. -/
def State.endGroup (s : State) (g : Group) : State :=
  let s := s.setGroup { g with stat := .ended }
  let s := s.modCore g.core fun c => { c with
    wins := smFilter (fun _ w => w.gid ≠ g.gid) c.wins, mons := c.mons.filter fun m => m.1 ≠ g.gid }
  s.dropBuckets g.core

/-- Participants of a regroup that name a group which has ended stop with BARRIER_COUNT (07 R171). -/
def State.regroupFaults (s : State) (g : Group) : State :=
  ((s.regrouping g.team).filter fun x => bitAt x.2 g.index).foldl
    (fun s x => s.faultGroup x.1 .barrierCount (BitVec.ofNat 64 x.2)) s

/-- Whether every group of a team has ended. -/
def State.teamEnded (s : State) (t : Team) : Bool :=
  t.gids.all fun i => ((s.group i).map fun (g : Group) => decide (g.stat = .ended)).getD true

/-- GROUP_ENDED. -/
def execGroupEnded (gid : Nat) (s : State) : Out :=
  match s.group gid with
  | none => .next s
  | some g =>
    if g.stat ≠ .ending ∨ g.runOver ∨ !g.drained ∨ s.groupWindowBusy g then .next s
    else
      let s := (s.endGroup g).regroupFaults g
      match s.team g.team with
      | none => .next s
      | some t =>
        let s := if s.teamEnded t ∧ t.stat = .resident then s.modTeam t.id fun t => { t with stat := .draining } else s
        .next (if (s.encl g.enc).halted then s.settleRows t.id else s)

/-! ### The end of a replay block (21 R389, R398; 23 R397) -/

/-- Whether a log still holds an element or a checkpoint that replay has not consumed (23 R398). -/
def State.unconsumed (s : State) (enc : Nat) : Bool :=
  let r := (s.encl enc).replay
  let bs := s.logBlocks enc
  let orders := bs.filter fun b => bitsAt (b.getD 0 0).toNat 62 2 = 0
  let cks := bs.filter fun b => bitsAt (b.getD 0 0).toNat 62 2 = 1
  let ls := uniq (orders.map fun b => bitsAt (b.getD 0 0).toNat 6 51)
  r.ckpts < cks.length || ls.any fun l => ((lineElements l bs).drop (smGet 0 r.used l)).any fun e => e.2 ≠ 511

/-- STATUS and LOGUSED are written to the block of a task that is DONE or has ended, and the controller is free. -/
def State.replayEnd (s : State) (t : Task) : State :=
  let r0 := (s.encl t.enc).replay
  match r0.block with
  | none => s
  | some at_ =>
    if r0.task ≠ some t.id then s
    else
      let s := if t.replay = 1 then s.flushBlocks t.enc else s
      let r := (s.encl t.enc).replay
      let div := r.diverged || (t.replay = 2 && s.unconsumed t.enc)
      let status := t.grid * 2 ^ 40 + b2n r.tooBig * 16 + b2n r.outside * 8 + b2n div * 4 + b2n r.overflow * 2 + 1
      (s.devWrite t.enc (at_ + 0x18) (leBytes 8 r.logUsed ++ leBytes 8 status)).modEnc t.enc fun x => { x with replay := {} }

/-! ### Forgetting tasks -/

/-- Tasks that are DONE and retired, and no producer of a task before Place, are no more. -/
def State.tidy (s : State) : State :=
  let wanted := (s.tasks.filter fun t => t.2.stage ≠ .place && t.2.stage ≠ .running && t.2.stage ≠ .done).flatMap fun t => t.2.producers
  { s with tasks := smFilter (fun k t => !(t.stage = .done && t.retired) || wanted.contains k) s.tasks }

/-- A team leaves its cores: rows become FREE, sealed images and staging are discarded, its groups are no more. -/
def State.releaseTeam (s : State) (x : Task) (t : Team) : State :=
  let s := s.discardStaging x.enc t x
  let s := t.lost.foldl (fun s l =>
    match s.pvtFind x.enc kindRow (rowObj x.grid t.index 0 (t.halfOf l.1) l.2) with
    | some i => s.pvtDrop x.enc i
    | none => s) s
  let s := t.cores.foldl (fun s c =>
    let keep := s.localWindowRows c
    s.modCore c fun k => ((k.holdRows keep t.id).freeRows fun r => r.team = t.id).clearStaging t.id) s
  let s := t.gids.foldl State.dropGroup s
  let s := t.cores.foldl State.dropBuckets s
  { s with teams := smErase s.teams t.id }

/-! ### TEAM_PUBLISH (05 R130, R137) -/

/-- Sets a team's bit in the completion map, by a store at package scope, and adds 1 to the completion counter as an atomic add. To a
recording of another task both are an outside party's (21 R390, R393; log 71). -/
def State.publishWrites (s : State) (x : Task) (ix : Nat) : State :=
  let own (e : Nat) : Bool := e = x.enc && x.replay ≠ 0
  let store (s : State) (part pa : Nat) (bs : List Byte) : State := (s.markOutside (pa / 64) own).hubPut part pa bs
  let add (s : State) (part pa : Nat) (bs : List Byte) : State :=
    (s.outsideAtomic (s.svtDie part 0 pa) (pa / 64) false own).hubPut part pa bs
  let hs := (s.encl x.enc).heapsOf x.queue
  let cmap := recDw x.rcd 0x28
  let compl := recDw x.rcd 0x20
  let s :=
    if cmap = 0 then s
    else match s.readIn x.enc hs (cmap + ix / 8) 1 with
      | .ok bs => s.writeVia store x.enc hs (cmap + ix / 8) (leBytes 1 (leNat bs ||| 2 ^ (ix % 8)))
      | .error _ => s
  if compl = 0 then s
  else match s.readIn x.enc hs compl 8 with
    | .ok bs => s.writeVia add x.enc hs compl (leBytes 8 (leNat bs + 1))
    | .error _ => s

/-- A grid whose teams are all published is DONE: leases fall, its replay block ends, and a kicked grid is retired. -/
def State.gridDone (s : State) (task : Nat) : State :=
  match s.task task with
  | none => s
  | some t =>
    if t.published < t.teams then s
    else
      let s := (s.releaseLeases task).replayEnd t
      (s.modTask task fun t => { t with stage := .done, retired := t.retired || t.parent.isNone }).tidy

/-- Whether every grid that a team launched has completed. -/
def State.childrenDone (s : State) (team : Nat) : Bool :=
  s.tasks.all fun t => t.2.parent ≠ some team || t.2.stage = .done

/-- TEAM_PUBLISH. -/
def execTeamPublish (team : Nat) (s : State) : Out :=
  match s.team team with
  | none => .next s
  | some t =>
    match s.task t.task with
    | none => .next s
    | some x =>
      if t.stat ≠ .draining ∨ x.over ∨ !t.plq.isEmpty ∨ !s.childrenDone team then .next s
      else
        let s := (uniq (t.cores.map clusterOf)).foldl (fun s c => s.drainBuf c (s.seq + 1)) s
        let s := s.publishWrites x t.index
        let s := (s.modTask x.id fun x => { x with published := x.published + 1 }).releaseTeam x t
        let s := (s.tasks.filter fun u => u.2.parent = some team).foldl (fun s u =>
          s.modTask u.1 fun u => { u with retired := true }) s
        .next (s.gridDone x.id).tidy

/-! ### TASK_END (17 R325; 23 R399) -/

/-- Groups of a task stop at their next run boundary, and at once where they are not bound. -/
def State.stopGroups (s : State) (t : Nat) : State :=
  let ms := (s.teams.filter fun m => m.2.task = t).map (·.2)
  let s := ms.foldl (fun s m => m.gids.foldl (fun s g => s.haltOne g false) s) s
  ms.foldl (fun s m => s.modTeam m.id fun m => { m with plq := [] }) s

/-- TASK_END: the task and its descendants end, their groups stop, and the launch records of their queues are discarded. -/
def execTaskEnd (task : Nat) (s : State) : Out :=
  match s.task task with
  | none => .next s
  | some t =>
    if t.fault.isNone ∨ t.ended then .next s
    else
      let all := task :: s.descendants 10 task
      let s := all.foldl (fun s i => (s.modTask i fun t => { t with ended := true }).stopGroups i) s
      let s : State := { s with tasks := smFilter (fun k u => !(all.contains k && u.stage = .queued)) s.tasks }
      let teams := (s.teams.filter fun m => all.contains m.2.task).map (·.1)
      .next (if t.replay ≠ 2 then s
        else (s.allGroups.filter fun g => teams.contains g.team && s.replayMode g = 2).foldl State.dropHeld s)

/-! ### FAULT_RECORD (17 R325 steps 2 to 6, R327) -/

/-- Whether copies, tile operations and atomics of some tasks have completed, and their stores have reached their ordering
points; loads are not waited for. -/
def State.drainedAll (s : State) (ts : List Nat) : Bool :=
  (s.groupsOf ts).all fun g =>
    let zero (p : PathState) : Bool := p.st = 0 && p.cp = 0 && p.tl = 0 && p.rst = 0
    zero g.t && zero g.f && !(g.reqs.any fun r => r.atom.isSome) && !(s.bufs.any fun b => b.2.any fun e => e.gid = g.gid)

/-- The windows of some tasks admit no further access (09 R189). -/
def State.closeAll (s : State) (ts : List Nat) : State :=
  (s.groupsOf ts).foldl (fun s g => s.modCore g.core (·.closeWins g.gid)) s

/-- Step 4: over the written regions of an ended task, REPLICA lines are written back and invalidated. -/
def State.replicaEnd (s : State) (t : Task) : State :=
  let part := (s.encl t.enc).part
  (t.regions.filter fun r => r.mode ≠ 0).foldl (fun s r =>
    (s.replicaPieces t.enc t.queue r.base (r.base + r.extent)).foldl (fun s p =>
      (List.range (ceilDiv p.2.1 64)).foldl (fun s i => s.lineHome part p.2.2 t.ranOn (p.1 + 64 * i)) s) s) s

/-- Step 5 for one task: windows close, leases are released, rows become FREE, and the task leaves its window. -/
def State.eraseTask (s : State) (t : Task) : State :=
  let s := s.replicaEnd t
  let gs := s.groupsOf [t.id]
  let s := s.uncolour (gs.map (·.gid)) 0
  let s := gs.foldl State.endGroup s
  let s := (s.releaseLeases t.id).replayEnd t
  let s := ((s.teams.filter fun m => m.2.task = t.id).map (·.2)).foldl (fun s m => s.releaseTeam t m) s
  let s := s.modEnc t.enc fun x => { x with edges := if s.edgeTurn t ∧ t.stage = .edge then smErase x.edges t.queue else x.edges }
  { s with tasks := smErase s.tasks t.id }.edgeBegin t.enc t.queue

/-- Step 6: the tasks of the window that depend on an ended task or on a descendant that ended with it, and its launching task,
end with the same code. -/
def State.endOthers (s : State) (t : Task) (all : List Nat) (r : Report) : State :=
  let deps := (s.tasks.filter fun u => u.2.enc = t.enc && u.2.queue = t.queue && u.2.stage = .depend && !all.contains u.1 &&
    u.2.producers.any all.contains).map (·.1)
  let up := ((t.parent.bind s.team).map (·.task)).toList
  (deps ++ up).foldl (fun s i => s.modTask i fun u => u.addReport (bareReport r.code r.fra u.grid u.queue true)) s

/-- FAULT_RECORD: once every group has stopped the record is written; once what they issued has completed and their windows are quiet, the task and its
descendants are cleared and the tasks of step 6 end. -/
def execFaultRecord (task : Nat) (s : State) : Out :=
  match s.task task with
  | none => .next s
  | some t =>
    match t.fault with
    | none => .next s
    | some r =>
      let all := task :: s.descendants 10 task
      if !t.ended ∨ !s.stoppedAll all then .next s
      else if !t.reported then
        .next ((s.faultWrite t.enc r t.supp).modTask task fun t => { t with reported := true })
      else if !s.drainedAll all ∨ (all.filterMap s.task).any fun u => u.fault.isSome && !u.reported then .next s
      else
        let s := s.closeAll all
        if (s.groupsOf all).any s.groupWindowBusy then .next s
        else
        let ts := all.filterMap s.task
        let s := s.endOthers t all r
        .next (ts.reverse.foldl (fun s u => s.eraseTask u) s).tidy

end Sys2Proof.Machine
end

