-- ==== Sys2Proof/Machine/Iter.lean ====
section
/-! DEFINITION. Iterator records (14 R282 to R287): their fields, their checks, the addresses of their points, the reading
of a record at issue, and cp.iter (15 R304). -/

namespace Sys2Proof.Machine

/-! ### Fields (14 Table 14.1) -/

/-- An iterator record as read. -/
structure Rec where
  addr : Nat
  base : Nat
  far : Bool
  sat : Bool
  layout : Nat
  bcast : Nat
  rank : Nat
  etype : Nat
  ext : List Nat
  str : List Int
  scale : Nat
  idx : List Nat
  deriving DecidableEq, Repr

/-- The record of eight dwords. -/
def recOf (addr : Nat) (ds : List Word) : Rec :=
  let d (i : Nat) : Nat := (ds.getD i 0).toNat
  { addr := addr, base := d 0, far := bitAt (d 1) 31, sat := bitAt (d 1) 30, layout := bitsAt (d 1) 28 2
    bcast := bitsAt (d 1) 24 4, rank := bitsAt (d 1) 20 2 + 1, etype := bitsAt (d 1) 16 4
    ext := (List.range 4).map fun k => bitsAt (d 2) (16 * k) 16
    str := (List.range 4).map fun k => toInt true 32 (bitsAt (d (3 + k / 2)) (32 * (k % 2)) 32)
    scale := d 5, idx := (List.range 4).map fun k => bitsAt (d 6) (16 * k) 16 }

/-- Bytes of an element (14 Table 14.2). -/
def etypeSize (t : Nat) : Nat :=
  match t with
  | 0 | 1 | 2 => 4 | 3 => 8 | 4 | 5 | 10 => 2 | _ => 1
/-- Bytes of a record's element. -/
def Rec.e (r : Rec) : Nat := etypeSize r.etype
/-- An extent; absent dimensions count as 1. -/
def Rec.extent (r : Rec) (k : Nat) : Nat := if k < r.rank then r.ext.getD k 1 else 1
/-- A broadcast dimension. -/
def Rec.bc (r : Rec) (k : Nat) : Bool := bitAt r.bcast k
/-- A stride. -/
def Rec.stride (r : Rec) (k : Nat) : Int := r.str.getD k 0
/-- Elements of a CANON panel's row. -/
def Rec.p (r : Rec) : Nat := if r.etype = 3 then 8 else 16
/-- Points of the index space. -/
def Rec.points (r : Rec) : Nat := r.extent 0 * r.extent 1 * r.extent 2 * r.extent 3
/-- Rows of the scale array. -/
def Rec.rows (r : Rec) : Nat := r.extent 1 * r.extent 2 * r.extent 3

/-! ### Checks (14 R286, R287) -/

/-- What breaks R287. -/
def recBad (r : Rec) (ds : List Word) : Bool :=
  let d1 := (ds.getD 1 0).toNat
  bitsAt d1 32 32 ≠ 0 || bitsAt d1 22 2 ≠ 0 || bitsAt d1 0 16 ≠ 0 || ds.getD 7 0 ≠ 0 || 11 ≤ r.etype || r.layout = 3 ||
  ((List.range 4).any fun k => if k < r.rank then r.ext.getD k 0 = 0 || r.ext.getD k 0 = 65536 else r.ext.getD k 0 ≠ 0 || r.bc k) ||
  r.base % r.e ≠ 0 || r.scale % 4 ≠ 0 ||
  (r.layout = 1 && (r.rank ≠ 2 || r.bcast ≠ 0 || r.stride 1 < (ceilDiv (r.extent 0) 16 : Nat))) ||
  (r.layout = 2 && (r.rank ≠ 2 || r.far || r.base % 128 ≠ 0 || (if r.etype = 3 then 128 else 256) < r.extent 0 ||
    96 < r.extent 1 || r.bcast ≠ 0 || r.str.any (· ≠ 0))) ||
  (r.scale ≠ 0 && (r.etype < 6 || 8 < r.etype)) ||
  (r.sat && ((2 ≤ r.etype && r.etype ≤ 5) || r.etype = 8))

/-! ### Points (14 R285) -/

/-- The index tuple of a point, dimension 0 fastest. -/
def Rec.tuple (r : Rec) (p : Nat) : List Nat :=
  let a := r.extent 0
  let b := r.extent 1
  let c := r.extent 2
  [p % a, p / a % b, p / a / b % c, p / a / b / c]
/-- The number of the point that an index tuple names. -/
def Rec.pointOf (r : Rec) (i : List Nat) : Nat :=
  i.getD 0 0 + r.extent 0 * (i.getD 1 0 + r.extent 1 * (i.getD 2 0 + r.extent 2 * i.getD 3 0))

/-- The exact address of an index tuple. -/
def Rec.at (r : Rec) (i : List Nat) : Int :=
  let x (k : Nat) : Nat := i.getD k 0
  match r.layout with
  | 0 => r.base + r.e * (((List.range 4).filter fun k => k < r.rank && !r.bc k).map fun k => (x k : Int) * r.stride k).foldl (· + ·) 0
  | 1 => r.base + r.e * (256 * ((x 1 / 16 : Nat) * r.stride 1 + (x 0 / 16 : Nat)) + (16 * (x 1 % 16) + x 0 % 16 : Nat))
  | _ => (r.base + r.e * (r.p * (96 * (x 0 / r.p) + x 1) + x 0 % r.p) : Nat)
/-- The row of an index tuple in a scale array. -/
def Rec.row (r : Rec) (i : List Nat) : Nat := i.getD 1 0 + r.extent 1 * (i.getD 2 0 + r.extent 2 * i.getD 3 0)
/-- The address of a row's scale. -/
def Rec.scaleAt (r : Rec) (row : Nat) : Int := (r.scale + 4 * row : Nat)

/-- The bounding range of a record's elements, CANON padding included (14 R292). -/
def Rec.bounds (r : Rec) : Int × Int :=
  match r.layout with
  | 0 =>
    let ends := ((List.range 4).filter fun k => k < r.rank && !r.bc k).map fun k => ((r.extent k - 1 : Nat) : Int) * r.stride k
    let lo := (ends.map fun x => min x 0).foldl (· + ·) 0
    let hi := (ends.map fun x => max x 0).foldl (· + ·) 0
    (r.base + r.e * lo, r.base + r.e * hi + r.e)
  | 1 => ((r.base : Int), r.at [r.extent 0 - 1, r.extent 1 - 1] + r.e)
  | _ => ((r.base : Int), ((r.base + ceilDiv (r.extent 0) r.p * 96 * r.p * r.e : Nat) : Int))
/-- The range of a record's scale array. -/
def Rec.scaleBounds (r : Rec) : Int × Int := ((r.scale : Int), ((r.scale + 4 * r.rows : Nat) : Int))

/-! ### Reading a record (15 R304) -/

/-- Reads the 64-byte record at a local address with the local checks of a load: the record, and whether it breaks R287. -/
def withRecordAt (r : Word) (k : Rec → Bool → State → Out) (s : State) : Out :=
  withLocal (onePiece r.toNat) 64 64 false (fun as s =>
    match as with
    | [] => .next s
    | x :: _ =>
      let ds := bytesDwords 8 (s.poolRead x)
      let q := recOf r.toNat ds
      k q (recBad q ds) s) s

/-- Reads the record of each named slot in order; an unbound slot has none. -/
def withSlots : List Nat → (List (Nat × Option (Rec × Bool)) → State → Out) → State → Out
  | [], k, s => k [] s
  | n :: ns, k, s =>
    match smFind s.g.iters n with
    | none => withSlots ns (fun rs s => k ((n, none) :: rs) s) s
    | some r => withRecordAt r (fun q bad s => withSlots ns (fun rs s => k ((n, some (q, bad)) :: rs) s) s) s

/-- Reads every record that a word names, then checks that each slot is bound and each record passes R287 (15 R305). An unbound
slot faults with its number, as R305 says of the copy commands; for a sweep 06 R160 asks for the address of a record that does
not exist, and the model gives the number there too (log 43). -/
def withRecords (ns : List Nat) (k : List Rec → State → Out) (s : State) : Out :=
  withSlots ns (fun rs s =>
    match rs.find? fun r => (r.2.map (·.2)).getD true with
    | some (n, none) => .next (s.takeFault .engineFormat (BitVec.ofNat 64 n))
    | some (_, some (q, _)) => .next (s.takeFault .engineFormat (BitVec.ofNat 64 q.addr))
    | none => k (rs.filterMap fun r => r.2.map (·.1)) s) s

/-- Writes bytes of the group's own allocation at an offset. -/
def State.ownWrite (s : State) (g : Group) (off : Nat) (bs : List Byte) : State :=
  s.modCore g.core fun c => { c with pool := memPutAll c.pool (((addrs off bs.length).zip bs).filterMap fun b =>
    (s.poolOff g b.1).map fun o => (o, b.2)) }

/-- cp.iter: the record is checked, its saved counters become 0, and the slot is bound (15 R304). -/
def execCpIter (d : BitVec 3) (a : Reg) (s : State) : Out :=
  let r := s.g.sr a
  if !bitAt r.toNat 23 then .next (s.takeFault .windowBounds r)
  else if r.toNat % 64 ≠ 0 then .next (s.takeFault .misaligned r)
  else withRecordAt r (fun _ bad s =>
    if bad then .next (s.takeFault .engineFormat r)
    else withLocal (onePiece (r.toNat + 0x30)) 8 8 true (fun _ s =>
      let s := s.ownWrite s.g (r.toNat % 2 ^ 20 + 0x30) (List.replicate 8 0)
      .next ((s.modG fun g => { g with iters := smPut g.iters d.toNat r }).retire 2)) s) s

/-! ### Range locks of engine operations (11 R248, R250; 14 R292) -/

/-- The pool intervals of a range of the group's own allocation, row by row. -/
def State.ownSegs (s : State) (g : Group) (lo hi : Nat) : List (Nat × Nat) :=
  (List.range (ceilDiv hi 4096 - lo / 4096)).filterMap fun i =>
    let a := max lo ((lo / 4096 + i) * 4096)
    let b := min hi ((lo / 4096 + i + 1) * 4096)
    (s.poolOff g a).map fun o => (o, o + (b - a))

/-- The first byte of a local range that lies outside the group's allocation (15 Table 15.2 step 6). -/
def Group.outside (g : Group) (r : Int × Int) : Option Int :=
  if r.1 < 0 ∨ 2 ^ 24 ≤ r.1 ∨ !bitAt r.1.toNat 23 then some r.1
  else
    let off := r.1.toNat % 2 ^ 20
    if g.allocBytes < off + (r.2 - r.1).toNat then some (r.1 + ((g.allocBytes - off : Nat) : Int)) else none

/-- A lock entry of a range. -/
def State.lockOf (s : State) (g : Group) (op : Nat) (far dst : Bool) (r : Int × Int) : LockRange :=
  { far := far, enc := g.enc, dst := dst, op := op
    segs := if far then [(r.1.toNat, r.2.toNat)] else s.ownSegs g (r.1.toNat % 2 ^ 20) (r.1.toNat % 2 ^ 20 + (r.2 - r.1).toNat) }

end Sys2Proof.Machine
end

