-- ==== Sys2Proof/Machine/Transfer.lean ====
section
/-! DEFINITION. Puts and gets (25 R406, R408, R412; 26 R427, R428): issue, departure at the fabric egress, arrival at a
target window, and return; host DMA, TDIs and CXL.mem (25 R420, R421). -/

namespace Sys2Proof.Machine

/-! ### Issue (26 R427) -/

/-- The OPEN window of an enclave that a range lies in, in whatever spelling; a LOCAL window is named by its own group only. -/
def State.originWin (s : State) (g : Group) (a len : Nat) : Option FWin :=
  let p := plainAddr a
  s.fwins.find? fun w =>
    w.enc = g.enc && w.stat = .opened && w.base ≤ p && p + len ≤ w.base + w.ext && (!descLocal w.desc || w.gid = g.gid)

/-- The first byte of a range outside every OPEN window of its enclave. -/
def State.outsideWin (s : State) (g : Group) (a : Nat) : Nat :=
  let p := plainAddr a
  a + ((s.fwins.filter fun w =>
    w.enc = g.enc && w.stat = .opened && w.base ≤ p && p < w.base + w.ext && (!descLocal w.desc || w.gid = g.gid)).foldl
      (fun m w => max m (w.base + w.ext)) p - p)

/-- A range cut at its pages: address and length of each piece. -/
def pagePieces (a len : Nat) : List (Nat × Nat) :=
  (List.range (ceilDiv (a + len) 4096 - a / 4096)).map fun i =>
    let lo := max a ((a / 4096 + i) * 4096)
    (lo, min (a + len) ((a / 4096 + i + 1) * 4096) - lo)

/-- A port that leads toward a package: owned, and in a valid route entry (19 R353). -/
def State.routePort (s : State) (part pkg : Nat) : Option Nat :=
  let p := s.part part
  (List.range 18).find? fun q => bitAt p.ports q && p.routes.any fun r => r.valid && r.first ≤ pkg && pkg ≤ r.last && bitAt r.ports q

/-- The package id of a handle. -/
def handlePkg (h : Word) : Nat := bitsAt h.toNat 52 11
/-- The window id of a handle. -/
def handleWid (h : Word) : Nat := bitsAt h.toNat 36 16

/-- The checks of a transfer's local range, page by page; `next` runs when all have passed. -/
def withRange (a len : Nat) (write : Bool) (next : Bool → State → Out) (s : State) : Out :=
  if isSelf a then
    match s.localCheck s.g a len 1 write with
    | .bad c => .next (s.takeFault c (BitVec.ofNat 64 a))
    | .sealedOut c w => .next (s.park (.sealedWindow c w))
    | .ok _ => next true s
  else
    let k : Acc := if write then .store else .load
    match farPass ((pagePieces a len).map fun p => (s.farCheck s.g p.1 p.2 k none, (p.1 : Int))) with
    | .bad c f => .next ((s.clearWalks s.g).takeFault c f)
    | .miss vs => .next ((vs.foldl (fun s v => s.startWalk s.g v k) s).hold (accLeaf k))
    | .ok rs => next (rs.all (·.2)) (s.clearWalks s.g)

/-- Takes the tag, the range-lock entry, CP and a colour, and queues the transfer at the egress. -/
def State.startXfer (s : State) (get : Bool) (w : FWin) (a len tag off : Nat) (handle : Word) (uncounted : Bool) : State :=
  let g := s.g
  let op := (s.core g.core).opNext
  let bit : Word := BitVec.ofNat 64 (2 ^ tag)
  let lock := s.lockOf g op (!isSelf a) get (a, a + len)
  let die := dieOfCore g.core
  let s := (s.clearWay g.core [lock]).modCore g.core fun k => { k with
    opNext := op + 1, tagSet := k.tagSet &&& ~~~bit, tagBusy := k.tagBusy ||| bit, locks := k.locks ++ [lock] }
  let col := if uncounted then none else some ((s.die die).colour, 1)
  let s := if uncounted then s else s.colourUp die 1
  let x : Xfer :=
    { id := op, seq := s.seq, get := get, gid := g.gid, pathF := g.curF, core := g.core, enc := g.enc, tag := tag, wid := w.wid
      loc := plainAddr a - w.base, len := len, handle := handle, off := off, port := ceilDiv len 256, col := col }
  ({ s with seq := s.seq + 1, xfers := s.xfers ++ [x] } : State).modG fun g => g.modP fun p => { p with cp := p.cp + 1 }

/-- w.put and w.get. A length of 0 sets the tag at once. -/
def transfer (get : Bool) (d a b tag : Reg) (s : State) : Out :=
  let h := s.g.sr d
  let at_ := (s.g.sr a).toNat
  let len := bitsAt (s.g.sr b).toNat 40 24
  let off := (s.g.sr b).toNat % 2 ^ 40
  let t := tag.toNat
  if bitAt h.toNat 63 then .next (s.takeFault .windowGone h)
  else
    let after (w : Option FWin) (unc : Bool) (s : State) : Out :=
      let part := s.partOf s.g
      let c := s.core s.g.core
      if handlePkg h ≠ s.pkgid ∧ (s.routePort part (handlePkg h)).isNone then .next (s.takeFault .routeDenied h)
      else if bitAt c.tagBusy.toNat t ∨ 63 ≤ s.g.p.cp then .next (s.hold leafCp)
      else match w with
        | none =>
          .next ((s.modCore s.g.core fun c => { c with tagSet := c.tagSet ||| BitVec.ofNat 64 (2 ^ t) }).retire 1)
        | some w =>
          if 32 ≤ c.locks.length then .next (s.hold leafLock)
          else .next ((s.startXfer get w at_ len t off h unc).retire 1)
    if len = 0 then after none false s
    else match s.originWin s.g at_ len with
      | none => .next (s.takeFault .windowBounds (BitVec.ofNat 64 (s.outsideWin s.g at_)))
      | some w => withRange at_ len get (after (some w)) s

/-- w.put (26 R427). -/
def execWPut (d a b t : Reg) (s : State) : Out := transfer false d a b t s
/-- w.get (26 R427). -/
def execWGet (d a b t : Reg) (s : State) : Out := transfer true d a b t s

/-! ### Return (25 R412) -/

/-- A transfer returns in one indivisible step: data of a get is written, a counter of the origin window rises, the lock
entry is released, the tag is set and CP falls. One whose enclave has ended is in flight no longer. -/
def State.finishXfer (s : State) (x : Xfer) (ok : Bool) (data : List Byte) : State :=
  if x.ghost.isSome then { s with xfers := s.xfers.filter fun y => y.seq ≠ x.seq }
  else
  let bit : Word := BitVec.ofNat 64 (2 ^ x.tag)
  let s := match x.col with
    | some (c, n) => if x.port = 0 then s else s.colourDown (dieOfCore x.core) c n
    | none => s
  let s := match s.fwin x.wid with
    | some w =>
      let s := if ok && x.get then
          let t := (s.linesSee (s.winLines w x.loc x.len) (.core x.core)).winWrite w x.loc data
          if descLocal w.desc then t
          else t.modCore x.core (·.nearStore (((addrs x.loc data.length).map w.farByte).zip data))
        else s
      s.modFwin x.wid fun w =>
        if ok then { w with ocnt := (w.ocnt + 1) % 2 ^ 48 } else { w with oerr := min (w.oerr + 1) (2 ^ 16 - 1) }
    | none => s
  let s : State := { s with xfers := s.xfers.filter fun y => y.seq ≠ x.seq }
  let s := s.modCore x.core fun c => { c with
    locks := c.locks.filter fun r => r.op ≠ x.id, tagBusy := c.tagBusy &&& ~~~bit, tagSet := c.tagSet ||| bit }
  let s := s.modGroup x.gid fun g => g.modPath x.pathF fun p => { p with cp := p.cp - 1 }
  s.opOver x.gid x.core

/-- The lines that a transfer reads or writes behind its origin window. -/
def State.xferLines (s : State) (x : Xfer) : List (Nat × Nat) := ((s.fwin x.wid).map fun w => s.winLines w x.loc x.len).getD []

/-- TRANSFER_ACKNOWLEDGEMENT of the transfer that its place in the order of issue names: its message has come on the transfer's stream. -/
def execTransferAcknowledgement (xfer : Nat) (ok : Bool) (data : List Byte) (s : State) : Out :=
  match s.xfers.find? fun x => x.seq = xfer with
  | none => .next s
  | some x =>
    match s.hearsOwn x.enc x.slot x.ghost (if x.get ∧ ok then data else []) with
    | none => .next s
    | some t =>
      .next (if x.port ≠ 0 ∨ (x.get ∧ ok ∧ data.length ≠ x.len) then s
        else if x.get ∧ ok ∧ s.linesHeld (s.xferLines x) (.core x.core) then s.linesAsk (s.xferLines x) (.core x.core)
        else (s.putStream x.slot t).finishXfer x ok data)

/-! ### Arrival at a target window (25 R412) -/

/-- The window that admits a transfer which arrived on a stream of its enclave's. -/
def State.admits (s : State) (t : Stream) (slot wid off len : Nat) (get : Bool) : Option FWin :=
  (s.fwin wid).bind fun w =>
    if w.stat = .opened && w.enc = t.own && (s.encl w.enc).create = t.ownCreate && descStreamed w.desc && descStream w.desc = slot &&
      (if get then w.gets else w.puts) && off + len ≤ w.ext then some w else none

/-- A put's bytes are placed; its TCNT rises later. `kind` is 1 where an acknowledgement is due. -/
def State.placePut (s : State) (w : FWin) (off : Nat) (data : List Byte) (kind : Nat) : State :=
  (s.winWrite w off data).modFwin w.wid fun w => { w with flight := w.flight ++ [kind] }

/-- A party's access to bytes of a window: held at a serving point, where it asks for a widening and comes again, or recorded and
made (11 R239, R242; log 39). -/
def State.winAccess (s : State) (w : FWin) (off n : Nat) (p : Party) (go : State → State) : State :=
  let ls := s.winLines w off n
  if s.linesHeld ls p then s.linesAsk ls p else go (s.linesSee ls p)

/-- PUT_ARRIVAL of data that has come in flits of a slot: admitted, or refused with a negative acknowledgement. -/
def execPutArrival (wid off enc slot : Nat) (data : List Byte) (s : State) : Out :=
  match s.hears enc slot data with
  | none => .next s
  | some t =>
    match s.admits t slot wid off data.length false with
    | some w => .next (s.winAccess w off data.length .remote fun s => (s.putStream slot t).placePut w off data 1)
    | none => .next (s.sayOn slot t [] (.ack wid false))

/-- GET_ARRIVAL: served, or refused. -/
def execGetArrival (wid off len enc slot : Nat) (s : State) : Out :=
  match s.hears enc slot [] with
  | none => .next s
  | some t =>
    match s.admits t slot wid off len true with
    | some w => .next (s.winAccess w off len .remote fun s => (s.countWin w off len).sayOn slot t (s.winRead w off len) (.ack wid true))
    | none => .next (s.sayOn slot t [] (.ack wid false))

/-- TCNT_INCREMENT: every byte of the oldest put has reached its ordering point. -/
def execTcntIncrement (wid : Nat) (s : State) : Out :=
  match s.fwin wid with
  | none => .next s
  | some w =>
    match w.flight with
    | [] => .next s
    | k :: rest =>
      let s := s.modFwin wid fun w => { w with flight := rest, tcnt := (w.tcnt + 1) % 2 ^ 48 }
      .next (if k = 1 then s.say w.enc (descStream w.desc) w.ghost [] (.ack wid true) else s)

/-! ### The egress (25 R406, R408; 26 R428) -/

/-- The stream slot that a transfer travels on. -/
def State.xferSlot (s : State) (x : Xfer) : Option Nat :=
  match s.fwin x.wid with
  | none => none
  | some w =>
    if descStreamed w.desc then some (descStream w.desc)
    else ((s.encl x.enc).streams.find? fun (t : Nat × Stream) => t.2.bound && t.2.peerPkg = handlePkg x.handle).map (·.1)

/-- Whether a transfer is refused at its origin: no slot, a BROKEN stream, no port left in service, or a package id out
of range. -/
def State.xferRefused (s : State) (x : Xfer) : Bool :=
  let part := (s.encl x.enc).part
  let p := s.part part
  let pkg := handlePkg x.handle
  match s.xferSlot x with
  | none => true
  | some n =>
    ((smFind (s.encl x.enc).streams n).map Stream.broken).getD true || 1536 ≤ s.pkgid ||
    (pkg ≠ s.pkgid && !(List.range 18).any fun q =>
      bitAt p.ports q && s.portUp q && p.routes.any fun r => r.valid && r.first ≤ pkg && pkg ≤ r.last && bitAt r.ports q)

/-- The lines that a transfer touches when it leaves: the source of a put, and both ends of one that is looped. -/
def State.departLines (s : State) (x : Xfer) : List (Nat × Nat) :=
  let loop : Bool := handlePkg x.handle = s.pkgid
  let target := ((s.fwin (handleWid x.handle)).map fun w => s.winLines w x.off x.len).getD []
  (if x.get && !loop then [] else s.xferLines x) ++ if loop then target else []

/-- A transfer may move at the egress: no earlier operation's range lock and no earlier store of its path slot holds its
source back (11 R250, R251), and no earlier request of its interface waits there. -/
def State.xferReady (s : State) (x : Xfer) : Bool :=
  x.port ≠ 0 && !(s.core x.core).heldBack x.id &&
  !(((s.group x.gid).map fun (g : Group) => g.fifo.any fun e => e.seq < x.seq && e.pathF = x.pathF).getD false) &&
  !(s.xfers.any fun y => y.seq < x.seq && y.port ≠ 0 && s.viOf y.enc = s.viOf x.enc)

/-- The peer's end of a stream between two enclaves of this package: the slot of the same index, bound to the first. -/
def State.loopEnd (s : State) (enc slot : Nat) : Option Stream :=
  (smFind (s.encl enc).streams slot).bind fun t =>
    (smFind (s.encl t.peerEnc).streams slot).bind fun u =>
      if t.peerPkg = s.pkgid && u.peerPkg = s.pkgid && u.peerEnc = enc && u.bound then some u else none

/-- A transfer to this package is looped at the egress: admitted or refused by the window of the stream's other end, and returned. -/
def State.loopXfer (s : State) (x : Xfer) (w : FWin) (slot : Nat) : State :=
  let wid := handleWid x.handle
  match (s.loopEnd x.enc slot).bind fun u => s.admits u slot wid x.off x.len x.get with
  | none => s.finishXfer x false []
  | some t =>
    let s := s.linesSee (s.winLines t x.off x.len) (.core x.core)
    if x.get then (s.countWin t x.off x.len).finishXfer x true (s.winRead t x.off x.len)
    else
      let s := (s.countWin w x.loc x.len).winWrite t x.off (s.winSource w x.core x.loc x.len)
      (s.modFwin wid fun w => { w with tcnt := (w.tcnt + 1) % 2 ^ 48 }).finishXfer x true []

/-- A transfer leaves the egress on its stream. -/
def State.sendXfer (s : State) (x : Xfer) (slot : Nat) : State :=
  let s := match x.col with
    | some (c, n) => s.colourDown (dieOfCore x.core) c n
    | none => s
  let x := { x with port := 0, col := none, slot := slot }
  let s : State := { s with xfers := s.xfers.map fun y => if y.seq = x.seq then x else y }
  match s.fwin x.wid with
  | none => s
  | some w =>
    if handlePkg x.handle = s.pkgid then s.loopXfer x w slot
    else
      let s := if x.get then s else s.linesSee (s.xferLines x) (.core x.core)
      if x.get then s.say x.enc slot none [] (.getReq (handleWid x.handle) x.off x.len)
      else (s.countWin w x.loc x.len).say x.enc slot none (s.winSource w x.core x.loc x.len) (.put (handleWid x.handle) x.off)

/-- The next move at the egress: a refusal at the origin, or one token of 256 bytes, the last of which sends the
transfer; without a token its interface waits. Transfers whose lines a serving point holds ask for widenings. -/
def State.egressStep (s : State) : Option State :=
  match s.xfers.find? fun x => s.xferReady x && (s.xferRefused x || !s.linesHeld (s.departLines x) (.core x.core) &&
      s.fabBuckets.any fun b => b.vi = s.viOf x.enc && 1 ≤ b.level) with
  | none => some ((s.xfers.filter s.xferReady).foldl (fun s x => s.linesAsk (s.departLines x) (.core x.core)) s)
  | some x =>
    if s.xferRefused x then some (s.finishXfer x false [])
    else
      let vi := s.viOf x.enc
      let s : State := { s with
        fabBuckets := s.fabBuckets.map fun b => if b.vi = vi then { b with level := b.level - 1, act := true } else b
        xfers := s.xfers.map fun y => if y.seq = x.seq then { y with port := y.port - 1 } else y }
      if x.port = 1 then some (s.sendXfer { x with port := 0 } ((s.xferSlot x).getD 0)) else some s

/-- Interfaces with a transfer that waits at the egress are active. -/
def State.egressWait (s : State) : State :=
  { s with fabBuckets := s.fabBuckets.map fun b =>
      if s.xfers.any fun x => x.port ≠ 0 && s.viOf x.enc = b.vi then { b with act := true } else b }

/-! ### Host DMA and CXL.mem (25 R420, R421) -/

/-- DMA that is not admitted is completed with Completer Abort, and logged. -/
def State.abortDma (s : State) (stream : Nat) : State :=
  { s with outbox := s.outbox ++ [.dmaAbort stream], hostLog := s.hostLog ++ [(2, stream)] }

/-- DMA on a selective IDE stream: a write is made as a put into a HOSTDMA window of the bound enclave; any other DMA is completed with
Completer Abort. -/
def State.takeDma (s : State) (stream wid off : Nat) (wr : Bool) (data : List Byte) : State :=
  let t := s.tdis.find? fun (t : Nat × Tdi) => t.2.run && t.2.stream = some stream
  match t, s.fwin wid with
  | some t, some w =>
    if wr ∧ w.enc = t.2.enc ∧ w.stat = .opened ∧ w.dma ∧ off + data.length ≤ w.ext then
      s.winAccess w off data.length .host fun s => s.placePut w off data 0
    else s.abortDma stream
  | _, _ => s.abortDma stream

/-- HOST_DMA: a package that a boot step has stopped answers none (27 R433). -/
def execHostDma (stream wid off : Nat) (wr : Bool) (data : List Byte) (s : State) : Out :=
  whenRunning (fun s => s.takeDma stream wid off wr data) s

/-- A host access over CXL.mem to one 64-byte line: frames of owner 0 in plaintext; of any other a read gives ones with poison and a
write is dropped. -/
def State.cxlAccess (s : State) (wr : Bool) (pa : Nat) (data : List Byte) : State :=
  let a := pa / 64 * 64
  let p := s.potOf (a / 4096)
  let ours : Bool := p.owner = 0 && (p.stat = 1 || p.stat = 5) && inMemory a
  let at_ := [(0xFF, a)]
  if ours ∧ s.linesHeld at_ .host then s.linesAsk at_ .host
  else
    let s := if ours then s.linesSee at_ .host else s
    match wr, ours with
    | true, true => s.hubStore 0xFF a (data.take 64)
    | true, false => { s with outbox := s.outbox ++ [.cxl [] false], hostLog := s.hostLog ++ [(1, a)] }
    | false, true => { s.countPeek 0xFF [a] with outbox := s.outbox ++ [.cxl (s.coherent 0xFF a 64) false] }
    | false, false => { s with outbox := s.outbox ++ [.cxl (List.replicate 64 0xFF#8) true], hostLog := s.hostLog ++ [(0, a)] }

/-- CXL_MEM_ACCESS: a package that a boot step has stopped answers none (27 R433). -/
def execCxlMemAccess (wr : Bool) (pa : Nat) (data : List Byte) (s : State) : Out := whenRunning (fun s => s.cxlAccess wr pa data) s

/-- A TDI is locked, started and stopped; in RUN it may be bound to an enclave and to a stream, whose key the Sconce programs (25 R420,
R421; log 73). -/
def State.askTdi (s : State) (op : TdispOp) (tdi enc stream : Nat) : State :=
  let t := (smFind s.tdis tdi).getD ⟨false, false, 0, none, 0⟩
  let put (t : Tdi) : State := { s with tdis := smPut s.tdis tdi t }
  match op with
  | .lock => if t.run then s else put { t with locked := true }
  | .start => if t.locked then put { t with run := true } else s
  | .stop => put ⟨false, false, 0, none, 0⟩
  | .bindStream =>
    if t.run ∧ stream < 256 ∧ (s.encl enc).live ∧ !s.tdis.any (fun (u : Nat × Tdi) => u.2.stream = some stream) then
      { put { t with enc := enc, stream := some stream, key := Config.ideKey s.fresh } with fresh := s.fresh + 1 }
    else s
  | .unbindStream => if t.stream = some stream then put { t with enc := 0, stream := none, key := 0 } else s

/-- TDISP_REQUEST (25 R421): a package that a boot step has stopped answers none (27 R433). -/
def execTdispRequest (op : TdispOp) (tdi enc stream : Nat) (s : State) : Out := whenRunning (fun s => s.askTdi op tdi enc stream) s

end Sys2Proof.Machine
end

