-- ==== Sys2Proof/Machine/Approx.lean ====
section
/-! DEFINITION. The approximating instructions (06 R148; 03 R85): special and exact cases as the spec gives them; of the
values its error bound admits, a fixed function of the input names the one delivered (log 5). -/

namespace Sys2Proof.Machine

/-- Bits of the computations of 1/sqrt, 2^x and log2, which are cut there. -/
def workBits : Nat := 160

/-- The places of the least and the greatest finite f32 within `bn / bd` of every positive number from num / den to
(num + err) / den, where place 0 is zero, place n the n-th f32 above it and place −n its negative. -/
def approxEnds (num err den bn bd : Nat) : Int × Int :=
  let below := (roundTo .f32 .rtz false false · (den * bd))
  let up := num * bd + bn * den
  let top := (num + err) * bd
  let lo : Int :=
    if bn * den < top then ((roundTo .f32 .rup false false (top - bn * den) (den * bd)).bits : Int)
    else if bn * den = top then 0
    else -((below (bn * den - top)).bits : Int)
  (lo, ((below up).bits : Int))

/-- The delivered f32 for an exact magnitude with sign `s` that lies from num / den to (num + err) / den: one of the finite
values within the error bound of 06 Table 6.3 wherever it lies there. `ulps` is the bound in units of the last place of the exact result;
`wide` is set where it is 2^−22 if that is larger. But for a wide bound, an exact result of 2^−150 or more is never
delivered as zero. Every such result is inexact. -/
def approxTo (op : Nat) (x : W32) (ulps : Nat) (wide s : Bool) (num err den : Nat) : FRes :=
  let e := max ((roundTo .f32 .rtz false false num den).bits / 2 ^ 23) 1
  let bn := ulps * 2 ^ e
  let ends := approxEnds num err den (if wide then max bn (2 ^ 128) else bn) (2 ^ 150)
  let lo := if !wide ∧ den ≤ num * 2 ^ 150 then max ends.1 1 else ends.1
  let n : Int := lo + Config.approxPick op x % ((ends.2 - lo).toNat + 1)
  ⟨b2n (s != decide (n < 0)) * 2 ^ 31 + n.natAbs, Flags.nx ||| Flags.uf.when (n.natAbs < 2 ^ 23)⟩

/-- An overflowing result. -/
def approxOver (s : Bool) : FRes := ⟨fpInf .f32 s, Flags.ov ||| Flags.nx⟩

/-- ±2^k exactly, for k from −149 to 127. -/
def powF32 (s : Bool) (k : Int) : FRes := roundDy .f32 .rne false ⟨if s then -1 else 1, k⟩

/-- Whether a significand is a power of two. -/
def isPow2 (m : Nat) : Bool := m = 2 ^ m.log2

/-- v.frcp of one lane. -/
def frcpF32 (x : W32) : FRes :=
  match fpDec .f32 x.toNat with
  | .inf s => ⟨fpZero .f32 s, Flags.none⟩
  | .fin s m e =>
    if m = 0 then ⟨fpInf .f32 s, Flags.dz⟩
    else
      let k : Int := -((m.log2 : Int) + e)
      if isPow2 m ∧ k ≤ 127 then powF32 s k
      else
        let num := 2 ^ (-e).toNat
        let den := m * 2 ^ e.toNat
        if den * (2 ^ 128 - 2 ^ 104) < num then approxOver s else approxTo 0 x 1 false s num 0 den
  | v => (pickNaN .f32 [v]).getD (invalid .f32)

/-- v.frsq of one lane. -/
def frsqF32 (x : W32) : FRes :=
  match fpDec .f32 x.toNat with
  | .inf s => if s then invalid .f32 else ⟨fpZero .f32 false, Flags.none⟩
  | .fin s m e =>
    if m = 0 then ⟨fpInf .f32 s, Flags.dz⟩
    else if s then invalid .f32
    else
      let k : Int := (m.log2 : Int) + e
      if isPow2 m ∧ k % 2 = 0 then powF32 false (-(k / 2))
      else
        let w : Nat := workBits + (e % 2).toNat
        let r := isqrt (2 ^ w / m) (workBits / 2 + 1) 0
        let z : Int := -(((w : Int) + e) / 2)
        approxTo 1 x 1 false false (r * 2 ^ z.toNat) (2 ^ z.toNat) (2 ^ (-z).toNat)
  | v => (pickNaN .f32 [v]).getD (invalid .f32)

/-- 2^f in units of 2^−workBits for the fraction f = n / 2^k: each set bit multiplies by a further square root of 2.
`root` is 2^(2^−i) for the bit at hand. -/
def exp2Bits : Nat → Nat → Nat → Nat → Nat
  | 0, _, _, acc => acc
  | k + 1, n, root, acc =>
    let root' := isqrt (root * 2 ^ workBits) (workBits + 1) 0
    exp2Bits k n root' (if bitAt n k then acc * root' / 2 ^ workBits else acc)

/-- v.fexp2 of one lane. -/
def fexp2F32 (x : W32) : FRes :=
  match fpDec .f32 x.toNat with
  | .inf s => if s then ⟨fpZero .f32 false, Flags.none⟩ else ⟨fpInf .f32 false, Flags.none⟩
  | .fin s m e =>
    let v := dyOf s m e
    let whole : Int := v.m * 2 ^ v.e.toNat / 2 ^ (-v.e).toNat
    if 128 ≤ whole then approxOver false
    else if whole < -150 then ⟨fpZero .f32 false, Flags.uf ||| Flags.nx⟩
    else if v.m * 2 ^ v.e.toNat % 2 ^ (-v.e).toNat = 0 ∧ -149 ≤ whole then powF32 false whole
    else
      let k := min (-v.e).toNat 64
      let n := ((v.m * 2 ^ 64 / 2 ^ (-v.e).toNat) % 2 ^ 64).toNat / 2 ^ (64 - k)
      let acc := exp2Bits k n (2 ^ (workBits + 1)) (2 ^ workBits)
      let z : Int := whole - workBits
      approxTo 2 x 2 false false (acc * 2 ^ z.toNat) ((acc / 2 ^ 63 + 2 ^ 9) * 2 ^ z.toNat) (2 ^ (-z).toNat)
  | v => (pickNaN .f32 [v]).getD (invalid .f32)

/-- Binary digits of log2 of y / 2^workBits in [1, 2), by repeated squaring: `k` digits appended to `acc`. -/
def log2Bits : Nat → Nat → Nat → Nat
  | 0, _, acc => acc
  | k + 1, y, acc =>
    let z := y * y / 2 ^ workBits
    if 2 ^ (workBits + 1) ≤ z then log2Bits k (z / 2) (2 * acc + 1) else log2Bits k z (2 * acc)

/-- v.flog2 of one lane. -/
def flog2F32 (x : W32) : FRes :=
  match fpDec .f32 x.toNat with
  | .inf s => if s then invalid .f32 else ⟨fpInf .f32 false, Flags.none⟩
  | .fin s m e =>
    if m = 0 then ⟨fpInf .f32 true, Flags.dz⟩
    else if s then invalid .f32
    else
      let k : Int := (m.log2 : Int) + e
      if isPow2 m then intToFp .f32 .rne false k
      else
        let f := log2Bits 80 (m * 2 ^ workBits / 2 ^ m.log2) 0
        let v : Int := k * 2 ^ 80 + f
        approxTo 3 x 2 true (v < 0) (if v < 0 then v.natAbs - 2 else v.natAbs) 2 (2 ^ 80)
  | v => (pickNaN .f32 [v]).getD (invalid .f32)

end Sys2Proof.Machine
end

