-- ==== Sys2Proof/Machine/Vector.lean ====
section
/-! DEFINITION. The vector instructions but the sweeps (spec 06): integer and floating-point lanes, conversions and
packing, compares, moves, permutes, reductions and scan. -/

namespace Sys2Proof.Machine

/-! ### Elements -/

/-- Sub-element `k` of lane `i`, or f64 element `i`, of a register. -/
def elemGet (t : VTy) (i k : Nat) (v : VReg) : Nat := if t = .f64 then elem64 v i else subElem (lane v i) t.width k

/-- The result of lane (or f64 element) `i`: `h` is given how to read its element of each source; the flags of its
sub-elements are ORed (03 R70). -/
def laneRes (t : VTy) (h : (VReg → Nat) → FRes) (i : Nat) : FRes :=
  let rs := (List.range t.subs).map fun k => h (elemGet t i k)
  ⟨packSubs t.width (rs.map FRes.bits), rs.foldl (fun f r => f ||| r.fl) Flags.none⟩

/-- The active lanes, or the active f64 elements. -/
def Group.elems (g : Group) (t : VTy) : List Nat := if t = .f64 then g.elems64 else g.lanes

/-- The flags of the active elements. -/
def Group.flagsOf (g : Group) (t : VTy) (r : Nat → FRes) : Flags := (g.elems t).foldl (fun f i => f ||| (r i).fl) Flags.none

/-- Writes the active elements of a register. -/
def Group.setElems (g : Group) (d : Reg) (t : VTy) (r : Nat → Nat) : Group :=
  if t = .f64 then g.setV64 d r else g.setV d fun i => BitVec.ofNat 32 (r i)

/-- An element-wise word of `n` slot cycles: every source is read before d is written (06 R141). -/
def vecWord (n : Nat) (d : Reg) (t : VTy) (h : (VReg → Nat) → FRes) (s : State) : Out :=
  let r := laneRes t h
  .next ((s.modG fun g => (g.orFpf (g.flagsOf t r)).setElems d t fun i => (r i).bits).retireV n)

/-- A word that copies or builds 32-bit lanes. -/
def vecLanes (n : Nat) (d : Reg) (f : Group → Nat → W32) (s : State) : Out :=
  .next ((s.modG fun g => g.setV d (f g)).retireV n)

/-! ### Integer lanes (06 R144, R145) -/

/-- An exact integer result at the sub-element's width: wrapped, or saturated (03 R62). -/
def intRes (t : VTy) (n : BitVec 1) (x : Int) : FRes :=
  ⟨wrapInt t.width (if n = 1#1 then satInt t.signed t.width x else x), Flags.none⟩

/-- An integer operation on two sub-elements as TYPE reads them. -/
def vecInt (d a b : Reg) (c : BitVec 4) (n : BitVec 1) (op : Int → Int → Int) (s : State) : Out :=
  let t := VTy.of c
  let va := s.g.vr a
  let vb := s.g.vr b
  vecWord 3 d t (fun e => intRes t n (op (toInt t.signed t.width (e va)) (toInt t.signed t.width (e vb)))) s

/-- A shift, whose count is the low log2(w) bits of the second sub-element. -/
def vecShift (d a b : Reg) (c : BitVec 4) (n : BitVec 1) (signed : VTy → Bool) (op : Int → Nat → Int) (s : State) : Out :=
  let t := VTy.of c
  let va := s.g.vr a
  let vb := s.g.vr b
  vecWord 3 d t (fun e => intRes t n (op (toInt (signed t) t.width (e va)) (e vb % t.width))) s

/-- A bitwise operation on 32-bit lanes. -/
def vecBits (d a b : Reg) (op : W32 → W32 → W32) (s : State) : Out :=
  vecLanes 3 d (fun g i => op (lane (g.vr a) i) (lane (g.vr b) i)) s

/-- v.add (06 R144). -/
def execVAdd (d a b : Reg) (t : BitVec 4) (n : BitVec 1) (s : State) : Out :=
  vecInt d a b t n (· + ·) s
/-- v.sub (06 R144). -/
def execVSub (d a b : Reg) (t : BitVec 4) (n : BitVec 1) (s : State) : Out :=
  vecInt d a b t n (· - ·) s
/-- v.mul (06 R144). -/
def execVMul (d a b : Reg) (t : BitVec 4) (n : BitVec 1) (s : State) : Out :=
  vecInt d a b t n (· * ·) s
/-- v.mulh: floor(x × y / 2^w) (06 R144). -/
def execVMulh (d a b : Reg) (t : BitVec 4) (s : State) : Out :=
  vecInt d a b t 0 (fun x y => x * y / 2 ^ (VTy.of t).width) s
/-- v.and (06 R144). -/
def execVAnd (d a b : Reg) (s : State) : Out :=
  vecBits d a b (· &&& ·) s
/-- v.or (06 R144). -/
def execVOr (d a b : Reg) (s : State) : Out :=
  vecBits d a b (· ||| ·) s
/-- v.xor (06 R144). -/
def execVXor (d a b : Reg) (s : State) : Out :=
  vecBits d a b (· ^^^ ·) s
/-- v.andn (06 R144). -/
def execVAndn (d a b : Reg) (s : State) : Out :=
  vecBits d a b (fun x y => x &&& ~~~y) s
/-- v.shl (06 R144). -/
def execVShl (d a b : Reg) (t : BitVec 4) (n : BitVec 1) (s : State) : Out :=
  vecShift d a b t n VTy.signed (fun x k => x * 2 ^ k) s
/-- v.shr: the sub-element as natural (06 R144). -/
def execVShr (d a b : Reg) (t : BitVec 4) (s : State) : Out :=
  vecShift d a b t 0 (fun _ => false) (fun x k => x / 2 ^ k) s
/-- v.sra: the sub-element as signed (06 R144). -/
def execVSra (d a b : Reg) (t : BitVec 4) (s : State) : Out :=
  vecShift d a b t 0 (fun _ => true) (fun x k => x / 2 ^ k) s
/-- v.min (06 R144). -/
def execVMin (d a b : Reg) (t : BitVec 4) (s : State) : Out :=
  vecInt d a b t 0 min s
/-- v.max (06 R144). -/
def execVMax (d a b : Reg) (t : BitVec 4) (s : State) : Out :=
  vecInt d a b t 0 max s
/-- v.abs (06 R144). -/
def execVAbs (d a : Reg) (t : BitVec 4) (n : BitVec 1) (s : State) : Out :=
  vecInt d a a t n (fun x _ => x.natAbs) s
/-- v.clz (06 R144). -/
def execVClz (d a : Reg) (t : BitVec 4) (s : State) : Out :=
  let w := (VTy.of t).width
  let va := s.g.vr a
  vecWord 3 d (VTy.of t) (fun e => ⟨if e va = 0 then w else w - 1 - (e va).log2, Flags.none⟩) s
/-- v.pop (06 R144). -/
def execVPop (d a : Reg) (t : BitVec 4) (s : State) : Out :=
  let va := s.g.vr a
  vecWord 3 d (VTy.of t) (fun e => ⟨popBits (e va) (VTy.of t).width, Flags.none⟩) s
/-- v.mad: the product is negated before the addition where neg is set (06 R145). -/
def execVMad (d a b c : Reg) (n : BitVec 1) (s : State) : Out :=
  let va := s.g.vr a
  let vb := s.g.vr b
  let vc := s.g.vr c
  vecWord 3 d .i32 (fun e =>
    let p := toInt true 32 (e va) * toInt true 32 (e vb)
    ⟨wrapInt 32 ((if n = 1#1 then -p else p) + e vc), Flags.none⟩) s

/-! ### Floating-point lanes (06 R146 to R148) -/

/-- The floating-point type of a lane type. -/
def vFp (t : VTy) : FTy := t.fty.getD .f32
/-- Whether SN is the saturate bit: types 10 and 11 (03 R73). -/
def vEight (t : VTy) : Bool := t = .e4m3x4 || t = .e5m2x4

/-- A floating-point operation on two elements: SN negates in types 6 to 9 and saturates in types 10 and 11, which
round RNE (06 R146). `op` takes type, rounding mode, saturation and negation. -/
def vecFp (n m : Nat) (d a b : Reg) (c : BitVec 4) (r : BitVec 2) (sn : BitVec 1)
    (op : FTy → Rm → Bool → Bool → Nat → Nat → FRes) (s : State) : Out :=
  let t := VTy.of c
  let va := s.g.vr a
  let vb := s.g.vr b
  vecWord (if t = .f64 then m else n) d t
    (fun e => op (vFp t) (if vEight t then .rne else Rm.ofCode r) (vEight t && sn = 1#1) (!vEight t && sn = 1#1) (e va) (e vb)) s

/-- v.fadd (06 R146). -/
def execVFadd (d a b : Reg) (t : BitVec 4) (r : BitVec 2) (n : BitVec 1) (s : State) : Out :=
  vecFp 3 3 d a b t r n fpAdd s
/-- v.fsub (06 R146). -/
def execVFsub (d a b : Reg) (t : BitVec 4) (r : BitVec 2) (n : BitVec 1) (s : State) : Out :=
  vecFp 3 3 d a b t r n fpSub s
/-- v.fmul (06 R146). -/
def execVFmul (d a b : Reg) (t : BitVec 4) (r : BitVec 2) (n : BitVec 1) (s : State) : Out :=
  vecFp 3 3 d a b t r n fpMul s
/-- v.fmin (06 R146). -/
def execVFmin (d a b : Reg) (t : BitVec 4) (s : State) : Out :=
  vecFp 3 3 d a b t 0 0 (fun y _ _ _ => fpMin y) s
/-- v.fmax (06 R146). -/
def execVFmax (d a b : Reg) (t : BitVec 4) (s : State) : Out :=
  vecFp 3 3 d a b t 0 0 (fun y _ _ _ => fpMaxOp y) s
/-- v.fdiv (06 R146). -/
def execVFdiv (d a b : Reg) (t : BitVec 4) (r : BitVec 2) (n : BitVec 1) (s : State) : Out :=
  vecFp 12 24 d a b t r n (fun y rm _ neg => fpDiv y rm neg) s
/-- v.fsqrt (06 R146). -/
def execVFsqrt (d a : Reg) (t : BitVec 4) (r : BitVec 2) (s : State) : Out :=
  vecFp 12 24 d a a t r 0 (fun y rm _ neg x _ => fpSqrt y rm neg x) s

/-- An approximating word on f32 lanes (06 R148). -/
def vecApprox (d a : Reg) (f : W32 → FRes) (s : State) : Out :=
  let va := s.g.vr a
  vecWord 6 d .f32 (fun e => f (BitVec.ofNat 32 (e va))) s

/-- v.frcp (06 R148). -/
def execVFrcp (d a : Reg) (s : State) : Out :=
  vecApprox d a frcpF32 s
/-- v.frsq (06 R148). -/
def execVFrsq (d a : Reg) (s : State) : Out :=
  vecApprox d a frsqF32 s
/-- v.fexp2 (06 R148). -/
def execVFexp2 (d a : Reg) (s : State) : Out :=
  vecApprox d a fexp2F32 s
/-- v.flog2 (06 R148). -/
def execVFlog2 (d a : Reg) (s : State) : Out :=
  vecApprox d a flog2F32 s

/-- A fused multiply-add, rounding RNE (06 R147). -/
def vecFma (t : VTy) (d a b c : Reg) (n : BitVec 1) (s : State) : Out :=
  let va := s.g.vr a
  let vb := s.g.vr b
  let vc := s.g.vr c
  vecWord 3 d t (fun e => fpFma (vFp t) .rne false (n = 1#1) (e va) (e vb) (e vc)) s

/-- v.fma.f32 (06 R147). -/
def execVFmaF32 (d a b c : Reg) (n : BitVec 1) (s : State) : Out :=
  vecFma .f32 d a b c n s
/-- v.fma.f64 (06 R147). -/
def execVFmaF64 (d a b c : Reg) (n : BitVec 1) (s : State) : Out :=
  vecFma .f64 d a b c n s
/-- v.fma.f16x2 (06 R147). -/
def execVFmaF16x2 (d a b c : Reg) (n : BitVec 1) (s : State) : Out :=
  vecFma .f16x2 d a b c n s
/-- v.fma.bf16x2 (06 R147). -/
def execVFmaBf16x2 (d a b c : Reg) (n : BitVec 1) (s : State) : Out :=
  vecFma .bf16x2 d a b c n s

/-! ### Conversions and packing (06 R149 to R151) -/

/-- cv of 06 Table 6.4 for one element. -/
def cvElem (src dst : VTy) (rm : Rm) (sat : Bool) (x : Nat) : FRes :=
  match src.fty, dst.fty with
  | some p, some q => fpToFp p q rm sat x
  | some p, none => fpToInt p .rne sat dst.signed dst.width x
  | none, some q => intToFp q .rne sat (toInt src.signed src.width x)
  | none, none => intToInt src.signed src.width sat dst.signed dst.width x

/-- v.cvt: equal widths in place; 32 bits to and from f64 in lane pairs (06 R149). -/
def execVCvt (d a : Reg) (u t : BitVec 4) (r : BitVec 2) (n : BitVec 1) (s : State) : Out :=
  let src := VTy.of t
  let dst := VTy.of u
  let va := s.g.vr a
  let cv := cvElem src dst (Rm.ofCode r) (n = 1#1)
  if dst = .f64 ∧ src ≠ .f64 then vecWord 3 d .f64 (fun e => cv (e va % 2 ^ 32)) s
  else if src = .f64 ∧ dst ≠ .f64 then
    vecWord 3 d .f64 (fun e => cv (e va)) s
  else vecWord 3 d src (fun e => cv (e va)) s

/-- cv of v.pack: a 32-bit value narrowed into the packed TYPE (06 R150). -/
def packElem (t : VTy) (rm : Rm) (sat : Bool) (x : Nat) : FRes :=
  match t.fty with
  | some q => fpToFp .f32 q (if vEight t then .rne else rm) sat x
  | none => intToInt t.signed 32 sat t.signed t.width x

/-- One lane of v.pack. -/
def packLane (t : VTy) (rm : Rm) (sat : Bool) (x y old : Nat) : FRes :=
  let p := packElem t rm sat x
  let q := packElem t rm sat y
  ⟨if t.width = 16 then q.bits * 2 ^ 16 + p.bits else q.bits * 2 ^ 24 + p.bits * 2 ^ 16 + bitsAt old 16 16, p.fl ||| q.fl⟩

/-- v.pack (06 R150). -/
def execVPack (d a b : Reg) (t : BitVec 4) (r : BitVec 2) (n : BitVec 1) (s : State) : Out :=
  let va := s.g.vr a
  let vb := s.g.vr b
  let vd := s.g.vr d
  vecWord 3 d .i32 (fun e => packLane (VTy.of t) (Rm.ofCode r) (n = 1#1) (e va) (e vb) (e vd)) s
/-- v.unpack: sub-element k widened to 32 bits (06 R151). -/
def execVUnpack (d a k : Reg) (t : BitVec 4) (s : State) : Out :=
  let y := VTy.of t
  let va := s.g.vr a
  vecWord 3 d .i32 (fun e =>
    let x := bitsAt (e va) (y.width * k.toNat) y.width
    match y.fty with
    | some p => fpToFp p .f32 .rne false x
    | none => ⟨wrapInt 32 (toInt y.signed y.width x), Flags.none⟩) s

/-! ### Compare and select (06 R152, R153) -/

/-- A condition of 06 Table 6.5 between two elements, and NV. -/
def vecHolds (t : VTy) (c : Nat) (x y : Nat) : Bool × Flags :=
  match t.fty with
  | some p =>
    let a := fpDec p x
    let b := fpDec p y
    let nan := a.isNaN || b.isNaN
    let sig := a.snan p || b.snan p
    match c with
    | 0 => (a.eqv b, Flags.nv.when sig)
    | 1 => (!a.eqv b, Flags.nv.when sig)
    | 2 => (a.lt b, Flags.nv.when nan)
    | 3 => (!nan && !b.lt a, Flags.nv.when nan)
    | 4 => (b.lt a, Flags.nv.when nan)
    | 5 => (!nan && !a.lt b, Flags.nv.when nan)
    | _ => (nan, Flags.nv.when sig)
  | none =>
    let a := toInt t.signed 32 x
    let b := toInt t.signed 32 y
    (match c with
     | 0 => a = b | 1 => a ≠ b | 2 => a < b | 3 => a ≤ b | 4 => b < a | _ => b ≤ a, Flags.none)

/-- A mask from the bits that hold. -/
def maskOf (f : Nat → Bool) : Mask := BitVec.ofNat 96 ((List.range 96).foldr (fun i n => b2n (f i) + 2 * n) 0)

/-- Writes a mask triple; a triple that reaches s60 to s62 emits one MASK packet (21 Table 21.9). -/
def State.setTriple (s : State) (n : Reg) (m : Mask) : State :=
  let s := s.modG (·.setTriple n m)
  let w := (List.range 3).foldl (fun w k => if n.toNat ≤ 60 + k ∧ 60 + k ≤ n.toNat + 2 then w + 2 ^ k else w) 0
  if w = 0 then s else s.emit s.g 3 w

/-- v.cmp writes the whole triple; inactive lanes yield 0 (06 R152). -/
def execVCmp (d a b : Reg) (t : BitVec 4) (c : BitVec 3) (s : State) : Out :=
  let y := VTy.of t
  let va := s.g.vr a
  let vb := s.g.vr b
  let r (i : Nat) : Bool × Flags := vecHolds y c.toNat (elemGet y i 0 va) (elemGet y i 0 vb)
  let el (i : Nat) : Nat := if y = .f64 then i / 2 else i
  let m := maskOf fun i => s.g.active (if y = .f64 then i / 2 * 2 else i) && (r (el i)).1
  let fl := s.g.flagsOf y fun i => ⟨0, (r i).2⟩
  let leaf := s.g.vleaf
  .next ((((s.modG (·.orFpf fl)).setTriple d m).spendWord leaf 3).modG Group.advance)
/-- v.sel (06 R153). -/
def execVSel (d a b c : Reg) (s : State) : Out :=
  vecLanes 3 d (fun g i => if bitAt (g.triple c).toNat i then lane (g.vr a) i else lane (g.vr b) i) s

/-! ### Constants, moves and single lanes (06 R154 to R157) -/

/-- v.li (06 R154). -/
def execVLi (d : Reg) (i : BitVec 19) (s : State) : Out :=
  vecLanes 3 d (fun _ _ => i.signExtend 32) s
/-- v.mov (06 R154). -/
def execVMov (d a : Reg) (s : State) : Out :=
  vecLanes 3 d (fun g i => lane (g.vr a) i) s
/-- v.bcast of 32 bits to lanes, or of 64 bits to lane pairs (06 R154). -/
def execVBcast (d a : Reg) (t : BitVec 4) (s : State) : Out :=
  let x := (s.g.sr a).toNat
  vecWord 3 d (VTy.of t) (fun _ => ⟨if VTy.of t = .f64 then x else x % 2 ^ 32, Flags.none⟩) s
/-- v.get ignores the mask; an index of 96 or more reads 0 (06 R155). -/
def execVGet (d a b : Reg) (s : State) : Out :=
  let idx := (s.g.sr b).toNat
  let x : Word := if idx < 96 then (lane (s.g.vr a) idx).setWidth 64 else 0
  .next ((s.setS d x).retire 3)
/-- v.set writes one lane, if it is active (06 R155). -/
def execVSet (d a b : Reg) (s : State) : Out :=
  vecLanes 3 d (fun g i => if i = (g.sr b).toNat then (g.sr a).setWidth 32 else lane (g.vr d) i) s
/-- v.iota (06 R154). -/
def execVIota (d : Reg) (s : State) : Out :=
  vecLanes 3 d (fun _ i => BitVec.ofNat 32 i) s
/-- v.perm: source lanes whatever their activity (06 R156). -/
def execVPerm (d a b : Reg) (s : State) : Out :=
  vecLanes 4 d (fun g i => let j := (lane (g.vr b) i).toNat; if j < 96 then lane (g.vr a) j else 0) s

/-- The source lane of v.shfl (06 Table 6.7); 96 stands for a lane outside the vector. -/
def shflIndex (mode k i : Nat) : Nat :=
  match mode with
  | 0 => (i + k) % 96
  | 1 => i ^^^ k
  | 2 => i + k
  | _ => if k ≤ i then i - k else 96

/-- v.shfl under the descriptor in s[b] (06 R157). -/
def execVShfl (d a b : Reg) (s : State) : Out :=
  let x := (s.g.sr b).toNat
  vecLanes 4 d (fun g i =>
    let j := shflIndex (bitsAt x 0 2) (bitsAt x 2 7) i
    if j < 96 then lane (g.vr a) j else 0) s

/-! ### Reductions and scan (06 R158, R159; 03 R82 to R84) -/

/-- One level of the tree: adjacent values combined, the lower-numbered one on the left. -/
def treeLevel (op : Nat → Nat → FRes) : List Nat → List Nat × Flags
  | a :: b :: r => let x := op a b; let y := treeLevel op r; (x.bits :: y.1, x.fl ||| y.2)
  | r => (r, Flags.none)

/-- A beat reduced to one value in `n` levels. -/
def treeBeat (op : Nat → Nat → FRes) : Nat → List Nat → FRes
  | 0, xs => ⟨xs.headD 0, Flags.none⟩
  | n + 1, xs => let y := treeLevel op xs; let z := treeBeat op n y.1; ⟨z.bits, y.2 ||| z.fl⟩

/-- The three beats of a reduction and their combination (b0 + b1) + b2 (03 R82). -/
def treeAll (op : Nat → Nat → FRes) (n : Nat) (x : Nat → Nat) : FRes :=
  let beat (b : Nat) : FRes := treeBeat op n ((List.range (2 ^ n)).map fun i => x (b * 2 ^ n + i))
  let p := op (beat 0).bits (beat 1).bits
  let q := op p.bits (beat 2).bits
  ⟨q.bits, (beat 0).fl ||| (beat 1).fl ||| (beat 2).fl ||| p.fl ||| q.fl⟩

/-- A reduction over elements of a type: inactive ones contribute the identity (03 R83). -/
def vecReduce (d a : Reg) (t : VTy) (ident : Nat) (op : Nat → Nat → FRes) (s : State) : Out :=
  let g := s.g
  let x (i : Nat) : Nat :=
    if g.active (if t = .f64 then 2 * i else i) then elemGet t i 0 (g.vr a) else ident
  let r := treeAll op (if t = .f64 then 4 else 5) x
  let leaf := g.vleaf
  let v := if t = .i32 then wrapInt 64 (toInt true 32 r.bits) else r.bits
  .next ((((s.modG (·.orFpf r.fl)).setS d (BitVec.ofNat 64 v)).spendWord leaf 6).modG Group.advance)

/-- An integer choice as a tree operation. -/
def pickInt (t : VTy) (op : Int → Int → Int) (x y : Nat) : FRes :=
  ⟨wrapInt 32 (op (toInt t.signed 32 x) (toInt t.signed 32 y)), Flags.none⟩

/-- v.rsum (06 R158). -/
def execVRsum (d a : Reg) (t : BitVec 4) (s : State) : Out :=
  let y := VTy.of t
  vecReduce d a y (fpZero (vFp y) true) (fpAdd (vFp y) .rne false false) s
/-- v.rmax (06 R158). -/
def execVRmax (d a : Reg) (t : BitVec 4) (s : State) : Out :=
  let y := VTy.of t
  match y.fty with
  | some p => vecReduce d a y (fpInf p true) (fpMaxOp p) s
  | none => vecReduce d a y (wrapInt 32 (intRange y.signed 32).1) (pickInt y max) s
/-- v.rmin (06 R158). -/
def execVRmin (d a : Reg) (t : BitVec 4) (s : State) : Out :=
  let y := VTy.of t
  match y.fty with
  | some p => vecReduce d a y (fpInf p false) (fpMin p) s
  | none => vecReduce d a y (wrapInt 32 (intRange y.signed 32).2) (pickInt y min) s
/-- v.rsumi: the exact sum in 64 bits (06 R158). -/
def execVRsumi (d a : Reg) (t : BitVec 4) (s : State) : Out :=
  let y := VTy.of t
  let sum := (s.g.lanes.map fun i => toInt y.signed 32 (lane (s.g.vr a) i).toNat).sum
  let leaf := s.g.vleaf
  .next (((s.setS d (BitVec.ofInt 64 sum)).spendWord leaf 6).modG Group.advance)

/-- The running values of a scan: results and flags lane by lane. -/
def scanFrom (op : Nat → Nat → FRes) (x : Nat → Nat) : Nat → Nat → Nat → List Nat × Flags
  | 0, _, _ => ([], Flags.none)
  | n + 1, i, run =>
    let r := op run (x i)
    let y := scanFrom op x n (i + 1) r.bits
    (r.bits :: y.1, r.fl ||| y.2)

/-- v.scan: an inclusive prefix sum as a left fold (06 R159; 03 R84). -/
def execVScan (d a : Reg) (t : BitVec 4) (r : BitVec 2) (s : State) : Out :=
  let y := VTy.of t
  let g := s.g
  let ident := if y = .f32 then fpZero .f32 true else 0
  let x (i : Nat) : Nat := if g.active i then (lane (g.vr a) i).toNat else ident
  let op (p q : Nat) : FRes := if y = .f32 then fpAdd .f32 (Rm.ofCode r) false false p q else ⟨(p + q) % 2 ^ 32, Flags.none⟩
  let res := scanFrom op x 96 0 ident
  .next ((s.modG fun g => (g.orFpf res.2).setV d fun i => BitVec.ofNat 32 (res.1.getD i 0)).retireV 6)

end Sys2Proof.Machine
end

