-- ==== Sys2Proof/Machine/Collective.lean ====
section
/-! DEFINITION. Collectives (25 R414 to R417; 26 R430, R431), the flits of a stream (25 R408), and the Ultra Ethernet
queues (25 R418, R419; 26 R432). -/

namespace Sys2Proof.Machine

/-! ### Collective groups -/

/-- Statuses of 25 Table 25.5. -/
def collDone : Nat := 1
/-- CANCELLED. -/
def collCancelled : Nat := 2
/-- GONE. -/
def collGone : Nat := 3
/-- MISMATCH. -/
def collMismatch : Nat := 4
/-- BROKEN. -/
def collBroken : Nat := 5

/-- Changes a collective group. -/
def State.modCgroup (s : State) (grp : Nat) (f : CGroup → CGroup) : State :=
  { s with cgroups := s.cgroups.map fun c => if c.cgroup = grp then f c else c }

/-- The collective group of a number; a number is configured for one partition (25 R414). -/
def State.findGroup (s : State) (grp : Nat) : Option CGroup := s.cgroups.find? fun c => c.cgroup = grp

/-- Whether a group that waits on a slot can still take its status: it has not ended, and neither has its task. -/
def State.stillWaits (s : State) (gid : Nat) : Bool :=
  ((s.group gid).map fun g => g.stat ≠ .ending && g.stat ≠ .ended &&
    !((s.taskOf g).map fun (t : Task) => t.ended).getD false : Option Bool).getD false

/-- A slot's collective has ended: the groups parked on it complete with the status and the slot is freed, or it keeps the
status for the first coll.wait (26 R431). -/
def State.endSlot (s : State) (enc slot status : Nat) : State :=
  match smFind (s.encl enc).colls slot with
  | none => s
  | some c =>
    if !c.waiters.any fun w => s.stillWaits w.1 then s.modEnc enc fun e => { e with colls := smPut e.colls slot { c with status := some status } }
    else
      let s := c.waiters.foldl (fun s w => s.deliver w.1 w.2 (BitVec.ofNat 64 status)) s
      s.modEnc enc fun e => { e with colls := smErase e.colls slot }

/-- Collective `k` of a group ends for every member of this package, and for those that have yet to issue it. -/
def State.endColl (s : State) (grp k status : Nat) : State :=
  match s.findGroup grp with
  | none => s
  | some c =>
    if (smFind c.ended k).isSome then s
    else
      let cs := c.contribs.filter fun x => x.k = k
      let s := cs.foldl (fun s x => s.endSlot x.enc x.slot status) s
      s.modCgroup grp fun c => { c with ended := smPut c.ended k status, contribs := c.contribs.filter fun x => x.k ≠ k }

/-- The same where this package ends it: the members on other packages are told (25 R416, R422). -/
def State.endCollHere (s : State) (grp k status : Nat) : State :=
  match s.findGroup grp with
  | none => s
  | some c =>
    if (smFind c.ended k).isSome then s
    else { s.endColl grp k status with outbox := (s.endColl grp k status).outbox ++ [.collEnd grp k status] }

/-- Every collective that has not produced its result ends with a status. -/
def State.endPending (s : State) (grp status : Nat) : State :=
  match s.findGroup grp with
  | none => s
  | some c => (uniq (c.contribs.map (·.k))).foldl (fun s k => if status = collGone then s.endColl grp k status else s.endCollHere grp k status) s

/-! ### Issue (26 R430) -/

/-- The COLL window of an enclave that an address lies in, in whatever spelling. -/
def State.collWin (s : State) (g : Group) (a : Nat) : Option FWin :=
  let p := plainAddr a
  s.fwins.find? fun w =>
    w.enc = g.enc && w.stat = .opened && descColl w.desc && w.base ≤ p && p < w.base + w.ext && (!descLocal w.desc || w.gid = g.gid)

/-- The lowest free collective slot of an enclave. -/
def State.freeColl (s : State) (enc : Nat) : Option Nat := (List.range 256).find? fun i => (smFind (s.encl enc).colls i).isNone

/-- A member's contribution: a group that has lost a member, a collective that has already ended, a BROKEN stream and a
mismatch end it at once. -/
def State.contribute (s : State) (w : FWin) (x : Contrib) : State :=
  let grp := descGroup w.desc
  let s := s.modEnc x.enc fun e => { e with colls := smPut e.colls x.slot { cgroup := grp, k := x.k, status := none, waiters := [] } }
  match s.findGroup grp with
  | none => s
  | some c =>
    let s := s.modCgroup grp fun c =>
      { c with issued := smSet 0 c.issued x.rank (x.k + 1), contribs := c.contribs ++ [x] }
    match smFind c.ended x.k with
    | some st =>
      (s.endSlot x.enc x.slot st).modCgroup grp fun c => { c with contribs := c.contribs.filter fun y => y.k ≠ x.k }
    | none =>
      if ((s.streamOf w).map Stream.broken).getD false then
        (s.modFwin w.wid fun w => { w with oerr := min (w.oerr + 1) (2 ^ 16 - 1) }).endCollHere grp x.k collBroken
      else if !c.gone.isEmpty then s.endColl grp x.k collGone
      else if c.contribs.any fun y => y.k = x.k && (y.bcast ≠ x.bcast || y.len ≠ x.len || y.typ ≠ x.typ || y.op ≠ x.op) then
        s.endCollHere grp x.k collMismatch
      else s

/-- coll.ar and coll.bc: elements of `e` bytes, `len` bytes in all. -/
def collective (d : Reg) (at_ : Word) (e len typ op : Nat) (bcast : Bool) (s : State) : Out :=
  let g := s.g
  let a := at_.toNat
  if a % e ≠ 0 then .next (s.faultHere .misaligned)
  else if len = 0 ∨ 2 ^ 24 ≤ len then .next (s.faultHere .windowBounds)
  else match s.collWin g a with
    | none => .next (s.faultHere .windowBounds)
    | some w =>
      if w.base + w.ext < plainAddr a + len then .next (s.faultHere .windowBounds)
      else match s.freeColl g.enc with
        | none => .next (s.hold leafEvent)
        | some slot =>
          let k := ((s.findGroup (descGroup w.desc)).map fun (c : CGroup) => smGet 0 c.issued (descRank w.desc)).getD 0
          let x : Contrib :=
            { k := k, rank := descRank w.desc, enc := g.enc, wid := w.wid, off := plainAddr a - w.base, len := len, typ := typ, op := op
              bcast := bcast, slot := slot, gid := g.gid, pathF := g.curF, seq := s.seq }
          let s := ({ s with seq := s.seq + 1 } : State).contribute w x
          .next ((s.setS d (BitVec.ofNat 64 slot)).retire 1)

/-- coll.ar. -/
def execCollAr (d a b : Reg) (t : BitVec 4) (o : BitVec 2) (s : State) : Out :=
  let e := if t = 7#4 then 8 else 4
  collective d (s.g.sr a) e ((s.g.sr b).toNat * e) t.toNat o.toNat false s
/-- coll.bc. -/
def execCollBc (d a b : Reg) (s : State) : Out := collective d (s.g.sr a) 1 (s.g.sr b).toNat 0 0 true s

/-- coll.wait (26 R431). -/
def execCollWait (d a : Reg) (s : State) : Out :=
  match s.g.p.result with
  | some v => .next (((s.modG fun g => g.modP fun p => { p with result := none }).setS d v).retire 1)
  | none =>
    let n := (s.g.sr a).toNat
    match if n < 256 then smFind (s.encl s.g.enc).colls n else none with
    | none => .next ((s.setS d 0).retire 1)
    | some c =>
      match c.status with
      | some st =>
        .next (((s.modEnc s.g.enc fun e => { e with colls := smErase e.colls n }).setS d (BitVec.ofNat 64 st)).retire 1)
      | none =>
        let me := (s.g.gid, s.g.curF)
        let s := if c.waiters.contains me then s
          else s.modEnc s.g.enc fun e => { e with colls := smPut e.colls n { c with waiters := c.waiters ++ [me] } }
        .next (s.park (.coll s.g.enc n))

/-- coll.cancel (25 R416; 26 R431). -/
def execCollCancel (a : Reg) (s : State) : Out :=
  let n := (s.g.sr a).toNat
  .next (match if n < 256 then smFind (s.encl s.g.enc).colls n else none with
    | none => s.retire 1
    | some c => (if c.status.isSome then s else s.endCollHere c.cgroup c.k collCancelled).retire 1)

/-! ### Results (25 R415) -/

/-- One node of the tree over two elements of a TYPE. -/
def collNode (t : VTy) (op x y : Nat) : FRes :=
  let fp (p : FTy) (x y : Nat) : FRes :=
    match op with
    | 0 => fpAdd p .rne false false x y
    | 1 => fpMaxOp p x y
    | _ => fpMin p x y
  match t with
  | .bf16x2 =>
    let lo := fp .bf16 (x % 2 ^ 16) (y % 2 ^ 16)
    let hi := fp .bf16 (x / 2 ^ 16) (y / 2 ^ 16)
    ⟨lo.bits + hi.bits * 2 ^ 16, lo.fl ||| hi.fl⟩
  | .f32 => fp .f32 x y
  | .f64 => fp .f64 x y
  | t => pickInt t (match op with | 0 => (· + ·) | 1 => max | _ => min) x y

/-- Element `j` of `e` bytes. -/
def elemOf (bs : List Byte) (e j : Nat) : Nat := leNat ((bs.drop (e * j)).take e)

/-- The reduction of the members' bytes in rank order: result bytes and gathered flags. -/
def collReduce (t : VTy) (op e len : Nat) (xs : List (List Byte)) : List Byte × Flags :=
  (List.range (len / e)).foldl (fun (r : List Byte × Flags) j =>
    let y := treeBeat (collNode t op) 11 (xs.map fun b => elemOf b e j)
    (r.1 ++ leBytes e y.bits, r.2 ||| y.fl)) ([], Flags.none)

/-- A contribution may be read: every earlier store of its path slot has passed the core store point (26 R430). -/
def State.contribReady (s : State) (x : Contrib) : Bool :=
  !(((s.group x.gid).map fun (g : Group) => g.fifo.any fun e => e.seq < x.seq && e.pathF = x.pathF).getD false)

/-- The bytes of a local contribution. -/
def State.contribBytes (s : State) (x : Contrib) : List Byte :=
  match s.fwin x.wid with
  | some w => s.winSource w w.core x.off x.len
  | none => List.replicate x.len 0

/-- The reads of a contribution count (09 R207). -/
def State.countContrib (s : State) (x : Contrib) : State :=
  match s.fwin x.wid with
  | some w => s.countWin w x.off x.len
  | none => s

/-- The result of a collective reaches a member's window, and its TCNT rises. -/
def State.landResult (s : State) (x : Contrib) (bs : List Byte) (write : Bool) : State :=
  match s.fwin x.wid with
  | none => s
  | some w =>
    (if write then (s.linesSee (s.winLines w x.off x.len) .remote).winWrite w x.off bs else s).modFwin x.wid fun w => { w with tcnt := (w.tcnt + 1) % 2 ^ 48 }

/-- The bytes of every rank in order; none where some member has not contributed. -/
def rankBytes (n : Nat) (xs : List (Nat × List Byte)) : Option (List (List Byte)) :=
  (List.range n).foldr (fun r (acc : Option (List (List Byte))) =>
    match xs.find? fun x => x.1 = r, acc with
    | some x, some l => some (x.2 :: l)
    | _, _ => none) (some [])

/-- Whether a member elsewhere has issued a collective as a local member did (25 R414). -/
def Contrib.agrees (x : Contrib) (p : PeerPart) : Bool := p.bcast = x.bcast && p.len = x.len && p.typ = x.typ && p.op = x.op

/-- Whether all the bytes that a member elsewhere brings are given; of coll.bc only the root brings any. -/
def partWhole (p : PeerPart) : Bool := (p.bcast && p.rank ≠ 0) || p.bytes.length = p.len

/-- COLLECTIVE_RESULT from the switches: with every member's contribution there, those of other packages given by `peers`; or the status
with which a member elsewhere has ended the collective (25 R416, R422). A package whose id is out of range accepts none (25 R405). -/
def execCollectiveResult (grp k status : Nat) (peers : List PeerPart) (s : State) : Out :=
  match if 1536 ≤ s.pkgid then none else s.findGroup grp with
  | none => .next s
  | some c =>
    if status = collCancelled ∨ status = collMismatch ∨ status = collBroken then .next (s.endColl grp k status)
    else if status ≠ 0 then .next s
    else
    let cs := c.contribs.filter fun x => x.k = k
    match cs with
    | [] => .next s
    | x :: _ =>
      let ls := cs.flatMap fun x => ((s.fwin x.wid).map fun w => s.winLines w x.off x.len).getD []
      if (smFind c.ended k).isSome ∨ cs.any (fun x => !s.contribReady x) ∨ peers.any (fun p => !partWhole p) then .next s
      else if s.linesHeld ls .remote then .next (s.linesAsk ls .remote)
      else if !c.gone.isEmpty then .next (s.endColl grp k collGone)
      else if peers.any fun p => !x.agrees p then .next (s.endColl grp k collMismatch)
      else match rankBytes c.nmemb ((cs.map fun x => (x.rank, s.contribBytes x)) ++ peers.map fun p => (p.rank, p.bytes)) with
        | none => .next s
        | some bs =>
          let s := (cs.filter fun y => !x.bcast || y.rank = 0).foldl State.countContrib s
          if x.bcast then .next ((cs.foldl (fun s y => s.landResult y (bs.headD []) (y.rank ≠ 0)) s).endColl grp k collDone)
          else
            let e := if x.typ = 7 then 8 else 4
            let r := collReduce (VTy.of (BitVec.ofNat 4 x.typ)) x.op e x.len bs
            .next ((cs.foldl (fun s y => s.landResult y r.1 true) s).endColl grp k (collDone + r.2.toNat * 2 ^ 8))

/-- COLLECTIVE_MEMBER_GONE (25 R417). -/
def execCollectiveMemberGone (grp rank : Nat) (s : State) : Out :=
  .next ((s.modCgroup grp fun c => { c with gone := if c.gone.contains rank then c.gone else c.gone ++ [rank] }).endPending grp collGone)

/-- A collective that can end without another package: a member is gone, or every member is local. -/
def State.collStep (s : State) : Option Out :=
  s.cgroups.findSome? fun c =>
    c.contribs.findSome? fun x =>
      if !c.gone.isEmpty then some (.next (s.endPending c.cgroup collGone))
      else
        let cs := c.contribs.filter fun y => y.k = x.k
        if s.pkgid < 1536 && (List.range c.nmemb).all (fun r => cs.any fun y => y.rank = r) && cs.all s.contribReady then
          some (execCollectiveResult c.cgroup x.k 0 [] s)
        else none

/-! ### Flits of a stream (25 R408) -/

/-- What a flit does to a bound stream: its payload is taken once, or it is discarded, and the eighth discard in a row breaks the
stream. -/
def Stream.receive (t : Stream) (slot : Nat) (f : Flit) : Stream :=
  let top := t.accepted.foldl max 0
  match if t.accepted.contains f.seq ∨ f.seq + 1024 < top then none else openFlit (t.keyIn slot) slot f with
  | some bs =>
    let top' := max top f.seq
    { t with accepted := (t.accepted ++ [f.seq]).filter (fun n => top' ≤ n + 1024), discards := 0, inbox := t.inbox ++ [(f.seq, bs)] }
  | none => { t with discards := t.discards + 1, broken := t.broken || 7 ≤ t.discards }

/-- STREAM_FLIT_RECEIVE: a flit goes to the stream of its slot whose key opens it, where an ended enclave of the same id has left one, and
else to the enclave's own. Collectives of a stream that breaks end BROKEN. -/
def execStreamFlitReceive (enc slot : Nat) (f : Flit) (s : State) : Out :=
  let ts := (s.streamsAt enc slot).filter (·.bound)
  match if 1536 ≤ s.pkgid then none
    else (ts.find? fun t => (openFlit (t.keyIn slot) slot f).isSome).or (smFind (s.encl enc).streams slot) with
  | none => .next s
  | some t =>
    if !t.bound then .next s
    else
      let u := t.receive slot f
      let s := s.putStream slot u
      if !u.broken ∨ u.discards < 8 then .next s
      else
        let gs := uniq ((s.fwins.filter fun w =>
          w.enc = enc && descColl w.desc && descStream w.desc = slot).map fun w => descGroup w.desc)
        .next (gs.foldl (fun s c => s.endPending c collBroken) s)

/-! ### Ultra Ethernet queues (25 R418, R419; 26 R432) -/

/-- Whether a queue is usable: an OPEN window with UE set names it. -/
def State.ueUsable (s : State) (enc q : Nat) : Bool :=
  q < 16 && s.fwins.any fun w => w.enc = enc && w.stat = .opened && descUe w.desc && descQueue w.desc = q

/-- Changes a queue. -/
def State.modUe (s : State) (enc q : Nat) (f : UeQueue → UeQueue) : State :=
  s.modEnc enc fun e => { e with ue := smSet {} e.ue q (f (smGet {} e.ue q)) }

/-- Whether a post descriptor can be sent: its operation, its length and its reserved bits (25 Table 25.6). -/
def uePostOk (b : List Word) : Bool :=
  descDw b 0 < 2 && descDw b 2 / 2 ^ 24 = 0 && descDw b 2 ≠ 0 && descDw b 7 / 2 ^ 24 = 0

/-- The key of one direction of a pair of Ultra Ethernet peers: an enclave of this package, by its id and CREATE, and the address of a
peer port (25 R418; log 73). -/
def State.ueKey (s : State) (enc : Nat) (peer : BitVec 128) (out : Bool) : BitVec 256 :=
  Config.ueKey (leBytes 8 enc ++ leBytes 8 (s.encl enc).create.toNat ++ leBytes 16 peer.toNat ++ [if out then 1 else 0])

/-- PEER of a post descriptor. -/
def uePeer (b : List Word) : BitVec 128 := BitVec.ofNat 128 (descDw b 5 + descDw b 6 * 2 ^ 64)

/-- A message as packets of up to 4,096 bytes, each sealed for a peer. -/
def State.uePackets (s : State) (enc : Nat) (peer : BitVec 128) (data : List Byte) : List Flit :=
  sealAll (s.ueKey enc peer true) 0 (s.seq * 4096) (payloads 4096 data)

/-- Posts a descriptor that has been read: it takes an id and goes out, or completes at once with status 1. -/
def State.postUe (s : State) (q : Nat) (b : List Word) : State :=
  let e := s.g.enc
  let id := (smGet {} (s.encl e).ue q).next
  let s := s.modUe e q fun u => { u with next := (u.next + 1) % 2 ^ 48 }
  let a := descDw b 1
  let len := descDw b 2
  match if uePostOk b then s.originWin s.g a len else none with
  | none => s.modUe e q fun u => { u with done := u.done ++ [(id, 1)] }
  | some w =>
    let off := plainAddr a - w.base
    let data := if descDw b 0 = 0 then s.winSource w s.g.core off len else []
    let s := if descDw b 0 = 0 then s.countWin w off len else s
    { s.modUe e q fun u => { u with flight := u.flight ++ [⟨id, w.wid, off, b⟩] } with
      outbox := s.outbox ++ [.ue e q id (s.uePackets e (uePeer b) data)], seq := s.seq + 1 }

/-- ue.post (26 R432). -/
def execUePost (d a b : Reg) (s : State) : Out :=
  let q := (s.g.sr b).toNat
  if !s.ueUsable s.g.enc q then .next ((s.setS d (BitVec.ofNat 64 (2 ^ 63))).retire 1)
  else withDesc (s.g.sr a) 64 (fun bs s =>
    let u := smGet {} (s.encl s.g.enc).ue q
    if 256 ≤ u.flight.length + u.done.length then .next (s.hold leafEvent)
    else .next (((s.postUe q (bytesDwords 8 bs)).setS d (BitVec.ofNat 64 u.next)).retire 1)) s

/-- ue.poll (25 R419; 26 R432). -/
def execUePoll (d a : Reg) (s : State) : Out :=
  let q := (s.g.sr a).toNat
  if !s.ueUsable s.g.enc q then .next ((s.setS d 0).retire 1)
  else match (smGet {} (s.encl s.g.enc).ue q).done with
    | [] => .next ((s.setS d 0).retire 1)
    | (id, st) :: rest =>
      let s := (s.modUe s.g.enc q fun u => { u with done := rest })
      .next ((s.setS d (BitVec.ofNat 64 (2 ^ 63 + st * 2 ^ 48 + id))).retire 1)

/-- UE_COMPLETION of post `k` of a queue's posts in flight; a read's data is written as stores of the enclave. -/
def execUeCompletion (enc q k status : Nat) (data : List Byte) (s : State) : Out :=
  match (smGet {} (s.encl enc).ue q).flight[k]? with
  | none => .next s
  | some p =>
    let read : Bool := status = 0 && descDw p.desc 0 = 1
    let ls := ((s.fwin p.wid).map fun w => s.winLines w p.off data.length).getD []
    if 4 < status ∨ status = 1 ∨ (read ∧ data.length ≠ descDw p.desc 2) then .next s
    else if read ∧ s.linesHeld ls .remote then .next (s.linesAsk ls .remote)
    else
      let s := match read, s.fwin p.wid with
        | true, some w =>
          if w.enc = enc ∧ p.off + data.length ≤ w.ext then
            (s.linesSee (s.winLines w p.off data.length) .remote).winWrite w p.off data
          else s
        | _, _ => s
      .next (s.modUe enc q fun u => { u with flight := u.flight.eraseIdx k, done := u.done ++ [(p.id, status)] })

/-- The bytes of a packet whose transport security holds (25 R418). -/
def State.ueOpen (s : State) (enc : Nat) (peer : BitVec 128) (f : Flit) : Option (List Byte) := openFlit (s.ueKey enc peer false) 0 f

/-- A packet from a peer reaches a UE window: a part of a write is placed at its offset, the last one to be placed raising TCNT; a read is
answered with the window's bytes; what the window does not admit is refused (25 R418, R419). A packet whose tag fails is dropped. -/
def State.takePacket (s : State) (wid off : Nat) (peer : BitVec 128) (p : UePkt) : State :=
  let refused : State := { s with outbox := s.outbox ++ [.ueRefused wid] }
  match s.fwin wid with
  | none => refused
  | some w =>
    match s.ueOpen w.enc peer p.f with
    | none => s
    | some data =>
      let n := p.read.getD data.length
      if w.stat ≠ .opened ∨ !descUe w.desc ∨ 4096 < data.length ∨ 2 ^ 24 ≤ n ∨ w.ext < off + n then refused
      else s.winAccess w off n .remote fun s =>
        if p.read.isSome then
          { s.countWin w off n with
            outbox := s.outbox ++ [.ueData wid off (s.uePackets w.enc peer (s.winRead w off n))], seq := s.seq + 1 }
        else if p.last then s.placePut w off data 0
        else s.winWrite w off data

/-- UE_PACKET. -/
def execUePacket (wid off : Nat) (peer : BitVec 128) (p : UePkt) (s : State) : Out :=
  whenRunning (fun s => s.takePacket wid off peer p) s

end Sys2Proof.Machine
end

