-- ==== Sys2Proof/Machine/Control.lean ====
section
/-! DEFINITION. Control transfers (04 R103 to R107; 01 R30, R31), v.split and v.join (05 R113 to R115), and the ending
of a path slot or group (05 R118, R119; 01 R37). -/

namespace Sys2Proof.Machine

/-- A PC-relative header: H + 4 × offset (02 R46 to R49). -/
def Group.rel {n : Nat} (g : Group) (i : BitVec n) : VAddr := g.p.pc + 4 * i.signExtend 57

/-- The outcome of a conditional transfer, kept for its run's BRANCH packet (21 Table 21.9). -/
def State.note (taken : Bool) (s : State) : State := s.modG fun g => { g with taken := g.taken ++ [taken] }

/-- A conditional transfer (04 R103). -/
def transferIf {n : Nat} (taken : Bool) (i : BitVec n) (s : State) : Out :=
  let s := s.note taken
  .next (if taken then s.retireJump (s.g.rel i) else s.retire 1)

/-- b (04 R103). -/
def execBranch (i : BitVec 19) (s : State) : Out := .next (s.retireJump (s.g.rel i))
/-- bz (04 R103). -/
def execBz (d : Reg) (i : BitVec 19) (s : State) : Out := transferIf (s.g.sr d = 0) i s
/-- bnz (04 R103). -/
def execBnz (d : Reg) (i : BitVec 19) (s : State) : Out := transferIf (s.g.sr d ≠ 0) i s
/-- loop: the counter falls before the test; with s63 the write is discarded and the branch is taken (04 R103). For s56 and
s57, whose writes are discarded too, the test is of the computed d - 1: the spec fixes only s63 (log 27). -/
def execLoop (d : Reg) (i : BitVec 19) (s : State) : Out := transferIf (s.g.sr d - 1 ≠ 0) i (s.setS d (s.g.sr d - 1))
/-- bcmp (04 R103). -/
def execBcmp (c : BitVec 3) (d a : Reg) (i : BitVec 13) (s : State) : Out :=
  transferIf (condHolds (Cond.ofCode c) (s.g.sr d) (s.g.sr a)) i s

/-- jr (04 R104). -/
def execJr (a : Reg) (s : State) : Out :=
  let t := s.g.sr a
  if t.toNat % 4 ≠ 0 then .next (s.takeFault .misaligned t)
  else .next ((s.emitAddr (s.g.p.cwi + 1) (t.setWidth 57) 0).retireJump (t.setWidth 57))

/-- A call: the window slides, s59 takes the link, and control goes to the target (01 R30; 04 R105). Only an indirect call emits an
ADDR packet (21 Table 21.9). -/
def State.callTo (s : State) (t : VAddr) (k : BitVec 2) (indirect : Bool) : Out :=
  let link := (s.g.nextHeader.setWidth 64) ||| (k.setWidth 64)
  match s.slideUp ((k.toNat + 1) * 8) with
  | (s, some (c, a)) => .next (s.takeFault c a)
  | (s, none) =>
    let s := s.modG fun g => g.setS 59 link
    .next ((if indirect then s.emitAddr (s.g.p.cwi + 1) t 1 else s).retireJump t)
/-- call (04 R105). -/
def execCall (k : BitVec 2) (i : BitVec 19) (s : State) : Out := s.callTo (s.g.rel i) k false
/-- callr: the target is checked before the window (04 R105). -/
def execCallr (a : Reg) (k : BitVec 2) (s : State) : Out :=
  let t := s.g.sr a
  if t.toNat % 4 ≠ 0 then .next (s.takeFault .misaligned t) else s.callTo (t.setWidth 57) k true

/-! ### Ending (05 R118) -/

/-- Ends the executing path slot: its window returns (01 R37), its stack is discarded and it becomes ENDED with an
empty mask; with no other slot LIVE or AT_JOIN the group ends, after its last checkpoint (21 R391). -/
def State.endPath (s : State) : State :=
  let other : PathState := s.g.path (!s.g.curF)
  let last := other.stat ≠ .live && other.stat ≠ .atJoin
  match if last then s.checkpoint 2 0 else (s, none) with
  | (s, some a) => s.takeFault .replayDiverged a
  | (s, none) =>
    let back : Option Nat := match s.g.split with
      | some x => if other.stat ≠ .free ∧ x.wpos < s.g.wpos then some x.wpos else none
      | none => none
    match (match back with | some w => s.slideTo w | none => (s, none)) with
    | (s, some (c, a)) => s.takeFault c a
    | (s, none) =>
      let s := (s.spendWord leafUseful 1).modG fun g =>
        let g' := ({ g.noteHints with rc := g.rc + 1 }.modP fun p =>
          { p with stat := .ended, stack := [], mask := if other.stat = PSt.free then p.mask else 0, hdr := none, park := none }).boundary
        if last then { g' with stat := .ending } else g'
      if last then (s.emit s.g 10 0).modCore s.g.core (·.closeWins s.g.gid) else s

/-- Everything a path slot has outstanding becomes T's (05 R119 step 2). -/
def Group.relabel (g : Group) : Group :=
  { g with
    reqs := g.reqs.map fun x => { x with pathF := false }
    fifo := g.fifo.map fun x => { x with pathF := false }
    lnOps := g.lnOps.map fun x => { x with pathF := false }
    winStores := g.winStores.map fun x => { x with pathF := false } }

/-- Whether a slot has ended beside one that waits at the join, with nothing of it outstanding (05 R119 step 1). -/
def Group.joinDue (g : Group) : Option Bool :=
  let clear (p : PathState) : Bool := p.ld = 0 && p.st = 0 && p.cp = 0 && p.tl = 0 && p.rst = 0
  if g.t.stat = .ended ∧ g.f.stat = .atJoin ∧ clear g.t then some true
  else if g.f.stat = .ended ∧ g.t.stat = .atJoin ∧ clear g.f then some false
  else none

/-- A freed F slot: its barrier tokens and its monitor stand (07 R168, R173). -/
def Group.freeF (g : Group) : PathState := { toks := g.f.toks, mon := g.f.mon }

/-- The join completes without a v.join: T takes mask, counters and outstanding operations of the slot that waited, and
goes on with word 2 of the clause at J (05 R119). -/
def Group.finishJoin (g : Group) (waitedF : Bool) : Group :=
  let q := g.path waitedF
  let g := if waitedF then g.relabel else g
  let j := (g.split.map Split.join).getD 0
  { g with
    t := { g.t with
      mask := q.mask, ld := q.ld, st := q.st, cp := q.cp, tl := q.tl, rst := q.rst, pc := BitVec.ofNat 57 j, cwi := 1, stat := .live
      stack := [], hdr := none, park := none, noMatch := false, seen := uniq (g.t.seen ++ g.f.seen) }
    f := g.freeF, curF := false, split := none, stat := if g.stat = .halted then .halted else .ready }

/-- Engine and tile operations of an F slot that became T under R119. -/
def Core.relabel (c : Core) (gid : Nat) : Core :=
  { c with
    copies := c.copies.map fun x => if x.gid = gid then { x with pathF := false } else x
    tileq := c.tileq.map fun x => if x.gid = gid then { x with pathF := false } else x }

/-- Transfers and buffered stores of an F slot that became T. -/
def State.relabelRest (s : State) (gid : Nat) : State :=
  { s with
    xfers := s.xfers.map fun x => if x.gid = gid then { x with pathF := false } else x
    bufs := smMap [] (fun _ b => b.map fun e => if e.gid = gid then { e with pathF := false } else e) s.bufs }

/-- R119 for a group that is not at the focus; the join that completes emits RECONV (21 Table 21.9). -/
def State.joinDone (s : State) (g : Group) (waitedF : Bool) : State :=
  let g' := g.finishJoin waitedF
  let s := s.setGroup g'
  let s := if waitedF then s.relabelRest g.gid else s
  let s := if waitedF then s.modCore g.core (·.relabel g.gid) else s
  s.emitPacket g' (packet 5 false 1 g'.ident g'.p.pc.toNat g'.p.mask 0)

/-- ret: a return through s59, or the end of the path where s59 is zero (01 R31; 04 R106). A path cannot return below
its window at the split (01 R36). -/
def execRet (s : State) : Out :=
  let l := s.g.sr 59
  if l = 0 then .next s.endPath
  else
    let k := (l.toNat % 4 + 1) * 8
    let t : VAddr := BitVec.ofNat 57 (l.toNat % 2 ^ 57 / 4 * 4)
    let floor := match s.g.split with | some x => x.wpos | none => 0
    if s.g.wpos < k then .next (s.takeFault .stackOverflow s.g.wsp)
    else if s.g.wpos < k + floor then .next (s.faultHere .stackOverflow)
    else
      match s.slideTo (s.g.wpos - k) with
      | (s, some (c, a)) => .next (s.takeFault c a)
      | (s, none) => .next ((s.emitAddr (s.g.p.cwi + 1) t 2).retireJump t)

/-- halt (17 R324). -/
def execHalt (s : State) : Out := .next s.endPath

/-! ### Split and join -/

/-- The header at J, as the split reads it: its N, or how the split stops (05 R113). -/
def State.joinHeader (s : State) (j : VAddr) : Except State Nat :=
  match s.fetchWord s.g j.toNat with
  | .miss v => .error ((s.startWalk s.g v .fetch).hold leafFront)
  | .port => .error (s.portHold leafFront)
  | .held pa => .error ((s.fetchHeld s.g pa).hold leafFront)
  | .poison => .error (s.partitionReset (s.partOf s.g))
  | .bad c => .error ((s.clearWalks s.g).stopWith { s.report c (j.setWidth 64) 0 true false with pc := j.toNat })
  | .word w =>
    match decodeHeader w with
    | some h => .ok h.n
    | none => .error (s.takeFault .illegalClause (j.setWidth 64))

/-- A nested split: the two sides run one after the other in this slot (05 R114). -/
def Group.pushNested (g : Group) (j tEntry fEntry : VAddr) (c : Mask) : Group :=
  let tm := g.p.mask &&& c
  let fm := g.p.mask &&& ~~~c
  let e : StackEnt := { join := j.toNat, fmask := fm, acc := 0, sideF := tm = 0, wpos := g.wpos }
  g.modP fun p => { p with
    stack := e :: p.stack, mask := if tm = 0 then fm else tm, pc := if tm = 0 then fEntry else tEntry, cwi := 0, hdr := none
    noMatch := false }

/-- A top-level split: T and F both get a side (05 R113). -/
def Group.topSplit (g : Group) (j tEntry fEntry : VAddr) (c : Mask) : Group :=
  let tm := g.p.mask &&& c
  let fm := g.p.mask &&& ~~~c
  { g with
    t := { g.t with mask := tm, pc := tEntry, cwi := 0, hdr := none, noMatch := false
                    stat := if tm = 0 ∧ fm ≠ 0 then .atJoin else .live }
    f := { g.freeF with mask := fm, pc := fEntry, seen := g.t.seen, stat := if fm = 0 then .atJoin else .live }
    split := some { join := j.toNat, fEntry := fEntry.toNat, wpos := g.wpos }, afterSplit := true }

/-- v.split; a run boundary follows it (05 R113, R114). -/
def execVSplit (d : Reg) (i : BitVec 19) (s : State) : Out :=
  let g := s.g
  let j := g.rel i
  match s.joinHeader j with
  | .error s' => .next s'
  | .ok nj =>
    let s := s.fetched g j.toNat
    let g := s.g
    let c := g.triple d
    let fEntry := j + BitVec.ofNat 57 (4 * (nj + 1))
    let nested := (g.path (!g.curF)).stat ≠ .free
    if nested ∧ 8 ≤ g.p.stack.length then .next (s.takeFault .splitDepth (j.setWidth 64))
    else
      let g' := if nested then g.pushNested j g.nextHeader fEntry c else g.topSplit j g.nextHeader fEntry c
      let pay := i.toNat + g'.p.stack.length * 2 ^ 19 + b2n nested * 2 ^ 23
      let s := s.emitPacket g (packet 4 g.curF (g.p.cwi + 1) g.ident g.p.pc.toNat (g.p.mask &&& c) pay)
      .next ((s.spendWord s.g.vleaf 3).modG fun _ => { g'.boundary with y := g.y || (g.header.map Header.y).getD false,
                                                                        lastPh := (g.header.map Header.ph).getD 0 })

/-- The first of F's counters that is not zero, as a leaf (21 Table 21.2 step 4). -/
def Group.joinLeaf (g : Group) : Nat := g.f.failLeaf 0 0 0 0 |> fun l => if l = leafEvent then leafSt else l

/-- A completing top-level join: the group goes on in T at the next word (05 R115). -/
def Group.completeJoin (g : Group) : Group :=
  let p := g.p
  let m := g.t.mask ||| g.f.mask
  { g with
    t := { g.t with pc := p.pc, cwi := p.cwi, hdr := p.hdr, mask := m, stat := .live, stack := [], park := none, arrived := false
                    seen := uniq (g.t.seen ++ g.f.seen) }
    f := g.freeF, curF := false, split := none }

/-- v.join (05 R115; 01 R37). -/
def execVJoin (s : State) : Out :=
  let g := s.g
  let p := g.p
  let q : PathState := g.path (!g.curF)
  let target : Option (Nat × Nat) := match p.stack with
    | e :: _ => some (e.join, e.wpos)
    | [] => if q.stat ≠ .free then g.split.map fun x => (x.join, x.wpos) else none
  match target with
  | none => .next (s.faultHere .illegalInstruction)
  | some (j, w) =>
    if p.cwi ≠ 0 ∨ p.pc.toNat ≠ j then .next (s.faultHere .illegalInstruction)
    else if g.wpos ≠ w then .next (s.takeFault .stackOverflow g.wsp)
    else match p.stack with
      | e :: rest =>
        if !e.sideF ∧ e.fmask ≠ 0 then
          let s := s.spendWord g.vleaf 3
          let s := s.modG fun g => g.modP fun p => { p with
            stack := { e with acc := p.mask, sideF := true } :: rest, mask := e.fmask }
          let s := s.emit s.g 3 15
          .next (s.modG fun g => ({ g.noteHints with rc := g.rc + 1 }.modP fun p =>
            { p with pc := g.nextHeader, cwi := 0, hdr := none, noMatch := false }).boundary)
        else
          let s := s.spendWord g.vleaf 3
          let s := s.modG fun g => g.modP fun p => { p with stack := rest, mask := e.acc ||| p.mask }
          .next ((s.emit s.g 5 rest.length).modG Group.advance)
      | [] =>
        if q.stat = .atJoin ∨ q.stat = .ended then
          if g.f.ld ≠ 0 ∨ g.f.st ≠ 0 ∨ g.f.cp ≠ 0 ∨ g.f.tl ≠ 0 ∨ g.f.rst ≠ 0 then .next (s.hold g.joinLeaf)
          else
            let s := (s.spendWord g.vleaf 3).modG Group.completeJoin
            .next ((s.emit s.g 5 0).modG Group.advance)
        else
          .next ((s.spendWord g.vleaf 3).modG fun g =>
            { (({ g.noteHints with rc := g.rc + 1 }.modP fun p => { p with stat := .atJoin, hdr := none }).boundary) with
              firstAt := true })

end Sys2Proof.Machine
end

