-- ==== Sys2Proof/Machine/Issue.lean ====
section
/-! DEFINITION. What the core does before an instruction's own meaning: the header and its waits, the run-length check,
decoding, the position rule (01 R15, R19, R23; 02 R46, R47), and what moves when nothing can issue (log 2). -/

namespace Sys2Proof.Machine

/-- The control transfers, v.split and TRET: each must be its clause's last word (01 R18; 05 R113; 17 R322). -/
def mustBeLast : Instr → Bool
  | .branch .. | .bz .. | .bnz .. | .bcmp .. | .jr .. | .call .. | .callr .. | .ret | .loop .. | .vSplit .. | .tret .. =>
    true
  | _ => false

/-- What the core finds at the word about to issue. -/
inductive Ready where
  /-- the machine moves on without issuing: a fault, a hold, a header passed over -/
  | other (s : State)
  /-- the word is an instruction whose own checks come next -/
  | issue (i : Instr) (s : State)
  deriving DecidableEq, Repr

/-- Whether a vector pipe of a core is retired: two of its lanes are (17 Table 17.4). -/
def State.pipeOut (s : State) (core pipe : Nat) : Bool :=
  2 ≤ (s.retired.filter fun u => u.1 = 0 && u.2 / 32 = (core / 128 * 65536 + core % 128 * 64) / 32 + pipe).length

/-- The vector pipe that an issue slot uses: its own, or the other one where its own is retired; with both retired none
serves it (05 R109; 17 Table 17.4). -/
def State.pipeOf (s : State) (core slot : Nat) : Option Nat :=
  if !s.pipeOut core slot then some slot else if !s.pipeOut core (1 - slot) then some (1 - slot) else none

/-- Whether a transfer of mm.rd or mm.wr occupies a pipe of a core: the pipe of its group's home slot (05 R109; 15 R314). -/
def State.pipeBusy (s : State) (core pipe : Nat) : Bool :=
  (s.core core).tileq.any fun e => e.running && (match e.kind with | .rd .. | .wr .. => true | _ => false) &&
    ((s.group e.gid).map fun g => decide (s.pipeOf core g.slot = some pipe)).getD false

/-- Whether a vector instruction of the focused group finds its pipe free (01 R24; 05 R109). -/
def State.pipeFree (s : State) : Bool :=
  match s.pipeOf s.g.core s.g.slot with
  | some p => !s.pipeBusy s.g.core p
  | none => false

/-- A vector instruction: an SV word of opcode 0x40 to 0x7F (02 R54). -/
def isVector (c : Cls) (w : W32) : Bool := c = .sv && 0x40 ≤ bitsAt w.toNat 25 7

/-- A word of a group begins to issue: a due SYNC packet, and the word's place (21 Tables 21.8, 21.9). -/
def State.begin (s : State) (g : Group) : State :=
  let s := if g.syncDue ∧ s.traces g then (s.emitPacket g (syncPacket g)).modG fun g => { g with syncDue := false } else s
  s.modG fun h => { h with wordAt := (g.p.pc, g.p.cwi + 1) }

/-- The next word of the clause whose header the path slot holds, checked in the order of 02 R47. The order is the spec's but
for two places that it leaves open: a comparator match is taken after the run length and before the fetch, and a vector
instruction holds for its pipe after its position (log 32). -/
def State.readyWord (s : State) : Ready :=
  let g := s.g
  match g.header with
  | none => .other (s.headerFault .illegalClause (g.p.pc.setWidth 64))
  | some h =>
    if g.p.cwi ≥ h.n then
      .other (s.modG fun g => g.modP fun p => { p with pc := g.nextHeader, cwi := 0, hdr := none })
    else if g.rc = 24 then .other (s.faultHere .illegalRun)
    else match s.comparator g with
      | some n => .other (s.breakpoint (BitVec.ofNat 64 (0x2000 + n)) n)
      | none =>
        match s.fetchWord g s.wordAddr.toNat with
        | .miss v => .other ((s.startWalk g v .fetch).hold leafFront)
        | .port => .other (s.portHold leafFront)
        | .held pa => .other ((s.fetchHeld g pa).hold leafFront)
        | .poison => .other (s.partitionReset (s.partOf g))
        | .bad c => .other ((s.clearWalks g).takeFault c s.wordAddr)
        | .word w =>
          let s := s.fetched g s.wordAddr.toNat
          match decode h.cls w with
          | none => .other (s.faultHere .illegalInstruction)
          | some i =>
            if mustBeLast i ∧ !g.lastWord then .other (s.faultHere .illegalClause)
            else if isVector h.cls w ∧ !s.pipeFree then .other (s.hold leafPipe)
            else
              .issue i (s.begin g)

/-- The header of the executing path slot's clause: fetched, decoded and its waits passed before its first word
(01 R15, R17, R19). -/
def State.readyHeader (s : State) : Ready :=
  let g := s.g
  let pc := g.p.pc.setWidth 64
  match g.p.hdr with
  | some _ => s.readyWord
  | none =>
    if g.p.pc.toNat % 4 ≠ 0 then .other (s.headerFault .misaligned pc)
    else match s.fetchWord g g.p.pc.toNat with
      | .miss v => .other ((s.startWalk g v .fetch).hold leafFront)
      | .port => .other (s.portHold leafFront)
      | .held pa => .other ((s.fetchHeld g pa).hold leafFront)
      | .poison => .other (s.partitionReset (s.partOf g))
      | .bad c => .other ((s.clearWalks g).headerFault c pc)
      | .word w =>
        let s := s.fetched g g.p.pc.toNat
        match decodeHeader w with
        | none => .other (s.headerFault .illegalClause pc)
        | some h =>
          if waitsPass h g.p then (s.modG fun g => g.modP fun p => { p with hdr := some w }).readyWord
          else .other (s.hold (g.p.failLeaf h.wl h.ws h.wc h.wt))

end Sys2Proof.Machine
end

