-- ==== Sys2Proof/Machine/Engine.lean ====
section
/-! DEFINITION. Copy commands (14 R288 to R292; 15 R305 to R309): their checks at issue, conversion, and their completion
or failing element. -/

namespace Sys2Proof.Machine

/-! ### Exact values and conversion (14 R288) -/

/-- A value between the source and the destination: a NaN with the type it came from, an infinity, or a signed quotient of
naturals. -/
inductive EVal where
  | nan (t : FTy) (s : Bool) (f : Nat)
  | inf (s : Bool)
  | fin (s : Bool) (num den : Nat)
  deriving DecidableEq, Repr

/-- Signedness and width of an integer element type. -/
def etypeInt (t : Nat) : Option (Bool × Nat) :=
  match t with
  | 0 => some (true, 32) | 1 => some (false, 32) | 9 => some (true, 8) | 10 => some (true, 16) | _ => none
/-- The floating-point type of an element type. -/
def etypeFp (t : Nat) : Option FTy :=
  match t with
  | 2 => some .f32 | 3 => some .f64 | 4 => some .bf16 | 5 => some .f16 | 6 => some .e4m3 | 7 => some .e5m2 | _ => none

/-- The exact value of a floating-point encoding. -/
def fpVal (t : FTy) (x : Nat) : EVal :=
  match fpDec t x with
  | .nan s f => .nan t s f
  | .inf s => .inf s
  | .fin s m e => .fin s (m * 2 ^ e.toNat) (2 ^ (-e).toNat)

/-- The value of a source element. -/
def elemVal (t x : Nat) : EVal :=
  match etypeFp t, etypeInt t with
  | some f, _ => fpVal f x
  | none, some (sg, w) => let i := toInt sg w x; .fin (i < 0) i.natAbs 1
  | none, none => let d := pwValue x; .fin (d.m < 0) (d.m.natAbs * 2 ^ d.e.toNat) (2 ^ (-d.e).toNat)

/-- NV where a NaN signals. -/
def EVal.sig : EVal → Flags
  | .nan t s f => Flags.nv.when (FVal.snan t (.nan s f))
  | _ => Flags.none
/-- A NaN made quiet. -/
def EVal.quiet : EVal → EVal
  | .nan t s f => .nan t s (if t = .e4m3 then f else f ||| fpQuietBit t)
  | x => x
/-- The first NaN of two operands, made quiet, with NV where one signals (03 R74). -/
def EVal.pick (x y : EVal) : Option (EVal × Flags) :=
  match x, y with
  | .nan .., _ => some (x.quiet, x.sig ||| y.sig)
  | _, .nan .. => some (y.quiet, y.sig)
  | _, _ => none
/-- The NaN of an invalid operation. -/
def EVal.bad : EVal × Flags := (.nan .f32 false (fpQuietBit .f32), Flags.nv)

/-- The exact product with a scale. -/
def EVal.mul (x y : EVal) : EVal × Flags :=
  match x.pick y with
  | some r => r
  | none =>
    match x, y with
    | .inf a, .inf b => (.inf (a != b), Flags.none)
    | .inf a, .fin b n _ => if n = 0 then EVal.bad else (.inf (a != b), Flags.none)
    | .fin a m _, .inf b => if m = 0 then EVal.bad else (.inf (a != b), Flags.none)
    | .fin a m d, .fin b n e => (.fin (a != b) (m * n) (d * e), Flags.none)
    | _, _ => EVal.bad

/-- The exact quotient by a scale (04 R98). -/
def EVal.div (x y : EVal) : EVal × Flags :=
  match x.pick y with
  | some r => r
  | none =>
    match x, y with
    | .inf _, .inf _ => EVal.bad
    | .inf a, .fin b _ _ => (.inf (a != b), Flags.none)
    | .fin a _ _, .inf b => (.fin (a != b) 0 1, Flags.none)
    | .fin a m d, .fin b n e =>
      if n = 0 then (if m = 0 then EVal.bad else (.inf (a != b), Flags.dz)) else (.fin (a != b) (m * e) (d * n), Flags.none)
    | _, _ => EVal.bad

/-- A value converted to a floating-point type. -/
def EVal.toFp (x : EVal) (t : FTy) (sat : Bool) : FRes :=
  match x with
  | .nan u s f => nanCvt u t s f
  | .inf s => deliverInf t sat s
  | .fin s n d => if n = 0 then ⟨fpZero t s, Flags.none⟩ else roundTo t .rne sat s n d

/-- A floating-point value converted to an integer type (03 R76). -/
def EVal.toIntTy (x : EVal) (signed : Bool) (w : Nat) (sat : Bool) : FRes :=
  let r := intRange signed w
  let indefinite : Nat := if signed then 2 ^ (w - 1) else 2 ^ w - 1
  let out (v : Int) : FRes := ⟨if sat then wrapInt w v else indefinite, Flags.nv⟩
  match x with
  | .nan .. => out 0
  | .inf s => out (if s then r.1 else r.2)
  | .fin s n d =>
    let q := n / d
    let q := if roundsUp .rne s q (n % d) d then q + 1 else q
    let v : Int := if s then -(q : Int) else q
    if v < r.1 then out r.1 else if r.2 < v then out r.2 else ⟨wrapInt w v, Flags.nx.when (n % d ≠ 0)⟩

/-- One element from source bits to destination bits, with the scales of its rows where the records name them. -/
def convElem (st dt : Nat) (sat : Bool) (ss ds : Option Nat) (x : Nat) : FRes :=
  if ss.isNone ∧ ds.isNone ∧ st = dt then ⟨x, Flags.none⟩
  else
    let v := elemVal st x
    let a : EVal × Flags := match ss with | some k => v.mul (fpVal .f32 k) | none => (v, Flags.none)
    let b : EVal × Flags := match ds with | some k => a.1.div (fpVal .f32 k) | none => (a.1, Flags.none)
    let r : FRes := match etypeFp dt, etypeInt dt, etypeInt st with
      | some t, _, _ => b.1.toFp t sat
      | none, some (sg, w), some (ug, u) => intToInt ug u sat sg w x
      | none, some (sg, w), none => b.1.toIntTy sg w sat
      | none, none, _ => ⟨x, Flags.none⟩
    ⟨r.bits, a.2 ||| b.2 ||| r.fl⟩

/-! ### Issue (15 Table 15.2) -/

/-- A copy command as its word names it: the kind of its directions, its records, its value and its flag. -/
structure CopyWord where
  tag : Nat
  flag : Bool
  dst : Rec
  src : Option Rec
  idx : Option Rec
  fill : Option Word
  deriving DecidableEq, Repr

/-- The first record that breaks one of a list of checks. -/
def firstBad (cs : List (Bool × Rec)) : Option Rec := (cs.find? (·.1)).map (·.2)

/-- Step 3: shapes, a broadcast destination, and a conversion into pw8. -/
def CopyWord.shapeBad (c : CopyWord) : List (Bool × Rec) :=
  let d := c.dst
  let shape : List (Bool × Rec) := match c.src, c.idx with
    | some s, some x => [(d.rank < 2, d), (x.extent 0 ≠ d.extent 1, x),
        (s.rank ≠ d.rank || s.bc 1 || ([0, 2, 3].any fun k => s.extent k ≠ d.extent k), s)]
    | some s, none => [(s.rank ≠ d.rank || s.ext ≠ d.ext, s)]
    | none, _ => []
  let plain := match c.src with
    | some s => s.scale = 0 && d.scale = 0 && s.etype = d.etype
    | none => true
  shape ++ [(decide (d.bcast ≠ 0), d), (!plain && d.etype = 8, d)]

/-- Steps 3 to 5. -/
def CopyWord.bad (c : CopyWord) : Option Rec :=
  firstBad (c.shapeBad ++ [(c.flag && c.dst.far, c.dst)] ++
    ((c.src.toList ++ c.idx.toList).map fun r => (decide (r.layout = 2), r)))

/-- The records that a command reads or writes, with whether each is its destination. -/
def CopyWord.recs (c : CopyWord) : List (Rec × Bool) :=
  (c.dst, true) :: (c.src.toList ++ c.idx.toList).map fun r => (r, false)

/-- The ranges of a command: each record's elements, and each scale array (14 R292). -/
def CopyWord.ranges (c : CopyWord) : List (Bool × Bool × (Int × Int)) :=
  c.recs.flatMap fun r =>
    (r.1.far, r.2, r.1.bounds) :: (if r.1.scale ≠ 0 then [(r.1.far, false, r.1.scaleBounds)] else [])

/-- The dwords of a record: what the engine keeps of it. -/
def Rec.dwords (r : Rec) : List Word :=
  let pair (k : Nat) : Word := BitVec.ofNat 64 (wrapInt 32 (r.stride k) + wrapInt 32 (r.stride (k + 1)) * 2 ^ 32)
  [BitVec.ofNat 64 r.base,
   BitVec.ofNat 64 (b2n r.far * 2 ^ 31 + b2n r.sat * 2 ^ 30 + r.layout * 2 ^ 28 + r.bcast * 2 ^ 24 + (r.rank - 1) * 2 ^ 20 + r.etype * 2 ^ 16),
   BitVec.ofNat 64 (r.ext.getD 0 0 + r.ext.getD 1 0 * 2 ^ 16 + r.ext.getD 2 0 * 2 ^ 32 + r.ext.getD 3 0 * 2 ^ 48),
   pair 0, pair 2, BitVec.ofNat 64 r.scale, 0, 0]

/-- The command enters the engine: the tag is BUSY, CP rises, its ranges are locked (14 R289, R290, R292). -/
def State.startCopy (c : CopyWord) (s : State) : State :=
  let g := s.g
  let core := s.core g.core
  let op := core.opNext
  let bit : Word := BitVec.ofNat 64 (2 ^ c.tag)
  let locks := c.ranges.map fun r => s.lockOf g op r.1 r.2.1 r.2.2
  let e : Copy :=
    { id := op, seq := s.seq, gid := g.gid, pathF := g.curF, tag := c.tag, flag := c.flag
      src := (c.src.map Rec.dwords).getD [], dst := c.dst.dwords, idx := (c.idx.map Rec.dwords).getD [], fill := c.fill
      pc := g.p.pc.toNat, cwi := g.p.cwi + 1, port := none }
  let s := (s.clearWay g.core locks).modCore g.core fun k => { k with
    opNext := op + 1, tagSet := k.tagSet &&& ~~~bit, tagBusy := k.tagBusy ||| bit, locks := k.locks ++ locks
    copies := k.copies ++ [e] }
  let s : State := { s with seq := s.seq + 1 }
  s.modG fun g => g.modP fun p => { p with cp := p.cp + 1 }

/-- A copy word: the direction rows (step 2) that the caller gives, steps 3 to 6, then the holds of 14 R289, R290 and
11 R248. A CP counter at its maximum holds as the others do. -/
def copyIssue (dirs : List (Bool × Rec)) (c : CopyWord) (s : State) : Out :=
  let g := s.g
  match firstBad dirs with
  | some r => .next (s.takeFault .engineFormat (BitVec.ofNat 64 r.addr))
  | none =>
    match c.bad with
    | some r => .next (s.takeFault .engineFormat (BitVec.ofNat 64 r.addr))
    | none =>
      match c.ranges.findSome? fun r => if r.1 then none else g.outside r.2.2 with
      | some a => .next (s.takeFault .windowBounds (BitVec.ofInt 64 a))
      | none =>
        let k := s.core g.core
        if 16 ≤ k.copies.length ∨ bitAt k.tagBusy.toNat c.tag ∨ 63 ≤ g.p.cp then .next (s.hold leafCp)
        else if 32 < k.locks.length + c.ranges.length then .next (s.hold leafLock)
        else .next ((s.startCopy c).retire 1)

/-- A command with a source and a destination. DEDUCED: within step 2 the records are checked in the column order of the
direction rows, the source first (log 26). -/
def copyPair (d a : BitVec 3) (t : Reg) (f : BitVec 1) (dirs : Rec → Rec → List (Bool × Rec)) (s : State) : Out :=
  withRecords [d.toNat, a.toNat] (fun rs s =>
    match rs with
    | [x, y] => copyIssue (dirs x y) { tag := t.toNat, flag := f = 1#1, dst := x, src := some y, idx := none, fill := none } s
    | _ => .next s) s

/-- cp.in: far to local (15 R305). -/
def execCpIn (d a : BitVec 3) (t : Reg) (f : BitVec 1) (s : State) : Out :=
  copyPair d a t f (fun x y => [(!y.far, y), (x.far, x)]) s
/-- cp.out: local to far (15 R305). -/
def execCpOut (d a : BitVec 3) (t : Reg) (s : State) : Out :=
  copyPair d a t 0 (fun x y => [(y.far, y), (!x.far, x)]) s
/-- cp.copy: both records in one space (15 R305). -/
def execCpCopy (d a : BitVec 3) (t : Reg) (f : BitVec 1) (s : State) : Out :=
  copyPair d a t f (fun x y => [(x.far != y.far, x)]) s
/-- cp.gather (15 R305, R308). -/
def execCpGather (d a b : BitVec 3) (t : Reg) (f : BitVec 1) (s : State) : Out :=
  withRecords [d.toNat, a.toNat, b.toNat] (fun rs s =>
    match rs with
    | [x, y, i] => copyIssue [(x.far, x), (i.far || i.layout ≠ 0 || i.rank ≠ 1 || 1 < i.etype || i.scale ≠ 0, i)]
        { tag := t.toNat, flag := f = 1#1, dst := x, src := some y, idx := some i, fill := none } s
    | _ => .next s) s
/-- cp.fill: a destination with a SCALE names no FRA (15 R309; 17 R437). -/
def execCpFill (d : BitVec 3) (a t : Reg) (f : BitVec 1) (s : State) : Out :=
  withRecords [d.toNat] (fun rs s =>
    match rs with
    | [x] =>
      if x.scale ≠ 0 then .next (s.faultHere .engineFormat)
      else copyIssue [] { tag := t.toNat, flag := f = 1#1, dst := x, src := none, idx := none, fill := some (s.g.sr a) } s
    | _ => .next s) s

/-! ### Elements (14 R289; 15 R306, R307) -/

/-- The checks of a far element of a command (14 R289): the TLBs' entries, or those that walks have brought for the command, which
begins anew after each walk (10 R215; log 75). -/
def State.engineCheck (s : State) (g : Group) (c : Copy) (va : Int) (len : Nat) (k : Acc) : FarRes :=
  s.farCheckBy (s.pagedCopy g c.id c.pages · k) g va len k none

/-- A command as it runs: the state, the flags of its conversions, the page that a walk must translate before it can go on, what
stopped it, the far requests of what it has read and written, with the chunk that each of its arrays touched last, the first
address whose serving point holds it, whether it read a poisoned line, the local bytes it wrote, and the scales it has read:
whether of the destination's array, and the row (16 R318). -/
structure CopyRun where
  s : State
  fl : Flags := 0
  miss : Option (Nat × Acc) := none
  err : Option (Code × Word) := none
  reqs : Nat := 0
  chunk : SMap Int := []
  held : Option Nat := none
  bad : Bool := false
  wrote : List Nat := []
  scales : List ((Bool × Nat) × Nat) := []
  deriving DecidableEq, Repr

/-- Whether a byte stands in the cluster's store buffer. -/
def State.buffered (s : State) (core pa : Nat) : Bool := (bufByte (s.buf (clusterOf core)) (fun _ => true) pa).isSome

/-- A value of `n` bytes of a group's own allocation. -/
def State.ownRead (s : State) (g : Group) (a : Int) (n : Nat) : Nat :=
  leNat ((addrs (wrapInt 20 a) n).map fun o => ((s.poolOff g o).map (memByte (s.core g.core).pool)).getD 0)

/-- Whether a command goes no further: an element failed, or a page waits for its walk. -/
def CopyRun.over (r : CopyRun) : Bool := r.err.isSome || r.miss.isSome

/-- The far arrays of a command, by which its requests are counted: each makes one for every change of 64-byte chunk along what it
reads or writes (19 R356; log 46). -/
inductive CopyArr where
  | src | dst | srcScale | dstScale
  deriving DecidableEq, Repr
/-- An array's number. -/
def CopyArr.num : CopyArr → Nat
  | .src => 0 | .dst => 1 | .srcScale => 2 | .dstScale => 3

/-- An access of an array makes a request where it enters another chunk. -/
def CopyRun.request (r : CopyRun) (x : CopyArr) (a : Int) : CopyRun :=
  if smFind r.chunk x.num = some (a / 64) then r else { r with reqs := r.reqs + 1, chunk := smPut r.chunk x.num (a / 64) }

/-- The use of an address's translation: a copy in the first level, and its place in the replacement order (10 R214). -/
def State.usePage (s : State) (g : Group) (va : Int) (heap : Bool) (k : Acc) : State := if heap then s else s.refill g va.toNat k

/-- Reads a value of `n` bytes: the group's own allocation, or far memory through sources 2, 4 and 5 of 11 R235. -/
def CopyRun.read (r : CopyRun) (g : Group) (c : Copy) (x : CopyArr) (far : Bool) (a : Int) (n : Nat) : CopyRun × Nat :=
  if far then
    match r.s.engineCheck g c a n .load with
    | .miss v => ({ r with miss := some (v, .load) }, 0)
    | .bad c => ({ r with err := some (c, BitVec.ofInt 64 a) }, 0)
    | .ok pas heap =>
      let r := { r with s := r.s.usePage g a heap .load }.request x a
      let part := r.s.partOf g
      let die := dieOfCore g.core
      let v := leNat (pas.map (r.s.beyondNear g.core part))
      match pas.find? fun pa => !r.s.buffered g.core pa with
      | none => (r, v)
      | some pa =>
        let at_ := r.s.svtDie part die pa
        let s := ((r.s.lookupEvent g part pa).serveLoad part (r.s.clsOf pa) die pa 1).2
        ({ r with
            s := s.svtRecord at_ (pa / 64) (.core g.core), held := r.held.or (if r.s.svtHolds at_ (pa / 64) (.core g.core) then some pa else none)
            bad := r.bad || r.s.poison.contains (pa / 64) }, v)
  else (r, r.s.ownRead g a n)

/-- Far bytes of an engine enter the cluster's store buffer past the core store point. -/
def State.engineStore (s : State) (g : Group) (pathF : Bool) (pas : List Nat) (heap : Bool) (bs : List Byte) : State :=
  let ws := pas.zip bs
  let c := clusterOf g.core
  let die := dieOfCore g.core
  let s' := if heap then s else s.colourUp die 1
  let e : BufEnt :=
    { seq := s.seq, gid := g.gid, pathF := pathF, core := g.core, enc := g.enc, bytes := ws, stb := false
      col := if heap then none else some (s.die die).colour }
  let s' : State := { s' with seq := s'.seq + 1 }
  (s'.setBuf c (s'.buf c ++ [e])).modCore g.core (·.nearStore ws)

/-- Writes an element. -/
def CopyRun.write (r : CopyRun) (g : Group) (c : Copy) (far : Bool) (a : Int) (bs : List Byte) : CopyRun :=
  if r.over then r
  else if far then
    match r.s.engineCheck g c a bs.length .store with
    | .miss v => { r with miss := some (v, .store) }
    | .bad c => { r with err := some (c, BitVec.ofInt 64 a) }
    | .ok pas heap =>
      let r := { r with s := r.s.usePage g a heap .store }.request .dst a
      { r with s := (r.s.event g 0x0208 0x1F bs.length).engineStore g c.pathF pas heap bs }
  else
    let off := wrapInt 20 a
    { r with s := (r.s.event g 0x0208 0x1F bs.length).ownWrite g off bs, wrote := addrs off bs.length ++ r.wrote }

/-- The scale of a row of the source's or the destination's array, where the record names one: read once, before the row's first
element is converted (16 R318). -/
def CopyRun.scaleOf (r : CopyRun) (g : Group) (c : Copy) (dst : Bool) (x : Rec) (row : Nat) : CopyRun × Option Nat :=
  if x.scale = 0 then (r, none)
  else if r.over then (r, some 0)
  else match r.scales.find? fun e => e.1 = (dst, row) with
    | some e => (r, some e.2)
    | none =>
      let y := r.read g c (if dst then .dstScale else .srcScale) x.far (x.scaleAt row) 4
      ({ y.1 with scales := ((dst, row), y.2) :: y.1.scales }, some y.2)

/-- Reads an element unless the command has failed. -/
def CopyRun.elem (r : CopyRun) (g : Group) (c : Copy) (x : Rec) (i : List Nat) : CopyRun × Nat :=
  if r.over then (r, 0) else r.read g c .src x.far (x.at i) x.e

/-- The source tuple of a destination tuple: itself, or through the index record of a gather (15 R308). -/
def CopyRun.source (r : CopyRun) (g : Group) (c : Copy) (src : Rec) (idx : Option Rec) (i : List Nat) : CopyRun × List Nat :=
  match idx with
  | none => (r, i)
  | some x =>
    let y := r.elem g c x [i.getD 1 0]
    let j := toInt (x.etype = 0) 32 y.2
    if !y.1.over ∧ (j < 0 ∨ (src.extent 1 : Int) ≤ j) then
      ({ y.1 with err := some (.engineFormat, BitVec.ofInt 64 (x.at [i.getD 1 0])) }, i)
    else (y.1, i.set 1 j.toNat)

/-- One point of a command. -/
def CopyRun.point (r : CopyRun) (g : Group) (c : Copy) (dst : Rec) (p : Nat) : CopyRun :=
  if r.over then r
  else
    let i := dst.tuple p
    match c.fill with
    | some v => r.write g c dst.far (dst.at i) (leBytes dst.e v.toNat)
    | none =>
      let src := recOf 0 c.src
      let a := r.source g c src (if c.idx.isEmpty then none else some (recOf 0 c.idx)) i
      let b := a.1.elem g c src a.2
      let x := b.1.scaleOf g c false src (src.row a.2)
      let y := x.1.scaleOf g c true dst (dst.row i)
      let v := convElem src.etype dst.etype dst.sat x.2 y.2 b.2
      let z := y.1.write g c dst.far (dst.at i) (leBytes dst.e v.bits)
      if z.over then z else { z with fl := z.fl ||| v.fl }

/-- The positions of a CANON record's panels outside its extents (14 R286). -/
def Rec.padding (r : Rec) : List (List Nat) :=
  if r.layout = 2 then
    (List.range (ceilDiv (r.extent 0) r.p * r.p)).flatMap fun k =>
      ((List.range 96).filter fun m => r.extent 0 ≤ k || r.extent 1 ≤ m).map fun m => [k, m]
  else []

/-- The words of local bytes that a position of the destination touches. -/
def Rec.wordOf (r : Rec) (i : List Nat) : List Nat := (addrs (wrapInt 20 (r.at i)) r.e).map (· / 4)

/-- F/E bits of the words whose last byte the command has written (15 R306); `left` lists the positions it did not reach. -/
def CopyRun.fill (r : CopyRun) (g : Group) (dst : Rec) (left : List (List Nat)) : State :=
  let still := left.flatMap dst.wordOf
  let ws := (uniq (r.wrote.map (· / 4))).filter fun w => !still.contains w
  r.s.setFe g.core (ws.filterMap fun w => r.s.poolOff g (4 * w)) true

/-- The points of a command in order; a failing element, or one whose page waits for a walk, is the last. The number counts the
points before it. -/
def CopyRun.points (g : Group) (c : Copy) (dst : Rec) : Nat → Nat → CopyRun → CopyRun × Nat
  | 0, p, r => (r, p)
  | n + 1, p, r =>
    let r' := r.point g c dst p
    if r'.over then (r', p) else CopyRun.points g c dst n (p + 1) r'

/-- The bytes of a padding element: +0 of the destination's type, which for pw8 is the canonical encoding of zero; cp.fill pads with
zero bytes (03 R67; 14 R286; 15 R309). -/
def Copy.pad (c : Copy) : List Byte :=
  let dst := recOf 0 c.dst
  if c.fill.isNone && dst.etype = 8 then [BitVec.ofNat 8 ((pwCanon 0).getD 0)] else List.replicate dst.e 0

/-- A whole command: every point, then the padding of a CANON destination (14 R286, R288). The spec does not order the padding
among the elements; a failing command leaves it unwritten (log 47). -/
def State.runCopy (s : State) (g : Group) (c : Copy) : CopyRun × Nat :=
  let dst := recOf 0 c.dst
  let x := CopyRun.points g c dst dst.points 0 { s := s }
  if x.1.over then x
  else (dst.padding.foldl (fun (r : CopyRun) i => r.write g c false (dst.at i) c.pad) x.1, x.2)

/-- The command leaves the engine in one indivisible step (14 R289; 15 R306). -/
def State.finishCopy (s : State) (core k : Nat) (c : Copy) (set : Bool) (fl : Flags) : State :=
  let bit : Word := BitVec.ofNat 64 (2 ^ c.tag)
  let s := match s.group c.gid with
    | some g => s.forgetWalks g c.id
    | none => s
  let s := s.modCore core fun x => { x with
    copies := x.copies.eraseIdx k, locks := x.locks.filter fun r => r.op ≠ c.id
    tagBusy := x.tagBusy &&& ~~~bit, tagSet := if set then x.tagSet ||| bit else x.tagSet }
  let s := s.modGroup c.gid fun g => (g.modPath c.pathF fun p => { p with cp := p.cp - 1 }).orFpf fl
  s.opOver c.gid core

/-- A command that may run: its requests have left the port and no earlier operation holds it back. -/
def State.copyReady (s : State) (core k : Nat) : Option (Group × Copy) :=
  (s.core core).copies[k]?.bind fun c =>
    if c.port ≠ some 0 ∨ (s.core core).heldBack c.id then none else (s.group c.gid).map fun g => (g, c)

/-- COPY_COMPLETE (15 R306): every element is written, and the tag is SET. A command with a failing element takes
COPY_ELEMENT_FAULT instead. -/
def execCopyComplete (core k : Nat) (s : State) : Out :=
  match s.copyReady core k with
  | none => .next s
  | some (g, c) =>
    let r := (s.runCopy g c).1
    if r.err.isSome then .next s
    else match r.miss with
    | some m => .next (s.walkFor g c.id m.1 m.2)
    | none =>
    match r.held with
    | some pa => .next (s.svtAsk (s.partOf g) (dieOfCore g.core) pa (.core g.core))
    | none =>
      let t := if c.flag then r.fill g (recOf 0 c.dst) [] else r.s
      let t := t.finishCopy core k c true r.fl
      .next (if r.bad then t.partitionReset (t.partOf g) else t)

/-- COPY_ELEMENT_FAULT (14 R289): what was written before the failing element stays, and the task ends. -/
def execCopyElementFault (core k : Nat) (s : State) : Out :=
  match s.copyReady core k with
  | none => .next s
  | some (g, c) =>
    let x := s.runCopy g c
    match x.1.err with
    | none => .next s
    | some (code, fra) =>
      match x.1.held with
      | some pa => .next (s.svtAsk (s.partOf g) (dieOfCore g.core) pa (.core g.core))
      | none =>
        let dst := recOf 0 c.dst
        let left := ((List.range (dst.points - x.2)).map fun p => dst.tuple (x.2 + p)) ++ dst.padding
        let t := if c.flag then x.1.fill g dst left else x.1.s
        let t := t.reportOf g (t.groupReport g c.pathF code fra c.pc c.cwi)
        let t := t.finishCopy core k c false Flags.none
        .next (if x.1.bad then t.partitionReset (t.partOf g) else t)

end Sys2Proof.Machine
end

