-- ==== Sys2Proof/Machine/Matrix.lean ====
section
/-! DEFINITION. The matrix arrays (14 R293 to R301; 15 R310 to R316): binding B, tile operations as they issue, and their
start and retirement in the tile queues. -/

namespace Sys2Proof.Machine

/-! ### Staging (14 R294; 15 R310, R311; 18 R349) -/

/-- Cores of the focused group's team. -/
def State.teamCores (s : State) : List Nat := ((s.team s.g.team).map Team.cores).getD [s.g.core]

/-- Whether a team is halted or evicted. -/
def State.teamStopped (s : State) (team : Nat) : Bool :=
  match s.team team with
  | some t => t.stat = .evicted || t.gids.any fun i => ((s.group i).map fun (g : Group) => decide (g.stat = .halted)).getD false
  | none => false

/-- A team's accumulator rows on a core: row and row-map index. -/
def State.accRowsOn (s : State) (core team : Nat) : List (Nat × RowTag) :=
  let first := (((s.team team).bind fun t => s.task t.task).map fun x => x.regRows + x.scrRows).getD 0
  (s.core core).rows.filter fun r => r.2.team = team && first ≤ r.2.ix

/-- Claims a team's accumulator rows on a core, the highest row-map index first. -/
def State.claimAcc (core team : Nat) : Nat → State → State
  | 0, s => s
  | n + 1, s =>
    match (s.accRowsOn core team).filter fun r => r.2.stat = .claimable with
    | [] => s
    | r :: rs =>
      match s.claimRow core (rs.foldl (fun a b => if a.2.ix < b.2.ix then b else a) r).1 with
      | some s' => State.claimAcc core team n s'
      | none => s

/-- Makes quarters of a core free of other teams that are halted or evicted: their accumulator rows are claimed, and the
staging is sealed with them. None where a row cannot be claimed yet. -/
def State.vacate (s : State) (core team : Nat) (qs : List Nat) : Option State :=
  let others := uniq (((s.core core).staging.filter fun q => qs.contains q.1 && q.2.team ≠ team).map fun q => q.2.team)
  (others.filter s.teamStopped).foldl (fun (r : Option State) t =>
    r.bind fun s =>
      let s := State.claimAcc core t 256 s
      if (s.accRowsOn core t).isEmpty then some s else none) (some s)

/-- A team's staging image is restored on the cores that a word uses; one that fails ends the enclave. -/
def withStaging (cores : List Nat) (k : State → Out) (s : State) : Out :=
  let g := s.g
  let lost := ((s.team g.team).map Team.stagingLost).getD []
  let cs := cores.filter lost.contains
  match cs.foldl (fun (r : Option State) c => r.bind fun s => s.vacate c g.team (List.range 4)) (some s) with
  | none => .next (s.hold leafArray)
  | some s =>
    let s := cs.foldl (fun s c => s.restoreStaging g.enc g.team c) s
    if s.g.gid = g.gid then k s else .next s

/-- Whether the tile queue of a core holds an operation that reads the staging. -/
def Core.readsStaging (c : Core) : Bool :=
  c.tileq.any fun e => match e.kind with | .one | .pair => true | _ => false

/-- K of a bind: 16 or 8 for each block of four registers. -/
def bindK (t blocks : Nat) : Nat := (if t = 7 then 8 else 16) * blocks

/-- mm.bind: one quarter is copied into the staging of the team's cores (15 R310). -/
def execMmBind (q : BitVec 2) (a : Reg) (k t : BitVec 4) (s : State) : Out :=
  let g := s.g
  let blocks := k.toNat + 1
  if g.pair ∧ q.toNat / 2 ≠ g.core % 2 then .next (s.takeFault .engineFormat (BitVec.ofNat 64 q.toNat))
  else withStaging s.teamCores (fun s =>
    let cs := s.teamCores
    if cs.any fun c => (s.core c).readsStaging then .next (s.hold leafArray)
    else match cs.foldl (fun (r : Option State) c => r.bind fun s => s.vacate c g.team [q.toNat]) (some s) with
      | none => .next (s.hold leafArray)
      | some s =>
        let e : Quarter :=
          { typ := t.toNat, k := bindK t.toNat blocks, team := g.team
            regs := (List.range (4 * blocks)).map fun i => s.g.vr (a + BitVec.ofNat 6 i) }
        let s := cs.foldl (fun (s : State) c => s.modCore c fun x => { x with staging := smPut x.staging q.toNat e }) s
        .next (s.retire (12 * blocks))) s

/-- Element (k, n) of a quarter. -/
def Quarter.at (q : Quarter) (k n : Nat) : Nat :=
  if q.typ = 7 then elem64 (q.regs.getD (4 * (k / 8) + k % 8 / 2) []) (n + 24 * (k % 2))
  else
    let x := lane (q.regs.getD (4 * (k / 16) + k % 16 / 4) []) (n + 48 * (k / 2 % 2))
    subElem x (if q.typ ≤ 1 then 16 else 8) (k % 2)

/-! ### Issue (14 R295, R296; 15 R312 to R316) -/

/-- A tile operation enters the queues of some cores under one number, and TL rises. -/
def State.enqueue (s : State) (cores : List Nat) (op : TileOp) : State :=
  let g := s.g
  let op := { op with
    seq := s.seq, gid := g.gid, team := g.team, pathF := g.curF, mask := g.p.mask, pc := g.p.pc.toNat, cwi := g.p.cwi + 1 }
  let s : State := { s with seq := s.seq + 1 }
  let s := cores.foldl (fun (s : State) c => s.modCore c fun x => { x with
    tileq := x.tileq ++ [{ op with share := decide (c ≠ g.core) }] }) s
  s.modG fun g => g.modP fun p => { p with tl := p.tl + 1 }

/-- A tile operation without what its issue adds. -/
def blankTile (kind : TileKind) (n : Nat) : TileOp :=
  { seq := 0, gid := 0, team := 0, pathF := false, kind := kind, n := n, typ := 0, k := 0, aAddr := 0, dst := .zero, mask := 0
    pc := 0, cwi := 0, running := false, share := false, lock := 0 }

/-- Whether an operation must wait for room: a full queue, or TL at its maximum. -/
def State.tileHold (s : State) (cores : List Nat) : Option Nat :=
  if cores.any fun c => 8 ≤ (s.core c).tileq.length then some leafArray
  else if 63 ≤ s.g.p.tl then some leafTl else none

/-- A later tile operation on a core whose array is retired ends its task with MATRIX_CHECK (17 Table 17.4). -/
def withArray (cores : List Nat) (fra : Word) (k : State → Out) (s : State) : Out :=
  if cores.any fun c => s.retired.contains (3, c) then .next (s.stopWith (s.report .matrixCheck fra (s.g.p.cwi + 1) false false))
  else k s

/-- Tile N exists (14 R293). -/
def Group.hasTile (g : Group) (n : Nat) : Bool := 9 * (n + 1) ≤ g.accRows

/-- A tile operation without products: its tile must exist, and its row where it names one. `noTile` and `noRow` are the FRA that its
rule names for each of them, if it names one (14 R293; 17 R437). -/
def tileWord (cores : List Nat) (n : Nat) (noTile : Option Word) (row : Option Word) (noRow : Option Word) (op : Group → TileOp)
    (s : State) : Out :=
  if !s.g.hasTile n then .next (s.takeFault .engineFormat (noTile.getD s.wordAddr))
  else match row.filter fun m => 96 ≤ m.toNat with
    | some _ => .next (s.takeFault .engineFormat (noRow.getD s.wordAddr))
    | none => withArray cores s.wordAddr (withStaging cores fun s =>
        match s.tileHold cores with
        | some l => .next (s.hold l)
        | none => .next ((s.enqueue cores (op s.g)).retire 1)) s

/-- mm.zero enters the queue of every core of its team (15 R312). -/
def execMmZero (n : BitVec 4) (s : State) : Out := 
  tileWord s.teamCores n.toNat (some (BitVec.ofNat 64 n.toNat)) none none (fun _ => blankTile .zero n.toNat) s
/-- mm.rd (15 R314). -/
def execMmRd (d : Reg) (n : BitVec 4) (b : Reg) (s : State) : Out :=
  let m := s.g.sr b
  tileWord [s.g.core] n.toNat none (some m) (some m) (fun g => { blankTile (.rd m.toNat none) n.toNat with dst := g.vloc d }) s
/-- mm.rd.scale (15 R314). -/
def execMmRdScale (d : Reg) (n : BitVec 4) (b v : Reg) (s : State) : Out :=
  let m := s.g.sr b
  tileWord [s.g.core] n.toNat none (some m) (some m)
    (fun g => { blankTile (.rd m.toNat (some (g.vr v))) n.toNat with dst := g.vloc d }) s
/-- mm.wr (15 R315). -/
def execMmWr (n : BitVec 4) (a b : Reg) (s : State) : Out :=
  let m := s.g.sr b
  tileWord [s.g.core] n.toNat none (some m) none (fun g => blankTile (.wr m.toNat (g.vr a)) n.toNat) s
/-- mm.chk (15 R316). -/
def execMmChk (d : Reg) (n : BitVec 4) (s : State) : Out :=
  tileWord [s.g.core] n.toNat none none none (fun g => { blankTile .chk n.toNat with dst := g.loc d }) s

/-- Bytes of an element of A by matrix type. -/
def matABytes (t : Nat) : Nat := match t with | 0 | 1 | 5 => 2 | 7 => 8 | _ => 1
/-- Columns of A in a panel. -/
def matP (t : Nat) : Nat := if t = 7 then 8 else 16
/-- Bytes of the panels that A covers. -/
def matASize (t k : Nat) : Nat := ceilDiv k (matP t) * 96 * matP t * matABytes t

/-- The first quarter that a product needs and that is not bound as it asks. -/
def State.quarterBad (s : State) (cores qs : List Nat) (team t k : Nat) : Option Nat :=
  cores.findSome? fun c => qs.find? fun q =>
    match smFind (s.core c).staging q with
    | some x => !(x.team = team && x.typ = t && x.k = k)
    | none => true

/-- A product: the checks of 15 R313 in order, then its queue entries and the range lock of A. -/
def productWord (kind : TileKind) (cores qs : List Nat) (n : BitVec 4) (a b : Reg) (t : BitVec 4) (s : State) : Out :=
  let g := s.g
  let addr := g.sr a
  let k := (g.sr b).toNat
  let bad (x : Word) : Out := .next (s.takeFault .engineFormat x)
  if k = 0 ∨ k % matP t.toNat ≠ 0 ∨ 16 * matP t.toNat < k then bad (g.sr b)
  else if !g.hasTile n.toNat then bad (BitVec.ofNat 64 n.toNat)
  else withArray cores addr (withStaging cores fun s =>
    let rng : Int × Int := ((addr.toNat : Int), ((addr.toNat + matASize t.toNat k : Nat) : Int))
    match s.quarterBad cores qs g.team t.toNat k with
    | some q => .next (s.takeFault .engineFormat (BitVec.ofNat 64 q))
    | none =>
      if addr.toNat % 128 ≠ 0 ∨ (g.outside rng).isSome then .next (s.takeFault .engineFormat addr)
      else match s.tileHold cores with
        | some l => .next (s.hold l)
        | none =>
          let c := s.core g.core
          if 32 ≤ c.locks.length then .next (s.hold leafLock)
          else
            let id := c.opNext
            let lock := s.lockOf g id false false rng
            let s := (s.clearWay g.core [lock]).modCore g.core fun x => { x with opNext := id + 1, locks := x.locks ++ [lock] }
            .next ((s.enqueue cores { blankTile kind n.toNat with typ := t.toNat, k := k, aAddr := addr.toNat, lock := id }).retire 1)) s

/-- mm.pair: PRIVILEGE unless a group of the even core of a pair team issues it (14 R295). -/
def execMmPair (n : BitVec 4) (a b : Reg) (t : BitVec 4) (s : State) : Out :=
  let c := s.g.core
  if !s.g.pair ∨ c % 2 ≠ 0 then .next (s.takeFault .privilege (s.g.sr a))
  else productWord .pair [c, c + 1] [0, 1, 2, 3] n a b t s
/-- mm.one (14 R295). -/
def execMmOne (n : BitVec 4) (a b : Reg) (t : BitVec 4) (s : State) : Out :=
  productWord .one [s.g.core] [0, 1] n a b t s

/-! ### Tiles (14 R293) -/

/-- A tile of a team on a core. -/
structure Tile where
  core : Nat
  team : Nat
  regs : Nat
  scr : Nat
  n : Nat
  deriving DecidableEq, Repr

/-- The tile that an operation of a group names on a core. -/
def TileOp.tile (e : TileOp) (g : Group) (core : Nat) : Tile := ⟨core, e.team, g.regRows, g.scrRows, e.n⟩

/-- An entry of `w` bytes at a byte of a tile. -/
def State.tileEntry (s : State) (t : Tile) (b w : Nat) : Nat :=
  leNat ((addrs b w).map fun o => ((s.tileOff t.team t.core t.regs t.scr t.n o).map (memByte (s.core t.core).pool)).getD 0)

/-- Writes entries of `w` bytes: byte of the tile and value. -/
def State.tilePut (s : State) (t : Tile) (w : Nat) (es : List (Nat × Nat)) : State :=
  let ws := es.flatMap fun e => ((addrs e.1 w).zip (leBytes w e.2)).filterMap fun b =>
    (s.tileOff t.team t.core t.regs t.scr t.n b.1).map fun o => (o, b.2)
  s.modCore t.core fun c => { c with pool := memPutAll c.pool ws }

/-- A tile's status. -/
def State.tileStat (s : State) (t : Tile) : TileStat := smGet {} (s.core t.core).tstat (t.team * 16 + t.n)
/-- Writes a tile's status. -/
def State.setTileStat (s : State) (t : Tile) (x : TileStat) : State :=
  s.modCore t.core fun c => { c with tstat := smSet {} c.tstat (t.team * 16 + t.n) x }

/-! ### Products (03 R79 to R81) -/

/-- Element (m, k) of A in the issuing group's allocation. -/
def State.matA (s : State) (g : Group) (t a m k : Nat) : Nat :=
  let e := matABytes t
  let off := a % 2 ^ 20 + e * (matP t * (96 * (k / matP t) + m) + k % matP t)
  leNat ((addrs off e).map fun o => ((s.poolOff g o).map (memByte (s.core g.core).pool)).getD 0)

/-- The product of an element of A and one of B. -/
def matTerm (t x y : Nat) : Term :=
  match t with
  | 0 => prodTerm .bf16 x y
  | 1 => prodTerm .f16 x y
  | 2 => prodTerm .e4m3 x y
  | 3 => prodTerm .e5m2 x y
  | 5 => pwProdTerm .bf16 x y
  | 6 => pwProdTerm .e4m3 x y
  | _ => prodTerm .f64 x y

/-- One entry of D from its old value, a row of A and a column of B. -/
def matDot (t old : Nat) (xs ys : List Nat) : FRes :=
  if t = 4 then
    let sum := (xs.zip ys).foldl (fun (r : Int) p => r + toInt true 8 p.1 * toInt true 8 p.2) (toInt true 32 old)
    ⟨wrapInt 32 sum, Flags.none⟩
  else dotProduct (if t = 7 then .f64 else .f32) old ((xs.zip ys).map fun p => matTerm t p.1 p.2)

/-- The working copy of a product on one core: the columns of B it took, the old entries of its tile and the new ones, row by
row. -/
structure WorkCopy where
  core : Nat
  cols : List (List Nat)
  old : List (List Nat)
  new : List (List FRes)
  deriving DecidableEq, Repr

/-- Bytes of an entry of D. -/
def matW (t : Nat) : Nat := if t = 7 then 8 else 4

/-- The rows of A that a product reads. -/
def State.matRows (s : State) (g : Group) (e : TileOp) : List (List Nat) :=
  (List.range 96).map fun m => (List.range e.k).map fun k => s.matA g e.typ e.aAddr m k

/-- The product on one core of the rows of A and its two quarters. `faults` lists entries that the array got wrong, by core and
byte of the tile, with the bits it formed instead. -/
def State.workCopy (s : State) (g : Group) (e : TileOp) (core : Nat) (rows : List (List Nat)) (faults : List (Nat × Nat × Nat)) :
    WorkCopy :=
  let t := e.tile g core
  let w := matW e.typ
  let cols := if e.typ = 7 then 24 else 48
  let q0 := if core = g.core then 0 else 2
  let bs := (List.range (2 * cols)).map fun n =>
    match smFind (s.core core).staging (q0 + n / cols) with
    | some q => (List.range e.k).map fun k => q.at k (n % cols)
    | none => []
  let old := (List.range 96).map fun m => (List.range (2 * cols)).map fun n => s.tileEntry t (384 * m + w * n) w
  let one (m n x : Nat) (xs ys : List Nat) : FRes :=
    let r := matDot e.typ x xs ys
    match faults.find? fun f => f.1 = core && f.2.1 = 384 * m + w * n with
    | some f => { r with bits := f.2.2 % 2 ^ (8 * w) }
    | none => r
  { core := core, cols := bs, old := old
    new := ((rows.zip old).zipIdx).map fun r => ((r.1.2.zip bs).zipIdx).map fun c => one r.2 c.2 c.1.1 r.1.1 c.1.2 }

/-- A working copy commits: the tile and its status (14 R299, R300). -/
def State.commitProduct (s : State) (g : Group) (e : TileOp) (c : WorkCopy) : State :=
  let t := e.tile g c.core
  let w := matW e.typ
  let es := c.new.zipIdx.flatMap fun r => r.1.zipIdx.map fun x => (384 * r.2 + w * x.2, x.1.bits)
  let fl := c.new.flatten.foldl (fun f x => f ||| x.fl) Flags.none
  let st := s.tileStat t
  (s.tilePut t w es).setTileStat t { st with used := true, flags := st.flags ||| fl, typ := e.typ }

/-! ### Checksums (14 R298) -/

/-- A number with the sum of the magnitudes it was added up from; none where a NaN or an infinity is among them. -/
abbrev Summed := Option (Dy × Dy)

/-- The sum of some numbers. -/
def sumUp (xs : List Summed) : Summed :=
  xs.foldl (fun r x => r.bind fun a => x.map fun b => (a.1.add b.1, a.2.add b.2)) (some (⟨0, 0⟩, ⟨0, 0⟩))
/-- The product of two sums. -/
def Summed.mul (x y : Summed) : Summed := x.bind fun a => y.map fun b => (a.1.mul b.1, a.2.mul b.2)
/-- A number alone. -/
def summed (x : Dy) : Summed := some (x, ⟨x.m.natAbs, x.e⟩)

/-- A floating-point encoding. -/
def fpSummed (t : FTy) (x : Nat) : Summed :=
  match fpDec t x with
  | .fin s m e => summed (dyOf s m e)
  | _ => none
/-- The floating-point type of A's elements. -/
def matATy (t : Nat) : FTy :=
  match t with | 0 | 5 => .bf16 | 1 => .f16 | 2 | 6 => .e4m3 | 3 => .e5m2 | _ => .f64
/-- An element of A. -/
def summedA (t x : Nat) : Summed := if t = 4 then summed ⟨toInt true 8 x, 0⟩ else fpSummed (matATy t) x
/-- An element of B. -/
def summedB (t x : Nat) : Summed :=
  if t = 4 then summed ⟨toInt true 8 x, 0⟩ else if t = 5 ∨ t = 6 then summed (pwValue x) else fpSummed (matATy t) x
/-- An entry of D. -/
def summedD (t x : Nat) : Summed :=
  if t = 4 then summed ⟨toInt true 32 x, 0⟩ else fpSummed (if t = 7 then .f64 else .f32) x

/-- Whether a line mismatches: the observed sum of its new entries against the sum of its old ones and the products `ab`; a line
with a NaN or an infinity is not compared. -/
def lineFails (t : Nat) (old new ab : Summed) : Bool :=
  match old, new, ab with
  | some o, some n, some p =>
    let d := n.1.add ((o.1.add p.1).mul ⟨-1, 0⟩)
    if t = 4 then d.m * 2 ^ d.e.toNat % 2 ^ 32 ≠ 0
    else decide (0 < ((Dy.mk d.m.natAbs (d.e + 10)).add (((n.2.add o.2).add p.2).mul ⟨-1, 0⟩)).m)
  | _, _, _ => false

/-- The check of a product's working copies: every column against the column sums of A multiplied by B, and every row of D
against A multiplied by the row sums of B. -/
def checkFails (t k : Nat) (rows : List (List Nat)) (cs : List WorkCopy) : Bool :=
  let dotSum (xs ys : List Summed) : Summed := sumUp ((xs.zip ys).map fun p => Summed.mul p.1 p.2)
  let sumA := (List.range k).map fun i => sumUp (rows.map fun r => summedA t (r.getD i 0))
  let sumB := (List.range k).map fun i => sumUp (cs.flatMap fun c => c.cols.map fun b => summedB t (b.getD i 0))
  let colFails (c : WorkCopy) (n : Nat) (b : List Nat) : Bool :=
    lineFails t (sumUp (c.old.map fun r => summedD t (r.getD n 0))) (sumUp (c.new.map fun r => summedD t ((r.map FRes.bits).getD n 0)))
      (dotSum sumA (b.map (summedB t)))
  let rowFails (m : Nat) (a : List Nat) : Bool :=
    lineFails t (sumUp (cs.flatMap fun c => (c.old.getD m []).map (summedD t)))
      (sumUp (cs.flatMap fun c => (c.new.getD m []).map fun r => summedD t r.bits)) (dotSum (a.map (summedA t)) sumB)
  (cs.any fun c => c.cols.zipIdx.any fun b => colFails c b.2 b.1) || rows.zipIdx.any fun r => rowFails r.2 r.1

/-! ### Start and retirement (14 R296 to R299) -/

/-- Changes the head of a core's queue. -/
def Core.setHead (c : Core) (f : TileOp → TileOp) : Core :=
  match c.tileq with
  | e :: r => { c with tileq := f e :: r }
  | [] => c

/-- TILE_OP_START: the head of a queue starts, a pair product where it is the head of both queues; no product starts while
an earlier operation of the range-lock table holds it back (11 R250), nor on an array that throttling delays (27 R435). -/
def execTileOpStart (core : Nat) (s : State) : Out :=
  match s.tileHead core with
  | none => .next s
  | some (g, e, cs) =>
    if e.running ∨ (s.core g.core).heldBack e.lock ∨ cs.any s.admitsNone then .next s
    else .next (cs.foldl (fun (s : State) c => s.modCore c fun x =>
      { x.setHead fun e => { e with running := true } with admitted := some x.cyc }) s)

/-- An operation leaves its queues; TL falls when none of its entries is left, and a product's lock is released. -/
def State.leaveQueue (s : State) (g : Group) (e : TileOp) (cs : List Nat) : State :=
  let s := cs.foldl (fun (s : State) c => s.modCore c fun x => { x with tileq := x.tileq.drop 1 }) s
  let s := if e.lock = 0 then s else s.modCore g.core fun x => { x with locks := x.locks.filter fun r => r.op ≠ e.lock }
  let s := cs.foldl (fun (s : State) c => s.opOver e.gid c) s
  let cores := ((s.team e.team).map Team.cores).getD [g.core]
  if cores.any fun c => (s.core c).tileq.any fun x => x.seq = e.seq then s
  else
    let s := s.modGroup e.gid fun g => g.modPath e.pathF fun p => { p with tl := p.tl - 1 }
    s.opOver e.gid g.core

/-- A row read from a tile: its lanes under the mask of its issue, and the flags of a scaled read (15 R314). -/
def State.tileRow (s : State) (e : TileOp) (t : Tile) (row : Nat) (scale : Option VReg) (old : VReg) : VReg × Flags :=
  if (s.tileStat t).typ = 7 then
    let r (j : Nat) : FRes :=
      let x := s.tileEntry t (384 * row + 8 * j) 8
      match scale with
      | some v => let p := (fpVal .f64 x).mul (fpVal .f64 (elem64 v j)); let y := p.1.toFp .f64 false; ⟨y.bits, p.2 ||| y.fl⟩
      | none => ⟨x, Flags.none⟩
    (merge64 e.mask old fun j => (r j).bits,
     ((List.range 48).filter fun j => bitAt e.mask.toNat (2 * j)).foldl (fun f j => f ||| (r j).fl) Flags.none)
  else
    let int := (s.tileStat t).typ = 4
    let r (i : Nat) : FRes :=
      let x := s.tileEntry t (384 * row + 4 * i) 4
      match scale with
      | some v =>
        let p := (elemVal (if int then 0 else 2) x).mul (fpVal .f32 (lane v i).toNat)
        let y := p.1.toFp .f32 false
        ⟨y.bits, p.2 ||| y.fl⟩
      | none => ⟨x, Flags.none⟩
    (mergeLanes e.mask old fun i => BitVec.ofNat 32 (r i).bits,
     ((List.range 96).filter fun i => bitAt e.mask.toNat i).foldl (fun f i => f ||| (r i).fl) Flags.none)

/-- The entries that mm.wr writes (15 R315). -/
def wrEntries (f64 : Bool) (mask : Mask) (row : Nat) (v : VReg) : List (Nat × Nat) :=
  if f64 then
    ((List.range 48).filter fun j => bitAt mask.toNat (2 * j)).map fun j => (384 * row + 8 * j, elem64 v j)
  else ((List.range 96).filter fun i => bitAt mask.toNat i).map fun i => (384 * row + 4 * i, (lane v i).toNat)

/-- A rerun counts on the tile of each core that took part, and as a correctable error of its array. -/
def State.rerun (s : State) (g : Group) (e : TileOp) (cs : List Nat) (errors : Nat) : State :=
  let s := s.event g 0x0209 0x1F 1
  cs.foldl (fun (s : State) c =>
    let t := e.tile g c
    let st := s.tileStat t
    (List.range errors).foldl (fun s _ => s.correctable .array c) (s.setTileStat t { st with reruns := min (st.reruns + 1) 255 })) s

/-- A product at the end of its check phase: its copy commits where the check passes; on a first mismatch it is formed once more
from the old tile, and on a second one the tile stays and the task ends (14 R299). `faults` lists, for each of the two computes,
the entries that the array got wrong; an array without a fault never mismatches. -/
def State.retireProduct (s : State) (g : Group) (e : TileOp) (cs : List Nat) (faults : List (List (Nat × Nat × Nat))) : State :=
  let rows := s.matRows g e
  let copies (f : List (Nat × Nat × Nat)) : List WorkCopy := cs.map fun c => s.workCopy g e c rows f
  let fails (f : List (Nat × Nat × Nat)) : Bool := !f.isEmpty && checkFails e.typ e.k rows (copies f)
  let commit (s : State) (f : List (Nat × Nat × Nat)) : State := (copies f).foldl (fun s c => s.commitProduct g e c) s
  let f0 := faults.getD 0 []
  let f1 := faults.getD 1 []
  if !fails f0 then commit s f0
  else if !fails f1 then commit (s.rerun g e cs 1) f1
  else (s.rerun g e cs 2).reportOf g (s.groupReport g e.pathF .matrixCheck (BitVec.ofNat 64 e.aAddr) e.pc e.cwi)

/-- TILE_OP_RETIRE: the running head of a queue takes effect and leaves. -/
def execTileOpRetire (core : Nat) (faults : List (List (Nat × Nat × Nat))) (s : State) : Out :=
  match s.tileHead core with
  | none => .next s
  | some (g, e, cs) =>
    if !e.running then .next s
    else
      let t := e.tile g core
      let s : State := match e.kind with
        | .zero => (s.tilePut t 8 ((List.range 4608).map fun i => (8 * i, 0))).setTileStat t {}
        | .rd row scale =>
          let r := s.tileRow e t row scale (g.vrd e.dst)
          s.modGroup e.gid fun g => (g.vwr e.dst r.1).orFpf r.2
        | .wr row v =>
          let f64 := (s.tileStat t).typ = 7
          s.tilePut t (if f64 then 8 else 4) (wrEntries f64 e.mask row v)
        | .chk => s.writeReturn e.gid e.dst (BitVec.ofNat 64 (s.tileStat t).word)
        | .one | .pair => s.retireProduct g e cs faults
      .next (s.leaveQueue g e cs)

end Sys2Proof.Machine
end

