-- ==== Sys2Proof/Machine/Port.lean ====
section
/-! DEFINITION. Requests leaving the core port (19 R356, R360; 24 R400; 15 R307): tokens, the order within an interface, and the
limit on requests in flight. -/

namespace Sys2Proof.Machine

/-- The group of a request that still has chunks at the port, and its place in the order of arrival. A command of the copy engine
sends nothing while an earlier operation holds it back, and nothing before its requests are counted. -/
def State.portReq (s : State) (r : PortReq) : Option (Group × Nat) :=
  match r with
  | .store gid => (s.group gid).bind fun g => (g.fifo.find? fun e => e.port ≠ 0).map fun e => (g, e.seq)
  | .load gid k => (s.group gid).bind fun g => g.reqs[k]?.bind fun e => if e.port ≠ 0 then some (g, e.seq) else none
  | .copy core k => (s.core core).copies[k]?.bind fun c =>
      if ((c.port.map fun n => decide (n = 0)).getD true) || (s.core core).heldBack c.id then none
      else (s.group c.gid).map fun g => (g, c.seq)

/-- One chunk of a request leaves. -/
def State.portDone (s : State) (r : PortReq) : State :=
  match r with
  | .store gid => s.modGroup gid fun g =>
      match g.fifo.findIdx? fun e => e.port ≠ 0 with
      | some i => { g with fifo := g.fifo.modify i fun e => { e with port := e.port - 1, sent := e.sent + 1 } }
      | none => g
  | .load gid k => s.modGroup gid fun g =>
      { g with reqs := g.reqs.modify k fun e => { e with port := e.port - 1, sent := e.sent + 1 } }
  | .copy core k => s.modCore core fun c =>
      { c with copies := c.copies.modify k fun e => { e with port := e.port.map (· - 1), sent := e.sent + 1 } }

/-- A command of the copy engine that nothing holds back any more: the far requests of the elements that it reads and writes are
counted, once every page that they touch is translated (10 R215). -/
def State.countCopy (s : State) (core k : Nat) : Option State :=
  (s.core core).copies[k]?.bind fun c => (s.group c.gid).bind fun g =>
    if c.port.isSome || (s.core core).heldBack c.id then none
    else
      let r := (s.runCopy g c).1
      match r.miss with
      | some m => some (s.walkFor g c.id m.1 m.2)
      | none => some (s.modCore core fun x => { x with copies := x.copies.modify k fun e => { e with port := some r.reqs } })

/-- PORT_REQUEST_DEPART: the oldest waiting request of an interface takes a token; without one, or with a refill due, it waits
(19 R359, R360). With 256 requests in flight one of them is answered first, or it waits for one (00 Table 0.1). The last waiting
request of a team that has left the core frees its interface's entry (24 R402). -/
def execPortRequestDepart (r : PortReq) (s : State) : Out :=
  match s.portReq r with
  | none => .next (match r with | .copy core k => (s.countCopy core k).getD s | _ => s)
  | some (g, seq) =>
    let vi := s.viOf g.enc
    if (s.portSeqs g.core vi).any (· < seq) ∨ (s.core g.core).refillDue then .next s
    else if !(s.core g.core).hasToken vi then .next (s.waitAt g seq)
    else if 256 ≤ s.inFlight g.core then .next ((s.answerOne g.core).getD s)
    else
      let s := (s.modCore g.core fun c => (c.takeToken vi).waitOver seq).portDone r
      .next (if g.stat = .halted then s.dropBuckets g.core else s)

end Sys2Proof.Machine
end

