-- ==== Sys2Proof/Machine/Sweep.lean ====
section
/-! DEFINITION. v.sweep (06 R160 to R163): its checks, its steps with and without a reduced dimension, and its runs. -/

namespace Sys2Proof.Machine

/-- The operation of a sweep. -/
inductive SweepOp where
  | add | mul | max | min | fma | cvt
  deriving DecidableEq, Repr

/-- A sweep with its records as read at this issue. -/
structure Sweep where
  op : SweepOp
  ty : VTy
  rm : Rm
  sat : Bool
  dst : Rec
  a : Rec
  b : Option Rec
  deriving DecidableEq, Repr

/-- The ETYPE of a TYPE that a sweep takes. -/
def sweepEtype (t : VTy) : Nat := match t with | .i32 => 0 | .n32 => 1 | _ => 2
/-- The lane type of an ETYPE that a sweep takes. -/
def etypeVTy (e : Nat) : VTy := if e = 0 then .i32 else if e = 1 then .n32 else .f32

/-- Dimension 0 of the destination is reduced. -/
def Sweep.red (w : Sweep) : Bool := w.dst.bc 0
/-- Whether D is an operand. -/
def Sweep.readsD (w : Sweep) : Bool := w.op ≠ .cvt && (w.red || w.op = .fma || w.b.isNone)
/-- The source records. -/
def Sweep.srcs (w : Sweep) : List Rec := w.a :: w.b.toList

/-- The record that breaks R160, or R287 for sweeps; `first` is set at the word's first issue, and `rmBad` is a rounding mode
other than RNE. Where ranks or extents differ the source is the offending record, and where several checks fail the first
in the order below decides: the spec orders neither (log 44). -/
def Sweep.bad (w : Sweep) (first rmBad : Bool) : Option Rec :=
  let d := w.dst
  let t := sweepEtype w.ty
  let recs := d :: w.srcs
  let each (l : List Rec) (p : Rec → Bool) : List (Bool × Rec) := l.map fun r => (p r, r)
  let checks : List (Bool × Rec) :=
    each recs (fun r => r.far || r.layout ≠ 0 || r.scale ≠ 0) ++
    (if first then
      each recs (fun r => 2 < r.etype) ++ each w.srcs (fun r => r.etype ≠ t) ++
      [(decide (w.op ≠ .cvt ∧ d.etype ≠ t), d), (decide (w.op = .cvt ∧ d.etype = w.a.etype), d)] ++
      each w.srcs (fun r => r.rank ≠ d.rank || r.ext ≠ d.ext) ++
      [(d.bcast / 2 ≠ 0 || (w.red && (w.op = .mul || w.op = .cvt || (w.op ≠ .fma && w.b.isSome))), d),
       (w.red && rmBad, d), (w.red && w.srcs.any fun r => r.addr = d.addr, d)]
     else []) ++
    [((List.range 4).any fun k => d.extent k ≤ d.idx.getD k 0, d)]
  (checks.find? (·.1)).map (·.2)

/-! ### Steps (06 R162) -/

/-- Whole groups of at most 16 points of one element, while their count stays at most 96; fuel is their number. Where saved
counters that software wrote stand inside a group of 16, the rest of it is one group: the spec does not form that group
(log 45). -/
def sweepGroups (e0 total : Nat) : Nat → Nat → Nat → List (List Nat)
  | 0, _, _ => []
  | n + 1, p, cnt =>
    if total ≤ p then []
    else
      let i := p % e0
      let k := min (16 - i % 16) (e0 - i)
      if 96 < cnt + k then [] else addrs p k :: sweepGroups e0 total n (p + k) (cnt + k)

/-- The groups of the step that starts at a point: one group of all its points where nothing is reduced. -/
def Sweep.step (w : Sweep) (p : Nat) : List (List Nat) :=
  let total := w.dst.points
  if w.red then sweepGroups (w.dst.extent 0) total 96 p 0 else [addrs p (min 96 (total - p))]

/-- The element accesses of a point: address, and whether it writes. 06 R163 does not say which of several elements that fail gives
the code: the model takes points ascending and, for a point, A, B, the read of D, then its write (log 61). -/
def Sweep.accesses (w : Sweep) (p : Nat) : List (Int × Bool) :=
  let i := w.dst.tuple p
  (w.srcs.map fun r => (r.at i, false)) ++ (if w.readsD then [(w.dst.at i, false)] else []) ++ [(w.dst.at i, true)]

/-! ### Elements (06 R161; 03 R74, R80) -/

/-- An integer operation, exact before it wraps or saturates. -/
def Sweep.int (w : Sweep) (x : Int) : FRes := intRes w.ty (if w.sat then 1#1 else 0#1) x
/-- The integer of an element. -/
def Sweep.toI (w : Sweep) (x : Nat) : Int := toInt w.ty.signed 32 x

/-- Two operands in order, then D as an addend. -/
def Sweep.apply (w : Sweep) (x y d : Nat) : FRes :=
  let f := w.ty = .f32
  match w.op with
  | .add => if f then fpAdd .f32 w.rm false false x y else w.int (w.toI x + w.toI y)
  | .mul => if f then fpMul .f32 w.rm false false x y else w.int (w.toI x * w.toI y)
  | .max => if f then fpMaxOp .f32 x y else w.int (max (w.toI x) (w.toI y))
  | .min => if f then fpMin .f32 x y else w.int (min (w.toI x) (w.toI y))
  | .fma => if f then fpFma .f32 w.rm false false x y d else w.int (w.toI x * w.toI y + w.toI d)
  | .cvt =>
    let u := etypeVTy w.dst.etype
    match w.ty.fty, u.fty with
    | some p, none => fpToInt p w.rm w.sat u.signed 32 x
    | none, some q => intToFp q .rne w.sat (w.toI x)
    | none, none => intToInt w.ty.signed 32 w.sat u.signed 32 x
    | some _, some _ => ⟨x, Flags.none⟩

/-- One group folded into the stored value of its element. -/
def Sweep.foldGroup (w : Sweep) (old : Nat) (xs : List (Nat × Nat)) : FRes :=
  let f := w.ty = .f32
  match w.op with
  | .max | .min => xs.foldl (fun (r : FRes) x => let y := w.apply r.bits x.1 0; ⟨y.bits, r.fl ||| y.fl⟩) ⟨old, Flags.none⟩
  | .fma =>
    if f then dotProduct .f32 old (xs.map fun x => prodTerm .f32 x.1 x.2)
    else w.int (xs.foldl (fun (r : Int) x => r + w.toI x.1 * w.toI x.2) (w.toI old))
  | _ =>
    if f then dotProduct .f32 old (xs.map fun x => termOf .f32 (fpDec .f32 x.1))
    else w.int (xs.foldl (fun (r : Int) x => r + w.toI x.1) (w.toI old))

/-- A word of the scratchpad at an address whose checks have passed. -/
def State.localWord (s : State) (a : Int) : Nat :=
  match s.localCheck s.g a 4 4 false with
  | .ok x => leNat (s.poolRead x)
  | _ => 0

/-- Results of a step that reduces nothing: address and value, and the flags. -/
def Sweep.plain (w : Sweep) (s : State) (ps : List Nat) : List (Int × Nat) × Flags :=
  let one (p : Nat) : Int × FRes :=
    let i := w.dst.tuple p
    let a := s.localWord (w.a.at i)
    let d := if w.readsD then s.localWord (w.dst.at i) else 0
    (w.dst.at i, match w.op, w.b with
      | .cvt, _ => w.apply a 0 0
      | _, some b => w.apply a (s.localWord (b.at i)) d
      | _, none => w.apply d a 0)
  let rs := ps.map one
  (rs.map fun r => (r.1, r.2.bits), rs.foldl (fun f r => f ||| r.2.fl) Flags.none)

/-- Results of a reducing step: the last value of each element, in the order of its groups. -/
def Sweep.reduced (w : Sweep) (s : State) (gs : List (List Nat)) : List (Int × Nat) × Flags :=
  gs.foldl (fun (r : List (Int × Nat) × Flags) ps =>
    let da := w.dst.at (w.dst.tuple (ps.headD 0))
    let old := match r.1.find? fun x => x.1 = da with
      | some x => x.2
      | none => s.localWord da
    let y := w.foldGroup old (ps.map fun p =>
      let i := w.dst.tuple p
      (s.localWord (w.a.at i), match w.b with | some b => s.localWord (b.at i) | none => 0))
    ((da, y.bits) :: r.1.filter (fun x => x.1 ≠ da), r.2 ||| y.fl)) ([], Flags.none)

/-- What a step answers: it wrote its elements, or it stopped the word. -/
inductive SweepStep where
  | done (s : State) | stop (out : Out)

/-- One step: every check, then the elements, FPF and the saved counters (06 R161, R163). The checks of the whole step come before
its range locks (log 61). -/
def Sweep.runStep (w : Sweep) (p n : Nat) (s : State) : SweepStep :=
  let gs := w.step p
  let accs := gs.flatten.flatMap w.accesses
  let spent (s : State) : State := s.spendWord leafUseful (6 * n)
  match localPass (accs.map fun a => (s.localCheck s.g a.1 4 4 a.2, a.1)) with
  | .bad c a => .stop (.next ((spent s).takeFault c a))
  | .sealedOut c x => .stop (.next ((spent s).park (.sealedWindow c x)))
  | .ok as =>
    match (as.zip accs).find? fun x => (s.core x.1.core).lockedLocal x.1.offs x.2.2 with
    | some x => .stop (.next ((spent s).takeTrap .rangeLocked (BitVec.ofInt 64 x.2.1)))
    | none =>
      let r := if w.red then w.reduced s gs else w.plain s gs.flatten
      let s := r.1.foldl (fun (s : State) x =>
        match s.localCheck s.g x.1 4 4 true with
        | .ok a => s.poolWrite a (leBytes 4 x.2)
        | _ => s) (s.modG (·.orFpf r.2))
      let q := p + gs.flatten.length
      let i := if q < w.dst.points then w.dst.tuple q else []
      let saved := i.getD 0 0 + i.getD 1 0 * 2 ^ 16 + i.getD 2 0 * 2 ^ 32 + i.getD 3 0 * 2 ^ 48
      .done (s.ownWrite s.g (w.dst.addr % 2 ^ 20 + 0x30) (leBytes 8 saved))

/-- Whether the word about to issue is a sweep whose first issue has passed. -/
def PathState.sweeping (p : PathState) : Bool := p.sweeps.contains (p.pc, p.cwi)
/-- Marks the word about to issue as such a sweep, or no longer. -/
def PathState.setSweeping (p : PathState) (on : Bool) : PathState :=
  { p with sweeps := (if on then [(p.pc, p.cwi)] else []) ++ p.sweeps.filter (· ≠ (p.pc, p.cwi)) }

/-- Up to 16 steps of one issue, then the next word or a run boundary (06 R161). -/
def Sweep.run (w : Sweep) : Nat → Nat → Nat → State → Out
  | fuel, p, n, s =>
    if w.dst.points ≤ p then .next ((s.modG fun g => g.modP (·.setSweeping false)).retire (6 * n))
    else match fuel with
      | 0 => .next ((s.spendWord leafUseful (6 * n)).modG fun g => g.noteHints.boundary)
      | k + 1 =>
        match w.runStep p n s with
        | .stop o => o
        | .done s => w.run k (p + (w.step p).flatten.length) (n + 1) s

/-- A sweep issues: a run boundary before itself, its records, its checks, its steps. With a halt pending it makes no
step. -/
def sweepWord (op : SweepOp) (d a : Nat) (b : Option Nat) (t : BitVec 4) (r : BitVec 2) (n : BitVec 1) (s : State) : Out :=
  if s.g.rc ≠ 0 then .next (s.modG fun g => g.noteHints.boundary)
  else
    let go (x y : Rec) (z : Option Rec) (s : State) : Out :=
      let w : Sweep := { op := op, ty := VTy.of t, rm := Rm.ofCode r, sat := n = 1#1, dst := x, a := y, b := z }
      match w.bad (!s.g.p.sweeping) (r ≠ 0) with
      | some q => .next (s.takeFault .engineFormat (BitVec.ofNat 64 q.addr))
      | none => w.run (if (s.encl s.g.enc).halted then 0 else 16) (x.pointOf x.idx) 0 (s.modG fun g => g.modP (·.setSweeping true))
    withRecords (d :: a :: b.toList) (fun rs s =>
      match rs with
      | [x, y] => go x y none s
      | [x, y, z] => go x y (some z) s
      | _ => .next s) s

/-- The second source of the forms whose b is an iterator or 63. -/
def sweepB (b : Reg) : Option Nat := if b = 63 then none else some b.toNat

/-- v.sweep.add (06 R160). -/
def execVSweepAdd (d a : BitVec 3) (b : Reg) (t : BitVec 4) (r : BitVec 2) (n : BitVec 1) (s : State) : Out :=
  sweepWord .add d.toNat a.toNat (sweepB b) t r n s
/-- v.sweep.mul (06 R160). -/
def execVSweepMul (d a : BitVec 3) (b : Reg) (t : BitVec 4) (r : BitVec 2) (n : BitVec 1) (s : State) : Out :=
  sweepWord .mul d.toNat a.toNat (sweepB b) t r n s
/-- v.sweep.max (06 R160). -/
def execVSweepMax (d a : BitVec 3) (b : Reg) (t : BitVec 4) (r : BitVec 2) (n : BitVec 1) (s : State) : Out :=
  sweepWord .max d.toNat a.toNat (sweepB b) t r n s
/-- v.sweep.min (06 R160). -/
def execVSweepMin (d a : BitVec 3) (b : Reg) (t : BitVec 4) (r : BitVec 2) (n : BitVec 1) (s : State) : Out :=
  sweepWord .min d.toNat a.toNat (sweepB b) t r n s
/-- v.sweep.fma (06 R160). -/
def execVSweepFma (d a b : BitVec 3) (t : BitVec 4) (r : BitVec 2) (n : BitVec 1) (s : State) : Out :=
  sweepWord .fma d.toNat a.toNat (some b.toNat) t r n s
/-- v.sweep.cvt (06 R160). -/
def execVSweepCvt (d a : BitVec 3) (t : BitVec 4) (r : BitVec 2) (n : BitVec 1) (s : State) : Out :=
  sweepWord .cvt d.toNat a.toNat none t r n s

end Sys2Proof.Machine
end

