-- ==== Sys2Proof/Machine/Units.lean ====
section
/-! DEFINITION. Lamplight's units as their holders use them: selectors, acquisition, suspension and return, counters read
back, debug resume, and the arming of a replay block (21 R375 to R382, R388, R389). -/

namespace Sys2Proof.Machine

/-! ### Debug stops (21 R388) -/

/-- A stopped group goes on: after brk past the word, after a comparator at the word without matching. -/
def State.resumeStop (s : State) (g : Group) : State :=
  let g' := if g.stopped = some 0xFF then g.advance else g.modP fun p => { p with noMatch := true }
  let live := g.stat = .halted && !(s.encl g.enc).halted && !((s.taskOf g).map Task.ended).getD false
  s.setGroup { g' with stopped := none, runOver := g.runOver, rc := g.rc, y := g.y, stat := if live then .ready else g.stat }

/-- Resumes the stopped groups of an enclave on a core that a test selects. -/
def State.resumeStops (s : State) (core enc : Nat) (p : Group → Bool) : State :=
  (s.allGroups.filter fun g => g.core = core && g.enc = enc && g.stopped.isSome && p g).foldl State.resumeStop s

/-! ### Selectors (21 Tables 21.5, 21.6) -/

/-- Whether ctr.cfg accepts a selector with a configuration; selector 0x40 is checked with its block. -/
def cfgValid (sel v : Nat) : Bool :=
  if sel < 16 then v / 2 ^ 32 = 0 && bitsAt v 21 6 = 0 && bitsAt v 16 2 = 0
  else if sel = 0x30 then v % 4096 = 0
  else if sel = 0x31 then (List.range 13).any fun n => v = 2 ^ (12 + n)
  else if sel = 0x32 then v < 4
  else if sel = 0x33 then v < 2 ^ 48
  else if 0x34 ≤ sel && sel ≤ 0x3B then bitsAt v 57 6 = 0 && v % 4 = 0
  else sel = 0x3C && v = 0

/-- A counter takes a configuration. -/
def Bank.configure (b : Bank) (i : Nat) (v : Word) (gid : Nat) : Bank :=
  let b := { b with cfg := smSet 0 b.cfg i (v &&& ~~~(BitVec.ofNat 64 (2 ^ 20))), gids := smSet 0 b.gids i (if bitAt v.toNat 19 then gid else 0) }
  if bitAt v.toNat 20 then { b with count := smErase b.count i, ovf := smErase b.ovf i } else b

/-- The trace unit's own part of a configuration. -/
def Trace.configure (u : Trace) (sel : Nat) (v : Word) : Trace :=
  if sel = 0x30 then { u with base := v }
  else if sel = 0x31 then { u with size := v }
  else if sel = 0x32 then
    { u with ctl := BitVec.ofNat 2 v.toNat, written := if !bitAt u.ctl.toNat 0 && bitAt v.toNat 0 then 0 else u.written }
  else if sel = 0x33 then u
  else { u with cmps := smSet 0 u.cmps (sel - 0x34) v }

/-- A guest releases its units on a core: the groups that its debug session stopped go on (21 R375). -/
def State.releaseGuest (s : State) (core enc : Nat) : State :=
  (s.resumeStops core enc fun _ => (s.core core).trace.holder = some (.enc enc)).modCore core fun c =>
    { c with bank := if c.bank.holder = some (.enc enc) then {} else c.bank
             trace := if c.trace.holder = some (.enc enc) then {} else c.trace }

/-- A configuration of a unit that the enclave holds takes effect. -/
def State.configure (s : State) (core enc sel : Nat) (v : Word) (gid : Nat) : State :=
  if sel < 16 then s.modCore core fun c => { c with bank := c.bank.configure sel v gid }
  else
    let was := (s.core core).trace.ctl.toNat
    let s := s.modCore core fun c => { c with trace := c.trace.configure sel v }
    if sel = 0x33 then s.resumeStops core enc fun g => g.ident = v.toNat
    else if sel = 0x32 ∧ bitAt was 1 ∧ !bitAt v.toNat 1 then s.resumeStops core enc fun _ => true
    else s

/-- A valid ctr.cfg of a group: a free unit is acquired, the holder's configuration takes effect, a suspended session's
is kept, and any other is ignored (21 R375, R376). -/
def State.ctrConfig (s : State) (g : Group) (sel : Nat) (v : Word) : State :=
  let c := s.core g.core
  let mine := some (Holder.enc g.enc)
  if sel = 0x3C then
    let s := s.releaseGuest g.core g.enc
    s.modCore g.core fun c =>
      { c with bank := if c.bank.suspended = some g.enc then { c.bank with kept := c.bank.kept ++ [(sel, v, g.gid)] } else c.bank
               trace := if c.trace.suspended = some g.enc then { c.trace with kept := c.trace.kept ++ [(sel, v, g.gid)] } else c.trace }
  else if sel < 16 then
    if c.bank.holder = mine then s.configure g.core g.enc sel v g.gid
    else if c.bank.holder = none then
      (s.modCore g.core fun c => { c with bank := { c.bank with holder := mine } }).configure g.core g.enc sel v g.gid
    else if c.bank.suspended = some g.enc then
      s.modCore g.core fun c => { c with bank := { c.bank with kept := c.bank.kept ++ [(sel, v, g.gid)] } }
    else s
  else if c.trace.holder = mine then s.configure g.core g.enc sel v g.gid
  else if c.trace.holder = none then
    (s.modCore g.core fun c => { c with trace := { c.trace with holder := mine } }).configure g.core g.enc sel v g.gid
  else if c.trace.suspended = some g.enc then
    s.modCore g.core fun c => { c with trace := { c.trace with kept := c.trace.kept ++ [(sel, v, g.gid)] } }
  else s

/-! ### Reading back (21 R377, R378, R381) -/

/-- UNAVAILABLE. -/
def ctrUnavailable : Word := BitVec.ofNat 64 (2 ^ 63)

/-- Events that a guest's counter counts on this device (21 Tables 21.1, 21.4). -/
def evidGuest (e : Nat) : Bool := (0x100 ≤ e && e ≤ 0x117) || (0x200 ≤ e && e ≤ 0x209)

/-- All cycles of a slot. -/
def leafSum (m : SMap Nat) : Nat := (m.map (·.2)).foldl (· + ·) 0

/-- A leaf of a slot in an enclave's view: cycles of other enclaves' groups count as no resident group. -/
def guestLeaf (m : SMap Nat) (enc leaf : Nat) : Nat :=
  if leaf = leafNone then
    leafSum m - ((List.range 0x13).map fun l => if l = leafNone then 0 else smGet 0 m (enc * 32 + l)).foldl (· + ·) 0
  else smGet 0 m (enc * 32 + leaf)

/-- A node of a slot in an enclave's view. -/
def guestNode (m : SMap Nat) (enc node : Nat) : Nat :=
  ((List.range 0x13).map fun l => if nodeHolds node l then guestLeaf m enc l else 0).foldl (· + ·) 0

/-- Leaves of an issue slot at present. -/
def Core.leavesOf (c : Core) (x : Nat) : SMap Nat := (c.slot x).leaves

/-- ctr.rd's value (21 Tables 21.5, 21.6). -/
def State.ctrRead (s : State) (g : Group) (sel : Nat) : Word :=
  let c := s.core g.core
  let b := c.bank
  let u := c.trace
  let bankMine : Bool := b.holder = some (.enc g.enc)
  let bankLost : Bool := b.suspended = some g.enc
  let lost (x : Nat) (l : Bool) : Word := BitVec.ofNat 64 (if l then x % 2 ^ 62 + 2 ^ 62 else x)
  if sel < 16 then
    if bankMine ∨ bankLost then
      let no := b2n (!evidGuest (bitsAt (smGet 0 b.cfg sel).toNat 0 16))
      BitVec.ofNat 64 (no * 2 ^ 63 + b2n bankLost * 2 ^ 62 + b2n (smGet false b.ovf sel) * 2 ^ 61 + smGet 0 b.count sel)
    else ctrUnavailable
  else if 0x100 ≤ sel ∧ sel < 0x140 then
    let x := (sel - 0x100) / 32
    let node := (sel - 0x100) % 32
    if 0x18 ≤ node ∨ !(bankMine || bankLost) then ctrUnavailable
    else
      let m := if bankLost then b.snap.getD x [] else c.leavesOf x
      BitVec.ofNat 64 (b2n bankLost * 2 ^ 62 + (guestNode m g.enc node - guestNode (b.base.getD x []) g.enc node) % 2 ^ 48)
  else if sel = 0x33 ∨ sel = 0x3C then 0
  else if sel = 0x40 then BitVec.ofNat 64 (((s.encl g.enc).replay.block).getD 0)
  else if 0x30 ≤ sel ∧ sel ≤ 0x3B then
    let susp : Bool := u.suspended = some g.enc
    if u.holder = some (.enc g.enc) ∨ susp then
      lost (if sel = 0x30 then u.base.toNat else if sel = 0x31 then u.size.toNat else if sel = 0x32 then u.written
        else (smGet 0 u.cmps (sel - 0x34)).toNat) susp
    else ctrUnavailable
  else ctrUnavailable

/-! ### The hypervisor's acquisition and release (21 R376) -/

/-- A node of a slot as the hypervisor's session reads it: every enclave's cycles, from zero at its acquisition. -/
def Core.hypNode (c : Core) (x node : Nat) : Nat :=
  let sum (m : SMap Nat) : Nat := (m.map fun e => if nodeHolds node (e.1 % 32) then e.2 else 0).sum
  sum (c.leavesOf x) - sum (c.bank.snap.getD x [])

/-- An entry of the bucket table as Lamplight reads it in a hypervisor's session; a free one reads as zero (19 Table 19.3; 21 R377). -/
def Core.bucketWord (c : Core) (k : Nat) : Word :=
  if c.bank.holder = some .hyp then ((c.buckets[k]?).map Bucket.word).getD 0 else ctrUnavailable

/-- Adds to each leaf what a slot counted between two moments. -/
def addInterval (base from_ upto : SMap Nat) : SMap Nat :=
  upto.foldl (fun m e => smSet 0 m e.1 (smGet 0 m e.1 + (e.2 - smGet 0 from_ e.1))) base

/-- The hypervisor takes a core's counter bank; a guest's session is suspended and its counts freeze. -/
def Core.bankTaken (c : Core) : Core :=
  if c.bank.holder = some .hyp then c
  else { c with bank := { c.bank with
    holder := some .hyp, suspended := match c.bank.holder with | some (.enc e) => some e | _ => none
    snap := [c.leavesOf 0, c.leavesOf 1] } }

/-- The hypervisor takes a core's trace unit; packets that the guest's session had queued are dropped. -/
def Core.traceTaken (c : Core) : Core :=
  if c.trace.holder = some .hyp then c
  else { c with trace := { c.trace with
    holder := some .hyp, suspended := match c.trace.holder with | some (.enc e) => some e | _ => none
    saved := min (c.trace.dropped + c.trace.queue.length) (2 ^ 31 - 1), dropped := 0, queue := [], hypOut := [] } }

/-- Applies the configurations kept while a session was suspended. -/
def State.applyKept (s : State) (core enc : Nat) (ks : List (Nat × Word × Nat)) (bank : Bool) : State :=
  ks.foldl (fun s k =>
    if k.1 = 0x3C then
      (if bank then s.modCore core fun c => { c with bank := {} }
       else (s.resumeStops core enc fun _ => true).modCore core fun c => { c with trace := {} })
    else
      let free := if bank then (s.core core).bank.holder = none else (s.core core).trace.holder = none
      let s := if free then s.modCore core fun c =>
          if bank then { c with bank := { c.bank with holder := some (.enc enc) } }
          else { c with trace := { c.trace with holder := some (.enc enc) } }
        else s
      s.configure core enc k.1 k.2.1 k.2.2) s

/-- The hypervisor returns a core's counter bank. -/
def State.bankReturned (s : State) (core : Nat) : State :=
  let c := s.core core
  let b := c.bank
  if b.holder ≠ some .hyp then s
  else match b.suspended with
    | none => s.modCore core fun c => { c with bank := {} }
    | some e =>
      (s.modCore core fun c => { c with bank := { b with
        holder := some (.enc e), suspended := none, kept := [], snap := []
        base := (List.range 2).map fun x => addInterval (b.base.getD x []) (b.snap.getD x []) (c.leavesOf x) } }).applyKept
          core e b.kept true

/-- The hypervisor returns a core's trace unit: the guest's next packet is a LOST packet with HOST set. -/
def State.traceReturned (s : State) (core : Nat) : State :=
  let u := (s.core core).trace
  if u.holder ≠ some .hyp then s
  else match u.suspended with
    | none => s.modCore core fun c => { c with trace := {} }
    | some e =>
      (s.modCore core fun c => { c with trace := { u with
        holder := some (.enc e), suspended := none, kept := [], queue := [], hostLost := true, dropped := u.saved, saved := 0
        hypOut := [] } }).applyKept core e u.kept false

/-! ### Packets into the buffer (21 R385) -/

/-- TRACE_LOST: when room returns, a LOST packet, then a SYNC packet of each traced group (21 R384). -/
def execTraceLost (core : Nat) (s : State) : Out := .next (s.catchUp core)

/-- The oldest queued packet of a unit is written: to the guest's buffer, as a far request of the core that takes no token, or out
of the hypervisor's session, for whose buffer the spec gives no register (log 54). -/
def State.packetOut (s : State) (core : Nat) : Option State :=
  let u := (s.core core).trace
  match u.holder, u.queue with
  | some (.enc e), p :: rest =>
    if u.size = 0 ∨ 256 ≤ s.inFlight core then none
    else some ((s.devWrite e (u.base.toNat + u.written % u.size.toNat) (dwordBytes p)).modCore core fun c =>
      { c with trace := { c.trace with queue := rest, written := u.written + 32 } })
  | some .hyp, p :: rest => some (s.modCore core fun c => { c with trace := { c.trace with queue := rest, hypOut := u.hypOut ++ [p] } })
  | _, _ => none

/-! ### Arming a replay block (21 R389) -/

/-- Every page of a range passes a test and is pinned. -/
def State.pinnedRange (s : State) (enc va n : Nat) (ok : Nat → Bool) : Bool :=
  (List.range (ceilDiv (va + n) 4096 - va / 4096)).all fun i =>
    let p := (va / 4096 + i) * 4096
    (s.encl enc).pinsPage p && ok p

/-- Whether a replay control block keeps the rules of 21 Table 21.10. Only its dwords 0x00 to 0x18 are read (23 R397). -/
def State.replayBlockOk (s : State) (enc queue va : Nat) (b : List Word) : Bool :=
  let dw (i : Nat) : Nat := (b.getD i 0).toNat
  s.pinnedRange enc va 64 (s.complOk enc queue) && dw 0 / 2 ^ 8 = 0 && bitsAt (dw 0) 2 2 = 0 && dw 0 % 4 ≠ 3 && dw 1 % 64 = 0 &&
    dw 2 % 64 = 0 && s.pinnedRange enc (dw 1) (dw 2) fun _ => true

/-- Selector 0x40: reads, checks and arms a block, unless one is armed or running. -/
def replayArm (v : Word) (s : State) : Out :=
  if v.toNat % 64 ≠ 0 then .next (s.faultHere .illegalInstruction)
  else withRead v.toNat 32 64 (fun bs s =>
    let g := s.g
    let b := bytesDwords 4 bs
    let dw (i : Nat) : Nat := (b.getD i 0).toNat
    let queue := ((s.taskOf g).map Task.queue).getD 0
    if !s.replayBlockOk g.enc queue v.toNat b then .next (s.faultHere .illegalInstruction)
    else if dw 0 % 4 = 0 ∨ (s.encl g.enc).replay.block.isSome then .next (s.retire 1)
    else .next ((s.modEnc g.enc fun e => { e with replay :=
      { block := some v.toNat, armed := true, mode := dw 0 % 4, queue := bitsAt (dw 0) 4 4, logBase := dw 1, logSize := dw 2
        logUsed := if dw 0 % 4 = 2 then dw 3 else 0 } }).retire 1)) s

/-- A ctr.cfg word: its selector decides; it takes effect from the cycle after its issue (21 R381). -/
def ctrWord (a b : Reg) (s : State) : Out :=
  let sel := (s.g.sr a).toNat
  let v := s.g.sr b
  if sel = 0x40 then replayArm v s
  else if !cfgValid sel v.toNat then .next (s.takeFault .illegalInstruction v)
  else .next ((s.retire 1).ctrConfig s.g sel v)

end Sys2Proof.Machine
end

