-- ==== Sys2Proof/Machine/Lanterns.lean ====
section
/-! DEFINITION. Lantern management: ln.def, ln.resize, ln.flush, ln.inv and ln.stat (12 R277 to R279; 09 R193, R194, R199
to R203), and the cursors of a change. -/

namespace Sys2Proof.Machine

/-! ### Checking a record (09 R194) -/

/-- Whether a definition commits a pane-slice on a die. -/
def Ldr.holds (l : Ldr) (die pane slice : Nat) : Bool :=
  l.instDies.contains die && bitAt l.clmask (pane / 64) && l.first ≤ pane % 64 && pane % 64 < l.first + l.per &&
    l.wfirst ≤ slice && slice < l.wfirst + l.w

/-- The geometries that a class has committed on a die: its definition's, and the old one's until its cursor ends. -/
def ClassDef.held (d : ClassDef) (die : Nat) : List Ldr :=
  d.ldr :: (match d.change with
    | some c => if smGet 0 c.cursors die < c.old.total then [c.old] else []
    | none => [])

/-- Pane-slices of a die that satisfy a test. -/
def countSlices (p : Nat → Nat → Bool) : Nat := ((List.range 16384).filter fun i => p (i / 16) (i % 16)).length

/-- Whether some pane-slice of a die satisfies a test. -/
def anySlice (p : Nat → Nat → Bool) : Bool := (List.range 16384).any fun i => p (i / 16) (i % 16)

/-- Every class that has a definition, by partition and class. -/
def State.allClasses (s : State) : List (Nat × Nat × ClassDef) := s.classes.map fun c => (c.1 / 64, c.1 % 64, c.2)

/-- Fields of a record that are reserved or out of range: reserved bits, MODE 3, WAYS, WFIRST, and the fields that a mode
does not use. -/
def ldrBadField (ds : List Word) : Bool :=
  let l : Ldr := ⟨ds.getD 0 0, ds.getD 1 0⟩
  let d0 := l.d0.toNat
  let d1 := l.d1.toNat
  bitsAt d0 48 16 ≠ 0 || bitsAt d0 38 2 ≠ 0 || bitAt d0 35 || bitsAt d0 26 2 ≠ 0 || bitsAt d0 18 2 ≠ 0 ||
  bitsAt d0 10 6 ≠ 0 || bitsAt d0 6 2 ≠ 0 || bitsAt d1 32 32 ≠ 0 || bitAt d1 15 || bitsAt d1 6 2 ≠ 0 ||
  ds.getD 2 0 ≠ 0 || ds.getD 3 0 ≠ 0 ||
  l.mode = 3 || 4 < bitsAt d0 32 3 || l.wfirst % l.w ≠ 0 || 16 < l.wfirst + l.w ||
  (l.mode ≠ 1 && l.dies ≠ 0) || (l.mode ≠ 0 && l.home ≠ 0) || 64 < l.first + l.per ||
  (if l.mode = 2 then l.clmask ≠ 0 || l.per ≠ 0 else l.per = 0 || 64 < l.per || l.clmask = 0)

/-- Whether a partition has a cluster on a die. -/
def State.partHasDie (s : State) (part die : Nat) : Bool := bitsAt (s.part part).clusters (16 * die) 16 ≠ 0

/-- The checks of 09 R194 after the record's fields, in the table's order. The clusters of 19 R353 and the retired panes of
17 Table 17.4 have no place in that order: the model checks them with the slices, after PART (log 66). -/
def State.ldrCheck (s : State) (part : Nat) (l : Ldr) : Option Code :=
  let mine := (s.classDef part l.cls).map fun d => d
  let others := s.allClasses.filter fun c => !(c.1 = part && c.2.1 = l.cls)
  if l.mode = 1 ∧ (l.dies = 0 ∨ l.instDies.any fun d => !s.partHasDie part d) then some .lanternPane
  else if l.mode = 0 ∧ !s.partHasDie part l.home then some .lanternPane
  else if l.part ≠ part then some .privilege
  else if l.instDies.any fun d =>
      (List.range 16).any (fun c => bitAt l.clmask c && !bitAt (s.part part).clusters (16 * d + c)) ||
      l.panes.any (s.paneRetired d) ||
      anySlice fun p x => l.holds d p x && others.any fun c => (c.2.2.held d).any fun m => m.holds d p x
    then some .lanternPane
  else if l.instDies.any fun d =>
      (s.part part).quotas.getD d 0 < countSlices fun p x =>
        l.holds d p x || (((mine.map fun m => m.held d).getD []).any fun m => m.holds d p x) ||
        (others.any fun c => c.1 = part && (c.2.2.held d).any fun m => m.holds d p x)
    then some .lanternPane
  else none

/-! ### Installing (09 R199; 12 R277) -/

/-- A record with another WPOL. -/
def Ldr.plainPolicy (l : Ldr) : Word × Word := (l.d0 &&& ~~~0x3000000000#64, l.d1)

/-- The dword at WPOL's place aside, the same definition. -/
def Ldr.sameBut (l m : Ldr) : Bool := l.plainPolicy = m.plainPolicy

/-- Whether a change keeps lines: KEEP-LINES or FLUSH-ALL. -/
def keepsLines (old new : Ldr) : Bool :=
  old.mode = new.mode && old.home = new.home && old.dies = new.dies && old.lsz = new.lsz && new.mode ≠ 2

/-- A class takes a new record: a new WPOL alone at once, else a change of its instances; a definition without instances
is replaced at once. -/
def ClassDef.become (d : ClassDef) (l : Ldr) : ClassDef :=
  if d.ldr.sameBut l ∨ d.ldr.instDies = [] then { d with ldr := l }
  else { ldr := l, change := some { old := d.ldr, flushAll := !keepsLines d.ldr l, cursors := [] } }

/-- ln.def and ln.resize: the record's checks, a park behind a change in progress, then its effect. -/
def lanternRecord (resize : Bool) (a : Reg) (s : State) : Out :=
  let at_ := s.g.sr a
  withRead at_.toNat 32 32 (fun bs s =>
    let ds := bytesDwords 4 bs
    let l : Ldr := ⟨ds.getD 0 0, ds.getD 1 0⟩
    let part := s.partOf s.g
    if ldrBadField ds then .next (s.takeFault .illegalInstruction at_)
    else match s.ldrCheck part l with
      | some c => .next (s.takeFault c at_)
      | none =>
        match s.classDef part l.cls with
        | none =>
          if resize then .next (s.takeFault .badLantern at_)
          else .next ({ s with classes := smPut s.classes (part * 64 + l.cls) ⟨l, none⟩ }.retire 4)
        | some d =>
          if d.change.isSome then .next (s.park (.lantern part l.cls))
          else .next ({ s with classes := smPut s.classes (part * 64 + l.cls) (d.become l) }.retire 4)) s
/-- ln.def (12 R277). -/
def execLnDef (a : Reg) (s : State) : Out := lanternRecord false a s
/-- ln.resize (09 R199). -/
def execLnResize (a : Reg) (s : State) : Out := lanternRecord true a s

/-- ln.stat (09 R203; 12 R279). -/
def execLnStat (d a : Reg) (s : State) : Out :=
  let c := (s.g.sr a).toNat
  let v : Nat :=
    if 63 < c then 0
    else match s.classDef (s.partOf s.g) c with
      | none => 0
      | some k =>
        match k.change with
        | none => 2 ^ 63
        | some ch =>
          let cur := (ch.old.instDies.map fun i => smGet 0 ch.cursors i).foldl min ch.old.total
          2 ^ 63 + 2 ^ 62 + (if ch.flushAll then 2 ^ 61 else 0) + ch.old.total * 2 ^ 20 + cur
  .next ((s.setS d (BitVec.ofNat 64 v)).retire 2)

/-! ### ln.flush and ln.inv (12 R278) -/

/-- Steps 1 to 3 of 10 Table 10.1 for one byte as a load. -/
def State.coverCheck (s : State) (g : Group) (va : Nat) : Option Code :=
  if 2 ^ 57 ≤ va then some .accessUnleased
  else if g.hb.toNat ≤ va ∧ va < g.heapTop then (if va < g.hb.toNat + g.hl.toNat then none else some .heapLimit)
  else
    let c := byteCovered (((s.taskOf g).map Task.regions).getD []) (s.freeRanges g.enc) .load none va
    if !c.1 then some .accessUnleased else if !c.2 then some .accessMode else none

/-- Places in a range where coverage can change. -/
def State.coverPoints (s : State) (g : Group) (lo hi : Nat) : List Nat :=
  let rs := ((s.taskOf g).map Task.regions).getD []
  let ps := rs.flatMap (fun r => [r.base, r.base + r.extent]) ++ (s.freeRanges g.enc).flatMap (fun r => [r.1, r.2.1]) ++
    [g.hb.toNat, g.heapTop, g.hb.toNat + g.hl.toNat, 2 ^ 57]
  lo :: ps.filter fun p => lo < p && p < hi

/-- The lowest byte of a range that fails, with its code. -/
def State.coverFault (s : State) (g : Group) (lo hi : Nat) : Option (Code × Nat) :=
  (s.coverPoints g lo hi).foldl (fun r p =>
    match s.coverCheck g p, r with
    | none, r => r
    | some c, none => some (c, p)
    | some c, some (c', q) => if p < q then some (c, p) else some (c', q)) none

/-- The physical page of a virtual page as steps 4 to 6 find it now, or none where they fail. -/
def State.pageNow (s : State) (g : Group) (page : Nat) : Option Nat :=
  let pa : Option Nat :=
    if g.hb.toNat ≤ page ∧ page < g.heapTop then some ((page + g.ho.toNat) % 2 ^ 57)
    else (s.leafOf g.enc page).bind fun l => if (l.check .load).isSome then none else some (l.pa page)
  pa.bind fun p => if (s.frameChecks g.enc [p] .load).isSome then none else some (s.canon p)

/-- The physical ranges of a virtual range, page by page. -/
def State.physRanges (s : State) (g : Group) (lo hi : Nat) : List (Nat × Nat) :=
  ((List.range (ceilDiv hi 4096 - lo / 4096)).map fun i => (lo / 4096 + i) * 4096).filterMap fun page =>
    (s.pageNow g page).map fun pa => (pa + (max lo page - page), pa + (min hi (page + 4096) - page))

/-- Dies whose instance of a class serves a die, in the definition and in one being left. -/
def ClassDef.servingDies (d : ClassDef) (die : Nat) : List Nat :=
  (d.ldr.servedBy die).toList ++ ((d.change.bind fun c => c.old.servedBy die).toList)

/-- The lines of the issuing die's instances that hold a byte of physical ranges. -/
def State.linesOf (s : State) (part die : Nat) (rs : List (Nat × Nat)) : List LLine :=
  s.lines.filter fun l =>
    l.part = part && (((s.classDef part l.cls).map fun d => (d.servingDies die).contains l.die).getD false) &&
      rs.any fun r => r.1 < l.line + l.size && l.line < r.2

/-- ln.flush and ln.inv as they issue: the range is checked, near-cache lines go, and ST rises. -/
def lanternSweep (inv : Bool) (a b : Reg) (s : State) : Out :=
  let g := s.g
  let lo := (g.sr a).toNat
  let hi := lo + (g.sr b).toNat
  if lo = hi then .next (s.retire 2)
  else match s.coverFault g lo hi with
    | some (c, p) => .next (s.takeFault c (BitVec.ofNat 64 p))
    | none =>
      if 63 ≤ g.p.st then .next (s.hold leafSt)
      else
        let rs := s.physRanges g lo hi
        let s := if inv then s.modCore g.core fun c => c.nearDrop fun l =>
            l.owner = g.enc && rs.any fun r => r.1 < l.line * 64 + 64 && l.line * 64 < r.2
          else s
        let op : LnOp := { seq := s.seq, pathF := g.curF, inv := inv, lo := lo, hi := hi, started := false, lines := [] }
        let s : State := { s with seq := s.seq + 1 }
        .next ((s.modG fun g => { g.modP (fun p => { p with st := p.st + 1 }) with lnOps := g.lnOps ++ [op] }).retire 2)
/-- ln.flush (12 R278). -/
def execLnFlush (a b : Reg) (s : State) : Out := lanternSweep false a b s
/-- ln.inv (12 R278). -/
def execLnInv (a b : Reg) (s : State) : Out := lanternSweep true a b s

/-- Whether a store of the path slot still stands in the cluster's buffer on a line of an action's range: the action reaches that
line after it, as a later access of the slot would (12 R278; 11 R236). -/
def State.lnBehind (s : State) (g : Group) (o : LnOp) : Bool :=
  let rs := s.physRanges g o.lo o.hi
  (s.buf (clusterOf g.core)).any fun e => e.gid = g.gid && e.pathF = o.pathF &&
    e.bytes.any fun b => rs.any fun r => r.1 / 512 ≤ b.1 / 512 && b.1 / 512 ≤ (r.2 - 1) / 512

/-- Whether an action may leave the core: every earlier store of its path slot has passed the core store point. -/
def Group.lnMayStart (g : Group) (o : LnOp) : Bool := !(g.fifo.any fun e => e.seq < o.seq && e.pathF = o.pathF)

/-- An action starts: it finds its lines; ln.inv drops the clean ones. -/
def State.lnStart (s : State) (g : Group) (o : LnOp) : State × LnOp :=
  let ls := s.linesOf (s.partOf g) (dieOfCore g.core) (s.physRanges g o.lo o.hi)
  let clean := ls.filter fun l => l.dirty = 0
  (if o.inv then clean.foldl State.dropLine s else s,
   { o with started := true, lines := (ls.filter fun l => l.dirty ≠ 0).map fun l => (l.die, l.line) })

/-- One write-back of an action, and for ln.inv the line's end. -/
def State.lnLine (s : State) (part : Nat) (inv : Bool) (x : Nat × Nat) : State :=
  match s.lines.find? fun l => l.die = x.1 && l.line = x.2 && l.part = part with
  | some l =>
    let s := s.writeBack l
    if inv then s.dropLine l else s
  | none => s

/-- WRITE_BACK_ARRIVAL: an action leaves the core, or one of its write-backs reaches its memory controller; when none is
left its ST entry falls. -/
def execWriteBackArrival (gid k : Nat) (s : State) : Out :=
  match s.group gid with
  | none => .next s
  | some g =>
    match g.lnOps[k]? with
    | none => .next s
    | some o =>
      let r : Option (State × LnOp) :=
        if !o.started then (if g.lnMayStart o && !s.lnBehind g o then some (s.lnStart g o) else none)
        else some ((match o.lines with | x :: _ => s.lnLine (s.partOf g) o.inv x | [] => s), { o with lines := o.lines.drop 1 })
      match r with
      | none => .next s
      | some (s, o') =>
        .next (s.modGroup gid fun g =>
          if o'.lines.isEmpty then
            { g.modPath o.pathF (fun p => { p with st := p.st - 1 }) with lnOps := g.lnOps.eraseIdx k }
          else { g with lnOps := g.lnOps.set k o' })

/-! ### Cursors (09 R200, R201) -/

/-- The line of an old pane-set of a class's instance in one slice. -/
def State.oldLine (s : State) (part cls die : Nat) (old : Ldr) (pos slice : Nat) : Option LLine :=
  s.lines.find? fun l => l.own part cls && l.die = die && l.pane = old.panes.getD (pos / old.sets) 0 &&
    l.set = pos % old.sets && l.slice = slice && !l.newGeo && l.size = old.size

/-- What a step does with a line of the old pane-set: FLUSH-ALL writes it back and drops it; KEEP-LINES moves it into the new
geometry, where it is the most recently used of its pane-set (log 41). -/
def State.cursorLine (s : State) (l : Ldr) (flushAll : Bool) (y : LLine) : State :=
  if flushAll ∨ s.paneRetired y.die (l.place y.line).2.1 then (s.writeBack y).dropLine y
  else { s with lines := s.lines.filter fun z => !z.same y }.insertLine l { y with newGeo := true }

/-- A step of a cursor: the lines of its pane-set move or leave, in slice order, each as it stands when its turn comes; then the
cursor advances, and when every instance has ended the change is over. -/
def State.cursorStep (s : State) (part cls die : Nat) (flushAll : Bool) : State :=
  match s.classDef part cls with
  | none => s
  | some d =>
    match d.change with
    | none => s
    | some c =>
      let pos := smGet 0 c.cursors die
      if c.flushAll ≠ flushAll ∨ !c.old.instDies.contains die ∨ c.old.total ≤ pos then s
      else
        let s := (List.range 16).foldl (fun s k =>
          match s.oldLine part cls die c.old pos k with
          | some y => s.cursorLine d.ldr flushAll y
          | none => s) s
        let c' := { c with cursors := smSet 0 c.cursors die (pos + 1) }
        let ended := c'.old.instDies.all fun i => c'.old.total ≤ smGet 0 c'.cursors i
        let d' : ClassDef := { d with change := if ended then none else some c' }
        { s with
          classes := smPut s.classes (part * 64 + cls) d'
          lines := if ended then s.lines.map fun l => if l.own part cls then { l with newGeo := false } else l else s.lines }

/-- RESIZE_CURSOR_STEP (09 R200). -/
def execResizeCursorStep (part cls die : Nat) (s : State) : Out := .next (s.cursorStep part cls die false)
/-- FLUSH_CURSOR_STEP (09 R201). -/
def execFlushCursorStep (part cls die : Nat) (s : State) : Out := .next (s.cursorStep part cls die true)

end Sys2Proof.Machine
end

