-- ==== Sys2Proof/Machine/Manage.lean ====
section
/-! DEFINITION. Invalidations and their acknowledgement, walks, and moving frames (10 R215, R216, R224 to R230); the
management registers' own writes (27 R434, R435; 09 R205; 19 R351 to R355); and the refills of bandwidth tokens (19 R359; 25 R406). -/

namespace Sys2Proof.Machine

/-! ### Invalidations (10 R224 to R226) -/

/-- INVALIDATION (10 R224). -/
def execInvalidation (sc : InvScope) (s : State) : Out := .next (s.postInval sc)

/-- Invalidations that a DTU has acknowledged. -/
def Die.acked (d : Die) : Nat := d.accepted - b2n d.inval.isSome

/-- A completed invalidation by frame range drops the near-cache lines of its frames on every core (09 R191). -/
def State.nearFrames (s : State) (sc : InvScope) : State :=
  match sc with
  | .frames f n => { s with cores := smMap {} (fun _ c => c.nearDrop fun l => f ≤ l.line / 64 && l.line / 64 < f + n) s.cores }
  | _ => s

/-- A DTU acknowledges once the old colour's count is zero (steps 4 and 5), and takes the next invalidation. Every DTU takes them
in one order, so the last of the four to acknowledge completes it. -/
def State.ackInval (s : State) (die : Nat) : Option State :=
  let d := s.die die
  match d.inval with
  | none => none
  | some sc =>
    if d.count (!d.colour) ≠ 0 then none
    else
      let s := s.modDie die fun d => { d with inval := none, invalQ := d.invalQ.drop 1 }
      let s := if (List.range 4).all fun k => d.accepted ≤ (s.die k).acked then s.nearFrames sc else s
      match d.invalQ with
      | next :: _ => some (s.acceptInval die next)
      | [] => some s
/-- DTU_ACKNOWLEDGE (10 R226). -/
def execDtuAcknowledge (die : Nat) (s : State) : Out := .next ((s.ackInval die).getD s)

/-- Every participant has acknowledged. -/
def State.invalIdle (s : State) : Bool := (List.range 4).all fun d => (s.die d).inval.isNone

/-! ### Pinned pages (10 R213) -/

/-- The frame of a pinned page takes the lease count that it holds for the enclave's life, once. -/
def State.pinFrame (s : State) (e f : Nat) : State :=
  let g := s.leaseFrame f
  let p := s.potOf g
  if (s.encl e).pinned.contains g ∨ !(p.owner = e ∧ (p.stat = 1 ∨ p.stat = 2 ∨ p.stat = 5) ∨ p.owner = 0x3FFF) ∨ 255 ≤ p.leases then s
  else (s.raiseLease g).modEnc e fun x => { x with pinned := x.pinned ++ [g] }

/-- The pages of 4 KiB that a leaf maps. -/
def Leaf.pages (l : Leaf) : List Nat :=
  (List.range (match l.kind with | .k4 => 1 | .m2 => 512 | .g1 => 262144)).map fun i => l.vbase + 4096 * i

/-- The pinned pages that a leaf maps take their lease counts: pages that were not mapped at enc.make (10 R213; log 50). -/
def State.pinLeaf (s : State) (e : Nat) (l : Leaf) : State :=
  (l.pages.filter (s.encl e).pinsPage).foldl (fun s va => s.pinFrame e (l.pa va / 4096)) s

/-- Whether a page that a leaf maps is pinned and has yet to take the count it holds, in a frame whose count is at its maximum
(log 50). -/
def State.pinFull (s : State) (e : Nat) (l : Leaf) : Bool :=
  (l.pages.filter (s.encl e).pinsPage).any fun va =>
    let f := s.leaseFrame (l.pa va / 4096)
    !(s.encl e).pinned.contains f && 255 ≤ (s.potOf f).leases

/-- What a walk brings for a copy command is kept with the command until it ends. -/
def State.givePage (s : State) (w : Walk) (t : Tlb) : State :=
  match if w.op = 0 then none else s.group w.gid with
  | none => s
  | some g => s.modCore g.core fun c => { c with copies := c.copies.map fun x => if x.id = w.op then { x with pages := x.pages ++ [t] } else x }

/-- WALK_COMPLETE: the walk installs its translation with the POT result of its frames, or keeps its failure for the access that
asked (10 R214, R215). A walk of a pinned page waits while its frame cannot take the count (log 50). -/
def execWalkComplete (die k : Nat) (s : State) : Out :=
  match (s.die die).walks[k]? with
  | none => .next s
  | some w =>
    if w.res.isSome then .next s
    else
      if s.walkPoisoned w.enc w.va then .next (s.partitionReset (s.encl w.enc).part)
      else
        let s := s.countWalk w.enc w.va
        let fail (c : Code) : State := s.modDie die fun d => { d with walks := d.walks.set k { w with res := some (some c) } }
        .next (match s.leafOf w.enc w.va with
        | none => fail .accessUnleased
        | some l =>
          match l.check w.kind with
          | some c => fail c
          | none =>
            let t := s.cachePots (l.tlb w.enc w.asid)
            if s.pinFull w.enc l then s
            else ((s.pinLeaf w.enc l).modDie die fun d => { d with
              llt := lltInstall d.llt t, walks := d.walks.set k { w with res := some none } }).givePage w t)

/-! ### Moving frames (10 R227 to R229) -/

/-- Entry `k` of controller `ctl`. -/
def State.migrAt (s : State) (ctl k : Nat) : Migr := smGet {} s.migr (ctl * 64 + k)
/-- Writes an entry. -/
def State.setMigr (s : State) (ctl k : Nat) (m : Migr) : State := { s with migr := smSet {} s.migr (ctl * 64 + k) m }

/-- An entry is written with VALID = 1 (10 R227). -/
def State.beginMove (s : State) (ctl k src dst : Nat) : State :=
  let a := s.potOf src
  let b := s.potOf dst
  if 5 ≤ ctl ∨ 64 ≤ k ∨ (s.migrAt ctl k).valid ∨ !inMemory (src * 4096) ∨ !inMemory (dst * 4096) ∨ (tierOf (src * 4096)).1 ≠ ctl ∨
      !(a.stat = 1 || a.stat = 2 || a.stat = 6) ∨ b.stat ≠ 0 ∨ s.withheld.contains dst then s
  else
    let s := s.setMigr ctl k { valid := true, done := false, cursor := 0, src := src, dst := dst, was := a }
    let s := s.setPot src { a with stat := 5 }
    let s := s.setPot dst { owner := a.owner, cls := a.cls, cgroup := a.cgroup, stat := 5, leases := 0 }
    (s.postInval (.frames src 1)).postInval (.frames dst 1)
/-- MIGRATION_ENTRY_WRITE with VALID = 1 (10 R227). -/
def execMigrationEntryWrite (ctl k src dst : Nat) (s : State) : Out := whenRunning (fun s => s.beginMove ctl k src dst) s

/-- MIGRATION_STEP: one line is moved. A tag failure is an uncorrectable error of the line that the step read, by the state of its
frame before the move (10 R228; 17 Table 17.5). -/
def execMigrationStep (ctl k : Nat) (tagOk : Bool) (s : State) : Out :=
  let m := s.migrAt ctl k
  if !m.valid ∨ 64 ≤ m.cursor then .next s
  else
    let a := m.src * 4096 + 64 * m.cursor
    if !tagOk then .next ((s.countAt a false).memError (a / 64)) else
    let b := m.dst * 4096 + 64 * m.cursor
    let bs := (addrs a 64).map (memByte s.mem)
    let s := (s.countAt a false).countAt b true
    .next ({ s with mem := memPutAll s.mem ((addrs b 64).zip bs) }.setMigr ctl k
      { m with cursor := m.cursor + 1, done := m.cursor + 1 = 64 })

/-- Replaces a frame number in a list. -/
def renameFrame (src dst : Nat) (fs : List Nat) : List Nat := fs.map fun f => if f = src then dst else f

/-- A physical byte of one frame as a byte of another. -/
def renamePa (src dst a : Nat) : Nat := if a / 4096 = src then dst * 4096 + a % 4096 else a
/-- A 64-byte line of one frame as a line of another. -/
def renameLine (src dst l : Nat) : Nat := if l / 64 = src then dst * 64 + l % 64 else l

/-- A group whose requests, stores and monitors on one frame are on another. -/
def Group.renameFrame (src dst : Nat) (g : Group) : Group :=
  let bytes (l : List (Nat × Byte)) : List (Nat × Byte) := l.map fun b => (renamePa src dst b.1, b.2)
  let path (p : PathState) : PathState := { p with mon := p.mon.map fun m => { m with line := renameLine src dst m.line } }
  { g with
    t := path g.t, f := path g.f
    reqs := g.reqs.map fun r => { r with elems := r.elems.map fun e => { e with pas := e.pas.map (renamePa src dst) } }
    fifo := g.fifo.map fun e => { e with bytes := bytes e.bytes, paged := e.paged.map (renameLine src dst) }
    evt := g.evt.map fun h => { h with pa := renamePa src dst h.pa } }

/-- What stood under the source's addresses while a frame moved stands under the destination's (log 34). -/
def State.renameFrame (s : State) (src dst : Nat) : State :=
  { s with
    g := s.g.renameFrame src dst
    groups := s.groups.map fun (x : Nat × Group) => (x.1, x.2.renameFrame src dst)
    bufs := smMap [] (fun _ b => b.map fun (e : BufEnt) => { e with bytes := e.bytes.map fun x => (renamePa src dst x.1, x.2) }) s.bufs
    dies := smMap {} (fun _ (d : Die) => { d with svt := d.svt.map fun (e : Svt) => { e with line := renameLine src dst e.line } }) s.dies
    poison := s.poison.map (renameLine src dst)
    tasks := s.tasks.map fun (t : Nat × Task) => (t.1, { t.2 with frames := Sys2Proof.Machine.renameFrame src dst t.2.frames })
    fwins := s.fwins.map fun w => { w with frames := Sys2Proof.Machine.renameFrame src dst w.frames }
    encs := s.encs.map fun (x : Nat × Enclave) => (x.1, { x.2 with pinned := Sys2Proof.Machine.renameFrame src dst x.2.pinned }) }

/-- A write of VALID = 0 after DONE. The source's lantern lines go to memory first, what names the source names the destination, a
poisoned line with it, and both frames' changes are followed by an invalidation (10 R219, R229). -/
def State.retireMove (s : State) (ctl k : Nat) : State :=
  let m := s.migrAt ctl k
  if !m.valid ∨ !m.done then s
  else
    let s := (s.lines.filter fun l => l.line / 4096 = m.src).foldl (fun s l => (s.writeBack l).dropLine l) s
    let p := s.potOf m.src
    let stat := if m.was.stat = 6 then 6 else if p.leases = 0 then 1 else 2
    let s := ((s.setMigr ctl k {}).renameFrame m.src m.dst).zeroFrames [m.src]
    let s := (s.setPot m.dst { p with stat := stat }).setPot m.src {}
    (s.postInval (.frames m.src 1)).postInval (.frames m.dst 1)
/-- MIGRATION_RETIRE (10 R229). -/
def execMigrationRetire (ctl k : Nat) (s : State) : Out := whenRunning (fun s => s.retireMove ctl k) s

/-! ### Frame accounts (10 R230) -/

/-- Frames that an interface holds: owned, leased, heap-bound or migrating, a migrating pair once. -/
def State.heldFrames (s : State) (vi : Nat) : List (Nat × Pot) :=
  s.pot.filter fun p =>
    p.2.owner ≠ 0 && p.2.owner ≠ 0x3FFF && inMemory (p.1 * 4096) && (p.2.stat = 1 || p.2.stat = 2 || p.2.stat = 3 || p.2.stat = 5) &&
    (s.encl p.2.owner).id ≠ 0 && s.viOf p.2.owner = vi &&
    !(s.migr.any fun (m : Nat × Migr) => m.2.valid && m.2.dst = p.1)
/-- RES. -/
def State.res (s : State) (vi : Nat) : Nat := (s.heldFrames vi).length
/-- EVICT. -/
def State.evictable (s : State) (vi : Nat) : Nat := ((s.heldFrames vi).filter fun p => p.2.stat = 1 && p.2.leases = 0).length
/-- A frame account. -/
def State.acct (s : State) (vi : Nat) : Acct := smGet {} s.accts vi

/-- The package's frames: 768 GiB of HBM4E and 2 TiB of LPDDR6 (09 Table 9.8). -/
def packageFrames : Nat := 2816 * 2 ^ 18

/-- Writes GUAR or BURST. -/
def State.writeAccount (s : State) (vi : Nat) (burst : Bool) (n : Nat) : State :=
  let a := s.acct vi
  let b : Acct := if burst then { a with burst := n % 2 ^ 32 } else { a with guar := n % 2 ^ 32 }
  let others := ((s.accts.filter fun x => x.1 ≠ vi).map fun x => x.2.guar).sum
  if 256 ≤ vi ∨ b.burst < b.guar ∨ packageFrames < others + b.guar then s else { s with accts := smSet {} s.accts vi b }
/-- FRAME_ACCOUNT_WRITE (10 R230). -/
def execFrameAccountWrite (vi : Nat) (burst : Bool) (n : Nat) (s : State) : Out := whenRunning (fun s => s.writeAccount vi burst n) s

/-! ### Partitions and interfaces (19 R351 to R355) -/

/-- Whether a live enclave names a partition. -/
def State.partLive (s : State) (part : Nat) : Bool := s.encs.any fun (e : Nat × Enclave) => e.2.live && e.2.part = part

/-- A partition record from its dwords (19 Table 19.1). -/
def partOf64 (ds : List Word) : Part :=
  let dw (i : Nat) : Nat := (ds.getD i 0).toNat
  { valid := bitAt (dw 0) 63, ports := bitsAt (dw 0) 40 18, clusters := dw 1
    quotas := (List.range 4).map fun d => bitsAt (dw 2) (16 * d) 16, commons := dw 3
    routes := (List.range 16).map fun k =>
      ⟨bitAt (dw (4 + k)) 63, bitsAt (dw (4 + k)) 48 11, bitsAt (dw (4 + k)) 36 11, bitsAt (dw (4 + k)) 0 18⟩
    mem := (List.range 2816).filter fun j => bitAt (dw (20 + j / 64)) (j % 64) }

/-- Whether a write would set a resource of another VALID record, or a die's quotas would pass 16,384. -/
def State.partOver (s : State) (part : Nat) (p : Part) : Bool :=
  let others := s.parts.filter fun q => q.1 ≠ part && q.2.valid
  (others.any fun q => q.2.clusters &&& p.clusters ≠ 0 || q.2.ports &&& p.ports ≠ 0 || q.2.mem.any p.mem.contains) ||
  (List.range 4).any fun d => 16384 < ((s.parts.filter fun q => q.1 ≠ part).map fun q => q.2.quotas.getD d 0).sum + p.quotas.getD d 0

/-- Pane-slices that a partition has committed on a die. -/
def State.committed (s : State) (part d : Nat) : Nat :=
  countSlices fun p x => s.allClasses.any fun c => c.1 = part && (c.2.2.held d).any fun m => m.holds d p x

/-- Whether a record with a live enclave may take a write: it raises QUOTAs, lowers QUOTAs to no less than is committed, sets
COMMONS bits, and changes nothing else (19 R352, R361). -/
def State.partMayAmend (s : State) (part : Nat) (p : Part) : Bool :=
  let old := s.part part
  p = { old with quotas := p.quotas, commons := p.commons } && old.commons &&& p.commons = old.commons &&
    (List.range 4).all fun d => old.quotas.getD d 0 ≤ p.quotas.getD d 0 || s.committed part d ≤ p.quotas.getD d 0

/-- A record is written. One that becomes VALID has class 0 as BYPASS and no other class (09 R196). -/
def State.writePart (s : State) (part : Nat) (p : Part) : State :=
  if p.valid && !(s.part part).valid then
    let s := (s.lines.filter fun l => l.part = part).foldl (fun s l => (s.writeBack l).dropLine l) s
    { s with classes := smFilter (fun k _ => k / 64 ≠ part) s.classes }.modPart part fun _ => p
  else s.modPart part fun _ => p

/-- A record is written where the rule admits it (19 R352). -/
def State.writeRecord (s : State) (part : Nat) (ds : List Word) : State :=
  let p := partOf64 ds
  if 255 ≤ part ∨ s.partOver part p ∨ (s.partLive part && !s.partMayAmend part p) then s else s.writePart part p
/-- PARTITION_RECORD_WRITE (19 R352). -/
def execPartitionRecordWrite (part : Nat) (ds : List Word) (s : State) : Out := whenRunning (fun s => s.writeRecord part ds) s

/-- An interface's record is written (19 R354, R355). -/
def State.writeVi (s : State) (vi : Nat) (d0 d1 : Word) : State :=
  let live := s.encs.any fun (e : Nat × Enclave) => e.2.live && e.2.vi = vi
  let v : Vi := { valid := bitAt d0.toNat 63, part := if live then (s.vi vi).part else bitsAt d0.toNat 0 8, share := bitsAt d1.toNat 0 17 }
  let sum := ((s.vis.filter fun x => x.1 ≠ vi && x.2.valid).map fun x => x.2.share).sum + (if v.valid then v.share else 0)
  if 256 ≤ vi ∨ 65536 < v.share ∨ 65536 < sum then s else { s with vis := smSet {} s.vis vi v }
/-- VIRTUAL_INTERFACE_WRITE; with `name` the creations that follow name the interface (19 R354, R355; log 23). -/
def execVirtualInterfaceWrite (vi : Nat) (d0 d1 : Word) (name : Bool) (s : State) : Out :=
  whenRunning (fun s => let t := s.writeVi vi d0 d1; if name then { t with viNamed := vi } else t) s

/-! ### Single registers -/

/-- Whether some frame of an MMT entry's range is not free. -/
def State.mmtLocked (s : State) (k : Nat) : Bool := s.pot.any fun p => p.2.stat ≠ 0 && inMemory (p.1 * 4096) && mmtIndex (p.1 * 4096) = k
/-- Writes HASH (09 R205). -/
def State.writeMmt (s : State) (k hash : Nat) : State :=
  if 2816 ≤ k ∨ s.mmtLocked k ∨ (768 ≤ k ∧ hash % 4 = 2) then s else { s with mmt := smSet 0 s.mmt k (hash % 4) }
/-- MMT_WRITE (09 R205). -/
def execMmtWrite (k hash : Nat) (s : State) : Out := whenRunning (fun s => s.writeMmt k hash) s

/-- Writes CORE_TOKENS (19 R357). -/
def State.writeCoreTokens (s : State) (die n : Nat) : State :=
  if 4 ≤ die ∨ n = 0 ∨ 4096 < n then s else s.modDie die fun d => { d with coreTokens := n }
/-- CORE_TOKENS_WRITE. -/
def execCoreTokensWrite (die n : Nat) (s : State) : Out := whenRunning (fun s => s.writeCoreTokens die n) s

/-- Writes FAB_TOKENS (25 R406). -/
def State.writeFabTokens (s : State) (n : Nat) : State := if n = 0 ∨ 16384 < n then s else { s with fabTokens := n }
/-- FAB_TOKENS_WRITE. -/
def execFabTokensWrite (n : Nat) (s : State) : Out := whenRunning (fun s => s.writeFabTokens n) s

/-- Writes PKGID, once after reset (27 Table 27.2). -/
def State.writePkgid (s : State) (n : Nat) : State := if s.pkgidSet then s else { s with pkgid := n % 2 ^ 11, pkgidSet := true }
/-- PKGID_WRITE. -/
def execPkgidWrite (n : Nat) (s : State) : Out := whenRunning (fun s => s.writePkgid n) s

/-- Writes PLIMIT (27 Table 27.3). -/
def State.writePlimit (s : State) (n : Nat) : State :=
  if n < 800 ∨ 3200 < n then s else ({ s with plimit := n } : State).throttle
/-- PLIMIT_WRITE. -/
def execPlimitWrite (n : Nat) (s : State) : Out := whenRunning (fun s => s.writePlimit n) s

/-! ### Refills (19 R359; 25 R406) -/

/-- The first pass of a refill: each entry's own grant, what was granted in all, and what overflowed. -/
def refillOwn (c : Nat) (share : Nat → Nat) : List Bucket → List Bucket × Nat × Nat
  | [] => ([], 0, 0)
  | b :: bs =>
    let r := refillOwn c share bs
    let acc := b.frac + c * share b.vi
    let q := acc / 65536
    let cap := max (2 * q) 1
    let new := b.level + q
    ({ b with frac := acc % 65536, level := min new cap, cap := cap } :: r.1, r.2.1 + q, r.2.2 + (new - cap))

/-- A refill of a table: own grants, then the pool shared among the active entries by share. -/
def refillTable (c : Nat) (share : Nat → Nat) (bs : List Bucket) : List Bucket :=
  let r := refillOwn c share bs
  let pool := r.2.2 + (c - r.2.1)
  let w := ((bs.filter Bucket.act).map fun b => share b.vi).sum
  r.1.map fun (b : Bucket) =>
    let b : Bucket := if b.act ∧ 0 < w then { b with level := min (b.level + pool * share b.vi / w) b.cap } else b
    { b with act := false }

/-- SHARE of an interface; an interface that is not VALID has none. -/
def State.shareOf (s : State) (vi : Nat) : Nat := if (s.vi vi).valid then (s.vi vi).share else 0

/-- TOKEN_REFILL: at each cycle in which bits [9:0] of the core's CYC are zero, once; one for each such cycle that CYC has passed. -/
def execTokenRefill (core : Nat) (s : State) : Out :=
  let c := s.core core
  if c.cyc.toNat / 1024 = c.refills then .next s
  else
    let t := (s.die (dieOfCore core)).coreTokens
    .next (s.modCore core fun c => { c with buckets := refillTable t s.shareOf c.buckets, refills := c.refills + 1 })

/-- FABRIC_TOKEN_REFILL: every 1,024 cycles of the fabric clock, once. -/
def execFabricTokenRefill (s : State) : Out :=
  if s.fabClock / 1024 = s.fabRefills then .next s
  else .next { s with fabBuckets := refillTable s.fabTokens s.shareOf s.fabBuckets, fabRefills := s.fabRefills + 1 }

end Sys2Proof.Machine
end

