-- ==== Sys2Proof/Machine/Xlmenc.lean ====
section
/-! DEFINITION. The hub-die harts inside and outside enclaves, and the ten Xlmenc instructions (20; 18 R334 to R346). -/

namespace Sys2Proof.Machine

/-! ### Harts (20 R363, R367; log 9) -/

/-- The hart that executes. -/
def State.me (s : State) : Hart := s.hart s.hartAt

/-- An integer register; x0 is never listed. -/
def Hart.getX (h : Hart) (r : BitVec 5) : Word := smGet 0 h.x r.toNat

/-- The instruction completes: rd takes a value and the pc moves on. -/
def Hart.done (h : Hart) (d : BitVec 5) (v : Word) : Hart := { h with pc := h.pc + 4 }.setX d.toNat v

/-- VALUE × 2^8 + STATUS (20 R364). -/
def hartStatus (value status : Nat) : Word := BitVec.ofNat 64 (value * 2 ^ 8 + status)

/-- Completes the executing hart's instruction with a value and a status. -/
def State.hartDone (s : State) (d : BitVec 5) (value status : Nat) : State :=
  s.modHart s.hartAt (·.done d (hartStatus value status))

/-- Completes with a value and a status once the invalidations that the instruction posted are acknowledged (10 R224). -/
def State.hartAwait (s : State) (d : BitVec 5) (value status : Nat) : State :=
  s.modHart s.hartAt fun h => { h with await := some (d.toNat, hartStatus value status) }

/-- A hart whose invalidations are acknowledged writes rd and moves on. -/
def State.hartResume (s : State) (h : Nat) : State :=
  s.modHart h fun x =>
    match x.await with
    | some (d, v) => ({ x with pc := x.pc + 4, await := none } : Hart).setX d v
    | none => x

/-- An exception inside an enclave goes to its S-mode (20 R367): sepc, scause, stval and the stack of sstatus are written,
and the pc goes to the base in stvec. -/
def Hart.enclaveTrap (h : Hart) (cause tval : Nat) : Hart :=
  let st := (smGet 0 h.csr 0).toNat
  let keep := st - b2n (bitAt st 1) * 2 - b2n (bitAt st 5) * 32 - b2n (bitAt st 8) * 256
  let st' := keep + b2n (bitAt st 1) * 32 + b2n (h.mode = .hs) * 256
  { h with
    csr := smSetAll 0 h.csr [(0, BitVec.ofNat 64 st'), (4, h.pc), (5, BitVec.ofNat 64 cause), (6, BitVec.ofNat 64 tval)]
    pc := smGet 0 h.csr 2 &&& ~~~3#64
    mode := .hs }

/-- The mode that takes a trap outside an enclave. -/
def HMode.handler : HMode → HMode
  | .m => .m
  | _ => .hs

/-- A trap of a hart outside an enclave into M-mode or HS-mode: the cause and the pc are saved, and the handler of that mode runs
(log 9). -/
def Hart.trapTo (h : Hart) (into : HMode) (cause : Word) (tval : Nat) : Hart :=
  { h with
    cause := cause, epc := h.pc, tval := BitVec.ofNat 64 tval
    mode := into, pc := Config.hartTrapVector (b2n (into = .hs)) }

/-- An exception of a hart outside an enclave. -/
def Hart.hostTrap (h : Hart) (cause : Word) (tval : Nat) : Hart := h.trapTo h.mode.handler cause tval

/-- The executing hart takes an exception. -/
def State.hartTrap (s : State) (cause tval : Nat) : State :=
  s.modHart s.hartAt fun h =>
    if h.inside.isSome then h.enclaveTrap cause tval else h.hostTrap (BitVec.ofNat 64 cause) tval

/-- Causes of the RISC-V exceptions that these instructions raise. -/
def causeIllegal : Nat := 2
/-- An ecall from U-mode. -/
def causeUserCall : Nat := 8
/-- Virtual instruction. -/
def causeVirtual : Nat := 22

/-- A custom-0 instruction: HS-mode and M-mode only (20 R363). -/
def State.custom0 (s : State) (body : State → Out) : Out :=
  if s.me.inside.isSome then .next (s.hartTrap causeIllegal 0)
  else match s.me.mode with
    | .m | .hs => body s
    | .vs | .vu => .next (s.hartTrap causeVirtual 0)
    | .u => .next (s.hartTrap causeIllegal 0)

/-- A custom-1 instruction: only on a hart inside an enclave, whose number the body takes (20 R363). -/
def State.custom1 (s : State) (body : Nat → State → Out) : Out :=
  match s.me.inside with
  | some e => body e s
  | none => .next (s.hartTrap causeIllegal 0)

/-! ### Translation inside an enclave (20 R367) -/

/-- Exception causes of a refused access: of the page, and of the POT. -/
def accCauses : Acc → Nat × Nat
  | .load => (13, 5)
  | .fetch => (12, 1)
  | .store | .atomic => (15, 7)

/-- Whether a leaf admits an access of a hart: U-mode needs U; S-mode reaches a U page for data where SUM is set; MXR makes
an X page readable; A, and D for a write, must be set. -/
def Leaf.hartAdmits (l : Leaf) (h : Hart) (k : Acc) : Bool :=
  let st := (smGet 0 h.csr 0).toNat
  let side := if h.mode = .u then l.user else (!l.user || (k ≠ .fetch && bitAt st 18))
  let perm := match k with
    | .load => l.r || (l.x && bitAt st 19)
    | .fetch => l.x
    | _ => l.w
  side && perm && l.a && (l.d || k = .load || k = .fetch)

/-- The frame of an enclave's kick page (18 R341). -/
def kickFrame (e : Nat) : Nat := 0x30000000 + e

/-- Whether a hart inside an enclave reaches a frame: as 10 R218 admits, and loads and stores of the kick page (18 R341). -/
def State.hartAdmits (s : State) (e f : Nat) (k : Acc) : Bool :=
  (f = kickFrame e && (k = .load || k = .store)) || (s.potCheck e f k).isNone

/-- The physical address of a virtual address of an enclave's hart, or the cause of the exception: the Sv57 walk from
ROOT, then the POT and the kick page. -/
def State.hartXlat (s : State) (e : Nat) (h : Hart) (va : Nat) (k : Acc) : Except Nat Nat :=
  let x := s.encl e
  let v := va % 2 ^ 57
  if va / 2 ^ 57 ≠ (if bitAt va 56 then 127 else 0) then .error (accCauses k).1
  else match s.walkFrom x.part v false 5 x.root with
    | none => .error (accCauses k).1
    | some l =>
      if !l.hartAdmits h k then .error (accCauses k).1
      else if !s.hartAdmits e (l.pa v / 4096) k then .error (accCauses k).2
      else .ok (l.pa v)

/-- The word that the executing hart fetches: from physical memory, or through the tables of the enclave it is inside. -/
def State.hartFetch (s : State) : Except Nat W32 :=
  let h := s.me
  let word (part pa : Nat) : W32 := BitVec.ofNat 32 (leNat (s.coherent part pa 4))
  match h.inside with
  | none => .ok (word 0xFF h.pc.toNat)
  | some e => (s.hartXlat e h h.pc.toNat .fetch).map fun pa => word (s.encl e).part pa

/-- Whether a word lies in the opcodes of Xlmenc. -/
def isXlmenc (w : W32) : Bool := w.toNat % 128 = 0x0B || w.toNat % 128 = 0x2B

/-- An ecall, which an enclave's S-mode takes as an illegal instruction and its U-mode as a call (20 R367; log 9). -/
def isEcall (w : W32) : Bool := w = 0x73#32

/-! ### Hypervisor memory and parameter blocks (20 R364) -/

/-- A frame of owner 0 in state owned; one that moves counts by the state it had before (10 R228). -/
def State.hypFrame (s : State) (f : Nat) : Bool :=
  let p := s.potOf f
  p.owner = 0 && (p.stat = 1 || (p.stat = 5 && (s.potSettled f).stat = 1))
/-- Whether all of `n` bytes lie in such frames. -/
def State.hypBytes (s : State) (pa n : Nat) : Bool :=
  n = 0 || (addrs (pa / 4096) ((pa + n - 1) / 4096 + 1 - pa / 4096)).all s.hypFrame
/-- A dword of hypervisor memory. -/
def State.hypDw (s : State) (pa : Nat) : Nat := leNat (s.coherent 0xFF pa 8)
/-- The eight dwords of a parameter block. -/
def State.block (s : State) (pa : Nat) : Option (List Nat) :=
  if pa % 64 = 0 ∧ s.hypBytes pa 64 then some ((List.range 8).map fun i => s.hypDw (pa + 8 * i)) else none
/-- Whether bytes lie in a kick page, which no frame of memory is. -/
def isKick (pa : Nat) : Bool := 0x30000000000 ≤ pa && pa < 0x30000000000 + 0x4000 * 4096

/-- A hart's use of a pinned page gives its frame the lease that it holds for the enclave's life (10 R213; log 50). -/
def State.hartPin (s : State) (e va pa : Nat) : State :=
  if (s.encl e).pinsPage (va % 2 ^ 57 / 4096 * 4096) then s.pinFrame e (pa / 4096) else s

/-- The fetch of the executing hart reaches the serving point of its line (11 R239); what memory it and its walk read counts
(09 R207). -/
def State.hartFetched (s : State) : State :=
  let h := s.me
  match h.inside with
  | none => (s.hartTouch 0xFF h.pc.toNat).countPeek 0xFF [h.pc.toNat]
  | some e =>
    match s.hartXlat e h h.pc.toNat .fetch with
    | .ok pa => ((((s.countWalk e (h.pc.toNat % 2 ^ 57)).hartTouch (s.encl e).part pa).countPeek (s.encl e).part [pa]).hartPin e h.pc.toNat pa)
    | .error _ => s

/-- The partition that the executing hart's fetch resets: inside an enclave, a poisoned line (17 Table 17.5). -/
def State.fetchPoisoned (s : State) : Option Nat :=
  s.me.inside.bind fun e =>
    match s.hartXlat e s.me s.me.pc.toNat .fetch with
    | .ok pa => if s.walkPoisoned e (s.me.pc.toNat % 2 ^ 57) || s.poisoned pa 4 then some (s.encl e).part else none
    | .error _ => none

/-- Stores bytes by a hart, each line at its ordering point (11 R252). A kick page ignores a store that is not of 8 bytes
(18 R341). -/
def State.hartStore (s : State) (part pa : Nat) (bs : List Byte) : State :=
  if isKick pa ∧ bs.length ≠ 8 then s
  else (cuts pa bs).foldl (fun s c => (s.hartTouch part c.1).hubStore part c.1 c.2) s

/-- What an 8-byte load from a kick page gives: the entries of the queue's FIFO, which are those not yet admitted; the rest of the
page is zero (18 R341). -/
def State.kickLoad (s : State) (e off : Nat) : Nat :=
  if off % 8 = 0 ∧ off / 8 < 16 then (smGet [] (s.encl e).kicks (off / 8)).length else 0

/-- Bytes that a hart reads: a kick page dword by dword (log 49). -/
def State.hartRead (s : State) (part pa n : Nat) : List Byte :=
  if isKick pa then
    (addrs pa n).map fun a => (leBytes 8 (s.kickLoad (a / 4096 - 0x30000000) (a % 4096 / 8 * 8))).getD (a % 8) 0
  else s.coherent part pa n

/-- A hart's loads of some bytes reach the serving points of their lines (11 R239), and what memory they read counts (09 R207). -/
def State.hartLoads (s : State) (part pa n : Nat) : State :=
  if isKick pa then s
  else let cs := cuts pa (List.replicate n 0#8)
    (cs.foldl (fun s c => s.hartTouch part c.1) s).countPeek part (cs.map (·.1))

/-- A hart inside an enclave reads bytes of it: a poisoned line resets the enclave's partition (17 Table 17.5). -/
def State.hartReads (s : State) (e va pa n : Nat) (k : State → State) : State :=
  if s.walkPoisoned e (va % 2 ^ 57) || (!isKick pa && s.poisoned pa n) then s.partitionReset (s.encl e).part
  else k (s.hartLoads (s.encl e).part pa n)

/-- Whether a frame may be given to an enclave of a partition: memory that its MEM names, and not withheld (19 R353). -/
def State.inMem (s : State) (part f : Nat) : Bool :=
  inMemory (f * 4096) && (s.part part).mem.contains (mmtIndex (f * 4096)) && !s.withheld.contains f
/-- Frames of owner 0 that a live enclave's descriptor has bound: its pager queue and its save area (18 R335; 20 Table 20.5). -/
def State.lent (s : State) (f : Nat) : Bool :=
  s.encs.any fun (x : Nat × Enclave) => x.2.live &&
    (f = x.2.ecs / 4096 + 1 || (x.2.save / 4096 ≤ f && f < x.2.save / 4096 + x.2.saven))
/-- A frame that enc.make may take. -/
def State.makeFrame (s : State) (f : Nat) : Bool := (s.potOf f).owner = 0 && (s.potOf f).stat = 1 && !s.lent f
/-- Whether a frame is named by a valid migration entry. -/
def State.migrating (s : State) (f : Nat) : Bool :=
  s.migr.any fun (m : Nat × Migr) => m.2.valid && (m.2.src = f || m.2.dst = f)

/-! ### The descriptor (18 R334, Table 18.1; 10 R209) -/

/-- Dword `i` of a descriptor. -/
def State.descDw (s : State) (a i : Nat) : Nat := s.hypDw (a + 8 * i)

/-- Whether the interface that the creation names is VALID and has the descriptor's PART, a VALID partition (19 R354; log 23). -/
def State.makeVi (s : State) (part : Nat) : Bool :=
  (s.part part).valid && (s.vi s.viNamed).valid && (s.vi s.viNamed).part = part

/-- A heap triple of a descriptor. -/
def State.descHeap (s : State) (a t : Nat) : Heap :=
  ⟨s.descDw a (28 + 4 * t), s.descDw a (29 + 4 * t), s.descDw a (30 + 4 * t), s.descDw a (31 + 4 * t)⟩

/-- Whether a heap triple meets 10 R209 and its reserved bits are zero. -/
def Heap.ok (h : Heap) : Bool := h.hb % 2 ^ 30 = 0 && h.hl % 2 ^ 21 = 0 && h.ho % 2 ^ 12 = 0 && h.hlc < 64
/-- The frames of a heap triple. -/
def Heap.frames (h : Heap) : List Nat := (List.range (h.hl / 4096)).map fun i => (h.hb + h.ho + 4096 * i) % 2 ^ 57 / 4096
/-- Whether a queue may name a triple. -/
def Heap.named (h : Heap) : Bool := h.hl ≠ 0 || (h.hb = 0 && h.ho = 0 && h.hlc = 0)

/-- Whether an entry of the initial page list has its reserved bits zero and a class that the partition has. -/
def State.initOk (s : State) (part a : Nat) : Bool :=
  let d0 := s.hypDw a
  let d1 := s.hypDw (a + 8)
  d0 / 2 ^ 57 = 0 && bitsAt d0 1 11 = 0 && bitsAt d1 30 2 = 0 && d1 / 2 ^ 38 = 0 && (s.classDef part (bitsAt d1 32 6)).isSome

/-- Every field of a descriptor lies in its range and every reserved field is zero (18 R334). -/
def State.descOk (s : State) (a : Nat) : Bool :=
  let dw := s.descDw a
  let nq := bitsAt (dw 0) 0 5
  let part := bitsAt (dw 0) 8 8
  let ninit := bitsAt (dw 9) 0 32
  let npin := bitsAt (dw 9) 32 32
  bitsAt (dw 0) 48 16 = 0 && bitsAt (dw 0) 32 16 = 1 && bitsAt (dw 0) 30 2 = 0 && bitsAt (dw 0) 5 3 = 0 &&
  1 ≤ nq && nq ≤ 16 && s.makeVi part && dw 1 / 2 ^ 44 = 0 && dw 2 % 4096 = 0 &&
  dw 4 / 2 ^ 16 = 0 && dw 4 % 256 = 0 && dw 4 / 256 ≤ 64 && dw 5 % 4096 = 0 &&
  1 ≤ bitsAt (dw 6) 32 32 && bitsAt (dw 6) 32 32 ≤ 2 ^ 20 && bitsAt (dw 6) 0 32 ≤ 2 ^ 20 && dw 7 % 4096 = 0 &&
  dw 8 % 16 = 0 && dw 10 % 16 = 0 && dw 11 = 0 &&
  ((List.range 16).all fun q =>
    let x := dw (12 + q)
    if q < nq then x / 64 = 0 && !bitAt x 3 && (s.descHeap a (bitsAt x 4 2)).named else x = 0) &&
  ((List.range 4).all fun t => (s.descHeap a t).ok) &&
  ((List.range 20).all fun i => dw (44 + i) = 0) &&
  s.hypBytes (dw 8) (16 * ninit) && s.hypBytes (dw 10) (16 * npin) &&
  ((List.range ninit).all fun i => s.initOk part (dw 8 + 16 * i)) &&
  ((List.range npin).all fun i => s.hypDw (dw 10 + 16 * i) % 4096 = 0 && s.hypDw (dw 10 + 16 * i) < 2 ^ 57)

/-- The frame of an entry of the initial page list. -/
def State.initFrame (s : State) (a : Nat) : Nat := bitsAt (s.hypDw (a + 8)) 0 30

/-- Frames of the version table. -/
def pvtFrames (pvt pvtn : Nat) : List Nat := addrs (pvt / 4096) (ceilDiv (pvtn * 32) 4096)

/-- The frames that a descriptor names stand as 18 R334 and 19 R353 ask, and none is named twice. -/
def State.descFrames (s : State) (a : Nat) : Bool :=
  let dw := s.descDw a
  let part := bitsAt (dw 0) 8 8
  let ecs := addrs (dw 2 / 4096) 3
  let pvt := pvtFrames (dw 7) (bitsAt (dw 6) 32 32)
  let save := addrs (dw 5 / 4096) (bitsAt (dw 6) 0 32)
  let init := (List.range (bitsAt (dw 9) 0 32)).map fun i => s.initFrame (dw 8 + 16 * i)
  let heap := (List.range 4).flatMap fun t => (s.descHeap a t).frames
  (ecs ++ pvt ++ save ++ init).all s.makeFrame &&
  (heap.all fun f => s.makeFrame f || (s.potOf f).stat = 0) &&
  ([dw 2 / 4096, dw 2 / 4096 + 2] ++ pvt ++ init ++ heap).all (s.inMem part) &&
  decide (ecs ++ pvt ++ save ++ init ++ heap).Nodup

/-- The measurement's start: SHA-384 over the descriptor with ECS, HARTS, SAVE, PVT, INIT and PIN read as zero
(18 R337 step 4). -/
def State.measStart (s : State) (a : Nat) : BitVec 384 :=
  Config.sha384 ((List.range 64).flatMap fun i =>
    leBytes 8 (if [2, 3, 5, 7, 8, 10].contains i then 0 else s.descDw a i))

/-! ### enc.make (18 R337; 20 R365) -/

/-- The lowest enclave id in no use, other than 0 and 0x3FFF. -/
def State.freeEnc (s : State) : Option Nat :=
  ((List.range 0x3FFE).map (· + 1)).find? fun e => (smFind s.encs e).isNone

/-- The enclave whose making, or ending, a hart has begun. -/
def State.makingOf (s : State) (h : Nat) (kill : Bool) : Option Enclave :=
  (s.encs.find? fun (x : Nat × Enclave) => match x.2.making with
    | some m => m.hart = h && m.kill = kill
    | none => false).map (·.2)

/-- An enclave as its descriptor gives it, with no page yet (18 R337 steps 1 to 4). -/
def State.newEnclave (s : State) (a id : Nat) : Enclave :=
  let dw := s.descDw a
  { id := id, vi := s.viNamed, part := bitsAt (dw 0) 8 8, asid := bitsAt (dw 0) 16 14, root := bitsAt (dw 1) 0 44, ecs := dw 2
    harts := BitVec.ofNat 64 (dw 3), nstream := dw 4 / 256, save := dw 5, saven := bitsAt (dw 6) 0 32
    pvt := dw 7, pvtn := bitsAt (dw 6) 32 32
    pins := (List.range (bitsAt (dw 9) 32 32)).map fun i => (s.hypDw (dw 10 + 16 * i), s.hypDw (dw 10 + 16 * i + 8))
    heaps := (List.range 4).map (s.descHeap a)
    queues := (List.range (bitsAt (dw 0) 0 5)).map fun q => (bitsAt (dw (12 + q)) 4 2, bitsAt (dw (12 + q)) 0 3)
    create := s.creation + 1, meas := s.measStart a, descAt := a
    making := some { kill := false, hart := s.hartAt, pages := 0, init := dw 8, ninit := bitsAt (dw 9) 0 32 } }

/-- A partial creation is undone: its frames return to owner 0, state owned, zeroed, and its id is free (20 R365). -/
def State.undoMake (s : State) (x : Enclave) : State :=
  let mine := (s.pot.filter fun p => p.2.owner = x.id).map (·.1)
  let s := (s.zeroFrames mine).invalFrames mine
  { mine.foldl (fun s f => s.setPot f { stat := 1 }) s with encs := smErase s.encs x.id, keys := smErase s.keys x.id }

/-- One initial page (18 R337 step 5). -/
def State.makePage (s : State) (x : Enclave) (m : Making) : State :=
  let a := m.init + 16 * m.pages
  let d0 := s.hypDw a
  let cls := bitsAt (s.hypDw (a + 8)) 32 6
  let f := s.initFrame a
  let content := s.coherent 0xFF (f * 4096) 4096
  let meas := Config.sha384 (leBytes 48 x.meas.toNat ++ leBytes 8 d0 ++ leBytes 8 (cls * 2 ^ 32) ++ (if bitAt d0 0 then content else []))
  let s := (s.setPot f { owner := x.id, stat := 1, cls := cls }).postInval (.frames f 1)
  s.modEnc x.id fun x => { x with meas := meas, making := some { m with pages := m.pages + 1 } }

/-- The frames that the last steps bind still stand as the descriptor's check found them, and in the partition's MEM (19 R353). -/
def State.makeRest (s : State) (x : Enclave) : Bool :=
  (addrs (x.ecs / 4096) 3 ++ pvtFrames x.pvt x.pvtn ++ addrs (x.save / 4096) x.saven).all s.makeFrame &&
  ((x.heaps.flatMap Heap.frames).all fun f => s.makeFrame f || (s.potOf f).stat = 0) &&
  ([x.ecs / 4096, x.ecs / 4096 + 2] ++ pvtFrames x.pvt x.pvtn ++ x.heaps.flatMap Heap.frames).all (s.inMem x.part)

/-- Frames take an owner, a state and a class, zeroed. -/
def State.bindFrames (s : State) (fs : List Nat) (p : Pot) : State :=
  let s := s.zeroFrames fs
  (fs.foldl (fun s f => s.setPot f p) s).invalFrames fs

/-- Every page of the pinned ranges that translates takes the lease it holds for the enclave's life (10 R213). -/
def State.pinPages (s : State) (x : Enclave) : State :=
  (x.pins.flatMap fun p => (List.range p.2).map fun i => p.1 + 4096 * i).foldl (fun s va =>
    match s.leafOf x.id va with
    | some l => s.pinFrame x.id (l.pa va / 4096)
    | none => s) s

/-- The last steps (18 R337 step 6; R335, R336, R341; 10 R210): the heaps that queues name, the control structure and the version
table, whose frames R336 gives to the enclave (log 6), the kick page's entry, the link keys, and the enclave lives. -/
def State.makeEnd (s : State) (x : Enclave) : State :=
  let hs := ((List.range 4).filter fun t => x.queues.any fun q => q.1 = t).filterMap fun t => x.heaps[t]?
  let s := hs.foldl (fun s h => s.bindFrames h.frames { owner := x.id, stat := 3, cls := h.hlc }) s
  let f := x.ecs / 4096
  let s := s.bindFrames [f] { owner := x.id, stat := 7 }
  let s := s.bindFrames [f + 1] { stat := 1 }
  let s := s.bindFrames [f + 2] { owner := x.id, stat := 2, leases := 1 }
  let s := s.bindFrames (pvtFrames x.pvt x.pvtn) { owner := x.id, stat := 7 }
  let s := (s.setPot (kickFrame x.id) { owner := x.id, stat := 1 }).invalFrames [kickFrame x.id]
  (s.pinPages x).modEnc x.id fun x => { x with mctr := 1, live := true, making := none, slots := x.nstream }

/-- enc.make goes on where it stopped: a page, or the last steps. A page whose frame another creation has taken undoes it
(20 Table 20.5). -/
def State.makeStep (s : State) (d : BitVec 5) (x : Enclave) (m : Making) : State :=
  if m.pages < m.ninit then
    let a := m.init + 16 * m.pages
    if !s.hypBytes a 16 ∨ !s.initOk x.part a then (s.undoMake x).hartAwait d 0 1
    else if !s.makeFrame (s.initFrame a) ∨ !s.inMem x.part (s.initFrame a) then (s.undoMake x).hartAwait d 0 2
    else s.makePage x m
  else if !s.makeRest x then (s.undoMake x).hartAwait d 0 2
  else (s.makeEnd x).hartAwait d x.id 0

/-- The first steps of enc.make (18 R337 steps 1 to 4): the enclave has an id, CREATE, keys of its own and its measurement. A
refusal after a creation was undone waits for its invalidations (10 R224). -/
def State.makeStart (s : State) (a : Nat) (d : BitVec 5) (undone : Bool) : State :=
  let refuse (st : Nat) : State := if undone then s.hartAwait d 0 st else s.hartDone d 0 st
  if a % 512 ≠ 0 ∨ !s.hypBytes a 512 ∨ !s.descOk a then refuse 1
  else if !s.descFrames a then refuse 2
  else match s.freeEnc with
    | some id => { s with
        encs := smPut s.encs id (s.newEnclave a id), creation := s.creation + 1, fresh := s.fresh + 1
        keys := smPut s.keys id ⟨Config.freshXts s.fresh, Config.freshInteg s.fresh⟩ }
    | none => refuse 4

/-- enc.make (20 R365). Each step or page is one step of the hart, whose pc moves on with the last. -/
def execEncMake (r d : BitVec 5) (s : State) : Out :=
  s.custom0 fun s =>
    let a := (s.me.getX r).toNat
    .next (match s.makingOf s.hartAt false with
      | some x =>
        match x.making with
        | some m => if x.descAt = a then s.makeStep d x m else (s.undoMake x).makeStart a d true
        | none => s
      | none => s.makeStart a d false)

/-! ### enc.kill (20 R366) -/

/-- The first step of enc.kill: kicks and launches are ignored, harts leave and windows close. -/
def State.killStart (s : State) (e : Nat) : State :=
  let s := (s.hartsLeave e).modEnc e fun x => { x with
    live := false, halted := true, kicks := [], kickHeld := []
    making := some { kill := true, hart := s.hartAt, pages := 0, init := 0, ninit := 0 } }
  { s with fwins := s.fwins.map fun w => if w.enc = e && w.stat = .opened then { w with stat := .closing } else w }

/-- enc.kill (20 R366), in two steps of the hart. A kill that the hart left for another one is finished first (log 24). -/
def execEncKill (r d : BitVec 5) (s : State) : Out :=
  s.custom0 fun s =>
    let e := (s.me.getX r).toNat
    .next (match s.makingOf s.hartAt true with
      | some x => if x.id = e then (s.endEnclave e).hartAwait d 0 0 else s.endEnclave x.id
      | none => if (s.encl e).live then s.killStart e else s.hartDone d 0 4)

/-- The destination of the enc.make or enc.kill in progress that a hart is executing: its next word is that instruction, on the
descriptor or the enclave which it has begun. -/
def State.makingHere (s : State) (h : Nat) : Option (BitVec 5) :=
  let x := s.hart h
  if x.await.isSome ∨ x.inside.isSome then none
  else match ({ s with hartAt := h } : State).hartFetch.toOption.bind (decode .xlm) with
    | some (.encMake r d) =>
      if ((s.makingOf h false).map fun e => decide (e.descAt = (x.getX r).toNat)).getD false then some d else none
    | some (.encKill r d) =>
      if ((s.makingOf h true).map fun e => decide (e.id = (x.getX r).toNat)).getD false then some d else none
    | _ => none

/-- PENDING_INTERRUPT: an enc.make or enc.kill in progress on a hart stops with RESTART (20 R365, R366), once the invalidations it has
posted are acknowledged (10 R224). -/
def execPendingInterrupt (h : Nat) (s : State) : Out :=
  .next (match s.makingHere h with
    | some d => s.modHart h fun x =>
        if s.invalIdle then x.done d (hartStatus 0 10) else { x with await := some (d.toNat, hartStatus 0 10) }
    | none => s)

/-! ### Enclave threads (20 R367, R368) -/

/-- The object id of a hart's context (18 Table 18.4). -/
def hartObj (h : Nat) : Nat := rowObj 0 0 2 0 h

/-- A hart inside an enclave from its start: at an address in S-mode, every register zero except a0. -/
def Hart.fresh (h : Hart) (e n : Nat) (entry : Word) : Hart :=
  { h with
    pc := entry, x := smSet 0 [] 10 (BitVec.ofNat 64 n), f := [], fcsr := 0, vcfg := [], v := [], csr := [], mode := .hs
    inside := some e }

/-- The state that enc.enter keeps, with the pc after it. -/
def Hart.kept (h : Hart) (d : BitVec 5) : List Word := { h with pc := h.pc + 4 }.saved d.toNat

/-- enc.enter (20 R367): resumes the hart's sealed context, or starts afresh. -/
def execEncEnter (r2 r1 d : BitVec 5) (s : State) : Out :=
  s.custom0 fun s =>
    let n := s.hartAt
    let e := (s.me.getX r1).toNat
    let x := s.encl e
    .next (if !x.live then s.hartDone d 0 4
      else if !bitAt x.harts.toNat n then s.hartDone d 0 13
      else match s.pvtFind e kindCtx (hartObj n) with
        | some _ =>
          match s.openFromSave e kindCtx (hartObj n) 4096 with
          | .ok (body, s) =>
            s.modHart n fun h => { h.load (bytesDwords 512 body) with hs := some (h.kept d), inside := some e }
          | .error _ => (s.endTampered e).hartAwait d 0 12
        | none => s.modHart n fun h => { h.fresh e n (h.getX r2) with hs := some (h.kept d) })

/-- enc.exit (20 R368). -/
def execEncExit (r : BitVec 5) (s : State) : Out :=
  s.custom1 fun _ s => .next (s.modHart s.hartAt fun h => h.leave (hartStatus ((h.getX r).toNat % 2 ^ 56) 0))

/-- ENCLAVE_THREAD_INTERRUPT: the context is sealed and the thread leaves with PREEMPTED; without room the enclave ends. A store that
a full kick register held is not performed: the thread runs it again when it resumes (18 R341).
The interrupt is then taken outside, in M-mode or in HS-mode, after the enc.enter (20 R368). -/
def execEnclaveThreadInterrupt (h cause : Nat) (toM : Bool) (s : State) : Out :=
  .next (match (s.hart h).inside with
    | none => s
    | some e =>
      let s := match s.sealToSave e kindCtx (hartObj h) (dwordBytes (s.hart h).body) with
        | some s => (s.modHart h (·.leave 11)).modEnc e fun x => { x with kickHeld := x.kickHeld.filter fun k => k.1 ≠ h }
        | none => s.endEnclave e
      s.modHart h (·.trapTo (if toM then .m else .hs) (BitVec.ofNat 64 (2 ^ 63 + cause)) 0))

/-! ### Pages across the boundary, and reports (20 R369, R370) -/

/-- A page of the enclave that the hart is inside, and a hypervisor page; both 4 KiB aligned and admitted. -/
def State.pagePair (s : State) (e va pa : Nat) (k : Acc) : Option Nat :=
  if va % 4096 ≠ 0 ∨ pa % 4096 ≠ 0 ∨ !s.hypFrame (pa / 4096) then none
  else match s.hartXlat e s.me va k with
    | .ok f => some f
    | .error _ => none

/-- enc.out (20 R369). -/
def execEncOut (r2 r1 d : BitVec 5) (s : State) : Out :=
  s.custom1 fun e s =>
    let pa := (s.me.getX r2).toNat
    .next (match s.pagePair e (s.me.getX r1).toNat pa .load with
      | none => s.hartDone d 0 1
      | some a =>
        s.hartReads e (s.me.getX r1).toNat a 4096 fun s =>
          ((s.hartStore 0xFF pa (s.hartRead (s.encl e).part a 4096)).hartPin e (s.me.getX r1).toNat a).hartDone d 0 0)

/-- enc.in (20 R369). -/
def execEncIn (r2 r1 d : BitVec 5) (s : State) : Out :=
  s.custom1 fun e s =>
    let pa := (s.me.getX r2).toNat
    .next (match s.pagePair e (s.me.getX r1).toNat pa .store with
      | none => s.hartDone d 0 1
      | some a =>
        let s := s.hartLoads 0xFF pa 4096
        ((s.hartStore (s.encl e).part a (s.coherent 0xFF pa 4096)).hartPin e (s.me.getX r1).toNat a).hartDone d 0 0)

/-- FWMEAS: SHA-384 over the firmware measurement blocks in index order. -/
def firmwareMeas : BitVec 384 :=
  Config.sha384 ((List.range 5).flatMap fun i => leBytes 48 (Config.firmwareMeasurement (i + 1)).toNat)

/-- The part of a report that both signatures cover (20 Table 20.3). -/
def State.reportHead (s : State) (e : Nat) (data : List Byte) : List Byte :=
  let x := s.encl e
  leBytes 8 0x5245504F52545639 ++ leBytes 8 (2 ^ 32 + x.part * 2 ^ 24 + e) ++ leBytes 8 x.create.toNat ++ leBytes 8 s.pkgid ++
    leBytes 48 x.meas.toNat ++ leBytes 48 firmwareMeas.toNat ++ data

/-- An attestation report of 3,584 bytes. -/
def State.reportBytes (s : State) (e : Nat) (data : List Byte) : List Byte :=
  let h := s.reportHead e data
  h ++ signatures h ++ List.replicate 19 0

/-- enc.rep (20 R370). -/
def execEncRep (r2 r1 d : BitVec 5) (s : State) : Out :=
  s.custom1 fun e s =>
    let a := (s.me.getX r1).toNat
    let b := (s.me.getX r2).toNat
    .next (if a % 4096 ≠ 0 ∨ b % 4096 ≠ 0 then s.hartDone d 0 1
      else match s.hartXlat e s.me a .load, s.hartXlat e s.me b .store with
        | .ok p, .ok q =>
          s.hartReads e a p 64 fun s =>
            (((s.hartStore (s.encl e).part q (s.reportBytes e (s.hartRead (s.encl e).part p 64))).hartPin e a p).hartPin e b q).hartDone d 0 0
        | _, _ => s.hartDone d 0 1)

/-! ### Paging (18 R345, R346; 20 R371, R372) -/

/-- The leaf of a page in an enclave's tables, U set or clear. -/
def State.pageLeaf (s : State) (e va : Nat) : Option Leaf :=
  if 2 ^ 57 ≤ va then none else s.walkFrom (s.encl e).part va false 5 (s.encl e).root

/-- Whether 10 R231 refuses a pg.out against an interface. -/
def State.guaranteed (s : State) (vi : Nat) : Bool :=
  s.res vi ≤ (s.acct vi).guar &&
    (List.range 256).any fun u => u ≠ vi && (s.acct u).guar < s.res u && 0 < s.evictable u

/-- A frame's lines are written back from every lantern instance and leave; the owner's near lines of it leave. -/
def State.flushFrame (s : State) (e f : Nat) : State :=
  let s := (s.lines.filter fun l => l.line / 4096 = f).foldl (fun s l => (s.writeBack l).dropLine l) s
  { s with cores := smMap {} (fun _ c => c.nearDrop fun l => l.owner = e && l.line / 64 = f) s.cores }

/-- The steps of 18 R345. -/
def State.pageOut (s : State) (e va f buf i : Nat) (d : BitVec 5) : State :=
  let obj := va / 4096
  let s := s.flushFrame e f
  let r := s.sealImage e kindPage obj (s.memBytes (f * 4096) 4096)
  let s := (r.2.2.hartStore 0xFF buf r.1).pvtWrite e i (2 ^ 63 + kindPage) obj r.2.1 0
  let p := s.potOf f
  let s := (s.zeroFrames [f]).setPot f { p with stat := 4, leases := 0 }
  (s.postInval (.frames f 1)).hartAwait d r.2.1 0

/-- The refusals of pg.out after its arguments, in order (20 R371). A page that has an entry keeps it, so that an object never has two
(18 R336). -/
def State.pageOutTo (s : State) (e va buf : Nat) (d : BitVec 5) : State :=
  if !(s.encl e).live then s.hartDone d 0 4
  else match s.pageLeaf e va with
    | none => s.hartDone d 0 14
    | some l =>
      let f := l.pa va / 4096
      let p := s.potOf f
      if p.owner ≠ e ∨ !inMemory (f * 4096) then s.hartDone d 0 2
      else if s.migrating f then s.hartDone d 0 3
      else if p.stat ≠ 1 ∧ p.stat ≠ 2 then s.hartDone d 0 2
      else if p.leases ≠ 0 then s.hartDone d 0 3
      else if s.guaranteed (s.viOf e) then s.hartDone d 0 5
      else match (s.pvtFind e kindPage (va / 4096)).or (s.pvtFree e) with
        | none => s.hartDone d 0 8
        | some i => s.pageOut e va f buf i d

/-- pg.out (20 R371). The page that holds VA goes out. -/
def execPgOut (r d : BitVec 5) (s : State) : Out :=
  s.custom0 fun s =>
    .next (match s.block (s.me.getX r).toNat with
      | some [d0, va, buf, 0, 0, 0, 0, 0] =>
        if d0 / 2 ^ 14 ≠ 0 ∨ buf % 64 ≠ 0 ∨ !s.hypBytes buf 4176 then s.hartDone d 0 1
        else (s.hartLoads 0xFF (s.me.getX r).toNat 64).pageOutTo d0 (va / 4096 * 4096) buf d
      | _ => s.hartDone d 0 1)

/-- A page no longer stands in a sealed-out frame: its residency request is answered (22 R396). -/
def State.answered (s : State) (e va : Nat) : State :=
  s.modEnc e fun x => { x with
    resident := x.resident.filter fun r => r.1 ≠ va, resHeld := x.resHeld.filter fun r => r.1 ≠ va }

/-- A frame leaves state sealed-out: the residency requests for the page that was found in it are answered (22 R396). -/
def State.answeredFrame (s : State) (f : Nat) : State :=
  let e := (s.potOf f).owner
  ((s.encl e).resident.filter fun r => r.2 = f).foldl (fun s r => s.answered e r.1) s

/-- An accepted page: its contents, its frame, its PTE, and the frame that the page stood in, which is freed where it was sealed-out
under the enclave (18 R346; 20 R372; log 51). Every frame that changes is invalidated (10 R219). -/
def State.pageIn (s : State) (e va frame cls : Nat) (l : Leaf) (body : List Byte) (d : BitVec 5) : State :=
  let x := s.encl e
  let old := l.pa va / 4096
  let freed := (s.potOf old).owner = e && (s.potOf old).stat = 4
  let s := (s.zeroFrames [frame]).memWrite ((addrs (frame * 4096) 4096).zip body)
  let s := s.setPot frame { owner := e, stat := 1, cls := cls }
  let pte := leNat (s.coherent x.part l.pte 8)
  let s := s.hubStore x.part l.pte (leBytes 8 (pte - bitsAt pte 10 44 * 2 ^ 10 + frame * 2 ^ 10))
  let s := if freed then ((s.answeredFrame old).setPot old {}).postInval (.frames old 1) else s
  let s := if x.pinsPage va then s.pinFrame e frame else s
  ((s.postInval (.range x.asid va (va + 4096))).postInval (.frames frame 1)).hartAwait d 0 0

/-- The checks of pg.in after its arguments, in order (20 R372). -/
def State.pageInFrom (s : State) (e va img frame cls : Nat) (d : BitVec 5) : State :=
  let x := s.encl e
  if !x.live then s.hartDone d 0 4
  else match s.pageLeaf e va with
    | none => s.hartDone d 0 14
    | some l =>
      if (s.potOf frame).owner ≠ 0 ∨ (s.potOf frame).stat ≠ 1 ∨ !s.inMem x.part frame then s.hartDone d 0 2
      else if (s.acct x.vi).burst < s.res x.vi + 1 then s.hartDone d 0 9
      else match s.openImage e kindPage (va / 4096) 4096 (s.coherent 0xFF img 4176) with
        | .error .stale => s.hartDone d 0 6
        | .error .tampered => s.hartDone d 0 7
        | .ok (body, s) => s.pageIn e va frame cls l body d

/-- pg.in (20 R372). -/
def execPgIn (r d : BitVec 5) (s : State) : Out :=
  s.custom0 fun s =>
    .next (match s.block (s.me.getX r).toNat with
      | some [d0, va, img, d3, 0, 0, 0, 0] =>
        if d0 / 2 ^ 14 ≠ 0 ∨ img % 64 ≠ 0 ∨ !s.hypBytes img 4176 ∨ bitsAt d3 30 2 ≠ 0 ∨ d3 / 2 ^ 38 ≠ 0 then s.hartDone d 0 1
        else ((s.hartLoads 0xFF (s.me.getX r).toNat 64).hartLoads 0xFF img 4176).pageInFrom d0 (va / 4096 * 4096) img (bitsAt d3 0 30) (bitsAt d3 32 6) d
      | _ => s.hartDone d 0 1)

/-! ### pot.xfer (20 R373) -/

/-- What KIND 0 to 5 does to one frame (20 Table 20.4): its new entry and whether it is zeroed, or the status of a refusal. -/
def State.xferFrame (s : State) (kind owner cls cg f : Nat) : Except Nat (Pot × Bool) :=
  let p := s.potOf f
  if !inMemory (f * 4096) ∨ s.withheld.contains f then .error 2
  else if s.migrating f then .error 3
  else match kind with
    | 0 => if p.stat = 0 then .ok ({ stat := 1 }, true) else .error 2
    | 1 => if s.hypFrame f then .ok ({}, true) else .error 2
    | 2 =>
      if !s.hypFrame f then .error 2
      else if !(s.encl owner).live then .error 4
      else if !s.inMem (s.encl owner).part f then .error 2
      else if (s.acct (s.viOf owner)).burst < s.res (s.viOf owner) + 1 then .error 9
      else .ok ({ owner := owner, stat := 1, cls := cls }, true)
    | 3 => if p.stat = 4 then .ok ({ stat := 1 }, false) else .error 2
    | 4 =>
      if s.hypFrame f ∧ s.parts.any (fun (q : Nat × Part) => q.2.valid && q.2.mem.contains (mmtIndex (f * 4096)))
      then .ok ({ owner := 0x3FFF, stat := 6, cls := cls, cgroup := cg }, false) else .error 2
    | _ =>
      if p.stat ≠ 6 then .error 2
      else if p.leases ≠ 0 then .error 3
      else .ok ({ stat := 1 }, true)

/-- Transfers frames in ascending order: how many, the status of the first that fails, and the state. -/
def State.xferAll (s : State) (kind owner cls cg : Nat) : Nat → Nat → Nat × Nat × State
  | _, 0 => (0, 0, s)
  | f, n + 1 =>
    match s.xferFrame kind owner cls cg f with
    | .error st => (0, st, s)
    | .ok (p, z) =>
      let s := if kind = 3 then s.answeredFrame f else s
      let r := State.xferAll ((if z then s.zeroFrames [f] else s).setPot f p) kind owner cls cg (f + 1) n
      (r.1 + 1, r.2)

/-- pot.xfer (20 R373). rd is written once the transferred range has been invalidated. -/
def execPotXfer (r d : BitVec 5) (s : State) : Out :=
  s.custom0 fun s =>
    .next (match s.block (s.me.getX r).toNat with
      | some [first, count, kind, d3, 0, 0, 0, 0] =>
        if first / 2 ^ 30 ≠ 0 ∨ count = 0 ∨ 512 < count ∨ 6 ≤ kind ∨ bitsAt d3 14 2 ≠ 0 ∨ bitsAt d3 22 2 ≠ 0 ∨ d3 / 2 ^ 30 ≠ 0 ∨
            (kind ≠ 4 ∧ bitsAt d3 24 6 ≠ 0) then s.hartDone d 0 1
        else
          let x := (s.hartLoads 0xFF (s.me.getX r).toNat 64).xferAll kind (bitsAt d3 0 14) (bitsAt d3 16 6) (bitsAt d3 24 6) first count
          if x.1 = 0 then x.2.2.hartDone d 0 x.2.1
          else (x.2.2.postInval (.frames first x.1)).hartAwait d x.1 x.2.1
      | _ => s.hartDone d 0 1)

end Sys2Proof.Machine
end

