-- ==== Sys2Proof/Machine/Auto.lean ====
section
/-! DEFINITION. What the machine does by itself (log 2): the events that happen as soon as they can, in a fixed order, the
hart that moves next, a cycle in which nothing moves, and the placing of one word to run (log 12). -/

namespace Sys2Proof.Machine

/-! ### Events that happen by themselves -/

/-- The first of some moves that changes the state. -/
def firstMove (s : State) : List (State → Out) → Option Out
  | [] => none
  | f :: fs =>
    match f s with
    | .next t => if t = s then firstMove s fs else some (.next t)
    | o => some o

/-- A move that may not exist. -/
def moveOr (f : State → Option State) : State → Out := fun s => .next ((f s).getD s)

/-- Numbers of the listed keys of a map. -/
def smKeys {α : Type} (m : SMap α) : List Nat := m.map (·.1)

/-- Walks end, requests leave the ports and the fabric egress, and stores pass the core store point. -/
def State.portMoves (s : State) : List (State → Out) :=
  (s.dies.flatMap fun (d : Nat × Die) => (List.range d.2.walks.length).map fun k => execWalkComplete d.1 k) ++
  (s.allGroups.flatMap fun g =>
    execPortRequestDepart (.store g.gid) :: (List.range g.reqs.length).map fun k => execPortRequestDepart (.load g.gid k)) ++
  (s.cores.flatMap fun (c : Nat × Core) => (List.range c.2.copies.length).map fun k => execPortRequestDepart (.copy c.1 k)) ++
  [moveOr State.egressStep] ++
  s.allGroups.map fun g => execCoreStorePointPass g.gid

/-- Requests reach their ordering points, atomics execute, and results return. -/
def State.memoryMoves (s : State) : List (State → Out) :=
  (s.bufs.flatMap fun (b : Nat × List BufEnt) => (List.range b.2.length).map fun k => execOrderingPointArrival (.store b.1 k)) ++
  (s.allGroups.flatMap fun g => (List.range g.reqs.length).flatMap fun k =>
    [execOrderingPointArrival (.load g.gid k), execOrderGateRelease g.gid k, execOrderGateTimeout g.gid k, execAtomicExecute [(g.gid, k)],
     execFarLoadReturn g.gid k, execAtomicReturn g.gid k]) ++
  (s.allGroups.flatMap fun g =>
    execWindowLoadReturn g.gid :: (List.range g.winStores.length).map fun k => execWindowStorePerformed g.gid k) ++
  (s.allGroups.flatMap fun g => (List.range g.lnOps.length).map fun k => execWriteBackArrival g.gid k) ++
  s.dies.flatMap fun (d : Nat × Die) => (List.range d.2.svt.length).map fun k => execSvtWidening d.1 k

/-- Copies and tile operations go on, cursors move, invalidations are acknowledged and tokens come. -/
def State.unitMoves (s : State) : List (State → Out) :=
  (s.cores.flatMap fun (c : Nat × Core) =>
    ((List.range c.2.copies.length).flatMap fun k => [execCopyElementFault c.1 k, execCopyComplete c.1 k]) ++
    (if c.2.tileq.isEmpty then [] else [execTileOpStart c.1, execTileOpRetire c.1 []])) ++
  (s.classes.flatMap fun (c : Nat × ClassDef) => (List.range 4).flatMap fun d =>
    [execResizeCursorStep (c.1 / 64) (c.1 % 64) d, execFlushCursorStep (c.1 / 64) (c.1 % 64) d]) ++
  (List.range 4).map execDtuAcknowledge ++
  (smKeys s.cores).map execTokenRefill ++ [execFabricTokenRefill] ++
  s.harts.filterMap fun (h : Nat × Hart) =>
    if h.2.await.isSome then some (moveOr fun s => if s.invalIdle then some (s.hartResume h.1) else none) else none

/-- Waits end, paths join, groups, teams and tasks end. -/
def State.groupMoves (s : State) : List (State → Out) :=
  (s.allGroups.map fun g => execParkWake g.gid) ++
  ((s.groups.filter fun g => g.2.stat ≠ .bound).map fun (g : Nat × Group) =>
    moveOr fun s => g.2.joinDue.map fun w => s.joinDone g.2 w) ++
  (s.allGroups.map fun g => execGroupEnded g.gid) ++
  ((smKeys s.teams).map execTeamPublish) ++
  (smKeys s.tasks).flatMap fun t => [execTaskEnd t, execFaultRecord t]

/-- Chandler's stages, the last first (05 Table 5.6). -/
def State.chandlerMoves (s : State) : List (State → Out) :=
  ((uniq (s.encs.map fun (e : Nat × Enclave) => e.2.part)).map execPlacementAttempt) ++
  ((smKeys s.tasks).map execEdgeLineAction) ++ ((smKeys s.tasks).map execLeaseWalk) ++
  ((smKeys s.tasks).map execLeasePendingTimeout) ++
  ((smKeys s.tasks).map execArbitrateRelease) ++ ((smKeys s.tasks).map execDependRelease) ++
  ((List.range 4).map execAdmissionOpportunity) ++
  s.encs.flatMap fun (e : Nat × Enclave) => (uniq (e.2.kickHeld.map fun k => k.2.1)).map fun q => execKickStoreAccept e.1 q

/-- Collectives and windows end, and packets leave the trace units. -/
def State.fabricMoves (s : State) : List (State → Out) :=
  [fun s => (s.collStep).getD (.next s)] ++
  (s.encs.flatMap fun (e : Nat × Enclave) => (smKeys e.2.streams).map fun k => execStreamBindingTimeout e.1 k) ++
  (s.fwins.map fun w => moveOr fun s => s.closeStep w) ++ (s.fwins.map fun w => execTcntIncrement w.wid) ++
  s.cores.flatMap fun (c : Nat × Core) => [moveOr fun s => s.packetOut c.1, execTraceLost c.1]

/-- The next event that happens by itself, if one is pending. -/
def State.autoStep (s : State) : Option Out :=
  firstMove s (s.portMoves ++ s.memoryMoves ++ s.unitMoves ++ s.groupMoves ++ s.chandlerMoves ++ s.fabricMoves)

/-- A cycle in which nothing moves: every clock advances, and both slots of every core count it (00 R4; 21 R378). -/
def State.tick (s : State) : State :=
  let s := (List.range 512).foldl (fun s c =>
    ((s.modCore c fun k => { k with cyc := k.cyc + 1 }).slotPass c 0 1).slotPass c 1 1) s
  let s := (List.range 4).foldl (fun s d => s.modDie d fun k => { k with cyc := s.dieClock d + 1 }) s
  ({ s with hubCyc := s.hubClock + 1, fabCyc := s.fabClock + 1, sconceCyc := s.sconceClock + 1 } : State).egressWait

/-! ### Harts -/

/-- Whether a hart can move: it is released, awaits nothing, no store of its own is held at a kick register, and its next word is
of Xlmenc, is an ecall inside an enclave, or cannot be fetched. What its other words do is outside the model (log 9). -/
def State.hartDue (s : State) (h : Nat) : Bool :=
  (s.hart h).released && (s.hart h).await.isNone && !s.kickWaits h &&
  match ({ s with hartAt := h } : State).hartFetch with
  | .ok w => isXlmenc w || (isEcall w && (s.hart h).inside.isSome)
  | .error _ => true

/-- The hart that moves next, in rising order after the last one. -/
def State.nextHart (s : State) : Option Nat :=
  let hs := (smKeys s.harts).filter s.hartDue
  match hs.find? fun h => s.hartAt < h with
  | some h => some h
  | none => hs.head?

/-! ### Placing a word (log 12) -/

/-- A header for one word of a class, without waits and without END (01 Table 1.4). -/
def oneWordHeader (c : Cls) : W32 :=
  let k := match c with | .sv => 0 | .mem => 1 | .sync => 2 | .eng => 3 | .fab => 4 | _ => 5
  BitVec.ofNat 32 (0xA007FF80 + k * 16 + 1)

/-- The group that placeWord makes resident: alone in its team on core 0, all lanes active, its clause at 0x10000 in
a heap of 2 MiB at virtual and physical address 0. -/
def placedGroup (g : Group) : Group :=
  { g with
    gid := 1, team := 1, enc := 1, stat := .bound, poolw := 0x00001008#32
    sfix := [(48, 0), (56, 0x0000000001000000#64), (57, 0x0000000000000101#64)].filter fun x => x.2 ≠ 0
    t := { pc := 0x10000, mask := BitVec.allOnes 96, stat := .live }
    wsb := 0x800000, wsl := 0x800000, wsp := 0x800000, hl := 0x200000 }

/-- Places a word where the next step fetches its instruction. -/
def State.placeWord (s : State) (c : Cls) (w : W32) : State :=
  if c = .xlm then
    ({ s with hartAt := 0, focus := .hart, mem := memPutAll s.mem ((addrs 0x10000 4).zip (leBytes 4 w.toNat)) }).modHart 0
      fun h => { h with pc := 0x10000 }
  else
    let code := leBytes 4 (oneWordHeader c).toNat ++ leBytes 4 w.toNat
    let task : Task :=
      { id := 1, enc := 1, queue := 0, grid := 1, depth := 0, parent := none, recAt := 0, rcd := [], stage := .running
        lease := .held, attempts := 0, waitFrom := 0, pendFrom := 0, frames := [], producers := [], admitted := 0, arbitrated := 0, arbCyc := 0
        forward := none, fixed := [], edgeAt := none, placed := 1, published := 0, retired := false, fault := none, supp := 0, ended := false
        reported := false, replay := 0, ranOn := 1 }
    let team : Team :=
      { id := 1, task := 1, index := 0, stat := .resident, cores := [0], rows := [List.range 24], lost := [], stagingLost := []
        gids := [1], bars := [], e := 0, plq := [], haltedAt := 0 }
    { s with
      mem := memPutAll s.mem ((addrs 0x10000 8).zip code)
      pot := smPut s.pot 16 { stat := 3, owner := 1 }
      parts := smPut s.parts 0 { s.part 0 with valid := true, clusters := 1 }
      vis := smPut s.vis 0 { valid := true, part := 0, share := 65536 }
      encs := smPut s.encs 1 { s.encl 1 with
        id := 1, live := true, heaps := [⟨0, 0x200000, 0, 0⟩], queues := [(0, 0)], create := 1, mctr := 1 }
      tasks := smPut s.tasks 1 task
      teams := smPut s.teams 1 team
      cores := smPut s.cores 0 { s.core 0 with
        rows := (List.range 24).map fun i => (i, { stat := .live, owner := 1, team := 1, ix := i })
        buckets := [⟨0, false, 0, 0, 1⟩], near := [⟨0x400, 1, code ++ List.replicate 56 0⟩], slot0 := { bound := some 1, last := some 1 } }
      g := placedGroup {}
      focus := .slot 0 0 }

end Sys2Proof.Machine
end

