-- ==== Sys2Proof/Machine/Scalar.lean ====
section
/-! DEFINITION. The scalar instructions' results (spec 04): integer, immediate, compare and floating point. -/

namespace Sys2Proof.Machine

/-- A scalar word that writes one result and takes `n` slot cycles (04 R87, R108). -/
def scalarOut (n : Nat) (d : Reg) (v : Word) (s : State) : Out := .next ((s.setS d v).retire n)

/-- A scalar floating-point word: its flags go to FPF, its result to the low bits of d (03 R77; 04 R87). -/
def scalarFp (n : Nat) (d : Reg) (r : FRes) (s : State) : Out :=
  .next (((s.modG (·.orFpf r.fl)).setS d (BitVec.ofNat 64 r.bits)).retire n)

/-- An operand as a number. -/
def State.n (s : State) (r : Reg) : Nat := (s.g.sr r).toNat

/-- s.add (04 R89). -/
def execSAdd (d a b : Reg) (s : State) : Out := scalarOut 1 d (s.g.sr a + s.g.sr b) s
/-- s.sub (04 R89). -/
def execSSub (d a b : Reg) (s : State) : Out := scalarOut 1 d (s.g.sr a - s.g.sr b) s
/-- s.and (04 R89). -/
def execSAnd (d a b : Reg) (s : State) : Out := scalarOut 1 d (s.g.sr a &&& s.g.sr b) s
/-- s.or (04 R89). -/
def execSOr (d a b : Reg) (s : State) : Out := scalarOut 1 d (s.g.sr a ||| s.g.sr b) s
/-- s.xor (04 R89). -/
def execSXor (d a b : Reg) (s : State) : Out := scalarOut 1 d (s.g.sr a ^^^ s.g.sr b) s
/-- s.andn: a AND NOT b (04 R89). -/
def execSAndn (d a b : Reg) (s : State) : Out := scalarOut 1 d (s.g.sr a &&& ~~~(s.g.sr b)) s
/-- s.shl by b[5:0] (04 R89). -/
def execSShl (d a b : Reg) (s : State) : Out := scalarOut 1 d (s.g.sr a <<< shAmt (s.g.sr b)) s
/-- s.shr by b[5:0] (04 R89). -/
def execSShr (d a b : Reg) (s : State) : Out := scalarOut 1 d (s.g.sr a >>> shAmt (s.g.sr b)) s
/-- s.sra by b[5:0] (04 R89). -/
def execSSra (d a b : Reg) (s : State) : Out := scalarOut 1 d ((s.g.sr a).sshiftRight (shAmt (s.g.sr b))) s
/-- s.rot left by b[5:0] (04 R89). -/
def execSRot (d a b : Reg) (s : State) : Out := scalarOut 1 d (rotl (s.g.sr a) (shAmt (s.g.sr b))) s
/-- s.min as i64 (04 R89). -/
def execSMin (d a b : Reg) (s : State) : Out := scalarOut 1 d (if (s.g.sr a).toInt ≤ (s.g.sr b).toInt then s.g.sr a else s.g.sr b) s
/-- s.max as i64 (04 R89). -/
def execSMax (d a b : Reg) (s : State) : Out := scalarOut 1 d (if (s.g.sr b).toInt ≤ (s.g.sr a).toInt then s.g.sr a else s.g.sr b) s
/-- s.minn as n64 (04 R89). -/
def execSMinn (d a b : Reg) (s : State) : Out := scalarOut 1 d (if (s.g.sr a).toNat ≤ (s.g.sr b).toNat then s.g.sr a else s.g.sr b) s
/-- s.maxn as n64 (04 R89). -/
def execSMaxn (d a b : Reg) (s : State) : Out := scalarOut 1 d (if (s.g.sr b).toNat ≤ (s.g.sr a).toNat then s.g.sr a else s.g.sr b) s
/-- s.mov (04 R89). -/
def execSMov (d a : Reg) (s : State) : Out := scalarOut 1 d (s.g.sr a) s
/-- s.mul (04 R89). -/
def execSMul (d a b : Reg) (s : State) : Out := scalarOut 2 d (s.g.sr a * s.g.sr b) s
/-- s.mulh: bits 127:64 of the signed product (04 R89). -/
def execSMulh (d a b : Reg) (s : State) : Out := scalarOut 2 d (BitVec.ofInt 64 ((s.g.sr a).toInt * (s.g.sr b).toInt / 2 ^ 64)) s
/-- s.mulhn: bits 127:64 of the natural product (04 R89). -/
def execSMulhn (d a b : Reg) (s : State) : Out := scalarOut 2 d (BitVec.ofNat 64 ((s.g.sr a).toNat * (s.g.sr b).toNat / 2 ^ 64)) s
/-- s.div (04 R90). -/
def execSDiv (d a b : Reg) (s : State) : Out := scalarOut 18 d ((divS (s.g.sr a) (s.g.sr b)).1) s
/-- s.divn (04 R90). -/
def execSDivn (d a b : Reg) (s : State) : Out := scalarOut 18 d ((divU (s.g.sr a) (s.g.sr b)).1) s
/-- s.rem (04 R90). -/
def execSRem (d a b : Reg) (s : State) : Out := scalarOut 18 d ((divS (s.g.sr a) (s.g.sr b)).2) s
/-- s.remn (04 R90). -/
def execSRemn (d a b : Reg) (s : State) : Out := scalarOut 18 d ((divU (s.g.sr a) (s.g.sr b)).2) s
/-- s.clz (04 R89). -/
def execSClz (d a : Reg) (s : State) : Out := scalarOut 1 d (BitVec.ofNat 64 (clz64 (s.g.sr a))) s
/-- s.ctz (04 R89). -/
def execSCtz (d a : Reg) (s : State) : Out := scalarOut 1 d (BitVec.ofNat 64 (ctz64 (s.g.sr a))) s
/-- s.pop (04 R89). -/
def execSPop (d a : Reg) (s : State) : Out := scalarOut 1 d (BitVec.ofNat 64 (popBits (s.g.sr a).toNat 64)) s
/-- s.bext (04 R91). -/
def execSBext (d a b : Reg) (s : State) : Out := scalarOut 1 d (bext (s.g.sr a) (s.g.sr b)) s
/-- s.bins reads d as well (04 R91). -/
def execSBins (d a b : Reg) (s : State) : Out := scalarOut 1 d (bins (s.g.sr d) (s.g.sr a) (s.g.sr b)) s
/-- s.cmp (04 R96). -/
def execSCmp (d a b : Reg) (c : BitVec 3) (s : State) : Out :=
  scalarOut 1 d (b2w (condHolds (Cond.ofCode c) (s.g.sr a) (s.g.sr b))) s
/-- s.sel: a where c is not zero, else b (04 R97). -/
def execSSel (d a b c : Reg) (s : State) : Out := scalarOut 1 d (if s.g.sr c ≠ 0 then s.g.sr a else s.g.sr b) s
/-- s.lea (04 R92). -/
def execSLea (d a b : Reg) (h : BitVec 3) (s : State) : Out := scalarOut 1 d (s.g.sr a + s.g.sr b <<< h.toNat) s
/-- s.addi (04 R93). -/
def execSAddi (d a : Reg) (i : BitVec 13) (s : State) : Out := scalarOut 1 d (s.g.sr a + simm i) s
/-- s.andi (04 R93). -/
def execSAndi (d a : Reg) (i : BitVec 13) (s : State) : Out := scalarOut 1 d (s.g.sr a &&& simm i) s
/-- s.ori (04 R93). -/
def execSOri (d a : Reg) (i : BitVec 13) (s : State) : Out := scalarOut 1 d (s.g.sr a ||| simm i) s
/-- s.xori (04 R93). -/
def execSXori (d a : Reg) (i : BitVec 13) (s : State) : Out := scalarOut 1 d (s.g.sr a ^^^ simm i) s
/-- s.shli (04 R93). -/
def execSShli (d a i : Reg) (s : State) : Out := scalarOut 1 d (s.g.sr a <<< i.toNat) s
/-- s.shri (04 R93). -/
def execSShri (d a i : Reg) (s : State) : Out := scalarOut 1 d (s.g.sr a >>> i.toNat) s
/-- s.srai (04 R93). -/
def execSSrai (d a i : Reg) (s : State) : Out := scalarOut 1 d ((s.g.sr a).sshiftRight i.toNat) s
/-- s.cmpi (04 R96). -/
def execSCmpi (c : BitVec 3) (d a : Reg) (i : BitVec 13) (s : State) : Out :=
  scalarOut 1 d (b2w (condHolds (Cond.ofCode c) (s.g.sr a) (simm i))) s
/-- s.li (04 R94). -/
def execSLi (d : Reg) (i : BitVec 19) (s : State) : Out := scalarOut 1 d (simm i) s
/-- s.lim: d × 2^19 + imm, the immediate zero-extended (04 R94). -/
def execSLim (d : Reg) (i : BitVec 19) (s : State) : Out := scalarOut 1 d (s.g.sr d <<< 19 + i.setWidth 64) s
/-- nop (04 R95). -/
def execNop (s : State) : Out := .next (s.retire 1)

/-- s.fadd (04 R98). -/
def execSFadd (d a b : Reg) (r : BitVec 2) (f : BitVec 1) (s : State) : Out :=
  scalarFp (fCycles f 2 3) d (fpAdd (fTy f) (Rm.ofCode r) false false (s.n a) (s.n b)) s
/-- s.fsub (04 R98). -/
def execSFsub (d a b : Reg) (r : BitVec 2) (f : BitVec 1) (s : State) : Out :=
  scalarFp (fCycles f 2 3) d (fpSub (fTy f) (Rm.ofCode r) false false (s.n a) (s.n b)) s
/-- s.fmul (04 R98). -/
def execSFmul (d a b : Reg) (r : BitVec 2) (f : BitVec 1) (s : State) : Out :=
  scalarFp (fCycles f 2 3) d (fpMul (fTy f) (Rm.ofCode r) false false (s.n a) (s.n b)) s
/-- s.fdiv (04 R98). -/
def execSFdiv (d a b : Reg) (r : BitVec 2) (f : BitVec 1) (s : State) : Out :=
  scalarFp (fCycles f 10 18) d (fpDiv (fTy f) (Rm.ofCode r) false (s.n a) (s.n b)) s
/-- s.fsqrt (04 R98). -/
def execSFsqrt (d a : Reg) (r : BitVec 2) (f : BitVec 1) (s : State) : Out :=
  scalarFp (fCycles f 10 18) d (fpSqrt (fTy f) (Rm.ofCode r) false (s.n a)) s
/-- s.fmin (04 R98). -/
def execSFmin (d a b : Reg) (f : BitVec 1) (s : State) : Out :=
  scalarFp (fCycles f 2 3) d (fpMin (fTy f) (s.n a) (s.n b)) s
/-- s.fmax (04 R98). -/
def execSFmax (d a b : Reg) (f : BitVec 1) (s : State) : Out :=
  scalarFp (fCycles f 2 3) d (fpMaxOp (fTy f) (s.n a) (s.n b)) s
/-- s.fclass (04 R99). -/
def execSFclass (d a : Reg) (f : BitVec 1) (s : State) : Out :=
  scalarOut (fCycles f 2 3) d (BitVec.ofNat 64 (fpClass (fTy f) (s.n a))) s
/-- s.fcmp (04 R100): a condition code of 4 to 7 is no instruction. -/
def execSFcmp (d a b : Reg) (c : BitVec 3) (f : BitVec 1) (s : State) : Out :=
  let r := fpCmp (fTy f) c.toNat (s.n a) (s.n b)
  scalarFp (fCycles f 2 3) d ⟨b2n r.1, r.2⟩ s
/-- s.fcvt from type code t to type code u (04 R101). -/
def execSFcvt (d a : Reg) (t u : BitVec 3) (r : BitVec 2) (n : BitVec 1) (s : State) : Out :=
  scalarFp (cvtCycles t u) d (scalarCvt (CvTy.ofCode t) (CvTy.ofCode u) (Rm.ofCode r) (n = 1#1) (s.n a)) s
/-- s.fma (04 R102). -/
def execSFma (f : BitVec 1) (r : BitVec 2) (d a b c : Reg) (n : BitVec 1) (s : State) : Out :=
  scalarFp (fCycles f 2 3) d (fpFma (fTy f) (Rm.ofCode r) false (n = 1#1) (s.n a) (s.n b) (s.n c)) s

end Sys2Proof.Machine
end

