-- ==== Sys2Proof/Machine/Spdm.lean ====
section
/-! DEFINITION. The SPDM 1.3 responder of the Sconce and the recovery mailbox (18 R340; 25 R407; 27 R433). The bytes of a
response are uninterpreted; what it carries of the machine, and both signatures, are not (log 8). -/

namespace Sys2Proof.Machine

/-- Kinds of SPDM responses in the outbox. -/
inductive SpdmKind where
  | version | capabilities | algorithms | digests | certificate | challengeAuth | measurements | keyExchangeRsp | finishRsp | error
  deriving DecidableEq, Repr

/-- The number of a kind. -/
def SpdmKind.num : SpdmKind → Nat
  | .version => 0 | .capabilities => 1 | .algorithms => 2 | .digests => 3 | .certificate => 4 | .challengeAuth => 5
  | .measurements => 6 | .keyExchangeRsp => 7 | .finishRsp => 8 | .error => 0x7F

/-- The negotiation that a mailbox has reached; each interface has a mailbox of its own (19 R354). -/
def State.spdmOf (s : State) (box : Nat) : Spdm := smGet {} s.spdm box
/-- A mailbox's negotiation changes. -/
def State.setSpdm (s : State) (box : Nat) (x : Spdm) : State := { s with spdm := smSet {} s.spdm box x }

/-- Sends a response and extends the transcript by the request and by it. -/
def State.spdmSend (s : State) (box : Nat) (k : SpdmKind) (req body : List Byte) : State :=
  let x := s.spdmOf box
  ({ s with outbox := s.outbox ++ [.spdm box k.num body] } : State).setSpdm box { x with transcript := x.transcript ++ req ++ body }

/-- An error response; nothing else changes (log 25). -/
def State.spdmError (s : State) (box : Nat) : State := { s with outbox := s.outbox ++ [.spdm box SpdmKind.error.num []] }

/-- A plain response: its content is a function of its kind, of the request and of what it reports. -/
def State.spdmPlain (s : State) (box : Nat) (k : SpdmKind) (req data : List Byte) : State :=
  s.spdmSend box k req (Config.spdmBody k.num (req ++ data) ++ data)

/-- A signed response: the Ed25519 signature in its signature field and the ML-DSA-65 signature over the same transcript
hash in its OpaqueData (18 R340). -/
def State.spdmSigned (s : State) (box : Nat) (k : SpdmKind) (req data : List Byte) : State :=
  let body := Config.spdmBody k.num (req ++ data) ++ data
  let hash := leBytes 48 (Config.sha384 ((s.spdmOf box).transcript ++ req ++ body)).toNat
  s.spdmSend box k req (body ++ signatures hash)

/-- Whether the negotiation has run through. -/
def Spdm.ready (x : Spdm) : Bool := x.version && x.caps && x.algs

/-- GET_VERSION starts a negotiation afresh; a package that a failed boot step stopped still answers it (27 R433). -/
def execGetVersion (box : Nat) (req : List Byte) (s : State) : Out :=
  .next ((s.setSpdm box { version := true, sessions := (s.spdmOf box).sessions }).spdmPlain box .version req [])

/-- GET_CAPABILITIES. -/
def execGetCapabilities (box : Nat) (req : List Byte) (s : State) : Out :=
  let x := s.spdmOf box
  .next (if !s.running then s
    else if !x.version ∨ x.caps then s.spdmError box
    else (s.setSpdm box { x with caps := true }).spdmPlain box .capabilities req [])

/-- NEGOTIATE_ALGORITHMS: SHA-384 and Ed25519. -/
def execNegotiateAlgorithms (box : Nat) (req : List Byte) (s : State) : Out :=
  let x := s.spdmOf box
  .next (if !s.running then s
    else if !x.caps ∨ x.algs then s.spdmError box
    else (s.setSpdm box { x with algs := true }).spdmPlain box .algorithms req [])

/-- A request that the negotiation must come before. -/
def State.spdmAfter (s : State) (box : Nat) (k : State → State) : Out :=
  .next (if !s.running then s else if !(s.spdmOf box).ready then s.spdmError box else k s)

/-- GET_DIGESTS. -/
def execGetDigests (box : Nat) (req : List Byte) (s : State) : Out := s.spdmAfter box fun s => s.spdmPlain box .digests req []
/-- GET_CERTIFICATE. -/
def execGetCertificate (box : Nat) (req : List Byte) (s : State) : Out := s.spdmAfter box fun s => s.spdmPlain box .certificate req []
/-- CHALLENGE: a signed response. -/
def execChallenge (box : Nat) (req : List Byte) (s : State) : Out := s.spdmAfter box fun s => s.spdmSigned box .challengeAuth req []

/-- Whether a mailbox answers for an enclave: an interface's mailbox is that of its own enclaves (19 R354). -/
def State.boxSees (s : State) (box enc : Nat) : Bool := box = 0 || 256 < box || s.viOf enc + 1 = box

/-- The measurement that an index names: firmware image 1 to 5, or MEAS of a live enclave under 0x40 + its id mod 64. -/
def State.spdmMeas (s : State) (box index enc : Nat) : Option (BitVec 384) :=
  if 1 ≤ index ∧ index ≤ 5 then some (Config.firmwareMeasurement index)
  else if (s.encl enc).live ∧ s.boxSees box enc ∧ index = 0x40 + enc % 64 then some (s.encl enc).meas
  else none

/-- GET_MEASUREMENTS: a signed response that holds the measurement. -/
def execGetMeasurements (box index enc : Nat) (req : List Byte) (s : State) : Out :=
  s.spdmAfter box fun s =>
    match s.spdmMeas box index enc with
    | some m => s.spdmSigned box .measurements req (leBytes 48 m.toNat)
    | none => s.spdmError box

/-- KEY_EXCHANGE: a session is begun with a signed response (25 R407). -/
def execKeyExchange (box session : Nat) (req : List Byte) (s : State) : Out :=
  s.spdmAfter box fun s =>
    let x := s.spdmOf box
    if x.sessions.any fun y => y.1 = session then s.spdmError box
    else (s.setSpdm box { x with sessions := x.sessions ++ [(session, false)] }).spdmSigned box .keyExchangeRsp req []

/-- FINISH: the session is established, or ends where its proof fails. -/
def execFinish (box session : Nat) (ok : Bool) (s : State) : Out :=
  s.spdmAfter box fun s =>
    let x := s.spdmOf box
    if !x.sessions.contains (session, false) then s.spdmError box
    else if ok then
      (s.setSpdm box { x with sessions := x.sessions.map fun y => if y.1 = session then (session, true) else y }).spdmPlain box
        .finishRsp [] []
    else (s.setSpdm box { x with sessions := x.sessions.filter fun y => y.1 ≠ session }).spdmError box

/-- RECOVERY_MAILBOX_REQUEST: answered by a package that a failed boot step stopped (27 R433). -/
def execRecoveryMailboxRequest (_req : List Byte) (s : State) : Out :=
  .next (if s.running then s else { s with outbox := s.outbox ++ [.mailbox] })

end Sys2Proof.Machine
end

