-- ==== Sys2Proof/Machine/Sys.lean ====
section
/-! DEFINITION. The SYS class (01 R13, R34; 17 R320 to R324; 21 R381, R386, R392): system registers, traps, the cycle
counter, and the words that act on Lamplight. -/

namespace Sys2Proof.Machine

/-! ### System registers (01 Table 1.3) -/

/-- The value of a system register; none where the number is not in the table. TRET reads zero. -/
def State.sysReg (s : State) (n : Nat) : Option Word :=
  let g := s.g
  let c := s.core g.core
  match n with
  | 0x000 => some g.hb
  | 0x001 => some g.hl
  | 0x002 => some g.ho
  | 0x003 => some g.hlc
  | 0x008 => some (g.poolw.setWidth 64)
  | 0x010 => some c.tagSet
  | 0x011 => some (BitVec.ofNat 64 g.p.outc)
  | 0x018 => some (g.fpf.setWidth 64)
  | 0x020 => some c.cyc
  | 0x028 => some g.tvec
  | 0x02A => some (g.tst.setWidth 64)
  | 0x02B => some 0
  | 0x030 => some g.frc
  | 0x031 => some g.fra
  | 0x032 => some g.frpc
  | 0x033 => some g.frm
  | 0x034 => some g.frmh
  | 0x038 => some (BitVec.ofNat 64 g.paths)
  | 0x040 => some (g.trctl.setWidth 64)
  | 0x048 => some g.wsb
  | 0x049 => some g.wsl
  | 0x04A => some g.wsp
  | 0x04B => some (BitVec.ofNat 64 g.wpos)
  | _ => none

/-- sys.rd (01 R13). -/
def execSysRd (d : Reg) (r : BitVec 13) (s : State) : Out :=
  match s.sysReg r.toNat with
  | some v => .next ((s.setS d v).retire 1)
  | none => .next (s.takeFault .illegalInstruction (r.setWidth 64))

/-- A value with bits [5:0] cleared. -/
def clear6 (v : Word) : Word := v &&& ~~~0x3F#64

/-- sys.wr to WSB: accepted while WSP equals WSB (01 R34). -/
def execSysWrWsb (a : Reg) (s : State) : Out :=
  let v := clear6 (s.g.sr a)
  if s.g.wsp = s.g.wsb then .next ((s.modG fun g => { g with wsb := v, wsp := v }).retire 1)
  else .next (s.takeFault .privilege 0x048)
/-- sys.wr to WSL: accepted where the value is at least WSP (01 R34). -/
def execSysWrWsl (a : Reg) (s : State) : Out :=
  let v := clear6 (s.g.sr a)
  if s.g.wsp.toNat ≤ v.toNat then .next ((s.modG fun g => { g with wsl := v }).retire 1)
  else .next (s.takeFault .privilege 0x049)
/-- sys.wr to TAGS: BUSY tags keep their bits (14 R290). -/
def execSysWrTags (a : Reg) (s : State) : Out :=
  let v := s.g.sr a
  .next ((s.modCore s.g.core fun c => { c with tagSet := (c.tagSet &&& c.tagBusy) ||| (v &&& ~~~c.tagBusy) }).retire 1)
/-- tret: a write to TRET returns from the handler (17 R322). -/
def execTret (a : Reg) (s : State) : Out :=
  if !bitAt s.g.tst.toNat 8 then .next (s.faultHere .privilege)
  else .next (s.trapReturn (bitAt (s.g.sr a).toNat 0))
/-- sys.wr (01 R13). -/
def execSysWr (a : Reg) (r : BitVec 13) (s : State) : Out :=
  let v := s.g.sr a
  match r.toNat with
  | 0x010 => execSysWrTags a s
  | 0x018 => .next ((s.modG fun g => { g with fpf := v.setWidth 5 }).retire 1)
  | 0x028 => .next ((s.modG fun g => { g with tvec := v }).retire 1)
  | 0x02B => execTret a s
  | 0x040 => .next ((s.modG fun g => { g with trctl := v.setWidth 2 }).retire 1)
  | 0x048 => execSysWrWsb a s
  | 0x049 => execSysWrWsl a s
  | n =>
    match s.sysReg n with
    | some _ => .next (s.takeFault .privilege (r.setWidth 64))
    | none => .next (s.takeFault .illegalInstruction (r.setWidth 64))

/-! ### Traps and the cycle counter (17 R324; 21 R381) -/

/-- trap (17 R324). -/
def execTrap (c : BitVec 13) (s : State) : Out := .next ((s.spendWord leafUseful 1).takeTrap .trap (c.setWidth 64))
/-- brk (17 R324; 21 R388). -/
def execBrk (c : BitVec 13) (s : State) : Out := .next ((s.spendWord leafUseful 1).breakpoint (c.setWidth 64) 0xFF)
/-- rdcyc (21 R381). -/
def execRdcyc (d : Reg) (s : State) : Out := .next ((s.setS d (s.core s.g.core).cyc).retire 1)

/-! ### Lamplight's words -/

/-- trace.mark (21 R386). -/
def execTraceMark (a : Reg) (m : BitVec 13) (s : State) : Out :=
  .next ((s.emit s.g 6 (m.toNat * 2 ^ 19 + (s.g.sr a).toNat % 2 ^ 19)).retire 1)
/-- ctr.cfg (21 R381). -/
def execCtrCfg (a b : Reg) (s : State) : Out := ctrWord a b s
/-- ctr.cfg that names the debug resume selector (21 R388). -/
def execDebugResume (a b : Reg) (s : State) : Out := ctrWord a b s
/-- ctr.cfg that names the release selector (21 R375). -/
def execRelease (a b : Reg) (s : State) : Out := ctrWord a b s
/-- ctr.cfg that names a replay control block (21 R389). -/
def execReplayArm (a b : Reg) (s : State) : Out := ctrWord a b s
/-- ctr.rd (21 R381). -/
def execCtrRd (d a : Reg) (s : State) : Out := .next ((s.setS d (s.ctrRead s.g (s.g.sr a).toNat)).retire 1)
/-- rp.mark (21 R392). -/
def execRpMark (m : BitVec 13) (s : State) : Out :=
  match s.checkpoint 1 m.toNat with
  | (s', none) => .next (s'.retire 1)
  | (s', some a) => .next (s'.takeFault .replayDiverged a)

end Sys2Proof.Machine
end

