-- ==== Sys2Proof/Machine/Window.lean ====
section
/-! DEFINITION. The management window (27 R434): who reaches it, its reads, and its stores. -/

namespace Sys2Proof.Machine

/-! ### Reading the window (27 R434) -/

/-- The dwords of a partition record (19 Table 19.1). -/
def Part.dwords (p : Part) : List Word :=
  let quota (d : Nat) : Nat := p.quotas.getD d 0 % 2 ^ 16 * 2 ^ (16 * d)
  let mem (i : Nat) : Nat := ((p.mem.filter fun j => j / 64 = i).map fun j => 2 ^ (j % 64)).sum
  [BitVec.ofNat 64 (b2n p.valid * 2 ^ 63 + p.ports % 2 ^ 18 * 2 ^ 40), BitVec.ofNat 64 p.clusters,
   BitVec.ofNat 64 (((List.range 4).map quota).sum), BitVec.ofNat 64 p.commons] ++
  ((List.range 16).map fun k =>
    let r := p.routes.getD k {}
    BitVec.ofNat 64 (b2n r.valid * 2 ^ 63 + r.first % 2 ^ 11 * 2 ^ 48 + r.last % 2 ^ 11 * 2 ^ 36 + r.ports % 2 ^ 18)) ++
  (List.range 44).map fun i => BitVec.ofNat 64 (mem i)

/-- A dword of a migration entry (10 Table 10.6). -/
def Migr.dword (m : Migr) (i : Nat) : Nat :=
  if i = 0 then b2n m.valid * 2 ^ 63 + b2n m.done * 2 ^ 62 + m.cursor * 2 ^ 48 + m.src % 2 ^ 30 else m.dst % 2 ^ 30

/-- A dword of a frame account (10 Table 10.7). -/
def State.acctDword (s : State) (vi i : Nat) : Nat :=
  match i with
  | 0 => (s.acct vi).guar
  | 1 => (s.acct vi).burst
  | 2 => s.res vi
  | _ => s.evictable vi

/-- Slot `i` of the error log: record n stands in slot n mod 256, so a full log keeps its oldest record where the next one goes
(17 R333). -/
def State.errSlot (s : State) (i : Nat) : List Word :=
  s.errlog.getD (if s.errTotal < 256 then i else (i + 256 - s.errTotal % 256) % 256) []

/-- A dword of the management window, as function 0 and hart M-mode read it (27 Tables 27.2, 27.3): offsets that are not defined
read as zero. The spec gives the POT no offset, so no access of the window reads it (10 R217; log 68). -/
def State.mgmtRead (s : State) (off : Nat) : Word :=
  let at_ (base n size : Nat) : Bool := base ≤ off && off < base + n * size
  let ix (base size : Nat) : Nat := (off - base) / size
  let dw (base size : Nat) : Nat := (off - base) % size / 8
  if off % 8 ≠ 0 then 0
  else if off = 0 then BitVec.ofNat 64 s.pkgid
  else if at_ 0x10000 2816 8 then
    let k := ix 0x10000 8
    BitVec.ofNat 64 (b2n (s.mmtLocked k) * 16 + b2n (decide (768 ≤ k)) * 4 + smGet 0 s.mmt k % 4)
  else if at_ 0x20000 255 512 then ((s.part (ix 0x20000 512)).dwords).getD (dw 0x20000 512) 0
  else if at_ 0x40000 256 16 then
    let v := s.vi (ix 0x40000 16)
    BitVec.ofNat 64 (if dw 0x40000 16 = 0 then b2n v.valid * 2 ^ 63 + v.part % 256 else v.share)
  else if at_ 0x41000 256 32 then BitVec.ofNat 64 (s.acctDword (ix 0x41000 32) (dw 0x41000 32))
  else if at_ 0x50000 4 8 then BitVec.ofNat 64 (s.die (ix 0x50000 8)).coreTokens
  else if off = 0x50020 then BitVec.ofNat 64 s.fabTokens
  else if at_ 0x60000 320 16 then
    BitVec.ofNat 64 ((s.migrAt (ix 0x60000 0x400) (ix 0x60000 16 % 64)).dword (dw 0x60000 16))
  else if at_ 0x70000 256 32 then (s.errSlot (ix 0x70000 32)).getD (dw 0x70000 32) 0
  else if at_ 0x100000 5 0x4000 then BitVec.ofNat 64 (smGet 0 s.chans (ix 0x100000 8))
  else if at_ 0x200000 1024 8 then
    let c := s.core (ix 0x200000 8 / 2)
    BitVec.ofNat 64 (b2n (decide ((if ix 0x200000 8 % 2 = 0 then c.bank.holder else c.trace.holder) = some .hyp)))
  else if off = 0x300000 then BitVec.ofNat 64 s.plimit
  else if off = 0x300008 then BitVec.ofNat 64 s.pnow
  else if off = 0x300010 then BitVec.ofNat 64 s.tmax
  else if off = 0x300018 then BitVec.ofNat 64 (2 * b2n s.trip + b2n s.thr)
  else 0

/-! ### Accesses (27 R434) -/

/-- Function 0 and a hart in M-mode outside an enclave reach the window. -/
def State.reachesMgmt (s : State) (src : MgmtFrom) : Bool :=
  match src with
  | .function n => n = 0
  | .hart h => (s.hart h).mode = .m && (s.hart h).inside.isNone

/-- A migration entry's dword is written: SRC or DST of an entry that is not VALID, a move begun by VALID = 1, and one retired by
VALID = 0 (10 R227, R229; log 69). -/
def State.writeMigr (s : State) (ctl k i n : Nat) : State :=
  let m := s.migrAt ctl k
  if i = 0 then
    if bitAt n 63 then s.beginMove ctl k (n % 2 ^ 30) m.dst
    else if m.valid then s.retireMove ctl k else s.setMigr ctl k { m with src := n % 2 ^ 30 }
  else if m.valid then s else s.setMigr ctl k { m with dst := n % 2 ^ 30 }

/-- A unit is acquired or returned: bank and trace unit of a core by turns (21 R376; log 69). -/
def State.acquireUnit (s : State) (core : Nat) (trace acquire : Bool) : State :=
  match trace, acquire with
  | false, true => s.modCore core Core.bankTaken
  | true, true => s.modCore core Core.traceTaken
  | false, false => s.bankReturned core
  | true, false => s.traceReturned core

/-- LAMPLIGHT_ACQUISITION (21 R376). -/
def execLamplightAcquisition (core : Nat) (trace acquire : Bool) (s : State) : Out :=
  whenRunning (fun s => s.acquireUnit core trace acquire) s

/-- A dword store at an offset of the window. Of a record it replaces that dword, and the record's own rule says whether the write is
admitted; offsets that are undefined or read-only change nothing (log 69). -/
def State.mgmtStore (s : State) (off : Nat) (v : Word) : State :=
  let n := v.toNat
  let at_ (base n size : Nat) : Bool := base ≤ off && off < base + n * size
  if off % 8 ≠ 0 then s
  else if off = 0 then s.writePkgid n
  else if at_ 0x10000 2816 8 then s.writeMmt ((off - 0x10000) / 8) n
  else if at_ 0x20000 255 512 then
    let p := (off - 0x20000) / 512
    s.writeRecord p ((s.part p).dwords.set ((off - 0x20000) % 512 / 8) v)
  else if at_ 0x40000 256 16 then
    let i := (off - 0x40000) / 16
    if off % 16 = 0 then s.writeVi i v (BitVec.ofNat 64 (s.vi i).share)
    else s.writeVi i (BitVec.ofNat 64 (b2n (s.vi i).valid * 2 ^ 63 + (s.vi i).part)) v
  else if at_ 0x41000 256 32 then (if off % 32 < 16 then s.writeAccount ((off - 0x41000) / 32) (off % 32 = 8) n else s)
  else if at_ 0x50000 4 8 then s.writeCoreTokens ((off - 0x50000) / 8) n
  else if off = 0x50020 then s.writeFabTokens n
  else if at_ 0x60000 320 16 then s.writeMigr ((off - 0x60000) / 0x400) ((off - 0x60000) % 0x400 / 16) (off % 16 / 8) n
  else if at_ 0x200000 1024 8 then s.acquireUnit ((off - 0x200000) / 16) (off / 8 % 2 = 1) (bitAt n 0)
  else if off = 0x300000 then s.writePlimit (n % 2 ^ 16)
  else s

/-- MANAGEMENT_WRITE: an access of the window by a dword, a store or, with no value, a load, whose answer goes to the one who made it.
No other party reaches the window. -/
def execManagementWrite (src : MgmtFrom) (off : Nat) (v : Option Word) (s : State) : Out :=
  whenRunning (fun s =>
    if !s.reachesMgmt src then s
    else match v with
      | some v => s.mgmtStore off v
      | none => { s with outbox := s.outbox ++ [.mgmt (s.mgmtRead off)] }) s

end Sys2Proof.Machine
end

