-- ==== Sys2Proof/Machine/Dispatch.lean ====
section
/-! DEFINITION. One arm per instruction and event: the instruction's own meaning, or its rejection by name. -/

namespace Sys2Proof.Machine

/-- The effect of one instruction or event on the state. -/
def exec (i : Instr) (s : State) : Host.Outcome State Fault Refusal :=
  match i with
  | .sAdd d a b => Sys2Proof.Machine.execSAdd d a b s
  | .sSub d a b => Sys2Proof.Machine.execSSub d a b s
  | .sAnd d a b => Sys2Proof.Machine.execSAnd d a b s
  | .sOr d a b => Sys2Proof.Machine.execSOr d a b s
  | .sXor d a b => Sys2Proof.Machine.execSXor d a b s
  | .sAndn d a b => Sys2Proof.Machine.execSAndn d a b s
  | .sShl d a b => Sys2Proof.Machine.execSShl d a b s
  | .sShr d a b => Sys2Proof.Machine.execSShr d a b s
  | .sSra d a b => Sys2Proof.Machine.execSSra d a b s
  | .sRot d a b => Sys2Proof.Machine.execSRot d a b s
  | .sMin d a b => Sys2Proof.Machine.execSMin d a b s
  | .sMax d a b => Sys2Proof.Machine.execSMax d a b s
  | .sMinn d a b => Sys2Proof.Machine.execSMinn d a b s
  | .sMaxn d a b => Sys2Proof.Machine.execSMaxn d a b s
  | .sMov d a => Sys2Proof.Machine.execSMov d a s
  | .sMul d a b => Sys2Proof.Machine.execSMul d a b s
  | .sMulh d a b => Sys2Proof.Machine.execSMulh d a b s
  | .sMulhn d a b => Sys2Proof.Machine.execSMulhn d a b s
  | .sDiv d a b => Sys2Proof.Machine.execSDiv d a b s
  | .sDivn d a b => Sys2Proof.Machine.execSDivn d a b s
  | .sRem d a b => Sys2Proof.Machine.execSRem d a b s
  | .sRemn d a b => Sys2Proof.Machine.execSRemn d a b s
  | .sClz d a => Sys2Proof.Machine.execSClz d a s
  | .sCtz d a => Sys2Proof.Machine.execSCtz d a s
  | .sPop d a => Sys2Proof.Machine.execSPop d a s
  | .sBext d a b => Sys2Proof.Machine.execSBext d a b s
  | .sBins d a b => Sys2Proof.Machine.execSBins d a b s
  | .sCmp d a b c => Sys2Proof.Machine.execSCmp d a b c s
  | .sSel d a b c => Sys2Proof.Machine.execSSel d a b c s
  | .sLea d a b vs => Sys2Proof.Machine.execSLea d a b vs s
  | .sAddi d a im => Sys2Proof.Machine.execSAddi d a im s
  | .sAndi d a im => Sys2Proof.Machine.execSAndi d a im s
  | .sOri d a im => Sys2Proof.Machine.execSOri d a im s
  | .sXori d a im => Sys2Proof.Machine.execSXori d a im s
  | .sShli d a im => Sys2Proof.Machine.execSShli d a im s
  | .sShri d a im => Sys2Proof.Machine.execSShri d a im s
  | .sSrai d a im => Sys2Proof.Machine.execSSrai d a im s
  | .sCmpi c d a im => Sys2Proof.Machine.execSCmpi c d a im s
  | .sLi d im => Sys2Proof.Machine.execSLi d im s
  | .sLim d im => Sys2Proof.Machine.execSLim d im s
  | .nop => Sys2Proof.Machine.execNop s
  | .sFadd d a b r f => Sys2Proof.Machine.execSFadd d a b r f s
  | .sFsub d a b r f => Sys2Proof.Machine.execSFsub d a b r f s
  | .sFmul d a b r f => Sys2Proof.Machine.execSFmul d a b r f s
  | .sFdiv d a b r f => Sys2Proof.Machine.execSFdiv d a b r f s
  | .sFsqrt d a r f => Sys2Proof.Machine.execSFsqrt d a r f s
  | .sFmin d a b f => Sys2Proof.Machine.execSFmin d a b f s
  | .sFmax d a b f => Sys2Proof.Machine.execSFmax d a b f s
  | .sFclass d a f => Sys2Proof.Machine.execSFclass d a f s
  | .sFcmp d a b c f => Sys2Proof.Machine.execSFcmp d a b c f s
  | .sFcvt d a vs t r n => Sys2Proof.Machine.execSFcvt d a vs t r n s
  | .sFma f r d a b c n => Sys2Proof.Machine.execSFma f r d a b c n s
  | .branch im => Sys2Proof.Machine.execBranch im s
  | .bz d im => Sys2Proof.Machine.execBz d im s
  | .bnz d im => Sys2Proof.Machine.execBnz d im s
  | .loop d im => Sys2Proof.Machine.execLoop d im s
  | .jr a => Sys2Proof.Machine.execJr a s
  | .call k im => Sys2Proof.Machine.execCall k im s
  | .callr a k => Sys2Proof.Machine.execCallr a k s
  | .ret => Sys2Proof.Machine.execRet s
  | .bcmp c d a im => Sys2Proof.Machine.execBcmp c d a im s
  | .vAdd d a b t n => Sys2Proof.Machine.execVAdd d a b t n s
  | .vSub d a b t n => Sys2Proof.Machine.execVSub d a b t n s
  | .vMul d a b t n => Sys2Proof.Machine.execVMul d a b t n s
  | .vMulh d a b t => Sys2Proof.Machine.execVMulh d a b t s
  | .vAnd d a b => Sys2Proof.Machine.execVAnd d a b s
  | .vOr d a b => Sys2Proof.Machine.execVOr d a b s
  | .vXor d a b => Sys2Proof.Machine.execVXor d a b s
  | .vAndn d a b => Sys2Proof.Machine.execVAndn d a b s
  | .vShl d a b t n => Sys2Proof.Machine.execVShl d a b t n s
  | .vShr d a b t => Sys2Proof.Machine.execVShr d a b t s
  | .vSra d a b t => Sys2Proof.Machine.execVSra d a b t s
  | .vMin d a b t => Sys2Proof.Machine.execVMin d a b t s
  | .vMax d a b t => Sys2Proof.Machine.execVMax d a b t s
  | .vAbs d a t n => Sys2Proof.Machine.execVAbs d a t n s
  | .vClz d a t => Sys2Proof.Machine.execVClz d a t s
  | .vPop d a t => Sys2Proof.Machine.execVPop d a t s
  | .vFadd d a b t r n => Sys2Proof.Machine.execVFadd d a b t r n s
  | .vFsub d a b t r n => Sys2Proof.Machine.execVFsub d a b t r n s
  | .vFmul d a b t r n => Sys2Proof.Machine.execVFmul d a b t r n s
  | .vFmin d a b t => Sys2Proof.Machine.execVFmin d a b t s
  | .vFmax d a b t => Sys2Proof.Machine.execVFmax d a b t s
  | .vFdiv d a b t r n => Sys2Proof.Machine.execVFdiv d a b t r n s
  | .vFsqrt d a t r => Sys2Proof.Machine.execVFsqrt d a t r s
  | .vFrcp d a => Sys2Proof.Machine.execVFrcp d a s
  | .vFrsq d a => Sys2Proof.Machine.execVFrsq d a s
  | .vFexp2 d a => Sys2Proof.Machine.execVFexp2 d a s
  | .vFlog2 d a => Sys2Proof.Machine.execVFlog2 d a s
  | .vCvt d a u t r n => Sys2Proof.Machine.execVCvt d a u t r n s
  | .vPack d a b t r n => Sys2Proof.Machine.execVPack d a b t r n s
  | .vUnpack d a k t => Sys2Proof.Machine.execVUnpack d a k t s
  | .vCmp d a b t c => Sys2Proof.Machine.execVCmp d a b t c s
  | .vSel d a b c => Sys2Proof.Machine.execVSel d a b c s
  | .vMad d a b c n => Sys2Proof.Machine.execVMad d a b c n s
  | .vFmaF32 d a b c n => Sys2Proof.Machine.execVFmaF32 d a b c n s
  | .vFmaF64 d a b c n => Sys2Proof.Machine.execVFmaF64 d a b c n s
  | .vFmaF16x2 d a b c n => Sys2Proof.Machine.execVFmaF16x2 d a b c n s
  | .vFmaBf16x2 d a b c n => Sys2Proof.Machine.execVFmaBf16x2 d a b c n s
  | .vLi d im => Sys2Proof.Machine.execVLi d im s
  | .vMov d a => Sys2Proof.Machine.execVMov d a s
  | .vBcast d a t => Sys2Proof.Machine.execVBcast d a t s
  | .vGet d a b => Sys2Proof.Machine.execVGet d a b s
  | .vSet d a b => Sys2Proof.Machine.execVSet d a b s
  | .vIota d => Sys2Proof.Machine.execVIota d s
  | .vPerm d a b => Sys2Proof.Machine.execVPerm d a b s
  | .vShfl d a b => Sys2Proof.Machine.execVShfl d a b s
  | .vRsum d a t => Sys2Proof.Machine.execVRsum d a t s
  | .vRmax d a t => Sys2Proof.Machine.execVRmax d a t s
  | .vRmin d a t => Sys2Proof.Machine.execVRmin d a t s
  | .vRsumi d a t => Sys2Proof.Machine.execVRsumi d a t s
  | .vScan d a t r => Sys2Proof.Machine.execVScan d a t r s
  | .vSplit d im => Sys2Proof.Machine.execVSplit d im s
  | .vJoin => Sys2Proof.Machine.execVJoin s
  | .vSweepAdd d a b t r n => Sys2Proof.Machine.execVSweepAdd d a b t r n s
  | .vSweepMul d a b t r n => Sys2Proof.Machine.execVSweepMul d a b t r n s
  | .vSweepMax d a b t r n => Sys2Proof.Machine.execVSweepMax d a b t r n s
  | .vSweepMin d a b t r n => Sys2Proof.Machine.execVSweepMin d a b t r n s
  | .vSweepFma d a b t r n => Sys2Proof.Machine.execVSweepFma d a b t r n s
  | .vSweepCvt d a t r n => Sys2Proof.Machine.execVSweepCvt d a t r n s
  | .lLds d b z o => Sys2Proof.Machine.execLLds d b z o s
  | .lLdsN d b z o => Sys2Proof.Machine.execLLdsN d b z o s
  | .lLdv d b o => Sys2Proof.Machine.execLLdv d b o s
  | .lLdvX d a b vs e => Sys2Proof.Machine.execLLdvX d a b vs e s
  | .lSts d b z o => Sys2Proof.Machine.execLSts d b z o s
  | .lStv d b o => Sys2Proof.Machine.execLStv d b o s
  | .lStvX d a b e => Sys2Proof.Machine.execLStvX d a b e s
  | .lLdfTake d b z o => Sys2Proof.Machine.execLLdfTake d b z o s
  | .lLdfPeek d b z o => Sys2Proof.Machine.execLLdfPeek d b z o s
  | .lStfFill d b z o => Sys2Proof.Machine.execLStfFill d b z o s
  | .lStfForce d b z o => Sys2Proof.Machine.execLStfForce d b z o s
  | .lFeFull d a b => Sys2Proof.Machine.execLFeFull d a b s
  | .lFeEmpty d a b => Sys2Proof.Machine.execLFeEmpty d a b s
  | .lFeTest d a b => Sys2Proof.Machine.execLFeTest d a b s
  | .lWopenRo d a b => Sys2Proof.Machine.execLWopenRo d a b s
  | .lWopenSw d a b => Sys2Proof.Machine.execLWopenSw d a b s
  | .lWclose a => Sys2Proof.Machine.execLWclose a s
  | .fLds d b z o => Sys2Proof.Machine.execFLds d b z o s
  | .fLdsN d b z o => Sys2Proof.Machine.execFLdsN d b z o s
  | .fLdv d b o => Sys2Proof.Machine.execFLdv d b o s
  | .fLdvX d a b vs e => Sys2Proof.Machine.execFLdvX d a b vs e s
  | .fSts d b z o => Sys2Proof.Machine.execFSts d b z o s
  | .fStv d b o => Sys2Proof.Machine.execFStv d b o s
  | .fStvX d a b e => Sys2Proof.Machine.execFStvX d a b e s
  | .fLdb d b z o => Sys2Proof.Machine.execFLdb d b z o s
  | .fStb d b z o => Sys2Proof.Machine.execFStb d b z o s
  | .pf h b o => Sys2Proof.Machine.execPf h b o s
  | .pfW h b o => Sys2Proof.Machine.execPfW h b o s
  | .aAdd d a b w => Sys2Proof.Machine.execAAdd d a b w s
  | .aMin d a b n w => Sys2Proof.Machine.execAMin d a b n w s
  | .aMax d a b n w => Sys2Proof.Machine.execAMax d a b n w s
  | .aAnd d a b w => Sys2Proof.Machine.execAAnd d a b w s
  | .aOr d a b w => Sys2Proof.Machine.execAOr d a b w s
  | .aXor d a b w => Sys2Proof.Machine.execAXor d a b w s
  | .aXchg d a b w => Sys2Proof.Machine.execAXchg d a b w s
  | .aFadd d a b m w => Sys2Proof.Machine.execAFadd d a b m w s
  | .aCas d a b c => Sys2Proof.Machine.execACas d a b c s
  | .aCasD d a b c => Sys2Proof.Machine.execACasD d a b c s
  | .aRlock d a => Sys2Proof.Machine.execARlock d a s
  | .aRunlock d a => Sys2Proof.Machine.execARunlock d a s
  | .aWlock d a => Sys2Proof.Machine.execAWlock d a s
  | .aWunlock d a => Sys2Proof.Machine.execAWunlock d a s
  | .fenceScope vs => Sys2Proof.Machine.execFenceScope vs s
  | .fenceRel a => Sys2Proof.Machine.execFenceRel a s
  | .fenceAcq a => Sys2Proof.Machine.execFenceAcq a s
  | .fenceW => Sys2Proof.Machine.execFenceW s
  | .lnDef a => Sys2Proof.Machine.execLnDef a s
  | .lnResize a => Sys2Proof.Machine.execLnResize a s
  | .lnFlush a b => Sys2Proof.Machine.execLnFlush a b s
  | .lnInv a b => Sys2Proof.Machine.execLnInv a b s
  | .lnStat d a => Sys2Proof.Machine.execLnStat d a s
  | .launch d a => Sys2Proof.Machine.execLaunch d a s
  | .join a b => Sys2Proof.Machine.execJoin a b s
  | .evtPub a => Sys2Proof.Machine.execEvtPub a s
  | .evtWait a => Sys2Proof.Machine.execEvtWait a s
  | .barArrive a n => Sys2Proof.Machine.execBarArrive a n s
  | .barWait n => Sys2Proof.Machine.execBarWait n s
  | .barSync a n => Sys2Proof.Machine.execBarSync a n s
  | .elect d => Sys2Proof.Machine.execElect d s
  | .gRegroup d a => Sys2Proof.Machine.execGRegroup d a s
  | .yield => Sys2Proof.Machine.execYield s
  | .monArm a => Sys2Proof.Machine.execMonArm a s
  | .monWait d => Sys2Proof.Machine.execMonWait d s
  | .wait t c vs l => Sys2Proof.Machine.execWait t c vs l s
  | .tagWaitAny d a => Sys2Proof.Machine.execTagWaitAny d a s
  | .tagWaitAll d a => Sys2Proof.Machine.execTagWaitAll d a s
  | .tagFfs d a => Sys2Proof.Machine.execTagFfs d a s
  | .tagClr a => Sys2Proof.Machine.execTagClr a s
  | .cpIter d a => Sys2Proof.Machine.execCpIter d a s
  | .cpIn d a t f => Sys2Proof.Machine.execCpIn d a t f s
  | .cpOut d a t => Sys2Proof.Machine.execCpOut d a t s
  | .cpGather d a b t f => Sys2Proof.Machine.execCpGather d a b t f s
  | .cpFill d a t f => Sys2Proof.Machine.execCpFill d a t f s
  | .cpCopy d a t f => Sys2Proof.Machine.execCpCopy d a t f s
  | .mmBind q a k t => Sys2Proof.Machine.execMmBind q a k t s
  | .mmZero n => Sys2Proof.Machine.execMmZero n s
  | .mmPair n a b t => Sys2Proof.Machine.execMmPair n a b t s
  | .mmOne n a b t => Sys2Proof.Machine.execMmOne n a b t s
  | .mmRd d n b => Sys2Proof.Machine.execMmRd d n b s
  | .mmRdScale d n b v => Sys2Proof.Machine.execMmRdScale d n b v s
  | .mmWr n a b => Sys2Proof.Machine.execMmWr n a b s
  | .mmChk d n => Sys2Proof.Machine.execMmChk d n s
  | .wOpen d a => Sys2Proof.Machine.execWOpen d a s
  | .wClose a => Sys2Proof.Machine.execWClose a s
  | .wPut d a b t => Sys2Proof.Machine.execWPut d a b t s
  | .wGet d a b t => Sys2Proof.Machine.execWGet d a b t s
  | .wWait a b => Sys2Proof.Machine.execWWait a b s
  | .wCntT d a => Sys2Proof.Machine.execWCntT d a s
  | .wCntO d a => Sys2Proof.Machine.execWCntO d a s
  | .collAr d a b t o => Sys2Proof.Machine.execCollAr d a b t o s
  | .collBc d a b => Sys2Proof.Machine.execCollBc d a b s
  | .collWait d a => Sys2Proof.Machine.execCollWait d a s
  | .collCancel a => Sys2Proof.Machine.execCollCancel a s
  | .uePost d a b => Sys2Proof.Machine.execUePost d a b s
  | .uePoll d a => Sys2Proof.Machine.execUePoll d a s
  | .sysRd d r => Sys2Proof.Machine.execSysRd d r s
  | .sysWr a r => Sys2Proof.Machine.execSysWr a r s
  | .sysWrWsb a => Sys2Proof.Machine.execSysWrWsb a s
  | .sysWrWsl a => Sys2Proof.Machine.execSysWrWsl a s
  | .sysWrTags a => Sys2Proof.Machine.execSysWrTags a s
  | .tret a => Sys2Proof.Machine.execTret a s
  | .rdcyc d => Sys2Proof.Machine.execRdcyc d s
  | .trap c => Sys2Proof.Machine.execTrap c s
  | .brk c => Sys2Proof.Machine.execBrk c s
  | .halt => Sys2Proof.Machine.execHalt s
  | .traceMark a m => Sys2Proof.Machine.execTraceMark a m s
  | .ctrCfg a b => Sys2Proof.Machine.execCtrCfg a b s
  | .debugResume a b => Sys2Proof.Machine.execDebugResume a b s
  | .release a b => Sys2Proof.Machine.execRelease a b s
  | .replayArm a b => Sys2Proof.Machine.execReplayArm a b s
  | .ctrRd d a => Sys2Proof.Machine.execCtrRd d a s
  | .rpMark m => Sys2Proof.Machine.execRpMark m s
  | .encMake vs d => Sys2Proof.Machine.execEncMake vs d s
  | .encEnter t vs d => Sys2Proof.Machine.execEncEnter t vs d s
  | .encKill vs d => Sys2Proof.Machine.execEncKill vs d s
  | .pgOut vs d => Sys2Proof.Machine.execPgOut vs d s
  | .pgIn vs d => Sys2Proof.Machine.execPgIn vs d s
  | .potXfer vs d => Sys2Proof.Machine.execPotXfer vs d s
  | .encExit vs => Sys2Proof.Machine.execEncExit vs s
  | .encOut t vs d => Sys2Proof.Machine.execEncOut t vs d s
  | .encIn t vs d => Sys2Proof.Machine.execEncIn t vs d s
  | .encRep t vs d => Sys2Proof.Machine.execEncRep t vs d s
  | .enclaveThreadInterrupt h cause toM => Sys2Proof.Machine.execEnclaveThreadInterrupt h cause toM s
  | .kickStore h enc off size v => Sys2Proof.Machine.execKickStore h enc off size v s
  | .kickStoreAccept enc q => Sys2Proof.Machine.execKickStoreAccept enc q s
  | .admissionOpportunity die => Sys2Proof.Machine.execAdmissionOpportunity die s
  | .dependRelease task => Sys2Proof.Machine.execDependRelease task s
  | .arbitrateRelease task => Sys2Proof.Machine.execArbitrateRelease task s
  | .leaseWalk task => Sys2Proof.Machine.execLeaseWalk task s
  | .leasePendingTimeout task => Sys2Proof.Machine.execLeasePendingTimeout task s
  | .edgeLineAction task => Sys2Proof.Machine.execEdgeLineAction task s
  | .placementAttempt part => Sys2Proof.Machine.execPlacementAttempt part s
  | .runArbitration core slot => Sys2Proof.Machine.execRunArbitration core slot s
  | .parkWake gid => Sys2Proof.Machine.execParkWake gid s
  | .monitorSpurious gid f => Sys2Proof.Machine.execMonitorSpurious gid f s
  | .groupEnded gid => Sys2Proof.Machine.execGroupEnded gid s
  | .teamPublish team => Sys2Proof.Machine.execTeamPublish team s
  | .enclaveHalt enc => Sys2Proof.Machine.execEnclaveHalt enc s
  | .enclaveResume enc => Sys2Proof.Machine.execEnclaveResume enc s
  | .farLoadReturn gid k => Sys2Proof.Machine.execFarLoadReturn gid k s
  | .coreStorePointPass gid => Sys2Proof.Machine.execCoreStorePointPass gid s
  | .orderingPointArrival r => Sys2Proof.Machine.execOrderingPointArrival r s
  | .atomicExecute ms => Sys2Proof.Machine.execAtomicExecute ms s
  | .atomicReturn gid k => Sys2Proof.Machine.execAtomicReturn gid k s
  | .orderGateRelease gid k => Sys2Proof.Machine.execOrderGateRelease gid k s
  | .orderGateTimeout gid k => Sys2Proof.Machine.execOrderGateTimeout gid k s
  | .windowStorePerformed gid k => Sys2Proof.Machine.execWindowStorePerformed gid k s
  | .windowLoadReturn gid => Sys2Proof.Machine.execWindowLoadReturn gid s
  | .svtWidening die k => Sys2Proof.Machine.execSvtWidening die k s
  | .copyComplete core k => Sys2Proof.Machine.execCopyComplete core k s
  | .copyElementFault core k => Sys2Proof.Machine.execCopyElementFault core k s
  | .tileOpStart core => Sys2Proof.Machine.execTileOpStart core s
  | .tileOpRetire core faults => Sys2Proof.Machine.execTileOpRetire core faults s
  | .resizeCursorStep part cls die => Sys2Proof.Machine.execResizeCursorStep part cls die s
  | .flushCursorStep part cls die => Sys2Proof.Machine.execFlushCursorStep part cls die s
  | .invalidation sc => Sys2Proof.Machine.execInvalidation sc s
  | .dtuAcknowledge die => Sys2Proof.Machine.execDtuAcknowledge die s
  | .walkComplete die k => Sys2Proof.Machine.execWalkComplete die k s
  | .migrationEntryWrite ctl k src dst => Sys2Proof.Machine.execMigrationEntryWrite ctl k src dst s
  | .migrationStep ctl k tagOk => Sys2Proof.Machine.execMigrationStep ctl k tagOk s
  | .migrationRetire ctl k => Sys2Proof.Machine.execMigrationRetire ctl k s
  | .mmtWrite k hash => Sys2Proof.Machine.execMmtWrite k hash s
  | .partitionRecordWrite part ds => Sys2Proof.Machine.execPartitionRecordWrite part ds s
  | .virtualInterfaceWrite vi d0 d1 name => Sys2Proof.Machine.execVirtualInterfaceWrite vi d0 d1 name s
  | .frameAccountWrite vi burst n => Sys2Proof.Machine.execFrameAccountWrite vi burst n s
  | .coreTokensWrite die n => Sys2Proof.Machine.execCoreTokensWrite die n s
  | .fabTokensWrite n => Sys2Proof.Machine.execFabTokensWrite n s
  | .pkgidWrite n => Sys2Proof.Machine.execPkgidWrite n s
  | .plimitWrite n => Sys2Proof.Machine.execPlimitWrite n s
  | .lamplightAcquisition core trace acquire => Sys2Proof.Machine.execLamplightAcquisition core trace acquire s
  | .managementWrite src off v => Sys2Proof.Machine.execManagementWrite src off v s
  | .tokenRefill core => Sys2Proof.Machine.execTokenRefill core s
  | .portRequestDepart r => Sys2Proof.Machine.execPortRequestDepart r s
  | .fabricTokenRefill => Sys2Proof.Machine.execFabricTokenRefill s
  | .traceLost core => Sys2Proof.Machine.execTraceLost core s
  | .correctableError u ix line => Sys2Proof.Machine.execCorrectableError u ix line s
  | .errorWindowBoundary u ix => Sys2Proof.Machine.execErrorWindowBoundary u ix s
  | .uncorrectableError place => Sys2Proof.Machine.execUncorrectableError place s
  | .taskEnd task => Sys2Proof.Machine.execTaskEnd task s
  | .faultRecord task => Sys2Proof.Machine.execFaultRecord task s
  | .throttling pnow tmax => Sys2Proof.Machine.execThrottling pnow tmax s
  | .thermalTrip die temp => Sys2Proof.Machine.execThermalTrip die temp s
  | .powerOn sigs trained frames => Sys2Proof.Machine.execPowerOn sigs trained frames s
  | .dieToDieFlit link crcOk enc => Sys2Proof.Machine.execDieToDieFlit link crcOk enc s
  | .tuilosFlit port ok => Sys2Proof.Machine.execTuilosFlit port ok s
  | .streamBinding enc slot ed ml meas agreed session create => Sys2Proof.Machine.execStreamBinding enc slot ed ml meas agreed session create s
  | .streamBindingTimeout enc slot => Sys2Proof.Machine.execStreamBindingTimeout enc slot s
  | .streamFlitReceive enc slot f => Sys2Proof.Machine.execStreamFlitReceive enc slot f s
  | .putArrival wid off enc slot data => Sys2Proof.Machine.execPutArrival wid off enc slot data s
  | .getArrival wid off len enc slot => Sys2Proof.Machine.execGetArrival wid off len enc slot s
  | .tcntIncrement wid => Sys2Proof.Machine.execTcntIncrement wid s
  | .transferAcknowledgement xfer ok data => Sys2Proof.Machine.execTransferAcknowledgement xfer ok data s
  | .closeNotice enc slot wid => Sys2Proof.Machine.execCloseNotice enc slot wid s
  | .closeAcknowledgement wid => Sys2Proof.Machine.execCloseAcknowledgement wid s
  | .collectiveResult grp k status peers => Sys2Proof.Machine.execCollectiveResult grp k status peers s
  | .collectiveMemberGone grp rank => Sys2Proof.Machine.execCollectiveMemberGone grp rank s
  | .uePacket wid off peer p => Sys2Proof.Machine.execUePacket wid off peer p s
  | .ueCompletion enc q k status data => Sys2Proof.Machine.execUeCompletion enc q k status data s
  | .hostDma stream wid off wr data => Sys2Proof.Machine.execHostDma stream wid off wr data s
  | .cxlMemAccess wr pa data => Sys2Proof.Machine.execCxlMemAccess wr pa data s
  | .getVersion box req => Sys2Proof.Machine.execGetVersion box req s
  | .getCapabilities box req => Sys2Proof.Machine.execGetCapabilities box req s
  | .negotiateAlgorithms box req => Sys2Proof.Machine.execNegotiateAlgorithms box req s
  | .getDigests box req => Sys2Proof.Machine.execGetDigests box req s
  | .getCertificate box req => Sys2Proof.Machine.execGetCertificate box req s
  | .challenge box req => Sys2Proof.Machine.execChallenge box req s
  | .getMeasurements box index enc req => Sys2Proof.Machine.execGetMeasurements box index enc req s
  | .keyExchange box session req => Sys2Proof.Machine.execKeyExchange box session req s
  | .finish box session ok => Sys2Proof.Machine.execFinish box session ok s
  | .pagerGetAdvance enc => Sys2Proof.Machine.execPagerGetAdvance enc s
  | .writeBackArrival gid k => Sys2Proof.Machine.execWriteBackArrival gid k s
  | .pendingInterrupt h => Sys2Proof.Machine.execPendingInterrupt h s
  | .recoveryMailboxRequest req => Sys2Proof.Machine.execRecoveryMailboxRequest req s
  | .tdispRequest op tdi enc stream => Sys2Proof.Machine.execTdispRequest op tdi enc stream s
  | .switchEngineAttestation grp part nmemb ok => Sys2Proof.Machine.execSwitchEngineAttestation grp part nmemb ok s

end Sys2Proof.Machine
end

