-- ==== Sys2Proof/Machine/Step.lean ====
section
/-! DEFINITION. One step of the machine: the next event of the agenda; else the word of the group or hart at the focus;
else what the machine does by itself (log 2). -/

namespace Sys2Proof.Machine

/-- A step of the group at the focus: the slot is released at a run boundary, else one word issues. -/
def stepGroup (s : State) : Host.Outcome State Fault Refusal :=
  if s.g.runOver then .next s.runEnd
  else match s.readyHeader with
    | .other s' => .next s'
    | .issue i s' => exec i s'

/-- A step of the hart at the focus: its word is fetched and runs. -/
def stepHart (s : State) : Host.Outcome State Fault Refusal :=
  let t := { s with focus := .none, hartLast := true }.hartFetched
  match t.fetchPoisoned with
  | some p => .next (t.partitionReset p)
  | none =>
  match t.hartFetch with
  | .error c => .next (t.hartTrap c s.me.pc.toNat)
  | .ok w =>
    match decode .xlm w with
    | some i => exec i t
    | none =>
      if isXlmenc w then .next (t.hartTrap causeIllegal 0)
      else if isEcall w && s.me.inside.isSome then .next (t.hartTrap (if s.me.mode = .u then causeUserCall else causeIllegal) 0)
      else .refused .baseRv64

/-- A step with nothing at the focus: an event that happens by itself; else a hart or a slot, which take turns; else a
cycle passes. -/
def stepFree (s : State) : Host.Outcome State Fault Refusal :=
  match s.autoStep with
  | some o => o
  | none =>
    match if s.hartLast && s.nextSlot.isSome then none else s.nextHart with
    | some h => .next { s with hartAt := h, focus := .hart }
    | none =>
      match s.nextSlot with
      | some (c, x) => execRunArbitration c x s
      | none => .next { s.tick with hartLast := false }

/-- A step after the group at the focus could not issue: an event that happens by itself; else another slot; else it tries
again. A group of an ended task that waits for what never comes stops. -/
def stepHeld (s : State) : Host.Outcome State Fault Refusal :=
  match s.autoStep with
  | some o => o
  | none =>
    if s.cutOff then .next s.runEnd
    else match s.nextSlotBut fun g => g.core ≠ s.g.core || g.slot ≠ s.g.slot with
    | some (c, x) => execRunArbitration c x s
    | none => stepGroup s

/-- One step. Of a core's two slots the one that lags goes first (log 4). -/
def step (s : State) : Host.Outcome State Fault Refusal :=
  match s.agenda with
  | i :: rest => exec i { s with agenda := rest }
  | [] =>
    if !s.running then .fault .stopped
    else if s.held then stepHeld { s with held := false }
    else match s.focus with
      | .slot _ _ => match s.slotBehind with
        | some (c, x) => execRunArbitration c x s
        | none => stepGroup s
      | .hart => stepHart s
      | .none => stepFree s

/-- The state in which the next step fetches and runs the instruction whose word is `w`: a resident group at the focus
whose clause is that one word (or a hart, for an Xlmenc word), with the enclave, task, team and frames that its fetch
needs (log 12). -/
def State.withFetchWord (s : State) (nbits w : Nat) : State :=
  match decodeTableWord nbits w with
  | some i => s.placeWord i.cls (BitVec.ofNat 32 w)
  | none => s.placeWord .sv (BitVec.ofNat 32 w)

end Sys2Proof.Machine
end

