-- ==== Sys2Proof/Safety.lean ====
section
/-! DEFINITION. The terms in which the statements speak: a step that does not stop the machine, completion of an
instruction, what a register reads as after a write, and what an instruction leaves alone. -/

namespace Sys2Proof

/-- A step does not stop the machine. -/
def Safe (s : Machine.State) : Prop := ∃ t, Machine.step s = .next t

namespace Machine

/-- The instruction completes at `s` in a next state that satisfies `P`. -/
def Completes (i : Instr) (s : State) (P : State → Prop) : Prop := ∃ t, exec i s = .next t ∧ P t

/-- A core without its clock and its Lamplight state: the cycle counter, the leaves and lags of both slots with that of a hold in progress,
the counter bank and the trace unit. -/
def Core.arch (c : Core) : Core :=
  { c with cyc := 0, slot0 := { c.slot0 with leaves := [], holds := none, lag := 0 }
           slot1 := { c.slot1 with leaves := [], holds := none, lag := 0 }, bank := {}, trace := {} }

/-- A group without its registers, its flags, its place in the code and the run's bookkeeping. -/
def Group.arch (g : Group) : Group :=
  { g.modP fun p => { p with pc := 0, cwi := 0, hdr := none, noMatch := false, mask := 0 } with
    sring := [], sfix := [], vring := [], vfix := [], fpf := 0, rc := 0, y := false, lastPh := 0, runOver := false, taken := [], winRet := none }

/-- What an instruction that writes registers only leaves alone: every field of the state but the focused group and the
cores; of a core all but its clock and Lamplight; of the group all but `Group.arch`'s omissions; every byte of memory and
of every pool. -/
structure RegisterOnly (s t : State) : Prop where
  rest : t = { s with g := t.g, cores := t.cores }
  cores : ∀ c, (t.core c).arch = (s.core c).arch
  group : t.g.arch = s.g.arch
  memory : ∀ a, memByte t.mem a = memByte s.mem a
  pools : ∀ c a, memByte (t.core c).pool a = memByte (s.core c).pool a

/-- What scalar register `d` reads as after `v` is written to it: s56 and s57 keep their value, a mask word takes bits
[31:0], s63 is zero (01 Table 1.2). -/
def Group.kept (g : Group) (d : Reg) (v : Word) : Word :=
  if d.toNat = 56 ∨ d.toNat = 57 then g.sr d
  else if d.toNat = 63 then 0
  else if 60 ≤ d.toNat then BitVec.ofNat 64 (v.toNat % 2 ^ 32) else v

/-- Control goes on in sequence: the next word, or the next header after a clause's last word (01 R16). -/
def GoesOn (s t : State) : Prop :=
  t.g.curF = s.g.curF ∧
  if s.g.lastWord then t.g.p.pc = s.g.nextHeader ∧ t.g.p.cwi = 0 else t.g.p.pc = s.g.p.pc ∧ t.g.p.cwi = s.g.p.cwi + 1

/-- Scalar register `d` takes `v`, FPF takes the flags `fl` as well, and nothing else that `RegisterOnly` keeps or a
register holds changes. -/
structure SetsScalar (s : State) (d : Reg) (v : Word) (fl : Flags) (t : State) : Prop where
  scalars : ∀ r, t.g.sr r = if r = d then s.g.kept d v else s.g.sr r
  vectors : ∀ r, t.g.vr r = s.g.vr r
  flags : t.g.fpf = s.g.fpf ||| fl
  frame : RegisterOnly s t

/-- The same, and control goes on in sequence. -/
structure WritesScalar (s : State) (d : Reg) (v : Word) (fl : Flags) (t : State) : Prop extends SetsScalar s d v fl t where
  goes : GoesOn s t

/-- Elements of a vector register of a type. -/
def vtCount (t : VTy) : Nat := if t = .f64 then 48 else 96
/-- The lane whose mask bit makes an element active (03 R69). -/
def vtLane (t : VTy) (i : Nat) : Nat := if t = .f64 then 2 * i else i

/-- The active elements of vector register `d` take `f`, the others keep their values, FPF takes the flags `fl`, control goes on in
sequence, and nothing else that `RegisterOnly` keeps or a register holds changes. -/
structure WritesVector (s : State) (d : Reg) (ty : VTy) (f : Nat → Nat → Nat) (fl : Flags) (t : State) : Prop where
  elements : ∀ i k, i < vtCount ty → k < ty.subs →
    elemGet ty i k (t.g.vr d) = if s.g.active (vtLane ty i) then f i k % 2 ^ ty.width else elemGet ty i k (s.g.vr d)
  vectors : ∀ r, r ≠ d → t.g.vr r = s.g.vr r
  scalars : ∀ r, t.g.sr r = s.g.sr r
  flags : t.g.fpf = s.g.fpf ||| fl
  frame : RegisterOnly s t
  goes : GoesOn s t

/-- The instruction completes with its result in scalar register `d`: a value that satisfies `Q`, and no flag. -/
def GivesScalar (i : Instr) (s : State) (d : Reg) (Q : Word → Prop) : Prop := ∃ v, Q v ∧ Completes i s (WritesScalar s d v 0)

/-- The instruction completes with `f i k` in sub-element `k` of each active element `i` of vector register `d`. -/
def GivesVector (i : Instr) (s : State) (d : Reg) (ty : VTy) (f : Nat → Nat → Nat) (fl : Flags) : Prop :=
  Completes i s (WritesVector s d ty f fl)

/-- No register and no flag changes, and nothing else but the place in the code. -/
structure NoEffect (s t : State) : Prop where
  scalars : ∀ r, t.g.sr r = s.g.sr r
  vectors : ∀ r, t.g.vr r = s.g.vr r
  flags : t.g.fpf = s.g.fpf
  frame : RegisterOnly s t

/-- Control has gone to the header at `a` (01 R17). -/
def WentTo (a : VAddr) (s t : State) : Prop := t.g.curF = s.g.curF ∧ t.g.p.pc = a ∧ t.g.p.cwi = 0

/-- The path stops on the word about to issue with a precise report of a fault (17 R319, R325, R326): its task takes the
report, the group is halted at a run boundary, and no register, flag, memory or pool byte changes. -/
structure Faults (s : State) (code : Code) (fra : Word) (t : State) : Prop where
  rest : t = { s with g := t.g, tasks := t.tasks }
  group : t.g = { s.g with stat := .halted, rc := 0, runOver := true, winRet := none }
  task : ∀ tm k, s.team s.g.team = some tm → s.task tm.task = some k →
    t.task tm.task = some (k.addReport (s.report code fra (s.g.p.cwi + 1) true false))
  others : ∀ j, (∀ tm, s.team s.g.team = some tm → j ≠ tm.task) → t.task j = s.task j

/-- No register and no flag of the focused group changes. -/
def SameRegisters (s t : State) : Prop := (∀ r, t.g.sr r = s.g.sr r) ∧ (∀ r, t.g.vr r = s.g.vr r) ∧ t.g.fpf = s.g.fpf

/-- Register `d` takes `v` and no other register and no flag changes. -/
def OneRegister (s : State) (d : Reg) (v : Word) (t : State) : Prop :=
  (∀ r, t.g.sr r = if r = d then s.g.kept d v else s.g.sr r) ∧ (∀ r, t.g.vr r = s.g.vr r) ∧ t.g.fpf = s.g.fpf

/-- A core without its clock, its Lamplight state, its pool bytes, its F/E bits and its windows. -/
def Core.bare (c : Core) : Core := { c.arch with pool := [], fe := [], wins := [] }

/-- Nothing outside the focused group and the cores changes, no byte of memory changes, and of the cores no more than
`Core.bare`'s omissions. -/
structure LocalFrame (s t : State) : Prop where
  rest : t = { s with g := t.g, cores := t.cores }
  cores : ∀ c, (t.core c).bare = (s.core c).bare
  memory : ∀ a, memByte t.mem a = memByte s.mem a

/-- The pool bytes that `w` gives a value take it, every other keeps its value. -/
def PoolsAre (s : State) (w : Nat → Nat → Option Byte) (t : State) : Prop :=
  ∀ c o, memByte (t.core c).pool o = (w c o).getD (memByte (s.core c).pool o)
/-- The F/E bits of words that `w` gives a value take it, every other keeps its value. -/
def FeAre (s : State) (w : Nat → Nat → Option Bool) (t : State) : Prop :=
  ∀ c k, smGet false (t.core c).fe k = (w c k).getD (smGet false (s.core c).fe k)
/-- No window entry changes. -/
def WindowsStand (s t : State) : Prop := ∀ c, (t.core c).wins = (s.core c).wins

/-- A local access passes its checks and meets no range lock (09 R183; 11 R248). -/
def LocalOk (s : State) (a : Int) (len align : Nat) (write : Bool) (x : LocalAcc) : Prop :=
  s.localCheck s.g a len align write = .ok x ∧ (s.core x.core).lockedLocal x.offs write = false

/-- The byte that the last of some pieces to reach pool byte `o` of core `c` puts there. -/
def storedByte (xs : List (LocalAcc × List Byte)) (c o : Nat) : Option Byte :=
  (xs.reverse.find? fun x => x.1.core = c && x.1.win.isNone && x.1.offs.contains o).bind fun x => x.2[x.1.offs.idxOf o]?

/-- The group of a store: registers and flags stand, and pieces that go through windows make one window store, without the bytes
that a higher lane writes by SELF, that counts as unacknowledged (09 R188; 12 R266). -/
def StoringGroup (s : State) (xs : List (LocalAcc × List Byte)) (t : State) : Prop :=
  let ws := localParts xs
  SameRegisters s t ∧
  t.g.arch = if ws = [] then s.g.arch
    else (({ s.g.modP (fun p => { p with rst := p.rst + 1 }) with
      winStores := s.g.winStores ++ [{ seq := s.seq, pathF := s.g.curF, parts := ws }] } : Group)).arch

/-- A local store of pieces with their bytes, in ascending lane order: pieces in the group's own rows are written, the last one
winning a byte, and no other pool byte, F/E bit, window entry or memory byte changes. -/
structure StoresLocal (s : State) (xs : List (LocalAcc × List Byte)) (t : State) : Prop where
  bytes : PoolsAre s (storedByte xs) t
  bits : FeAre s (fun _ _ => none) t
  windows : WindowsStand s t
  group : StoringGroup s xs t
  frame : LocalFrame s t

/-- A store instruction that has passed its checks, in the state `v`: a group that is neither recorded nor replayed goes on with its
effect at once; another first counts the instruction and hashes its bytes `bs`, and goes on in the state that leaves it (21 R391), or,
where its checkpoint does not agree, stops with REPLAY_DIVERGED before it takes effect (21 R392). -/
def Counts (i : Instr) (s v : State) (bs : List (Nat × Byte)) (P : State → State → Prop) : Prop :=
  (v.replayMode v.g = 0 → Completes i s (P v)) ∧
  (∀ u, v.countStore bs = (u, none) → Completes i s (P u)) ∧
  (∀ u a, v.countStore bs = (u, some a) → Completes i s (Faults u .replayDiverged a))

/-- A word that reaches far memory changes, beside the focused group, only the translation state and the colours of dies, the
cores' first-level translations, near caches and clocks, and the order of issue; no byte of memory or of a pool, no F/E bit, no
window and no tag. -/
structure FarFrame (s t : State) : Prop where
  rest : t = { s with g := t.g, cores := t.cores, dies := t.dies, seq := t.seq, held := t.held }
  pools : ∀ c, (t.core c).pool = (s.core c).pool ∧ (t.core c).fe = (s.core c).fe ∧ (t.core c).wins = (s.core c).wins ∧
    (t.core c).rows = (s.core c).rows ∧ (t.core c).tagSet = (s.core c).tagSet ∧ (t.core c).locks = (s.core c).locks ∧
    (t.core c).copies = (s.core c).copies ∧ (t.core c).tileq = (s.core c).tileq

/-- The same of a far store, in some state that its translation alone has changed. -/
def CountsFar (i : Instr) (s : State) (bs : List (Nat × Byte)) (P : State → State → Prop) : Prop :=
  ∃ v, v.g = s.g ∧ FarFrame s v ∧ Counts i s v bs P

/-- An iterator slot is bound to a record that passes R287 (14 R286, R287; 15 R304). -/
def ReadsRecord (s : State) (n : Nat) (q : Rec) : Prop :=
  ∃ (r : Word) (x : LocalAcc), smFind s.g.iters n = some r ∧ bitAt r.toNat 23 = true ∧ r.toNat < 2 ^ 24 ∧ r.toNat % 64 = 0 ∧
    LocalOk s r.toNat 64 64 false x ∧ q = recOf r.toNat (bytesDwords 8 (s.poolRead x)) ∧
    recBad q (bytesDwords 8 (s.poolRead x)) = false

/-- A far access passes the checks of 10 Table 10.1 in their order with the physical bytes `pas`, and meets no range lock. -/
def FarOk (s : State) (a : Int) (len align : Nat) (k : Acc) (op : Option Atom) (pas : List Nat) (heap : Bool) : Prop :=
  s.farOne s.g a len align k op = .ok pas heap ∧
  (s.core s.g.core).lockedFar s.g.enc a.toNat len (k = .store || k = .atomic) = false

/-- A request leaves the issue slot: it joins the group's outstanding requests without data, `f` says what else of the group
changes, and registers and flags stand until it returns. -/
def Sends (s : State) (f : Group → Group) (ok : Req → Prop) (t : State) : Prop :=
  ∃ q, ok q ∧ q.pathF = s.g.curF ∧ q.data = none ∧ t.g.arch = (f { s.g with reqs := s.g.reqs ++ [q] }).arch ∧
    SameRegisters s t ∧ FarFrame s t

/-- One more outstanding load of the executing path slot. -/
def Group.moreLd (g : Group) : Group := g.modP fun p => { p with ld := p.ld + 1 }

/-- A store enters the group's FIFO as its youngest entry and ST rises (11 R233). -/
def Enters (s : State) (bytes : List (Nat × Byte)) (stb : Bool) (t : State) : Prop :=
  ∃ e : StoreEnt, e.bytes = bytes ∧ e.stb = stb ∧ e.pathF = s.g.curF ∧
    t.g.arch = ({ s.g.modP (fun p => { p with st := p.st + 1 }) with fifo := s.g.fifo ++ [e] } : Group).arch ∧
    SameRegisters s t ∧ FarFrame s t

/-- A record of `len` bytes is read from far memory at issue: its checks pass and its bytes are `bs`; `u` is the state after its
translation. -/
def ReadsFar (s : State) (va : Int) (len align : Nat) (bs : List Byte) (u : State) : Prop :=
  ∀ k : List Byte → State → Out, withRead va len align k s = k bs u

/-- The word holds its issue slot, unchanged but for clocks and translation (01 R24). -/
def Holds (s t : State) : Prop := t.held = true ∧ SameRegisters s t ∧ t.g.p.pc = s.g.p.pc ∧ t.g.p.cwi = s.g.p.cwi ∧ FarFrame s t

/-- The path parks on a condition at a run boundary before the word (01 R25). -/
def Parks (s : State) (w : Park) (t : State) : Prop :=
  t.g.stat = .parked ∧ t.g.p.park = some w ∧ t.g.rc = 0 ∧ t.g.runOver = true ∧ t.g.p.pc = s.g.p.pc ∧ t.g.p.cwi = s.g.p.cwi ∧
  SameRegisters s t ∧ FarFrame s t

/-- Every near cache holds what it held: no event of 09 R191 happens. -/
def NearStands (s t : State) : Prop := ∀ c, (t.core c).near = (s.core c).near

/-- No line of an enclave is left in the near cache of a core. -/
def NearClear (t : State) (core enc : Nat) : Prop := ∀ l ∈ (t.core core).near, l.owner ≠ enc

/-- A word that hands work to an engine, a unit or the fabric changes of the cores neither pool bytes, F/E bits, windows, row
tags, near caches, translations nor tile statuses, and outside the cores and the focused group only the order of issue. -/
structure EngineFrame (s t : State) : Prop where
  rest : t = { s with g := t.g, cores := t.cores, seq := t.seq, held := t.held }
  cores : ∀ c, (t.core c).pool = (s.core c).pool ∧ (t.core c).fe = (s.core c).fe ∧ (t.core c).wins = (s.core c).wins ∧
    (t.core c).rows = (s.core c).rows ∧ (t.core c).near = (s.core c).near ∧ (t.core c).l1 = (s.core c).l1 ∧
    (t.core c).tstat = (s.core c).tstat

/-- A word that names a variable may reach the serving point of its line: no release holds it for the focused group's core, and the
line has an entry or can be given one (11 R239, R242). -/
def VarFree (s : State) (pa : Nat) : Prop :=
  let part := s.partOf s.g
  let die := s.svtDie part (dieOfCore s.g.core) pa
  s.svtBlocked part die pa (.core s.g.core) = false ∧ s.svtRoom (s.svtDie part die pa) (pa / 64) = true

/-- The state of a word that reaches far memory once its one piece has passed its checks: the cycles and entries of its translation
(12 R265). -/
def State.passedFar (s : State) (a : Int) (len : Nat) (k : Acc) (heap : Bool) : State :=
  s.translated s.g (if heap then [] else [a.toNat, a.toNat + len - 1]) k

/-- A word goes on with its result in one scalar register, or in none. -/
def Goes (s : State) (r : Option (Reg × Word)) (t : State) : Prop :=
  GoesOn s t ∧ match r with | some x => OneRegister s x.1 x.2 t | none => SameRegisters s t

/-- No core on a list keeps a staging image of the focused team in its save area, and no array on the list is retired. -/
def ArraysReady (s : State) (cores : List Nat) : Prop :=
  ∀ c ∈ cores, (3, c) ∉ s.retired ∧ c ∉ ((s.team s.g.team).map Team.stagingLost).getD []

/-- A tile operation stands as the youngest entry in the queues of some cores, and TL rises. -/
def Queued (s : State) (cores : List Nat) (ok : TileOp → Prop) (t : State) : Prop :=
  Goes s none t ∧ t.g.p.tl = s.g.p.tl + 1 ∧ EngineFrame s t ∧
  (∀ c ∈ cores, ∃ e, (t.core c).tileq = (s.core c).tileq ++ [e] ∧ ok e ∧ e.seq = s.seq ∧ e.gid = s.g.gid ∧ e.team = s.g.team ∧
    e.pathF = s.g.curF ∧ e.mask = s.g.p.mask ∧ e.share = decide (c ≠ s.g.core) ∧ e.running = false) ∧
  ∀ c, c ∉ cores → (t.core c).tileq = (s.core c).tileq

/-- A descriptor of `n` bytes is read at issue: its checks pass and its bytes are `bs`; `u` is the state after its translation. -/
def ReadsDesc (s : State) (a : Word) (n : Nat) (bs : List Byte) (u : State) : Prop :=
  ∀ k : List Byte → State → Out, withDesc a n k s = k bs u

/-- A handle names a window of the group's enclave that is not CLOSED (26 R424). -/
def Names (s : State) (h : Word) (w : FWin) : Prop :=
  h.toNat < 2 ^ 63 ∧ handlePkg h = s.pkgid % 2 ^ 11 ∧ s.fwin (handleWid h) = some w ∧ w.enc = s.g.enc ∧ w.stat ≠ .closed ∧
  w.ext / 64 = h.toNat % 2 ^ 36

/-- The executing hart's instruction is done: its pc moves past the word and rd holds `v`; x0 takes nothing (20 R364). -/
def HartDone (s : State) (d : BitVec 5) (v : Nat) (t : State) : Prop :=
  (t.hart s.hartAt).pc = s.me.pc + 4 ∧
  ∀ r : BitVec 5, (t.hart s.hartAt).getX r = if r = d ∧ d ≠ 0 then BitVec.ofNat 64 v else s.me.getX r

/-- The executing hart writes `v` to rd once the invalidations it has posted are acknowledged (10 R224). -/
def HartAwaits (s : State) (d : BitVec 5) (v : Nat) (t : State) : Prop :=
  (t.hart s.hartAt).await = some (d.toNat, BitVec.ofNat 64 v) ∧ (t.hart s.hartAt).pc = s.me.pc ∧ (t.hart s.hartAt).x = s.me.x

/-- The magnitude of a finite f32 in units of 2^−149 (03 Table 3.2). -/
def f32Units (b : Nat) : Nat :=
  match fpDec .f32 b with
  | .fin _ m e => m * 2 ^ (e + 149).toNat
  | _ => 0
/-- The f32 encoding of 2^n, from −149 to 127. -/
def f32Pow (n : Int) : Nat := if -126 ≤ n then (n + 127).toNat * 2 ^ 23 else 2 ^ (n + 149).toNat

/-- A group found by a number has that number; groups are listed once. -/
def GroupsNamed (s : State) : Prop :=
  (∀ i g, s.group i = some g → g.gid = i) ∧ (∀ x ∈ s.groups, x.2.gid = x.1) ∧ (s.groups.map (·.1)).Nodup

/-- What every step keeps: physical memory, the cores and the harts stand in their canonical form, and groups are listed under
their numbers. -/
structure Canonical (s : State) : Prop where
  memory : Memory.wf s.mem = true
  cores : smWf {} s.cores = true
  harts : smWf {} s.harts = true
  groups : GroupsNamed s

/-- A word of the focused group is about to issue: nothing is on the agenda, its slot is bound and its run goes on, its clause's
header `h` is held and word `w` of the clause is fetched (01 R15 to R22; 21 R387). -/
structure WordDue (s : State) (h : Header) (w : W32) : Prop where
  agenda : s.agenda = []
  running : s.running = true
  focus : ∃ core slot, s.focus = .slot core slot
  held : s.held = false
  goes : s.g.runOver = false
  first : s.slotBehind = none
  header : s.g.header = some h
  inside : s.g.p.cwi < h.n
  count : s.g.rc ≠ 24
  unmatched : s.comparator s.g = none
  word : s.fetchWord s.g s.wordAddr.toNat = .word w

end Machine

end Sys2Proof
end

