-- ==== Sys2Proof/Certificates/Slice0/Obligations.lean ====
section
/-! DEFINITION. The statements for the provers. Each docstring names the rules of the spec that the statement formalises;
a statement that rests on a choice of the model names its log entry. -/

open Sys2Proof Sys2Proof.Machine

/-! ### Scalar instructions (spec 04) -/

/-- 04 R89, R91 with R87: every integer operation of opcode 0x00 but the divisions writes the value of Table 4.1 to d in
64 bits, raises no flag and changes nothing else. -/
def Obligations.ScalarIntegerResults : Prop :=
  ∀ (s : State) (d a b : Reg),
    let x := s.g.sr a
    let y := s.g.sr b
    let z := s.g.sr d
    let sh := y.toNat % 64
    GivesScalar (.sAdd d a b) s d (fun v => v.toNat = (x.toNat + y.toNat) % 2 ^ 64) ∧
    GivesScalar (.sSub d a b) s d (fun v => (v.toNat + y.toNat) % 2 ^ 64 = x.toNat) ∧
    GivesScalar (.sAnd d a b) s d (fun v => ∀ j, v.getLsbD j = (x.getLsbD j && y.getLsbD j)) ∧
    GivesScalar (.sOr d a b) s d (fun v => ∀ j, v.getLsbD j = (x.getLsbD j || y.getLsbD j)) ∧
    GivesScalar (.sXor d a b) s d (fun v => ∀ j, v.getLsbD j = (x.getLsbD j != y.getLsbD j)) ∧
    GivesScalar (.sAndn d a b) s d (fun v => ∀ j, v.getLsbD j = (x.getLsbD j && !y.getLsbD j)) ∧
    GivesScalar (.sShl d a b) s d (fun v => v.toNat = x.toNat * 2 ^ sh % 2 ^ 64) ∧
    GivesScalar (.sShr d a b) s d (fun v => v.toNat = x.toNat / 2 ^ sh) ∧
    GivesScalar (.sSra d a b) s d (fun v => v.toInt = x.toInt / 2 ^ sh) ∧
    GivesScalar (.sRot d a b) s d (fun v => ∀ j < 64, v.getLsbD j = x.getLsbD ((j + 64 - sh) % 64)) ∧
    GivesScalar (.sMin d a b) s d (fun v => v.toInt = min x.toInt y.toInt) ∧
    GivesScalar (.sMax d a b) s d (fun v => v.toInt = max x.toInt y.toInt) ∧
    GivesScalar (.sMinn d a b) s d (fun v => v.toNat = min x.toNat y.toNat) ∧
    GivesScalar (.sMaxn d a b) s d (fun v => v.toNat = max x.toNat y.toNat) ∧
    GivesScalar (.sMov d a) s d (fun v => v = x) ∧
    GivesScalar (.sMul d a b) s d (fun v => v.toNat = x.toNat * y.toNat % 2 ^ 64) ∧
    GivesScalar (.sMulh d a b) s d (fun v => v.toInt = x.toInt * y.toInt / 2 ^ 64) ∧
    GivesScalar (.sMulhn d a b) s d (fun v => v.toNat = x.toNat * y.toNat / 2 ^ 64) ∧
    GivesScalar (.sClz d a) s d (fun v => v.toNat ≤ 64 ∧ (∀ j < v.toNat, x.getLsbD (63 - j) = false) ∧
      (v.toNat < 64 → x.getLsbD (63 - v.toNat) = true)) ∧
    GivesScalar (.sCtz d a) s d (fun v => v.toNat ≤ 64 ∧ (∀ j < v.toNat, x.getLsbD j = false) ∧
      (v.toNat < 64 → x.getLsbD v.toNat = true)) ∧
    GivesScalar (.sPop d a) s d (fun v => v.toNat = ((List.range 64).filter fun j => x.getLsbD j).length) ∧
    GivesScalar (.sBext d a b) s d (fun v => ∀ j < 64,
      v.getLsbD j = (decide (j < min (y.toNat / 256 % 128) 64) && x.getLsbD (sh + j))) ∧
    GivesScalar (.sBins d a b) s d (fun v => ∀ j < 64,
      v.getLsbD j = if sh ≤ j ∧ j < sh + min (y.toNat / 256 % 128) 64 then x.getLsbD (j - sh) else z.getLsbD j)

/-- 04 R90: the quotient is rounded toward zero and the remainder takes the sign of the dividend; division by zero and
signed overflow give the stated values and the instruction completes. -/
def Obligations.ScalarDivision : Prop :=
  ∀ (s : State) (d a b : Reg),
    let x := s.g.sr a
    let y := s.g.sr b
    GivesScalar (.sDiv d a b) s d (fun q =>
      (y = 0 → q = BitVec.allOnes 64) ∧ (x.toInt = -2 ^ 63 ∧ y.toInt = -1 → q.toInt = -2 ^ 63) ∧
      (y ≠ 0 ∧ ¬(x.toInt = -2 ^ 63 ∧ y.toInt = -1) → q.toInt = x.toInt.tdiv y.toInt)) ∧
    GivesScalar (.sRem d a b) s d (fun r =>
      (y = 0 → r = x) ∧ (y ≠ 0 → r.toInt = x.toInt - x.toInt.tdiv y.toInt * y.toInt) ∧
      (x.toInt = -2 ^ 63 ∧ y.toInt = -1 → r = 0)) ∧
    GivesScalar (.sDivn d a b) s d (fun q =>
      (y = 0 → q = BitVec.allOnes 64) ∧ (y ≠ 0 → q.toNat = x.toNat / y.toNat)) ∧
    GivesScalar (.sRemn d a b) s d (fun r =>
      (y = 0 → r = x) ∧ (y ≠ 0 → r.toNat = x.toNat - x.toNat / y.toNat * y.toNat))

/-- 04 R93, R94, R96: the immediate forms, the constants and the integer compares. -/
def Obligations.ScalarImmediatesAndCompares : Prop :=
  ∀ (s : State) (d a b : Reg) (c : BitVec 3) (i : BitVec 13) (j : BitVec 19) (k : Reg),
    let x := s.g.sr a
    let y := s.g.sr b
    let z := s.g.sr d
    let e : Word := i.signExtend 64
    GivesScalar (.sAddi d a i) s d (fun v => v.toNat = (x.toNat + e.toNat) % 2 ^ 64) ∧
    GivesScalar (.sAndi d a i) s d (fun v => ∀ n, v.getLsbD n = (x.getLsbD n && e.getLsbD n)) ∧
    GivesScalar (.sOri d a i) s d (fun v => ∀ n, v.getLsbD n = (x.getLsbD n || e.getLsbD n)) ∧
    GivesScalar (.sXori d a i) s d (fun v => ∀ n, v.getLsbD n = (x.getLsbD n != e.getLsbD n)) ∧
    GivesScalar (.sShli d a k) s d (fun v => v.toNat = x.toNat * 2 ^ k.toNat % 2 ^ 64) ∧
    GivesScalar (.sShri d a k) s d (fun v => v.toNat = x.toNat / 2 ^ k.toNat) ∧
    GivesScalar (.sSrai d a k) s d (fun v => v.toInt = x.toInt / 2 ^ k.toNat) ∧
    GivesScalar (.sLi d j) s d (fun v => v.toInt = j.toInt) ∧
    GivesScalar (.sLim d j) s d (fun v => v.toNat = (z.toNat * 2 ^ 19 + j.toNat) % 2 ^ 64) ∧
    GivesScalar (.sCmp d a b c) s d (fun v => v = 0 ∨ v = 1) ∧
    (c = 0 → GivesScalar (.sCmp d a b c) s d (fun v => (v = 1 ↔ x = y) ∧ (v = 0 ↔ x ≠ y)) ∧
      GivesScalar (.sCmpi c d a i) s d (fun v => (v = 1 ↔ x = e) ∧ (v = 0 ↔ x ≠ e))) ∧
    (c = 1 → GivesScalar (.sCmp d a b c) s d (fun v => (v = 1 ↔ x ≠ y) ∧ (v = 0 ↔ x = y)) ∧
      GivesScalar (.sCmpi c d a i) s d (fun v => (v = 1 ↔ x ≠ e) ∧ (v = 0 ↔ x = e))) ∧
    (c = 2 → GivesScalar (.sCmp d a b c) s d (fun v => (v = 1 ↔ x.toInt < y.toInt) ∧ (v = 0 ↔ y.toInt ≤ x.toInt)) ∧
      GivesScalar (.sCmpi c d a i) s d (fun v => (v = 1 ↔ x.toInt < e.toInt) ∧ (v = 0 ↔ e.toInt ≤ x.toInt))) ∧
    (c = 3 → GivesScalar (.sCmp d a b c) s d (fun v => (v = 1 ↔ y.toInt ≤ x.toInt) ∧ (v = 0 ↔ x.toInt < y.toInt)) ∧
      GivesScalar (.sCmpi c d a i) s d (fun v => (v = 1 ↔ e.toInt ≤ x.toInt) ∧ (v = 0 ↔ x.toInt < e.toInt))) ∧
    (c = 4 → GivesScalar (.sCmp d a b c) s d (fun v => (v = 1 ↔ x.toNat < y.toNat) ∧ (v = 0 ↔ y.toNat ≤ x.toNat)) ∧
      GivesScalar (.sCmpi c d a i) s d (fun v => (v = 1 ↔ x.toNat < e.toNat) ∧ (v = 0 ↔ e.toNat ≤ x.toNat))) ∧
    (c = 5 → GivesScalar (.sCmp d a b c) s d (fun v => (v = 1 ↔ y.toNat ≤ x.toNat) ∧ (v = 0 ↔ x.toNat < y.toNat)) ∧
      GivesScalar (.sCmpi c d a i) s d (fun v => (v = 1 ↔ e.toNat ≤ x.toNat) ∧ (v = 0 ↔ x.toNat < e.toNat)))

/-- 04 R92: d := (a + b × 2^shift) mod 2^64. -/
def Obligations.ScalarLea : Prop :=
  ∀ (s : State) (d a b : Reg) (h : BitVec 3),
    GivesScalar (.sLea d a b h) s d (fun v => v.toNat = ((s.g.sr a).toNat + (s.g.sr b).toNat * 2 ^ h.toNat) % 2 ^ 64) ∧
    ∀ w : W32, fldN w 25 7 = 3 → decode .sv w =
      if fldN w 3 4 = 0 then some (.sLea (fld w 19 6) (fld w 13 6) (fld w 7 6) (fld w 0 3)) else none

/-- 04 R97: d := a if c is not zero in any of its 64 bits, else b. -/
def Obligations.ScalarSelect : Prop :=
  ∀ (s : State) (d a b c : Reg),
    GivesScalar (.sSel d a b c) s d (fun v =>
      ((∃ j, (s.g.sr c).getLsbD j = true) → v = s.g.sr a) ∧ ((∀ j, (s.g.sr c).getLsbD j = false) → v = s.g.sr b))

/-- 04 R87: a narrow floating-point result leaves every higher bit of d zero, since each operation answers an encoding of its
type. -/
def Obligations.FloatResultsFit : Prop :=
  ∀ (T : FTy) (m : Rm) (sat neg : Bool) (x y z : Nat),
    (fpAdd T m sat neg x y).bits < 2 ^ fpBits T ∧ (fpSub T m sat neg x y).bits < 2 ^ fpBits T ∧
    (fpMul T m sat neg x y).bits < 2 ^ fpBits T ∧ (T = .f32 ∨ T = .f64 → (fpDiv T m neg x y).bits < 2 ^ fpBits T) ∧
    (T = .f32 ∨ T = .f64 → (fpSqrt T m neg x).bits < 2 ^ fpBits T) ∧ (fpMin T x y).bits < 2 ^ fpBits T ∧
    (fpMaxOp T x y).bits < 2 ^ fpBits T ∧ (fpFma T m sat neg x y z).bits < 2 ^ fpBits T

/-- 04 R98 to R102 with 03 R77: the floating-point operations of opcode 0x20 round once as their RM says (the functions of
Machine/Fp), write the result to d and OR their flags into FPF; s.fclass writes one of the ten class bits and raises no flag;
s.fcmp writes 0 or 1 as Table 4.6 says; s.fcvt writes the conversion of Table 4.7; s.fma rounds p + c once with p = a × b or its
negation. -/
def Obligations.ScalarFloatResults : Prop :=
  (∀ (s : State) (d a b : Reg) (r : BitVec 2) (f : BitVec 1),
      let T := if f = 1#1 then FTy.f64 else FTy.f32
      let m := Rm.ofCode r
      let x := (s.g.sr a).toNat
      let y := (s.g.sr b).toNat
      let out (i : Instr) (q : FRes) : Prop := Completes i s (WritesScalar s d (BitVec.ofNat 64 q.bits) q.fl)
      out (.sFadd d a b r f) (fpAdd T m false false x y) ∧
      out (.sFsub d a b r f) (fpSub T m false false x y) ∧
      out (.sFmul d a b r f) (fpMul T m false false x y) ∧
      out (.sFdiv d a b r f) (fpDiv T m false x y) ∧
      out (.sFsqrt d a r f) (fpSqrt T m false x) ∧
      out (.sFmin d a b f) (fpMin T x y) ∧
      out (.sFmax d a b f) (fpMaxOp T x y)) ∧
  (∀ (s : State) (d a b c : Reg) (k t u : BitVec 3) (r : BitVec 2) (f n : BitVec 1),
      let T := if f = 1#1 then FTy.f64 else FTy.f32
      let x := (s.g.sr a).toNat
      let y := (s.g.sr b).toNat
      let z := (s.g.sr c).toNat
      GivesScalar (.sFclass d a f) s d (fun v => (∃ j < 10, v.toNat = 2 ^ j) ∧
        (v.toNat = 2 ^ 9 ∨ v.toNat = 2 ^ 8 ↔ (fpDec T x).isNaN = true) ∧
        (v.toNat = 2 ^ 4 ∨ v.toNat = 2 ^ 3 ↔ (fpDec T x).isZero = true) ∧
        (v.toNat = 2 ^ 7 ∨ v.toNat = 2 ^ 0 ↔ (fpDec T x).isInf = true)) ∧
      (k.toNat ≤ 3 → Completes (.sFcmp d a b k f) s
        (WritesScalar s d (if (fpCmp T k.toNat x y).1 then 1 else 0) (fpCmp T k.toNat x y).2)) ∧
      (((fpDec T x).isNaN = true ∨ (fpDec T y).isNaN = true) →
        (fpCmp T 0 x y).1 = false ∧ (fpCmp T 1 x y) = (false, Flags.nv) ∧ (fpCmp T 2 x y) = (false, Flags.nv) ∧
        (fpCmp T 3 x y).1 = true) ∧
      (let q := scalarCvt (CvTy.ofCode t) (CvTy.ofCode u) (Rm.ofCode r) (n = 1#1) x
       Completes (.sFcvt d a t u r n) s (WritesScalar s d (BitVec.ofNat 64 q.bits) q.fl)) ∧
      (let q := fpFma T (Rm.ofCode r) false (n = 1#1) x y z
       Completes (.sFma f r d a b c n) s (WritesScalar s d (BitVec.ofNat 64 q.bits) q.fl)))

/-! ### Control transfers (04 R103 to R107; 01 R30, R31; 05 R113 to R118) -/

/-- 04 R95, R103, R104 with 01 R16, R22: nop changes no register and no flag, counts one word of the run and goes on in sequence,
and a word whose clause has END resets the count; b is always taken, bz, bnz and bcmp test all 64 bits, loop counts down before
its test and with s63 is always taken (that the computed d - 1 is tested also where the write to s56 or s57 is discarded is the
model's choice, log 27); a transfer that is not taken goes on in sequence, and none but loop changes a register;
jr sets the PC to a[56:0], and an address that is not a multiple of 4 faults MISALIGNED with FRA = a. -/
def Obligations.ControlTransfers : Prop :=
  (∀ (s : State),
      Completes .nop s (fun t => NoEffect s t ∧ GoesOn s t ∧
        t.g.rc = if s.g.lastWord ∧ (s.g.header.map Header.endRun) = some true then 0 else s.g.rc + 1)) ∧
  (∀ (s : State) (d a : Reg) (i : BitVec 19) (c : BitVec 3) (k : BitVec 13),
      let H := s.g.p.pc
      let target := H + 4 * i.signExtend 57
      let short := H + 4 * k.signExtend 57
      let x := s.g.sr d
      let y := s.g.sr a
      let either (i : Instr) (taken : Prop) (dest : VAddr) : Prop :=
        Completes i s (fun t => NoEffect s t ∧ (taken → WentTo dest s t) ∧ (¬taken → GoesOn s t))
      either (.branch i) True target ∧
      either (.bz d i) (x = 0) target ∧
      either (.bnz d i) (x ≠ 0) target ∧
      Completes (.loop d i) s (fun t => SetsScalar s d (x - 1) 0 t ∧ (x ≠ 1 → WentTo target s t) ∧ (x = 1 → GoesOn s t)) ∧
      (c = 0 → either (.bcmp c d a k) (x = y) short) ∧
      (c = 1 → either (.bcmp c d a k) (x ≠ y) short) ∧
      (c = 2 → either (.bcmp c d a k) (x.toInt < y.toInt) short) ∧
      (c = 3 → either (.bcmp c d a k) (y.toInt ≤ x.toInt) short) ∧
      (c = 4 → either (.bcmp c d a k) (x.toNat < y.toNat) short) ∧
      (c = 5 → either (.bcmp c d a k) (y.toNat ≤ x.toNat) short)) ∧
  (∀ (s : State) (a : Reg),
      ((s.g.sr a).toNat % 4 = 0 →
        Completes (.jr a) s (fun t => NoEffect s t ∧ WentTo ((s.g.sr a).setWidth 57) s t)) ∧
      ((s.g.sr a).toNat % 4 ≠ 0 → Completes (.jr a) s (Faults s .misaligned (s.g.sr a))))

/-- 04 R105 with 01 R30, R31, R34: where the slide stands, call and callr move the window up by 8, 16, 24 or 32, set s59 to
the next header with the slide code and transfer; ret moves the window down by the slide of s59 and returns to its header.
A misaligned callr target faults, and so does a slide that fails, with its fault, and a window below the slide, with FRA = WSP, or below the path's window at its split
(01 R36), with the word's address (17 R437). -/
def Obligations.CallsAndReturns : Prop :=
  ∀ (s u : State) (a : Reg) (k : BitVec 2) (i : BitVec 19),
    let n := (k.toNat + 1) * 8
    let called (target : VAddr) (t : State) : Prop :=
      t.g.wpos = s.g.wpos + n ∧ t.g.wlow = u.g.wlow ∧ t.g.wsp = u.g.wsp ∧ t.g.sring = s.g.sring ∧ t.g.vring = s.g.vring ∧
      t.g.fpf = s.g.fpf ∧ WentTo target s t ∧
      t.g.sr 59 = s.g.nextHeader.setWidth 64 ||| k.setWidth 64 ∧
      (∀ r : Reg, 48 ≤ r.toNat ∧ r.toNat ≠ 59 → t.g.sr r = s.g.sr r) ∧
      (∀ r : Reg, r.toNat + n < 48 → t.g.sr r = s.g.sr (r + BitVec.ofNat 6 n)) ∧
      (∀ c b, memByte (t.core c).pool b = memByte (u.core c).pool b) ∧ (∀ b, memByte t.mem b = memByte s.mem b)
    let l := s.g.sr 59
    let m := (l.toNat % 4 + 1) * 8
    let floor := (s.g.split.map Split.wpos).getD 0
    (s.slideUp n = (u, none) → Completes (.call k i) s (called (s.g.p.pc + 4 * i.signExtend 57))) ∧
    (s.slideUp n = (u, none) → (s.g.sr a).toNat % 4 = 0 → Completes (.callr a k) s (called ((s.g.sr a).setWidth 57))) ∧
    ((s.g.sr a).toNat % 4 ≠ 0 → Completes (.callr a k) s (Faults s .misaligned (s.g.sr a))) ∧
    (∀ c f, s.slideUp n = (u, some (c, f)) → Completes (.call k i) s (Faults u c f) ∧
      ((s.g.sr a).toNat % 4 = 0 → Completes (.callr a k) s (Faults u c f))) ∧
    (∀ c f, l ≠ 0 → m + floor ≤ s.g.wpos → s.slideTo (s.g.wpos - m) = (u, some (c, f)) → Completes .ret s (Faults u c f)) ∧
    (l ≠ 0 → m + floor ≤ s.g.wpos → s.slideTo (s.g.wpos - m) = (u, none) →
      Completes .ret s (fun t => t.g.wpos = s.g.wpos - m ∧ t.g.sring = u.g.sring ∧ t.g.vring = u.g.vring ∧
        t.g.wsp = u.g.wsp ∧ t.g.wlow = u.g.wlow ∧ t.g.fpf = s.g.fpf ∧
        WentTo (BitVec.ofNat 57 (l.toNat % 2 ^ 57 / 4 * 4)) s t ∧ (∀ r : Reg, 48 ≤ r.toNat → t.g.sr r = s.g.sr r) ∧
        (∀ c b, memByte (t.core c).pool b = memByte (s.core c).pool b) ∧ (∀ b, memByte t.mem b = memByte s.mem b))) ∧
    (l ≠ 0 → s.g.wpos < m → Completes .ret s (Faults s .stackOverflow s.g.wsp)) ∧
    (l ≠ 0 → m ≤ s.g.wpos → s.g.wpos < m + floor → Completes .ret s (Faults s .stackOverflow s.wordAddr))

/-- 01 R30, R31, R34 and Table 1.6: a slide whose ring has room moves only WPOS; a spill writes the eight oldest positions to the
spill block at WSP and raises WSP by 3136 and WLOW by 8; a fill reads them back. A spill area that is too small faults
STACK_OVERFLOW with FRA = WSP; a block that is no SELF access, or a WSL that is no SELF address, faults WINDOW_BOUNDS with the
block's address and moves nothing; where a later block of a call fails, none is spilled (04 R105), and where a later block of a return
fails, the blocks before it stand (01 R34); that the two differ is the model's reading (log 31). -/
def Obligations.WindowSlides : Prop :=
  ∀ (s : State) (k : Nat) (x : LocalAcc),
    (s.g.wpos + k + 48 ≤ 64 + s.g.wlow → s.g.wsp.toNat ≤ s.g.wsl.toNat →
      s.slideUp k = (s.modG fun g => { g with wpos := g.wpos + k }, none)) ∧
    (s.g.wsl.toNat < s.g.wsp.toNat + s.g.spillCount k * 3136 → s.slideUp k = (s, some (.stackOverflow, s.g.wsp))) ∧
    (∀ p, s.g.wlow ≤ p → s.slideTo p = (s.modG fun g => { g with wpos := p }, none)) ∧
    (isSelf s.g.wsl.toNat = true → s.selfAcc s.g s.g.wsp.toNat 3136 = .ok x →
      ∃ t, s.spillBlock = .ok t ∧ t.g = { s.g with wsp := s.g.wsp + 3136, wlow := s.g.wlow + 8 } ∧ t.mem = s.mem ∧
        ∀ c b, memByte (t.core c).pool b = memByte ((s.poolWrite x (s.g.spillBytes s.g.wlow)).core c).pool b) ∧
    (isSelf s.g.wsl.toNat = true → s.selfAcc s.g (s.g.wsp - 3136).toNat 3136 = .ok x →
      ∃ t, s.fillBlock = .ok t ∧
        t.g = { s.g.fillBytes (s.g.wlow - 8) (s.poolRead x) with wsp := s.g.wsp - 3136, wlow := s.g.wlow - 8 } ∧
        t.mem = s.mem ∧ ∀ c b, memByte (t.core c).pool b = memByte (s.core c).pool b) ∧
    (isSelf s.g.wsl.toNat = false ∨ (∃ c, s.selfAcc s.g s.g.wsp.toNat 3136 = .error c) →
      0 < s.g.spillCount k → s.g.wsp.toNat + s.g.spillCount k * 3136 ≤ s.g.wsl.toNat →
        s.slideUp k = (s, some (.windowBounds, s.g.wsp))) ∧
    (∀ p, isSelf s.g.wsl.toNat = false ∨ (∃ c, s.selfAcc s.g (s.g.wsp - 3136).toNat 3136 = .error c) → p < s.g.wlow →
      s.slideTo p = (s.modG fun g => { g with wpos := p }, some (.windowBounds, s.g.wsp - 3136))) ∧
    (∀ j t, s.spills j = (t, none) → j < s.g.spillCount k → s.g.wsp.toNat + s.g.spillCount k * 3136 ≤ s.g.wsl.toNat →
      isSelf s.g.wsl.toNat = false ∨ (∃ c, t.selfAcc t.g t.g.wsp.toNat 3136 = .error c) →
        s.slideUp k = (s, some (.windowBounds, t.g.wsp)) ∧ t.g.wsp.toNat = s.g.wsp.toNat + 3136 * j) ∧
    (∀ j t p, (s.modG fun g => { g with wpos := p }).fills j = (t, none) → j < (s.g.wlow - p + 7) / 8 →
      isSelf s.g.wsl.toNat = false ∨ (∃ c, t.selfAcc t.g (t.g.wsp - 3136).toNat 3136 = .error c) →
        s.slideTo p = (t, some (.windowBounds, t.g.wsp - 3136)))

/-- 04 R106, 05 R118, 17 R324: halt, and ret with s59 = 0, end the executing path slot; with no other slot LIVE or AT_JOIN the
group is ENDING, and otherwise the slot is left with an empty mask; a window that stands above its place at the split returns
there (01 R37), and a recorded group makes its last checkpoint (21 R391). -/
def Obligations.PathEnds : Prop :=
  ∀ (s : State),
    let o := s.g.path (!s.g.curF)
    let done (t : State) : Prop :=
      t.g.p.stat = .ended ∧ t.g.p.stack = [] ∧ t.g.rc = 0 ∧
      (o.stat = .free ∨ o.stat = .ended → t.g.stat = .ending) ∧
      (o.stat = .live ∨ o.stat = .atJoin → t.g.stat = s.g.stat ∧ t.g.p.mask = 0) ∧
      t.g.path (!s.g.curF) = o ∧ t.g.sring = s.g.sring ∧ t.g.sfix = s.g.sfix ∧ t.g.vring = s.g.vring ∧ t.g.vfix = s.g.vfix ∧
      (o.stat = .free ∨ o.stat = .ended → ∀ k w, smFind (t.core s.g.core).wins k = some w → w.gid = s.g.gid → w.closing = true) ∧
      t.g.fpf = s.g.fpf ∧ (∀ b, memByte t.mem b = memByte s.mem b) ∧
      (∀ c b, memByte (t.core c).pool b = memByte (s.core c).pool b)
    ((s.replayMode s.g = 0 → (∀ x, s.g.split = some x → s.g.wpos ≤ x.wpos) →
      Completes .halt s done ∧ (s.g.sr 59 = 0 → Completes .ret s done)) ∧
     (s.replayMode s.g = 1 → o.stat = .free ∨ o.stat = .ended → (∀ x, s.g.split = some x → s.g.wpos ≤ x.wpos) →
      (let last (t : State) : Prop := t.g.p.stat = .ended ∧ t.g.p.stack = [] ∧ t.g.rc = 0 ∧ t.g.stat = .ending ∧ t.g.ckpt = s.g.ckpt + 1
       Completes .halt s last ∧ (s.g.sr 59 = 0 → Completes .ret s last))) ∧
     (∀ (x : Split) (u : State), s.replayMode s.g = 0 → s.g.split = some x → o.stat ≠ .free → x.wpos < s.g.wpos →
      s.slideTo x.wpos = (u, none) →
      (let back (t : State) : Prop := t.g.p.stat = .ended ∧ t.g.p.stack = [] ∧ t.g.rc = 0 ∧ t.g.wpos = x.wpos ∧ t.g.wsp = u.g.wsp ∧
         t.g.wlow = u.g.wlow ∧ t.g.sring = u.g.sring ∧ t.g.vring = u.g.vring
       Completes .halt s back ∧ (s.g.sr 59 = 0 → Completes .ret s back))))

/-- 05 R113 to R115 with 01 R36, R37 and 07 R168: v.split reads the header at J, at the top level opens a split whose T side goes on
and whose F side starts after that header, inside a path nests and runs T first, or F where no lane is in T; a ninth level faults
SPLIT_DEPTH and a word at J that is no header ILLEGAL_CLAUSE. v.join turns a nested split to its F side, ends it with the lanes of
both sides, waits at a top-level join, or completes it in T with the lanes of both slots once F has nothing outstanding, and holds
its slot before that; away from its join header it is no instruction, with the word's address (17 R437), and in another window
STACK_OVERFLOW. F keeps its barrier
tokens. -/
def Obligations.SplitsAndJoins : Prop :=
  (∀ (s : State) (d : Reg) (i : BitVec 19) (w : W32) (h : Header) (pas : List Nat) (b : Bool),
      let J := s.g.p.pc + 4 * i.signExtend 57
      let c := s.g.triple d
      let tm := s.g.p.mask &&& c
      let fm := s.g.p.mask &&& ~~~c
      let fe := J + BitVec.ofNat 57 (4 * (h.n + 1))
      let p := s.g.p
      let q := s.g.path (!s.g.curF)
      let regs (t : State) : Prop :=
        (∀ r : Reg, r.toNat < 60 → t.g.sr r = s.g.sr r) ∧ (∀ r, t.g.vr r = s.g.vr r) ∧ t.g.fpf = s.g.fpf ∧
        t.g.rc = 0 ∧ t.g.runOver = true ∧ t.g.wpos = s.g.wpos ∧
        (∀ k o, memByte (t.core k).pool o = memByte (s.core k).pool o) ∧
        (s.farCheck s.g J.toNat 4 .fetch none = .ok pas b → s.portCount s.g.core s.g.enc true (pas.take 1) = 0 →
          ∀ o, memByte t.mem o = memByte s.mem o)
      s.fetchWord s.g J.toNat = .word w →
        (decodeHeader w = none → Completes (.vSplit d i) s (Faults s .illegalClause (J.setWidth 64))) ∧
        (decodeHeader w = some h → q.stat = .free → s.g.curF = false →
          Completes (.vSplit d i) s (fun t => regs t ∧ t.g.t.mask = tm ∧ t.g.t.pc = s.g.nextHeader ∧ t.g.t.cwi = 0 ∧
            t.g.f.mask = fm ∧ t.g.f.pc = fe ∧ t.g.f.cwi = 0 ∧ t.g.f.stack = [] ∧ t.g.f.toks = s.g.f.toks ∧ t.g.t.toks = s.g.t.toks ∧
            t.g.t.stat = (if tm = 0 ∧ fm ≠ 0 then .atJoin else .live) ∧ t.g.f.stat = (if fm = 0 then .atJoin else .live) ∧
            t.g.split = some { join := J.toNat, fEntry := fe.toNat, wpos := s.g.wpos })) ∧
        (decodeHeader w = some h → q.stat ≠ .free → p.stack.length < 8 →
          Completes (.vSplit d i) s (fun t => regs t ∧ t.g.p.mask = (if tm = 0 then fm else tm) ∧
            t.g.p.pc = (if tm = 0 then fe else s.g.nextHeader) ∧ t.g.p.cwi = 0 ∧
            t.g.p.stack = { join := J.toNat, fmask := fm, acc := 0, sideF := tm = 0, wpos := s.g.wpos } :: p.stack ∧
            t.g.curF = s.g.curF ∧ (t.g.path (!s.g.curF)).mask = q.mask ∧ (t.g.path (!s.g.curF)).pc = q.pc)) ∧
        (decodeHeader w = some h → q.stat ≠ .free → 8 ≤ p.stack.length →
          Completes (.vSplit d i) s (Faults (s.fetched s.g J.toNat) .splitDepth (J.setWidth 64)))) ∧
  (∀ (s : State) (e : StackEnt) (rest : List StackEnt) (x : Split),
      let p := s.g.p
      let q := s.g.path (!s.g.curF)
      let f := s.g.f
      let regs (t : State) : Prop :=
        (∀ r : Reg, r.toNat < 60 → t.g.sr r = s.g.sr r) ∧ (∀ r, t.g.vr r = s.g.vr r) ∧ t.g.fpf = s.g.fpf ∧
        (∀ b, memByte t.mem b = memByte s.mem b) ∧ (∀ k b, memByte (t.core k).pool b = memByte (s.core k).pool b)
      let clear : Prop := f.ld = 0 ∧ f.st = 0 ∧ f.cp = 0 ∧ f.tl = 0 ∧ f.rst = 0
      (p.stack = e :: rest →
        (p.cwi = 0 → p.pc.toNat = e.join → s.g.wpos = e.wpos →
          (e.sideF = false ∧ e.fmask ≠ 0 → Completes .vJoin s (fun t => regs t ∧ t.g.p.mask = e.fmask ∧
            t.g.p.pc = s.g.nextHeader ∧ t.g.p.cwi = 0 ∧ t.g.p.stack = { e with acc := p.mask, sideF := true } :: rest ∧ t.g.rc = 0)) ∧
          (e.sideF = true ∨ e.fmask = 0 → Completes .vJoin s (fun t => regs t ∧ t.g.p.mask = e.acc ||| p.mask ∧
            t.g.p.stack = rest ∧ GoesOn s t))) ∧
        (p.cwi ≠ 0 ∨ p.pc.toNat ≠ e.join → Completes .vJoin s (Faults s .illegalInstruction s.wordAddr)) ∧
        (p.cwi = 0 → p.pc.toNat = e.join → s.g.wpos ≠ e.wpos → Completes .vJoin s (Faults s .stackOverflow s.g.wsp))) ∧
      (p.stack = [] → q.stat ≠ .free → s.g.split = some x →
        (p.cwi = 0 → p.pc.toNat = x.join → s.g.wpos = x.wpos →
          (q.stat = .live → Completes .vJoin s (fun t => regs t ∧ t.g.p.stat = .atJoin ∧ t.g.p.mask = p.mask ∧
            t.g.path (!s.g.curF) = q ∧ t.g.rc = 0 ∧ t.g.runOver = true)) ∧
          (q.stat = .atJoin ∨ q.stat = .ended → clear →
            Completes .vJoin s (fun t => regs t ∧ t.g.t.mask = s.g.t.mask ||| f.mask ∧ t.g.t.stat = .live ∧ t.g.t.stack = [] ∧
              t.g.t.toks = s.g.t.toks ∧ t.g.f = { toks := f.toks, mon := f.mon } ∧ t.g.curF = false ∧ t.g.split = none ∧
              (if s.g.lastWord then t.g.t.pc = s.g.nextHeader ∧ t.g.t.cwi = 0 else t.g.t.pc = p.pc ∧ t.g.t.cwi = 1))) ∧
          (q.stat = .atJoin ∨ q.stat = .ended → ¬clear → Completes .vJoin s (Holds s))) ∧
        (p.cwi ≠ 0 ∨ p.pc.toNat ≠ x.join → Completes .vJoin s (Faults s .illegalInstruction s.wordAddr)) ∧
        (p.cwi = 0 → p.pc.toNat = x.join → s.g.wpos ≠ x.wpos → Completes .vJoin s (Faults s .stackOverflow s.g.wsp))) ∧
      (p.stack = [] → q.stat = .free → Completes .vJoin s (Faults s .illegalInstruction s.wordAddr)))

/-! ### Vector instructions (spec 06) -/

/-- 06 R144, R145 with 03 R62, R70 and 05 R110: the integer operations compute each sub-element of each active lane as its TYPE
reads it, wrapped or, with SN, saturated; inactive lanes, flags and everything else stand. -/
def Obligations.VectorIntegerResults : Prop :=
  ∀ (s : State) (d a b c : Reg) (t : BitVec 4) (n : BitVec 1),
    let T := VTy.of t
    let w := T.width
    let va := s.g.vr a
    let vb := s.g.vr b
    let vc := s.g.vr c
    let X (i k : Nat) : Int := toInt T.signed w (elemGet T i k va)
    let Y (i k : Nat) : Int := toInt T.signed w (elemGet T i k vb)
    let fit (x : Int) : Nat := wrapInt w (if n = 1#1 then satInt T.signed w x else x)
    let cnt (i k : Nat) : Nat := elemGet T i k vb % w
    let L (v : VReg) (i : Nat) : Nat := (lane v i).toNat
    let S (v : VReg) (i : Nat) : Int := (lane v i).toInt
    GivesVector (.vAdd d a b t n) s d T (fun i k => fit (X i k + Y i k)) 0 ∧
    GivesVector (.vSub d a b t n) s d T (fun i k => fit (X i k - Y i k)) 0 ∧
    GivesVector (.vMul d a b t n) s d T (fun i k => fit (X i k * Y i k)) 0 ∧
    GivesVector (.vMulh d a b t) s d T (fun i k => wrapInt w (X i k * Y i k / 2 ^ w)) 0 ∧
    GivesVector (.vAnd d a b) s d .i32 (fun i _ => L va i &&& L vb i) 0 ∧
    GivesVector (.vOr d a b) s d .i32 (fun i _ => L va i ||| L vb i) 0 ∧
    GivesVector (.vXor d a b) s d .i32 (fun i _ => L va i ^^^ L vb i) 0 ∧
    GivesVector (.vAndn d a b) s d .i32 (fun i _ => L va i &&& (2 ^ 32 - 1 - L vb i)) 0 ∧
    GivesVector (.vShl d a b t n) s d T (fun i k => fit (X i k * 2 ^ cnt i k)) 0 ∧
    GivesVector (.vShr d a b t) s d T (fun i k => wrapInt w (toInt false w (elemGet T i k va) / 2 ^ cnt i k)) 0 ∧
    GivesVector (.vSra d a b t) s d T (fun i k => wrapInt w (toInt true w (elemGet T i k va) / 2 ^ cnt i k)) 0 ∧
    GivesVector (.vMin d a b t) s d T (fun i k => wrapInt w (min (X i k) (Y i k))) 0 ∧
    GivesVector (.vMax d a b t) s d T (fun i k => wrapInt w (max (X i k) (Y i k))) 0 ∧
    GivesVector (.vAbs d a t n) s d T (fun i k => fit (X i k).natAbs) 0 ∧
    (∃ f, (∀ i k, f i k ≤ w ∧ (∀ j < f i k, bitAt (elemGet T i k va) (w - 1 - j) = false) ∧
        (f i k < w → bitAt (elemGet T i k va) (w - 1 - f i k) = true)) ∧ GivesVector (.vClz d a t) s d T f 0) ∧
    GivesVector (.vPop d a t) s d T (fun i k => ((List.range w).filter fun j => bitAt (elemGet T i k va) j).length) 0 ∧
    GivesVector (.vMad d a b c n) s d .i32
      (fun i _ => wrapInt 32 ((if n = 1#1 then -(S va i * S vb i) else S va i * S vb i) + S vc i)) 0

/-- 06 R146, R147 with 03 R70, R73, R77: the floating-point operations compute each active element alone in its TYPE, SN being the
saturate bit of the 8-bit types and the negation of the others, and OR the flags of all active elements into FPF; the
fused forms round once to nearest. R73 states what an infinity converted into e5m2 becomes; that arithmetic of e5m2x4 on an infinite
operand delivers the same is the model's choice (log 42). -/
def Obligations.VectorFloatResults : Prop :=
  ∀ (s : State) (d a b c : Reg) (t : BitVec 4) (r : BitVec 2) (n : BitVec 1),
    let T := VTy.of t
    let F := T.fty.getD .f32
    let eight : Bool := T = .e4m3x4 ∨ T = .e5m2x4
    let rm := if eight then Rm.rne else Rm.ofCode r
    let sat := eight && n = 1#1
    let neg := !eight && n = 1#1
    let va := s.g.vr a
    let vb := s.g.vr b
    let vc := s.g.vr c
    let out (i : Instr) (U : VTy) (h : (VReg → Nat) → FRes) : Prop :=
      GivesVector i s d U (fun j k => (h (elemGet U j k)).bits) (s.g.flagsOf U (laneRes U h))
    out (.vFadd d a b t r n) T (fun e => fpAdd F rm sat neg (e va) (e vb)) ∧
    out (.vFsub d a b t r n) T (fun e => fpSub F rm sat neg (e va) (e vb)) ∧
    out (.vFmul d a b t r n) T (fun e => fpMul F rm sat neg (e va) (e vb)) ∧
    out (.vFdiv d a b t r n) T (fun e => fpDiv F rm neg (e va) (e vb)) ∧
    out (.vFsqrt d a t r) T (fun e => fpSqrt F rm false (e va)) ∧
    out (.vFmin d a b t) T (fun e => fpMin F (e va) (e vb)) ∧
    out (.vFmax d a b t) T (fun e => fpMaxOp F (e va) (e vb)) ∧
    out (.vFmaF32 d a b c n) .f32 (fun e => fpFma .f32 .rne false (n = 1#1) (e va) (e vb) (e vc)) ∧
    out (.vFmaF64 d a b c n) .f64 (fun e => fpFma .f64 .rne false (n = 1#1) (e va) (e vb) (e vc)) ∧
    out (.vFmaF16x2 d a b c n) .f16x2 (fun e => fpFma .f16 .rne false (n = 1#1) (e va) (e vb) (e vc)) ∧
    out (.vFmaBf16x2 d a b c n) .bf16x2 (fun e => fpFma .bf16 .rne false (n = 1#1) (e va) (e vb) (e vc))

/-- 06 R148 with Table 6.3, 03 R74 and R85: the approximating words complete and write each active f32 lane a function of its own
bits. Zeros, infinities, negative operands, NaNs, the exact cases and results beyond the range have the stated values and flags; every
other result is finite and raises NX, and UF below 2^−126. The results of v.frcp and v.frsq lie within 1 ulp of the exact value,
in units of 2^−149. Which value within its bound is delivered is a fixed function that the spec leaves open (log 5). -/
def Obligations.VectorApproximations : Prop :=
  (∀ (s : State) (d a : Reg),
    let va := s.g.vr a
    let out (i : Instr) (f : W32 → FRes) : Prop :=
      GivesVector i s d .f32 (fun j _ => (f (lane va j)).bits)
        (s.g.flagsOf .f32 (laneRes .f32 fun e => f (BitVec.ofNat 32 (e va))))
    out (.vFrcp d a) frcpF32 ∧ out (.vFrsq d a) frsqF32 ∧ out (.vFexp2 d a) fexp2F32 ∧ out (.vFlog2 d a) flog2F32) ∧
  (∀ (x : W32) (g : Bool) (m : Nat) (e : Int),
    let v := fpDec .f32 x.toNat
    let i : Int := (if g then -(m : Int) else m) * 2 ^ (e + 149).toNat
    let inexact (f : FRes) : Prop := f.bits % 2 ^ 31 < 0x7F800000 ∧ f.fl = Flags.nx ||| Flags.uf.when (f.bits % 2 ^ 31 < 2 ^ 23)
    (v = .nan g m → ∀ f ∈ [frcpF32, frsqF32, fexp2F32, flog2F32], f x = ⟨x.toNat ||| 2 ^ 22, Flags.nv.when (!bitAt m 22)⟩) ∧
    (v = .inf g → frcpF32 x = ⟨fpZero .f32 g, 0⟩ ∧ frsqF32 x = (if g then ⟨0x7FC00000, Flags.nv⟩ else ⟨0, 0⟩) ∧
      fexp2F32 x = ⟨if g then 0 else 0x7F800000, 0⟩ ∧ flog2F32 x = (if g then ⟨0x7FC00000, Flags.nv⟩ else ⟨0x7F800000, 0⟩)) ∧
    (v = .fin g m e → m = 0 → frcpF32 x = ⟨fpInf .f32 g, Flags.dz⟩ ∧ frsqF32 x = ⟨fpInf .f32 g, Flags.dz⟩ ∧
      flog2F32 x = ⟨0xFF800000, Flags.dz⟩) ∧
    (v = .fin true m e → m ≠ 0 → frsqF32 x = ⟨0x7FC00000, Flags.nv⟩ ∧ flog2F32 x = ⟨0x7FC00000, Flags.nv⟩) ∧
    (v = .fin g m e → m ≠ 0 →
      (f32Units x.toNat * (2 ^ 128 - 2 ^ 104) < 2 ^ 149 → frcpF32 x = ⟨fpInf .f32 g, Flags.ov ||| Flags.nx⟩) ∧
      (2 ^ 149 ≤ f32Units x.toNat * (2 ^ 128 - 2 ^ 104) → (∀ n, f32Units x.toNat ≠ 2 ^ n) → inexact (frcpF32 x)) ∧
      (2 ^ 149 ≤ f32Units x.toNat * (2 ^ 128 - 2 ^ 104) → ((frcpF32 x).bits / 2 ^ 31 = b2n g) ∧
        ∃ k, let q := f32Units (frcpF32 x).bits
          let u := f32Units x.toNat
          (k = 0 ∨ 2 ^ (k + 23) * u ≤ 2 ^ 298) ∧ 2 ^ 298 < 2 ^ (k + 24) * u ∧ q * u ≤ 2 ^ 298 + 2 ^ k * u ∧ 2 ^ 298 ≤ q * u + 2 ^ k * u)) ∧
    (v = .fin false m e → m ≠ 0 →
      (∀ n, f32Units x.toNat ≠ 2 ^ (2 * n + 1)) → inexact (frsqF32 x) ∧
        ∃ k, let q := f32Units (frsqF32 x).bits
          let u := f32Units x.toNat
          2 ^ (2 * k + 46) * u ≤ 2 ^ 447 ∧ 2 ^ 447 < 2 ^ (2 * k + 48) * u ∧ 2 ^ 447 ≤ (q + 2 ^ k) ^ 2 * u ∧
            (q ≤ 2 ^ k ∨ (q - 2 ^ k) ^ 2 * u ≤ 2 ^ 447)) ∧
    (v = .fin g m e →
      (128 * 2 ^ 149 ≤ i → fexp2F32 x = ⟨0x7F800000, Flags.ov ||| Flags.nx⟩) ∧
      (i < -150 * 2 ^ 149 → fexp2F32 x = ⟨0, Flags.uf ||| Flags.nx⟩) ∧
      (∀ n : Int, -149 ≤ n → n ≤ 127 → i = n * 2 ^ 149 → fexp2F32 x = ⟨f32Pow n, 0⟩) ∧
      (-150 * 2 ^ 149 ≤ i → i < 128 * 2 ^ 149 → (∀ n : Int, -149 ≤ n → i ≠ n * 2 ^ 149) →
        (fexp2F32 x).bits < 2 ^ 31 ∧ (fexp2F32 x).bits ≠ 0 ∧ inexact (fexp2F32 x))) ∧
    (v = .fin false m e → m ≠ 0 → (∀ n, f32Units x.toNat ≠ 2 ^ n) → inexact (flog2F32 x))) ∧
  (∀ n : Int,
    (-127 ≤ n → n ≤ 127 → frcpF32 (BitVec.ofNat 32 (f32Pow n)) = ⟨f32Pow (-n), 0⟩ ∧
      frcpF32 (BitVec.ofNat 32 (2 ^ 31 + f32Pow n)) = ⟨2 ^ 31 + f32Pow (-n), 0⟩) ∧
    (-74 ≤ n → n ≤ 63 → frsqF32 (BitVec.ofNat 32 (f32Pow (2 * n))) = ⟨f32Pow (-n), 0⟩) ∧
    (-149 ≤ n → n ≤ 127 → ∃ b, flog2F32 (BitVec.ofNat 32 (f32Pow n)) = ⟨b, 0⟩ ∧ f32Units b = n.natAbs * 2 ^ 149 ∧
      (b / 2 ^ 31 = b2n (n < 0))))

/-- 06 R149 to R153: v.cvt in place, into f64 pairs and out of them; v.pack shifts two narrowed values in; v.unpack widens
sub-element k; v.cmp writes a whole triple whose bits are set for active lanes that hold; v.sel chooses by a triple. -/
def Obligations.VectorConversionsAndCompares : Prop :=
  ∀ (s : State) (d a b c k : Reg) (t u : BitVec 4) (r : BitVec 2) (n : BitVec 1) (q : BitVec 3),
    let T := VTy.of t
    let U := VTy.of u
    let va := s.g.vr a
    let vb := s.g.vr b
    let vd := s.g.vr d
    let cv := cvElem T U (Rm.ofCode r) (n = 1#1)
    let out (i : Instr) (V : VTy) (h : (VReg → Nat) → FRes) : Prop :=
      GivesVector i s d V (fun j m => (h (elemGet V j m)).bits) (s.g.flagsOf V (laneRes V h))
    let holds (i : Nat) : Bool × Flags := vecHolds T q.toNat (elemGet T i 0 va) (elemGet T i 0 vb)
    (T ≠ .f64 → U ≠ .f64 → out (.vCvt d a u t r n) T (fun e => cv (e va))) ∧
    (T ≠ .f64 → U = .f64 → out (.vCvt d a u t r n) .f64 (fun e => cv (e va % 2 ^ 32))) ∧
    (T = .f64 → U ≠ .f64 → out (.vCvt d a u t r n) .f64 (fun e => cv (e va))) ∧
    out (.vPack d a b t r n) .i32 (fun e =>
      let x := packElem T (Rm.ofCode r) (n = 1#1) (e va)
      let y := packElem T (Rm.ofCode r) (n = 1#1) (e vb)
      ⟨if T.width = 16 then y.bits * 2 ^ 16 + x.bits else y.bits * 2 ^ 24 + x.bits * 2 ^ 16 + bitsAt (e vd) 16 16, x.fl ||| y.fl⟩) ∧
    out (.vUnpack d a k t) .i32 (fun e =>
      let x := bitsAt (e va) (T.width * k.toNat) T.width
      match T.fty with
      | some p => fpToFp p .f32 .rne false x
      | none => ⟨wrapInt 32 (toInt T.signed T.width x), 0⟩) ∧
    (d.toNat ≤ 61 → Completes (.vCmp d a b t q) s (fun t' =>
      ∃ m : Nat → Word,
        (∀ w < 3, (m w).toNat < 2 ^ 32 ∧ t'.g.sr (d + BitVec.ofNat 6 w) = s.g.kept (d + BitVec.ofNat 6 w) (m w)) ∧
        (∀ i < 96, (m (i / 32)).getLsbD (i % 32) =
          if T = .f64 then s.g.active (i / 2 * 2) && (holds (i / 2)).1 else s.g.active i && (holds i).1) ∧
        (∀ x : Reg, x ≠ d → x ≠ d + 1 → x ≠ d + 2 → t'.g.sr x = s.g.sr x) ∧ (∀ x, t'.g.vr x = s.g.vr x) ∧
        t'.g.fpf = s.g.fpf ||| s.g.flagsOf T (fun i => ⟨0, (holds i).2⟩) ∧ RegisterOnly s t' ∧ GoesOn s t')) ∧
    (c.toNat ≤ 61 → GivesVector (.vSel d a b c) s d .i32 (fun i _ =>
      (if (s.g.sr (c + BitVec.ofNat 6 (i / 32))).getLsbD (i % 32) then lane va i else lane vb i).toNat) 0)

/-- 06 R154 to R157: constants, moves, single lanes, permutes and shuffles; source lanes are read whatever their activity, and
a source index of 96 or more gives 0. -/
def Obligations.VectorMoves : Prop :=
  ∀ (s : State) (d a b : Reg) (j : BitVec 19),
    let va := s.g.vr a
    let vb := s.g.vr b
    let x := s.g.sr a
    let y := s.g.sr b
    let src (m : Nat) : Nat := if m < 96 then (lane va m).toNat else 0
    let K := y.toNat / 4 % 128
    GivesVector (.vLi d j) s d .i32 (fun _ _ => (j.signExtend 32).toNat) 0 ∧
    GivesVector (.vMov d a) s d .i32 (fun i _ => (lane va i).toNat) 0 ∧
    GivesVector (.vBcast d a 0) s d .i32 (fun _ _ => x.toNat % 2 ^ 32) 0 ∧
    GivesVector (.vBcast d a 7) s d .f64 (fun _ _ => x.toNat) 0 ∧
    GivesScalar (.vGet d a b) s d (fun v => v.toNat = src y.toNat) ∧
    GivesVector (.vSet d a b) s d .i32 (fun i _ => if i = y.toNat then x.toNat % 2 ^ 32 else (lane (s.g.vr d) i).toNat) 0 ∧
    GivesVector (.vIota d) s d .i32 (fun i _ => i) 0 ∧
    GivesVector (.vPerm d a b) s d .i32 (fun i _ => src (lane vb i).toNat) 0 ∧
    (y.toNat % 4 = 0 → GivesVector (.vShfl d a b) s d .i32 (fun i _ => src ((i + K) % 96)) 0) ∧
    (y.toNat % 4 = 1 → GivesVector (.vShfl d a b) s d .i32 (fun i _ => src (i ^^^ K)) 0) ∧
    (y.toNat % 4 = 2 → GivesVector (.vShfl d a b) s d .i32 (fun i _ => src (i + K)) 0) ∧
    (y.toNat % 4 = 3 → GivesVector (.vShfl d a b) s d .i32 (fun i _ => if K ≤ i then src (i - K) else 0) 0)

/-- 06 R158, R159 with 03 R82 to R84: the reductions combine the active elements by the tree of R82, an inactive one counting as
the identity; v.rsumi is the exact sum; v.scan leaves in each active lane the sum of the active lanes up to it. -/
def Obligations.VectorReductions : Prop :=
  ∀ (s : State) (d a : Reg) (t : BitVec 4) (r : BitVec 2),
    let T := VTy.of t
    let F := T.fty.getD .f32
    let va := s.g.vr a
    let act (i : Nat) : Bool := s.g.active (vtLane T i)
    let x (ident i : Nat) : Nat := if act i then elemGet T i 0 va else ident
    let lev := if T = .f64 then 4 else 5
    let out (i : Instr) (v : Nat) (fl : Flags) : Prop := Completes i s (WritesScalar s d (BitVec.ofNat 64 v) fl)
    let I (v : Nat) : Int := toInt T.signed 32 v
    let pick (op : Int → Int → Int) (p q : Nat) : FRes := ⟨wrapInt 32 (op (I p) (I q)), 0⟩
    let lo := wrapInt 32 (intRange T.signed 32).1
    let hi := wrapInt 32 (intRange T.signed 32).2
    (T = .f32 ∨ T = .f64 →
      (let q := treeAll (fpAdd F .rne false false) lev (x (fpZero F true))
       out (.vRsum d a t) q.bits q.fl) ∧
      (let q := treeAll (fpMaxOp F) lev (x (fpInf F true))
       out (.vRmax d a t) q.bits q.fl) ∧
      (let q := treeAll (fpMin F) lev (x (fpInf F false))
       out (.vRmin d a t) q.bits q.fl)) ∧
    (T = .i32 ∨ T = .n32 →
      out (.vRmax d a t) (wrapInt 64 (I (treeAll (pick max) 5 (x lo)).bits)) 0 ∧
      out (.vRmin d a t) (wrapInt 64 (I (treeAll (pick min) 5 (x hi)).bits)) 0 ∧
      out (.vRsumi d a t) (wrapInt 64 (((List.range 96).filter act).map fun i => I (lane va i).toNat).sum) 0 ∧
      Completes (.vScan d a t r) s (WritesVector s d T
        (fun i _ => (((List.range (i + 1)).filter act).map fun j => (lane va j).toNat).sum) 0)) ∧
    (T = .f32 → ∃ f : Nat → Nat, ∃ fl : Flags,
      f 0 = (fpAdd .f32 (Rm.ofCode r) false false (fpZero .f32 true) (x (fpZero .f32 true) 0)).bits ∧
      (∀ i, i + 1 < 96 → f (i + 1) = (fpAdd .f32 (Rm.ofCode r) false false (f i) (x (fpZero .f32 true) (i + 1))).bits) ∧
      Completes (.vScan d a t r) s (WritesVector s d .f32 (fun i _ => f i) fl))

/-! ### Sweeps (06 R160 to R163) -/

/-- 06 R160, R161: a sweep at the start of a run, with no halt pending, whose records are read and pass their checks, whose element
accesses pass theirs and whose remaining points are one step, completes with that step: it goes on in sequence, writes what the step
writes (SweepStepEffect), ORs its flags, and no register changes. Later in a run a run boundary comes before it. -/
def Obligations.SweepsComplete : Prop :=
  ∀ (s : State) (d a : BitVec 3) (b : Reg) (c : BitVec 3) (t : BitVec 4) (r : BitVec 2) (n : BitVec 1) (x y z : Rec),
    let w (op : SweepOp) (k : Option Rec) : Sweep :=
      { op := op, ty := VTy.of t, rm := Rm.ofCode r, sat := n = 1#1, dst := x, a := y, b := k }
    let p := x.pointOf x.idx
    let fits (v : Sweep) : Prop :=
      v.bad (!s.g.p.sweeping) (r ≠ 0) = none ∧ p < x.points ∧ x.points ≤ p + (v.step p).flatten.length ∧
      ∀ q ∈ (v.step p).flatten, ∀ e ∈ v.accesses q, ∃ l, LocalOk s e.1 4 4 e.2 l
    let runs (i : Instr) (v : Sweep) : Prop := fits v → Completes i s (fun t' =>
      GoesOn s t' ∧ (∀ q, t'.g.sr q = s.g.sr q) ∧ (∀ q, t'.g.vr q = s.g.vr q) ∧
      t'.g.arch = (s.g.modP (·.setSweeping false)).arch ∧ LocalFrame s t' ∧ WindowsStand s t' ∧ FeAre s (fun _ _ => none) t' ∧
      ∃ u, v.runStep p 0 s = .done u ∧ t'.g.fpf = u.g.fpf ∧ ∀ k o, memByte (t'.core k).pool o = memByte (u.core k).pool o)
    let forms : List Instr := [.vSweepAdd d a b t r n, .vSweepMul d a b t r n, .vSweepMax d a b t r n, .vSweepMin d a b t r n,
      .vSweepFma d a c t r n, .vSweepCvt d a t r n]
    (s.g.rc ≠ 0 → ∀ i ∈ forms, Completes i s (fun t' => t' = { s with g := t'.g } ∧ SameRegisters s t' ∧ t'.g.rc = 0 ∧
      t'.g.runOver = true ∧ t'.g.p.pc = s.g.p.pc ∧ t'.g.p.cwi = s.g.p.cwi)) ∧
    (s.g.rc = 0 → (s.encl s.g.enc).halted = false → ReadsRecord s d.toNat x → ReadsRecord s a.toNat y →
      (b = 63 → runs (.vSweepAdd d a b t r n) (w .add none) ∧ runs (.vSweepMul d a b t r n) (w .mul none) ∧
        runs (.vSweepMax d a b t r n) (w .max none) ∧ runs (.vSweepMin d a b t r n) (w .min none)) ∧
      (b ≠ 63 → ReadsRecord s b.toNat z → runs (.vSweepAdd d a b t r n) (w .add (some z)) ∧
        runs (.vSweepMul d a b t r n) (w .mul (some z)) ∧ runs (.vSweepMax d a b t r n) (w .max (some z)) ∧
        runs (.vSweepMin d a b t r n) (w .min (some z))) ∧
      runs (.vSweepCvt d a t r n) (w .cvt none) ∧
      (ReadsRecord s c.toNat z → runs (.vSweepFma d a c t r n) (w .fma (some z))))

/-- 06 R161, R162: a step whose element accesses all pass is done; without a reduced dimension it writes each point's element,
with one it folds each group of its points, in order, into the stored value of the element they share; it ORs the flags and saves
the next point, and no other pool byte, F/E bit, register or memory byte changes. A start inside a group of 16 points, which the spec
does not describe, folds the rest of that group as one (log 45). -/
def Obligations.SweepStepEffect : Prop :=
  ∀ (s : State) (w : Sweep) (p n : Nat) (acc : Nat → LocalAcc),
    let S := addrs p (min 96 (w.dst.points - p))
    let D (q : Nat) : Int := w.dst.at (w.dst.tuple q)
    let word (a : Int) : Nat := s.localWord a
    let val (q : Nat) : FRes :=
      let i := w.dst.tuple q
      let e := if w.readsD then word (D q) else 0
      match w.op, w.b with
      | .cvt, _ => w.apply (word (w.a.at i)) 0 0
      | _, some b => w.apply (word (w.a.at i)) (word (b.at i)) e
      | _, none => w.apply e (word (w.a.at i)) 0
    let saved (next : Nat) : Nat :=
      let i := if next < w.dst.points then w.dst.tuple next else []
      i.getD 0 0 + i.getD 1 0 * 2 ^ 16 + i.getD 2 0 * 2 ^ 32 + i.getD 3 0 * 2 ^ 48
    let own (o : Nat) : Prop := ∃ j < 8, s.poolOff s.g (w.dst.addr % 2 ^ 20 + 0x30 + j) = some o
    let folded (ps : List Nat) : FRes :=
      ((w.step p).filter fun qs => D (qs.headD 0) = D (ps.headD 0)).foldl (fun (f : FRes) qs =>
        let y := w.foldGroup f.bits (qs.map fun q =>
          (word (w.a.at (w.dst.tuple q)), match w.b with | some b => word (b.at (w.dst.tuple q)) | none => 0))
        ⟨y.bits, f.fl ||| y.fl⟩) ⟨word (D (ps.headD 0)), Flags.none⟩
    (w.red = true →
      (∀ ps ∈ w.step p, ∀ q ∈ ps, (∀ e ∈ w.accesses q, ∃ x, LocalOk s e.1 4 4 e.2 x) ∧ s.localCheck s.g (D q) 4 4 true = .ok (acc q)) →
      (∀ q ∈ (w.step p).flatten, ∀ q' ∈ (w.step p).flatten, D q ≠ D q' → (acc q).core = (acc q').core →
        ∀ o ∈ (acc q).offs, o ∉ (acc q').offs) →
      (∀ q ∈ (w.step p).flatten, (acc q).core = s.g.core → ∀ o ∈ (acc q).offs, ¬own o) →
        ∃ u, w.runStep p n s = .done u ∧
          (∀ ps ∈ w.step p, ∀ j < 4, memByte (u.core (acc (ps.headD 0)).core).pool ((acc (ps.headD 0)).offs.getD j 0) =
            (leBytes 4 (folded ps).bits).getD j 0) ∧
          (∀ j < 8, ∀ o, s.poolOff s.g (w.dst.addr % 2 ^ 20 + 0x30 + j) = some o →
            (∀ j' < 8, j' ≠ j → s.poolOff s.g (w.dst.addr % 2 ^ 20 + 0x30 + j') ≠ some o) →
            memByte (u.core s.g.core).pool o = (leBytes 8 (saved (p + (w.step p).flatten.length))).getD j 0) ∧
          (∀ k o, (∀ ps ∈ w.step p, (acc (ps.headD 0)).core = k → o ∉ (acc (ps.headD 0)).offs) → (k = s.g.core → ¬own o) →
            memByte (u.core k).pool o = memByte (s.core k).pool o) ∧
          u.g = { s.g with fpf := u.g.fpf } ∧
          (∀ j, u.g.fpf.getLsbD j = true ↔ s.g.fpf.getLsbD j = true ∨ ∃ ps ∈ w.step p, (folded ps).fl.getLsbD j = true) ∧
          FeAre s (fun _ _ => none) u ∧ WindowsStand s u ∧ LocalFrame s u) ∧
    (w.red = false →
    (∀ q ∈ S, ∀ e ∈ w.accesses q, ∃ x, LocalOk s e.1 4 4 e.2 x) →
    (∀ q ∈ S, s.localCheck s.g (D q) 4 4 true = .ok (acc q)) →
    (∀ q ∈ S, ∀ q' ∈ S, q ≠ q' → (acc q).core = (acc q').core → ∀ o ∈ (acc q).offs, o ∉ (acc q').offs) →
    (∀ q ∈ S, (acc q).core = s.g.core → ∀ o ∈ (acc q).offs, ¬own o) →
      ∃ u, w.runStep p n s = .done u ∧
        (∀ q ∈ S, ∀ j < 4, memByte (u.core (acc q).core).pool ((acc q).offs.getD j 0) = (leBytes 4 (val q).bits).getD j 0) ∧
        (∀ j < 8, ∀ o, s.poolOff s.g (w.dst.addr % 2 ^ 20 + 0x30 + j) = some o →
          (∀ j' < 8, j' ≠ j → s.poolOff s.g (w.dst.addr % 2 ^ 20 + 0x30 + j') ≠ some o) →
          memByte (u.core s.g.core).pool o = (leBytes 8 (saved (p + S.length))).getD j 0) ∧
        (∀ k o, (∀ q ∈ S, (acc q).core = k → o ∉ (acc q).offs) → (k = s.g.core → ¬own o) →
          memByte (u.core k).pool o = memByte (s.core k).pool o) ∧
        u.g = { s.g with fpf := S.foldl (fun f q => f ||| (val q).fl) s.g.fpf } ∧
        FeAre s (fun _ _ => none) u ∧ WindowsStand s u ∧ LocalFrame s u)

/-! ### Local memory (spec 12, first half; 09 R182 to R189) -/

/-- 12 R266, R267: a local load whose accesses pass delivers the bytes of its accesses, little-endian, extended as the form says;
a load through a window does so once the owning cores have returned its data. -/
def Obligations.LocalLoads : Prop :=
  ∀ (s : State) (d a b : Reg) (z : BitVec 2) (o : BitVec 10) (g : BitVec 1) (e : BitVec 2) (x : LocalAcc) (xs : Nat → LocalAcc),
    let n : Nat := 2 ^ z.toNat
    let at1 : Int := (s.g.sr b).toNat + o.toInt * n
    let row : Int := (s.g.sr b).toNat + o.toInt * 384
    let ix (i : Nat) : Int := (s.g.sr a).toNat + (lane (s.g.vr b) i).toInt
    let m := 2 ^ e.toNat
    let returned (p : Prop) : Prop := p ∨ ∃ l, s.g.winRet = some (l, true)
    (LocalOk s at1 n n false x → returned (x.win = none) →
      GivesScalar (.lLds d b z o) s d (fun v => v = (BitVec.ofNat (8 * n) (leNat (s.poolRead x))).signExtend 64) ∧
      GivesScalar (.lLdsN d b z o) s d (fun v => v.toNat = leNat (s.poolRead x))) ∧
    ((s.g.lanes ≠ [] → row % 128 = 0) → (∀ i ∈ s.g.lanes, LocalOk s (row + 4 * i) 4 4 false (xs i)) → returned (∀ i ∈ s.g.lanes, (xs i).win = none) →
      GivesVector (.lLdv d b o) s d .i32 (fun i _ => leNat (s.poolRead (xs i))) 0) ∧
    (e ≠ 3 → (∀ i ∈ s.g.lanes, LocalOk s (ix i) m m false (xs i)) → returned (∀ i ∈ s.g.lanes, (xs i).win = none) →
      GivesVector (.lLdvX d a b g e) s d .i32 (fun i _ =>
        if g = 1 then ((BitVec.ofNat (8 * m) (leNat (s.poolRead (xs i)))).signExtend 32).toNat else leNat (s.poolRead (xs i))) 0)

/-- 12 R266 with 09 R188: a local store writes the low bytes of its data at the addresses of its accesses; where lanes overlap
the higher-numbered one stands; pieces that go through windows are sent to their owning cores. A recorded or replayed group first
counts the store (21 R391, R392). -/
def Obligations.LocalStores : Prop :=
  ∀ (s : State) (d a b : Reg) (z : BitVec 2) (o : BitVec 10) (e : BitVec 2) (x : LocalAcc) (xs : Nat → LocalAcc),
    let n : Nat := 2 ^ z.toNat
    let at1 : Int := (s.g.sr b).toNat + o.toInt * n
    let row : Int := (s.g.sr b).toNat + o.toInt * 384
    let ix (i : Nat) : Int := (s.g.sr a).toNat + (lane (s.g.vr b) i).toInt
    let m := 2 ^ e.toNat
    let data (i : Nat) : Nat := (lane (s.g.vr d) i).toNat
    let at_ (a : Int) (size v : Nat) : List (Nat × Byte) := (addrs a.toNat size).zip (leBytes size v)
    (LocalOk s at1 n n true x → Counts (.lSts d b z o) s s (at_ at1 n (s.g.sr d).toNat)
      fun u => StoresLocal u [(x, leBytes n (s.g.sr d).toNat)]) ∧
    ((s.g.lanes ≠ [] → row % 128 = 0) → (∀ i ∈ s.g.lanes, LocalOk s (row + 4 * i) 4 4 true (xs i)) →
      Counts (.lStv d b o) s s (s.g.lanes.flatMap fun (i : Nat) => at_ (row + 4 * i) 4 (data i))
        fun u => StoresLocal u (s.g.lanes.map fun i => (xs i, leBytes 4 (data i)))) ∧
    (e ≠ 3 → (∀ i ∈ s.g.lanes, LocalOk s (ix i) m m true (xs i)) →
      Counts (.lStvX d a b e) s s (s.g.lanes.flatMap fun i => at_ (ix i) m (data i))
        fun u => StoresLocal u (s.g.lanes.map fun i => (xs i, leBytes m (data i))))

/-- 12 R268, R269 with 09 R184, R185, R188, R189, 11 R247 and 21 R391: the full/empty forms. take and peek deliver full words, take
empties them; fill writes empty words and fills them, force writes and fills in any case; l.fe forms set, clear or count the bits of
a range. A word in the wrong state parks the path with nothing changed. Through a window a load delivers once the owning core has
returned its data, holding its slot before that; a write follows the path slot's earlier window stores to that core, parks while one
of them waits for rows that are sealed out (log 28), and counts as an unacknowledged remote store: force as a window store of its own,
fill and the l.fe forms with their effect at issue. A recorded or replayed group counts its stores first. -/
def Obligations.FullEmptyForms : Prop :=
  ∀ (s : State) (d a b : Reg) (z : BitVec 1) (o : BitVec 10) (x : LocalAcc),
    let n : Nat := if z = 1 then 8 else 4
    let at1 : Int := (s.g.sr b).toNat + o.toInt * n
    let base := s.g.sr a
    let len := (s.g.sr b).toNat
    let v := s.g.sr d
    let full (r : State) (w : Nat) : Bool := smGet false (r.core x.core).fe (w / 4)
    let words := x.offs.filter fun w => w % 4 = 0
    let frame (r t : State) : Prop := WindowsStand r t ∧ LocalFrame r t
    let bits (v : Option Bool) (c k : Nat) : Option Bool := if c = x.core ∧ ∃ w ∈ words, w / 4 = k then v else none
    let quiet (c k : Nat) : Option Byte := storedByte [] c k
    let put : Nat → Nat → Option Byte := storedByte [({ x with win := none }, leBytes n v.toNat)]
    let waits (r : State) (full : Bool) (t : State) : Prop :=
      t.g.stat = .parked ∧ t.g.p.park = some (.fe x.owner x.base n full) ∧ t.g.rc = 0 ∧
      SameRegisters r t ∧ PoolsAre r quiet t ∧ FeAre r (bits none) t
    let remote (r t : State) (ps : List WinPart) : Prop :=
      t.g.arch = ({ r.g.modP (fun p => { p with rst := p.rst + 1 }) with
        winStores := r.g.winStores ++ [{ seq := r.seq, pathF := r.g.curF, parts := ps }] } : Group).arch
    let counted (r t : State) : Prop := if x.win = none then t.g.arch = r.g.arch else remote r t []
    let returned : Prop := x.win = none ∨ ∃ l, s.g.winRet = some (l, true)
    let bs := (addrs at1.toNat n).zip (leBytes n v.toNat)
    (LocalOk s at1 n n false x → returned → (∀ w ∈ words, full s w = true) →
      Completes (.lLdfTake d b z o) s (fun t => OneRegister s d (BitVec.ofNat 64 (leNat (s.poolRead x))) t ∧
        PoolsAre s quiet t ∧ FeAre s (bits (some false)) t ∧ frame s t ∧ t.g.arch = s.g.arch) ∧
      Completes (.lLdfPeek d b z o) s (fun t => OneRegister s d (BitVec.ofNat 64 (leNat (s.poolRead x))) t ∧
        PoolsAre s quiet t ∧ FeAre s (bits none) t ∧ frame s t ∧ t.g.arch = s.g.arch)) ∧
    (LocalOk s at1 n n false x → (∃ w ∈ words, full s w = false) →
      Completes (.lLdfTake d b z o) s (waits s true) ∧ Completes (.lLdfPeek d b z o) s (waits s true)) ∧
    (∀ w, LocalOk s at1 n n false x → x.win = some w → s.g.winRet = none → (∀ w ∈ words, full s w = true) →
      ∀ i ∈ [Instr.lLdfTake d b z o, .lLdfPeek d b z o], Completes i s (fun t => t.held = true ∧
        t.g.winRet = some ([(x.core, w)], false) ∧ SameRegisters s t ∧ t.g.arch = s.g.arch ∧ PoolsAre s quiet t ∧ FeAre s (bits none) t)) ∧
    (∀ r, r = (if x.win = none then s else s.performBefore x.core) → LocalOk s at1 n n true x →
      x.win = none ∨ s.sealedBefore x.core = none →
      ((∀ w ∈ words, full r w = false) → Counts (.lStfFill d b z o) s r bs fun u t => SameRegisters u t ∧
        PoolsAre u put t ∧ FeAre u (bits (some true)) t ∧ frame u t ∧ counted u t) ∧
      ((∃ w ∈ words, full r w = true) → Completes (.lStfFill d b z o) s (waits r false)) ∧
      (x.win = none → Counts (.lStfForce d b z o) s s bs fun u t => SameRegisters u t ∧
        PoolsAre u put t ∧ FeAre u (bits (some true)) t ∧ frame u t ∧ t.g.arch = u.g.arch) ∧
      (∀ w, x.win = some w → Counts (.lStfForce d b z o) s r bs fun u t => SameRegisters u t ∧ PoolsAre u quiet t ∧
        FeAre u (bits none) t ∧ frame u t ∧
        remote u t [{ core := x.core, win := w, owner := x.owner, bytes := (addrs x.base n).zip (leBytes n v.toNat),
                      fe := (addrs x.base n).filter fun o => o % 4 = 0 }])) ∧
    (∀ r, r = (if x.win = none then s else s.performBefore x.core) → x.win = none ∨ s.sealedBefore x.core = none →
      base.toNat % 4 = 0 → len % 4 = 0 → len ≠ 0 → LocalOk s base.toNat len 4 true x →
      Completes (.lFeFull d a b) s (fun t =>
        OneRegister s d (BitVec.ofNat 64 (words.filter fun w => full r w = false).length) t ∧
        PoolsAre r quiet t ∧ FeAre r (bits (some true)) t ∧ frame r t ∧ counted r t) ∧
      Completes (.lFeEmpty d a b) s (fun t =>
        OneRegister s d (BitVec.ofNat 64 (words.filter fun w => full r w = true).length) t ∧
        PoolsAre r quiet t ∧ FeAre r (bits (some false)) t ∧ frame r t ∧ counted r t)) ∧
    (∀ p, x.win ≠ none → s.sealedBefore x.core = some p →
      (LocalOk s at1 n n true x → Completes (.lStfFill d b z o) s (Parks s (.sealedWindow p.core p.win)) ∧
        Completes (.lStfForce d b z o) s (Parks s (.sealedWindow p.core p.win))) ∧
      (base.toNat % 4 = 0 → len % 4 = 0 → len ≠ 0 → LocalOk s base.toNat len 4 true x →
        Completes (.lFeFull d a b) s (Parks s (.sealedWindow p.core p.win)) ∧
        Completes (.lFeEmpty d a b) s (Parks s (.sealedWindow p.core p.win)))) ∧
    (base.toNat % 4 = 0 → len % 4 = 0 → len ≠ 0 → LocalOk s base.toNat len 4 false x → returned →
      Completes (.lFeTest d a b) s (fun t =>
        OneRegister s d (BitVec.ofNat 64 (words.filter fun w => full s w = true).length) t ∧
        PoolsAre s quiet t ∧ FeAre s (bits none) t ∧ frame s t ∧ t.g.arch = s.g.arch)) ∧
    (base.toNat % 4 = 0 → len = 0 → Completes (.lFeFull d a b) s (WritesScalar s d 0 0) ∧
      Completes (.lFeEmpty d a b) s (WritesScalar s d 0 0) ∧ Completes (.lFeTest d a b) s (WritesScalar s d 0 0))

/-- 12 R270, R271 with 09 R186, R189: opening takes the lowest free entry of the core and delivers its window address, or all
ones where none is free; closing frees the entry once no admitted access is left and holds its slot before that; closing a window
of another group faults PRIVILEGE with the word's address (17 R437). -/
def Obligations.ClusterWindows : Prop :=
  ∀ (s : State) (d a b : Reg) (w : Nat) (e : Win),
    let x := (s.g.sr a).toNat
    let wins := (s.core s.g.core).wins
    let k := s.g.core
    let opened (sw : Bool) (writer : Nat) (t : State) : Prop :=
      OneRegister s d (BitVec.ofNat 64 (k % 8 * 2 ^ 20 + w * 128)) t ∧ t.g.arch = s.g.arch ∧ LocalFrame s t ∧
      (∀ c j, smFind (t.core c).wins j = if c = k ∧ j = w then
        some { gid := s.g.gid, enc := s.g.enc, addr := x, sw := sw, writer := writer, closing := false } else smFind (s.core c).wins j) ∧
      (∀ c o, memByte (t.core c).pool o = memByte (s.core c).pool o) ∧ FeAre s (fun _ _ => none) t
    let n := x / 128 % 512
    (x % 128 = 0 → x < 2 ^ 24 → 2 ^ 23 ≤ x → x % 2 ^ 20 + 128 ≤ s.g.allocBytes →
      (w < 512 → smFind wins w = none → (∀ j < w, smFind wins j ≠ none) →
        Completes (.lWopenRo d a b) s (opened false 0) ∧
        Completes (.lWopenSw d a b) s (opened true ((s.g.sr b).toNat % 2 ^ 48))) ∧
      ((∀ j < 512, smFind wins j ≠ none) → Completes (.lWopenRo d a b) s (WritesScalar s d (BitVec.allOnes 64) 0) ∧
        Completes (.lWopenSw d a b) s (WritesScalar s d (BitVec.allOnes 64) 0))) ∧
    (x % 128 ≠ 0 → Completes (.lWopenRo d a b) s (Faults s .misaligned (s.g.sr a)) ∧
      Completes (.lWopenSw d a b) s (Faults s .misaligned (s.g.sr a))) ∧
    (x < 2 ^ 23 → x / 2 ^ 16 % 16 = 0 → x / 2 ^ 20 % 8 = k % 8 → smFind wins n = some e →
      (e.gid = s.g.gid → s.windowBusy k n = false → Completes (.lWclose a) s (fun t => SameRegisters s t ∧ GoesOn s t ∧
        t.g.arch = s.g.arch ∧ LocalFrame s t ∧ smFind (t.core k).wins n = none ∧
        (∀ c j, ¬(c = k ∧ j = n) → smFind (t.core c).wins j = smFind (s.core c).wins j) ∧
        (∀ c o, memByte (t.core c).pool o = memByte (s.core c).pool o) ∧ FeAre s (fun _ _ => none) t)) ∧
      (e.gid = s.g.gid → s.windowBusy k n = true → Completes (.lWclose a) s (fun t => t.held = true ∧ t.g = s.g ∧
        smFind (t.core k).wins n = some { e with closing := true })) ∧
      (e.gid ≠ s.g.gid → Completes (.lWclose a) s (Faults s .privilege s.wordAddr)))

/-- 09 R183 with 12 R264, 11 R248 and 17 R320: a scalar local access that fails a check faults with its address; one that meets a
range lock raises the RANGE_LOCKED trap; one through a window whose rows are sealed out parks. -/
def Obligations.LocalAccessStops : Prop :=
  ∀ (s : State) (d b : Reg) (z : BitVec 2) (o : BitVec 10) (c : Code) (x : LocalAcc) (k w : Nat),
    let n : Nat := 2 ^ z.toNat
    let a : Int := (s.g.sr b).toNat + o.toInt * n
    (s.localCheck s.g a n n false = .bad c → Completes (.lLds d b z o) s (Faults s c (BitVec.ofInt 64 a)) ∧
      Completes (.lLdsN d b z o) s (Faults s c (BitVec.ofInt 64 a))) ∧
    (s.localCheck s.g a n n true = .bad c → Completes (.lSts d b z o) s (Faults s c (BitVec.ofInt 64 a))) ∧
    (a % n ≠ 0 → s.localCheck s.g a n n true = .bad .misaligned) ∧
    (a % n = 0 → (a < 0 ∨ 2 ^ 24 ≤ a) → s.localCheck s.g a n n true = .bad .windowBounds) ∧
    (a % n = 0 → 2 ^ 23 ≤ a → a < 2 ^ 24 → s.g.allocBytes < a.toNat % 2 ^ 20 + n →
      s.localCheck s.g a n n true = .bad .windowBounds) ∧
    (s.localCheck s.g a n n true = .ok x → (s.core x.core).lockedLocal x.offs true = true →
      exec (.lSts d b z o) s = .next (s.takeTrap .rangeLocked (BitVec.ofInt 64 a))) ∧
    (s.localCheck s.g a n n false = .sealedOut k w → Completes (.lLds d b z o) s (fun t => SameRegisters s t ∧
      t.g.stat = .parked ∧ t.g.p.park = some (.sealedWindow k w) ∧ t.g.rc = 0))

/-! ### Far memory (spec 12, second half; 11 R233, R237 to R246) -/

/-- 12 R272, R263, R273 with 01 R19, R27: a far load whose accesses pass leaves with its destination, width, extension and the
physical bytes of each active lane, and raises LD by one, unless LD is 63; a vector load without an active lane changes nothing; a
prefetch changes no counter and no register. -/
def Obligations.FarLoadsIssue : Prop :=
  ∀ (s : State) (d a b : Reg) (z : BitVec 2) (o : BitVec 10) (g h : BitVec 1) (e : BitVec 2) (pas : List Nat) (heap : Bool)
    (P : Nat → List Nat) (H : Nat → Bool),
    let n : Nat := 2 ^ z.toNat
    let at1 : Int := (s.g.sr b).toNat + o.toInt * n
    let row : Int := (s.g.sr b).toNat + o.toInt * 384
    let ix (i : Nat) : Int := (s.g.sr a).toNat + (lane (s.g.vr b) i).toInt
    let m : Nat := 2 ^ e.toNat
    let one (signed near : Bool) (q : Req) : Prop :=
      q.vec = false ∧ q.dst = s.g.loc d ∧ q.size = n ∧ q.signed = signed ∧ q.near = near ∧ q.pf = false ∧ q.atom = none ∧
      q.elems = [{ lane := 0, va := at1.toNat, pas := pas }]
    let all (ea : Nat → Int) (size : Nat) (signed : Bool) (q : Req) : Prop :=
      q.vec = true ∧ q.dst = s.g.vloc d ∧ q.size = size ∧ q.signed = signed ∧ q.near = true ∧ q.pf = false ∧ q.atom = none ∧
      q.elems = s.g.lanes.map fun i => { lane := i, va := (ea i).toNat, pas := P i }
    (FarOk s at1 n n .load none pas heap → s.g.p.ld < 63 →
      Completes (.fLds d b z o) s (Sends s Group.moreLd (one true true)) ∧
      Completes (.fLdsN d b z o) s (Sends s Group.moreLd (one false true)) ∧
      Completes (.fLdb d b z o) s (Sends s Group.moreLd (one false false))) ∧
    (FarOk s at1 n n .load none pas heap → 63 ≤ s.g.p.ld → Completes (.fLds d b z o) s (Holds s)) ∧
    (s.g.lanes ≠ [] → row % 128 = 0 → (∀ i ∈ s.g.lanes, FarOk s (row + 4 * i) 4 4 .load none (P i) (H i)) → s.g.p.ld < 63 →
      Completes (.fLdv d b o) s (Sends s Group.moreLd (all (fun i => row + 4 * i) 4 false))) ∧
    (e ≠ 3 → s.g.lanes ≠ [] → (∀ i ∈ s.g.lanes, FarOk s (ix i) m m .load none (P i) (H i)) → s.g.p.ld < 63 →
      Completes (.fLdvX d a b g e) s (Sends s Group.moreLd (all ix m (g = 1)))) ∧
    (s.g.lanes = [] → Completes (.fLdv d b o) s (NoEffect s) ∧ Completes (.fLdvX d a b g e) s (NoEffect s)) ∧
    (let ask (size : Nat) (i : Instr) : Prop :=
       let a0 : Int := (s.g.sr b).toNat + o.toInt * size
       let a1 : Int := a0 - a0 % size
       (∀ c, s.farCheck s.g a1 size .load none = .bad c → Completes i s (fun t => SameRegisters s t ∧ GoesOn s t ∧
         t.g.arch = s.g.arch ∧ FarFrame s t)) ∧
       (s.farCheck s.g a1 size .load none = .ok pas heap →
         (∀ p ∈ pas, ∃ k, s.classDef (s.partOf s.g) (s.clsOf p) = some k ∧ k.ldr.mode ≠ 2 ∧ k.ldr.wpol ≠ 2) →
         Completes i s (Sends s id fun q => q.pf = true ∧ q.near = (h = 0#1) ∧
           q.elems = [{ lane := 0, va := a1.toNat, pas := pas }]))
     ask 64 (.pf h b o) ∧ ask 128 (.pfW h b o))

/-- 12 R272 with 11 R233: a far store whose accesses pass enters the store FIFO with the low bytes of its data at the physical
bytes of each active lane, in lane order, and raises ST by one, unless ST is 63; f.stb never allocates. A recorded or replayed group
first counts the store (21 R391, R392). -/
def Obligations.FarStoresIssue : Prop :=
  ∀ (s : State) (d a b : Reg) (z : BitVec 2) (o : BitVec 10) (e : BitVec 2) (pas : List Nat) (heap : Bool)
    (P : Nat → List Nat) (H : Nat → Bool),
    let n : Nat := 2 ^ z.toNat
    let at1 : Int := (s.g.sr b).toNat + o.toInt * n
    let row : Int := (s.g.sr b).toNat + o.toInt * 384
    let ix (i : Nat) : Int := (s.g.sr a).toNat + (lane (s.g.vr b) i).toInt
    let m : Nat := 2 ^ e.toNat
    let data (i : Nat) : Nat := (lane (s.g.vr d) i).toNat
    let x := (s.g.sr d).toNat
    let at_ (a : Int) (size v : Nat) : List (Nat × Byte) := (addrs a.toNat size).zip (leBytes size v)
    (FarOk s at1 n n .store none pas heap → s.g.p.st < 63 →
      CountsFar (.fSts d b z o) s (at_ at1 n x) (fun u => Enters u (pas.zip (leBytes n x)) false) ∧
      CountsFar (.fStb d b z o) s (at_ at1 n x) (fun u => Enters u (pas.zip (leBytes n x)) true)) ∧
    (FarOk s at1 n n .store none pas heap → 63 ≤ s.g.p.st → Completes (.fSts d b z o) s (Holds s)) ∧
    (s.g.lanes ≠ [] → row % 128 = 0 → (∀ i ∈ s.g.lanes, FarOk s (row + 4 * i) 4 4 .store none (P i) (H i)) → s.g.p.st < 63 →
      CountsFar (.fStv d b o) s (s.g.lanes.flatMap fun (i : Nat) => at_ (row + 4 * i) 4 (data i))
        (fun u => Enters u (s.g.lanes.flatMap fun i => (P i).zip (leBytes 4 (data i))) false)) ∧
    (e ≠ 3 → s.g.lanes ≠ [] → (∀ i ∈ s.g.lanes, FarOk s (ix i) m m .store none (P i) (H i)) → s.g.p.st < 63 →
      CountsFar (.fStvX d a b e) s (s.g.lanes.flatMap fun i => at_ (ix i) m (data i))
        (fun u => Enters u (s.g.lanes.flatMap fun i => (P i).zip (leBytes m (data i))) false)) ∧
    (s.g.lanes = [] → Completes (.fStv d b o) s (NoEffect s) ∧ Completes (.fStvX d a b e) s (NoEffect s))

/-- 10 R208, R209, R212 with 12 R264 and 17 R320: a far access that fails a check faults with its address before it changes
anything; one that meets a range lock raises RANGE_LOCKED; inside the heap reservation a limit breach is HEAP_LIMIT and no region is
asked; outside [0, 2^57) it is ACCESS_UNLEASED. -/
def Obligations.FarAccessStops : Prop :=
  ∀ (s : State) (d b : Reg) (z : BitVec 2) (o : BitVec 10) (c : Code) (pas : List Nat) (heap : Bool) (k : Acc) (op : Option Atom)
    (len : Nat) (va : Int),
    let n : Nat := 2 ^ z.toNat
    let a : Int := (s.g.sr b).toNat + o.toInt * n
    (s.farOne s.g a n n .load none = .bad c → Completes (.fLds d b z o) s (Faults (s.clearWalks s.g) c (BitVec.ofInt 64 a))) ∧
    (s.farOne s.g a n n .store none = .bad c → Completes (.fSts d b z o) s (Faults (s.clearWalks s.g) c (BitVec.ofInt 64 a))) ∧
    (s.farOne s.g a n n .store none = .ok pas heap → (s.core s.g.core).lockedFar s.g.enc a.toNat n true = true →
      exec (.fSts d b z o) s = .next (s.takeTrap .rangeLocked (BitVec.ofInt 64 a))) ∧
    (a % n ≠ 0 → s.farOne s.g a n n .load none = .bad .misaligned) ∧
    (va < 0 ∨ (2 ^ 57 : Int) < va + len → s.farCheck s.g va len k op = .bad .accessUnleased) ∧
    ((s.g.hb.toNat : Int) ≤ va → va < s.g.heapTop → va + len ≤ 2 ^ 57 → ((s.g.hb.toNat + s.g.hl.toNat : Nat) : Int) < va + len →
      s.farCheck s.g va len k op = .bad .heapLimit) ∧
    ((s.g.hb.toNat : Int) ≤ va → va < s.g.heapTop → va + len ≤ 2 ^ 57 → va + len ≤ ((s.g.hb.toNat + s.g.hl.toNat : Nat) : Int) →
      s.farCheck s.g va len k op =
        let ps := (addrs va.toNat len).map fun v => (v + s.g.ho.toNat) % 2 ^ 57
        match s.frameChecks s.g.enc ps k with
        | some e => .bad e
        | none => .ok (ps.map s.canon) true)

/-- 12 R274 with 11 R243: an atomic whose word is checked leaves with its operation, its width, its operands cut to that width and
its destination, and raises LD by one. -/
def Obligations.AtomicsIssue : Prop :=
  ∀ (s : State) (d a b c : Reg) (m n w : BitVec 1) (pas : List Nat) (heap : Bool),
    let va := (s.g.sr a).toNat
    let x := (s.g.sr b).toNat
    let y := (s.g.sr c).toNat
    let asks (i : Instr) (op : AtomOp) (nat merge : Bool) (w : BitVec 1) (x y : Nat) : Prop :=
      let k : Nat := if w = 1 then 8 else 4
      let at1 : Atom := { op := op, w := k, nat := nat, merge := merge, x := x % 2 ^ (8 * k), y := y % 2 ^ (8 * k) }
      FarOk s va k k .atomic (some at1) pas heap → s.g.p.ld < 63 →
        Completes i s (Sends s Group.moreLd fun q => q.atom = some at1 ∧ q.vec = false ∧ q.dst = s.g.loc d ∧
          q.elems = [{ lane := 0, va := va, pas := pas }])
    asks (.aAdd d a b w) .add false true w x 0 ∧
    asks (.aMin d a b n w) .min (n = 1) true w x 0 ∧
    asks (.aMax d a b n w) .max (n = 1) true w x 0 ∧
    asks (.aAnd d a b w) .and false true w x 0 ∧
    asks (.aOr d a b w) .or false true w x 0 ∧
    asks (.aXor d a b w) .xor false true w x 0 ∧
    asks (.aXchg d a b w) .xchg false false w x 0 ∧
    asks (.aFadd d a b m w) .fadd false (m = 1) w x 0 ∧
    asks (.aCas d a b c) .cas false false 0 x y ∧
    asks (.aCasD d a b c) .cas false false 1 x y

/-- 12 R275 with 11 R241, R242, R246: a lock acquire leaves and holds its slot; once its old word has returned it goes on, after
acquiring on the word's line where it got the lock; an unlock first meets the release conditions of the word's scope and then leaves.
While a release holds the line for this core, or its table has no room for it, each holds its slot. -/
def Obligations.LocksIssue : Prop :=
  ∀ (s : State) (d a : Reg) (pas : List Nat) (heap : Bool) (old : Word) (l at1 : Nat),
    let va := (s.g.sr a).toNat
    let pa := pas.headD 0
    let word (op : AtomOp) : Atom := { op := op, w := 4, nat := true, merge := false, x := 0, y := 0 }
    let req (op : AtomOp) (q : Req) : Prop := q.atom = some (word op) ∧ q.dst = s.g.loc d ∧
      q.elems = [{ lane := 0, va := va, pas := pas }]
    let waitsFor (g : Group) : Group := { g.moreLd with evt := some ⟨pa, none⟩ }
    let acquire (i : Instr) (op : AtomOp) (gets : Nat → Bool) : Prop :=
      (s.g.evt = none → FarOk s va 4 4 .atomic (some (word op)) pas heap → s.g.p.ld < 63 →
        Completes i s (fun t => t.held = true ∧ Sends s waitsFor (req op) t)) ∧
      (s.g.evt = some ⟨at1, none⟩ → Completes i s (Holds s)) ∧
      (s.g.evt = some ⟨at1, some old⟩ → gets old.toNat = false → Completes i s (fun t =>
        SameRegisters s t ∧ GoesOn s t ∧ t.g.arch = ({ s.g with evt := none } : Group).arch ∧ LocalFrame s t)) ∧
      (s.g.evt = some ⟨at1, some old⟩ → gets old.toNat = true → s.g.p.ld = 0 →
        (VarFree s at1 → Completes i s (fun t => SameRegisters s t ∧ GoesOn s t ∧ t.g.evt = none ∧
          (2 ≤ (s.nameScope at1).2 → NearClear t s.g.core s.g.enc))) ∧
        (¬VarFree s at1 → Completes i s (Holds s)))
    let release (i : Instr) (op : AtomOp) : Prop :=
      FarOk s va 4 4 .atomic (some (word op)) pas heap → s.g.p.ld < 63 →
      (∀ u, u = s.passedFar va 4 .atomic heap →
        (¬VarFree u pa → Completes i s (fun t => t.held = true ∧ t.g.reqs = s.g.reqs ∧ SameRegisters s t)) ∧
        (VarFree u pa → u.fenceLeaf (u.nameScope pa).2 = some l →
          Completes i s (fun t => t.held = true ∧ t.g.reqs = s.g.reqs ∧ SameRegisters s t)) ∧
        (VarFree u pa → u.fenceLeaf (u.nameScope pa).2 = none → Completes i s (fun t => GoesOn s t ∧ SameRegisters s t ∧
          ∃ q, req op q ∧ q.data = none ∧ t.g.reqs = s.g.reqs ++ [q] ∧ t.g.p.ld = s.g.p.ld + 1)))
    acquire (.aRlock d a) .rlock rlockGets ∧ acquire (.aWlock d a) .wlock wlockGets ∧
    release (.aRunlock d a) .runlock ∧ release (.aWunlock d a) .wunlock

/-- 11 R237, R238, R241 with 12 R276: a fence completes once the executing path slot's loads and, by its scope, its stores, remote
stores, the cluster's older stores and its fabric transfers are performed, and holds its slot before that; at cluster scope or wider
the near cache loses the enclave's lines; fence.rel records its release, fence.acq acquires; both hold their slot while a release holds
the line for this core or its table has no room for it (11 R239, R242). -/
def Obligations.FencesComplete : Prop :=
  ∀ (s : State) (a : Reg) (c : BitVec 3) (pas : List Nat) (heap : Bool),
    let p := s.g.p
    let pa := pas.headD 0
    let n := s.nameScope pa
    let met (scope : Nat) : Prop :=
      p.ld = 0 ∧ (1 ≤ scope → p.st = 0) ∧ (2 ≤ scope → p.rst = 0) ∧
      (3 ≤ scope → ∀ e ∈ s.buf (clusterOf s.g.core), p.fence.getD s.seq ≤ e.seq ∧ ¬(e.gid = s.g.gid ∧ e.pathF = s.g.curF)) ∧
      (5 ≤ scope → ∀ x ∈ s.xfers, ¬(x.gid = s.g.gid ∧ x.pathF = s.g.curF))
    let die := s.svtDie (s.partOf s.g) (dieOfCore s.g.core) pa
    (met c.toNat → Completes (.fenceScope c) s (fun t => SameRegisters s t ∧ GoesOn s t ∧ t.g.p.fence = none ∧
      (2 ≤ c.toNat → NearClear t s.g.core s.g.enc) ∧ FarFrame s t)) ∧
    (¬met c.toNat → Completes (.fenceScope c) s (Holds s)) ∧
    (p.rst = 0 → Completes .fenceW s (fun t => NoEffect s t ∧ GoesOn s t)) ∧
    (p.rst ≠ 0 → Completes .fenceW s (Holds s)) ∧
    (s.farCheck s.g (s.g.sr a).toNat 1 .load none = .ok pas heap →
      (VarFree s pa → met n.2 → Completes (.fenceRel a) s (fun t => SameRegisters s t ∧ GoesOn s t ∧
        ∃ e, t.svtOf die (pa / 64) = some e ∧ e.rel = true ∧ e.relCl = e.cl ∧ e.relMulti = e.multi ∧ e.relCore = s.g.core ∧
          e.relGid = s.g.gid)) ∧
      (VarFree s pa → ¬met n.2 → Completes (.fenceRel a) s (Holds s)) ∧
      (¬VarFree s pa → Completes (.fenceRel a) s (Holds s)) ∧
      (VarFree s pa → p.ld = 0 → Completes (.fenceAcq a) s (fun t => SameRegisters s t ∧ GoesOn s t ∧
        (2 ≤ n.2 → NearClear t s.g.core s.g.enc) ∧ (t.svtOf die (pa / 64)).isSome = true)) ∧
      (p.ld ≠ 0 ∨ ¬VarFree s pa → Completes (.fenceAcq a) s (Holds s)))

/-- 12 R277 to R279 with 09 R194, R199, R203: ln.def and ln.resize install a record that passes its checks, at once or as a change
with cursors, and park behind a change in progress; ln.flush and ln.inv join the path's stores with their range; ln.stat reports the
class, its change, its kind, its length and the least cursor. -/
def Obligations.LanternWords : Prop :=
  ∀ (s u : State) (d a b : Reg) (bs : List Byte) (k : ClassDef) (ch : Change),
    let l : Ldr := ⟨(bytesDwords 4 bs).getD 0 0, (bytesDwords 4 bs).getD 1 0⟩
    let part := s.partOf s.g
    let key := part * 64 + l.cls
    let installed (v : ClassDef) (t : State) : Prop :=
      t.classes = smPut s.classes key v ∧ SameRegisters s t ∧ GoesOn s t ∧ FarFrame u { t with classes := u.classes }
    let lo := (s.g.sr a).toNat
    let hi := lo + (s.g.sr b).toNat
    let c := (s.g.sr a).toNat
    (ReadsFar s (s.g.sr a).toNat 32 32 bs u → ldrBadField (bytesDwords 4 bs) = false → u.ldrCheck part l = none →
      (s.classDef part l.cls = none → Completes (.lnDef a) s (installed ⟨l, none⟩) ∧
        Completes (.lnResize a) s (Faults u .badLantern (s.g.sr a))) ∧
      (s.classDef part l.cls = some k → k.change = none →
        Completes (.lnDef a) s (installed (k.become l)) ∧ Completes (.lnResize a) s (installed (k.become l))) ∧
      (s.classDef part l.cls = some k → k.change ≠ none →
        Completes (.lnDef a) s (Parks u (.lantern part l.cls)) ∧ Completes (.lnResize a) s (Parks u (.lantern part l.cls)))) ∧
    (lo = hi → Completes (.lnFlush a b) s (NoEffect s) ∧ Completes (.lnInv a b) s (NoEffect s)) ∧
    (lo ≠ hi → s.coverFault s.g lo hi = none → s.g.p.st < 63 →
      (let queued (inv : Bool) (t : State) : Prop :=
         t.g.arch = ({ s.g.modP (fun p => { p with st := p.st + 1 }) with
           lnOps := s.g.lnOps ++ [{ seq := s.seq, pathF := s.g.curF, inv := inv, lo := lo, hi := hi, started := false, lines := [] }] } : Group).arch ∧
         SameRegisters s t ∧ GoesOn s t ∧ FarFrame s t
       Completes (.lnFlush a b) s (queued false) ∧ Completes (.lnInv a b) s (queued true))) ∧
    (63 < c ∨ s.classDef part c = none → Completes (.lnStat d a) s (WritesScalar s d 0 0)) ∧
    (c ≤ 63 → s.classDef part c = some k → k.change = none → Completes (.lnStat d a) s (WritesScalar s d (BitVec.ofNat 64 (2 ^ 63)) 0)) ∧
    (c ≤ 63 → s.classDef part c = some k → k.change = some ch → ch.old.total < 2 ^ 20 →
      GivesScalar (.lnStat d a) s d (fun v => v.getLsbD 63 = true ∧ v.getLsbD 62 = true ∧ v.getLsbD 61 = ch.flushAll ∧
        v.toNat / 2 ^ 20 % 2 ^ 20 = ch.old.total ∧
        (∀ i ∈ ch.old.instDies, v.toNat % 2 ^ 20 ≤ smGet 0 ch.cursors i) ∧ v.toNat % 2 ^ 20 ≤ ch.old.total))

/-! ### Launch and synchronisation (spec 07; 05 R120, R128, R129) -/

/-- 07 R165 with 05 R124, R128, R129: launch in group 0 above depth 9, with a record that passes its checks and a FREE entry in the
pending-launch queue, makes the record a task of the next depth under the team, holds it in the lowest free entry and delivers its
grid id, the lowest that is free (log 14); with no free entry it parks. In another group it faults PRIVILEGE, at depth 9 LAUNCH_DEPTH. -/
def Obligations.LaunchResults : Prop :=
  ∀ (s u : State) (d a : Reg) (bs : List Byte) (tm : Team) (ix : Nat) (c : Code),
    let at1 := s.g.sr a
    let r := bytesDwords 64 bs
    let queue := ((s.taskOf s.g).map Task.queue).getD 0
    (s.g.index ≠ 0 → Completes (.launch d a) s (Faults s .privilege at1)) ∧
    (s.g.index = 0 → s.g.depth = 9 → Completes (.launch d a) s (Faults s .launchDepth at1)) ∧
    (s.g.index = 0 → s.g.depth ≠ 9 → ReadsFar s at1.toNat 512 64 bs u →
      (u.recordCheck s.g.enc queue r = some c → Completes (.launch d a) s (Faults u c at1)) ∧
      (u.recordCheck s.g.enc queue r = none → s.team s.g.team = some tm → tm.freePlq = none →
        Completes (.launch d a) s (Parks u .plq)) ∧
      (u.recordCheck s.g.enc queue r = none → s.team s.g.team = some tm → tm.freePlq = some ix → u.packageLeaf = none →
        Completes (.launch d a) s (fun t => ∃ id e x, GoesOn s t ∧ OneRegister s d (BitVec.ofNat 64 (u.freeGrid s.g.enc)) t ∧
          s.task id = none ∧ t.task id = some x ∧ (∀ j, j ≠ id → t.task j = s.task j) ∧
          x.enc = s.g.enc ∧ x.queue = queue ∧ x.grid = u.freeGrid s.g.enc ∧ x.depth = s.g.depth + 1 ∧
          x.parent = some s.g.team ∧ x.recAt = at1.toNat ∧ x.rcd = r ∧ x.stage = .queued ∧
          t.team s.g.team = some { tm with plq := tm.plq ++ [e] } ∧ e.ix = ix ∧ e.task = id ∧
          (∀ j, j ≠ s.g.team → t.team j = s.team j) ∧ t.mem = u.mem)))

/-- 07 R166, R167 with 09 R191: join completes once enough teams of the grid are published and retires a grid that is wholly published, which
completes every other join on it; another handle that names no unretired child faults PRIVILEGE; evt.pub releases at package scope
and leaves; evt.wait parks on a zero word, else leaves to decrement it, and completes when the old value was not zero. Neither join nor
evt.wait changes a near cache as it completes. -/
def Obligations.JoinAndEvents : Prop :=
  ∀ (s : State) (a b : Reg) (pas : List Nat) (heap : Bool) (x : Task) (old : Word) (at1 : Nat),
    let h := s.g.sr a
    let n := (s.g.sr b).toNat
    let need := if n = 0 ∨ x.teams ≤ n then x.teams else n
    let va := (s.g.sr a).toNat
    let pa := pas.headD 0
    let ev (op : AtomOp) : Atom := { op := op, w := 8, nat := true, merge := op = .evtPub, x := 0, y := 0 }
    let req (op : AtomOp) (q : Req) : Prop := q.atom = some (ev op) ∧ q.elems = [{ lane := 0, va := va, pas := pas }]
    let word := leNat (s.peek (s.partOf s.g) (s.clsOf pa) (dieOfCore s.g.core) pa 8)
    (s.g.p.joined = some h.toNat → Completes (.join a b) s (fun t => SameRegisters s t ∧ GoesOn s t ∧ t.g.p.joined = none ∧
      NearStands s t ∧ t.tasks = s.tasks)) ∧
    (s.g.p.joined ≠ some h.toNat → 2 ^ 24 ≤ h.toNat ∨ s.childGrid s.g h.toNat = none → Completes (.join a b) s (Faults s .privilege h)) ∧
    (s.g.p.joined ≠ some h.toNat → h.toNat < 2 ^ 24 → s.childGrid s.g h.toNat = some x →
      (x.published < need → Completes (.join a b) s (fun t => Parks s (.join x.id need) t ∧ t.g.p.joinOf = some x.id)) ∧
      (need ≤ x.published → Completes (.join a b) s (fun t => SameRegisters s t ∧ GoesOn s t ∧ NearStands s t ∧
        (∀ y, s.task x.id = some y → t.task x.id = some { y with retired := y.retired || (need = x.teams : Bool) }) ∧
        (need = x.teams → ∀ y, s.task x.id = some y → ∀ i g', (i, g') ∈ s.groups → g'.t.joinOf = some x.id →
          ∃ g'', (i, g'') ∈ t.groups ∧ g''.t = { g'.t with joinOf := none, joined := some y.grid }) ∧
        t.mem = s.mem))) ∧
    (FarOk s va 8 8 .atomic (some (ev .evtPub)) pas heap → s.g.p.ld < 63 → s.packageLeaf = none →
      Completes (.evtPub a) s (Sends s (fun g => g.fenceDone.moreLd) (req .evtPub))) ∧
    (FarOk s va 8 8 .atomic (some (ev .evtPub)) pas heap → s.packageLeaf ≠ none → Completes (.evtPub a) s (Holds s)) ∧
    (s.g.evt = none → FarOk s va 8 8 .atomic (some (ev .evtWait)) pas heap →
      (word = 0 → Completes (.evtWait a) s (Parks s (.event va))) ∧
      (word ≠ 0 → Completes (.evtWait a) s (fun t => t.held = true ∧
        Sends s (fun g => { g with evt := some ⟨pa, none⟩ }) (req .evtWait) t))) ∧
    (s.g.evt = some ⟨at1, none⟩ → Completes (.evtWait a) s (Holds s)) ∧
    (s.g.evt = some ⟨at1, some old⟩ → old ≠ 0 → Completes (.evtWait a) s (fun t => SameRegisters s t ∧ GoesOn s t ∧ t.g.evt = none ∧
      NearStands s t ∧ FarFrame s t)) ∧
    (s.g.evt = some ⟨at1, some 0⟩ → Completes (.evtWait a) s (fun t => Parks s (.event va) t ∧ t.g.evt = none))

/-- 07 R168, R169: an arrival counts in its barrier, the last one starting the next generation, and gives the path slot the token of
the generation it joined; a wait ends when the generation has moved on, and else parks; a count of 0, above GROUPS or different from
the one in use faults BARRIER_COUNT. -/
def Obligations.Barriers : Prop :=
  ∀ (s : State) (a : Reg) (n : BitVec 4) (tm : Team),
    let c := s.g.sr a
    let b := s.barrier n.toNat
    let b' : Barrier := if b.a + 1 = c.toNat then { c := c.toNat, a := 0, g := b.g + 1 } else { b with c := c.toNat, a := b.a + 1 }
    let counts : Prop := c ≠ 0 ∧ c.toNat ≤ s.g.teamGroups ∧ (b.a = 0 ∨ c.toNat = b.c)
    let ordered : Prop := s.g.p.st = 0 ∧ (s.g.pair = true → s.g.p.rst = 0)
    let frame (t : State) : Prop := SameRegisters s t ∧ FarFrame s { t with teams := s.teams }
    let passed (t : State) : Prop := frame t ∧ GoesOn s t ∧ smFind t.g.p.toks n.toNat = none ∧ t.g.p.arrived = false
    s.team s.g.team = some tm →
    (counts → ordered → Completes (.barArrive a n) s (fun t => frame t ∧ GoesOn s t ∧ t.barrier n.toNat = b' ∧
      smFind t.g.p.toks n.toNat = some b.g ∧ ∀ j, j ≠ n.toNat → t.barrier j = s.barrier j)) ∧
    (¬counts → Completes (.barArrive a n) s (Faults s .barrierCount c)) ∧
    (counts → ¬ordered → Completes (.barArrive a n) s (Holds s)) ∧
    (smFind s.g.p.toks n.toNat = none ∨ (∃ g, smFind s.g.p.toks n.toNat = some g ∧ b.g ≠ g) → Completes (.barWait n) s passed) ∧
    (smFind s.g.p.toks n.toNat = some b.g → Completes (.barWait n) s (Parks s (.barrier n.toNat))) ∧
    (s.g.p.arrived = false → counts → ordered → b.a + 1 = c.toNat → Completes (.barSync a n) s (fun t => passed t ∧
      t.barrier n.toNat = b')) ∧
    (s.g.p.arrived = false → counts → ordered → b.a + 1 ≠ c.toNat → Completes (.barSync a n) s (fun t => t.barrier n.toNat = b' ∧
      t.g.p.arrived = true ∧ t.g.stat = .parked ∧ t.g.p.park = some (.barrier n.toNat) ∧ SameRegisters s t)) ∧
    (s.g.p.arrived = true → smFind s.g.p.toks n.toNat ≠ some b.g → Completes (.barSync a n) s passed)

/-- 07 R170 to R172 with 05 R120: elect delivers 1 to the first of a team's groups to reach each election and 0 to the others;
yield ends the run with Y; the last participant of a g.regroup moves the active lanes of all, in order, into the participants' low
lanes, and every participant receives how many it holds. -/
def Obligations.ElectYieldRegroup : Prop :=
  ∀ (s : State) (d a : Reg) (tm : Team) (n j : Nat) (g : Machine.Group) (gs : List Machine.Group) (ls : List (Nat × Nat)) (r : Reg)
    (x : Nat × Nat),
    let m := (s.g.sr a).toNat % 2 ^ 32
    let ixs := (List.range 32).filter (bitAt m)
    let parked := s.regrouping s.g.team
    let all := ixs.filterMap (s.teamGroup s.g.team)
    let u := s.regroup all
    (s.team s.g.team = some tm → Completes (.elect d) s (fun t =>
      OneRegister s d (if tm.e ≤ s.g.elects then 1 else 0) t ∧ GoesOn s t ∧ t.g.elects = s.g.elects + 1 ∧
      t.team s.g.team = some { tm with e := max tm.e (s.g.elects + 1) } ∧ (∀ k, k ≠ s.g.team → t.team k = s.team k) ∧
      FarFrame s { t with teams := s.teams })) ∧
    Completes .yield s (fun t => SameRegisters s t ∧ GoesOn s t ∧ t.g.rc = 0 ∧ t.g.runOver = true ∧ t.g.y = true ∧ FarFrame s t) ∧
    (s.g.regroupRes = some n → Completes (.gRegroup d a) s (fun t => OneRegister s d (BitVec.ofNat 64 n) t ∧ GoesOn s t ∧
      t.g.regroupRes = none ∧ FarFrame s t)) ∧
    (s.g.regroupRes = none → 0 < ixs.length → ixs.length ≤ 4 → bitAt m s.g.index = true → (∀ i ∈ ixs, i < s.g.teamGroups) →
      (s.g.pair = true → ∀ i ∈ ixs, i % 2 = s.g.index % 2) →
      (∀ i ∈ ixs, i ≠ s.g.index → ∃ y, s.teamGroup s.g.team i = some y ∧ y.stat ≠ .ended ∧ y.stat ≠ .ending) →
      (∀ y ∈ parked, y.2 ≠ m → bitAt m y.1.index = false ∧ bitAt y.2 s.g.index = false) →
      s.g.regroupable = true → (∀ y ∈ parked, y.2 = m → y.1.wpos = s.g.wpos) → s.g.t.ld = 0 → s.g.f.ld = 0 →
        (ixs.length ≤ (parked.filter fun y => y.2 = m).length + 1 → Completes (.gRegroup d a) s (fun t =>
          OneRegister u d (BitVec.ofNat 64 (u.g.regroupRes.getD 0)) t ∧ t.g.regroupRes = none ∧ t.groups = u.groups ∧ GoesOn u t)) ∧
        ((parked.filter fun y => y.2 = m).length + 1 < ixs.length →
          Completes (.gRegroup d a) s (Parks s (.regroup m)))) ∧
    (s.g.regroupRes = none → ixs.length = 0 ∨ 4 < ixs.length ∨ bitAt m s.g.index = false ∨ (∃ i ∈ ixs, s.g.teamGroups ≤ i) →
      Completes (.gRegroup d a) s (Faults s .barrierCount (BitVec.ofNat 64 m))) ∧
    ((g.takeLanes gs ls).t.mask = BitVec.ofNat 96 (2 ^ min ls.length 96 - 1)) ∧
    ((∀ y ∈ gs, y.wpos = g.wpos) → j < 96 → ls[j]? = some x → x.1 < gs.length →
      lane ((g.takeLanes gs ls).vr r) j = lane ((gs.getD x.1 {}).vr r) x.2) ∧
    (j < 96 → ls[j]? = none → lane ((g.takeLanes gs ls).vr r) j = lane (g.vr r) j)

/-- 07 R173 to R175 with 11 R242: mon.arm arms the path's monitor on the line, as one of at most 64 on the core, or holds its slot while
a release holds the line; mon.wait parks until a cause is latched, delivers STORE 0, LOST 1
or SPURIOUS 2 (1 where no monitor is armed) and disarms; wait completes once each limited counter is at most its limit; the tag words
read, wait for and clear TAGS of the core. -/
def Obligations.MonitorsAndTags : Prop :=
  ∀ (s : State) (d a : Reg) (t1 c1 l1 n1 : BitVec 3) (pas : List Nat) (heap : Bool) (m : Monitor) (c : Cause),
    let p := s.g.p
    let tags := s.tags
    let x := s.g.sr a
    let lim (v : Nat) (k : BitVec 3) : Prop := k = 7 ∨ v ≤ k.toNat
    let met := lim p.ld n1 ∧ lim p.st l1 ∧ lim p.cp c1 ∧ lim p.tl t1
    let blocked (pa : Nat) := s.svtBlocked (s.partOf s.g) (dieOfCore s.g.core) pa (.core s.g.core)
    (s.farCheck s.g x.toNat 1 .load none = .ok pas heap →
      (blocked (pas.headD 0) = false → Completes (.monArm a) s (fun t => SameRegisters s t ∧ GoesOn s t ∧
        t.g.p.mon = some { line := pas.headD 0 / 64, cause := none } ∧ (s.g.gid, s.g.curF) ∈ (t.core s.g.core).mons ∧
        (t.core s.g.core).mons.length ≤ max 64 (s.core s.g.core).mons.length)) ∧
      (blocked (pas.headD 0) = true → Completes (.monArm a) s (Holds s))) ∧
    (p.mon = none → Completes (.monWait d) s (WritesScalar s d 1 0)) ∧
    (p.mon = some { m with cause := none } → Completes (.monWait d) s (Parks s .monitor)) ∧
    (p.mon = some { m with cause := some c } → Completes (.monWait d) s (fun t =>
      OneRegister s d (match c with | .store => 0 | .lost => 1 | .spurious => 2) t ∧ GoesOn s t ∧ t.g.p.mon = none ∧
      (s.g.gid, s.g.curF) ∉ (t.core s.g.core).mons ∧ (∀ l ∈ (t.core s.g.core).near, l.line ≠ m.line) ∧ FarFrame s t)) ∧
    (met → Completes (.wait t1 c1 l1 n1) s (fun t => NoEffect s t ∧ GoesOn s t)) ∧
    (¬met → Completes (.wait t1 c1 l1 n1) s (Parks s (.counters n1.toNat l1.toNat c1.toNat t1.toNat))) ∧
    (x = 0 ∨ tags &&& x ≠ 0 → Completes (.tagWaitAny d a) s (WritesScalar s d (tags &&& x) 0)) ∧
    (x ≠ 0 → tags &&& x = 0 → Completes (.tagWaitAny d a) s (Parks s (.tags x false))) ∧
    (tags &&& x = x → Completes (.tagWaitAll d a) s (WritesScalar s d (tags &&& x) 0)) ∧
    (tags &&& x ≠ x → Completes (.tagWaitAll d a) s (Parks s (.tags x true))) ∧
    GivesScalar (.tagFfs d a) s d (fun v => v.toNat ≤ 64 ∧ (∀ j < v.toNat, (tags &&& x).getLsbD j = false) ∧
      (v.toNat < 64 → (tags &&& x).getLsbD v.toNat = true)) ∧
    Completes (.tagClr a) s (fun t => SameRegisters s t ∧ GoesOn s t ∧ t.tags = tags &&& ~~~x ∧
      (∀ k, k ≠ s.g.core → (t.core k).tagSet = (s.core k).tagSet) ∧ t.g.arch = s.g.arch ∧ t.mem = s.mem ∧
      (∀ k, (t.core k).pool = (s.core k).pool))

/-! ### Copies and tiles (spec 15; 14) -/

/-- 15 R304 to R309 with 14 R286 to R292: cp.iter binds its slot and clears the record's saved counters; a copy whose records pass
enters the engine under its tag, with its ranges locked and CP raised by one; it holds its slot while its tag is BUSY, the engine is
full or CP is 63, and faults ENGINE_FORMAT with the record's address where a direction is wrong: of two wrong directions the source's
(log 26). A SCALE of the record that cp.fill names faults with the word's address (17 R437). Window stores that the core has admitted
are performed before a range is locked (11 R248; log 35). -/
def Obligations.CopiesIssue : Prop :=
  ∀ (s : State) (d a b : BitVec 3) (v r tg : Reg) (f : BitVec 1) (x y i : Rec) (l l' : LocalAcc),
    let at1 := s.g.sr r
    let ds := bytesDwords 8 (s.poolRead l)
    let counters (c o : Nat) : Prop := c = s.g.core ∧ ∃ j < 8, s.poolOff s.g (at1.toNat % 2 ^ 20 + 0x30 + j) = some o
    let k := s.core s.g.core
    let bit : Word := BitVec.ofNat 64 (2 ^ tg.toNat)
    let pair : CopyWord := { tag := tg.toNat, flag := f = 1#1, dst := x, src := some y, idx := none, fill := none }
    let fits (c : CopyWord) : Prop := c.bad = none ∧ (∀ q ∈ c.ranges, q.1 = false → s.g.outside q.2.2 = none)
    let room (c : CopyWord) : Prop :=
      k.copies.length < 16 ∧ bitAt k.tagBusy.toNat tg.toNat = false ∧ s.g.p.cp < 63 ∧ k.locks.length + c.ranges.length ≤ 32
    let locks (c : CopyWord) : List LockRange := c.ranges.map fun q => s.lockOf s.g k.opNext q.1 q.2.1 q.2.2
    let entered (c : CopyWord) (t : State) : Prop :=
      Goes s none t ∧ EngineFrame (s.clearWay s.g.core (locks c)) t ∧ t.g.p.cp = s.g.p.cp + 1 ∧
      (t.core s.g.core).tagSet = k.tagSet &&& ~~~bit ∧ (t.core s.g.core).tagBusy = k.tagBusy ||| bit ∧
      (t.core s.g.core).locks = k.locks ++ locks c ∧
      (∃ e, (t.core s.g.core).copies = k.copies ++ [e] ∧ e.id = k.opNext ∧ e.gid = s.g.gid ∧ e.pathF = s.g.curF ∧ e.tag = c.tag ∧
        e.flag = c.flag ∧ e.dst = c.dst.dwords ∧ e.src = (c.src.map Rec.dwords).getD [] ∧ e.idx = (c.idx.map Rec.dwords).getD [] ∧
        e.fill = c.fill) ∧
      (∀ j, j ≠ s.g.core → (t.core j).copies = (s.core j).copies ∧ (t.core j).locks = (s.core j).locks ∧
        (t.core j).tagSet = (s.core j).tagSet ∧ (t.core j).tagBusy = (s.core j).tagBusy)
    (bitAt at1.toNat 23 = true → at1.toNat < 2 ^ 24 → at1.toNat % 64 = 0 → LocalOk s at1.toNat 64 64 false l →
      recBad (recOf at1.toNat ds) ds = false → LocalOk s ((at1.toNat + 0x30 : Nat) : Int) 8 8 true l' →
        Completes (.cpIter d r) s (fun t => Goes s none t ∧ t.g.arch = ({ s.g with iters := smPut s.g.iters d.toNat at1 } : Machine.Group).arch ∧
          (∀ c o, counters c o → memByte (t.core c).pool o = 0) ∧
          (∀ c o, ¬counters c o → memByte (t.core c).pool o = memByte (s.core c).pool o) ∧
          FeAre s (fun _ _ => none) t ∧ WindowsStand s t ∧ LocalFrame s t)) ∧
    (ReadsRecord s d.toNat x → ReadsRecord s a.toNat y →
      (y.far = true → x.far = false → fits pair → room pair → Completes (.cpIn d a tg f) s (entered pair)) ∧
      (y.far = false → Completes (.cpIn d a tg f) s (Faults s .engineFormat (BitVec.ofNat 64 y.addr))) ∧
      (y.far = false → x.far = true → fits { pair with flag := false } → room pair →
        Completes (.cpOut d a tg) s (entered { pair with flag := false })) ∧
      (y.far = true → Completes (.cpOut d a tg) s (Faults s .engineFormat (BitVec.ofNat 64 y.addr))) ∧
      (y.far = x.far → fits pair → room pair → Completes (.cpCopy d a tg f) s (entered pair)) ∧
      (y.far ≠ x.far → Completes (.cpCopy d a tg f) s (Faults s .engineFormat (BitVec.ofNat 64 x.addr))) ∧
      (y.far = x.far → fits pair → (16 ≤ k.copies.length ∨ bitAt k.tagBusy.toNat tg.toNat = true ∨ 63 ≤ s.g.p.cp) →
        Completes (.cpCopy d a tg f) s (Holds s)) ∧
      (ReadsRecord s b.toNat i → x.far = false → i.far = false → i.layout = 0 → i.rank = 1 → i.etype ≤ 1 → i.scale = 0 →
        fits { pair with idx := some i } → room { pair with idx := some i } →
          Completes (.cpGather d a b tg f) s (entered { pair with idx := some i }))) ∧
    (∀ rs, (∀ g ∈ s.allGroups, ∀ w ∈ g.winStores, ∀ p ∈ w.parts, p.core ≠ s.g.core) → s.clearWay s.g.core rs = s) ∧
    (ReadsRecord s d.toNat x → x.scale ≠ 0 → Completes (.cpFill d v tg f) s (Faults s .engineFormat s.wordAddr)) ∧
    (ReadsRecord s d.toNat x → x.scale = 0 → fits { pair with src := none, fill := some (s.g.sr v) } →
      room { pair with src := none, fill := some (s.g.sr v) } →
        Completes (.cpFill d v tg f) s (entered { pair with src := none, fill := some (s.g.sr v) }))

/-- 15 R310 to R316 with 14 R293 to R296: mm.bind copies its registers into a quarter of the staging of every core of the team; each
tile operation whose tile exists enters its tile queues as the youngest entry and raises TL; a product asks for its quarters as they
are bound and locks A; mm.pair outside the even core of a pair team faults PRIVILEGE. A tile that does not exist faults ENGINE_FORMAT with
N for mm.zero and the products, a row of 96 or more with the row for mm.rd and mm.rd.scale; the rules of the other words name no
address, which is then the word's (17 R437). Window stores that the core has admitted are performed before A is locked (log 35). -/
def Obligations.TilesIssue : Prop :=
  ∀ (s : State) (n t4 k4 : BitVec 4) (q : BitVec 2) (d a b v : Reg),
    let cores := s.teamCores
    let here := s.g.core
    let blocks := k4.toNat + 1
    let room (cs : List Nat) : Prop := s.g.p.tl < 63 ∧ ∀ c ∈ cs, (s.core c).tileq.length < 8
    let exists1 : Prop := 9 * (n.toNat + 1) ≤ s.g.accRows
    let row := (s.g.sr b).toNat
    let e1 : Quarter := { typ := t4.toNat, k := (if t4.toNat = 7 then 8 else 16) * blocks, team := s.g.team,
                          regs := (List.range (4 * blocks)).map fun j => s.g.vr (a + BitVec.ofNat 6 j) }
    let P := if t4.toNat = 7 then 8 else 16
    let A := (s.g.sr a).toNat
    let A' : Int := ((A + matASize t4.toNat row : Nat) : Int)
    let lock := s.lockOf s.g (s.core here).opNext false false ((A : Int), A')
    let product (kind : TileKind) (cs qs : List Nat) (i : Instr) : Prop :=
      row ≠ 0 → row % P = 0 → row ≤ 16 * P → exists1 → ArraysReady s cs → room cs → A % 128 = 0 → s.g.outside ((A : Int), A') = none →
      (∀ c ∈ cs, ∀ j ∈ qs, ∃ x, smFind (s.core c).staging j = some x ∧ x.team = s.g.team ∧ x.typ = t4.toNat ∧ x.k = row) →
      (s.core here).locks.length < 32 →
        Completes i s (fun t => Queued (s.clearWay here [lock]) cs (fun e => e.kind = kind ∧ e.n = n.toNat ∧ e.typ = t4.toNat ∧ e.k = row ∧ e.aAddr = A ∧
            e.lock = (s.core here).opNext) t ∧
          (t.core here).locks = (s.core here).locks ++ [lock])
    ((s.g.pair = true → q.toNat / 2 = here % 2) → ArraysReady s cores →
      (∀ c ∈ cores, ∀ e ∈ (s.core c).tileq, e.kind ≠ .one ∧ e.kind ≠ .pair) →
      (∀ c ∈ cores, ∀ e ∈ (s.core c).staging, e.1 = q.toNat → e.2.team = s.g.team ∨ s.teamStopped e.2.team = false) →
        Completes (.mmBind q a k4 t4) s (fun t => Goes s none t ∧ EngineFrame s t ∧
          ∀ c j, smFind (t.core c).staging j = if c ∈ cores ∧ j = q.toNat then some e1 else smFind (s.core c).staging j)) ∧
    (s.g.pair = true → q.toNat / 2 ≠ here % 2 →
      Completes (.mmBind q a k4 t4) s (Faults s .engineFormat (BitVec.ofNat 64 q.toNat))) ∧
    (exists1 → ArraysReady s cores → room cores → cores.Nodup →
      Completes (.mmZero n) s (Queued s cores fun e => e.kind = .zero ∧ e.n = n.toNat)) ∧
    (¬exists1 → Completes (.mmZero n) s (Faults s .engineFormat (BitVec.ofNat 64 n.toNat)) ∧
      (∀ i ∈ [Instr.mmRd d n b, .mmRdScale d n b v, .mmWr n a b, .mmChk d n], Completes i s (Faults s .engineFormat s.wordAddr)) ∧
      (row ≠ 0 → row % P = 0 → row ≤ 16 * P → Completes (.mmOne n a b t4) s (Faults s .engineFormat (BitVec.ofNat 64 n.toNat)))) ∧
    (exists1 → ArraysReady s [here] → room [here] →
      Completes (.mmChk d n) s (Queued s [here] fun e => e.kind = .chk ∧ e.n = n.toNat ∧ e.dst = s.g.loc d) ∧
      (row < 96 →
        Completes (.mmRd d n b) s (Queued s [here] fun e => e.kind = .rd row none ∧ e.n = n.toNat ∧ e.dst = s.g.vloc d) ∧
        Completes (.mmRdScale d n b v) s (Queued s [here] fun e =>
          e.kind = .rd row (some (s.g.vr v)) ∧ e.n = n.toNat ∧ e.dst = s.g.vloc d) ∧
        Completes (.mmWr n a b) s (Queued s [here] fun e => e.kind = .wr row (s.g.vr a) ∧ e.n = n.toNat))) ∧
    (exists1 → 96 ≤ row → Completes (.mmRd d n b) s (Faults s .engineFormat (s.g.sr b)) ∧
      Completes (.mmRdScale d n b v) s (Faults s .engineFormat (s.g.sr b)) ∧
      Completes (.mmWr n a b) s (Faults s .engineFormat s.wordAddr)) ∧
    product .one [here] [0, 1] (.mmOne n a b t4) ∧
    (s.g.pair = true → here % 2 = 0 → product .pair [here, here + 1] [0, 1, 2, 3] (.mmPair n a b t4)) ∧
    (s.g.pair = false ∨ here % 2 ≠ 0 → Completes (.mmPair n a b t4) s (Faults s .privilege (s.g.sr a)))

/-! ### Fabric words (spec 26; 25) -/

/-- 26 R424 to R429 with 25 R409, R410, R412: w.open delivers the handle of a window it opens, parks while its stream binds, or
delivers a failure value; w.close starts closing; the counter words read TCNT and OCNT with OERR; w.wait completes once TCNT has
reached its operand, wrap included; w.put and w.get leave under their tag with CP raised, and a length of 0 only sets the tag. Of several
statuses the lowest is delivered, and COLL with UE counts as a bad descriptor (log 20). -/
def Obligations.FabricWords : Prop :=
  ∀ (s u : State) (d a b tg : Reg) (bs : List Byte) (v : Word) (w : FWin) (st : Nat) (unc : Bool),
    let ds := bytesDwords 16 bs
    let fresh : Prop := s.g.p.result = none ∧ ∀ y ∈ s.fwins, y.opener ≠ some (s.g.gid, s.g.curF)
    let bound : Prop := descStreamed ds = true → ∃ y, smFind (s.encl s.g.enc).streams (descStream ds) = some y ∧ y.bound = true
    let attested : Prop := descColl ds = true →
      ∃ y, u.cgroup (u.encl u.g.enc).part (descGroup ds) = some y ∧ y.attested = some true
    let made (opener : Option (Nat × Bool)) (stat : FwSt) (y : FWin) : Prop :=
      (∀ z ∈ s.fwins, z.wid ≠ y.wid) ∧ y.wid < 65536 ∧ y.enc = s.g.enc ∧ y.gid = s.g.gid ∧ y.core = s.g.core ∧ y.desc = ds ∧
      y.stat = stat ∧ y.opener = opener ∧ y.tcnt = 0 ∧ y.ocnt = 0 ∧ y.oerr = 0
    let h := s.g.sr a
    let n := (s.g.sr b).toNat
    let at1 := (s.g.sr a).toNat
    let len := n / 2 ^ 40
    let off := n % 2 ^ 40
    let route : Prop := handlePkg (s.g.sr d) = s.pkgid ∨ (s.routePort (s.partOf s.g) (handlePkg (s.g.sr d))).isSome = true
    let k := s.core s.g.core
    let bit : Word := BitVec.ofNat 64 (2 ^ tg.toNat)
    let free : Prop := bitAt k.tagBusy.toNat tg.toNat = false ∧ s.g.p.cp < 63
    let leaves (get : Bool) (t : State) : Prop :=
      Goes s none t ∧ t.g.p.cp = s.g.p.cp + 1 ∧ (t.core s.g.core).tagSet = k.tagSet &&& ~~~bit ∧
      (t.core s.g.core).tagBusy = k.tagBusy ||| bit ∧ t.mem = s.mem ∧ t.fwins = s.fwins ∧
      (∃ x, t.xfers = s.xfers ++ [x] ∧ x.get = get ∧ x.gid = s.g.gid ∧ x.pathF = s.g.curF ∧ x.core = s.g.core ∧ x.enc = s.g.enc ∧
        x.tag = tg.toNat ∧ x.wid = w.wid ∧ x.loc = plainAddr at1 - w.base ∧ x.len = len ∧ x.off = off ∧ x.handle = s.g.sr d ∧
        x.port = (len + 255) / 256)
    (s.g.p.result = some v → Completes (.wOpen d a) s (fun t => Goes s (some (d, v)) t ∧ t.g.p.result = none)) ∧
    (fresh → ReadsDesc s h 128 bs u → u.openStatus u.g ds = some st →
      Completes (.wOpen d a) s (Goes s (some (d, BitVec.ofNat 64 (2 ^ 63 + st))))) ∧
    (descBad ds = true → u.openStatus u.g ds = some 1) ∧
    (fresh → ReadsDesc s h 128 bs u → u.openStatus u.g ds = none → bound → attested →
      Completes (.wOpen d a) s (fun t => ∃ y, made none .opened y ∧ t.fwins = s.fwins ++ [y] ∧
        Goes s (some (d, BitVec.ofNat 64 (s.pkgid % 2 ^ 11 * 2 ^ 52 + y.wid * 2 ^ 36 + descDw ds 1 / 64))) t)) ∧
    (fresh → ReadsDesc s h 128 bs u → u.openStatus u.g ds = none → ¬(bound ∧ attested) →
      Completes (.wOpen d a) s (fun t => ∃ y, made (some (s.g.gid, s.g.curF)) .opening y ∧ t.fwins = s.fwins ++ [y] ∧
        t.g.stat = .parked ∧ t.g.p.park = some (.binding s.g.enc (descStream ds)) ∧ t.g.rc = 0 ∧ SameRegisters s t)) ∧
    (Names s h w →
      Completes (.wClose a) s (fun t => Goes s none t ∧
        t.fwins = s.fwins.map fun y => if y.wid = w.wid then { y with stat := .closing } else y) ∧
      Completes (.wCntT d a) s (Goes s (some (d, BitVec.ofNat 64 w.tcnt))) ∧
      Completes (.wCntO d a) s (Goes s (some (d, BitVec.ofNat 64 (w.oerr * 2 ^ 48 + w.ocnt)))) ∧
      ((w.tcnt + 2 ^ 48 - n % 2 ^ 48) % 2 ^ 48 < 2 ^ 47 → Completes (.wWait a b) s (Goes s none)) ∧
      (¬(w.tcnt + 2 ^ 48 - n % 2 ^ 48) % 2 ^ 48 < 2 ^ 47 → Completes (.wWait a b) s (Parks s (.wcnt w.wid n w.ext)))) ∧
    (2 ^ 63 ≤ h.toNat → Completes (.wClose a) s (Faults s .windowGone h) ∧ Completes (.wCntT d a) s (Faults s .windowGone h) ∧
      Completes (.wCntO d a) s (Faults s .windowGone h) ∧ Completes (.wWait a b) s (Faults s .windowGone h)) ∧
    ((s.g.sr d).toNat < 2 ^ 63 → len ≠ 0 → s.originWin s.g at1 len = some w → route → free → k.locks.length < 32 →
      ((∀ f : Bool → State → Out, withRange at1 len false f s = f unc u) → Completes (.wPut d a b tg) s (leaves false)) ∧
      ((∀ f : Bool → State → Out, withRange at1 len true f s = f unc u) → Completes (.wGet d a b tg) s (leaves true))) ∧
    ((s.g.sr d).toNat < 2 ^ 63 → len = 0 → route → free →
      (let done (t : State) : Prop := Goes s none t ∧ (t.core s.g.core).tagSet = k.tagSet ||| bit ∧ t.xfers = s.xfers
       Completes (.wPut d a b tg) s done ∧ Completes (.wGet d a b tg) s done)) ∧
    ((s.g.sr d).toNat < 2 ^ 63 → len ≠ 0 → s.originWin s.g at1 len = none → Completes (.wPut d a b tg) s
      (Faults s .windowBounds (BitVec.ofNat 64 (s.outsideWin s.g at1))))

/-- 26 R430 to R432 with 25 R414 to R419: coll.ar and coll.bc take the lowest free slot and contribute to the next collective of
their group; coll.wait delivers the status of one that has ended and frees the slot, 0 where the slot is free, and parks on one in
progress; coll.cancel ends it with CANCELLED; ue.post takes the next post id and sends, ue.poll returns completions in order and changes
no near cache (09 R191). A misaligned coll.ar and a length of coll.bc out of range fault with the word's address (17 R437). -/
def Obligations.CollectiveAndQueueWords : Prop :=
  ∀ (s u : State) (d a b : Reg) (t4 : BitVec 4) (o2 : BitVec 2) (w : FWin) (slot st id : Nat) (v : Word) (gr : CGroup) (c : CollSlot)
    (bs : List Byte) (rest : List (Nat × Nat)),
    let e := s.g.enc
    let at1 := (s.g.sr a).toNat
    let n := (s.g.sr b).toNat
    let k := smGet 0 gr.issued (descRank w.desc)
    let joins (len typ op : Nat) (bcast : Bool) (t : State) : Prop :=
      Goes s (some (d, BitVec.ofNat 64 slot)) t ∧ t.mem = s.mem ∧
      smFind (t.encl e).colls slot = some { cgroup := descGroup w.desc, k := k, status := none, waiters := [] } ∧
      (∃ g' x, t.findGroup (descGroup w.desc) = some g' ∧ g'.contribs = gr.contribs ++ [x] ∧
        smGet 0 g'.issued (descRank w.desc) = k + 1 ∧ x.k = k ∧ x.rank = descRank w.desc ∧ x.enc = e ∧ x.wid = w.wid ∧
        x.off = plainAddr at1 - w.base ∧ x.len = len ∧ x.typ = typ ∧ x.op = op ∧ x.bcast = bcast ∧ x.slot = slot)
    let fits (size len : Nat) : Prop := at1 % size = 0 ∧ 0 < len ∧ len < 2 ^ 24 ∧ s.collWin s.g at1 = some w ∧
      plainAddr at1 + len ≤ w.base + w.ext ∧ s.freeColl e = some slot
    let quiet (len typ op : Nat) (bcast : Bool) : Prop :=
      s.findGroup (descGroup w.desc) = some gr ∧ smFind gr.ended k = none ∧ gr.gone = [] ∧
      (∀ y, s.streamOf w = some y → y.broken = false) ∧
      (∀ y ∈ gr.contribs, y.k = k → y.bcast = bcast ∧ y.len = len ∧ y.typ = typ ∧ y.op = op)
    let size := if t4.toNat = 7 then 8 else 4
    let q := (s.g.sr b).toNat
    let q' := (s.g.sr a).toNat
    let uq := smGet {} (s.encl e).ue q
    let desc := bytesDwords 8 bs
    let queue (t : State) (j : Nat) : UeQueue := smGet {} (t.encl e).ue j
    (fits size (n * size) → quiet (n * size) t4.toNat o2.toNat false →
      Completes (.collAr d a b t4 o2) s (joins (n * size) t4.toNat o2.toNat false)) ∧
    (fits 1 n → quiet n 0 0 true → Completes (.collBc d a b) s (joins n 0 0 true)) ∧
    (at1 % size ≠ 0 → Completes (.collAr d a b t4 o2) s (Faults s .misaligned s.wordAddr)) ∧
    (n = 0 ∨ 2 ^ 24 ≤ n → Completes (.collBc d a b) s (Faults s .windowBounds s.wordAddr)) ∧
    (s.g.p.result = some v → Completes (.collWait d a) s (fun t => Goes s (some (d, v)) t ∧ t.g.p.result = none)) ∧
    (s.g.p.result = none → 256 ≤ at1 ∨ smFind (s.encl e).colls at1 = none → Completes (.collWait d a) s (WritesScalar s d 0 0)) ∧
    (s.g.p.result = none → at1 < 256 → smFind (s.encl e).colls at1 = some c →
      (c.status = some st → Completes (.collWait d a) s (fun t => Goes s (some (d, BitVec.ofNat 64 st)) t ∧
        smFind (t.encl e).colls at1 = none)) ∧
      (c.status = none → Completes (.collWait d a) s (fun t => t.g.stat = .parked ∧ t.g.p.park = some (.coll e at1) ∧ t.g.rc = 0 ∧
        SameRegisters s t ∧ ∃ c', smFind (t.encl e).colls at1 = some c' ∧ (s.g.gid, s.g.curF) ∈ c'.waiters ∧ c'.status = none))) ∧
    (256 ≤ at1 ∨ smFind (s.encl e).colls at1 = none → Completes (.collCancel a) s (fun t => NoEffect s t ∧ GoesOn s t)) ∧
    (at1 < 256 → smFind (s.encl e).colls at1 = some c → c.status = none → s.findGroup c.cgroup = some gr →
      smFind gr.ended c.k = none → Completes (.collCancel a) s (fun t => SameRegisters s t ∧
        ∃ g', t.findGroup c.cgroup = some g' ∧ smFind g'.ended c.k = some 2 ∧ ∀ y ∈ g'.contribs, y.k ≠ c.k)) ∧
    (s.ueUsable e q = false → Completes (.uePost d a b) s (WritesScalar s d (BitVec.ofNat 64 (2 ^ 63)) 0)) ∧
    (s.ueUsable e q = true → ReadsDesc s (s.g.sr a) 64 bs u → uq.flight.length + uq.done.length < 256 →
      (uePostOk desc = true → u.originWin u.g (descDw desc 1) (descDw desc 2) = some w →
        Completes (.uePost d a b) s (fun t => Goes s (some (d, BitVec.ofNat 64 uq.next)) t ∧ (queue t q).next = (uq.next + 1) % 2 ^ 48 ∧
          (∃ p, (queue t q).flight = uq.flight ++ [p] ∧ p.id = uq.next ∧ p.wid = w.wid ∧ p.desc = desc) ∧
          ∃ data, t.outbox = s.outbox ++ [.ue e q uq.next data])) ∧
      (uePostOk desc = false → Completes (.uePost d a b) s (fun t => Goes s (some (d, BitVec.ofNat 64 uq.next)) t ∧
        (queue t q).done = uq.done ++ [(uq.next, 1)] ∧ t.outbox = s.outbox))) ∧
    (s.ueUsable e q' = false ∨ (smGet {} (s.encl e).ue q').done = [] → Completes (.uePoll d a) s (WritesScalar s d 0 0)) ∧
    (s.ueUsable e q' = true → (smGet {} (s.encl e).ue q').done = (id, st) :: rest → Completes (.uePoll d a) s (fun t =>
      Goes s (some (d, BitVec.ofNat 64 (2 ^ 63 + st * 2 ^ 48 + id))) t ∧ (queue t q').done = rest ∧ NearStands s t))

/-! ### System words, traps and Lamplight (spec 17; 01 Table 1.3; 21) -/

/-- 01 R13, R34 with Table 1.3, 14 R290 and 21 R381: sys.rd delivers each register of the table, sys.wr writes each that may be
written, WSB only while the spill area is empty and WSL never below WSP; a write to a read-only register faults PRIVILEGE, a number
outside the table ILLEGAL_INSTRUCTION, each with the number as FRA; rdcyc delivers the cycle counter. -/
def Obligations.SystemRegisters : Prop :=
  ∀ (s : State) (d a : Reg) (r : BitVec 13),
    let g := s.g
    let c := s.core g.core
    let v := g.sr a
    let v6 := v &&& ~~~(0x3F : Word)
    let table : List (Nat × Word) :=
      [(0x000, g.hb), (0x001, g.hl), (0x002, g.ho), (0x003, g.hlc), (0x008, g.poolw.setWidth 64), (0x010, c.tagSet),
       (0x011, BitVec.ofNat 64 (g.p.ld + g.p.st * 2 ^ 8 + g.p.cp * 2 ^ 16 + g.p.tl * 2 ^ 24)), (0x018, g.fpf.setWidth 64),
       (0x020, c.cyc), (0x028, g.tvec), (0x02A, g.tst.setWidth 64), (0x02B, 0)] ++
      [(0x030, g.frc), (0x031, g.fra), (0x032, g.frpc), (0x033, g.frm), (0x034, g.frmh), (0x038, BitVec.ofNat 64 g.paths),
       (0x040, g.trctl.setWidth 64), (0x048, g.wsb), (0x049, g.wsl), (0x04A, g.wsp), (0x04B, BitVec.ofNat 64 g.wpos)]
    let readOnly : List Nat :=
      [0x000, 0x001, 0x002, 0x003, 0x008, 0x011, 0x020, 0x02A, 0x030, 0x031, 0x032, 0x033, 0x034, 0x038, 0x04A, 0x04B]
    let holds (g' : Machine.Group) (t : State) : Prop := Goes s none t ∧ t.g.arch = g'.arch ∧ LocalFrame s t ∧
      ∀ k, (t.core k).pool = (s.core k).pool
    let spillBase (i : Instr) : Prop :=
      (g.wsp = g.wsb → Completes i s (holds { g with wsb := v6, wsp := v6 })) ∧
      (g.wsp ≠ g.wsb → Completes i s (Faults s .privilege 0x048))
    let spillLimit (i : Instr) : Prop :=
      (g.wsp.toNat ≤ v6.toNat → Completes i s (holds { g with wsl := v6 })) ∧
      (v6.toNat < g.wsp.toNat → Completes i s (Faults s .privilege 0x049))
    let tags (i : Instr) : Prop := Completes i s (fun t => Goes s none t ∧ t.g.arch = g.arch ∧
      (t.core g.core).tagSet = (c.tagSet &&& c.tagBusy) ||| (v &&& ~~~c.tagBusy) ∧ (t.core g.core).tagBusy = c.tagBusy ∧
      (∀ k, k ≠ g.core → (t.core k).tagSet = (s.core k).tagSet) ∧ EngineFrame s t)
    (∀ x ∈ table, Completes (.sysRd d (BitVec.ofNat 13 x.1)) s (WritesScalar s d x.2 0)) ∧
    ((∀ x ∈ table, x.1 ≠ r.toNat) → Completes (.sysRd d r) s (Faults s .illegalInstruction (r.setWidth 64)) ∧
      Completes (.sysWr a r) s (Faults s .illegalInstruction (r.setWidth 64))) ∧
    (∀ n ∈ readOnly, Completes (.sysWr a (BitVec.ofNat 13 n)) s (Faults s .privilege (BitVec.ofNat 64 n))) ∧
    Completes (.sysWr a 0x018) s (fun t => (∀ q, t.g.sr q = g.sr q) ∧ (∀ q, t.g.vr q = g.vr q) ∧ t.g.fpf = v.setWidth 5 ∧
      GoesOn s t ∧ t.g.arch = g.arch ∧ LocalFrame s t) ∧
    Completes (.sysWr a 0x028) s (holds { g with tvec := v }) ∧
    Completes (.sysWr a 0x040) s (holds { g with trctl := v.setWidth 2 }) ∧
    spillBase (.sysWr a 0x048) ∧ spillBase (.sysWrWsb a) ∧ spillLimit (.sysWr a 0x049) ∧ spillLimit (.sysWrWsl a) ∧
    tags (.sysWr a 0x010) ∧ tags (.sysWrTags a) ∧
    Completes (.rdcyc d) s (WritesScalar s d c.cyc 0)

/-- 17 R320 to R324 with 21 R388: taking a trap saves FRC, FRA, FRPC, FRM, FRMH and TST, slides the window by 48 and goes to TVEC
after a run boundary; with no vector, or inside a handler, the task gets an UNHANDLED report instead; trap and brk take TRAP (3)
and BREAKPOINT (2) with their code as FRA, brk in a debug session stops its group; TRET restores mask, PC and CWI and clears ACT, and
faults PRIVILEGE with the word's address outside a handler (17 R437). -/
def Obligations.TrapsAndReturn : Prop :=
  ∀ (s u : State) (a : Reg) (c : BitVec 13) (code : Code) (fra : Word) (tm : Team) (k : Task),
    let handles : Prop := s.g.tvec ≠ 0 ∧ bitAt s.g.tst.toNat 8 = false
    let tst := BitVec.ofNat 9 (256 + (s.g.p.cwi + 1) * 16 + 8 * b2n s.g.curF)
    let m := s.g.p.mask.toNat
    let saving (v : State) (num : Nat) (fra : Word) : State := { v with g := { v.g with
      frc := BitVec.ofNat 64 num, fra := fra, frpc := s.g.p.pc.setWidth 64, frm := BitVec.ofNat 64 (m % 2 ^ 64)
      frmh := BitVec.ofNat 64 (m / 2 ^ 64), tst := tst } }
    let took (num : Nat) (fra : Word) (t : State) : Prop :=
      t.g.frc = BitVec.ofNat 64 num ∧ t.g.fra = fra ∧ t.g.frpc = s.g.p.pc.setWidth 64 ∧ t.g.frm = BitVec.ofNat 64 (m % 2 ^ 64) ∧
      t.g.frmh = BitVec.ofNat 64 (m / 2 ^ 64) ∧ t.g.tst = tst ∧
      t.g.wpos = s.g.wpos + 48 ∧ WentTo (s.g.tvec.setWidth 57) s t ∧ t.g.p.mask = s.g.p.mask ∧ t.g.rc = 0 ∧ t.g.runOver = true ∧
      t.g.stat = s.g.stat ∧ t.g.fpf = s.g.fpf ∧ t.mem = s.mem ∧ t.tasks = s.tasks ∧
      (∀ r : Reg, 48 ≤ r.toNat → t.g.sr r = s.g.sr r) ∧ (∀ j b, memByte (t.core j).pool b = memByte (u.core j).pool b)
    let unhandled (code : Code) (fra : Word) (t : State) : Prop :=
      t.g.stat = .halted ∧ SameRegisters s t ∧ (s.team s.g.team = some tm → s.task tm.task = some k →
        ∃ r, t.task tm.task = some (k.addReport r) ∧ r.code = code ∧ r.fra = fra ∧ r.unhandled = true ∧ r.prec = true ∧
          r.pc = s.g.p.pc.toNat ∧ r.cwi = s.g.p.cwi + 1 ∧ r.pathF = s.g.curF ∧ r.mask = s.g.p.mask)
    let debugged : Prop := bitAt (s.core s.g.core).trace.ctl.toNat 1 = true ∧ (s.core s.g.core).trace.holder = some (.enc s.g.enc)
    let w := s.spendWord leafUseful 1
    (handles → (saving s code.num fra).slideUp 48 = (u, none) → took code.num fra (s.takeTrap code fra)) ∧
    (¬handles → unhandled code fra (s.takeTrap code fra)) ∧
    (handles → (saving w 3 (c.setWidth 64)).slideUp 48 = (u, none) → Completes (.trap c) s (took 3 (c.setWidth 64))) ∧
    (¬handles → Completes (.trap c) s (unhandled .trap (c.setWidth 64))) ∧
    (handles → ¬debugged → (saving w 2 (c.setWidth 64)).slideUp 48 = (u, none) → Completes (.brk c) s (took 2 (c.setWidth 64))) ∧
    (¬handles → ¬debugged → Completes (.brk c) s (unhandled .breakpoint (c.setWidth 64))) ∧
    (debugged → Completes (.brk c) s (fun t => t.g.stat = .halted ∧ t.g.stopped = some 0xFF ∧ SameRegisters s t ∧ t.tasks = s.tasks ∧
      t.mem = s.mem ∧ t.g.frc = s.g.frc ∧ t.g.p.pc = s.g.p.pc)) ∧
    (bitAt s.g.tst.toNat 8 = true → 48 ≤ s.g.wpos → s.slideTo (s.g.wpos - 48) = (u, none) →
      Completes (.tret a) s (fun t =>
        let p := t.g.path (bitAt s.g.tst.toNat 3)
        t.g.wpos = s.g.wpos - 48 ∧ t.g.tst = s.g.tst &&& 0xFF ∧ p.pc = s.g.frpc.setWidth 57 ∧
        p.mask = BitVec.ofNat 96 (s.g.frm.toNat + s.g.frmh.toNat % 2 ^ 32 * 2 ^ 64) ∧
        p.cwi = s.g.tst.toNat / 16 % 16 - 1 + (if bitAt (s.g.sr a).toNat 0 then 1 else 0) ∧ t.g.rc = 0 ∧ t.g.runOver = true ∧
        t.g.fpf = s.g.fpf ∧ t.mem = s.mem ∧ (∀ r : Reg, 48 ≤ r.toNat → t.g.sr r = s.g.sr r ∨ 60 ≤ r.toNat) ∧
        t.g.sring = u.g.sring ∧ t.g.vring = u.g.vring)) ∧
    (bitAt s.g.tst.toNat 8 = false → Completes (.tret a) s (Faults s .privilege s.wordAddr)) ∧
    (bitAt s.g.tst.toNat 8 = true → s.g.wpos < 48 → Completes (.tret a) s (Faults s .stackOverflow s.g.wsp)) ∧
    exec (.sysWr a 0x02B) s = exec (.tret a) s

/-- 21 R375 to R392: trace.mark queues its packet where the unit admits it, behind a LOST packet that is owed, and changes nothing else; ctr.cfg with a valid selector
acquires a free unit and configures it, with the release selector gives both units back, with selector 0x40 arms a replay block;
an invalid one faults ILLEGAL_INSTRUCTION with the operand, a bad replay block, for which no rule names an address, with the word's address
(17 R437); ctr.rd reads a configured counter of the holder and UNAVAILABLE for others; rp.mark
of a group that is not recorded does nothing, of a recorded one it makes a checkpoint. -/
def Obligations.LamplightWords : Prop :=
  ∀ (s u : State) (d a b : Reg) (m : BitVec 13) (bs : List Byte),
    let g := s.g
    let c := s.core g.core
    let me := some (Holder.enc g.enc)
    let sel := (g.sr a).toNat
    let v := g.sr b
    let n := v.toNat
    let core (t : State) : Core := t.core g.core
    let admitted : Prop := bitAt g.trctl.toNat 0 = true ∧ bitAt c.trace.ctl.toNat 0 = true ∧ c.trace.holder = me ∧ c.trace.queue.length < 64
    let owed : Prop := c.trace.dropped ≠ 0 ∨ c.trace.hostLost = true
    let word (i : Instr) : Prop :=
      (sel < 16 → n < 2 ^ 32 → n / 2 ^ 16 % 4 = 0 → n / 2 ^ 21 % 64 = 0 → c.bank.holder = me ∨ c.bank.holder = none →
        Completes i s (fun t => Goes s none t ∧ (core t).bank.holder = me ∧
          smGet 0 (core t).bank.cfg sel = v &&& ~~~(BitVec.ofNat 64 (2 ^ 20)) ∧
          (bitAt n 20 = true → smGet 0 (core t).bank.count sel = 0 ∧ smGet false (core t).bank.ovf sel = false) ∧ t.mem = s.mem)) ∧
      (sel = 0x30 → n % 4096 = 0 → c.trace.holder = me ∨ c.trace.holder = none →
        Completes i s (fun t => Goes s none t ∧ (core t).trace.holder = me ∧ (core t).trace.base = v ∧ t.mem = s.mem)) ∧
      (sel = 0x3C → n = 0 → c.bank.suspended = none → c.trace.suspended = none → (∀ x ∈ s.allGroups, x.stopped = none) →
        Completes i s (fun t => Goes s none t ∧ (c.bank.holder = me → (core t).bank.holder = none) ∧
          (c.trace.holder = me → (core t).trace.holder = none) ∧ t.mem = s.mem)) ∧
      (sel = 0x33 → n < 2 ^ 48 → c.trace.holder = me → ∀ x, s.group x.gid = some x → x.gid ≠ g.gid → x.ident = n → x.core = g.core →
        x.enc = g.enc → x.stopped = some 0xFF → x.stat = .halted → (s.encl g.enc).halted = false →
        (∀ k, s.taskOf x = some k → k.ended = false) → (∀ y ∈ s.allGroups, y.stopped ≠ none → y = x) →
        Completes i s (fun t => Goes s none t ∧ ∃ y, t.group x.gid = some y ∧ y.stopped = none ∧ y.stat = .ready ∧ y.rc = x.rc)) ∧
      (sel = 0x40 → n % 64 = 0 → ReadsFar s n 32 64 bs u → (let ds := bytesDwords 4 bs
          u.replayBlockOk g.enc (((s.taskOf g).map Task.queue).getD 0) n ds = true → (ds.getD 0 0).toNat % 4 ≠ 0 →
          (s.encl g.enc).replay.block = none → Completes i s (fun t => Goes s none t ∧ (t.encl g.enc).replay.block = some n ∧
            (t.encl g.enc).replay.armed = true ∧ (t.encl g.enc).replay.mode = (ds.getD 0 0).toNat % 4 ∧ t.mem = u.mem))) ∧
      (sel ≠ 0x40 → cfgValid sel n = false → Completes i s (Faults s .illegalInstruction v)) ∧
      (sel = 0x40 → n % 64 ≠ 0 → Completes i s (Faults s .illegalInstruction s.wordAddr)) ∧
      (sel = 0x40 → n % 64 = 0 → ReadsFar s n 32 64 bs u →
        u.replayBlockOk g.enc (((s.taskOf g).map Task.queue).getD 0) n (bytesDwords 4 bs) = false →
          Completes i s (Faults u .illegalInstruction u.wordAddr))
    Completes (.traceMark a m) s (fun t => NoEffect s t ∧ GoesOn s t ∧ (admitted → ∃ p rest, (core t).trace.queue = c.trace.queue ++ p :: rest ∧
      (¬owed → (p.getD 0 0).toNat / 2 ^ 59 = 6 ∧ (p.getD 3 0).toNat / 2 ^ 32 = m.toNat * 2 ^ 19 + sel % 2 ^ 19) ∧
      (owed → (p.getD 0 0).toNat / 2 ^ 59 = 9))) ∧
    word (.ctrCfg a b) ∧ word (.debugResume a b) ∧ word (.release a b) ∧ word (.replayArm a b) ∧
    (sel < 16 → c.bank.holder = me → c.bank.suspended = none → smGet 0 c.bank.count sel < 2 ^ 48 →
      GivesScalar (.ctrRd d a) s d (fun x => x.toNat % 2 ^ 48 = smGet 0 c.bank.count sel ∧ x.getLsbD 62 = false ∧
        x.getLsbD 61 = smGet false c.bank.ovf sel)) ∧
    (sel < 16 → c.bank.holder ≠ me → c.bank.suspended ≠ some g.enc →
      Completes (.ctrRd d a) s (WritesScalar s d (BitVec.ofNat 64 (2 ^ 63)) 0)) ∧
    (s.replayMode g = 0 → Completes (.rpMark m) s (fun t => NoEffect s t ∧ GoesOn s t)) ∧
    (s.replayMode g = 1 → Completes (.rpMark m) s (fun t => Goes s none t ∧ t.g.ckpt = g.ckpt + 1))

/-! ### The hub-die harts (spec 20; 18) -/

/-- 20 R363 to R369 with 18 R337: the Xlmenc words outside the mode that may run them raise an illegal or virtual instruction
exception; enc.enter starts a hart without a sealed context at its entry, enc.exit gives its value to rd of the enc.enter; the last
step of enc.make makes the enclave live and delivers its id, the two of enc.kill end it; the interrupt of an enclave thread seals it and is taken outside in its mode; one that finds a hart at an
enc.make or enc.kill in progress stops that with RESTART, at once or when the invalidations posted so far are acknowledged (10 R224), and any other changes nothing. The
numbers of causes and CSRs, and what tval and epc hold, are the base architecture's (log 9, PRESUMED); the interface that an enclave
names is the one written last (log 23); its keys are fresh values (log 7). -/
def Obligations.EnclaveWords : Prop :=
  ∀ (s u : State) (r r2 d : BitVec 5) (e : Nat) (x : Enclave) (m : Making) (rd mode : Word) (ds : List Word) (cause va pa : Nat) (toM : Bool),
    let n := s.hartAt
    let h := s.me
    let host : Prop := h.inside = none ∧ (h.mode = .m ∨ h.mode = .hs)
    let v := (h.getX r).toNat
    let hostWords : List Instr := [.encMake r d, .encEnter r2 r d, .encKill r d, .pgOut r d, .pgIn r d, .potXfer r d]
    let guestWords : List Instr := [.encExit r, .encOut r2 r d, .encIn r2 r d, .encRep r2 r d]
    (∀ i ∈ hostWords,
      (h.inside = some e → Completes i s (fun t => t.hart n = h.enclaveTrap 2 0)) ∧
      (h.inside = none → h.mode = .vs ∨ h.mode = .vu → Completes i s (fun t => t.hart n = h.hostTrap 22 0)) ∧
      (h.inside = none → h.mode = .u → Completes i s (fun t => t.hart n = h.hostTrap 2 0))) ∧
    (∀ i ∈ guestWords, h.inside = none → Completes i s (fun t => t.hart n = h.hostTrap 2 0)) ∧
    (∀ k t : Hart, ∀ c : Word, t = k.hostTrap c va → t.cause = c ∧ t.epc = k.pc ∧ t.tval = BitVec.ofNat 64 va ∧
      t.mode = (if k.mode = .m then .m else .hs) ∧ t.x = k.x) ∧
    (∀ k t : Hart, t = k.enclaveTrap cause va → smGet 0 t.csr 4 = k.pc ∧ smGet 0 t.csr 5 = BitVec.ofNat 64 cause ∧
      smGet 0 t.csr 6 = BitVec.ofNat 64 va ∧ t.pc = smGet 0 k.csr 2 &&& ~~~(3 : Word) ∧ t.mode = .hs ∧ t.x = k.x) ∧
    (host →
      ((s.encl v).live = false → Completes (.encEnter r2 r d) s (HartDone s d 4)) ∧
      ((s.encl v).live = true → bitAt (s.encl v).harts.toNat n = false → Completes (.encEnter r2 r d) s (HartDone s d 13)) ∧
      ((s.encl v).live = true → bitAt (s.encl v).harts.toNat n = true → s.pvtFind v kindCtx (hartObj n) = none →
        Completes (.encEnter r2 r d) s (fun t => (t.hart n).inside = some v ∧ (t.hart n).pc = h.getX r2 ∧ (t.hart n).mode = .hs ∧
          (∀ k : BitVec 5, (t.hart n).getX k = if k = 10 then BitVec.ofNat 64 n else 0) ∧
          (t.hart n).hs = some (BitVec.ofNat 64 d.toNat :: b2w (h.mode = .hs) :: ({ h with pc := h.pc + 4 } : Hart).body))) ∧
      (s.makingOf n false = none → v % 512 ≠ 0 → Completes (.encMake r d) s (HartDone s d 1)) ∧
      (s.makingOf n false = none → v % 512 = 0 → s.hypBytes v 512 = true → s.descOk v = true → s.descFrames v = true →
        s.freeEnc = some e → Completes (.encMake r d) s (fun t => t.creation = s.creation + 1 ∧ (t.encl e).id = e ∧
          (t.encl e).live = false ∧ (t.encl e).create = s.creation + 1 ∧ (t.encl e).part = s.descDw v 0 / 2 ^ 8 % 2 ^ 8 ∧
          (t.encl e).ecs = s.descDw v 2 ∧ (t.encl e).meas = s.measStart v ∧ (t.encl e).making.isSome = true ∧
          (t.encl e).vi = s.viNamed ∧ smFind t.keys e = some ⟨Config.freshXts s.fresh, Config.freshInteg s.fresh⟩ ∧ (t.hart n).pc = h.pc)) ∧
      (s.makingOf n false = some x → x.making = some m → x.descAt = v → m.ninit ≤ m.pages → s.makeRest x = true →
        Completes (.encMake r d) s (fun t => HartAwaits s d (x.id * 2 ^ 8) t ∧ (t.encl x.id).live = true ∧
          (t.encl x.id).making = none ∧ (t.encl x.id).slots = (t.encl x.id).nstream)) ∧
      (s.makingOf n true = none → (s.encl v).live = false → Completes (.encKill r d) s (HartDone s d 4)) ∧
      (s.makingOf n true = none → (s.encl v).live = true → smWf {} s.harts = true →
        Completes (.encKill r d) s (fun t => (t.encl v).live = false ∧ (t.encl v).halted = true ∧ (t.encl v).kicks = [] ∧
          (t.hart n).pc = h.pc ∧ ∀ k, (t.hart k).inside ≠ some v)) ∧
      (s.makingOf n true = some x → x.id = v → Completes (.encKill r d) s (fun t => smFind t.encs v = none ∧ smFind t.keys v = none ∧
        (t.hart n).await = some (d.toNat, 0) ∧ ∀ f, (t.potOf f).owner = v → v = 0))) ∧
    (h.inside = some e → h.hs = some (rd :: mode :: ds) → rd.toNat < 32 →
      Completes (.encExit r) s (fun t => (t.hart n).inside = none ∧ (t.hart n).hs = none ∧ (t.hart n).pc = ds.getD 0 0 ∧
        (t.hart n).mode = (if mode = 0 then .m else .hs) ∧
        (rd ≠ 0 → smGet 0 (t.hart n).x rd.toNat = BitVec.ofNat 64 (v % 2 ^ 56 * 2 ^ 8)))) ∧
    (h.inside = some e → va = v → pa = (h.getX r2).toNat →
      (s.pagePair e va pa .load = none → Completes (.encOut r2 r d) s (HartDone s d 1)) ∧
      (∀ f, s.pagePair e va pa .load = some f → s.walkPoisoned e (va % 2 ^ 57) = false → isKick f = true ∨ s.poisoned f 4096 = false →
        Completes (.encOut r2 r d) s (fun t => HartDone s d 0 t ∧
        (let w := s.hartLoads (s.encl e).part f 4096
         t.mem = (w.hartStore 0xFF pa (w.hartRead (s.encl e).part f 4096)).mem))) ∧
      (s.pagePair e va pa .store = none → Completes (.encIn r2 r d) s (HartDone s d 1)) ∧
      (∀ f, s.pagePair e va pa .store = some f → Completes (.encIn r2 r d) s (fun t => HartDone s d 0 t ∧
        (let w := s.hartLoads 0xFF pa 4096
         t.mem = (w.hartStore (s.encl e).part f (w.coherent 0xFF pa 4096)).mem))) ∧
      (va % 4096 ≠ 0 ∨ pa % 4096 ≠ 0 → Completes (.encRep r2 r d) s (HartDone s d 1)) ∧
      (∀ p q, va % 4096 = 0 → pa % 4096 = 0 → s.hartXlat e h va .load = .ok p → s.hartXlat e h pa .store = .ok q →
        s.walkPoisoned e (va % 2 ^ 57) = false → isKick p = true ∨ s.poisoned p 64 = false → Completes (.encRep r2 r d) s (fun t => HartDone s d 0 t ∧
          (let w := s.hartLoads (s.encl e).part p 64
           t.mem = (w.hartStore (s.encl e).part q (w.reportBytes e (w.hartRead (s.encl e).part p 64))).mem)))) ∧
    (∀ k, (s.hart k).inside = some e → (s.hart k).hs = some (rd :: mode :: ds) → rd.toNat < 32 →
      s.sealToSave e kindCtx (hartObj k) (dwordBytes (s.hart k).body) = some u →
        Completes (.enclaveThreadInterrupt k cause toM) s (fun t => (t.hart k).inside = none ∧ (t.hart k).epc = ds.getD 0 0 ∧
          (t.hart k).mode = (if toM then .m else .hs) ∧
          (t.hart k).cause = BitVec.ofNat 64 (2 ^ 63 + cause) ∧ (rd ≠ 0 → smGet 0 (t.hart k).x rd.toNat = 11))) ∧
    (∀ k, (s.hart k).inside = none → Completes (.enclaveThreadInterrupt k cause toM) s (fun t => t = s)) ∧
    (∀ k, let y := s.hart k
      let restarts : Prop := Completes (.pendingInterrupt k) s (fun t =>
        (s.invalIdle = true → (t.hart k).pc = y.pc + 4 ∧ ∀ q : BitVec 5, (t.hart k).getX q = if q = d ∧ d ≠ 0 then 10 else y.getX q) ∧
        (s.invalIdle = false → t.hart k = { y with await := some (d.toNat, 10) }))
      let next := decode .xlm (BitVec.ofNat 32 (leNat (s.coherent 0xFF y.pc.toNat 4)))
      (y.await = none → y.inside = none → next = some (.encMake r d) → s.makingOf k false = some x → x.descAt = (y.getX r).toNat → restarts) ∧
      (y.await = none → y.inside = none → next = some (.encKill r d) → s.makingOf k true = some x → x.id = (y.getX r).toNat → restarts) ∧
      (y.await.isSome = true ∨ y.inside.isSome = true ∨ (∀ r' d', next ≠ some (.encMake r' d') ∧ next ≠ some (.encKill r' d')) →
        Completes (.pendingInterrupt k) s (fun t => t = s)))

/-- 20 R371 to R373 with 18 R345, R346: pg.out seals a page of a live enclave and leaves its frame sealed-out; pg.in gives a frame
of the hypervisor to the enclave with the class it names, and frees the sealed-out frame that the page stood in; pot.xfer moves frames between unowned and the hypervisor; a block that
breaks its layout answers status 1. That pg.in takes a page of a 2 MiB or 1 GiB leaf is the model's reading (log 51). -/
def Obligations.PagingWords : Prop :=
  ∀ (s u : State) (r d : BitVec 5) (e va buf frame cls f first kind : Nat) (l : Leaf) (body : List Byte),
    let h := s.me
    let a := (h.getX r).toNat
    let x := s.encl e
    let page := va / 4096 * 4096
    let host : Prop := h.inside = none ∧ (h.mode = .m ∨ h.mode = .hs)
    let w := s.hartLoads 0xFF a 64
    let w' := w.hartLoads 0xFF buf 4176
    host →
    (s.block a = none → Completes (.pgOut r d) s (HartDone s d 1) ∧ Completes (.pgIn r d) s (HartDone s d 1) ∧
      Completes (.potXfer r d) s (HartDone s d 1)) ∧
    (s.block a = some [e, va, buf, 0, 0, 0, 0, 0] → e < 2 ^ 14 → buf % 64 = 0 → s.hypBytes buf 4176 = true →
      (x.live = false → Completes (.pgOut r d) s (HartDone s d 4)) ∧
      (x.live = true → w.pageLeaf e page = none → Completes (.pgOut r d) s (HartDone s d 14)) ∧
      (x.live = true → w.pageLeaf e page = some l → f = l.pa page / 4096 → (s.potOf f).owner = e → inMemory (f * 4096) = true →
        s.migrating f = false →
        ((s.potOf f).stat = 1 → (s.potOf f).leases = 0 → w.guaranteed (s.viOf e) = false →
          ((w.pvtFind e kindPage (page / 4096)).isSome = true ∨ (w.pvtFree e).isSome = true →
            Completes (.pgOut r d) s (fun t => HartAwaits s d (x.mctr.toNat * 2 ^ 8) t ∧
              t.potOf f = { s.potOf f with stat := 4, leases := 0 } ∧ (t.encl e).mctr = x.mctr + 1 ∧
              ∀ b, memByte t.mem (f * 4096 + b % 4096) = 0)) ∧
          (w.pvtFind e kindPage (page / 4096) = none → w.pvtFree e = none → Completes (.pgOut r d) s (HartDone s d 8))) ∧
        ((s.potOf f).stat = 2 → (s.potOf f).leases ≠ 0 → Completes (.pgOut r d) s (HartDone s d 3)))) ∧
    (s.block a = some [e, va, buf, cls * 2 ^ 32 + frame, 0, 0, 0, 0] → e < 2 ^ 14 → buf % 64 = 0 → s.hypBytes buf 4176 = true →
      frame < 2 ^ 30 → cls < 2 ^ 6 →
      (x.live = true → w'.pageLeaf e page = some l → (s.potOf frame).owner = 0 → (s.potOf frame).stat = 1 → s.inMem x.part frame = true →
        w'.res x.vi + 1 ≤ (s.acct x.vi).burst → w'.openImage e kindPage (page / 4096) 4096 (w'.coherent 0xFF buf 4176) = .ok (body, u) →
          Completes (.pgIn r d) s (fun t => HartAwaits s d 0 t ∧ (t.potOf frame).owner = e ∧
            ((t.potOf frame).stat = 1 ∨ x.pinsPage page = true) ∧
            (t.potOf frame).cls = cls ∧
            (f = l.pa page / 4096 → (s.potOf f).owner = e → (s.potOf f).stat = 4 → t.potOf f = {} ∧
              ∀ y ∈ (t.encl e).resident, y.2 ≠ f))) ∧
      (x.live = true → w'.pageLeaf e page = some l → (s.potOf frame).owner ≠ 0 ∨ (s.potOf frame).stat ≠ 1 →
        Completes (.pgIn r d) s (HartDone s d 2))) ∧
    (s.block a = some [first, 1, kind, 0, 0, 0, 0, 0] → first < 2 ^ 30 → inMemory (first * 4096) = true → first ∉ s.withheld →
      s.migrating first = false →
      (kind = 0 → (s.potOf first).stat = 0 → Completes (.potXfer r d) s (fun t => HartAwaits s d (2 ^ 8) t ∧
        t.potOf first = { stat := 1 } ∧ (∀ g, g ≠ first → t.potOf g = s.potOf g) ∧
        ∀ b, memByte t.mem b = if b / 4096 = first then 0 else memByte w.mem b)) ∧
      (kind = 1 → s.hypFrame first = true → Completes (.potXfer r d) s (fun t => HartAwaits s d (2 ^ 8) t ∧
        t.potOf first = {} ∧ (∀ g, g ≠ first → t.potOf g = s.potOf g))) ∧
      (kind = 1 → s.hypFrame first = false → Completes (.potXfer r d) s (HartDone s d 2)))

/-! ### Chandler (05 R131, R132; 10 R220 to R222; 11 R253 to R259; 18 R341) -/

/-- 18 R341, 05 R132, R126, 11 R253, R255, R256, 10 R220 to R223: a kick store joins its queue's FIFO or is held at a full one; an
admission opportunity moves a record of the queue it chose into its window, behind the earlier tasks it conflicts with, or reports a
record that fails; Depend and Arbitrate end when no task stands before it; a lease walk holds the leases of all pages at once, waits
for a page that is invalid, fails at the ninth such walk, and reports a page that fails its check, and one that reads a poisoned line
resets the partition (17 R330), as a kicked record's reading does; the edge engine acts line by
line, its cursor in the enclave's control structure, and then lets the task be placed. -/
def Obligations.ChandlerStages : Prop :=
  ∀ (s : State) (h e off size k q team die prio : Nat) (v at_ : Word) (rest r : List Word) (x : Task) (p : PlqEnt)
    (tail : List (Nat × PlqEnt)) (c : Code),
    let y := s.encl e
    let fifo := smGet [] y.kicks (off / 8)
    let ps := s.walkPages x
    let is (m : Nat) (f : Task → Prop) (t : State) : Prop := ∃ z, t.task m = some z ∧ f z
    let now := s.dieClock (s.admitDie (s.encl x.enc).part)
    let rank (z : Task) : Nat := (s.encl z.enc).prioOf z.queue
    let first (z : Task) (cyc : Nat) : Prop := cyc < x.arbCyc ∨ cyc = x.arbCyc ∧ (rank x < rank z ∨ rank x = rank z ∧ z.queue < x.queue)
    let os := s.overlaps x
    let at1 := x.edgeAt.getD (edgeFrom x os 0)
    let bad := ∃ a ∈ ps, s.walkPoisoned x.enc a.1 = true
    let walked (t : State) : Prop :=
      (bad → t = s.partitionReset (s.encl x.enc).part) ∧
      (¬bad → (∀ a ∈ ps, ∃ l f, s.walkPage x.enc a = .ok l f ∧
          ((s.potOf (s.leaseFrame f)).stat = 3 ∨ (s.potOf (s.leaseFrame f)).leases < 255)) →
        is k (fun z => z.stage = .edge ∧ z.lease = .held ∧
          ∀ j, j ∈ z.frames ↔ ∃ a ∈ ps, ∃ l f, s.walkPage x.enc a = .ok l f ∧ j = s.leaseFrame f ∧ (s.potOf j).stat ≠ 3) t) ∧
      (¬bad → (∃ a ∈ ps, s.walkPage x.enc a = .invalid) → (∀ a ∈ ps, ∀ b, s.walkPage x.enc a ≠ .bad b) →
        (x.attempts < 8 → is k (fun z => z.stage = .lease ∧ z.lease = .pending ∧ z.attempts = x.attempts + 1 ∧
          z.pendFrom = now) t) ∧
        (8 ≤ x.attempts → is k (fun z => z.lease = .failed ∧ ∃ f, z.fault = some f ∧ f.code = .leaseUnresolved) t)) ∧
      (¬bad → (∃ a ∈ ps, s.walkPage x.enc a = .sealedOut) → (∀ a ∈ ps, s.walkPage x.enc a ≠ .invalid) →
        (∀ a ∈ ps, ∀ b, s.walkPage x.enc a ≠ .bad b) → is k (fun z => z.stage = .lease ∧ z.lease = .reside) t) ∧
      (¬bad → (∃ a ∈ ps, ∃ b, s.walkPage x.enc a = .bad b) → ∃ a ∈ ps, ∃ b, s.walkPage x.enc a = .bad b ∧
        is k (fun z => z.fault = some (bareReport b (BitVec.ofNat 64 a.1) x.grid x.queue false)) t)
    -- kick pages
    (y.live = true → size = 8 → off % 8 = 0 → off / 8 < y.queues.length → (s.hart h).inside = some e → s.kickWaits h = false →
      (fifo.length < 64 → (∀ w ∈ y.kickHeld, w.2.1 ≠ off / 8) → Completes (.kickStore h e off size v) s (fun t =>
        t = { s with encs := t.encs } ∧ t.encl e = { y with kicks := smSet [] y.kicks (off / 8) (fifo ++ [v]) })) ∧
      (64 ≤ fifo.length → Completes (.kickStore h e off size v) s (fun t =>
        t = { s with encs := t.encs } ∧ t.encl e = { y with kickHeld := y.kickHeld ++ [(h, off / 8, v)] }))) ∧
    (size ≠ 8 ∨ off % 8 ≠ 0 ∨ y.queues.length ≤ off / 8 ∨ s.kickWaits h = true → Completes (.kickStore h e off size v) s (fun t => t = s)) ∧
    (y.kickHeld.find? (fun w => w.2.1 = q) = some (h, q, v) → (smGet [] y.kicks q).length < 64 →
      Completes (.kickStoreAccept e q) s (fun t => t = { s with encs := t.encs } ∧
        t.encl e = { y with kickHeld := y.kickHeld.erase (h, q, v), kicks := smSet [] y.kicks q (smGet [] y.kicks q ++ [v]) })) ∧
    -- admission
    (s.admitNext die = none → Completes (.admissionOpportunity die) s (fun t => t = s)) ∧
    (s.admitNext die = some (prio, e, q) → s.held4 e q = (team, p) :: tail → s.task p.task = some x →
      let w := (s.modDie die fun d => { d with served := smPut d.served prio (e, q) }).modTeam team fun t =>
        { t with plq := t.plq.filter fun n => n.ix ≠ p.ix }
      Completes (.admissionOpportunity die) s (is x.id fun z => z.stage = .depend ∧ z.admitted = s.seq ∧ z.rcd = x.rcd ∧
        z.grid = x.grid ∧ z.parent = x.parent ∧
        ∀ j, j ∈ z.producers ↔ ∃ b ∈ w.window x.enc x.queue, b.id = j ∧ j ≠ x.id ∧ b.meets x = true ∧ w.kin b x = false)) ∧
    (s.admitNext die = some (prio, e, q) → s.held4 e q = [] → smGet [] y.kicks q = at_ :: rest →
      let u := ((s.modDie die fun d => { d with served := smPut d.served prio (e, q) }).modEnc e fun n =>
        { n with kicks := smSet [] n.kicks q rest }).countKicked e q at_.toNat
      (u.kickedPoisoned e q at_.toNat = true →
        Completes (.admissionOpportunity die) s (fun t => t = u.partitionReset (u.encl e).part)) ∧
      (u.kickedPoisoned e q at_.toNat = false → u.readKicked e q at_.toNat = .ok r → u.recordCheck e q r = none → u.task u.newId = none ∧
        Completes (.admissionOpportunity die) s (fun t => (t.encl e).kicks = smSet [] y.kicks q rest ∧
          is u.newId (fun z => z.stage = .depend ∧ z.rcd = r ∧ z.recAt = at_.toNat ∧ z.enc = e ∧ z.queue = q ∧ z.depth = 0 ∧
            z.parent = none ∧ z.admitted = s.seq) t)) ∧
      (u.kickedPoisoned e q at_.toNat = false →
          u.readKicked e q at_.toNat = .error c ∨ (u.readKicked e q at_.toNat = .ok r ∧ u.recordCheck e q r = some c) →
        Completes (.admissionOpportunity die) s (fun t => t = u.faultWrite e (bareReport c at_ 0 q false) 0))) ∧
    -- the stages before placement
    (s.task k = some x → x.id = k → x.over = false →
      (x.stage = .depend → s.allDone x.producers = true → Completes (.dependRelease k) s (fun t =>
        t = { s with seq := s.seq + 1, tasks := t.tasks } ∧ (∀ j, j ≠ k → t.task j = s.task j) ∧
        is k (fun z => z.stage = .arbitrate ∧ z.arbitrated = s.seq + 1 ∧ z.arbCyc = now ∧ z.rcd = x.rcd ∧
          ∀ j, j ∈ z.producers ↔ j ∈ x.producers ∨ ∃ b ∈ s.rivals x, b.id = j ∧ b.runs = true) t)) ∧
      (x.stage = .depend → s.allDone x.producers = false → Completes (.dependRelease k) s (fun t => t = s)) ∧
      (x.stage = .arbitrate → (∀ b ∈ s.rivals x, b.runs = false ∧ (b.stage = .arbitrate → ¬first b b.arbCyc) ∧
          (b.stage = .depend → b.over = false → s.allDone b.producers = true → ¬first b now)) →
        Completes (.arbitrateRelease k) s (fun t => t = { s with tasks := t.tasks } ∧
          t.task k = some { x with stage := .lease, lease := .walk, attempts := 0 } ∧
          ∀ b ∈ s.rivals x, s.task b.id = some b → b.stage = .arbitrate → is b.id (fun z => z.stage = .arbitrate ∧ k ∈ z.producers) t)) ∧
      (x.stage = .arbitrate → (∃ b ∈ s.rivals x, b.runs = true) → Completes (.arbitrateRelease k) s (fun t => t = s)) ∧
      (x.stage = .lease → s.leaseWakes x = true → Completes (.leaseWalk k) s walked) ∧
      (x.stage = .lease → s.leaseWakes x = false → Completes (.leaseWalk k) s (fun t => t = s)) ∧
      (x.stage = .lease → x.lease = .pending →
        (x.pendFrom + 65536 ≤ now → Completes (.leasePendingTimeout k) s walked) ∧
        (now < x.pendFrom + 65536 → Completes (.leasePendingTimeout k) s (fun t => t = s))) ∧
      (x.stage = .edge → s.edgeTurn x = true → (s.encl x.enc).halted = false →
        (os[at1.pair]? = none → Completes (.edgeLineAction k) s (fun t =>
          t.mem = s.mem ∧ t.lines = s.lines ∧ is k (fun z => z.stage = .place) t)) ∧
        (∀ o, os[at1.pair]? = some o → Completes (.edgeLineAction k) s (fun t =>
          (let n := s.edgeNext x os o at1
           t.mem = (s.edgeLine x o at1 at1.va).mem ∧ t.lines = (s.edgeLine x o at1 at1.va).lines ∧
           t.task k = some { x with edgeAt := some n } ∧ smFind (t.encl x.enc).edges x.queue = some (edgeCursor x os n))))) ∧
      (x.stage = .edge → (s.encl x.enc).halted = true → Completes (.edgeLineAction k) s (fun t => t = s)))

/-! ### Placement, runs, and the ends of groups, teams and tasks (05 R121 to R138; 17 R325 to R327; 18 R347, R349) -/

/-- 05 R133, R135, R116, R138, R130, R137, 17 R325 to R327, 18 R347, R349, 07 R173: a placement attempt starts the next team of a
task with its groups as the record says; run arbitration binds the winner for one run and ages the others; a satisfied wait makes
its group ready, and so does a path slot that is ready while the other waits at the join; a group that has ended loses its windows; a drained team is published and its grid is done with its last team; a
task that ends stops its groups, writes its record once they have stopped, and is cleared once what they issued has completed;
halting an enclave halts its groups and resuming it makes them ready. -/
def Obligations.PlacementAndEnds : Prop :=
  ∀ (s u : State) (part core slot i k e : Nat) (x : Task) (m : Team) (w : Group) (f : Bool) (r : Report) (n : Monitor),
    let is (t : State) (j : Nat) (q : Group → Prop) : Prop := ∃ g, t.group j = some g ∧ q g
    let all := k :: s.descendants 10 k
    let takeNext := State.takeEvicting x (fun z => z.seatTeam x x.placed (z.places x)) 32 s
    let closed := s.closeAll all
    -- placement
    ((∀ y ∈ s.teams, y.2.stat ≠ .evicted) → s.returning part = [] →
      (s.placeList part = [] → Completes (.placementAttempt part) s (fun t => t = s)) ∧
      (s.placeList part = [k] → s.task k = some x → x.id = k → x.over = false → x.placed + 1 = x.teams →
        s.teams.find? (fun y => y.2.task = k && y.2.index = x.placed && y.2.stat = .waiting && y.2.gids.isEmpty) = none →
        (takeNext = (none, u) → Completes (.placementAttempt part) s (fun t => t = u)) ∧
        (takeNext = (some m, u) → u.task k = some x → Completes (.placementAttempt part) s (fun t =>
          (∃ y, t.team m.id = some y ∧ y.stat = .resident ∧ y.gids.length = x.groups ∧
            ∀ j < x.groups, is t (y.gids.getD j 0) (fun g => g.stat = .ready ∧ g.team = m.id ∧ g.enc = x.enc ∧
              g.t.stat = .live ∧ g.f.stat = .free ∧ g.t.pc = BitVec.ofNat 57 (recDw x.rcd 0) ∧
              g.t.mask = BitVec.ofNat 96 (2 ^ bitsAt (recDw x.rcd 8) 24 7 - 1) ∧
              (∀ a : Reg, 48 ≤ a.toNat → a.toNat < 56 → g.sr a = BitVec.ofNat 64 (recDw x.rcd (0x40 + 8 * (a.toNat - 48)))) ∧
              g.sr 56 = BitVec.ofNat 64 (x.grid * 2 ^ 24 + m.index * 2 ^ 8 + j))) ∧
          t.task k = some { x with
            placed := x.teams, stage := .running, ranOn := m.cores.foldl (fun b c => b ||| 2 ^ dieOfCore c) x.ranOn })))) ∧
    -- runs
    (s.focus = .none → s.g.gid = 0 →
      (((s.core core).slot slot).bound = none →
        (s.winner core slot = none → Completes (.runArbitration core slot) s (fun t => t = s)) ∧
        (s.winner core slot = some w → s.choosePath w = some f → Completes (.runArbitration core slot) s (fun t =>
          t.focus = .slot core slot ∧ t.g = { w with stat := .bound, yielded := false, w := 0, curF := f, afterSplit := false, streak := t.g.streak } ∧
          ((t.core core).slot slot).bound = some w.gid ∧ t.mem = s.mem ∧
          (GroupsNamed s → ∀ h ∈ s.homeGroups core slot, h.gid ≠ 0 → h.gid ≠ w.gid → is t h.gid (fun g => g.yielded = false ∧
            (h ∈ s.candidates core slot → g.w = h.w + 1)))))) ∧
      (((s.core core).slot slot).bound = some i → s.group i = some w → Completes (.runArbitration core slot) s (fun t =>
        t.focus = .slot core slot ∧ t.g = w ∧ t.cores = s.cores ∧ t.mem = s.mem))) ∧
    -- waits
    (s.group i = some w → w.gid = i →
      (w.stat ≠ .halted → s.waitMet w = true → Completes (.parkWake i) s (fun t =>
        t = { s with g := t.g, groups := t.groups } ∧ is t i (fun g =>
          (w.stat = .parked → g.stat = .ready) ∧
          (∀ v, w.t.park = some v → (g.t.park = none ↔ s.parkMet w w.t v = true)) ∧
          (∀ v, w.f.park = some v → (g.f.park = none ↔ s.parkMet w w.f v = true))))) ∧
      (s.waitMet w = false → w.stat = .parked → (s.choosePath w).isSome = true → Completes (.parkWake i) s (fun t =>
        t = { s with g := t.g, groups := t.groups } ∧ is t i (fun g => g = { w with stat := .ready }))) ∧
      (s.waitMet w = false → w.stat ≠ .parked ∨ s.choosePath w = none → Completes (.parkWake i) s (fun t => t = s)) ∧
      ((w.path f).mon = some n → Completes (.monitorSpurious i f) s (fun t => t = { s with g := t.g, groups := t.groups } ∧
        is t i (fun g => (n.cause = none → (g.path f).mon = some { n with cause := some .spurious }) ∧
          (n.cause = some .store → (g.path f).mon = some n)))) ∧
      (w.stat = .ending → w.runOver = false → w.drained = true → s.groupWindowBusy w = false →
        (∀ y ∈ (s.endGroup w).regrouping w.team, bitAt y.2 w.index = false) →
        Completes (.groupEnded i) s (fun t => is t i (fun g => g = { w with stat := .ended }) ∧
          (∀ j y, smFind (t.core w.core).wins j = some y → y.gid ≠ i) ∧ ∀ a, memByte t.mem a = memByte s.mem a)) ∧
      (w.stat = .ending → w.drained = false → Completes (.groupEnded i) s (fun t => t = s))) ∧
    -- teams
    (s.team k = some m → m.id = k → s.task m.task = some x → x.id = m.task → m.stat = .draining → x.over = false →
      (m.plq = [] → s.childrenDone k = true → x.stage = .running → x.parent ≠ some k →
        (x.published + 1 < x.teams → Completes (.teamPublish k) s (fun t => t.team k = none ∧
          ∃ z, t.task x.id = some z ∧ z.published = x.published + 1 ∧ z.stage = .running)) ∧
        (x.teams ≤ x.published + 1 → Completes (.teamPublish k) s (fun t => t.team k = none ∧
          ∀ z, t.task x.id = some z → z.stage = .done ∧ z.frames = []))) ∧
      (m.plq ≠ [] ∨ s.childrenDone k = false → Completes (.teamPublish k) s (fun t => t = s))) ∧
    -- tasks
    (s.task k = some x → x.id = k →
      (x.fault = none → Completes (.taskEnd k) s (fun t => t = s) ∧ Completes (.faultRecord k) s (fun t => t = s)) ∧
      (x.fault = some r → x.ended = false → x.stage ≠ .queued → Completes (.taskEnd k) s (fun t =>
        t.task k = some { x with ended := true } ∧
        (GroupsNamed s → ∀ j, s.team j = some m → m.task = k →
          ∀ a ∈ m.gids, ∀ g, s.group a = some g → g.stat = .ready ∨ g.stat = .parked → is t a (fun h => h.stat = .halted)))) ∧
      (x.fault = some r → x.ended = true → s.stoppedAll all = true →
        (x.reported = false → Completes (.faultRecord k) s (fun t => t.mem = (s.faultWrite x.enc r x.supp).mem ∧
          t.task k = some { x with reported := true })) ∧
        (x.reported = true → s.drainedAll all = true → (∀ y ∈ all.filterMap s.task, y.fault.isSome → y.reported = true) →
          (closed.groupsOf all).any closed.groupWindowBusy = false →
          Completes (.faultRecord k) s (fun t => t.task k = none)))) ∧
    -- slices
    ((s.encl e).live = true → GroupsNamed s → s.team k = some m → s.task m.task = some x → x.enc = e →
      (m.stat = .resident → Completes (.enclaveHalt e) s (fun t => (t.encl e).halted = true ∧
        ∀ a ∈ m.gids, ∀ g, s.group a = some g → g.stat = .ready ∨ g.stat = .parked → is t a (fun h => h.stat = .halted))) ∧
      (m.stat = .resident → x.over = false → (∀ j y, s.team j = some y → y.lost = []) →
        Completes (.enclaveResume e) s (fun t => (t.encl e).halted = false ∧
        ∀ a ∈ m.gids, ∀ g, s.group a = some g → g.stat = .halted → g.stopped = none → is t a (fun h => h.stat = .ready))))

/-! ### What follows the issue of memory accesses (11 R233 to R246; 12 R272 to R275; 19 R360; 21 R393) -/

/-- 00 Table 0.1, 19 R359, R360, 11 R233 to R236, R242 to R246, 12 Table 12.1, R272, 21 R393, 09 R188: a request takes a token of its
interface, oldest first, after a refill that is due and with room in flight; a copy's requests are counted once its pages are
translated; the oldest store passes into the cluster's buffer and ST falls; a buffered store is
written where its class serves it, a load takes its values; an atomic reads its word, changes it and writes it in one step; a request
that a release holds asks for the widening; returns write their destinations, a vector's lane by lane, and lower LD; a window store is
acknowledged when all of it is performed; a replayed request held too long ends its task. An event whose condition does not hold
changes nothing. The ascending order of a vector load's lanes is the model's choice (log 40), and so is that a request in flight of an
access that is still leaving is answered first where 256 are in flight (log 46). -/
def Obligations.MemoryEvents : Prop :=
  ∀ (s : State) (i k c die : Nat) (w : Group) (q : Req) (e : StoreEnt) (rest : List StoreEnt) (b : BufEnt) (m : Waiting)
    (vals : List Nat) (x : Nat) (xs : List Nat) (v : Svt) (tm : Team) (tk : Task) (ws : WinStore) (wr : List (Nat × Nat)) (f : Bool)
    (cp : Copy),
    let is (t : State) (p : Group → Prop) : Prop := ∃ g, t.group i = some g ∧ p g
    let core (w : Group) : Core := s.core w.core
    let first (w : Group) (n : Nat) : Prop := ∀ a ∈ s.portSeqs w.core (s.viOf w.enc), n ≤ a
    let took (w : Group) (t : State) : Prop := (t.core w.core).buckets = ((core w).takeToken (s.viOf w.enc)).buckets
    let flat : Prop := ∀ a, s.home a = a ∧ s.canon a = a
    let asks (pa : Nat) (t : State) : Prop := ∃ j y, t.svtOf j (pa / 64) = some y ∧ y.rel = true ∧ y.want.isSome
    let turn (w : Group) (n : Nat) : Prop := first w n ∧ (core w).refillDue = false
    let has (w : Group) : Bool := (core w).hasToken (s.viOf w.enc)
    let goes (w : Group) (n : Nat) : Prop := turn w n ∧ has w = true ∧ s.inFlight w.core < 256 ∧ w.stat ≠ .halted
    let waits (w : Group) (t : State) : Prop := t = { s with cores := t.cores } ∧
      (t.core w.core).buckets = ((core w).waitToken (s.viOf w.enc)).buckets
    -- the port
    (s.group i = some w → w.gid = i →
      (w.reqs[k]? = some q → q.port ≠ 0 →
        (goes w q.seq → Completes (.portRequestDepart (.load i k)) s (fun t =>
          took w t ∧ t.group i = some { w with reqs := w.reqs.modify k fun r => { r with port := r.port - 1, sent := r.sent + 1 } })) ∧
        (turn w q.seq → has w = false → Completes (.portRequestDepart (.load i k)) s (waits w)) ∧
        (turn w q.seq → has w = true → 256 ≤ s.inFlight w.core → Completes (.portRequestDepart (.load i k)) s (fun t =>
          t = (s.answerOne w.core).getD s)) ∧
        ((core w).refillDue = true ∨ (∃ a ∈ s.portSeqs w.core (s.viOf w.enc), a < q.seq) →
          Completes (.portRequestDepart (.load i k)) s (fun t => t = s))) ∧
      (w.fifo = e :: rest → e.port ≠ 0 →
        (goes w e.seq → Completes (.portRequestDepart (.store i)) s (fun t => took w t ∧
          t.group i = some { w with fifo := { e with port := e.port - 1, sent := e.sent + 1 } :: rest })) ∧
        (turn w e.seq → has w = false → Completes (.portRequestDepart (.store i)) s (waits w))) ∧
      ((s.core c).copies[k]? = some cp → cp.gid = i → w.core = c → (s.core c).heldBack cp.id = false →
        (cp.port = none → let r := (s.runCopy w cp).1
          (r.miss = none → Completes (.portRequestDepart (.copy c k)) s (fun t => t = { s with cores := t.cores } ∧
            (t.core c).copies = (s.core c).copies.modify k fun x => { x with port := some r.reqs })) ∧
          (∀ va a, r.miss = some (va, a) → Completes (.portRequestDepart (.copy c k)) s (fun t => t = s.walkFor w cp.id va a))) ∧
        (∀ p, cp.port = some (p + 1) →
          (goes w cp.seq → Completes (.portRequestDepart (.copy c k)) s (fun t => took w t ∧
            (t.core c).copies = (s.core c).copies.modify k fun x => { x with port := some p, sent := x.sent + 1 })) ∧
          (turn w cp.seq → has w = false → Completes (.portRequestDepart (.copy c k)) s (waits w))))) ∧
    -- stores
    (s.group i = some w → w.gid = i → w.fifo = e :: rest →
      (w.mayPass e = true → Completes (.coreStorePointPass i) s (fun t => t.mem = s.mem ∧
        t.buf (clusterOf w.core) = s.buf (clusterOf w.core) ++ e.pieces s.seq i w.core w.enc ∧
        t.group i = some (({ w with fifo := rest } : Group).modPath e.pathF fun p => { p with st := p.st - 1 }))) ∧
      (w.mayPass e = false → Completes (.coreStorePointPass i) s (fun t => t = s))) ∧
    ((s.buf c)[k]? = some b →
      (let pa := (b.bytes.headD (0, 0)).1
       s.storeFirst c k b = true → s.storeHeld b = false →
        Completes (.orderingPointArrival (.store c k)) s (fun t => t.buf c = (s.buf c).eraseIdx k ∧
        (s.serving (s.encl b.enc).part (s.clsOf pa) (dieOfCore b.core) pa = .memory → flat → t.mem = memPutAll s.mem b.bytes) ∧
        (∀ l pol own, s.serving (s.encl b.enc).part (s.clsOf pa) (dieOfCore b.core) pa = .line l pol own → pol ≠ 1 →
          flat → t.mem = s.mem))) ∧
      (s.storeFirst c k b = true → s.storeHeld b = true → Completes (.orderingPointArrival (.store c k)) s (fun t =>
        t = { s with dies := t.dies } ∧ asks b.pa t)) ∧
      (s.storeFirst c k b = false → Completes (.orderingPointArrival (.store c k)) s (fun t => t = s))) ∧
    -- loads
    (s.group i = some w → w.gid = i → w.reqs[k]? = some q →
      (s.mayLoad w q = true → (∀ l ∈ q.lines, l ∉ s.poison) → Completes (.orderingPointArrival (.load i k)) s (fun t =>
        is t (fun g => (∀ r, g.sr r = w.sr r) ∧ (∀ r, g.vr r = w.vr r) ∧ g.reqs = if q.pf then w.reqs.eraseIdx k
          else w.reqs.set k { q with data := some (q.elems.map fun a => leNat (a.pas.map (s.loadByte w q))) }))) ∧
      (w.loadDue q = true → ∀ l, s.loadHeld w q = some l → Completes (.orderingPointArrival (.load i k)) s (fun t =>
        t = { s with dies := t.dies } ∧ asks (64 * l) t)) ∧
      (w.loadDue q = false → Completes (.orderingPointArrival (.load i k)) s (fun t => t = s)) ∧
      (q.data = some vals → q.atom = none →
        (q.vec = false → Completes (.farLoadReturn i k) s (fun t => t.mem = s.mem ∧
          t.group i = some ((({ w with reqs := w.reqs.eraseIdx k } : Group).modPath q.pathF fun p => { p with ld := p.ld - 1 }).wr q.dst
            (BitVec.ofNat 64 (extend q.size q.signed (vals.headD 0)))))) ∧
        (q.vec = true → (∃ n, q.dst = .ring n ∨ q.dst = .fix n) → ∀ a, q.elems[q.wrote]? = some a → a.lane < 96 →
          Completes (.farLoadReturn i k) s (fun t => t.mem = s.mem ∧ is t (fun g => (∀ r, g.sr r = w.sr r) ∧
            (q.elems.length = q.wrote + 1 → g.reqs = w.reqs.eraseIdx k ∧ (g.path q.pathF).ld = (w.path q.pathF).ld - 1) ∧
            (q.wrote + 1 < q.elems.length → g.reqs = w.reqs.set k { q with wrote := q.wrote + 1 } ∧
              (g.path q.pathF).ld = (w.path q.pathF).ld) ∧
            lane (g.vrd q.dst) a.lane = BitVec.ofNat 32 (extend q.size q.signed (vals.getD q.wrote 0)) ∧
            (∀ j < 96, j ≠ a.lane → lane (g.vrd q.dst) j = lane (w.vrd q.dst) j))))) ∧
      (q.data = none → Completes (.farLoadReturn i k) s (fun t => t = s) ∧ Completes (.atomicReturn i k) s (fun t => t = s))) ∧
    -- atomics
    (s.waiting (i, k) = some m → m.g.gid = i →
      (let part := s.partOf m.g
       let at_ := dieOfCore m.g.core
       let u := s.svtName (s.svtDie part at_ m.pa) m.line (.core m.g.core)
       let old := leNat (u.peek part (s.clsOf m.pa) at_ m.pa m.a.w)
       let ran (t : State) : Prop := is t (fun g => g.reqs = m.g.reqs.set k { m.r with data := some [old] } ∧ (∀ r, g.sr r = m.g.sr r))
       (m.line ∉ s.poison → s.atPoint m = true →
        (∀ n, s.gate m = some n → Completes (.atomicExecute [(i, k)]) s ran ∧
          (m.r.gate = true → Completes (.orderGateRelease i k) s ran)) ∧
        (s.replayMode m.g ≠ 2 → s.gate m = some 0 ∧
          (s.replayMode m.g = 0 → (∀ y ∈ s.encs, y.2.replay.task = none) →
            u.serving part (s.clsOf m.pa) at_ m.pa = .memory → (∀ a, u.home a = a ∧ u.canon a = a) →
            Completes (.atomicExecute [(i, k)]) s (fun t =>
              t.mem = memPutAll u.mem ((addrs m.pa m.a.w).zip (leBytes m.a.w (m.a.apply old)))))) ∧
        (s.gate m = none → m.r.gate = false → ((s.taskOf m.g).map Task.ended).getD false = false → Completes (.atomicExecute [(i, k)]) s (fun t =>
          t.group i = some { m.g with reqs := m.g.reqs.set k { m.r with gate := true, gateFrom := s.servingClock m } })) ∧
        (s.gate m = none → Completes (.orderGateRelease i k) s (fun t => t = s)))) ∧
      (s.atPoint m = false → (s.atomDue m = false ∨ s.atomHeld m = false → Completes (.atomicExecute [(i, k)]) s (fun t => t = s)) ∧
        (s.atomDue m = true → s.atomHeld m = true → Completes (.atomicExecute [(i, k)]) s (fun t =>
          t = { s with dies := t.dies } ∧ asks (64 * m.line) t))) ∧
      (m.r.data = some (x :: xs) →
        (let g := (({ m.g with reqs := m.g.reqs.eraseIdx k } : Group).evtReturn m.a x)
         let g' := g.modPath m.r.pathF fun p => { p with ld := p.ld - 1 }
         Completes (.atomicReturn i k) s (fun t => t.mem = s.mem ∧ t.group i =
          some (if m.a.op = .evtWait then g else if m.a.op = .evtPub then g' else g'.wr m.r.dst (BitVec.ofNat 64 (m.a.old x)))))) ∧
      (m.r.gate = true → m.r.data = none → m.r.gateFrom + 2 ^ 24 ≤ s.servingClock m → s.team m.g.team = some tm → s.task tm.task = some tk →
        s.taskStopped tm.task = false →
        Completes (.orderGateTimeout i k) s (fun t => (t.encl m.g.enc).replay.diverged = true ∧
          ∃ r : Report, t.task tm.task = some (tk.addReport r) ∧ r.code = .replayDiverged ∧ r.fra = BitVec.ofNat 64 (m.line * 64) ∧
            r.prec = false ∧ r.pathF = m.r.pathF)) ∧
      (s.servingClock m < m.r.gateFrom + 2 ^ 24 → Completes (.orderGateTimeout i k) s (fun t => t = s))) ∧
    (∀ (a d : Atom) (old : Nat),
      (a.op = .add → a.apply old = (old + a.x) % 2 ^ (8 * a.w)) ∧ (a.op = .evtPub → a.apply old = (old + 1) % 2 ^ (8 * a.w)) ∧
      (a.op = .cas → (old = a.x → a.apply old = a.y) ∧ (old ≠ a.x → a.apply old = old)) ∧
      (a.op = .min → (toInt (!a.nat) (8 * a.w) (a.apply old) = min (toInt (!a.nat) (8 * a.w) old) (toInt (!a.nat) (8 * a.w) a.x))) ∧
      (a.op = .max → (toInt (!a.nat) (8 * a.w) (a.apply old) = max (toInt (!a.nat) (8 * a.w) old) (toInt (!a.nat) (8 * a.w) a.x))) ∧
      (a.op = .xchg → a.apply old = a.x) ∧ (a.op = .evtWait → a.apply old = old - 1) ∧
      (a.op ≠ .fadd → bundleRun [a, d] old = ([old, a.apply old], d.apply (a.apply old))) ∧
      (a.op = .fadd → bundleRun [a, d] old = ([old, old], { a with x := { d with x := a.x }.apply d.x }.apply old))) ∧
    -- windows and variables
    (s.group i = some w → w.gid = i →
      (w.winStores[k]? = some ws → (∀ p ∈ ws.parts, s.mayPerform (w.winStores.take k) ws p = true) →
        Completes (.windowStorePerformed i k) s (fun t => t.cores = (ws.parts.foldl State.performPart s).cores ∧
          t.group i = some { w.modPath ws.pathF (fun p => { p with rst := p.rst - 1 }) with winStores := w.winStores.eraseIdx k })) ∧
      (w.winStores[k]? = some ws → (∀ p ∈ ws.parts, s.mayPerform (w.winStores.take k) ws p = false) → ws.parts ≠ [] →
        Completes (.windowStorePerformed i k) s (fun t => t.cores = s.cores ∧ t.group i = some w)) ∧
      (w.winRet = some (wr, f) → Completes (.windowLoadReturn i) s (fun t => t.group i = some { w with winRet := some (wr, true) }))) ∧
    ((s.die die).svt[k]? = some v →
      (∀ p, v.want = some p → v.rel = true → s.relPending v p = false → Completes (.svtWidening die k) s (fun t =>
        t = { s with dies := t.dies } ∧ (t.die die).svt = (s.die die).svt.set k { v.touch p with rel := false, want := none })) ∧
      (v.rel = false ∨ (∀ p, v.want = some p → s.relPending v p = true) → Completes (.svtWidening die k) s (fun t => t = s)))

/-! ### Engines and lanterns at work (14 R289 to R300; 15 R306 to R316; 09 R200 to R202; 12 R278) -/

/-- 14 R289, R296 to R300, 15 R306, R310 to R316, 09 R200, R201, 12 R278: a copy waits for the walk of a page; one whose elements all pass is performed, leaves the engine,
sets its tag and lowers CP; one whose element fails ends its task with the element's address and leaves its tag unset; the head of a
tile queue starts, and at its retirement takes effect, leaves its queues and lowers TL; a product whose check fails once is formed again,
one that fails twice keeps the tile and ends the task; a cursor step empties its pane-set into the new definition or memory and
advances; a lantern action writes its lines back one by one and lowers ST after the last. That a throttled array admits one operation in
an even cycle of CYC and none in an odd one is the model's choice (log 56). -/
def Obligations.EngineAndLanternEvents : Prop :=
  ∀ (s : State) (core k n part cls die i : Nat) (w : Machine.Group) (cp : Copy) (code : Code) (fra : Word) (tm : Team) (tk : Task)
    (fs : List (List (Nat × Nat × Nat))) (f0 f1 : List (Nat × Nat × Nat)) (e : TileOp) (cs : List Nat) (row : Nat) (v : VReg) (d : ClassDef) (c : Change) (l : LLine) (o : LnOp) (x : Nat × Nat)
    (rest : List (Nat × Nat)),
    let is (t : State) (j : Nat) (p : Machine.Group → Prop) : Prop := ∃ g, t.group j = some g ∧ p g
    let r := (s.runCopy w cp).1
    let dst := recOf 0 cp.dst
    let src := recOf 0 cp.src
    let bit : Word := BitVec.ofNat 64 (2 ^ cp.tag)
    let gone (t : State) : Prop :=
      (t.core core).copies = (r.s.core core).copies.eraseIdx k ∧ (t.core core).tagBusy = (r.s.core core).tagBusy &&& ~~~bit ∧
      (∀ y ∈ (t.core core).locks, y.op ≠ cp.id)
    let T := e.tile w core
    let delays (j : Nat) : Prop := s.thr = true ∧ ((s.core j).cyc.toNat % 2 = 1 ∨ (s.core j).admitted = some (s.core j).cyc)
    let tl (t : State) : Prop :=
      (∀ j ∈ cs, (t.core j).tileq = (s.core j).tileq.drop 1) ∧
      ((∀ j ∈ ((s.team e.team).map Team.cores).getD [w.core], ∀ y ∈ (t.core j).tileq, y.seq ≠ e.seq) →
        is t e.gid (fun g => (g.path e.pathF).tl = (w.path e.pathF).tl - 1))
    let pos := smGet 0 c.cursors die
    let old (y : Nat) : Option LLine := s.oldLine part cls die c.old pos y
    let alone : Prop := n < 16 ∧ old n = some l ∧ ∀ y < 16, y ≠ n → old y = none
    let flat : Prop := ∀ a, s.home a = a ∧ s.canon a = a
    let formed (f : List (Nat × Nat × Nat)) : WorkCopy := s.workCopy w e core (s.matRows w e) f
    let wrong (f : List (Nat × Nat × Nat)) : Prop := f ≠ [] ∧ checkFails e.typ e.k (s.matRows w e) [formed f] = true
    let ls := (s.linesOf (s.partOf w) (dieOfCore w.core) (s.physRanges w o.lo o.hi)).filter fun y => y.dirty ≠ 0
    let lowered (t : State) : Prop := is t i fun g => g.lnOps = w.lnOps.eraseIdx k ∧ (g.path o.pathF).st = (w.path o.pathF).st - 1
    -- copies
    (s.copyReady core k = some (w, cp) → r.err = none → ∀ va a, r.miss = some (va, a) →
      Completes (.copyComplete core k) s (fun t => t = s.walkFor w cp.id va a)) ∧
    (s.copyReady core k = some (w, cp) → w.gid = cp.gid → r.held = none → r.bad = false →
      (r.err = none → r.miss = none → Completes (.copyComplete core k) s (fun t => gone t ∧ t.mem = r.s.mem ∧ t.bufs = r.s.bufs ∧
        (t.core core).pool = (r.s.core core).pool ∧ (t.core core).tagSet = (r.s.core core).tagSet ||| bit ∧
        is t cp.gid (fun g => (g.path cp.pathF).cp = (w.path cp.pathF).cp - 1 ∧ g.fpf = w.fpf ||| r.fl ∧ (∀ a, g.sr a = w.sr a) ∧
          ∀ a, g.vr a = w.vr a))) ∧
      (r.err = none → Completes (.copyElementFault core k) s (fun t => t = s)) ∧
      (r.err = some (code, fra) → s.team w.team = some tm → s.task tm.task = some tk → s.taskStopped tm.task = false →
        Completes (.copyElementFault core k) s (fun t => gone t ∧ (t.core core).tagSet = (r.s.core core).tagSet ∧
          (∃ q : Report, t.task tm.task = some (tk.addReport q) ∧ q.code = code ∧ q.fra = fra ∧ q.prec = false ∧ q.pc = cp.pc) ∧
          is t cp.gid (fun g => (g.path cp.pathF).cp = (w.path cp.pathF).cp - 1))) ∧
      (r.err = some (code, fra) → Completes (.copyComplete core k) s (fun t => t = s))) ∧
    (s.copyReady core k = some (w, cp) → ∀ y, r.held = some y → (r.err = none → r.miss = none → Completes (.copyComplete core k) s (fun t =>
        t = { s with dies := t.dies } ∧ t = s.svtAsk (s.partOf w) (dieOfCore w.core) y (.core w.core))) ∧
      (r.err = some (code, fra) → Completes (.copyElementFault core k) s (fun t => t = { s with dies := t.dies }))) ∧
    (s.copyReady core k = none → Completes (.copyComplete core k) s (fun t => t = s)) ∧
    (∀ (u : CopyRun) (p : Nat), u.err = none → u.miss = none → dst.far = false →
      (∀ y, cp.fill = some y →
        (u.point w cp dst p).s = (u.s.event w 0x0208 0x1F dst.e).ownWrite w (wrapInt 20 (dst.at (dst.tuple p))) (leBytes dst.e y.toNat)) ∧
      (cp.fill = none → cp.idx = [] → src.far = false → src.etype = dst.etype → src.scale = 0 → dst.scale = 0 →
        (u.point w cp dst p).s = (u.s.event w 0x0208 0x1F dst.e).ownWrite w (wrapInt 20 (dst.at (dst.tuple p)))
          (leBytes dst.e (u.read w cp .src false (src.at (dst.tuple p)) src.e).2))) ∧
    -- tiles
    (s.tileHead core = some (w, e, cs) →
      (e.running = false → (s.core w.core).heldBack e.lock = false → (∀ j ∈ cs, ¬delays j) →
        Completes (.tileOpStart core) s (fun t =>
        t = { s with cores := t.cores } ∧
        ∀ j ∈ cs, (t.core j).admitted = some (s.core j).cyc ∧
          ∃ h rs, (s.core j).tileq = h :: rs ∧ (t.core j).tileq = { h with running := true } :: rs)) ∧
      ((s.core w.core).heldBack e.lock = true ∨ (∃ j ∈ cs, delays j) →
        Completes (.tileOpStart core) s (fun t => t = s)) ∧
      (e.running = false → Completes (.tileOpRetire core fs) s (fun t => t = s)) ∧
      (e.running = true → w.gid = e.gid →
        (e.kind = .zero → Completes (.tileOpRetire core fs) s (fun t => tl t ∧ t.tileStat T = {} ∧
          ∀ y < 4608, t.tileEntry T (8 * y) 8 = 0)) ∧
        (e.kind = .rd row none → (∃ y, e.dst = .ring y ∨ e.dst = .fix y) → (s.tileStat T).typ ≠ 7 →
          Completes (.tileOpRetire core fs) s (fun t => tl t ∧ t.mem = s.mem ∧ is t e.gid (fun g => g.fpf = w.fpf ∧
            (∀ a, g.sr a = w.sr a) ∧
            ∀ y < 96, lane (g.vrd e.dst) y = if bitAt e.mask.toNat y then BitVec.ofNat 32 (s.tileEntry T (384 * row + 4 * y) 4)
              else lane (w.vrd e.dst) y))) ∧
        (e.kind = .wr row v → Completes (.tileOpRetire core fs) s (fun t => tl t ∧ (t.core core).pool =
          ((s.tilePut T (if (s.tileStat T).typ = 7 then 8 else 4)
            (wrEntries (decide ((s.tileStat T).typ = 7)) e.mask row v)).core core).pool)) ∧
        (e.kind = .chk → (∃ y, e.dst = .ring y) → Completes (.tileOpRetire core fs) s (fun t => tl t ∧
          is t e.gid (fun g => g.rd e.dst = BitVec.ofNat 64 (s.tileStat T).word))) ∧
        (e.kind = .one → w.core = core → Completes (.tileOpRetire core []) s (fun t => tl t ∧
          (t.core core).pool = ((s.commitProduct w e (formed [])).core core).pool ∧
          t.tileStat T = (s.commitProduct w e (formed [])).tileStat T)) ∧
        (e.kind = .one → w.core = core → wrong f0 → Completes (.tileOpRetire core [f0]) s (fun t => tl t ∧
          (t.core core).pool = ((s.commitProduct w e (formed [])).core core).pool ∧
          t.tileStat T = { (s.commitProduct w e (formed [])).tileStat T with reruns := min ((s.tileStat T).reruns + 1) 255 })) ∧
        (e.kind = .one → wrong f0 → wrong f1 →
          s.team w.team = some tm → s.task tm.task = some tk → s.taskStopped tm.task = false →
          Completes (.tileOpRetire core [f0, f1]) s (fun t => (t.core core).pool = (s.core core).pool ∧
            (t.tileStat T).reruns = min ((s.tileStat T).reruns + 1) 255 ∧
            ∃ q : Report, t.task tm.task = some (tk.addReport q) ∧ q.code = .matrixCheck ∧ q.fra = BitVec.ofNat 64 e.aAddr)))) ∧
    -- cursors
    (s.classDef part cls = some d → d.change = some c →
      (die ∈ c.old.instDies → pos < c.old.total →
        (let i' : Instr := if c.flushAll then .flushCursorStep part cls die else .resizeCursorStep part cls die
         Completes i' s (fun t => ∃ d', t.classDef part cls = some d' ∧ d'.ldr = d.ldr ∧
          (∀ c', d'.change = some c' → c' = { c with cursors := smSet 0 c.cursors die (pos + 1) }) ∧
          (d'.change = none ↔ ∀ j ∈ c.old.instDies, c.old.total ≤ smGet 0 (smSet 0 c.cursors die (pos + 1)) j) ∧
          ((∀ y < 16, old y = none) → t.mem = s.mem) ∧
          (c.flushAll = true → ∀ y < 16, ∀ x, old y = some x → ∀ z ∈ t.lines, z.same x = false) ∧
          (c.flushAll = true → alone → flat → t.mem = memPutAll s.mem l.dirtyBytes) ∧
          (c.flushAll = false → alone → s.paneRetired die (d.ldr.place l.line).2.1 = false → ∃ z ∈ t.lines,
            z.line = l.line ∧ z.data = l.data ∧ z.dirty = l.dirty ∧ z.die = l.die ∧ z.pane = (d.ldr.place l.line).2.1 ∧
            z.set = (d.ldr.place l.line).2.2)))) ∧
      (die ∉ c.old.instDies ∨ c.old.total ≤ pos → Completes (.resizeCursorStep part cls die) s (fun t => t = s) ∧
        Completes (.flushCursorStep part cls die) s (fun t => t = s))) ∧
    -- write-backs
    (s.group i = some w → w.gid = i → w.lnOps[k]? = some o →
      (o.started = false → w.lnMayStart o = false ∨ s.lnBehind w o = true → Completes (.writeBackArrival i k) s (fun t => t = s)) ∧
      (o.started = false → w.lnMayStart o = true → s.lnBehind w o = false → ls = [] → Completes (.writeBackArrival i k) s lowered) ∧
      (o.started = false → w.lnMayStart o = true → s.lnBehind w o = false → ls ≠ [] → Completes (.writeBackArrival i k) s (fun t => is t i fun g =>
        g.lnOps = w.lnOps.set k { o with started := true, lines := ls.map fun y => (y.die, y.line) } ∧
        (g.path o.pathF).st = (w.path o.pathF).st)) ∧
      (o.started = true → o.lines = x :: rest →
        (s.lines.find? fun y => y.die = x.1 && y.line = x.2 && y.part = s.partOf w) = some l → flat →
        Completes (.writeBackArrival i k) s (fun t => t.mem = memPutAll s.mem l.dirtyBytes ∧ (rest = [] → lowered t) ∧
          (rest ≠ [] → is t i fun g => g.lnOps = w.lnOps.set k { o with lines := rest }))))

/-! ### Translation, moving frames, management and Lamplight's units (10 R214 to R230; 19 R352 to R359; 21 R376; 25 R406; 27) -/

/-- 10 R214, R215, R224 to R229: an invalidation drops the matching translations and the walks of a die and flips its colour, or waits
behind one at work; a DTU acknowledges when the old colour's count is zero, and the last of the four clears near-cache lines of the
frames (09 R191); a walk installs its leaf with the POT result of its frames or keeps its failure for the access that asked, and one that
reads a poisoned line resets the partition (17 R330); a migration entry marks both frames, moves one line a step, whose tag failure acts
by the state of the frame before the move, and at its retirement leaves the source free and zero and the destination in its place; both
changes are followed by invalidations of both frames (10 R219). That a pinned page mapped later takes its count at the walk that installs
it, and waits while the count is at its maximum, is the model's reading (log 50, DEDUCED), and so is that what was asked under the
source's addresses, poisoned lines among it, stands under the destination's at retirement (log 34, DEDUCED). -/
def Obligations.TranslationEvents : Prop :=
  ∀ (s : State) (sc sc' : InvScope) (rest : List InvScope) (d k ctl src dst : Nat) (w : Walk) (l : Leaf) (c : Code),
    let x := s.die d
    let a := s.potOf src
    let b := s.potOf dst
    let m := s.migrAt ctl k
    let line (f : Nat) : Nat := f * 4096 + 64 * m.cursor
    let part := (s.encl w.enc).part
    let pois : Bool := s.walkPoisoned w.enc w.va
    let counted (t u : State) : State := { t with chans := u.chans, fresh := u.fresh }
    let tlb := s.cachePots (l.tlb w.enc w.asid)
    let was := s.potSettled m.src
    let at_ := s.countAt (line m.src) false
    let posted (y z : Nat) (t : State) : Prop := ∀ j < 4, (s.die j).inval = none →
      (t.die j).inval = some (.frames y 1) ∧ (t.die j).invalQ = (s.die j).invalQ ++ [.frames z 1]
    (d < 4 → smWf {} s.cores = true →
      (x.inval = none → Completes (.invalidation sc) s (fun t => t.mem = s.mem ∧ t.pot = s.pot ∧ (t.die d).inval = some sc ∧
        (t.die d).colour = !x.colour ∧ (t.die d).walks = [] ∧ (t.die d).llt = x.llt.filter (fun e => !InvScopeHits sc e) ∧
        ∀ j, dieOfCore j = d → (t.core j).l1 = (s.core j).l1.filter fun e => !InvScopeHits sc e)) ∧
      (x.inval = some sc' → Completes (.invalidation sc) s (fun t =>
        t.die d = { x with invalQ := x.invalQ ++ [sc] } ∧ ∀ j, dieOfCore j = d → t.core j = s.core j))) ∧
    (x.inval = some sc →
      (x.count (!x.colour) ≠ 0 → Completes (.dtuAcknowledge d) s (fun t => t = s)) ∧
      (x.count (!x.colour) = 0 → x.invalQ = [] → Completes (.dtuAcknowledge d) s (fun t =>
        t = { s with dies := t.dies, cores := t.cores } ∧ t.die d = { x with inval := none } ∧
        ((∃ j < 4, j ≠ d ∧ (s.die j).acked < x.accepted) → t.cores = s.cores) ∧
        ((∀ j < 4, j ≠ d → x.accepted ≤ (s.die j).acked) → ∀ f n, sc = .frames f n →
          ∀ j, (t.core j).near = (s.core j).near.filter fun y => !(f ≤ y.line / 64 && y.line / 64 < f + n)))) ∧
      (x.count (!x.colour) = 0 → x.invalQ = sc' :: rest → Completes (.dtuAcknowledge d) s (fun t =>
        (t.die d).inval = some sc' ∧ (t.die d).invalQ = rest ∧ (t.die d).colour = !x.colour))) ∧
    (x.inval = none → Completes (.dtuAcknowledge d) s (fun t => t = s)) ∧
    (x.walks[k]? = some w → w.res.isSome → Completes (.walkComplete d k) s (fun t => t = s)) ∧
    (x.walks[k]? = some w → w.res = none → pois = true → Completes (.walkComplete d k) s (fun t => t = s.partitionReset part)) ∧
    (x.walks[k]? = some w → w.res = none → pois = false →
      (s.leafOf w.enc w.va = some l → l.check w.kind = none → s.pinFull w.enc l = true →
        Completes (.walkComplete d k) s (fun t => t = counted s t)) ∧
      (s.leafOf w.enc w.va = some l → l.check w.kind = none → s.pinFull w.enc l = false → Completes (.walkComplete d k) s (fun t =>
        t = counted { s.pinLeaf w.enc l with dies := t.dies, cores := t.cores } t ∧
        (l.pages.filter (s.encl w.enc).pinsPage = [] → t = counted { s with dies := t.dies, cores := t.cores } t) ∧
        t.die d = { x with llt := lltInstall x.llt tlb, walks := x.walks.set k { w with res := some none } } ∧
        (w.op = 0 → t.cores = s.cores) ∧ (w.op ≠ 0 → ∀ g, s.group w.gid = some g → (t.core g.core).copies =
          (s.core g.core).copies.map fun y => if y.id = w.op then { y with pages := y.pages ++ [tlb] } else y))) ∧
      (s.leafOf w.enc w.va = some l → l.check w.kind = some c → Completes (.walkComplete d k) s (fun t =>
        t = counted { s with dies := t.dies } t ∧ t.die d = { x with walks := x.walks.set k { w with res := some (some c) } })) ∧
      (s.leafOf w.enc w.va = none → Completes (.walkComplete d k) s (fun t =>
        t = counted { s with dies := t.dies } t ∧ t.die d = { x with walks := x.walks.set k { w with res := some (some .accessUnleased) } }))) ∧
    (s.running = true → ctl < 5 → k < 64 → m.valid = false → inMemory (src * 4096) = true → inMemory (dst * 4096) = true →
      (tierOf (src * 4096)).1 = ctl → a.stat = 1 ∨ a.stat = 2 ∨ a.stat = 6 → b.stat = 0 → dst ∉ s.withheld →
      Completes (.migrationEntryWrite ctl k src dst) s (fun t => t.mem = s.mem ∧
        t.migrAt ctl k = { valid := true, done := false, cursor := 0, src := src, dst := dst, was := a } ∧ posted src dst t ∧
        t.potOf src = { a with stat := 5 } ∧ t.potOf dst = { owner := a.owner, cls := a.cls, cgroup := a.cgroup, stat := 5 } ∧
        ∀ f, f ≠ src → f ≠ dst → t.potOf f = s.potOf f)) ∧
    (s.running = false ∨ m.valid = true ∨ b.stat ≠ 0 ∨ dst ∈ s.withheld → Completes (.migrationEntryWrite ctl k src dst) s (fun t => t = s)) ∧
    (m.valid = true → m.cursor < 64 →
      Completes (.migrationStep ctl k true) s (fun t =>
        t.migrAt ctl k = { m with cursor := m.cursor + 1, done := decide (m.cursor + 1 = 64) } ∧
        (∀ o < 64, memByte t.mem (line m.dst + o) = memByte s.mem (line m.src + o)) ∧
        ∀ o, ¬(line m.dst ≤ o ∧ o < line m.dst + 64) → memByte t.mem o = memByte s.mem o) ∧
      (was.stat ≠ 0 → was.stat ≠ 6 → was.stat ≠ 7 →
        (s.framePart m.src = none → Completes (.migrationStep ctl k false) s (fun t => t.mem = s.mem ∧ t.migr = s.migr ∧
          ∃ r, t.errlog.getLast? = some r ∧ r.getD 1 0 = BitVec.ofNat 64 (line m.src))) ∧
        (∀ p, s.framePart m.src = some p → Completes (.migrationStep ctl k false) s (fun t =>
          t = (at_.bumpChan (line m.src) 5 1).partitionReset p))) ∧
      (was.stat = 6 → Completes (.migrationStep ctl k false) s (fun t => t.mem = s.mem ∧ t.migr = s.migr ∧
        s.canon (line m.src) / 64 ∈ t.poison))) ∧
    (m.valid = false ∨ 64 ≤ m.cursor → Completes (.migrationStep ctl k true) s (fun t => t = s)) ∧
    (s.running = true → m.valid = true → m.done = true → m.src ≠ m.dst → Completes (.migrationRetire ctl k) s (fun t => t.migrAt ctl k = {} ∧
      t.potOf m.src = {} ∧
      t.potOf m.dst = { s.potOf m.src with stat := if m.was.stat = 6 then 6 else if (s.potOf m.src).leases = 0 then 1 else 2 } ∧
      (∀ o, o / 4096 = m.src → memByte t.mem o = 0) ∧ posted m.src m.dst t ∧
      ((∀ y ∈ s.lines, y.line / 4096 ≠ m.src) → ∀ o, o / 4096 ≠ m.src → memByte t.mem o = memByte s.mem o) ∧
      (∀ z ∈ s.poison, z / 64 = m.src → m.dst * 64 + z % 64 ∈ t.poison) ∧
      ∀ j y, s.task j = some y → (t.task j).map Task.frames = some (y.frames.map fun f => if f = m.src then m.dst else f))) ∧
    (s.running = false ∨ m.valid = false ∨ m.done = false → Completes (.migrationRetire ctl k) s (fun t => t = s))

/-- 19 R352, R354, R355, R357, R359, R361, 09 R196, R205, 10 R222, R230, 25 R406, 27 R434, R435, 21 R376, R384: the management
registers take the values that their rules admit and ignore all others, a live enclave's partition record any write but an amendment; a
record that becomes VALID has class 0 as BYPASS and no other class, and no line of it is left, dirty ones written back first (log 51,
DEDUCED); function 0 and a hart in M-mode alone reach the window, where a store does what the register's own write does and a load is
answered (that a record is written a dword at a time, and the layout of the acquisition registers, are the model's choice, log 69), and
a package that its boot has not released takes none; an interface's write may name it for the creations that follow (log 23); the
pager queue's GET rises by 1; the hypervisor takes and returns a core's units; a LOST packet follows dropped ones, then a SYNC packet of
each traced group; a refill, one for each boundary, keeps every level at or below its cap and grants each interface at least its
share. -/
def Obligations.ManagementEvents : Prop :=
  ∀ (s : State) (k h part vi n die core e : Nat) (ds : List Word) (d0 d1 v : Word) (burst name : Bool) (b : Bucket) (i off : Nat)
    (src : MgmtFrom) (w : Option Word),
    let p := partOf64 ds
    let y : Vi := { valid := bitAt d0.toNat 63, part := bitsAt d0.toNat 0 8, share := bitsAt d1.toNat 0 17 }
    let acc := s.acct vi
    let acc' : Acct := if burst then { acc with burst := n % 2 ^ 32 } else { acc with guar := n % 2 ^ 32 }
    let bank := (s.core core).bank
    let tr := (s.core core).trace
    let refilled (tok : Nat) (old new : List Bucket) : Prop := new.length = old.length ∧ (old[i]? = some b →
      let q := (b.frac + tok * s.shareOf b.vi) / 65536
      ∃ z, new[i]? = some z ∧ z.vi = b.vi ∧ z.act = false ∧ z.frac = (b.frac + tok * s.shareOf b.vi) % 65536 ∧
        z.cap = max (2 * q) 1 ∧ min (b.level + q) z.cap ≤ z.level ∧ z.level ≤ z.cap)
    (s.running = false → ∀ j ∈ [Instr.mmtWrite k h, .partitionRecordWrite part ds, .virtualInterfaceWrite vi d0 d1 name,
        .frameAccountWrite vi burst n, .coreTokensWrite die n, .fabTokensWrite n, .pkgidWrite n, .plimitWrite n,
        .managementWrite src off w, .lamplightAcquisition core burst name], Completes j s (fun t => t = s)) ∧
    (s.running = true →
    (k < 2816 → s.mmtLocked k = false → (768 ≤ k → h % 4 ≠ 2) → Completes (.mmtWrite k h) s (fun t =>
      t = { s with mmt := t.mmt } ∧ ∀ j, smGet 0 t.mmt j = if j = k then h % 4 else smGet 0 s.mmt j)) ∧
    (s.mmtLocked k = true ∨ 2816 ≤ k ∨ (768 ≤ k ∧ h % 4 = 2) → Completes (.mmtWrite k h) s (fun t => t = s)) ∧
    (part < 255 → s.partOver part p = false → s.partLive part = false ∨ s.partMayAmend part p = true →
      Completes (.partitionRecordWrite part ds) s (fun t =>
        (∀ j, t.part j = if j = part then p else s.part j) ∧
        (p.valid = false ∨ (s.part part).valid = true → t = { s with parts := t.parts }) ∧
        (p.valid = true → (s.part part).valid = false → t.classDef part 0 = some ⟨defaultLdr part, none⟩ ∧
          (∀ c, 0 < c → c < 64 → t.classDef part c = none) ∧ (∀ y ∈ t.lines, y.part ≠ part) ∧
          ∀ j c, j ≠ part → c < 64 → smFind t.classes (j * 64 + c) = smFind s.classes (j * 64 + c)))) ∧
    (s.partLive part = true → Completes (.partitionRecordWrite part ds) s (fun t => t = { s with parts := t.parts } ∧
      ∃ qs c, t.part part = { s.part part with quotas := qs, commons := c } ∧ (s.part part).commons &&& c = (s.part part).commons ∧
        ∀ j < 4, (s.part part).quotas.getD j 0 ≤ qs.getD j 0 ∨ s.committed part j ≤ qs.getD j 0)) ∧
    (255 ≤ part ∨ s.partOver part p = true ∨ (s.partLive part = true ∧ s.partMayAmend part p = false) →
      Completes (.partitionRecordWrite part ds) s (fun t => t = s)) ∧
    (let live := s.encs.any fun x => x.2.live && x.2.vi = vi
     let z : Vi := if live then { y with part := (s.vi vi).part } else y
     let sum := ((s.vis.filter fun x => x.1 ≠ vi && x.2.valid).map fun x => x.2.share).sum + (if y.valid then y.share else 0)
     let named := if name then vi else s.viNamed
     (vi < 256 → y.share ≤ 65536 → sum ≤ 65536 → Completes (.virtualInterfaceWrite vi d0 d1 name) s (fun t =>
        t = { s with vis := t.vis, viNamed := named } ∧ ∀ j, t.vi j = if j = vi then z else s.vi j)) ∧
     (65536 < y.share ∨ 65536 < sum → Completes (.virtualInterfaceWrite vi d0 d1 name) s (fun t => t = { s with viNamed := named }))) ∧
    (let others := ((s.accts.filter fun x => x.1 ≠ vi).map fun x => x.2.guar).sum
     (vi < 256 → acc'.guar ≤ acc'.burst → others + acc'.guar ≤ packageFrames → Completes (.frameAccountWrite vi burst n) s (fun t =>
        t = { s with accts := t.accts } ∧ ∀ j, t.acct j = if j = vi then acc' else s.acct j)) ∧
     (acc'.burst < acc'.guar → Completes (.frameAccountWrite vi burst n) s (fun t => t = s))) ∧
    (die < 4 → 1 ≤ n → n ≤ 4096 → Completes (.coreTokensWrite die n) s (fun t => t = { s with dies := t.dies } ∧
      ∀ j, t.die j = if j = die then { s.die die with coreTokens := n } else s.die j)) ∧
    (n = 0 ∨ 4096 < n → Completes (.coreTokensWrite die n) s (fun t => t = s)) ∧
    (1 ≤ n → n ≤ 16384 → Completes (.fabTokensWrite n) s (fun t => t = { s with fabTokens := n })) ∧
    (n = 0 ∨ 16384 < n → Completes (.fabTokensWrite n) s (fun t => t = s)) ∧
    (s.pkgidSet = false → Completes (.pkgidWrite n) s (fun t => t = { s with pkgid := n % 2 ^ 11, pkgidSet := true })) ∧
    (s.pkgidSet = true → Completes (.pkgidWrite n) s (fun t => t = s)) ∧
    (800 ≤ n → n ≤ 3200 → Completes (.plimitWrite n) s (fun t => t = { s with plimit := n, thr := t.thr } ∧
      (t.thr = true ↔ n < s.pnow ∨ 95 ≤ s.tmax))) ∧
    (n < 800 ∨ 3200 < n → Completes (.plimitWrite n) s (fun t => t = s)) ∧
    (s.reachesMgmt src = false → Completes (.managementWrite src off w) s (fun t => t = s)) ∧
    ((s.reachesMgmt (.function n) = true ↔ n = 0) ∧
      (s.reachesMgmt (.hart h) = true ↔ (s.hart h).mode = .m ∧ (s.hart h).inside = none)) ∧
    (s.reachesMgmt src = true →
      Completes (.managementWrite src off none) s (fun t => t = { s with outbox := s.outbox ++ [.mgmt (s.mgmtRead off)] }) ∧
      (k < 2816 → exec (.managementWrite src (0x10000 + 8 * k) (some v)) s = exec (.mmtWrite k v.toNat) s) ∧
      (part < 255 → n < 64 → exec (.managementWrite src (0x20000 + 512 * part + 8 * n) (some v)) s =
        exec (.partitionRecordWrite part ((s.part part).dwords.set n v)) s) ∧
      (vi < 256 → exec (.managementWrite src (0x40008 + 16 * vi) (some v)) s =
        exec (.virtualInterfaceWrite vi (BitVec.ofNat 64 (b2n (s.vi vi).valid * 2 ^ 63 + (s.vi vi).part)) v false) s) ∧
      (vi < 256 → exec (.managementWrite src (0x41000 + 32 * vi + (if burst then 8 else 0)) (some v)) s =
        exec (.frameAccountWrite vi burst v.toNat) s) ∧
      (die < 4 → exec (.managementWrite src (0x50000 + 8 * die) (some v)) s = exec (.coreTokensWrite die v.toNat) s) ∧
      (core < 512 → exec (.managementWrite src (0x200000 + 16 * core + (if burst then 8 else 0)) (some v)) s =
        exec (.lamplightAcquisition core burst (bitAt v.toNat 0)) s) ∧
      exec (.managementWrite src 0x50020 (some v)) s = exec (.fabTokensWrite v.toNat) s ∧
      exec (.managementWrite src 0x300000 (some v)) s = exec (.plimitWrite (v.toNat % 2 ^ 16)) s ∧
      exec (.managementWrite src 0 (some v)) s = exec (.pkgidWrite v.toNat) s) ∧
    (s.mgmtRead 0 = BitVec.ofNat 64 s.pkgid ∧ s.mgmtRead 0x300000 = BitVec.ofNat 64 s.plimit ∧
      s.mgmtRead 0x300018 = BitVec.ofNat 64 (2 * b2n s.trip + b2n s.thr) ∧ (off % 8 ≠ 0 → s.mgmtRead off = 0)) ∧
    (bank.holder = some (.enc e) →
      Completes (.lamplightAcquisition core false true) s (fun t => t = { s with cores := t.cores } ∧
        (t.core core).bank = { bank with holder := some .hyp, suspended := some e, snap := (t.core core).bank.snap })) ∧
    (tr.holder = some (.enc e) →
      Completes (.lamplightAcquisition core true true) s (fun t => t = { s with cores := t.cores } ∧ (t.core core).trace.queue = [] ∧
        (t.core core).trace.holder = some .hyp ∧ (t.core core).trace.suspended = some e ∧ (t.core core).trace.cmps = tr.cmps)) ∧
    (bank.holder = some .hyp →
      (bank.suspended = none → Completes (.lamplightAcquisition core false false) s (fun t => (t.core core).bank = {})) ∧
      (bank.suspended = some e → bank.kept = [] → Completes (.lamplightAcquisition core false false) s (fun t =>
        (t.core core).bank.holder = some (.enc e) ∧ (t.core core).bank.suspended = none ∧ (t.core core).bank.cfg = bank.cfg ∧
        (t.core core).bank.count = bank.count))) ∧
    (tr.holder = some .hyp → tr.suspended = some e → tr.kept = [] →
      Completes (.lamplightAcquisition core true false) s (fun t => (t.core core).trace.holder = some (.enc e) ∧
        (t.core core).trace.hostLost = true ∧ (t.core core).trace.dropped = tr.saved ∧ (t.core core).trace.cmps = tr.cmps))) ∧
    (tr.holder = some (.enc e) →
      (tr.dropped ≠ 0 ∨ tr.hostLost = true → tr.queue.length < 64 → Completes (.traceLost core) s (fun t =>
        let lost := packet 9 false 0 0 0 0 (tr.dropped + b2n tr.hostLost * 2 ^ 31)
        let gs := s.allGroups.filter fun g => g.core = core && s.traces g
        t = { s with cores := t.cores } ∧ (t.core core).trace.hostLost = false ∧
        (t.core core).trace.queue = (tr.queue ++ lost :: gs.map syncPacket).take 64 ∧
        (tr.queue.length + gs.length < 64 → (t.core core).trace.dropped = 0))) ∧
      (tr.dropped = 0 ∧ tr.hostLost = false ∨ 64 ≤ tr.queue.length → Completes (.traceLost core) s (fun t => t = s))) ∧
    ((s.core core).cyc.toNat / 1024 ≠ (s.core core).refills → Completes (.tokenRefill core) s (fun t =>
      t = { s with cores := t.cores } ∧ (t.core core).refills = (s.core core).refills + 1 ∧
      refilled (s.die (dieOfCore core)).coreTokens (s.core core).buckets (t.core core).buckets)) ∧
    ((s.core core).cyc.toNat / 1024 = (s.core core).refills → Completes (.tokenRefill core) s (fun t => t = s)) ∧
    (s.fabClock / 1024 ≠ s.fabRefills → Completes (.fabricTokenRefill) s (fun t =>
      t.fabRefills = s.fabRefills + 1 ∧ refilled s.fabTokens s.fabBuckets t.fabBuckets)) ∧
    (s.fabClock / 1024 = s.fabRefills → Completes (.fabricTokenRefill) s (fun t => t = s)) ∧
    ((s.encl e).live = false → Completes (.pagerGetAdvance e) s (fun t => t = s)) ∧
    ((s.encl e).live = true → (s.encl e).resHeld = [] → (∀ a, s.home a = a ∧ s.canon a = a) →
      (let x := s.encl e
       let a := x.ecs + 0x1008
       s.serving x.part (s.potOf (a / 4096)).cls 0 a = .memory → Completes (.pagerGetAdvance e) s (fun t =>
         t.mem = memPutAll s.mem ((addrs a 8).zip (leBytes 8 (leNat (s.coherent x.part a 8) + 1))))))

/-! ### Errors, power, boot and attestation (17 R328 to R333; 18 R340; 25 R403, R404; 27 R433 to R436) -/

/-- 17 R328, R330 to R333, 25 R403, R404, 27 R433, R435, R436, 18 R340, 19 R354: the fourth correctable error of a window retires its unit
and writes a record, and a clean line whose check failed is fetched again; an uncorrectable error resets the partition that owns what
failed, poisons a commons line, withholds a free frame or resets the package; THR says whether a limit is passed; a sensor at 105 °C
resets the package with TRIP set; a package reset and a power-on whose images all carry both signatures valid leave the machine as after
reset with the frames that the boot takes as firmware, and a boot stops at the first step that fails; an SPDM
request in its order is answered in its mailbox and extends the mailbox's transcript, a signed answer carries both signatures over the
transcript's hash, and one out of order is answered with an error (log 25); the recovery mailbox answers where a boot step has
failed. -/
def Obligations.PackageEvents : Prop :=
  ∀ (s : State) (u : UnitKind) (ix line p port link e pn tx die ss index box : Nat) (req : List Byte) (m : BitVec 384)
    (sigs : List (Bool × Bool)) (trained : Bool) (frames : List Nat) (at_ : Option Nat),
    let n := s.errCount u ix
    let count (t : State) : Nat × Nat := smGet (0, 0) t.errs (errKey u ix)
    let spdm := s.spdmOf box
    let f := line / 64
    let ends (q : Nat) (t : State) : Prop :=
      (∀ j x, smFind s.encs j = some x → x.live = true → x.part = q → smFind t.encs j = none) ∧ (∀ l ∈ t.lines, l.part ≠ q) ∧
      (∀ c < 64, smFind t.classes (q * 64 + c) = none) ∧
      ∃ r, t.errlog.getLast? = some r ∧ r.getD 0 0 = BitVec.ofNat 64 (2 * 2 ^ 56 + q * 2 ^ 40)
    let firmware (fs : List Nat) (t : State) : Prop := ∀ a, t.potOf a = if a ∈ fs then { stat := 7 } else {}
    let fresh (trip : Bool) (t : State) : Prop :=
      t.trip = trip ∧ t.encs = [] ∧ t.groups = [] ∧ t.tasks = [] ∧ t.teams = [] ∧ t.mem = [] ∧ t.lines = [] ∧
      t.classes = [] ∧ t.parts = [] ∧ t.vis = [] ∧ t.retired = s.retired ∧
      (bootSteps s.fw.sigs s.fw.trained = 7 → t.running = true ∧ t.harts = State.reset.harts ∧ firmware s.fw.frames t) ∧
      (bootSteps s.fw.sigs s.fw.trained ≠ 7 → t.running = false ∧ t.harts = [] ∧ t.pot = []) ∧
      ∃ r, t.errlog.getLast? = some r ∧ (r.getD 0 0).toNat / 2 ^ 56 = 2
    let err (t : State) : Prop := t = { s with outbox := s.outbox ++ [.spdm box 0x7F []] }
    let others (t : State) : Prop := t = { s with outbox := t.outbox, spdm := t.spdm } ∧ ∀ b, b ≠ box → t.spdmOf b = s.spdmOf b
    let answer (kind : Nat) (req' data : List Byte) (t : State) : Prop :=
      let body := Config.spdmBody kind (req' ++ data) ++ data
      others t ∧ t.outbox = s.outbox ++ [.spdm box kind body] ∧ (t.spdmOf box).transcript = spdm.transcript ++ req' ++ body
    let signed (kind : Nat) (data : List Byte) (t : State) : Prop :=
      let body := Config.spdmBody kind (req ++ data) ++ data
      let h := leBytes 48 (Config.sha384 (spdm.transcript ++ req ++ body)).toNat
      let all := body ++ signatures h
      others t ∧ t.outbox = s.outbox ++ [.spdm box kind all] ∧ (t.spdmOf box).transcript = spdm.transcript ++ req ++ all
    -- correctable errors
    (((u.code, ix) ∈ s.retired) → Completes (.correctableError u ix none) s (fun t => t = s)) ∧
    (((u.code, ix) ∉ s.retired) → Completes (.correctableError u ix at_) s (fun t => count t = (s.errWindow u ix, n + 1) ∧
      (u = .pane → n + 1 ≠ 4 → ∀ l, at_ = some l → ∀ y ∈ t.lines, y.die = ix / 1024 → y.pane = ix % 1024 → y.line / 64 ≤ l →
        l < (y.line + y.size) / 64 → y.dirty = 0 → y.data = s.memBytes y.line y.size) ∧
      (n + 1 ≠ 4 ∨ u = .nearCache → t.retired = s.retired ∧ t.errlog = s.errlog) ∧
      (n + 1 = 4 → u ≠ .nearCache → (u.code, ix) ∈ t.retired ∧
        ∃ r ∈ t.errlog, r.getD 0 0 = BitVec.ofNat 64 (u.code * 2 ^ 48 + 0xFF * 2 ^ 40 + ix)))) ∧
    Completes (.errorWindowBoundary u ix) s (fun t => t = { s with errs := t.errs } ∧ t.errCount u ix = n ∧
      ((count s).1 = s.errWindow u ix → t = s) ∧ ((count s).1 ≠ s.errWindow u ix → count t = (s.errWindow u ix, 0)) ∧
      ∀ k, k ≠ errKey u ix → smGet (0, 0) t.errs k = smGet (0, 0) s.errs k) ∧
    -- uncorrectable errors
    ((s.potSettled f).stat = 0 → Completes (.uncorrectableError (.memLine line)) s (fun t => f ∈ t.withheld ∧ t.mem = s.mem)) ∧
    ((s.potSettled f).stat = 6 → Completes (.uncorrectableError (.memLine line)) s (fun t =>
      s.canon (line * 64) / 64 ∈ t.poison ∧ t.mem = s.mem)) ∧
    ((s.potSettled f).stat = 7 → Completes (.uncorrectableError (.memLine line)) s (fresh false)) ∧
    ((s.potSettled f).stat = 1 ∨ (s.potSettled f).stat = 2 ∨ (s.potSettled f).stat = 3 → s.framePart f = some p →
      Completes (.uncorrectableError (.memLine line)) s (ends p)) ∧
    (s.framePart f = some p → Completes (.uncorrectableError (.lanternLine line)) s (ends p)) ∧
    (s.framePart f = none → Completes (.uncorrectableError (.lanternLine line)) s (fun t =>
      t = { s with errlog := t.errlog, errTotal := s.errTotal + 1 })) ∧
    (e = (smGet {} (s.core ix).rows line).owner → (s.encl e).live = true →
      Completes (.uncorrectableError (.poolRow ix line)) s (ends (s.encl e).part)) ∧
    (s.portPart port = some p → Completes (.uncorrectableError (.fabricFlit port)) s (ends p) ∧
      (s.pkgid < 1536 → s.portUp port = true → Completes (.tuilosFlit port false) s (ends p))) ∧
    Completes (.uncorrectableError .packageUnit) s (fresh false) ∧
    Completes (.tuilosFlit port true) s (fun t => t = s) ∧
    (let k := smGet 0 s.linkRetry link
     Completes (.dieToDieFlit link true e) s (fun t => t = { s with linkRetry := t.linkRetry } ∧ smGet 0 t.linkRetry link = 0) ∧
     (k + 1 < 16 → Completes (.dieToDieFlit link false e) s (fun t =>
        t = { s with linkRetry := t.linkRetry } ∧ smGet 0 t.linkRetry link = k + 1)) ∧
     (16 ≤ k + 1 → (s.encl e).live = true → Completes (.dieToDieFlit link false e) s (ends (s.encl e).part)) ∧
     (16 ≤ k + 1 → (s.encl e).live = false → (s.encl e).making = none → Completes (.dieToDieFlit link false e) s (fresh false))) ∧
    -- power and boot
    (105 ≤ tx % 256 → Completes (.throttling pn tx) s (fresh true)) ∧
    (tx % 256 < 105 → Completes (.throttling pn tx) s (fun t => t = { s with pnow := pn % 2 ^ 16, tmax := tx % 256, thr := t.thr } ∧
      (t.thr = true ↔ s.plimit < pn % 2 ^ 16 ∨ 95 ≤ tx % 256))) ∧
    (105 ≤ tx → Completes (.thermalTrip die tx) s (fresh true)) ∧ (tx < 105 → Completes (.thermalTrip die tx) s (fun t => t = s)) ∧
    (let ok (k : Nat) : Prop := sigs.getD k (false, false) = (true, true) ∧ (k = 3 → trained = true)
     ((∀ k < 5, ok k) → Completes (.powerOn sigs trained frames) s (fun t => firmware frames t ∧
       t = { State.reset with
         fw := ⟨sigs, trained, frames⟩, pot := t.pot, fresh := s.fresh, outbox := s.outbox, seq := s.seq })) ∧
     ∀ j < 5, (∀ k < j, ok k) → ¬ok j → Completes (.powerOn sigs trained frames) s (fun t =>
       t.running = false ∧ t.boot = j ∧ t.harts = [] ∧ t.encs = [])) ∧
    (s.running = false → Completes (.recoveryMailboxRequest req) s (fun t => t = { s with outbox := s.outbox ++ [.mailbox] })) ∧
    (s.running = true → Completes (.recoveryMailboxRequest req) s (fun t => t = s)) ∧
    -- attestation
    Completes (.getVersion box req) s (fun t => others t ∧ t.outbox = s.outbox ++ [.spdm box 0 (Config.spdmBody 0 req)] ∧
      t.spdmOf box = { version := true, sessions := spdm.sessions, transcript := req ++ Config.spdmBody 0 req }) ∧
    (s.running = true →
      (spdm.version = true → spdm.caps = false →
        Completes (.getCapabilities box req) s (fun t => answer 1 req [] t ∧ (t.spdmOf box).caps = true)) ∧
      (spdm.version = false → Completes (.getCapabilities box req) s err) ∧
      (spdm.caps = true → spdm.algs = false →
        Completes (.negotiateAlgorithms box req) s (fun t => answer 2 req [] t ∧ (t.spdmOf box).algs = true)) ∧
      (spdm.caps = false → Completes (.negotiateAlgorithms box req) s err) ∧
      (spdm.ready = false → Completes (.getDigests box req) s err ∧ Completes (.getCertificate box req) s err ∧
        Completes (.challenge box req) s err ∧ Completes (.getMeasurements box index e req) s err ∧
        Completes (.keyExchange box ss req) s err ∧ Completes (.finish box ss true) s err) ∧
      (spdm.ready = true → Completes (.getDigests box req) s (answer 3 req []) ∧
        Completes (.getCertificate box req) s (answer 4 req []) ∧ Completes (.challenge box req) s (signed 5 []) ∧
        (s.spdmMeas box index e = some m → Completes (.getMeasurements box index e req) s (signed 6 (leBytes 48 m.toNat))) ∧
        (s.spdmMeas box index e = none → Completes (.getMeasurements box index e req) s err) ∧
        ((∀ x ∈ spdm.sessions, x.1 ≠ ss) → Completes (.keyExchange box ss req) s (fun t => signed 7 [] t ∧
          (t.spdmOf box).sessions = spdm.sessions ++ [(ss, false)])) ∧
        ((ss, false) ∈ spdm.sessions →
          Completes (.finish box ss true) s (fun t => answer 8 [] [] t ∧ (ss, true) ∈ (t.spdmOf box).sessions) ∧
          Completes (.finish box ss false) s (fun t => ∀ x ∈ (t.spdmOf box).sessions, x.1 ≠ ss)) ∧
        ((ss, false) ∉ spdm.sessions → Completes (.finish box ss true) s err))) ∧
    ((s.encl e).live = true → s.spdmMeas box (0x40 + e % 64) e = if s.boxSees box e then some (s.encl e).meas else none)

/-! ### Fabric events (25 R407 to R421) -/

/-- 25 R405, R407, R408, R410 to R421, 26 R426 to R432, 11 R242: a stream binds when both signatures, the peer's MEAS and its own
window agree within the limit and opens the windows that wait for it, or fails with PEERFAIL; what goes out on a slot is sealed in flits of
up to 256 bytes under rising sequence numbers; a flit whose tag holds is accepted once, and the eighth discard in a row breaks the stream;
a message is acted upon where its flits have been accepted, and never by a package whose id is out of range; a put or get that arrives is
admitted by an OPEN window of the stream's enclave and slot or refused; TCNT rises as each put in flight reaches its ordering point; a
transfer that returns sets its tag, counts at its origin, releases its range lock and lowers CP; a window that closes leaves when its peer
acknowledges; a collective produces its result or ends for its members, with a status that another package brings too; Ultra Ethernet
packets whose tag holds land, reads are answered, and posts complete; host DMA reaches HOSTDMA windows only; CXL.mem reaches host frames
only; what is refused to a host is logged; a package that its boot has not released answers no host and takes no packet (27 R433). An
access that a release holds asks for the widening and comes again. An event whose condition does not hold changes nothing. The order of
the fields of a flit's key and nonce (log 52), the form of the host's log (log 53), the parties under which fabric and host accesses are
recorded (log 39), that a group's configuration comes with its attestation (log 72), the keys of Ultra Ethernet and IDE (log 73) and the
streams kept for the closings of ended enclaves (log 74) are the model's choice. -/
def Obligations.FabricEvents : Prop :=
  ∀ (s : State) (enc slot wid off len seq session grp k q n i pa status part nmemb : Nat) (create : Word) (data bs : List Byte) (w : FWin)
    (x : Xfer) (st v : Stream) (c : CGroup) (p : UePost) (g : Machine.Group) (f ed ml agreed : Bool) (meas : BitVec 384) (fl : Flit)
    (td : Tdi) (peer : BitVec 128) (pk : UePkt),
    let unchanged (t : State) : Prop := t = s
    let sends (m : Sent) (t : State) : Prop :=
      t = { s with outbox := s.outbox ++ [m], dies := t.dies, chans := t.chans, fresh := t.fresh }
    let posts (m : Sent) (t : State) : Prop := t = { s with outbox := s.outbox ++ [m] }
    let refused (m : Sent) (l : Nat × Nat) (t : State) : Prop :=
      t = { s with outbox := s.outbox ++ [m], hostLog := s.hostLog ++ [l] }
    let answers (z : State) (ds : List Byte) (m : List Flit → Sent) (t : State) : Prop :=
      let fs := (List.range (max 1 (ceilDiv ds.length 256))).map fun j =>
        sealFlit (v.keyOut slot) slot (v.sent + j) ((ds.drop (256 * j)).take 256)
      t = { z with outbox := z.outbox ++ [m fs] }.putStream slot { v with sent := v.sent + fs.length }
    let asks (ls : List (Nat × Nat)) (y : Party) (t : State) : Prop := t = s.linesAsk ls y ∧ t = { s with dies := t.dies }
    let stream (t : State) : Option Stream := smFind (t.encl enc).streams slot
    let noWin (a : Nat) (t : State) : Prop := ∀ y ∈ t.fwins, y.wid ≠ a
    let told (a : Word) (t : State) : Prop := ∃ g', t.group i = some g' ∧ (g'.path f).result = some a
    let bind : Instr := .streamBinding enc slot ed ml meas agreed session create
    let only : Prop := ∀ d ∈ s.dead, d.1 ≠ slot ∨ d.2.own ≠ enc
    -- what a package hears
    (1536 ≤ s.pkgid → s.hears enc slot data = none ∧ s.hearsOwn enc slot none data = none) ∧
    (s.hears enc slot data = none → Completes (.putArrival wid off enc slot data) s unchanged) ∧
    (s.hears enc slot [] = none → Completes (.getArrival wid off len enc slot) s unchanged ∧
      Completes (.closeNotice enc slot wid) s unchanged) ∧
    (s.hears enc slot [] = some v →
      (let named : Prop := ∃ y ∈ s.xfers, handlePkg y.handle = v.peerPkg ∧ handleWid y.handle = wid
       (¬named → Completes (.closeNotice enc slot wid) s (answers s [] (.noticeAck wid))) ∧
       (named → Completes (.closeNotice enc slot wid) s unchanged))) ∧
    -- streams
    (stream s = none → Completes bind s unchanged ∧ Completes (.streamBindingTimeout enc slot) s unchanged ∧
      (only → Completes (.streamFlitReceive enc slot fl) s unchanged)) ∧
    (1536 ≤ s.pkgid → Completes (.streamFlitReceive enc slot fl) s unchanged ∧ Completes bind s unchanged) ∧
    (stream s = some st →
      (st.bound = true → Completes bind s unchanged ∧ Completes (.streamBindingTimeout enc slot) s unchanged) ∧
      (s.fabClock < st.started + 2 ^ 31 → Completes (.streamBindingTimeout enc slot) s unchanged) ∧
      (st.bound = false →
        (let fails (t : State) : Prop := stream t = none ∧ t.mem = s.mem ∧ (∀ y ∈ s.waitingOn enc slot, noWin y.wid t) ∧
           (s.waitingOn enc slot = [w] → w.opener = some (i, f) → s.group i = some g → g.gid = i → told (BitVec.ofNat 64 (2 ^ 63 + 4)) t)
         let binds (cr : Word) (t : State) : Prop :=
           stream t = some { st with bound := true, session := session, peerCreate := cr } ∧
           (s.waitingOn enc slot = [w] → w.opener = some (i, f) → w.stat = .opening → descColl w.desc = false → s.group i = some g →
             g.gid = i → told (s.handleOf w) t ∧ ∃ y, t.fwin w.wid = some y ∧ y.stat = .opened ∧ y.opener = none)
         let y := s.encl st.peerEnc
         (st.started + 2 ^ 31 ≤ s.fabClock → Completes (.streamBindingTimeout enc slot) s fails) ∧
         (s.pkgid < 1536 →
           (st.started + 2 ^ 31 ≤ s.fabClock ∨ ed = false ∨ ml = false → Completes bind s fails) ∧
           (s.fabClock < st.started + 2 ^ 31 → ed = true → ml = true →
             (st.peerPkg = s.pkgid → (y.live = false → Completes bind s unchanged) ∧
               (y.live = true → y.meas ≠ st.meas → Completes bind s fails) ∧
               (y.live = true → y.meas = st.meas → s.peerAgrees enc slot st = false → Completes bind s unchanged) ∧
               (y.live = true → y.meas = st.meas → s.peerAgrees enc slot st = true → Completes bind s (binds y.create))) ∧
             (st.peerPkg ≠ s.pkgid → (meas ≠ st.meas → Completes bind s fails) ∧
               (meas = st.meas → agreed = false → Completes bind s unchanged) ∧
               (meas = st.meas → agreed = true → Completes bind s (binds create)))))) ∧
        (only → Completes (.streamFlitReceive enc slot fl) s unchanged)) ∧
      (st.bound = true → s.pkgid < 1536 → only → st.own = enc →
        (fl.seq ∉ st.accepted → (∀ a ∈ st.accepted, a ≤ fl.seq + 1024) → openFlit (st.keyIn slot) slot fl = some bs →
          Completes (.streamFlitReceive enc slot fl) s (fun t => t = { s with encs := t.encs } ∧ ∃ u, stream t = some u ∧
            fl.seq ∈ u.accepted ∧ u.discards = 0 ∧ u.broken = st.broken ∧ u.inbox = st.inbox ++ [(fl.seq, bs)])) ∧
        (openFlit (st.keyIn slot) slot fl = none ∨ fl.seq ∈ st.accepted ∨ (∃ a ∈ st.accepted, fl.seq + 1024 < a) →
          Completes (.streamFlitReceive enc slot fl) s (fun t => (∃ u, stream t = some u ∧ u.accepted = st.accepted ∧ u.inbox = st.inbox ∧
              u.discards = st.discards + 1 ∧ u.broken = (st.broken || decide (8 ≤ st.discards + 1))) ∧
            (st.discards < 7 → t = { s with encs := t.encs }))))) ∧
    -- arrivals at a window
    (s.running = false → Completes (.uePacket wid off peer pk) s unchanged ∧ Completes (.hostDma n wid off f data) s unchanged ∧
      Completes (.cxlMemAccess f pa data) s unchanged ∧ ∀ op, Completes (.tdispRequest op q enc n) s unchanged) ∧
    (s.fwin wid = none →
      (s.hears enc slot data = some v → Completes (.putArrival wid off enc slot data) s (answers s [] (.ack wid false))) ∧
      (s.hears enc slot [] = some v → Completes (.getArrival wid off len enc slot) s (answers s [] (.ack wid false))) ∧
      Completes (.tcntIncrement wid) s unchanged ∧ Completes (.closeAcknowledgement wid) s unchanged ∧
      (s.running = true → Completes (.uePacket wid off peer pk) s (posts (.ueRefused wid)) ∧
        Completes (.hostDma n wid off f data) s (refused (.dmaAbort n) (2, n)))) ∧
    (s.fwin wid = some w →
      (let mine : Prop := w.stat = .opened ∧ w.enc = v.own ∧ (s.encl w.enc).create = v.ownCreate ∧ descStreamed w.desc = true ∧
         descStream w.desc = slot
       let placed (kind : Nat) (ds : List Byte) (t : State) : Prop :=
         t.fwin wid = some { w with flight := w.flight ++ [kind] } ∧ t.outbox = s.outbox ∧
         (descLocal w.desc = true → t.mem = s.mem ∧ (∀ d, d ≠ w.core → t.core d = s.core d) ∧
           (∀ o, (∀ j < ds.length, w.poolByte (off + j) ≠ o) → memByte (t.core w.core).pool o = memByte (s.core w.core).pool o) ∧
           (((addrs off ds.length).map w.poolByte).Nodup →
             ∀ j b, ds[j]? = some b → memByte (t.core w.core).pool (w.poolByte (off + j)) = b)) ∧
         (descLocal w.desc = false → t.cores = s.cores)
       let ls := s.winLines w off data.length
       let gl := s.winLines w off len
       (s.hears enc slot data = some v →
         (mine → w.puts = true → off + data.length ≤ w.ext →
           (s.linesHeld ls .remote = false → Completes (.putArrival wid off enc slot data) s (placed 1 data)) ∧
           (s.linesHeld ls .remote = true → Completes (.putArrival wid off enc slot data) s (asks ls .remote))) ∧
         (¬(mine ∧ w.puts = true ∧ off + data.length ≤ w.ext) →
           Completes (.putArrival wid off enc slot data) s (answers s [] (.ack wid false)))) ∧
       (s.hears enc slot [] = some v →
         (mine → w.gets = true → off + len ≤ w.ext → (s.winRead w off len).length = len ∧
           (s.linesHeld gl .remote = false → Completes (.getArrival wid off len enc slot) s
             (answers ((s.linesSee gl .remote).countWin w off len) (s.winRead w off len) (.ack wid true))) ∧
           (s.linesHeld gl .remote = true → Completes (.getArrival wid off len enc slot) s (asks gl .remote))) ∧
         (¬(mine ∧ w.gets = true ∧ off + len ≤ w.ext) →
           Completes (.getArrival wid off len enc slot) s (answers s [] (.ack wid false)))) ∧
       (s.running = true → s.ueOpen w.enc peer pk.f = none → Completes (.uePacket wid off peer pk) s unchanged) ∧
       (s.running = true → s.ueOpen w.enc peer pk.f = some bs →
         (let m := pk.read.getD bs.length
          let us := s.winLines w off m
          let ok : Prop := w.stat = .opened ∧ descUe w.desc = true ∧ bs.length ≤ 4096 ∧ m < 2 ^ 24 ∧ off + m ≤ w.ext
          (ok → s.linesHeld us .remote = false →
            (pk.read = none → pk.last = true → Completes (.uePacket wid off peer pk) s (placed 0 bs)) ∧
            (pk.read = none → pk.last = false → Completes (.uePacket wid off peer pk) s (fun t => t.fwins = s.fwins ∧ t.outbox = s.outbox)) ∧
            (pk.read = some m → Completes (.uePacket wid off peer pk) s (fun t => t.fwins = s.fwins ∧ t.mem = s.mem ∧ t.cores = s.cores ∧
              t.outbox = s.outbox ++ [.ueData wid off (s.uePackets w.enc peer (s.winRead w off m))]))) ∧
          (ok → s.linesHeld us .remote = true → Completes (.uePacket wid off peer pk) s (asks us .remote)) ∧
          (¬ok → Completes (.uePacket wid off peer pk) s (posts (.ueRefused wid))))) ∧
       (s.running = true → s.tdis = [(q, td)] → td.run = true → td.stream = some n →
         (let ok : Prop := f = true ∧ w.enc = td.enc ∧ w.stat = .opened ∧ w.dma = true ∧ off + data.length ≤ w.ext
          (ok → s.linesHeld ls .host = false → Completes (.hostDma n wid off f data) s (placed 0 data)) ∧
          (ok → s.linesHeld ls .host = true → Completes (.hostDma n wid off f data) s (asks ls .host)) ∧
          (¬ok → Completes (.hostDma n wid off f data) s (refused (.dmaAbort n) (2, n)))))) ∧
      (w.flight = [] → Completes (.tcntIncrement wid) s unchanged) ∧
      (∀ kind rest, w.flight = kind :: rest → Completes (.tcntIncrement wid) s (fun t =>
        t = { s with fwins := t.fwins, outbox := t.outbox, encs := t.encs, dead := t.dead } ∧
        t.fwin wid = some { w with flight := rest, tcnt := (w.tcnt + 1) % 2 ^ 48 } ∧
        (kind = 1 → s.pkgid < 1536 → w.ghost = none → (smFind (s.encl w.enc).streams (descStream w.desc)).isSome = true →
          ∃ fs, t.outbox = s.outbox ++ [.ack wid true fs]) ∧
        (kind ≠ 1 → t.outbox = s.outbox ∧ t.encs = s.encs ∧ t.dead = s.dead))) ∧
      (let heard := s.hearsOwn w.enc (descStream w.desc) w.ghost []
       (heard.isSome = true → w.stat = .closing → w.noticed = true → Completes (.closeAcknowledgement wid) s (noWin wid)) ∧
       (heard = none ∨ w.stat ≠ .closing ∨ w.noticed = false → Completes (.closeAcknowledgement wid) s unchanged))) ∧
    (s.running = true → (∀ y ∈ s.tdis, y.2.run = true → y.2.stream ≠ some n) →
      Completes (.hostDma n wid off f data) s (refused (.dmaAbort n) (2, n))) ∧
    -- the return of a transfer
    ((∀ y ∈ s.xfers, y.seq ≠ seq) → Completes (.transferAcknowledgement seq f data) s unchanged) ∧
    ((s.xfers.find? fun y => y.seq = seq) = some x →
      (let heard := s.hearsOwn x.enc x.slot x.ghost (if x.get ∧ f then data else [])
       (heard = none ∨ x.port ≠ 0 ∨ (x.get = true ∧ f = true ∧ data.length ≠ x.len) →
         Completes (.transferAcknowledgement seq f data) s unchanged) ∧
       (heard = some v → x.port = 0 → x.get = true → f = true → data.length = x.len → s.linesHeld (s.xferLines x) (.core x.core) = true →
         Completes (.transferAcknowledgement seq f data) s (asks (s.xferLines x) (.core x.core))) ∧
       (heard = some v → x.port = 0 →
         (x.get = true → f = true → data.length = x.len ∧ s.linesHeld (s.xferLines x) (.core x.core) = false) →
         (x.ghost.isSome = true → Completes (.transferAcknowledgement seq f data) s (fun t =>
           t = { s.putStream x.slot v with xfers := s.xfers.filter (fun y => y.seq ≠ seq) })) ∧
         (x.ghost = none → x.tag < 64 → Completes (.transferAcknowledgement seq f data) s (fun t =>
           t.xfers = s.xfers.filter (fun y => y.seq ≠ seq) ∧ t.outbox = s.outbox ∧
           (∀ j < 64, (t.core x.core).tagSet.getLsbD j = if j = x.tag then true else (s.core x.core).tagSet.getLsbD j) ∧
           (∀ j < 64, (t.core x.core).tagBusy.getLsbD j = if j = x.tag then false else (s.core x.core).tagBusy.getLsbD j) ∧
           (t.core x.core).locks = (s.core x.core).locks.filter (fun r => r.op ≠ x.id) ∧
           (∀ y, s.fwin x.wid = some y → t.fwin x.wid = some (if f then { y with ocnt := (y.ocnt + 1) % 2 ^ 48 }
             else { y with oerr := min (y.oerr + 1) (2 ^ 16 - 1) })) ∧
           (∀ h, s.group x.gid = some h → h.gid = x.gid → ∃ h', t.group x.gid = some h' ∧
             (h'.path x.pathF).cp = (h.path x.pathF).cp - 1 ∧ (∀ r, h'.sr r = h.sr r) ∧ (∀ r, h'.vr r = h.vr r)) ∧
           (x.get = false ∨ f = false → t.mem = s.mem ∧ ∀ d, (t.core d).pool = (s.core d).pool)))))) ∧
    -- collectives
    (∀ peers, s.findGroup grp = none ∨ 1536 ≤ s.pkgid → Completes (.collectiveResult grp k status peers) s unchanged) ∧
    (s.findGroup grp = none → Completes (.collectiveMemberGone grp n) s unchanged ∧
      (let z : CGroup := ⟨grp, part, nmemb, none, [], [], [], []⟩
       Completes (.switchEngineAttestation grp part nmemb none) s (fun t => t.findGroup grp = some z ∧ t = { s with cgroups := t.cgroups }) ∧
       Completes (.switchEngineAttestation grp part nmemb (some f)) s (fun t =>
         t.findGroup grp = some { z with attested := if f then some true else none }))) ∧
    (s.findGroup grp = some c →
      (let ended (a : Nat) (t : State) : Prop := ∃ c', t.findGroup grp = some c' ∧ smFind c'.ended k = some a ∧
          ∀ y ∈ c'.contribs, y.k ≠ k
       let cs := c.contribs.filter fun y => y.k = k
       let ls := cs.flatMap fun z => ((s.fwin z.wid).map fun u => s.winLines u z.off z.len).getD []
       ∀ (y : Contrib) (peers : List PeerPart) (xs : List (List Byte)), s.pkgid < 1536 →
         (let got (m : Nat) : Instr := .collectiveResult grp k m peers
          (status = 2 ∨ status = 4 ∨ status = 5 → smFind c.ended k = none → Completes (got status) s (ended status)) ∧
          (status = 1 ∨ status = 3 ∨ 5 < status → Completes (got status) s unchanged) ∧
          (cs = [] ∨ smFind c.ended k ≠ none ∨ (∃ z ∈ cs, s.contribReady z = false) ∨ (∃ z ∈ peers, partWhole z = false) →
            Completes (got 0) s unchanged) ∧
          (smFind c.ended k = none → (∀ z ∈ cs, s.contribReady z = true) → (∀ z ∈ peers, partWhole z = true) →
            (cs ≠ [] → s.linesHeld ls .remote = true → Completes (got 0) s (asks ls .remote)) ∧
            (cs.head? = some y → s.linesHeld ls .remote = false →
              (c.gone ≠ [] → Completes (got 0) s (ended 3)) ∧
              (c.gone = [] → (∃ z ∈ peers, y.agrees z = false) → Completes (got 0) s (ended 4)) ∧
              (c.gone = [] → (∀ z ∈ peers, y.agrees z = true) →
                (let all := rankBytes c.nmemb ((cs.map fun z => (z.rank, s.contribBytes z)) ++ peers.map fun z => (z.rank, z.bytes))
                 let flags := if y.bcast then 0 else
                   (collReduce (VTy.of (BitVec.ofNat 4 y.typ)) y.op (if y.typ = 7 then 8 else 4) y.len xs).2.toNat
                 (all = none → Completes (got 0) s unchanged) ∧
                 (all = some xs → Completes (got 0) s (fun t => ended (1 + flags * 2 ^ 8) t ∧
                   ∀ z ∈ cs, ∀ u, s.fwin z.wid = some u → u.tcnt < 2 ^ 48 → ∃ u', t.fwin z.wid = some u' ∧
                     u'.tcnt = (u.tcnt + (cs.filter fun a => a.wid = z.wid).length) % 2 ^ 48))))))) ∧
      Completes (.collectiveMemberGone grp n) s (fun t => ∃ c', t.findGroup grp = some c' ∧ n ∈ c'.gone ∧
        (∀ y ∈ c'.contribs, smFind c.ended y.k ≠ none) ∧
        ∀ y ∈ c.contribs, smFind c.ended y.k = none → smFind c'.ended y.k = some 3) ∧
      Completes (.switchEngineAttestation grp part nmemb none) s unchanged ∧
      Completes (.switchEngineAttestation grp part nmemb (some f)) s (fun t =>
        t.findGroup grp = some { c with attested := if f then some true else none } ∧
        (f = false → ∀ y ∈ s.fwins, y.opener.isSome = true → descColl y.desc = true → descGroup y.desc = grp → noWin y.wid t)))) ∧
    (∀ a b : List Byte, a.length = 4 → b.length = 4 →
      collReduce .i32 0 4 4 [a, b] = (leBytes 4 ((leNat a + leNat b) % 2 ^ 32), Flags.none)) ∧
    -- Ultra Ethernet
    (let u := smGet {} (s.encl enc).ue q
     (u.flight[k]? = none → Completes (.ueCompletion enc q k status data) s unchanged) ∧
     (u.flight[k]? = some p →
       (let read : Prop := status = 0 ∧ descDw p.desc 0 = 1
        let ls := ((s.fwin p.wid).map fun y => s.winLines y p.off data.length).getD []
        (read → data.length = descDw p.desc 2 → s.linesHeld ls .remote = true →
          Completes (.ueCompletion enc q k status data) s (asks ls .remote)) ∧
        (4 < status ∨ status = 1 ∨ (read ∧ data.length ≠ descDw p.desc 2) →
          Completes (.ueCompletion enc q k status data) s unchanged) ∧
        (status ≤ 4 → status ≠ 1 → (read → data.length = descDw p.desc 2 ∧ s.linesHeld ls .remote = false) →
          Completes (.ueCompletion enc q k status data) s (fun t =>
          smGet {} (t.encl enc).ue q = { u with flight := u.flight.eraseIdx k, done := u.done ++ [(p.id, status)] } ∧
          (¬read → t = { s with encs := t.encs })))))) ∧
    -- the host link
    (s.running = true →
      (let a := pa / 64 * 64
       let y := s.potOf (a / 4096)
       let ds := data.take 64
       let ours : Prop := y.owner = 0 ∧ (y.stat = 1 ∨ y.stat = 5) ∧ inMemory a = true
       (ours → s.linesHeld [(0xFF, a)] .host = true → Completes (.cxlMemAccess f pa data) s (asks [(0xFF, a)] .host)) ∧
       (ours → s.linesHeld [(0xFF, a)] .host = false → (s.coherent 0xFF a 64).length = 64 ∧
         Completes (.cxlMemAccess false pa data) s (sends (.cxl (s.coherent 0xFF a 64) false)) ∧
         Completes (.cxlMemAccess true pa data) s (fun t => t.outbox = s.outbox ∧ t.cores = s.cores ∧
           (s.serving 0xFF y.cls 0 a = .memory → (∀ z, s.home z = z ∧ s.canon z = z) →
             t.mem = memPutAll s.mem ((addrs a ds.length).zip ds)))) ∧
       (¬ours → Completes (.cxlMemAccess false pa data) s (refused (.cxl (List.replicate 64 0xFF#8) true) (0, a)) ∧
         Completes (.cxlMemAccess true pa data) s (refused (.cxl [] false) (1, a)))) ∧
      (let t0 : Tdi := (smFind s.tdis q).getD ⟨false, false, 0, none, 0⟩
       let becomes (a : Tdi) (t : State) : Prop := t = { s with tdis := t.tdis, fresh := t.fresh } ∧
         (a.stream = t0.stream ∨ a.stream = none → t.fresh = s.fresh) ∧ ∀ j, smFind t.tdis j = if j = q then some a else smFind s.tdis j
       (t0.run = false → Completes (.tdispRequest .lock q enc n) s (becomes { t0 with locked := true })) ∧
       (t0.run = true → Completes (.tdispRequest .lock q enc n) s unchanged) ∧
       (t0.locked = true → Completes (.tdispRequest .start q enc n) s (becomes { t0 with run := true })) ∧
       (t0.locked = false → Completes (.tdispRequest .start q enc n) s unchanged) ∧
       Completes (.tdispRequest .stop q enc n) s (becomes ⟨false, false, 0, none, 0⟩) ∧
       (t0.run = true → n < 256 → (s.encl enc).live = true → (∀ z ∈ s.tdis, z.2.stream ≠ some n) →
         Completes (.tdispRequest .bindStream q enc n) s (fun t => t.fresh = s.fresh + 1 ∧
           becomes { t0 with enc := enc, stream := some n, key := Config.ideKey s.fresh } t)) ∧
       (t0.run = false ∨ 256 ≤ n ∨ (s.encl enc).live = false ∨ (∃ z ∈ s.tdis, z.2.stream = some n) →
         Completes (.tdispRequest .bindStream q enc n) s unchanged) ∧
       (t0.stream = some n → Completes (.tdispRequest .unbindStream q enc n) s (becomes { t0 with enc := 0, stream := none, key := 0 })) ∧
       (t0.stream ≠ some n → Completes (.tdispRequest .unbindStream q enc n) s unchanged)))

/-! ### A step, reset and the encoding (01 R15 to R23; 02 R46, R47; 27 R433) -/

/-- 01 R15 to R17, R19, R22 to R24, 02 R46, R47, 05 R109, R113: a step runs the instruction that the word about to issue decodes to in its
clause's class, in the state after the word's fetch and a due SYNC packet; where the near cache holds the line, these change only the core's
own caches and trace unit, the replacement order of the die's translations and the walks that fetches waited for. A word that decodes to
nothing faults ILLEGAL_INSTRUCTION, a transfer that is not its clause's last word ILLEGAL_CLAUSE, and a 25th word of a run ILLEGAL_RUN, each
with the word's address (17 R437); a vector word holds its slot while its pipe is taken; a header's waits hold its first word; an event on the agenda runs at once, and a hart's Xlmenc word runs as it decodes, or resets the
partition where its fetch meets a poisoned line (17 R330). Which of these moves next is the model's choice (log 2), and so is the place of the comparator match and of the pipe among the checks (log 32). -/
def Obligations.StepRunsDecoded : Prop :=
  ∀ (s : State) (h : Header) (hw w : W32) (i : Instr) (rest : List Instr) (pas : List Nat) (b : Bool),
    let got := s.fetched s.g s.wordAddr.toNat
    let u : State := (if s.g.syncDue = true ∧ got.traces s.g = true then
      (got.emitPacket s.g (syncPacket s.g)).modG (fun g => { g with syncDue := false }) else got).modG fun g =>
        { g with wordAt := (s.g.p.pc, s.g.p.cwi + 1) }
    let hart := { s with focus := .none, hartLast := true }.hartFetched
    let piped : Prop := isVector h.cls w = true → got.pipeFree = true
    let lasts : Prop := mustBeLast i = true → s.g.p.cwi + 1 = h.n
    -- a word of a group
    (WordDue s h w → decode h.cls w = some i → lasts → piped → step s = exec i u) ∧
    (WordDue s h w → decode h.cls w = some i → lasts → ¬piped →
      ∃ t, step s = .next t ∧ t = got.hold leafPipe ∧ t.held = true ∧ t.g.p.pc = s.g.p.pc ∧ t.g.p.cwi = s.g.p.cwi) ∧
    (WordDue s h w → decode h.cls w = some i → ¬lasts → ∃ t, step s = .next t ∧ Faults got .illegalClause s.wordAddr t) ∧
    (WordDue s h w → decode h.cls w = none → ∃ t, step s = .next t ∧ Faults got .illegalInstruction s.wordAddr t) ∧
    (s.g.gid ≠ 0 → s.farCheck s.g s.wordAddr.toNat 4 .fetch none = .ok pas b → s.portCount s.g.core s.g.enc true (pas.take 1) = 0 →
      u = { s with
        cores := u.cores, dies := u.dies
        g := { s.g with fetchAt := none, syncDue := s.g.syncDue && !s.traces s.g, wordAt := (s.g.p.pc, s.g.p.cwi + 1) } } ∧
      (∀ d, u.die d = { s.die d with walks := (u.die d).walks, llt := (u.die d).llt } ∧
        ∀ x ∈ (s.die d).walks, x.gid ≠ s.g.gid ∨ x.kind ≠ .fetch → x ∈ (u.die d).walks) ∧
      ∀ c, (u.core c).pool = (s.core c).pool ∧ (u.core c).tagSet = (s.core c).tagSet ∧ (u.core c).rows = (s.core c).rows) ∧
    (s.agenda = [] → s.running = true → (∃ c x, s.focus = .slot c x) → s.held = false → s.slotBehind = none → s.g.runOver = false →
      (s.g.header = some h → s.g.p.cwi < h.n → s.g.rc = 24 →
        ∃ t, step s = .next t ∧ Faults s .illegalRun s.wordAddr t) ∧
      (s.g.header = some h → h.n ≤ s.g.p.cwi → ∃ t, step s = .next t ∧ t = { s with g := t.g } ∧ t.g.p.pc = s.g.nextHeader ∧
        t.g.p.cwi = 0 ∧ t.g.p.hdr = none) ∧
      -- a header
      (s.g.p.hdr = none → s.g.p.pc.toNat % 4 ≠ 0 → ∃ t, step s = .next t ∧ t.g.stat = .halted ∧ t.g.p.pc = s.g.p.pc) ∧
      (s.g.p.hdr = none → s.g.p.pc.toNat % 4 = 0 → s.fetchWord s.g s.g.p.pc.toNat = .word hw →
        (decodeHeader hw = none → ∃ t, step s = .next t ∧ t.g.stat = .halted ∧ t.g.p.pc = s.g.p.pc) ∧
        (decodeHeader hw = some h → waitsPass h s.g.p = false →
          ∃ t, step s = .next t ∧ t.held = true ∧ t.g.p.pc = s.g.p.pc ∧ t.g.p.hdr = none) ∧
        (decodeHeader hw = some h → waitsPass h s.g.p = true →
          (let u := s.fetched s.g s.g.p.pc.toNat
           let u : State := u.modG fun g => g.modP fun p => { p with hdr := some hw }
           step s = match u.readyWord with | .other t => .next t | .issue j t => exec j t)))) ∧
    (s.farCheck s.g s.wordAddr.toNat 4 .fetch none = .ok pas b → s.portCount s.g.core s.g.enc true pas = 0 →
      s.fetchWord s.g s.wordAddr.toNat = .word (BitVec.ofNat 32 (leNat (pas.map (s.codeByte s.g))))) ∧
    (let wait (n k : Nat) : Bool := n = 7 || k ≤ n
     ∀ p : PathState, waitsPass h p = (wait h.wl p.ld && wait h.ws p.st && wait h.wc p.cp && wait h.wt p.tl)) ∧
    -- a hart, and the agenda
    (s.agenda = [] → s.running = true → s.held = false → s.focus = .hart →
      (hart.fetchPoisoned = none → hart.hartFetch = .ok w → decode .xlm w = some i → step s = exec i hart) ∧
      (∀ q, hart.fetchPoisoned = some q → step s = .next (hart.partitionReset q))) ∧
    (s.agenda = i :: rest → step s = exec i { s with agenda := rest })

/-- 27 R433 with 00 R4, 01 R13, 09 R205, 10 R217, 14 R290, 19 R351, R354, R357, 25 R406, 27 Table 27.3: after a reset the package has
booted, every byte of memory and of the pools is zero and every frame free, no enclave, class, partition or interface is VALID, the
metering and power registers hold their reset values, every tag is IDLE, and hart 0 alone is released, in M-mode. The clause on the place
where hart 0 starts names a value of Config that the spec leaves open (log 1); that no frame is in state firmware is the model's (log 3). -/
def Obligations.ResetState : Prop :=
  let s := State.reset
  s.running = true ∧ s.boot = 7 ∧ s.focus = .none ∧ s.agenda = [] ∧
  (∀ a, memByte s.mem a = 0) ∧ (∀ c a, memByte (s.core c).pool a = 0) ∧
  (∀ f, (s.potOf f).stat = 0 ∧ (s.potOf f).owner = 0 ∧ (s.potOf f).leases = 0) ∧
  (∀ j, smGet 0 s.mmt j = 0) ∧ s.lines = [] ∧ (∀ p c, s.classDef p c = none) ∧
  (∀ e, (s.encl e).live = false) ∧ s.allGroups = [] ∧ s.tasks = [] ∧ s.teams = [] ∧ s.fwins = [] ∧ s.xfers = [] ∧
  (∀ c, (s.core c).tagSet = 0 ∧ (s.core c).tagBusy = 0 ∧ (s.core c).rows = [] ∧ (s.core c).wins = [] ∧ (s.core c).locks = [] ∧
    (s.core c).copies = [] ∧ (s.core c).tileq = [] ∧ (s.core c).buckets = [] ∧ (s.core c).bank.holder = none ∧
    (s.core c).trace.holder = none) ∧
  (∀ d, (s.die d).coreTokens = 1024 ∧ (s.die d).svt = []) ∧ s.fabTokens = 8192 ∧
  (∀ p, (s.part p).valid = false) ∧ (∀ v, (s.vi v).valid = false ∧ (s.vi v).part = 0xFF ∧ (s.vi v).share = 0) ∧
  s.plimit = 3200 ∧ s.pnow = 0 ∧ s.tmax = 0 ∧ s.trip = false ∧ s.thr = false ∧ s.pkgidSet = false ∧ s.errlog = [] ∧
  s.dead = [] ∧ s.errTotal = 0 ∧ (∀ h, (s.hart h).released = decide (h = 0)) ∧ (s.hart 0).mode = .m ∧ (s.hart 0).pc = Config.hubResetVector

/-- 01 R15, 04 R93, R101, R103, 05 worked example, 06 R149, R158, 07 R164, 13 R281, 15 R302, 20 R362, 21 R381, 26 R423: sample words of
the spec decode to the instructions beside them. -/
def Obligations.DecodeWords : Prop :=
  decode .sv 0x3022AF37#32 = some (.sLi 4 0x2AF37) ∧
  decode .sv 0x4428CF01#32 = some (.sFcvt 5 6 3 6 0 1) ∧
  decode .sv 0x5A084189#32 = some (.sFma 1 1 1 2 3 4 1) ∧
  decode .sv 0x66100000#32 = some (.loop 2 0) ∧
  decode .sv 0xBC502102#32 = some (.vCmp 10 1 2 0 2) ∧
  decode .sv 0xC8412517#32 = some (.vFmaBf16x2 8 9 10 11 1) ∧
  decode .mem 0x02188403#32 = some (.lLdsN 3 4 1 3) ∧
  decode .mem 0x9228C390#32 = some (.aCasD 5 6 7 8) ∧
  decode .sync 0x18000FF8#32 = some (.wait 7 7 7 0) ∧
  decode .eng 0x28504317#32 = some (.mmRdScale 10 2 6 11) ∧
  decode .fab 0x0C18C3B0#32 = some (.collAr 3 6 7 6 0) ∧
  decode .sys 0x10188000#32 = some (.ctrRd 3 4) ∧
  decode .xlm 0x00C5B52B#32 = some (.encRep 12 11 10) ∧
  decode .sv 0x80000038#32 = none ∧ decode .sync 0x12000001#32 = none

/-- 02 R46 and the tables of 02 and 20: every instruction that has a word of its own and whose operands lie in their sets is what its word
decodes to in its class; of the others, an event has no word, and the three uses of ctr.cfg have ctr.cfg's. -/
def Obligations.EncodeDecode : Prop :=
  ∀ i : Instr,
    (i.ownWord = true → i.wellFormed = true → ∃ w, encode i = some w ∧ decode i.cls w = some i) ∧
    (i.cls = .event ↔ encode i = none) ∧
    ∀ a b, encode (.debugResume a b) = encode (.ctrCfg a b) ∧ encode (.release a b) = encode (.ctrCfg a b) ∧
      encode (.replayArm a b) = encode (.ctrCfg a b)

/-- 27 R433 step 6, 01 R11, 05 R138: every step from a state with `Canonical` that answers a next state answers one with `Canonical`: memory,
cores and harts keep their canonical form (the model's representation), and a group stands under its number. -/
def Obligations.StepKeepsCanonical : Prop := ∀ s t : State, Canonical s → step s = .next t → Canonical t

/-- 27 R433: the state after reset is canonical. -/
def Obligations.ResetCanonical : Prop := Canonical State.reset
end

