-- ==== Sys2Proof/Laws/Access.lean ====
section
/-! SUPPORT. What the shared access operations answer: where an access passes, a word goes on with what it reached; a record or a
descriptor is read. -/

namespace Sys2Proof.Machine

/-- A far word of one piece that passes goes on with its physical bytes. -/
theorem withFar_ok {s : State} {a : Int} {len align : Nat} {k : Acc} {op : Option Atom} {pas : List Nat} {heap : Bool}
    (h : FarOk s a len align k op pas heap) (next : List (List Nat × Bool) → State → Out) :
    withFar (onePiece a) len align k op next s = next [(pas, heap)] (s.passedFar a len k heap) := by
  obtain ⟨h1, h2⟩ := h
  cases heap <;> simp [withFar, onePiece, farPass, h1, h2, State.passedFar]

/-- A record whose bytes pass, which no earlier load or release holds and which reads no poisoned line, is read as a load at that place reads. -/
theorem readsFar_of_farOk {s : State} {a : Int} {len align : Nat} {pas : List Nat} {heap : Bool}
    (h : FarOk s a len align .load none pas heap)
    (hh : (s.passedFar a len .load heap).loadHeld (s.passedFar a len .load heap).g
      ((s.passedFar a len .load heap).issueReq (s.passedFar a len .load heap).g pas) = none)
    (hd : (s.passedFar a len .load heap).g.loadDue
      ((s.passedFar a len .load heap).issueReq (s.passedFar a len .load heap).g pas) = true)
    (hp : (s.passedFar a len .load heap).poison = []) :
    ReadsFar s a len align ((s.passedFar a len .load heap).readNow (s.passedFar a len .load heap).g pas)
      (((s.passedFar a len .load heap).issueReq (s.passedFar a len .load heap).g pas).lines.foldl
        (fun u l => u.loadLine u.g
          ((s.passedFar a len .load heap).issueReq (s.passedFar a len .load heap).g pas) l)
        ((s.passedFar a len .load heap).setGroup ((s.passedFar a len .load heap).sawOf (s.passedFar a len .load heap).g
          ((s.passedFar a len .load heap).issueReq (s.passedFar a len .load heap).g pas)))) :=
  fun k => by
    rw [withRead, withFar_ok h]
    dsimp only
    rw [hh]
    simp [hp, hd]

/-- A local word of one piece that passes goes on with its access. -/
theorem withLocal_ok {s : State} {a : Int} {len align : Nat} {w : Bool} {x : LocalAcc} (h : LocalOk s a len align w x)
    (k : List LocalAcc → State → Out) : withLocal (onePiece a) len align w k s = k [x] s := by
  obtain ⟨h1, h2⟩ := h
  simp [withLocal, onePiece, localPass, h1, h2]

/-- A descriptor in the group's own rows that passes is read. -/
theorem readsDesc_of_localOk {s : State} {a : Word} {n : Nat} {x : LocalAcc} (i : isSelf a.toNat = true)
    (h : LocalOk s a.toNat n n false x) : ReadsDesc s a n (s.poolRead x) s :=
  fun k => by rw [withDesc, if_pos i, withLocal_ok h]

/-- A range in the group's own rows that passes goes on. -/
theorem withRange_self {s : State} {a len : Nat} {w : Bool} {x : LocalAcc} (i : isSelf a = true)
    (h : s.localCheck s.g a len 1 w = .ok x) (f : Bool → State → Out) : withRange a len w f s = f true s := by
  simp [withRange, i, h]

end Sys2Proof.Machine
end

