-- ==== Sys2Proof/Laws/SMap.lean ====
section
/-! SUPPORT. The laws of sparse maps and of memory: a read after a write to the same place gives the value written, a
write leaves every other place alone, and every operation keeps the canonical form. -/

namespace Sys2Proof.Machine

variable {α : Type}

/-! ### Reading after writing -/

@[simp] theorem smGet_nil (d : α) (n : Nat) : smGet d [] n = d := rfl
@[simp] theorem smFind_nil (n : Nat) : smFind ([] : SMap α) n = none := rfl

theorem smGet_smErase (d : α) (m : SMap α) (n k : Nat) : smGet d (smErase m n) k = if k = n then d else smGet d m k := by
  induction m with
  | nil => simp [smErase, smGet]
  | cons e m ih =>
    obtain ⟨x, v⟩ := e
    by_cases h : n = x
    · subst h
      by_cases hk : k = n
      · subst hk; simpa [smErase, smGet] using ih
      · simp [smErase, smGet, ih, hk]
    · by_cases hk : k = x
      · subst hk; simp [smErase, smGet, h, Ne.symm h]
      · simp [smErase, smGet, h, hk, ih]

theorem smGet_smIns_self (d : α) (m : SMap α) (n : Nat) (v : α) (h : ∀ e ∈ m, e.1 ≠ n) : smGet d (smIns n v m) n = v := by
  induction m with
  | nil => simp [smIns, smGet]
  | cons e m ih =>
    obtain ⟨x, w⟩ := e
    have hx : n ≠ x := fun hh => h (x, w) (by simp) hh.symm
    have ih' := ih fun e he => h e (by simp [he])
    by_cases hlt : n < x <;> simp [smIns, smGet, hlt, hx, ih']

theorem smGet_smIns_ne (d : α) (m : SMap α) (n : Nat) (v : α) (k : Nat) (hk : k ≠ n) :
    smGet d (smIns n v m) k = smGet d m k := by
  induction m with
  | nil => simp [smIns, smGet, hk]
  | cons e m ih =>
    obtain ⟨x, w⟩ := e
    by_cases hlt : n < x <;> by_cases hx : k = x <;> simp [smIns, smGet, hlt, hx, hk, ih]
    all_goals (subst hx; simp [hk])

theorem smErase_keys (m : SMap α) (n : Nat) : ∀ e ∈ smErase m n, e.1 ≠ n := by
  induction m with
  | nil => simp [smErase]
  | cons e m ih =>
    obtain ⟨x, w⟩ := e
    by_cases h : n = x
    · rw [smErase, if_pos h]; exact ih
    · intro e he
      rw [smErase, if_neg h] at he
      rcases List.mem_cons.1 he with rfl | he
      · exact fun hh => h hh.symm
      · exact ih e he

theorem smGet_smPut (d : α) (m : SMap α) (n : Nat) (v : α) (k : Nat) :
    smGet d (smPut m n v) k = if k = n then v else smGet d m k := by
  by_cases hk : k = n
  · subst hk; simp [smPut, smGet_smIns_self d _ k v (smErase_keys m k)]
  · simp [smPut, smGet_smIns_ne d _ n v k hk, smGet_smErase, hk]

/-- A read after a write: the value at the key, every other key as before. -/
theorem smGet_smSet [DecidableEq α] (d : α) (m : SMap α) (n : Nat) (v : α) (k : Nat) :
    smGet d (smSet d m n v) k = if k = n then v else smGet d m k := by
  unfold smSet
  split
  · next h => simp [smGet_smErase, h]
  · exact smGet_smPut d m n v k

@[simp] theorem smGet_smSet_self [DecidableEq α] (d : α) (m : SMap α) (n : Nat) (v : α) :
    smGet d (smSet d m n v) n = v := by simp [smGet_smSet]
theorem smGet_smSet_ne [DecidableEq α] (d : α) (m : SMap α) (n : Nat) (v : α) {k : Nat} (h : k ≠ n) :
    smGet d (smSet d m n v) k = smGet d m k := by simp [smGet_smSet, h]

theorem smFind_smErase (m : SMap α) (n k : Nat) : smFind (smErase m n) k = if k = n then none else smFind m k := by
  induction m with
  | nil => simp [smErase]
  | cons e m ih =>
    obtain ⟨x, v⟩ := e
    by_cases h : n = x
    · subst h
      by_cases hk : k = n
      · subst hk; simpa [smErase, smFind] using ih
      · simp [smErase, smFind, ih, hk]
    · by_cases hk : k = x
      · subst hk; simp [smErase, smFind, h, Ne.symm h]
      · simp [smErase, smFind, h, hk, ih]

theorem smFind_smIns_self (m : SMap α) (n : Nat) (v : α) (h : ∀ e ∈ m, e.1 ≠ n) : smFind (smIns n v m) n = some v := by
  induction m with
  | nil => simp [smIns, smFind]
  | cons e m ih =>
    obtain ⟨x, w⟩ := e
    have hx : n ≠ x := fun hh => h (x, w) (by simp) hh.symm
    have ih' := ih fun e he => h e (by simp [he])
    by_cases hlt : n < x <;> simp [smIns, smFind, hlt, hx, ih']

theorem smFind_smIns_ne (m : SMap α) (n : Nat) (v : α) (k : Nat) (hk : k ≠ n) :
    smFind (smIns n v m) k = smFind m k := by
  induction m with
  | nil => simp [smIns, smFind, hk]
  | cons e m ih =>
    obtain ⟨x, w⟩ := e
    by_cases hlt : n < x <;> by_cases hx : k = x <;> simp [smIns, smFind, hlt, hx, hk, ih]
    all_goals (subst hx; simp [hk])

/-- The entry found after one is listed. -/
theorem smFind_smPut (m : SMap α) (n : Nat) (v : α) (k : Nat) :
    smFind (smPut m n v) k = if k = n then some v else smFind m k := by
  by_cases hk : k = n
  · subst hk; simp [smPut, smFind_smIns_self _ k v (smErase_keys m k)]
  · simp [smPut, smFind_smIns_ne _ n v k hk, smFind_smErase, hk]

/-! ### The canonical form -/

theorem smWfFrom_mono [DecidableEq α] (d : α) {a b : Nat} (h : b ≤ a) {m : SMap α} (hm : smWfFrom d a m = true) :
    smWfFrom d b m = true := by
  cases m with
  | nil => rfl
  | cons e m =>
    obtain ⟨x, v⟩ := e
    simp only [smWfFrom, Bool.and_eq_true, decide_eq_true_eq] at *
    exact ⟨⟨by omega, hm.1.2⟩, hm.2⟩

theorem smWfFrom_smErase [DecidableEq α] (d : α) (n : Nat) (m : SMap α) :
    ∀ b, smWfFrom d b m = true → smWfFrom d b (smErase m n) = true := by
  induction m with
  | nil => intro b _; rfl
  | cons e m ih =>
    obtain ⟨x, v⟩ := e
    intro b h
    simp only [smWfFrom, Bool.and_eq_true, decide_eq_true_eq] at h
    by_cases hn : n = x
    · rw [smErase, if_pos hn]; exact smWfFrom_mono d (by omega) (ih (x + 1) h.2)
    · rw [smErase, if_neg hn]
      simp only [smWfFrom, Bool.and_eq_true, decide_eq_true_eq]
      exact ⟨h.1, ih (x + 1) h.2⟩

theorem smWfFrom_smIns [DecidableEq α] (d : α) (n : Nat) (v : α) (hv : v ≠ d) (m : SMap α) :
    ∀ b, b ≤ n → (∀ e ∈ m, e.1 ≠ n) → smWfFrom d b m = true → smWfFrom d b (smIns n v m) = true := by
  induction m with
  | nil => intro b hb _ _; simp [smIns, smWfFrom, hb, hv]
  | cons e m ih =>
    obtain ⟨x, w⟩ := e
    intro b hb hne h
    have hx : x ≠ n := hne (x, w) (by simp)
    simp only [smWfFrom, Bool.and_eq_true, decide_eq_true_eq] at h
    by_cases hlt : n < x
    · rw [smIns, if_pos hlt]
      simp only [smWfFrom, Bool.and_eq_true, decide_eq_true_eq]
      exact ⟨⟨hb, hv⟩, ⟨⟨by omega, h.1.2⟩, h.2⟩⟩
    · rw [smIns, if_neg hlt]
      simp only [smWfFrom, Bool.and_eq_true, decide_eq_true_eq]
      exact ⟨h.1, ih (x + 1) (by omega) (fun e he => hne e (by simp [he])) h.2⟩

theorem smWf_smErase [DecidableEq α] (d : α) (m : SMap α) (n : Nat) (h : smWf d m = true) : smWf d (smErase m n) = true :=
  smWfFrom_smErase d n m 0 h

theorem smWf_smPut [DecidableEq α] (d : α) (m : SMap α) (n : Nat) (v : α) (hv : v ≠ d) (h : smWf d m = true) :
    smWf d (smPut m n v) = true :=
  smWfFrom_smIns d n v hv _ 0 (Nat.zero_le n) (smErase_keys m n) (smWf_smErase d m n h)

/-- A write keeps the canonical form. -/
theorem smWf_smSet [DecidableEq α] (d : α) (m : SMap α) (n : Nat) (v : α) (h : smWf d m = true) :
    smWf d (smSet d m n v) = true := by
  unfold smSet
  split
  · exact smWf_smErase d m n h
  · next hv => exact smWf_smPut d m n v hv h

theorem smWf_smSetAll [DecidableEq α] (d : α) (ws : List (Nat × α)) :
    ∀ m : SMap α, smWf d m = true → smWf d (smSetAll d m ws) = true := by
  induction ws with
  | nil => intro m h; exact h
  | cons w ws ih => intro m h; exact ih _ (smWf_smSet d m w.1 w.2 h)

theorem smGet_smSetAll_of_not_mem [DecidableEq α] (d : α) (ws : List (Nat × α)) (k : Nat) :
    ∀ m : SMap α, (∀ w ∈ ws, w.1 ≠ k) → smGet d (smSetAll d m ws) k = smGet d m k := by
  induction ws with
  | nil => intro m _; rfl
  | cons w ws ih =>
    intro m h
    have h1 := ih (smSet d m w.1 w.2) fun x hx => h x (by simp [hx])
    have h2 : k ≠ w.1 := fun hh => h w (by simp) hh.symm
    exact h1.trans (smGet_smSet_ne d m w.1 w.2 h2)

/-! ### Memory -/

/-- Writing one byte keeps memory canonical. -/
theorem memPut_wf (m : List Host.Cell) (a : Nat) (b : Byte) (h : Memory.wf m = true) : Memory.wf (memPut m a b) = true :=
  smWf_smSet (0#8) m a b h
/-- Writing bytes keeps memory canonical. -/
theorem memPutAll_wf (m : List Host.Cell) (ws : List (Nat × Byte)) (h : Memory.wf m = true) :
    Memory.wf (memPutAll m ws) = true := smWf_smSetAll (0#8) ws m h
/-- A byte after a byte is written. -/
theorem memByte_memPut (m : List Host.Cell) (a : Nat) (b : Byte) (k : Nat) :
    memByte (memPut m a b) k = if k = a then b else memByte m k := smGet_smSet (0#8) m a b k
/-- A byte at none of the written addresses is unchanged. -/
theorem memByte_memPutAll_of_not_mem (m : List Host.Cell) (ws : List (Nat × Byte)) (k : Nat) (h : ∀ w ∈ ws, w.1 ≠ k) :
    memByte (memPutAll m ws) k = memByte m k := smGet_smSetAll_of_not_mem (0#8) ws k m h
/-- Reset memory is canonical. -/
theorem reset_mem_wf : Memory.wf State.reset.mem = true := rfl

end Sys2Proof.Machine
end

