-- ==== Sys2Proof/Laws/State.lean ====
section
/-! SUPPORT. One lemma per field per update of State, Group and PathState, each true by rfl, so that no proof unfolds a
record update. -/

namespace Sys2Proof.Machine

/-! ### State.modG -/

@[simp] theorem State.modG_g (s : State) (f : Group → Group) : (s.modG f).g = f s.g := rfl
@[simp] theorem State.modG_groups (s : State) (f : Group → Group) : (s.modG f).groups = s.groups := rfl
@[simp] theorem State.modG_focus (s : State) (f : Group → Group) : (s.modG f).focus = s.focus := rfl
@[simp] theorem State.modG_turn (s : State) (f : Group → Group) : (s.modG f).turn = s.turn := rfl
@[simp] theorem State.modG_hartLast (s : State) (f : Group → Group) : (s.modG f).hartLast = s.hartLast := rfl
@[simp] theorem State.modG_hartAt (s : State) (f : Group → Group) : (s.modG f).hartAt = s.hartAt := rfl
@[simp] theorem State.modG_agenda (s : State) (f : Group → Group) : (s.modG f).agenda = s.agenda := rfl
@[simp] theorem State.modG_held (s : State) (f : Group → Group) : (s.modG f).held = s.held := rfl
@[simp] theorem State.modG_fresh (s : State) (f : Group → Group) : (s.modG f).fresh = s.fresh := rfl
@[simp] theorem State.modG_outbox (s : State) (f : Group → Group) : (s.modG f).outbox = s.outbox := rfl
@[simp] theorem State.modG_seq (s : State) (f : Group → Group) : (s.modG f).seq = s.seq := rfl
@[simp] theorem State.modG_keys (s : State) (f : Group → Group) : (s.modG f).keys = s.keys := rfl
@[simp] theorem State.modG_viNamed (s : State) (f : Group → Group) : (s.modG f).viNamed = s.viNamed := rfl
@[simp] theorem State.modG_sconceCyc (s : State) (f : Group → Group) : (s.modG f).sconceCyc = s.sconceCyc := rfl
@[simp] theorem State.modG_hostLog (s : State) (f : Group → Group) : (s.modG f).hostLog = s.hostLog := rfl
@[simp] theorem State.modG_errTotal (s : State) (f : Group → Group) : (s.modG f).errTotal = s.errTotal := rfl
@[simp] theorem State.modG_dead (s : State) (f : Group → Group) : (s.modG f).dead = s.dead := rfl
@[simp] theorem State.modG_fw (s : State) (f : Group → Group) : (s.modG f).fw = s.fw := rfl
@[simp] theorem State.modG_cores (s : State) (f : Group → Group) : (s.modG f).cores = s.cores := rfl
@[simp] theorem State.modG_dies (s : State) (f : Group → Group) : (s.modG f).dies = s.dies := rfl
@[simp] theorem State.modG_bufs (s : State) (f : Group → Group) : (s.modG f).bufs = s.bufs := rfl
@[simp] theorem State.modG_mem (s : State) (f : Group → Group) : (s.modG f).mem = s.mem := rfl
@[simp] theorem State.modG_pot (s : State) (f : Group → Group) : (s.modG f).pot = s.pot := rfl
@[simp] theorem State.modG_mmt (s : State) (f : Group → Group) : (s.modG f).mmt = s.mmt := rfl
@[simp] theorem State.modG_chans (s : State) (f : Group → Group) : (s.modG f).chans = s.chans := rfl
@[simp] theorem State.modG_classes (s : State) (f : Group → Group) : (s.modG f).classes = s.classes := rfl
@[simp] theorem State.modG_lines (s : State) (f : Group → Group) : (s.modG f).lines = s.lines := rfl
@[simp] theorem State.modG_poison (s : State) (f : Group → Group) : (s.modG f).poison = s.poison := rfl
@[simp] theorem State.modG_withheld (s : State) (f : Group → Group) : (s.modG f).withheld = s.withheld := rfl
@[simp] theorem State.modG_migr (s : State) (f : Group → Group) : (s.modG f).migr = s.migr := rfl
@[simp] theorem State.modG_tasks (s : State) (f : Group → Group) : (s.modG f).tasks = s.tasks := rfl
@[simp] theorem State.modG_teams (s : State) (f : Group → Group) : (s.modG f).teams = s.teams := rfl
@[simp] theorem State.modG_encs (s : State) (f : Group → Group) : (s.modG f).encs = s.encs := rfl
@[simp] theorem State.modG_creation (s : State) (f : Group → Group) : (s.modG f).creation = s.creation := rfl
@[simp] theorem State.modG_parts (s : State) (f : Group → Group) : (s.modG f).parts = s.parts := rfl
@[simp] theorem State.modG_vis (s : State) (f : Group → Group) : (s.modG f).vis = s.vis := rfl
@[simp] theorem State.modG_accts (s : State) (f : Group → Group) : (s.modG f).accts = s.accts := rfl
@[simp] theorem State.modG_fabTokens (s : State) (f : Group → Group) : (s.modG f).fabTokens = s.fabTokens := rfl
@[simp] theorem State.modG_fabBuckets (s : State) (f : Group → Group) : (s.modG f).fabBuckets = s.fabBuckets := rfl
@[simp] theorem State.modG_fabCyc (s : State) (f : Group → Group) : (s.modG f).fabCyc = s.fabCyc := rfl
@[simp] theorem State.modG_fabRefills (s : State) (f : Group → Group) : (s.modG f).fabRefills = s.fabRefills := rfl
@[simp] theorem State.modG_pkgid (s : State) (f : Group → Group) : (s.modG f).pkgid = s.pkgid := rfl
@[simp] theorem State.modG_pkgidSet (s : State) (f : Group → Group) : (s.modG f).pkgidSet = s.pkgidSet := rfl
@[simp] theorem State.modG_plimit (s : State) (f : Group → Group) : (s.modG f).plimit = s.plimit := rfl
@[simp] theorem State.modG_pnow (s : State) (f : Group → Group) : (s.modG f).pnow = s.pnow := rfl
@[simp] theorem State.modG_tmax (s : State) (f : Group → Group) : (s.modG f).tmax = s.tmax := rfl
@[simp] theorem State.modG_trip (s : State) (f : Group → Group) : (s.modG f).trip = s.trip := rfl
@[simp] theorem State.modG_thr (s : State) (f : Group → Group) : (s.modG f).thr = s.thr := rfl
@[simp] theorem State.modG_hubCyc (s : State) (f : Group → Group) : (s.modG f).hubCyc = s.hubCyc := rfl
@[simp] theorem State.modG_errlog (s : State) (f : Group → Group) : (s.modG f).errlog = s.errlog := rfl
@[simp] theorem State.modG_errs (s : State) (f : Group → Group) : (s.modG f).errs = s.errs := rfl
@[simp] theorem State.modG_retired (s : State) (f : Group → Group) : (s.modG f).retired = s.retired := rfl
@[simp] theorem State.modG_linkRetry (s : State) (f : Group → Group) : (s.modG f).linkRetry = s.linkRetry := rfl
@[simp] theorem State.modG_harts (s : State) (f : Group → Group) : (s.modG f).harts = s.harts := rfl
@[simp] theorem State.modG_fwins (s : State) (f : Group → Group) : (s.modG f).fwins = s.fwins := rfl
@[simp] theorem State.modG_xfers (s : State) (f : Group → Group) : (s.modG f).xfers = s.xfers := rfl
@[simp] theorem State.modG_cgroups (s : State) (f : Group → Group) : (s.modG f).cgroups = s.cgroups := rfl
@[simp] theorem State.modG_tdis (s : State) (f : Group → Group) : (s.modG f).tdis = s.tdis := rfl
@[simp] theorem State.modG_spdm (s : State) (f : Group → Group) : (s.modG f).spdm = s.spdm := rfl
@[simp] theorem State.modG_boot (s : State) (f : Group → Group) : (s.modG f).boot = s.boot := rfl
@[simp] theorem State.modG_running (s : State) (f : Group → Group) : (s.modG f).running = s.running := rfl

/-! ### State.modCore -/

@[simp] theorem State.modCore_g (s : State) (c : Nat) (f : Core → Core) : (s.modCore c f).g = s.g := rfl
@[simp] theorem State.modCore_groups (s : State) (c : Nat) (f : Core → Core) : (s.modCore c f).groups = s.groups := rfl
@[simp] theorem State.modCore_focus (s : State) (c : Nat) (f : Core → Core) : (s.modCore c f).focus = s.focus := rfl
@[simp] theorem State.modCore_turn (s : State) (c : Nat) (f : Core → Core) : (s.modCore c f).turn = s.turn := rfl
@[simp] theorem State.modCore_hartLast (s : State) (c : Nat) (f : Core → Core) : (s.modCore c f).hartLast = s.hartLast := rfl
@[simp] theorem State.modCore_hartAt (s : State) (c : Nat) (f : Core → Core) : (s.modCore c f).hartAt = s.hartAt := rfl
@[simp] theorem State.modCore_agenda (s : State) (c : Nat) (f : Core → Core) : (s.modCore c f).agenda = s.agenda := rfl
@[simp] theorem State.modCore_held (s : State) (c : Nat) (f : Core → Core) : (s.modCore c f).held = s.held := rfl
@[simp] theorem State.modCore_fresh (s : State) (c : Nat) (f : Core → Core) : (s.modCore c f).fresh = s.fresh := rfl
@[simp] theorem State.modCore_outbox (s : State) (c : Nat) (f : Core → Core) : (s.modCore c f).outbox = s.outbox := rfl
@[simp] theorem State.modCore_seq (s : State) (c : Nat) (f : Core → Core) : (s.modCore c f).seq = s.seq := rfl
@[simp] theorem State.modCore_keys (s : State) (c : Nat) (f : Core → Core) : (s.modCore c f).keys = s.keys := rfl
@[simp] theorem State.modCore_viNamed (s : State) (c : Nat) (f : Core → Core) : (s.modCore c f).viNamed = s.viNamed := rfl
@[simp] theorem State.modCore_sconceCyc (s : State) (c : Nat) (f : Core → Core) : (s.modCore c f).sconceCyc = s.sconceCyc := rfl
@[simp] theorem State.modCore_hostLog (s : State) (c : Nat) (f : Core → Core) : (s.modCore c f).hostLog = s.hostLog := rfl
@[simp] theorem State.modCore_errTotal (s : State) (c : Nat) (f : Core → Core) : (s.modCore c f).errTotal = s.errTotal := rfl
@[simp] theorem State.modCore_dead (s : State) (c : Nat) (f : Core → Core) : (s.modCore c f).dead = s.dead := rfl
@[simp] theorem State.modCore_fw (s : State) (c : Nat) (f : Core → Core) : (s.modCore c f).fw = s.fw := rfl
@[simp] theorem State.modCore_cores (s : State) (c : Nat) (f : Core → Core) : (s.modCore c f).cores = smSet {} s.cores c (f (s.core c)) := rfl
@[simp] theorem State.modCore_dies (s : State) (c : Nat) (f : Core → Core) : (s.modCore c f).dies = s.dies := rfl
@[simp] theorem State.modCore_bufs (s : State) (c : Nat) (f : Core → Core) : (s.modCore c f).bufs = s.bufs := rfl
@[simp] theorem State.modCore_mem (s : State) (c : Nat) (f : Core → Core) : (s.modCore c f).mem = s.mem := rfl
@[simp] theorem State.modCore_pot (s : State) (c : Nat) (f : Core → Core) : (s.modCore c f).pot = s.pot := rfl
@[simp] theorem State.modCore_mmt (s : State) (c : Nat) (f : Core → Core) : (s.modCore c f).mmt = s.mmt := rfl
@[simp] theorem State.modCore_chans (s : State) (c : Nat) (f : Core → Core) : (s.modCore c f).chans = s.chans := rfl
@[simp] theorem State.modCore_classes (s : State) (c : Nat) (f : Core → Core) : (s.modCore c f).classes = s.classes := rfl
@[simp] theorem State.modCore_lines (s : State) (c : Nat) (f : Core → Core) : (s.modCore c f).lines = s.lines := rfl
@[simp] theorem State.modCore_poison (s : State) (c : Nat) (f : Core → Core) : (s.modCore c f).poison = s.poison := rfl
@[simp] theorem State.modCore_withheld (s : State) (c : Nat) (f : Core → Core) : (s.modCore c f).withheld = s.withheld := rfl
@[simp] theorem State.modCore_migr (s : State) (c : Nat) (f : Core → Core) : (s.modCore c f).migr = s.migr := rfl
@[simp] theorem State.modCore_tasks (s : State) (c : Nat) (f : Core → Core) : (s.modCore c f).tasks = s.tasks := rfl
@[simp] theorem State.modCore_teams (s : State) (c : Nat) (f : Core → Core) : (s.modCore c f).teams = s.teams := rfl
@[simp] theorem State.modCore_encs (s : State) (c : Nat) (f : Core → Core) : (s.modCore c f).encs = s.encs := rfl
@[simp] theorem State.modCore_creation (s : State) (c : Nat) (f : Core → Core) : (s.modCore c f).creation = s.creation := rfl
@[simp] theorem State.modCore_parts (s : State) (c : Nat) (f : Core → Core) : (s.modCore c f).parts = s.parts := rfl
@[simp] theorem State.modCore_vis (s : State) (c : Nat) (f : Core → Core) : (s.modCore c f).vis = s.vis := rfl
@[simp] theorem State.modCore_accts (s : State) (c : Nat) (f : Core → Core) : (s.modCore c f).accts = s.accts := rfl
@[simp] theorem State.modCore_fabTokens (s : State) (c : Nat) (f : Core → Core) : (s.modCore c f).fabTokens = s.fabTokens := rfl
@[simp] theorem State.modCore_fabBuckets (s : State) (c : Nat) (f : Core → Core) : (s.modCore c f).fabBuckets = s.fabBuckets := rfl
@[simp] theorem State.modCore_fabCyc (s : State) (c : Nat) (f : Core → Core) : (s.modCore c f).fabCyc = s.fabCyc := rfl
@[simp] theorem State.modCore_fabRefills (s : State) (c : Nat) (f : Core → Core) : (s.modCore c f).fabRefills = s.fabRefills := rfl
@[simp] theorem State.modCore_pkgid (s : State) (c : Nat) (f : Core → Core) : (s.modCore c f).pkgid = s.pkgid := rfl
@[simp] theorem State.modCore_pkgidSet (s : State) (c : Nat) (f : Core → Core) : (s.modCore c f).pkgidSet = s.pkgidSet := rfl
@[simp] theorem State.modCore_plimit (s : State) (c : Nat) (f : Core → Core) : (s.modCore c f).plimit = s.plimit := rfl
@[simp] theorem State.modCore_pnow (s : State) (c : Nat) (f : Core → Core) : (s.modCore c f).pnow = s.pnow := rfl
@[simp] theorem State.modCore_tmax (s : State) (c : Nat) (f : Core → Core) : (s.modCore c f).tmax = s.tmax := rfl
@[simp] theorem State.modCore_trip (s : State) (c : Nat) (f : Core → Core) : (s.modCore c f).trip = s.trip := rfl
@[simp] theorem State.modCore_thr (s : State) (c : Nat) (f : Core → Core) : (s.modCore c f).thr = s.thr := rfl
@[simp] theorem State.modCore_hubCyc (s : State) (c : Nat) (f : Core → Core) : (s.modCore c f).hubCyc = s.hubCyc := rfl
@[simp] theorem State.modCore_errlog (s : State) (c : Nat) (f : Core → Core) : (s.modCore c f).errlog = s.errlog := rfl
@[simp] theorem State.modCore_errs (s : State) (c : Nat) (f : Core → Core) : (s.modCore c f).errs = s.errs := rfl
@[simp] theorem State.modCore_retired (s : State) (c : Nat) (f : Core → Core) : (s.modCore c f).retired = s.retired := rfl
@[simp] theorem State.modCore_linkRetry (s : State) (c : Nat) (f : Core → Core) : (s.modCore c f).linkRetry = s.linkRetry := rfl
@[simp] theorem State.modCore_harts (s : State) (c : Nat) (f : Core → Core) : (s.modCore c f).harts = s.harts := rfl
@[simp] theorem State.modCore_fwins (s : State) (c : Nat) (f : Core → Core) : (s.modCore c f).fwins = s.fwins := rfl
@[simp] theorem State.modCore_xfers (s : State) (c : Nat) (f : Core → Core) : (s.modCore c f).xfers = s.xfers := rfl
@[simp] theorem State.modCore_cgroups (s : State) (c : Nat) (f : Core → Core) : (s.modCore c f).cgroups = s.cgroups := rfl
@[simp] theorem State.modCore_tdis (s : State) (c : Nat) (f : Core → Core) : (s.modCore c f).tdis = s.tdis := rfl
@[simp] theorem State.modCore_spdm (s : State) (c : Nat) (f : Core → Core) : (s.modCore c f).spdm = s.spdm := rfl
@[simp] theorem State.modCore_boot (s : State) (c : Nat) (f : Core → Core) : (s.modCore c f).boot = s.boot := rfl
@[simp] theorem State.modCore_running (s : State) (c : Nat) (f : Core → Core) : (s.modCore c f).running = s.running := rfl

/-! ### State.modDie -/

@[simp] theorem State.modDie_g (s : State) (d : Nat) (f : Die → Die) : (s.modDie d f).g = s.g := rfl
@[simp] theorem State.modDie_groups (s : State) (d : Nat) (f : Die → Die) : (s.modDie d f).groups = s.groups := rfl
@[simp] theorem State.modDie_focus (s : State) (d : Nat) (f : Die → Die) : (s.modDie d f).focus = s.focus := rfl
@[simp] theorem State.modDie_turn (s : State) (d : Nat) (f : Die → Die) : (s.modDie d f).turn = s.turn := rfl
@[simp] theorem State.modDie_hartLast (s : State) (d : Nat) (f : Die → Die) : (s.modDie d f).hartLast = s.hartLast := rfl
@[simp] theorem State.modDie_hartAt (s : State) (d : Nat) (f : Die → Die) : (s.modDie d f).hartAt = s.hartAt := rfl
@[simp] theorem State.modDie_agenda (s : State) (d : Nat) (f : Die → Die) : (s.modDie d f).agenda = s.agenda := rfl
@[simp] theorem State.modDie_held (s : State) (d : Nat) (f : Die → Die) : (s.modDie d f).held = s.held := rfl
@[simp] theorem State.modDie_fresh (s : State) (d : Nat) (f : Die → Die) : (s.modDie d f).fresh = s.fresh := rfl
@[simp] theorem State.modDie_outbox (s : State) (d : Nat) (f : Die → Die) : (s.modDie d f).outbox = s.outbox := rfl
@[simp] theorem State.modDie_seq (s : State) (d : Nat) (f : Die → Die) : (s.modDie d f).seq = s.seq := rfl
@[simp] theorem State.modDie_keys (s : State) (d : Nat) (f : Die → Die) : (s.modDie d f).keys = s.keys := rfl
@[simp] theorem State.modDie_viNamed (s : State) (d : Nat) (f : Die → Die) : (s.modDie d f).viNamed = s.viNamed := rfl
@[simp] theorem State.modDie_sconceCyc (s : State) (d : Nat) (f : Die → Die) : (s.modDie d f).sconceCyc = s.sconceCyc := rfl
@[simp] theorem State.modDie_hostLog (s : State) (d : Nat) (f : Die → Die) : (s.modDie d f).hostLog = s.hostLog := rfl
@[simp] theorem State.modDie_errTotal (s : State) (d : Nat) (f : Die → Die) : (s.modDie d f).errTotal = s.errTotal := rfl
@[simp] theorem State.modDie_dead (s : State) (d : Nat) (f : Die → Die) : (s.modDie d f).dead = s.dead := rfl
@[simp] theorem State.modDie_fw (s : State) (d : Nat) (f : Die → Die) : (s.modDie d f).fw = s.fw := rfl
@[simp] theorem State.modDie_cores (s : State) (d : Nat) (f : Die → Die) : (s.modDie d f).cores = s.cores := rfl
@[simp] theorem State.modDie_dies (s : State) (d : Nat) (f : Die → Die) : (s.modDie d f).dies = smSet {} s.dies d (f (s.die d)) := rfl
@[simp] theorem State.modDie_bufs (s : State) (d : Nat) (f : Die → Die) : (s.modDie d f).bufs = s.bufs := rfl
@[simp] theorem State.modDie_mem (s : State) (d : Nat) (f : Die → Die) : (s.modDie d f).mem = s.mem := rfl
@[simp] theorem State.modDie_pot (s : State) (d : Nat) (f : Die → Die) : (s.modDie d f).pot = s.pot := rfl
@[simp] theorem State.modDie_mmt (s : State) (d : Nat) (f : Die → Die) : (s.modDie d f).mmt = s.mmt := rfl
@[simp] theorem State.modDie_chans (s : State) (d : Nat) (f : Die → Die) : (s.modDie d f).chans = s.chans := rfl
@[simp] theorem State.modDie_classes (s : State) (d : Nat) (f : Die → Die) : (s.modDie d f).classes = s.classes := rfl
@[simp] theorem State.modDie_lines (s : State) (d : Nat) (f : Die → Die) : (s.modDie d f).lines = s.lines := rfl
@[simp] theorem State.modDie_poison (s : State) (d : Nat) (f : Die → Die) : (s.modDie d f).poison = s.poison := rfl
@[simp] theorem State.modDie_withheld (s : State) (d : Nat) (f : Die → Die) : (s.modDie d f).withheld = s.withheld := rfl
@[simp] theorem State.modDie_migr (s : State) (d : Nat) (f : Die → Die) : (s.modDie d f).migr = s.migr := rfl
@[simp] theorem State.modDie_tasks (s : State) (d : Nat) (f : Die → Die) : (s.modDie d f).tasks = s.tasks := rfl
@[simp] theorem State.modDie_teams (s : State) (d : Nat) (f : Die → Die) : (s.modDie d f).teams = s.teams := rfl
@[simp] theorem State.modDie_encs (s : State) (d : Nat) (f : Die → Die) : (s.modDie d f).encs = s.encs := rfl
@[simp] theorem State.modDie_creation (s : State) (d : Nat) (f : Die → Die) : (s.modDie d f).creation = s.creation := rfl
@[simp] theorem State.modDie_parts (s : State) (d : Nat) (f : Die → Die) : (s.modDie d f).parts = s.parts := rfl
@[simp] theorem State.modDie_vis (s : State) (d : Nat) (f : Die → Die) : (s.modDie d f).vis = s.vis := rfl
@[simp] theorem State.modDie_accts (s : State) (d : Nat) (f : Die → Die) : (s.modDie d f).accts = s.accts := rfl
@[simp] theorem State.modDie_fabTokens (s : State) (d : Nat) (f : Die → Die) : (s.modDie d f).fabTokens = s.fabTokens := rfl
@[simp] theorem State.modDie_fabBuckets (s : State) (d : Nat) (f : Die → Die) : (s.modDie d f).fabBuckets = s.fabBuckets := rfl
@[simp] theorem State.modDie_fabCyc (s : State) (d : Nat) (f : Die → Die) : (s.modDie d f).fabCyc = s.fabCyc := rfl
@[simp] theorem State.modDie_fabRefills (s : State) (d : Nat) (f : Die → Die) : (s.modDie d f).fabRefills = s.fabRefills := rfl
@[simp] theorem State.modDie_pkgid (s : State) (d : Nat) (f : Die → Die) : (s.modDie d f).pkgid = s.pkgid := rfl
@[simp] theorem State.modDie_pkgidSet (s : State) (d : Nat) (f : Die → Die) : (s.modDie d f).pkgidSet = s.pkgidSet := rfl
@[simp] theorem State.modDie_plimit (s : State) (d : Nat) (f : Die → Die) : (s.modDie d f).plimit = s.plimit := rfl
@[simp] theorem State.modDie_pnow (s : State) (d : Nat) (f : Die → Die) : (s.modDie d f).pnow = s.pnow := rfl
@[simp] theorem State.modDie_tmax (s : State) (d : Nat) (f : Die → Die) : (s.modDie d f).tmax = s.tmax := rfl
@[simp] theorem State.modDie_trip (s : State) (d : Nat) (f : Die → Die) : (s.modDie d f).trip = s.trip := rfl
@[simp] theorem State.modDie_thr (s : State) (d : Nat) (f : Die → Die) : (s.modDie d f).thr = s.thr := rfl
@[simp] theorem State.modDie_hubCyc (s : State) (d : Nat) (f : Die → Die) : (s.modDie d f).hubCyc = s.hubCyc := rfl
@[simp] theorem State.modDie_errlog (s : State) (d : Nat) (f : Die → Die) : (s.modDie d f).errlog = s.errlog := rfl
@[simp] theorem State.modDie_errs (s : State) (d : Nat) (f : Die → Die) : (s.modDie d f).errs = s.errs := rfl
@[simp] theorem State.modDie_retired (s : State) (d : Nat) (f : Die → Die) : (s.modDie d f).retired = s.retired := rfl
@[simp] theorem State.modDie_linkRetry (s : State) (d : Nat) (f : Die → Die) : (s.modDie d f).linkRetry = s.linkRetry := rfl
@[simp] theorem State.modDie_harts (s : State) (d : Nat) (f : Die → Die) : (s.modDie d f).harts = s.harts := rfl
@[simp] theorem State.modDie_fwins (s : State) (d : Nat) (f : Die → Die) : (s.modDie d f).fwins = s.fwins := rfl
@[simp] theorem State.modDie_xfers (s : State) (d : Nat) (f : Die → Die) : (s.modDie d f).xfers = s.xfers := rfl
@[simp] theorem State.modDie_cgroups (s : State) (d : Nat) (f : Die → Die) : (s.modDie d f).cgroups = s.cgroups := rfl
@[simp] theorem State.modDie_tdis (s : State) (d : Nat) (f : Die → Die) : (s.modDie d f).tdis = s.tdis := rfl
@[simp] theorem State.modDie_spdm (s : State) (d : Nat) (f : Die → Die) : (s.modDie d f).spdm = s.spdm := rfl
@[simp] theorem State.modDie_boot (s : State) (d : Nat) (f : Die → Die) : (s.modDie d f).boot = s.boot := rfl
@[simp] theorem State.modDie_running (s : State) (d : Nat) (f : Die → Die) : (s.modDie d f).running = s.running := rfl

/-! ### State.modEnc -/

@[simp] theorem State.modEnc_g (s : State) (e : Nat) (f : Enclave → Enclave) : (s.modEnc e f).g = s.g := rfl
@[simp] theorem State.modEnc_groups (s : State) (e : Nat) (f : Enclave → Enclave) : (s.modEnc e f).groups = s.groups := rfl
@[simp] theorem State.modEnc_focus (s : State) (e : Nat) (f : Enclave → Enclave) : (s.modEnc e f).focus = s.focus := rfl
@[simp] theorem State.modEnc_turn (s : State) (e : Nat) (f : Enclave → Enclave) : (s.modEnc e f).turn = s.turn := rfl
@[simp] theorem State.modEnc_hartLast (s : State) (e : Nat) (f : Enclave → Enclave) : (s.modEnc e f).hartLast = s.hartLast := rfl
@[simp] theorem State.modEnc_hartAt (s : State) (e : Nat) (f : Enclave → Enclave) : (s.modEnc e f).hartAt = s.hartAt := rfl
@[simp] theorem State.modEnc_agenda (s : State) (e : Nat) (f : Enclave → Enclave) : (s.modEnc e f).agenda = s.agenda := rfl
@[simp] theorem State.modEnc_held (s : State) (e : Nat) (f : Enclave → Enclave) : (s.modEnc e f).held = s.held := rfl
@[simp] theorem State.modEnc_fresh (s : State) (e : Nat) (f : Enclave → Enclave) : (s.modEnc e f).fresh = s.fresh := rfl
@[simp] theorem State.modEnc_outbox (s : State) (e : Nat) (f : Enclave → Enclave) : (s.modEnc e f).outbox = s.outbox := rfl
@[simp] theorem State.modEnc_seq (s : State) (e : Nat) (f : Enclave → Enclave) : (s.modEnc e f).seq = s.seq := rfl
@[simp] theorem State.modEnc_keys (s : State) (e : Nat) (f : Enclave → Enclave) : (s.modEnc e f).keys = s.keys := rfl
@[simp] theorem State.modEnc_viNamed (s : State) (e : Nat) (f : Enclave → Enclave) : (s.modEnc e f).viNamed = s.viNamed := rfl
@[simp] theorem State.modEnc_sconceCyc (s : State) (e : Nat) (f : Enclave → Enclave) : (s.modEnc e f).sconceCyc = s.sconceCyc := rfl
@[simp] theorem State.modEnc_hostLog (s : State) (e : Nat) (f : Enclave → Enclave) : (s.modEnc e f).hostLog = s.hostLog := rfl
@[simp] theorem State.modEnc_errTotal (s : State) (e : Nat) (f : Enclave → Enclave) : (s.modEnc e f).errTotal = s.errTotal := rfl
@[simp] theorem State.modEnc_dead (s : State) (e : Nat) (f : Enclave → Enclave) : (s.modEnc e f).dead = s.dead := rfl
@[simp] theorem State.modEnc_fw (s : State) (e : Nat) (f : Enclave → Enclave) : (s.modEnc e f).fw = s.fw := rfl
@[simp] theorem State.modEnc_cores (s : State) (e : Nat) (f : Enclave → Enclave) : (s.modEnc e f).cores = s.cores := rfl
@[simp] theorem State.modEnc_dies (s : State) (e : Nat) (f : Enclave → Enclave) : (s.modEnc e f).dies = s.dies := rfl
@[simp] theorem State.modEnc_bufs (s : State) (e : Nat) (f : Enclave → Enclave) : (s.modEnc e f).bufs = s.bufs := rfl
@[simp] theorem State.modEnc_mem (s : State) (e : Nat) (f : Enclave → Enclave) : (s.modEnc e f).mem = s.mem := rfl
@[simp] theorem State.modEnc_pot (s : State) (e : Nat) (f : Enclave → Enclave) : (s.modEnc e f).pot = s.pot := rfl
@[simp] theorem State.modEnc_mmt (s : State) (e : Nat) (f : Enclave → Enclave) : (s.modEnc e f).mmt = s.mmt := rfl
@[simp] theorem State.modEnc_chans (s : State) (e : Nat) (f : Enclave → Enclave) : (s.modEnc e f).chans = s.chans := rfl
@[simp] theorem State.modEnc_classes (s : State) (e : Nat) (f : Enclave → Enclave) : (s.modEnc e f).classes = s.classes := rfl
@[simp] theorem State.modEnc_lines (s : State) (e : Nat) (f : Enclave → Enclave) : (s.modEnc e f).lines = s.lines := rfl
@[simp] theorem State.modEnc_poison (s : State) (e : Nat) (f : Enclave → Enclave) : (s.modEnc e f).poison = s.poison := rfl
@[simp] theorem State.modEnc_withheld (s : State) (e : Nat) (f : Enclave → Enclave) : (s.modEnc e f).withheld = s.withheld := rfl
@[simp] theorem State.modEnc_migr (s : State) (e : Nat) (f : Enclave → Enclave) : (s.modEnc e f).migr = s.migr := rfl
@[simp] theorem State.modEnc_tasks (s : State) (e : Nat) (f : Enclave → Enclave) : (s.modEnc e f).tasks = s.tasks := rfl
@[simp] theorem State.modEnc_teams (s : State) (e : Nat) (f : Enclave → Enclave) : (s.modEnc e f).teams = s.teams := rfl
@[simp] theorem State.modEnc_encs (s : State) (e : Nat) (f : Enclave → Enclave) : (s.modEnc e f).encs = smSet {} s.encs e (f (s.encl e)) := rfl
@[simp] theorem State.modEnc_creation (s : State) (e : Nat) (f : Enclave → Enclave) : (s.modEnc e f).creation = s.creation := rfl
@[simp] theorem State.modEnc_parts (s : State) (e : Nat) (f : Enclave → Enclave) : (s.modEnc e f).parts = s.parts := rfl
@[simp] theorem State.modEnc_vis (s : State) (e : Nat) (f : Enclave → Enclave) : (s.modEnc e f).vis = s.vis := rfl
@[simp] theorem State.modEnc_accts (s : State) (e : Nat) (f : Enclave → Enclave) : (s.modEnc e f).accts = s.accts := rfl
@[simp] theorem State.modEnc_fabTokens (s : State) (e : Nat) (f : Enclave → Enclave) : (s.modEnc e f).fabTokens = s.fabTokens := rfl
@[simp] theorem State.modEnc_fabBuckets (s : State) (e : Nat) (f : Enclave → Enclave) : (s.modEnc e f).fabBuckets = s.fabBuckets := rfl
@[simp] theorem State.modEnc_fabCyc (s : State) (e : Nat) (f : Enclave → Enclave) : (s.modEnc e f).fabCyc = s.fabCyc := rfl
@[simp] theorem State.modEnc_fabRefills (s : State) (e : Nat) (f : Enclave → Enclave) : (s.modEnc e f).fabRefills = s.fabRefills := rfl
@[simp] theorem State.modEnc_pkgid (s : State) (e : Nat) (f : Enclave → Enclave) : (s.modEnc e f).pkgid = s.pkgid := rfl
@[simp] theorem State.modEnc_pkgidSet (s : State) (e : Nat) (f : Enclave → Enclave) : (s.modEnc e f).pkgidSet = s.pkgidSet := rfl
@[simp] theorem State.modEnc_plimit (s : State) (e : Nat) (f : Enclave → Enclave) : (s.modEnc e f).plimit = s.plimit := rfl
@[simp] theorem State.modEnc_pnow (s : State) (e : Nat) (f : Enclave → Enclave) : (s.modEnc e f).pnow = s.pnow := rfl
@[simp] theorem State.modEnc_tmax (s : State) (e : Nat) (f : Enclave → Enclave) : (s.modEnc e f).tmax = s.tmax := rfl
@[simp] theorem State.modEnc_trip (s : State) (e : Nat) (f : Enclave → Enclave) : (s.modEnc e f).trip = s.trip := rfl
@[simp] theorem State.modEnc_thr (s : State) (e : Nat) (f : Enclave → Enclave) : (s.modEnc e f).thr = s.thr := rfl
@[simp] theorem State.modEnc_hubCyc (s : State) (e : Nat) (f : Enclave → Enclave) : (s.modEnc e f).hubCyc = s.hubCyc := rfl
@[simp] theorem State.modEnc_errlog (s : State) (e : Nat) (f : Enclave → Enclave) : (s.modEnc e f).errlog = s.errlog := rfl
@[simp] theorem State.modEnc_errs (s : State) (e : Nat) (f : Enclave → Enclave) : (s.modEnc e f).errs = s.errs := rfl
@[simp] theorem State.modEnc_retired (s : State) (e : Nat) (f : Enclave → Enclave) : (s.modEnc e f).retired = s.retired := rfl
@[simp] theorem State.modEnc_linkRetry (s : State) (e : Nat) (f : Enclave → Enclave) : (s.modEnc e f).linkRetry = s.linkRetry := rfl
@[simp] theorem State.modEnc_harts (s : State) (e : Nat) (f : Enclave → Enclave) : (s.modEnc e f).harts = s.harts := rfl
@[simp] theorem State.modEnc_fwins (s : State) (e : Nat) (f : Enclave → Enclave) : (s.modEnc e f).fwins = s.fwins := rfl
@[simp] theorem State.modEnc_xfers (s : State) (e : Nat) (f : Enclave → Enclave) : (s.modEnc e f).xfers = s.xfers := rfl
@[simp] theorem State.modEnc_cgroups (s : State) (e : Nat) (f : Enclave → Enclave) : (s.modEnc e f).cgroups = s.cgroups := rfl
@[simp] theorem State.modEnc_tdis (s : State) (e : Nat) (f : Enclave → Enclave) : (s.modEnc e f).tdis = s.tdis := rfl
@[simp] theorem State.modEnc_spdm (s : State) (e : Nat) (f : Enclave → Enclave) : (s.modEnc e f).spdm = s.spdm := rfl
@[simp] theorem State.modEnc_boot (s : State) (e : Nat) (f : Enclave → Enclave) : (s.modEnc e f).boot = s.boot := rfl
@[simp] theorem State.modEnc_running (s : State) (e : Nat) (f : Enclave → Enclave) : (s.modEnc e f).running = s.running := rfl

/-! ### State.modPart -/

@[simp] theorem State.modPart_g (s : State) (p : Nat) (f : Part → Part) : (s.modPart p f).g = s.g := rfl
@[simp] theorem State.modPart_groups (s : State) (p : Nat) (f : Part → Part) : (s.modPart p f).groups = s.groups := rfl
@[simp] theorem State.modPart_focus (s : State) (p : Nat) (f : Part → Part) : (s.modPart p f).focus = s.focus := rfl
@[simp] theorem State.modPart_turn (s : State) (p : Nat) (f : Part → Part) : (s.modPart p f).turn = s.turn := rfl
@[simp] theorem State.modPart_hartLast (s : State) (p : Nat) (f : Part → Part) : (s.modPart p f).hartLast = s.hartLast := rfl
@[simp] theorem State.modPart_hartAt (s : State) (p : Nat) (f : Part → Part) : (s.modPart p f).hartAt = s.hartAt := rfl
@[simp] theorem State.modPart_agenda (s : State) (p : Nat) (f : Part → Part) : (s.modPart p f).agenda = s.agenda := rfl
@[simp] theorem State.modPart_held (s : State) (p : Nat) (f : Part → Part) : (s.modPart p f).held = s.held := rfl
@[simp] theorem State.modPart_fresh (s : State) (p : Nat) (f : Part → Part) : (s.modPart p f).fresh = s.fresh := rfl
@[simp] theorem State.modPart_outbox (s : State) (p : Nat) (f : Part → Part) : (s.modPart p f).outbox = s.outbox := rfl
@[simp] theorem State.modPart_seq (s : State) (p : Nat) (f : Part → Part) : (s.modPart p f).seq = s.seq := rfl
@[simp] theorem State.modPart_keys (s : State) (p : Nat) (f : Part → Part) : (s.modPart p f).keys = s.keys := rfl
@[simp] theorem State.modPart_viNamed (s : State) (p : Nat) (f : Part → Part) : (s.modPart p f).viNamed = s.viNamed := rfl
@[simp] theorem State.modPart_sconceCyc (s : State) (p : Nat) (f : Part → Part) : (s.modPart p f).sconceCyc = s.sconceCyc := rfl
@[simp] theorem State.modPart_hostLog (s : State) (p : Nat) (f : Part → Part) : (s.modPart p f).hostLog = s.hostLog := rfl
@[simp] theorem State.modPart_errTotal (s : State) (p : Nat) (f : Part → Part) : (s.modPart p f).errTotal = s.errTotal := rfl
@[simp] theorem State.modPart_dead (s : State) (p : Nat) (f : Part → Part) : (s.modPart p f).dead = s.dead := rfl
@[simp] theorem State.modPart_fw (s : State) (p : Nat) (f : Part → Part) : (s.modPart p f).fw = s.fw := rfl
@[simp] theorem State.modPart_cores (s : State) (p : Nat) (f : Part → Part) : (s.modPart p f).cores = s.cores := rfl
@[simp] theorem State.modPart_dies (s : State) (p : Nat) (f : Part → Part) : (s.modPart p f).dies = s.dies := rfl
@[simp] theorem State.modPart_bufs (s : State) (p : Nat) (f : Part → Part) : (s.modPart p f).bufs = s.bufs := rfl
@[simp] theorem State.modPart_mem (s : State) (p : Nat) (f : Part → Part) : (s.modPart p f).mem = s.mem := rfl
@[simp] theorem State.modPart_pot (s : State) (p : Nat) (f : Part → Part) : (s.modPart p f).pot = s.pot := rfl
@[simp] theorem State.modPart_mmt (s : State) (p : Nat) (f : Part → Part) : (s.modPart p f).mmt = s.mmt := rfl
@[simp] theorem State.modPart_chans (s : State) (p : Nat) (f : Part → Part) : (s.modPart p f).chans = s.chans := rfl
@[simp] theorem State.modPart_classes (s : State) (p : Nat) (f : Part → Part) : (s.modPart p f).classes = s.classes := rfl
@[simp] theorem State.modPart_lines (s : State) (p : Nat) (f : Part → Part) : (s.modPart p f).lines = s.lines := rfl
@[simp] theorem State.modPart_poison (s : State) (p : Nat) (f : Part → Part) : (s.modPart p f).poison = s.poison := rfl
@[simp] theorem State.modPart_withheld (s : State) (p : Nat) (f : Part → Part) : (s.modPart p f).withheld = s.withheld := rfl
@[simp] theorem State.modPart_migr (s : State) (p : Nat) (f : Part → Part) : (s.modPart p f).migr = s.migr := rfl
@[simp] theorem State.modPart_tasks (s : State) (p : Nat) (f : Part → Part) : (s.modPart p f).tasks = s.tasks := rfl
@[simp] theorem State.modPart_teams (s : State) (p : Nat) (f : Part → Part) : (s.modPart p f).teams = s.teams := rfl
@[simp] theorem State.modPart_encs (s : State) (p : Nat) (f : Part → Part) : (s.modPart p f).encs = s.encs := rfl
@[simp] theorem State.modPart_creation (s : State) (p : Nat) (f : Part → Part) : (s.modPart p f).creation = s.creation := rfl
@[simp] theorem State.modPart_parts (s : State) (p : Nat) (f : Part → Part) : (s.modPart p f).parts = smSet {} s.parts p (f (s.part p)) := rfl
@[simp] theorem State.modPart_vis (s : State) (p : Nat) (f : Part → Part) : (s.modPart p f).vis = s.vis := rfl
@[simp] theorem State.modPart_accts (s : State) (p : Nat) (f : Part → Part) : (s.modPart p f).accts = s.accts := rfl
@[simp] theorem State.modPart_fabTokens (s : State) (p : Nat) (f : Part → Part) : (s.modPart p f).fabTokens = s.fabTokens := rfl
@[simp] theorem State.modPart_fabBuckets (s : State) (p : Nat) (f : Part → Part) : (s.modPart p f).fabBuckets = s.fabBuckets := rfl
@[simp] theorem State.modPart_fabCyc (s : State) (p : Nat) (f : Part → Part) : (s.modPart p f).fabCyc = s.fabCyc := rfl
@[simp] theorem State.modPart_fabRefills (s : State) (p : Nat) (f : Part → Part) : (s.modPart p f).fabRefills = s.fabRefills := rfl
@[simp] theorem State.modPart_pkgid (s : State) (p : Nat) (f : Part → Part) : (s.modPart p f).pkgid = s.pkgid := rfl
@[simp] theorem State.modPart_pkgidSet (s : State) (p : Nat) (f : Part → Part) : (s.modPart p f).pkgidSet = s.pkgidSet := rfl
@[simp] theorem State.modPart_plimit (s : State) (p : Nat) (f : Part → Part) : (s.modPart p f).plimit = s.plimit := rfl
@[simp] theorem State.modPart_pnow (s : State) (p : Nat) (f : Part → Part) : (s.modPart p f).pnow = s.pnow := rfl
@[simp] theorem State.modPart_tmax (s : State) (p : Nat) (f : Part → Part) : (s.modPart p f).tmax = s.tmax := rfl
@[simp] theorem State.modPart_trip (s : State) (p : Nat) (f : Part → Part) : (s.modPart p f).trip = s.trip := rfl
@[simp] theorem State.modPart_thr (s : State) (p : Nat) (f : Part → Part) : (s.modPart p f).thr = s.thr := rfl
@[simp] theorem State.modPart_hubCyc (s : State) (p : Nat) (f : Part → Part) : (s.modPart p f).hubCyc = s.hubCyc := rfl
@[simp] theorem State.modPart_errlog (s : State) (p : Nat) (f : Part → Part) : (s.modPart p f).errlog = s.errlog := rfl
@[simp] theorem State.modPart_errs (s : State) (p : Nat) (f : Part → Part) : (s.modPart p f).errs = s.errs := rfl
@[simp] theorem State.modPart_retired (s : State) (p : Nat) (f : Part → Part) : (s.modPart p f).retired = s.retired := rfl
@[simp] theorem State.modPart_linkRetry (s : State) (p : Nat) (f : Part → Part) : (s.modPart p f).linkRetry = s.linkRetry := rfl
@[simp] theorem State.modPart_harts (s : State) (p : Nat) (f : Part → Part) : (s.modPart p f).harts = s.harts := rfl
@[simp] theorem State.modPart_fwins (s : State) (p : Nat) (f : Part → Part) : (s.modPart p f).fwins = s.fwins := rfl
@[simp] theorem State.modPart_xfers (s : State) (p : Nat) (f : Part → Part) : (s.modPart p f).xfers = s.xfers := rfl
@[simp] theorem State.modPart_cgroups (s : State) (p : Nat) (f : Part → Part) : (s.modPart p f).cgroups = s.cgroups := rfl
@[simp] theorem State.modPart_tdis (s : State) (p : Nat) (f : Part → Part) : (s.modPart p f).tdis = s.tdis := rfl
@[simp] theorem State.modPart_spdm (s : State) (p : Nat) (f : Part → Part) : (s.modPart p f).spdm = s.spdm := rfl
@[simp] theorem State.modPart_boot (s : State) (p : Nat) (f : Part → Part) : (s.modPart p f).boot = s.boot := rfl
@[simp] theorem State.modPart_running (s : State) (p : Nat) (f : Part → Part) : (s.modPart p f).running = s.running := rfl

/-! ### State.setPot -/

@[simp] theorem State.setPot_g (s : State) (k : Nat) (p : Pot) : (s.setPot k p).g = s.g := rfl
@[simp] theorem State.setPot_groups (s : State) (k : Nat) (p : Pot) : (s.setPot k p).groups = s.groups := rfl
@[simp] theorem State.setPot_focus (s : State) (k : Nat) (p : Pot) : (s.setPot k p).focus = s.focus := rfl
@[simp] theorem State.setPot_turn (s : State) (k : Nat) (p : Pot) : (s.setPot k p).turn = s.turn := rfl
@[simp] theorem State.setPot_hartLast (s : State) (k : Nat) (p : Pot) : (s.setPot k p).hartLast = s.hartLast := rfl
@[simp] theorem State.setPot_hartAt (s : State) (k : Nat) (p : Pot) : (s.setPot k p).hartAt = s.hartAt := rfl
@[simp] theorem State.setPot_agenda (s : State) (k : Nat) (p : Pot) : (s.setPot k p).agenda = s.agenda := rfl
@[simp] theorem State.setPot_held (s : State) (k : Nat) (p : Pot) : (s.setPot k p).held = s.held := rfl
@[simp] theorem State.setPot_fresh (s : State) (k : Nat) (p : Pot) : (s.setPot k p).fresh = s.fresh := rfl
@[simp] theorem State.setPot_outbox (s : State) (k : Nat) (p : Pot) : (s.setPot k p).outbox = s.outbox := rfl
@[simp] theorem State.setPot_seq (s : State) (k : Nat) (p : Pot) : (s.setPot k p).seq = s.seq := rfl
@[simp] theorem State.setPot_keys (s : State) (k : Nat) (p : Pot) : (s.setPot k p).keys = s.keys := rfl
@[simp] theorem State.setPot_viNamed (s : State) (k : Nat) (p : Pot) : (s.setPot k p).viNamed = s.viNamed := rfl
@[simp] theorem State.setPot_sconceCyc (s : State) (k : Nat) (p : Pot) : (s.setPot k p).sconceCyc = s.sconceCyc := rfl
@[simp] theorem State.setPot_hostLog (s : State) (k : Nat) (p : Pot) : (s.setPot k p).hostLog = s.hostLog := rfl
@[simp] theorem State.setPot_errTotal (s : State) (k : Nat) (p : Pot) : (s.setPot k p).errTotal = s.errTotal := rfl
@[simp] theorem State.setPot_dead (s : State) (k : Nat) (p : Pot) : (s.setPot k p).dead = s.dead := rfl
@[simp] theorem State.setPot_fw (s : State) (k : Nat) (p : Pot) : (s.setPot k p).fw = s.fw := rfl
@[simp] theorem State.setPot_cores (s : State) (k : Nat) (p : Pot) : (s.setPot k p).cores = s.cores := rfl
@[simp] theorem State.setPot_dies (s : State) (k : Nat) (p : Pot) : (s.setPot k p).dies = s.dies := rfl
@[simp] theorem State.setPot_bufs (s : State) (k : Nat) (p : Pot) : (s.setPot k p).bufs = s.bufs := rfl
@[simp] theorem State.setPot_mem (s : State) (k : Nat) (p : Pot) : (s.setPot k p).mem = s.mem := rfl
@[simp] theorem State.setPot_pot (s : State) (k : Nat) (p : Pot) : (s.setPot k p).pot = smSet {} s.pot k p := rfl
@[simp] theorem State.setPot_mmt (s : State) (k : Nat) (p : Pot) : (s.setPot k p).mmt = s.mmt := rfl
@[simp] theorem State.setPot_chans (s : State) (k : Nat) (p : Pot) : (s.setPot k p).chans = s.chans := rfl
@[simp] theorem State.setPot_classes (s : State) (k : Nat) (p : Pot) : (s.setPot k p).classes = s.classes := rfl
@[simp] theorem State.setPot_lines (s : State) (k : Nat) (p : Pot) : (s.setPot k p).lines = s.lines := rfl
@[simp] theorem State.setPot_poison (s : State) (k : Nat) (p : Pot) : (s.setPot k p).poison = s.poison := rfl
@[simp] theorem State.setPot_withheld (s : State) (k : Nat) (p : Pot) : (s.setPot k p).withheld = s.withheld := rfl
@[simp] theorem State.setPot_migr (s : State) (k : Nat) (p : Pot) : (s.setPot k p).migr = s.migr := rfl
@[simp] theorem State.setPot_tasks (s : State) (k : Nat) (p : Pot) : (s.setPot k p).tasks = s.tasks := rfl
@[simp] theorem State.setPot_teams (s : State) (k : Nat) (p : Pot) : (s.setPot k p).teams = s.teams := rfl
@[simp] theorem State.setPot_encs (s : State) (k : Nat) (p : Pot) : (s.setPot k p).encs = s.encs := rfl
@[simp] theorem State.setPot_creation (s : State) (k : Nat) (p : Pot) : (s.setPot k p).creation = s.creation := rfl
@[simp] theorem State.setPot_parts (s : State) (k : Nat) (p : Pot) : (s.setPot k p).parts = s.parts := rfl
@[simp] theorem State.setPot_vis (s : State) (k : Nat) (p : Pot) : (s.setPot k p).vis = s.vis := rfl
@[simp] theorem State.setPot_accts (s : State) (k : Nat) (p : Pot) : (s.setPot k p).accts = s.accts := rfl
@[simp] theorem State.setPot_fabTokens (s : State) (k : Nat) (p : Pot) : (s.setPot k p).fabTokens = s.fabTokens := rfl
@[simp] theorem State.setPot_fabBuckets (s : State) (k : Nat) (p : Pot) : (s.setPot k p).fabBuckets = s.fabBuckets := rfl
@[simp] theorem State.setPot_fabCyc (s : State) (k : Nat) (p : Pot) : (s.setPot k p).fabCyc = s.fabCyc := rfl
@[simp] theorem State.setPot_fabRefills (s : State) (k : Nat) (p : Pot) : (s.setPot k p).fabRefills = s.fabRefills := rfl
@[simp] theorem State.setPot_pkgid (s : State) (k : Nat) (p : Pot) : (s.setPot k p).pkgid = s.pkgid := rfl
@[simp] theorem State.setPot_pkgidSet (s : State) (k : Nat) (p : Pot) : (s.setPot k p).pkgidSet = s.pkgidSet := rfl
@[simp] theorem State.setPot_plimit (s : State) (k : Nat) (p : Pot) : (s.setPot k p).plimit = s.plimit := rfl
@[simp] theorem State.setPot_pnow (s : State) (k : Nat) (p : Pot) : (s.setPot k p).pnow = s.pnow := rfl
@[simp] theorem State.setPot_tmax (s : State) (k : Nat) (p : Pot) : (s.setPot k p).tmax = s.tmax := rfl
@[simp] theorem State.setPot_trip (s : State) (k : Nat) (p : Pot) : (s.setPot k p).trip = s.trip := rfl
@[simp] theorem State.setPot_thr (s : State) (k : Nat) (p : Pot) : (s.setPot k p).thr = s.thr := rfl
@[simp] theorem State.setPot_hubCyc (s : State) (k : Nat) (p : Pot) : (s.setPot k p).hubCyc = s.hubCyc := rfl
@[simp] theorem State.setPot_errlog (s : State) (k : Nat) (p : Pot) : (s.setPot k p).errlog = s.errlog := rfl
@[simp] theorem State.setPot_errs (s : State) (k : Nat) (p : Pot) : (s.setPot k p).errs = s.errs := rfl
@[simp] theorem State.setPot_retired (s : State) (k : Nat) (p : Pot) : (s.setPot k p).retired = s.retired := rfl
@[simp] theorem State.setPot_linkRetry (s : State) (k : Nat) (p : Pot) : (s.setPot k p).linkRetry = s.linkRetry := rfl
@[simp] theorem State.setPot_harts (s : State) (k : Nat) (p : Pot) : (s.setPot k p).harts = s.harts := rfl
@[simp] theorem State.setPot_fwins (s : State) (k : Nat) (p : Pot) : (s.setPot k p).fwins = s.fwins := rfl
@[simp] theorem State.setPot_xfers (s : State) (k : Nat) (p : Pot) : (s.setPot k p).xfers = s.xfers := rfl
@[simp] theorem State.setPot_cgroups (s : State) (k : Nat) (p : Pot) : (s.setPot k p).cgroups = s.cgroups := rfl
@[simp] theorem State.setPot_tdis (s : State) (k : Nat) (p : Pot) : (s.setPot k p).tdis = s.tdis := rfl
@[simp] theorem State.setPot_spdm (s : State) (k : Nat) (p : Pot) : (s.setPot k p).spdm = s.spdm := rfl
@[simp] theorem State.setPot_boot (s : State) (k : Nat) (p : Pot) : (s.setPot k p).boot = s.boot := rfl
@[simp] theorem State.setPot_running (s : State) (k : Nat) (p : Pot) : (s.setPot k p).running = s.running := rfl

/-! ### State.modHart -/

@[simp] theorem State.modHart_g (s : State) (h : Nat) (f : Hart → Hart) : (s.modHart h f).g = s.g := rfl
@[simp] theorem State.modHart_groups (s : State) (h : Nat) (f : Hart → Hart) : (s.modHart h f).groups = s.groups := rfl
@[simp] theorem State.modHart_focus (s : State) (h : Nat) (f : Hart → Hart) : (s.modHart h f).focus = s.focus := rfl
@[simp] theorem State.modHart_turn (s : State) (h : Nat) (f : Hart → Hart) : (s.modHart h f).turn = s.turn := rfl
@[simp] theorem State.modHart_hartLast (s : State) (h : Nat) (f : Hart → Hart) : (s.modHart h f).hartLast = s.hartLast := rfl
@[simp] theorem State.modHart_hartAt (s : State) (h : Nat) (f : Hart → Hart) : (s.modHart h f).hartAt = s.hartAt := rfl
@[simp] theorem State.modHart_agenda (s : State) (h : Nat) (f : Hart → Hart) : (s.modHart h f).agenda = s.agenda := rfl
@[simp] theorem State.modHart_held (s : State) (h : Nat) (f : Hart → Hart) : (s.modHart h f).held = s.held := rfl
@[simp] theorem State.modHart_fresh (s : State) (h : Nat) (f : Hart → Hart) : (s.modHart h f).fresh = s.fresh := rfl
@[simp] theorem State.modHart_outbox (s : State) (h : Nat) (f : Hart → Hart) : (s.modHart h f).outbox = s.outbox := rfl
@[simp] theorem State.modHart_seq (s : State) (h : Nat) (f : Hart → Hart) : (s.modHart h f).seq = s.seq := rfl
@[simp] theorem State.modHart_keys (s : State) (h : Nat) (f : Hart → Hart) : (s.modHart h f).keys = s.keys := rfl
@[simp] theorem State.modHart_viNamed (s : State) (h : Nat) (f : Hart → Hart) : (s.modHart h f).viNamed = s.viNamed := rfl
@[simp] theorem State.modHart_sconceCyc (s : State) (h : Nat) (f : Hart → Hart) : (s.modHart h f).sconceCyc = s.sconceCyc := rfl
@[simp] theorem State.modHart_hostLog (s : State) (h : Nat) (f : Hart → Hart) : (s.modHart h f).hostLog = s.hostLog := rfl
@[simp] theorem State.modHart_errTotal (s : State) (h : Nat) (f : Hart → Hart) : (s.modHart h f).errTotal = s.errTotal := rfl
@[simp] theorem State.modHart_dead (s : State) (h : Nat) (f : Hart → Hart) : (s.modHart h f).dead = s.dead := rfl
@[simp] theorem State.modHart_fw (s : State) (h : Nat) (f : Hart → Hart) : (s.modHart h f).fw = s.fw := rfl
@[simp] theorem State.modHart_cores (s : State) (h : Nat) (f : Hart → Hart) : (s.modHart h f).cores = s.cores := rfl
@[simp] theorem State.modHart_dies (s : State) (h : Nat) (f : Hart → Hart) : (s.modHart h f).dies = s.dies := rfl
@[simp] theorem State.modHart_bufs (s : State) (h : Nat) (f : Hart → Hart) : (s.modHart h f).bufs = s.bufs := rfl
@[simp] theorem State.modHart_mem (s : State) (h : Nat) (f : Hart → Hart) : (s.modHart h f).mem = s.mem := rfl
@[simp] theorem State.modHart_pot (s : State) (h : Nat) (f : Hart → Hart) : (s.modHart h f).pot = s.pot := rfl
@[simp] theorem State.modHart_mmt (s : State) (h : Nat) (f : Hart → Hart) : (s.modHart h f).mmt = s.mmt := rfl
@[simp] theorem State.modHart_chans (s : State) (h : Nat) (f : Hart → Hart) : (s.modHart h f).chans = s.chans := rfl
@[simp] theorem State.modHart_classes (s : State) (h : Nat) (f : Hart → Hart) : (s.modHart h f).classes = s.classes := rfl
@[simp] theorem State.modHart_lines (s : State) (h : Nat) (f : Hart → Hart) : (s.modHart h f).lines = s.lines := rfl
@[simp] theorem State.modHart_poison (s : State) (h : Nat) (f : Hart → Hart) : (s.modHart h f).poison = s.poison := rfl
@[simp] theorem State.modHart_withheld (s : State) (h : Nat) (f : Hart → Hart) : (s.modHart h f).withheld = s.withheld := rfl
@[simp] theorem State.modHart_migr (s : State) (h : Nat) (f : Hart → Hart) : (s.modHart h f).migr = s.migr := rfl
@[simp] theorem State.modHart_tasks (s : State) (h : Nat) (f : Hart → Hart) : (s.modHart h f).tasks = s.tasks := rfl
@[simp] theorem State.modHart_teams (s : State) (h : Nat) (f : Hart → Hart) : (s.modHart h f).teams = s.teams := rfl
@[simp] theorem State.modHart_encs (s : State) (h : Nat) (f : Hart → Hart) : (s.modHart h f).encs = s.encs := rfl
@[simp] theorem State.modHart_creation (s : State) (h : Nat) (f : Hart → Hart) : (s.modHart h f).creation = s.creation := rfl
@[simp] theorem State.modHart_parts (s : State) (h : Nat) (f : Hart → Hart) : (s.modHart h f).parts = s.parts := rfl
@[simp] theorem State.modHart_vis (s : State) (h : Nat) (f : Hart → Hart) : (s.modHart h f).vis = s.vis := rfl
@[simp] theorem State.modHart_accts (s : State) (h : Nat) (f : Hart → Hart) : (s.modHart h f).accts = s.accts := rfl
@[simp] theorem State.modHart_fabTokens (s : State) (h : Nat) (f : Hart → Hart) : (s.modHart h f).fabTokens = s.fabTokens := rfl
@[simp] theorem State.modHart_fabBuckets (s : State) (h : Nat) (f : Hart → Hart) : (s.modHart h f).fabBuckets = s.fabBuckets := rfl
@[simp] theorem State.modHart_fabCyc (s : State) (h : Nat) (f : Hart → Hart) : (s.modHart h f).fabCyc = s.fabCyc := rfl
@[simp] theorem State.modHart_fabRefills (s : State) (h : Nat) (f : Hart → Hart) : (s.modHart h f).fabRefills = s.fabRefills := rfl
@[simp] theorem State.modHart_pkgid (s : State) (h : Nat) (f : Hart → Hart) : (s.modHart h f).pkgid = s.pkgid := rfl
@[simp] theorem State.modHart_pkgidSet (s : State) (h : Nat) (f : Hart → Hart) : (s.modHart h f).pkgidSet = s.pkgidSet := rfl
@[simp] theorem State.modHart_plimit (s : State) (h : Nat) (f : Hart → Hart) : (s.modHart h f).plimit = s.plimit := rfl
@[simp] theorem State.modHart_pnow (s : State) (h : Nat) (f : Hart → Hart) : (s.modHart h f).pnow = s.pnow := rfl
@[simp] theorem State.modHart_tmax (s : State) (h : Nat) (f : Hart → Hart) : (s.modHart h f).tmax = s.tmax := rfl
@[simp] theorem State.modHart_trip (s : State) (h : Nat) (f : Hart → Hart) : (s.modHart h f).trip = s.trip := rfl
@[simp] theorem State.modHart_thr (s : State) (h : Nat) (f : Hart → Hart) : (s.modHart h f).thr = s.thr := rfl
@[simp] theorem State.modHart_hubCyc (s : State) (h : Nat) (f : Hart → Hart) : (s.modHart h f).hubCyc = s.hubCyc := rfl
@[simp] theorem State.modHart_errlog (s : State) (h : Nat) (f : Hart → Hart) : (s.modHart h f).errlog = s.errlog := rfl
@[simp] theorem State.modHart_errs (s : State) (h : Nat) (f : Hart → Hart) : (s.modHart h f).errs = s.errs := rfl
@[simp] theorem State.modHart_retired (s : State) (h : Nat) (f : Hart → Hart) : (s.modHart h f).retired = s.retired := rfl
@[simp] theorem State.modHart_linkRetry (s : State) (h : Nat) (f : Hart → Hart) : (s.modHart h f).linkRetry = s.linkRetry := rfl
@[simp] theorem State.modHart_harts (s : State) (h : Nat) (f : Hart → Hart) : (s.modHart h f).harts = smSet {} s.harts h (f (s.hart h)) := rfl
@[simp] theorem State.modHart_fwins (s : State) (h : Nat) (f : Hart → Hart) : (s.modHart h f).fwins = s.fwins := rfl
@[simp] theorem State.modHart_xfers (s : State) (h : Nat) (f : Hart → Hart) : (s.modHart h f).xfers = s.xfers := rfl
@[simp] theorem State.modHart_cgroups (s : State) (h : Nat) (f : Hart → Hart) : (s.modHart h f).cgroups = s.cgroups := rfl
@[simp] theorem State.modHart_tdis (s : State) (h : Nat) (f : Hart → Hart) : (s.modHart h f).tdis = s.tdis := rfl
@[simp] theorem State.modHart_spdm (s : State) (h : Nat) (f : Hart → Hart) : (s.modHart h f).spdm = s.spdm := rfl
@[simp] theorem State.modHart_boot (s : State) (h : Nat) (f : Hart → Hart) : (s.modHart h f).boot = s.boot := rfl
@[simp] theorem State.modHart_running (s : State) (h : Nat) (f : Hart → Hart) : (s.modHart h f).running = s.running := rfl

/-! ### Group.setPath and Group.modPath: the fields of the group outside its path slots -/

@[simp] theorem Group.setPath_gid (g : Group) (b : Bool) (p : PathState) : (g.setPath b p).gid = g.gid := by cases b <;> rfl
@[simp] theorem Group.modPath_gid (g : Group) (b : Bool) (h : PathState → PathState) : (g.modPath b h).gid = g.gid := by cases b <;> rfl
@[simp] theorem Group.modP_gid (g : Group) (h : PathState → PathState) : (g.modP h).gid = g.gid := Group.modPath_gid g g.curF h
@[simp] theorem Group.setPath_team (g : Group) (b : Bool) (p : PathState) : (g.setPath b p).team = g.team := by cases b <;> rfl
@[simp] theorem Group.modPath_team (g : Group) (b : Bool) (h : PathState → PathState) : (g.modPath b h).team = g.team := by cases b <;> rfl
@[simp] theorem Group.modP_team (g : Group) (h : PathState → PathState) : (g.modP h).team = g.team := Group.modPath_team g g.curF h
@[simp] theorem Group.setPath_core (g : Group) (b : Bool) (p : PathState) : (g.setPath b p).core = g.core := by cases b <;> rfl
@[simp] theorem Group.modPath_core (g : Group) (b : Bool) (h : PathState → PathState) : (g.modPath b h).core = g.core := by cases b <;> rfl
@[simp] theorem Group.modP_core (g : Group) (h : PathState → PathState) : (g.modP h).core = g.core := Group.modPath_core g g.curF h
@[simp] theorem Group.setPath_slot (g : Group) (b : Bool) (p : PathState) : (g.setPath b p).slot = g.slot := by cases b <;> rfl
@[simp] theorem Group.modPath_slot (g : Group) (b : Bool) (h : PathState → PathState) : (g.modPath b h).slot = g.slot := by cases b <;> rfl
@[simp] theorem Group.modP_slot (g : Group) (h : PathState → PathState) : (g.modP h).slot = g.slot := Group.modPath_slot g g.curF h
@[simp] theorem Group.setPath_resid (g : Group) (b : Bool) (p : PathState) : (g.setPath b p).resid = g.resid := by cases b <;> rfl
@[simp] theorem Group.modPath_resid (g : Group) (b : Bool) (h : PathState → PathState) : (g.modPath b h).resid = g.resid := by cases b <;> rfl
@[simp] theorem Group.modP_resid (g : Group) (h : PathState → PathState) : (g.modP h).resid = g.resid := Group.modPath_resid g g.curF h
@[simp] theorem Group.setPath_enc (g : Group) (b : Bool) (p : PathState) : (g.setPath b p).enc = g.enc := by cases b <;> rfl
@[simp] theorem Group.modPath_enc (g : Group) (b : Bool) (h : PathState → PathState) : (g.modPath b h).enc = g.enc := by cases b <;> rfl
@[simp] theorem Group.modP_enc (g : Group) (h : PathState → PathState) : (g.modP h).enc = g.enc := Group.modPath_enc g g.curF h
@[simp] theorem Group.setPath_stat (g : Group) (b : Bool) (p : PathState) : (g.setPath b p).stat = g.stat := by cases b <;> rfl
@[simp] theorem Group.modPath_stat (g : Group) (b : Bool) (h : PathState → PathState) : (g.modPath b h).stat = g.stat := by cases b <;> rfl
@[simp] theorem Group.modP_stat (g : Group) (h : PathState → PathState) : (g.modP h).stat = g.stat := Group.modPath_stat g g.curF h
@[simp] theorem Group.setPath_sring (g : Group) (b : Bool) (p : PathState) : (g.setPath b p).sring = g.sring := by cases b <;> rfl
@[simp] theorem Group.modPath_sring (g : Group) (b : Bool) (h : PathState → PathState) : (g.modPath b h).sring = g.sring := by cases b <;> rfl
@[simp] theorem Group.modP_sring (g : Group) (h : PathState → PathState) : (g.modP h).sring = g.sring := Group.modPath_sring g g.curF h
@[simp] theorem Group.setPath_sfix (g : Group) (b : Bool) (p : PathState) : (g.setPath b p).sfix = g.sfix := by cases b <;> rfl
@[simp] theorem Group.modPath_sfix (g : Group) (b : Bool) (h : PathState → PathState) : (g.modPath b h).sfix = g.sfix := by cases b <;> rfl
@[simp] theorem Group.modP_sfix (g : Group) (h : PathState → PathState) : (g.modP h).sfix = g.sfix := Group.modPath_sfix g g.curF h
@[simp] theorem Group.setPath_vring (g : Group) (b : Bool) (p : PathState) : (g.setPath b p).vring = g.vring := by cases b <;> rfl
@[simp] theorem Group.modPath_vring (g : Group) (b : Bool) (h : PathState → PathState) : (g.modPath b h).vring = g.vring := by cases b <;> rfl
@[simp] theorem Group.modP_vring (g : Group) (h : PathState → PathState) : (g.modP h).vring = g.vring := Group.modPath_vring g g.curF h
@[simp] theorem Group.setPath_vfix (g : Group) (b : Bool) (p : PathState) : (g.setPath b p).vfix = g.vfix := by cases b <;> rfl
@[simp] theorem Group.modPath_vfix (g : Group) (b : Bool) (h : PathState → PathState) : (g.modPath b h).vfix = g.vfix := by cases b <;> rfl
@[simp] theorem Group.modP_vfix (g : Group) (h : PathState → PathState) : (g.modP h).vfix = g.vfix := Group.modPath_vfix g g.curF h
@[simp] theorem Group.setPath_wpos (g : Group) (b : Bool) (p : PathState) : (g.setPath b p).wpos = g.wpos := by cases b <;> rfl
@[simp] theorem Group.modPath_wpos (g : Group) (b : Bool) (h : PathState → PathState) : (g.modPath b h).wpos = g.wpos := by cases b <;> rfl
@[simp] theorem Group.modP_wpos (g : Group) (h : PathState → PathState) : (g.modP h).wpos = g.wpos := Group.modPath_wpos g g.curF h
@[simp] theorem Group.setPath_wlow (g : Group) (b : Bool) (p : PathState) : (g.setPath b p).wlow = g.wlow := by cases b <;> rfl
@[simp] theorem Group.modPath_wlow (g : Group) (b : Bool) (h : PathState → PathState) : (g.modPath b h).wlow = g.wlow := by cases b <;> rfl
@[simp] theorem Group.modP_wlow (g : Group) (h : PathState → PathState) : (g.modP h).wlow = g.wlow := Group.modPath_wlow g g.curF h
@[simp] theorem Group.setPath_wsb (g : Group) (b : Bool) (p : PathState) : (g.setPath b p).wsb = g.wsb := by cases b <;> rfl
@[simp] theorem Group.modPath_wsb (g : Group) (b : Bool) (h : PathState → PathState) : (g.modPath b h).wsb = g.wsb := by cases b <;> rfl
@[simp] theorem Group.modP_wsb (g : Group) (h : PathState → PathState) : (g.modP h).wsb = g.wsb := Group.modPath_wsb g g.curF h
@[simp] theorem Group.setPath_wsl (g : Group) (b : Bool) (p : PathState) : (g.setPath b p).wsl = g.wsl := by cases b <;> rfl
@[simp] theorem Group.modPath_wsl (g : Group) (b : Bool) (h : PathState → PathState) : (g.modPath b h).wsl = g.wsl := by cases b <;> rfl
@[simp] theorem Group.modP_wsl (g : Group) (h : PathState → PathState) : (g.modP h).wsl = g.wsl := Group.modPath_wsl g g.curF h
@[simp] theorem Group.setPath_wsp (g : Group) (b : Bool) (p : PathState) : (g.setPath b p).wsp = g.wsp := by cases b <;> rfl
@[simp] theorem Group.modPath_wsp (g : Group) (b : Bool) (h : PathState → PathState) : (g.modPath b h).wsp = g.wsp := by cases b <;> rfl
@[simp] theorem Group.modP_wsp (g : Group) (h : PathState → PathState) : (g.modP h).wsp = g.wsp := Group.modPath_wsp g g.curF h
@[simp] theorem Group.setPath_rc (g : Group) (b : Bool) (p : PathState) : (g.setPath b p).rc = g.rc := by cases b <;> rfl
@[simp] theorem Group.modPath_rc (g : Group) (b : Bool) (h : PathState → PathState) : (g.modPath b h).rc = g.rc := by cases b <;> rfl
@[simp] theorem Group.modP_rc (g : Group) (h : PathState → PathState) : (g.modP h).rc = g.rc := Group.modPath_rc g g.curF h
@[simp] theorem Group.setPath_curF (g : Group) (b : Bool) (p : PathState) : (g.setPath b p).curF = g.curF := by cases b <;> rfl
@[simp] theorem Group.modPath_curF (g : Group) (b : Bool) (h : PathState → PathState) : (g.modPath b h).curF = g.curF := by cases b <;> rfl
@[simp] theorem Group.modP_curF (g : Group) (h : PathState → PathState) : (g.modP h).curF = g.curF := Group.modPath_curF g g.curF h
@[simp] theorem Group.setPath_split (g : Group) (b : Bool) (p : PathState) : (g.setPath b p).split = g.split := by cases b <;> rfl
@[simp] theorem Group.modPath_split (g : Group) (b : Bool) (h : PathState → PathState) : (g.modPath b h).split = g.split := by cases b <;> rfl
@[simp] theorem Group.modP_split (g : Group) (h : PathState → PathState) : (g.modP h).split = g.split := Group.modPath_split g g.curF h
@[simp] theorem Group.setPath_afterSplit (g : Group) (b : Bool) (p : PathState) : (g.setPath b p).afterSplit = g.afterSplit := by cases b <;> rfl
@[simp] theorem Group.modPath_afterSplit (g : Group) (b : Bool) (h : PathState → PathState) : (g.modPath b h).afterSplit = g.afterSplit := by cases b <;> rfl
@[simp] theorem Group.modP_afterSplit (g : Group) (h : PathState → PathState) : (g.modP h).afterSplit = g.afterSplit := Group.modPath_afterSplit g g.curF h
@[simp] theorem Group.setPath_lastF (g : Group) (b : Bool) (p : PathState) : (g.setPath b p).lastF = g.lastF := by cases b <;> rfl
@[simp] theorem Group.modPath_lastF (g : Group) (b : Bool) (h : PathState → PathState) : (g.modPath b h).lastF = g.lastF := by cases b <;> rfl
@[simp] theorem Group.modP_lastF (g : Group) (h : PathState → PathState) : (g.modP h).lastF = g.lastF := Group.modPath_lastF g g.curF h
@[simp] theorem Group.setPath_streak (g : Group) (b : Bool) (p : PathState) : (g.setPath b p).streak = g.streak := by cases b <;> rfl
@[simp] theorem Group.modPath_streak (g : Group) (b : Bool) (h : PathState → PathState) : (g.modPath b h).streak = g.streak := by cases b <;> rfl
@[simp] theorem Group.modP_streak (g : Group) (h : PathState → PathState) : (g.modP h).streak = g.streak := Group.modPath_streak g g.curF h
@[simp] theorem Group.setPath_lastPh (g : Group) (b : Bool) (p : PathState) : (g.setPath b p).lastPh = g.lastPh := by cases b <;> rfl
@[simp] theorem Group.modPath_lastPh (g : Group) (b : Bool) (h : PathState → PathState) : (g.modPath b h).lastPh = g.lastPh := by cases b <;> rfl
@[simp] theorem Group.modP_lastPh (g : Group) (h : PathState → PathState) : (g.modP h).lastPh = g.lastPh := Group.modPath_lastPh g g.curF h
@[simp] theorem Group.setPath_y (g : Group) (b : Bool) (p : PathState) : (g.setPath b p).y = g.y := by cases b <;> rfl
@[simp] theorem Group.modPath_y (g : Group) (b : Bool) (h : PathState → PathState) : (g.modPath b h).y = g.y := by cases b <;> rfl
@[simp] theorem Group.modP_y (g : Group) (h : PathState → PathState) : (g.modP h).y = g.y := Group.modPath_y g g.curF h
@[simp] theorem Group.setPath_yielded (g : Group) (b : Bool) (p : PathState) : (g.setPath b p).yielded = g.yielded := by cases b <;> rfl
@[simp] theorem Group.modPath_yielded (g : Group) (b : Bool) (h : PathState → PathState) : (g.modPath b h).yielded = g.yielded := by cases b <;> rfl
@[simp] theorem Group.modP_yielded (g : Group) (h : PathState → PathState) : (g.modP h).yielded = g.yielded := Group.modPath_yielded g g.curF h
@[simp] theorem Group.setPath_w (g : Group) (b : Bool) (p : PathState) : (g.setPath b p).w = g.w := by cases b <;> rfl
@[simp] theorem Group.modPath_w (g : Group) (b : Bool) (h : PathState → PathState) : (g.modPath b h).w = g.w := by cases b <;> rfl
@[simp] theorem Group.modP_w (g : Group) (h : PathState → PathState) : (g.modP h).w = g.w := Group.modPath_w g g.curF h
@[simp] theorem Group.setPath_runOver (g : Group) (b : Bool) (p : PathState) : (g.setPath b p).runOver = g.runOver := by cases b <;> rfl
@[simp] theorem Group.modPath_runOver (g : Group) (b : Bool) (h : PathState → PathState) : (g.modPath b h).runOver = g.runOver := by cases b <;> rfl
@[simp] theorem Group.modP_runOver (g : Group) (h : PathState → PathState) : (g.modP h).runOver = g.runOver := Group.modPath_runOver g g.curF h
@[simp] theorem Group.setPath_fpf (g : Group) (b : Bool) (p : PathState) : (g.setPath b p).fpf = g.fpf := by cases b <;> rfl
@[simp] theorem Group.modPath_fpf (g : Group) (b : Bool) (h : PathState → PathState) : (g.modPath b h).fpf = g.fpf := by cases b <;> rfl
@[simp] theorem Group.modP_fpf (g : Group) (h : PathState → PathState) : (g.modP h).fpf = g.fpf := Group.modPath_fpf g g.curF h
@[simp] theorem Group.setPath_tvec (g : Group) (b : Bool) (p : PathState) : (g.setPath b p).tvec = g.tvec := by cases b <;> rfl
@[simp] theorem Group.modPath_tvec (g : Group) (b : Bool) (h : PathState → PathState) : (g.modPath b h).tvec = g.tvec := by cases b <;> rfl
@[simp] theorem Group.modP_tvec (g : Group) (h : PathState → PathState) : (g.modP h).tvec = g.tvec := Group.modPath_tvec g g.curF h
@[simp] theorem Group.setPath_trctl (g : Group) (b : Bool) (p : PathState) : (g.setPath b p).trctl = g.trctl := by cases b <;> rfl
@[simp] theorem Group.modPath_trctl (g : Group) (b : Bool) (h : PathState → PathState) : (g.modPath b h).trctl = g.trctl := by cases b <;> rfl
@[simp] theorem Group.modP_trctl (g : Group) (h : PathState → PathState) : (g.modP h).trctl = g.trctl := Group.modPath_trctl g g.curF h
@[simp] theorem Group.setPath_tst (g : Group) (b : Bool) (p : PathState) : (g.setPath b p).tst = g.tst := by cases b <;> rfl
@[simp] theorem Group.modPath_tst (g : Group) (b : Bool) (h : PathState → PathState) : (g.modPath b h).tst = g.tst := by cases b <;> rfl
@[simp] theorem Group.modP_tst (g : Group) (h : PathState → PathState) : (g.modP h).tst = g.tst := Group.modPath_tst g g.curF h
@[simp] theorem Group.setPath_frc (g : Group) (b : Bool) (p : PathState) : (g.setPath b p).frc = g.frc := by cases b <;> rfl
@[simp] theorem Group.modPath_frc (g : Group) (b : Bool) (h : PathState → PathState) : (g.modPath b h).frc = g.frc := by cases b <;> rfl
@[simp] theorem Group.modP_frc (g : Group) (h : PathState → PathState) : (g.modP h).frc = g.frc := Group.modPath_frc g g.curF h
@[simp] theorem Group.setPath_fra (g : Group) (b : Bool) (p : PathState) : (g.setPath b p).fra = g.fra := by cases b <;> rfl
@[simp] theorem Group.modPath_fra (g : Group) (b : Bool) (h : PathState → PathState) : (g.modPath b h).fra = g.fra := by cases b <;> rfl
@[simp] theorem Group.modP_fra (g : Group) (h : PathState → PathState) : (g.modP h).fra = g.fra := Group.modPath_fra g g.curF h
@[simp] theorem Group.setPath_frpc (g : Group) (b : Bool) (p : PathState) : (g.setPath b p).frpc = g.frpc := by cases b <;> rfl
@[simp] theorem Group.modPath_frpc (g : Group) (b : Bool) (h : PathState → PathState) : (g.modPath b h).frpc = g.frpc := by cases b <;> rfl
@[simp] theorem Group.modP_frpc (g : Group) (h : PathState → PathState) : (g.modP h).frpc = g.frpc := Group.modPath_frpc g g.curF h
@[simp] theorem Group.setPath_frm (g : Group) (b : Bool) (p : PathState) : (g.setPath b p).frm = g.frm := by cases b <;> rfl
@[simp] theorem Group.modPath_frm (g : Group) (b : Bool) (h : PathState → PathState) : (g.modPath b h).frm = g.frm := by cases b <;> rfl
@[simp] theorem Group.modP_frm (g : Group) (h : PathState → PathState) : (g.modP h).frm = g.frm := Group.modPath_frm g g.curF h
@[simp] theorem Group.setPath_frmh (g : Group) (b : Bool) (p : PathState) : (g.setPath b p).frmh = g.frmh := by cases b <;> rfl
@[simp] theorem Group.modPath_frmh (g : Group) (b : Bool) (h : PathState → PathState) : (g.modPath b h).frmh = g.frmh := by cases b <;> rfl
@[simp] theorem Group.modP_frmh (g : Group) (h : PathState → PathState) : (g.modP h).frmh = g.frmh := Group.modPath_frmh g g.curF h
@[simp] theorem Group.setPath_hb (g : Group) (b : Bool) (p : PathState) : (g.setPath b p).hb = g.hb := by cases b <;> rfl
@[simp] theorem Group.modPath_hb (g : Group) (b : Bool) (h : PathState → PathState) : (g.modPath b h).hb = g.hb := by cases b <;> rfl
@[simp] theorem Group.modP_hb (g : Group) (h : PathState → PathState) : (g.modP h).hb = g.hb := Group.modPath_hb g g.curF h
@[simp] theorem Group.setPath_hl (g : Group) (b : Bool) (p : PathState) : (g.setPath b p).hl = g.hl := by cases b <;> rfl
@[simp] theorem Group.modPath_hl (g : Group) (b : Bool) (h : PathState → PathState) : (g.modPath b h).hl = g.hl := by cases b <;> rfl
@[simp] theorem Group.modP_hl (g : Group) (h : PathState → PathState) : (g.modP h).hl = g.hl := Group.modPath_hl g g.curF h
@[simp] theorem Group.setPath_ho (g : Group) (b : Bool) (p : PathState) : (g.setPath b p).ho = g.ho := by cases b <;> rfl
@[simp] theorem Group.modPath_ho (g : Group) (b : Bool) (h : PathState → PathState) : (g.modPath b h).ho = g.ho := by cases b <;> rfl
@[simp] theorem Group.modP_ho (g : Group) (h : PathState → PathState) : (g.modP h).ho = g.ho := Group.modPath_ho g g.curF h
@[simp] theorem Group.setPath_hlc (g : Group) (b : Bool) (p : PathState) : (g.setPath b p).hlc = g.hlc := by cases b <;> rfl
@[simp] theorem Group.modPath_hlc (g : Group) (b : Bool) (h : PathState → PathState) : (g.modPath b h).hlc = g.hlc := by cases b <;> rfl
@[simp] theorem Group.modP_hlc (g : Group) (h : PathState → PathState) : (g.modP h).hlc = g.hlc := Group.modPath_hlc g g.curF h
@[simp] theorem Group.setPath_poolw (g : Group) (b : Bool) (p : PathState) : (g.setPath b p).poolw = g.poolw := by cases b <;> rfl
@[simp] theorem Group.modPath_poolw (g : Group) (b : Bool) (h : PathState → PathState) : (g.modPath b h).poolw = g.poolw := by cases b <;> rfl
@[simp] theorem Group.modP_poolw (g : Group) (h : PathState → PathState) : (g.modP h).poolw = g.poolw := Group.modPath_poolw g g.curF h
@[simp] theorem Group.setPath_iters (g : Group) (b : Bool) (p : PathState) : (g.setPath b p).iters = g.iters := by cases b <;> rfl
@[simp] theorem Group.modPath_iters (g : Group) (b : Bool) (h : PathState → PathState) : (g.modPath b h).iters = g.iters := by cases b <;> rfl
@[simp] theorem Group.modP_iters (g : Group) (h : PathState → PathState) : (g.modP h).iters = g.iters := Group.modPath_iters g g.curF h
@[simp] theorem Group.setPath_fifo (g : Group) (b : Bool) (p : PathState) : (g.setPath b p).fifo = g.fifo := by cases b <;> rfl
@[simp] theorem Group.modPath_fifo (g : Group) (b : Bool) (h : PathState → PathState) : (g.modPath b h).fifo = g.fifo := by cases b <;> rfl
@[simp] theorem Group.modP_fifo (g : Group) (h : PathState → PathState) : (g.modP h).fifo = g.fifo := Group.modPath_fifo g g.curF h
@[simp] theorem Group.setPath_reqs (g : Group) (b : Bool) (p : PathState) : (g.setPath b p).reqs = g.reqs := by cases b <;> rfl
@[simp] theorem Group.modPath_reqs (g : Group) (b : Bool) (h : PathState → PathState) : (g.modPath b h).reqs = g.reqs := by cases b <;> rfl
@[simp] theorem Group.modP_reqs (g : Group) (h : PathState → PathState) : (g.modP h).reqs = g.reqs := Group.modPath_reqs g g.curF h
@[simp] theorem Group.setPath_lnOps (g : Group) (b : Bool) (p : PathState) : (g.setPath b p).lnOps = g.lnOps := by cases b <;> rfl
@[simp] theorem Group.modPath_lnOps (g : Group) (b : Bool) (h : PathState → PathState) : (g.modPath b h).lnOps = g.lnOps := by cases b <;> rfl
@[simp] theorem Group.modP_lnOps (g : Group) (h : PathState → PathState) : (g.modP h).lnOps = g.lnOps := Group.modPath_lnOps g g.curF h
@[simp] theorem Group.setPath_winStores (g : Group) (b : Bool) (p : PathState) : (g.setPath b p).winStores = g.winStores := by cases b <;> rfl
@[simp] theorem Group.modPath_winStores (g : Group) (b : Bool) (h : PathState → PathState) : (g.modPath b h).winStores = g.winStores := by cases b <;> rfl
@[simp] theorem Group.modP_winStores (g : Group) (h : PathState → PathState) : (g.modP h).winStores = g.winStores := Group.modPath_winStores g g.curF h
@[simp] theorem Group.setPath_winRet (g : Group) (b : Bool) (p : PathState) : (g.setPath b p).winRet = g.winRet := by cases b <;> rfl
@[simp] theorem Group.modPath_winRet (g : Group) (b : Bool) (h : PathState → PathState) : (g.modPath b h).winRet = g.winRet := by cases b <;> rfl
@[simp] theorem Group.modP_winRet (g : Group) (h : PathState → PathState) : (g.modP h).winRet = g.winRet := Group.modPath_winRet g g.curF h
@[simp] theorem Group.setPath_evt (g : Group) (b : Bool) (p : PathState) : (g.setPath b p).evt = g.evt := by cases b <;> rfl
@[simp] theorem Group.modPath_evt (g : Group) (b : Bool) (h : PathState → PathState) : (g.modPath b h).evt = g.evt := by cases b <;> rfl
@[simp] theorem Group.modP_evt (g : Group) (h : PathState → PathState) : (g.modP h).evt = g.evt := Group.modPath_evt g g.curF h
@[simp] theorem Group.setPath_elects (g : Group) (b : Bool) (p : PathState) : (g.setPath b p).elects = g.elects := by cases b <;> rfl
@[simp] theorem Group.modPath_elects (g : Group) (b : Bool) (h : PathState → PathState) : (g.modPath b h).elects = g.elects := by cases b <;> rfl
@[simp] theorem Group.modP_elects (g : Group) (h : PathState → PathState) : (g.modP h).elects = g.elects := Group.modPath_elects g g.curF h
@[simp] theorem Group.setPath_regroupRes (g : Group) (b : Bool) (p : PathState) : (g.setPath b p).regroupRes = g.regroupRes := by cases b <;> rfl
@[simp] theorem Group.modPath_regroupRes (g : Group) (b : Bool) (h : PathState → PathState) : (g.modPath b h).regroupRes = g.regroupRes := by cases b <;> rfl
@[simp] theorem Group.modP_regroupRes (g : Group) (h : PathState → PathState) : (g.modP h).regroupRes = g.regroupRes := Group.modPath_regroupRes g g.curF h
@[simp] theorem Group.setPath_storeCount (g : Group) (b : Bool) (p : PathState) : (g.setPath b p).storeCount = g.storeCount := by cases b <;> rfl
@[simp] theorem Group.modPath_storeCount (g : Group) (b : Bool) (h : PathState → PathState) : (g.modPath b h).storeCount = g.storeCount := by cases b <;> rfl
@[simp] theorem Group.modP_storeCount (g : Group) (h : PathState → PathState) : (g.modP h).storeCount = g.storeCount := Group.modPath_storeCount g g.curF h
@[simp] theorem Group.setPath_storeHash (g : Group) (b : Bool) (p : PathState) : (g.setPath b p).storeHash = g.storeHash := by cases b <;> rfl
@[simp] theorem Group.modPath_storeHash (g : Group) (b : Bool) (h : PathState → PathState) : (g.modPath b h).storeHash = g.storeHash := by cases b <;> rfl
@[simp] theorem Group.modP_storeHash (g : Group) (h : PathState → PathState) : (g.modP h).storeHash = g.storeHash := Group.modPath_storeHash g g.curF h
@[simp] theorem Group.setPath_ckpt (g : Group) (b : Bool) (p : PathState) : (g.setPath b p).ckpt = g.ckpt := by cases b <;> rfl
@[simp] theorem Group.modPath_ckpt (g : Group) (b : Bool) (h : PathState → PathState) : (g.modPath b h).ckpt = g.ckpt := by cases b <;> rfl
@[simp] theorem Group.modP_ckpt (g : Group) (h : PathState → PathState) : (g.modP h).ckpt = g.ckpt := Group.modPath_ckpt g g.curF h
@[simp] theorem Group.setPath_fetchAt (g : Group) (b : Bool) (p : PathState) : (g.setPath b p).fetchAt = g.fetchAt := by cases b <;> rfl
@[simp] theorem Group.modPath_fetchAt (g : Group) (b : Bool) (h : PathState → PathState) : (g.modPath b h).fetchAt = g.fetchAt := by cases b <;> rfl
@[simp] theorem Group.modP_fetchAt (g : Group) (h : PathState → PathState) : (g.modP h).fetchAt = g.fetchAt := Group.modPath_fetchAt g g.curF h
@[simp] theorem Group.setPath_firstAt (g : Group) (b : Bool) (p : PathState) : (g.setPath b p).firstAt = g.firstAt := by cases b <;> rfl
@[simp] theorem Group.modPath_firstAt (g : Group) (b : Bool) (h : PathState → PathState) : (g.modPath b h).firstAt = g.firstAt := by cases b <;> rfl
@[simp] theorem Group.modP_firstAt (g : Group) (h : PathState → PathState) : (g.modP h).firstAt = g.firstAt := Group.modPath_firstAt g g.curF h
@[simp] theorem Group.setPath_taken (g : Group) (b : Bool) (p : PathState) : (g.setPath b p).taken = g.taken := by cases b <;> rfl
@[simp] theorem Group.modPath_taken (g : Group) (b : Bool) (h : PathState → PathState) : (g.modPath b h).taken = g.taken := by cases b <;> rfl
@[simp] theorem Group.modP_taken (g : Group) (h : PathState → PathState) : (g.modP h).taken = g.taken := Group.modPath_taken g g.curF h
@[simp] theorem Group.setPath_syncDue (g : Group) (b : Bool) (p : PathState) : (g.setPath b p).syncDue = g.syncDue := by cases b <;> rfl
@[simp] theorem Group.modPath_syncDue (g : Group) (b : Bool) (h : PathState → PathState) : (g.modPath b h).syncDue = g.syncDue := by cases b <;> rfl
@[simp] theorem Group.modP_syncDue (g : Group) (h : PathState → PathState) : (g.modP h).syncDue = g.syncDue := Group.modPath_syncDue g g.curF h
@[simp] theorem Group.setPath_stopped (g : Group) (b : Bool) (p : PathState) : (g.setPath b p).stopped = g.stopped := by cases b <;> rfl
@[simp] theorem Group.modPath_stopped (g : Group) (b : Bool) (h : PathState → PathState) : (g.modPath b h).stopped = g.stopped := by cases b <;> rfl
@[simp] theorem Group.modP_stopped (g : Group) (h : PathState → PathState) : (g.modP h).stopped = g.stopped := Group.modPath_stopped g g.curF h
@[simp] theorem Group.setPath_parkedAt (g : Group) (b : Bool) (p : PathState) : (g.setPath b p).parkedAt = g.parkedAt := by cases b <;> rfl
@[simp] theorem Group.modPath_parkedAt (g : Group) (b : Bool) (h : PathState → PathState) : (g.modPath b h).parkedAt = g.parkedAt := by cases b <;> rfl
@[simp] theorem Group.modP_parkedAt (g : Group) (h : PathState → PathState) : (g.modP h).parkedAt = g.parkedAt := Group.modPath_parkedAt g g.curF h
@[simp] theorem Group.setPath_wordAt (g : Group) (b : Bool) (p : PathState) : (g.setPath b p).wordAt = g.wordAt := by cases b <;> rfl
@[simp] theorem Group.modPath_wordAt (g : Group) (b : Bool) (h : PathState → PathState) : (g.modPath b h).wordAt = g.wordAt := by cases b <;> rfl
@[simp] theorem Group.modP_wordAt (g : Group) (h : PathState → PathState) : (g.modP h).wordAt = g.wordAt := Group.modPath_wordAt g g.curF h

/-! ### Path slots -/

@[simp] theorem Group.setPath_path (g : Group) (b : Bool) (p : PathState) : (g.setPath b p).path b = p := by cases b <;> rfl
@[simp] theorem Group.setPath_other (g : Group) (b : Bool) (p : PathState) : (g.setPath b p).path (!b) = g.path (!b) := by
  cases b <;> rfl
@[simp] theorem Group.modPath_path (g : Group) (b : Bool) (h : PathState → PathState) :
    (g.modPath b h).path b = h (g.path b) := by cases b <;> rfl
@[simp] theorem Group.modPath_other (g : Group) (b : Bool) (h : PathState → PathState) :
    (g.modPath b h).path (!b) = g.path (!b) := by cases b <;> rfl
@[simp] theorem Group.modP_p (g : Group) (h : PathState → PathState) : (g.modP h).p = h g.p := by
  unfold Group.modP Group.setP Group.p
  cases hc : g.curF <;> simp [Group.setPath, Group.path, hc]
@[simp] theorem Group.setPath_setPath (g : Group) (b : Bool) (p q : PathState) :
    (g.setPath b p).setPath b q = g.setPath b q := by cases b <;> rfl
@[simp] theorem Group.setPath_self (g : Group) (b : Bool) : g.setPath b (g.path b) = g := by cases b <;> rfl
theorem Group.modP_modP (g : Group) (h k : PathState → PathState) : (g.modP h).modP k = g.modP (k ∘ h) := by
  unfold Group.modP Group.setP Group.p
  cases hc : g.curF <;> simp [Group.setPath, Group.path, hc]

/-! ### Reading back -/

@[simp] theorem State.modG_modG (s : State) (f k : Group → Group) : (s.modG f).modG k = s.modG (k ∘ f) := rfl
@[simp] theorem State.modG_id (s : State) : s.modG id = s := rfl
@[simp] theorem State.modG_core (s : State) (f : Group → Group) (c : Nat) : (s.modG f).core c = s.core c := rfl
@[simp] theorem State.modG_die (s : State) (f : Group → Group) (d : Nat) : (s.modG f).die d = s.die d := rfl
@[simp] theorem State.modG_encl (s : State) (f : Group → Group) (e : Nat) : (s.modG f).encl e = s.encl e := rfl
@[simp] theorem State.modG_hart (s : State) (f : Group → Group) (h : Nat) : (s.modG f).hart h = s.hart h := rfl
@[simp] theorem State.modCore_die (s : State) (c : Nat) (f : Core → Core) (d : Nat) : (s.modCore c f).die d = s.die d := rfl
@[simp] theorem State.modCore_encl (s : State) (c : Nat) (f : Core → Core) (e : Nat) : (s.modCore c f).encl e = s.encl e := rfl
@[simp] theorem State.modCore_hart (s : State) (c : Nat) (f : Core → Core) (h : Nat) : (s.modCore c f).hart h = s.hart h := rfl

end Sys2Proof.Machine
end

