-- ==== Sys2Proof/Laws/Issue.lean ====
section
/-! SUPPORT. What issuing a word does, said once: Lamplight's counting is quiet, retiring a word moves the path on and
changes no register, and a scalar or vector result reaches its register and nothing else. -/

namespace Sys2Proof.Machine

/-! ### Quiet changes: clocks, leaves, counters and trace packets -/

/-- Only the clocks and the Lamplight state of cores differ. -/
structure Quiet (s t : State) : Prop where
  rest : t = { s with cores := t.cores }
  cores : ∀ c, (t.core c).arch = (s.core c).arch

theorem Quiet.refl (s : State) : Quiet s s := ⟨rfl, fun _ => rfl⟩
theorem Quiet.trans {s t u : State} (h : Quiet s t) (k : Quiet t u) : Quiet s u :=
  ⟨by rw [k.rest, h.rest], fun c => (k.cores c).trans (h.cores c)⟩
theorem Quiet.g {s t : State} (h : Quiet s t) : t.g = s.g := by rw [h.rest]
theorem Quiet.mem {s t : State} (h : Quiet s t) : t.mem = s.mem := by rw [h.rest]

theorem State.core_modCore (s : State) (c : Nat) (f : Core → Core) (k : Nat) :
    (s.modCore c f).core k = if k = c then f (s.core c) else s.core k := smGet_smSet _ _ _ _ _

theorem quiet_modCore (s : State) (c : Nat) (f : Core → Core) (h : ∀ k, (f k).arch = k.arch) : Quiet s (s.modCore c f) := by
  refine ⟨rfl, fun k => ?_⟩
  rw [State.core_modCore]
  split
  · next hk => rw [h, hk]
  · rfl

theorem Core.arch_trace (k : Core) (f : Trace) : ({ k with trace := f } : Core).arch = k.arch := rfl
theorem Core.arch_bank (k : Core) (b : Bank) : ({ k with bank := b } : Core).arch = k.arch := rfl

theorem quiet_catchUp (s : State) (core : Nat) : Quiet s (s.catchUp core) := by
  unfold State.catchUp
  dsimp only
  split
  · exact Quiet.refl s
  · exact quiet_modCore _ _ _ fun k => rfl
theorem quiet_emitPacket (s : State) (g : Group) (p : List Word) : Quiet s (s.emitPacket g p) := by
  unfold State.emitPacket
  split
  · exact (quiet_catchUp s _).trans (quiet_modCore _ _ _ fun k => rfl)
  · exact Quiet.refl s
theorem quiet_emit (s : State) (g : Group) (typ payload : Nat) : Quiet s (s.emit g typ payload) := quiet_emitPacket _ _ _

theorem quiet_foldl {β : Type} (f : State → β → State) (h : ∀ s b, Quiet s (f s b)) (l : List β) :
    ∀ s, Quiet s (l.foldl f s) := by
  induction l with
  | nil => exact fun s => Quiet.refl s
  | cons b l ih => exact fun s => (h s b).trans (ih _)

theorem quiet_eventAt (s : State) (core : Nat) (o : Option Group) (evid leaf n : Nat) : Quiet s (s.eventAt core o evid leaf n) := by
  unfold State.eventAt
  dsimp only
  split
  · exact Quiet.refl s
  · have q := quiet_modCore s core (fun c => { c with bank := (s.core core).bank.addEvents evid n (o.map fun g => (g.gid, g.enc)) })
      fun k => rfl
    split
    · exact q.trans (quiet_foldl _ (fun s i => quiet_emit s _ _ _) _ _)
    · exact q
theorem quiet_event (s : State) (g : Group) (evid leaf n : Nat) : Quiet s (s.event g evid leaf n) := quiet_eventAt _ _ _ _ _ _
theorem quiet_slotEvent (s : State) (core : Nat) (o : Option Group × Nat) (n : Nat) : Quiet s (s.slotEvent core o n) := by
  unfold State.slotEvent
  refine (quiet_eventAt _ _ _ _ _ _).trans (quiet_foldl _ (fun s' i => ?_) _ _)
  split
  · exact quiet_eventAt _ _ _ _ _ _
  · exact Quiet.refl _

theorem Core.arch_modSlot (k : Core) (x : Nat) (f : Slot → Slot)
    (h : ∀ y, ({ f y with leaves := [], holds := none, lag := 0 } : Slot) = { y with leaves := [], holds := none, lag := 0 }) :
    (k.modSlot x f).arch = k.arch := by
  unfold Core.modSlot Core.arch
  split <;> simp [h]
theorem Core.arch_countSlot (k : Core) (x : Nat) (o : Option Group × Nat) (n : Nat) : (k.countSlot x o n).arch = k.arch :=
  Core.arch_modSlot k x _ fun _ => rfl

theorem quiet_countCycles (s : State) (core slot : Nat) (o : Option Group × Nat) (n : Nat) :
    Quiet s (s.countCycles core slot o n) := by
  have count (s : State) (l n : Nat) : Quiet s ((s.modCore core (·.countSlot slot (o.1, l) n)).slotEvent core (o.1, l) n) :=
    (quiet_modCore _ _ _ fun k => Core.arch_countSlot k _ _ _).trans (quiet_slotEvent _ _ _ _)
  unfold State.countCycles
  dsimp only
  split
  · split
    · exact count _ _ _
    · exact (count _ _ _).trans (count _ _ _)
  · exact count _ _ _
theorem quiet_slotPass (s : State) (core slot n : Nat) : Quiet s (s.slotPass core slot n) := by
  have lag (s : State) (f : Slot → Nat) : Quiet s (s.modCore core (·.modSlot slot fun x => { x with lag := f x })) :=
    quiet_modCore _ _ _ fun k => Core.arch_modSlot k _ _ fun _ => rfl
  unfold State.slotPass
  split
  · exact Quiet.refl s
  · split
    · exact lag s _
    · exact (quiet_countCycles _ _ _ _ _).trans (lag _ _)

/-- Spending slot cycles is quiet. -/
theorem quiet_spend (s : State) (leaf n : Nat) : Quiet s (s.spend leaf n) := by
  unfold State.spend
  split
  · exact Quiet.refl s
  · dsimp only
    refine Quiet.trans ?_ (quiet_slotPass _ _ _ _)
    refine Quiet.trans ?_ (quiet_countCycles _ _ _ _ _)
    refine Quiet.trans ?_ (quiet_modCore _ _ _ fun k => Core.arch_modSlot k _ _ fun _ => rfl)
    exact quiet_modCore _ _ _ fun k => rfl

theorem quiet_spendWord (s : State) (leaf n : Nat) : Quiet s (s.spendWord leaf n) := by
  unfold State.spendWord
  split
  · exact quiet_spend _ _ _
  · exact (quiet_spend _ _ _).trans (quiet_spend _ _ _)

@[simp] theorem State.spend_g (s : State) (leaf n : Nat) : (s.spend leaf n).g = s.g := (quiet_spend s leaf n).g
@[simp] theorem State.spendWord_g (s : State) (leaf n : Nat) : (s.spendWord leaf n).g = s.g := (quiet_spendWord s leaf n).g
@[simp] theorem State.emit_g (s : State) (g : Group) (a b : Nat) : (s.emit g a b).g = s.g := (quiet_emit s g a b).g

/-! ### What registers read -/

/-- Two groups whose registers read the same. -/
structure SameRegs (g h : Group) : Prop where
  sring : h.sring = g.sring
  sfix : h.sfix = g.sfix
  vring : h.vring = g.vring
  vfix : h.vfix = g.vfix
  wpos : h.wpos = g.wpos
  curF : h.curF = g.curF
  mask : ∀ b, (h.path b).mask = (g.path b).mask

theorem SameRegs.refl (g : Group) : SameRegs g g := ⟨rfl, rfl, rfl, rfl, rfl, rfl, fun _ => rfl⟩
theorem SameRegs.trans {g h k : Group} (a : SameRegs g h) (b : SameRegs h k) : SameRegs g k :=
  ⟨b.sring.trans a.sring, b.sfix.trans a.sfix, b.vring.trans a.vring, b.vfix.trans a.vfix, b.wpos.trans a.wpos,
   b.curF.trans a.curF, fun x => (b.mask x).trans (a.mask x)⟩

theorem SameRegs.sr {g h : Group} (a : SameRegs g h) (r : Reg) : h.sr r = g.sr r := by
  unfold Group.sr Group.loc
  rw [a.wpos, a.curF]
  unfold Group.rd
  split <;> simp [a.sring, a.sfix, a.mask]
theorem SameRegs.vr {g h : Group} (a : SameRegs g h) (r : Reg) : h.vr r = g.vr r := by
  unfold Group.vr Group.vloc
  rw [a.wpos]
  unfold Group.vrd
  split <;> simp [a.vring, a.vfix]

/-- A change of a path slot that keeps its mask keeps every register. -/
theorem sameRegs_modPath (g : Group) (b : Bool) (h : PathState → PathState) (hm : ∀ p, (h p).mask = p.mask) :
    SameRegs g (g.modPath b h) :=
  ⟨by simp, by simp, by simp, by simp, by simp, by simp, fun x => by
    cases b <;> cases x <;> simp [Group.modPath, Group.setPath, Group.path, hm]⟩
theorem sameRegs_modP (g : Group) (h : PathState → PathState) (hm : ∀ p, (h p).mask = p.mask) : SameRegs g (g.modP h) :=
  sameRegs_modPath g g.curF h hm

/-- The bookkeeping of a run changes no register. -/
theorem sameRegs_noteHints (g : Group) : SameRegs g g.noteHints := by
  unfold Group.noteHints
  split <;> exact ⟨rfl, rfl, rfl, rfl, rfl, rfl, fun b => by cases b <;> rfl⟩
theorem sameRegs_boundary (g : Group) : SameRegs g g.boundary :=
  ⟨rfl, rfl, rfl, rfl, rfl, rfl, fun b => by cases b <;> rfl⟩
theorem sameRegs_clauseEnd (g : Group) : SameRegs g g.clauseEnd := by
  unfold Group.clauseEnd
  split
  · exact (sameRegs_noteHints g).trans (sameRegs_boundary _)
  · exact sameRegs_noteHints g
theorem sameRegs_rc (g : Group) (n : Nat) : SameRegs g { g with rc := n } :=
  ⟨rfl, rfl, rfl, rfl, rfl, rfl, fun b => by cases b <;> rfl⟩

theorem sameRegs_advance (g : Group) : SameRegs g g.advance := by
  unfold Group.advance
  dsimp only
  split
  · exact ((sameRegs_rc g _).trans (sameRegs_clauseEnd _)).trans (sameRegs_modP _ _ fun _ => rfl)
  · exact (sameRegs_rc g _).trans (sameRegs_modP _ _ fun _ => rfl)
theorem sameRegs_jump (g : Group) (t : VAddr) : SameRegs g (g.jump t) :=
  ((sameRegs_rc g _).trans (sameRegs_clauseEnd _)).trans (sameRegs_modP _ _ fun _ => rfl)

/-! ### What the frame keeps -/

theorem arch_modP (g : Group) (h : PathState → PathState)
    (hp : ∀ p : PathState, ({ h p with pc := 0, cwi := 0, hdr := none, noMatch := false, mask := 0 } : PathState) =
      { p with pc := 0, cwi := 0, hdr := none, noMatch := false, mask := 0 }) : (g.modP h).arch = g.arch := by
  unfold Group.arch
  rw [Group.modP_modP]
  have e : ((fun p : PathState => ({ p with pc := 0, cwi := 0, hdr := none, noMatch := false, mask := 0 } : PathState)) ∘ h) =
      fun p => { p with pc := 0, cwi := 0, hdr := none, noMatch := false, mask := 0 } := funext hp
  rw [e]

theorem arch_noteHints (g : Group) : g.noteHints.arch = g.arch := by
  unfold Group.noteHints
  split
  · unfold Group.arch Group.modP Group.setP Group.p
    cases hc : g.curF <;> simp [Group.setPath, Group.path, hc]
  · rfl
theorem arch_boundary (g : Group) : g.boundary.arch = g.arch := by
  unfold Group.boundary Group.arch Group.modP Group.setP Group.p
  cases hc : g.curF <;> simp [Group.setPath, Group.path, hc]
theorem arch_clauseEnd (g : Group) : g.clauseEnd.arch = g.arch := by
  unfold Group.clauseEnd
  split
  · rw [arch_boundary, arch_noteHints]
  · exact arch_noteHints g
theorem arch_rc (g : Group) (n : Nat) : ({ g with rc := n } : Group).arch = g.arch := by
  unfold Group.arch Group.modP Group.setP Group.p
  cases hc : g.curF <;> simp [Group.setPath, Group.path, hc]
theorem arch_fpf (g : Group) (n : Flags) : ({ g with fpf := n } : Group).arch = g.arch := by
  unfold Group.arch Group.modP Group.setP Group.p
  cases hc : g.curF <;> simp [Group.setPath, Group.path, hc]
theorem arch_advance (g : Group) : g.advance.arch = g.arch := by
  unfold Group.advance
  dsimp only
  split
  · refine (arch_modP _ _ ?_).trans ((arch_clauseEnd _).trans (arch_rc g _))
    intro p; rfl
  · refine (arch_modP _ _ ?_).trans (arch_rc g _)
    intro p; rfl
theorem arch_jump (g : Group) (t : VAddr) : (g.jump t).arch = g.arch := by
  unfold Group.jump
  refine (arch_modP _ _ ?_).trans ((arch_clauseEnd _).trans (arch_rc g _))
  intro p; rfl

theorem fpf_modP (g : Group) (h : PathState → PathState) : (g.modP h).fpf = g.fpf := by simp
theorem fpf_clauseEnd (g : Group) : g.clauseEnd.fpf = g.fpf := by
  unfold Group.clauseEnd Group.noteHints
  split <;> split <;> rfl
theorem fpf_advance (g : Group) : g.advance.fpf = g.fpf := by
  unfold Group.advance
  dsimp only
  split
  · rw [fpf_modP, fpf_clauseEnd]
  · rw [fpf_modP]
theorem fpf_jump (g : Group) (t : VAddr) : (g.jump t).fpf = g.fpf := by
  unfold Group.jump
  rw [fpf_modP, fpf_clauseEnd]

/-! ### Frames -/

theorem Core.pool_of_arch {a b : Core} (h : a.arch = b.arch) : a.pool = b.pool :=
  show a.arch.pool = b.arch.pool by rw [h]

/-- A quiet change followed by a change of the focused group that the frame keeps. -/
theorem registerOnly_of_quiet {s u : State} (q : Quiet s u) (f : Group → Group) (hf : (f s.g).arch = s.g.arch) :
    RegisterOnly s (u.modG f) where
  rest := by rw [q.rest]; rfl
  cores c := q.cores c
  group := by rw [State.modG_g, q.g]; exact hf
  memory a := by rw [State.modG_mem, q.mem]
  pools c a := by
    have h := Core.pool_of_arch (q.cores c)
    show memByte (u.core c).pool a = memByte (s.core c).pool a
    rw [h]

theorem RegisterOnly.refl (s : State) : RegisterOnly s s := ⟨rfl, fun _ => rfl, rfl, fun _ => rfl, fun _ _ => rfl⟩
theorem RegisterOnly.trans {s t u : State} (a : RegisterOnly s t) (b : RegisterOnly t u) : RegisterOnly s u where
  rest := by rw [b.rest, a.rest]
  cores c := (b.cores c).trans (a.cores c)
  group := b.group.trans a.group
  memory x := (b.memory x).trans (a.memory x)
  pools c x := (b.pools c x).trans (a.pools c x)
theorem registerOnly_quiet {s u : State} (q : Quiet s u) : RegisterOnly s u := by
  have h := registerOnly_of_quiet q id rfl
  rwa [State.modG_id] at h

/-- Retiring a word: no register changes. -/
theorem retire_noEffect (n : Nat) (s : State) : NoEffect s (s.retire n) where
  scalars r := by rw [State.retire, State.modG_g, State.spendWord_g]; exact (sameRegs_advance _).sr r
  vectors r := by rw [State.retire, State.modG_g, State.spendWord_g]; exact (sameRegs_advance _).vr r
  flags := by rw [State.retire, State.modG_g, State.spendWord_g]; exact fpf_advance _
  frame := registerOnly_of_quiet (quiet_spendWord _ _ _) _ (arch_advance _)
/-- Retiring a vector word likewise. -/
theorem retireV_noEffect (n : Nat) (s : State) : NoEffect s (s.retireV n) where
  scalars r := by rw [State.retireV, State.modG_g, State.spendWord_g]; exact (sameRegs_advance _).sr r
  vectors r := by rw [State.retireV, State.modG_g, State.spendWord_g]; exact (sameRegs_advance _).vr r
  flags := by rw [State.retireV, State.modG_g, State.spendWord_g]; exact fpf_advance _
  frame := registerOnly_of_quiet (quiet_spendWord _ _ _) _ (arch_advance _)
/-- A taken transfer likewise. -/
theorem retireJump_noEffect (t : VAddr) (s : State) : NoEffect s (s.retireJump t) where
  scalars r := by rw [State.retireJump, State.modG_g, State.spend_g, State.spendWord_g]; exact (sameRegs_jump _ _).sr r
  vectors r := by rw [State.retireJump, State.modG_g, State.spend_g, State.spendWord_g]; exact (sameRegs_jump _ _).vr r
  flags := by rw [State.retireJump, State.modG_g, State.spend_g, State.spendWord_g]; exact fpf_jump _ _
  frame := registerOnly_of_quiet ((quiet_spendWord _ _ _).trans (quiet_spend _ _ _)) _ (arch_jump _ _)
/-- A quiet change likewise. -/
theorem quiet_noEffect {s u : State} (q : Quiet s u) : NoEffect s u where
  scalars r := by rw [q.g]
  vectors r := by rw [q.g]
  flags := by rw [q.g]
  frame := registerOnly_quiet q

/-! ### The place in the code -/

/-- Two groups whose executing path slot stands at the same word of the same clause. -/
structure SamePlace (g h : Group) : Prop where
  curF : h.curF = g.curF
  pc : h.p.pc = g.p.pc
  cwi : h.p.cwi = g.p.cwi
  hdr : h.p.hdr = g.p.hdr

theorem SamePlace.refl (g : Group) : SamePlace g g := ⟨rfl, rfl, rfl, rfl⟩
theorem samePlace_modPath (g : Group) (b : Bool) (f : PathState → PathState)
    (h : ∀ p, (f p).pc = p.pc ∧ (f p).cwi = p.cwi ∧ (f p).hdr = p.hdr) : SamePlace g (g.modPath b f) :=
  ⟨by simp, by cases b <;> cases e : g.curF <;> simp [Group.modPath, Group.setPath, Group.path, Group.p, e, h],
   by cases b <;> cases e : g.curF <;> simp [Group.modPath, Group.setPath, Group.path, Group.p, e, h],
   by cases b <;> cases e : g.curF <;> simp [Group.modPath, Group.setPath, Group.path, Group.p, e, h]⟩

/-- What goes on from the same place goes on in the same way. -/
theorem SamePlace.goesOn {s u t : State} (a : SamePlace s.g u.g) (h : GoesOn u t) : GoesOn s t := by
  unfold GoesOn Group.lastWord Group.nextHeader Group.clauseLen Group.header at *
  rw [a.curF, a.pc, a.cwi, a.hdr] at h
  exact h

theorem Group.clauseEnd_curF (g : Group) : g.clauseEnd.curF = g.curF := by
  unfold Group.clauseEnd Group.noteHints Group.boundary
  split <;> split <;> rfl

/-- A retired word goes on in sequence. -/
theorem Group.advance_goesOn (g : Group) : g.advance.curF = g.curF ∧
    if g.lastWord then g.advance.p.pc = g.nextHeader ∧ g.advance.p.cwi = 0
    else g.advance.p.pc = g.p.pc ∧ g.advance.p.cwi = g.p.cwi + 1 := by
  have hp (g : Group) (n : Nat) : ({ g with rc := n } : Group).p = g.p := by
    cases h : g.curF <;> simp [Group.p, Group.path, h]
  have hl : ({ g with rc := g.rc + 1 } : Group).lastWord = g.lastWord := by
    simp [Group.lastWord, Group.clauseLen, Group.header, hp]
  have hn : ({ g with rc := g.rc + 1 } : Group).nextHeader = g.nextHeader := by
    simp [Group.nextHeader, Group.clauseLen, Group.header, hp]
  unfold Group.advance
  simp only [hl, hn]
  cases g.lastWord
  · simp [Group.p, Group.modP, Group.setP, Group.path, Group.setPath]
    cases g.curF <;> simp
  · simp [Group.p, Group.modP, Group.setP, Group.path, Group.setPath, Group.clauseEnd_curF]
    cases g.curF <;> simp

/-- Retiring a word goes on in sequence. -/
theorem retire_goesOn (n : Nat) (s : State) : GoesOn s (s.retire n) := by
  unfold GoesOn State.retire
  rw [State.modG_g, State.spendWord_g]
  exact Group.advance_goesOn _
theorem retireV_goesOn (n : Nat) (s : State) : GoesOn s (s.retireV n) := by
  unfold GoesOn State.retireV
  rw [State.modG_g, State.spendWord_g]
  exact Group.advance_goesOn _

theorem NoEffect.trans {s t u : State} (a : NoEffect s t) (b : NoEffect t u) : NoEffect s u where
  scalars r := (b.scalars r).trans (a.scalars r)
  vectors r := (b.vectors r).trans (a.vectors r)
  flags := b.flags.trans a.flags
  frame := a.frame.trans b.frame

end Sys2Proof.Machine
end

