-- ==== Sys2Proof/Laws/Registers.lean ====
section
/-! SUPPORT. Register reads after register writes, and the two results that most instructions have: one scalar register,
or the active elements of one vector register. -/

namespace Sys2Proof.Machine

/-! ### Mask words -/

theorem maskWord_lt (m : Mask) (k : Nat) : maskWord m k < 2 ^ 32 := Nat.mod_lt _ (by decide)

/-- The words of a mask after one of them is replaced. -/
theorem maskWord_setMaskWord (m : Mask) (k v j : Nat) (hk : k < 3) (hj : j < 3) :
    maskWord (setMaskWord m k v) j = if j = k then v % 2 ^ 32 else maskWord m j := by
  have hm := m.isLt
  simp only [maskWord, setMaskWord, bitsAt, BitVec.toNat_ofNat]
  rcases k with _ | _ | _ | k <;> rcases j with _ | _ | _ | j <;> simp <;> omega

/-! ### Scalar registers -/

theorem Group.loc_curF (g : Group) (r : Reg) (h1 : 60 ≤ r.toNat) (h2 : r.toNat < 63) :
    g.loc r = .mask g.curF (r.toNat - 60) := by
  unfold Group.loc
  rw [if_neg (by omega), if_neg (by omega), if_pos h2]

theorem Group.loc_ring (g : Group) (r : Reg) (h : r.toNat < 48) : g.loc r = .ring ((g.wpos + r.toNat) % 64) := by
  unfold Group.loc; rw [if_pos h]
theorem Group.loc_fix (g : Group) (r : Reg) (h1 : 48 ≤ r.toNat) (h2 : r.toNat < 60) : g.loc r = .fix r.toNat := by
  unfold Group.loc; rw [if_neg (by omega), if_pos h2]
theorem Group.loc_zero (g : Group) (r : Reg) (h : 63 ≤ r.toNat) : g.loc r = .zero := by
  unfold Group.loc; rw [if_neg (by omega), if_neg (by omega), if_neg (by omega)]

theorem Group.sr_ring (g : Group) (r : Reg) (h : r.toNat < 48) : g.sr r = smGet 0 g.sring ((g.wpos + r.toNat) % 64) := by
  unfold Group.sr; rw [g.loc_ring r h]; rfl
theorem Group.sr_fix (g : Group) (r : Reg) (h1 : 48 ≤ r.toNat) (h2 : r.toNat < 60) : g.sr r = smGet 0 g.sfix r.toNat := by
  unfold Group.sr; rw [g.loc_fix r h1 h2]; rfl
theorem Group.sr_mask (g : Group) (r : Reg) (h1 : 60 ≤ r.toNat) (h2 : r.toNat < 63) :
    g.sr r = BitVec.ofNat 64 (maskWord (g.path g.curF).mask (r.toNat - 60)) := by
  unfold Group.sr; rw [g.loc_curF r h1 h2]; rfl
theorem Group.sr_zero (g : Group) (r : Reg) (h : 63 ≤ r.toNat) : g.sr r = 0 := by
  unfold Group.sr; rw [g.loc_zero r h]; rfl

/-- The four kinds of scalar register. -/
theorem Reg.kinds (r : Reg) : r.toNat < 48 ∨ (48 ≤ r.toNat ∧ r.toNat < 60) ∨ (60 ≤ r.toNat ∧ r.toNat < 63) ∨ 63 ≤ r.toNat := by
  omega

theorem Reg.ne_toNat {r d : Reg} (h : r ≠ d) : r.toNat ≠ d.toNat := fun hh => h (BitVec.eq_of_toNat_eq hh)

theorem Group.kept_plain (g : Group) (d : Reg) (v : Word) (h : d.toNat < 60) (h' : ¬(d.toNat = 56 ∨ d.toNat = 57)) :
    g.kept d v = v := by
  unfold Group.kept
  rw [if_neg h', if_neg (by omega), if_neg (by omega)]

/-- Reading any scalar register after one is written. -/
theorem Group.sr_setS (g : Group) (d : Reg) (v : Word) (r : Reg) :
    (g.setS d v).sr r = if r = d then g.kept d v else g.sr r := by
  have hr := r.isLt
  have hd := d.isLt
  unfold Group.setS
  rcases Reg.kinds d with d1 | ⟨d1, d2⟩ | ⟨d1, d2⟩ | d1
  · rw [g.loc_ring d d1]
    by_cases hrd : r = d
    · subst hrd
      rw [if_pos rfl, g.kept_plain r v (by omega) (by omega), Group.sr_ring _ r d1]
      exact smGet_smSet_self _ _ _ _
    · rw [if_neg hrd]
      have hne := Reg.ne_toNat hrd
      rcases Reg.kinds r with r1 | ⟨r1, r2⟩ | ⟨r1, r2⟩ | r1
      · rw [Group.sr_ring _ r r1, Group.sr_ring _ r r1]
        have hx : (g.wpos + r.toNat) % 64 ≠ (g.wpos + d.toNat) % 64 := by omega
        exact smGet_smSet_ne _ _ _ _ hx
      · rw [Group.sr_fix _ r r1 r2, Group.sr_fix _ r r1 r2]; rfl
      · rw [Group.sr_mask _ r r1 r2, Group.sr_mask _ r r1 r2]; rfl
      · rw [Group.sr_zero _ r r1, Group.sr_zero _ r r1]
  · rw [g.loc_fix d d1 d2]
    simp only [Group.wr]
    by_cases d3 : d.toNat = 56 ∨ d.toNat = 57
    · rw [if_pos d3]
      by_cases hrd : r = d
      · subst hrd; rw [if_pos rfl]; unfold Group.kept; rw [if_pos d3]
      · rw [if_neg hrd]
    · rw [if_neg d3]
      by_cases hrd : r = d
      · subst hrd
        rw [if_pos rfl, g.kept_plain r v d2 d3, Group.sr_fix _ r d1 d2]
        exact smGet_smSet_self _ _ _ _
      · rw [if_neg hrd]
        have hne := Reg.ne_toNat hrd
        rcases Reg.kinds r with r1 | ⟨r1, r2⟩ | ⟨r1, r2⟩ | r1
        · rw [Group.sr_ring _ r r1, Group.sr_ring _ r r1]
        · rw [Group.sr_fix _ r r1 r2, Group.sr_fix _ r r1 r2]
          exact smGet_smSet_ne _ _ _ _ hne
        · rw [Group.sr_mask _ r r1 r2, Group.sr_mask _ r r1 r2]; rfl
        · rw [Group.sr_zero _ r r1, Group.sr_zero _ r r1]
  · rw [g.loc_curF d d1 d2]
    simp only [Group.wr]
    by_cases hrd : r = d
    · subst hrd
      rw [if_pos rfl, Group.sr_mask _ r d1 d2, Group.modPath_curF, Group.modPath_path,
        maskWord_setMaskWord _ _ _ _ (by omega) (by omega), if_pos rfl]
      unfold Group.kept
      rw [if_neg (by omega), if_neg (by omega), if_pos d1]
    · rw [if_neg hrd]
      have hne := Reg.ne_toNat hrd
      rcases Reg.kinds r with r1 | ⟨r1, r2⟩ | ⟨r1, r2⟩ | r1
      · rw [Group.sr_ring _ r r1, Group.sr_ring _ r r1]; simp
      · rw [Group.sr_fix _ r r1 r2, Group.sr_fix _ r r1 r2]; simp
      · rw [Group.sr_mask _ r r1 r2, Group.sr_mask _ r r1 r2, Group.modPath_curF, Group.modPath_path,
          maskWord_setMaskWord _ _ _ _ (by omega) (by omega), if_neg (by omega)]
      · rw [Group.sr_zero _ r r1, Group.sr_zero _ r r1]
  · rw [g.loc_zero d d1]
    simp only [Group.wr]
    by_cases hrd : r = d
    · subst hrd
      rw [if_pos rfl, Group.sr_zero _ r d1]
      unfold Group.kept
      rw [if_neg (by omega), if_pos (by omega)]
    · rw [if_neg hrd]

theorem Group.vr_setS (g : Group) (d : Reg) (v : Word) (r : Reg) : (g.setS d v).vr r = g.vr r := by
  unfold Group.setS Group.wr
  split
  · rfl
  · split <;> rfl
  · unfold Group.vr Group.vloc Group.vrd; simp
  · rfl

theorem Group.fpf_setS (g : Group) (d : Reg) (v : Word) : (g.setS d v).fpf = g.fpf := by
  unfold Group.setS Group.wr
  split
  · rfl
  · split <;> rfl
  · simp
  · rfl

theorem Group.arch_setS (g : Group) (d : Reg) (v : Word) : (g.setS d v).arch = g.arch := by
  unfold Group.setS
  by_cases d1 : d.toNat < 48
  · rw [g.loc_ring d d1]
    unfold Group.arch Group.wr Group.modP Group.setP Group.p
    cases hc : g.curF <;> simp [Group.setPath, Group.path, hc]
  · by_cases d2 : d.toNat < 60
    · rw [g.loc_fix d (by omega) d2]
      simp only [Group.wr]
      split
      · rfl
      · unfold Group.arch Group.modP Group.setP Group.p
        cases hc : g.curF <;> simp [Group.setPath, Group.path, hc]
    · by_cases d4 : d.toNat < 63
      · rw [g.loc_curF d (by omega) d4]
        exact arch_modP g (fun p => { p with mask := setMaskWord p.mask (d.toNat - 60) v.toNat }) fun p => rfl
      · rw [g.loc_zero d (by omega)]; rfl

/-- What writing a scalar register does to the state. -/
theorem setS_sets (s : State) (d : Reg) (v : Word) : SetsScalar s d v 0 (s.setS d v) := by
  have q : Quiet (s.modG (·.setS d v)) (s.setS d v) := by
    unfold State.setS
    dsimp only
    split
    · exact quiet_emit _ _ _ _
    · exact Quiet.refl _
  have hg : (s.setS d v).g = s.g.setS d v := q.g
  refine ⟨fun r => ?_, fun r => ?_, ?_, ?_⟩
  · rw [hg]; exact Group.sr_setS _ _ _ _
  · rw [hg]; exact Group.vr_setS _ _ _ _
  · rw [hg, Group.fpf_setS]; exact (BitVec.or_zero).symm
  · exact (registerOnly_of_quiet (Quiet.refl s) _ (Group.arch_setS _ _ _)).trans (registerOnly_quiet q)

/-- A scalar result followed by a change that no register sees. -/
theorem SetsScalar.then {s t u : State} {d : Reg} {v : Word} {fl : Flags} (a : SetsScalar s d v fl t) (b : NoEffect t u) :
    SetsScalar s d v fl u where
  scalars r := (b.scalars r).trans (a.scalars r)
  vectors r := (b.vectors r).trans (a.vectors r)
  flags := b.flags.trans a.flags
  frame := a.frame.trans b.frame

/-- Writing a register leaves the place in the code. -/
theorem samePlace_setS (s : State) (d : Reg) (v : Word) : SamePlace s.g (s.setS d v).g := by
  have hg : (s.setS d v).g = s.g.setS d v := by
    unfold State.setS
    dsimp only
    split
    · exact (quiet_emit _ _ _ _).g
    · rfl
  rw [hg]
  have fields (x : Group) (hc : x.curF = s.g.curF) (ht : x.t = s.g.t) (hf : x.f = s.g.f) : SamePlace s.g x := by
    refine ⟨hc, ?_, ?_, ?_⟩ <;> cases h : s.g.curF <;> simp [Group.p, Group.path, hc, ht, hf, h]
  unfold Group.setS Group.wr
  split
  · exact fields _ rfl rfl rfl
  · split
    · exact SamePlace.refl _
    · exact fields _ rfl rfl rfl
  · exact samePlace_modPath _ _ _ fun _ => ⟨rfl, rfl, rfl⟩
  · exact SamePlace.refl _

/-- A scalar register takes its value and the word retires. -/
theorem setS_retire_writes (n : Nat) (d : Reg) (v : Word) (s : State) : WritesScalar s d v 0 ((s.setS d v).retire n) :=
  { toSetsScalar := (setS_sets s d v).then (retire_noEffect n _), goes := (samePlace_setS s d v).goesOn (retire_goesOn n _) }

/-- A scalar instruction completes with its result. -/
theorem scalarOut_writes (n : Nat) (d : Reg) (v : Word) (s : State) :
    ∃ t, scalarOut n d v s = .next t ∧ WritesScalar s d v 0 t := ⟨_, rfl, setS_retire_writes n d v s⟩

/-- A scalar floating-point instruction completes with its result and flags. -/
theorem scalarFp_writes (n : Nat) (d : Reg) (r : FRes) (s : State) :
    ∃ t, scalarFp n d r s = .next t ∧ WritesScalar s d (BitVec.ofNat 64 r.bits) r.fl t := by
  have h := setS_retire_writes n d (BitVec.ofNat 64 r.bits) (s.modG (·.orFpf r.fl))
  refine ⟨_, rfl, ⟨fun x => (h.scalars x).trans rfl, fun x => (h.vectors x).trans rfl, ?_, ?_⟩, h.goes⟩
  · rw [h.flags]; exact BitVec.or_zero
  · exact (registerOnly_of_quiet (Quiet.refl s) (·.orFpf r.fl) (arch_fpf s.g _)).trans h.frame

end Sys2Proof.Machine
end

