-- ==== Sys2Proof/Laws/Control.lean ====
section
/-! SUPPORT. Where control goes: the word after a retired one, the target of a taken transfer, both sides of a conditional
transfer, and what a fault leaves. -/

namespace Sys2Proof.Machine

/-- A taken transfer stands at its target. -/
theorem Group.jump_wentTo (g : Group) (a : VAddr) :
    (g.jump a).curF = g.curF ∧ (g.jump a).p.pc = a ∧ (g.jump a).p.cwi = 0 := by
  unfold Group.jump
  simp [Group.p, Group.modP, Group.setP, Group.path, Group.setPath, Group.clauseEnd_curF]
  cases g.curF <;> simp

theorem retireJump_wentTo (a : VAddr) (s : State) : WentTo a s (s.retireJump a) := by
  unfold WentTo State.retireJump
  rw [State.modG_g, State.spend_g, State.spendWord_g]
  exact Group.jump_wentTo _ _

theorem arch_taken (g : Group) (l : List Bool) : ({ g with taken := l } : Group).arch = g.arch := by
  unfold Group.arch Group.modP Group.setP Group.p
  cases hc : g.curF <;> simp [Group.setPath, Group.path, hc]

theorem note_noEffect (b : Bool) (s : State) : NoEffect s (s.note b) :=
  ⟨fun _ => rfl, fun _ => rfl, rfl, registerOnly_of_quiet (Quiet.refl s) _ (arch_taken s.g _)⟩

/-- A conditional transfer completes on either side and changes no register. -/
theorem transferIf_completes {n : Nat} (taken : Bool) (i : BitVec n) (s : State) :
    ∃ t, transferIf taken i s = .next t ∧ NoEffect s t ∧
      (taken = true → WentTo (s.g.p.pc + 4 * i.signExtend 57) s t) ∧ (taken = false → GoesOn s t) := by
  refine ⟨_, rfl, ?_, ?_, ?_⟩
  · cases taken
    · exact (note_noEffect _ s).trans (retire_noEffect _ _)
    · exact (note_noEffect _ s).trans (retireJump_noEffect _ _)
  · rintro rfl
    exact retireJump_wentTo _ (s.note true)
  · rintro rfl
    exact retire_goesOn _ (s.note false)

theorem State.task_modTask (s : State) (k : Nat) (f : Task → Task) (j : Nat) :
    (s.modTask k f).task j = if j = k then (s.task k).map f else s.task j := by
  unfold State.modTask
  cases h : s.task k with
  | none => by_cases hj : j = k <;> simp [hj, h]
  | some x =>
    show smFind (smPut s.tasks k (f x)) j = _
    rw [smFind_smPut]
    rfl

/-- A fault of the word about to issue stops the path with its report. -/
theorem takeFault_faults (s : State) (c : Code) (a : Word) : Faults s c a (s.takeFault c a) := by
  unfold State.takeFault State.stopWith
  cases h : s.team s.g.team with
  | none => exact ⟨rfl, rfl, fun tm k ht _ => (nomatch ht.symm.trans h), fun j _ => rfl⟩
  | some tm =>
    have hg : (s.modTask tm.task (·.addReport (s.report c a (s.g.p.cwi + 1) true false))).g = s.g := by
      unfold State.modTask; split <;> rfl
    have hs : s.modTask tm.task (·.addReport (s.report c a (s.g.p.cwi + 1) true false)) =
        { s with tasks := (s.modTask tm.task (·.addReport (s.report c a (s.g.p.cwi + 1) true false))).tasks } := by
      unfold State.modTask; split <;> rfl
    refine ⟨?_, ?_, fun tm' k ht hk => ?_, fun j hj => ?_⟩
    · dsimp only
      rw [hs]
      rfl
    · rw [State.modG_g, hg]
      rfl
    · have e : tm' = tm := Option.some.inj (ht.symm.trans h)
      subst e
      refine (State.task_modTask s tm'.task _ tm'.task).trans ?_
      rw [if_pos rfl, hk]
      rfl
    · refine (State.task_modTask s tm.task _ j).trans ?_
      rw [if_neg (hj tm h)]

end Sys2Proof.Machine
end

