-- ==== Sys2Proof/Laws/Fabric.lean ====
section
/-! SUPPORT. Flits of streams: what is sealed opens to its payload, and what a stream does with a flit (25 R408). -/

namespace Sys2Proof.Machine

/-- The key stream is its own inverse. -/
theorem gcmBody_gcmBody (k : BitVec 256) (n bs : List Byte) : gcmBody k n (gcmBody k n bs) = bs := by
  apply List.ext_getElem
  · simp [gcmBody]
  · simp [gcmBody]

/-- A sealed flit opens under its own key and slot. -/
@[simp] theorem openFlit_sealFlit (k : BitVec 256) (slot q : Nat) (bs : List Byte) : openFlit k slot (sealFlit k slot q bs) = some bs := by
  simp [openFlit, sealFlit, gcmBody_gcmBody]

/-- A flit whose tag has another length than 16 bytes never opens. -/
theorem openFlit_badTag (k : BitVec 256) (slot : Nat) (f : Flit) (h : f.tag.length ≠ 16) : openFlit k slot f = none := by
  have : f.tag ≠ gcmTag k (flitNonce slot f.seq) [] f.body := fun e => h (by rw [e]; simp [gcmTag, leBytes])
  simp [openFlit, this]

/-- A flit that opens is accepted once: it joins the inbox and the run of discards ends. -/
theorem receive_open (t : Stream) (slot : Nat) (f : Flit) (bs : List Byte) (ha : f.seq ∉ t.accepted)
    (hw : t.accepted.foldl max 0 ≤ f.seq + 1024) (ho : openFlit (t.keyIn slot) slot f = some bs) :
    (t.receive slot f).inbox = t.inbox ++ [(f.seq, bs)] ∧ (t.receive slot f).discards = 0 ∧ (t.receive slot f).broken = t.broken := by
  have : ¬(t.accepted.contains f.seq = true ∨ f.seq + 1024 < t.accepted.foldl max 0) := by simp [ha]; omega
  simp only [Stream.receive, if_neg this, ho, and_self]

/-- A flit that does not open is discarded; the eighth in a row breaks the stream. -/
theorem receive_discard (t : Stream) (slot : Nat) (f : Flit) (ho : openFlit (t.keyIn slot) slot f = none) :
    t.receive slot f = { t with discards := t.discards + 1, broken := t.broken || 7 ≤ t.discards } := by
  simp [Stream.receive, ho]

end Sys2Proof.Machine
end

