-- ==== Sys2Proof/Laws/Lanes.lean ====
section
/-! SUPPORT. Vector registers: reads after writes, sub-elements of packed lanes, and the result of an element-wise word. -/

namespace Sys2Proof.Machine

/-! ### Lanes -/

theorem getD_map_range (n : Nat) (f : Nat → W32) (i : Nat) (h : i < n) : ((List.range n).map f).getD i 0 = f i := by
  rw [List.getD_eq_getElem?_getD, List.getElem?_map, List.getElem?_range h]; rfl

theorem lane_mergeLanes (m : Mask) (old : VReg) (f : Nat → W32) (i : Nat) (h : i < 96) :
    lane (mergeLanes m old f) i = if bitAt m.toNat i then f i else lane old i := getD_map_range 96 _ i h
theorem lane_merge64 (m : Mask) (old : VReg) (f : Nat → Nat) (i : Nat) (h : i < 96) :
    lane (merge64 m old f) i =
      if bitAt m.toNat (i / 2 * 2) then BitVec.ofNat 32 (f (i / 2) / 2 ^ (32 * (i % 2))) else lane old i :=
  getD_map_range 96 _ i h

theorem elem64_merge64 (m : Mask) (old : VReg) (f : Nat → Nat) (j : Nat) (h : j < 48) :
    elem64 (merge64 m old f) j = if bitAt m.toNat (2 * j) then f j % 2 ^ 64 else elem64 old j := by
  unfold elem64
  rw [lane_merge64 _ _ _ _ (by omega), lane_merge64 _ _ _ _ (by omega)]
  have h1 : 2 * j / 2 = j := by omega
  have h2 : (2 * j + 1) / 2 = j := by omega
  have h3 : 2 * j % 2 = 0 := by omega
  have h4 : (2 * j + 1) % 2 = 1 := by omega
  rw [h1, h2, h3, h4, Nat.mul_comm j 2]
  split
  · simp only [BitVec.toNat_ofNat]
    omega
  · rfl

/-- The sub-elements of a lane built from them. -/
theorem subElem_packSubs (w k : Nat) (xs : List Nat) (hw : w * xs.length ≤ 32) (hk : k < xs.length)
    (hc : (w = 32 ∧ xs.length = 1) ∨ (w = 16 ∧ xs.length = 2) ∨ (w = 8 ∧ xs.length = 4)) :
    subElem (BitVec.ofNat 32 (packSubs w xs)) w k = xs.getD k 0 % 2 ^ w := by
  unfold subElem bitsAt
  simp only [BitVec.toNat_ofNat]
  rcases hc with ⟨rfl, hl⟩ | ⟨rfl, hl⟩ | ⟨rfl, hl⟩
  · match xs, hl with
    | [a], _ => have : k = 0 := by simpa using hk
                subst this; simp [packSubs]
  · match xs, hl with
    | [a, b], _ =>
      have hk2 : k < 2 := hk
      rcases k with _ | _ | k
      · simp [packSubs]
      · simp [packSubs]; omega
      · omega
  · match xs, hl with
    | [a, b, c, d], _ =>
      have hk2 : k < 4 := hk
      rcases k with _ | _ | _ | _ | k
      · simp [packSubs]
      · simp [packSubs]; omega
      · simp [packSubs]; omega
      · simp [packSubs]; omega
      · omega

theorem vty_shape (t : VTy) (h : t ≠ .f64) :
    (t.width = 32 ∧ t.subs = 1) ∨ (t.width = 16 ∧ t.subs = 2) ∨ (t.width = 8 ∧ t.subs = 4) := by
  cases t <;> simp [VTy.width, VTy.subs] at *

/-! ### Reads after writes -/

theorem Group.vloc_ring (g : Group) (r : Reg) (h : r.toNat < 48) : g.vloc r = .ring ((g.wpos + r.toNat) % 64) := by
  unfold Group.vloc; rw [if_pos h]
theorem Group.vloc_fix (g : Group) (r : Reg) (h : ¬ r.toNat < 48) : g.vloc r = .fix r.toNat := by
  unfold Group.vloc; rw [if_neg h]
theorem Group.vr_ring (g : Group) (r : Reg) (h : r.toNat < 48) : g.vr r = smGet vzero g.vring ((g.wpos + r.toNat) % 64) := by
  unfold Group.vr; rw [g.vloc_ring r h]; rfl
theorem Group.vr_fix (g : Group) (r : Reg) (h : ¬ r.toNat < 48) : g.vr r = smGet vzero g.vfix r.toNat := by
  unfold Group.vr; rw [g.vloc_fix r h]; rfl

/-- Reading any vector register after one is written. -/
theorem Group.vr_vwr (g : Group) (d : Reg) (v : VReg) (r : Reg) :
    (g.vwr (g.vloc d) v).vr r = if r = d then v else g.vr r := by
  have hr := r.isLt
  have hd := d.isLt
  by_cases d1 : d.toNat < 48
  · rw [g.vloc_ring d d1]
    by_cases hrd : r = d
    · subst hrd
      rw [if_pos rfl, Group.vr_ring _ r d1]
      exact smGet_smSet_self _ _ _ _
    · rw [if_neg hrd]
      have hne := Reg.ne_toNat hrd
      by_cases r1 : r.toNat < 48
      · rw [Group.vr_ring _ r r1, Group.vr_ring _ r r1]
        have hx : (g.wpos + r.toNat) % 64 ≠ (g.wpos + d.toNat) % 64 := by omega
        exact smGet_smSet_ne _ _ _ _ hx
      · rw [Group.vr_fix _ r r1, Group.vr_fix _ r r1]; rfl
  · rw [g.vloc_fix d d1]
    by_cases hrd : r = d
    · subst hrd
      rw [if_pos rfl, Group.vr_fix _ r d1]
      exact smGet_smSet_self _ _ _ _
    · rw [if_neg hrd]
      have hne := Reg.ne_toNat hrd
      by_cases r1 : r.toNat < 48
      · rw [Group.vr_ring _ r r1, Group.vr_ring _ r r1]; rfl
      · rw [Group.vr_fix _ r r1, Group.vr_fix _ r r1]
        exact smGet_smSet_ne _ _ _ _ hne

theorem Group.vwr_cases (g : Group) (d : Reg) (v : VReg) :
    (∃ x, g.vwr (g.vloc d) v = { g with vring := x }) ∨ (∃ x, g.vwr (g.vloc d) v = { g with vfix := x }) := by
  by_cases d1 : d.toNat < 48
  · rw [g.vloc_ring d d1]; exact .inl ⟨_, rfl⟩
  · rw [g.vloc_fix d d1]; exact .inr ⟨_, rfl⟩

theorem Group.sr_vwr (g : Group) (d : Reg) (v : VReg) (r : Reg) : (g.vwr (g.vloc d) v).sr r = g.sr r := by
  rcases g.vwr_cases d v with ⟨x, hx⟩ | ⟨x, hx⟩ <;> rw [hx] <;> rfl
theorem Group.fpf_vwr (g : Group) (d : Reg) (v : VReg) : (g.vwr (g.vloc d) v).fpf = g.fpf := by
  rcases g.vwr_cases d v with ⟨x, hx⟩ | ⟨x, hx⟩ <;> rw [hx]
theorem arch_vring (g : Group) (n : SMap VReg) : ({ g with vring := n } : Group).arch = g.arch := by
  unfold Group.arch Group.modP Group.setP Group.p
  cases hc : g.curF <;> simp [Group.setPath, Group.path, hc]
theorem arch_vfix (g : Group) (n : SMap VReg) : ({ g with vfix := n } : Group).arch = g.arch := by
  unfold Group.arch Group.modP Group.setP Group.p
  cases hc : g.curF <;> simp [Group.setPath, Group.path, hc]
theorem Group.arch_vwr (g : Group) (d : Reg) (v : VReg) : (g.vwr (g.vloc d) v).arch = g.arch := by
  rcases g.vwr_cases d v with ⟨x, hx⟩ | ⟨x, hx⟩ <;> rw [hx]
  · exact arch_vring g x
  · exact arch_vfix g x

/-! ### Results of vector words -/

/-- An element of a register whose active elements were replaced. -/
theorem elemGet_setElems (g : Group) (ty : VTy) (d : Reg) (r : Nat → Nat) (i k : Nat) (hi : i < vtCount ty) :
    elemGet ty i k ((g.setElems d ty r).vr d) =
      if g.active (vtLane ty i) then (if ty = .f64 then r i % 2 ^ 64 else subElem (BitVec.ofNat 32 (r i)) ty.width k)
      else elemGet ty i k (g.vr d) := by
  unfold Group.setElems elemGet vtLane
  by_cases h : ty = .f64
  · subst h
    have hi' : i < 48 := hi
    simp only [if_true]
    unfold Group.setV64
    rw [Group.vr_vwr, if_pos rfl, elem64_merge64 _ _ _ _ hi']
    rfl
  · simp only [if_neg h]
    have hi' : i < 96 := by unfold vtCount at hi; rwa [if_neg h] at hi
    unfold Group.setV
    rw [Group.vr_vwr, if_pos rfl, lane_mergeLanes _ _ _ _ hi']
    unfold Group.active
    split <;> rfl

theorem vr_setElems (g : Group) (ty : VTy) (d : Reg) (f : Nat → Nat) (r : Reg) (h : r ≠ d) :
    (g.setElems d ty f).vr r = g.vr r := by
  unfold Group.setElems Group.setV64 Group.setV
  split <;> rw [Group.vr_vwr, if_neg h]
theorem sr_setElems (g : Group) (ty : VTy) (d : Reg) (f : Nat → Nat) (r : Reg) : (g.setElems d ty f).sr r = g.sr r := by
  unfold Group.setElems Group.setV64 Group.setV
  split <;> exact Group.sr_vwr _ _ _ _
theorem fpf_setElems (g : Group) (ty : VTy) (d : Reg) (f : Nat → Nat) : (g.setElems d ty f).fpf = g.fpf := by
  unfold Group.setElems Group.setV64 Group.setV
  split <;> exact Group.fpf_vwr _ _ _
theorem arch_setElems (g : Group) (ty : VTy) (d : Reg) (f : Nat → Nat) : (g.setElems d ty f).arch = g.arch := by
  unfold Group.setElems Group.setV64 Group.setV
  split <;> exact Group.arch_vwr _ _ _

theorem laneRes_f64 (h : (VReg → Nat) → FRes) (i : Nat) : (laneRes .f64 h i).bits % 2 ^ 64 = (h (elemGet .f64 i 0)).bits % 2 ^ 64 := by
  simp [laneRes, VTy.subs, VTy.width, packSubs, List.range_succ]

theorem subElem_laneRes (ty : VTy) (hf : ty ≠ .f64) (h : (VReg → Nat) → FRes) (i k : Nat) (hk : k < ty.subs) :
    subElem (BitVec.ofNat 32 (laneRes ty h i).bits) ty.width k = (h (elemGet ty i k)).bits % 2 ^ ty.width := by
  have hl : (((List.range ty.subs).map fun k => h (elemGet ty i k)).map FRes.bits).length = ty.subs := by simp
  have hs := vty_shape ty hf
  have e := subElem_packSubs ty.width k (((List.range ty.subs).map fun k => h (elemGet ty i k)).map FRes.bits)
    (by rw [hl]; rcases hs with ⟨a, b⟩ | ⟨a, b⟩ | ⟨a, b⟩ <;> simp [a, b])
    (by rw [hl]; exact hk) (by rw [hl]; exact hs)
  refine e.trans ?_
  rw [List.getD_eq_getElem?_getD, List.getElem?_map, List.getElem?_map, List.getElem?_range hk]
  rfl

/-- Writing vector elements leaves the place in the code. -/
theorem samePlace_vwr (g : Group) (l : RLoc) (v : VReg) : SamePlace g (g.vwr l v) := by
  unfold Group.vwr
  split <;> exact ⟨rfl, by cases h : g.curF <;> simp [Group.p, Group.path, h], by cases h : g.curF <;> simp [Group.p, Group.path, h],
    by cases h : g.curF <;> simp [Group.p, Group.path, h]⟩
theorem samePlace_setElems (g : Group) (d : Reg) (ty : VTy) (f : Nat → Nat) : SamePlace g (g.setElems d ty f) := by
  unfold Group.setElems Group.setV64 Group.setV
  split <;> exact samePlace_vwr _ _ _

/-- A vector word completes with its elements and flags. -/
theorem vecWord_writes (n : Nat) (d : Reg) (ty : VTy) (h : (VReg → Nat) → FRes) (s : State) :
    ∃ t, vecWord n d ty h s = .next t ∧
      WritesVector s d ty (fun i k => (h (elemGet ty i k)).bits) (s.g.flagsOf ty (laneRes ty h)) t := by
  refine ⟨_, rfl, ?_⟩
  have hn := retireV_noEffect n
    (s.modG fun g => (g.orFpf (g.flagsOf ty (laneRes ty h))).setElems d ty fun i => (laneRes ty h i).bits)
  refine ⟨fun i k hi hk => ?_, fun r hr => ?_, fun r => ?_, ?_, ?_, SamePlace.goesOn ?_ (retireV_goesOn n _)⟩
  · rw [hn.vectors, State.modG_g, elemGet_setElems _ _ _ _ _ _ hi]
    have ha : (s.g.orFpf (s.g.flagsOf ty (laneRes ty h))).active (vtLane ty i) = s.g.active (vtLane ty i) := rfl
    rw [ha]
    split
    · by_cases hf : ty = .f64
      · subst hf
        have hk0 : k = 0 := by simp [VTy.subs] at hk; omega
        subst hk0
        rw [if_pos rfl]
        exact laneRes_f64 h i
      · rw [if_neg hf]; exact subElem_laneRes ty hf h i k hk
    · rfl
  · rw [hn.vectors, State.modG_g, vr_setElems _ _ _ _ _ hr]; rfl
  · rw [hn.scalars, State.modG_g, sr_setElems]; rfl
  · rw [hn.flags, State.modG_g, fpf_setElems]; rfl
  · refine (registerOnly_of_quiet (Quiet.refl s) _ ?_).trans hn.frame
    rw [arch_setElems]
    exact arch_fpf s.g _
  · have h' := samePlace_setElems (s.g.orFpf (s.g.flagsOf ty (laneRes ty h))) d ty fun i => (laneRes ty h i).bits
    exact ⟨h'.curF, h'.pc, h'.cwi, h'.hdr⟩

/-- A word that replaces 32-bit lanes completes. -/
theorem vecLanes_writes (n : Nat) (d : Reg) (f : Group → Nat → W32) (s : State) :
    ∃ t, vecLanes n d f s = .next t ∧ WritesVector s d .i32 (fun i _ => (f s.g i).toNat) 0 t := by
  refine ⟨_, rfl, ?_⟩
  have hn := retireV_noEffect n (s.modG fun g => g.setV d (f g))
  have hg : (s.modG fun g => g.setV d (f g)).g = s.g.setElems d .i32 (fun i => (f s.g i).toNat) := by
    rw [State.modG_g]
    unfold Group.setElems
    rw [if_neg (by decide)]
    congr 1
    funext i
    simp
  refine ⟨fun i k hi hk => ?_, fun r hr => ?_, fun r => ?_, ?_, ?_, SamePlace.goesOn ?_ (retireV_goesOn n _)⟩
  · rw [hn.vectors, hg, elemGet_setElems _ _ _ _ _ _ hi]
    have hk0 : k = 0 := by simp [VTy.subs] at hk; omega
    subst hk0
    split
    · simp [subElem, VTy.width, bitsAt]
    · rfl
  · rw [hn.vectors, hg, vr_setElems _ _ _ _ _ hr]
  · rw [hn.scalars, hg, sr_setElems]
  · rw [hn.flags, hg, fpf_setElems]; exact (BitVec.or_zero).symm
  · refine (registerOnly_of_quiet (Quiet.refl s) (fun g => g.setV d (f g)) ?_).trans hn.frame
    exact Group.arch_vwr _ _ _
  · rw [hg]; exact samePlace_setElems s.g _ _ _

end Sys2Proof.Machine
end

