-- ==== Sys2Proof/Laws/PerInstr.lean ====
section
/-! SUPPORT. Statements about every instruction, one lemma per constructor. Encodable: an instruction has a word unless it is
an event. -/

namespace Sys2Proof.Laws.Encodable

/-- An instruction has a word exactly where it is no event (02; 20 R362; the events of the table have no encoding). -/
def Statement (i : Instr) : Prop := (encode i).isSome = decide (i.cls ≠ .event)

theorem sAdd (d : Reg) (a : Reg) (b : Reg) : Statement (.sAdd d a b) := rfl
theorem sSub (d : Reg) (a : Reg) (b : Reg) : Statement (.sSub d a b) := rfl
theorem sAnd (d : Reg) (a : Reg) (b : Reg) : Statement (.sAnd d a b) := rfl
theorem sOr (d : Reg) (a : Reg) (b : Reg) : Statement (.sOr d a b) := rfl
theorem sXor (d : Reg) (a : Reg) (b : Reg) : Statement (.sXor d a b) := rfl
theorem sAndn (d : Reg) (a : Reg) (b : Reg) : Statement (.sAndn d a b) := rfl
theorem sShl (d : Reg) (a : Reg) (b : Reg) : Statement (.sShl d a b) := rfl
theorem sShr (d : Reg) (a : Reg) (b : Reg) : Statement (.sShr d a b) := rfl
theorem sSra (d : Reg) (a : Reg) (b : Reg) : Statement (.sSra d a b) := rfl
theorem sRot (d : Reg) (a : Reg) (b : Reg) : Statement (.sRot d a b) := rfl
theorem sMin (d : Reg) (a : Reg) (b : Reg) : Statement (.sMin d a b) := rfl
theorem sMax (d : Reg) (a : Reg) (b : Reg) : Statement (.sMax d a b) := rfl
theorem sMinn (d : Reg) (a : Reg) (b : Reg) : Statement (.sMinn d a b) := rfl
theorem sMaxn (d : Reg) (a : Reg) (b : Reg) : Statement (.sMaxn d a b) := rfl
theorem sMov (d : Reg) (a : Reg) : Statement (.sMov d a) := rfl
theorem sMul (d : Reg) (a : Reg) (b : Reg) : Statement (.sMul d a b) := rfl
theorem sMulh (d : Reg) (a : Reg) (b : Reg) : Statement (.sMulh d a b) := rfl
theorem sMulhn (d : Reg) (a : Reg) (b : Reg) : Statement (.sMulhn d a b) := rfl
theorem sDiv (d : Reg) (a : Reg) (b : Reg) : Statement (.sDiv d a b) := rfl
theorem sDivn (d : Reg) (a : Reg) (b : Reg) : Statement (.sDivn d a b) := rfl
theorem sRem (d : Reg) (a : Reg) (b : Reg) : Statement (.sRem d a b) := rfl
theorem sRemn (d : Reg) (a : Reg) (b : Reg) : Statement (.sRemn d a b) := rfl
theorem sClz (d : Reg) (a : Reg) : Statement (.sClz d a) := rfl
theorem sCtz (d : Reg) (a : Reg) : Statement (.sCtz d a) := rfl
theorem sPop (d : Reg) (a : Reg) : Statement (.sPop d a) := rfl
theorem sBext (d : Reg) (a : Reg) (b : Reg) : Statement (.sBext d a b) := rfl
theorem sBins (d : Reg) (a : Reg) (b : Reg) : Statement (.sBins d a b) := rfl
theorem sCmp (d : Reg) (a : Reg) (b : Reg) (c : BitVec 3) : Statement (.sCmp d a b c) := rfl
theorem sSel (d : Reg) (a : Reg) (b : Reg) (c : Reg) : Statement (.sSel d a b c) := rfl
theorem sLea (d : Reg) (a : Reg) (b : Reg) (s : BitVec 3) : Statement (.sLea d a b s) := rfl
theorem sAddi (d : Reg) (a : Reg) (i : BitVec 13) : Statement (.sAddi d a i) := rfl
theorem sAndi (d : Reg) (a : Reg) (i : BitVec 13) : Statement (.sAndi d a i) := rfl
theorem sOri (d : Reg) (a : Reg) (i : BitVec 13) : Statement (.sOri d a i) := rfl
theorem sXori (d : Reg) (a : Reg) (i : BitVec 13) : Statement (.sXori d a i) := rfl
theorem sShli (d : Reg) (a : Reg) (i : Reg) : Statement (.sShli d a i) := rfl
theorem sShri (d : Reg) (a : Reg) (i : Reg) : Statement (.sShri d a i) := rfl
theorem sSrai (d : Reg) (a : Reg) (i : Reg) : Statement (.sSrai d a i) := rfl
theorem sCmpi (c : BitVec 3) (d : Reg) (a : Reg) (i : BitVec 13) : Statement (.sCmpi c d a i) := rfl
theorem sLi (d : Reg) (i : BitVec 19) : Statement (.sLi d i) := rfl
theorem sLim (d : Reg) (i : BitVec 19) : Statement (.sLim d i) := rfl
theorem nop : Statement .nop := rfl
theorem sFadd (d : Reg) (a : Reg) (b : Reg) (r : BitVec 2) (f : BitVec 1) : Statement (.sFadd d a b r f) := rfl
theorem sFsub (d : Reg) (a : Reg) (b : Reg) (r : BitVec 2) (f : BitVec 1) : Statement (.sFsub d a b r f) := rfl
theorem sFmul (d : Reg) (a : Reg) (b : Reg) (r : BitVec 2) (f : BitVec 1) : Statement (.sFmul d a b r f) := rfl
theorem sFdiv (d : Reg) (a : Reg) (b : Reg) (r : BitVec 2) (f : BitVec 1) : Statement (.sFdiv d a b r f) := rfl
theorem sFsqrt (d : Reg) (a : Reg) (r : BitVec 2) (f : BitVec 1) : Statement (.sFsqrt d a r f) := rfl
theorem sFmin (d : Reg) (a : Reg) (b : Reg) (f : BitVec 1) : Statement (.sFmin d a b f) := rfl
theorem sFmax (d : Reg) (a : Reg) (b : Reg) (f : BitVec 1) : Statement (.sFmax d a b f) := rfl
theorem sFclass (d : Reg) (a : Reg) (f : BitVec 1) : Statement (.sFclass d a f) := rfl
theorem sFcmp (d : Reg) (a : Reg) (b : Reg) (c : BitVec 3) (f : BitVec 1) : Statement (.sFcmp d a b c f) := rfl
theorem sFcvt (d : Reg) (a : Reg) (s : BitVec 3) (t : BitVec 3) (r : BitVec 2) (n : BitVec 1) : Statement (.sFcvt d a s t r n) := rfl
theorem sFma (f : BitVec 1) (r : BitVec 2) (d : Reg) (a : Reg) (b : Reg) (c : Reg) (n : BitVec 1) : Statement (.sFma f r d a b c n) := rfl
theorem branch (i : BitVec 19) : Statement (.branch i) := rfl
theorem bz (d : Reg) (i : BitVec 19) : Statement (.bz d i) := rfl
theorem bnz (d : Reg) (i : BitVec 19) : Statement (.bnz d i) := rfl
theorem loop (d : Reg) (i : BitVec 19) : Statement (.loop d i) := rfl
theorem jr (a : Reg) : Statement (.jr a) := rfl
theorem call (k : BitVec 2) (i : BitVec 19) : Statement (.call k i) := rfl
theorem callr (a : Reg) (k : BitVec 2) : Statement (.callr a k) := rfl
theorem ret : Statement .ret := rfl
theorem bcmp (c : BitVec 3) (d : Reg) (a : Reg) (i : BitVec 13) : Statement (.bcmp c d a i) := rfl
theorem vAdd (d : Reg) (a : Reg) (b : Reg) (t : BitVec 4) (n : BitVec 1) : Statement (.vAdd d a b t n) := rfl
theorem vSub (d : Reg) (a : Reg) (b : Reg) (t : BitVec 4) (n : BitVec 1) : Statement (.vSub d a b t n) := rfl
theorem vMul (d : Reg) (a : Reg) (b : Reg) (t : BitVec 4) (n : BitVec 1) : Statement (.vMul d a b t n) := rfl
theorem vMulh (d : Reg) (a : Reg) (b : Reg) (t : BitVec 4) : Statement (.vMulh d a b t) := rfl
theorem vAnd (d : Reg) (a : Reg) (b : Reg) : Statement (.vAnd d a b) := rfl
theorem vOr (d : Reg) (a : Reg) (b : Reg) : Statement (.vOr d a b) := rfl
theorem vXor (d : Reg) (a : Reg) (b : Reg) : Statement (.vXor d a b) := rfl
theorem vAndn (d : Reg) (a : Reg) (b : Reg) : Statement (.vAndn d a b) := rfl
theorem vShl (d : Reg) (a : Reg) (b : Reg) (t : BitVec 4) (n : BitVec 1) : Statement (.vShl d a b t n) := rfl
theorem vShr (d : Reg) (a : Reg) (b : Reg) (t : BitVec 4) : Statement (.vShr d a b t) := rfl
theorem vSra (d : Reg) (a : Reg) (b : Reg) (t : BitVec 4) : Statement (.vSra d a b t) := rfl
theorem vMin (d : Reg) (a : Reg) (b : Reg) (t : BitVec 4) : Statement (.vMin d a b t) := rfl
theorem vMax (d : Reg) (a : Reg) (b : Reg) (t : BitVec 4) : Statement (.vMax d a b t) := rfl
theorem vAbs (d : Reg) (a : Reg) (t : BitVec 4) (n : BitVec 1) : Statement (.vAbs d a t n) := rfl
theorem vClz (d : Reg) (a : Reg) (t : BitVec 4) : Statement (.vClz d a t) := rfl
theorem vPop (d : Reg) (a : Reg) (t : BitVec 4) : Statement (.vPop d a t) := rfl
theorem vFadd (d : Reg) (a : Reg) (b : Reg) (t : BitVec 4) (r : BitVec 2) (n : BitVec 1) : Statement (.vFadd d a b t r n) := rfl
theorem vFsub (d : Reg) (a : Reg) (b : Reg) (t : BitVec 4) (r : BitVec 2) (n : BitVec 1) : Statement (.vFsub d a b t r n) := rfl
theorem vFmul (d : Reg) (a : Reg) (b : Reg) (t : BitVec 4) (r : BitVec 2) (n : BitVec 1) : Statement (.vFmul d a b t r n) := rfl
theorem vFmin (d : Reg) (a : Reg) (b : Reg) (t : BitVec 4) : Statement (.vFmin d a b t) := rfl
theorem vFmax (d : Reg) (a : Reg) (b : Reg) (t : BitVec 4) : Statement (.vFmax d a b t) := rfl
theorem vFdiv (d : Reg) (a : Reg) (b : Reg) (t : BitVec 4) (r : BitVec 2) (n : BitVec 1) : Statement (.vFdiv d a b t r n) := rfl
theorem vFsqrt (d : Reg) (a : Reg) (t : BitVec 4) (r : BitVec 2) : Statement (.vFsqrt d a t r) := rfl
theorem vFrcp (d : Reg) (a : Reg) : Statement (.vFrcp d a) := rfl
theorem vFrsq (d : Reg) (a : Reg) : Statement (.vFrsq d a) := rfl
theorem vFexp2 (d : Reg) (a : Reg) : Statement (.vFexp2 d a) := rfl
theorem vFlog2 (d : Reg) (a : Reg) : Statement (.vFlog2 d a) := rfl
theorem vCvt (d : Reg) (a : Reg) (u : BitVec 4) (t : BitVec 4) (r : BitVec 2) (n : BitVec 1) : Statement (.vCvt d a u t r n) := rfl
theorem vPack (d : Reg) (a : Reg) (b : Reg) (t : BitVec 4) (r : BitVec 2) (n : BitVec 1) : Statement (.vPack d a b t r n) := rfl
theorem vUnpack (d : Reg) (a : Reg) (k : Reg) (t : BitVec 4) : Statement (.vUnpack d a k t) := rfl
theorem vCmp (d : Reg) (a : Reg) (b : Reg) (t : BitVec 4) (c : BitVec 3) : Statement (.vCmp d a b t c) := rfl
theorem vSel (d : Reg) (a : Reg) (b : Reg) (c : Reg) : Statement (.vSel d a b c) := rfl
theorem vMad (d : Reg) (a : Reg) (b : Reg) (c : Reg) (n : BitVec 1) : Statement (.vMad d a b c n) := rfl
theorem vFmaF32 (d : Reg) (a : Reg) (b : Reg) (c : Reg) (n : BitVec 1) : Statement (.vFmaF32 d a b c n) := rfl
theorem vFmaF64 (d : Reg) (a : Reg) (b : Reg) (c : Reg) (n : BitVec 1) : Statement (.vFmaF64 d a b c n) := rfl
theorem vFmaF16x2 (d : Reg) (a : Reg) (b : Reg) (c : Reg) (n : BitVec 1) : Statement (.vFmaF16x2 d a b c n) := rfl
theorem vFmaBf16x2 (d : Reg) (a : Reg) (b : Reg) (c : Reg) (n : BitVec 1) : Statement (.vFmaBf16x2 d a b c n) := rfl
theorem vLi (d : Reg) (i : BitVec 19) : Statement (.vLi d i) := rfl
theorem vMov (d : Reg) (a : Reg) : Statement (.vMov d a) := rfl
theorem vBcast (d : Reg) (a : Reg) (t : BitVec 4) : Statement (.vBcast d a t) := rfl
theorem vGet (d : Reg) (a : Reg) (b : Reg) : Statement (.vGet d a b) := rfl
theorem vSet (d : Reg) (a : Reg) (b : Reg) : Statement (.vSet d a b) := rfl
theorem vIota (d : Reg) : Statement (.vIota d) := rfl
theorem vPerm (d : Reg) (a : Reg) (b : Reg) : Statement (.vPerm d a b) := rfl
theorem vShfl (d : Reg) (a : Reg) (b : Reg) : Statement (.vShfl d a b) := rfl
theorem vRsum (d : Reg) (a : Reg) (t : BitVec 4) : Statement (.vRsum d a t) := rfl
theorem vRmax (d : Reg) (a : Reg) (t : BitVec 4) : Statement (.vRmax d a t) := rfl
theorem vRmin (d : Reg) (a : Reg) (t : BitVec 4) : Statement (.vRmin d a t) := rfl
theorem vRsumi (d : Reg) (a : Reg) (t : BitVec 4) : Statement (.vRsumi d a t) := rfl
theorem vScan (d : Reg) (a : Reg) (t : BitVec 4) (r : BitVec 2) : Statement (.vScan d a t r) := rfl
theorem vSplit (d : Reg) (i : BitVec 19) : Statement (.vSplit d i) := rfl
theorem vJoin : Statement .vJoin := rfl
theorem vSweepAdd (d : BitVec 3) (a : BitVec 3) (b : Reg) (t : BitVec 4) (r : BitVec 2) (n : BitVec 1) : Statement (.vSweepAdd d a b t r n) := rfl
theorem vSweepMul (d : BitVec 3) (a : BitVec 3) (b : Reg) (t : BitVec 4) (r : BitVec 2) (n : BitVec 1) : Statement (.vSweepMul d a b t r n) := rfl
theorem vSweepMax (d : BitVec 3) (a : BitVec 3) (b : Reg) (t : BitVec 4) (r : BitVec 2) (n : BitVec 1) : Statement (.vSweepMax d a b t r n) := rfl
theorem vSweepMin (d : BitVec 3) (a : BitVec 3) (b : Reg) (t : BitVec 4) (r : BitVec 2) (n : BitVec 1) : Statement (.vSweepMin d a b t r n) := rfl
theorem vSweepFma (d : BitVec 3) (a : BitVec 3) (b : BitVec 3) (t : BitVec 4) (r : BitVec 2) (n : BitVec 1) : Statement (.vSweepFma d a b t r n) := rfl
theorem vSweepCvt (d : BitVec 3) (a : BitVec 3) (t : BitVec 4) (r : BitVec 2) (n : BitVec 1) : Statement (.vSweepCvt d a t r n) := rfl
theorem lLds (d : Reg) (b : Reg) (z : BitVec 2) (o : BitVec 10) : Statement (.lLds d b z o) := rfl
theorem lLdsN (d : Reg) (b : Reg) (z : BitVec 2) (o : BitVec 10) : Statement (.lLdsN d b z o) := rfl
theorem lLdv (d : Reg) (b : Reg) (o : BitVec 10) : Statement (.lLdv d b o) := rfl
theorem lLdvX (d : Reg) (a : Reg) (b : Reg) (s : BitVec 1) (e : BitVec 2) : Statement (.lLdvX d a b s e) := rfl
theorem lSts (d : Reg) (b : Reg) (z : BitVec 2) (o : BitVec 10) : Statement (.lSts d b z o) := rfl
theorem lStv (d : Reg) (b : Reg) (o : BitVec 10) : Statement (.lStv d b o) := rfl
theorem lStvX (d : Reg) (a : Reg) (b : Reg) (e : BitVec 2) : Statement (.lStvX d a b e) := rfl
theorem lLdfTake (d : Reg) (b : Reg) (z : BitVec 1) (o : BitVec 10) : Statement (.lLdfTake d b z o) := rfl
theorem lLdfPeek (d : Reg) (b : Reg) (z : BitVec 1) (o : BitVec 10) : Statement (.lLdfPeek d b z o) := rfl
theorem lStfFill (d : Reg) (b : Reg) (z : BitVec 1) (o : BitVec 10) : Statement (.lStfFill d b z o) := rfl
theorem lStfForce (d : Reg) (b : Reg) (z : BitVec 1) (o : BitVec 10) : Statement (.lStfForce d b z o) := rfl
theorem lFeFull (d : Reg) (a : Reg) (b : Reg) : Statement (.lFeFull d a b) := rfl
theorem lFeEmpty (d : Reg) (a : Reg) (b : Reg) : Statement (.lFeEmpty d a b) := rfl
theorem lFeTest (d : Reg) (a : Reg) (b : Reg) : Statement (.lFeTest d a b) := rfl
theorem lWopenRo (d : Reg) (a : Reg) (b : Reg) : Statement (.lWopenRo d a b) := rfl
theorem lWopenSw (d : Reg) (a : Reg) (b : Reg) : Statement (.lWopenSw d a b) := rfl
theorem lWclose (a : Reg) : Statement (.lWclose a) := rfl
theorem fLds (d : Reg) (b : Reg) (z : BitVec 2) (o : BitVec 10) : Statement (.fLds d b z o) := rfl
theorem fLdsN (d : Reg) (b : Reg) (z : BitVec 2) (o : BitVec 10) : Statement (.fLdsN d b z o) := rfl
theorem fLdv (d : Reg) (b : Reg) (o : BitVec 10) : Statement (.fLdv d b o) := rfl
theorem fLdvX (d : Reg) (a : Reg) (b : Reg) (s : BitVec 1) (e : BitVec 2) : Statement (.fLdvX d a b s e) := rfl
theorem fSts (d : Reg) (b : Reg) (z : BitVec 2) (o : BitVec 10) : Statement (.fSts d b z o) := rfl
theorem fStv (d : Reg) (b : Reg) (o : BitVec 10) : Statement (.fStv d b o) := rfl
theorem fStvX (d : Reg) (a : Reg) (b : Reg) (e : BitVec 2) : Statement (.fStvX d a b e) := rfl
theorem fLdb (d : Reg) (b : Reg) (z : BitVec 2) (o : BitVec 10) : Statement (.fLdb d b z o) := rfl
theorem fStb (d : Reg) (b : Reg) (z : BitVec 2) (o : BitVec 10) : Statement (.fStb d b z o) := rfl
theorem pf (h : BitVec 1) (b : Reg) (o : BitVec 10) : Statement (.pf h b o) := rfl
theorem pfW (h : BitVec 1) (b : Reg) (o : BitVec 10) : Statement (.pfW h b o) := rfl
theorem aAdd (d : Reg) (a : Reg) (b : Reg) (w : BitVec 1) : Statement (.aAdd d a b w) := rfl
theorem aMin (d : Reg) (a : Reg) (b : Reg) (n : BitVec 1) (w : BitVec 1) : Statement (.aMin d a b n w) := rfl
theorem aMax (d : Reg) (a : Reg) (b : Reg) (n : BitVec 1) (w : BitVec 1) : Statement (.aMax d a b n w) := rfl
theorem aAnd (d : Reg) (a : Reg) (b : Reg) (w : BitVec 1) : Statement (.aAnd d a b w) := rfl
theorem aOr (d : Reg) (a : Reg) (b : Reg) (w : BitVec 1) : Statement (.aOr d a b w) := rfl
theorem aXor (d : Reg) (a : Reg) (b : Reg) (w : BitVec 1) : Statement (.aXor d a b w) := rfl
theorem aXchg (d : Reg) (a : Reg) (b : Reg) (w : BitVec 1) : Statement (.aXchg d a b w) := rfl
theorem aFadd (d : Reg) (a : Reg) (b : Reg) (m : BitVec 1) (w : BitVec 1) : Statement (.aFadd d a b m w) := rfl
theorem aCas (d : Reg) (a : Reg) (b : Reg) (c : Reg) : Statement (.aCas d a b c) := rfl
theorem aCasD (d : Reg) (a : Reg) (b : Reg) (c : Reg) : Statement (.aCasD d a b c) := rfl
theorem aRlock (d : Reg) (a : Reg) : Statement (.aRlock d a) := rfl
theorem aRunlock (d : Reg) (a : Reg) : Statement (.aRunlock d a) := rfl
theorem aWlock (d : Reg) (a : Reg) : Statement (.aWlock d a) := rfl
theorem aWunlock (d : Reg) (a : Reg) : Statement (.aWunlock d a) := rfl
theorem fenceScope (s : BitVec 3) : Statement (.fenceScope s) := rfl
theorem fenceRel (a : Reg) : Statement (.fenceRel a) := rfl
theorem fenceAcq (a : Reg) : Statement (.fenceAcq a) := rfl
theorem fenceW : Statement .fenceW := rfl
theorem lnDef (a : Reg) : Statement (.lnDef a) := rfl
theorem lnResize (a : Reg) : Statement (.lnResize a) := rfl
theorem lnFlush (a : Reg) (b : Reg) : Statement (.lnFlush a b) := rfl
theorem lnInv (a : Reg) (b : Reg) : Statement (.lnInv a b) := rfl
theorem lnStat (d : Reg) (a : Reg) : Statement (.lnStat d a) := rfl
theorem launch (d : Reg) (a : Reg) : Statement (.launch d a) := rfl
theorem join (a : Reg) (b : Reg) : Statement (.join a b) := rfl
theorem evtPub (a : Reg) : Statement (.evtPub a) := rfl
theorem evtWait (a : Reg) : Statement (.evtWait a) := rfl
theorem barArrive (a : Reg) (n : BitVec 4) : Statement (.barArrive a n) := rfl
theorem barWait (n : BitVec 4) : Statement (.barWait n) := rfl
theorem barSync (a : Reg) (n : BitVec 4) : Statement (.barSync a n) := rfl
theorem elect (d : Reg) : Statement (.elect d) := rfl
theorem gRegroup (d : Reg) (a : Reg) : Statement (.gRegroup d a) := rfl
theorem yield : Statement .yield := rfl
theorem monArm (a : Reg) : Statement (.monArm a) := rfl
theorem monWait (d : Reg) : Statement (.monWait d) := rfl
theorem wait (t : BitVec 3) (c : BitVec 3) (s : BitVec 3) (l : BitVec 3) : Statement (.wait t c s l) := rfl
theorem tagWaitAny (d : Reg) (a : Reg) : Statement (.tagWaitAny d a) := rfl
theorem tagWaitAll (d : Reg) (a : Reg) : Statement (.tagWaitAll d a) := rfl
theorem tagFfs (d : Reg) (a : Reg) : Statement (.tagFfs d a) := rfl
theorem tagClr (a : Reg) : Statement (.tagClr a) := rfl
theorem cpIter (d : BitVec 3) (a : Reg) : Statement (.cpIter d a) := rfl
theorem cpIn (d : BitVec 3) (a : BitVec 3) (t : Reg) (f : BitVec 1) : Statement (.cpIn d a t f) := rfl
theorem cpOut (d : BitVec 3) (a : BitVec 3) (t : Reg) : Statement (.cpOut d a t) := rfl
theorem cpGather (d : BitVec 3) (a : BitVec 3) (b : BitVec 3) (t : Reg) (f : BitVec 1) : Statement (.cpGather d a b t f) := rfl
theorem cpFill (d : BitVec 3) (a : Reg) (t : Reg) (f : BitVec 1) : Statement (.cpFill d a t f) := rfl
theorem cpCopy (d : BitVec 3) (a : BitVec 3) (t : Reg) (f : BitVec 1) : Statement (.cpCopy d a t f) := rfl
theorem mmBind (q : BitVec 2) (a : Reg) (k : BitVec 4) (t : BitVec 4) : Statement (.mmBind q a k t) := rfl
theorem mmZero (n : BitVec 4) : Statement (.mmZero n) := rfl
theorem mmPair (n : BitVec 4) (a : Reg) (b : Reg) (t : BitVec 4) : Statement (.mmPair n a b t) := rfl
theorem mmOne (n : BitVec 4) (a : Reg) (b : Reg) (t : BitVec 4) : Statement (.mmOne n a b t) := rfl
theorem mmRd (d : Reg) (n : BitVec 4) (b : Reg) : Statement (.mmRd d n b) := rfl
theorem mmRdScale (d : Reg) (n : BitVec 4) (b : Reg) (v : Reg) : Statement (.mmRdScale d n b v) := rfl
theorem mmWr (n : BitVec 4) (a : Reg) (b : Reg) : Statement (.mmWr n a b) := rfl
theorem mmChk (d : Reg) (n : BitVec 4) : Statement (.mmChk d n) := rfl
theorem wOpen (d : Reg) (a : Reg) : Statement (.wOpen d a) := rfl
theorem wClose (a : Reg) : Statement (.wClose a) := rfl
theorem wPut (d : Reg) (a : Reg) (b : Reg) (t : Reg) : Statement (.wPut d a b t) := rfl
theorem wGet (d : Reg) (a : Reg) (b : Reg) (t : Reg) : Statement (.wGet d a b t) := rfl
theorem wWait (a : Reg) (b : Reg) : Statement (.wWait a b) := rfl
theorem wCntT (d : Reg) (a : Reg) : Statement (.wCntT d a) := rfl
theorem wCntO (d : Reg) (a : Reg) : Statement (.wCntO d a) := rfl
theorem collAr (d : Reg) (a : Reg) (b : Reg) (t : BitVec 4) (o : BitVec 2) : Statement (.collAr d a b t o) := rfl
theorem collBc (d : Reg) (a : Reg) (b : Reg) : Statement (.collBc d a b) := rfl
theorem collWait (d : Reg) (a : Reg) : Statement (.collWait d a) := rfl
theorem collCancel (a : Reg) : Statement (.collCancel a) := rfl
theorem uePost (d : Reg) (a : Reg) (b : Reg) : Statement (.uePost d a b) := rfl
theorem uePoll (d : Reg) (a : Reg) : Statement (.uePoll d a) := rfl
theorem sysRd (d : Reg) (r : BitVec 13) : Statement (.sysRd d r) := rfl
theorem sysWr (a : Reg) (r : BitVec 13) : Statement (.sysWr a r) := rfl
theorem sysWrWsb (a : Reg) : Statement (.sysWrWsb a) := rfl
theorem sysWrWsl (a : Reg) : Statement (.sysWrWsl a) := rfl
theorem sysWrTags (a : Reg) : Statement (.sysWrTags a) := rfl
theorem tret (a : Reg) : Statement (.tret a) := rfl
theorem rdcyc (d : Reg) : Statement (.rdcyc d) := rfl
theorem trap (c : BitVec 13) : Statement (.trap c) := rfl
theorem brk (c : BitVec 13) : Statement (.brk c) := rfl
theorem halt : Statement .halt := rfl
theorem traceMark (a : Reg) (m : BitVec 13) : Statement (.traceMark a m) := rfl
theorem ctrCfg (a : Reg) (b : Reg) : Statement (.ctrCfg a b) := rfl
theorem debugResume (a : Reg) (b : Reg) : Statement (.debugResume a b) := rfl
theorem release (a : Reg) (b : Reg) : Statement (.release a b) := rfl
theorem replayArm (a : Reg) (b : Reg) : Statement (.replayArm a b) := rfl
theorem ctrRd (d : Reg) (a : Reg) : Statement (.ctrRd d a) := rfl
theorem rpMark (m : BitVec 13) : Statement (.rpMark m) := rfl
theorem encMake (s : BitVec 5) (d : BitVec 5) : Statement (.encMake s d) := rfl
theorem encEnter (t : BitVec 5) (s : BitVec 5) (d : BitVec 5) : Statement (.encEnter t s d) := rfl
theorem encKill (s : BitVec 5) (d : BitVec 5) : Statement (.encKill s d) := rfl
theorem pgOut (s : BitVec 5) (d : BitVec 5) : Statement (.pgOut s d) := rfl
theorem pgIn (s : BitVec 5) (d : BitVec 5) : Statement (.pgIn s d) := rfl
theorem potXfer (s : BitVec 5) (d : BitVec 5) : Statement (.potXfer s d) := rfl
theorem encExit (s : BitVec 5) : Statement (.encExit s) := rfl
theorem encOut (t : BitVec 5) (s : BitVec 5) (d : BitVec 5) : Statement (.encOut t s d) := rfl
theorem encIn (t : BitVec 5) (s : BitVec 5) (d : BitVec 5) : Statement (.encIn t s d) := rfl
theorem encRep (t : BitVec 5) (s : BitVec 5) (d : BitVec 5) : Statement (.encRep t s d) := rfl
theorem enclaveThreadInterrupt (h : Nat) (cause : Nat) (toM : Bool) : Statement (.enclaveThreadInterrupt h cause toM) := rfl
theorem kickStore (h : Nat) (enc : Nat) (off : Nat) (size : Nat) (v : Word) : Statement (.kickStore h enc off size v) := rfl
theorem kickStoreAccept (enc : Nat) (q : Nat) : Statement (.kickStoreAccept enc q) := rfl
theorem admissionOpportunity (die : Nat) : Statement (.admissionOpportunity die) := rfl
theorem dependRelease (task : Nat) : Statement (.dependRelease task) := rfl
theorem arbitrateRelease (task : Nat) : Statement (.arbitrateRelease task) := rfl
theorem leaseWalk (task : Nat) : Statement (.leaseWalk task) := rfl
theorem leasePendingTimeout (task : Nat) : Statement (.leasePendingTimeout task) := rfl
theorem edgeLineAction (task : Nat) : Statement (.edgeLineAction task) := rfl
theorem placementAttempt (part : Nat) : Statement (.placementAttempt part) := rfl
theorem runArbitration (core : Nat) (slot : Nat) : Statement (.runArbitration core slot) := rfl
theorem parkWake (gid : Nat) : Statement (.parkWake gid) := rfl
theorem monitorSpurious (gid : Nat) (f : Bool) : Statement (.monitorSpurious gid f) := rfl
theorem groupEnded (gid : Nat) : Statement (.groupEnded gid) := rfl
theorem teamPublish (team : Nat) : Statement (.teamPublish team) := rfl
theorem enclaveHalt (enc : Nat) : Statement (.enclaveHalt enc) := rfl
theorem enclaveResume (enc : Nat) : Statement (.enclaveResume enc) := rfl
theorem farLoadReturn (gid : Nat) (k : Nat) : Statement (.farLoadReturn gid k) := rfl
theorem coreStorePointPass (gid : Nat) : Statement (.coreStorePointPass gid) := rfl
theorem orderingPointArrival (r : Arrive) : Statement (.orderingPointArrival r) := rfl
theorem atomicExecute (ms : List (Nat × Nat)) : Statement (.atomicExecute ms) := rfl
theorem atomicReturn (gid : Nat) (k : Nat) : Statement (.atomicReturn gid k) := rfl
theorem orderGateRelease (gid : Nat) (k : Nat) : Statement (.orderGateRelease gid k) := rfl
theorem orderGateTimeout (gid : Nat) (k : Nat) : Statement (.orderGateTimeout gid k) := rfl
theorem windowStorePerformed (gid : Nat) (k : Nat) : Statement (.windowStorePerformed gid k) := rfl
theorem windowLoadReturn (gid : Nat) : Statement (.windowLoadReturn gid) := rfl
theorem svtWidening (die : Nat) (k : Nat) : Statement (.svtWidening die k) := rfl
theorem copyComplete (core : Nat) (k : Nat) : Statement (.copyComplete core k) := rfl
theorem copyElementFault (core : Nat) (k : Nat) : Statement (.copyElementFault core k) := rfl
theorem tileOpStart (core : Nat) : Statement (.tileOpStart core) := rfl
theorem tileOpRetire (core : Nat) (faults : List (List (Nat × Nat × Nat))) : Statement (.tileOpRetire core faults) := rfl
theorem resizeCursorStep (part : Nat) (cls : Nat) (die : Nat) : Statement (.resizeCursorStep part cls die) := rfl
theorem flushCursorStep (part : Nat) (cls : Nat) (die : Nat) : Statement (.flushCursorStep part cls die) := rfl
theorem invalidation (sc : InvScope) : Statement (.invalidation sc) := rfl
theorem dtuAcknowledge (die : Nat) : Statement (.dtuAcknowledge die) := rfl
theorem walkComplete (die : Nat) (k : Nat) : Statement (.walkComplete die k) := rfl
theorem migrationEntryWrite (ctl : Nat) (k : Nat) (src : Nat) (dst : Nat) : Statement (.migrationEntryWrite ctl k src dst) := rfl
theorem migrationStep (ctl : Nat) (k : Nat) (tagOk : Bool) : Statement (.migrationStep ctl k tagOk) := rfl
theorem migrationRetire (ctl : Nat) (k : Nat) : Statement (.migrationRetire ctl k) := rfl
theorem mmtWrite (k : Nat) (hash : Nat) : Statement (.mmtWrite k hash) := rfl
theorem partitionRecordWrite (part : Nat) (ds : List Word) : Statement (.partitionRecordWrite part ds) := rfl
theorem virtualInterfaceWrite (vi : Nat) (d0 : Word) (d1 : Word) (name : Bool) : Statement (.virtualInterfaceWrite vi d0 d1 name) := rfl
theorem frameAccountWrite (vi : Nat) (burst : Bool) (n : Nat) : Statement (.frameAccountWrite vi burst n) := rfl
theorem coreTokensWrite (die : Nat) (n : Nat) : Statement (.coreTokensWrite die n) := rfl
theorem fabTokensWrite (n : Nat) : Statement (.fabTokensWrite n) := rfl
theorem pkgidWrite (n : Nat) : Statement (.pkgidWrite n) := rfl
theorem plimitWrite (n : Nat) : Statement (.plimitWrite n) := rfl
theorem lamplightAcquisition (core : Nat) (trace : Bool) (acquire : Bool) : Statement (.lamplightAcquisition core trace acquire) := rfl
theorem managementWrite (src : MgmtFrom) (off : Nat) (v : Option Word) : Statement (.managementWrite src off v) := rfl
theorem tokenRefill (core : Nat) : Statement (.tokenRefill core) := rfl
theorem portRequestDepart (r : PortReq) : Statement (.portRequestDepart r) := rfl
theorem fabricTokenRefill : Statement .fabricTokenRefill := rfl
theorem traceLost (core : Nat) : Statement (.traceLost core) := rfl
theorem correctableError (u : UnitKind) (ix : Nat) (line : Option Nat) : Statement (.correctableError u ix line) := rfl
theorem errorWindowBoundary (u : UnitKind) (ix : Nat) : Statement (.errorWindowBoundary u ix) := rfl
theorem uncorrectableError (place : ErrAt) : Statement (.uncorrectableError place) := rfl
theorem taskEnd (task : Nat) : Statement (.taskEnd task) := rfl
theorem faultRecord (task : Nat) : Statement (.faultRecord task) := rfl
theorem throttling (pnow : Nat) (tmax : Nat) : Statement (.throttling pnow tmax) := rfl
theorem thermalTrip (die : Nat) (temp : Nat) : Statement (.thermalTrip die temp) := rfl
theorem powerOn (sigs : List (Bool × Bool)) (trained : Bool) (frames : List Nat) : Statement (.powerOn sigs trained frames) := rfl
theorem dieToDieFlit (link : Nat) (crcOk : Bool) (enc : Nat) : Statement (.dieToDieFlit link crcOk enc) := rfl
theorem tuilosFlit (port : Nat) (ok : Bool) : Statement (.tuilosFlit port ok) := rfl
theorem streamBinding (enc : Nat) (slot : Nat) (ed : Bool) (ml : Bool) (meas : BitVec 384) (agreed : Bool) (session : Nat) (create : Word) : Statement (.streamBinding enc slot ed ml meas agreed session create) := rfl
theorem streamBindingTimeout (enc : Nat) (slot : Nat) : Statement (.streamBindingTimeout enc slot) := rfl
theorem streamFlitReceive (enc : Nat) (slot : Nat) (f : Flit) : Statement (.streamFlitReceive enc slot f) := rfl
theorem putArrival (wid : Nat) (off : Nat) (enc : Nat) (slot : Nat) (data : List Byte) : Statement (.putArrival wid off enc slot data) := rfl
theorem getArrival (wid : Nat) (off : Nat) (len : Nat) (enc : Nat) (slot : Nat) : Statement (.getArrival wid off len enc slot) := rfl
theorem tcntIncrement (wid : Nat) : Statement (.tcntIncrement wid) := rfl
theorem transferAcknowledgement (xfer : Nat) (ok : Bool) (data : List Byte) : Statement (.transferAcknowledgement xfer ok data) := rfl
theorem closeNotice (enc : Nat) (slot : Nat) (wid : Nat) : Statement (.closeNotice enc slot wid) := rfl
theorem closeAcknowledgement (wid : Nat) : Statement (.closeAcknowledgement wid) := rfl
theorem collectiveResult (grp : Nat) (k : Nat) (status : Nat) (peers : List PeerPart) : Statement (.collectiveResult grp k status peers) := rfl
theorem collectiveMemberGone (grp : Nat) (rank : Nat) : Statement (.collectiveMemberGone grp rank) := rfl
theorem uePacket (wid : Nat) (off : Nat) (peer : BitVec 128) (p : UePkt) : Statement (.uePacket wid off peer p) := rfl
theorem ueCompletion (enc : Nat) (q : Nat) (k : Nat) (status : Nat) (data : List Byte) : Statement (.ueCompletion enc q k status data) := rfl
theorem hostDma (stream : Nat) (wid : Nat) (off : Nat) (wr : Bool) (data : List Byte) : Statement (.hostDma stream wid off wr data) := rfl
theorem cxlMemAccess (wr : Bool) (pa : Nat) (data : List Byte) : Statement (.cxlMemAccess wr pa data) := rfl
theorem getVersion (box : Nat) (req : List Byte) : Statement (.getVersion box req) := rfl
theorem getCapabilities (box : Nat) (req : List Byte) : Statement (.getCapabilities box req) := rfl
theorem negotiateAlgorithms (box : Nat) (req : List Byte) : Statement (.negotiateAlgorithms box req) := rfl
theorem getDigests (box : Nat) (req : List Byte) : Statement (.getDigests box req) := rfl
theorem getCertificate (box : Nat) (req : List Byte) : Statement (.getCertificate box req) := rfl
theorem challenge (box : Nat) (req : List Byte) : Statement (.challenge box req) := rfl
theorem getMeasurements (box : Nat) (index : Nat) (enc : Nat) (req : List Byte) : Statement (.getMeasurements box index enc req) := rfl
theorem keyExchange (box : Nat) (session : Nat) (req : List Byte) : Statement (.keyExchange box session req) := rfl
theorem finish (box : Nat) (session : Nat) (ok : Bool) : Statement (.finish box session ok) := rfl
theorem pagerGetAdvance (enc : Nat) : Statement (.pagerGetAdvance enc) := rfl
theorem writeBackArrival (gid : Nat) (k : Nat) : Statement (.writeBackArrival gid k) := rfl
theorem pendingInterrupt (h : Nat) : Statement (.pendingInterrupt h) := rfl
theorem recoveryMailboxRequest (req : List Byte) : Statement (.recoveryMailboxRequest req) := rfl
theorem tdispRequest (op : TdispOp) (tdi : Nat) (enc : Nat) (stream : Nat) : Statement (.tdispRequest op tdi enc stream) := rfl
theorem switchEngineAttestation (grp : Nat) (part : Nat) (nmemb : Nat) (ok : Option Bool) : Statement (.switchEngineAttestation grp part nmemb ok) := rfl

end Sys2Proof.Laws.Encodable
end

