-- ==== Sys2Proof/Tests/Slice0.lean ====
section
/-! SUPPORT. The model's own tests: ill-formed operands are refused, words written out from the spec's encoding tables decode to
their instructions, one step of instructions has the results that the spec gives, and the hypotheses of the statements are met
by small states. -/

namespace Sys2Proof.Tests

set_option Elab.async false

open Sys2Proof Sys2Proof.Machine

/-! ### Operands that WellFormed refuses, one term for each check -/

/-- Sets of 02 R49 to R55: conditions, conversions, lane types, triples and iterators. -/
theorem test_illFormed_sv : ([.sCmp 1 2 3 6, .sCmpi 6 1 2 0, .bcmp 7 1 2 0, .sFcmp 1 2 3 4 0, .sFcvt 1 2 3 3 0 0,
    .sFcvt 1 2 3 2 0 1, .sFcvt 1 2 3 6 1 0, .sFcvt 1 2 1 3 1 0, .vAdd 1 2 3 6 0, .vAbs 1 2 1 0, .vFadd 1 2 3 5 0 0,
    .vFadd 1 2 3 10 1 0, .vFdiv 1 2 3 8 0 0, .vCvt 1 2 6 6 0 0, .vCvt 1 2 2 0 0 0, .vCvt 1 2 6 0 1 0, .vCvt 1 2 6 1 0 1,
    .vPack 1 2 3 6 0 0, .vPack 1 2 3 10 1 0, .vPack 1 2 3 8 0 1, .vUnpack 1 2 2 8, .vUnpack 1 2 4 11, .vCmp 62 2 3 6 0,
    .vCmp 1 2 3 2 0, .vCmp 1 2 3 6 7, .vCmp 1 2 3 0 6, .vSel 1 2 3 62, .vBcast 1 2 6, .vRsum 1 2 0, .vRmax 1 2 8, .vRsumi 1 2 6,
    .vScan 1 2 7 0, .vScan 1 2 0 1, .vSplit 63 0, .vSweepAdd 1 2 8 6 0 0, .vSweepMul 1 2 62 6 0 0, .vSweepMax 1 2 3 7 0 0,
    .vSweepFma 1 2 3 6 0 1, .vSweepCvt 1 2 1 1 0] : List Instr).all (fun i => !i.wellFormed) = true := by decide +kernel

/-- Sets of 02 R56 to R61. -/
theorem test_illFormed_rest : ([.lLdvX 1 2 3 0 3, .lStvX 1 2 3 3, .fLdvX 1 2 3 1 3, .fStvX 1 2 3 3, .fenceScope 7, .mmBind 0 61 0 0,
    .mmBind 0 1 15 0, .mmBind 0 0 0 8, .mmPair 0 1 2 8, .mmOne 0 1 2 15, .collAr 1 2 3 2 0, .collAr 1 2 3 0 3, .sysWr 1 0x48,
    .sysWr 1 0x49, .sysWr 1 0x10, .sysWr 1 0x2B] : List Instr).all (fun i => !i.wellFormed) = true := by decide +kernel

/-- Ranges of the operands of events: cores, slots, dies, harts, ports, links and table entries that the package lacks. -/
theorem test_illFormed_events : ([.enclaveThreadInterrupt 64 0 true, .kickStore 64 1 0 8 0, .kickStoreAccept 1 16,
    .admissionOpportunity 4, .runArbitration 512 0, .runArbitration 0 2, .svtWidening 4 0, .copyComplete 512 0,
    .copyElementFault 512 0, .tileOpStart 512, .tileOpRetire 512 [], .tileOpRetire 0 [[], [], []], .resizeCursorStep 0 64 0,
    .flushCursorStep 0 0 4, .dtuAcknowledge 4, .walkComplete 4 0, .migrationEntryWrite 5 0 0 0, .migrationStep 0 64 true,
    .migrationRetire 5 0, .mmtWrite 2816 0, .mmtWrite 0 4, .partitionRecordWrite 255 (List.replicate 64 0),
    .partitionRecordWrite 0 [], .virtualInterfaceWrite 256 0 0 false, .frameAccountWrite 256 true 0, .coreTokensWrite 4 1,
    .lamplightAcquisition 512 true true, .tokenRefill 512, .traceLost 512, .thermalTrip 5 105, .dieToDieFlit 10 true 0,
    .tuilosFlit 18 true, .streamBindingTimeout 1 64, .ueCompletion 1 16 0 0 [], .pendingInterrupt 64] :
    List Instr).all (fun i => !i.wellFormed) = true := by decide +kernel

/-- 02 Table 2.2. -/
theorem test_decode_alu : List.map (decode .sv)
    [0x0028DF80#32, 0x0028DF81#32, 0x0028DF82#32, 0x0028DF83#32, 0x0028DF84#32, 0x0028DF85#32, 0x0028DF86#32, 0x0028DF87#32,
     0x0028DF88#32, 0x0028DF89#32, 0x0028DF8A#32, 0x0028DF8B#32, 0x0028DF8C#32, 0x0028DF8D#32, 0x0028DF90#32, 0x0028DF91#32,
     0x0028DF92#32, 0x0028DF94#32, 0x0028DF95#32, 0x0028DF96#32, 0x0028DF97#32, 0x0028DF9C#32, 0x0028DF9D#32] =
  List.map some
    [.sAdd 5 6 63, .sSub 5 6 63, .sAnd 5 6 63, .sOr 5 6 63, .sXor 5 6 63, .sAndn 5 6 63, .sShl 5 6 63, .sShr 5 6 63, .sSra 5 6
     63, .sRot 5 6 63, .sMin 5 6 63, .sMax 5 6 63, .sMinn 5 6 63, .sMaxn 5 6 63, .sMul 5 6 63, .sMulh 5 6 63, .sMulhn 5 6 63,
     .sDiv 5 6 63, .sDivn 5 6 63, .sRem 5 6 63, .sRemn 5 6 63, .sBext 5 6 63, .sBins 5 6 63] := by decide +kernel

/-- 02 Table 2.2. -/
theorem test_decode_alu_unary : List.map (decode .sv)
    [0x01F8C00E#32, 0x01F8C018#32, 0x01F8C019#32, 0x01F8C01A#32] =
  List.map some
    [.sMov 63 6, .sClz 63 6, .sCtz 63 6, .sPop 63 6] := by decide +kernel

/-- 02 Table 2.1. -/
theorem test_decode_scalar_rest : List.map (decode .sv)
    [0x0228C384#32, 0x0428C392#32, 0x0628C387#32, 0x1028DFFE#32, 0x1228DFFE#32, 0x1428DFFE#32, 0x1628DFFE#32, 0x1828C03F#32,
     0x1A28C03F#32, 0x1C28C03F#32, 0x2A28DFFF#32, 0x302FFFFF#32, 0x32280001#32, 0x3E000000#32] =
  List.map some
    [.sCmp 5 6 7 4, .sSel 5 6 7 9, .sLea 5 6 7 7, .sAddi 5 6 0x1FFE, .sAndi 5 6 0x1FFE, .sOri 5 6 0x1FFE, .sXori 5 6 0x1FFE,
     .sShli 5 6 63, .sShri 5 6 63, .sSrai 5 6 63, .sCmpi 5 5 6 0x1FFF, .sLi 5 0x7FFFF, .sLim 5 1, .nop] := by decide +kernel

/-- 02 Tables 2.1, 2.4, 2.5. -/
theorem test_decode_scalar_float : List.map (decode .sv)
    [0x4028C385#32, 0x4028C38D#32, 0x4028C395#32, 0x4028C39D#32, 0x4028C026#32, 0x4028C3A9#32, 0x4028C3B0#32, 0x4028C039#32,
     0x4228C3B1#32, 0x4428C982#32, 0x5C28C393#32] =
  List.map some
    [.sFadd 5 6 7 2 1, .sFsub 5 6 7 2 1, .sFmul 5 6 7 2 1, .sFdiv 5 6 7 2 1, .sFsqrt 5 6 3 0, .sFmin 5 6 7 1, .sFmax 5 6 7 0,
     .sFclass 5 6 1, .sFcmp 5 6 7 3 1, .sFcvt 5 6 2 3 1 0, .sFma 1 2 5 6 7 9 1] := by decide +kernel

/-- 02 Table 2.1. -/
theorem test_decode_transfers : List.map (decode .sv)
    [0x6007FFFD#32, 0x62280004#32, 0x64280004#32, 0x662FFFFF#32, 0x6800C000#32, 0x6A080007#32, 0x6C00C003#32, 0x6E000000#32,
     0x7828DFFF#32] =
  List.map some
    [.branch 0x7FFFD, .bz 5 4, .bnz 5 4, .loop 5 0x7FFFF, .jr 6, .call 1 7, .callr 6 3, .ret, .bcmp 4 5 6 0x1FFF] := by decide +kernel

/-- 02 Table 2.6. -/
theorem test_decode_vector_integer : List.map (decode .sv)
    [0x8028DFA9#32, 0x8228DFA9#32, 0x8428DFA9#32, 0x8628DFA8#32, 0x9028DFA9#32, 0x9228DFA8#32, 0x9428DFA8#32, 0x9628DFA8#32,
     0x9828DFA8#32, 0x8828DF80#32, 0x8A28DF80#32, 0x8C28DF80#32, 0x8E28DF80#32, 0x9A28C021#32, 0x9C28C018#32, 0x9E28C010#32,
     0xC028C393#32] =
  List.map some
    [.vAdd 5 6 63 5 1, .vSub 5 6 63 5 1, .vMul 5 6 63 5 1, .vMulh 5 6 63 5, .vShl 5 6 63 5 1, .vShr 5 6 63 5, .vSra 5 6 63 5,
     .vMin 5 6 63 5, .vMax 5 6 63 5, .vAnd 5 6 63, .vOr 5 6 63, .vXor 5 6 63, .vAndn 5 6 63, .vAbs 5 6 4 1, .vClz 5 6 3, .vPop 5
     6 2, .vMad 5 6 7 9 1] := by decide +kernel

/-- 02 Table 2.6; the first word is the worked encoding of 02. -/
theorem test_decode_vector_float : List.map (decode .sv)
    [0xA01882B2#32, 0xA228C3CF#32, 0xA428C3D9#32, 0xA628C3C0#32, 0xA828C3B8#32, 0xAA28C3BD#32, 0xAC28C032#32, 0xAE28C030#32,
     0xB028C030#32, 0xB228C030#32, 0xB428C030#32, 0xC228C393#32, 0xC428C393#32, 0xC628C393#32, 0xC828C393#32] =
  List.map some
    [.vFadd 3 4 5 6 1 0, .vFsub 5 6 7 9 3 1, .vFmul 5 6 7 11 0 1, .vFmin 5 6 7 8, .vFmax 5 6 7 7, .vFdiv 5 6 7 7 2 1, .vFsqrt 5
     6 6 1, .vFrcp 5 6, .vFrsq 5 6, .vFexp2 5 6, .vFlog2 5 6, .vFmaF32 5 6 7 9 1, .vFmaF64 5 6 7 9 1, .vFmaF16x2 5 6 7 9 1,
     .vFmaBf16x2 5 6 7 9 1] := by decide +kernel

/-- 02 Table 2.6, R55. -/
theorem test_decode_vector_moves : List.map (decode .sv)
    [0xB628C44C#32, 0xB828C3D1#32, 0xBA28C1D8#32, 0xBDE8C3BE#32, 0xBE28C3FA#32, 0xD02FFFFF#32, 0xD228C000#32, 0xD428C038#32,
     0xD628C380#32, 0xD828C380#32, 0xDA280000#32, 0xDC28C380#32, 0xDE28C380#32, 0xE028C038#32, 0xE228C008#32, 0xE428C030#32,
     0xE628C008#32, 0xE828C036#32, 0xEBEFFFFF#32, 0xEC000000#32] =
  List.map some
    [.vCvt 5 6 8 9 2 0, .vPack 5 6 7 10 0 1, .vUnpack 5 6 3 11, .vCmp 61 6 7 7 6, .vSel 5 6 7 61, .vLi 5 0x7FFFF, .vMov 5 6,
     .vBcast 5 6 7, .vGet 5 6 7, .vSet 5 6 7, .vIota 5, .vPerm 5 6 7, .vShfl 5 6 7, .vRsum 5 6 7, .vRmax 5 6 1, .vRmin 5 6 6,
     .vRsumi 5 6 1, .vScan 5 6 6 3, .vSplit 61 0x7FFFF, .vJoin] := by decide +kernel

/-- 02 Table 2.6, R55. -/
theorem test_decode_sweeps : List.map (decode .sv)
    [0xF038DF89#32, 0xF238DF89#32, 0xF438C289#32, 0xF638C289#32, 0xF838C2B4#32, 0xFA38DF81#32] =
  List.map some
    [.vSweepAdd 7 6 63 1 0 1, .vSweepMul 7 6 63 1 0 1, .vSweepMax 7 6 5 1 0 1, .vSweepMin 7 6 5 1 0 1, .vSweepFma 7 6 5 6 2 0,
     .vSweepCvt 7 6 0 0 1] := by decide +kernel

/-- 02 Table 2.7. -/
theorem test_decode_local : List.map (decode .mem)
    [0x0028CE00#32, 0x0228C1FF#32, 0x0428DFFF#32, 0x0628C386#32, 0x0828C402#32, 0x0A28DC02#32, 0x0C28C381#32, 0x1028C802#32,
     0x1228CC02#32, 0x1428C802#32, 0x1628CC02#32, 0x1828C380#32, 0x1828C381#32, 0x1828C382#32, 0x1A28C380#32, 0x1A28C381#32,
     0x1C00C000#32] =
  List.map some
    [.lLds 5 6 3 0x200, .lLdsN 5 6 0 511, .lLdv 5 6 0x3FF, .lLdvX 5 6 7 1 2, .lSts 5 6 1 2, .lStv 5 6 2, .lStvX 5 6 7 1,
     .lLdfTake 5 6 0 2, .lLdfPeek 5 6 1 2, .lStfFill 5 6 0 2, .lStfForce 5 6 1 2, .lFeFull 5 6 7, .lFeEmpty 5 6 7, .lFeTest 5 6
     7, .lWopenRo 5 6 7, .lWopenSw 5 6 7, .lWclose 6] := by decide +kernel

/-- 02 Table 2.7. -/
theorem test_decode_far : List.map (decode .mem)
    [0x4028CFFF#32, 0x4228C801#32, 0x4428DC01#32, 0x4628C384#32, 0x4828C001#32, 0x4A28DC01#32, 0x4C28C382#32, 0x5028C401#32,
     0x5228CC01#32, 0x5408D401#32, 0x5400D801#32] =
  List.map some
    [.fLds 5 6 3 0x3FF, .fLdsN 5 6 2 1, .fLdv 5 6 1, .fLdvX 5 6 7 1 0, .fSts 5 6 0 1, .fStv 5 6 1, .fStvX 5 6 7 2, .fLdb 5 6 1
     1, .fStb 5 6 3 1, .pf 1 6 1, .pfW 0 6 1] := by decide +kernel

/-- 02 Table 2.7, R57. -/
theorem test_decode_atomics : List.map (decode .mem)
    [0x8028C381#32, 0x8228C383#32, 0x8428C382#32, 0x8628C381#32, 0x8828C381#32, 0x8A28C381#32, 0x8C28C381#32, 0x8E28C384#32,
     0x9028C392#32, 0x9228C392#32, 0x9428C000#32, 0x9628C000#32, 0x9828C000#32, 0x9A28C000#32] =
  List.map some
    [.aAdd 5 6 7 1, .aMin 5 6 7 1 1, .aMax 5 6 7 1 0, .aAnd 5 6 7 1, .aOr 5 6 7 1, .aXor 5 6 7 1, .aXchg 5 6 7 1, .aFadd 5 6 7 1
     0, .aCas 5 6 7 9, .aCasD 5 6 7 9, .aRlock 5 6, .aRunlock 5 6, .aWlock 5 6, .aWunlock 5 6] := by decide +kernel

/-- 02 Table 2.7. -/
theorem test_decode_fences : List.map (decode .mem)
    [0xC0000006#32, 0xC200C000#32, 0xC400C000#32, 0xC6000000#32, 0xE000C000#32, 0xE200C000#32, 0xE400C380#32, 0xE600C380#32,
     0xE828C000#32] =
  List.map some
    [.fenceScope 6, .fenceRel 6, .fenceAcq 6, .fenceW, .lnDef 6, .lnResize 6, .lnFlush 6 7, .lnInv 6 7, .lnStat 5 6] := by decide +kernel

/-- 02 Table 2.8. -/
theorem test_decode_sync : List.map (decode .sync)
    [0x0028C000#32, 0x0200C380#32, 0x0400C000#32, 0x0600C000#32, 0x0800C00F#32, 0x0A00000F#32, 0x0C00C001#32, 0x0E280000#32,
     0x1028C000#32, 0x12000000#32, 0x1400C000#32, 0x16280000#32, 0x180008D1#32, 0x1A28C000#32, 0x1A28C001#32, 0x1C28C000#32,
     0x1E00C000#32] =
  List.map some
    [.launch 5 6, .join 6 7, .evtPub 6, .evtWait 6, .barArrive 6 15, .barWait 15, .barSync 6 1, .elect 5, .gRegroup 5 6, .yield,
     .monArm 6, .monWait 5, .wait 4 3 2 1, .tagWaitAny 5 6, .tagWaitAll 5 6, .tagFfs 5 6, .tagClr 6] := by decide +kernel

/-- 02 Table 2.9. -/
theorem test_decode_engine : List.map (decode .eng)
    [0x0038C000#32, 0x0238C07F#32, 0x0438C07E#32, 0x0638C283#32, 0x083FE002#32, 0x0A38C003#32, 0x201F8038#32, 0x200807A8#32,
     0x22780000#32, 0x2478C388#32, 0x2678C390#32, 0x2829E380#32, 0x2829E3FF#32, 0x2A78C380#32, 0x2C29E000#32] =
  List.map some
    [.cpIter 7 6, .cpIn 7 6 63 1, .cpOut 7 6 63, .cpGather 7 6 5 1 1, .cpFill 7 63 1 0, .cpCopy 7 6 1 1, .mmBind 3 60 0 7,
     .mmBind 1 0 15 5, .mmZero 15, .mmPair 15 6 7 1, .mmOne 15 6 7 2, .mmRd 5 15 7, .mmRdScale 5 15 7 63, .mmWr 15 6 7, .mmChk 5
     15] := by decide +kernel

/-- 02 Table 2.11. -/
theorem test_decode_fabric : List.map (decode .fab)
    [0x0028C000#32, 0x0200C000#32, 0x0428C3FE#32, 0x0628C382#32, 0x0800C380#32, 0x0A28C000#32, 0x0A28C001#32, 0x0C28C3CA#32,
     0x0E28C380#32, 0x1028C000#32, 0x1200C000#32, 0x1428C380#32, 0x1628C000#32] =
  List.map some
    [.wOpen 5 6, .wClose 6, .wPut 5 6 7 63, .wGet 5 6 7 1, .wWait 6 7, .wCntT 5 6, .wCntO 5 6, .collAr 5 6 7 9 2, .collBc 5 6 7,
     .collWait 5 6, .collCancel 6, .uePost 5 6 7, .uePoll 5 6] := by decide +kernel

/-- 02 Table 2.12; the rows for WSB, WSL, TAGS and TRET are sys.wr's words for their registers (01 Table 1.3). -/
theorem test_decode_system : List.map (decode .sys)
    [0x0028004B#32, 0x0200DFFF#32, 0x0200C048#32, 0x0200C049#32, 0x0200C010#32, 0x0200C02B#32, 0x04280000#32, 0x06001FFF#32,
     0x08000001#32, 0x0A000000#32, 0x0C00DFFF#32, 0x0E00C380#32, 0x1028C000#32, 0x12000003#32] =
  List.map some
    [.sysRd 5 0x4B, .sysWr 6 0x1FFF, .sysWrWsb 6, .sysWrWsl 6, .sysWrTags 6, .tret 6, .rdcyc 5, .trap 0x1FFF, .brk 1, .halt,
     .traceMark 6 0x1FFF, .ctrCfg 6 7, .ctrRd 5 6, .rpMark 3] := by decide +kernel

/-- sample words of 20 Table 20.1. -/
theorem test_decode_xlmenc : List.map (decode .xlm)
    [0x0005850B#32, 0x00C5950B#32, 0x0005A50B#32, 0x0005B50B#32, 0x0005C50B#32, 0x0005D50B#32, 0x0005802B#32, 0x00C5952B#32,
     0x00C5A52B#32, 0x00C5B52B#32] =
  List.map some
    [.encMake 11 10, .encEnter 12 11 10, .encKill 11 10, .pgOut 11 10, .pgIn 11 10, .potXfer 11 10, .encExit 11, .encOut 12 11
     10, .encIn 12 11 10, .encRep 12 11 10] := by decide +kernel

/-- Words that are no instruction: unassigned opcodes and fn values, used fields that must be zero, and sets of 02 R50 to R55. -/
theorem test_refused_sv : (
    [0x08000000#32, 0x0028C38F#32, 0x0028C08E#32, 0x0228C386#32, 0x0228C388#32, 0x0428C393#32, 0x0628C388#32, 0x1828C040#32,
     0x3E080000#32, 0x4028C3C0#32, 0x4028C0A0#32, 0x4028C3AA#32, 0x4228C3C0#32, 0x4228C382#32, 0x4428CD80#32, 0x4428CD01#32,
     0x4428CF02#32, 0x4428C182#32, 0x60080000#32, 0x6808C000#32, 0x6A200000#32, 0x6C00C004#32, 0x6E000001#32, 0x7C28C000#32]
    : List W32).all (fun w => (decode .sv w).isNone) = true := by decide +kernel

/-- Words that are no instruction: 02 R54, R55; the fourth word is the worked encoding v.fadd.e4m3x4.rtz. -/
theorem test_refused_vector : (
    [0x8028C3B0#32, 0x8628C381#32, 0x8828C388#32, 0xA01882D2#32, 0x9A28C008#32, 0xA028C3A8#32, 0xAA28C3C0#32, 0xAE28C038#32,
     0xB628C330#32, 0xB628C100#32, 0xB628C412#32, 0xB828C3B0#32, 0xBA28C140#32, 0xBDF0C3B0#32, 0xBC28C3B7#32, 0xBC28C386#32,
     0xBE28C3FC#32, 0xD428C030#32, 0xE028C000#32, 0xE628C030#32, 0xE828C038#32, 0xEBF00000#32, 0xEC000001#32, 0xF040C3B0#32,
     0xF038C430#32, 0xF838DFB0#32, 0xFA38C2B0#32, 0xF038C2B1#32, 0xCA000000#32, 0xFC000000#32]
    : List W32).all (fun w => (decode .sv w).isNone) = true := by decide +kernel

/-- Words that are no instruction: 02 Table 2.7, R57. -/
theorem test_refused_mem : (
    [0x0028D000#32, 0x0428CC00#32, 0x0628C383#32, 0x0628C388#32, 0x0C28C384#32, 0x1028C400#32, 0x1828C383#32, 0x1A28C382#32,
     0x1C08C000#32, 0x5410D400#32, 0x5400CC00#32, 0x8028C382#32, 0x8028C384#32, 0x8C28C382#32, 0x8E28C382#32, 0x9028C393#32,
     0x9428C080#32, 0xC0000007#32, 0xC6080000#32, 0xE828C080#32, 0x0E000000#32, 0x4E000000#32, 0xEA000000#32]
    : List W32).all (fun w => (decode .mem w).isNone) = true := by decide +kernel

/-- Words that are no instruction: 02 Table 2.8. -/
theorem test_refused_sync : (
    [0x0028C080#32, 0x0208C380#32, 0x0800C010#32, 0x0A002000#32, 0x18001000#32, 0x1A28C002#32, 0x12080000#32, 0x20000000#32]
    : List W32).all (fun w => (decode .sync w).isNone) = true := by decide +kernel

/-- Words that are no instruction: 02 Table 2.9. -/
theorem test_refused_eng : (
    [0x0040C000#32, 0x02390002#32, 0x0238C082#32, 0x0438C003#32, 0x0638C402#32, 0x20200000#32, 0x2007A000#32, 0x20000800#32,
     0x20000040#32, 0x22800000#32, 0x2608C381#32, 0x2829E382#32, 0x2C2A0000#32, 0x0C000000#32, 0x2E000000#32]
    : List W32).all (fun w => (decode .eng w).isNone) = true := by decide +kernel

/-- Words that are no instruction: 02 Table 2.11. -/
theorem test_refused_fab : (
    [0x0028C080#32, 0x0428C383#32, 0x0A28C002#32, 0x0C28C390#32, 0x0C28C383#32, 0x0E28C381#32, 0x18000000#32]
    : List W32).all (fun w => (decode .fab w).isNone) = true := by decide +kernel

/-- Words that are no instruction: 02 Table 2.12. -/
theorem test_refused_sys : (
    [0x0208C018#32, 0x04282000#32, 0x06080000#32, 0x0A080000#32, 0x0E08C380#32, 0x1028C080#32, 0x12002000#32, 0x14000000#32]
    : List W32).all (fun w => (decode .sys w).isNone) = true := by decide +kernel

/-- Words that are no instruction: 20 R363. -/
theorem test_refused_xlm : (
    [0x0205850B#32, 0x0005E50B#32, 0x0005F50B#32, 0x0015850B#32, 0x0005C52B#32, 0x000580AB#32, 0x0015802B#32]
    : List W32).all (fun w => (decode .xlm w).isNone) = true := by decide +kernel

/-! ### Small states -/

/-- A machine with one resident group on core 0 whose next word is nop. -/
def placed : State := State.reset.placeWord .sv 0x3E000000#32
/-- The placed machine with some scalar registers. -/
def withS (l : List (Reg × Word)) : State := placed.modG fun g => l.foldl (fun g x => g.setS x.1 x.2) g
/-- A machine with some vector registers, each the same in every lane. -/
def withV (s : State) (l : List (Reg × W32)) : State := s.modG fun g => l.foldl (fun g x => g.setV x.1 fun _ => x.2) g
/-- What one instruction leaves, seen through `f`. -/
def after {α : Type} (i : Instr) (s : State) (f : State → α) : Option α :=
  match exec i s with
  | .next t => some (f t)
  | _ => none
/-- Scalar register 5 after an instruction with operands in 6 and 7. -/
def s5 (i : Reg → Reg → Reg → Instr) (x y : Word) : Option Word := after (i 5 6 7) (withS [(6, x), (7, y)]) fun t => t.g.sr 5
/-- Lane 0 of vector register 5 after an instruction with operands in 6 and 7. -/
def v5 (i : Reg → Reg → Reg → Instr) (x y : W32) : Option W32 :=
  after (i 5 6 7) (withV placed [(6, x), (7, y)]) fun t => lane (t.g.vr 5) 0

/-! ### Results of one step, calculated from the spec -/

/-- 04 Table 4.1: sums wrap at 2^64, shifts take the count modulo 64, and comparisons read signs as their form says. -/
theorem test_scalar_integer :
    s5 .sAdd 0xFFFFFFFFFFFFFFFF 2 = some 1 ∧ s5 .sSub 1 2 = some 0xFFFFFFFFFFFFFFFF ∧ s5 .sAndn 0xFF 0x0F = some 0xF0 ∧
    s5 .sAnd 0xC 0xA = some 8 ∧ s5 .sOr 0xC 0xA = some 0xE ∧ s5 .sXor 0xC 0xA = some 6 ∧
    s5 .sShl 1 65 = some 2 ∧ s5 .sShr 0x8000000000000000 63 = some 1 ∧ s5 .sSra 0x8000000000000000 63 = some 0xFFFFFFFFFFFFFFFF ∧
    s5 .sRot 0x8000000000000000 1 = some 1 ∧ s5 .sMin 0xFFFFFFFFFFFFFFFF 1 = some 0xFFFFFFFFFFFFFFFF ∧
    s5 .sMax 0xFFFFFFFFFFFFFFFF 1 = some 1 ∧ s5 .sMinn 0xFFFFFFFFFFFFFFFF 1 = some 1 ∧
    s5 .sMaxn 0xFFFFFFFFFFFFFFFF 1 = some 0xFFFFFFFFFFFFFFFF := by decide +kernel

/-- 04 Table 4.1, R90: products, quotients and their corners, counts and bit fields. -/
theorem test_scalar_multiply_divide :
    s5 .sMul 0x100000000 0x100000001 = some 0x100000000 ∧ s5 .sMulh 0xFFFFFFFFFFFFFFFF 1 = some 0xFFFFFFFFFFFFFFFF ∧
    s5 .sMulhn 0xFFFFFFFFFFFFFFFF 2 = some 1 ∧ s5 .sDiv 0xFFFFFFFFFFFFFFF9 2 = some 0xFFFFFFFFFFFFFFFD ∧
    s5 .sDiv 5 0 = some 0xFFFFFFFFFFFFFFFF ∧ s5 .sDiv 0x8000000000000000 0xFFFFFFFFFFFFFFFF = some 0x8000000000000000 ∧
    s5 .sRem 0xFFFFFFFFFFFFFFF9 2 = some 0xFFFFFFFFFFFFFFFF ∧ s5 .sRem 5 0 = some 5 ∧ s5 .sDivn 7 2 = some 3 ∧
    s5 .sRemn 7 0 = some 7 ∧ s5 (fun d a _ => .sClz d a) 1 0 = some 63 ∧ s5 (fun d a _ => .sCtz d a) 0 0 = some 64 ∧
    s5 (fun d a _ => .sPop d a) 0xFF 0 = some 8 ∧ s5 (fun d a _ => .sMov d a) 9 0 = some 9 ∧
    s5 .sBext 0xABCD 0x804 = some 0xBC ∧ s5 .sBins 0xF 0x404 = some 0xF0 := by decide +kernel

/-- 04 R92 to R97: immediates are sign-extended, s.lim shifts 19 bits in, s.li sign-extends 19 bits, and s63 takes nothing. -/
theorem test_scalar_rest :
    s5 (fun d a _ => .sAddi d a 0x1FFF) 1 0 = some 0 ∧ s5 (fun d a _ => .sAndi d a 0x1FFE) 7 0 = some 6 ∧
    s5 (fun d a _ => .sOri d a 1) 6 0 = some 7 ∧ s5 (fun d a _ => .sXori d a 3) 6 0 = some 5 ∧
    s5 (fun d a _ => .sShli d a 63) 1 0 = some 0x8000000000000000 ∧ s5 (fun d a _ => .sShri d a 4) 0xF0 0 = some 0xF ∧
    s5 (fun d a _ => .sSrai d a 4) 0xFFFFFFFFFFFFFF00 0 = some 0xFFFFFFFFFFFFFFF0 ∧ s5 (fun d _ _ => .sLi d 0x40000) 0 0 =
      some 0xFFFFFFFFFFFC0000 ∧ s5 (fun d _ _ => .sLim d 0x7FFFF) 0 0 = some 0x7FFFF ∧
    s5 (fun d a b => .sCmp d a b 2) 0xFFFFFFFFFFFFFFFF 1 = some 1 ∧ s5 (fun d a b => .sCmp d a b 4) 0xFFFFFFFFFFFFFFFF 1 = some 0 ∧
    s5 (fun d a _ => .sCmpi 3 d a 0x1FFF) 0 0 = some 1 ∧ s5 (fun d a b => .sLea d a b 7) 1 2 = some 257 ∧
    s5 (fun d a b => .sSel d a b 6) 4 9 = some 4 ∧ after (.sAdd 63 6 6) (withS [(6, 5)]) (fun t => t.g.sr 63) = some 0 := by
  decide +kernel

/-- 04 R98 to R102 (f32 1.0 is 0x3F800000): s.fadd of 1 and 1 is 2, dividing by zero raises DZ, min takes −0 for less than +0, the
class of −∞ is bit 0, an ordered compare with a NaN fails, s.fcvt of f32 2.5 to i64 rounds to even, and s.fma of 2 × 3 + 1 is 7. -/
theorem test_scalar_float :
    s5 (fun d a b => .sFadd d a b 0 0) 0x3F800000 0x3F800000 = some 0x40000000 ∧
    s5 (fun d a b => .sFsub d a b 0 1) 0x3FF0000000000000 0x3FF0000000000000 = some 0 ∧
    s5 (fun d a b => .sFmul d a b 0 0) 0x40000000 0x40400000 = some 0x40C00000 ∧
    after (.sFdiv 5 6 7 0 0) (withS [(6, 0x3F800000)]) (fun t => (t.g.sr 5, t.g.fpf)) = some (0x7F800000, Flags.dz) ∧
    s5 (fun d a _ => .sFsqrt d a 0 0) 0x40800000 0 = some 0x40000000 ∧ s5 (fun d a b => .sFmin d a b 0) 0 0x80000000 = some 0x80000000 ∧
    s5 (fun d a b => .sFmax d a b 0) 0x3F800000 0x40000000 = some 0x40000000 ∧ s5 (fun d a _ => .sFclass d a 0) 0xFF800000 0 = some 1 ∧
    s5 (fun d a b => .sFcmp d a b 1 0) 0x7FC00000 0 = some 0 ∧ s5 (fun d a _ => .sFcvt d a 3 0 0 0) 0x40200000 0 = some 2 ∧
    after (.sFma 0 0 5 6 7 8 0) (withS [(6, 0x40000000), (7, 0x40400000), (8, 0x3F800000)]) (fun t => t.g.sr 5) = some 0x40E00000 := by
  decide +kernel

/-- 04 R103 to R107: transfers count from the header at 0x10000; loop on 1 falls through; call sets s59 to the next header with its
slide code and slides; a misaligned jr halts the group. -/
theorem test_transfers :
    let pc (i : Instr) (l : List (Reg × Word)) := after i (withS l) fun t => t.g.t.pc
    pc (.branch 0x7FFFF) [] = some 0xFFFC ∧ pc (.bz 6 4) [] = some 0x10010 ∧ pc (.bnz 6 4) [] = some 0x10008 ∧
    pc (.loop 6 4) [(6, 2)] = some 0x10010 ∧ pc (.loop 6 4) [(6, 1)] = some 0x10008 ∧ pc (.jr 6) [(6, 0x40)] = some 0x40 ∧
    pc (.bcmp 4 6 7 1) [(6, 1), (7, 2)] = some 0x10004 ∧ pc .nop [] = some 0x10008 ∧
    after (.jr 6) (withS [(6, 2)]) (fun t => t.g.stat) = some .halted ∧
    after (.call 1 7) placed (fun t => (t.g.sr 59, t.g.wpos, t.g.t.pc)) = some (0x10009, 16, 0x1001C) ∧
    after (.callr 6 0) (withS [(6, 0x80)]) (fun t => (t.g.wpos, t.g.t.pc)) = some (8, 0x80) ∧
    after .ret ((withS [(59, 0x20001)]).modG fun g => { g with wpos := 16 }) (fun t => (t.g.wpos, t.g.t.pc)) = some (0, 0x20000) ∧
    after .ret placed (fun t => t.g.stat) = some .ending ∧ after .halt placed (fun t => t.g.t.stat) = some .ended := by decide +kernel

/-- 05 R113 to R115: a top-level split whose triple holds no lane leaves T at the join; a v.join without a split is no instruction. -/
theorem test_split_join :
    (let s := placed.setGroup placed.g
     let s : State := { s with mem := memPutAll s.mem ((addrs 0x10020 4).zip (leBytes 4 (oneWordHeader .sv).toNat)),
                               cores := smPut s.cores 0 { s.core 0 with near := [⟨0x400, 1, leBytes 4 (oneWordHeader .sv).toNat ++
                                 List.replicate 28 0 ++ leBytes 4 (oneWordHeader .sv).toNat ++ List.replicate 28 0⟩] } }
     after (.vSplit 6 8) s (fun t => (t.g.t.stat, t.g.t.mask, t.g.f.stat, t.g.f.pc)) =
       some (.atJoin, 0, .live, 0x10028)) ∧
    after .vJoin placed (fun t => t.g.stat) = some .halted := by decide +kernel

/-- 06 R144, R145: sub-elements wrap, saturate where SN says so, and shift by their count modulo the width. -/
theorem test_vector_integer :
    v5 (fun d a b => .vAdd d a b 2 0) 0x7FFFFFFF 0x00010001 = some 0x80000000 ∧
    v5 (fun d a b => .vAdd d a b 2 1) 0x7FFF7FFF 0x00010001 = some 0x7FFF7FFF ∧
    v5 (fun d a b => .vSub d a b 5 1) 0x01020304 0x02020202 = some 0x00000102 ∧
    v5 (fun d a b => .vMul d a b 0 0) 0x10000 0x10001 = some 0x10000 ∧ v5 (fun d a b => .vMulh d a b 1) 0x80000000 2 = some 1 ∧
    v5 .vAnd 0xC 0xA = some 8 ∧ v5 .vOr 0xC 0xA = some 0xE ∧ v5 .vXor 0xC 0xA = some 6 ∧ v5 .vAndn 0xC 0xA = some 4 ∧
    v5 (fun d a b => .vShl d a b 0 0) 1 33 = some 2 ∧ v5 (fun d a b => .vShr d a b 4) 0x80808080 0x01010101 = some 0x40404040 ∧
    v5 (fun d a b => .vSra d a b 4) 0x80808080 0x01010101 = some 0xC0C0C0C0 ∧
    v5 (fun d a b => .vMin d a b 0) 0xFFFFFFFF 1 = some 0xFFFFFFFF ∧ v5 (fun d a b => .vMax d a b 1) 0xFFFFFFFF 1 = some 0xFFFFFFFF ∧
    v5 (fun d a _ => .vAbs d a 0 1) 0x80000000 0 = some 0x7FFFFFFF ∧ v5 (fun d a _ => .vClz d a 2) 0x00010000 0 = some 0x000F0010 ∧
    v5 (fun d a _ => .vPop d a 4) 0xFF0F0301 0 = some 0x08040201 := by decide +kernel

/-- 06 R146 to R153: each element alone in its TYPE; f16 1.0 is 0x3C00, bf16 1.0 is 0x3F80, e4m3 1.0 is 0x38. -/
theorem test_vector_float :
    v5 (fun d a b => .vFadd d a b 6 0 0) 0x3F800000 0x3F800000 = some 0x40000000 ∧
    v5 (fun d a b => .vFsub d a b 6 0 1) 0x40000000 0x3F800000 = some 0xBF800000 ∧
    v5 (fun d a b => .vFmul d a b 8 0 0) 0x3C003C00 0x40004000 = some 0x40004000 ∧
    v5 (fun d a b => .vFmin d a b 9) 0x3F803F80 0x40004000 = some 0x3F803F80 ∧
    v5 (fun d a b => .vFmax d a b 10) 0x38383838 0x40404040 = some 0x40404040 ∧
    v5 (fun d a b => .vFdiv d a b 6 0 0) 0x40C00000 0x40000000 = some 0x40400000 ∧
    v5 (fun d a _ => .vFsqrt d a 6 0) 0x40800000 0 = some 0x40000000 ∧
    v5 (fun d a _ => .vCvt d a 0 6 0 0) 0x40200000 0 = some 2 ∧ v5 (fun d a b => .vPack d a b 8 0 0) 0x3F800000 0x40000000 = some 0x40003C00 ∧
    v5 (fun d a _ => .vUnpack d a 1 8) 0x40003C00 0 = some 0x40000000 ∧
    after (.vFmaF32 5 6 7 8 0) (withV placed [(6, 0x40000000), (7, 0x40400000), (8, 0x3F800000)]) (fun t => lane (t.g.vr 5) 95) =
      some 0x40E00000 ∧
    after (.vCmp 5 6 7 6 0) (withV placed [(6, 0x3F800000), (7, 0x3F800000)]) (fun t => (t.g.sr 5, t.g.sr 7)) =
      some (0xFFFFFFFF, 0xFFFFFFFF) ∧
    after (.vSel 5 6 7 8) (withV (withS [(8, 2)]) [(6, 1), (7, 9)]) (fun t => (lane (t.g.vr 5) 0, lane (t.g.vr 5) 1)) = some (9, 1) := by
  decide +kernel

/-- 06 R148: zeros, infinities, negative operands and the exact cases of the approximating words. -/
theorem test_vector_approx :
    let g (i : Reg → Reg → Instr) (x : W32) := after (i 5 6) (withV placed [(6, x)]) fun t => (lane (t.g.vr 5) 3, t.g.fpf)
    g .vFrcp 0x40000000 = some (0x3F000000, 0) ∧ g .vFrcp 0x80000000 = some (0xFF800000, Flags.dz) ∧
    g .vFrsq 0x40800000 = some (0x3F000000, 0) ∧ g .vFrsq 0xBF800000 = some (0x7FC00000, Flags.nv) ∧
    g .vFexp2 0x40400000 = some (0x41000000, 0) ∧ g .vFexp2 0x43000000 = some (0x7F800000, Flags.ov ||| Flags.nx) ∧
    g .vFlog2 0x41000000 = some (0x40400000, 0) ∧ g .vFlog2 0 = some (0xFF800000, Flags.dz) := by decide +kernel

/-- 06 R154 to R159: moves, permutes and reductions over 96 lanes. -/
theorem test_vector_moves :
    let l (i : Instr) (n : Nat) := after i (withV (withS [(6, 7), (7, 5)]) [(6, 2), (7, 96)]) fun t => lane (t.g.vr 5) n
    let r (i : Instr) := after i (withV (withS [(7, 95)]) [(6, 2)]) fun t => t.g.sr 5
    l (.vLi 5 0x7FFFF) 0 = some 0xFFFFFFFF ∧ l (.vMov 5 6) 95 = some 2 ∧ l (.vBcast 5 6 0) 9 = some 7 ∧ l (.vIota 5) 95 = some 95 ∧
    l (.vSet 5 6 7) 5 = some 7 ∧ l (.vSet 5 6 7) 6 = some 0 ∧ l (.vPerm 5 6 7) 0 = some 0 ∧ l (.vShfl 5 6 7) 0 = some 2 ∧
    l (.vScan 5 6 0 0) 95 = some 192 ∧ r (.vGet 5 6 7) = some 2 ∧ r (.vRsumi 5 6 0) = some 192 ∧ r (.vRmax 5 6 0) = some 2 ∧
    r (.vRmin 5 6 1) = some 2 ∧ r (.vRsum 5 6 6) = some 0xC0 := by decide +kernel

/-! ### Hypotheses of the statements, met by small states -/

/-- ScalarImmediatesAndCompares, ScalarFloatResults: every condition has its code, and a NaN exists. -/
theorem test_meets_ScalarFloatResults : (3#3).toNat ≤ 3 ∧ (fpDec .f32 0x7FC00000).isNaN = true ∧ (fpDec .f64 0).isNaN = false := by
  decide +kernel

/-- ControlTransfers: registers that take and do not take each branch, and both kinds of target. -/
theorem test_meets_ControlTransfers :
    (withS [(6, 1)]).g.sr 6 = 1 ∧ (withS [(6, 0)]).g.sr 6 = 0 ∧ (withS [(6, 0x104)]).g.sr 6 = 0x104 ∧
    ((withS [(6, 0x103)]).g.sr 6).toNat % 4 ≠ 0 := by decide +kernel

/-- CallsAndReturns: a slide with room; a return to the caller; a window below the slide, and one below the split's. -/
theorem test_meets_CallsAndReturns :
    let back (s59 : Word) (wpos : Nat) (split : Option Split) : State :=
      (withS [(59, s59)]).modG fun g => { g with wpos := wpos, split := split }
    let b := back 0x20003 32 none
    (placed.slideUp 16).2 = none ∧
    ((b.g.sr 59).toNat % 4 + 1) * 8 = 32 ∧ 32 ≤ b.g.wpos ∧ (b.slideTo (b.g.wpos - 32)).2 = none ∧
    (back 0x20003 31 none).g.wpos < 32 ∧
    32 + 8 > (back 0x20003 32 (some ⟨0, 0, 8⟩)).g.wpos ∧ 32 ≤ (back 0x20003 32 (some ⟨0, 0, 8⟩)).g.wpos := by decide +kernel

/-- A machine whose group has one spill block of room at the base of its scratchpad, and a full ring. -/
def spilling (wsl : Word) : State := placed.modG fun g => { g with wsl := wsl, wpos := 16 }

/-- WindowSlides: room in the ring; a spill area of 0 bytes; blocks at both ends that pass; a limit that is no SELF address. -/
theorem test_meets_WindowSlides :
    placed.g.wpos + 16 + 48 ≤ 64 + placed.g.wlow ∧
    (spilling 0x800000).g.wsl.toNat < (spilling 0x800000).g.wsp.toNat + (spilling 0x800000).g.spillCount 8 * 3136 ∧
    (match (spilling 0x801000).selfAcc (spilling 0x801000).g 0x800000 3136 with | .ok _ => true | .error _ => false) = true ∧
    isSelf (spilling 0x801000).g.wsl.toNat = true ∧ isSelf (spilling 0x1801000).g.wsl.toNat = false ∧
    0 < (spilling 0x1801000).g.spillCount 8 ∧
    (spilling 0x1801000).g.wsp.toNat + (spilling 0x1801000).g.spillCount 8 * 3136 ≤ (spilling 0x1801000).g.wsl.toNat ∧
    (spilling 0x801000).slideUp 8 ≠ (spilling 0x801000, some (.stackOverflow, 0x800000)) ∧
    ((spilling 0x801000).slideUp 8).1.g.wsp = 0x800C40 := by decide +kernel

/-- PathEnds: the other slot is free, ended, live or at the join; a window stands above its place at the split; a recorded group. -/
theorem test_meets_PathEnds :
    let split (st : PSt) (wpos : Nat) : State :=
      placed.modG fun g => { g with f := { g.f with stat := st }, split := some ⟨0x20, 0x30, 0⟩, wpos := wpos }
    let recd := placed.modTask 1 fun k => { k with replay := 1 }
    placed.replayMode placed.g = 0 ∧ placed.g.sr 59 = 0 ∧ (placed.g.path true).stat = .free ∧
    ((split .atJoin 0).g.path true).stat = .atJoin ∧ (∀ x, (split .live 0).g.split = some x → (split .live 0).g.wpos ≤ x.wpos) ∧
    ((split .ended 8).slideTo 0).2 = none ∧ recd.replayMode recd.g = 1 := by
  refine ⟨by decide +kernel, by decide +kernel, by decide +kernel, by decide +kernel, ?_, by decide +kernel, by decide +kernel⟩
  intro x h
  cases h
  exact Nat.le_refl 0

/-- The placed machine with a word at the group's next 0x20 bytes that is, or is not, a header. -/
def joinAt (w : W32) : State :=
  placed.modCore 0 fun c => { c with near := [⟨0x400, 1, List.replicate 32 0 ++ leBytes 4 w.toNat ++ List.replicate 28 0⟩] }
/-- A group whose T side runs inside nested splits of some depth. -/
def nested (n : Nat) (s : State) (e : StackEnt) : State :=
  s.modG fun g => { g with t := { g.t with stack := List.replicate n e, pc := 0x10020 }, f := { g.f with stat := .live } }

/-- SplitsAndJoins: a header and another word at J, both kinds of split, the ninth level; at a join every side and place, and a
top-level join that is first, last and held. -/
theorem test_meets_SplitsAndJoins :
    let s := joinAt (oneWordHeader .sv)
    let J := (s.g.p.pc + 4 * (8#19).signExtend 57).toNat
    let e (f : Bool) (w : Nat) : StackEnt := { join := 0x10020, fmask := if f then 0 else 1, acc := 0, sideF := f, wpos := w }
    let top (st : PSt) (ld : Nat) : State := placed.modG fun g =>
      { g with t := { g.t with pc := 0x10020 }, f := { g.f with stat := st, ld := ld }, split := some ⟨0x10020, 0x10028, 0⟩ }
    s.fetchWord s.g J = .word (oneWordHeader .sv) ∧ (decodeHeader (oneWordHeader .sv)).isSome = true ∧
    (joinAt 7).fetchWord (joinAt 7).g J = .word 7 ∧ decodeHeader 7 = none ∧
    (s.g.path (!s.g.curF)).stat = .free ∧ s.g.curF = false ∧
    ((nested 7 s (e false 0)).g.path true).stat ≠ .free ∧ (nested 7 s (e false 0)).g.p.stack.length < 8 ∧
    8 ≤ (nested 8 s (e false 0)).g.p.stack.length ∧
    (nested 1 s (e false 0)).g.p.pc.toNat = (e false 0).join ∧ (nested 1 s (e true 0)).g.wpos = (e true 0).wpos ∧
    (nested 1 s (e false 8)).g.wpos ≠ (e false 8).wpos ∧ (e false 0).fmask ≠ 0 ∧
    (top .live 0).g.p.stack = [] ∧ ((top .atJoin 0).g.path true).stat = .atJoin ∧ (top .ended 0).g.f.ld = 0 ∧
    (top .atJoin 1).g.f.ld ≠ 0 ∧ placed.g.p.stack = [] := by decide +kernel

/-- VectorApproximations: operands of each of its cases at their boundaries. -/
theorem test_meets_VectorApproximations :
    fpDec .f32 0x00000001 = .fin false 1 (-149) ∧ f32Units 0x00000001 = 1 ∧ f32Pow (-149) = 1 ∧ f32Pow 127 = 0x7F000000 ∧
    f32Units 0x00000001 * (2 ^ 128 - 2 ^ 104) < 2 ^ 149 ∧ 2 ^ 149 ≤ f32Units 0x00400000 * (2 ^ 128 - 2 ^ 104) := by decide +kernel

/-- ScalarDivision: a divisor of zero, the overflowing pair and an ordinary one. -/
theorem test_meets_ScalarDivision :
    let s := withS [(5, -0x8000000000000000#64), (6, -1), (7, 2)]
    s.g.sr 8 = 0 ∧ (s.g.sr 5).toInt = -2 ^ 63 ∧ (s.g.sr 6).toInt = -1 ∧ s.g.sr 7 ≠ 0 := by decide +kernel

/-- FloatResultsFit, VectorIntegerResults, VectorFloatResults, VectorReductions: each lane type that a premise names has a code. -/
theorem test_meets_VectorTypes :
    (List.range 12).map (fun n => VTy.of (BitVec.ofNat 4 n)) =
      [.i32, .n32, .i16x2, .n16x2, .i8x4, .n8x4, .f32, .f64, .f16x2, .bf16x2, .e4m3x4, .e5m2x4] ∧
    VTy.f32.fty = some .f32 ∧ VTy.f64.fty = some .f64 := by decide +kernel

/-- VectorConversionsAndCompares, VectorMoves: types in and out of f64, triples at the highest base, and each mode of v.shfl. -/
theorem test_meets_VectorConversions :
    VTy.of 6 ≠ .f64 ∧ VTy.of 7 = .f64 ∧ (61#6).toNat ≤ 61 ∧ ((withS [(6, 4)]).g.sr 6).toNat % 4 = 0 ∧
    ((withS [(6, 7)]).g.sr 6).toNat % 4 = 3 := by decide +kernel

/-- Whether a local access passes its checks and meets no lock. -/
def passes (s : State) (a : Int) (len align : Nat) (w : Bool) : Bool :=
  match s.localCheck s.g a len align w with
  | .ok x => !(s.core x.core).lockedLocal x.offs w
  | _ => false
/-- A byte string in the group's own allocation. -/
def ownBytes (s : State) (off : Nat) (bs : List Byte) : State := s.ownWrite s.g off bs
/-- The eight dwords of a STRIDED local record of rank 1. -/
def rec1 (base etype n stride : Nat) : List Word :=
  [BitVec.ofNat 64 base, BitVec.ofNat 64 (etype * 2 ^ 16), BitVec.ofNat 64 n, BitVec.ofNat 64 stride, 0, 0, 0, 0]
/-- Four elements of f32 with their records in slots 0 and 1: 1.0 at 0x802000 in the source, 2.0 at 0x801000. -/
def sweeping : State :=
  let s := [(0, dwordBytes (rec1 0x801000 2 4 1)), (0x40, dwordBytes (rec1 0x802000 2 4 1)),
    (0x1000, (List.replicate 4 (leBytes 4 0x40000000)).flatten), (0x2000, (List.replicate 4 (leBytes 4 0x3F800000)).flatten)].foldl
    (fun s x => ownBytes s x.1 x.2) placed
  s.modG fun g => { g with iters := [(0, 0x800000), (1, 0x800040)] }
/-- The record at an address of the group's own allocation. -/
def recAt (s : State) (a : Nat) : Rec :=
  recOf a (bytesDwords 8 ((addrs (0x8000 + a % 2 ^ 20) 64).map (memByte (s.core 0).pool)))
/-- A record slot of the sweeping machine meets ReadsRecord. -/
theorem test_meets_ReadsRecord : ReadsRecord sweeping 0 (recAt sweeping 0x800000) ∧ ReadsRecord sweeping 1 (recAt sweeping 0x800040) :=
  ⟨⟨0x800000, ⟨0, 1, 0, addrs 0x8000 64, none⟩, by unfold LocalOk; decide +kernel⟩,
   ⟨0x800040, ⟨0, 1, 0x40, addrs 0x8040 64, none⟩, by unfold LocalOk; decide +kernel⟩⟩

/-- The sum of two four-element arrays as a sweep. -/
def sweepAdd : Sweep :=
  { op := .add, ty := .f32, rm := .rne, sat := false, dst := recAt sweeping 0x800000, a := recAt sweeping 0x800040, b := none }

/-- SweepsComplete, SweepStepEffect: a sweep at the start of a run whose four points are one step, with and without a reduced
dimension, and one later in a run. -/
theorem test_meets_Sweeps :
    sweeping.g.rc = 0 ∧ (sweeping.encl sweeping.g.enc).halted = false ∧ sweepAdd.bad true false = none ∧
    sweepAdd.dst.pointOf sweepAdd.dst.idx < sweepAdd.dst.points ∧ sweepAdd.dst.points ≤ (sweepAdd.step 0).flatten.length ∧
    ((sweepAdd.step 0).flatten.all fun q => (sweepAdd.accesses q).all fun e => passes sweeping e.1 4 4 e.2) = true ∧
    sweepAdd.red = false ∧ ({ sweepAdd with dst := { sweepAdd.dst with bcast := 1 } } : Sweep).red = true ∧
    (sweeping.modG fun g => { g with rc := 1 }).g.rc ≠ 0 := by decide +kernel

/-- 06 R160, R161: adding 1.0 to four elements of 2.0 leaves 3.0 in the first and the last. -/
theorem test_sweep_add :
    after (.vSweepAdd 0 1 63 6 0 0) sweeping (fun t => (leNat ((addrs 0x9000 4).map (memByte (t.core 0).pool)),
      leNat ((addrs 0x900C 4).map (memByte (t.core 0).pool)))) = some (0x40400000, 0x40400000) := by decide +kernel

/-- The placed machine with window 0 of core 0 on the group's first 128 bytes. -/
def windowed (gid : Nat) : State := placed.modCore 0 fun c =>
  { c with wins := [(0, { gid := gid, enc := 1, addr := 0x800000, sw := true, writer := placed.g.ident, closing := false })] }

/-- LocalLoads, LocalStores: an access at each end of the allocation, whole rows, and one through a window, before and after the
owning core has returned its data. -/
theorem test_meets_LocalAccesses :
    passes (withS [(6, 0x80FFF8)]) 0x80FFF8 8 8 false = true ∧ passes placed 0x800000 1 1 true = true ∧
    ((List.range 96).all fun i => passes placed (0x800000 + 4 * i) 4 4 true) = true ∧
    (0x800000 : Int) % 128 = 0 ∧ placed.g.lanes ≠ [] ∧ placed.replayMode placed.g = 0 ∧
    passes (windowed 1) 0 8 8 false = true ∧ passes (windowed 1) 0x7C 4 4 true = true ∧
    ((windowed 1).modG fun g => { g with winRet := some ([(0, 0)], true) }).g.winRet = some ([(0, 0)], true) := by decide +kernel

/-- 12 R266: bytes come and go little-endian, sign-extended where the form says. -/
theorem test_local :
    let s := withS [(5, 0xFFFF), (6, 0x800010)]
    let put := ownBytes s 0x10 [0x80, 0xFF, 0x34, 0x12]
    after (.lLds 7 6 1 0) put (fun t => t.g.sr 7) = some 0xFFFFFFFFFFFFFF80 ∧
    after (.lLdsN 7 6 2 0) put (fun t => t.g.sr 7) = some 0x1234FF80 ∧
    after (.lSts 5 6 2 1) s (fun t => leNat ((addrs 0x8014 4).map (memByte (t.core 0).pool))) = some 0xFFFF ∧
    after (.lLdv 7 6 0) (withS [(6, 0x800000)]) (fun t => lane (t.g.vr 7) 0) = some 0 := by decide +kernel

/-- The placed machine with the F/E bit of the word at 0x800000 full. -/
def filled : State := placed.setFe 0 [0x8000] true

/-- FullEmptyForms: full and empty words, an aligned range, and an empty one. -/
theorem test_meets_FullEmptyForms :
    smGet false (filled.core 0).fe (0x8000 / 4) = true ∧ smGet false (placed.core 0).fe (0x8000 / 4) = false ∧
    passes filled 0x800000 4 4 false = true ∧ passes placed 0x80FFF8 8 8 true = true ∧ passes filled 0x800000 8 4 true = true ∧
    filled.replayMode filled.g = 0 ∧ (8#64).toNat % 4 = 0 := by decide +kernel

/-- 12 R268, R269: take empties a full word, fill fills an empty one, take of an empty word parks, l.fe counts what it changed. -/
theorem test_full_empty :
    let at1 (s : State) := s.modG fun g => (g.setS 6 0x800000).setS 7 8
    let bit (t : State) := smGet false (t.core 0).fe (0x8000 / 4)
    after (.lLdfTake 5 6 0 0) (at1 filled) bit = some false ∧ after (.lLdfPeek 5 6 0 0) (at1 filled) bit = some true ∧
    after (.lStfFill 5 6 0 0) (at1 placed) bit = some true ∧ after (.lStfForce 5 6 0 0) (at1 filled) bit = some true ∧
    after (.lLdfTake 5 6 0 0) (at1 placed) (fun t => t.g.stat) = some .parked ∧
    after (.lFeFull 5 6 7) (at1 filled) (fun t => t.g.sr 5) = some 1 ∧ after (.lFeEmpty 5 6 7) (at1 filled) (fun t => t.g.sr 5) = some 1 ∧
    after (.lFeTest 5 6 7) (at1 filled) (fun t => t.g.sr 5) = some 1 := by decide +kernel

/-- A window store of the group through window 0 that has not been performed. -/
def busyWindow : State := (windowed 1).modG fun g =>
  { g with winStores := [{ seq := 1, pathF := false, parts := [⟨0, 0, 1, [(0, 1)], []⟩] }] }

/-- ClusterWindows: a free first entry, none free, a misaligned address, and windows to close that are free, busy and foreign. -/
theorem test_meets_ClusterWindows :
    let all : SMap Win := (List.range 512).map fun j => (j, ⟨2, 1, 0x800000, false, 0, false⟩)
    smFind (placed.core 0).wins 0 = none ∧ ((List.range 512).all fun j => (smFind all j).isSome) = true ∧
    0x800000 % 2 ^ 20 + 128 ≤ placed.g.allocBytes ∧ 0x80FF80 % 2 ^ 20 + 128 ≤ placed.g.allocBytes ∧ 0x800001 % 128 ≠ 0 ∧
    (windowed 1).windowBusy 0 0 = false ∧ busyWindow.windowBusy 0 0 = true ∧
    (smFind ((windowed 2).core 0).wins 0).map Win.gid ≠ some (windowed 2).g.gid := by decide +kernel

/-- 12 R270, R271: the first window is at address 0 of core 0; closing frees it; closing a window of another group halts. -/
theorem test_windows :
    after (.lWopenRo 5 6 7) (withS [(6, 0x800080)]) (fun t => (t.g.sr 5, (smFind (t.core 0).wins 0).map Win.addr)) =
      some (0, some 0x800080) ∧
    after (.lWopenSw 5 6 7) (withS [(6, 0x800080), (7, 9)]) (fun t => (smFind (t.core 0).wins 0).map Win.writer) = some (some 9) ∧
    after (.lWclose 6) (windowed 1) (fun t => smFind (t.core 0).wins 0) = some none ∧
    after (.lWclose 6) (windowed 2) (fun t => t.g.stat) = some .halted := by decide +kernel

/-- LocalAccessStops: an access that fails each check, one that meets a lock, and one to a sealed row. -/
theorem test_meets_LocalAccessStops :
    let lock : LockRange := { far := false, enc := 1, segs := [(0x8000, 0x8004)], dst := true, op := 1 }
    let s := placed.modCore 0 fun c => { c with locks := [lock] }
    let sealed := (windowed 1).modTeam 1 fun t => { t with lost := [(0, 8)] }
    placed.localCheck placed.g 0x800001 4 4 false = .bad .misaligned ∧ placed.localCheck placed.g (-4) 4 4 true = .bad .windowBounds ∧
    placed.localCheck placed.g 0x810000 4 4 true = .bad .windowBounds ∧ placed.localCheck placed.g 0x1000000 4 4 true = .bad .windowBounds ∧
    (s.core 0).lockedLocal [0x8000] true = true ∧ sealed.localCheck sealed.g 0 4 4 false = .sealedOut 0 0 := by decide +kernel

/-- The placed machine whose heap has a second frame, 0x11000 to 0x11FFF, and whose class 0 is BYPASS, with some registers and bytes. -/
def farS (l : List (Reg × Word)) (bytes : List (Nat × Byte) := []) : State :=
  let s := withS l
  { s with classes := [(0, ⟨defaultLdr 0, none⟩)], pot := smPut s.pot 17 { stat := 3, owner := 1 }, mem := memPutAll s.mem bytes }
/-- Whether a far access passes its checks in the heap with the bytes at its own address, and meets no lock. -/
def farPasses (s : State) (a len align : Nat) (k : Acc) (op : Option Atom) : Bool :=
  s.farOne s.g a len align k op = .ok (addrs a len) true && !(s.core s.g.core).lockedFar s.g.enc a len (k = .store || k = .atomic)
/-- The far accesses of FarLoadsIssue, FarStoresIssue and AtomicsIssue exist. -/
theorem test_meets_FarOk : FarOk (farS []) 0x11FF8 8 8 .load none (addrs 0x11FF8 8) true ∧
    FarOk (farS []) 0x11000 1 1 .store none (addrs 0x11000 1) true := by
  unfold FarOk
  decide +kernel

/-- FarLoadsIssue, FarStoresIssue: every lane of a row passes; a counter at 62 and at 63; no active lane; a prefetch that is dropped
and one that is not. -/
theorem test_meets_FarAccesses :
    let s := farS []
    let ld (n : Nat) := s.modG fun g => g.modP fun p => { p with ld := n, st := n }
    let v : State := { s with classes := [(0, ⟨⟨0, 0⟩, none⟩)] }
    ((List.range 96).all fun i => farPasses s (0x11000 + 4 * i) 4 4 .load none && farPasses s (0x11000 + 4 * i) 4 4 .store none) = true ∧
    (ld 62).g.p.ld < 63 ∧ 63 ≤ (ld 63).g.p.st ∧ s.g.lanes ≠ [] ∧ (s.modG fun g => g.modP fun p => { p with mask := 0 }).g.lanes = [] ∧
    s.farCheck s.g 0x12000 64 .load none = .bad .ownership ∧ v.farCheck v.g 0x11000 64 .load none = .ok (addrs 0x11000 64) true ∧
    ((v.classDef 0 0).map fun k => (k.ldr.mode, k.ldr.wpol)) = some (0, 0) ∧ s.replayMode s.g = 0 := by decide +kernel

/-- FarAccessStops: each fault's access, a range lock, addresses outside [0, 2^57), and both sides of the heap's limit. -/
theorem test_meets_FarAccessStops :
    let s := farS []
    let lock : LockRange := { far := true, enc := 1, segs := [(0x11000, 0x11040)], dst := true, op := 1 }
    let t := s.modCore 0 fun c => { c with locks := [lock] }
    s.farOne s.g 0x12000 8 8 .load none = .bad .ownership ∧ s.farOne s.g 0x11001 8 8 .store none = .bad .misaligned ∧
    t.farOne t.g 0x11000 8 8 .store none = .ok (addrs 0x11000 8) true ∧ (t.core 0).lockedFar 1 0x11000 8 true = true ∧
    s.farCheck s.g (2 ^ 57 - 4) 8 .load none = .bad .accessUnleased ∧ s.farCheck s.g (-1) 1 .load none = .bad .accessUnleased ∧
    (0x1FFFFC : Int) < s.g.heapTop ∧ s.farCheck s.g 0x1FFFFC 8 .load none = .bad .heapLimit ∧
    s.farCheck s.g 0x11000 8 .load none = .ok (addrs 0x11000 8) true := by decide +kernel

/-- 12 R272, R274: a load leaves with LD raised and its word going on; a store enters the FIFO; an atomic leaves with its operands cut
to its width; a misaligned load halts. -/
theorem test_far :
    let s := farS [(5, 0xFFFFFFFFFF), (6, 0x11000), (7, 0x11001)]
    after (.fLds 8 6 3 0) s (fun t => (t.g.p.ld, t.g.reqs.length, t.g.p.pc)) = some (1, 1, 0x10008) ∧
    after (.fSts 5 6 1 1) s (fun t => (t.g.p.st, t.g.fifo.map StoreEnt.bytes)) = some (1, [[(0x11002, 0xFF), (0x11003, 0xFF)]]) ∧
    after (.aAdd 8 6 5 0) s (fun t => t.g.reqs.map fun q => q.atom.map Atom.x) = some [some 0xFFFFFFFF] ∧
    after (.fLds 8 7 3 0) s (fun t => t.g.stat) = some .halted ∧
    after (.pf 1 6 0) s (fun t => (t.g.p.ld, t.g.reqs.length)) = some (0, 0) := by decide +kernel

/-- AtomicsIssue, LocksIssue, FencesComplete: a word checked as an atomic; a variable that is free, held for this core, and without
room; a release that waits for a store; each state of a held lock word. -/
theorem test_meets_Atomics :
    let s := farS []
    let at1 : Atom := { op := .cas, w := 8, nat := false, merge := false, x := 1, y := 2 }
    let e : Svt := { rel := true, remote := false, host := false, line := 0x11000 / 64, cl := 1, multi := false, core := 1, relCl := 1,
                     relMulti := false, relCore := 1, relGid := 9, relSeq := 0, want := none }
    let held := s.modDie 0 fun d => { d with svt := [e] }
    let st := s.modG fun g => g.modP fun p => { p with st := 1 }
    farPasses s 0x11000 8 8 .atomic (some at1) = true ∧
    (let die := s.svtDie 0 0 0x11000
     s.svtBlocked 0 die 0x11000 (.core 0) = false ∧ s.svtRoom (s.svtDie 0 die 0x11000) (0x11000 / 64) = true) ∧
    held.svtBlocked 0 (held.svtDie 0 0 0x11000) 0x11000 (.core 0) = true ∧
    s.fenceLeaf 1 = none ∧ (st.fenceLeaf 1).isSome = true ∧ s.g.evt = none ∧
    rlockGets 0 = true ∧ wlockGets 0 = true ∧ rlockGets 0x80000000 = false ∧ wlockGets 1 = false := by decide +kernel

/-- FencesComplete: a fence with nothing outstanding, and one behind a store of its own cluster. -/
theorem test_meets_FencesComplete :
    let s := farS []
    let b : BufEnt := { seq := 0, gid := 1, pathF := false, core := 0, enc := 1, bytes := [(0x11000, 1)], stb := false, col := none }
    let t : State := { s with bufs := [(0, [b])] }
    (s.g.p.ld, s.g.p.st, s.g.p.rst, s.buf 0, s.xfers) = (0, 0, 0, [], []) ∧ (t.buf 0).length = 1 ∧ b.gid = t.g.gid ∧
    s.farCheck s.g 0x11000 1 .load none = .ok [0x11000] true := by decide +kernel

/-- 12 R276: a fence with nothing outstanding goes on; behind a load it holds its slot. -/
theorem test_fence :
    after (.fenceScope 6) placed (fun t => (t.held, t.g.p.pc)) = some (false, 0x10008) ∧
    after (.fenceScope 0) (placed.modG fun g => g.modP fun p => { p with ld := 1 }) (fun t => (t.held, t.g.p.pc)) = some (true, 0x10000) ∧
    after .fenceW placed (fun t => t.held) = some false := by decide +kernel

/-- The LDR of class 1 of partition 0: a BYPASS class (09 Table 9.5). -/
def bypassLdr : List Byte := dwordBytes [BitVec.ofNat 64 (2 * 2 ^ 8 + 1), 0, 0, 0]
/-- LanternWords: a record that is read and passes, classes that are undefined, defined and changing, both kinds of range, and a
full counter. -/
theorem test_meets_LanternWords :
    let s := farS [] ((addrs 0x11000 32).zip bypassLdr)
    let ds := bytesDwords 4 bypassLdr
    let l : Ldr := ⟨ds.getD 0 0, ds.getD 1 0⟩
    let ch : Change := { old := l, flushAll := true, cursors := [] }
    let t : State := { s with classes := smPut s.classes 1 ⟨l, some ch⟩ }
    farPasses s 0x11000 32 32 .load none = true ∧
    s.readNow s.g (addrs 0x11000 32) = bypassLdr ∧ s.poison = [] ∧
    ldrBadField ds = false ∧ l.cls = 1 ∧ s.ldrCheck 0 l = none ∧ s.classDef 0 1 = none ∧
    (t.classDef 0 1).map ClassDef.change = some (some ch) ∧ ch.old.total < 2 ^ 20 ∧
    ((s.classDef 0 0).map ClassDef.change) = some none ∧ s.coverFault s.g 0x11000 0x11040 = none ∧ s.g.p.st < 63 := by decide +kernel

/-- A record of `len` bytes in the second frame is read (ReadsFar). -/
theorem test_meets_ReadsFar : ∃ bs u, ReadsFar (farS [] ((addrs 0x11000 32).zip bypassLdr)) 0x11000 32 32 bs u :=
  ⟨_, _, Machine.readsFar_of_farOk (pas := addrs 0x11000 32) (heap := true) (by unfold FarOk; decide +kernel) (by decide +kernel)
    (by decide +kernel) (by decide +kernel)⟩

/-- 12 R277, R279: ln.def of an undefined class defines it; ln.stat of class 0 says that it is defined and not changing. -/
theorem test_lantern :
    after (.lnDef 6) (farS [(6, 0x11000)] ((addrs 0x11000 32).zip bypassLdr)) (fun t => (t.classDef 0 1).map fun k => k.ldr.mode) =
      some (some 2) ∧
    after (.lnStat 5 6) (farS []) (fun t => t.g.sr 5) = some 0x8000000000000000 := by decide +kernel

/-- The bytes and the state after a record of `len` bytes of the heap at `a` is read. -/
def readBytes (s : State) (a len : Nat) : List Byte :=
  let v := s.passedFar a len .load true
  v.readNow v.g (addrs a len)
def readState (s : State) (a len : Nat) : State :=
  let v := s.passedFar a len .load true
  let r := v.issueReq v.g (addrs a len)
  r.lines.foldl (fun u l => u.loadLine u.g r l) (v.setGroup (v.sawOf v.g r))

/-- A launch record of one team of one group at 0x10000: `poolw` rows, `fields` in dword 1. -/
def launchRec (fields poolw : Nat) : List Byte :=
  dwordBytes ([0x10000, BitVec.ofNat 64 fields, BitVec.ofNat 64 poolw] ++ List.replicate 61 0)
/-- The far machine with a launch record at 0x11000. -/
def launching (fields : Nat) : State := farS [(6, 0x11000)] ((addrs 0x11000 512).zip (launchRec fields 0x1008))

/-- LaunchResults: a record that is read and passes, one with no lane, an entry that is free and none, group 0 at both ends of its
depths, and another group. -/
theorem test_meets_LaunchResults :
    ReadsFar (launching 0x1010001) 0x11000 512 64 (readBytes (launching 0x1010001) 0x11000 512)
      (readState (launching 0x1010001) 0x11000 512) ∧
    (let s := launching 0x1010001
     let u := readState s 0x11000 512
     let full (t : Team) : Team := { t with plq := (List.range 4).map fun i => ⟨i, 1, 1⟩ }
     u.recordCheck 1 0 (bytesDwords 64 (readBytes s 0x11000 512)) = none ∧
     u.recordCheck 1 0 (bytesDwords 64 (launchRec 0x10001 0x1008)) = some .illegalInstruction ∧
     s.g.index = 0 ∧ s.g.depth = 0 ∧ (s.team 1).bind Team.freePlq = some 0 ∧ ((s.team 1).map full).bind Team.freePlq = none ∧
     u.packageLeaf = none ∧
     (s.modG fun g => { g with sfix := smPut g.sfix 56 0x9000000000000000 }).g.index = 0) := by
  refine ⟨Machine.readsFar_of_farOk (pas := addrs 0x11000 512) (heap := true) (by unfold FarOk; decide +kernel) (by decide +kernel)
    (by decide +kernel) (by decide +kernel), by decide +kernel⟩

/-- 07 R165: launch of a record takes the first entry of the queue and a task of the next depth. -/
theorem test_launch :
    after (.launch 5 6) (launching 0x1010001) (fun t => ((t.team 1).map fun x => x.plq.length, t.tasks.map fun x => x.2.depth)) =
      some (some 1, [0, 1]) := by decide +kernel

/-- A child grid of team 1 with three teams, of which `n` are published. -/
def childOf (n : Nat) : Task :=
  { newTask 2 1 0 7 1 (some 1) 0x11000 (bytesDwords 64 (launchRec 0x1010003 0x1008)) .running with published := n }
/-- The far machine with that grid. -/
def parentS (n : Nat) (l : List (Reg × Word)) (bytes : List (Nat × Byte) := []) : State :=
  let s := farS l bytes
  { s with tasks := s.tasks ++ [(2, childOf n)] }

/-- JoinAndEvents: a child's handle with enough teams published and too few, a join completed by another, the widest handle that
names none, and a nonzero and a zero event word, before and after its atomic has returned. -/
theorem test_meets_JoinAndEvents :
    let s := parentS 2 []
    let nz := farS [] [(0x11000, 1)]
    (childOf 2).teams = 3 ∧ (s.childGrid s.g 7).map Task.published = some 2 ∧ (s.childGrid s.g (2 ^ 24 - 1)) = none ∧
    s.g.p.joined ≠ some 7 ∧ (s.modG fun g => g.modP fun p => { p with joined := some 7 }).g.p.joined = some 7 ∧
    farPasses s 0x11000 8 8 .atomic (some { op := .evtPub, w := 8, nat := true, merge := true, x := 0, y := 0 }) = true ∧
    farPasses s 0x11000 8 8 .atomic (some { op := .evtWait, w := 8, nat := true, merge := false, x := 0, y := 0 }) = true ∧
    s.packageLeaf = none ∧ (s.modG fun g => g.modP fun p => { p with st := 1 }).packageLeaf ≠ none ∧ s.g.evt = none ∧
    leNat (nz.peek 0 (nz.clsOf 0x11000) 0 0x11000 8) = 1 ∧ leNat (s.peek 0 (s.clsOf 0x11000) 0 0x11000 8) = 0 ∧
    (s.modG fun g => { g with evt := some ⟨0x11000, some 0⟩ }).g.evt = some ⟨0x11000, some 0⟩ := by decide +kernel

/-- 07 R166: a join on all three teams parks at two published and retires the grid at three; on two it completes and keeps it. -/
theorem test_join :
    let r (n k : Nat) := after (.join 6 7) (parentS n [(6, 7), (7, BitVec.ofNat 64 k)]) fun t => (t.g.stat, (t.task 2).map Task.retired)
    r 2 0 = some (.parked, some false) ∧ r 3 0 = some (.bound, some true) ∧ r 2 2 = some (.bound, some false) ∧
    after (.join 6 7) (parentS 2 [(6, 8)]) (fun t => t.g.stat) = some .halted := by decide +kernel

/-- The placed machine's team with a barrier. -/
def barred (b : Barrier) (l : List (Reg × Word)) : State := (withS l).modTeam 1 fun t => { t with bars := [(3, b)] }

/-- Barriers: counts at both ends and past them, in an empty and a begun barrier; a last arrival and another; tokens of this and of an
older generation; stores outstanding. -/
theorem test_meets_Barriers :
    placed.g.teamGroups = 1 ∧ (barred ⟨2, 1, 5⟩ []).barrier 3 = ⟨2, 1, 5⟩ ∧ (placed.barrier 3).a = 0 ∧
    (placed.barrier 3).a + 1 = (1 : Nat) ∧ (placed.barrier 3).a + 1 ≠ (2 : Nat) ∧ placed.g.p.st = 0 ∧ placed.g.pair = false ∧
    smFind (placed.g.modP fun p => { p with toks := [(3, 0)] }).p.toks 3 = some (placed.barrier 3).g ∧
    smFind placed.g.p.toks 3 = none ∧ placed.g.p.arrived = false ∧
    (withS [(56, 0)]).g.p.arrived = false := by decide +kernel

/-- 07 R168: the only group of a team passes its barrier at once; a count above GROUPS faults. -/
theorem test_barrier :
    after (.barArrive 6 3) (withS [(6, 1)]) (fun t => (t.barrier 3, smFind t.g.p.toks 3)) = some (⟨1, 0, 1⟩, some 0) ∧
    after (.barSync 6 3) (withS [(6, 1)]) (fun t => (t.barrier 3, smFind t.g.p.toks 3, t.g.p.pc)) = some (⟨1, 0, 1⟩, none, 0x10008) ∧
    after (.barSync 6 3) (withS [(6, 2)]) (fun t => t.g.stat) = some .halted ∧
    after (.barWait 3) (placed.modG fun g => g.modP fun p => { p with toks := [(3, 0)] }) (fun t => t.g.stat) = some .parked := by
  decide +kernel

/-- ElectYieldRegroup: an election of the first group and of a later one, one participant and none, and lanes that move. -/
theorem test_meets_ElectYieldRegroup :
    ((placed.team 1).map Team.e) = some 0 ∧ placed.g.regroupRes = none ∧ (List.range 32).filter (bitAt 1) = [0] ∧
    (List.range 32).filter (bitAt 0x1F) = [0, 1, 2, 3, 4] ∧ bitAt 1 placed.g.index = true ∧ 0 < placed.g.teamGroups ∧
    placed.regrouping 1 = [] ∧ placed.g.regroupable = true ∧ placed.g.t.ld = 0 ∧ placed.g.f.ld = 0 ∧
    (placed.teamGroup 1 0).isSome = true ∧ (regroupLanes [placed.g])[95]? = some (0, 95) := by decide +kernel

/-- 07 R170 to R172: the first group is elected, yield ends the run, and a group alone keeps its lanes in a regroup. -/
theorem test_elect :
    after (.elect 5) placed (fun t => (t.g.sr 5, t.g.elects)) = some (1, 1) ∧
    after (.elect 5) (placed.modTeam 1 fun t => { t with e := 1 }) (fun t => t.g.sr 5) = some 0 ∧
    after .yield placed (fun t => (t.g.y, t.g.runOver, t.g.rc)) = some (true, true, 0) ∧
    after (.gRegroup 5 6) (withS [(6, 1)]) (fun t => (t.g.sr 5, t.g.t.mask)) = some (96, BitVec.allOnes 96) ∧
    after (.gRegroup 5 6) (withS [(6, 0x1F)]) (fun t => t.g.stat) = some .halted := by decide +kernel

/-- MonitorsAndTags: a line that is read, one that a release holds, monitors with and without a cause, counters at a limit, and
tags. -/
theorem test_meets_MonitorsAndTags :
    let s := farS []
    let e : Svt := { rel := true, remote := false, host := false, line := 0x11000 / 64, cl := 1, multi := false, core := 1, relCl := 1,
                     relMulti := false, relCore := 1, relGid := 9, relSeq := 0, want := none }
    let held := s.modDie 0 fun d => { d with svt := [e] }
    let armed (c : Option Cause) := s.modG fun g => g.modP fun p => { p with mon := some ⟨0x11000 / 64, c⟩ }
    s.farCheck s.g 0x11000 1 .load none = .ok [0x11000] true ∧ s.svtBlocked 0 0 0x11000 (.core 0) = false ∧
    held.svtBlocked 0 0 0x11000 (.core 0) = true ∧ (armed none).g.p.mon = some { line := 0x11000 / 64, cause := none } ∧
    (armed (some .lost)).g.p.mon = some { line := 0x11000 / 64, cause := some .lost } ∧ s.g.p.mon = none ∧
    s.g.p.ld ≤ (6#3).toNat ∧ (s.modG fun g => g.modP fun p => { p with ld := 7 }).g.p.ld ≤ 7 ∧ s.tags = 0 ∧
    (s.modCore 0 fun c => { c with tagSet := 5 }).tags = 5 := by decide +kernel

/-- 07 R173 to R175: mon.wait without a monitor delivers 1; wait on a met limit goes on; the tag words. -/
theorem test_monitor_tags :
    let s := (withS [(6, 6)]).modCore 0 fun c => { c with tagSet := 4 }
    after (.monArm 6) (farS [(6, 0x11010)]) (fun t => t.g.p.mon.map Monitor.line) = some (some 0x440) ∧
    after (.monWait 5) placed (fun t => t.g.sr 5) = some 1 ∧ after (.wait 7 7 7 0) placed (fun t => t.g.stat) = some .bound ∧
    after (.wait 7 7 7 0) (placed.modG fun g => g.modP fun p => { p with ld := 1 }) (fun t => t.g.stat) = some .parked ∧
    after (.tagWaitAny 5 6) s (fun t => t.g.sr 5) = some 4 ∧ after (.tagWaitAll 5 6) s (fun t => t.g.stat) = some .parked ∧
    after (.tagFfs 5 6) s (fun t => t.g.sr 5) = some 2 ∧ after (.tagClr 6) s (fun t => t.tags) = some 0 := by decide +kernel

/-- The sweeping machine with four more records: one in far memory in slot 2, four i32 row numbers in slot 3, a 4 × 4 array of f32 in
slot 4 and one in far memory in slot 5. -/
def copying : State :=
  let s := [(0x80, dwordBytes [0x11000, 0x80020000, 4, 4, 0, 0, 0, 0]), (0xC0, dwordBytes (rec1 0x803000 0 4 1)),
    (0x100, dwordBytes [0x804000, 0x00120000, 0x00040004, 0x400000001, 0, 0, 0, 0]),
    (0x140, dwordBytes [0x11000, 0x80120000, 0x00040004, 0x400000001, 0, 0, 0, 0])].foldl
    (fun s x => ownBytes s x.1 x.2) sweeping
  s.modG fun g => { g with iters := (List.range 6).map fun n => (n, BitVec.ofNat 64 (0x800000 + 64 * n)) }
/-- A command of the copying machine from one slot to another. -/
def pairOf (d a : Nat) (flag : Bool) : CopyWord :=
  { tag := 9, flag := flag, dst := recAt copying (0x800000 + 64 * d), src := some (recAt copying (0x800000 + 64 * a)), idx := none, fill := none }
/-- Whether a command passes its record checks and the engine has room for it. -/
def enters (s : State) (c : CopyWord) : Bool :=
  c.bad = none && (c.ranges.all fun q => q.1 || s.g.outside q.2.2 = none) && (s.core 0).copies.length < 16 &&
  !bitAt (s.core 0).tagBusy.toNat c.tag && s.g.p.cp < 63 && (s.core 0).locks.length + c.ranges.length ≤ 32

/-- CopiesIssue: records that pass in each direction and kind, one that breaks a rule of its fields, a full CP and a BUSY tag. -/
theorem test_meets_CopiesIssue :
    (recAt copying 0x800080).far = true ∧ (recAt copying 0x800000).far = false ∧ enters copying (pairOf 0 2 true) = true ∧
    enters copying (pairOf 2 0 false) = true ∧ enters copying (pairOf 0 1 true) = true ∧
    enters copying { pairOf 4 5 false with idx := some (recAt copying 0x8000C0) } = true ∧
    enters copying { pairOf 0 1 false with src := none, fill := some 7 } = true ∧
    (recAt copying 0x8000C0).layout = 0 ∧ (recAt copying 0x8000C0).rank = 1 ∧ (recAt copying 0x8000C0).etype ≤ 1 ∧
    (recAt copying 0x8000C0).scale = 0 ∧ passes copying 0x800040 64 64 false = true ∧ passes copying (0x800070 : Nat) 8 8 true = true ∧
    enters (copying.modG fun g => g.modP fun p => { p with cp := 63 }) (pairOf 0 1 true) = false ∧
    enters (copying.modCore 0 fun c => { c with tagBusy := 0x200 }) (pairOf 0 1 true) = false := by decide +kernel

/-- 15 R304 to R309: cp.iter binds its slot; cp.in of a far source enters the engine; a local source faults. -/
theorem test_copies :
    after (.cpIter 5 6) (copying.modG fun g => g.setS 6 0x800040) (fun t => smFind t.g.iters 5) = some (some 0x800040) ∧
    after (.cpIn 0 2 9 1) copying (fun t => (t.g.p.cp, (t.core 0).copies.length, (t.core 0).tagBusy, (t.core 0).locks.length)) =
      some (1, 1, 0x200, 2) ∧
    after (.cpIn 0 1 9 1) copying (fun t => t.g.stat) = some .halted ∧
    after (.cpOut 0 2 9) copying (fun t => t.g.stat) = some .halted := by decide +kernel

/-- The placed machine whose group holds 9 accumulator rows, and so tile 0, with quarters bound. -/
def tiled (l : List (Reg × Word)) : State :=
  let q : Quarter := { typ := 0, k := 16, team := 1, regs := [] }
  ((withS l).modG fun g => { g with poolw := 0x00091008 }).modCore 0 fun c => { c with staging := [(0, q), (1, q)] }

/-- TilesIssue: a tile that exists and one that does not, K and the row at their ends, A at its alignment, quarters bound as asked. -/
theorem test_meets_TilesIssue :
    let s := tiled []
    9 * ((0#4).toNat + 1) ≤ s.g.accRows ∧ ¬9 * ((1#4).toNat + 1) ≤ s.g.accRows ∧ s.teamCores = [0] ∧ s.g.pair = false ∧
    (s.core 0).tileq = [] ∧ s.g.p.tl = 0 ∧ s.retired = [] ∧ ((s.team 1).map Team.stagingLost) = some [] ∧
    (256 : Nat) % 16 = 0 ∧ 256 ≤ 16 * 16 ∧ (16 : Nat) % 16 = 0 ∧ 0x801000 % 128 = 0 ∧
    s.g.outside (0x801000, ((0x801000 + matASize 0 16 : Nat) : Int)) = none ∧
    (smFind (s.core 0).staging 1).map (fun q => (q.typ, q.k)) = some (0, 16) ∧ (s.core 0).locks.length < 32 := by decide +kernel

/-- 15 R310 to R316: each word of a tile that exists raises TL, and one of a tile that does not faults. -/
theorem test_tiles :
    let tl (i : Instr) := after i (tiled [(6, 0x801000), (7, 16)]) fun t => (t.g.p.tl, (t.core 0).tileq.map TileOp.kind)
    tl (.mmZero 0) = some (1, [.zero]) ∧ tl (.mmChk 5 0) = some (1, [.chk]) ∧ tl (.mmRd 5 0 7) = some (1, [.rd 16 none]) ∧
    tl (.mmOne 0 6 7 0) = some (1, [.one]) ∧ after (.mmZero 1) (tiled []) (fun t => t.g.stat) = some .halted ∧
    after (.mmBind 2 6 1 0) (tiled []) (fun t => (smFind (t.core 0).staging 2).map Quarter.k) = some (some 32) ∧
    after (.mmPair 0 6 7 0) (tiled [(6, 0x801000), (7, 16)]) (fun t => t.g.stat) = some .halted := by decide +kernel

/-- A window descriptor's 16 dwords. -/
def desc (base ext flags mem : Nat) : List Word :=
  [BitVec.ofNat 64 base, BitVec.ofNat 64 ext, BitVec.ofNat 64 flags, BitVec.ofNat 64 mem] ++ List.replicate 12 0
/-- The placed machine with a descriptor in the group's own bytes at 0x800000, which the named register holds. -/
def opening (ds : List Word) : State := ownBytes (withS [(6, 0x800000)]) 0 (dwordBytes ds)
/-- An open window on 4,096 bytes of the group's scratchpad from 0x801000, with flags and group, and the machine that has it. -/
def fwinOf (flags mem : Nat) : FWin := { wid := 0, enc := 1, gid := 1, core := 0, desc := desc 0x801000 0x1000 flags mem, stat := .opened }
def fabbed (flags mem : Nat) (l : List (Reg × Word)) : State := { withS l with fwins := [fwinOf flags mem] }

/-- Flags of a LOCAL window and of a LOCAL window that takes part in collectives. -/
def localFlags : Nat := (List.range 64).foldl (fun f b => if descLocal (desc 0 0 (2 ^ b) 0) then f + 2 ^ b else f) 0
def collFlags : Nat := (List.range 64).foldl (fun f b => if descColl (desc 0 0 (2 ^ b) 0) then f + 2 ^ b else f) 0
def ueFlags : Nat := 2 ^ 5

/-- FabricWords: a descriptor that is read and passes and one that breaks a rule, a window's handle, counters on both sides of a wait,
transfers of the least length inside and outside a window. -/
theorem test_meets_FabricWords :
    ReadsDesc (opening (desc 0x801000 0x1000 localFlags 0)) 0x800000 128
      ((opening (desc 0x801000 0x1000 localFlags 0)).poolRead ⟨0, 1, 0, addrs 0x8000 128, none⟩)
      (opening (desc 0x801000 0x1000 localFlags 0)) ∧
    (let s := opening (desc 0x801000 0x1000 localFlags 0)
     let t := fabbed localFlags 0 []
     bytesDwords 16 (s.poolRead ⟨0, 1, 0, addrs 0x8000 128, none⟩) = desc 0x801000 0x1000 localFlags 0 ∧
     s.openStatus s.g (desc 0x801000 0x1000 localFlags 0) = none ∧ descBad (desc 0x801000 0x1001 localFlags 0) = true ∧
     descStreamed (desc 0x801000 0x1000 localFlags 0) = false ∧ descColl (desc 0x801000 0x1000 localFlags 0) = false ∧
     s.g.p.result = none ∧ t.fwin (handleWid 0x40) = some (fwinOf localFlags 0) ∧ handlePkg 0x40 = t.pkgid % 2 ^ 11 ∧
     (fwinOf localFlags 0).ext / 64 = 0x40 ∧ (0 + 2 ^ 48 - 0 % 2 ^ 48) % 2 ^ 48 < 2 ^ 47 ∧
     ¬(0 + 2 ^ 48 - 1 % 2 ^ 48) % 2 ^ 48 < 2 ^ 47 ∧
     t.originWin t.g 0x801FFF 1 = some (fwinOf localFlags 0) ∧ t.originWin t.g 0x801FFF 2 = none ∧
     bitAt (t.core 0).tagBusy.toNat 9 = false ∧ passes t 0x801FFF 1 1 false = true) :=
  ⟨Machine.readsDesc_of_localOk (by decide +kernel) (by unfold LocalOk; decide +kernel), by decide +kernel⟩

/-- A range of the group's own bytes passes a transfer's checks, to be read and to be written. -/
theorem test_meets_withRange : ∀ w, ∀ f : Bool → State → Out,
    withRange 0x801FFF 1 w f (fabbed localFlags 0 []) = f true (fabbed localFlags 0 []) := by
  intro w f
  cases w
  · exact Machine.withRange_self (x := ⟨0, 1, 0x1FFF, [0x9FFF], none⟩) (by decide +kernel) (by decide +kernel) f
  · exact Machine.withRange_self (x := ⟨0, 1, 0x1FFF, [0x9FFF], none⟩) (by decide +kernel) (by decide +kernel) f

/-- 26 R424 to R429: opening a local window delivers its handle; the window's counters; a put of no bytes sets its tag. -/
theorem test_fabric :
    after (.wOpen 5 6) (opening (desc 0x801000 0x1000 localFlags 0)) (fun t => (t.g.sr 5, t.fwins.map FWin.stat)) = some (0x40, [.opened]) ∧
    after (.wOpen 5 6) (opening (desc 0x801000 0x1001 localFlags 0)) (fun t => t.g.sr 5) = some 0x8000000000000001 ∧
    after (.wClose 6) (fabbed localFlags 0 [(6, 0x40)]) (fun t => t.fwins.map FWin.stat) = some [.closing] ∧
    after (.wCntT 5 6) (fabbed localFlags 0 [(6, 0x40)]) (fun t => t.g.sr 5) = some 0 ∧
    after (.wWait 6 7) (fabbed localFlags 0 [(6, 0x40), (7, 1)]) (fun t => t.g.stat) = some .parked ∧
    after (.wPut 5 6 7 9) (fabbed localFlags 0 [(5, 0x40), (6, 0x801FFF), (7, 0x10000000000)]) (fun t => (t.xfers.length, t.g.p.cp)) =
      some (1, 1) ∧
    after (.wGet 5 6 7 9) (fabbed localFlags 0 [(5, 0x40)]) (fun t => (t.xfers.length, t.tags)) = some (0, 0x200) ∧
    after (.wCntO 5 6) (fabbed localFlags 0 [(6, 0x8000000000000000)]) (fun t => t.g.stat) = some .halted := by decide +kernel

/-- The fabric machine whose window takes part, as rank 0 of 2, in collective group 3. -/
def collS (l : List (Reg × Word)) : State :=
  { fabbed (localFlags + collFlags) (3 * 2 ^ 32 + 2 * 2 ^ 11) l with
    cgroups := [{ cgroup := 3, part := 0, nmemb := 2, attested := some true, gone := [], issued := [], contribs := [], ended := [] }] }
/-- Slot 0 of the enclave in use by a collective in progress, or ended with a status. -/
def inSlot (s : State) (st : Option Nat) : State :=
  s.modEnc 1 fun e => { e with colls := [(0, { cgroup := 3, k := 0, status := st, waiters := [] })] }
/-- The fabric machine whose window is queue 2's, with a post descriptor at 0x800000. -/
def ueS (op : Nat) (l : List (Reg × Word)) : State :=
  ownBytes { withS l with fwins := [fwinOf (localFlags + ueFlags) (2 * 2 ^ 32)] } 0
    (dwordBytes [BitVec.ofNat 64 op, 0x801000, 64, 0, 0, 0, 0, 0])

/-- CollectiveAndQueueWords: a contribution that fits, slots that are free, in use and ended, a usable queue, and posts that can and
cannot be sent. -/
theorem test_meets_CollectiveAndQueueWords :
    let s := collS []
    let w := fwinOf (localFlags + collFlags) (3 * 2 ^ 32 + 2 * 2 ^ 11)
    s.collWin s.g 0x801000 = some w ∧ 0x801000 + 0x1000 ≤ w.base + w.ext ∧ s.freeColl 1 = some 0 ∧
    (s.findGroup (descGroup w.desc)).map CGroup.gone = some [] ∧ (s.streamOf w).isNone = true ∧ 0x801004 % 8 ≠ 0 ∧
    smFind (s.encl 1).colls 255 = none ∧ (smFind ((inSlot s (some 2)).encl 1).colls 0).map CollSlot.status = some (some 2) ∧
    (ueS 0 []).ueUsable 1 2 = true ∧ (ueS 0 []).ueUsable 1 15 = false ∧
    uePostOk (bytesDwords 8 ((ueS 1 []).poolRead ⟨0, 1, 0, addrs 0x8000 64, none⟩)) = true ∧
    uePostOk (bytesDwords 8 ((ueS 2 []).poolRead ⟨0, 1, 0, addrs 0x8000 64, none⟩)) = false ∧
    ((ueS 1 []).originWin (ueS 1 []).g 0x801000 64).isSome = true := by decide +kernel

/-- 26 R430 to R432: coll.bc takes slot 0, coll.wait of a free slot delivers 0 and of an ended one its status, coll.cancel ends one in
progress, ue.post takes id 0 and ue.poll of an empty queue delivers 0. -/
theorem test_collective :
    after (.collBc 5 6 7) (collS [(6, 0x801000), (7, 64)]) (fun t => (t.g.sr 5, t.cgroups.map fun c => c.contribs.length)) = some (0, [1]) ∧
    after (.collAr 5 6 7 0 0) (collS [(6, 0x801000), (7, 16)]) (fun t => t.cgroups.map fun c => c.contribs.map Contrib.len) = some [[64]] ∧
    after (.collWait 5 6) (collS []) (fun t => t.g.sr 5) = some 0 ∧
    after (.collWait 5 6) (inSlot (collS []) (some 2)) (fun t => (t.g.sr 5, (t.encl 1).colls)) = some (2, []) ∧
    after (.collWait 5 6) (inSlot (collS []) none) (fun t => t.g.stat) = some .parked ∧
    after (.collCancel 6) (inSlot (collS []) none) (fun t => t.cgroups.map CGroup.ended) = some [[(0, 2)]] ∧
    after (.uePost 5 6 7) (ueS 0 [(6, 0x800000), (7, 2)]) (fun t => (t.g.sr 5, t.outbox.length)) = some (0, 1) ∧
    after (.uePoll 5 6) (ueS 0 [(6, 2)]) (fun t => t.g.sr 5) = some 0 := by decide +kernel

/-- SystemRegisters: an empty spill area and one in use, a limit on both sides of WSP, a number outside the table. -/
theorem test_meets_SystemRegisters :
    placed.g.wsp = placed.g.wsb ∧ (placed.modG fun g => { g with wsp := 0x800C40 }).g.wsp ≠ placed.g.wsb ∧
    placed.g.wsp.toNat ≤ ((withS [(6, 0x80003F)]).g.sr 6 &&& ~~~(0x3F : Word)).toNat ∧
    ((withS [(6, 0x7FFFFF)]).g.sr 6 &&& ~~~(0x3F : Word)).toNat < placed.g.wsp.toNat := by decide +kernel

/-- 01 Table 1.3: POOLW and WPOS are read, TVEC and FPF written, a read-only register and an unknown number halt. -/
theorem test_system :
    after (.sysRd 5 0x008) placed (fun t => t.g.sr 5) = some 0x1008 ∧
    after (.sysRd 5 0x04B) (placed.modG fun g => { g with wpos := 8 }) (fun t => t.g.sr 5) = some 8 ∧
    after (.sysWr 6 0x028) (withS [(6, 0x40)]) (fun t => t.g.tvec) = some 0x40 ∧
    after (.sysWr 6 0x018) (withS [(6, 0xFF)]) (fun t => t.g.fpf) = some 0x1F ∧
    after (.sysWr 6 0x000) placed (fun t => t.g.stat) = some .halted ∧ after (.sysRd 5 0x005) placed (fun t => t.g.stat) = some .halted ∧
    after (.sysWrWsb 6) (withS [(6, 0x80103F)]) (fun t => (t.g.wsb, t.g.wsp)) = some (0x801000, 0x801000) ∧
    after (.sysWrWsl 6) (withS [(6, 0x80103F)]) (fun t => t.g.wsl) = some 0x801000 ∧
    after (.sysWrTags 6) ((withS [(6, 3)]).modCore 0 fun c => { c with tagBusy := 1 }) (fun t => t.tags) = some 2 ∧
    after (.rdcyc 5) (placed.modCore 0 fun c => { c with cyc := 77 }) (fun t => t.g.sr 5) = some 77 := by decide +kernel

/-- The placed machine with a trap vector and room in the ring, and one inside a handler that came from word 2 of a clause at 0x20000. -/
def vectored : State := placed.modG fun g => { g with tvec := 0x40000, wlow := 32 }
def handling : State := placed.modG fun g => { g with tvec := 0x40000, tst := 0x120, frpc := 0x20000, frm := 0xFF, wpos := 48 }

def debugged : State := placed.modCore 0 fun c => { c with trace := { c.trace with ctl := 2, holder := some (.enc 1) } }

/-- TrapsAndReturn: a vector with room for the slide, none, a handler, a debug session, and returns with and without room. -/
theorem test_meets_TrapsAndReturn :
    vectored.g.tvec ≠ 0 ∧ bitAt vectored.g.tst.toNat 8 = false ∧ (vectored.slideUp 48).2 = none ∧ placed.g.tvec = 0 ∧
    bitAt handling.g.tst.toNat 8 = true ∧ 48 ≤ handling.g.wpos ∧ (handling.slideTo 0).2 = none ∧
    (handling.modG fun g => { g with wpos := 47 }).g.wpos < 48 ∧ (placed.team 1).isSome = true ∧ (placed.task 1).isSome = true ∧
    bitAt (2#2).toNat 1 = true := by decide +kernel

/-- 17 R320 to R323, 21 R388: trap and brk with a vector, without one and in a debug session. -/
theorem test_traps :
    after (.trap 9) vectored (fun t => (t.g.frc, t.g.fra, t.g.frpc)) = some (3, 9, 0x10000) ∧
    after (.trap 9) vectored (fun t => (t.g.tst, t.g.wpos, t.g.t.pc)) = some (0x110, 48, 0x40000) ∧
    after (.brk 9) vectored (fun t => (t.g.frc, t.g.frm, t.g.frmh)) = some (2, 0xFFFFFFFFFFFFFFFF, 0xFFFFFFFF) ∧
    after (.trap 9) placed (fun t => (t.g.stat, ((t.task 1).bind Task.fault).map Report.code)) = some (.halted, some .trap) ∧
    after (.brk 9) debugged (fun t => t.g.stopped) = some (some 0xFF) := by decide +kernel

/-- 17 R324: TRET goes back to the trapping word, or past it where bit 0 of its operand is set; outside a handler it halts. -/
theorem test_tret :
    after (.tret 6) handling (fun t => (t.g.t.pc, t.g.t.cwi, t.g.tst, t.g.wpos)) = some (0x20000, 1, 0x20, 0) ∧
    after (.tret 6) (handling.modG fun g => g.setS 6 1) (fun t => t.g.t.cwi) = some 2 ∧
    after (.tret 6) placed (fun t => t.g.stat) = some .halted := by decide +kernel

/-- The far machine whose second frame is pinned and holds a replay block that records, with 256 bytes of log. -/
def replaying (mode : Nat) : State :=
  (farS [(6, 0x40), (7, 0x11000)] ((addrs 0x11000 32).zip (dwordBytes [BitVec.ofNat 64 mode, 0x11100, 0x100, 0]))).modEnc 1 fun e =>
    { e with pins := [(0x11000, 1)] }

/-- LamplightWords: a free unit and a held one, a valid and an invalid configuration, a stopped group, a replay block, counters, and a
recorded group. -/
theorem test_meets_LamplightWords :
    let held := placed.modCore 0 fun c => { c with
      bank := { c.bank with holder := some (.enc 1), count := [(0, 5)] }, trace := { c.trace with holder := some (.enc 1), ctl := 1 } }
    let r := readBytes (replaying 1) 0x11000 32
    (placed.core 0).bank.holder = none ∧ (held.core 0).bank.holder = some (.enc 1) ∧ (held.core 0).bank.suspended = none ∧
    smGet 0 (held.core 0).bank.count 0 = 5 ∧ cfgValid 15 0xFFFFFFFF = false ∧ cfgValid 15 0xF81C0000 = true ∧ cfgValid 0x30 0x1000 = true ∧
    cfgValid 0x3C 0 = true ∧ cfgValid 0x3C 1 = false ∧ (0xF81C0000 : Nat) / 2 ^ 16 % 4 = 0 ∧
    (readState (replaying 1) 0x11000 32).replayBlockOk 1 0 0x11000 (bytesDwords 4 r) = true ∧
    ((replaying 1).encl 1).replay.block = none ∧ (0x11000 : Nat) % 64 = 0 ∧ (0x11020 : Nat) % 64 ≠ 0 ∧
    (placed.modTask 1 fun k => { k with replay := 1 }).replayMode placed.g = 1 ∧
    (held.core 0).trace.queue.length < 64 ∧ (held.core 0).trace.dropped = 0 ∧ bitAt (1#2).toNat 0 = true := by decide +kernel

/-- A stopped group beside the placed one: what selector 0x33 names. -/
theorem test_meets_LamplightWords_resume :
    let x : Machine.Group := { placed.g with gid := 2, sfix := [(56, 0x0000000001000100)], stat := .halted, stopped := some 0xFF }
    let s : State := { placed with groups := placed.groups ++ [(2, x)] }
    s.group 2 = some x ∧ x.ident < 2 ^ 48 ∧ x.ident ≠ s.g.ident ∧ x.core = s.g.core ∧ x.enc = s.g.enc ∧
    (s.encl 1).halted = false ∧ (s.taskOf x).map Task.ended = some false ∧
    (s.allGroups.all fun y => y.stopped.isNone || y.gid = 2) = true := by decide +kernel

/-- 21 R381, R384, R389, R392: trace.mark queues its packet, ctr.cfg takes the bank, ctr.rd of another's bank is UNAVAILABLE, release
gives it back, and rp.mark counts a checkpoint of a recorded group. -/
theorem test_lamplight :
    let traced := (placed.modG fun g => { g with trctl := 1 }).modCore 0 fun c => { c with trace := { c.trace with holder := some (.enc 1), ctl := 1 } }
    after (.traceMark 6 5) traced (fun t => ((t.core 0).trace.queue.head?).map fun p => (p.getD 0 0).toNat / 2 ^ 59) = some (some 6) ∧
    after (.ctrCfg 6 7) (withS [(6, 3), (7, 0x100101)]) (fun t => ((t.core 0).bank.holder, (t.core 0).bank.cfg)) =
      some (some (.enc 1), [(3, 0x101)]) ∧
    after (.ctrCfg 6 7) (withS [(6, 0x50)]) (fun t => t.g.stat) = some .halted ∧
    after (.ctrRd 5 6) placed (fun t => t.g.sr 5) = some 0x8000000000000000 ∧
    after (.release 6 7) ((withS [(6, 0x3C)]).modCore 0 fun c => { c with bank := { c.bank with holder := some (.enc 1) } })
      (fun t => (t.core 0).bank.holder) = some none ∧
    after (.replayArm 6 7) (replaying 1) (fun t => ((t.encl 1).replay.block, (t.encl 1).replay.mode)) = some (some 0x11000, 1) ∧
    after (.rpMark 4) placed (fun t => t.g.ckpt) = some 0 ∧
    after (.rpMark 4) (placed.modTask 1 fun k => { k with replay := 1 }) (fun t => t.g.ckpt) = some 1 := by decide +kernel

/-- A package with enclave 1 live, its version table of two entries at 0x61000, its save area of 8 frames at 0x62000, its page tables
at 0x70000 that map page 0 to frame 0x11 in state `st`, hypervisor frames 0x40 to 0x60, and hart 0 in HS-mode at 0x100000. -/
def hartS (x : List (Nat × Word)) (st : Nat) (bytes : List (Nat × Byte) := []) : State :=
  let pte (frame ppn flags : Nat) := (addrs (frame * 4096) 8).zip (leBytes 8 (ppn * 2 ^ 10 + flags))
  let s := placed.modEnc 1 fun e => { e with harts := 1, root := 0x70, pvt := 0x61000, pvtn := 2, save := 0x62000, saven := 8 }
  { s with
    hartAt := 0, focus := .hart, harts := [(0, { released := true, mode := .hs, pc := 0x100000, x := x })]
    classes := [(0, ⟨defaultLdr 0, none⟩)], parts := smPut s.parts 0 { s.part 0 with mem := [0] }
    accts := [(0, { guar := 0, burst := 100 })]
    pot := [(0x11, { owner := 1, stat := st })] ++ ((addrs 0x40 0x21).map fun f => (f, ({ stat := 1 } : Pot))) ++
      [(0x61, { owner := 1, stat := 7 })]
    mem := memPutAll s.mem (pte 0x70 0x71 1 ++ pte 0x71 0x72 1 ++ pte 0x72 0x73 1 ++ pte 0x73 0x74 1 ++ pte 0x74 0x11 0xC7 ++ bytes) }
/-- An enclave descriptor at 0x40000: one queue, partition 0, root 0x78, control structure at 0x50000, version table at 0x60000. -/
def encDesc (nq : Nat) : List (Nat × Byte) :=
  (addrs 0x40000 512).zip (dwordBytes ([BitVec.ofNat 64 (nq + 2 ^ 32), 0x78, 0x50000, 1, 0, 0, 0x100000000, 0x60000] ++ List.replicate 56 0))
/-- The same package with hart 0 inside enclave 1, its enc.enter at 0x20000 with rd 3 from HS-mode. -/
def insideS (x : List (Nat × Word)) : State :=
  let s := hartS x 2
  s.modHart 0 fun h => { h with inside := some 1, mode := .hs, hs := some (3 :: 1 :: ({ h with pc := 0x20004, x := [] } : Hart).body) }
/-- A creation on the descriptor, or an ending of enclave 1, that hart 0 has begun. -/
def begun (kill : Bool) (x : List (Nat × Word)) (bytes : List (Nat × Byte)) : State :=
  let s := hartS x 1 bytes
  let m : Making := { kill := kill, hart := 0, pages := 0, init := 0, ninit := 0 }
  if kill then s.modEnc 1 fun e => { e with live := false, making := some m }
  else { s with encs := smPut s.encs 2 { s.newEnclave 0x40000 2 with making := some m } }

/-- EnclaveWords: each mode, a dead and a live enclave, a hart that may and may not enter, descriptors that pass and fail, a creation
and an ending begun, pages inside and outside, and interrupts of each kind. -/
theorem test_meets_EnclaveWords :
    let s := hartS [(1, 0x40000), (2, 1)] 1 (encDesc 1)
    let i := insideS [(1, 0), (2, 0x41000)]
    let m := begun false [(1, 0x40000)] (encDesc 1)
    let k := begun true [(1, 1)] []
    s.me.inside = none ∧ s.me.mode = .hs ∧ (s.encl 1).live = true ∧ (s.encl 2).live = false ∧ bitAt (s.encl 1).harts.toNat 0 = true ∧
    bitAt (s.encl 1).harts.toNat 1 = false ∧ s.pvtFind 1 kindCtx (hartObj 0) = none ∧ (s.makingOf 0 false).isNone = true ∧
    (0x40000 : Nat) % 512 = 0 ∧ s.hypBytes 0x40000 512 = true ∧ s.descOk 0x40000 = true ∧ s.descFrames 0x40000 = true ∧
    (hartS [] 1 (encDesc 0)).descOk 0x40000 = false ∧ s.freeEnc = some 2 ∧
    (m.makingOf 0 false).map (fun x => (x.descAt, m.makeRest x)) = some (0x40000, true) ∧
    (k.makingOf 0 true).map Enclave.id = some 1 ∧ smWf {} s.harts = true ∧ i.me.inside = some 1 ∧
    i.pagePair 1 0 0x41000 .load = some 0x11000 ∧ i.pagePair 1 0 0x41000 .store = some 0x11000 ∧ i.pagePair 1 0 0x41008 .load = none ∧
    (match i.hartXlat 1 i.me 0 .load with | .ok p => p | .error _ => 0) = 0x11000 := by decide +kernel

/-- An enclave thread's context is sealed into a save area with room. -/
theorem test_meets_EnclaveWords_seal : ((insideS []).sealToSave 1 kindCtx (hartObj 0) (dwordBytes ((insideS []).hart 0).body)).isSome = true := by
  have h1 : ((insideS []).encl 1).granuleRun (ceilDiv (64 + (dwordBytes ((insideS []).hart 0).body).length + 16) 4096) = some 0 := by
    decide +kernel
  have h2 : (insideS []).pvtFree 1 = some 0 := by decide +kernel
  simp only [State.sealToSave, h1, h2]
  rfl

/-- An enc.make at a hart's pc finds its creation begun. -/
theorem test_meets_EnclaveWords_restart :
    let m := (begun false [(1, 0x40000)] (encDesc 1)).modHart 0 fun h => { h with pc := 0x10000 }
    let w := ((encode (.encMake 1 5)).getD 0).toNat
    let s : State := { m with mem := memPutAll m.mem ((addrs 0x10000 4).zip (leBytes 4 w)) }
    decode .xlm (BitVec.ofNat 32 (leNat (s.coherent 0xFF 0x10000 4))) = some (.encMake 1 5) ∧ (s.hart 0).await = none ∧
    after (.pendingInterrupt 0) s (fun t => ((t.hart 0).pc, (t.hart 0).getX 5)) = some (0x10004, 10) := by decide +kernel

/-- 20 R363 to R369: words outside their mode trap, entries and creations answer their statuses, exit gives its value, and a fresh
thread starts with its number in x10. -/
theorem test_enclaves :
    let h (i : Instr) (s : State) (f : Hart → Word) := after i s fun t => f (t.hart 0)
    let s := hartS [(1, 0x40000), (2, 1), (3, 0x90000)] 1 (encDesc 1)
    h (.encExit 1) s (·.cause) = some 2 ∧ h (.encKill 1 5) (s.modHart 0 fun h => { h with mode := .vs }) (·.cause) = some 22 ∧
    h (.encEnter 3 1 5) s (·.getX 5) = some 4 ∧ h (.encEnter 3 2 5) s (fun h => h.pc) = some 0x90000 ∧
    h (.encEnter 3 2 5) s (·.getX 10) = some 0 ∧ h (.encMake 2 5) s (·.getX 5) = some 1 ∧
    after (.encMake 1 5) s (fun t => ((t.encl 2).live, t.creation)) = some (false, 1) ∧
    after (.encKill 2 5) s (fun t => ((t.encl 1).live, (t.encl 1).halted)) = some (false, true) ∧
    after (.encKill 1 5) (begun true [(1, 1)] []) (fun t => smFind t.encs 1) = some none ∧
    h (.encExit 1) (insideS [(1, 7)]) (fun h => h.pc) = some 0x20004 ∧ h (.encExit 1) (insideS [(1, 7)]) (·.getX 3) = some 0x700 ∧
    h (.encOut 2 1 5) (insideS [(2, 1)]) (·.getX 5) = some 1 ∧ h (.encRep 2 1 5) (insideS [(1, 8)]) (·.getX 5) = some 1 ∧
    h (.encIn 2 1 5) (insideS [(1, 0), (2, 0x41000)]) (·.getX 5) = some 0 := by decide +kernel

/-- A parameter block at 0x42000. -/
def blockS (st : Nat) (ds : List Nat) : State := hartS [(1, 0x42000)] st ((addrs 0x42000 64).zip (dwordBytes (ds.map (BitVec.ofNat 64))))

/-- PagingWords: blocks of each word, frames of each state, one that is leased, entries that are free, and addresses that are not
mapped. -/
theorem test_meets_PagingWords :
    let o := blockS 1 [1, 0, 0x44000, 0, 0, 0, 0, 0]
    let i := blockS 4 [1, 0, 0x44000, 0x48, 0, 0, 0, 0]
    let x := blockS 1 [0x90, 1, 0, 0, 0, 0, 0, 0]
    let f (s : State) := ((s.hartLoads 0xFF 0x42000 64).pageLeaf 1 0).map fun l => l.pa 0 / 4096
    o.block 0x42000 = some [1, 0, 0x44000, 0, 0, 0, 0, 0] ∧ o.block 0x42020 = none ∧ o.hypBytes 0x44000 4176 = true ∧
    (o.encl 1).live = true ∧ (o.encl 2).live = false ∧ f o = some 0x11 ∧ ((o.hartLoads 0xFF 0x42000 64).pageLeaf 1 0x1000).isNone = true ∧
    (o.potOf 0x11).owner = 1 ∧ (o.potOf 0x11).stat = 1 ∧ (o.potOf 0x11).leases = 0 ∧ o.migrating 0x11 = false ∧
    (o.hartLoads 0xFF 0x42000 64).guaranteed 0 = false ∧ (o.hartLoads 0xFF 0x42000 64).pvtFree 1 = some 0 ∧
    i.block 0x42000 = some [1, 0, 0x44000, 0x48, 0, 0, 0, 0] ∧ f i = some 0x11 ∧ (i.potOf 0x48) = { stat := 1 } ∧ i.inMem 0 0x48 = true ∧
    (i.res 0) + 1 ≤ (i.acct 0).burst ∧ (i.potOf 0x11).stat = 4 ∧ (i.potOf 0x11).owner ≠ 0 ∧
    x.block 0x42000 = some [0x90, 1, 0, 0, 0, 0, 0, 0] ∧ inMemory (0x90 * 4096) = true ∧ 0x90 ∉ x.withheld ∧ (x.potOf 0x90).stat = 0 ∧
    x.hypFrame 0x48 = true ∧ x.hypFrame 0x90 = false := by decide +kernel

/-- 20 R371, R373: pg.out leaves its frame sealed-out and pot.xfer of KIND 0 takes an unowned frame; a dead enclave answers 4 and a
misaligned block 1. -/
theorem test_paging :
    let h (i : Instr) (s : State) (n : Nat) := after i s fun t => (t.potOf n, (t.hart 0).await.isSome)
    h (.pgOut 1 5) (blockS 1 [1, 0, 0x44000, 0, 0, 0, 0, 0]) 0x11 = some ({ owner := 1, stat := 4 }, true) ∧
    h (.potXfer 1 5) (blockS 1 [0x90, 1, 0, 0, 0, 0, 0, 0]) 0x90 = some ({ stat := 1 }, true) ∧
    after (.pgIn 1 5) (blockS 1 [2, 0, 0x44000, 0x48, 0, 0, 0, 0]) (fun t => (t.hart 0).getX 5) = some 4 ∧
    after (.pgOut 1 5) (hartS [(1, 0x42020)] 1) (fun t => (t.hart 0).getX 5) = some 1 := by decide +kernel
/-- PagingWords: an image of page 0 whose version the version table holds is accepted, whatever its tag is. -/
theorem test_meets_PagingWords_image (body : List Byte) (hb : body.length = 4096) :
    let s := hartS [] 4 ((addrs 0x61000 32).zip (dwordBytes [0x8000000000000000 + BitVec.ofNat 64 kindPage, 0, 5, 0]))
    let key := Config.sealKey (s.encl 1).sealInfo
    let h := imageHeader kindPage 1 0 5 4096
    let c := gcmBody key (imageNonce kindPage 5) body
    ∃ r, s.openImage 1 kindPage 0 4096 (h ++ (c ++ gcmTag key (imageNonce kindPage 5) h c)) = .ok r := by
  intro s key h c
  have hh : h.length = 64 := by decide +kernel
  have hc : c.length = 4096 := by simp [c, gcmBody, hb]
  have ht (k n a x) : (gcmTag k n a x).length = 16 := rfl
  have hv : s.pvtFind 1 kindPage 0 = some 0 := by decide +kernel
  have hw : s.pvtDw 1 0 2 = 5 := by decide +kernel
  have d (i : Nat) (hi : 8 * i + 8 ≤ 64) (x : List Byte) : ((h ++ x).drop (8 * i)).take 8 = (h.drop (8 * i)).take 8 := by
    rw [List.drop_append_of_le_length (by omega), List.take_append_of_le_length (by rw [List.length_drop]; omega)]
  have e : ∀ i < 8, leNat ((h.drop (8 * i)).take 8) = [0x5345414C4C425639, kindPage * 2 ^ 32 + 1, 0, 5, 4096, 0, 0, 0].getD i 0 := by
    decide +kernel
  have hx : (h ++ (c ++ gcmTag key (imageNonce kindPage 5) h c)).drop 64 = c ++ gcmTag key (imageNonce kindPage 5) h c := by
    rw [List.drop_append, hh]; simp [List.drop_eq_nil_of_le (Nat.le_of_eq hh)]
  have hy : (h ++ (c ++ gcmTag key (imageNonce kindPage 5) h c)).take 64 = h := by
    rw [List.take_append_of_le_length (by omega), List.take_of_length_le (by omega)]
  have hz : (h ++ (c ++ gcmTag key (imageNonce kindPage 5) h c)).drop (64 + 4096) = gcmTag key (imageNonce kindPage 5) h c := by
    rw [← List.drop_drop, hx, List.drop_append, hc]; simp [List.drop_eq_nil_of_le (Nat.le_of_eq hc)]
  have hu : (c ++ gcmTag key (imageNonce kindPage 5) h c).take 4096 = c := by
    rw [List.take_append_of_le_length (by omega), List.take_of_length_le (by omega)]
  refine ⟨(gcmBody key (imageNonce kindPage 5) c, s.pvtDrop 1 0), ?_⟩
  simp only [State.openImage, d _ (by omega : 8 * 0 + 8 ≤ 64), d _ (by omega : 8 * 1 + 8 ≤ 64), d _ (by omega : 8 * 2 + 8 ≤ 64),
    d _ (by omega : 8 * 3 + 8 ≤ 64), d _ (by omega : 8 * 4 + 8 ≤ 64), d _ (by omega : 8 * 5 + 8 ≤ 64), d _ (by omega : 8 * 6 + 8 ≤ 64),
    d _ (by omega : 8 * 7 + 8 ≤ 64), e 0 (by omega), e 1 (by omega), e 2 (by omega), e 3 (by omega), e 4 (by omega), e 5 (by omega),
    e 6 (by omega), e 7 (by omega), hx, hy, hz, hu, hv, hw]
  rw [if_neg (by decide), if_neg (by decide)]
  simp only [List.getD_cons_succ, List.getD_cons_zero]
  rw [List.take_of_length_le (Nat.le_of_eq (ht _ _ _ _))]
  simp [key]

/-- The far machine with a second task, of queue 0 and launched by nobody, whose record is as given, in some state. -/
def taskS (rcd : List Byte) (f : Task → Task) (bytes : List (Nat × Byte) := []) : State :=
  let s := farS [] bytes
  { s with tasks := s.tasks ++ [(2, f (newTask 2 1 0 7 0 none 0x11000 (bytesDwords 64 rcd) .depend))] }
/-- That task. -/
def taskOf2 (s : State) : Task := (s.task 2).getD (newTask 0 0 0 0 0 none 0 [] .done)
/-- A launch record with one READ region of 64 bytes at `base`, outside every heap. -/
def regionRec (base : Nat) : List Byte :=
  dwordBytes ([0x10000, 0x101010001, 0x1008] ++ List.replicate 13 0 ++ [BitVec.ofNat 64 base, 64, 0] ++ List.replicate 45 0)
/-- The far machine with records kicked into queue 0's FIFO. -/
def kickedS (n : Nat) (v : Word) : State :=
  (farS [] ((addrs 0x11000 512).zip (launchRec 0x1010001 0x1008))).modEnc 1 fun e => { e with kicks := if n = 0 then [] else [(0, List.replicate n v)] }
/-- The same with hart 0 inside the enclave. -/
def kickingS (n : Nat) : State := (kickedS n 0x11000).modHart 0 fun h => { h with inside := some 1 }

/-- ChandlerStages: FIFOs with room for one and full, a held store, queues with a held record, a kicked record that passes and one that
fails, every stage, walks that find each kind of page, attempts at both sides of the limit, and an edge engine with nothing to do. -/
theorem test_meets_ChandlerStages :
    let k := kickingS 63
    let bad := kickedS 1 0x11001
    let held := (kickingS 63).modEnc 1 fun e => { e with kickHeld := [(0, 0, 5)] }
    (k.encl 1).live = true ∧ (k.encl 1).queues.length = 1 ∧ (k.hart 0).inside = some 1 ∧ k.kickWaits 0 = false ∧
    (smGet [] (k.encl 1).kicks 0).length < 64 ∧ 64 ≤ (smGet [] ((kickingS 64).encl 1).kicks 0).length ∧ held.kickWaits 0 = true ∧
    (held.encl 1).kickHeld.find? (fun w => w.2.1 = 0) = some (0, 0, 5) ∧
    (kickedS 0 0).admitNext 0 = none ∧ (k.admitNext 0).map (fun x => x.2) = some (1, 0) ∧ k.held4 1 0 = [] ∧
    (match bad.readKicked 1 0 0x11001 with | .ok _ => false | .error c => c = .misaligned) = true ∧
    (match k.readKicked 1 0 0x11000 with | .ok r => (k.recordCheck 1 0 r).isNone | .error _ => false) = true := by decide +kernel

/-- ChandlerStages: a record held in a team's pending-launch queue. -/
theorem test_meets_ChandlerStages_held :
    let s := (taskS (launchRec 0x1010001 0x1008) fun x => { x with stage := .queued, parent := some 1 }).modTeam 1 fun t =>
      { t with plq := [⟨0, 2, 5⟩] }
    s.held4 1 0 = [(1, ⟨0, 2, 5⟩)] ∧ (s.admitNext 0).map (fun x => x.2) = some (1, 0) ∧ (s.task 2).map Task.id = some 2 :=
  by decide +kernel

/-- ChandlerStages: Depend, Arbitrate, Lease and Edge. -/
theorem test_meets_ChandlerStages_stages :
    let s (f : Task → Task) := taskS (launchRec 0x1010001 0x1008) f
    let r (f : Task → Task) := taskS (regionRec 0x40000000) f
    let st (g : Stage) := s fun x => { x with stage := g }
    (taskOf2 (st .depend)).over = false ∧ (st .depend).allDone [] = true ∧ (s fun x => { x with producers := [1] }).allDone [1] = false ∧
    (st .arbitrate).rivals (taskOf2 (st .arbitrate)) = [] ∧ (st .lease).walkPages (taskOf2 (st .lease)) = [] ∧
    (st .lease).leaseWakes (taskOf2 (st .lease)) = true ∧
    ((r id).walkPages (taskOf2 (r id))) = [(0x40000000, 0)] ∧ (r id).walkPage 1 (0x40000000, 0) = .invalid ∧
    (let p := r fun x => { x with stage := .lease, lease := .pending, attempts := 8, pendFrom := 0 }
     p.leaseWakes (taskOf2 p) = false ∧ (p.modDie 0 fun d => { d with cyc := 65536 }).dieClock (p.admitDie 0) = (taskOf2 p).pendFrom + 65536) ∧
    (st .edge).edgeTurn (taskOf2 (st .edge)) = true ∧ (st .edge).overlaps (taskOf2 (st .edge)) = [] ∧ ((st .edge).encl 1).halted = false := by
  decide +kernel

/-- 05 R132, 10 R220, 11 R253 to R256, 18 R341: a kick is held at a full FIFO; a kicked record enters its window at Depend; a task with
nothing before it goes from Depend to Arbitrate, Lease, Edge and Place, one event each. -/
theorem test_chandler :
    let st (g : Stage) := taskS (launchRec 0x1010001 0x1008) fun x => { x with stage := g }
    let is (i : Instr) (s : State) := after i s fun t => (t.task 2).map Task.stage
    after (.kickStore 0 1 0 8 5) (kickingS 63) (fun t => (smGet [] (t.encl 1).kicks 0).length) = some 64 ∧
    after (.kickStore 0 1 0 8 5) (kickingS 64) (fun t => (t.encl 1).kickHeld) = some [(0, 0, 5)] ∧
    after (.kickStoreAccept 1 0) ((kickingS 63).modEnc 1 fun e => { e with kickHeld := [(0, 0, 5)] })
      (fun t => (smGet [] (t.encl 1).kicks 0).length) = some 64 ∧
    after (.admissionOpportunity 0) (kickedS 1 0x11000) (fun t => (t.tasks.length, (t.encl 1).kicks)) = some (2, []) ∧
    is (.dependRelease 2) (st .depend) = some (some .arbitrate) ∧ is (.arbitrateRelease 2) (st .arbitrate) = some (some .lease) ∧
    is (.leaseWalk 2) (st .lease) = some (some .edge) ∧ is (.edgeLineAction 2) (st .edge) = some (some .place) ∧
    is (.leasePendingTimeout 2) (st .depend) = some (some .depend) := by decide +kernel

/-- A group that waits beside nothing: the placed one, in a state, with no slot bound. -/
def parkedS (f : Machine.Group → Machine.Group) (l : List (Reg × Word) := []) : State :=
  let s := farS l
  { s with g := {}, focus := .none, groups := [(1, f { s.g with stat := .ready })], cores := smPut s.cores 0 { s.core 0 with slot0 := {} } }

/-- PlacementAndEnds: a task with one team to place and a partition with none, a winner and its path, waits that are met and not,
monitors, an ending group, a draining team, and a task that ends. -/
theorem test_meets_PlacementAndEnds :
    let p := taskS (launchRec 0x1010001 0x1008) fun x => { x with stage := .place }
    let r := parkedS id
    let w (v : Park) := parkedS fun g => { g with stat := .parked, t := { g.t with park := some v } }
    let e := parkedS fun g => { g with stat := .ending }
    let g1 (s : State) := (s.group 1).getD {}
    p.returning 0 = [] ∧ p.placeList 0 = [2] ∧ p.placeList 1 = [] ∧ (taskOf2 p).placed + 1 = (taskOf2 p).teams ∧
    (p.teams.all fun y => y.2.stat ≠ .evicted) = true ∧
    ((State.takeEvicting (taskOf2 p) (fun z => z.seatTeam (taskOf2 p) 0 (z.places (taskOf2 p))) 32 p).1).isSome = true ∧
    r.focus = .none ∧ r.g.gid = 0 ∧ ((r.core 0).slot 0).bound = none ∧ (r.winner 0 0).map Group.gid = some 1 ∧ r.winner 0 1 = none ∧
    r.choosePath (g1 r) = some false ∧ (w (.tags 0 true)).waitMet (g1 (w (.tags 0 true))) = true ∧
    (w (.tags 1 true)).waitMet (g1 (w (.tags 1 true))) = false ∧ (g1 e).drained = true ∧ e.groupWindowBusy (g1 e) = false ∧
    (e.endGroup (g1 e)).regrouping 1 = [] := by decide +kernel

/-- PlacementAndEnds: a draining team with no child, the last and not the last of its grid; a task that ends with its groups stopped and
their work complete; a live enclave with a resident team. -/
theorem test_meets_PlacementAndEnds_ends :
    let d := (parkedS fun g => { g with stat := .ended }).modTeam 1 fun t => { t with stat := .draining }
    let rep := bareReport .misaligned 0 1 0 false
    let x := (parkedS fun g => { g with stat := .halted }).modTask 1 fun k => { k with fault := some rep, ended := true, reported := true, rcd := bytesDwords 64 (launchRec 0x1010002 0x1008) }
    (d.team 1).map Team.stat = some .draining ∧ d.childrenDone 1 = true ∧ (d.team 1).map Team.plq = some [] ∧
    (d.task 1).map Task.parent = some none ∧ (x.task 1).map (fun k => (k.published + 1, k.teams)) = some (1, 2) ∧
    x.stoppedAll [1] = true ∧ x.drainedAll [1] = true ∧ x.descendants 10 1 = [] ∧
    ((x.closeAll [1]).groupsOf [1]).any (x.closeAll [1]).groupWindowBusy = false ∧ (x.encl 1).live = true ∧
    ((parkedS id).team 1).map Team.stat = some .resident ∧ ((parkedS id).teams.all fun t => t.2.lost = []) = true := by decide +kernel

/-- 05 R116, R133, R135, R137, R138, 17 R325, 18 R347, R349: one event each of a team's life. -/
theorem test_placement :
    let p := taskS (launchRec 0x1010001 0x1008) fun x => { x with stage := .place }
    let st (i : Instr) (s : State) := after i s fun t => (t.group 1).map Group.stat
    after (.placementAttempt 0) p (fun t => ((t.task 2).map Task.placed, t.teams.length)) = some (some 1, 2) ∧
    after (.runArbitration 0 0) (parkedS id) (fun t => (t.g.gid, t.g.stat)) = some (1, .bound) ∧
    st (.parkWake 1) (parkedS fun g => { g with stat := .parked, t := { g.t with park := some (.tags 0 true) } }) = some (some .ready) ∧
    st (.groupEnded 1) (parkedS fun g => { g with stat := .ending }) = some (some .ended) ∧
    after (.monitorSpurious 1 false) (parkedS fun g => { g with t := { g.t with mon := some ⟨5, none⟩ } })
      (fun t => (t.group 1).bind fun g => g.t.mon.bind Monitor.cause) = some (some .spurious) ∧
    after (.teamPublish 1) ((parkedS fun g => { g with stat := .ended }).modTeam 1 fun t => { t with stat := .draining })
      (fun t => t.teams.length) = some 0 ∧
    st (.taskEnd 1) ((parkedS id).modTask 1 fun k => { k with fault := some (bareReport .misaligned 0 1 0 false) }) = some (some .halted) ∧
    after (.faultRecord 1) ((parkedS fun g => { g with stat := .halted }).modTask 1 fun k =>
      { k with fault := some (bareReport .misaligned 0 1 0 false), ended := true }) (fun t => (t.task 1).map Task.reported) = some (some true) ∧
    st (.enclaveHalt 1) (parkedS id) = some (some .halted) ∧
    st (.enclaveResume 1) (parkedS fun g => { g with stat := .halted }) = some (some .ready) := by decide +kernel

/-- The state after a meaning that answers a next state. -/
def ran (f : State → Out) (s : State) : State :=
  match f s with
  | .next t => t
  | _ => s
/-- A state whose core 0 holds a token of interface 0. -/
def tokens (s : State) : State := s.modCore 0 fun c => { c with buckets := [⟨0, true, 0, 5, 10⟩] }
/-- The far machine after a far load, a far store or an atomic has issued. -/
def loading : State := tokens (ran (execFLds 8 6 3 0) (farS [(6, 0x11000)] [(0x11000, 0x2A)]))
def storing : State := tokens (ran (execFSts 5 6 3 0) (farS [(5, 0x2A), (6, 0x11000)]))
def adding : State := tokens (ran (execAAdd 8 6 5 0) (farS [(5, 2), (6, 0x11000)] [(0x11000, 0x2A)]))
/-- The same with its request gone out of the port, and the store in the cluster's buffer. -/
def loaded : State := ran (execPortRequestDepart (.load 1 0)) loading
def buffered : State := ran (execCoreStorePointPass 1) (ran (execPortRequestDepart (.store 1)) storing)
def added : State := ran (execPortRequestDepart (.load 1 0)) adding

/-- MemoryEvents: a request at the port with a token and without, the oldest store, a buffered store, a load and an atomic at their
points, before and after their values have come. -/
theorem test_meets_MemoryEvents :
    (loading.group 1).map (fun g => g.reqs.map fun q => (q.port, q.sent, loading.g.loadDue q)) = some [(1, 0, false)] ∧
    loading.inFlight 0 + 1 ≤ 256 ∧ loading.portSeqs 0 0 = loading.g.reqs.map Req.seq ∧ (loading.core 0).mayTake 0 = true ∧
    ((loading.modCore 0 fun c => { c with buckets := [] }).core 0).mayTake 0 = false ∧
    loaded.g.reqs.map (fun q => (q.port, loaded.mayLoad loaded.g q)) = [(0, true)] ∧ loaded.poison = [] ∧
    (ran (execOrderingPointArrival (.load 1 0)) loaded).g.reqs.map Req.data = [some [0x2A]] ∧
    (storing.g.fifo.map StoreEnt.port) = [1] ∧ (ran (execPortRequestDepart (.store 1)) storing).g.fifo.map
      (ran (execPortRequestDepart (.store 1)) storing).g.mayPass = [true] ∧ storing.g.fifo.map storing.g.mayPass = [false] ∧
    ((buffered.buf 0)[0]?).map (fun b => (buffered.storeFirst 0 0 b, buffered.storeHeld b)) = some (true, false) ∧
    (added.waiting (1, 0)).map (fun m => (added.atPoint m, added.atomDue m, added.gate m)) = some (true, true, some 0) ∧
    (adding.waiting (1, 0)).map (fun m => (adding.atPoint m, adding.atomDue m)) = some (false, false) := by decide +kernel

/-- MemoryEvents: a vector load with elements to write, a window store that may be performed, a gated atomic past its time, and an entry
whose widening is asked. -/
theorem test_meets_MemoryEvents_rest :
    let v := tokens (ran (execFLdv 8 6 0) (farS [(6, 0x11000)]))
    let e : Svt := { rel := true, remote := false, host := false, line := 0x11000 / 64, cl := 0, multi := false, core := 0, relCl := 0,
                     relMulti := false, relCore := 0, relGid := 1, relSeq := 0, want := some .hart }
    let s := (farS []).modDie 0 fun d => { d with svt := [e] }
    (v.g.reqs.map fun q => (q.vec, q.elems.length, q.port)) = [(true, 96, 6)] ∧ (busyWindow.g.winStores[0]?).map WinStore.parts =
      some [⟨0, 0, 1, [(0, 1)], []⟩] ∧ busyWindow.mayPerform [] ⟨1, false, [⟨0, 0, 1, [(0, 1)], []⟩]⟩ ⟨0, 0, 1, [(0, 1)], []⟩ = true ∧
    ((s.die 0).svt[0]?).map Svt.want = some (some .hart) ∧ s.relPending e .hart = false ∧
    (added.waiting (1, 0)).map (fun m => added.servingClock m) = some 1 := by decide +kernel

/-- 11 R233 to R246, 12 R272 to R274: a load takes its value and returns it, a store reaches memory, an atomic adds in one step and
returns the old value, and a window store lands in the owner's row. -/
theorem test_memory_events :
    after (.orderingPointArrival (.load 1 0)) loaded (fun t => t.g.reqs.map Req.data) = some [some [0x2A]] ∧
    after (.farLoadReturn 1 0) (ran (execOrderingPointArrival (.load 1 0)) loaded) (fun t => (t.g.sr 8, t.g.p.ld, t.g.reqs.length)) =
      some (0x2A, 0, 0) ∧
    after (.orderingPointArrival (.store 0 0)) buffered (fun t => (memByte t.mem 0x11000, (t.buf 0).length, t.g.p.st)) = some (0x2A, 0, 0) ∧
    after (.atomicExecute [(1, 0)]) added (fun t => memByte t.mem 0x11000) = some 0x2C ∧
    after (.atomicReturn 1 0) (ran (execAtomicExecute [(1, 0)]) added) (fun t => (t.g.sr 8, t.g.p.ld)) = some (0x2A, 0) ∧
    after (.windowStorePerformed 1 0) busyWindow (fun t => (memByte (t.core 0).pool 0x8000, t.g.winStores.length)) = some (1, 0) ∧
    after (.windowLoadReturn 1) ((windowed 1).modG fun g => { g with winRet := some ([(0, 0)], false) }) (fun t => t.g.winRet) =
      some (some ([(0, 0)], true)) ∧
    after (.orderGateRelease 1 0) adding (fun t => memByte t.mem 0x11000) = some 0x2A ∧
    after (.orderGateTimeout 1 0) added (fun t => (t.encl 1).replay.diverged) = some false ∧
    after (.svtWidening 0 0) (farS []) (fun t => (t.die 0).svt.length) = some 0 := by decide +kernel

/-- The copying machine after a command whose destination is local has entered the engine: its source is local, or far and misaligned to
no page that the enclave has. -/
def engineS (d a : BitVec 3) (s : State) : State :=
  ran (execPortRequestDepart (.copy 0 0)) (ran (execCpCopy d a 9 0) s)
/-- The tiled machine after a tile operation, its head started. -/
def tileS (f : State → Out) (l : List (Reg × Word)) : State := ran (execTileOpStart 0) (ran f (tiled l))

/-- EngineAndLanternEvents: a copy that is ready, tile heads of each kind before and after their start, and a throttled array. -/
theorem test_meets_EngineAndLanternEvents :
    let c := engineS 0 1 copying
    let kind (i : State → Out) := ((tileS i [(6, 0x801000), (7, 16)]).tileHead 0).map fun x => (x.2.1.kind, x.2.1.running)
    (c.copyReady 0 0).map (fun x => ((c.runCopy x.1 x.2).1.err, (c.runCopy x.1 x.2).1.held.isNone, (c.runCopy x.1 x.2).1.bad)) =
      some (none, true, false) ∧
    copying.copyReady 0 0 = none ∧ kind (execMmZero 0) = some (.zero, true) ∧ kind (execMmChk 5 0) = some (.chk, true) ∧
    kind (execMmRd 5 0 7) = some (.rd 16 none, true) ∧ kind (execMmOne 0 6 7 0) = some (.one, true) ∧
    ((ran (execMmZero 0) (tiled [])).tileHead 0).map (fun x => (x.2.1.running, ((ran (execMmZero 0) (tiled [])).core 0).heldBack x.2.1.lock)) =
      some (false, false) := by decide +kernel

/-- 14 R289, R296, 15 R306, R310 to R316: a copy of four floats sets its tag and lowers CP; a started mm.zero leaves its queue and lowers
TL; mm.rd delivers the tile's row. -/
theorem test_engine_events :
    after (.copyComplete 0 0) (engineS 0 1 copying) (fun t => (leNat ((addrs 0x900C 4).map (memByte (t.core 0).pool)), t.tags, t.g.p.cp)) =
      some (0x3F800000, 0x200, 0) ∧
    after (.copyElementFault 0 0) (engineS 0 1 copying) (fun t => t.g.p.cp) = some 1 ∧
    after (.tileOpRetire 0 []) (tileS (execMmZero 0) []) (fun t => ((t.core 0).tileq.length, t.g.p.tl)) = some (0, 0) ∧
    after (.tileOpRetire 0 []) (tileS (execMmRd 5 0 7) [(7, 3)]) (fun t => (lane (t.g.vr 5) 1, t.g.p.tl)) = some (0, 0) :=
  by decide +kernel

/-- A lantern class 1 of 128 pane-sets on die 0 that changes, its cursor at the pane-set of its one line, which is dirty in its first
byte. -/
def changing (flush : Bool) : State :=
  let l : Ldr := ⟨1, 0x10100⟩
  let y : LLine := { part := 0, cls := 1, die := 0, line := 0x11000, size := 64, pane := 0, set := 64, slice := 0, newGeo := false,
                     data := 7 :: List.replicate 63 0, dirty := 1 }
  { farS [] with classes := [(0, ⟨defaultLdr 0, none⟩), (1, ⟨l, some ⟨l, flush, [(0, 64)]⟩⟩)], lines := [y] }
/-- The far machine with an ln.flush of one line in progress. -/
def flushing (started : Bool) : State :=
  (changing true).modG fun g => { g.modP fun p => { p with st := 1 } with
    lnOps := [{ seq := 0, pathF := false, inv := false, lo := 0x11000, hi := 0x11040, started := started, lines := if started then [(0, 0x11000)] else [] }] }

/-- EngineAndLanternEvents: cursors before, at and past the end, and lantern actions that have and have not started. -/
theorem test_meets_EngineAndLanternEvents_lanterns :
    let s := changing true
    let l : Ldr := ⟨1, 0x10100⟩
    let f := flushing false
    l.instDies = [0] ∧ l.total = 128 ∧ (s.oldLine 0 1 0 l 64 0).isSome = true ∧ ((List.range 15).all fun y => (s.oldLine 0 1 0 l 64 (y + 1)).isNone) = true ∧
    (s.oldLine 0 1 0 l 127 0).isNone = true ∧ (l.place 0x11000) = (0, 0, 64) ∧ s.paneRetired 0 0 = false ∧
    (f.g.lnOps.map fun o => (o.started, f.g.lnMayStart o)) = [(false, true)] ∧
    (((flushing true).lines.find? fun y => y.die = 0 && y.line = 0x11000 && y.part = (flushing true).partOf (flushing true).g)).isSome = true := by
  decide +kernel

/-- 09 R200, R201, 12 R278: FLUSH-ALL writes the line back and drops it, KEEP-LINES moves it, a cursor at its end does nothing; a
write-back empties the action and lowers ST. -/
theorem test_lantern_events :
    let old (s : State) := (memByte s.mem 0x11000, s.lines.length)
    after (.flushCursorStep 0 1 0) (changing true) old = some (7, 0) ∧
    after (.resizeCursorStep 0 1 0) (changing false) (fun t => (memByte t.mem 0x11000, t.lines.map LLine.newGeo)) = some (0, [true]) ∧
    after (.resizeCursorStep 0 1 1) (changing false) old = some (0, 1) ∧
    after (.writeBackArrival 1 0) (flushing true) (fun t => (memByte t.mem 0x11000, t.g.lnOps.length, t.g.p.st)) = some (7, 0, 0) := by
  decide +kernel

/-- The hart machine, its page 0 for user loads only, with a walk of group 1 on die 0. -/
def walking (va : Nat) (k : Acc) : State :=
  (hartS [] 2 ((addrs 0x74000 8).zip (leBytes 8 (0x11 * 2 ^ 10 + 0xD3)))).modDie 0 fun d => { d with walks := [⟨1, 1, 0, va, k, none, 0⟩] }
/-- The far machine with an entry of the migration table that moves frame 17 to frame 19, its cursor somewhere. -/
def moving (cursor : Nat) (done : Bool) : State :=
  let s := farS [] [(0x11000, 9)]
  { s with migr := [(0, { valid := true, done := done, cursor := cursor, src := 17, dst := 19, was := { stat := 1, owner := 1 } })]
           pot := smPut (smPut s.pot 17 { stat := 5, owner := 1 }) 19 { stat := 5, owner := 1 } }

/-- TranslationEvents: a die at rest and one at work, with and without accesses of the old colour and queued work, walks that find a
page, none and a poisoned line, a pinned page whose frame has a full count, and a migration before, during and after its lines, of frames
of an enclave, of the commons and of firmware. -/
theorem test_meets_TranslationEvents :
    let busy (n : Nat) := (farS []).modDie 0 fun d => { d with inval := some (.asid 0), n1 := n }
    let m := moving 63 false
    let w := walking 0 .load
    let full := (w.modEnc 1 fun e => { e with pins := [(0, 1)] }).setPot 17 { stat := 2, owner := 1, leases := 255 }
    let asWas (n : Nat) : State := { m with migr := m.migr.map fun y => (y.1, { y.2 with was := { stat := n } }) }
    let free := (farS []).setPot 17 { stat := 1, owner := 1 }
    ((farS []).die 0).inval = none ∧ smWf {} (farS []).cores = true ∧ ((busy 0).die 0).count true = 0 ∧ ((busy 1).die 0).count true ≠ 0 ∧
    ((busy 0).die 0).invalQ = [] ∧ (w.die 0).walks.map Walk.res = [none] ∧ (w.leafOf 1 0).map (fun l => (l.check .load).isSome) = some false ∧
    (w.leafOf 1 0).map (fun l => (l.check .store).isSome) = some true ∧ (w.leafOf 1 0x1000).isNone = true ∧
    w.walkPoisoned 1 0 = false ∧ ({ w with poison := [0x70 * 64] } : State).walkPoisoned 1 0 = true ∧
    (w.leafOf 1 0).map (w.pinFull 1) = some false ∧ (full.leafOf 1 0).map (full.pinFull 1) = some true ∧
    (w.group 1).isSome = true ∧ w.running = true ∧ (m.potSettled 17).stat = 1 ∧ (asWas 6).potSettled 17 = { stat := 6 } ∧
    (asWas 3).framePart 17 = none ∧ (asWas 3).potSettled 17 = { stat := 3 } ∧ (17 : Nat) ≠ 19 ∧
    (m.migrAt 0 0).valid = true ∧ (m.migrAt 0 0).cursor < 64 ∧ ((moving 64 true).migrAt 0 0).done = true ∧ m.framePart 17 = some 0 ∧
    (free.migrAt 0 1).valid = false ∧ (tierOf (17 * 4096)).1 = 0 ∧ (free.potOf 17).stat = 1 ∧ (free.potOf 18).stat = 0 :=
  by decide +kernel

/-- 10 R215, R224 to R229: an invalidation flips the colour and is acknowledged, a walk of an unmapped page fails, a step moves a line,
and a retired move leaves its source free. -/
theorem test_translation :
    after (.invalidation (.asid 0)) (farS []) (fun t => ((t.die 0).colour, (t.die 0).inval.isSome)) = some (true, true) ∧
    after (.dtuAcknowledge 0) ((farS []).modDie 0 fun d => { d with inval := some (.asid 0) }) (fun t => (t.die 0).inval.isSome) =
      some false ∧
    after (.walkComplete 0 0) (walking 0x1000 .load) (fun t => (t.die 0).walks.map Walk.res) = some [some (some .accessUnleased)] ∧
    after (.walkComplete 0 0) (walking 0 .load) (fun t => ((t.die 0).walks.map Walk.res, (t.die 0).llt.length)) = some ([some none], 1) ∧
    after (.migrationEntryWrite 0 1 17 18) ((farS []).setPot 17 { stat := 1, owner := 1 }) (fun t => ((t.potOf 17).stat, (t.potOf 18).stat)) =
      some (5, 5) ∧
    after (.migrationStep 0 0 true) (moving 0 false) (fun t => (memByte t.mem 0x13000, (t.migrAt 0 0).cursor)) = some (9, 1) ∧
    after (.migrationRetire 0 0) (moving 64 true) (fun t => (t.potOf 17, (t.potOf 19).stat)) = some ({}, 1) := by decide +kernel

/-- A partition record with some ports, and no cluster, quota or memory. -/
def partRec (valid : Bool) (ports : Nat) : List Word :=
  BitVec.ofNat 64 ((if valid then 2 ^ 63 else 0) + ports * 2 ^ 40) :: List.replicate 63 0
/-- A core whose units the hypervisor or enclave 1 holds. -/
def unitS (h : Option Holder) (f : Machine.Trace → Machine.Trace) : State :=
  placed.modCore 0 fun c => { c with bank := { c.bank with holder := h }, trace := f { c.trace with holder := h } }

/-- ManagementEvents: entries that are free and locked, records that pass and overlap, shares and accounts at their limits, units of each
holder, refills due and not, and a live enclave's pager queue. -/
theorem test_meets_ManagementEvents :
    let s := farS []
    s.running = true ∧ ({ s with running := false } : State).running = false ∧
    s.reachesMgmt (.function 0) = true ∧ s.reachesMgmt (.function 1) = false ∧ s.reachesMgmt (.hart 0) = true ∧
    (s.modHart 0 fun h => { h with mode := .hs }).reachesMgmt (.hart 0) = false ∧
    s.mmtLocked 5 = false ∧ s.mmtLocked 0 = true ∧ s.partOver 1 (partOf64 (partRec true 1)) = false ∧ s.partLive 1 = false ∧
    s.partLive 0 = true ∧ s.partMayAmend 0 (s.part 0) = true ∧ s.partMayAmend 0 (partOf64 (partRec false 0)) = false ∧
    ((s.modPart 1 fun _ => partOf64 (partRec true 1)).partOver 2 (partOf64 (partRec true 1))) = true ∧
    (s.vi 0).share = 65536 ∧ (65536 : Nat) ≤ 65536 ∧ (s.acct 3).guar = 0 ∧ s.pkgidSet = false ∧
    ((unitS (some (.enc 1)) id).core 0).bank.holder = some (.enc 1) ∧ ((unitS (some .hyp) id).core 0).trace.suspended = none ∧
    (s.core 0).cyc.toNat / 1024 = (s.core 0).refills ∧ ((s.modCore 0 fun c => { c with cyc := 1024 }).core 0).cyc.toNat / 1024 ≠ (s.core 0).refills ∧
    s.fabClock / 1024 = s.fabRefills ∧ (s.encl 1).live = true ∧ (s.encl 1).resHeld = [] ∧ (s.encl 2).live = false := by decide +kernel

/-- 09 R205, 19 R351 to R359, 10 R230, 25 R406, 27 R434, R435, 21 R376, R384: what each write leaves. -/
theorem test_management :
    let s := farS []
    after (.mmtWrite 5 1) s (fun t => smGet 0 t.mmt 5) = some 1 ∧ after (.mmtWrite 0 1) s (fun t => smGet 0 t.mmt 0) = some 0 ∧
    after (.partitionRecordWrite 1 (partRec true 1)) s (fun t => ((t.part 1).ports, (t.classDef 1 0).isSome)) = some (1, true) ∧
    after (.virtualInterfaceWrite 1 0x8000000000000001 65536 true) s (fun t => ((t.vi 1).valid, t.viNamed)) = some (false, 1) ∧
    after (.frameAccountWrite 3 true 7) s (fun t => (t.acct 3).burst) = some 7 ∧
    after (.coreTokensWrite 2 4096) s (fun t => (t.die 2).coreTokens) = some 4096 ∧
    after (.coreTokensWrite 2 4097) s (fun t => (t.die 2).coreTokens) = some 1024 ∧ after (.fabTokensWrite 1) s (·.fabTokens) = some 1 ∧
    after (.pkgidWrite 9) s (·.pkgid) = some 9 ∧ after (.plimitWrite 799) s (·.plimit) = some 3200 ∧
    after (.managementWrite (.function 0) 0x50010 (some 0x800)) s (fun t => (t.die 2).coreTokens) = some 0x800 ∧
    after (.managementWrite (.function 0) 0x50008 none) s (·.outbox) = some [.mgmt 1024] := by decide +kernel

/-- 21 R376, R384, 19 R359, 10 R222: units change hands, a LOST packet follows dropped ones, a refill grants a share, and GET rises. -/
theorem test_management_units :
    let due := (farS []).modCore 0 fun c => { c with cyc := 1024, buckets := [⟨0, false, 0, 0, 1⟩] }
    after (.lamplightAcquisition 0 false true) (unitS (some (.enc 1)) id) (fun t => ((t.core 0).bank.holder, (t.core 0).bank.suspended)) =
      some (some .hyp, some 1) ∧
    after (.traceLost 0) (unitS (some (.enc 1)) fun u => { u with dropped := 3 }) (fun t =>
      (t.core 0).trace.queue.map fun p => ((p.getD 0 0).toNat / 2 ^ 59, (p.getD 3 0).toNat / 2 ^ 32)) = some [(9, 3)] ∧
    after (.tokenRefill 0) due (fun t => (t.core 0).buckets.map Bucket.level) = some [1024] ∧
    after .fabricTokenRefill (farS []) (·.fabRefills) = some 0 ∧
    after (.pagerGetAdvance 1) ((farS []).modEnc 1 fun e => { e with ecs := 0x50000 }) (fun t => memByte t.mem 0x51008) = some 1 := by
  decide +kernel

/-- PackageEvents: counts before and at the fourth error, frames of each state, a port and a link, and an SPDM session at each step. -/
theorem test_meets_PackageEvents :
    let s := farS []
    let at3 (u : UnitKind) (ix : Nat) : State := { s with errs := smSet (0, 0) s.errs (errKey u ix) (s.errWindow u ix, 3) }
    let ready : State := s.setSpdm 0 { version := true, caps := true, algs := true, sessions := [(4, false)] }
    s.errCount .pane 5 + 1 ≠ 4 ∧ (at3 .pane 5).errCount .pane 5 + 1 = 4 ∧ s.retired = [] ∧
    (s.potSettled 20).stat = 0 ∧ (s.potSettled 17).stat = 3 ∧ s.framePart 17 = some 0 ∧ s.framePart 20 = none ∧
    ((s.setPot 20 { stat := 6 }).potSettled 20).stat = 6 ∧ ((s.setPot 20 { owner := 1, stat := 7 }).potSettled 20).stat = 7 ∧
    (s.portPart 0) = none ∧ ((s.modPart 0 fun p => { p with ports := 1 }).portPart 0) = some 0 ∧ s.portUp 0 = true ∧ s.pkgid < 1536 ∧
    smGet 0 s.linkRetry 0 + 1 < 16 ∧ 16 ≤ smGet 0 ({ s with linkRetry := [(0, 15)] } : State).linkRetry 0 + 1 ∧
    (s.spdmOf 0).version = false ∧ (ready.spdmOf 0).ready = true ∧ (4, false) ∈ (ready.spdmOf 0).sessions ∧
    (s.spdmMeas 0 6 1).isNone = true ∧ s.boxSees 1 1 = true ∧ s.boxSees 2 1 = false := by decide +kernel

/-- 17 R328, R330, 25 R404, 27 R433, R435, R436: the fourth error retires, a poisoned commons line, a partition reset, a link's retry, a
trip, a boot that stops, and the recovery mailbox. -/
theorem test_package :
    let s := farS []
    let at3 : State := { s with errs := smSet (0, 0) s.errs (errKey .pane 5) (s.errWindow .pane 5, 3) }
    after (.correctableError .pane 5 none) at3 (fun t => (t.retired, t.errlog.length)) = some ([(1, 5)], 1) ∧
    after (.correctableError .pane 5 none) s (fun t => (t.errCount .pane 5, t.retired)) = some (1, []) ∧
    after (.errorWindowBoundary .pane 5) at3 (fun t => t.errCount .pane 5) = some 3 ∧
    after (.uncorrectableError (.memLine 0x500)) s (·.withheld) = some [20] ∧
    after (.uncorrectableError (.memLine 0x500)) (s.setPot 20 { stat := 6 }) (·.poison) = some [0x500] ∧
    after (.uncorrectableError (.memLine 0x440)) s (fun t => smFind t.encs 1) = some none ∧
    after (.dieToDieFlit 0 false 1) s (·.linkRetry) = some [(0, 1)] ∧ after (.tuilosFlit 0 true) s (·.errlog) = some [] ∧
    after (.throttling 5 95) s (·.thr) = some true ∧ after (.thermalTrip 4 105) s (fun t => (t.trip, t.encs)) = some (true, []) ∧
    after (.thermalTrip 0 104) s (fun t => t.trip) = some false ∧ after (.throttling 5 105) s (fun t => (t.trip, t.encs)) = some (true, []) ∧
    after (.powerOn [(true, true), (true, false)] true [3]) s (fun t => (t.running, t.boot)) = some (false, 1) ∧
    after (.powerOn (List.replicate 5 (true, true)) true [3]) s (fun t => (t.running, (t.potOf 3).stat)) = some (true, 7) ∧
    after (.recoveryMailboxRequest []) { s with running := false } (fun t => t.outbox) = some [.mailbox] := by decide +kernel

/-- 18 R340: a negotiation in order, and a request out of order. -/
theorem test_attestation :
    let v := ran (execGetVersion 0 []) (farS [])
    let c := ran (execGetCapabilities 0 []) v
    after (.getVersion 0 []) (farS []) (fun t => (t.spdmOf 0).version) = some true ∧
    after (.getCapabilities 0 []) v (fun t => (t.spdmOf 0).caps) = some true ∧
    after (.negotiateAlgorithms 0 []) c (fun t => (t.spdmOf 0).algs) = some true ∧
    after (.getDigests 0 []) c (·.outbox.getLast?) = some (some (.spdm 0 0x7F [])) ∧
    after (.getCertificate 0 []) c (·.outbox.getLast?) = some (some (.spdm 0 0x7F [])) ∧
    after (.challenge 0 []) c (·.outbox.getLast?) = some (some (.spdm 0 0x7F [])) ∧
    after (.getMeasurements 0 1 1 []) c (·.outbox.getLast?) = some (some (.spdm 0 0x7F [])) ∧
    after (.keyExchange 0 4 []) (ran (execNegotiateAlgorithms 0 []) c) (fun t => (t.spdmOf 0).sessions) = some [(4, false)] ∧
    after (.finish 0 4 true) (ran (execKeyExchange 0 4 []) (ran (execNegotiateAlgorithms 0 []) c)) (fun t => (t.spdmOf 0).sessions) =
      some [(4, true)] := by decide +kernel

/-- The fabric machine whose window takes puts, gets and host DMA over stream 2, bound to a peer, with a TDI that may use it. -/
def streamS (bound : Bool) : State :=
  let d := desc 0x801000 0x1000 (localFlags + 19 + 2 * 2 ^ 8) 0
  let st : Stream := { peerPkg := 3, peerEnc := 4, meas := 0, bound := bound, started := 0, failed := false, session := 0, peerCreate := 0,
                       sent := 0, accepted := [], discards := 0, broken := false, own := 1, ownCreate := (placed.encl 1).create,
                       inbox := [(4, [7]), (6, [])] }
  { (placed.modEnc 1 fun e => { e with streams := [(2, st)] }) with
    fwins := [{ wid := 0, enc := 1, gid := 1, core := 0, desc := d, stat := .opened, rows := List.range 32 }]
    tdis := [(0, ⟨true, true, 1, some 6, 0⟩)] }
/-- The fabric machine with a put of one byte that has left, under tag 9. -/
def putting : State :=
  let s := ran (execWPut 5 6 7 9) (fabbed localFlags 0 [(5, 0x40), (6, 0x801FFF), (7, 0x10000000000)])
  { s.modEnc 1 fun e => { e with streams := ((streamS true).encl 1).streams } with
    xfers := s.xfers.map fun x => { x with port := 0, slot := 2 } }

/-- FabricEvents: streams that are absent, unbound and bound, flits in and out of their window, a window that admits and refuses, a
transfer at home and away, a collective with members, a post in flight, and frames of the host and of an enclave. -/
theorem test_meets_FabricEvents :
    let s := streamS true
    let w := s.fwins.head?
    let st := smFind (s.encl 1).streams 2
    st.map Stream.bound = some true ∧ (smFind (s.encl 1).streams 3).isNone = true ∧ s.fabClock < 0 + 2 ^ 31 ∧
    (smFind ((streamS false).encl 1).streams 2).map Stream.bound = some false ∧
    (s.hears 1 2 [7]).isSome = true ∧ (s.hears 1 2 []).isSome = true ∧ (s.hears 1 2 [8]).isNone = true ∧ s.dead = [] ∧ s.pkgid < 1536 ∧
    st.map Stream.own = some 1 ∧ (s.hearsOwn 1 2 none []).isSome = true ∧
    (w.map fun w => decide (w.stat = .opened ∧ w.enc = 1 ∧ (s.encl 1).create = ((st.map Stream.ownCreate).getD 0))) = some true ∧
    (putting.xfers.map fun x => (putting.hearsOwn x.enc x.slot x.ghost []).isSome) = [true] ∧
    s.waitingOn 1 2 = [] ∧ (w.map fun w => (w.puts, w.gets, w.dma)) = some (true, true, true) ∧
    (w.map fun w => (descStreamed w.desc, descStream w.desc, descLocal w.desc, w.ext)) = some (true, 2, true, 0x1000) ∧
    (w.map fun w => s.linesHeld (s.winLines w 0xFFF 1) .remote) = some false ∧ 0xFFF + 1 ≤ 0x1000 ∧ s.fwin 1 = none ∧
    (putting.xfers.map fun x => (x.port, x.get, x.tag)) = [(0, false, 9)] ∧
    ((collS []).findGroup 3).isSome = true ∧ ((collS []).findGroup 4).isNone = true ∧
    (smGet {} (((ran (execUePost 5 6 7) (ueS 0 [(6, 0x800000), (7, 2)])).encl 1).ue) 2).flight.length = 1 ∧
    (s.tdis.map fun x => (x.2.run, x.2.stream)) = [(true, some 6)] ∧
    ((hartS [] 1).potOf 0x40).owner = 0 ∧ ((hartS [] 1).potOf 0x40).stat = 1 ∧ inMemory 0x40000 = true ∧
    (hartS [] 1).linesHeld [(0xFF, 0x40000)] .host = false ∧ ((hartS [] 1).potOf 0x11).owner ≠ 0 := by decide +kernel

/-- Flits that their keys open, of a stream and of an Ultra Ethernet peer; a stream accepts one once. -/
theorem test_meets_FabricEvents_flits (st : Stream) :
    openFlit (st.keyIn 2) 2 (sealFlit (st.keyIn 2) 2 5 [7]) = some [7] ∧ openFlit (st.keyIn 2) 2 ⟨5, [], []⟩ = none ∧
    (ueS 0 []).ueOpen 1 5 (sealFlit ((ueS 0 []).ueKey 1 5 false) 0 0 [7]) = some [7] ∧
    (st.accepted = [] → (st.receive 2 (sealFlit (st.keyIn 2) 2 5 [7])).inbox = st.inbox ++ [(5, [7])]) :=
  ⟨openFlit_sealFlit .., openFlit_badTag _ _ _ (by decide), openFlit_sealFlit ..,
    fun h => (receive_open st 2 _ [7] (by simp [h]) (by simp [h]) (openFlit_sealFlit ..)).1⟩

/-- 25 R407 to R421: one event of each kind. -/
theorem test_fabric_events :
    let s := streamS true
    let wt (t : State) := (t.fwin 0).map fun w => (w.flight, w.tcnt)
    after (.putArrival 0 0xFFF 1 2 [7]) s wt = some (some ([1], 0)) ∧ after (.putArrival 0 0x1000 1 2 [7]) s wt = some (some ([], 0)) ∧
    after (.tcntIncrement 0) (ran (execPutArrival 0 0xFFF 1 2 [7]) s) wt = some (some ([], 1)) ∧
    after (.getArrival 0 0 8 1 2) s (fun t => t.outbox.length) = some 1 ∧
    after (.streamFlitReceive 1 2 ⟨5, [], []⟩) s (fun t => (smFind (t.encl 1).streams 2).map Stream.discards) = some (some 1) ∧
    after (.transferAcknowledgement (putting.xfers.map Xfer.seq).sum true []) putting (fun t => (t.xfers.length, t.tags, t.g.p.cp)) =
      some (0, 0x200, 0) := by decide +kernel

/-- 25 R407, R411, R413, R421: host DMA, bindings that succeed and fail, and the end of a window. -/
theorem test_fabric_bindings :
    let s := streamS true
    let wt (t : State) := (t.fwin 0).map fun w => (w.flight, w.tcnt)
    after (.hostDma 6 0 0 true [7]) s wt = some (some ([0], 0)) ∧ after (.hostDma 5 0 0 true [7]) s (·.hostLog) = some [(2, 5)] ∧
    after (.hostDma 6 0 0 false []) s (·.hostLog) = some [(2, 6)] ∧
    after (.streamBinding 1 2 true true 0 true 8 9) (streamS false) (fun t => (smFind (t.encl 1).streams 2).map Stream.session) = some (some 8) ∧
    after (.streamBinding 1 2 true false 0 true 8 9) (streamS false) (fun t => (smFind (t.encl 1).streams 2).isSome) = some false ∧
    after (.streamBinding 1 2 true true 1 true 8 9) (streamS false) (fun t => (smFind (t.encl 1).streams 2).isSome) = some false ∧
    after (.streamBindingTimeout 1 2) (streamS false) (fun t => (t.encl 1).streams.length) = some 1 ∧
    after (.closeNotice 1 2 0) s (fun t => t.outbox.length) = some 1 ∧ after (.closeAcknowledgement 0) s (fun t => t.fwins.length) = some 1 ∧
    after (.closeAcknowledgement 0) { s with fwins := s.fwins.map fun w => { w with stat := .closing, noticed := true } }
      (fun t => t.fwins.length) = some 0 := by decide +kernel

/-- What the other member of two brings to a broadcast of 64 bytes, or to another operation. -/
def part64 (bcast : Bool) : PeerPart := ⟨1, bcast, 64, 0, 0, List.replicate 64 0⟩
/-- 25 R414 to R417, R422: members and results of a collective, and the group's attestation. -/
theorem test_fabric_events_rest :
    let one := ran (execCollBc 5 6 7) (collS [(6, 0x801000), (7, 64)])
    after (.collectiveMemberGone 3 1) one (fun t => t.cgroups.map CGroup.ended) = some [[(0, 3)]] ∧
    after (.collectiveResult 3 0 0 []) one (fun t => t.cgroups.map CGroup.ended) = some [[]] ∧
    after (.collectiveResult 3 0 0 [part64 true]) one (fun t => t.cgroups.map CGroup.ended) = some [[(0, 1)]] ∧
    after (.collectiveResult 3 0 0 [part64 false]) one (fun t => t.cgroups.map CGroup.ended) = some [[(0, 4)]] ∧
    after (.collectiveResult 3 0 5 []) one (fun t => t.cgroups.map CGroup.ended) = some [[(0, 5)]] ∧
    after (.switchEngineAttestation 3 0 2 (some false)) (collS []) (fun t => t.cgroups.map CGroup.attested) = some [none] ∧
    after (.switchEngineAttestation 4 0 2 none) (collS []) (fun t => t.cgroups.length) = some 2 := by decide +kernel

/-- 25 R418 to R421: Ultra Ethernet, the host link and TDIs. -/
theorem test_host_events :
    after (.uePacket 0 0 5 ⟨none, true, ⟨0, [], []⟩⟩) (ueS 0 []) (fun t => ((t.fwin 0).map FWin.flight, t.outbox)) = some (some [], []) ∧
    after (.uePacket 1 0 5 ⟨none, true, ⟨0, [], []⟩⟩) (ueS 0 []) (·.outbox) = some [.ueRefused 1] ∧
    after (.ueCompletion 1 2 0 3 []) (ran (execUePost 5 6 7) (ueS 0 [(6, 0x800000), (7, 2)]))
      (fun t => (smGet {} (t.encl 1).ue 2).done) = some [(0, 3)] ∧
    after (.cxlMemAccess true 0x40000 [5]) (hartS [] 1) (fun t => memByte t.mem 0x40000) = some 5 ∧
    after (.cxlMemAccess true 0x11000 [5]) (hartS [] 1) (fun t => (memByte t.mem 0x11000, t.hostLog)) = some (0, [(1, 0x11000)]) ∧
    after (.tdispRequest .stop 0 1 0) (streamS true) (fun t => t.tdis) = some [(0, ⟨false, false, 0, none, 0⟩)] ∧
    after (.tdispRequest .lock 0 1 0) placed (fun t => t.tdis) = some [(0, ⟨false, true, 0, none, 0⟩)] := by decide +kernel

/-- The placed machine after its clause's header has been held. -/
def dueS (c : Cls) (w : W32) : State := (State.reset.placeWord c w).modG fun g => g.modP fun p => { p with hdr := some (oneWordHeader c) }

/-- StepRunsDecoded: a word that is due, in a scalar and a memory class, a header that is held and one that is fetched, a misaligned
header, a 25th word, a clause that is over, a hart's word, and an event on the agenda. -/
theorem test_meets_StepRunsDecoded :
    let s := dueS .sv 0x3E000000#32
    WordDue s ((decodeHeader (oneWordHeader .sv)).getD ⟨.sv, 0, false, false, 0, 0, 0, 0, 0⟩) 0x3E000000#32 ∧
    s.farCheck s.g s.wordAddr.toNat 4 .fetch none = .ok (addrs 0x10004 4) true ∧ s.portCount 0 1 true [0x10004] = 0 ∧
    placed.g.p.hdr = none ∧ placed.g.p.pc.toNat % 4 = 0 ∧ placed.fetchWord placed.g 0x10000 = .word (oneWordHeader .sv) := by
  refine ⟨⟨by decide +kernel, by decide +kernel, ⟨0, 0, by decide +kernel⟩, by decide +kernel, by decide +kernel, by decide +kernel,
    by decide +kernel, by decide +kernel, by decide +kernel, by decide +kernel, by decide +kernel⟩, by decide +kernel, by decide +kernel,
    by decide +kernel, by decide +kernel, by decide +kernel⟩

/-- 01 R15 to R23: the first step of the placed machine issues its word; a word that decodes to nothing halts the group; a hart's Xlmenc
word runs. -/
theorem test_step :
    let go (s : State) : State := ran step s
    (go placed).g.p.pc = 0x10008 ∧ (go (State.reset.placeWord .sv 0x80000038#32)).g.stat = .halted ∧
    (go (State.reset.placeWord .sv ((encode (.sLi 5 7)).getD 0))).g.sr 5 = 7 ∧
    ((go (State.reset.placeWord .xlm ((encode (.encKill 1 5)).getD 0))).hart 0).getX 5 = 4 ∧
    (go (dueS .sv 0x80000038#32)).g.stat = .halted := by decide +kernel

/-- EncodeDecode: an instruction with a word of its own whose operands lie in their sets. -/
theorem test_meets_EncodeDecode : (Instr.sFcvt 5 6 3 6 0 1).ownWord = true ∧ (Instr.sFcvt 5 6 3 6 0 1).wellFormed = true :=
  by decide +kernel

/-- StepKeepsCanonical: the placed machine is canonical and steps. -/
theorem test_meets_StepKeepsCanonical : Canonical placed ∧ ∃ t, step placed = .next t := by
  refine ⟨⟨by decide +kernel, by decide +kernel, by decide +kernel, ?_, by decide +kernel, by decide +kernel⟩, ran step placed, ?_⟩
  · intro i g h
    have hs : placed.groups = [] := by decide +kernel
    have hg : placed.g.gid = 1 := by decide +kernel
    unfold State.group at h
    rw [hg, hs] at h
    split at h
    · rename_i e
      rw [if_neg (by omega)] at h
      cases h
      rw [hg]
      exact e
    · simp [smFind] at h
  · have : (match step placed with | .next _ => true | _ => false) = true := by decide +kernel
    unfold ran
    split <;> simp_all

/-! ### Witnesses for the clauses about later blocks, windows, replay, walks of copies and poisoned lines -/

/-- WindowSlides: the second of two spill blocks leaves the allocation, and the second of two fill blocks lies below it. -/
theorem test_meets_WindowSlides_later :
    let s := placed.modG fun g => { g with wsp := 0x80F3C0, wsl := 0x811000, wpos := 24 }
    let f := placed.modG fun g => { g with wsp := 0x800C40, wsl := 0x801000, wlow := 16, wpos := 0 }
    (s.spills 1).2 = none ∧ 1 < s.g.spillCount 8 ∧ s.g.wsp.toNat + s.g.spillCount 8 * 3136 ≤ s.g.wsl.toNat ∧
    (s.slideUp 8).2 = some (.windowBounds, 0x810000) ∧ (s.slideUp 8).1.g.wlow = 0 ∧
    (f.fills 1).2 = none ∧ 1 < (f.g.wlow - 0 + 7) / 8 ∧ (f.slideTo 0).2 = some (.windowBounds, 0x7FF3C0) := by decide +kernel

/-- FullEmptyForms, LocalStores, FarStoresIssue: window stores before an F/E write whose rows are present and sealed out, a word's data
before and after it has come, and a recorded group, whose stores count. -/
theorem test_meets_FullEmptyForms_windows :
    let busy := busyWindow.modG fun g => { g with winStores := [{ seq := 1, pathF := false, parts := [⟨0, 0, 1, [(0, 1)], [0]⟩] }] }
    let out := busy.modTeam 1 fun t => { t with lost := [(0, busy.g.rowIx 0)] }
    let recd := placed.modTask 1 fun k => { k with replay := 1 }
    passes (windowed 1) 0 4 4 true = true ∧ (windowed 1).g.winRet = none ∧
    ((windowed 1).modG fun g => { g with winRet := some ([(0, 0)], true) }).g.winRet = some ([(0, 0)], true) ∧
    busy.sealedBefore 0 = none ∧ out.sealedBefore 0 = some ⟨0, 0, 1, [(0, 1)], [0]⟩ ∧
    recd.replayMode recd.g = 1 ∧ (recd.countStore []).2 = none := by decide +kernel

/-- 12 R268, 11 R247: an F/E write through a window follows the store before it, and parks while that one's rows are sealed out. -/
theorem test_full_empty_window :
    let busy := busyWindow.modG fun g => { g.setS 6 0 with
      winStores := [{ seq := 1, pathF := false, parts := [⟨0, 0, 1, [(0, 1)], [0]⟩] }] }
    let out := busy.modTeam 1 fun t => { t with lost := [(0, busy.g.rowIx 0)] }
    after (.lStfForce 5 6 0 0) busy (fun t => (memByte (t.core 0).pool 0x8000, t.g.winStores.length, t.g.p.rst - busy.g.p.rst)) =
      some (1, 2, 1) ∧
    after (.lStfForce 5 6 0 0) out (fun t => t.g.stat) = some .parked := by decide +kernel

/-- CopiesIssue, EngineAndLanternEvents: a fill whose record has a SCALE, a copy of far memory whose page has not been translated, and
window stores admitted before a lock. -/
theorem test_meets_copies :
    let x := { recAt copying 0x800000 with scale := 1 }
    x.scale ≠ 0 ∧ (recAt copying 0x800000).scale = 0 ∧
    (busyWindow.allGroups.any fun g => g.winStores.any fun w => w.parts.any fun p => p.core = 0) = true ∧
    (busyWindow.clearWay 0 [⟨false, 1, [(0, 128)], true, 1⟩]).g.winStores.map WinStore.parts = [[]] ∧
    (placed.allGroups.all fun g => g.winStores.isEmpty) = true := by
  decide +kernel

/-- ChandlerStages, EnclaveWords: a kicked record in a poisoned line, a walk that reads one, acknowledgements that are and are not
complete. -/
theorem test_meets_poisoned :
    let k := kickedS 1 0x11000
    k.kickedPoisoned 1 0 0x11000 = false ∧ ({ k with poison := [0x440] } : State).kickedPoisoned 1 0 0x11000 = true ∧
    (insideS []).walkPoisoned 1 0x41000 = false ∧ ({ insideS [] with poison := [0x70 * 64] } : State).walkPoisoned 1 0x41000 = true ∧
    (farS []).invalIdle = true ∧ ((farS []).modDie 2 fun d => { d with inval := some (.asid 0) }).invalIdle = false ∧
    ({ k with poison := [0x440] } : State).poisoned 0x11000 4096 = true := by decide +kernel

/-- MemoryEvents: a core whose 256 requests are in flight, one whose refill is due, and an interface without a token. -/
theorem test_meets_MemoryEvents_full :
    let full := loading.modG fun g => { g with reqs := g.reqs.map fun q => { q with port := 6, sent := 256 } }
    256 ≤ full.inFlight 0 ∧ (full.answerOne 0).isSome = true ∧ (full.core 0).hasToken 0 = true ∧ (full.core 0).refillDue = false ∧
    (full.modCore 0 fun c => { c with cyc := 1024 }).inFlight 0 = full.inFlight 0 ∧
    ((full.modCore 0 fun c => { c with cyc := 1024 }).core 0).refillDue = true ∧
    ((full.modCore 0 fun c => { c with buckets := [] }).core 0).hasToken 0 = false ∧ loading.g.stat ≠ .halted := by decide +kernel

end Sys2Proof.Tests
end

section
/-! PROOFS. The state after reset: what each accessor answers in it, and O56. -/

namespace Sys2Proof.Machine

/-! ### What the accessors answer in the reset state: no map but that of the harts lists an entry -/

@[simp] theorem reset_core (c : Nat) : State.reset.core c = {} := rfl
@[simp] theorem reset_die (d : Nat) : State.reset.die d = {} := rfl
@[simp] theorem reset_encl (e : Nat) : State.reset.encl e = {} := rfl
@[simp] theorem reset_part (p : Nat) : State.reset.part p = {} := rfl
@[simp] theorem reset_vi (v : Nat) : State.reset.vi v = {} := rfl
@[simp] theorem reset_potOf (f : Nat) : State.reset.potOf f = {} := rfl
@[simp] theorem reset_memByte (a : Nat) : memByte State.reset.mem a = 0 := rfl
@[simp] theorem reset_allGroups : State.reset.allGroups = [] := rfl

/-- 27 R433: of the harts, 0 alone is listed. -/
theorem reset_hart (h : Nat) :
    State.reset.hart h = if h = 0 then { released := true, mode := .m, pc := Config.hubResetVector } else {} := rfl

/-- No class is listed, and class 0 of a partition needs the partition VALID (09 R196; 19 R351). -/
@[simp] theorem reset_classDef (p c : Nat) : State.reset.classDef p c = none := by
  have hlisted : smFind State.reset.classes (p * 64 + c) = none := rfl
  simp [State.classDef, hlisted]

theorem reset_hart_released (h : Nat) : (State.reset.hart h).released = decide (h = 0) := by
  by_cases h0 : h = 0 <;> simp [reset_hart, h0]

end Sys2Proof.Machine

namespace Sys2Proof.Proofs

open Sys2Proof Sys2Proof.Machine

/-- Settles O56, from what each accessor answers in the reset state; a field that no accessor stands before holds its default. -/
theorem resetState : Obligations.ResetState := by
  unfold Obligations.ResetState
  refine ⟨rfl, rfl, rfl, rfl, reset_memByte, ?pools, ?frames, smGet_nil 0, rfl, reset_classDef, ?enclaves, reset_allGroups,
    rfl, rfl, rfl, rfl, ?cores, ?dies, rfl, ?partitions, ?interfaces, rfl, rfl, rfl, rfl, rfl, rfl, rfl, rfl, rfl,
    reset_hart_released, ?mode, ?pc⟩
  case pools => exact fun c a => by rw [reset_core]; exact smGet_nil 0 a
  case frames => exact fun f => by simp
  case enclaves => exact fun e => by simp
  case cores => exact fun c => by simp
  case dies => exact fun d => by simp
  case partitions => exact fun p => by simp
  case interfaces => exact fun v => by simp
  case mode => simp [reset_hart]
  case pc => simp [reset_hart]

end Sys2Proof.Proofs
end

section
/-! PROOFS. Sample words and the decoder, O57. -/

namespace Sys2Proof.Proofs

open Sys2Proof Sys2Proof.Machine

/-- Settles O57: each word is decoded by running the decoder on it. -/
theorem decodeWords : Obligations.DecodeWords := by
  unfold Obligations.DecodeWords
  refine ⟨?sLi, ?sFcvt, ?sFma, ?loop, ?vCmp, ?vFma, ?lLdsN, ?aCasD, ?wait, ?mmRdScale, ?collAr, ?ctrRd, ?encRep, ?noScalar, ?noSync⟩ <;>
    rfl

end Sys2Proof.Proofs
end

section
/-! PROOFS. The canonical form of the state (27 R433 step 6; 05 R138): sparse maps keep it under filters and maps, the list of groups, what
changes the four fields it speaks of, and how it passes through outcomes, options and folds. -/

namespace Sys2Proof.Machine

/-! ### Sparse maps: filtering and mapping keep the canonical form -/

theorem smWfFrom_filter {α : Type} [DecidableEq α] (d : α) (p : Nat × α → Bool) (m : SMap α) :
    ∀ b, smWfFrom d b m = true → smWfFrom d b (m.filter p) = true := by
  induction m with
  | nil => exact fun _ h => h
  | cons e m ih =>
    obtain ⟨k, v⟩ := e
    intro b h
    simp only [smWfFrom, Bool.and_eq_true, decide_eq_true_eq] at h
    obtain ⟨hk, hm⟩ := h
    rw [List.filter_cons]
    split
    · simp only [smWfFrom, Bool.and_eq_true, decide_eq_true_eq]
      exact ⟨hk, ih _ hm⟩
    · exact smWfFrom_mono d (by omega) (ih _ hm)

theorem smWf_filter {α : Type} [DecidableEq α] (d : α) (p : Nat × α → Bool) {m : SMap α} (h : smWf d m = true) :
    smWf d (m.filter p) = true := smWfFrom_filter d p m 0 h

theorem smWfFrom_smMap {α : Type} [DecidableEq α] (d : α) (f : Nat → α → α) (m : SMap α) :
    ∀ b, smWfFrom d b m = true → smWfFrom d b (smMap d f m) = true := by
  induction m with
  | nil => exact fun _ h => h
  | cons e m ih =>
    obtain ⟨k, v⟩ := e
    intro b h
    simp only [smWfFrom, Bool.and_eq_true, decide_eq_true_eq] at h
    obtain ⟨hk, hm⟩ := h
    have htail := ih _ hm
    unfold smMap at htail ⊢
    rw [List.map_cons, List.filter_cons]
    split
    · next hv =>
      simp only [smWfFrom, Bool.and_eq_true, decide_eq_true_eq]
      exact ⟨⟨hk.1, by simpa using hv⟩, htail⟩
    · exact smWfFrom_mono d (by omega) htail

theorem smWf_smMap {α : Type} [DecidableEq α] (d : α) (f : Nat → α → α) {m : SMap α} (h : smWf d m = true) :
    smWf d (smMap d f m) = true := smWfFrom_smMap d f m 0 h

theorem smIns_perm {α : Type} (n : Nat) (v : α) (m : SMap α) : (smIns n v m).Perm ((n, v) :: m) := by
  induction m with
  | nil => exact .refl _
  | cons e m ih =>
    obtain ⟨k, w⟩ := e
    rw [smIns]
    split
    · exact .refl _
    · exact (ih.cons _).trans (.swap _ _ _)

theorem smErase_sublist {α : Type} (m : SMap α) (n : Nat) : (smErase m n).Sublist m := by
  induction m with
  | nil => exact .refl _
  | cons e m ih =>
    obtain ⟨k, v⟩ := e
    rw [smErase]
    split
    · exact ih.cons _
    · exact ih.cons_cons _

/-! ### The list of groups -/

/-- What `GroupsNamed` asks of the list of groups: each stands under its number, once. -/
def GroupsListed (m : SMap Group) : Prop := (∀ x ∈ m, x.2.gid = x.1) ∧ (m.map (·.1)).Nodup

theorem GroupsListed.erase {m : SMap Group} (h : GroupsListed m) {n : Nat} : GroupsListed (smErase m n) :=
  ⟨fun x hx => h.1 x ((smErase_sublist m n).subset hx), h.2.sublist ((smErase_sublist m n).map _)⟩

theorem GroupsListed.put {m : SMap Group} (h : GroupsListed m) {n : Nat} {g : Group} (hg : g.gid = n) :
    GroupsListed (smPut m n g) := by
  have hp := smIns_perm n g (smErase m n)
  refine ⟨fun x hx => ?_, (hp.map _).nodup_iff.2 (List.nodup_cons.2 ⟨fun hn => ?_, h.erase.2⟩)⟩
  · rcases List.mem_cons.1 (hp.subset hx) with rfl | hx
    · exact hg
    · exact h.erase.1 x hx
  · obtain ⟨x, hx, hn⟩ := List.mem_map.1 hn
    exact smErase_keys m n x hx hn

theorem GroupsListed.map {m : SMap Group} (h : GroupsListed m) {f : Nat × Group → Nat × Group}
    (hf : ∀ x, (f x).1 = x.1 ∧ (f x).2.gid = x.2.gid) : GroupsListed (m.map f) := by
  refine ⟨fun x hx => ?_, ?_⟩
  · obtain ⟨y, hy, rfl⟩ := List.mem_map.1 hx
    rw [(hf y).1, (hf y).2, h.1 y hy]
  · have keys : (m.map f).map (·.1) = m.map (·.1) := by
      rw [List.map_map]
      exact List.map_congr_left fun x _ => (hf x).1
    rw [keys]
    exact h.2

theorem mem_of_smFind {α : Type} {m : SMap α} {n : Nat} {v : α} (h : smFind m n = some v) : (n, v) ∈ m := by
  induction m with
  | nil => simp at h
  | cons e m ih =>
    obtain ⟨k, w⟩ := e
    by_cases hk : n = k
    · subst hk
      simp only [smFind, if_true, Option.some.injEq] at h
      simp [h]
    · simp only [smFind, if_neg hk] at h
      exact List.mem_cons_of_mem _ (ih h)

/-- The focused group is found under its own number whatever it is, so only the list of the others matters. -/
theorem groupsNamed_iff (s : State) : GroupsNamed s ↔ GroupsListed s.groups := by
  refine ⟨fun h => h.2, fun h => ⟨fun i g hg => ?_, h.1, h.2⟩⟩
  unfold State.group at hg
  split at hg
  · next hi =>
    split at hg
    · cases hg
    · cases hg; exact hi
  · exact h.1 _ (mem_of_smFind hg)

/-! ### What the canonical form speaks of -/

/-- The canonical form is a matter of four fields. -/
theorem canonical_of_fields {s : State} (hm : Memory.wf s.mem = true) (hc : smWf {} s.cores = true) (hh : smWf {} s.harts = true)
    (hg : GroupsListed s.groups) : Canonical s := ⟨hm, hc, hh, (groupsNamed_iff s).2 hg⟩

theorem Canonical.listed {s : State} (h : Canonical s) : GroupsListed s.groups := (groupsNamed_iff s).1 h.groups

/-- A change of the other fields keeps it, whichever of them change. -/
theorem Canonical.same {s : State}
    {g focus turn hartLast hartAt agenda held fresh outbox seq dies bufs pot mmt chans classes lines poison
    withheld migr tasks teams encs creation keys viNamed parts vis accts fabTokens fabBuckets fabCyc fabRefills pkgid pkgidSet plimit pnow
    tmax trip thr hubCyc sconceCyc errlog errTotal hostLog errs retired linkRetry fwins dead xfers cgroups tdis spdm boot running fw}
    (h : Canonical s) : Canonical { s with
      g, focus, turn, hartLast, hartAt, agenda, held, fresh, outbox, seq, dies, bufs, pot, mmt, chans, classes, lines, poison,
      withheld, migr, tasks, teams, encs, creation, keys, viNamed, parts, vis, accts, fabTokens, fabBuckets, fabCyc, fabRefills, pkgid,
      pkgidSet, plimit, pnow, tmax, trip, thr, hubCyc, sconceCyc, errlog, errTotal, hostLog, errs, retired, linkRetry, fwins, dead,
      xfers, cgroups, tdis, spdm, boot, running, fw } :=
  canonical_of_fields h.memory h.cores h.harts h.listed

/-- The list of the other groups changed. -/
theorem Canonical.regroups {s t : State} (h : Canonical s) (hg : GroupsListed t.groups) (hm : t.mem = s.mem := by rfl)
    (hc : t.cores = s.cores := by rfl) (hh : t.harts = s.harts := by rfl) : Canonical t :=
  canonical_of_fields (hm ▸ h.memory) (hc ▸ h.cores) (hh ▸ h.harts) hg

/-- An outcome that is a next state is a canonical one. -/
def Lands (o : Out) : Prop := ∀ t, o = .next t → Canonical t
/-- What a partial operation answers is canonical. -/
def SomeCanonical (o : Option State) : Prop := ∀ t, o = some t → Canonical t
/-- Where there is an outcome, it lands. -/
def SomeLands (o : Option Out) : Prop := ∀ t, o = some t → Lands t

theorem Lands.next {s : State} (h : Canonical s) : Lands (.next s) := fun _ e => by cases e; exact h
theorem Lands.fault (f : Fault) : Lands (.fault f) := fun _ e => nomatch e
theorem Lands.refused (r : Refusal) : Lands (.refused r) := fun _ e => nomatch e

theorem SomeCanonical.some {s : State} (h : Canonical s) : SomeCanonical (some s) := fun _ e => by cases e; exact h
theorem SomeCanonical.none : SomeCanonical none := fun _ e => nomatch e
theorem SomeLands.some {o : Out} (h : Lands o) : SomeLands (some o) := fun _ e => by cases e; exact h
theorem SomeLands.none : SomeLands none := fun _ e => nomatch e

/-! ### Pairs, options and folds -/

theorem Canonical.ofFst {α : Type} {p : State × α} {t : State} {a : α} (e : p = (t, a)) (h : Canonical p.1) : Canonical t := by
  subst e; exact h
theorem Canonical.ofSnd {α : Type} {p : α × State} {t : State} {a : α} (e : p = (a, t)) (h : Canonical p.2) : Canonical t := by
  subst e; exact h
theorem Canonical.fst {α : Type} {t : State} {a : α} (h : Canonical t) : Canonical (t, a).1 := h
theorem Canonical.snd {α : Type} {t : State} {a : α} (h : Canonical t) : Canonical (a, t).2 := h
theorem Canonical.ofSome {o : Option State} {t : State} (e : o = Option.some t) (h : SomeCanonical o) : Canonical t := h t e
theorem Lands.ofSome {o : Option Out} {t : Out} (e : o = Option.some t) (h : SomeLands o) : Lands t := h t e

theorem Canonical.getD {o : Option State} {s : State} (ho : SomeCanonical o) (h : Canonical s) : Canonical (o.getD s) := by
  cases e : o with
  | none => exact h
  | some t => exact ho t e
theorem Lands.getD {o : Option Out} {d : Out} (ho : SomeLands o) (h : Lands d) : Lands (o.getD d) := by
  cases e : o with
  | none => exact h
  | some t => exact ho t e
theorem SomeCanonical.map {α : Type} {o : Option α} {f : α → State} (h : ∀ a, Canonical (f a)) : SomeCanonical (o.map f) := by
  cases o with
  | none => exact .none
  | some a => exact .some (h a)
theorem SomeCanonical.bind {α : Type} {o : Option α} {f : α → Option State} (h : ∀ a, SomeCanonical (f a)) : SomeCanonical
    (o.bind f) := by
  cases o with
  | none => exact .none
  | some a => exact h a
theorem SomeCanonical.findSome {α : Type} {f : α → Option State} (h : ∀ a, SomeCanonical (f a)) (l : List α) :
    SomeCanonical (l.findSome? f) := fun t e => by
  obtain ⟨a, _, ha⟩ := List.exists_of_findSome?_eq_some e
  exact h a t ha
theorem SomeLands.findSome {α : Type} {f : α → Option Out} (h : ∀ a, SomeLands (f a)) (l : List α) : SomeLands (l.findSome? f) :=
  fun t e => by
    obtain ⟨a, _, ha⟩ := List.exists_of_findSome?_eq_some e
    exact h a t ha
theorem SomeCanonical.mapState {o : Option State} {f : State → State} (hf : ∀ t, Canonical t → Canonical (f t))
    (h : SomeCanonical o) :
    SomeCanonical (o.map f) := by
  cases o with
  | none => exact .none
  | some a => exact .some (hf a (h a rfl))
theorem SomeLands.map {o : Option State} {f : State → Out} (hf : ∀ t, Canonical t → Lands (f t)) (h : SomeCanonical o) :
    SomeLands (o.map f) := by
  cases o with
  | none => exact .none
  | some a => exact .some (hf a (h a rfl))

theorem Canonical.foldl {α : Type} {f : State → α → State} (hf : ∀ s a, Canonical s → Canonical (f s a)) {l : List α} {s : State}
    (h : Canonical s) : Canonical (l.foldl f s) := by
  induction l generalizing s with
  | nil => exact h
  | cons a l ih => exact ih (hf s a h)
/-- A fold of steps of which each may fail. -/
theorem SomeCanonical.foldBind {α : Type} {f : State → α → Option State} (hf : ∀ s a, Canonical s → SomeCanonical (f s a))
    {l : List α}
    {o : Option State} (h : SomeCanonical o) : SomeCanonical (l.foldl (fun r a => r.bind fun s => f s a) o) := by
  induction l generalizing o with
  | nil => exact h
  | cons a l ih =>
    refine ih ?_
    cases e : o with
    | none => exact .none
    | some s => exact hf s a (h s e)

/-! ### The writes of the four fields -/

theorem Canonical.modCore {s : State} {c : Nat} {f : Core → Core} (h : Canonical s) : Canonical (s.modCore c f) :=
  canonical_of_fields h.memory (smWf_smSet _ _ _ _ h.cores) h.harts h.listed
theorem Canonical.modHart {s : State} {n : Nat} {f : Hart → Hart} (h : Canonical s) : Canonical (s.modHart n f) :=
  canonical_of_fields h.memory h.cores (smWf_smSet _ _ _ _ h.harts) h.listed
theorem Canonical.modG {s : State} {f : Group → Group} (h : Canonical s) : Canonical (s.modG f) := h.same
theorem Canonical.memWrite {s : State} {ws : List (Nat × Byte)} (h : Canonical s) : Canonical (s.memWrite ws) :=
  canonical_of_fields (memPutAll_wf _ _ h.memory) h.cores h.harts h.listed
theorem Canonical.putMem {s : State} {ws : List (Nat × Byte)} (h : Canonical s) : Canonical
    { s with mem := memPutAll s.mem ws } :=
  canonical_of_fields (memPutAll_wf _ _ h.memory) h.cores h.harts h.listed
theorem Canonical.setGroup {s : State} {x : Group} (h : Canonical s) : Canonical (s.setGroup x) := by
  unfold State.setGroup
  split
  · exact h.same
  · exact h.regroups (h.listed.put rfl)
theorem Canonical.hartsLeave {s : State} {e : Nat} (h : Canonical s) : Canonical (s.hartsLeave e) := by
  unfold State.hartsLeave
  refine canonical_of_fields h.memory h.cores ?_ h.listed
  dsimp only
  exact smWf_smMap _ _ h.harts
theorem Canonical.zeroFrames {s : State} {fs : List Nat} (h : Canonical s) : Canonical (s.zeroFrames fs) :=
  canonical_of_fields (smWf_filter _ _ h.memory) h.cores h.harts h.listed
theorem Canonical.nearFrames {s : State} {sc : InvScope} (h : Canonical s) : Canonical (s.nearFrames sc) := by
  unfold State.nearFrames
  split
  · refine canonical_of_fields h.memory ?_ h.harts h.listed
    dsimp only
    exact smWf_smMap _ _ h.cores
  · exact h
theorem Canonical.unfocus {s : State} (h : Canonical s) : Canonical s.unfocus := by
  unfold State.unfocus
  split
  · exact h.same
  · exact h.regroups (h.listed.put rfl)
theorem Canonical.focusOn {s : State} {g : Group} {core slot : Nat} (h : Canonical s) : Canonical (s.focusOn g core slot) :=
  h.regroups h.listed.erase
theorem Canonical.renameFrame {s : State} {src dst : Nat} (h : Canonical s) : Canonical (s.renameFrame src dst) :=
  h.regroups (h.listed.map fun _ => ⟨rfl, rfl⟩)

theorem Group.latch_gid (g : Group) (hit : Nat → Bool) (c : Cause) : (g.latch hit c).gid = g.gid := rfl

/-- The latching of a cause changes no group's number. -/
theorem Canonical.latchAll {s : State} {part cls : Nat} {inst : Option Nat} {hit : Nat → Bool} {c : Cause} (h : Canonical s) :
    Canonical (s.latchAll part cls inst hit c) := by
  unfold State.latchAll
  dsimp only
  exact h.regroups (h.listed.map fun x => ⟨rfl, (apply_ite Group.gid _ _ _).trans (ite_self _)⟩)

theorem smWf_singleton {α : Type} [DecidableEq α] {d : α} {n : Nat} {v : α} (h : v ≠ d) : smWf d [(n, v)] = true := by
  simp [smWf, smWfFrom, h]

/-- 27 R433: the state after reset; hart 0 alone is listed, since it is released. -/
theorem canonical_reset : Canonical State.reset := by
  refine canonical_of_fields rfl rfl ?_ ⟨fun _ hx => absurd hx List.not_mem_nil, .nil⟩
  have listed : ({ released := true, mode := .m, pc := Config.hubResetVector } : Hart) ≠ {} :=
    fun e => Bool.noConfusion (show true = false from congrArg Hart.released e)
  exact smWf_singleton listed

end Sys2Proof.Machine
end

section
/-! PROOFS. Each operation keeps the canonical form: what issue slots, translation and the caches do. -/

namespace Sys2Proof.Machine

/-! ### Reading and writing the parts of State -/

theorem Canonical.modDie {s : State} {d : Nat} {f : Die → Die} (h : Canonical s) : Canonical (s.modDie d f) := h.same
theorem Canonical.modEnc {s : State} {e : Nat} {f : Enclave → Enclave} (h : Canonical s) : Canonical (s.modEnc e f) := h.same
theorem Canonical.modPart {s : State} {p : Nat} {f : Part → Part} (h : Canonical s) : Canonical (s.modPart p f) := h.same
theorem Canonical.setPot {s : State} {f : Nat} {p : Pot} (h : Canonical s) : Canonical (s.setPot f p) := h.same

theorem Canonical.modTask {s : State} {t : Nat} {f : Task → Task} (h : Canonical s) : Canonical (s.modTask t f) := by
  unfold State.modTask
  split
  · exact h.same
  · exact h

theorem Canonical.modTeam {s : State} {t : Nat} {f : Team → Team} (h : Canonical s) : Canonical (s.modTeam t f) := by
  unfold State.modTeam
  split
  · exact h.same
  · exact h

theorem Canonical.modGroup {s : State} {gid : Nat} {f : Group → Group} (h : Canonical s) : Canonical (s.modGroup gid f) := by
  unfold State.modGroup
  split
  · exact h.setGroup
  · exact h

theorem Canonical.draw {s : State} (h : Canonical s) : Canonical s.draw.2 := h.same

/-! ### What Lamplight sees while words issue -/

theorem Canonical.catchUp {s : State} {core : Nat} (h : Canonical s) : Canonical (s.catchUp core) := by
  unfold State.catchUp
  dsimp only
  split
  · exact h
  · exact h.modCore

theorem Canonical.emitPacket {s : State} {g : Group} {p : List Word} (h : Canonical s) : Canonical (s.emitPacket g p) := by
  unfold State.emitPacket
  split
  · exact h.catchUp.modCore
  · exact h

theorem Canonical.emit {s : State} {g : Group} {typ payload : Nat} (h : Canonical s) : Canonical (s.emit g typ payload) :=
  h.emitPacket

theorem Canonical.eventAt {s : State} {core : Nat} {o : Option Group} {evid leaf n : Nat} (h : Canonical s) :
    Canonical (s.eventAt core o evid leaf n) := by
  unfold State.eventAt
  dsimp only
  split
  · exact h
  split
  · exact .foldl (fun _ _ h => h.emit) h.modCore
  · exact h.modCore

theorem Canonical.event {s : State} {g : Group} {evid leaf n : Nat} (h : Canonical s) : Canonical (s.event g evid leaf n) :=
  h.eventAt

/-! ### The scratchpad -/

theorem Canonical.poolWrite {s : State} {a : LocalAcc} {bs : List Byte} (h : Canonical s) : Canonical (s.poolWrite a bs) :=
  h.modCore
theorem Canonical.setFe {s : State} {core : Nat} {offs : List Nat} {b : Bool} (h : Canonical s) :
    Canonical (s.setFe core offs b) := h.modCore

/-! ### Physical memory (09 R204; 10 R228) -/

theorem Canonical.bumpChan {s : State} {pa k n : Nat} (h : Canonical s) : Canonical (s.bumpChan pa k n) := h.same
theorem Canonical.countAt {s : State} {pa : Nat} {write : Bool} (h : Canonical s) : Canonical (s.countAt pa write) :=
  h.bumpChan.draw.bumpChan.bumpChan.bumpChan
theorem Canonical.countMem {s : State} {lines : List Nat} {write : Bool} (h : Canonical s) : Canonical (s.countMem lines write) :=
  .foldl (fun _ _ h => h.countAt) h

/-! ### Lines -/

theorem Canonical.setLine {s : State} {x : LLine} (h : Canonical s) : Canonical (s.setLine x) := h.same
theorem Canonical.dropLine {s : State} {x : LLine} (h : Canonical s) : Canonical (s.dropLine x) := h.same.latchAll
theorem Canonical.touch {s : State} {x : LLine} (h : Canonical s) : Canonical (s.touch x) := h.same

theorem Canonical.writeBack {s : State} {x : LLine} (h : Canonical s) : Canonical (s.writeBack x) := by
  unfold State.writeBack
  split
  · exact h
  · exact h.memWrite.setLine.countMem

theorem Canonical.insertLine {s : State} {l : Ldr} {x : LLine} (h : Canonical s) : Canonical (s.insertLine l x) := by
  unfold State.insertLine
  dsimp only
  split
  · exact h.same
  split
  · exact h.writeBack.dropLine.same
  · exact h

theorem Canonical.allocate {s : State} {part cls die pa : Nat} {l : Ldr} {newGeo : Bool} {ws : List (Nat × Byte)}
    (h : Canonical s) :
    Canonical (s.allocate part cls die pa l newGeo ws) := h.countMem.insertLine

theorem Canonical.serveLoad {s : State} {part cls die pa n : Nat} (h : Canonical s) :
    Canonical (s.serveLoad part cls die pa n).2 := by
  unfold State.serveLoad
  dsimp only
  split
  · split
    · exact h.touch
    · exact h
  · exact h.countMem
  split
  · exact h.countMem
  · exact h.allocate

theorem Canonical.countPeek {s : State} {part : Nat} {pas : List Nat} (h : Canonical s) : Canonical (s.countPeek part pas) := by
  unfold State.countPeek
  refine .foldl (fun _ _ h => ?_) h
  split
  · exact h
  · exact h.countMem

theorem Canonical.serveStore {s : State} {part cls die : Nat} {ws : List (Nat × Byte)} {stb : Bool} (h : Canonical s) :
    Canonical (s.serveStore part cls die ws stb) := by
  unfold State.serveStore
  dsimp only
  split
  · exact h
  split
  · split
    · refine .touch ?_
      split
      · exact h.memWrite.countMem
      · exact h
    refine .setLine ?_
    split
    · exact h.memWrite.countMem
    · exact h
  · exact h.memWrite.countMem
  split
  · exact h.allocate
  · exact h.memWrite.countMem

/-! ### The Sv57 walk (10 R215) -/

theorem Canonical.countWalk {s : State} {enc va : Nat} (h : Canonical s) : Canonical (s.countWalk enc va) := h.countPeek

/-! ### The checks in order (10 Table 10.1) -/

theorem Canonical.walkFor {s : State} {g : Group} {op va : Nat} {k : Acc} (h : Canonical s) :
    Canonical (s.walkFor g op va k) := by
  unfold State.walkFor
  dsimp only
  split
  · exact h
  · exact h.event.event.modDie

theorem Canonical.startWalk {s : State} {g : Group} {va : Nat} {k : Acc} (h : Canonical s) : Canonical (s.startWalk g va k) :=
  h.walkFor
theorem Canonical.forgetWalks {s : State} {g : Group} {op : Nat} (h : Canonical s) : Canonical (s.forgetWalks g op) := h.modDie
theorem Canonical.clearWalks {s : State} {g : Group} (h : Canonical s) : Canonical (s.clearWalks g) := h.forgetWalks

theorem Canonical.refill {s : State} {g : Group} {va : Nat} {k : Acc} (h : Canonical s) : Canonical (s.refill g va k) := by
  unfold State.refill
  dsimp only
  split
  · exact h
  · exact h.modCore.modDie

/-! ### Entries (11 Table 11.4) -/

theorem Canonical.svtPut {s : State} {die : Nat} {e : Svt} (h : Canonical s) : Canonical (s.svtPut die e) := h.modDie

theorem Canonical.svtRecord {s : State} {die line : Nat} {p : Party} (h : Canonical s) : Canonical (s.svtRecord die line p) := by
  unfold State.svtRecord
  split
  · exact h.svtPut
  · exact h

theorem Canonical.svtSee {s : State} {part die pa : Nat} {p : Party} (h : Canonical s) : Canonical (s.svtSee part die pa p) :=
  h.svtRecord
theorem Canonical.svtAsk {s : State} {part die pa : Nat} {p : Party} (h : Canonical s) : Canonical (s.svtAsk part die pa p) :=
  h.modDie
theorem Canonical.linesAsk {s : State} {ls : List (Nat × Nat)} {p : Party} (h : Canonical s) : Canonical (s.linesAsk ls p) :=
  .foldl (fun _ _ h => h.svtAsk) h
theorem Canonical.linesSee {s : State} {ls : List (Nat × Nat)} {p : Party} (h : Canonical s) : Canonical (s.linesSee ls p) :=
  .foldl (fun _ _ h => h.svtSee) h

/-! ### Near cache -/

theorem Canonical.nearInvalidate {s : State} {core enc : Nat} (h : Canonical s) : Canonical (s.nearInvalidate core enc) :=
  h.modCore

/-! ### Buffered stores -/

theorem Canonical.setBuf {s : State} {cluster : Nat} {b : List BufEnt} (h : Canonical s) : Canonical (s.setBuf cluster b) :=
  h.same

theorem Canonical.nearFill {s : State} {core enc part pa : Nat} (h : Canonical s) : Canonical (s.nearFill core enc part pa) := by
  unfold State.nearFill
  dsimp only
  split
  · exact h.modCore
  · exact h.serveLoad.svtSee.modCore

theorem Canonical.lookupEvent {s : State} {g : Group} {part pa : Nat} (h : Canonical s) :
    Canonical (s.lookupEvent g part pa) := by
  unfold State.lookupEvent
  dsimp only
  split
  · exact h.event
  · exact h.event
  split
  · exact h.event
  · exact h

theorem Canonical.nearLoad {s : State} {g : Group} {part pa : Nat} (h : Canonical s) : Canonical (s.nearLoad g part pa) := by
  unfold State.nearLoad
  dsimp only
  refine .nearFill ?_
  split
  · exact h
  · exact h.event.lookupEvent

/-! ### Port tokens -/

theorem Canonical.waitAt {s : State} {g : Group} {seq : Nat} (h : Canonical s) : Canonical (s.waitAt g seq) := by
  unfold State.waitAt
  dsimp only
  split
  · exact h.modCore
  · exact h.modCore.event.modCore

theorem SomeCanonical.answerOne {s : State} {core : Nat} (h : Canonical s) : SomeCanonical (s.answerOne core) := by
  unfold State.answerOne
  dsimp only
  split
  · exact .some h.modCore
  · exact .map (fun _ => h.setGroup)

/-! ### Fetch (01 R21; 24 R400) -/

theorem Canonical.fetchHeld {s : State} {g : Group} {pa : Nat} (h : Canonical s) : Canonical (s.fetchHeld g pa) := h.svtAsk

theorem Canonical.fetched {s : State} {g : Group} {va : Nat} (h : Canonical s) : Canonical (s.fetched g va) := by
  unfold State.fetched
  dsimp only
  split
  · split
    · split
      · exact h.modDie.modGroup.modCore
      · exact h.modDie.modGroup.event.lookupEvent.modCore.nearFill
    split
    · exact h.modDie.modGroup.refill.modCore
    · exact h.modDie.modGroup.refill.event.lookupEvent.modCore.nearFill
  · exact h.modDie.modGroup

/-! ### Leaves -/

theorem Canonical.slotEvent {s : State} {core : Nat} {o : Option Group × Nat} {n : Nat} (h : Canonical s) :
    Canonical (s.slotEvent core o n) := by
  unfold State.slotEvent
  dsimp only
  refine .foldl (fun _ _ h => ?_) h.eventAt
  split
  · exact h.eventAt
  · exact h

theorem Canonical.countCycles {s : State} {core slot : Nat} {o : Option Group × Nat} {n : Nat} (h : Canonical s) :
    Canonical (s.countCycles core slot o n) := by
  unfold State.countCycles
  dsimp only
  split
  · split
    · exact h.modCore.slotEvent
    · exact h.modCore.slotEvent.modCore.slotEvent
  · exact h.modCore.slotEvent

theorem Canonical.slotPass {s : State} {core slot n : Nat} (h : Canonical s) : Canonical (s.slotPass core slot n) := by
  unfold State.slotPass
  split
  · exact h
  split
  · exact h.modCore
  · exact h.countCycles.modCore

theorem Canonical.spend {s : State} {leaf n : Nat} (h : Canonical s) : Canonical (s.spend leaf n) := by
  unfold State.spend
  dsimp only
  split
  · exact h
  · exact h.modCore.modCore.countCycles.slotPass

theorem Canonical.spendWord {s : State} {leaf n : Nat} (h : Canonical s) : Canonical (s.spendWord leaf n) := by
  unfold State.spendWord
  split
  · exact h.spend
  · exact h.spend.spend

/-! ### The named operations every meaning uses -/

theorem Lands.whenRunning {k : State → State} {s : State} (hk : ∀ t, Canonical t → Canonical (k t)) (h : Canonical s) :
    Lands (whenRunning k s) := by
  unfold Machine.whenRunning
  refine .next ?_
  split
  · exact hk _ h
  · exact h

/-! ### Words and runs -/

theorem Canonical.retire {n : Nat} {s : State} (h : Canonical s) : Canonical (State.retire n s) := h.spendWord.modG
theorem Canonical.retireV {n : Nat} {s : State} (h : Canonical s) : Canonical (State.retireV n s) := h.spendWord.modG
theorem Canonical.retireJump {t : VAddr} {s : State} (h : Canonical s) : Canonical (State.retireJump t s) :=
  h.spendWord.spend.modG
theorem Canonical.hold {leaf : Nat} {s : State} (h : Canonical s) : Canonical (State.hold leaf s) := h.spend.modCore.same
theorem Canonical.park {why : Park} {s : State} (h : Canonical s) : Canonical (State.park why s) := h.modG

theorem Canonical.setS {s : State} {d : Reg} {v : Word} (h : Canonical s) : Canonical (s.setS d v) := by
  unfold State.setS
  dsimp only
  split
  · exact h.modG.emit
  · exact h.modG

/-! ### Ending a task (17 R325, R326, R327) -/

theorem Canonical.stopWith {r : Report} {s : State} (h : Canonical s) : Canonical (State.stopWith r s) := by
  unfold State.stopWith
  dsimp only
  refine .modG ?_
  split
  · exact h.modTask
  · exact h

theorem Canonical.takeFault {code : Code} {fra : Word} {s : State} (h : Canonical s) : Canonical (State.takeFault code fra s) :=
  h.stopWith
theorem Canonical.faultHere {code : Code} {s : State} (h : Canonical s) : Canonical (State.faultHere code s) := h.takeFault
theorem Canonical.headerFault {code : Code} {fra : Word} {s : State} (h : Canonical s) :
    Canonical (State.headerFault code fra s) := h.stopWith

/-! ### Register windows (01 R28 to R35) -/

theorem Canonical.spillBlock {s t : State} (h : Canonical s) (e : s.spillBlock = .ok t) : Canonical t := by
  unfold State.spillBlock at e
  split at e
  · cases e
  · cases e; exact h.poolWrite.modG.spend
theorem Canonical.fillBlock {s t : State} (h : Canonical s) (e : s.fillBlock = .ok t) : Canonical t := by
  unfold State.fillBlock at e
  split at e
  · cases e
  · cases e; exact h.modG.spend

theorem Canonical.spills {n : Nat} {s : State} (h : Canonical s) : Canonical (State.spills n s).1 := by
  induction n generalizing s with
  | zero => exact h
  | succ n ih =>
    unfold State.spills
    split
    · next heq => exact ih (h.spillBlock heq)
    · exact h

theorem Canonical.fills {n : Nat} {s : State} (h : Canonical s) : Canonical (State.fills n s).1 := by
  induction n generalizing s with
  | zero => exact h
  | succ n ih =>
    unfold State.fills
    split
    · next heq => exact ih (h.fillBlock heq)
    · exact h

theorem Canonical.slideUp {k : Nat} {s : State} (h : Canonical s) : Canonical (State.slideUp k s).1 := by
  unfold State.slideUp
  dsimp only
  split
  · exact h
  split
  · next heq =>
      exact .fst (.modG (.ofFst heq h.spills))
  · exact h

theorem Canonical.slideTo {pos : Nat} {s : State} (h : Canonical s) : Canonical (State.slideTo pos s).1 := h.modG.fills

/-! ### Traps (17 R321, R322) -/

theorem Canonical.emitAddr {s : State} {cwi : Nat} {target : VAddr} {kind : Nat} (h : Canonical s) :
    Canonical (s.emitAddr cwi target kind) := by
  unfold State.emitAddr
  split
  · exact h
  · exact h.emitPacket

theorem Canonical.takeTrap {code : Code} {fra : Word} {s : State} (h : Canonical s) : Canonical (State.takeTrap code fra s) := by
  unfold State.takeTrap
  dsimp only
  split
  · exact h.stopWith
  split
  · next heq =>
      exact .takeFault (.ofFst heq h.modG.slideUp)
  next heq =>
    exact .emitAddr (.modG (.ofFst heq h.modG.slideUp))

theorem Canonical.trapReturn {skip : Bool} {s : State} (h : Canonical s) : Canonical (State.trapReturn skip s) := by
  unfold State.trapReturn
  dsimp only
  split
  · exact h.takeFault
  split
  · next heq =>
      exact .takeFault (.ofFst heq h.slideTo)
  next heq =>
    exact .emitAddr (.modG (.spendWord (.ofFst heq h.slideTo)))

/-! ### Release and arbitration -/

theorem Canonical.emitBranch {s : State} (h : Canonical s) : Canonical s.emitBranch := by
  unfold State.emitBranch
  split
  · exact h
  · exact h.emitPacket

theorem Canonical.release {s : State} (h : Canonical s) : Canonical s.release := by
  unfold State.release
  dsimp only
  exact canonical_of_fields h.emitBranch.memory (smWf_smSet _ _ _ _ h.emitBranch.cores) h.emitBranch.harts
    (h.emitBranch.listed.put rfl)

theorem Canonical.takeRun {s : State} {core slot gid : Nat} (h : Canonical s) : Canonical (s.takeRun core slot gid) := by
  unfold State.takeRun
  dsimp only
  refine .foldl (fun _ _ h => h.modGroup) (.foldl (fun _ _ h => ?_) h)
  split
  · exact h
  · exact h.modGroup

theorem Canonical.nextPath {s : State} (h : Canonical s) : Canonical s.nextPath := h.emitBranch.takeRun.modG

theorem Canonical.arbitrate {s : State} {core slot : Nat} (h : Canonical s) : Canonical (s.arbitrate core slot) := by
  unfold State.arbitrate
  dsimp only
  split
  · exact h.unfocus.focusOn
  split
  · exact h.unfocus
  split
  · exact h.unfocus.takeRun.modCore.focusOn
  · exact h.unfocus.takeRun.modCore.focusOn.spend

theorem Lands.execRunArbitration {core slot : Nat} {s : State} (h : Canonical s) : Lands (execRunArbitration core slot s) :=
  .next h.arbitrate

theorem Canonical.portHold {leaf : Nat} {s : State} (h : Canonical s) : Canonical (State.portHold leaf s) := by
  unfold State.portHold
  dsimp only
  split
  · split
    · exact h.same
    split
    · refine .hold ?_
      split
      · exact .getD (.answerOne h) h
      · exact h
    · exact h.waitAt.hold
  split
  · exact h.same.same
  split
  · refine .hold ?_
    split
    · exact .getD (.answerOne h.same) h.same
    · exact h.same
  · exact h.same.waitAt.hold

/-! ### Comparators (21 R387) -/

theorem Canonical.breakpoint {fra : Word} {stop : Nat} {s : State} (h : Canonical s) :
    Canonical (State.breakpoint fra stop s) := by
  unfold State.breakpoint
  dsimp only
  split
  · exact h.emit.emitPacket.modG
  · exact h.takeTrap

end Sys2Proof.Machine
end

section
/-! PROOFS. Each operation keeps the canonical form: the machine's own accesses, local memory, synchronisation variables, the end of an
enclave, sealing and errors. -/

namespace Sys2Proof.Machine

/-! ### Outside parties of a recording (21 R393, R394) -/

theorem Canonical.markOutside {s : State} {line : Nat} {own : Nat → Bool} (h : Canonical s) :
    Canonical (s.markOutside line own) := .foldl (fun _ _ h => h.modEnc) h

/-! ### Writes at package scope -/

theorem Canonical.hubPut {s : State} {part pa : Nat} {bs : List Byte} (h : Canonical s) : Canonical (s.hubPut part pa bs) :=
  h.serveStore.latchAll
theorem Canonical.hubStore {s : State} {part pa : Nat} {bs : List Byte} (h : Canonical s) : Canonical (s.hubStore part pa bs) :=
  h.markOutside.hubPut

theorem Canonical.writeVia {put : State → Nat → Nat → List Byte → State} {s : State} {enc : Nat} {hs : List Heap} {va : Nat}
    {bs : List Byte} (hk : ∀ t a b c, Canonical t → Canonical (put t a b c))
    (h : Canonical s) :
    Canonical (State.writeVia put s enc hs va bs) := by
  unfold State.writeVia
  refine .foldl (fun _ _ h => ?_) h
  split
  · exact hk _ _ _ _ h
  · exact h

theorem Canonical.writeIn {s : State} {enc : Nat} {hs : List Heap} {va : Nat} {bs : List Byte} (h : Canonical s) :
    Canonical (s.writeIn enc hs va bs) := .writeVia (fun _ _ _ _ h => h.hubStore) h
theorem Canonical.devWrite {s : State} {enc va : Nat} {bs : List Byte} (h : Canonical s) : Canonical (s.devWrite enc va bs) :=
  h.writeIn

/-! ### Record and replay -/

theorem Canonical.appendBlock {s : State} {enc : Nat} {b : List Word} (h : Canonical s) : Canonical (s.appendBlock enc b) := by
  unfold State.appendBlock
  dsimp only
  split
  · exact h.modEnc
  · exact h.devWrite.modEnc

theorem Canonical.checkpoint {s : State} {cause mark : Nat} (h : Canonical s) : Canonical (s.checkpoint cause mark).1 := by
  unfold State.checkpoint
  dsimp only
  split
  · exact h.modG.appendBlock
  · split
    · split
      · exact .fst h.modG.modEnc
      · exact .fst h.modEnc
    · exact .fst h.modEnc
  · exact h

theorem Canonical.countStore {s : State} {bs : List (Nat × Byte)} (h : Canonical s) : Canonical (s.countStore bs).1 := by
  unfold State.countStore
  dsimp only
  split
  · exact h
  split
  · split
    · next heq =>
        exact .ofFst heq h.modG.checkpoint
    · exact .fst h.modEnc
  · exact .fst h.modG

/-! ### Addresses and checks (12 R262 to R264) -/

theorem Lands.withLocal {ps : List (Nat × Int)} {len align : Nat} {write : Bool} {k : List LocalAcc → State → Out} {s : State}
    (hk : ∀ a t, Canonical t → Lands (k a t)) (h : Canonical s) :
    Lands (withLocal ps len align write k s) := by
  unfold Machine.withLocal
  split
  · exact .next h.takeFault
  · exact .next h.park
  split
  · exact .next h.takeTrap
  · exact hk _ _ h

theorem Lands.withWindowData {as : List LocalAcc} {k : State → Out} {s : State} (hk : ∀ t, Canonical t → Lands (k t))
    (h : Canonical s) :
    Lands (withWindowData as k s) := by
  unfold Machine.withWindowData
  split
  · exact hk _ h
  split
  · exact hk _ h.modG
  · exact .next h.hold
  · exact .next h.modG.hold

theorem Lands.withStoreCount {bs : List (Nat × Byte)} {k : State → Out} {s : State} (hk : ∀ t, Canonical t → Lands (k t))
    (h : Canonical s) :
    Lands (withStoreCount bs k s) := by
  unfold Machine.withStoreCount
  split
  · next heq =>
      exact .next (.takeFault (.ofFst heq h.countStore))
  next heq =>
    exact hk _ (.ofFst heq h.countStore)

/-! ### Writing (12 R266, R267; 09 R188) -/

theorem Canonical.addWinStore {s : State} {parts : List WinPart} (h : Canonical s) : Canonical (s.addWinStore parts) := h.modG

theorem Canonical.localWrite {s : State} {xs : List (LocalAcc × List Byte)} (h : Canonical s) : Canonical (s.localWrite xs) := by
  unfold State.localWrite
  dsimp only
  split
  · exact .foldl (fun _ _ h => h.poolWrite) h
  · exact .addWinStore (.foldl (fun _ _ h => h.poolWrite) h)

theorem Canonical.performPart {s : State} {p : WinPart} (h : Canonical s) : Canonical (s.performPart p) := by
  unfold State.performPart
  dsimp only
  split
  · exact h
  · exact h.modCore.setFe

theorem Canonical.performStores {core : Nat} {ws done : List WinStore} {s : State} (h : Canonical s) :
    Canonical (State.performStores core ws done s).1 := by
  induction ws generalizing done s with
  | nil => exact h
  | cons w ws ih => exact ih (.foldl (fun _ _ h => h.performPart) h)

theorem Canonical.clearWay {s : State} {core : Nat} {rs : List LockRange} (h : Canonical s) : Canonical (s.clearWay core rs) := by
  unfold State.clearWay
  dsimp only
  split
  · exact h
  refine .foldl (fun _ _ h => ?_) h
  split
  · exact h.performStores.modGroup
  · exact h

theorem Lands.withBefore {a : LocalAcc} {k : State → Out} {s : State} (hk : ∀ t, Canonical t → Lands (k t)) (h : Canonical s) :
    Lands (withBefore a k s) := by
  unfold Machine.withBefore
  split
  · exact hk _ h
  split
  · exact .next h.park
  · exact hk _ h

theorem Canonical.performBefore {s : State} {core : Nat} (h : Canonical s) : Canonical (s.performBefore core) :=
  .modG (.foldl (fun _ _ h => h.performPart) h)

/-! ### Loads and stores (12 R266) -/

theorem Lands.localLoad {d b : Reg} {z : BitVec 2} {off : BitVec 10} {signed : Bool} {s : State} (h : Canonical s) :
    Lands (localLoad d b z off signed s) := .withLocal (fun _ _ h => .withWindowData (fun _ h => .next h.setS.retire) h) h
theorem Lands.localLoadV {d : Reg} {ps : List (Nat × Int)} {size : Nat} {signed : Bool} {s : State} (h : Canonical s) :
    Lands (localLoadV d ps size signed s) := .withLocal (fun _ _ h => .withWindowData (fun _ h => .next h.modG.retireV) h) h

theorem Lands.withRow {a : Int} {k : State → Out} {s : State} (hk : ∀ t, Canonical t → Lands (k t)) (h : Canonical s) :
    Lands (withRow a k s) := by
  unfold Machine.withRow
  split
  · exact .next h.takeFault
  · exact hk _ h

theorem Lands.localStore {ps : List (Nat × Int)} {size : Nat} {data : Nat → Nat} {k : State → State} {s : State}
    (hk : ∀ t, Canonical t → Canonical (k t)) (h : Canonical s) :
    Lands (localStore ps size data k s) := .withLocal (fun _ _ h => .withStoreCount (fun _ h => .next (hk _ h.localWrite)) h) h

/-! ### Full/empty forms (12 R268, R269; 09 R184, R185) -/

theorem Lands.feLoad {take : Bool} {d b : Reg} {z : BitVec 1} {off : BitVec 10} {s : State} (h : Canonical s) :
    Lands (feLoad take d b z off s) := by
  unfold Machine.feLoad
  dsimp only
  refine .withLocal (fun _ _ h => ?_) h
  split
  · exact .next h
  split
  · exact .next h.park
  refine .withWindowData (fun _ h => .next (.retire (.setS ?_))) h
  split
  · exact h.setFe
  · exact h

theorem Lands.feStore {fill : Bool} {d b : Reg} {z : BitVec 1} {off : BitVec 10} {s : State} (h : Canonical s) :
    Lands (feStore fill d b z off s) := by
  unfold Machine.feStore
  dsimp only
  refine .withLocal (fun _ _ h => ?_) h
  split
  · exact .next h
  refine .withBefore (fun _ h => ?_) h
  split
  · split
    · exact .next h.performBefore.park
    refine .withStoreCount (fun _ h => .next (.retire ?_)) h.performBefore
    split
    · exact h.addWinStore
    · exact h.poolWrite.setFe.addWinStore
  split
  · exact .next h.park
  refine .withStoreCount (fun _ h => .next (.retire ?_)) h
  split
  · exact h.addWinStore
  · exact h.poolWrite.setFe

theorem Lands.feRange {write : Bool} {d a b : Reg} {k : LocalAcc → State → State × Nat} {s : State}
    (hk : ∀ a t, Canonical t → Canonical (k a t).1) (h : Canonical s) :
    Lands (feRange write d a b k s) := by
  unfold Machine.feRange
  dsimp only
  split
  · exact .next h.takeFault
  split
  · exact .next h.faultHere
  split
  · exact .next h.setS.retire
  refine .withLocal (fun _ _ h => ?_) h
  split
  · exact .next h
  split
  · refine .withBefore (fun _ h => .next (.retire (.setS ?_))) h
    split
    · refine .addWinStore (hk _ _ ?_)
      split
      · exact h.performBefore
      · exact h
    refine hk _ _ ?_
    split
    · exact h.performBefore
    · exact h
  refine .withWindowData (fun _ h => .next (.retire (.setS ?_))) h
  split
  · exact .addWinStore (hk _ _ h)
  · exact hk _ _ h

theorem Lands.execLFeFull {d a b} {s : State} (h : Canonical s) : Lands (execLFeFull d a b s) := by
  unfold Machine.execLFeFull
  exact .feRange (fun _ _ h => h.setFe) h
theorem Lands.execLFeEmpty {d a b} {s : State} (h : Canonical s) : Lands (execLFeEmpty d a b s) := by
  unfold Machine.execLFeEmpty
  exact .feRange (fun _ _ h => h.setFe) h
theorem Lands.execLFeTest {d a b} {s : State} (h : Canonical s) : Lands (execLFeTest d a b s) := by
  unfold Machine.execLFeTest
  exact .feRange (fun _ _ h => h) h

/-! ### Windows (09 R186, R189; 12 R270, R271) -/

theorem Lands.winOpen {sw : Bool} {d a : Reg} {writer : Nat} {s : State} (h : Canonical s) : Lands (winOpen sw d a writer s) := by
  unfold Machine.winOpen
  dsimp only
  split
  · exact .next h.takeFault
  split
  · exact .next h.takeFault
  split
  · exact .next h.setS.retire
  · exact .next h.modCore.setS.retire

theorem Lands.execLWopenRo {d a b} {s : State} (h : Canonical s) : Lands (execLWopenRo d a b s) := by
  unfold Machine.execLWopenRo
  exact .winOpen h
theorem Lands.execLWopenSw {d a b} {s : State} (h : Canonical s) : Lands (execLWopenSw d a b s) := by
  unfold Machine.execLWopenSw
  exact .winOpen h

theorem Lands.execLWclose {a : Reg} {s : State} (h : Canonical s) : Lands (execLWclose a s) := by
  unfold Machine.execLWclose
  dsimp only
  split
  · exact .next h.faultHere
  split
  · exact .next h.faultHere
  split
  · exact .next h.faultHere
  split
  · exact .next h.modCore.hold
  · exact .next h.modCore.retire

/-! ### Colours (10 R225) -/

theorem Canonical.colourUp {s : State} {die n : Nat} (h : Canonical s) : Canonical (s.colourUp die n) := h.modDie
theorem Canonical.colourDown {s : State} {die : Nat} {k : Bool} {n : Nat} (h : Canonical s) : Canonical (s.colourDown die k n) :=
  h.modDie

/-! ### Arrival of a buffered store -/

theorem Canonical.storeArrives {s : State} {e : BufEnt} (h : Canonical s) : Canonical (s.storeArrives e) := by
  unfold State.storeArrives
  dsimp only
  split
  · refine .colourDown (.svtSee (.latchAll (.serveStore (.markOutside ?_))))
    split
    · exact h.lookupEvent
    · exact h
  refine .svtSee (.latchAll (.serveStore (.markOutside ?_)))
  split
  · exact h.lookupEvent
  · exact h

theorem Canonical.performOld {s : State} {gid seq : Nat} (h : Canonical s) : Canonical (s.performOld gid seq) := by
  unfold State.performOld
  dsimp only
  split
  · exact h
  · exact .modGroup (.foldl (fun _ _ h => h.performPart) h)

/-- One entry of a draining buffer arrives, once the older release that holds it back has: `older` drains the buffer of that one. -/
def drainEntry (older : Nat → Nat → State → State) (cluster : Nat) (s : State) (e : BufEnt) : State :=
  if !(s.buf cluster).contains e then s
  else
    let die := s.svtDie (s.encl e.enc).part (dieOfCore e.core) e.pa
    let s := match if s.storeHeld e then s.svtOf die (e.pa / 64) else none with
      | some v =>
        ((older (clusterOf v.relCore) v.relSeq s).performOld v.relGid v.relSeq).svtPut die
          { v.touch (.core e.core) with rel := false, want := none }
      | none => s
    if !(s.buf cluster).contains e then s
    else (s.setBuf cluster ((s.buf cluster).filter fun x => x ≠ e)).storeArrives e

theorem drainTo_succ (n cluster seq : Nat) (s : State) : State.drainTo (n + 1) cluster seq s =
    ((s.buf cluster).filter fun e => e.seq < seq).foldl (drainEntry (State.drainTo n) cluster) s := by
  delta State.drainTo
  change List.foldl _ _ _ = List.foldl _ _ _
  congr 1
  funext t e
  unfold Machine.drainEntry
  dsimp only
  split
  · rfl
  generalize (if t.storeHeld e then t.svtOf (t.svtDie (t.encl e.enc).part (dieOfCore e.core) e.pa) (e.pa / 64) else none) = held
  cases held
  · rfl
  · rfl

theorem Canonical.drainEntry {older : Nat → Nat → State → State} {cluster : Nat} {s : State} {e : BufEnt}
    (ho : ∀ c q s, Canonical s → Canonical (older c q s)) (h : Canonical s) : Canonical (drainEntry older cluster s e) := by
  unfold Machine.drainEntry
  dsimp only
  split
  · exact h
  split
  · split
    · exact (ho _ _ _ h).performOld.svtPut
    · exact (ho _ _ _ h).performOld.svtPut.setBuf.storeArrives
  · split
    · exact h
    · exact h.setBuf.storeArrives

/-- Draining one buffer may first drain another that holds an older release back. -/
theorem Canonical.drainTo {fuel cluster seq : Nat} {s : State} (h : Canonical s) : Canonical
    (State.drainTo fuel cluster seq s) := by
  induction fuel generalizing cluster seq s with
  | zero =>
    refine Canonical.foldl (fun t e h => ?_) h
    dsimp only
    split
    · exact h
    · exact h.setBuf.storeArrives
  | succ n ih =>
    rw [drainTo_succ]
    exact .foldl (fun _ _ h => .drainEntry (fun _ _ _ h => ih h) h) h

theorem Canonical.drainBuf {s : State} {cluster seq : Nat} (h : Canonical s) : Canonical (s.drainBuf cluster seq) := h.drainTo
theorem Canonical.settleRelease {s : State} {e : Svt} (h : Canonical s) : Canonical (s.settleRelease e) := h.drainBuf.performOld

theorem Canonical.svtName {s : State} {die line : Nat} {p : Party} (h : Canonical s) : Canonical (s.svtName die line p) := by
  unfold State.svtName
  dsimp only
  split
  · exact h.svtPut
  refine .svtPut ?_
  split
  · exact h
  split
  · refine .modDie ?_
    split
    · exact h.settleRelease
    · exact h
  · exact h

theorem Canonical.svtRelease {s : State} {die line core gid : Nat} (h : Canonical s) :
    Canonical (s.svtRelease die line core gid) := by
  unfold State.svtRelease
  split
  · exact h.same.svtPut
  · exact h

theorem Lands.execSvtWidening {die k : Nat} {s : State} (h : Canonical s) : Lands (execSvtWidening die k s) := by
  unfold Machine.execSvtWidening
  dsimp only
  split
  · split
    · split
      · exact .next h.modDie
      · exact .next h
    · exact .next h
  · exact .next h

theorem Canonical.hartTouch {s : State} {part pa : Nat} (h : Canonical s) : Canonical (s.hartTouch part pa) := by
  unfold State.hartTouch
  dsimp only
  split
  · refine .svtPut ?_
    split
    · exact h.drainBuf
    · exact h
  · exact h

/-! ### Residency (05 Table 5.7; 19 R357; 24 R402) -/

theorem Canonical.dropBuckets {s : State} {core : Nat} (h : Canonical s) : Canonical (s.dropBuckets core) := h.modCore

theorem Canonical.dropGroup {s : State} {gid : Nat} (h : Canonical s) : Canonical (s.dropGroup gid) := by
  unfold State.dropGroup
  split
  · exact h
  dsimp only
  split
  · exact h.modCore.same
  · exact canonical_of_fields h.memory (smWf_smSet _ _ _ _ h.cores) h.harts h.listed.erase

/-! ### Invalidations (10 R224 to R226) -/

theorem Canonical.acceptInval {s : State} {die : Nat} {sc : InvScope} (h : Canonical s) : Canonical (s.acceptInval die sc) := by
  unfold State.acceptInval
  refine canonical_of_fields h.memory ?_ h.harts h.listed
  dsimp only
  exact smWf_smMap _ _ h.cores

theorem Canonical.postInval {s : State} {sc : InvScope} (h : Canonical s) : Canonical (s.postInval sc) := by
  unfold State.postInval
  refine .foldl (fun _ _ h => ?_) h
  split
  · exact h.modDie
  · exact h.acceptInval

theorem Canonical.invalFrames {s : State} {fs : List Nat} (h : Canonical s) : Canonical (s.invalFrames fs) :=
  .foldl (fun _ _ h => h.postInval) h
theorem Canonical.lowerLease {s : State} {die f : Nat} (h : Canonical s) : Canonical (s.lowerLease die f) := by
  unfold State.lowerLease
  exact h.setPot.modDie

/-! ### The end of an enclave (20 R366; 17 R331 steps 1 to 4) -/

theorem Canonical.uncolour {s : State} {gids : List Nat} {e : Nat} (h : Canonical s) : Canonical (s.uncolour gids e) :=
  .foldl (fun _ _ h => h.colourDown) h
theorem Canonical.membersGone {s : State} {e : Nat} (h : Canonical s) : Canonical (s.membersGone e) := h.same
theorem Canonical.fixFabBuckets {s : State} (h : Canonical s) : Canonical s.fixFabBuckets := h.same

/-- The enclave's groups leave the list one by one; of the four fields, its end then changes the cores and zeroes its frames. -/
theorem Canonical.endEnclave {s : State} {e : Nat} (h : Canonical s) : Canonical (s.endEnclave e) := by
  unfold State.endEnclave
  have hm : Canonical (((((s.hartsLeave e).uncolour ((s.allGroups.filter fun g => g.enc = e).map (·.gid)) e))) |>
      ((s.allGroups.filter fun g => g.enc = e).map (·.gid)).foldl State.dropGroup |> (·.membersGone e)) :=
    .membersGone (.foldl (fun _ _ h => h.dropGroup) h.hartsLeave.uncolour)
  refine .fixFabBuckets (.foldl (fun _ _ h => ?_) (.invalFrames (.foldl (fun _ _ h => h.setPot)
    (.zeroFrames (.foldl (fun _ _ h => h.lowerLease) ?_)))))
  · split
    · exact h
    · exact h.dropBuckets
  · refine canonical_of_fields hm.memory ?_ hm.harts hm.listed
    dsimp only
    exact smWf_smMap _ _ hm.cores

/-! ### The error log (17 R333) -/

theorem Canonical.logError {s : State} {kind unit part ix addr remain : Nat} (h : Canonical s) :
    Canonical (s.logError kind unit part ix addr remain) := h.same
theorem Canonical.endTampered {s : State} {e : Nat} (h : Canonical s) : Canonical (s.endTampered e) := h.endEnclave.logError

/-! ### Resets (17 R331; 27 R433) -/

theorem Canonical.partitionReset {s : State} {p : Nat} (h : Canonical s) : Canonical (s.partitionReset p) := by
  unfold State.partitionReset
  have he : Canonical (((s.encs.filter fun e => e.2.part = p && (e.2.live || e.2.making.isSome)).map (·.1)).foldl
      State.endEnclave s) := .foldl (fun _ _ h => h.endEnclave) h
  refine .logError (canonical_of_fields he.memory ?_ he.harts he.listed)
  dsimp only
  exact smWf_smMap _ _ he.cores

theorem Canonical.bootState {fw : Firmware} : Canonical (bootState fw) := by
  unfold Machine.bootState
  dsimp only
  split
  · exact canonical_reset.same
  · exact canonical_of_fields canonical_reset.memory canonical_reset.cores rfl canonical_reset.listed

theorem Canonical.packageReset {s : State} {trip : Bool} (h : Canonical s) : Canonical (s.packageReset trip) := (.same .bootState)

/-! ### The version table (18 Table 18.3) -/

theorem Canonical.pvtWrite {s : State} {e i d0 obj version cg : Nat} (h : Canonical s) :
    Canonical (s.pvtWrite e i d0 obj version cg) := h.memWrite.countMem
theorem Canonical.pvtDrop {s : State} {e i : Nat} (h : Canonical s) : Canonical (s.pvtDrop e i) := by
  unfold State.pvtDrop
  exact h.pvtWrite.modEnc

/-! ### Images (18 R343) -/

theorem Canonical.sealImage {s : State} {e kind obj : Nat} {body : List Byte} (h : Canonical s) :
    Canonical (s.sealImage e kind obj body).2.2 := by
  unfold State.sealImage
  dsimp only
  exact h.modEnc

/-! ### Save-area granules -/

theorem SomeCanonical.sealToSave {s : State} {e kind obj : Nat} {body : List Byte} (h : Canonical s) :
    SomeCanonical (s.sealToSave e kind obj body) := by
  rw [State.sealToSave]
  split
  · exact .some (.pvtWrite (.countMem (.memWrite (.modEnc h.sealImage))))
  · exact .none

theorem Canonical.openImage {s : State} {e kind obj len : Nat} {img : List Byte} {p : List Byte × State} (h : Canonical s)
    (heq : s.openImage e kind obj len img = .ok p) : Canonical p.2 := by
  unfold State.openImage at heq
  dsimp only at heq
  split at heq
  · cases heq
  split at heq
  · cases heq
  split at heq
  · cases heq
  split at heq
  · cases heq
  split at heq
  · cases heq
  · cases heq; exact h.pvtDrop
theorem Canonical.openFromSave {s : State} {e kind obj len : Nat} {p : List Byte × State} (h : Canonical s)
    (heq : s.openFromSave e kind obj len = .ok p) : Canonical p.2 := by
  unfold State.openFromSave at heq
  split at heq
  · cases heq
  · exact h.countMem.openImage heq

/-! ### Row and staging images -/

theorem Canonical.putRow {s : State} {core row : Nat} {x : Task} {ix : Nat} {body : List Byte} (h : Canonical s) :
    Canonical (s.putRow core row x ix body) := by
  unfold State.putRow
  dsimp only
  split
  · exact h
  · exact h.modCore

/-! ### Claims (18 R348; 09 R181) -/

theorem SomeCanonical.claimRow {s : State} {core row : Nat} (h : Canonical s) : SomeCanonical (s.claimRow core row) := by
  unfold State.claimRow
  dsimp only
  split
  · exact .none
  split
  · exact .none
  split
  · split
    · exact .none
    split
    · exact .none
    next heq =>
      exact .mapState (fun _ h => h.modCore.modTeam) (.sealToSave (.ofSome heq (.mapState (fun _ h => h.modCore.modTeam)
        (.sealToSave h))))
  split
  · exact .none
  split
  · exact .none
  next heq =>
    exact .mapState (fun _ h => h.modCore.modTeam) (.sealToSave (.ofSome heq (.some h)))

theorem Canonical.makeRoom {s : State} {core notTeam n fuel : Nat} (h : Canonical s) : Canonical
    (s.makeRoom core notTeam n fuel) := by
  induction fuel generalizing s with
  | zero => exact h
  | succ k ih =>
    unfold State.makeRoom
    split
    · exact h
    split
    · exact h
    split
    · exact h
    next heq => exact ih (.ofSome heq (.claimRow h))

theorem Canonical.takeRow {s : State} {core row enc team ix : Nat} (h : Canonical s) :
    Canonical (s.takeRow core row enc team ix) := h.modCore

/-! ### Restoring (18 R349) -/

theorem Canonical.restoreRow {s : State} {e team core ix row : Nat} (h : Canonical s) : Canonical
    (s.restoreRow e team core ix row) := by
  unfold State.restoreRow
  dsimp only
  split
  · exact h
  split
  · split
    · exact h.endTampered
    next heq => exact .modTeam (.putRow (h.openFromSave heq))
  · exact h

theorem Canonical.restoreStaging {s : State} {e team core : Nat} (h : Canonical s) : Canonical
    (s.restoreStaging e team core) := by
  unfold State.restoreStaging
  split
  · exact h
  split
  · exact h
  split
  · exact h
  split
  · exact h.endTampered
  next heq => exact .modTeam (.modCore (h.openFromSave heq))

theorem Canonical.discardStaging {s : State} {e : Nat} {t : Team} {x : Task} (h : Canonical s) :
    Canonical (s.discardStaging e t x) := by
  unfold State.discardStaging
  refine .foldl (fun _ _ h => ?_) h
  split
  · exact h.pvtDrop
  · exact h

/-! ### Retirement (17 R328, R329) -/

theorem Canonical.dropPanes {s : State} {die : Nat} {p : Nat → Bool} (h : Canonical s) : Canonical (s.dropPanes die p) :=
  .foldl (fun _ _ h => h.writeBack.dropLine) h

theorem Canonical.retireUnit {s : State} {u : UnitKind} {ix : Nat} (h : Canonical s) : Canonical (s.retireUnit u ix) := by
  unfold State.retireUnit
  dsimp only
  split
  · split
    · split
      · exact h.same.dropPanes.logError.logError
      · exact h.same.dropPanes.logError
    split
    · exact h.same.dropPanes.logError.logError
    · exact h.same.dropPanes.logError
  · split
    · split
      · exact h.same.dropPanes.logError.logError
      · exact h.same.dropPanes.logError
    split
    · exact h.same.dropPanes.logError.logError
    · exact h.same.dropPanes.logError
  split
  · split
    · exact h.same.logError.logError
    · exact h.same.logError
  split
  · exact h.same.logError.logError
  · exact h.same.logError

theorem Canonical.correctable {s : State} {u : UnitKind} {ix : Nat} (h : Canonical s) : Canonical (s.correctable u ix) := by
  unfold State.correctable
  dsimp only
  split
  · exact h
  split
  · exact h.same.retireUnit
  · exact h.same

theorem Canonical.refetch {s : State} {u : UnitKind} {ix line : Nat} (h : Canonical s) : Canonical (s.refetch u ix line) := by
  unfold State.refetch
  split
  · exact .foldl (fun _ _ h => h.modCore.nearFill) h
  · exact .foldl (fun _ _ h => h.setLine.countMem) h
  · exact h

theorem Lands.execCorrectableError {u : UnitKind} {ix : Nat} {line : Option Nat} {s : State} (h : Canonical s) :
    Lands (execCorrectableError u ix line s) := by
  unfold Machine.execCorrectableError
  refine .next (.correctable ?_)
  split
  · exact h.refetch
  · exact h

theorem Lands.execErrorWindowBoundary {u : UnitKind} {ix : Nat} {s : State} (h : Canonical s) :
    Lands (execErrorWindowBoundary u ix s) := by
  unfold Machine.execErrorWindowBoundary
  refine .next ?_
  split
  · exact h
  · exact h.same

/-! ### Uncorrectable errors (17 R330 to R332) -/

theorem Canonical.resetDomain {s : State} {p : Option Nat} {addr : Nat} (h : Canonical s) : Canonical (s.resetDomain p addr) := by
  unfold State.resetDomain
  split
  · exact h.partitionReset
  · exact h.logError

theorem Canonical.memError {s : State} {line : Nat} (h : Canonical s) : Canonical (s.memError line) := by
  unfold State.memError
  dsimp only
  split
  · exact h.bumpChan.same.logError
  · exact h.bumpChan.same
  · exact h.bumpChan.packageReset
  · exact h.bumpChan.resetDomain

theorem Lands.execUncorrectableError {place : ErrAt} {s : State} (h : Canonical s) : Lands (execUncorrectableError place s) := by
  unfold Machine.execUncorrectableError
  dsimp only
  refine .next ?_
  split
  · exact h.memError
  · exact h.resetDomain
  · exact h.resetDomain
  · exact h.resetDomain
  · exact h.packageReset

theorem Lands.execDieToDieFlit {link : Nat} {crcOk : Bool} {enc : Nat} {s : State} (h : Canonical s) :
    Lands (execDieToDieFlit link crcOk enc s) := by
  unfold Machine.execDieToDieFlit
  dsimp only
  split
  · split
    · exact .next h.same
    refine .next ?_
    split
    · exact h.same.partitionReset
    · exact h.same.packageReset
  split
  · exact .next h.same
  refine .next ?_
  split
  · exact h.same.partitionReset
  · exact h.same.packageReset

theorem Lands.execTuilosFlit {port : Nat} {ok : Bool} {s : State} (h : Canonical s) : Lands (execTuilosFlit port ok s) := by
  unfold Machine.execTuilosFlit
  split
  · exact .next h
  · exact .next h.resetDomain

/-! ### Power, temperature, boot (27) -/

theorem Canonical.throttle {s : State} (h : Canonical s) : Canonical s.throttle := h.same

theorem Lands.execThrottling {pnow tmax : Nat} {s : State} (h : Canonical s) : Lands (execThrottling pnow tmax s) := by
  unfold Machine.execThrottling
  refine .next ?_
  split
  · exact h.packageReset
  · exact h.same.throttle

theorem Lands.execThermalTrip {_die temp : Nat} {s : State} (h : Canonical s) : Lands (execThermalTrip _die temp s) := by
  unfold Machine.execThermalTrip
  refine .next ?_
  split
  · exact h.packageReset
  · exact h

theorem Lands.execPowerOn {sigs : List (Bool × Bool)} {trained : Bool} {frames : List Nat} {s : State} (h : Canonical s) :
    Lands (execPowerOn sigs trained frames s) := .next (.same .bootState)

end Sys2Proof.Machine
end

section
/-! PROOFS. Each operation keeps the canonical form: far accesses and synchronisation instructions. -/

namespace Sys2Proof.Machine

/-! ### Checks (12 R264, R265) -/

theorem Canonical.translated {s : State} {g : Group} {vas : List Nat} {k : Acc} (h : Canonical s) :
    Canonical (s.translated g vas k) := by
  unfold State.translated
  dsimp only
  refine .foldl (fun _ _ h => h.refill) (.clearWalks ?_)
  split
  · exact h
  · exact h.spend

theorem Lands.withFar {ps : List (Nat × Int)} {len align : Nat} {k : Acc} {at_ : Option Atom}
    {next : List (List Nat × Bool) → State → Out} {s : State} (hk : ∀ a t, Canonical t → Lands (next a t)) (h : Canonical s) :
    Lands (withFar ps len align k at_ next s) := by
  unfold Machine.withFar
  dsimp only
  split
  · exact .next h.clearWalks.takeFault
  · exact .next (.hold (.foldl (fun _ _ h => h.startWalk) h))
  split
  · exact .next h.takeTrap
  · exact hk _ _ h.translated

theorem Canonical.takeColour {s : State} {rs : List (List Nat × Bool)} (h : Canonical s) : Canonical (s.takeColour rs).1 := by
  unfold State.takeColour
  dsimp only
  split
  · exact h
  · exact h.colourUp

/-! ### Loads (12 R272) -/

theorem Canonical.send {s : State} {r : Req} {rs : List (List Nat × Bool)} {counted : Bool} (h : Canonical s) :
    Canonical (s.send r rs counted) := h.takeColour.same

theorem Lands.farLoad {ps : List (Nat × Int)} {vec : Bool} {dst : RLoc} {size align : Nat} {signed near : Bool}
    {k : State → State} {s : State} (hk : ∀ t, Canonical t → Canonical (k t)) (h : Canonical s) :
    Lands (farLoad ps vec dst size align signed near k s) := by
  unfold Machine.farLoad
  dsimp only
  refine .withFar (fun _ _ h => ?_) h
  split
  · exact .next h.hold
  · exact .next (hk _ h.send)

theorem Lands.farLoadS {d b : Reg} {z : BitVec 2} {o : BitVec 10} {signed near : Bool} {s : State} (h : Canonical s) :
    Lands (farLoadS d b z o signed near s) := .farLoad (fun _ h => h.retire) h

theorem Lands.withLanes {ps : List (Nat × Int)} {k : State → Out} {s : State} (hk : ∀ t, Canonical t → Lands (k t))
    (h : Canonical s) :
    Lands (withLanes ps k s) := by
  unfold Machine.withLanes
  split
  · exact .next h.retireV
  · exact hk _ h

/-! ### Stores (12 R272; 11 R233) -/

theorem Lands.farStore {ps : List (Nat × Int)} {size align : Nat} {data : Nat → Nat} {stb : Bool} {k : State → State} {s : State}
    (hk : ∀ t, Canonical t → Canonical (k t)) (h : Canonical s) :
    Lands (farStore ps size align data stb k s) := by
  unfold Machine.farStore
  dsimp only
  refine .withFar (fun _ _ h => ?_) h
  split
  · exact .next h.hold
  · exact .withStoreCount (fun _ h => .next (hk _ h.takeColour.same)) h

theorem Lands.farStoreS {d b : Reg} {z : BitVec 2} {o : BitVec 10} {stb : Bool} {s : State} (h : Canonical s) :
    Lands (farStoreS d b z o stb s) := .farStore (fun _ h => h.retire) h

/-! ### Prefetch (12 R273) -/

theorem Lands.prefetch {size : Nat} {q : BitVec 1} {b : Reg} {off : BitVec 10} {s : State} (h : Canonical s) :
    Lands (prefetch size q b off s) := by
  unfold Machine.prefetch
  dsimp only
  split
  · exact .next h.clearWalks.retire
  · exact .next h.startWalk.hold
  split
  · split
    · exact .next h.translated.retire
    · exact .next h.translated.send.retire
  split
  · exact .next h.translated.retire
  · exact .next h.translated.send.retire

/-! ### Fences (11 R237, R238, R241; 12 R276) -/

theorem Canonical.holdFence {leaf : Nat} {s : State} (h : Canonical s) : Canonical (State.holdFence leaf s) := h.modG.hold

theorem Lands.execFenceScope {c : BitVec 3} {s : State} (h : Canonical s) : Lands (execFenceScope c s) := by
  unfold Machine.execFenceScope
  dsimp only
  split
  · exact .next h.holdFence
  refine .next (.retire ?_)
  split
  · exact h.modG.nearInvalidate
  · exact h.modG

theorem Lands.execFenceW {s : State} (h : Canonical s) : Lands (execFenceW s) := by
  unfold Machine.execFenceW
  split
  · exact .next h.hold
  · exact .next h.retire

theorem Canonical.nameScope {s : State} {pa : Nat} (h : Canonical s) : Canonical (s.nameScope pa).1 := h.svtName

theorem Lands.withEntry {pa : Nat} {k : State → Out} {s : State} (hk : ∀ t, Canonical t → Lands (k t)) (h : Canonical s) :
    Lands (withEntry pa k s) := by
  unfold Machine.withEntry
  dsimp only
  split
  · exact .next h.svtAsk.hold
  split
  · exact hk _ h
  · exact .next h.hold

theorem Lands.releaseOn {s : State} {pa : Nat} {done : State → Out} (h : Canonical s) (hk : ∀ t, Canonical t → Lands (done t)) :
    Lands (s.releaseOn pa done) := by
  unfold State.releaseOn
  dsimp only
  refine .withEntry (fun _ h => ?_) h
  split
  · exact .next h.holdFence
  · exact hk _ h.nameScope.modG.svtRelease

theorem Lands.acquireOn {s : State} {pa : Nat} {done : State → Out} (h : Canonical s) (hk : ∀ t, Canonical t → Lands (done t)) :
    Lands (s.acquireOn pa done) := by
  unfold State.acquireOn
  dsimp only
  split
  · exact .next h.hold
  refine .withEntry (fun _ h => hk _ ?_) h
  split
  · exact h.nameScope.nearInvalidate
  · exact h.nameScope

theorem Lands.withVar {a : Reg} {k : Nat → State → Out} {s : State} (hk : ∀ a t, Canonical t → Lands (k a t)) (h : Canonical s) :
    Lands (withVar a k s) := by
  unfold Machine.withVar
  dsimp only
  split
  · exact .next h.clearWalks.takeFault
  · exact .next h.startWalk.hold
  · exact hk _ _ h.translated

theorem Lands.execFenceRel {a} {s : State} (h : Canonical s) : Lands (execFenceRel a s) := by
  unfold Machine.execFenceRel
  exact .withVar (fun _ _ h => .releaseOn h (fun _ h => .next h.retire)) h
theorem Lands.execFenceAcq {a} {s : State} (h : Canonical s) : Lands (execFenceAcq a s) := by
  unfold Machine.execFenceAcq
  exact .withVar (fun _ _ h => .acquireOn h (fun _ h => .next h.retire)) h

/-! ### Atomics (12 R274; 11 R243) -/

theorem Lands.withAtomic {a : Reg} {at_ : Atom} {k : List Nat → Bool → State → Out} {s : State}
    (hk : ∀ a b t, Canonical t → Lands (k a b t)) (h : Canonical s) :
    Lands (withAtomic a at_ k s) := by
  unfold Machine.withAtomic
  refine .withFar (fun _ _ h => ?_) h
  split
  · exact hk _ _ _ h
  · exact .next h

theorem Lands.sendAtomic {dst : RLoc} {at_ : Atom} {pas : List Nat} {heap counted : Bool} {va : Nat} {k : State → State}
    {s : State} (hk : ∀ t, Canonical t → Canonical (k t)) (h : Canonical s) :
    Lands (sendAtomic dst at_ pas heap counted va k s) := by
  unfold Machine.sendAtomic
  split
  · exact .next h.hold
  · exact .next (hk _ h.send)

theorem Lands.atomicWord {d a : Reg} {at_ : Atom} {s : State} (h : Canonical s) : Lands (atomicWord d a at_ s) :=
  .withAtomic (fun _ _ _ h => .sendAtomic (fun _ h => h.retire) h) h

/-! ### Locks (11 R246; 12 R275) -/

theorem Lands.lockAcquire {op : AtomOp} {got : Nat → Bool} {d a : Reg} {s : State} (h : Canonical s) :
    Lands (lockAcquire op got d a s) := by
  unfold Machine.lockAcquire
  dsimp only
  split
  · exact .next h.hold
  · split
    · exact .acquireOn h (fun _ h => .next h.modG.retire)
    · exact .next h.modG.retire
  · exact .withAtomic (fun _ _ _ h => .sendAtomic (fun _ h => h.modG.hold) h) h

theorem Lands.lockRelease {op : AtomOp} {d a : Reg} {s : State} (h : Canonical s) : Lands (lockRelease op d a s) :=
  .withAtomic (fun _ _ _ h => .releaseOn h (fun _ h => .sendAtomic (fun _ h => h.retire) h)) h

/-! ### The core store point (11 R233, R234) -/

theorem Lands.execCoreStorePointPass {gid : Nat} {s : State} (h : Canonical s) : Lands (execCoreStorePointPass gid s) := by
  unfold Machine.execCoreStorePointPass
  dsimp only
  split
  · exact .next h
  split
  · exact .next h
  split
  · exact .next h
  · exact .next h.setBuf.modCore.same.setGroup

/-! ### Loads at their ordering points (11 R235; 09 R190) -/

theorem Canonical.loadLine {s : State} {g : Group} {r : Req} {line : Nat} (h : Canonical s) :
    Canonical (s.loadLine g r line) := by
  unfold State.loadLine
  dsimp only
  split
  · exact h.nearLoad
  split
  · exact h.lookupEvent.serveLoad.svtSee
  · exact h

theorem Canonical.reqDone {s : State} {g : Group} {r : Req} (h : Canonical s) : Canonical (s.reqDone g r) := by
  unfold State.reqDone
  split
  · exact h.colourDown
  · exact h

theorem Lands.withRead {va : Int} {len align : Nat} {k : List Byte → State → Out} {s : State}
    (hk : ∀ a t, Canonical t → Lands (k a t)) (h : Canonical s) :
    Lands (withRead va len align k s) := by
  unfold Machine.withRead
  dsimp only
  refine .withFar (fun _ _ h => ?_) h
  split
  · split
    · exact .next h.hold
    split
    · exact .next h.svtAsk.hold
    split
    · exact .next h.partitionReset
    · exact hk _ _ (.foldl (fun _ _ h => h.loadLine) h.setGroup)
  · exact .next h

theorem Canonical.loadArrives {s : State} {g : Group} {k : Nat} {r : Req} (h : Canonical s) :
    Canonical (s.loadArrives g k r) := by
  unfold State.loadArrives
  dsimp only
  split
  · refine .partitionReset (.modGroup (.reqDone (.foldl (fun _ _ h => h.loadLine) ?_)))
    split
    · exact h
    · exact h.setGroup
  refine .modGroup (.reqDone (.foldl (fun _ _ h => h.loadLine) ?_))
  split
  · exact h
  · exact h.setGroup

theorem Lands.execOrderingPointArrival {r : Arrive} {s : State} (h : Canonical s) : Lands (execOrderingPointArrival r s) := by
  unfold Machine.execOrderingPointArrival
  split
  · split
    · refine .next ?_
      split
      · exact h
      split
      · exact h.svtAsk
      · exact h.setBuf.storeArrives
    · exact .next h
  split
  · exact .next h
  split
  · refine .next ?_
    split
    · exact h
    split
    · exact h.svtAsk
    · exact h.loadArrives
  · exact .next h

theorem Canonical.writeReturn {s : State} {gid : Nat} {dst : RLoc} {v : Word} (h : Canonical s) :
    Canonical (s.writeReturn gid dst v) := by
  unfold State.writeReturn
  dsimp only
  split
  · exact h.modGroup.emitPacket
  · exact h.modGroup

theorem Lands.execFarLoadReturn {gid k : Nat} {s : State} (h : Canonical s) : Lands (execFarLoadReturn gid k s) := by
  unfold Machine.execFarLoadReturn
  dsimp only
  split
  · exact .next h
  split
  · exact .next h
  split
  · split
    · exact .next h.setGroup.modGroup
    · exact .next h.setGroup
    · exact .next h.setGroup.writeReturn
  · exact .next h

/-! ### Atomics (11 R243 to R246; 12 Table 12.1) -/

theorem Canonical.atomAsk {s : State} {w : Waiting} (h : Canonical s) : Canonical (s.atomAsk w) := by
  unfold State.atomAsk
  split
  · exact h.svtAsk
  · exact h

/-! ### Order blocks and the order gate (21 R390, R393) -/

theorem Canonical.logElement {s : State} {die enc line : Nat} {pathF : Bool} {ord : Nat} (h : Canonical s) :
    Canonical (s.logElement die enc line pathF ord) := by
  unfold State.logElement
  dsimp only
  split
  · split
    · exact h.modDie
    · exact h.appendBlock.modDie
  split
  · exact h.appendBlock.modDie
  · exact h.modDie

theorem Canonical.flushBlocks {s : State} {enc : Nat} (h : Canonical s) : Canonical (s.flushBlocks enc) :=
  .foldl (fun _ _ h => .modDie (.foldl (fun _ _ h => h.appendBlock) h)) h
theorem Canonical.outsideAtomic {s : State} {die line : Nat} {pathF : Bool} {own : Nat → Bool} (h : Canonical s) :
    Canonical (s.outsideAtomic die line pathF own) := .foldl (fun _ _ h => h.logElement) h.markOutside

theorem Canonical.noteOrder {s : State} {w : Waiting} {took : Nat} (h : Canonical s) : Canonical (s.noteOrder w took) := by
  unfold State.noteOrder
  dsimp only
  refine .outsideAtomic ?_
  split
  · exact h.logElement.modEnc
  · exact h.modEnc
  · exact h

theorem Canonical.runAtomics {s : State} {ms : List Waiting} {took : Nat} (h : Canonical s) :
    Canonical (s.runAtomics ms took) := by
  unfold State.runAtomics
  dsimp only
  split
  · exact h
  split
  · refine .partitionReset (.foldl (fun _ _ h => h.noteOrder.modGroup) (.latchAll (.serveStore (.serveLoad (.lookupEvent ?_)))))
    split
    · exact .foldl (fun _ _ h => h.svtName.reqDone) h
    · exact .foldl (fun _ _ h => h.event) (.foldl (fun _ _ h => h.svtName.reqDone) h)
  refine .foldl (fun _ _ h => h.noteOrder.modGroup) (.latchAll (.serveStore (.serveLoad (.lookupEvent ?_))))
  split
  · exact .foldl (fun _ _ h => h.svtName.reqDone) h
  · exact .foldl (fun _ _ h => h.event) (.foldl (fun _ _ h => h.svtName.reqDone) h)

theorem Canonical.dropHeld {s : State} {g : Group} (h : Canonical s) : Canonical (s.dropHeld g) :=
  .modGroup (.foldl (fun _ _ h => h.reqDone) h)

theorem Canonical.gateHold {s : State} {w : Waiting} (h : Canonical s) : Canonical (s.gateHold w) := by
  unfold State.gateHold
  dsimp only
  split
  · split
    · exact .getD (.map (fun _ => h.modGroup.dropHeld)) h.modGroup
    · exact h.modGroup
  split
  · exact .getD (.map (fun _ => h.modGroup.dropHeld)) h.modGroup
  · exact h.modGroup

theorem Lands.execAtomicExecute {ms : List (Nat × Nat)} {s : State} (h : Canonical s) : Lands (execAtomicExecute ms s) := by
  unfold Machine.execAtomicExecute
  dsimp only
  split
  · exact .next h
  · exact .next h
  · split
    · exact .next h.atomAsk
    split
    · exact .next h.runAtomics
    · exact .next h.gateHold
  split
  · exact .next h.runAtomics
  · exact .next h

theorem Lands.execOrderGateRelease {gid k : Nat} {s : State} (h : Canonical s) : Lands (execOrderGateRelease gid k s) := by
  unfold Machine.execOrderGateRelease
  split
  · split
    · split
      · exact .next h.runAtomics
      · exact .next h
    · exact .next h
  · exact .next h

theorem Canonical.reportOf {s : State} {g : Group} {r : Report} (h : Canonical s) : Canonical (s.reportOf g r) := by
  unfold State.reportOf
  split
  · split
    · exact h
    · exact h.modTask
  · exact h

theorem Lands.execOrderGateTimeout {gid k : Nat} {s : State} (h : Canonical s) : Lands (execOrderGateTimeout gid k s) := by
  unfold Machine.execOrderGateTimeout
  dsimp only
  split
  · split
    · exact .next h.modEnc.reportOf
    · exact .next h
  · exact .next h

theorem Lands.execAtomicReturn {gid k : Nat} {s : State} (h : Canonical s) : Lands (execAtomicReturn gid k s) := by
  unfold Machine.execAtomicReturn
  dsimp only
  split
  · split
    · refine .next ?_
      split
      · exact h.setGroup
      · exact h.setGroup.writeReturn
    · exact .next h
  · exact .next h

/-! ### Cluster windows (09 R188; 12 R267) -/

theorem Lands.execWindowStorePerformed {gid k : Nat} {s : State} (h : Canonical s) :
    Lands (execWindowStorePerformed gid k s) := by
  unfold Machine.execWindowStorePerformed
  dsimp only
  split
  · exact .next h
  split
  · exact .next h
  · exact .next (.modGroup (.foldl (fun _ _ h => h.performPart) h))

theorem Lands.execWindowLoadReturn {gid : Nat} {s : State} (h : Canonical s) : Lands (execWindowLoadReturn gid s) :=
  .next h.modGroup

/-! ### Join (07 R166) -/

theorem Canonical.retireGrid {s : State} {task : Nat} (h : Canonical s) : Canonical (s.retireGrid task) := by
  unfold State.retireGrid
  have hm := h.modTask (t := task) (f := fun t => { t with retired := true })
  exact hm.regroups (hm.listed.map fun _ => ⟨rfl, rfl⟩)

theorem Lands.execJoin {a b : Reg} {s : State} (h : Canonical s) : Lands (execJoin a b s) := by
  unfold Machine.execJoin
  dsimp only
  split
  · exact .next h.modG.retire
  split
  · exact .next h.takeFault
  split
  · exact .next h.takeFault
  split
  · split
    · exact .next h.modG.park
    refine .next (.retire (.modG ?_))
    split
    · exact h.retireGrid
    · exact h
  split
  · exact .next h.modG.park
  refine .next (.retire (.modG ?_))
  split
  · exact h.retireGrid
  · exact h

/-! ### Events (07 R167) -/

theorem Lands.packageRelease {k : State → Out} {s : State} (hk : ∀ t, Canonical t → Lands (k t)) (h : Canonical s) :
    Lands (packageRelease k s) := by
  unfold Machine.packageRelease
  split
  · exact .next h.holdFence
  · exact hk _ h.modG

theorem Lands.execEvtWait {a : Reg} {s : State} (h : Canonical s) : Lands (execEvtWait a s) := by
  unfold Machine.execEvtWait
  dsimp only
  split
  · exact .next h.hold
  · split
    · exact .next h.modG.park
    · exact .next h.modG.retire
  refine .withAtomic (fun _ _ _ h => ?_) h
  split
  · exact .next h.park
  · exact .sendAtomic (fun _ h => h.modG.hold) h

/-! ### Barriers (07 R168, R169) -/

theorem Canonical.setBarrier {s : State} {n : Nat} {b : Barrier} (h : Canonical s) : Canonical (s.setBarrier n b) := h.modTeam

theorem Lands.arrive {a : Reg} {n : Nat} {k : State → Out} {s : State} (hk : ∀ t, Canonical t → Lands (k t)) (h : Canonical s) :
    Lands (arrive a n k s) := by
  unfold Machine.arrive
  dsimp only
  split
  · exact .next h.takeFault
  split
  · exact .next h.hold
  · exact hk _ h.setBarrier.modG

theorem Lands.barrierWait {n : Nat} {s : State} (h : Canonical s) : Lands (barrierWait n s) := by
  unfold Machine.barrierWait
  dsimp only
  split
  · exact .next h.modG.retire
  split
  · exact .next h.modG.retire
  · exact .next h.park

theorem Lands.execBarSync {a : Reg} {n : BitVec 4} {s : State} (h : Canonical s) : Lands (execBarSync a n s) := by
  unfold Machine.execBarSync
  split
  · exact .barrierWait h
  · exact .arrive (fun _ h => .barrierWait h.modG) h

/-! ### Election and regroup (07 R170, R171; 05 R120) -/

theorem Lands.execElect {d : Reg} {s : State} (h : Canonical s) : Lands (execElect d s) := by
  unfold Machine.execElect
  dsimp only
  split
  · exact .next h.modG.modTeam.setS.retire
  · exact .next h.modG.setS.retire

theorem Canonical.faultGroup {s : State} {g : Group} {code : Code} {fra : Word} (h : Canonical s) :
    Canonical (s.faultGroup g code fra) := h.reportOf.modGroup
theorem Canonical.regroup {s : State} {gs : List Group} (h : Canonical s) : Canonical (s.regroup gs) :=
  .foldl (fun _ _ h => h.setGroup) h

theorem Lands.execGRegroup {d a : Reg} {s : State} (h : Canonical s) : Lands (execGRegroup d a s) := by
  unfold Machine.execGRegroup
  dsimp only
  split
  · exact .next h.modG.setS.retire
  split
  · exact .next h.takeFault
  split
  · exact .next h.takeFault
  split
  · exact .next (.takeFault (.foldl (fun _ _ h => h.faultGroup) h))
  split
  · exact .next h.takeFault
  split
  · exact .next h.takeFault
  split
  · exact .next h.hold
  split
  · exact .next h.park
  · exact .next h.regroup.modG.setS.retire

theorem Lands.execYield {s : State} (h : Canonical s) : Lands (execYield s) := .next h.retire.modG

/-! ### Monitors (07 R173) -/

theorem Canonical.enterMon {s : State} {core gid : Nat} {f : Bool} (h : Canonical s) : Canonical (s.enterMon core gid f) := by
  unfold State.enterMon
  dsimp only
  split
  · split
    · exact h.modCore.modCore.modGroup
    · exact h.modCore
  · exact h.modCore

theorem Lands.execMonArm {a} {s : State} (h : Canonical s) : Lands (execMonArm a s) := by
  refine .withVar (fun _ _ h => ?_) h
  dsimp only
  split
  · exact .next h.svtAsk.hold
  · exact .next h.modG.svtSee.enterMon.retire

theorem Lands.execMonWait {d : Reg} {s : State} (h : Canonical s) : Lands (execMonWait d s) := by
  unfold Machine.execMonWait
  dsimp only
  split
  · exact .next h.setS.retire
  split
  · exact .next h.park
  · exact .next h.modG.modCore.setS.retire

theorem Lands.execMonitorSpurious {gid : Nat} {f : Bool} {s : State} (h : Canonical s) : Lands (execMonitorSpurious gid f s) :=
  .next h.modGroup

/-! ### Counters and tags (07 R174, R175) -/

theorem Lands.execWait {t c l n : BitVec 3} {s : State} (h : Canonical s) : Lands (execWait t c l n s) := by
  unfold Machine.execWait
  split
  · exact .next h.retire
  · exact .next h.park

theorem Lands.tagWait {all : Bool} {d a : Reg} {s : State} (h : Canonical s) : Lands (tagWait all d a s) := by
  unfold Machine.tagWait
  dsimp only
  split
  · exact .next h.setS.retire
  · exact .next h.park

theorem Lands.execTagFfs {d a : Reg} {s : State} (h : Canonical s) : Lands (execTagFfs d a s) := .next h.setS.retire
theorem Lands.execTagClr {a : Reg} {s : State} (h : Canonical s) : Lands (execTagClr a s) := .next h.modCore.retire

end Sys2Proof.Machine
end

section
/-! PROOFS. Each operation keeps the canonical form: launches, placement, Chandler's stages and fabric windows. -/

namespace Sys2Proof.Machine

/-! ### launch (07 R165) -/

theorem Lands.execLaunch {d a : Reg} {s : State} (h : Canonical s) : Lands (execLaunch d a s) := by
  unfold Machine.execLaunch
  dsimp only
  split
  · exact .next h.takeFault
  split
  · exact .next h.takeFault
  refine .withRead (fun _ _ h => ?_) h
  split
  · exact .next h.takeFault
  split
  · exact .next h.park
  · exact .packageRelease (fun _ h => .next h.same.modTeam.setS.retire) h

/-! ### Fault records (17 R327) -/

theorem Canonical.faultWrite {s : State} {enc : Nat} {r : Report} {supp : Nat} (h : Canonical s) :
    Canonical (s.faultWrite enc r supp) := by
  unfold State.faultWrite
  dsimp only
  split
  · exact h.modEnc
  · exact h.hubStore.modEnc

/-! ### Entering the window -/

theorem Canonical.arm {s : State} {t : Task} (h : Canonical s) : Canonical (s.arm t).2 := by
  unfold State.arm
  dsimp only
  split
  · exact h
  · exact .snd h.modEnc

theorem Canonical.enterWindow {s : State} {t : Task} (h : Canonical s) : Canonical (s.enterWindow t) := h.same.arm.same
theorem Canonical.countKicked {s : State} {enc q at_ : Nat} (h : Canonical s) : Canonical (s.countKicked enc q at_) := h.countPeek

theorem Lands.execAdmissionOpportunity {die : Nat} {s : State} (h : Canonical s) : Lands (execAdmissionOpportunity die s) := by
  unfold Machine.execAdmissionOpportunity
  dsimp only
  split
  · exact .next h
  split
  · split
    · exact .next h.modDie.modTeam.enterWindow
    · exact .next h.modDie.modTeam
  split
  · exact .next h.modDie
  split
  · exact .next h.modDie.modEnc.countKicked.partitionReset
  split
  · exact .next h.modDie.modEnc.countKicked.faultWrite
  split
  · exact .next h.modDie.modEnc.countKicked.faultWrite
  · exact .next h.modDie.modEnc.countKicked.enterWindow

/-! ### When a parked instruction's condition holds -/

theorem Lands.execParkWake {gid : Nat} {s : State} (h : Canonical s) : Lands (execParkWake gid s) := by
  unfold Machine.execParkWake
  split
  · exact .next h
  split
  · exact .next h
  · exact .next h.setGroup

/-! ### Taking rows (09 R181) -/

theorem Canonical.takeRows {s : State} {core enc team n : Nat} (h : Canonical s) : Canonical (s.takeRows core enc team n).2 := by
  unfold State.takeRows
  dsimp only
  split
  · exact h.makeRoom
  · exact .foldl (fun _ _ h => h.takeRow) h.makeRoom

theorem Canonical.takePlace {s : State} {enc team n : Nat} {cs : List Nat} (h : Canonical s) :
    Canonical (s.takePlace enc team n cs).2 := by
  induction cs generalizing s with
  | nil => exact h
  | cons c cs ih =>
    have rows := h.takeRows (core := c) (enc := enc) (team := team) (n := n)
    unfold State.takePlace
    split
    · next heq => exact .ofSnd heq rows
    · next heq =>
      have rest := ih (.ofSnd heq rows)
      split
      · next heq => exact .ofSnd heq rest
      · next heq => exact .snd (.modCore (.ofSnd heq rest))

/-! ### Starting groups (01 R12; 05 R123, R125) -/

theorem Canonical.startTeam {s : State} {t : Task} {m : Team} (h : Canonical s) : Canonical (s.startTeam t m) := by
  unfold State.startTeam
  refine .modTask (.foldl (fun _ _ h => h.regroups (h.listed.put rfl)) ?_)
  exact (Canonical.foldl (fun _ _ h => h.modCore) h).same

theorem Canonical.takeBest {s : State} {t : Task} {id : Nat} {ns : List Nat} {ps : List (List Nat)} {n : Nat} (h : Canonical s) :
    Canonical (s.takeBest t id ns ps n).2 := by
  induction n generalizing s ps with
  | zero => exact h
  | succ n ih =>
    unfold State.takeBest
    split
    · exact h
    split
    · next heq => exact .ofSnd heq h.takePlace
    · next heq => exact ih (.ofSnd heq h.takePlace)

theorem Canonical.seatTeam {s : State} {t : Task} {ix : Nat} {ps : List (List Nat)} (h : Canonical s) :
    Canonical (s.seatTeam t ix ps).2 := by
  unfold State.seatTeam
  dsimp only
  split
  · next heq =>
      exact .ofSnd heq h.takeBest
  next heq =>
    exact .ofSnd heq h.takeBest

/-! ### Halting (18 R347; 05 R134) -/

theorem Canonical.settleRows {s : State} {team : Nat} (h : Canonical s) : Canonical (s.settleRows team) := by
  unfold State.settleRows
  dsimp only
  split
  · exact h
  split
  · exact .foldl (fun _ _ h => h.modCore) h
  · exact h

theorem Canonical.opOver {s : State} {gid core : Nat} (h : Canonical s) : Canonical (s.opOver gid core) := by
  unfold State.opOver
  split
  · split
    · exact h.settleRows.dropBuckets
    · exact h
  · exact h

theorem Canonical.haltOne {s : State} {gid : Nat} {keepPark : Bool} (h : Canonical s) : Canonical (s.haltOne gid keepPark) := by
  unfold State.haltOne
  dsimp only
  split
  · exact h
  split
  · exact h.emitPacket.setGroup
  · exact h

theorem Canonical.haltTeam {s : State} {team : Nat} {keepPark : Bool} (h : Canonical s) :
    Canonical (s.haltTeam team keepPark) := by
  unfold State.haltTeam
  dsimp only
  split
  · exact h
  · exact .settleRows (.same (.modTeam (.foldl (fun _ _ h => h.haltOne) h)))

theorem Canonical.runEnd {s : State} (h : Canonical s) : Canonical s.runEnd := by
  unfold State.runEnd
  dsimp only
  split
  · exact h.nextPath
  split
  · exact h.release.haltOne
  split
  · exact h.release.haltOne.modTeam.settleRows
  · exact h.release

theorem Canonical.evict {s : State} {team : Nat} (h : Canonical s) : Canonical (s.evict team) :=
  .foldl (fun _ _ h => h.dropBuckets) h.modTeam.haltTeam

theorem Canonical.takeEvicting {α : Type} {t : Task} {take : State → Option α × State} {n : Nat} {s : State}
    (hk : ∀ s, Canonical s → Canonical (take s).2) (h : Canonical s) : Canonical (State.takeEvicting t take n s).2 := by
  induction n generalizing s with
  | zero => exact hk s h
  | succ n ih =>
    unfold State.takeEvicting
    split
    · next heq => exact .ofSnd heq (hk s h)
    next heq =>
      have ht := Canonical.ofSnd heq (hk s h)
      split
      · exact ht
      · exact ih ht.evict

/-! ### Resuming (18 R349; 08 R178) -/

theorem Canonical.readyTeam {s : State} {t : Team} (h : Canonical s) : Canonical (s.readyTeam t) := by
  unfold State.readyTeam
  dsimp only
  refine .foldl (fun _ _ h => ?_) (.foldl (fun _ _ h => h.modCore) h)
  split
  · exact h
  split
  · exact h.setGroup.emitPacket
  · exact h

theorem Canonical.restoreCore {s : State} {e team core n : Nat} (h : Canonical s) : Canonical (s.restoreCore e team core n) := by
  induction n generalizing s with
  | zero => exact h
  | succ n ih =>
    unfold State.restoreCore
    split
    · exact h
    dsimp only
    split
    · exact h.makeRoom
    · exact ih h.makeRoom.takeRow.restoreRow

theorem Canonical.restoreTeam {s : State} {x : Task} {t : Team} (h : Canonical s) : Canonical (s.restoreTeam x t) :=
  .foldl (fun _ _ h => h.restoreCore) h

theorem Canonical.resumeTeam {s : State} {team : Nat} (h : Canonical s) : Canonical (s.resumeTeam team) := by
  unfold State.resumeTeam
  dsimp only
  split
  · exact h
  split
  · exact h
  split
  · exact h.restoreTeam.readyTeam
  · exact h.restoreTeam

theorem Canonical.spillTeam {s : State} {t : Team} (h : Canonical s) : Canonical (s.spillTeam t) :=
  .foldl (fun _ _ h => .foldl (fun _ _ h => .getD (.claimRow h) h) h) h

theorem Canonical.seatGroups {s : State} {x : Task} {team : Nat} (h : Canonical s) : Canonical (s.seatGroups x team) := by
  unfold State.seatGroups
  dsimp only
  split
  · exact h
  refine .foldl (fun _ _ h => ?_) (.foldl (fun _ _ h => h.modGroup) (.foldl (fun _ _ h => h.modCore) (.modTeam (.foldl
    (fun _ _ h => ?_) h))))
  · split
    · exact h.enterMon
    · exact h
  · split
    · exact h.modCore.setGroup
    · exact h

theorem Canonical.moveTeam {s : State} {x : Task} {t : Team} {cs : List Nat} {rows : List (List Nat)} (h : Canonical s) :
    Canonical (s.moveTeam x t cs rows) := .foldl (fun _ _ h => h.dropBuckets) h.modTeam.seatGroups
theorem Canonical.restoreAll {s : State} {x : Task} {team : Nat} {cs : List Nat} {rows : List (List Nat)} (h : Canonical s) :
    Canonical (s.restoreAll x team cs rows) := .foldl (fun _ _ h => .foldl (fun _ _ h => h.restoreRow) h) h

theorem Canonical.takeOwn {x : Task} {team : Nat} {s : State} (h : Canonical s) : Canonical (State.takeOwn x team s).2 := by
  unfold State.takeOwn
  dsimp only
  split
  · exact h
  split
  · split
    · exact h.restoreTeam
    · exact h.restoreTeam.settleRows
  · exact h

theorem Canonical.backHome {s : State} {x : Task} {team : Nat} (h : Canonical s) : Canonical (s.backHome x team) :=
  h.seatGroups.resumeTeam

theorem Canonical.seatOwn {s : State} {x : Task} {team : Nat} (h : Canonical s) : Canonical (s.seatOwn x team) := by
  unfold State.seatOwn
  split
  · next heq =>
      exact .backHome (.ofSnd heq (.takeEvicting (fun _ h => h.takeOwn) h))
  next heq =>
    exact .ofSnd heq (.takeEvicting (fun _ h => h.takeOwn) h)

theorem Canonical.seatAgain {s : State} {x : Task} {t : Team} (h : Canonical s) : Canonical (s.seatAgain x t) := by
  unfold State.seatAgain
  dsimp only
  split
  · next heq =>
      exact .ofSnd heq (.takeEvicting (fun _ h => h.takeBest) h)
  next heq =>
    split
    · split
      · exact .readyTeam (.restoreAll (.moveTeam (.ofSnd heq (.takeEvicting (fun _ h => h.takeBest) h))))
      · exact .restoreAll (.moveTeam (.ofSnd heq (.takeEvicting (fun _ h => h.takeBest) h)))
    · exact .restoreAll (.moveTeam (.ofSnd heq (.takeEvicting (fun _ h => h.takeBest) h)))

theorem Canonical.returnTeam {s : State} {t : Team} (h : Canonical s) : Canonical (s.returnTeam t) := by
  unfold State.returnTeam
  dsimp only
  split
  · exact h
  split
  · next heq =>
      exact .backHome (.ofSnd heq h.takeOwn)
  next heq =>
    split
    · exact .seatOwn (.ofSnd heq h.takeOwn)
    split
    · exact .seatOwn (.spillTeam (.ofSnd heq h.takeOwn))
    · exact .seatAgain (.spillTeam (.ofSnd heq h.takeOwn))

/-! ### The attempt (08 R177) -/

theorem Canonical.placeTask {s : State} {task n : Nat} (h : Canonical s) : Canonical (s.placeTask task n) := by
  induction n generalizing s with
  | zero => exact h
  | succ n ih =>
    unfold State.placeTask
    split
    · exact h
    split
    · exact h
    split
    · exact ih h.startTeam
    split
    · next heq => exact ih (.startTeam (.ofSnd heq (.takeEvicting (fun _ h => h.seatTeam) h)))
    · next heq => exact .ofSnd heq (.takeEvicting (fun _ h => h.seatTeam) h)

theorem Canonical.recall {s : State} (h : Canonical s) : Canonical s.recall := .foldl (fun _ _ h => h.modTeam) h

theorem Lands.execPlacementAttempt {part : Nat} {s : State} (h : Canonical s) : Lands (execPlacementAttempt part s) := by
  unfold Machine.execPlacementAttempt
  dsimp only
  refine .next (.foldl (fun _ _ h => h.placeTask) (.foldl (fun _ _ h => ?_) h.recall))
  split
  · exact h.returnTeam
  · exact h.resumeTeam

/-! ### Slices (18 R347, R349) -/

theorem Lands.execEnclaveHalt {enc : Nat} {s : State} (h : Canonical s) : Lands (execEnclaveHalt enc s) := by
  unfold Machine.execEnclaveHalt
  dsimp only
  split
  · exact .next h
  · exact .next (.foldl (fun _ _ h => h.haltTeam) h.modEnc)

theorem Lands.execEnclaveResume {enc : Nat} {s : State} (h : Canonical s) : Lands (execEnclaveResume enc s) := by
  unfold Machine.execEnclaveResume
  dsimp only
  split
  · exact .next h
  · exact .next (.foldl (fun _ _ h => h.resumeTeam) h.modEnc)

/-! ### Depend and Arbitrate (11 R253, R255) -/

theorem Lands.execDependRelease {task : Nat} {s : State} (h : Canonical s) : Lands (execDependRelease task s) := by
  unfold Machine.execDependRelease
  dsimp only
  split
  · exact .next h
  split
  · exact .next h
  · exact .next h.same.modTask

theorem Lands.execArbitrateRelease {task : Nat} {s : State} (h : Canonical s) : Lands (execArbitrateRelease task s) := by
  unfold Machine.execArbitrateRelease
  dsimp only
  split
  · exact .next h
  split
  · exact .next h
  · exact .next (.foldl (fun _ _ h => h.modTask) h.modTask)

/-! ### Lease counts (10 R217, R221, R229) -/

theorem Canonical.raiseLease {s : State} {f : Nat} (h : Canonical s) : Canonical (s.raiseLease f) := h.setPot

theorem Canonical.releaseLeases {s : State} {task : Nat} (h : Canonical s) : Canonical (s.releaseLeases task) := by
  unfold State.releaseLeases
  split
  · exact h
  · exact .modTask (.foldl (fun _ _ h => h.lowerLease) h)

/-! ### Residency requests (10 R222; 18 R335; 23 R396) -/

theorem Canonical.postHeld {s : State} {enc n : Nat} (h : Canonical s) : Canonical (s.postHeld enc n) := by
  induction n generalizing s with
  | zero => exact h
  | succ n ih =>
    unfold State.postHeld
    dsimp only
    split
    · exact h
    split
    · exact h
    · exact ih h.hubStore.hubStore.modEnc

theorem Canonical.requestPages {s : State} {t : Task} {vas : List Nat} (h : Canonical s) : Canonical (s.requestPages t vas) :=
  h.modEnc.postHeld

theorem Lands.execPagerGetAdvance {enc : Nat} {s : State} (h : Canonical s) : Lands (execPagerGetAdvance enc s) := by
  unfold Machine.execPagerGetAdvance
  dsimp only
  split
  · exact .next h
  · exact .next h.hubStore.postHeld

/-! ### Raising (10 R221) -/

theorem Canonical.setAD {s : State} {part : Nat} {l : Leaf} {d : Bool} (h : Canonical s) : Canonical (s.setAD part l d) :=
  h.hubStore
theorem Canonical.failTask {s : State} {t : Task} {code : Code} {fra : Nat} (h : Canonical s) :
    Canonical (s.failTask t code fra) := h.modTask

/-! ### Fixing a forwarding die (11 R257; 13 R281) -/

theorem SomeCanonical.seatAll {s : State} {t : Task} {ps : List (List Nat)} {ix n : Nat} (h : Canonical s) :
    SomeCanonical (s.seatAll t ps ix n) := by
  induction n generalizing s ix with
  | zero => exact .some h
  | succ n ih =>
    unfold State.seatAll
    split
    · next heq => exact ih (Canonical.ofSnd heq h.seatTeam).same
    · exact .none

theorem Canonical.fixForward {s : State} {task : Nat} (h : Canonical s) : Canonical (s.fixForward task) := by
  unfold State.fixForward
  split
  · exact h
  · exact .getD (.findSome (fun _ => .mapState (fun _ h => h.modTask) (.seatAll h)) _) h

/-! ### The edge engine (11 R256, R258, R259) -/

theorem Canonical.lineClean {s : State} {part cls ran pa : Nat} (h : Canonical s) : Canonical (s.lineClean part cls ran pa) :=
  .foldl (fun _ _ h => h.writeBack) (.foldl (fun _ _ h => h.writeBack) h)
theorem Canonical.lineHome {s : State} {part cls ran pa : Nat} (h : Canonical s) : Canonical (s.lineHome part cls ran pa) :=
  .foldl (fun _ _ h => h.dropLine) h.lineClean

theorem Canonical.moveTo {s : State} {part cls die : Nat} {l : LLine} (h : Canonical s) :
    Canonical (s.moveTo part cls die l) := by
  unfold State.moveTo
  dsimp only
  split
  · exact h.dropLine.setLine
  · exact h.dropLine.allocate
  · exact h.dropLine.memWrite.countMem

theorem Canonical.lineForward {s : State} {part cls ran dst pa : Nat} {again : Bool} (h : Canonical s) :
    Canonical (s.lineForward part cls ran dst pa again) := by
  unfold State.lineForward
  dsimp only
  refine .foldl (fun _ _ h => h.dropLine) (.foldl (fun _ _ h => ?_) (.foldl (fun _ _ h => ?_) (.foldl
    (fun _ _ h => h.writeBack) h)))
  · split
    · exact h
    · exact h.moveTo
  · split
    · exact h.setLine
    · exact h.writeBack.dropLine

theorem Canonical.edgeLine {s : State} {t : Task} {o : Overlap} {e : EdgeAt} {va : Nat} (h : Canonical s) :
    Canonical (s.edgeLine t o e va) := by
  unfold State.edgeLine
  dsimp only
  split
  · exact h
  split
  · exact h.lineClean
  · exact h.lineHome
  split
  · split
    · exact h.lineForward
    · exact h.lineHome
  · exact h.lineHome

theorem Canonical.edgeAt {s : State} {t : Task} {os : List Overlap} {e : EdgeAt} (h : Canonical s) :
    Canonical (s.edgeAt t os e) := h.modTask.modEnc

theorem Canonical.edgeBegin {s : State} {enc queue : Nat} (h : Canonical s) : Canonical (s.edgeBegin enc queue) := by
  unfold State.edgeBegin
  split
  · split
    · exact h
    · exact h.edgeAt
  · exact h

theorem Canonical.edgeEnd {s : State} {t : Task} {os : List Overlap} (h : Canonical s) : Canonical (s.edgeEnd t os) := by
  unfold State.edgeEnd
  refine .edgeBegin (.modEnc (.modTask (canonical_of_fields h.memory ?_ h.harts h.listed)))
  dsimp only
  exact smWf_smMap _ _ h.cores

theorem Lands.execEdgeLineAction {task : Nat} {s : State} (h : Canonical s) : Lands (execEdgeLineAction task s) := by
  unfold Machine.execEdgeLineAction
  dsimp only
  split
  · exact .next h
  split
  · exact .next h
  split
  · exact .next h.edgeEnd
  · exact .next h.edgeLine.edgeAt

/-! ### LEASE_WALK -/

theorem Canonical.leaseRaise {s : State} {t : Task} {ps : List (Nat × Leaf × Nat)} (h : Canonical s) :
    Canonical (s.leaseRaise t ps) := by
  unfold State.leaseRaise
  dsimp only
  split
  · exact h.modTask
  · exact .edgeBegin (.fixForward (.modTask (.foldl (fun _ _ h => h.raiseLease) (.foldl (fun _ _ h => h.setAD) h))))

theorem Canonical.leaseWalk {s : State} {t : Task} (h : Canonical s) : Canonical (s.leaseWalk t) := by
  unfold State.leaseWalk
  dsimp only
  split
  · exact h.partitionReset
  split
  · exact .failTask (.foldl (fun _ _ h => h.countWalk) h)
  split
  · split
    · exact .failTask (.modTask (.requestPages (.foldl (fun _ _ h => h.countWalk) h)))
    · exact .modTask (.requestPages (.foldl (fun _ _ h => h.countWalk) h))
  · exact .modTask (.requestPages (.foldl (fun _ _ h => h.countWalk) h))
  · exact .leaseRaise (.requestPages (.foldl (fun _ _ h => h.countWalk) h))

theorem Lands.execLeaseWalk {task : Nat} {s : State} (h : Canonical s) : Lands (execLeaseWalk task s) := by
  unfold Machine.execLeaseWalk
  split
  · exact .next h
  split
  · exact .next h
  · exact .next h.leaseWalk

theorem Lands.execLeasePendingTimeout {task : Nat} {s : State} (h : Canonical s) : Lands (execLeasePendingTimeout task s) := by
  unfold Machine.execLeasePendingTimeout
  split
  · exact .next h
  split
  · exact .next h
  · exact .next h.leaseWalk

/-! ### Kick registers (18 R341) -/

theorem Lands.execKickStore {q enc off size : Nat} {v : Word} {s : State} (h : Canonical s) :
    Lands (execKickStore q enc off size v s) := by
  unfold Machine.execKickStore
  dsimp only
  split
  · exact .next h
  split
  · exact .next h.modEnc
  · exact .next h.modEnc

theorem Lands.execKickStoreAccept {enc q : Nat} {s : State} (h : Canonical s) : Lands (execKickStoreAccept enc q s) := by
  unfold Machine.execKickStoreAccept
  dsimp only
  split
  · split
    · exact .next h
    · exact .next h.modEnc
  · exact .next h

/-! ### The memory behind a window (25 R409) -/

theorem Canonical.winWrite {s : State} {w : FWin} {off : Nat} {bs : List Byte} (h : Canonical s) :
    Canonical (s.winWrite w off bs) := by
  unfold State.winWrite
  split
  · exact h.modCore
  · exact .foldl (fun _ _ h => h.hubStore) h

theorem Canonical.countWin {s : State} {w : FWin} {off n : Nat} (h : Canonical s) : Canonical (s.countWin w off n) := h.countPeek

/-! ### Windows in the package -/

theorem Canonical.modFwin {s : State} {wid : Nat} {f : FWin → FWin} (h : Canonical s) : Canonical (s.modFwin wid f) := h.same
theorem Canonical.deliver {s : State} {gid : Nat} {pathF : Bool} {v : Word} (h : Canonical s) :
    Canonical (s.deliver gid pathF v) := h.modGroup

theorem Canonical.dropFwin {s : State} {wid : Nat} (h : Canonical s) : Canonical (s.dropFwin wid) := by
  unfold State.dropFwin
  dsimp only
  split
  · exact h
  refine .fixFabBuckets (.foldl (fun _ _ h => ?_) (.modCore (.foldl (fun _ _ h => ?_) h.same)))
  · split
    · exact h
    · exact h.settleRows
  · split
    · exact h
    · exact h.lowerLease

/-! ### Opening (25 R407, R409, R410; 26 R425) -/

theorem Canonical.settleFwin {s : State} {w : FWin} (h : Canonical s) : Canonical (s.settleFwin w) := by
  unfold State.settleFwin
  split
  · exact h
  split
  · exact h
  split
  · exact h.modFwin.deliver
  · exact h.modFwin.deliver

theorem Canonical.refuseFwin {s : State} {w : FWin} (h : Canonical s) : Canonical (s.refuseFwin w) := by
  unfold State.refuseFwin
  split
  · exact h
  · exact h.dropFwin.deliver

theorem Canonical.makeFwin {s : State} {g : Group} {d : List Word} (h : Canonical s) : Canonical (s.makeFwin g d).2 := by
  unfold State.makeFwin
  dsimp only
  refine .fixFabBuckets (.same ?_)
  split
  · refine .modEnc (.foldl (fun _ _ h => ?_) h)
    split
    · exact h
    · exact h.raiseLease
  refine .foldl (fun _ _ h => ?_) h
  split
  · exact h
  · exact h.raiseLease

theorem Lands.openWith {d : Reg} {bs : List Byte} {s : State} (h : Canonical s) : Lands (openWith d bs s) := by
  unfold Machine.openWith
  dsimp only
  split
  · exact .next h.setS.retire
  split
  · exact .next h.makeFwin.modFwin.setS.retire
  · exact .next h.makeFwin.park

theorem Lands.withDesc {a : Word} {n : Nat} {k : List Byte → State → Out} {s : State} (hk : ∀ a t, Canonical t → Lands (k a t))
    (h : Canonical s) :
    Lands (withDesc a n k s) := by
  unfold Machine.withDesc
  split
  · refine .withLocal (fun _ _ h => ?_) h
    split
    · exact hk _ _ h
    · exact .next h
  · exact .withRead hk h

theorem Lands.execWOpen {d a : Reg} {s : State} (h : Canonical s) : Lands (execWOpen d a s) := by
  unfold Machine.execWOpen
  split
  · exact .next h.modG.setS.retire
  split
  · exact .next h.park
  · exact .withDesc (fun _ _ h => .openWith h) h

/-! ### Handles (26 R424) -/

theorem Lands.withHandle {q : Word} {k : FWin → State → Out} {s : State} (hk : ∀ a t, Canonical t → Lands (k a t))
    (h : Canonical s) :
    Lands (withHandle q k s) := by
  unfold Machine.withHandle
  dsimp only
  split
  · exact .next h.takeFault
  split
  · exact .next h.takeFault
  split
  · exact .next h.takeFault
  split
  · exact .next h.takeFault
  · exact hk _ _ h

theorem Canonical.sawCounter {s : State} {w : FWin} (h : Canonical s) : Canonical (s.sawCounter w) := h.modCore

theorem Lands.execWWait {a b} {s : State} (h : Canonical s) : Lands (execWWait a b s) := by
  refine .withHandle (fun _ _ h => ?_) h
  dsimp only
  split
  · exact .next h.sawCounter.retire
  · exact .next h.park

/-! ### Binding (25 R407, R411, R414) -/

theorem Canonical.bindingFails {s : State} {enc slot : Nat} (h : Canonical s) : Canonical (s.bindingFails enc slot) :=
  .modEnc (.foldl (fun _ _ h => h.refuseFwin) h)
theorem Canonical.bindStream {s : State} {enc slot : Nat} {t : Stream} {session : Nat} {create : Word} (h : Canonical s) :
    Canonical (s.bindStream enc slot t session create) := .foldl (fun _ _ h => h.settleFwin) h.modEnc

theorem Lands.execStreamBinding {enc slot : Nat} {ed ml : Bool} {meas : BitVec 384} {agreed : Bool} {session : Nat}
    {create : Word} {s : State} (h : Canonical s) :
    Lands (execStreamBinding enc slot ed ml meas agreed session create s) := by
  unfold Machine.execStreamBinding
  dsimp only
  split
  · exact .next h
  refine .next ?_
  split
  · exact h
  split
  · exact h.bindingFails
  split
  · split
    · exact h
    split
    · exact h.bindingFails
    split
    · exact h
    · exact h.bindStream
  split
  · exact h.bindingFails
  split
  · exact h
  · exact h.bindStream

theorem Lands.execStreamBindingTimeout {enc slot : Nat} {s : State} (h : Canonical s) :
    Lands (execStreamBindingTimeout enc slot s) := by
  unfold Machine.execStreamBindingTimeout
  split
  · exact .next h
  refine .next ?_
  split
  · exact h
  · exact h.bindingFails

theorem Lands.execSwitchEngineAttestation {grp part nmemb : Nat} {ok : Option Bool} {s : State} (h : Canonical s) :
    Lands (execSwitchEngineAttestation grp part nmemb ok s) := by
  unfold Machine.execSwitchEngineAttestation
  dsimp only
  split
  · refine .next ?_
    split
    · exact h
    · exact h.same
  refine .next (.foldl (fun _ _ h => ?_) (.same ?_))
  · split
    · exact h.settleFwin
    · exact h.refuseFwin
  · split
    · exact h
    · exact h.same

/-! ### Flits (25 R407, R408) -/

theorem Canonical.putStream {s : State} {slot : Nat} {t : Stream} (h : Canonical s) : Canonical (s.putStream slot t) := by
  unfold State.putStream
  split
  · exact h.modEnc
  · exact h.same

theorem Canonical.sayOn {s : State} {slot : Nat} {t : Stream} {data : List Byte} {m : List Flit → Sent} (h : Canonical s) :
    Canonical (s.sayOn slot t data m) := h.same.putStream

theorem Canonical.say {s : State} {enc slot : Nat} {ghost : Option (Nat × Word)} {data : List Byte} {m : List Flit → Sent}
    (h : Canonical s) :
    Canonical (s.say enc slot ghost data m) := by
  unfold State.say
  dsimp only
  split
  · split
    · exact h
    · exact h.sayOn
  · exact h

/-! ### Closing (25 R413) -/

theorem SomeCanonical.closeStep {s : State} {w : FWin} (h : Canonical s) : SomeCanonical (s.closeStep w) := by
  unfold State.closeStep
  split
  · exact .none
  split
  · exact .some h.dropFwin
  split
  · split
    · exact .some h.dropFwin
    · exact .none
  split
  · exact .none
  · exact .some h.modFwin.say

theorem Lands.execCloseNotice {enc slot wid : Nat} {s : State} (h : Canonical s) : Lands (execCloseNotice enc slot wid s) := by
  unfold Machine.execCloseNotice
  split
  · exact .next h
  refine .next ?_
  split
  · exact h.sayOn
  · exact h

theorem Lands.execCloseAcknowledgement {wid : Nat} {s : State} (h : Canonical s) : Lands (execCloseAcknowledgement wid s) := by
  unfold Machine.execCloseAcknowledgement
  split
  · exact .next h
  split
  · exact .next h
  refine .next ?_
  split
  · exact h.putStream.dropFwin
  · exact h

end Sys2Proof.Machine
end

section
/-! PROOFS. Each operation keeps the canonical form: ends of groups and tasks, iterator records, transfers, vector words and collectives. -/

namespace Sys2Proof.Machine

/-! ### GROUP_ENDED (05 Table 5.7; 09 R189; 24 R402) -/

theorem Canonical.endGroup {s : State} {g : Group} (h : Canonical s) : Canonical (s.endGroup g) := h.setGroup.modCore.dropBuckets
theorem Canonical.regroupFaults {s : State} {g : Group} (h : Canonical s) : Canonical (s.regroupFaults g) :=
  .foldl (fun _ _ h => h.faultGroup) h

theorem Lands.execGroupEnded {gid : Nat} {s : State} (h : Canonical s) : Lands (execGroupEnded gid s) := by
  unfold Machine.execGroupEnded
  dsimp only
  split
  · exact .next h
  split
  · exact .next h
  split
  · exact .next h.endGroup.regroupFaults
  refine .next ?_
  split
  · split
    · exact h.endGroup.regroupFaults.modTeam.settleRows
    · exact h.endGroup.regroupFaults.modTeam
  split
  · exact h.endGroup.regroupFaults.settleRows
  · exact h.endGroup.regroupFaults

/-! ### The end of a replay block (21 R389, R398; 23 R397) -/

theorem Canonical.replayEnd {s : State} {t : Task} (h : Canonical s) : Canonical (s.replayEnd t) := by
  unfold State.replayEnd
  dsimp only
  split
  · exact h
  split
  · exact h
  refine .modEnc (.devWrite ?_)
  split
  · exact h.flushBlocks
  · exact h

/-! ### Forgetting tasks -/

theorem Canonical.tidy {s : State} (h : Canonical s) : Canonical s.tidy := h.same

theorem Canonical.releaseTeam {s : State} {x : Task} {t : Team} (h : Canonical s) : Canonical (s.releaseTeam x t) := by
  unfold State.releaseTeam
  dsimp only
  refine .same (.foldl (fun _ _ h => h.dropBuckets) (.foldl (fun _ _ h => h.dropGroup) (.foldl (fun _ _ h => h.modCore) (.foldl
    (fun _ _ h => ?_) h.discardStaging))))
  split
  · exact h.pvtDrop
  · exact h

/-! ### TEAM_PUBLISH (05 R130, R137) -/

theorem Canonical.publishWrites {s : State} {x : Task} {ix : Nat} (h : Canonical s) : Canonical (s.publishWrites x ix) := by
  unfold State.publishWrites
  dsimp only
  split
  · split
    · exact h
    split
    · exact .writeVia (fun _ _ _ _ h => h.markOutside.hubPut) h
    · exact h
  split
  · refine .writeVia (fun _ _ _ _ h => h.outsideAtomic.hubPut) ?_
    split
    · exact h
    split
    · exact .writeVia (fun _ _ _ _ h => h.markOutside.hubPut) h
    · exact h
  split
  · exact h
  split
  · exact .writeVia (fun _ _ _ _ h => h.markOutside.hubPut) h
  · exact h

theorem Canonical.gridDone {s : State} {task : Nat} (h : Canonical s) : Canonical (s.gridDone task) := by
  unfold State.gridDone
  dsimp only
  split
  · exact h
  split
  · exact h
  · exact h.releaseLeases.replayEnd.modTask.tidy

theorem Lands.execTeamPublish {team : Nat} {s : State} (h : Canonical s) : Lands (execTeamPublish team s) := by
  unfold Machine.execTeamPublish
  dsimp only
  split
  · exact .next h
  split
  · exact .next h
  split
  · exact .next h
  · exact .next (.tidy (.gridDone (.foldl (fun _ _ h => h.modTask) (.releaseTeam (.modTask (.publishWrites (.foldl
    (fun _ _ h => h.drainBuf) h)))))))

/-! ### TASK_END (17 R325; 23 R399) -/

theorem Canonical.stopGroups {s : State} {t : Nat} (h : Canonical s) : Canonical (s.stopGroups t) :=
  .foldl (fun _ _ h => h.modTeam) (.foldl (fun _ _ h => .foldl (fun _ _ h => h.haltOne) h) h)

theorem Lands.execTaskEnd {task : Nat} {s : State} (h : Canonical s) : Lands (execTaskEnd task s) := by
  unfold Machine.execTaskEnd
  dsimp only
  split
  · exact .next h
  split
  · exact .next h
  refine .next ?_
  split
  · exact .same (.foldl (fun _ _ h => h.modTask.stopGroups) h)
  · exact .foldl (fun _ _ h => h.dropHeld) (.same (.foldl (fun _ _ h => h.modTask.stopGroups) h))

/-! ### FAULT_RECORD (17 R325 steps 2 to 6, R327) -/

theorem Canonical.closeAll {s : State} {ts : List Nat} (h : Canonical s) : Canonical (s.closeAll ts) :=
  .foldl (fun _ _ h => h.modCore) h
theorem Canonical.replicaEnd {s : State} {t : Task} (h : Canonical s) : Canonical (s.replicaEnd t) :=
  .foldl (fun _ _ h => .foldl (fun _ _ h => .foldl (fun _ _ h => h.lineHome) h) h) h
theorem Canonical.eraseTask {s : State} {t : Task} (h : Canonical s) : Canonical (s.eraseTask t) := by
  unfold State.eraseTask
  exact .edgeBegin (.same (.modEnc (.foldl (fun _ _ h => h.releaseTeam) (.replayEnd (.releaseLeases (.foldl
    (fun _ _ h => h.endGroup) h.replicaEnd.uncolour))))))
theorem Canonical.endOthers {s : State} {t : Task} {all : List Nat} {r : Report} (h : Canonical s) :
    Canonical (s.endOthers t all r) := .foldl (fun _ _ h => h.modTask) h

theorem Lands.execFaultRecord {task : Nat} {s : State} (h : Canonical s) : Lands (execFaultRecord task s) := by
  unfold Machine.execFaultRecord
  dsimp only
  split
  · exact .next h
  split
  · exact .next h
  split
  · exact .next h
  split
  · exact .next h.faultWrite.modTask
  split
  · exact .next h
  split
  · exact .next h.closeAll
  · exact .next (.tidy (.foldl (fun _ _ h => h.eraseTask) h.closeAll.endOthers))

/-! ### Reading a record (15 R304) -/

theorem Lands.withRecordAt {r : Word} {k : Rec → Bool → State → Out} {s : State} (hk : ∀ a b t, Canonical t → Lands (k a b t))
    (h : Canonical s) :
    Lands (withRecordAt r k s) := by
  unfold Machine.withRecordAt
  dsimp only
  refine .withLocal (fun _ _ h => ?_) h
  split
  · exact .next h
  · exact hk _ _ _ h

theorem Lands.withSlots {ns : List Nat} {k : List (Nat × Option (Rec × Bool)) → State → Out} {s : State}
    (hk : ∀ rs t, Canonical t → Lands (k rs t)) (h : Canonical s) : Lands (withSlots ns k s) := by
  induction ns generalizing k s with
  | nil => exact hk _ _ h
  | cons n ns ih =>
    unfold Machine.withSlots
    split
    · exact ih (fun _ _ h => hk _ _ h) h
    · exact .withRecordAt (fun _ _ _ h => ih (fun _ _ h => hk _ _ h) h) h

theorem Lands.withRecords {ns : List Nat} {k : List Rec → State → Out} {s : State} (hk : ∀ a t, Canonical t → Lands (k a t))
    (h : Canonical s) :
    Lands (withRecords ns k s) := by
  unfold Machine.withRecords
  refine .withSlots (fun _ _ h => ?_) h
  split
  · exact .next h.takeFault
  · exact .next h.takeFault
  · exact hk _ _ h

theorem Canonical.ownWrite {s : State} {g : Group} {off : Nat} {bs : List Byte} (h : Canonical s) :
    Canonical (s.ownWrite g off bs) := h.modCore

theorem Lands.execCpIter {d : BitVec 3} {a : Reg} {s : State} (h : Canonical s) : Lands (execCpIter d a s) := by
  unfold Machine.execCpIter
  dsimp only
  split
  · exact .next h.takeFault
  split
  · exact .next h.takeFault
  refine .withRecordAt (fun _ _ _ h => ?_) h
  split
  · exact .next h.takeFault
  · exact .withLocal (fun _ _ h => .next h.ownWrite.modG.retire) h

/-! ### Issue (26 R427) -/

theorem Lands.withRange {a len : Nat} {write : Bool} {next : Bool → State → Out} {s : State}
    (hk : ∀ a t, Canonical t → Lands (next a t)) (h : Canonical s) :
    Lands (withRange a len write next s) := by
  unfold Machine.withRange
  dsimp only
  split
  · split
    · exact .next h.takeFault
    · exact .next h.park
    · exact hk _ _ h
  split
  · exact .next h.clearWalks.takeFault
  · exact .next (.hold (.foldl (fun _ _ h => h.startWalk) h))
  · exact hk _ _ h.clearWalks

theorem Canonical.startXfer {s : State} {get : Bool} {w : FWin} {a len tag off : Nat} {handle : Word} {uncounted : Bool}
    (h : Canonical s) :
    Canonical (s.startXfer get w a len tag off handle uncounted) := by
  unfold State.startXfer
  dsimp only
  refine .modG (.same ?_)
  split
  · exact h.clearWay.modCore
  · exact h.clearWay.modCore.colourUp

theorem Lands.transfer {get : Bool} {d a b tag : Reg} {s : State} (h : Canonical s) : Lands (transfer get d a b tag s) := by
  unfold Machine.transfer
  dsimp only
  split
  · exact .next h.takeFault
  split
  · split
    · exact .next h.takeFault
    split
    · exact .next h.hold
    · exact .next h.modCore.retire
  split
  · exact .next h.takeFault
  refine .withRange (fun _ _ h => ?_) h
  split
  · exact .next h.takeFault
  split
  · exact .next h.hold
  split
  · exact .next h.hold
  · exact .next h.startXfer.retire

/-! ### Return (25 R412) -/

theorem Canonical.finishXfer {s : State} {x : Xfer} {ok : Bool} {data : List Byte} (h : Canonical s) :
    Canonical (s.finishXfer x ok data) := by
  unfold State.finishXfer
  dsimp only
  split
  · exact h.same
  refine .opOver (.modGroup (.modCore (.same ?_)))
  split
  · refine .modFwin ?_
    split
    · split
      · refine .winWrite (.linesSee ?_)
        split
        · split
          · exact h
          · exact h.colourDown
        · exact h
      refine .modCore (.winWrite (.linesSee ?_))
      split
      · split
        · exact h
        · exact h.colourDown
      · exact h
    split
    · split
      · exact h
      · exact h.colourDown
    · exact h
  split
  · split
    · exact h
    · exact h.colourDown
  · exact h

theorem Lands.execTransferAcknowledgement {xfer : Nat} {ok : Bool} {data : List Byte} {s : State} (h : Canonical s) :
    Lands (execTransferAcknowledgement xfer ok data s) := by
  unfold Machine.execTransferAcknowledgement
  split
  · exact .next h
  split
  · exact .next h
  refine .next ?_
  split
  · exact h
  split
  · exact h.linesAsk
  · exact h.putStream.finishXfer

/-! ### Arrival at a target window (25 R412) -/

theorem Canonical.placePut {s : State} {w : FWin} {off : Nat} {data : List Byte} {kind : Nat} (h : Canonical s) :
    Canonical (s.placePut w off data kind) := h.winWrite.modFwin

theorem Canonical.winAccess {s : State} {w : FWin} {off n : Nat} {p : Party} {go : State → State} (h : Canonical s)
    (hk : ∀ t, Canonical t → Canonical (go t)) :
    Canonical (s.winAccess w off n p go) := by
  unfold State.winAccess
  dsimp only
  split
  · exact h.linesAsk
  · exact hk _ h.linesSee

theorem Lands.execPutArrival {wid off enc slot : Nat} {data : List Byte} {s : State} (h : Canonical s) :
    Lands (execPutArrival wid off enc slot data s) := by
  unfold Machine.execPutArrival
  split
  · exact .next h
  split
  · exact .next (.winAccess h (fun _ h => h.putStream.placePut))
  · exact .next h.sayOn

theorem Lands.execGetArrival {wid off len enc slot : Nat} {s : State} (h : Canonical s) :
    Lands (execGetArrival wid off len enc slot s) := by
  unfold Machine.execGetArrival
  split
  · exact .next h
  split
  · exact .next (.winAccess h (fun _ h => h.countWin.sayOn))
  · exact .next h.sayOn

theorem Lands.execTcntIncrement {wid : Nat} {s : State} (h : Canonical s) : Lands (execTcntIncrement wid s) := by
  unfold Machine.execTcntIncrement
  dsimp only
  split
  · exact .next h
  split
  · exact .next h
  refine .next ?_
  split
  · exact h.modFwin.say
  · exact h.modFwin

/-! ### The egress (25 R406, R408; 26 R428) -/

theorem Canonical.loopXfer {s : State} {x : Xfer} {w : FWin} {slot : Nat} (h : Canonical s) :
    Canonical (s.loopXfer x w slot) := by
  unfold State.loopXfer
  dsimp only
  split
  · exact h.finishXfer
  split
  · exact h.linesSee.countWin.finishXfer
  · exact h.linesSee.countWin.winWrite.modFwin.finishXfer

theorem Canonical.sendXfer {s : State} {x : Xfer} {slot : Nat} (h : Canonical s) : Canonical (s.sendXfer x slot) := by
  unfold State.sendXfer
  dsimp only
  split
  · refine .same ?_
    split
    · exact h.colourDown
    · exact h
  split
  · split
    · exact h.colourDown.same.loopXfer
    split
    · exact h.colourDown.same.say
    · exact h.colourDown.same.linesSee.countWin.say
  split
  · exact h.same.loopXfer
  split
  · exact h.same.say
  · exact h.same.linesSee.countWin.say

theorem SomeCanonical.egressStep {s : State} (h : Canonical s) : SomeCanonical s.egressStep := by
  unfold State.egressStep
  dsimp only
  split
  · exact .some (.foldl (fun _ _ h => h.linesAsk) h)
  split
  · exact .some h.finishXfer
  split
  · exact .some h.same.sendXfer
  · exact .some h.same

theorem Canonical.egressWait {s : State} (h : Canonical s) : Canonical s.egressWait := h.same

/-! ### Host DMA and CXL.mem (25 R420, R421) -/

theorem Canonical.abortDma {s : State} {stream : Nat} (h : Canonical s) : Canonical (s.abortDma stream) := h.same

theorem Canonical.takeDma {s : State} {stream wid off : Nat} {wr : Bool} {data : List Byte} (h : Canonical s) :
    Canonical (s.takeDma stream wid off wr data) := by
  unfold State.takeDma
  dsimp only
  split
  · split
    · exact .winAccess h (fun _ h => h.placePut)
    · exact h.abortDma
  · exact h.abortDma

theorem Canonical.cxlAccess {s : State} {wr : Bool} {pa : Nat} {data : List Byte} (h : Canonical s) :
    Canonical (s.cxlAccess wr pa data) := by
  unfold State.cxlAccess
  dsimp only
  split
  · exact h.linesAsk
  split
  · refine .hubStore ?_
    split
    · exact h.linesSee
    · exact h.linesSee
  · refine .same ?_
    split
    · exact h.linesSee
    · exact h
  · refine .same (.countPeek ?_)
    split
    · exact h.linesSee
    · exact h.linesSee
  refine .same ?_
  split
  · exact h.linesSee
  · exact h

theorem Canonical.askTdi {s : State} {op : TdispOp} {tdi enc stream : Nat} (h : Canonical s) :
    Canonical (s.askTdi op tdi enc stream) := by
  unfold State.askTdi
  dsimp only
  split
  · split
    · exact h
    · exact h.same
  · split
    · exact h.same
    · exact h
  · exact h.same
  · split
    · exact h.same
    · exact h
  split
  · exact h.same
  · exact h

/-! ### Elements -/

theorem Lands.vecWord {n : Nat} {d : Reg} {t : VTy} {q : (VReg → Nat) → FRes} {s : State} (h : Canonical s) :
    Lands (vecWord n d t q s) := .next h.modG.retireV
theorem Lands.vecLanes {n : Nat} {d : Reg} {f : Group → Nat → W32} {s : State} (h : Canonical s) : Lands (vecLanes n d f s) :=
  .next h.modG.retireV

/-! ### Integer lanes (06 R144, R145) -/

theorem Lands.vecInt {d a b : Reg} {c : BitVec 4} {n : BitVec 1} {op : Int → Int → Int} {s : State} (h : Canonical s) :
    Lands (vecInt d a b c n op s) := .vecWord h
theorem Lands.vecShift {d a b : Reg} {c : BitVec 4} {n : BitVec 1} {signed : VTy → Bool} {op : Int → Nat → Int} {s : State}
    (h : Canonical s) :
    Lands (vecShift d a b c n signed op s) := .vecWord h
theorem Lands.vecBits {d a b : Reg} {op : W32 → W32 → W32} {s : State} (h : Canonical s) : Lands (vecBits d a b op s) :=
  .vecLanes h
theorem Lands.execVMulh {d a b t} {s : State} (h : Canonical s) : Lands (execVMulh d a b t s) := by
  unfold Machine.execVMulh
  exact .vecInt h
theorem Lands.execVAndn {d a b} {s : State} (h : Canonical s) : Lands (execVAndn d a b s) := by
  unfold Machine.execVAndn
  exact .vecBits h
theorem Lands.execVShl {d a b t n} {s : State} (h : Canonical s) : Lands (execVShl d a b t n s) := by
  unfold Machine.execVShl
  exact .vecShift h
theorem Lands.execVShr {d a b t} {s : State} (h : Canonical s) : Lands (execVShr d a b t s) := by
  unfold Machine.execVShr
  exact .vecShift h
theorem Lands.execVSra {d a b t} {s : State} (h : Canonical s) : Lands (execVSra d a b t s) := by
  unfold Machine.execVSra
  exact .vecShift h
theorem Lands.execVAbs {d a t n} {s : State} (h : Canonical s) : Lands (execVAbs d a t n s) := by
  unfold Machine.execVAbs
  exact .vecInt h

/-! ### Floating-point lanes (06 R146 to R148) -/

theorem Lands.vecFp {n m : Nat} {d a b : Reg} {c : BitVec 4} {r : BitVec 2} {sn : BitVec 1}
    {op : FTy → Rm → Bool → Bool → Nat → Nat → FRes} {s : State} (h : Canonical s) :
    Lands (vecFp n m d a b c r sn op s) := .vecWord h
theorem Lands.execVFmin {d a b t} {s : State} (h : Canonical s) : Lands (execVFmin d a b t s) := by
  unfold Machine.execVFmin
  exact .vecFp h
theorem Lands.execVFmax {d a b t} {s : State} (h : Canonical s) : Lands (execVFmax d a b t s) := by
  unfold Machine.execVFmax
  exact .vecFp h
theorem Lands.execVFdiv {d a b t r n} {s : State} (h : Canonical s) : Lands (execVFdiv d a b t r n s) := by
  unfold Machine.execVFdiv
  exact .vecFp h
theorem Lands.execVFsqrt {d a t r} {s : State} (h : Canonical s) : Lands (execVFsqrt d a t r s) := by
  unfold Machine.execVFsqrt
  exact .vecFp h
theorem Lands.vecApprox {d a : Reg} {f : W32 → FRes} {s : State} (h : Canonical s) : Lands (vecApprox d a f s) := .vecWord h
theorem Lands.vecFma {t : VTy} {d a b c : Reg} {n : BitVec 1} {s : State} (h : Canonical s) : Lands (vecFma t d a b c n s) :=
  .vecWord h

/-! ### Conversions and packing (06 R149 to R151) -/

theorem Lands.execVCvt {d a : Reg} {u t : BitVec 4} {r : BitVec 2} {n : BitVec 1} {s : State} (h : Canonical s) :
    Lands (execVCvt d a u t r n s) := by
  unfold Machine.execVCvt
  dsimp only
  split
  · exact .vecWord h
  split
  · exact .vecWord h
  · exact .vecWord h

/-! ### Compare and select (06 R152, R153) -/

theorem Canonical.setTriple {s : State} {n : Reg} {m : Mask} (h : Canonical s) : Canonical (s.setTriple n m) := by
  unfold State.setTriple
  dsimp only
  split
  · exact h.modG
  · exact h.modG.emit

theorem Lands.execVCmp {d a b : Reg} {t : BitVec 4} {c : BitVec 3} {s : State} (h : Canonical s) : Lands (execVCmp d a b t c s) :=
  .next h.modG.setTriple.spendWord.modG

/-! ### Constants, moves and single lanes (06 R154 to R157) -/

theorem Lands.execVGet {d a b : Reg} {s : State} (h : Canonical s) : Lands (execVGet d a b s) := .next h.setS.retire

/-! ### Reductions and scan (06 R158, R159; 03 R82 to R84) -/

theorem Lands.vecReduce {d a : Reg} {t : VTy} {ident : Nat} {op : Nat → Nat → FRes} {s : State} (h : Canonical s) :
    Lands (vecReduce d a t ident op s) := .next h.modG.setS.spendWord.modG

theorem Lands.execVRmax {d a : Reg} {t : BitVec 4} {s : State} (h : Canonical s) : Lands (execVRmax d a t s) := by
  unfold Machine.execVRmax
  dsimp only
  split
  · exact .vecReduce h
  · exact .vecReduce h

theorem Lands.execVRmin {d a : Reg} {t : BitVec 4} {s : State} (h : Canonical s) : Lands (execVRmin d a t s) := by
  unfold Machine.execVRmin
  dsimp only
  split
  · exact .vecReduce h
  · exact .vecReduce h

theorem Lands.execVRsumi {d a : Reg} {t : BitVec 4} {s : State} (h : Canonical s) : Lands (execVRsumi d a t s) :=
  .next h.setS.spendWord.modG
theorem Lands.execVScan {d a : Reg} {t : BitVec 4} {r : BitVec 2} {s : State} (h : Canonical s) : Lands (execVScan d a t r s) :=
  .next h.modG.retireV

/-! ### Collective groups -/

theorem Canonical.modCgroup {s : State} {grp : Nat} {f : CGroup → CGroup} (h : Canonical s) : Canonical (s.modCgroup grp f) :=
  h.same

theorem Canonical.endSlot {s : State} {enc slot status : Nat} (h : Canonical s) : Canonical (s.endSlot enc slot status) := by
  unfold State.endSlot
  dsimp only
  split
  · exact h
  split
  · exact h.modEnc
  · exact .modEnc (.foldl (fun _ _ h => h.deliver) h)

theorem Canonical.endColl {s : State} {grp k status : Nat} (h : Canonical s) : Canonical (s.endColl grp k status) := by
  unfold State.endColl
  dsimp only
  split
  · exact h
  split
  · exact h
  · exact .modCgroup (.foldl (fun _ _ h => h.endSlot) h)

theorem Canonical.endCollHere {s : State} {grp k status : Nat} (h : Canonical s) : Canonical (s.endCollHere grp k status) := by
  unfold State.endCollHere
  dsimp only
  split
  · exact h
  split
  · exact h
  · exact h.endColl.same

theorem Canonical.endPending {s : State} {grp status : Nat} (h : Canonical s) : Canonical (s.endPending grp status) := by
  unfold State.endPending
  split
  · exact h
  refine .foldl (fun _ _ h => ?_) h
  split
  · exact h.endColl
  · exact h.endCollHere

/-! ### Issue (26 R430) -/

theorem Canonical.contribute {s : State} {w : FWin} {x : Contrib} (h : Canonical s) : Canonical (s.contribute w x) := by
  unfold State.contribute
  dsimp only
  split
  · exact h.modEnc
  split
  · exact h.modEnc.modCgroup.endSlot.modCgroup
  split
  · exact h.modEnc.modCgroup.modFwin.endCollHere
  split
  · exact h.modEnc.modCgroup.endColl
  split
  · exact h.modEnc.modCgroup.endCollHere
  · exact h.modEnc.modCgroup

theorem Lands.collective {d : Reg} {at_ : Word} {e len typ op : Nat} {bcast : Bool} {s : State} (h : Canonical s) :
    Lands (collective d at_ e len typ op bcast s) := by
  unfold Machine.collective
  dsimp only
  split
  · exact .next h.faultHere
  split
  · exact .next h.faultHere
  split
  · exact .next h.faultHere
  split
  · exact .next h.faultHere
  split
  · exact .next h.hold
  · exact .next h.same.contribute.setS.retire

theorem Lands.execCollWait {d a : Reg} {s : State} (h : Canonical s) : Lands (execCollWait d a s) := by
  unfold Machine.execCollWait
  dsimp only
  split
  · exact .next h.modG.setS.retire
  split
  · exact .next h.setS.retire
  split
  · exact .next h.modEnc.setS.retire
  refine .next (.park ?_)
  split
  · exact h
  · exact h.modEnc

theorem Lands.execCollCancel {a : Reg} {s : State} (h : Canonical s) : Lands (execCollCancel a s) := by
  unfold Machine.execCollCancel
  dsimp only
  refine .next ?_
  split
  · exact h.retire
  refine .retire ?_
  split
  · exact h
  · exact h.endCollHere

/-! ### Results (25 R415) -/

theorem Canonical.countContrib {s : State} {x : Contrib} (h : Canonical s) : Canonical (s.countContrib x) := by
  unfold State.countContrib
  split
  · exact h.countWin
  · exact h

theorem Canonical.landResult {s : State} {x : Contrib} {bs : List Byte} {write : Bool} (h : Canonical s) :
    Canonical (s.landResult x bs write) := by
  unfold State.landResult
  split
  · exact h
  refine .modFwin ?_
  split
  · exact h.linesSee.winWrite
  · exact h

theorem Lands.execCollectiveResult {grp k status : Nat} {peers : List PeerPart} {s : State} (h : Canonical s) :
    Lands (execCollectiveResult grp k status peers s) := by
  unfold Machine.execCollectiveResult
  dsimp only
  split
  · exact .next h
  split
  · exact .next h.endColl
  split
  · exact .next h
  split
  · exact .next h
  split
  · exact .next h
  split
  · exact .next h.linesAsk
  split
  · exact .next h.endColl
  split
  · exact .next h.endColl
  split
  · exact .next h
  split
  · exact .next (.endColl (.foldl (fun _ _ h => h.landResult) (.foldl (fun _ _ h => h.countContrib) h)))
  · exact .next (.endColl (.foldl (fun _ _ h => h.landResult) (.foldl (fun _ _ h => h.countContrib) h)))

theorem Lands.execCollectiveMemberGone {grp rank : Nat} {s : State} (h : Canonical s) :
    Lands (execCollectiveMemberGone grp rank s) := .next h.modCgroup.endPending

theorem SomeLands.collStep {s : State} (h : Canonical s) : SomeLands s.collStep := by
  refine .findSome (fun c => .findSome (fun x => ?_) _) _
  split
  · exact .some (.next h.endPending)
  dsimp only
  split
  · exact .some (.execCollectiveResult h)
  · exact .none

/-! ### Flits of a stream (25 R408) -/

theorem Lands.execStreamFlitReceive {enc slot : Nat} {f : Flit} {s : State} (h : Canonical s) :
    Lands (execStreamFlitReceive enc slot f s) := by
  unfold Machine.execStreamFlitReceive
  dsimp only
  split
  · exact .next h
  split
  · exact .next h
  split
  · exact .next h.putStream
  · exact .next (.foldl (fun _ _ h => h.endPending) h.putStream)

/-! ### Ultra Ethernet queues (25 R418, R419; 26 R432) -/

theorem Canonical.modUe {s : State} {enc q : Nat} {f : UeQueue → UeQueue} (h : Canonical s) : Canonical (s.modUe enc q f) :=
  h.modEnc

theorem Canonical.postUe {s : State} {q : Nat} {b : List Word} (h : Canonical s) : Canonical (s.postUe q b) := by
  unfold State.postUe
  dsimp only
  split
  · exact h.modUe.modUe
  refine .same (.modUe ?_)
  split
  · exact h.modUe.countWin
  · exact h.modUe

theorem Lands.execUePost {d a b : Reg} {s : State} (h : Canonical s) : Lands (execUePost d a b s) := by
  unfold Machine.execUePost
  dsimp only
  split
  · exact .next h.setS.retire
  refine .withDesc (fun _ _ h => ?_) h
  split
  · exact .next h.hold
  · exact .next h.postUe.setS.retire

theorem Lands.execUePoll {d a : Reg} {s : State} (h : Canonical s) : Lands (execUePoll d a s) := by
  unfold Machine.execUePoll
  dsimp only
  split
  · exact .next h.setS.retire
  split
  · exact .next h.setS.retire
  · exact .next h.modUe.setS.retire

theorem Lands.execUeCompletion {enc q k status : Nat} {data : List Byte} {s : State} (h : Canonical s) :
    Lands (execUeCompletion enc q k status data s) := by
  unfold Machine.execUeCompletion
  dsimp only
  split
  · exact .next h
  split
  · exact .next h
  split
  · exact .next h.linesAsk
  refine .next (.modUe ?_)
  split
  · split
    · exact h.linesSee.winWrite
    · exact h
  · exact h

theorem Canonical.takePacket {s : State} {wid off : Nat} {peer : BitVec 128} {p : UePkt} (h : Canonical s) :
    Canonical (s.takePacket wid off peer p) := by
  unfold State.takePacket
  dsimp only
  split
  · exact h.same
  split
  · exact h
  split
  · exact h.same
  refine .winAccess h (fun _ h => ?_)
  split
  · exact h.countWin.same
  split
  · exact h.placePut
  · exact h.winWrite

end Sys2Proof.Machine
end

section
/-! PROOFS. Each operation keeps the canonical form: control transfers, copies, the matrix arrays, the port, sweeps, Lamplight's units and
lantern management. -/

namespace Sys2Proof.Machine

/-! ### Control transfers -/

theorem Canonical.note {taken : Bool} {s : State} (h : Canonical s) : Canonical (State.note taken s) := h.modG

theorem Lands.transferIf {n : Nat} {taken : Bool} {i : BitVec n} {s : State} (h : Canonical s) :
    Lands (transferIf taken i s) := by
  unfold Machine.transferIf
  dsimp only
  refine .next ?_
  split
  · exact h.note.retireJump
  · exact h.note.retire

theorem Lands.execBranch {i : BitVec 19} {s : State} (h : Canonical s) : Lands (execBranch i s) := .next h.retireJump

theorem Lands.execJr {a : Reg} {s : State} (h : Canonical s) : Lands (execJr a s) := by
  unfold Machine.execJr
  dsimp only
  split
  · exact .next h.takeFault
  · exact .next h.emitAddr.retireJump

theorem Lands.callTo {s : State} {t : VAddr} {k : BitVec 2} {indirect : Bool} (h : Canonical s) :
    Lands (s.callTo t k indirect) := by
  unfold State.callTo
  dsimp only
  split
  · next heq =>
      exact .next (.takeFault (.ofFst heq h.slideUp))
  next heq =>
    refine .next (.retireJump ?_)
    split
    · exact .emitAddr (.modG (.ofFst heq h.slideUp))
    · exact .modG (.ofFst heq h.slideUp)

theorem Lands.execCallr {a : Reg} {k : BitVec 2} {s : State} (h : Canonical s) : Lands (execCallr a k s) := by
  unfold Machine.execCallr
  dsimp only
  split
  · exact .next h.takeFault
  · exact .callTo h

/-! ### Ending (05 R118) -/

theorem Canonical.endPath {s : State} (h : Canonical s) : Canonical s.endPath := by
  unfold State.endPath
  dsimp only
  split
  · next heq =>
      refine .takeFault (.ofFst heq ?_)
      split
      · exact h.checkpoint
      · exact h
  next heq =>
    split
    · next heq_1 =>
        refine .takeFault (.ofFst heq_1 ?_)
        split
        · refine .slideTo (.ofFst heq ?_)
          split
          · exact h.checkpoint
          · exact h
        refine .ofFst heq ?_
        split
        · exact h.checkpoint
        · exact h
    next heq_1 =>
      split
      · refine .modCore (.emit (.modG (.spendWord (.ofFst heq_1 ?_))))
        split
        · refine .slideTo (.ofFst heq ?_)
          split
          · exact h.checkpoint
          · exact h.checkpoint
        refine .ofFst heq ?_
        split
        · exact h.checkpoint
        · exact h.checkpoint
      refine .modG (.spendWord (.ofFst heq_1 ?_))
      split
      · refine .slideTo (.ofFst heq ?_)
        split
        · exact h.checkpoint
        · exact h
      refine .ofFst heq ?_
      split
      · exact h.checkpoint
      · exact h

theorem Canonical.relabelRest {s : State} {gid : Nat} (h : Canonical s) : Canonical (s.relabelRest gid) := h.same

theorem Canonical.joinDone {s : State} {g : Group} {waitedF : Bool} (h : Canonical s) : Canonical (s.joinDone g waitedF) := by
  unfold State.joinDone
  dsimp only
  refine .emitPacket ?_
  split
  · exact h.setGroup.relabelRest.modCore
  · exact h.setGroup

theorem Lands.execRet {s : State} (h : Canonical s) : Lands (execRet s) := by
  unfold Machine.execRet
  dsimp only
  split
  · exact .next h.endPath
  split
  · exact .next h.takeFault
  split
  · split
    · exact .next h.faultHere
    split
    · next heq =>
        exact .next (.takeFault (.ofFst heq h.slideTo))
    next heq =>
      exact .next (.retireJump (.emitAddr (.ofFst heq h.slideTo)))
  split
  · exact .next h.faultHere
  split
  · next heq =>
      exact .next (.takeFault (.ofFst heq h.slideTo))
  next heq =>
    exact .next (.retireJump (.emitAddr (.ofFst heq h.slideTo)))

theorem Lands.execHalt {s : State} (h : Canonical s) : Lands (execHalt s) := .next h.endPath

/-! ### Split and join -/

theorem Canonical.joinHeader {s t : State} {j : VAddr} (h : Canonical s) (e : s.joinHeader j = .error t) : Canonical t := by
  unfold State.joinHeader at e
  split at e
  · cases e; exact h.startWalk.hold
  · cases e; exact h.portHold
  · cases e; exact h.fetchHeld.hold
  · cases e; exact h.partitionReset
  · cases e; exact h.clearWalks.stopWith
  split at e
  · cases e
  · cases e; exact h.takeFault

theorem Lands.execVSplit {d : Reg} {i : BitVec 19} {s : State} (h : Canonical s) : Lands (execVSplit d i s) := by
  unfold Machine.execVSplit
  dsimp only
  split
  · next heq => exact .next (h.joinHeader heq)
  split
  · exact .next h.fetched.takeFault
  · exact .next h.fetched.emitPacket.spendWord.modG

theorem Lands.execVJoin {s : State} (h : Canonical s) : Lands (execVJoin s) := by
  unfold Machine.execVJoin
  dsimp only
  split
  · exact .next h.faultHere
  split
  · exact .next h.faultHere
  split
  · exact .next h.takeFault
  split
  · split
    · exact .next h.spendWord.modG.emit.modG
    · exact .next h.spendWord.modG.emit.modG
  split
  · split
    · exact .next h.hold
    · exact .next h.spendWord.modG.emit.modG
  · exact .next h.spendWord.modG

/-! ### What the core does before an instruction's own meaning -/

theorem Canonical.begin {s : State} {g : Group} (h : Canonical s) : Canonical (s.begin g) := by
  unfold State.begin
  dsimp only
  refine .modG ?_
  split
  · exact h.emitPacket.modG
  · exact h

/-- The state of a core that has looked at the word about to issue. -/
def Ready.state : Ready → State
  | .other s => s
  | .issue _ s => s

theorem Canonical.other {s : State} (h : Canonical s) : Canonical (Ready.other s).state := h
theorem Canonical.issue {i : Instr} {s : State} (h : Canonical s) : Canonical (Ready.issue i s).state := h

theorem Canonical.readyWord {s : State} (h : Canonical s) : Canonical s.readyWord.state := by
  unfold State.readyWord
  dsimp only
  split
  · exact .other h.headerFault
  split
  · exact .other h.modG
  split
  · exact .other h.faultHere
  split
  · exact .other h.breakpoint
  split
  · exact .other h.startWalk.hold
  · exact .other h.portHold
  · exact .other h.fetchHeld.hold
  · exact .other h.partitionReset
  · exact .other h.clearWalks.takeFault
  split
  · exact .other h.fetched.faultHere
  split
  · exact .other h.fetched.faultHere
  split
  · exact .other h.fetched.hold
  · exact .issue h.fetched.begin

theorem Canonical.readyHeader {s : State} (h : Canonical s) : Canonical s.readyHeader.state := by
  unfold State.readyHeader
  dsimp only
  split
  · exact h.readyWord
  split
  · exact .other h.headerFault
  split
  · exact .other h.startWalk.hold
  · exact .other h.portHold
  · exact .other h.fetchHeld.hold
  · exact .other h.partitionReset
  · exact .other h.clearWalks.headerFault
  split
  · exact .other h.fetched.headerFault
  split
  · exact h.fetched.modG.readyWord
  · exact .other h.fetched.hold

/-! ### Issue (15 Table 15.2) -/

theorem Canonical.startCopy {c : CopyWord} {s : State} (h : Canonical s) : Canonical (State.startCopy c s) :=
  h.clearWay.modCore.same.modG

theorem Lands.copyIssue {dirs : List (Bool × Rec)} {c : CopyWord} {s : State} (h : Canonical s) : Lands (copyIssue dirs c s) := by
  unfold Machine.copyIssue
  dsimp only
  split
  · exact .next h.takeFault
  split
  · exact .next h.takeFault
  split
  · exact .next h.takeFault
  split
  · exact .next h.hold
  split
  · exact .next h.hold
  · exact .next h.startCopy.retire

theorem Lands.copyPair {d a : BitVec 3} {t : Reg} {f : BitVec 1} {dirs : Rec → Rec → List (Bool × Rec)} {s : State}
    (h : Canonical s) :
    Lands (copyPair d a t f dirs s) := by
  unfold Machine.copyPair
  refine .withRecords (fun _ _ h => ?_) h
  split
  · exact .copyIssue h
  · exact .next h

theorem Lands.execCpGather {d a b t f} {s : State} (h : Canonical s) : Lands (execCpGather d a b t f s) := by
  refine .withRecords (fun _ _ h => ?_) h
  split
  · exact .copyIssue h
  · exact .next h

theorem Lands.execCpFill {d a t f} {s : State} (h : Canonical s) : Lands (execCpFill d a t f s) := by
  refine .withRecords (fun _ _ h => ?_) h
  split
  · split
    · exact .next h.faultHere
    · exact .copyIssue h
  · exact .next h

/-! ### Elements (14 R289; 15 R306, R307) -/

theorem Canonical.request {r : CopyRun} {x : CopyArr} {a : Int} (h : Canonical r.s) : Canonical (r.request x a).s := by
  unfold CopyRun.request
  split
  · exact h
  · exact h

theorem Canonical.usePage {s : State} {g : Group} {va : Int} {heap : Bool} {k : Acc} (h : Canonical s) :
    Canonical (s.usePage g va heap k) := by
  unfold State.usePage
  split
  · exact h
  · exact h.refill

theorem Canonical.read {r : CopyRun} {g : Group} {c : Copy} {x : CopyArr} {far : Bool} {a : Int} {n : Nat} (h : Canonical r.s) :
    Canonical (r.read g c x far a n).1.s := by
  unfold CopyRun.read
  dsimp only
  split
  · split
    · exact h
    · exact h
    split
    · exact h.usePage.request
    · exact h.usePage.request.lookupEvent.serveLoad.svtRecord
  · exact h

theorem Canonical.engineStore {s : State} {g : Group} {pathF : Bool} {pas : List Nat} {heap : Bool} {bs : List Byte}
    (h : Canonical s) :
    Canonical (s.engineStore g pathF pas heap bs) := by
  unfold State.engineStore
  dsimp only
  refine .modCore (.setBuf (.same ?_))
  split
  · exact h
  · exact h.colourUp

theorem Canonical.write {r : CopyRun} {g : Group} {c : Copy} {far : Bool} {a : Int} {bs : List Byte} (h : Canonical r.s) :
    Canonical (r.write g c far a bs).s := by
  unfold CopyRun.write
  dsimp only
  split
  · exact h
  split
  · split
    · exact h
    · exact h
    · exact h.usePage.request.event.engineStore
  · exact h.event.ownWrite

theorem Canonical.scaleOf {r : CopyRun} {g : Group} {c : Copy} {dst : Bool} {x : Rec} {row : Nat} (h : Canonical r.s) :
    Canonical (r.scaleOf g c dst x row).1.s := by
  unfold CopyRun.scaleOf
  dsimp only
  split
  · exact h
  split
  · exact h
  split
  · exact h
  · exact h.read

theorem Canonical.elem {r : CopyRun} {g : Group} {c : Copy} {x : Rec} {i : List Nat} (h : Canonical r.s) :
    Canonical (r.elem g c x i).1.s := by
  unfold CopyRun.elem
  split
  · exact h
  · exact h.read

theorem Canonical.source {r : CopyRun} {g : Group} {c : Copy} {src : Rec} {idx : Option Rec} {i : List Nat} (h : Canonical r.s) :
    Canonical (r.source g c src idx i).1.s := by
  unfold CopyRun.source
  dsimp only
  split
  · exact h
  split
  · exact h.elem
  · exact h.elem

theorem Canonical.point {r : CopyRun} {g : Group} {c : Copy} {dst : Rec} {p : Nat} (h : Canonical r.s) :
    Canonical (r.point g c dst p).s := by
  unfold CopyRun.point
  dsimp only
  split
  · exact h
  split
  · exact h.write
  split
  · split
    · exact h.source.elem.scaleOf.scaleOf.write
    · exact h.source.elem.scaleOf.scaleOf.write
  split
  · exact h.source.elem.scaleOf.scaleOf.write
  · exact h.source.elem.scaleOf.scaleOf.write

theorem Canonical.fill {r : CopyRun} {g : Group} {dst : Rec} {left : List (List Nat)} (h : Canonical r.s) :
    Canonical (r.fill g dst left) := h.setFe

theorem Canonical.points {g : Group} {c : Copy} {dst : Rec} {n p : Nat} {r : CopyRun} (h : Canonical r.s) :
    Canonical (CopyRun.points g c dst n p r).1.s := by
  induction n generalizing p r with
  | zero => exact h
  | succ n ih =>
    unfold CopyRun.points
    dsimp only
    split
    · exact h.point
    · exact ih h.point

theorem Canonical.runCopy {s : State} {g : Group} {c : Copy} (h : Canonical s) : Canonical (s.runCopy g c).1.s := by
  have hp : Canonical (CopyRun.points g c (recOf 0 c.dst) (recOf 0 c.dst).points 0 { s := s }).1.s := .points h
  unfold State.runCopy
  dsimp only
  split
  · exact hp
  · exact List.foldlRecOn (motive := fun r : CopyRun => Canonical r.s) _ _ hp fun _ h _ _ => Canonical.write h

theorem Canonical.finishCopy {s : State} {core k : Nat} {c : Copy} {set : Bool} {fl : Flags} (h : Canonical s) :
    Canonical (s.finishCopy core k c set fl) := by
  unfold State.finishCopy
  dsimp only
  refine .opOver (.modGroup (.modCore ?_))
  split
  · exact h.forgetWalks
  · exact h

theorem Lands.execCopyComplete {core k : Nat} {s : State} (h : Canonical s) : Lands (execCopyComplete core k s) := by
  unfold Machine.execCopyComplete
  dsimp only
  split
  · exact .next h
  split
  · exact .next h
  split
  · exact .next h.walkFor
  split
  · exact .next h.svtAsk
  refine .next ?_
  split
  · refine .partitionReset (.finishCopy ?_)
    split
    · exact h.runCopy.fill
    · exact h.runCopy
  refine .finishCopy ?_
  split
  · exact h.runCopy.fill
  · exact h.runCopy

theorem Lands.execCopyElementFault {core k : Nat} {s : State} (h : Canonical s) : Lands (execCopyElementFault core k s) := by
  unfold Machine.execCopyElementFault
  dsimp only
  split
  · exact .next h
  split
  · exact .next h
  split
  · exact .next h.svtAsk
  refine .next ?_
  split
  · refine .partitionReset (.finishCopy (.reportOf ?_))
    split
    · exact h.runCopy.fill
    · exact h.runCopy
  refine .finishCopy (.reportOf ?_)
  split
  · exact h.runCopy.fill
  · exact h.runCopy

/-! ### Staging (14 R294; 15 R310, R311; 18 R349) -/

theorem Canonical.claimAcc {core team n : Nat} {s : State} (h : Canonical s) : Canonical (State.claimAcc core team n s) := by
  induction n generalizing s with
  | zero => exact h
  | succ n ih =>
    unfold State.claimAcc
    split
    · exact h
    split
    · next heq => exact ih (.ofSome heq (.claimRow h))
    · exact h

theorem SomeCanonical.vacate {s : State} {core team : Nat} {qs : List Nat} (h : Canonical s) : SomeCanonical
    (s.vacate core team qs) := by
  refine .foldBind (fun _ _ h => ?_) (.some h)
  dsimp only
  split
  · exact .some h.claimAcc
  · exact .none

theorem Lands.withStaging {cores : List Nat} {k : State → Out} {s : State} (hk : ∀ t, Canonical t → Lands (k t))
    (h : Canonical s) :
    Lands (withStaging cores k s) := by
  unfold Machine.withStaging
  dsimp only
  split
  · exact .next h.hold
  next heq =>
    have hv : Canonical _ := .ofSome heq (.foldBind (fun _ _ h => .vacate h) (.some h))
    split
    · exact hk _ (.foldl (fun _ _ h => h.restoreStaging) hv)
    · exact .next (.foldl (fun _ _ h => h.restoreStaging) hv)

theorem Lands.execMmBind {q : BitVec 2} {a : Reg} {k t : BitVec 4} {s : State} (h : Canonical s) : Lands
    (execMmBind q a k t s) := by
  unfold Machine.execMmBind
  dsimp only
  split
  · exact .next h.takeFault
  refine .withStaging (fun _ h => ?_) h
  split
  · exact .next h.hold
  split
  · exact .next h.hold
  next heq =>
    exact .next (.retire (.foldl (fun _ _ h => h.modCore) (.ofSome heq (.foldBind (fun _ _ h => .vacate h) (.some h)))))

/-! ### Issue (14 R295, R296; 15 R312 to R316) -/

theorem Canonical.enqueue {s : State} {cores : List Nat} {op : TileOp} (h : Canonical s) : Canonical (s.enqueue cores op) := by
  unfold State.enqueue
  exact .modG (.foldl (fun _ _ h => h.modCore) h.same)

theorem Lands.withArray {cores : List Nat} {fra : Word} {k : State → Out} {s : State} (hk : ∀ t, Canonical t → Lands (k t))
    (h : Canonical s) :
    Lands (withArray cores fra k s) := by
  unfold Machine.withArray
  split
  · exact .next h.stopWith
  · exact hk _ h

theorem Lands.tileWord {cores : List Nat} {n : Nat} {noTile row noRow : Option Word} {op : Group → TileOp} {s : State}
    (h : Canonical s) :
    Lands (tileWord cores n noTile row noRow op s) := by
  unfold Machine.tileWord
  split
  · exact .next h.takeFault
  split
  · exact .next h.takeFault
  refine .withArray (fun _ h => .withStaging (fun _ h => ?_) h) h
  split
  · exact .next h.hold
  · exact .next h.enqueue.retire

theorem Lands.execMmZero {n} {s : State} (h : Canonical s) : Lands (execMmZero n s) := by
  unfold Machine.execMmZero
  exact .tileWord h
theorem Lands.execMmRd {d n b} {s : State} (h : Canonical s) : Lands (execMmRd d n b s) := by
  unfold Machine.execMmRd
  exact .tileWord h
theorem Lands.execMmRdScale {d n b v} {s : State} (h : Canonical s) : Lands (execMmRdScale d n b v s) := by
  unfold Machine.execMmRdScale
  exact .tileWord h
theorem Lands.execMmWr {n a b} {s : State} (h : Canonical s) : Lands (execMmWr n a b s) := by
  unfold Machine.execMmWr
  exact .tileWord h
theorem Lands.execMmChk {d n} {s : State} (h : Canonical s) : Lands (execMmChk d n s) := by
  unfold Machine.execMmChk
  exact .tileWord h

theorem Lands.productWord {kind : TileKind} {cores qs : List Nat} {n : BitVec 4} {a b : Reg} {t : BitVec 4} {s : State}
    (h : Canonical s) :
    Lands (productWord kind cores qs n a b t s) := by
  unfold Machine.productWord
  dsimp only
  split
  · exact .next h.takeFault
  split
  · exact .next h.takeFault
  refine .withArray (fun _ h => .withStaging (fun _ h => ?_) h) h
  split
  · exact .next h.takeFault
  split
  · exact .next h.takeFault
  split
  · exact .next h.hold
  split
  · exact .next h.hold
  · exact .next h.clearWay.modCore.enqueue.retire

theorem Lands.execMmPair {n : BitVec 4} {a b : Reg} {t : BitVec 4} {s : State} (h : Canonical s) :
    Lands (execMmPair n a b t s) := by
  unfold Machine.execMmPair
  dsimp only
  split
  · exact .next h.takeFault
  · exact .productWord h

/-! ### Tiles (14 R293) -/

theorem Canonical.tilePut {s : State} {t : Tile} {w : Nat} {es : List (Nat × Nat)} (h : Canonical s) :
    Canonical (s.tilePut t w es) := by
  unfold State.tilePut
  exact h.modCore

theorem Canonical.setTileStat {s : State} {t : Tile} {x : TileStat} (h : Canonical s) : Canonical (s.setTileStat t x) := h.modCore

/-! ### Products (03 R79 to R81) -/

theorem Canonical.commitProduct {s : State} {g : Group} {e : TileOp} {c : WorkCopy} (h : Canonical s) :
    Canonical (s.commitProduct g e c) := h.tilePut.setTileStat

/-! ### Start and retirement (14 R296 to R299) -/

theorem Lands.execTileOpStart {core : Nat} {s : State} (h : Canonical s) : Lands (execTileOpStart core s) := by
  unfold Machine.execTileOpStart
  dsimp only
  split
  · exact .next h
  split
  · exact .next h
  · exact .next (.foldl (fun _ _ h => h.modCore) h)

theorem Canonical.leaveQueue {s : State} {g : Group} {e : TileOp} {cs : List Nat} (h : Canonical s) :
    Canonical (s.leaveQueue g e cs) := by
  unfold State.leaveQueue
  dsimp only
  split
  · split
    · exact .foldl (fun _ _ h => h.opOver) (.foldl (fun _ _ h => h.modCore) h)
    · exact .opOver (.modGroup (.foldl (fun _ _ h => h.opOver) (.foldl (fun _ _ h => h.modCore) h)))
  split
  · exact .foldl (fun _ _ h => h.opOver) (.modCore (.foldl (fun _ _ h => h.modCore) h))
  · exact .opOver (.modGroup (.foldl (fun _ _ h => h.opOver) (.modCore (.foldl (fun _ _ h => h.modCore) h))))

theorem Canonical.rerun {s : State} {g : Group} {e : TileOp} {cs : List Nat} {errors : Nat} (h : Canonical s) :
    Canonical (s.rerun g e cs errors) := .foldl (fun _ _ h => .foldl (fun _ _ h => h.correctable) h.setTileStat) h.event

theorem Canonical.retireProduct {s : State} {g : Group} {e : TileOp} {cs : List Nat} {faults : List (List (Nat × Nat × Nat))}
    (h : Canonical s) :
    Canonical (s.retireProduct g e cs faults) := by
  unfold State.retireProduct
  dsimp only
  split
  · exact .foldl (fun _ _ h => h.commitProduct) h
  split
  · exact .foldl (fun _ _ h => h.commitProduct) h.rerun
  · exact h.rerun.reportOf

theorem Lands.execTileOpRetire {core : Nat} {faults : List (List (Nat × Nat × Nat))} {s : State} (h : Canonical s) :
    Lands (execTileOpRetire core faults s) := by
  unfold Machine.execTileOpRetire
  dsimp only
  split
  · exact .next h
  split
  · exact .next h
  refine .next (.leaveQueue ?_)
  split
  · exact h.tilePut.setTileStat
  · exact h.modGroup
  · exact h.tilePut
  · exact h.writeReturn
  · exact h.retireProduct
  · exact h.retireProduct

/-! ### Requests leaving the core port -/

theorem Canonical.portDone {s : State} {r : PortReq} (h : Canonical s) : Canonical (s.portDone r) := by
  unfold State.portDone
  split
  · exact h.modGroup
  · exact h.modGroup
  · exact h.modCore

theorem SomeCanonical.countCopy {s : State} {core k : Nat} (h : Canonical s) : SomeCanonical (s.countCopy core k) := by
  refine .bind fun c => .bind fun g => ?_
  split
  · exact .none
  dsimp only
  split
  · exact .some h.walkFor
  · exact .some h.modCore

theorem Lands.execPortRequestDepart {r : PortReq} {s : State} (h : Canonical s) : Lands (execPortRequestDepart r s) := by
  unfold Machine.execPortRequestDepart
  dsimp only
  split
  · refine .next ?_
    split
    · exact .getD (.countCopy h) h
    · exact h
  split
  · exact .next h
  split
  · exact .next h.waitAt
  split
  · exact .next (.getD (.answerOne h) h)
  refine .next ?_
  split
  · exact h.modCore.portDone.dropBuckets
  · exact h.modCore.portDone

/-! ### Elements (06 R161; 03 R74, R80) -/

/-- What one step of a sweep leaves. -/
def SweepStep.Lands : SweepStep → Prop
  | .done s => Canonical s
  | .stop o => Machine.Lands o

theorem SweepStep.Lands.runStep {w : Sweep} {p n : Nat} {s : State} (h : Canonical s) : (w.runStep p n s).Lands := by
  unfold Sweep.runStep
  dsimp only
  split
  · exact .next h.spendWord.takeFault
  · exact .next h.spendWord.park
  split
  · exact .next h.spendWord.takeTrap
  refine Canonical.ownWrite (.foldl (fun _ _ h => ?_) h.modG)
  split
  · exact h.poolWrite
  · exact h

theorem Lands.run {w : Sweep} {k p n : Nat} {s : State} (h : Canonical s) : Lands (w.run k p n s) := by
  induction k generalizing p n s with
  | zero =>
    unfold Sweep.run
    split
    · exact .next h.modG.retire
    · exact .next h.spendWord.modG
  | succ k ih =>
    unfold Sweep.run
    split
    · exact .next h.modG.retire
    have hs := SweepStep.Lands.runStep (w := w) (p := p) (n := n) h
    dsimp only
    split
    · next heq => rw [heq] at hs; exact hs
    · next heq => rw [heq] at hs; exact ih hs

theorem Lands.sweepWord {op : SweepOp} {d a : Nat} {b : Option Nat} {t : BitVec 4} {r : BitVec 2} {n : BitVec 1} {s : State}
    (h : Canonical s) :
    Lands (sweepWord op d a b t r n s) := by
  unfold Machine.sweepWord
  dsimp only
  split
  · exact .next h.modG
  refine .withRecords (fun _ _ h => ?_) h
  split
  · split
    · exact .next h.takeFault
    · exact .run h.modG
  · split
    · exact .next h.takeFault
    · exact .run h.modG
  · exact .next h

/-! ### Debug stops (21 R388) -/

theorem Canonical.resumeStop {s : State} {g : Group} (h : Canonical s) : Canonical (s.resumeStop g) := h.setGroup
theorem Canonical.resumeStops {s : State} {core enc : Nat} {p : Group → Bool} (h : Canonical s) :
    Canonical (s.resumeStops core enc p) := .foldl (fun _ _ h => h.resumeStop) h

/-! ### Selectors (21 Tables 21.5, 21.6) -/

theorem Canonical.releaseGuest {s : State} {core enc : Nat} (h : Canonical s) : Canonical (s.releaseGuest core enc) :=
  h.resumeStops.modCore

theorem Canonical.configure {s : State} {core enc sel : Nat} {v : Word} {gid : Nat} (h : Canonical s) :
    Canonical (s.configure core enc sel v gid) := by
  unfold State.configure
  dsimp only
  split
  · exact h.modCore
  split
  · exact h.modCore.resumeStops
  split
  · exact h.modCore.resumeStops
  · exact h.modCore

theorem Canonical.ctrConfig {s : State} {g : Group} {sel : Nat} {v : Word} (h : Canonical s) :
    Canonical (s.ctrConfig g sel v) := by
  unfold State.ctrConfig
  dsimp only
  split
  · exact h.releaseGuest.modCore
  split
  · split
    · exact h.configure
    split
    · exact h.modCore.configure
    split
    · exact h.modCore
    · exact h
  split
  · exact h.configure
  split
  · exact h.modCore.configure
  split
  · exact h.modCore
  · exact h

/-! ### The hypervisor's acquisition and release (21 R376) -/

theorem Canonical.applyKept {s : State} {core enc : Nat} {ks : List (Nat × Word × Nat)} {bank : Bool} (h : Canonical s) :
    Canonical (s.applyKept core enc ks bank) := by
  unfold State.applyKept
  dsimp only
  refine .foldl (fun _ _ h => ?_) h
  split
  · split
    · exact h.modCore
    · exact h.resumeStops.modCore
  refine .configure ?_
  split
  · split
    · exact h.modCore
    · exact h
  split
  · exact h.modCore
  · exact h

theorem Canonical.bankReturned {s : State} {core : Nat} (h : Canonical s) : Canonical (s.bankReturned core) := by
  unfold State.bankReturned
  dsimp only
  split
  · exact h
  split
  · exact h.modCore
  · exact h.modCore.applyKept

theorem Canonical.traceReturned {s : State} {core : Nat} (h : Canonical s) : Canonical (s.traceReturned core) := by
  unfold State.traceReturned
  dsimp only
  split
  · exact h
  split
  · exact h.modCore
  · exact h.modCore.applyKept

/-! ### Packets into the buffer (21 R385) -/

theorem Lands.execTraceLost {core : Nat} {s : State} (h : Canonical s) : Lands (execTraceLost core s) := .next h.catchUp

theorem SomeCanonical.packetOut {s : State} {core : Nat} (h : Canonical s) : SomeCanonical (s.packetOut core) := by
  unfold State.packetOut
  dsimp only
  split
  · split
    · exact .none
    · exact .some h.devWrite.modCore
  · exact .some h.modCore
  · exact .none

/-! ### Arming a replay block (21 R389) -/

theorem Lands.replayArm {v : Word} {s : State} (h : Canonical s) : Lands (replayArm v s) := by
  unfold Machine.replayArm
  dsimp only
  split
  · exact .next h.faultHere
  refine .withRead (fun _ _ h => ?_) h
  split
  · exact .next h.faultHere
  split
  · exact .next h.retire
  · exact .next h.modEnc.retire

theorem Lands.ctrWord {a b : Reg} {s : State} (h : Canonical s) : Lands (ctrWord a b s) := by
  unfold Machine.ctrWord
  dsimp only
  split
  · exact .replayArm h
  split
  · exact .next h.takeFault
  · exact .next h.retire.ctrConfig

/-! ### Installing (09 R199; 12 R277) -/

theorem Lands.lanternRecord {resize : Bool} {a : Reg} {s : State} (h : Canonical s) : Lands (lanternRecord resize a s) := by
  unfold Machine.lanternRecord
  dsimp only
  refine .withRead (fun _ _ h => ?_) h
  split
  · exact .next h.takeFault
  split
  · exact .next h.takeFault
  split
  · split
    · exact .next h.takeFault
    · exact .next h.same.retire
  split
  · exact .next h.park
  · exact .next h.same.retire

theorem Lands.execLnStat {d a : Reg} {s : State} (h : Canonical s) : Lands (execLnStat d a s) := .next h.setS.retire

/-! ### ln.flush and ln.inv (12 R278) -/

theorem Lands.lanternSweep {inv : Bool} {a b : Reg} {s : State} (h : Canonical s) : Lands (lanternSweep inv a b s) := by
  unfold Machine.lanternSweep
  dsimp only
  split
  · exact .next h.retire
  split
  · exact .next h.takeFault
  split
  · exact .next h.hold
  refine .next (.retire (.modG (.same ?_)))
  split
  · exact h.modCore
  · exact h

theorem Canonical.lnStart {s : State} {g : Group} {o : LnOp} (h : Canonical s) : Canonical (s.lnStart g o).1 := by
  unfold State.lnStart
  dsimp only
  split
  · exact .foldl (fun _ _ h => h.dropLine) h
  · exact h

theorem Canonical.lnLine {s : State} {part : Nat} {inv : Bool} {x : Nat × Nat} (h : Canonical s) :
    Canonical (s.lnLine part inv x) := by
  unfold State.lnLine
  dsimp only
  split
  · split
    · exact h.writeBack.dropLine
    · exact h.writeBack
  · exact h

theorem Lands.execWriteBackArrival {gid k : Nat} {s : State} (h : Canonical s) : Lands (execWriteBackArrival gid k s) := by
  unfold Machine.execWriteBackArrival
  split
  · exact .next h
  split
  · exact .next h
  dsimp only
  split
  · exact .next h
  next heq =>
    refine .next (.modGroup ?_)
    split at heq
    · split at heq
      · cases heq; exact .ofFst rfl h.lnStart
      · cases heq
    · cases heq
      split
      · exact h.lnLine
      · exact h

/-! ### Cursors (09 R200, R201) -/

theorem Canonical.cursorLine {s : State} {l : Ldr} {flushAll : Bool} {y : LLine} (h : Canonical s) :
    Canonical (s.cursorLine l flushAll y) := by
  unfold State.cursorLine
  split
  · exact h.writeBack.dropLine
  · exact h.same.insertLine

theorem Canonical.cursorStep {s : State} {part cls die : Nat} {flushAll : Bool} (h : Canonical s) :
    Canonical (s.cursorStep part cls die flushAll) := by
  unfold State.cursorStep
  dsimp only
  split
  · exact h
  split
  · exact h
  split
  · exact h
  refine .same (.foldl (fun _ _ h => ?_) h)
  split
  · exact h.cursorLine
  · exact h

theorem Lands.execResizeCursorStep {part cls die : Nat} {s : State} (h : Canonical s) :
    Lands (execResizeCursorStep part cls die s) := .next h.cursorStep
theorem Lands.execFlushCursorStep {part cls die : Nat} {s : State} (h : Canonical s) :
    Lands (execFlushCursorStep part cls die s) := .next h.cursorStep

end Sys2Proof.Machine
end

section
/-! PROOFS. Each operation keeps the canonical form: moving frames, harts, the SPDM responder, the SYS class and the management window. -/

namespace Sys2Proof.Machine

/-! ### Invalidations (10 R224 to R226) -/

theorem Lands.execInvalidation {sc : InvScope} {s : State} (h : Canonical s) : Lands (execInvalidation sc s) := .next h.postInval

theorem SomeCanonical.ackInval {s : State} {die : Nat} (h : Canonical s) : SomeCanonical (s.ackInval die) := by
  unfold State.ackInval
  dsimp only
  split
  · exact .none
  split
  · exact .none
  split
  · refine .some (.acceptInval ?_)
    split
    · exact h.modDie.nearFrames
    · exact h.modDie
  refine .some ?_
  split
  · exact h.modDie.nearFrames
  · exact h.modDie

theorem Lands.execDtuAcknowledge {die : Nat} {s : State} (h : Canonical s) : Lands (execDtuAcknowledge die s) :=
  .next (.getD (.ackInval h) h)

/-! ### Pinned pages (10 R213) -/

theorem Canonical.pinFrame {s : State} {e f : Nat} (h : Canonical s) : Canonical (s.pinFrame e f) := by
  unfold State.pinFrame
  dsimp only
  split
  · exact h
  · exact h.raiseLease.modEnc

theorem Canonical.pinLeaf {s : State} {e : Nat} {l : Leaf} (h : Canonical s) : Canonical (s.pinLeaf e l) :=
  .foldl (fun _ _ h => h.pinFrame) h

theorem Canonical.givePage {s : State} {w : Walk} {t : Tlb} (h : Canonical s) : Canonical (s.givePage w t) := by
  unfold State.givePage
  split
  · exact h
  · exact h.modCore

theorem Lands.execWalkComplete {die k : Nat} {s : State} (h : Canonical s) : Lands (execWalkComplete die k s) := by
  unfold Machine.execWalkComplete
  dsimp only
  split
  · exact .next h
  split
  · exact .next h
  split
  · exact .next h.partitionReset
  refine .next ?_
  split
  · exact h.countWalk.modDie
  split
  · exact h.countWalk.modDie
  split
  · exact h.countWalk
  · exact h.countWalk.pinLeaf.modDie.givePage

/-! ### Moving frames (10 R227 to R229) -/

theorem Canonical.setMigr {s : State} {ctl k : Nat} {m : Migr} (h : Canonical s) : Canonical (s.setMigr ctl k m) := h.same

theorem Canonical.beginMove {s : State} {ctl k src dst : Nat} (h : Canonical s) : Canonical (s.beginMove ctl k src dst) := by
  unfold State.beginMove
  dsimp only
  split
  · exact h
  · exact h.setMigr.setPot.setPot.postInval.postInval

theorem Lands.execMigrationStep {ctl k : Nat} {tagOk : Bool} {s : State} (h : Canonical s) :
    Lands (execMigrationStep ctl k tagOk s) := by
  unfold Machine.execMigrationStep
  dsimp only
  split
  · exact .next h
  split
  · exact .next h.countAt.memError
  · exact .next (.setMigr h.countAt.countAt.putMem)

theorem Canonical.retireMove {s : State} {ctl k : Nat} (h : Canonical s) : Canonical (s.retireMove ctl k) := by
  unfold State.retireMove
  dsimp only
  split
  · exact h
  · exact .postInval (.postInval (.setPot (.setPot (.zeroFrames (.renameFrame (.setMigr (.foldl
    (fun _ _ h => h.writeBack.dropLine) h)))))))

/-! ### Frame accounts (10 R230) -/

theorem Canonical.writeAccount {s : State} {vi : Nat} {burst : Bool} {n : Nat} (h : Canonical s) :
    Canonical (s.writeAccount vi burst n) := by
  unfold State.writeAccount
  dsimp only
  split
  · split
    · exact h
    · exact h.same
  split
  · exact h
  · exact h.same

/-! ### Partitions and interfaces (19 R351 to R355) -/

theorem Canonical.writePart {s : State} {part : Nat} {p : Part} (h : Canonical s) : Canonical (s.writePart part p) := by
  unfold State.writePart
  dsimp only
  split
  · exact .modPart (.same (.foldl (fun _ _ h => h.writeBack.dropLine) h))
  · exact h.modPart

theorem Canonical.writeRecord {s : State} {part : Nat} {ds : List Word} (h : Canonical s) :
    Canonical (s.writeRecord part ds) := by
  unfold State.writeRecord
  dsimp only
  split
  · exact h
  · exact h.writePart

theorem Canonical.writeVi {s : State} {vi : Nat} {d0 d1 : Word} (h : Canonical s) : Canonical (s.writeVi vi d0 d1) := by
  unfold State.writeVi
  dsimp only
  split
  · split
    · exact h
    · exact h.same
  split
  · exact h
  · exact h.same

theorem Lands.execVirtualInterfaceWrite {vi d0 d1 name} {s : State} (h : Canonical s) : Lands
    (execVirtualInterfaceWrite vi d0 d1 name s) := by
  refine .whenRunning (fun _ h => ?_) h
  split
  · exact h.writeVi.same
  · exact h.writeVi

/-! ### Single registers -/

theorem Canonical.writeMmt {s : State} {k hash : Nat} (h : Canonical s) : Canonical (s.writeMmt k hash) := by
  unfold State.writeMmt
  split
  · exact h
  · exact h.same

theorem Canonical.writeCoreTokens {s : State} {die n : Nat} (h : Canonical s) : Canonical (s.writeCoreTokens die n) := by
  unfold State.writeCoreTokens
  split
  · exact h
  · exact h.modDie

theorem Canonical.writeFabTokens {s : State} {n : Nat} (h : Canonical s) : Canonical (s.writeFabTokens n) := by
  unfold State.writeFabTokens
  split
  · exact h
  · exact h.same

theorem Canonical.writePkgid {s : State} {n : Nat} (h : Canonical s) : Canonical (s.writePkgid n) := by
  unfold State.writePkgid
  split
  · exact h
  · exact h.same

theorem Canonical.writePlimit {s : State} {n : Nat} (h : Canonical s) : Canonical (s.writePlimit n) := by
  unfold State.writePlimit
  split
  · exact h
  · exact h.same.throttle

/-! ### Refills (19 R359; 25 R406) -/

theorem Lands.execTokenRefill {core : Nat} {s : State} (h : Canonical s) : Lands (execTokenRefill core s) := by
  unfold Machine.execTokenRefill
  dsimp only
  split
  · exact .next h
  · exact .next h.modCore

theorem Lands.execFabricTokenRefill {s : State} (h : Canonical s) : Lands (execFabricTokenRefill s) := by
  unfold Machine.execFabricTokenRefill
  split
  · exact .next h
  · exact .next h.same

/-! ### Harts (20 R363, R367; log 9) -/

theorem Canonical.hartDone {s : State} {d : BitVec 5} {value status : Nat} (h : Canonical s) :
    Canonical (s.hartDone d value status) := h.modHart
theorem Canonical.hartAwait {s : State} {d : BitVec 5} {value status : Nat} (h : Canonical s) :
    Canonical (s.hartAwait d value status) := h.modHart
theorem Canonical.hartResume {s : State} {q : Nat} (h : Canonical s) : Canonical (s.hartResume q) := h.modHart
theorem Canonical.hartTrap {s : State} {cause tval : Nat} (h : Canonical s) : Canonical (s.hartTrap cause tval) := h.modHart

theorem Lands.custom0 {s : State} {body : State → Out} (h : Canonical s) (hk : ∀ t, Canonical t → Lands (body t)) :
    Lands (s.custom0 body) := by
  unfold State.custom0
  split
  · exact .next h.hartTrap
  split
  · exact hk _ h
  · exact hk _ h
  · exact .next h.hartTrap
  · exact .next h.hartTrap
  · exact .next h.hartTrap

theorem Lands.custom1 {s : State} {body : Nat → State → Out} (h : Canonical s) (hk : ∀ a t, Canonical t → Lands (body a t)) :
    Lands (s.custom1 body) := by
  unfold State.custom1
  split
  · exact hk _ _ h
  · exact .next h.hartTrap

/-! ### Hypervisor memory and parameter blocks (20 R364) -/

theorem Canonical.hartPin {s : State} {e va pa : Nat} (h : Canonical s) : Canonical (s.hartPin e va pa) := by
  unfold State.hartPin
  split
  · exact h.pinFrame
  · exact h

theorem Canonical.hartFetched {s : State} (h : Canonical s) : Canonical s.hartFetched := by
  unfold State.hartFetched
  dsimp only
  split
  · exact h.hartTouch.countPeek
  split
  · exact h.countWalk.hartTouch.countPeek.hartPin
  · exact h

theorem Canonical.hartStore {s : State} {part pa : Nat} {bs : List Byte} (h : Canonical s) :
    Canonical (s.hartStore part pa bs) := by
  unfold State.hartStore
  split
  · exact h
  · exact .foldl (fun _ _ h => h.hartTouch.hubStore) h

theorem Canonical.hartLoads {s : State} {part pa n : Nat} (h : Canonical s) : Canonical (s.hartLoads part pa n) := by
  unfold State.hartLoads
  dsimp only
  split
  · exact h
  · exact .countPeek (.foldl (fun _ _ h => h.hartTouch) h)

theorem Canonical.hartReads {s : State} {e va pa n : Nat} {k : State → State} (h : Canonical s)
    (hk : ∀ t, Canonical t → Canonical (k t)) :
    Canonical (s.hartReads e va pa n k) := by
  unfold State.hartReads
  split
  · exact h.partitionReset
  · exact hk _ h.hartLoads

/-! ### enc.make (18 R337; 20 R365) -/

theorem Canonical.undoMake {s : State} {x : Enclave} (h : Canonical s) : Canonical (s.undoMake x) :=
  .same (.foldl (fun _ _ h => h.setPot) h.zeroFrames.invalFrames)
theorem Canonical.makePage {s : State} {x : Enclave} {m : Making} (h : Canonical s) : Canonical (s.makePage x m) := by
  unfold State.makePage
  exact h.setPot.postInval.modEnc
theorem Canonical.bindFrames {s : State} {fs : List Nat} {p : Pot} (h : Canonical s) : Canonical (s.bindFrames fs p) :=
  .invalFrames (.foldl (fun _ _ h => h.setPot) h.zeroFrames)

theorem Canonical.pinPages {s : State} {x : Enclave} (h : Canonical s) : Canonical (s.pinPages x) := by
  unfold State.pinPages
  refine .foldl (fun _ _ h => ?_) h
  split
  · exact h.pinFrame
  · exact h

theorem Canonical.makeEnd {s : State} {x : Enclave} (h : Canonical s) : Canonical (s.makeEnd x) := by
  unfold State.makeEnd
  exact .modEnc (.pinPages (.invalFrames (.setPot (.bindFrames (.bindFrames (.bindFrames (.bindFrames (.foldl
    (fun _ _ h => h.bindFrames) h))))))))

theorem Canonical.makeStep {s : State} {d : BitVec 5} {x : Enclave} {m : Making} (h : Canonical s) :
    Canonical (s.makeStep d x m) := by
  unfold State.makeStep
  dsimp only
  split
  · split
    · exact h.undoMake.hartAwait
    split
    · exact h.undoMake.hartAwait
    · exact h.makePage
  split
  · exact h.undoMake.hartAwait
  · exact h.makeEnd.hartAwait

theorem Canonical.makeStart {s : State} {a : Nat} {d : BitVec 5} {undone : Bool} (h : Canonical s) :
    Canonical (s.makeStart a d undone) := by
  unfold State.makeStart
  dsimp only
  split
  · split
    · exact h.hartAwait
    · exact h.hartDone
  split
  · split
    · exact h.hartAwait
    · exact h.hartDone
  split
  · exact h.same
  split
  · exact h.hartAwait
  · exact h.hartDone

theorem Lands.execEncMake {vs d} {s : State} (h : Canonical s) : Lands (execEncMake vs d s) := by
  refine .custom0 h (fun _ h => .next ?_)
  split
  · split
    · split
      · exact h.makeStep
      · exact h.undoMake.makeStart
    · exact h
  · exact h.makeStart

/-! ### enc.kill (20 R366) -/

theorem Canonical.killStart {s : State} {e : Nat} (h : Canonical s) : Canonical (s.killStart e) := h.hartsLeave.modEnc.same

theorem Lands.execEncKill {vs d} {s : State} (h : Canonical s) : Lands (execEncKill vs d s) := by
  refine .custom0 h (fun _ h => .next ?_)
  split
  · split
    · exact h.endEnclave.hartAwait
    · exact h.endEnclave
  split
  · exact h.killStart
  · exact h.hartDone

theorem Lands.execPendingInterrupt {q : Nat} {s : State} (h : Canonical s) : Lands (execPendingInterrupt q s) := by
  unfold Machine.execPendingInterrupt
  refine .next ?_
  split
  · exact h.modHart
  · exact h

/-! ### Enclave threads (20 R367, R368) -/

theorem Lands.execEncEnter {t vs d} {s : State} (h : Canonical s) : Lands (execEncEnter t vs d s) := by
  refine .custom0 h (fun _ h => .next ?_)
  split
  · exact h.hartDone
  split
  · exact h.hartDone
  split
  · split
    · next heq => exact .modHart (h.openFromSave heq)
    · exact h.endTampered.hartAwait
  · exact h.modHart

theorem Lands.execEnclaveThreadInterrupt {q cause : Nat} {toM : Bool} {s : State} (h : Canonical s) :
    Lands (execEnclaveThreadInterrupt q cause toM s) := by
  unfold Machine.execEnclaveThreadInterrupt
  dsimp only
  refine .next ?_
  split
  · exact h
  refine .modHart ?_
  split
  · next heq =>
      exact .modEnc (.modHart (.ofSome heq (.sealToSave h)))
  · exact h.endEnclave

/-! ### Pages across the boundary, and reports (20 R369, R370) -/

theorem Lands.execEncOut {t vs d} {s : State} (h : Canonical s) : Lands (execEncOut t vs d s) := by
  refine .custom1 h (fun _ _ h => .next ?_)
  split
  · exact h.hartDone
  · exact .hartReads h (fun _ h => h.hartStore.hartPin.hartDone)

theorem Lands.execEncIn {t vs d} {s : State} (h : Canonical s) : Lands (execEncIn t vs d s) := by
  refine .custom1 h (fun _ _ h => .next ?_)
  split
  · exact h.hartDone
  · exact h.hartLoads.hartStore.hartPin.hartDone

theorem Lands.execEncRep {t vs d} {s : State} (h : Canonical s) : Lands (execEncRep t vs d s) := by
  refine .custom1 h (fun _ _ h => .next ?_)
  split
  · exact h.hartDone
  split
  · exact .hartReads h (fun _ h => h.hartStore.hartPin.hartPin.hartDone)
  · exact h.hartDone

/-! ### Paging (18 R345, R346; 20 R371, R372) -/

theorem Canonical.flushFrame {s : State} {e f : Nat} (h : Canonical s) : Canonical (s.flushFrame e f) := by
  unfold State.flushFrame
  have hd := Canonical.foldl (f := fun s l => (s.writeBack l).dropLine l) (fun _ _ h => h.writeBack.dropLine)
    (l := s.lines.filter fun l => l.line / 4096 = f) h
  refine canonical_of_fields hd.memory ?_ hd.harts hd.listed
  dsimp only
  exact smWf_smMap _ _ hd.cores

theorem Canonical.pageOut {s : State} {e va f buf i : Nat} {d : BitVec 5} (h : Canonical s) :
    Canonical (s.pageOut e va f buf i d) := h.flushFrame.sealImage.hartStore.pvtWrite.zeroFrames.setPot.postInval.hartAwait

theorem Canonical.pageOutTo {s : State} {e va buf : Nat} {d : BitVec 5} (h : Canonical s) :
    Canonical (s.pageOutTo e va buf d) := by
  unfold State.pageOutTo
  dsimp only
  split
  · exact h.hartDone
  split
  · exact h.hartDone
  split
  · exact h.hartDone
  split
  · exact h.hartDone
  split
  · exact h.hartDone
  split
  · exact h.hartDone
  split
  · exact h.hartDone
  split
  · exact h.hartDone
  · exact h.pageOut

theorem Lands.execPgOut {vs d} {s : State} (h : Canonical s) : Lands (execPgOut vs d s) := by
  refine .custom0 h (fun _ h => .next ?_)
  split
  · split
    · exact h.hartDone
    · exact h.hartLoads.pageOutTo
  · exact h.hartDone

theorem Canonical.answered {s : State} {e va : Nat} (h : Canonical s) : Canonical (s.answered e va) := h.modEnc
theorem Canonical.answeredFrame {s : State} {f : Nat} (h : Canonical s) : Canonical (s.answeredFrame f) :=
  .foldl (fun _ _ h => h.answered) h

theorem Canonical.pageIn {s : State} {e va frame cls : Nat} {l : Leaf} {body : List Byte} {d : BitVec 5} (h : Canonical s) :
    Canonical (s.pageIn e va frame cls l body d) := by
  unfold State.pageIn
  dsimp only
  refine .hartAwait (.postInval (.postInval ?_))
  split
  · refine .pinFrame ?_
    split
    · exact h.zeroFrames.memWrite.setPot.hubStore.answeredFrame.setPot.postInval
    · exact h.zeroFrames.memWrite.setPot.hubStore
  split
  · exact h.zeroFrames.memWrite.setPot.hubStore.answeredFrame.setPot.postInval
  · exact h.zeroFrames.memWrite.setPot.hubStore

theorem Canonical.pageInFrom {s : State} {e va img frame cls : Nat} {d : BitVec 5} (h : Canonical s) :
    Canonical (s.pageInFrom e va img frame cls d) := by
  unfold State.pageInFrom
  dsimp only
  split
  · exact h.hartDone
  split
  · exact h.hartDone
  split
  · exact h.hartDone
  split
  · exact h.hartDone
  split
  · exact h.hartDone
  · exact h.hartDone
  next heq => exact .pageIn (h.openImage heq)

theorem Lands.execPgIn {vs d} {s : State} (h : Canonical s) : Lands (execPgIn vs d s) := by
  refine .custom0 h (fun _ h => .next ?_)
  split
  · split
    · exact h.hartDone
    · exact h.hartLoads.hartLoads.pageInFrom
  · exact h.hartDone

/-! ### pot.xfer (20 R373) -/

theorem Canonical.xferAll {s : State} {kind owner cls cg f n : Nat} (h : Canonical s) :
    Canonical (s.xferAll kind owner cls cg f n).2.2 := by
  induction n generalizing f s with
  | zero => exact h
  | succ n ih =>
    unfold State.xferAll
    split
    · exact h
    dsimp only
    refine ih (.setPot ?_)
    have ha : Canonical (if kind = 3 then s.answeredFrame f else s) := by
      split
      · exact h.answeredFrame
      · exact h
    split
    · exact ha.zeroFrames
    · exact ha

theorem Lands.execPotXfer {vs d} {s : State} (h : Canonical s) : Lands (execPotXfer vs d s) := by
  refine .custom0 h (fun _ h => .next ?_)
  split
  · split
    · exact h.hartDone
    dsimp only
    split
    · exact h.hartLoads.xferAll.hartDone
    · exact h.hartLoads.xferAll.postInval.hartAwait
  · exact h.hartDone

/-! ### Events that happen by themselves -/

theorem SomeLands.firstMove {s : State} {ms : List (State → Out)} (hk : ∀ m ∈ ms, Lands (m s)) : SomeLands (firstMove s ms) := by
  induction ms with
  | nil => exact .none
  | cons m ms ih =>
    have rest := ih fun m hm => hk m (List.mem_cons_of_mem _ hm)
    have first := hk m List.mem_cons_self
    unfold Machine.firstMove
    split
    · next heq =>
      rw [heq] at first
      split
      · exact rest
      · exact .some first
    · exact .some first

theorem Lands.moveOr {f : State → Option State} {x1 : State} (hk : ∀ t, Canonical t → SomeCanonical (f t)) (h : Canonical x1) :
    Lands (moveOr f x1) := .next (.getD (hk _ h) h)

/-! ### What happens by itself -/

/-- A move that lands from every canonical state. -/
def Keeps (m : State → Out) : Prop := ∀ s, Canonical s → Lands (m s)

theorem keeps_portMoves (s : State) : ∀ m ∈ s.portMoves, Keeps m := by
  simp only [State.portMoves, List.forall_mem_append, List.forall_mem_flatMap, List.forall_mem_map, List.forall_mem_cons]
  exact ⟨⟨⟨⟨fun _ _ _ _ _ h => .execWalkComplete h, fun _ _ => ⟨fun _ h => .execPortRequestDepart h,
    fun _ _ _ h => .execPortRequestDepart h⟩⟩, fun _ _ _ _ _ h => .execPortRequestDepart h⟩,
    fun _ h => .moveOr (fun _ h => .egressStep h) h, nofun⟩, fun _ _ _ h => .execCoreStorePointPass h⟩

theorem keeps_memoryMoves (s : State) : ∀ m ∈ s.memoryMoves, Keeps m := by
  simp only [State.memoryMoves, List.forall_mem_append, List.forall_mem_flatMap, List.forall_mem_map, List.forall_mem_cons]
  exact ⟨⟨⟨⟨fun _ _ _ _ _ h => .execOrderingPointArrival h, fun _ _ _ _ => ⟨fun _ h => .execOrderingPointArrival h,
    fun _ h => .execOrderGateRelease h, fun _ h => .execOrderGateTimeout h, fun _ h => .execAtomicExecute h,
    fun _ h => .execFarLoadReturn h, fun _ h => .execAtomicReturn h, nofun⟩⟩,
    fun _ _ => ⟨fun _ h => .execWindowLoadReturn h, fun _ _ _ h => .execWindowStorePerformed h⟩⟩,
    fun _ _ _ _ _ h => .execWriteBackArrival h⟩, fun _ _ _ _ _ h => .execSvtWidening h⟩

theorem keeps_unitMoves (s : State) : ∀ m ∈ s.unitMoves, Keeps m := by
  simp only [State.unitMoves, List.forall_mem_append, List.forall_mem_flatMap, List.forall_mem_map, List.forall_mem_cons]
  refine ⟨⟨⟨⟨⟨fun _ _ => ⟨fun _ _ => ⟨fun _ h => .execCopyElementFault h, fun _ h => .execCopyComplete h, nofun⟩, ?tiles⟩,
    fun _ _ _ _ => ⟨fun _ h => .execResizeCursorStep h, fun _ h => .execFlushCursorStep h, nofun⟩⟩,
    fun _ _ _ h => .execDtuAcknowledge h⟩, fun _ _ _ h => .execTokenRefill h⟩, fun _ h => .execFabricTokenRefill h, nofun⟩, ?harts⟩
  case tiles =>
    split
    · exact nofun
    · simp only [List.forall_mem_cons]
      exact ⟨fun _ h => .execTileOpStart h, fun _ h => .execTileOpRetire h, nofun⟩
  case harts =>
    intro m hm
    obtain ⟨x, _, hx⟩ := List.mem_filterMap.1 hm
    split at hx
    · cases hx
      refine fun _ h => .moveOr (fun _ h => ?_) h
      split
      · exact .some h.hartResume
      · exact .none
    · cases hx

theorem keeps_groupMoves (s : State) : ∀ m ∈ s.groupMoves, Keeps m := by
  simp only [State.groupMoves, List.forall_mem_append, List.forall_mem_flatMap, List.forall_mem_map, List.forall_mem_cons]
  exact ⟨⟨⟨⟨fun _ _ _ h => .execParkWake h, fun _ _ _ h => .moveOr (fun _ h => .map fun _ => h.joinDone) h⟩,
    fun _ _ _ h => .execGroupEnded h⟩, fun _ _ _ h => .execTeamPublish h⟩,
    fun _ _ => ⟨fun _ h => .execTaskEnd h, fun _ h => .execFaultRecord h, nofun⟩⟩

theorem keeps_chandlerMoves (s : State) : ∀ m ∈ s.chandlerMoves, Keeps m := by
  simp only [State.chandlerMoves, List.forall_mem_append, List.forall_mem_flatMap, List.forall_mem_map]
  exact ⟨⟨⟨⟨⟨⟨⟨fun _ _ _ h => .execPlacementAttempt h, fun _ _ _ h => .execEdgeLineAction h⟩, fun _ _ _ h => .execLeaseWalk h⟩,
    fun _ _ _ h => .execLeasePendingTimeout h⟩, fun _ _ _ h => .execArbitrateRelease h⟩, fun _ _ _ h => .execDependRelease h⟩,
    fun _ _ _ h => .execAdmissionOpportunity h⟩, fun _ _ _ _ _ h => .execKickStoreAccept h⟩

theorem keeps_fabricMoves (s : State) : ∀ m ∈ s.fabricMoves, Keeps m := by
  simp only [State.fabricMoves, List.forall_mem_append, List.forall_mem_flatMap, List.forall_mem_map, List.forall_mem_cons]
  exact ⟨⟨⟨⟨⟨fun _ h => .getD (.collStep h) (.next h), nofun⟩, fun _ _ _ _ _ h => .execStreamBindingTimeout h⟩,
    fun _ _ _ h => .moveOr (fun _ h => .closeStep h) h⟩, fun _ _ _ h => .execTcntIncrement h⟩,
    fun _ _ => ⟨fun _ h => .moveOr (fun _ h => .packetOut h) h, fun _ h => .execTraceLost h, nofun⟩⟩

theorem SomeLands.autoStep {s : State} (h : Canonical s) : SomeLands s.autoStep := by
  refine .firstMove ?_
  simp only [List.forall_mem_append]
  exact ⟨⟨⟨⟨⟨fun m hm => keeps_portMoves s m hm s h, fun m hm => keeps_memoryMoves s m hm s h⟩,
    fun m hm => keeps_unitMoves s m hm s h⟩, fun m hm => keeps_groupMoves s m hm s h⟩,
    fun m hm => keeps_chandlerMoves s m hm s h⟩, fun m hm => keeps_fabricMoves s m hm s h⟩

theorem Canonical.tick {s : State} (h : Canonical s) : Canonical s.tick :=
  .egressWait (.same (.foldl (fun _ _ h => h.modDie) (.foldl (fun _ _ h => h.modCore.slotPass.slotPass) h)))

/-! ### The scalar instructions' results -/

theorem Lands.scalarOut {n : Nat} {d : Reg} {v : Word} {s : State} (h : Canonical s) : Lands (scalarOut n d v s) :=
  .next h.setS.retire
theorem Lands.scalarFp {n : Nat} {d : Reg} {r : FRes} {s : State} (h : Canonical s) : Lands (scalarFp n d r s) :=
  .next h.modG.setS.retire
theorem Lands.execNop {s : State} (h : Canonical s) : Lands (execNop s) := .next h.retire

/-! ### The SPDM 1 -/

theorem Canonical.setSpdm {s : State} {box : Nat} {x : Spdm} (h : Canonical s) : Canonical (s.setSpdm box x) := h.same
theorem Canonical.spdmSend {s : State} {box : Nat} {k : SpdmKind} {req body : List Byte} (h : Canonical s) :
    Canonical (s.spdmSend box k req body) := h.same.setSpdm
theorem Canonical.spdmError {s : State} {box : Nat} (h : Canonical s) : Canonical (s.spdmError box) := h.same
theorem Canonical.spdmPlain {s : State} {box : Nat} {k : SpdmKind} {req data : List Byte} (h : Canonical s) :
    Canonical (s.spdmPlain box k req data) := h.spdmSend
theorem Canonical.spdmSigned {s : State} {box : Nat} {k : SpdmKind} {req data : List Byte} (h : Canonical s) :
    Canonical (s.spdmSigned box k req data) := h.spdmSend
theorem Lands.execGetVersion {box : Nat} {req : List Byte} {s : State} (h : Canonical s) : Lands (execGetVersion box req s) :=
  .next h.setSpdm.spdmPlain

theorem Lands.execGetCapabilities {box : Nat} {req : List Byte} {s : State} (h : Canonical s) :
    Lands (execGetCapabilities box req s) := by
  unfold Machine.execGetCapabilities
  dsimp only
  refine .next ?_
  split
  · exact h
  split
  · exact h.spdmError
  · exact h.setSpdm.spdmPlain

theorem Lands.execNegotiateAlgorithms {box : Nat} {req : List Byte} {s : State} (h : Canonical s) :
    Lands (execNegotiateAlgorithms box req s) := by
  unfold Machine.execNegotiateAlgorithms
  dsimp only
  refine .next ?_
  split
  · exact h
  split
  · exact h.spdmError
  · exact h.setSpdm.spdmPlain

theorem Lands.spdmAfter {s : State} {box : Nat} {k : State → State} (h : Canonical s) (hk : ∀ t, Canonical t → Canonical (k t)) :
    Lands (s.spdmAfter box k) := by
  unfold State.spdmAfter
  refine .next ?_
  split
  · exact h
  split
  · exact h.spdmError
  · exact hk _ h

theorem Lands.execGetMeasurements {box index enc req} {s : State} (h : Canonical s) : Lands
    (execGetMeasurements box index enc req s) := by
  refine .spdmAfter h (fun _ h => ?_)
  split
  · exact h.spdmSigned
  · exact h.spdmError

theorem Lands.execKeyExchange {box session req} {s : State} (h : Canonical s) : Lands (execKeyExchange box session req s) := by
  refine .spdmAfter h (fun _ h => ?_)
  dsimp only
  split
  · exact h.spdmError
  · exact h.setSpdm.spdmSigned

theorem Lands.execFinish {box session ok} {s : State} (h : Canonical s) : Lands (execFinish box session ok s) := by
  refine .spdmAfter h (fun _ h => ?_)
  dsimp only
  split
  · exact h.spdmError
  split
  · exact h.setSpdm.spdmPlain
  · exact h.setSpdm.spdmError

theorem Lands.execRecoveryMailboxRequest {_req : List Byte} {s : State} (h : Canonical s) :
    Lands (execRecoveryMailboxRequest _req s) := by
  unfold Machine.execRecoveryMailboxRequest
  refine .next ?_
  split
  · exact h
  · exact h.same

/-! ### System registers (01 Table 1.3) -/

theorem Lands.execSysRd {d : Reg} {r : BitVec 13} {s : State} (h : Canonical s) : Lands (execSysRd d r s) := by
  unfold Machine.execSysRd
  split
  · exact .next h.setS.retire
  · exact .next h.takeFault

theorem Lands.execSysWrWsb {a : Reg} {s : State} (h : Canonical s) : Lands (execSysWrWsb a s) := by
  unfold Machine.execSysWrWsb
  dsimp only
  split
  · exact .next h.modG.retire
  · exact .next h.takeFault

theorem Lands.execSysWrWsl {a : Reg} {s : State} (h : Canonical s) : Lands (execSysWrWsl a s) := by
  unfold Machine.execSysWrWsl
  dsimp only
  split
  · exact .next h.modG.retire
  · exact .next h.takeFault

theorem Lands.execSysWrTags {a : Reg} {s : State} (h : Canonical s) : Lands (execSysWrTags a s) := .next h.modCore.retire

theorem Lands.execTret {a : Reg} {s : State} (h : Canonical s) : Lands (execTret a s) := by
  unfold Machine.execTret
  split
  · exact .next h.faultHere
  · exact .next h.trapReturn

theorem Lands.execSysWr {a : Reg} {r : BitVec 13} {s : State} (h : Canonical s) : Lands (execSysWr a r s) := by
  unfold Machine.execSysWr
  dsimp only
  split
  · exact .execSysWrTags h
  · exact .next h.modG.retire
  · exact .next h.modG.retire
  · exact .execTret h
  · exact .next h.modG.retire
  · exact .execSysWrWsb h
  · exact .execSysWrWsl h
  split
  · exact .next h.takeFault
  · exact .next h.takeFault

/-! ### Traps and the cycle counter (17 R324; 21 R381) -/

theorem Lands.execTrap {c : BitVec 13} {s : State} (h : Canonical s) : Lands (execTrap c s) := .next h.spendWord.takeTrap
theorem Lands.execBrk {c : BitVec 13} {s : State} (h : Canonical s) : Lands (execBrk c s) := .next h.spendWord.breakpoint
theorem Lands.execRdcyc {d : Reg} {s : State} (h : Canonical s) : Lands (execRdcyc d s) := .next h.setS.retire

/-! ### Lamplight's words -/

theorem Lands.execTraceMark {a : Reg} {m : BitVec 13} {s : State} (h : Canonical s) : Lands (execTraceMark a m s) :=
  .next h.emit.retire
theorem Lands.execCtrRd {d a : Reg} {s : State} (h : Canonical s) : Lands (execCtrRd d a s) := .next h.setS.retire

theorem Lands.execRpMark {m : BitVec 13} {s : State} (h : Canonical s) : Lands (execRpMark m s) := by
  unfold Machine.execRpMark
  split
  · next heq =>
      exact .next (.retire (.ofFst heq h.checkpoint))
  next heq =>
    exact .next (.takeFault (.ofFst heq h.checkpoint))

/-! ### Accesses (27 R434) -/

theorem Canonical.writeMigr {s : State} {ctl k i n : Nat} (h : Canonical s) : Canonical (s.writeMigr ctl k i n) := by
  unfold State.writeMigr
  dsimp only
  split
  · split
    · exact h.beginMove
    split
    · exact h.retireMove
    · exact h.setMigr
  split
  · exact h
  · exact h.setMigr

theorem Canonical.acquireUnit {s : State} {core : Nat} {trace acquire : Bool} (h : Canonical s) :
    Canonical (s.acquireUnit core trace acquire) := by
  unfold State.acquireUnit
  split
  · exact h.modCore
  · exact h.modCore
  · exact h.bankReturned
  · exact h.traceReturned

theorem Canonical.mgmtStore {s : State} {off : Nat} {v : Word} (h : Canonical s) : Canonical (s.mgmtStore off v) := by
  unfold State.mgmtStore
  extract_lets n at_
  split
  · exact h
  split
  · exact h.writePkgid
  split
  · exact h.writeMmt
  split
  · exact h.writeRecord
  split
  · split
    · exact h.writeVi
    · exact h.writeVi
  split
  · split
    · exact h.writeAccount
    · exact h
  split
  · exact h.writeCoreTokens
  split
  · exact h.writeFabTokens
  split
  · exact h.writeMigr
  split
  · exact h.acquireUnit
  split
  · exact h.writePlimit
  · exact h

theorem Lands.execManagementWrite {src off v} {s : State} (h : Canonical s) : Lands (execManagementWrite src off v s) := by
  refine .whenRunning (fun _ h => ?_) h
  split
  · exact h
  split
  · exact h.mgmtStore
  · exact h.same

end Sys2Proof.Machine
end

section
/-! PROOFS. Each operation keeps the canonical form: one arm per instruction and event, and one step. -/

namespace Sys2Proof.Machine

/-! ### One arm per instruction and event -/

/-- 27 R433 step 6: what any instruction or event answers from a canonical state is canonical. -/
theorem Lands.exec {i : Instr} {s : State} (h : Canonical s) : Lands (exec i s) := by
  cases i
  case sAdd | sSub | sAnd | sOr | sXor | sAndn | sShl | sShr | sSra | sRot | sMin | sMax | sMinn | sMaxn | sMov | sMul
    | sMulh | sMulhn | sDiv | sDivn | sRem | sRemn | sClz | sCtz | sPop | sBext | sBins | sCmp | sSel | sLea | sAddi
    | sAndi | sOri | sXori | sShli | sShri | sSrai | sCmpi | sLi | sLim | sFclass => exact .scalarOut h
  case nop => exact .execNop h
  case sFadd | sFsub | sFmul | sFdiv | sFsqrt | sFmin | sFmax | sFcmp | sFcvt | sFma => exact .scalarFp h
  case branch => exact .execBranch h
  case bz | bnz | bcmp => exact .transferIf h
  case loop => exact .transferIf h.setS
  case jr => exact .execJr h
  case call => exact .callTo h
  case callr => exact .execCallr h
  case ret => exact .execRet h
  case vAdd | vSub | vMul | vMin | vMax => exact .vecInt h
  case vMulh => exact .execVMulh h
  case vAnd | vOr | vXor => exact .vecBits h
  case vAndn => exact .execVAndn h
  case vShl => exact .execVShl h
  case vShr => exact .execVShr h
  case vSra => exact .execVSra h
  case vAbs => exact .execVAbs h
  case vClz | vPop | vPack | vUnpack | vMad | vBcast => exact .vecWord h
  case vFadd | vFsub | vFmul => exact .vecFp h
  case vFmin => exact .execVFmin h
  case vFmax => exact .execVFmax h
  case vFdiv => exact .execVFdiv h
  case vFsqrt => exact .execVFsqrt h
  case vFrcp | vFrsq | vFexp2 | vFlog2 => exact .vecApprox h
  case vCvt => exact .execVCvt h
  case vCmp => exact .execVCmp h
  case vSel | vLi | vMov | vSet | vIota | vPerm | vShfl => exact .vecLanes h
  case vFmaF32 | vFmaF64 | vFmaF16x2 | vFmaBf16x2 => exact .vecFma h
  case vGet => exact .execVGet h
  case vRsum => exact .vecReduce h
  case vRmax => exact .execVRmax h
  case vRmin => exact .execVRmin h
  case vRsumi => exact .execVRsumi h
  case vScan => exact .execVScan h
  case vSplit => exact .execVSplit h
  case vJoin => exact .execVJoin h
  case vSweepAdd | vSweepMul | vSweepMax | vSweepMin | vSweepFma | vSweepCvt => exact .sweepWord h
  case lLds | lLdsN => exact .localLoad h
  case lLdv => exact .withRow (fun _ h => .localLoadV h) h
  case lLdvX => exact .localLoadV h
  case lSts => exact .localStore (fun _ h => h.retire) h
  case lStv => exact .withRow (fun _ h => .localStore (fun _ h => h.retireV) h) h
  case lStvX => exact .localStore (fun _ h => h.retireV) h
  case lLdfTake | lLdfPeek => exact .feLoad h
  case lStfFill | lStfForce => exact .feStore h
  case lFeFull => exact .execLFeFull h
  case lFeEmpty => exact .execLFeEmpty h
  case lFeTest => exact .execLFeTest h
  case lWopenRo _ _ b => exact .execLWopenRo (b := b) h
  case lWopenSw => exact .execLWopenSw h
  case lWclose => exact .execLWclose h
  case fLds | fLdsN | fLdb => exact .farLoadS h
  case fLdv => exact .withLanes (fun _ h => .withRow (fun _ h => .farLoad (fun _ h => h.retireV) h) h) h
  case fLdvX => exact .withLanes (fun _ h => .farLoad (fun _ h => h.retireV) h) h
  case fSts | fStb => exact .farStoreS h
  case fStv => exact .withLanes (fun _ h => .withRow (fun _ h => .farStore (fun _ h => h.retireV) h) h) h
  case fStvX => exact .withLanes (fun _ h => .farStore (fun _ h => h.retireV) h) h
  case pf | pfW => exact .prefetch h
  case aAdd | aMin | aMax | aAnd | aOr | aXor | aXchg | aFadd | aCas | aCasD => exact .atomicWord h
  case aRlock | aWlock => exact .lockAcquire h
  case aRunlock | aWunlock => exact .lockRelease h
  case fenceScope => exact .execFenceScope h
  case fenceRel => exact .execFenceRel h
  case fenceAcq => exact .execFenceAcq h
  case fenceW => exact .execFenceW h
  case lnDef | lnResize => exact .lanternRecord h
  case lnFlush | lnInv => exact .lanternSweep h
  case lnStat => exact .execLnStat h
  case launch => exact .execLaunch h
  case join => exact .execJoin h
  case evtPub => exact .withAtomic (fun _ _ _ h => .packageRelease (fun _ h => .sendAtomic (fun _ h => h.retire) h) h) h
  case evtWait => exact .execEvtWait h
  case barArrive => exact .arrive (fun _ h => .next h.retire) h
  case barWait => exact .barrierWait h
  case barSync => exact .execBarSync h
  case elect => exact .execElect h
  case gRegroup => exact .execGRegroup h
  case yield => exact .execYield h
  case monArm => exact .execMonArm h
  case monWait => exact .execMonWait h
  case wait => exact .execWait h
  case tagWaitAny | tagWaitAll => exact .tagWait h
  case tagFfs => exact .execTagFfs h
  case tagClr => exact .execTagClr h
  case cpIter => exact .execCpIter h
  case cpIn | cpOut | cpCopy => exact .copyPair h
  case cpGather => exact .execCpGather h
  case cpFill => exact .execCpFill h
  case mmBind => exact .execMmBind h
  case mmZero => exact .execMmZero h
  case mmPair => exact .execMmPair h
  case mmOne => exact .productWord h
  case mmRd => exact .execMmRd h
  case mmRdScale => exact .execMmRdScale h
  case mmWr => exact .execMmWr h
  case mmChk => exact .execMmChk h
  case wOpen => exact .execWOpen h
  case wClose => exact .withHandle (fun _ _ h => .next h.modFwin.retire) h
  case wPut | wGet => exact .transfer h
  case wWait => exact .execWWait h
  case wCntT => exact .withHandle (fun _ _ h => .next h.sawCounter.setS.retire) h
  case wCntO => exact .withHandle (fun _ _ h => .next h.setS.retire) h
  case collAr | collBc => exact .collective h
  case collWait => exact .execCollWait h
  case collCancel => exact .execCollCancel h
  case uePost => exact .execUePost h
  case uePoll => exact .execUePoll h
  case sysRd => exact .execSysRd h
  case sysWr => exact .execSysWr h
  case sysWrWsb => exact .execSysWrWsb h
  case sysWrWsl => exact .execSysWrWsl h
  case sysWrTags => exact .execSysWrTags h
  case tret => exact .execTret h
  case rdcyc => exact .execRdcyc h
  case trap => exact .execTrap h
  case brk => exact .execBrk h
  case halt => exact .execHalt h
  case traceMark => exact .execTraceMark h
  case ctrCfg | debugResume | release | replayArm => exact .ctrWord h
  case ctrRd => exact .execCtrRd h
  case rpMark => exact .execRpMark h
  case encMake => exact .execEncMake h
  case encEnter => exact .execEncEnter h
  case encKill => exact .execEncKill h
  case pgOut => exact .execPgOut h
  case pgIn => exact .execPgIn h
  case potXfer => exact .execPotXfer h
  case encExit => exact .custom1 h (fun _ _ h => .next h.modHart)
  case encOut => exact .execEncOut h
  case encIn => exact .execEncIn h
  case encRep => exact .execEncRep h
  case enclaveThreadInterrupt => exact .execEnclaveThreadInterrupt h
  case kickStore => exact .execKickStore h
  case kickStoreAccept => exact .execKickStoreAccept h
  case admissionOpportunity => exact .execAdmissionOpportunity h
  case dependRelease => exact .execDependRelease h
  case arbitrateRelease => exact .execArbitrateRelease h
  case leaseWalk => exact .execLeaseWalk h
  case leasePendingTimeout => exact .execLeasePendingTimeout h
  case edgeLineAction => exact .execEdgeLineAction h
  case placementAttempt => exact .execPlacementAttempt h
  case runArbitration => exact .execRunArbitration h
  case parkWake => exact .execParkWake h
  case monitorSpurious => exact .execMonitorSpurious h
  case groupEnded => exact .execGroupEnded h
  case teamPublish => exact .execTeamPublish h
  case enclaveHalt => exact .execEnclaveHalt h
  case enclaveResume => exact .execEnclaveResume h
  case farLoadReturn => exact .execFarLoadReturn h
  case coreStorePointPass => exact .execCoreStorePointPass h
  case orderingPointArrival => exact .execOrderingPointArrival h
  case atomicExecute => exact .execAtomicExecute h
  case atomicReturn => exact .execAtomicReturn h
  case orderGateRelease => exact .execOrderGateRelease h
  case orderGateTimeout => exact .execOrderGateTimeout h
  case windowStorePerformed => exact .execWindowStorePerformed h
  case windowLoadReturn => exact .execWindowLoadReturn h
  case svtWidening => exact .execSvtWidening h
  case copyComplete => exact .execCopyComplete h
  case copyElementFault => exact .execCopyElementFault h
  case tileOpStart => exact .execTileOpStart h
  case tileOpRetire => exact .execTileOpRetire h
  case resizeCursorStep => exact .execResizeCursorStep h
  case flushCursorStep => exact .execFlushCursorStep h
  case invalidation => exact .execInvalidation h
  case dtuAcknowledge => exact .execDtuAcknowledge h
  case walkComplete => exact .execWalkComplete h
  case migrationEntryWrite => exact .whenRunning (fun _ h => h.beginMove) h
  case migrationStep => exact .execMigrationStep h
  case migrationRetire => exact .whenRunning (fun _ h => h.retireMove) h
  case mmtWrite => exact .whenRunning (fun _ h => h.writeMmt) h
  case partitionRecordWrite => exact .whenRunning (fun _ h => h.writeRecord) h
  case virtualInterfaceWrite => exact .execVirtualInterfaceWrite h
  case frameAccountWrite => exact .whenRunning (fun _ h => h.writeAccount) h
  case coreTokensWrite => exact .whenRunning (fun _ h => h.writeCoreTokens) h
  case fabTokensWrite => exact .whenRunning (fun _ h => h.writeFabTokens) h
  case pkgidWrite => exact .whenRunning (fun _ h => h.writePkgid) h
  case plimitWrite => exact .whenRunning (fun _ h => h.writePlimit) h
  case lamplightAcquisition => exact .whenRunning (fun _ h => h.acquireUnit) h
  case managementWrite => exact .execManagementWrite h
  case tokenRefill => exact .execTokenRefill h
  case portRequestDepart => exact .execPortRequestDepart h
  case fabricTokenRefill => exact .execFabricTokenRefill h
  case traceLost => exact .execTraceLost h
  case correctableError => exact .execCorrectableError h
  case errorWindowBoundary => exact .execErrorWindowBoundary h
  case uncorrectableError => exact .execUncorrectableError h
  case taskEnd => exact .execTaskEnd h
  case faultRecord => exact .execFaultRecord h
  case throttling => exact .execThrottling h
  case thermalTrip die _ => exact .execThermalTrip (_die := die) h
  case powerOn => exact .execPowerOn h
  case dieToDieFlit => exact .execDieToDieFlit h
  case tuilosFlit => exact .execTuilosFlit h
  case streamBinding => exact .execStreamBinding h
  case streamBindingTimeout => exact .execStreamBindingTimeout h
  case streamFlitReceive => exact .execStreamFlitReceive h
  case putArrival => exact .execPutArrival h
  case getArrival => exact .execGetArrival h
  case tcntIncrement => exact .execTcntIncrement h
  case transferAcknowledgement => exact .execTransferAcknowledgement h
  case closeNotice => exact .execCloseNotice h
  case closeAcknowledgement => exact .execCloseAcknowledgement h
  case collectiveResult => exact .execCollectiveResult h
  case collectiveMemberGone => exact .execCollectiveMemberGone h
  case uePacket => exact .whenRunning (fun _ h => h.takePacket) h
  case ueCompletion => exact .execUeCompletion h
  case hostDma => exact .whenRunning (fun _ h => h.takeDma) h
  case cxlMemAccess => exact .whenRunning (fun _ h => h.cxlAccess) h
  case getVersion => exact .execGetVersion h
  case getCapabilities => exact .execGetCapabilities h
  case negotiateAlgorithms => exact .execNegotiateAlgorithms h
  case getDigests | getCertificate => exact .spdmAfter h (fun _ h => h.spdmPlain)
  case challenge => exact .spdmAfter h (fun _ h => h.spdmSigned)
  case getMeasurements => exact .execGetMeasurements h
  case keyExchange => exact .execKeyExchange h
  case finish => exact .execFinish h
  case pagerGetAdvance => exact .execPagerGetAdvance h
  case writeBackArrival => exact .execWriteBackArrival h
  case pendingInterrupt => exact .execPendingInterrupt h
  case recoveryMailboxRequest req => exact .execRecoveryMailboxRequest (_req := req) h
  case tdispRequest => exact .whenRunning (fun _ h => h.askTdi) h
  case switchEngineAttestation => exact .execSwitchEngineAttestation h

/-! ### One step of the machine -/

theorem Lands.stepGroup {s : State} (h : Canonical s) : Lands (stepGroup s) := by
  have ready := h.readyHeader
  unfold Machine.stepGroup
  split
  · exact .next h.runEnd
  split
  · next heq => rw [heq] at ready; exact .next ready
  · next heq => rw [heq] at ready; exact .exec ready

theorem Lands.stepHart {s : State} (h : Canonical s) : Lands (stepHart s) := by
  unfold Machine.stepHart
  dsimp only
  split
  · exact .next h.same.hartFetched.partitionReset
  split
  · exact .next h.same.hartFetched.hartTrap
  split
  · exact .exec h.same.hartFetched
  split
  · exact .next h.same.hartFetched.hartTrap
  split
  · exact .next h.same.hartFetched.hartTrap
  · exact .refused _

theorem Lands.stepFree {s : State} (h : Canonical s) : Lands (stepFree s) := by
  unfold Machine.stepFree
  dsimp only
  split
  · next heq =>
      exact .ofSome heq (.autoStep h)
  split
  · exact .next h.same
  split
  · exact .execRunArbitration h
  · exact .next h.tick.same

theorem Lands.stepHeld {s : State} (h : Canonical s) : Lands (stepHeld s) := by
  unfold Machine.stepHeld
  split
  · next heq =>
      exact .ofSome heq (.autoStep h)
  split
  · exact .next h.runEnd
  split
  · exact .execRunArbitration h
  · exact .stepGroup h

theorem Lands.step {s : State} (h : Canonical s) : Lands (step s) := by
  unfold Machine.step
  split
  · exact .exec h.same
  split
  · exact .fault _
  split
  · exact .stepHeld h.same
  split
  · split
    · exact .execRunArbitration h
    · exact .stepGroup h
  · exact .stepHart h
  · exact .stepFree h

end Sys2Proof.Machine

namespace Sys2Proof.Proofs

open Sys2Proof Sys2Proof.Machine

/-- Settles O59: of the canonical form's parts, each operation of the model writes only what keeps them. -/
theorem stepKeepsCanonical : Obligations.StepKeepsCanonical := by
  intro s t h e
  exact Lands.step h t e

end Sys2Proof.Proofs
end

section
/-! PROOFS. Where the control transfers lead, O8. -/

namespace Sys2Proof.Machine

/-- An ADDR packet is quiet. -/
theorem quiet_emitAddr (s : State) (cwi : Nat) (target : VAddr) (kind : Nat) : Quiet s (s.emitAddr cwi target kind) := by
  unfold State.emitAddr
  split
  · exact Quiet.refl s
  · exact quiet_emitPacket _ _ _

/-- What goes to a header from the same path slot goes there. -/
theorem WentTo.congr {a : VAddr} {s u t : State} (hc : u.g.curF = s.g.curF) (h : WentTo a u t) : WentTo a s t :=
  ⟨h.1.trans hc, h.2⟩

/-- A conditional transfer changes no register; it stands at its target where its test holds and goes on in sequence where not. -/
theorem transferIf_either {i : Instr} {s : State} {n : Nat} {b : Bool} {off : BitVec n} {taken : Prop}
    (hi : exec i s = transferIf b off s) (hb : b = true ↔ taken) :
    Completes i s fun t => NoEffect s t ∧ (taken → WentTo (s.g.p.pc + 4 * off.signExtend 57) s t) ∧ (¬taken → GoesOn s t) := by
  obtain ⟨t, ht, same, jumps, falls⟩ := transferIf_completes b off s
  exact ⟨t, hi.trans ht, same, fun h => jumps (hb.2 h), fun h => falls (Bool.eq_false_iff.2 fun e => h (hb.1 e))⟩

/-! ### The run's word count (01 R22) -/

theorem Group.boundary_rc (g : Group) : g.boundary.rc = 0 := rfl
theorem Group.noteHints_rc (g : Group) : g.noteHints.rc = g.rc := by unfold Group.noteHints; split <;> rfl

theorem Group.clauseEnd_rc (g : Group) : g.clauseEnd.rc = if g.header.map Header.endRun = some true then 0 else g.rc := by
  unfold Group.clauseEnd
  cases g.header.map Header.endRun with
  | none => exact g.noteHints_rc
  | some b => cases b <;> simp [Group.boundary_rc, Group.noteHints_rc]

theorem Group.advance_rc (g : Group) :
    g.advance.rc = if g.lastWord ∧ g.header.map Header.endRun = some true then 0 else g.rc + 1 := by
  have place : SamePlace g { g with rc := g.rc + 1 } :=
    ⟨rfl, by cases h : g.curF <;> simp [Group.p, Group.path, h], by cases h : g.curF <;> simp [Group.p, Group.path, h],
      by cases h : g.curF <;> simp [Group.p, Group.path, h]⟩
  have hh : ({ g with rc := g.rc + 1 } : Group).header = g.header := by unfold Group.header; rw [place.hdr]
  have hl : ({ g with rc := g.rc + 1 } : Group).lastWord = g.lastWord := by
    unfold Group.lastWord Group.clauseLen; rw [hh, place.cwi]
  unfold Group.advance
  simp only [hl]
  cases g.lastWord
  · simp
  · simp [Group.clauseEnd_rc, hh]

end Sys2Proof.Machine

namespace Sys2Proof.Proofs

open Sys2Proof Sys2Proof.Machine

theorem nop_completes (s : State) : Completes .nop s fun t => NoEffect s t ∧ GoesOn s t ∧
    t.g.rc = if s.g.lastWord ∧ s.g.header.map Header.endRun = some true then 0 else s.g.rc + 1 := by
  refine ⟨s.retire 1, rfl, retire_noEffect _ _, retire_goesOn _ _, ?_⟩
  rw [State.retire, State.modG_g, State.spendWord_g, Group.advance_rc]

/-- loop counts down, then tests what it counted down to. -/
theorem loop_completes (s : State) (d : Reg) (i : BitVec 19) : Completes (.loop d i) s fun t =>
    SetsScalar s d (s.g.sr d - 1) 0 t ∧ (s.g.sr d ≠ 1 → WentTo (s.g.p.pc + 4 * i.signExtend 57) s t) ∧ (s.g.sr d = 1 → GoesOn s t) := by
  obtain ⟨t, ht, same, jumps, falls⟩ := transferIf_completes (s.g.sr d - 1 ≠ 0) i (s.setS d (s.g.sr d - 1))
  have place := samePlace_setS s d (s.g.sr d - 1)
  have counted : s.g.sr d - 1 = 0 ↔ s.g.sr d = 1 := sub_eq_zero
  refine ⟨t, ht, (setS_sets _ _ _).then same, fun h => ?_, fun h => ?_⟩
  · rw [← place.pc]
    exact (jumps (decide_eq_true (mt counted.1 h))).congr place.curF
  · exact place.goesOn (falls (decide_eq_false (not_not.2 (counted.2 h))))

theorem jr_completes (s : State) (a : Reg) (h : (s.g.sr a).toNat % 4 = 0) :
    Completes (.jr a) s fun t => NoEffect s t ∧ WentTo ((s.g.sr a).setWidth 57) s t := by
  have q := quiet_emitAddr s (s.g.p.cwi + 1) ((s.g.sr a).setWidth 57) 0
  refine ⟨_, if_neg (not_not.2 h), (quiet_noEffect q).trans (retireJump_noEffect _ _), ?_⟩
  exact (retireJump_wentTo _ _).congr (congrArg Group.curF q.g)

theorem jr_misaligned (s : State) (a : Reg) (h : (s.g.sr a).toNat % 4 ≠ 0) :
    Completes (.jr a) s (Faults s .misaligned (s.g.sr a)) :=
  ⟨_, if_pos h, takeFault_faults _ _ _⟩

/-- Settles O8: every transfer but loop and jr is a conditional transfer that its own test decides. -/
theorem controlTransfers : Obligations.ControlTransfers := by
  unfold Obligations.ControlTransfers
  refine ⟨nop_completes, fun s d a i c k => ?_, fun s a => ⟨jr_completes s a, jr_misaligned s a⟩⟩
  refine ⟨?branch, ?bz, ?bnz, loop_completes s d i, ?eq, ?ne, ?lt, ?ge, ?ltn, ?gen⟩
  case branch => exact ⟨_, rfl, retireJump_noEffect _ _, fun _ => retireJump_wentTo _ _, fun h => absurd trivial h⟩
  case bz => exact transferIf_either rfl decide_eq_true_iff
  case bnz => exact transferIf_either rfl decide_eq_true_iff
  case eq => rintro rfl; exact transferIf_either rfl decide_eq_true_iff
  case ne => rintro rfl; exact transferIf_either rfl decide_eq_true_iff
  case lt => rintro rfl; exact transferIf_either rfl decide_eq_true_iff
  case ge => rintro rfl; exact transferIf_either rfl decide_eq_true_iff
  case ltn => rintro rfl; exact transferIf_either rfl decide_eq_true_iff
  case gen => rintro rfl; exact transferIf_either rfl decide_eq_true_iff

end Sys2Proof.Proofs
end

section
/-! PROOFS. The register windows (01 R30, R31, R34): a spill, a fill and slides over several of them, O10. -/

namespace Sys2Proof.Machine

/-! ### One block -/

/-- A block that is no SELF access, or a WSL that is no SELF address, has no place in the spill area. -/
theorem blockAcc_error {s : State} {a : Nat} (h : isSelf s.g.wsl.toNat = false ∨ ∃ c, s.selfAcc s.g a 3136 = .error c) :
    ∃ c, s.blockAcc a = .error c := by
  unfold State.blockAcc
  split
  · next hs => exact h.resolve_left (by simp [hs])
  · exact ⟨_, rfl⟩

theorem blockAcc_ok {s : State} {a : Nat} {x : LocalAcc} (hs : isSelf s.g.wsl.toNat = true) (hx : s.selfAcc s.g a 3136 = .ok x) :
    s.blockAcc a = .ok x := by rw [State.blockAcc, if_pos hs, hx]

theorem spillBlock_ok {s : State} {x : LocalAcc} (h : s.blockAcc s.g.wsp.toNat = .ok x) :
    s.spillBlock = .ok (((s.poolWrite x (s.g.spillBytes s.g.wlow)).modG fun g =>
      { g with wsp := g.wsp + 3136, wlow := g.wlow + 8 }).spend leafSpill 13) := by rw [State.spillBlock, h]

theorem spillBlock_error {s : State} {c : Code} (h : s.blockAcc s.g.wsp.toNat = .error c) : s.spillBlock = .error .windowBounds := by
  rw [State.spillBlock, h]

theorem fillBlock_ok {s : State} {x : LocalAcc} (h : s.blockAcc (s.g.wsp - 3136).toNat = .ok x) :
    s.fillBlock = .ok ((s.modG fun g =>
      { g.fillBytes (g.wlow - 8) (s.poolRead x) with wsp := g.wsp - 3136, wlow := g.wlow - 8 }).spend leafSpill 13) := by
  rw [State.fillBlock, h]

theorem fillBlock_error {s : State} {c : Code} (h : s.blockAcc (s.g.wsp - 3136).toNat = .error c) :
    s.fillBlock = .error .windowBounds := by rw [State.fillBlock, h]

/-- A spill reads its block from the rings and moves only WSP and WLOW of the group. -/
theorem spillBlock_group {s t : State} (h : s.spillBlock = .ok t) :
    t.g = { s.g with wsp := s.g.wsp + 3136, wlow := s.g.wlow + 8 } ∧ t.mem = s.mem := by
  cases hx : s.blockAcc s.g.wsp.toNat with
  | error c => rw [spillBlock_error hx] at h; cases h
  | ok x =>
    rw [spillBlock_ok hx] at h
    cases h
    exact ⟨State.spend_g _ _ _, (quiet_spend _ _ _).mem⟩

theorem Quiet.pool {s t : State} (q : Quiet s t) (c : Nat) : (t.core c).pool = (s.core c).pool := Core.pool_of_arch (q.cores c)

/-! ### Several blocks: each begins where those before it end -/

theorem spills_succ (n : Nat) (s : State) : State.spills (n + 1) s =
    match s.spillBlock with
    | .ok s' => State.spills n s'
    | .error c => (s, some (c, s.g.wsp)) := rfl

theorem fills_succ (n : Nat) (s : State) : State.fills (n + 1) s =
    match s.fillBlock with
    | .ok s' => State.fills n s'
    | .error c => (s, some (c, s.g.wsp - 3136)) := rfl

/-- Once `j` blocks are spilled, the others follow from there. -/
theorem spills_add {j m : Nat} {s t : State} (h : s.spills j = (t, none)) : s.spills (j + m) = t.spills m := by
  induction j generalizing s with
  | zero => cases h; rw [Nat.zero_add]
  | succ j ih =>
    rw [Nat.succ_add, spills_succ]
    rw [spills_succ] at h
    cases hb : s.spillBlock with
    | error c => rw [hb] at h; cases h
    | ok u => rw [hb] at h; exact ih h

theorem fills_add {j m : Nat} {s t : State} (h : s.fills j = (t, none)) : s.fills (j + m) = t.fills m := by
  induction j generalizing s with
  | zero => cases h; rw [Nat.zero_add]
  | succ j ih =>
    rw [Nat.succ_add, fills_succ]
    rw [fills_succ] at h
    cases hb : s.fillBlock with
    | error c => rw [hb] at h; cases h
    | ok u => rw [hb] at h; exact ih h

/-! ### What they leave alone -/

/-- Spills move only WSP and WLOW of the group, and no byte of memory. -/
theorem spills_group {n : Nat} {s t : State} {f : Option (Code × Word)} (h : s.spills n = (t, f)) :
    t.g = { s.g with wsp := t.g.wsp, wlow := t.g.wlow } ∧ t.mem = s.mem := by
  induction n generalizing s with
  | zero => cases h; exact ⟨rfl, rfl⟩
  | succ n ih =>
    rw [spills_succ] at h
    cases hb : s.spillBlock with
    | error c => rw [hb] at h; cases h; exact ⟨rfl, rfl⟩
    | ok u =>
      rw [hb] at h
      obtain ⟨hg, hm⟩ := ih h
      obtain ⟨hgu, hmu⟩ := spillBlock_group hb
      exact ⟨by rw [hg, hgu], hm.trans hmu⟩

/-- A filled group differs in its rings. -/
theorem Group.fillBytes_eq (g : Group) (p : Nat) (bs : List Byte) :
    g.fillBytes p bs = { g with sring := (g.fillBytes p bs).sring, vring := (g.fillBytes p bs).vring } := by
  unfold Group.fillBytes
  refine List.foldlRecOn (motive := fun h : Group => h = { g with sring := h.sring, vring := h.vring }) _ _ rfl ?_
  intro h hh _ _
  rw [hh]

/-- A fill moves WSP and WLOW and changes the rings of the group; no pool byte and no byte of memory changes. -/
theorem fillBlock_group {s t : State} (h : s.fillBlock = .ok t) :
    t.g = { s.g with wsp := t.g.wsp, wlow := t.g.wlow, sring := t.g.sring, vring := t.g.vring } ∧ t.mem = s.mem ∧
      ∀ c, (t.core c).pool = (s.core c).pool := by
  cases hx : s.blockAcc (s.g.wsp - 3136).toNat with
  | error c => rw [fillBlock_error hx] at h; cases h
  | ok x =>
    rw [fillBlock_ok hx] at h
    cases h
    have q := quiet_spend (s.modG fun g => { g.fillBytes (g.wlow - 8) (s.poolRead x) with wsp := g.wsp - 3136, wlow := g.wlow - 8 })
      leafSpill 13
    refine ⟨?_, q.mem, q.pool⟩
    rw [q.g, State.modG_g, Group.fillBytes_eq]

theorem fills_group {n : Nat} {s t : State} {f : Option (Code × Word)} (h : s.fills n = (t, f)) :
    t.g = { s.g with wsp := t.g.wsp, wlow := t.g.wlow, sring := t.g.sring, vring := t.g.vring } ∧ t.mem = s.mem ∧
      ∀ c, (t.core c).pool = (s.core c).pool := by
  induction n generalizing s with
  | zero => cases h; exact ⟨rfl, rfl, fun _ => rfl⟩
  | succ n ih =>
    rw [fills_succ] at h
    cases hb : s.fillBlock with
    | error c => rw [hb] at h; cases h; exact ⟨rfl, rfl, fun _ => rfl⟩
    | ok u =>
      rw [hb] at h
      obtain ⟨hg, hm, hp⟩ := ih h
      obtain ⟨hgu, hmu, hpu⟩ := fillBlock_group hb
      exact ⟨by rw [hg, hgu], hm.trans hmu, fun c => (hp c).trans (hpu c)⟩

/-- Each spill raises WSP by its block. -/
theorem spills_wsp {j : Nat} {s t : State} (h : s.spills j = (t, none)) : t.g.wsp = s.g.wsp + BitVec.ofNat 64 (3136 * j) := by
  induction j generalizing s with
  | zero => cases h; exact (BitVec.add_zero _).symm
  | succ j ih =>
    rw [spills_succ] at h
    cases hb : s.spillBlock with
    | error c => rw [hb] at h; cases h
    | ok u =>
      rw [hb] at h
      rw [ih h, (spillBlock_group hb).1, BitVec.add_assoc]
      exact congrArg (s.g.wsp + ·) (by rw [Nat.mul_succ, Nat.add_comm, BitVec.ofNat_add]; rfl)

/-! ### Slides -/

theorem slideUp_small {s : State} {k : Nat} (h : s.g.wsl.toNat < s.g.wsp.toNat + s.g.spillCount k * 3136) :
    s.slideUp k = (s, some (.stackOverflow, s.g.wsp)) := by rw [State.slideUp]; exact if_pos h

theorem slideUp_ok {s t : State} {k : Nat} (h : s.g.wsp.toNat + s.g.spillCount k * 3136 ≤ s.g.wsl.toNat)
    (hs : s.spills (s.g.spillCount k) = (t, none)) : s.slideUp k = (t.modG fun g => { g with wpos := g.wpos + k }, none) := by
  rw [State.slideUp]
  rw [if_neg (by omega), hs]

theorem slideUp_error {s t : State} {k : Nat} {f : Code × Word} (h : s.g.wsp.toNat + s.g.spillCount k * 3136 ≤ s.g.wsl.toNat)
    (hs : s.spills (s.g.spillCount k) = (t, some f)) : s.slideUp k = (s, some f) := by
  rw [State.slideUp]
  rw [if_neg (by omega), hs]

/-- A spill that fails ends the spills with the block's address. -/
theorem spills_fail {j n : Nat} {s t : State} (h : s.spills j = (t, none)) (hj : j < n)
    (hb : isSelf t.g.wsl.toNat = false ∨ ∃ c, t.selfAcc t.g t.g.wsp.toNat 3136 = .error c) :
    s.spills n = (t, some (.windowBounds, t.g.wsp)) := by
  obtain ⟨m, rfl⟩ : ∃ m, n = j + (m + 1) := ⟨n - j - 1, by omega⟩
  obtain ⟨c, hc⟩ := blockAcc_error hb
  rw [spills_add h, spills_succ, spillBlock_error hc]

theorem fills_fail {j n : Nat} {s t : State} (h : s.fills j = (t, none)) (hj : j < n)
    (hb : isSelf t.g.wsl.toNat = false ∨ ∃ c, t.selfAcc t.g (t.g.wsp - 3136).toNat 3136 = .error c) :
    s.fills n = (t, some (.windowBounds, t.g.wsp - 3136)) := by
  obtain ⟨m, rfl⟩ : ∃ m, n = j + (m + 1) := ⟨n - j - 1, by omega⟩
  obtain ⟨c, hc⟩ := blockAcc_error hb
  rw [fills_add h, fills_succ, fillBlock_error hc]

end Sys2Proof.Machine

namespace Sys2Proof.Proofs

open Sys2Proof Sys2Proof.Machine

/-- Settles O10: both slides are runs of blocks, and a run goes as its blocks before the first that fails. -/
theorem windowSlides : Obligations.WindowSlides := by
  unfold Obligations.WindowSlides
  intro s k x
  refine ⟨?room, slideUp_small, ?down, ?spill, ?fill, ?first, ?firstFill, ?later, ?laterFill⟩
  case room =>
    intro hroom hwsp
    have none : s.g.spillCount k = 0 := by unfold Group.spillCount; omega
    exact slideUp_ok (by omega) (by rw [none]; rfl)
  case down =>
    intro p hp
    have none : (s.g.wlow - p + 7) / 8 = 0 := by omega
    show (s.modG fun g => { g with wpos := p }).fills ((s.g.wlow - p + 7) / 8) = _
    rw [none]
    rfl
  case spill =>
    intro hs hx
    have q := quiet_spend ((s.poolWrite x (s.g.spillBytes s.g.wlow)).modG fun g =>
      { g with wsp := g.wsp + 3136, wlow := g.wlow + 8 }) leafSpill 13
    exact ⟨_, spillBlock_ok (blockAcc_ok hs hx), q.g, q.mem, fun c b => by rw [q.pool]; rfl⟩
  case fill =>
    intro hs hx
    have q := quiet_spend (s.modG fun g => { g.fillBytes (g.wlow - 8) (s.poolRead x) with wsp := g.wsp - 3136, wlow := g.wlow - 8 })
      leafSpill 13
    exact ⟨_, fillBlock_ok (blockAcc_ok hs hx), q.g, q.mem, fun c b => by rw [q.pool]; rfl⟩
  case first =>
    intro hb hn hroom
    exact slideUp_error hroom (spills_fail (j := 0) rfl hn hb)
  case firstFill =>
    intro p hb hp
    refine fills_fail (j := 0) (s := s.modG fun g => { g with wpos := p }) rfl ?_ hb
    show 0 < (s.g.wlow - p + 7) / 8
    omega
  case later =>
    intro j t hj hn hroom hb
    have wsl : t.g.wsl = s.g.wsl := by rw [(spills_group hj).1]
    refine ⟨slideUp_error hroom (spills_fail hj hn (wsl ▸ hb)), ?_⟩
    rw [spills_wsp hj, BitVec.toNat_add, BitVec.toNat_ofNat]
    have := s.g.wsl.isLt
    omega
  case laterFill =>
    intro j t p hj hn hb
    have wsl : t.g.wsl = s.g.wsl := by rw [(fills_group hj).1]; rfl
    exact fills_fail hj hn (wsl ▸ hb)

end Sys2Proof.Proofs
end

section
/-! PROOFS. Calls and returns, O9. -/

namespace Sys2Proof.Machine

/-! ### What a slide changes -/

/-- A slide up that succeeds moves WPOS up, WSP and WLOW where it spills, and nothing else of the group. -/
theorem slideUp_group {k : Nat} {s u : State} (h : s.slideUp k = (u, none)) :
    u.g = { s.g with wpos := s.g.wpos + k, wsp := u.g.wsp, wlow := u.g.wlow } ∧ u.mem = s.mem := by
  by_cases hw : s.g.wsl.toNat < s.g.wsp.toNat + s.g.spillCount k * 3136
  · rw [slideUp_small hw] at h
    cases h
  · cases hs : s.spills (s.g.spillCount k) with
    | mk t f =>
      cases f with
      | some f => rw [slideUp_error (by omega) hs] at h; cases h
      | none =>
        rw [slideUp_ok (by omega) hs] at h
        cases h
        obtain ⟨hg, hm⟩ := spills_group hs
        exact ⟨by rw [State.modG_g, hg], hm⟩

/-- A slide down sets WPOS; where it fills it moves WSP and WLOW and changes the rings. No pool byte and no byte of memory changes. -/
theorem slideTo_group {p : Nat} {s u : State} {f : Option (Code × Word)} (h : s.slideTo p = (u, f)) :
    u.g = { s.g with wpos := p, wsp := u.g.wsp, wlow := u.g.wlow, sring := u.g.sring, vring := u.g.vring } ∧ u.mem = s.mem ∧
      ∀ c, (u.core c).pool = (s.core c).pool := by
  obtain ⟨hg, hm, hp⟩ := fills_group (s := s.modG fun g => { g with wpos := p }) h
  exact ⟨hg, hm, hp⟩

/-! ### What a jump leaves of the group -/

@[simp] theorem State.retireJump_g (s : State) (a : VAddr) : (s.retireJump a).g = s.g.jump a := by
  rw [State.retireJump, State.modG_g, State.spend_g, State.spendWord_g]

@[simp] theorem State.emitAddr_g (s : State) (cwi : Nat) (t : VAddr) (kind : Nat) : (s.emitAddr cwi t kind).g = s.g :=
  (quiet_emitAddr s cwi t kind).g

@[simp] theorem Group.arch_wlow (g : Group) : g.arch.wlow = g.wlow := by simp [Group.arch]
@[simp] theorem Group.arch_wsp (g : Group) : g.arch.wsp = g.wsp := by simp [Group.arch]

theorem Group.jump_wlow (g : Group) (a : VAddr) : (g.jump a).wlow = g.wlow := by
  rw [← Group.arch_wlow, arch_jump, Group.arch_wlow]
theorem Group.jump_wsp (g : Group) (a : VAddr) : (g.jump a).wsp = g.wsp := by
  rw [← Group.arch_wsp, arch_jump, Group.arch_wsp]

/-! ### The link and the registers of the window -/

/-- s59 takes the link. -/
theorem Group.setS_link (g : Group) (v : Word) : g.setS 59 v = { g with sfix := smSet 0 g.sfix 59 v } := by
  unfold Group.setS
  rw [g.loc_fix 59 (by decide) (by decide)]
  rfl

/-- The group that a call leaves: the window stands `n` higher and s59 holds the link. -/
def Group.called (g : Group) (n wlow : Nat) (wsp link : Word) : Group :=
  { g with wpos := g.wpos + n, wlow := wlow, wsp := wsp, sfix := smSet 0 g.sfix 59 link }

theorem Group.called_link (g : Group) (n wlow : Nat) (wsp link : Word) : (g.called n wlow wsp link).sr 59 = link := by
  rw [Group.sr_fix _ 59 (by decide) (by decide)]
  exact smGet_smSet_self _ _ _ _

/-- The registers above the window but s59 stand. -/
theorem Group.called_fixed (g : Group) (n wlow : Nat) (wsp link : Word) (r : Reg) (h : 48 ≤ r.toNat) (h59 : r.toNat ≠ 59) :
    (g.called n wlow wsp link).sr r = g.sr r := by
  rcases Reg.kinds r with r1 | ⟨r1, r2⟩ | ⟨r1, r2⟩ | r1
  · omega
  · rw [Group.sr_fix _ r r1 r2, Group.sr_fix _ r r1 r2]
    exact smGet_smSet_ne _ _ _ _ h59
  · rw [Group.sr_mask _ r r1 r2, Group.sr_mask _ r r1 r2]
    rfl
  · rw [Group.sr_zero _ r r1, Group.sr_zero _ r r1]

/-- A register of the moved window is the one `n` higher of the window before. -/
theorem Group.called_window (g : Group) (n wlow : Nat) (wsp link : Word) (r : Reg) (h : r.toNat + n < 48) :
    (g.called n wlow wsp link).sr r = g.sr (r + BitVec.ofNat 6 n) := by
  have up : (r + BitVec.ofNat 6 n).toNat = r.toNat + n := by
    rw [BitVec.toNat_add, BitVec.toNat_ofNat]
    omega
  rw [Group.sr_ring _ r (by omega), Group.sr_ring _ (r + BitVec.ofNat 6 n) (by omega), up]
  show smGet 0 g.sring ((g.wpos + n + r.toNat) % 64) = _
  rw [show g.wpos + n + r.toNat = g.wpos + (r.toNat + n) by omega]

/-- Filled rings and a moved window leave the registers above the window. -/
theorem Group.sr_above {g h : Group} (hf : h.sfix = g.sfix) (hc : h.curF = g.curF) (hm : ∀ b, (h.path b).mask = (g.path b).mask)
    (r : Reg) (hr : 48 ≤ r.toNat) : h.sr r = g.sr r := by
  rcases Reg.kinds r with r1 | ⟨r1, r2⟩ | ⟨r1, r2⟩ | r1
  · omega
  · rw [Group.sr_fix _ r r1 r2, Group.sr_fix _ r r1 r2, hf]
  · rw [Group.sr_mask _ r r1 r2, Group.sr_mask _ r r1 r2, hc, hm]
  · rw [Group.sr_zero _ r r1, Group.sr_zero _ r r1]

/-! ### The two outcomes of a call's slide -/

/-- The link of a call: the next header with the slide code. -/
def Group.link (g : Group) (k : BitVec 2) : Word := g.nextHeader.setWidth 64 ||| k.setWidth 64

/-- The state in which a call whose window stands transfers. -/
def State.calling (s u : State) (t : VAddr) (k : BitVec 2) (indirect : Bool) : State :=
  let v := u.modG fun g => g.setS 59 (s.g.link k)
  if indirect then v.emitAddr (v.g.p.cwi + 1) t 1 else v

theorem callTo_ok {s u : State} {t : VAddr} {k : BitVec 2} {indirect : Bool} (h : s.slideUp ((k.toNat + 1) * 8) = (u, none)) :
    s.callTo t k indirect = .next ((s.calling u t k indirect).retireJump t) := by
  unfold State.callTo
  rw [h]
  rfl

theorem callTo_fault {s u : State} {t : VAddr} {k : BitVec 2} {indirect : Bool} {c : Code} {f : Word}
    (h : s.slideUp ((k.toNat + 1) * 8) = (u, some (c, f))) : s.callTo t k indirect = .next (u.takeFault c f) := by
  unfold State.callTo
  rw [h]

/-- A call whose target and window stand. -/
theorem quiet_calling (s u : State) (t : VAddr) (k : BitVec 2) (indirect : Bool) :
    Quiet (u.modG fun g => g.setS 59 (s.g.link k)) (s.calling u t k indirect) := by
  unfold State.calling
  dsimp only
  split
  · exact quiet_emitAddr _ _ _ _
  · exact Quiet.refl _

end Sys2Proof.Machine

namespace Sys2Proof.Proofs

open Sys2Proof Sys2Proof.Machine

/-- What a call leaves, with the slide `n` and the spilled state `u`. -/
def Called (s u : State) (k : BitVec 2) (n : Nat) (target : VAddr) (t : State) : Prop :=
  t.g.wpos = s.g.wpos + n ∧ t.g.wlow = u.g.wlow ∧ t.g.wsp = u.g.wsp ∧ t.g.sring = s.g.sring ∧ t.g.vring = s.g.vring ∧
  t.g.fpf = s.g.fpf ∧ WentTo target s t ∧
  t.g.sr 59 = s.g.nextHeader.setWidth 64 ||| k.setWidth 64 ∧
  (∀ r : Reg, 48 ≤ r.toNat ∧ r.toNat ≠ 59 → t.g.sr r = s.g.sr r) ∧
  (∀ r : Reg, r.toNat + n < 48 → t.g.sr r = s.g.sr (r + BitVec.ofNat 6 n)) ∧
  (∀ c b, memByte (t.core c).pool b = memByte (u.core c).pool b) ∧ (∀ b, memByte t.mem b = memByte s.mem b)

theorem callTo_called {s u : State} {k : BitVec 2} {target : VAddr} {indirect : Bool}
    (h : s.slideUp ((k.toNat + 1) * 8) = (u, none)) :
    Called s u k ((k.toNat + 1) * 8) target ((s.calling u target k indirect).retireJump target) := by
  obtain ⟨hg, hm⟩ := slideUp_group h
  have q := quiet_calling s u target k indirect
  have group : (s.calling u target k indirect).g = s.g.called ((k.toNat + 1) * 8) u.g.wlow u.g.wsp (s.g.link k) := by
    rw [q.g, State.modG_g, Group.setS_link, hg]
    rfl
  have jump := retireJump_noEffect target (s.calling u target k indirect)
  have went := retireJump_wentTo target (s.calling u target k indirect)
  rw [Called, State.retireJump_g, group]
  have regs := sameRegs_jump (s.g.called ((k.toNat + 1) * 8) u.g.wlow u.g.wsp (s.g.link k)) target
  refine ⟨regs.wpos, Group.jump_wlow _ _, Group.jump_wsp _ _, regs.sring, regs.vring, fpf_jump _ _, ?went, ?link, ?above, ?window,
    ?pools, ?memory⟩
  case went => exact went.congr (by rw [group]; rfl)
  case link => rw [regs.sr]; exact Group.called_link _ _ _ _ _
  case above => exact fun r hr => by rw [regs.sr]; exact Group.called_fixed _ _ _ _ _ r hr.1 hr.2
  case window => exact fun r hr => by rw [regs.sr]; exact Group.called_window _ _ _ _ _ r hr
  case pools => exact fun c b => (jump.frame.pools c b).trans (by rw [q.pool]; rfl)
  case memory => exact fun b => (jump.frame.memory b).trans (by rw [q.mem]; exact congrArg (memByte · b) hm)

theorem callr_aligned {s : State} {a : Reg} {k : BitVec 2} (h : (s.g.sr a).toNat % 4 = 0) :
    exec (.callr a k) s = s.callTo ((s.g.sr a).setWidth 57) k true := if_neg (not_not.2 h)

/-! ### ret -/

/-- The slide that s59 names. -/
def retSlide (g : Group) : Nat := ((g.sr 59).toNat % 4 + 1) * 8
/-- The header that s59 names. -/
def retTarget (g : Group) : VAddr := BitVec.ofNat 57 ((g.sr 59).toNat % 2 ^ 57 / 4 * 4)
/-- The window's position at the path's split. -/
def retFloor (g : Group) : Nat := (g.split.map Split.wpos).getD 0

theorem ret_eq (s : State) : exec .ret s =
    if s.g.sr 59 = 0 then .next s.endPath
    else if s.g.wpos < retSlide s.g then .next (s.takeFault .stackOverflow s.g.wsp)
    else if s.g.wpos < retSlide s.g + retFloor s.g then .next (s.takeFault .stackOverflow s.wordAddr)
    else
      match s.slideTo (s.g.wpos - retSlide s.g) with
      | (u, some (c, a)) => .next (u.takeFault c a)
      | (u, none) => .next ((u.emitAddr (u.g.p.cwi + 1) (retTarget s.g) 2).retireJump (retTarget s.g)) := by
  show execRet s = _
  unfold execRet retFloor
  cases s.g.split <;> rfl

theorem ret_fault {s u : State} {c : Code} {a : Word} (hl : s.g.sr 59 ≠ 0) (hw : retSlide s.g + retFloor s.g ≤ s.g.wpos)
    (h : s.slideTo (s.g.wpos - retSlide s.g) = (u, some (c, a))) : exec .ret s = .next (u.takeFault c a) := by
  rw [ret_eq, if_neg hl, if_neg (by omega), if_neg (by omega), h]

theorem ret_ok {s u : State} (hl : s.g.sr 59 ≠ 0) (hw : retSlide s.g + retFloor s.g ≤ s.g.wpos)
    (h : s.slideTo (s.g.wpos - retSlide s.g) = (u, none)) :
    exec .ret s = .next ((u.emitAddr (u.g.p.cwi + 1) (retTarget s.g) 2).retireJump (retTarget s.g)) := by
  rw [ret_eq, if_neg hl, if_neg (by omega), if_neg (by omega), h]

theorem ret_below {s : State} (hl : s.g.sr 59 ≠ 0) (hw : s.g.wpos < retSlide s.g) :
    exec .ret s = .next (s.takeFault .stackOverflow s.g.wsp) := by
  rw [ret_eq, if_neg hl, if_pos hw]

theorem ret_belowSplit {s : State} (hl : s.g.sr 59 ≠ 0) (hw : retSlide s.g ≤ s.g.wpos)
    (hf : s.g.wpos < retSlide s.g + retFloor s.g) : exec .ret s = .next (s.takeFault .stackOverflow s.wordAddr) := by
  rw [ret_eq, if_neg hl, if_neg (by omega), if_pos hf]

/-- A return whose window stands: the window and the rings are those of the slide, the rest of the group and every byte stand. -/
theorem ret_returns {s u : State} {t : VAddr} {p : Nat} (h : s.slideTo p = (u, none)) :
    let v := (u.emitAddr (u.g.p.cwi + 1) t 2).retireJump t
    v.g.wpos = p ∧ v.g.sring = u.g.sring ∧ v.g.vring = u.g.vring ∧ v.g.wsp = u.g.wsp ∧ v.g.wlow = u.g.wlow ∧ v.g.fpf = s.g.fpf ∧
      WentTo t s v ∧ (∀ r : Reg, 48 ≤ r.toNat → v.g.sr r = s.g.sr r) ∧
      (∀ c b, memByte (v.core c).pool b = memByte (s.core c).pool b) ∧ (∀ b, memByte v.mem b = memByte s.mem b) := by
  obtain ⟨hg, hm, hp⟩ := slideTo_group h
  have q := quiet_emitAddr u (u.g.p.cwi + 1) t 2
  have jump := retireJump_noEffect t (u.emitAddr (u.g.p.cwi + 1) t 2)
  have went := retireJump_wentTo t (u.emitAddr (u.g.p.cwi + 1) t 2)
  have regs := sameRegs_jump u.g t
  intro v
  have group : v.g = u.g.jump t := by rw [State.retireJump_g, State.emitAddr_g]
  rw [group]
  refine ⟨?wpos, regs.sring, regs.vring, Group.jump_wsp _ _, Group.jump_wlow _ _, ?flags, ?went, ?above, ?pools, ?memory⟩
  case wpos => rw [regs.wpos, hg]
  case flags => rw [fpf_jump, hg]
  case went => exact went.congr (by rw [State.emitAddr_g, hg])
  case above =>
    intro r hr
    rw [regs.sr]
    exact Group.sr_above (by rw [hg]) (by rw [hg]) (fun b => by rw [hg]; rfl) r hr
  case pools => exact fun c b => (jump.frame.pools c b).trans (by rw [q.pool, hp])
  case memory => exact fun b => (jump.frame.memory b).trans (by rw [q.mem, hm])

/-- Settles O9: both calls are the window's slide up, the link and a jump; a return is its slide down and a jump. -/
theorem callsAndReturns : Obligations.CallsAndReturns := by
  unfold Obligations.CallsAndReturns
  intro s u a k i
  refine ⟨?call, ?callr, ?misaligned, ?callFault, ?retFault, ?ret, ?below, ?belowSplit⟩
  case call => exact fun h => ⟨_, callTo_ok h, callTo_called h⟩
  case callr => exact fun h ha => ⟨_, (callr_aligned ha).trans (callTo_ok h), callTo_called h⟩
  case misaligned => exact fun ha => ⟨_, if_pos ha, takeFault_faults _ _ _⟩
  case callFault =>
    exact fun c f h => ⟨⟨_, callTo_fault h, takeFault_faults _ _ _⟩,
      fun ha => ⟨_, (callr_aligned ha).trans (callTo_fault h), takeFault_faults _ _ _⟩⟩
  case retFault => exact fun c f hl hw h => ⟨_, ret_fault hl hw h, takeFault_faults _ _ _⟩
  case ret => exact fun hl hw h => ⟨_, ret_ok hl hw h, ret_returns h⟩
  case below => exact fun hl hw => ⟨_, ret_below hl hw, takeFault_faults _ _ _⟩
  case belowSplit => exact fun hl hw hf => ⟨_, ret_belowSplit hl hw hf, takeFault_faults _ _ _⟩

end Sys2Proof.Proofs
end

section
/-! PROOFS. What an access behind the near caches leaves of the focused group: at most its monitors latch a cause (07 R173), and a fetch of
its own ends. No pool byte changes. -/

namespace Sys2Proof.Machine

/-- From `s` to `t` the focused group changes in its monitors and its fetch's place at most, and no core's pool changes. -/
structure Marks (s t : State) : Prop where
  group : t.g = { s.g with t := { s.g.t with mon := t.g.t.mon }, f := { s.g.f with mon := t.g.f.mon }, fetchAt := t.g.fetchAt }
  pools : ∀ c, (t.core c).pool = (s.core c).pool

theorem Marks.refl (s : State) : Marks s s := ⟨rfl, fun _ => rfl⟩

theorem Marks.trans {s t u : State} (a : Marks s t) (b : Marks t u) : Marks s u :=
  ⟨by rw [b.group, a.group], fun c => (b.pools c).trans (a.pools c)⟩

theorem Marks.same {s t u : State} (a : Marks s t) (hg : u.g = t.g) (hc : u.cores = t.cores) : Marks s u :=
  a.trans ⟨by rw [hg], fun c => by unfold State.core; rw [hc]⟩

theorem Marks.quiet {s t u : State} (a : Marks s t) (q : Quiet t u) : Marks s u := a.trans ⟨by rw [q.g], q.pool⟩

theorem Marks.foldl {α : Type} {s : State} {f : State → α → State} (hf : ∀ t a, Marks s t → Marks s (f t a)) {l : List α} {t : State}
    (a : Marks s t) : Marks s (l.foldl f t) := by
  induction l generalizing t with
  | nil => exact a
  | cons x l ih => exact ih (hf t x a)

/-- A change of a core that leaves its pool. -/
theorem Marks.modCore {s t : State} {c : Nat} {f : Core → Core} (a : Marks s t) (hf : (f (t.core c)).pool = (t.core c).pool) :
    Marks s (t.modCore c f) := by
  refine a.trans ⟨rfl, fun k => ?_⟩
  rw [State.core_modCore]
  split
  · next hk => rw [hf, hk]
  · rfl

/-! ### Latching -/

/-- What latching does to a path slot. -/
def latched (hit : Nat → Bool) (c : Cause) (p : PathState) : PathState :=
  match p.mon with
  | some m => if hit m.line then { p with mon := some (m.latch c) } else p
  | none => p

theorem latched_eq (hit : Nat → Bool) (c : Cause) (p : PathState) : latched hit c p = { p with mon := (latched hit c p).mon } := by
  unfold latched
  split
  · split <;> rfl
  · rfl

/-- Latching a cause changes the monitors alone. -/
theorem Group.latch_eq (g : Group) (hit : Nat → Bool) (c : Cause) : g.latch hit c =
    { g with t := { g.t with mon := (g.latch hit c).t.mon }, f := { g.f with mon := (g.latch hit c).f.mon } } := by
  have paths : g.latch hit c = { g with t := latched hit c g.t, f := latched hit c g.f } := rfl
  rw [paths, ← latched_eq, ← latched_eq]

theorem Marks.latchAll {s t : State} {part cls : Nat} {inst : Option Nat} {hit : Nat → Bool} {c : Cause} (a : Marks s t) :
    Marks s (t.latchAll part cls inst hit c) := by
  refine a.trans ⟨?_, fun _ => rfl⟩
  unfold State.latchAll
  dsimp only
  generalize ((t.g.t.mon.isSome || t.g.f.mon.isSome) && _ && _ : Bool) = sees
  cases sees
  · rfl
  · exact Group.latch_eq _ _ _

/-! ### Lines and memory -/

theorem Marks.setLine {s t : State} {x : LLine} (a : Marks s t) : Marks s (t.setLine x) := a.same rfl rfl
theorem Marks.touch {s t : State} {x : LLine} (a : Marks s t) : Marks s (t.touch x) := a.same rfl rfl
theorem Marks.memWrite {s t : State} {ws : List (Nat × Byte)} (a : Marks s t) : Marks s (t.memWrite ws) := a.same rfl rfl
theorem Marks.bumpChan {s t : State} {pa k n : Nat} (a : Marks s t) : Marks s (t.bumpChan pa k n) := a.same rfl rfl
theorem Marks.draw {s t : State} (a : Marks s t) : Marks s t.draw.2 := a.same rfl rfl
theorem Marks.countAt {s t : State} {pa : Nat} {w : Bool} (a : Marks s t) : Marks s (t.countAt pa w) :=
  a.bumpChan.draw.bumpChan.bumpChan.bumpChan
theorem Marks.countMem {s t : State} {ls : List Nat} {w : Bool} (a : Marks s t) : Marks s (t.countMem ls w) :=
  .foldl (fun _ _ a => a.countAt) a
theorem Marks.dropLine {s t : State} {x : LLine} (a : Marks s t) : Marks s (t.dropLine x) :=
  Marks.latchAll (t := { t with lines := _ }) (a.same rfl rfl)

theorem Marks.writeBack {s t : State} {x : LLine} (a : Marks s t) : Marks s (t.writeBack x) := by
  unfold State.writeBack
  split
  · exact a
  · exact a.memWrite.setLine.countMem

theorem Marks.insertLine {s t : State} {l : Ldr} {x : LLine} (a : Marks s t) : Marks s (t.insertLine l x) := by
  unfold State.insertLine
  dsimp only
  split
  · exact a.same rfl rfl
  split
  · exact a.writeBack.dropLine.same rfl rfl
  · exact a

theorem Marks.allocate {s t : State} {part cls die pa : Nat} {l : Ldr} {geo : Bool} {ws : List (Nat × Byte)} (a : Marks s t) :
    Marks s (t.allocate part cls die pa l geo ws) := a.countMem.insertLine

theorem Marks.serveLoad {s t : State} {part cls die pa n : Nat} (a : Marks s t) : Marks s (t.serveLoad part cls die pa n).2 := by
  unfold State.serveLoad
  dsimp only
  split
  · dsimp only
    split
    · exact a.touch
    · exact a
  · exact a.countMem
  split
  · exact a.countMem
  · exact a.allocate

theorem Marks.serveStore {s t : State} {part cls die : Nat} {ws : List (Nat × Byte)} {stb : Bool} (a : Marks s t) :
    Marks s (t.serveStore part cls die ws stb) := by
  unfold State.serveStore
  dsimp only
  split
  · exact a
  split
  · split
    · refine Marks.touch ?_
      split
      · exact a.memWrite.countMem
      · exact a
    · refine Marks.setLine ?_
      split
      · exact a.memWrite.countMem
      · exact a
  · exact a.memWrite.countMem
  split
  · exact a.allocate
  · exact a.memWrite.countMem

/-! ### The machine's own stores into an enclave -/

theorem Marks.modEnc {s t : State} {e : Nat} {f : Enclave → Enclave} (a : Marks s t) : Marks s (t.modEnc e f) := a.same rfl rfl

theorem Marks.hubStore {s t : State} {part pa : Nat} {bs : List Byte} (a : Marks s t) : Marks s (t.hubStore part pa bs) :=
  (Marks.foldl (fun _ _ a => a.modEnc) a).serveStore.latchAll

theorem Marks.devWrite {s t : State} {enc va : Nat} {bs : List Byte} (a : Marks s t) : Marks s (t.devWrite enc va bs) := by
  refine .foldl (fun t c a => ?_) a
  split
  · exact a.hubStore
  · exact a

/-- Keeping a block in the replay log. -/
theorem Marks.appendBlock {s t : State} {enc : Nat} {b : List Word} (a : Marks s t) : Marks s (t.appendBlock enc b) := by
  unfold State.appendBlock
  dsimp only
  split
  · exact a.modEnc
  · exact a.devWrite.modEnc

end Sys2Proof.Machine
end

section
/-! PROOFS. The end of a path slot, O11. -/

namespace Sys2Proof.Machine

/-! ### The last part of an end, once the checkpoint is made and the window stands -/

/-- The group of a slot that has ended beside `o`, the last of its group or not. -/
def Group.pathEnded (g : Group) (o : PathState) (last : Bool) : Group :=
  let g' := ({ g.noteHints with rc := g.rc + 1 }.modP fun p =>
    { p with stat := .ended, stack := [], mask := if o.stat = PSt.free then p.mask else 0, hdr := none, park := none }).boundary
  if last then { g' with stat := .ending } else g'

/-- The state of such an end: a group that ends closes its windows. -/
def State.pathEnded (s : State) (o : PathState) (last : Bool) : State :=
  let s := (s.spendWord leafUseful 1).modG (·.pathEnded o last)
  if last then (s.emit s.g 10 0).modCore s.g.core (·.closeWins s.g.gid) else s

/-- With the other slot neither LIVE nor AT_JOIN the group ends. -/
def PathState.gone (o : PathState) : Bool := o.stat ≠ .live && o.stat ≠ .atJoin

/-- Where the window of an ending path slot returns to (01 R37). -/
def Group.returnsTo (g : Group) (o : PathState) : Option Nat :=
  match g.split with
  | some x => if o.stat ≠ .free ∧ x.wpos < g.wpos then some x.wpos else none
  | none => none

theorem endPath_eq (s : State) : s.endPath =
    let o := s.g.path (!s.g.curF)
    match if o.gone then s.checkpoint 2 0 else (s, none) with
    | (s, some a) => s.takeFault .replayDiverged a
    | (s, none) =>
      match (match s.g.returnsTo o with | some w => s.slideTo w | none => (s, none)) with
      | (s, some (c, a)) => s.takeFault c a
      | (s, none) => s.pathEnded o o.gone := rfl

/-- An end whose checkpoint agrees and whose window stands already. -/
theorem endPath_stays {s u : State} (hc : (if (s.g.path (!s.g.curF)).gone then s.checkpoint 2 0 else (s, none)) = (u, none))
    (hw : u.g.returnsTo (s.g.path (!s.g.curF)) = none) :
    s.endPath = u.pathEnded (s.g.path (!s.g.curF)) (s.g.path (!s.g.curF)).gone := by
  rw [endPath_eq]
  dsimp only
  rw [hc]
  dsimp only
  rw [hw]

/-- An end whose checkpoint agrees and whose window returns. -/
theorem endPath_returns {s u v : State} {w : Nat}
    (hc : (if (s.g.path (!s.g.curF)).gone then s.checkpoint 2 0 else (s, none)) = (u, none))
    (hw : u.g.returnsTo (s.g.path (!s.g.curF)) = some w) (hs : u.slideTo w = (v, none)) :
    s.endPath = v.pathEnded (s.g.path (!s.g.curF)) (s.g.path (!s.g.curF)).gone := by
  rw [endPath_eq]
  dsimp only
  rw [hc]
  dsimp only
  rw [hw]
  dsimp only
  rw [hs]

/-! ### The checkpoint (21 R391) -/

/-- A group that is neither recorded nor replayed makes none. -/
theorem checkpoint_plain {s : State} (h : s.replayMode s.g = 0) (cause mark : Nat) : s.checkpoint cause mark = (s, none) := by
  unfold State.checkpoint
  dsimp only
  rw [h]
  rfl

/-- A recorded group keeps its block. -/
theorem checkpoint_recorded {s : State} (h : s.replayMode s.g = 1) (cause mark : Nat) : s.checkpoint cause mark =
    ((s.modG fun g => { g with ckpt := g.ckpt + 1 }).appendBlock s.g.enc (checkpointBlock s.g cause mark), none) := by
  unfold State.checkpoint
  dsimp only
  rw [h]
  rfl

/-! ### What the end leaves -/

@[simp] theorem Group.noteHints_path (g : Group) (f : Bool) : g.noteHints.path f = g.path f := by
  unfold Group.noteHints
  split <;> cases f <;> rfl

/-- The parts of a group whose slot has ended. -/
structure Ended (g h : Group) (o : PathState) (last : Bool) : Prop where
  stat : h.p.stat = .ended
  stack : h.p.stack = []
  count : h.rc = 0
  status : h.stat = if last then .ending else g.stat
  mask : o.stat ≠ .free → h.p.mask = 0
  other : h.path (!g.curF) = g.path (!g.curF)
  regs : h.sring = g.sring ∧ h.sfix = g.sfix ∧ h.vring = g.vring ∧ h.vfix = g.vfix
  window : h.wpos = g.wpos ∧ h.wsp = g.wsp ∧ h.wlow = g.wlow
  flags : h.fpf = g.fpf
  checkpoints : h.ckpt = g.ckpt
  place : h.core = g.core ∧ h.gid = g.gid

theorem Group.pathEnded_ended (g : Group) (o : PathState) (last : Bool) : Ended g (g.pathEnded o last) o last := by
  unfold Group.pathEnded Group.noteHints
  cases hc : g.curF <;> cases last <;> cases g.header <;>
    constructor <;> simp +contextual [Group.boundary, Group.modP, Group.setP, Group.setPath, Group.path, Group.p, hc]

/-- Closing a group's windows leaves the pools, and of that group's windows none open. -/
theorem closeWins_closing (c : Core) (gid k : Nat) (w : Win) (h : smFind (c.closeWins gid).wins k = some w) (hg : w.gid = gid) :
    w.closing = true := by
  obtain ⟨x, _, hx⟩ := List.mem_map.1 (mem_of_smFind h)
  dsimp only at hx
  split at hx
  · exact (congrArg (·.2.closing) hx).symm
  · next hne => subst hx; exact absurd hg hne

/-- What an end leaves of the state it began in. -/
theorem State.pathEnded_group (s : State) (o : PathState) (last : Bool) : (s.pathEnded o last).g = s.g.pathEnded o last := by
  unfold State.pathEnded
  dsimp only
  split <;> simp

theorem State.pathEnded_mem (s : State) (o : PathState) (last : Bool) : (s.pathEnded o last).mem = s.mem := by
  have spent := (quiet_spendWord s leafUseful 1).mem
  unfold State.pathEnded
  dsimp only
  split
  · exact (quiet_emit _ _ _ _).mem.trans spent
  · exact spent

theorem State.pathEnded_pool (s : State) (o : PathState) (last : Bool) (c : Nat) :
    ((s.pathEnded o last).core c).pool = (s.core c).pool := by
  have spent := (quiet_spendWord s leafUseful 1).pool c
  unfold State.pathEnded
  dsimp only
  split
  · refine Eq.trans ?_ (((quiet_emit ((s.spendWord leafUseful 1).modG (·.pathEnded o last))
      ((s.spendWord leafUseful 1).modG (·.pathEnded o last)).g 10 0).pool c).trans spent)
    rw [State.core_modCore]
    split
    · next hc => rw [hc]; rfl
    · rfl
  · exact spent

/-- The group that has ended has no open window on its core. -/
theorem State.pathEnded_closing (s : State) (o : PathState) (k : Nat) (w : Win)
    (h : smFind ((s.pathEnded o true).core s.g.core).wins k = some w) (hg : w.gid = s.g.gid) : w.closing = true := by
  have place := (s.g.pathEnded_ended o true).place
  have ended : s.pathEnded o true = (((s.spendWord leafUseful 1).modG (·.pathEnded o true)).emit
      ((s.spendWord leafUseful 1).modG (·.pathEnded o true)).g 10 0).modCore s.g.core (·.closeWins s.g.gid) := by
    unfold State.pathEnded
    simp only [if_true, State.modG_g, State.spendWord_g, place]
  rw [ended, State.core_modCore, if_pos rfl] at h
  exact closeWins_closing _ _ _ _ h hg

end Sys2Proof.Machine

namespace Sys2Proof.Proofs

open Sys2Proof Sys2Proof.Machine

/-- halt ends the path, and so does ret without a link. -/
theorem halt_and_ret {s t : State} {P : State → Prop} (h : s.endPath = t) (hP : P t) :
    Completes .halt s P ∧ (s.g.sr 59 = 0 → Completes .ret s P) := by
  subst h
  exact ⟨⟨_, rfl, hP⟩, fun hl => ⟨_, by rw [ret_eq, if_pos hl], hP⟩⟩

theorem gone_of_stat {o : PathState} (h : o.stat = .free ∨ o.stat = .ended) : o.gone = true := by
  rcases h with h | h <;> simp [PathState.gone, h]
theorem not_gone_of_stat {o : PathState} (h : o.stat = .live ∨ o.stat = .atJoin) : o.gone = false := by
  rcases h with h | h <;> simp [PathState.gone, h]

/-- A window that stands no higher than at the split stays. -/
theorem returnsTo_none {g : Group} {o : PathState} (h : ∀ x, g.split = some x → g.wpos ≤ x.wpos) : g.returnsTo o = none := by
  unfold Group.returnsTo
  split
  · next x hx => exact if_neg fun hh => absurd (h x hx) (by omega)
  · rfl

theorem returnsTo_some {g : Group} {o : PathState} {x : Split} (hx : g.split = some x) (ho : o.stat ≠ .free) (hw : x.wpos < g.wpos) :
    g.returnsTo o = some x.wpos := by
  unfold Group.returnsTo
  rw [hx]
  exact if_pos ⟨ho, hw⟩

/-- A group that is not recorded ends its path without a checkpoint. -/
theorem plain_checkpoint {s : State} (h : s.replayMode s.g = 0) (b : Bool) :
    (if b then s.checkpoint 2 0 else (s, none)) = (s, none) := by
  rw [checkpoint_plain h, ite_self]

/-- Settles O11: an end is its checkpoint, the window's return and the marking of the slot, and each leaves what it must. -/
theorem pathEnds : Obligations.PathEnds := by
  unfold Obligations.PathEnds
  intro s o done
  refine ⟨?plain, ?recorded, ?returning⟩
  case plain =>
    intro hr hw
    refine halt_and_ret (endPath_stays (plain_checkpoint hr _) (returnsTo_none hw)) ?_
    have e := s.g.pathEnded_ended o o.gone
    obtain ⟨sring, sfix, vring, vfix⟩ := e.regs
    have group := s.pathEnded_group o o.gone
    refine ⟨?_, ?_, ?_, ?ending, ?other, ?_, ?_, ?_, ?_, ?_, ?wins, ?_, fun b => by rw [State.pathEnded_mem],
      fun c b => by rw [State.pathEnded_pool]⟩
    case ending => exact fun h => by rw [group, e.status, gone_of_stat h]; rfl
    case other =>
      intro h
      have free : o.stat ≠ .free := by rcases h with h | h <;> simp [h]
      exact ⟨by rw [group, e.status, not_gone_of_stat h]; rfl, by rw [group]; exact e.mask free⟩
    case wins => exact fun h k w hk hg => s.pathEnded_closing o k w (by rw [← gone_of_stat h]; exact hk) hg
    all_goals rw [group]
    · exact e.stat
    · exact e.stack
    · exact e.count
    · exact e.other
    · exact sring
    · exact sfix
    · exact vring
    · exact vfix
    · exact e.flags
  case recorded =>
    intro hr ho hw
    have marked : Marks (s.modG fun g => { g with ckpt := g.ckpt + 1 })
      ((s.modG fun g => { g with ckpt := g.ckpt + 1 }).appendBlock s.g.enc (checkpointBlock s.g 2 0)) := (Marks.refl _).appendBlock
    generalize hu : (s.modG fun g => { g with ckpt := g.ckpt + 1 }).appendBlock s.g.enc (checkpointBlock s.g 2 0) = u at marked
    have stays : u.g.returnsTo o = none := returnsTo_none (by rw [marked.group]; exact hw)
    have kept : (if o.gone then s.checkpoint 2 0 else (s, none)) = (u, none) := by
      rw [gone_of_stat ho, if_pos rfl, checkpoint_recorded hr, hu]
    refine halt_and_ret (endPath_stays kept stays) ?_
    have e := u.g.pathEnded_ended o o.gone
    rw [State.pathEnded_group]
    refine ⟨e.stat, e.stack, e.count, ?_, ?_⟩
    · rw [e.status, gone_of_stat ho]; rfl
    · rw [e.checkpoints, marked.group]; rfl
  case returning =>
    intro x u hr hx ho hw hs
    refine halt_and_ret (endPath_returns (plain_checkpoint hr _) (returnsTo_some hx ho hw) hs) ?_
    have e := u.g.pathEnded_ended o o.gone
    obtain ⟨wpos, wsp, wlow⟩ := e.window
    obtain ⟨sring, -, vring, -⟩ := e.regs
    rw [State.pathEnded_group]
    exact ⟨e.stat, e.stack, e.count, wpos.trans (by rw [(slideTo_group hs).1]), wsp, wlow, sring, vring⟩

end Sys2Proof.Proofs
end

section
/-! PROOFS. System registers, O42. -/

namespace Sys2Proof.Machine

/-! ### The table (01 Table 1.3) -/

/-- The registers of the table with what each reads as. -/
def State.sysTable (s : State) : List (Nat × Word) :=
  let g := s.g
  let c := s.core g.core
  [(0x000, g.hb), (0x001, g.hl), (0x002, g.ho), (0x003, g.hlc), (0x008, g.poolw.setWidth 64), (0x010, c.tagSet),
   (0x011, BitVec.ofNat 64 (g.p.ld + g.p.st * 2 ^ 8 + g.p.cp * 2 ^ 16 + g.p.tl * 2 ^ 24)), (0x018, g.fpf.setWidth 64),
   (0x020, c.cyc), (0x028, g.tvec), (0x02A, g.tst.setWidth 64), (0x02B, 0)] ++
  [(0x030, g.frc), (0x031, g.fra), (0x032, g.frpc), (0x033, g.frm), (0x034, g.frmh), (0x038, BitVec.ofNat 64 g.paths),
   (0x040, g.trctl.setWidth 64), (0x048, g.wsb), (0x049, g.wsl), (0x04A, g.wsp), (0x04B, BitVec.ofNat 64 g.wpos)]

/-- The registers of the table that no sys.wr may write. -/
def sysReadOnly : List Nat :=
  [0x000, 0x001, 0x002, 0x003, 0x008, 0x011, 0x020, 0x02A, 0x030, 0x031, 0x032, 0x033, 0x034, 0x038, 0x04A, 0x04B]

/-- The registers that sys.wr may write, and TRET. -/
def sysWritable : List Nat := [0x010, 0x018, 0x028, 0x02B, 0x040, 0x048, 0x049]

theorem sysReg_table (s : State) : ∀ x ∈ s.sysTable, x.1 < 2 ^ 13 ∧ s.sysReg x.1 = some x.2 := by
  unfold State.sysTable
  simp only [List.cons_append, List.nil_append, List.forall_mem_cons]
  exact ⟨⟨by decide, rfl⟩, ⟨by decide, rfl⟩, ⟨by decide, rfl⟩, ⟨by decide, rfl⟩, ⟨by decide, rfl⟩, ⟨by decide, rfl⟩, ⟨by decide, rfl⟩,
    ⟨by decide, rfl⟩, ⟨by decide, rfl⟩, ⟨by decide, rfl⟩, ⟨by decide, rfl⟩, ⟨by decide, rfl⟩, ⟨by decide, rfl⟩, ⟨by decide, rfl⟩,
    ⟨by decide, rfl⟩, ⟨by decide, rfl⟩, ⟨by decide, rfl⟩, ⟨by decide, rfl⟩, ⟨by decide, rfl⟩, ⟨by decide, rfl⟩, ⟨by decide, rfl⟩,
    ⟨by decide, rfl⟩, ⟨by decide, rfl⟩, by simp⟩

/-- A number that no register of the table has names none. -/
theorem sysReg_none {s : State} {n : Nat} (h : ∀ x ∈ s.sysTable, x.1 ≠ n) : s.sysReg n = none := by
  simp only [State.sysTable, List.cons_append, List.nil_append, List.forall_mem_cons] at h
  unfold State.sysReg
  split
  case h_24 => rfl
  all_goals simp at h

theorem sysReg_writable (s : State) : ∀ n ∈ sysWritable, s.sysReg n ≠ none := by
  simp [sysWritable, State.sysReg]

/-- A sys.wr to a number that none of the registers it may write has. -/
theorem execSysWr_other {s : State} {a : Reg} {r : BitVec 13} (h : ∀ n ∈ sysWritable, r.toNat ≠ n) :
    execSysWr a r s = .next (s.takeFault (if (s.sysReg r.toNat).isSome then .privilege else .illegalInstruction) (r.setWidth 64)) := by
  simp only [sysWritable, List.forall_mem_cons] at h
  unfold execSysWr
  dsimp only
  split
  case h_8 => cases s.sysReg r.toNat <;> rfl
  all_goals simp_all

/-! ### What a write leaves -/

/-- A change of the group that keeps registers, flags and place, and then goes on. -/
theorem modG_retire {s : State} {f : Group → Group} (regs : SameRegs s.g (f s.g)) (place : SamePlace s.g (f s.g)) (fpf : (f s.g).fpf = s.g.fpf) :
    Goes s none ((s.modG f).retire 1) ∧ ((s.modG f).retire 1).g.arch = (f s.g).arch ∧ LocalFrame s ((s.modG f).retire 1) ∧
      ∀ k, (((s.modG f).retire 1).core k).pool = (s.core k).pool := by
  obtain ⟨scalars, vectors, flags, frame⟩ := retire_noEffect 1 (s.modG f)
  refine ⟨⟨place.goesOn (retire_goesOn 1 (s.modG f)), fun r => (scalars r).trans (regs.sr r), fun r => (vectors r).trans (regs.vr r),
    flags.trans fpf⟩, frame.group, ⟨by rw [frame.rest]; rfl, fun c => ?_, frame.memory⟩, fun k => Core.pool_of_arch (frame.cores k)⟩
  exact congrArg (fun c : Core => ({ c with pool := [], fe := [], wins := [] } : Core)) (frame.cores c)

end Sys2Proof.Machine

namespace Sys2Proof.Proofs

open Sys2Proof Sys2Proof.Machine

theorem sysRd_reads {s : State} {d : Reg} {x : Nat × Word} (h : x ∈ s.sysTable) :
    Completes (.sysRd d (BitVec.ofNat 13 x.1)) s (WritesScalar s d x.2 0) := by
  obtain ⟨small, reads⟩ := sysReg_table s x h
  refine ⟨_, ?_, setS_retire_writes 1 d x.2 s⟩
  show execSysRd d (BitVec.ofNat 13 x.1) s = _
  rw [execSysRd, BitVec.toNat_ofNat, Nat.mod_eq_of_lt small, reads]

theorem sysRd_outside {s : State} {d : Reg} {r : BitVec 13} (h : s.sysReg r.toNat = none) :
    Completes (.sysRd d r) s (Faults s .illegalInstruction (r.setWidth 64)) := by
  refine ⟨_, ?_, takeFault_faults s .illegalInstruction (r.setWidth 64)⟩
  show execSysRd d r s = _
  rw [execSysRd, h]

theorem sysWr_outside {s : State} {a : Reg} {r : BitVec 13} (h : s.sysReg r.toNat = none) :
    Completes (.sysWr a r) s (Faults s .illegalInstruction (r.setWidth 64)) := by
  refine ⟨_, ?_, takeFault_faults s .illegalInstruction (r.setWidth 64)⟩
  exact (execSysWr_other fun n hn e => sysReg_writable s n hn (e ▸ h)).trans (by rw [h]; rfl)

theorem sysWr_readOnly (s : State) (a : Reg) : ∀ n ∈ sysReadOnly,
    Completes (.sysWr a (BitVec.ofNat 13 n)) s (Faults s .privilege (BitVec.ofNat 64 n)) := by
  have faults (n : Nat) (h : exec (.sysWr a (BitVec.ofNat 13 n)) s = .next (s.takeFault .privilege (BitVec.ofNat 64 n))) :
      Completes (.sysWr a (BitVec.ofNat 13 n)) s (Faults s .privilege (BitVec.ofNat 64 n)) := ⟨_, h, takeFault_faults _ _ _⟩
  simp only [sysReadOnly, List.forall_mem_cons]
  exact ⟨faults _ rfl, faults _ rfl, faults _ rfl, faults _ rfl, faults _ rfl, faults _ rfl, faults _ rfl, faults _ rfl, faults _ rfl,
    faults _ rfl, faults _ rfl, faults _ rfl, faults _ rfl, faults _ rfl, faults _ rfl, faults _ rfl, by simp⟩

/-- WSB: accepted while the spill area is empty. -/
theorem wsb_writes {s : State} {a : Reg} {i : Instr} (hi : exec i s = execSysWrWsb a s) :
    let v := s.g.sr a &&& ~~~(0x3F : Word)
    (s.g.wsp = s.g.wsb → Completes i s fun t => Goes s none t ∧ t.g.arch = ({ s.g with wsb := v, wsp := v } : Machine.Group).arch ∧
      LocalFrame s t ∧ ∀ k, (t.core k).pool = (s.core k).pool) ∧
    (s.g.wsp ≠ s.g.wsb → Completes i s (Faults s .privilege 0x048)) := by
  intro v
  refine ⟨fun h => ⟨_, hi.trans (if_pos h), modG_retire ?_ ?_ rfl⟩, fun h => ⟨_, hi.trans (if_neg h), takeFault_faults _ _ _⟩⟩
  · exact ⟨rfl, rfl, rfl, rfl, rfl, rfl, fun b => by cases b <;> rfl⟩
  · exact ⟨rfl, rfl, rfl, rfl⟩

/-- WSL: accepted where it is at least WSP. -/
theorem wsl_writes {s : State} {a : Reg} {i : Instr} (hi : exec i s = execSysWrWsl a s) :
    let v := s.g.sr a &&& ~~~(0x3F : Word)
    (s.g.wsp.toNat ≤ v.toNat → Completes i s fun t => Goes s none t ∧ t.g.arch = ({ s.g with wsl := v } : Machine.Group).arch ∧
      LocalFrame s t ∧ ∀ k, (t.core k).pool = (s.core k).pool) ∧
    (v.toNat < s.g.wsp.toNat → Completes i s (Faults s .privilege 0x049)) := by
  intro v
  refine ⟨fun h => ⟨_, hi.trans (if_pos h), modG_retire ?_ ?_ rfl⟩,
    fun h => ⟨_, hi.trans (if_neg (Nat.not_le.2 h)), takeFault_faults _ _ _⟩⟩
  · exact ⟨rfl, rfl, rfl, rfl, rfl, rfl, fun b => by cases b <;> rfl⟩
  · exact ⟨rfl, rfl, rfl, rfl⟩

/-- TAGS: the bits of BUSY tags stay. -/
theorem tags_writes {s : State} {a : Reg} {i : Instr} (hi : exec i s = execSysWrTags a s) :
    let c := s.core s.g.core
    Completes i s fun t => Goes s none t ∧ t.g.arch = s.g.arch ∧
      (t.core s.g.core).tagSet = (c.tagSet &&& c.tagBusy) ||| (s.g.sr a &&& ~~~c.tagBusy) ∧ (t.core s.g.core).tagBusy = c.tagBusy ∧
      (∀ k, k ≠ s.g.core → (t.core k).tagSet = (s.core k).tagSet) ∧ EngineFrame s t := by
  intro c
  let u := s.modCore s.g.core fun c => { c with tagSet := (c.tagSet &&& c.tagBusy) ||| (s.g.sr a &&& ~~~c.tagBusy) }
  obtain ⟨scalars, vectors, flags, frame⟩ := retire_noEffect 1 u
  have cores (k : Nat) : ((u.retire 1).core k).arch = (u.core k).arch := frame.cores k
  have own : u.core s.g.core = { c with tagSet := (c.tagSet &&& c.tagBusy) ||| (s.g.sr a &&& ~~~c.tagBusy) } := by
    rw [State.core_modCore, if_pos rfl]
  have others (k : Nat) (h : k ≠ s.g.core) : u.core k = s.core k := by rw [State.core_modCore, if_neg h]
  refine ⟨_, hi, ⟨retire_goesOn 1 u, scalars, vectors, flags⟩, frame.group, ?_, ?_, fun k h => ?_, by rw [frame.rest]; rfl, fun k => ?_⟩
  · exact (congrArg (·.tagSet) (cores _)).trans (congrArg (·.tagSet) own)
  · exact (congrArg (·.tagBusy) (cores _)).trans (congrArg (·.tagBusy) own)
  · exact (congrArg (·.tagSet) (cores k)).trans (congrArg (·.tagSet) (others k h))
  · have kept : (u.core k).pool = (s.core k).pool ∧ (u.core k).fe = (s.core k).fe ∧ (u.core k).wins = (s.core k).wins ∧
        (u.core k).rows = (s.core k).rows ∧ (u.core k).near = (s.core k).near ∧ (u.core k).l1 = (s.core k).l1 ∧
        (u.core k).tstat = (s.core k).tstat := by
      by_cases h : k = s.g.core
      · rw [h, own]; exact ⟨rfl, rfl, rfl, rfl, rfl, rfl, rfl⟩
      · rw [others k h]; exact ⟨rfl, rfl, rfl, rfl, rfl, rfl, rfl⟩
    obtain ⟨pool, fe, wins, rows, near, l1, tstat⟩ := kept
    exact ⟨(congrArg (·.pool) (cores k)).trans pool, (congrArg (·.fe) (cores k)).trans fe, (congrArg (·.wins) (cores k)).trans wins,
      (congrArg (·.rows) (cores k)).trans rows, (congrArg (·.near) (cores k)).trans near, (congrArg (·.l1) (cores k)).trans l1,
      (congrArg (·.tstat) (cores k)).trans tstat⟩

/-- FPF: the flags take the operand's low bits. -/
theorem fpf_writes (s : State) (a : Reg) : Completes (.sysWr a 0x018) s fun t =>
    (∀ q, t.g.sr q = s.g.sr q) ∧ (∀ q, t.g.vr q = s.g.vr q) ∧ t.g.fpf = (s.g.sr a).setWidth 5 ∧
      GoesOn s t ∧ t.g.arch = s.g.arch ∧ LocalFrame s t := by
  let u := s.modG fun g => { g with fpf := (s.g.sr a).setWidth 5 }
  obtain ⟨scalars, vectors, flags, frame⟩ := retire_noEffect 1 u
  exact ⟨_, rfl, scalars, vectors, flags, retire_goesOn 1 u, frame.group.trans (arch_fpf _ _), by rw [frame.rest]; rfl,
    fun c => congrArg (fun c : Core => ({ c with pool := [], fe := [], wins := [] } : Core)) (frame.cores c), frame.memory⟩

/-- Settles O42: the table says what is read, and each register that may be written has its own rule. -/
theorem systemRegisters : Obligations.SystemRegisters := by
  unfold Obligations.SystemRegisters
  intro s d a r
  refine ⟨fun x h => sysRd_reads h, fun h => ⟨sysRd_outside (sysReg_none h), sysWr_outside (sysReg_none h)⟩, sysWr_readOnly s a,
    fpf_writes s a, ⟨_, rfl, modG_retire ?_ ?_ rfl⟩, ⟨_, rfl, modG_retire ?_ ?_ rfl⟩, wsb_writes rfl, wsb_writes rfl,
    wsl_writes rfl, wsl_writes rfl, tags_writes rfl, tags_writes rfl, ⟨_, rfl, setS_retire_writes 1 d _ s⟩⟩
  · exact ⟨rfl, rfl, rfl, rfl, rfl, rfl, fun b => by cases b <;> rfl⟩
  · exact ⟨rfl, rfl, rfl, rfl⟩
  · exact ⟨rfl, rfl, rfl, rfl, rfl, rfl, fun b => by cases b <;> rfl⟩
  · exact ⟨rfl, rfl, rfl, rfl⟩

end Sys2Proof.Proofs
end

section
/-! PROOFS. Far loads and prefetches at issue, O26. -/

namespace Sys2Proof.Machine

/-! ### What translation leaves -/

theorem FarFrame.refl (s : State) : FarFrame s s := ⟨rfl, fun _ => ⟨rfl, rfl, rfl, rfl, rfl, rfl, rfl, rfl⟩⟩

theorem FarFrame.trans {s t u : State} (a : FarFrame s t) (b : FarFrame t u) : FarFrame s u := by
  refine ⟨by rw [b.rest, a.rest], fun c => ?_⟩
  obtain ⟨p, f, w, r, t, l, y, q⟩ := a.pools c
  obtain ⟨p', f', w', r', t', l', y', q'⟩ := b.pools c
  exact ⟨p'.trans p, f'.trans f, w'.trans w, r'.trans r, t'.trans t, l'.trans l, y'.trans y, q'.trans q⟩

/-- Cores that agree without their clocks and Lamplight state agree in all that a far word's frame keeps. -/
theorem farFrame_of_cores {s t : State} (rest : t = { s with g := t.g, cores := t.cores, dies := t.dies, seq := t.seq, held := t.held })
    (cores : ∀ c, (t.core c).arch = (s.core c).arch) : FarFrame s t :=
  ⟨rest, fun c => ⟨congrArg (·.pool) (cores c), congrArg (·.fe) (cores c), congrArg (·.wins) (cores c), congrArg (·.rows) (cores c),
    congrArg (·.tagSet) (cores c), congrArg (·.locks) (cores c), congrArg (·.copies) (cores c), congrArg (·.tileq) (cores c)⟩⟩

theorem farFrame_quiet {s t : State} (q : Quiet s t) : FarFrame s t := farFrame_of_cores (by rw [q.rest]) q.cores
theorem farFrame_noEffect {s t : State} (q : NoEffect s t) : FarFrame s t := farFrame_of_cores (by rw [q.frame.rest]) q.frame.cores

/-- From `s` to `t` a far word has been translated: its group stands and only its frame's omissions change. -/
structure Translates (s t : State) : Prop where
  group : t.g = s.g
  frame : FarFrame s t

theorem Translates.refl (s : State) : Translates s s := ⟨rfl, .refl s⟩
theorem Translates.trans {s t u : State} (a : Translates s t) (b : Translates t u) : Translates s u :=
  ⟨b.group.trans a.group, a.frame.trans b.frame⟩
theorem Translates.quiet {s t u : State} (a : Translates s t) (q : Quiet t u) : Translates s u := a.trans ⟨q.g, farFrame_quiet q⟩
theorem Translates.modDie {s t : State} {d : Nat} {f : Die → Die} (a : Translates s t) : Translates s (t.modDie d f) :=
  a.trans ⟨rfl, farFrame_of_cores rfl fun _ => rfl⟩
theorem Translates.clearWalks {s t : State} {g : Group} (a : Translates s t) : Translates s (t.clearWalks g) := by
  unfold State.clearWalks State.forgetWalks
  exact a.modDie
theorem Translates.colourUp {s t : State} {d n : Nat} (a : Translates s t) : Translates s (t.colourUp d n) := by
  unfold State.colourUp
  exact a.modDie

theorem Translates.refill {s t : State} {g : Group} {va : Nat} {k : Acc} (a : Translates s t) : Translates s (t.refill g va k) := by
  unfold State.refill
  split
  · exact a
  · refine Translates.modDie (a.trans ⟨rfl, rfl, fun c => ?_⟩)
    rw [State.core_modCore]
    split
    · next h => rw [h]; exact ⟨rfl, rfl, rfl, rfl, rfl, rfl, rfl, rfl⟩
    · exact ⟨rfl, rfl, rfl, rfl, rfl, rfl, rfl, rfl⟩

theorem Translates.foldl {α : Type} {s : State} {f : State → α → State} (hf : ∀ t a, Translates s t → Translates s (f t a)) {l : List α}
    {t : State} (a : Translates s t) : Translates s (l.foldl f t) := by
  induction l generalizing t with
  | nil => exact a
  | cons x l ih => exact ih (hf t x a)

theorem Translates.translated {s t : State} {g : Group} {vas : List Nat} {k : Acc} (a : Translates s t) :
    Translates s (t.translated g vas k) := by
  refine Translates.foldl (fun _ _ a => a.refill) (Translates.clearWalks ?_)
  split
  · exact a
  · exact a.quiet (quiet_spend _ _ _)

theorem Translates.takeColour {s t : State} {rs : List (List Nat × Bool)} (a : Translates s t) : Translates s (t.takeColour rs).1 := by
  unfold State.takeColour
  dsimp only
  split
  · exact a
  · exact a.colourUp

/-- Classes and enclaves stand over a translation. -/
theorem Translates.classDef {s t : State} (a : Translates s t) (pa : Nat) :
    t.classDef (t.partOf s.g) (t.clsOf pa) = s.classDef (s.partOf s.g) (s.clsOf pa) := by rw [a.frame.rest]; rfl

/-! ### A far word whose pieces all pass -/

theorem farPass_ok {ps : List (Nat × Int)} {f : Nat × Int → FarRes} {P : Nat → List Nat} {H : Nat → Bool}
    (h : ∀ p ∈ ps, f p = .ok (P p.1) (H p.1)) : farPass (ps.map fun p => (f p, p.2)) = .ok (ps.map fun p => (P p.1, H p.1)) := by
  induction ps with
  | nil => rfl
  | cons p ps ih =>
    obtain ⟨hp, hps⟩ := List.forall_mem_cons.1 h
    rw [List.map_cons, hp, farPass, ih hps]
    rfl

/-- A far word whose pieces pass goes on, in a state that its translation alone has changed, with the bytes of each. -/
theorem withFar_all {s : State} {ps : List (Nat × Int)} {len align : Nat} {k : Acc} {op : Option Atom} {P : Nat → List Nat}
    {H : Nat → Bool} (h : ∀ p ∈ ps, FarOk s p.2 len align k op (P p.1) (H p.1)) :
    ∃ u, Translates s u ∧ ∀ next, withFar ps len align k op next s = next (ps.map fun p => (P p.1, H p.1)) u := by
  have passes : farPass (ps.map fun p => (s.farOne s.g p.2 len align k op, p.2)) = .ok (ps.map fun p => (P p.1, H p.1)) :=
    farPass_ok fun p hp => (h p hp).1
  have free : (ps.find? fun p => (s.core s.g.core).lockedFar s.g.enc p.2.toNat len (k = .store || k = .atomic)) = none :=
    List.find?_eq_none.2 fun p hp => by rw [(h p hp).2]; simp
  refine ⟨s.translated s.g (((ps.zip (ps.map fun p => (P p.1, H p.1))).filter fun x => !x.2.2).flatMap fun x =>
    [x.1.2.toNat, x.1.2.toNat + len - 1]) k, (Translates.refl s).translated, fun next => ?_⟩
  unfold withFar
  dsimp only
  rw [passes]
  dsimp only
  rw [free]

/-! ### Requests -/

theorem moreLd_arch (g : Group) (l : List Req) : ({ g.modP fun p => { p with ld := p.ld + 1 } with reqs := l } : Group).arch =
    (Group.moreLd { g with reqs := l }).arch := by
  unfold Group.arch Group.moreLd Group.modP Group.setP Group.p
  cases hc : g.curF <;> simp [Group.setPath, Group.path, hc]

/-- What joining the outstanding requests does to the group of a path slot. -/
def Group.asking (g : Group) (r : Req) (counted : Bool) : Group :=
  { (if counted then g.modP fun p => { p with ld := p.ld + 1 } else g) with reqs := g.reqs ++ [r] }

theorem Group.asking_arch (g : Group) (r : Req) (counted : Bool) :
    (g.asking r counted).arch = ((if counted then Group.moreLd else id) { g with reqs := g.reqs ++ [r] }).arch := by
  cases counted
  · rfl
  · exact moreLd_arch g _

theorem Group.asking_regs (g : Group) (r : Req) (counted : Bool) : SameRegs g (g.asking r counted) := by
  have sent (h : Group) : SameRegs h { h with reqs := g.reqs ++ [r] } := ⟨rfl, rfl, rfl, rfl, rfl, rfl, fun b => by cases b <;> rfl⟩
  cases counted
  · exact sent g
  · exact (sameRegs_modP g (fun p => { p with ld := p.ld + 1 }) fun _ => rfl).trans (sent _)

theorem Group.asking_fpf (g : Group) (r : Req) (counted : Bool) : (g.asking r counted).fpf = g.fpf := by
  cases counted
  · rfl
  · exact fpf_modP g fun p => { p with ld := p.ld + 1 }

/-- A word that sends a request and then retires. -/
theorem send_sends {s u : State} {retire : State → State} (a : Translates s u) (hr : ∀ v, NoEffect v (retire v)) {r : Req}
    {rs : List (List Nat × Bool)} {counted : Bool} {ok : Req → Prop}
    (hok : ∀ n c k, ok { r with seq := n, col := c, port := k, sent := 0 }) (hp : r.pathF = s.g.curF) (hd : r.data = none) :
    Sends s (if counted then Group.moreLd else id) ok (retire (u.send r rs counted)) := by
  obtain ⟨group, frame⟩ := a.takeColour (rs := rs)
  obtain ⟨q, hq, sent⟩ : ∃ q, (ok q ∧ q.pathF = s.g.curF ∧ q.data = none) ∧
      (u.send r rs counted).g = (u.takeColour rs).1.g.asking q counted := ⟨_, ⟨hok _ _ _, hp, hd⟩, rfl⟩
  obtain ⟨holds, path, waiting⟩ := hq
  obtain ⟨scalars, vectors, flags, stays⟩ := hr (u.send r rs counted)
  rw [group] at sent
  rw [sent] at scalars vectors flags
  refine ⟨q, holds, path, waiting, stays.group.trans (by rw [sent]; exact s.g.asking_arch q counted),
    ⟨fun x => (scalars x).trans ((s.g.asking_regs q counted).sr x), fun x => (vectors x).trans ((s.g.asking_regs q counted).vr x),
      flags.trans (s.g.asking_fpf q counted)⟩, ?_⟩
  have asks : FarFrame (u.takeColour rs).1 (u.send r rs counted) := farFrame_of_cores rfl fun _ => rfl
  exact (frame.trans asks).trans (farFrame_noEffect (hr (u.send r rs counted)))

/-- A hold changes nothing but clocks. -/
theorem hold_holds {s u : State} (a : Translates s u) (leaf : Nat) : Holds s (u.hold leaf) := by
  have q : Quiet u ((u.spend leaf (max 1 ((u.core u.g.core).slot u.g.slot).lag)).modCore u.g.core fun c =>
      c.modSlot u.g.slot fun x => { x with holds := some leaf }) := by
    refine (quiet_spend _ _ _).trans (quiet_modCore _ _ _ fun k => Core.arch_modSlot k _ _ fun x => rfl)
  obtain ⟨group, frame⟩ := a.quiet q
  have held : (u.hold leaf).g = s.g := group
  refine ⟨rfl, ⟨fun r => by rw [held], fun r => by rw [held], by rw [held]⟩, by rw [held], by rw [held], ?_⟩
  exact frame.trans (farFrame_of_cores rfl fun _ => rfl)

/-! ### Loads -/

/-- The lanes of a load's request. -/
theorem loadElems (ps : List (Nat × Int)) (P : Nat → List Nat) (H : Nat → Bool) :
    ((ps.zip (ps.map fun p => (P p.1, H p.1))).map fun x => ({ lane := x.1.1, va := x.1.2.toNat, pas := x.2.1 } : Elem)) =
      ps.map fun p => { lane := p.1, va := p.2.toNat, pas := P p.1 } := by
  induction ps with
  | nil => rfl
  | cons p ps ih => exact congrArg _ ih

/-- A load whose pieces pass leaves as one request with all of them. -/
theorem farLoad_sends {s : State} {ps : List (Nat × Int)} {vec signed near : Bool} {dst : RLoc} {size align : Nat}
    {retire : State → State} {P : Nat → List Nat} {H : Nat → Bool}
    (h : ∀ p ∈ ps, FarOk s p.2 size align .load none (P p.1) (H p.1)) (hl : s.g.p.ld < 63) (hr : ∀ v, NoEffect v (retire v)) :
    ∃ t, farLoad ps vec dst size align signed near retire s = .next t ∧ Sends s Group.moreLd (fun q => q.vec = vec ∧ q.dst = dst ∧
      q.size = size ∧ q.signed = signed ∧ q.near = near ∧ q.pf = false ∧ q.atom = none ∧
      q.elems = ps.map fun p => { lane := p.1, va := p.2.toNat, pas := P p.1 }) t := by
  obtain ⟨u, a, goes⟩ := withFar_all h
  refine ⟨_, (goes _).trans ((if_neg (by rw [a.group]; omega)).trans rfl), ?_⟩
  exact send_sends (counted := true) a hr (fun _ _ _ => ⟨rfl, rfl, rfl, rfl, rfl, rfl, rfl, loadElems ps P H⟩)
    (congrArg (·.curF) a.group) rfl

theorem farLoad_full {s : State} {ps : List (Nat × Int)} {vec signed near : Bool} {dst : RLoc} {size align : Nat}
    {retire : State → State} {P : Nat → List Nat} {H : Nat → Bool}
    (h : ∀ p ∈ ps, FarOk s p.2 size align .load none (P p.1) (H p.1)) (hl : 63 ≤ s.g.p.ld) :
    ∃ t, farLoad ps vec dst size align signed near retire s = .next t ∧ Holds s t := by
  obtain ⟨u, a, goes⟩ := withFar_all h
  exact ⟨_, (goes _).trans (if_pos (by rw [a.group]; exact hl)), hold_holds a _⟩

theorem sizeOf_pow (z : BitVec 2) : sizeOf z.toNat = 2 ^ z.toNat := by
  revert z
  decide

end Sys2Proof.Machine

namespace Sys2Proof.Proofs

open Sys2Proof Sys2Proof.Machine

/-- A scalar load's one piece. -/
theorem scalarLoad_sends {i : Instr} {s : State} {d b : Reg} {z : BitVec 2} {o : BitVec 10} {signed near : Bool} {pas : List Nat}
    {heap : Bool} (hi : exec i s = farLoadS d b z o signed near s)
    (h : FarOk s (s.g.ea b o (2 ^ z.toNat)) (2 ^ z.toNat) (2 ^ z.toNat) .load none pas heap) (hl : s.g.p.ld < 63) :
    Completes i s (Sends s Group.moreLd fun q => q.vec = false ∧ q.dst = s.g.loc d ∧ q.size = 2 ^ z.toNat ∧ q.signed = signed ∧
      q.near = near ∧ q.pf = false ∧ q.atom = none ∧ q.elems = [{ lane := 0, va := (s.g.ea b o (2 ^ z.toNat)).toNat, pas := pas }]) := by
  obtain ⟨t, ht, sends⟩ := farLoad_sends (ps := onePiece (s.g.ea b o (2 ^ z.toNat))) (vec := false) (signed := signed) (near := near)
    (dst := s.g.loc d) (P := fun _ => pas) (H := fun _ => heap) (retire := State.retire 1)
    (fun p hp => by rw [List.mem_singleton.1 hp]; exact h) hl (retire_noEffect 1)
  refine ⟨t, hi.trans ?_, sends⟩
  rw [farLoadS, sizeOf_pow]
  exact ht

/-- A scalar load whose LD is full holds its slot. -/
theorem scalarLoad_holds {s : State} {d b : Reg} {z : BitVec 2} {o : BitVec 10} {pas : List Nat} {heap : Bool}
    (h : FarOk s (s.g.ea b o (2 ^ z.toNat)) (2 ^ z.toNat) (2 ^ z.toNat) .load none pas heap) (hl : 63 ≤ s.g.p.ld) :
    Completes (.fLds d b z o) s (Holds s) := by
  obtain ⟨t, ht, holds⟩ := farLoad_full (ps := onePiece (s.g.ea b o (2 ^ z.toNat))) (vec := false) (signed := true) (near := true)
    (dst := s.g.loc d) (P := fun _ => pas) (H := fun _ => heap) (retire := State.retire 1)
    (fun p hp => by rw [List.mem_singleton.1 hp]; exact h) hl
  refine ⟨t, ?_, holds⟩
  show farLoadS d b z o true true s = _
  rw [farLoadS, sizeOf_pow]
  exact ht

/-- A vector load leaves with one element for each active lane. -/
theorem vectorLoad_sends {s : State} {ea : Nat → Int} {d : Reg} {size : Nat} {signed : Bool} {P : Nat → List Nat} {H : Nat → Bool}
    (h : ∀ i ∈ s.g.lanes, FarOk s (ea i) size size .load none (P i) (H i)) (hl : s.g.p.ld < 63) :
    ∃ t, farLoad (s.g.lanes.map fun i => (i, ea i)) true (s.g.vloc d) size size signed true (State.retireV 3) s = .next t ∧
      Sends s Group.moreLd (fun q => q.vec = true ∧ q.dst = s.g.vloc d ∧ q.size = size ∧ q.signed = signed ∧ q.near = true ∧
        q.pf = false ∧ q.atom = none ∧ q.elems = s.g.lanes.map fun i => { lane := i, va := (ea i).toNat, pas := P i }) t := by
  obtain ⟨t, ht, sends⟩ := farLoad_sends (ps := s.g.lanes.map fun i => (i, ea i)) (vec := true) (signed := signed) (near := true)
    (dst := s.g.vloc d) (P := P) (H := H) (retire := State.retireV 3)
    (fun p hp => by obtain ⟨i, hi, rfl⟩ := List.mem_map.1 hp; exact h i hi) hl (retireV_noEffect 3)
  rw [List.map_map] at sends
  exact ⟨t, ht, sends⟩

theorem withLanes_none {s : State} {f : Nat → Int} {k : State → Out} (h : s.g.lanes = []) :
    ∃ t, withLanes (s.g.lanes.map fun i => (i, f i)) k s = .next t ∧ NoEffect s t :=
  ⟨_, if_pos (by rw [h]; rfl), retireV_noEffect 3 s⟩

theorem withLanes_some {s : State} {f : Nat → Int} {k : State → Out} (h : s.g.lanes ≠ []) :
    withLanes (s.g.lanes.map fun i => (i, f i)) k s = k s :=
  if_neg (by simp [h])

/-! ### Prefetches -/

/-- A prefetch that fails a check is dropped. -/
theorem prefetch_bad {i : Instr} {s : State} {size : Nat} {h : BitVec 1} {b : Reg} {o : BitVec 10} {c : Code}
    (hi : exec i s = prefetch size h b o s)
    (hc : s.farCheck s.g (s.g.ea b o size - s.g.ea b o size % size) size .load none = .bad c) :
    Completes i s fun t => SameRegisters s t ∧ GoesOn s t ∧ t.g.arch = s.g.arch ∧ FarFrame s t := by
  have a : Translates s (s.clearWalks s.g) := (Translates.refl s).clearWalks
  have e := retire_noEffect 1 (s.clearWalks s.g)
  refine ⟨_, hi.trans ?_, ⟨e.scalars, e.vectors, e.flags⟩, retire_goesOn 1 (s.clearWalks s.g), e.frame.group,
    a.frame.trans (farFrame_noEffect e)⟩
  unfold prefetch
  dsimp only
  rw [hc]

/-- A prefetch whose line may be kept leaves as a request that no counter counts. -/
theorem prefetch_ok {i : Instr} {s : State} {size : Nat} {h : BitVec 1} {b : Reg} {o : BitVec 10} {pas : List Nat} {heap : Bool}
    (hi : exec i s = prefetch size h b o s)
    (hc : s.farCheck s.g (s.g.ea b o size - s.g.ea b o size % size) size .load none = .ok pas heap)
    (hk : ∀ p ∈ pas, ∃ k, s.classDef (s.partOf s.g) (s.clsOf p) = some k ∧ k.ldr.mode ≠ 2 ∧ k.ldr.wpol ≠ 2) :
    Completes i s (Sends s id fun q => q.pf = true ∧ (q.near = true) = (h = 0#1) ∧
      q.elems = [{ lane := 0, va := (s.g.ea b o size - s.g.ea b o size % size).toNat, pas := pas }]) := by
  generalize hv : (if heap then [] else [(s.g.ea b o size - s.g.ea b o size % size).toNat,
    (s.g.ea b o size - s.g.ea b o size % size).toNat + size - 1]) = vas
  have a : Translates s (s.translated s.g vas .load) := (Translates.refl s).translated
  generalize hu : s.translated s.g vas .load = u at a
  have keeps (pa : Nat) (hp : pa ∈ pas) : (match u.classDef (u.partOf s.g) (u.clsOf pa) with
      | some d => decide (d.ldr.mode = 2) || decide (d.ldr.wpol = 2)
      | none => true) = false := by
    obtain ⟨k, hd, mode, wpol⟩ := hk pa hp
    rw [a.classDef, hd]
    simp [mode, wpol]
  refine ⟨_, hi.trans ?_, send_sends (counted := false) a (retire_noEffect 1)
    (r := blankReq s.g false .zero size false (decide (h = 0#1)) true
      [{ lane := 0, va := (s.g.ea b o size - s.g.ea b o size % size).toNat, pas := pas }] none)
    (rs := [(pas, heap)]) (fun _ _ _ => ⟨rfl, decide_eq_true_eq, rfl⟩) rfl rfl⟩
  unfold prefetch
  dsimp only
  rw [hc]
  dsimp only
  rw [hv, hu]
  exact if_neg (by rw [List.any_eq_true]; rintro ⟨pa, hp, dead⟩; exact absurd ((keeps pa hp).symm.trans dead) Bool.false_ne_true)

/-- Settles O26: each load is one request of the pieces that pass; a prefetch is a request that no counter counts. -/
theorem farLoadsIssue : Obligations.FarLoadsIssue := by
  unfold Obligations.FarLoadsIssue
  intro s d a b z o g h e pas heap P H
  refine ⟨fun ok free => ⟨scalarLoad_sends rfl ok free, scalarLoad_sends rfl ok free, scalarLoad_sends rfl ok free⟩, scalarLoad_holds,
    fun some row ok free => ?row, fun _ some ok free => ?indexed, fun none => ⟨withLanes_none none, withLanes_none none⟩,
    ⟨fun c => prefetch_bad rfl, prefetch_ok rfl⟩, ⟨fun c => prefetch_bad rfl, prefetch_ok rfl⟩⟩
  case row =>
    obtain ⟨t, ht, sends⟩ := vectorLoad_sends (d := d) (signed := false) ok free
    exact ⟨t, (withLanes_some some).trans ((if_neg fun hh => hh.2 row).trans ht), sends⟩
  case indexed =>
    obtain ⟨t, ht, sends⟩ := vectorLoad_sends (d := d) (signed := g = 1#1) ok free
    exact ⟨t, (withLanes_some some).trans ht, sends⟩

end Sys2Proof.Proofs
end

section
/-! PROOFS. What fetching a word leaves (01 R21): the walks of the group's fetches end, the translation's order is kept, and a line that the
near cache lacks is filled. -/

namespace Sys2Proof.Machine

theorem State.die_modDie (s : State) (d : Nat) (f : Die → Die) (k : Nat) :
    (s.modDie d f).die k = if k = d then f (s.die d) else s.die k := smGet_smSet _ _ _ _ _

/-! ### The checks of a fetch do not look at what its start changes -/

/-- The walks and the place of the group's fetch are gone. -/
def State.fetchStart (s : State) : State :=
  (s.modDie (dieOfCore s.g.core) fun d => { d with walks := d.walks.filter fun w => !(w.gid = s.g.gid && w.kind = .fetch) }).modGroup
    s.g.gid fun g => { g with fetchAt := none }

theorem State.fetchStart_eq (s : State) : s.fetchStart =
    let u := s.modDie (dieOfCore s.g.core) fun d => { d with walks := d.walks.filter fun w => !(w.gid = s.g.gid && w.kind = .fetch) }
    if s.g.gid = 0 then u else u.modG fun g => { g with fetchAt := none } := by
  unfold State.fetchStart State.modGroup State.group
  rw [State.modDie_g, if_pos rfl]
  by_cases h : s.g.gid = 0
  · rw [if_pos h, if_pos h]
  · rw [if_neg h, if_neg h]
    exact if_pos rfl

theorem State.fetchStart_die (s : State) (d : Nat) : s.fetchStart.die d =
    { s.die d with
      walks := if d = dieOfCore s.g.core then (s.die d).walks.filter fun w => !(w.gid = s.g.gid && w.kind = .fetch) else (s.die d).walks } := by
  have started : s.fetchStart.die d = (s.modDie (dieOfCore s.g.core) fun d =>
      { d with walks := d.walks.filter fun w => !(w.gid = s.g.gid && w.kind = .fetch) }).die d := by
    rw [State.fetchStart_eq]
    dsimp only
    split <;> rfl
  rw [started, State.die_modDie]
  split
  · next h => rw [h]
  · rfl

theorem State.fetchStart_rest (s : State) :
    s.fetchStart = { s with dies := s.fetchStart.dies, g := { s.g with fetchAt := s.fetchStart.g.fetchAt } } := by
  rw [State.fetchStart_eq]
  dsimp only
  split <;> rfl

theorem State.fetchStart_fetchAt {s : State} (h : s.g.gid ≠ 0) : s.fetchStart.g.fetchAt = none := by
  rw [State.fetchStart_eq]
  dsimp only
  rw [if_neg h]
  rfl

theorem tlbFor_congr {s t : State} {core enc va : Nat} {k : Acc} (he : t.encs = s.encs) (hc : t.cores = s.cores)
    (hd : ∀ d, (t.die d).llt = (s.die d).llt) : t.tlbFor core enc va k = s.tlbFor core enc va k := by
  unfold State.tlbFor State.encl State.core
  rw [he, hc, hd]

/-- Where every page is translated, no walk's outcome is asked for. -/
theorem pagedBy_ok {s : State} {enc : Nat} {find : Nat → Option Tlb} {fail fail' : Nat → Option Code} {vas pas : List Nat} {k : Acc}
    {b : Bool} (h : s.pagedBy enc find fail vas k = .ok pas b) : s.pagedBy enc find fail' vas k = .ok pas b := by
  unfold State.pagedBy at h ⊢
  dsimp only at h ⊢
  split at h
  · next r hr =>
    obtain ⟨p, -, hp⟩ := List.exists_of_findSome?_eq_some hr
    rw [h] at hp
    split at hp
    · next t _ => cases ht : t.check k <;> simp [ht] at hp
    · split at hp <;> cases hp
  · next found =>
    rw [List.findSome?_eq_none_iff] at found
    split
    · next r hr =>
      obtain ⟨p, hp, hr⟩ := List.exists_of_findSome?_eq_some hr
      have hf := found p hp
      cases ht : find p with
      | some t => rw [ht] at hf hr; exact absurd (hf.symm.trans hr) (by simp)
      | none => rw [ht] at hf; dsimp only at hf; split at hf <;> cases hf
    · exact h

/-- The checks pass by another way of paging that passes where the first does. -/
theorem farCheckBy_ok {s : State} {paged paged' : List Nat → FarRes} {g : Group} {ea : Int} {len : Nat} {k : Acc} {a : Option Atom}
    {pas : List Nat} {b : Bool} (hp : ∀ vas, paged vas = .ok pas b → paged' vas = .ok pas b)
    (h : s.farCheckBy paged g ea len k a = .ok pas b) : s.farCheckBy paged' g ea len k a = .ok pas b := by
  unfold State.farCheckBy at h ⊢
  split at h
  · cases h
  next inside =>
  rw [if_neg inside]
  dsimp only at h ⊢
  split at h
  · next heap => rw [if_pos heap]; exact h
  next heap =>
  rw [if_neg heap]
  split at h
  · cases h
  next below =>
  rw [if_neg below]
  split at h
  · cases h
  next leased =>
  rw [if_neg leased]
  split at h
  · cases h
  next moded =>
  rw [if_neg moded]
  exact hp _ h

/-- A fetch that passes still passes when its walks have ended. -/
theorem farCheck_fetchStart {s : State} {va : Int} {len : Nat} {k : Acc} {a : Option Atom} {pas : List Nat} {b : Bool}
    (h : s.farCheck s.g va len k a = .ok pas b) : s.fetchStart.farCheck s.g va len k a = .ok pas b := by
  have start := s.fetchStart_rest
  have tlb (v : Nat) : s.fetchStart.tlbFor s.g.core s.g.enc v k = s.tlbFor s.g.core s.g.enc v k :=
    tlbFor_congr (by rw [start]) (by rw [start]) fun d => by rw [State.fetchStart_die]
  have same (f : List Nat → FarRes) : s.fetchStart.farCheckBy f s.g va len k a = s.farCheckBy f s.g va len k a := by rw [start]; rfl
  have paged (find : Nat → Option Tlb) (fail : Nat → Option Code) (vas : List Nat) :
      s.fetchStart.pagedBy s.g.enc find fail vas k = s.pagedBy s.g.enc find fail vas k := by rw [start]; rfl
  unfold State.farCheck
  rw [same]
  refine farCheckBy_ok (fun vas hv => ?_) h
  unfold State.pagedRes at hv ⊢
  rw [paged, funext tlb]
  exact pagedBy_ok hv

/-! ### A fetch in the near cache -/

/-- From `s` to `t` a word has been fetched whose line the near cache holds. -/
structure FetchHits (s t : State) : Prop where
  rest : t = { s with cores := t.cores, dies := t.dies, g := { s.g with fetchAt := t.g.fetchAt } }
  done : s.g.gid ≠ 0 → t.g.fetchAt = none
  die : ∀ d, t.die d = { s.die d with walks := (t.die d).walks, llt := (t.die d).llt }
  walks : ∀ d, ∀ x ∈ (s.die d).walks, x.gid ≠ s.g.gid ∨ x.kind ≠ .fetch → x ∈ (t.die d).walks
  cores : ∀ c, (t.core c).pool = (s.core c).pool ∧ (t.core c).tagSet = (s.core c).tagSet ∧ (t.core c).rows = (s.core c).rows ∧
    (t.core c).trace = (s.core c).trace

theorem fetchStart_hits (s : State) : FetchHits s s.fetchStart where
  rest := by
    have cores : s.fetchStart.cores = s.cores := by rw [s.fetchStart_rest]
    rw [cores]
    exact s.fetchStart_rest
  done := State.fetchStart_fetchAt
  die d := by rw [State.fetchStart_die]
  walks d x hx hk := by
    rw [State.fetchStart_die]
    dsimp only
    split
    · exact List.mem_filter.2 ⟨hx, by simpa [or_iff_not_imp_left] using hk⟩
    · exact hx
  cores c := by rw [s.fetchStart_rest]; exact ⟨rfl, rfl, rfl, rfl⟩

theorem FetchHits.modCore {s t : State} {c : Nat} {f : Core → Core} (a : FetchHits s t) (hf : (f (t.core c)).pool = (t.core c).pool ∧
    (f (t.core c)).tagSet = (t.core c).tagSet ∧ (f (t.core c)).rows = (t.core c).rows ∧ (f (t.core c)).trace = (t.core c).trace) :
    FetchHits s (t.modCore c f) := by
  refine ⟨?_, a.done, a.die, a.walks, fun k => ?_⟩
  · have h := a.rest
    rw [h]
    rfl
  · rw [State.core_modCore]
    split
    · next h =>
      subst h
      obtain ⟨pool, tags, rows, trace⟩ := a.cores k
      obtain ⟨pool', tags', rows', trace'⟩ := hf
      exact ⟨pool'.trans pool, tags'.trans tags, rows'.trans rows, trace'.trans trace⟩
    · exact a.cores k

/-- A die whose order of translations alone changes. -/
theorem FetchHits.modLlt {s t : State} {d : Nat} {f : Die → List Tlb} (a : FetchHits s t) :
    FetchHits s (t.modDie d fun x => { x with llt := f x }) := by
  refine ⟨?_, a.done, fun k => ?_, fun k x hx hk => ?_, a.cores⟩
  · have h := a.rest
    rw [h]
    rfl
  · rw [State.die_modDie]
    split
    · next h => subst h; rw [a.die k]
    · exact a.die k
  · rw [State.die_modDie]
    split
    · next h => subst h; exact a.walks k x hx hk
    · exact a.walks k x hx hk

theorem FetchHits.refill {s t : State} {g : Group} {va : Nat} {k : Acc} (a : FetchHits s t) : FetchHits s (t.refill g va k) := by
  unfold State.refill
  split
  · exact a
  · exact (a.modCore ⟨rfl, rfl, rfl, rfl⟩).modLlt

theorem refill_near {s : State} {g : Group} {va : Nat} {k : Acc} (c : Nat) : ((s.refill g va k).core c).near = (s.core c).near := by
  unfold State.refill
  split
  · rfl
  · next t _ =>
    show ((s.modCore g.core fun c => { c with l1 := (t :: c.l1.filter (· ≠ t)).take 64 }).core c).near = _
    rw [State.core_modCore]
    split
    · next h => rw [h]
    · rfl

/-- The port's count looks at the near cache alone. -/
theorem portCount_near {s t : State} {c enc : Nat} {near : Bool} {pas : List Nat} (h : (t.core c).near = (s.core c).near) :
    t.portCount c enc near pas = s.portCount c enc near pas := by
  unfold State.portCount Core.nearLine
  rw [h]

/-- The port and the near cache after a fetch from a line: the line is the most recently used, or a miss takes a token and fills it. -/
def State.fetchLine (s : State) (g : Group) (pa : Nat) : State :=
  if s.portCount g.core g.enc true [pa] = 0 then s.modCore g.core fun c =>
    match c.nearLine g.enc pa with
    | some l => c.nearPut l
    | none => c
  else (((s.event g 0x0200 0x1F 1).lookupEvent g (s.partOf g) pa).modCore g.core fun c =>
    (c.takeToken (s.viOf g.enc)).waitOver (g.fetchAt.getD 0)).nearFill g.core g.enc (s.partOf g) pa

/-- The page's entry after a fetch through the heap or through the page tables. -/
def State.fetchPage (s : State) (g : Group) (va : Nat) (heap : Bool) : State := if heap then s else s.refill g va .fetch

/-- A fetch starts; where it passes, the page and then the line are used. -/
theorem fetched_eq (s : State) (va : Nat) : s.fetched s.g va = match s.fetchStart.farCheck s.g va 4 .fetch none with
    | .ok (pa :: _) heap => (s.fetchStart.fetchPage s.g va heap).fetchLine s.g pa
    | _ => s.fetchStart := rfl

theorem FetchHits.fetchPage {s t : State} {g : Group} {va : Nat} {heap : Bool} (a : FetchHits s t) : FetchHits s (t.fetchPage g va heap) := by
  unfold State.fetchPage
  split
  · exact a
  · exact a.refill

theorem fetchPage_near {s : State} {g : Group} {va : Nat} {heap : Bool} (c : Nat) :
    ((s.fetchPage g va heap).core c).near = (s.core c).near := by
  unfold State.fetchPage
  split
  · rfl
  · exact refill_near c

/-- A fetch that passes and whose line the near cache holds changes the caches, the translation's order and the group's walks alone. -/
theorem fetched_hits {s : State} {va : Nat} {pas : List Nat} {b : Bool} (hc : s.farCheck s.g va 4 .fetch none = .ok pas b)
    (hp : s.portCount s.g.core s.g.enc true (pas.take 1) = 0) : FetchHits s (s.fetched s.g va) := by
  have started := fetchStart_hits s
  rw [fetched_eq, farCheck_fetchStart hc]
  cases pas with
  | nil => exact started
  | cons pa rest =>
    have near : ((s.fetchStart.fetchPage s.g va b).core s.g.core).near = (s.core s.g.core).near :=
      (fetchPage_near _).trans (by rw [s.fetchStart_rest]; rfl)
    have hit : (s.fetchStart.fetchPage s.g va b).portCount s.g.core s.g.enc true [pa] = 0 := (portCount_near near).trans hp
    dsimp only
    unfold State.fetchLine
    rw [if_pos hit]
    refine started.fetchPage.modCore ?_
    split <;> exact ⟨rfl, rfl, rfl, rfl⟩

/-! ### Any fetch -/

theorem Marks.modDie {s t : State} {d : Nat} {f : Die → Die} (a : Marks s t) : Marks s (t.modDie d f) := a.same rfl rfl

theorem fetchStart_marks (s : State) : Marks s s.fetchStart := by
  rw [s.fetchStart_rest]
  exact ⟨rfl, fun _ => rfl⟩

theorem Marks.fetchPage {s t : State} {g : Group} {va : Nat} {heap : Bool} (a : Marks s t) : Marks s (t.fetchPage g va heap) := by
  unfold State.fetchPage State.refill
  split
  · exact a
  split
  · exact a
  · exact Marks.modDie (a.modCore rfl)

theorem Marks.svtSee {s t : State} {part die pa : Nat} {p : Party} (a : Marks s t) : Marks s (t.svtSee part die pa p) := by
  unfold State.svtSee State.svtRecord
  split
  · exact a.modDie
  · exact a

theorem Marks.nearFill {s t : State} {core enc part pa : Nat} (a : Marks s t) : Marks s (t.nearFill core enc part pa) := by
  unfold State.nearFill
  split
  · exact a.modCore rfl
  · exact a.serveLoad.svtSee.modCore rfl

theorem quiet_lookupEvent (s : State) (g : Group) (part pa : Nat) : Quiet s (s.lookupEvent g part pa) := by
  unfold State.lookupEvent
  dsimp only
  split
  · exact quiet_event _ _ _ _ _
  · exact quiet_event _ _ _ _ _
  · split
    · exact quiet_event _ _ _ _ _
    · exact Quiet.refl s

theorem Marks.fetchLine {s t : State} {g : Group} {pa : Nat} (a : Marks s t) : Marks s (t.fetchLine g pa) := by
  unfold State.fetchLine
  split
  · refine a.modCore ?_
    split <;> rfl
  · exact (((a.quiet (quiet_event _ _ _ _ _)).quiet (quiet_lookupEvent _ _ _ _)).modCore rfl).nearFill

/-- What any fetch leaves of the group and the pools. -/
theorem fetched_marks (s : State) (va : Nat) : Marks s (s.fetched s.g va) := by
  rw [fetched_eq]
  split
  · exact (fetchStart_marks s).fetchPage.fetchLine
  · exact fetchStart_marks s

end Sys2Proof.Machine
end

section
/-! PROOFS. Splits and joins, O12. -/

namespace Sys2Proof.Machine

/-! ### Registers that are no mask words -/

/-- Two groups whose register files, window and flags are the same. -/
structure SameFile (g h : Group) : Prop where
  sring : h.sring = g.sring
  sfix : h.sfix = g.sfix
  vring : h.vring = g.vring
  vfix : h.vfix = g.vfix
  wpos : h.wpos = g.wpos
  fpf : h.fpf = g.fpf

theorem SameFile.trans {g h k : Group} (a : SameFile g h) (b : SameFile h k) : SameFile g k :=
  ⟨b.sring.trans a.sring, b.sfix.trans a.sfix, b.vring.trans a.vring, b.vfix.trans a.vfix, b.wpos.trans a.wpos, b.fpf.trans a.fpf⟩

theorem SameRegs.sameFile {g h : Group} (a : SameRegs g h) (hf : h.fpf = g.fpf) : SameFile g h :=
  ⟨a.sring, a.sfix, a.vring, a.vfix, a.wpos, hf⟩

theorem sameFile_modP (g : Group) (f : PathState → PathState) : SameFile g (g.modP f) :=
  ⟨by simp, by simp, by simp, by simp, by simp, by simp⟩

theorem sameFile_advance (g : Group) : SameFile g g.advance := (sameRegs_advance g).sameFile (fpf_advance g)

theorem SameFile.sr {g h : Group} (a : SameFile g h) (r : Reg) (hr : r.toNat < 60) : h.sr r = g.sr r := by
  rcases Nat.lt_or_ge r.toNat 48 with ring | fix
  · rw [h.sr_ring r ring, g.sr_ring r ring, a.sring, a.wpos]
  · rw [h.sr_fix r fix hr, g.sr_fix r fix hr, a.sfix]

theorem SameFile.vr {g h : Group} (a : SameFile g h) (r : Reg) : h.vr r = g.vr r := by
  unfold Group.vr Group.vloc
  rw [a.wpos]
  unfold Group.vrd
  split <;> simp [a.vring, a.vfix]

/-! ### What marks leave of the paths -/

theorem Marks.path {s t : State} (a : Marks s t) (b : Bool) : t.g.path b = { s.g.path b with mon := (t.g.path b).mon } := by
  rw [a.group]
  cases b <;> rfl

theorem Marks.regs {s t : State} (a : Marks s t) : SameRegs s.g t.g := by
  rw [a.group]
  exact ⟨rfl, rfl, rfl, rfl, rfl, rfl, fun b => by cases b <;> rfl⟩

theorem Marks.p {s t : State} (a : Marks s t) : t.g.p = { s.g.p with mon := t.g.p.mon } := by
  unfold Group.p
  rw [a.regs.curF]
  exact a.path _

theorem Marks.nextHeader {s t : State} (a : Marks s t) : t.g.nextHeader = s.g.nextHeader := by
  unfold Group.nextHeader Group.clauseLen Group.header
  rw [a.p]

theorem Marks.triple {s t : State} (a : Marks s t) (d : Reg) : t.g.triple d = s.g.triple d := by
  unfold Group.triple
  rw [a.regs.sr, a.regs.sr, a.regs.sr]

/-! ### Splits (05 R113, R114) -/

/-- The split's word retires into the group `g'`, at a run boundary. -/
def State.splitTo (s : State) (i : BitVec 19) (c : Mask) (nested : Prop) [Decidable nested] (g' : Group) : State :=
  let u := s.emitPacket s.g (packet 4 s.g.curF (s.g.p.cwi + 1) s.g.ident s.g.p.pc.toNat (s.g.p.mask &&& c)
    (i.toNat + g'.p.stack.length * 2 ^ 19 + b2n nested * 2 ^ 23))
  (u.spendWord u.g.vleaf 3).modG fun _ =>
    { g'.boundary with y := s.g.y || (s.g.header.map Header.y).getD false, lastPh := (s.g.header.map Header.ph).getD 0 }

/-- Where the F side of a split begins. -/
def splitEntry (j : VAddr) (h : Header) : VAddr := j + BitVec.ofNat 57 (4 * (h.n + 1))

theorem joinHeader_none {s : State} {j : VAddr} {w : W32} (hw : s.fetchWord s.g j.toNat = .word w) (hd : decodeHeader w = none) :
    s.joinHeader j = .error (s.takeFault .illegalClause (j.setWidth 64)) := by
  unfold State.joinHeader
  rw [hw]
  dsimp only
  rw [hd]

theorem joinHeader_some {s : State} {j : VAddr} {w : W32} {h : Header} (hw : s.fetchWord s.g j.toNat = .word w)
    (hd : decodeHeader w = some h) : s.joinHeader j = .ok h.n := by
  unfold State.joinHeader
  rw [hw]
  dsimp only
  rw [hd]

theorem vSplit_none {s : State} {d : Reg} {i : BitVec 19} {w : W32} (hw : s.fetchWord s.g (s.g.rel i).toNat = .word w)
    (hd : decodeHeader w = none) : exec (.vSplit d i) s = .next (s.takeFault .illegalClause ((s.g.rel i).setWidth 64)) := by
  show execVSplit d i s = _
  unfold execVSplit
  dsimp only
  rw [joinHeader_none hw hd]

/-- A split whose header is read. -/
theorem vSplit_eq {s : State} {d : Reg} {i : BitVec 19} {w : W32} {h : Header} (hw : s.fetchWord s.g (s.g.rel i).toNat = .word w)
    (hd : decodeHeader w = some h) : exec (.vSplit d i) s =
      let u := s.fetched s.g (s.g.rel i).toNat
      let nested := (u.g.path (!u.g.curF)).stat ≠ .free
      if nested ∧ 8 ≤ u.g.p.stack.length then .next (u.takeFault .splitDepth ((s.g.rel i).setWidth 64))
      else .next (u.splitTo i (u.g.triple d) nested (if nested
        then u.g.pushNested (s.g.rel i) u.g.nextHeader (splitEntry (s.g.rel i) h) (u.g.triple d)
        else u.g.topSplit (s.g.rel i) u.g.nextHeader (splitEntry (s.g.rel i) h) (u.g.triple d))) := by
  show execVSplit d i s = _
  unfold execVSplit
  dsimp only
  rw [joinHeader_some hw hd]
  rfl

theorem quiet_splitting (s : State) (p : List Word) (n : Nat) : Quiet s ((s.emitPacket s.g p).spendWord n 3) :=
  (quiet_emitPacket _ _ _).trans (quiet_spendWord _ _ _)

theorem State.splitTo_mem (s : State) (i : BitVec 19) (c : Mask) (nested : Prop) [Decidable nested] (g' : Group) :
    (s.splitTo i c nested g').mem = s.mem := (quiet_splitting s _ _).mem

theorem State.splitTo_pool (s : State) (i : BitVec 19) (c : Mask) (nested : Prop) [Decidable nested] (g' : Group) (k : Nat) :
    ((s.splitTo i c nested g').core k).pool = (s.core k).pool := (quiet_splitting s _ _).pool k

/-- What every split leaves: the registers, the pools, and memory where the near cache holds the header at `va`. -/
def SplitLeaves (s : State) (va : Nat) (pas : List Nat) (b : Bool) (t : State) : Prop :=
  (∀ r : Reg, r.toNat < 60 → t.g.sr r = s.g.sr r) ∧ (∀ r, t.g.vr r = s.g.vr r) ∧ t.g.fpf = s.g.fpf ∧
  t.g.rc = 0 ∧ t.g.runOver = true ∧ t.g.wpos = s.g.wpos ∧
  (∀ k o, memByte (t.core k).pool o = memByte (s.core k).pool o) ∧
  (s.farCheck s.g va 4 .fetch none = .ok pas b → s.portCount s.g.core s.g.enc true (pas.take 1) = 0 →
    ∀ o, memByte t.mem o = memByte s.mem o)

theorem splitTo_leaves {s : State} {va : Nat} {pas : List Nat} {b : Bool} {i : BitVec 19} {c : Mask} {nested : Prop} [Decidable nested]
    {g' : Group} (file : SameFile (s.fetched s.g va).g g') : SplitLeaves s va pas b ((s.fetched s.g va).splitTo i c nested g') := by
  have marks := fetched_marks s va
  have same : SameFile s.g ((s.fetched s.g va).splitTo i c nested g').g :=
    ((marks.regs.sameFile (by rw [marks.group])).trans file).trans ⟨rfl, rfl, rfl, rfl, rfl, rfl⟩
  refine ⟨same.sr, same.vr, same.fpf, rfl, rfl, same.wpos, fun k o => ?_, fun hc hp o => ?_⟩
  · rw [State.splitTo_pool, marks.pools]
  · rw [State.splitTo_mem, (fetched_hits hc hp).rest]

theorem sameFile_pushNested (g : Group) (j te fe : VAddr) (c : Mask) : SameFile g (g.pushNested j te fe c) := by
  unfold Group.pushNested
  exact sameFile_modP _ _
theorem sameFile_topSplit (g : Group) (j te fe : VAddr) (c : Mask) : SameFile g (g.topSplit j te fe c) :=
  ⟨rfl, rfl, rfl, rfl, rfl, rfl⟩

theorem Group.modP_other (g : Group) (f : PathState → PathState) : (g.modP f).path (!g.curF) = g.path (!g.curF) :=
  Group.modPath_other g g.curF f

theorem Group.pushNested_other (g : Group) (j te fe : VAddr) (c : Mask) :
    (g.pushNested j te fe c).path (!g.curF) = g.path (!g.curF) := by
  unfold Group.pushNested
  exact g.modP_other _

/-! ### Joins (05 R115) -/

/-- A nested split turns to its F side. -/
def State.joinTurn (s : State) (e : StackEnt) (rest : List StackEnt) : State :=
  let s := s.spendWord s.g.vleaf 3
  let s := s.modG fun g => g.modP fun p => { p with stack := { e with acc := p.mask, sideF := true } :: rest, mask := e.fmask }
  let s := s.emit s.g 3 15
  s.modG fun g => ({ g.noteHints with rc := g.rc + 1 }.modP fun p =>
    { p with pc := g.nextHeader, cwi := 0, hdr := none, noMatch := false }).boundary

/-- A nested split ends. -/
def State.joinEnd (s : State) (e : StackEnt) (rest : List StackEnt) : State :=
  let s := s.spendWord s.g.vleaf 3
  let s := s.modG fun g => g.modP fun p => { p with stack := rest, mask := e.acc ||| p.mask }
  (s.emit s.g 5 rest.length).modG Group.advance

/-- A top-level split completes. -/
def State.joinAll (s : State) : State :=
  let s := (s.spendWord s.g.vleaf 3).modG Group.completeJoin
  (s.emit s.g 5 0).modG Group.advance

/-- A path waits at its top-level join. -/
def State.joinWait (s : State) : State :=
  (s.spendWord s.g.vleaf 3).modG fun g =>
    { (({ g.noteHints with rc := g.rc + 1 }.modP fun p => { p with stat := .atJoin, hdr := none }).boundary) with firstAt := true }

/-- A join at the header `j` of a split made in the window `w`: elsewhere it is no instruction, in another window it faults. -/
def State.joinAt (s : State) (j w : Nat) (k : Out) : Out :=
  if s.g.p.cwi ≠ 0 ∨ s.g.p.pc.toNat ≠ j then .next (s.faultHere .illegalInstruction)
  else if s.g.wpos ≠ w then .next (s.takeFault .stackOverflow s.g.wsp)
  else k

theorem vJoin_nested {s : State} {e : StackEnt} {rest : List StackEnt} (h : s.g.p.stack = e :: rest) : exec .vJoin s =
    s.joinAt e.join e.wpos (if !e.sideF ∧ e.fmask ≠ 0 then .next (s.joinTurn e rest) else .next (s.joinEnd e rest)) := by
  show execVJoin s = _
  unfold execVJoin
  dsimp only
  rw [h]
  rfl

theorem vJoin_top {s : State} {x : Split} (h : s.g.p.stack = []) (hq : (s.g.path (!s.g.curF)).stat ≠ .free) (hx : s.g.split = some x) :
    exec .vJoin s = s.joinAt x.join x.wpos
      (if (s.g.path (!s.g.curF)).stat = .atJoin ∨ (s.g.path (!s.g.curF)).stat = .ended then
        (if s.g.f.ld ≠ 0 ∨ s.g.f.st ≠ 0 ∨ s.g.f.cp ≠ 0 ∨ s.g.f.tl ≠ 0 ∨ s.g.f.rst ≠ 0 then .next (s.hold s.g.joinLeaf)
         else .next s.joinAll)
       else .next s.joinWait) := by
  show execVJoin s = _
  unfold execVJoin
  dsimp only
  rw [h, hx]
  dsimp only
  rw [if_pos hq]
  rfl

theorem vJoin_none {s : State} (h : s.g.p.stack = []) (hq : (s.g.path (!s.g.curF)).stat = .free) :
    exec .vJoin s = .next (s.faultHere .illegalInstruction) := by
  show execVJoin s = _
  unfold execVJoin
  dsimp only
  rw [h]
  dsimp only
  rw [if_neg (not_not.2 hq)]

theorem joinAt_elsewhere {s : State} {j w : Nat} {k : Out} (h : s.g.p.cwi ≠ 0 ∨ s.g.p.pc.toNat ≠ j) :
    ∃ t, s.joinAt j w k = .next t ∧ Faults s .illegalInstruction s.wordAddr t := ⟨_, if_pos h, takeFault_faults _ _ _⟩

theorem joinAt_window {s : State} {j w : Nat} {k : Out} (hc : s.g.p.cwi = 0) (hj : s.g.p.pc.toNat = j) (hw : s.g.wpos ≠ w) :
    ∃ t, s.joinAt j w k = .next t ∧ Faults s .stackOverflow s.g.wsp t :=
  ⟨_, (if_neg (by simp [hc, hj])).trans (if_pos hw), takeFault_faults _ _ _⟩

theorem joinAt_joins {s : State} {j w : Nat} {k : Out} (hc : s.g.p.cwi = 0) (hj : s.g.p.pc.toNat = j) (hw : s.g.wpos = w) :
    s.joinAt j w k = k := (if_neg (by simp [hc, hj])).trans (if_neg (not_not.2 hw))

/-! ### What a join leaves -/

/-- Registers but the mask words, flags, memory and pools stand. -/
structure Leaves (s t : State) : Prop where
  file : SameFile s.g t.g
  mem : t.mem = s.mem
  pools : ∀ c, (t.core c).pool = (s.core c).pool

theorem Leaves.refl (s : State) : Leaves s s := ⟨⟨rfl, rfl, rfl, rfl, rfl, rfl⟩, rfl, fun _ => rfl⟩
theorem Leaves.quiet {s t u : State} (a : Leaves s t) (q : Quiet t u) : Leaves s u :=
  ⟨by rw [q.g]; exact a.file, q.mem.trans a.mem, fun c => (q.pool c).trans (a.pools c)⟩
theorem Leaves.spendWord {s t : State} {n k : Nat} (a : Leaves s t) : Leaves s (t.spendWord n k) := a.quiet (quiet_spendWord _ _ _)
theorem Leaves.emit {s t : State} {g : Group} {n k : Nat} (a : Leaves s t) : Leaves s (t.emit g n k) := a.quiet (quiet_emit _ _ _ _)
theorem Leaves.modG {s t : State} {f : Group → Group} (a : Leaves s t) (hf : SameFile t.g (f t.g)) : Leaves s (t.modG f) :=
  ⟨a.file.trans hf, a.mem, a.pools⟩

theorem Group.clauseEnd_path (g : Group) (b : Bool) : g.clauseEnd.path b = g.path b := by
  unfold Group.clauseEnd
  split
  · exact g.noteHints_path b
  · exact g.noteHints_path b

/-- What a retired word leaves of its path and of the other. -/
theorem Group.advance_p (g : Group) : g.advance.p.mask = g.p.mask ∧ g.advance.p.stack = g.p.stack ∧ g.advance.p.stat = g.p.stat ∧
    g.advance.p.toks = g.p.toks := by
  have ended (h : Group) : h.clauseEnd.p = h.p := by unfold Group.p; rw [h.clauseEnd_curF, h.clauseEnd_path]
  unfold Group.advance
  dsimp only
  split
  · rw [Group.modP_p, ended]; exact ⟨rfl, rfl, rfl, rfl⟩
  · rw [Group.modP_p]; exact ⟨rfl, rfl, rfl, rfl⟩

theorem Group.advance_other (g : Group) : g.advance.path (!g.curF) = g.path (!g.curF) := by
  have kept (h : Group) (f : PathState → PathState) (hc : h.curF = g.curF) : (h.modP f).path (!g.curF) = h.path (!g.curF) := by
    rw [← hc]; exact h.modP_other f
  unfold Group.advance
  dsimp only
  split
  · refine (kept _ _ ?_).trans ?_
    · exact Group.clauseEnd_curF _
    · exact Group.clauseEnd_path _ _
  · exact kept _ _ rfl

theorem Group.advance_split (g : Group) : g.advance.split = g.split := by
  have ended (h : Group) : h.clauseEnd.split = h.split := by
    unfold Group.clauseEnd Group.noteHints Group.boundary
    split <;> split <;> rfl
  unfold Group.advance
  dsimp only
  split
  · rw [Group.modP_split, ended]
  · rw [Group.modP_split]

theorem samePlace_modP (g : Group) (f : PathState → PathState) (h : ∀ p, (f p).pc = p.pc ∧ (f p).cwi = p.cwi ∧ (f p).hdr = p.hdr) :
    SamePlace g (g.modP f) := samePlace_modPath g g.curF f h

theorem SamePlace.nextHeader {g h : Group} (a : SamePlace g h) : h.nextHeader = g.nextHeader := by
  unfold Group.nextHeader Group.clauseLen Group.header
  rw [a.pc, a.hdr]

theorem noteHints_sameFile (g : Group) : SameFile g g.noteHints :=
  (sameRegs_noteHints g).sameFile (by unfold Group.noteHints; split <;> rfl)

theorem sameFile_rc (g : Group) (n : Nat) : SameFile g { g with rc := n } := ⟨rfl, rfl, rfl, rfl, rfl, rfl⟩
theorem sameFile_boundary (g : Group) : SameFile g g.boundary := ⟨rfl, rfl, rfl, rfl, rfl, rfl⟩

/-- A word that retires at a run boundary keeps the register files. -/
theorem sameFile_retiring (g : Group) (n : Nat) (f : PathState → PathState) :
    SameFile g ({ g.noteHints with rc := n }.modP f).boundary :=
  (((noteHints_sameFile g).trans (sameFile_rc _ n)).trans (sameFile_modP _ f)).trans (sameFile_boundary _)

theorem joinTurn_leaves (s : State) (e : StackEnt) (rest : List StackEnt) : Leaves s (s.joinTurn e rest) := by
  unfold State.joinTurn
  exact (((Leaves.refl s).spendWord.modG (sameFile_modP _ _)).emit).modG (sameFile_retiring _ _ _)

theorem joinEnd_leaves (s : State) (e : StackEnt) (rest : List StackEnt) : Leaves s (s.joinEnd e rest) := by
  unfold State.joinEnd
  exact (((Leaves.refl s).spendWord.modG (sameFile_modP _ _)).emit).modG (sameFile_advance _)

theorem joinAll_leaves (s : State) : Leaves s s.joinAll := by
  unfold State.joinAll
  exact (((Leaves.refl s).spendWord.modG ⟨rfl, rfl, rfl, rfl, rfl, rfl⟩).emit).modG (sameFile_advance _)

theorem joinWait_leaves (s : State) : Leaves s s.joinWait := by
  unfold State.joinWait
  exact (Leaves.refl s).spendWord.modG ((sameFile_retiring _ _ _).trans ⟨rfl, rfl, rfl, rfl, rfl, rfl⟩)

/-! ### The groups that a join leaves -/

theorem joinEnd_g (s : State) (e : StackEnt) (rest : List StackEnt) :
    (s.joinEnd e rest).g = (s.g.modP fun p => { p with stack := rest, mask := e.acc ||| p.mask }).advance := by
  unfold State.joinEnd
  simp

theorem joinAll_g (s : State) : s.joinAll.g = s.g.completeJoin.advance := by
  unfold State.joinAll
  simp

/-- The group that turns to its F side. -/
def Group.turned (g : Group) (e : StackEnt) (rest : List StackEnt) : Group :=
  g.modP fun p => { p with stack := { e with acc := p.mask, sideF := true } :: rest, mask := e.fmask }

theorem joinTurn_g (s : State) (e : StackEnt) (rest : List StackEnt) : (s.joinTurn e rest).g =
    ({ (s.g.turned e rest).noteHints with rc := (s.g.turned e rest).rc + 1 }.modP fun p =>
      { p with pc := (s.g.turned e rest).nextHeader, cwi := 0, hdr := none, noMatch := false }).boundary := by
  unfold State.joinTurn Group.turned
  simp

theorem joinWait_g (s : State) : s.joinWait.g =
    { ({ s.g.noteHints with rc := s.g.rc + 1 }.modP fun p => { p with stat := .atJoin, hdr := none }).boundary with firstAt := true } := by
  unfold State.joinWait
  simp

theorem Group.noteHints_p (g : Group) : g.noteHints.p = g.p := by
  unfold Group.p
  rw [(sameRegs_noteHints g).curF, g.noteHints_path]

/-! ### The groups that a split leaves -/

theorem splitTo_g (s : State) (i : BitVec 19) (c : Mask) (nested : Prop) [Decidable nested] (g' : Group) :
    (s.splitTo i c nested g').g =
      { g'.boundary with y := s.g.y || (s.g.header.map Header.y).getD false, lastPh := (s.g.header.map Header.ph).getD 0 } := rfl

/-- The executing path of a nested split. -/
theorem Group.pushNested_p (g : Group) (j te fe : VAddr) (c : Mask) :
    let tm := g.p.mask &&& c
    let fm := g.p.mask &&& ~~~c
    (g.pushNested j te fe c).p.mask = (if tm = 0 then fm else tm) ∧ (g.pushNested j te fe c).p.pc = (if tm = 0 then fe else te) ∧
      (g.pushNested j te fe c).p.cwi = 0 ∧ (g.pushNested j te fe c).p.stack =
        { join := j.toNat, fmask := fm, acc := 0, sideF := tm = 0, wpos := g.wpos } :: g.p.stack := by
  intro tm fm
  unfold Group.pushNested
  dsimp only
  rw [Group.modP_p]
  exact ⟨rfl, rfl, rfl, rfl⟩

theorem Group.pushNested_curF (g : Group) (j te fe : VAddr) (c : Mask) : (g.pushNested j te fe c).curF = g.curF := by
  unfold Group.pushNested
  exact Group.modP_curF _ _

/-- The paths of a group whose word retires at a run boundary. -/
theorem retiring_p (g : Group) (n : Nat) (f : PathState → PathState) : ({ g.noteHints with rc := n }.modP f).boundary.p = f g.p := by
  show ({ g.noteHints with rc := n }.modP f).p = f g.p
  rw [Group.modP_p]
  exact congrArg f g.noteHints_p

theorem retiring_other (g : Group) (n : Nat) (f : PathState → PathState) :
    ({ g.noteHints with rc := n }.modP f).boundary.path (!g.curF) = g.path (!g.curF) := by
  have kept := ({ g.noteHints with rc := n } : Group).modP_other f
  rw [show ({ g.noteHints with rc := n } : Group).curF = g.curF from (sameRegs_noteHints g).curF] at kept
  exact kept.trans (g.noteHints_path _)

theorem Group.turned_p (g : Group) (e : StackEnt) (rest : List StackEnt) : (g.turned e rest).p =
    { g.p with stack := { e with acc := g.p.mask, sideF := true } :: rest, mask := e.fmask } := Group.modP_p _ _

theorem Group.turned_nextHeader (g : Group) (e : StackEnt) (rest : List StackEnt) : (g.turned e rest).nextHeader = g.nextHeader := by
  unfold Group.turned
  exact SamePlace.nextHeader (samePlace_modP g _ fun _ => ⟨rfl, rfl, rfl⟩)

/-- The sides of a top-level split. -/
theorem topSplit_sides {s u : State} (marks : Marks s u) {i : BitVec 19} {d : Reg} {nested : Prop} [Decidable nested] {j fe : VAddr} :
    let tm := s.g.p.mask &&& s.g.triple d
    let fm := s.g.p.mask &&& ~~~(s.g.triple d)
    let g := (u.splitTo i (u.g.triple d) nested (u.g.topSplit j u.g.nextHeader fe (u.g.triple d))).g
    g.t.mask = tm ∧ g.t.pc = s.g.nextHeader ∧ g.t.cwi = 0 ∧ g.f.mask = fm ∧ g.f.pc = fe ∧ g.f.cwi = 0 ∧ g.f.stack = [] ∧
      g.f.toks = s.g.f.toks ∧ g.t.toks = s.g.t.toks ∧ g.t.stat = (if tm = 0 ∧ fm ≠ 0 then .atJoin else .live) ∧
      g.f.stat = (if fm = 0 then .atJoin else .live) ∧
      g.split = some { join := j.toNat, fEntry := fe.toNat, wpos := s.g.wpos } := by
  intro tm fm g
  have mask : u.g.p.mask = s.g.p.mask := by rw [marks.p]
  have ttoks : u.g.t.toks = s.g.t.toks := by rw [marks.group]
  have ftoks : u.g.f.toks = s.g.f.toks := by rw [marks.group]
  have left : g = { (u.g.topSplit j s.g.nextHeader fe (s.g.triple d)).boundary with
      y := u.g.y || (u.g.header.map Header.y).getD false, lastPh := (u.g.header.map Header.ph).getD 0 } := by
    rw [← marks.nextHeader, ← marks.triple d]
    exact splitTo_g _ _ _ _ _
  rw [left]
  dsimp only [Group.boundary, Group.topSplit, Group.freeF]
  rw [mask, marks.regs.wpos]
  exact ⟨rfl, rfl, rfl, rfl, rfl, rfl, rfl, ftoks, ttoks, rfl, rfl, rfl⟩

/-- The path of a nested split, and the other. -/
theorem pushNested_sides {s u : State} (marks : Marks s u) {i : BitVec 19} {d : Reg} {nested : Prop} [Decidable nested] {j fe : VAddr} :
    let tm := s.g.p.mask &&& s.g.triple d
    let fm := s.g.p.mask &&& ~~~(s.g.triple d)
    let g := (u.splitTo i (u.g.triple d) nested (u.g.pushNested j u.g.nextHeader fe (u.g.triple d))).g
    g.p.mask = (if tm = 0 then fm else tm) ∧ g.p.pc = (if tm = 0 then fe else s.g.nextHeader) ∧ g.p.cwi = 0 ∧
      g.p.stack = { join := j.toNat, fmask := fm, acc := 0, sideF := tm = 0, wpos := s.g.wpos } :: s.g.p.stack ∧
      g.curF = s.g.curF ∧ (g.path (!s.g.curF)).mask = (s.g.path (!s.g.curF)).mask ∧
      (g.path (!s.g.curF)).pc = (s.g.path (!s.g.curF)).pc := by
  intro tm fm g
  have pushed := u.g.pushNested_p j u.g.nextHeader fe (u.g.triple d)
  have curF := u.g.pushNested_curF j u.g.nextHeader fe (u.g.triple d)
  have other := u.g.pushNested_other j u.g.nextHeader fe (u.g.triple d)
  have mask : u.g.p.mask = s.g.p.mask := by rw [marks.p]
  have stack : u.g.p.stack = s.g.p.stack := by rw [marks.p]
  have left : g = { (u.g.pushNested j u.g.nextHeader fe (u.g.triple d)).boundary with
      y := u.g.y || (u.g.header.map Header.y).getD false, lastPh := (u.g.header.map Header.ph).getD 0 } := splitTo_g _ _ _ _ _
  generalize u.g.pushNested j u.g.nextHeader fe (u.g.triple d) = g' at pushed curF other left
  rw [mask, stack, marks.regs.wpos, marks.triple, marks.nextHeader] at pushed
  rw [marks.regs.curF] at curF other
  rw [marks.path] at other
  obtain ⟨pmask, ppc, pcwi, pstack⟩ := pushed
  rw [left]
  exact ⟨pmask, ppc, pcwi, pstack, curF, congrArg (·.mask) other, congrArg (·.pc) other⟩

end Sys2Proof.Machine

namespace Sys2Proof.Proofs

open Sys2Proof Sys2Proof.Machine

/-- A split at the top level. -/
theorem split_top {s : State} {d : Reg} {i : BitVec 19} {w : W32} {h : Header} (hw : s.fetchWord s.g (s.g.rel i).toNat = .word w)
    (hd : decodeHeader w = some h) (hq : (s.g.path (!s.g.curF)).stat = .free) :
    let u := s.fetched s.g (s.g.rel i).toNat
    exec (.vSplit d i) s = .next (u.splitTo i (u.g.triple d) ((u.g.path (!u.g.curF)).stat ≠ .free)
      (u.g.topSplit (s.g.rel i) u.g.nextHeader (splitEntry (s.g.rel i) h) (u.g.triple d))) := by
  intro u
  have marks : Marks s u := fetched_marks s _
  have free : ¬(u.g.path (!u.g.curF)).stat ≠ .free := by rw [marks.regs.curF, marks.path]; exact not_not.2 hq
  rw [vSplit_eq hw hd]
  exact (if_neg fun hh => free hh.1).trans (by rw [if_neg free])

/-- A split inside a path. -/
theorem split_nested {s : State} {d : Reg} {i : BitVec 19} {w : W32} {h : Header} (hw : s.fetchWord s.g (s.g.rel i).toNat = .word w)
    (hd : decodeHeader w = some h) (hq : (s.g.path (!s.g.curF)).stat ≠ .free) :
    let u := s.fetched s.g (s.g.rel i).toNat
    exec (.vSplit d i) s = if 8 ≤ s.g.p.stack.length then .next (u.takeFault .splitDepth ((s.g.rel i).setWidth 64))
      else .next (u.splitTo i (u.g.triple d) ((u.g.path (!u.g.curF)).stat ≠ .free)
        (u.g.pushNested (s.g.rel i) u.g.nextHeader (splitEntry (s.g.rel i) h) (u.g.triple d))) := by
  intro u
  have marks : Marks s u := fetched_marks s _
  have nested : (u.g.path (!u.g.curF)).stat ≠ .free := by rw [marks.regs.curF, marks.path]; exact hq
  have depth : u.g.p.stack = s.g.p.stack := by rw [marks.p]
  rw [vSplit_eq hw hd, ← depth]
  by_cases deep : 8 ≤ u.g.p.stack.length
  · rw [if_pos deep]; exact if_pos ⟨nested, deep⟩
  · rw [if_neg deep]; exact (if_neg fun hh => deep hh.2).trans (by rw [if_pos nested])

/-- Settles O12: a split reads its header and opens its sides; a join turns, ends, waits or completes. -/
theorem splitsAndJoins : Obligations.SplitsAndJoins := by
  unfold Obligations.SplitsAndJoins
  refine ⟨?split, ?join⟩
  case split =>
    intro s d i w h pas b J c tm fm fe p q regs hw
    exact ⟨fun hd => ⟨_, vSplit_none hw hd, takeFault_faults _ _ _⟩,
      fun hd hq _ => ⟨_, split_top hw hd hq, splitTo_leaves (sameFile_topSplit _ _ _ _ _), topSplit_sides (fetched_marks s _)⟩,
      fun hd hq small => ⟨_, (split_nested hw hd hq).trans (if_neg (Nat.not_le.2 small)), splitTo_leaves (sameFile_pushNested _ _ _ _ _),
        pushNested_sides (fetched_marks s _)⟩,
      fun hd hq deep => ⟨_, (split_nested hw hd hq).trans (if_pos deep), takeFault_faults _ _ _⟩⟩
  case join =>
    intro s e rest x p q f regs clear
    have stands {t : State} (h : Leaves s t) : regs t :=
      ⟨h.file.sr, h.file.vr, h.file.fpf, fun b => by rw [h.mem], fun k b => by rw [h.pools]⟩
    have faulty {j w : Nat} {k : Out} (he : exec .vJoin s = s.joinAt j w k) :
        (p.cwi ≠ 0 ∨ p.pc.toNat ≠ j → Completes .vJoin s (Faults s .illegalInstruction s.wordAddr)) ∧
        (p.cwi = 0 → p.pc.toNat = j → s.g.wpos ≠ w → Completes .vJoin s (Faults s .stackOverflow s.g.wsp)) := by
      refine ⟨fun h => ?_, fun hc hj hw => ?_⟩
      · obtain ⟨t, ht, faults⟩ := joinAt_elsewhere h
        exact ⟨t, he.trans ht, faults⟩
      · obtain ⟨t, ht, faults⟩ := joinAt_window hc hj hw
        exact ⟨t, he.trans ht, faults⟩
    refine ⟨fun hs => ⟨fun hc hj hw => ⟨fun turn => ?turns, fun ends => ?ends⟩, faulty (vJoin_nested hs)⟩,
      fun hs hq hx => ⟨fun hc hj hw => ⟨fun hl => ?waits, fun hd hf => ?completes, fun hd hf => ?holds⟩, faulty (vJoin_top hs hq hx)⟩,
      fun hs hq => ⟨_, vJoin_none hs hq, takeFault_faults _ _ _⟩⟩
    case turns =>
      refine ⟨_, ((vJoin_nested hs).trans (joinAt_joins hc hj hw)).trans (if_pos (by simpa using turn)), stands (joinTurn_leaves _ _ _), ?_⟩
      rw [joinTurn_g, retiring_p, Group.turned_p]
      exact ⟨rfl, s.g.turned_nextHeader e rest, rfl, rfl, rfl⟩
    case ends =>
      refine ⟨_, ((vJoin_nested hs).trans (joinAt_joins hc hj hw)).trans (if_neg ?_), stands (joinEnd_leaves _ _ _), ?_⟩
      · rcases ends with h | h <;> simp [h]
      have place := samePlace_modP s.g (fun p => { p with stack := rest, mask := e.acc ||| p.mask }) fun _ => ⟨rfl, rfl, rfl⟩
      have goes : GoesOn (s.modG fun g => g.modP fun p => { p with stack := rest, mask := e.acc ||| p.mask }) (s.joinEnd e rest) := by
        unfold GoesOn
        rw [joinEnd_g]
        exact Group.advance_goesOn _
      obtain ⟨pmask, pstack, -, -⟩ := (s.g.modP fun p => { p with stack := rest, mask := e.acc ||| p.mask }).advance_p
      rw [Group.modP_p] at pmask pstack
      rw [← joinEnd_g] at pmask pstack
      exact ⟨pmask, pstack, place.goesOn goes⟩
    case waits =>
      have notDone : ¬(q.stat = .atJoin ∨ q.stat = .ended) := by simp [hl]
      refine ⟨_, ((vJoin_top hs hq hx).trans (joinAt_joins hc hj hw)).trans (if_neg notDone), stands (joinWait_leaves _), ?_⟩
      rw [joinWait_g]
      exact ⟨congrArg (·.stat) (retiring_p s.g _ _), congrArg (·.mask) (retiring_p s.g _ _), retiring_other s.g _ _, rfl, rfl⟩
    case completes =>
      refine ⟨_, ((vJoin_top hs hq hx).trans (joinAt_joins hc hj hw)).trans ((if_pos hd).trans (if_neg ?_)), stands (joinAll_leaves _), ?_⟩
      · obtain ⟨ld, st, cp, tl, rst⟩ := hf
        simp [show s.g.f.ld = 0 from ld, show s.g.f.st = 0 from st, show s.g.f.cp = 0 from cp, show s.g.f.tl = 0 from tl,
          show s.g.f.rst = 0 from rst]
      obtain ⟨pmask, pstack, pstat, ptoks⟩ := s.g.completeJoin.advance_p
      obtain ⟨curF, place⟩ := s.g.completeJoin.advance_goesOn
      have inT : s.g.completeJoin.advance.p = s.g.completeJoin.advance.t := by
        unfold Group.p Group.path
        rw [curF]
        rfl
      rw [inT] at pmask pstack pstat ptoks place
      rw [joinAll_g]
      refine ⟨pmask, pstat, pstack, ptoks, s.g.completeJoin.advance_other, curF, s.g.completeJoin.advance_split, ?_⟩
      rw [show s.g.completeJoin.p.cwi = 0 from hc] at place
      exact place
    case holds =>
      refine ⟨_, ((vJoin_top hs hq hx).trans (joinAt_joins hc hj hw)).trans ((if_pos hd).trans (if_pos ?_)), hold_holds (.refl s) _⟩
      by_contra none
      exact hf (by simpa using none)

end Sys2Proof.Proofs
end

section
/-! PROOFS. What a step runs, O55. -/

namespace Sys2Proof.Machine

/-! ### A group at the focus -/

/-- A slot is at the focus, nothing is on the agenda, and the group's run goes on. -/
structure SlotDue (s : State) : Prop where
  agenda : s.agenda = []
  running : s.running = true
  focus : ∃ c x, s.focus = .slot c x
  held : s.held = false
  first : s.slotBehind = none
  goes : s.g.runOver = false

theorem WordDue.slotDue {s : State} {h : Header} {w : W32} (d : WordDue s h w) : SlotDue s :=
  ⟨d.agenda, d.running, d.focus, d.held, d.first, d.goes⟩

/-- What a step does with what the core finds. -/
def Ready.run : Ready → Out
  | .other t => .next t
  | .issue i t => exec i t

theorem SlotDue.step {s : State} (d : SlotDue s) : step s = s.readyHeader.run := by
  obtain ⟨c, x, focus⟩ := d.focus
  unfold Machine.step
  rw [d.agenda]
  dsimp only
  rw [d.running, d.held, focus]
  dsimp only
  rw [d.first]
  show stepGroup s = _
  unfold stepGroup
  rw [d.goes]
  rfl

/-- A header that is held needs no fetch. -/
theorem SlotDue.step_held {s : State} {h : Header} (d : SlotDue s) (hh : s.g.header = some h) : Machine.step s = s.readyWord.run := by
  rw [d.step]
  unfold Group.header at hh
  unfold State.readyHeader
  cases hd : s.g.p.hdr with
  | none => rw [hd] at hh; cases hh
  | some _ => dsimp only; rw [hd]

/-- A header that is fetched. -/
theorem SlotDue.step_header {s : State} {w : W32} (d : SlotDue s) (hn : s.g.p.hdr = none) (ha : s.g.p.pc.toNat % 4 = 0)
    (hw : s.fetchWord s.g s.g.p.pc.toNat = .word w) : Machine.step s =
      let u := s.fetched s.g s.g.p.pc.toNat
      match decodeHeader w with
      | none => .next (u.headerFault .illegalClause (s.g.p.pc.setWidth 64))
      | some h => if waitsPass h s.g.p then ((u.modG fun g => g.modP fun p => { p with hdr := some w }).readyWord).run
        else .next (u.hold (s.g.p.failLeaf h.wl h.ws h.wc h.wt)) := by
  rw [d.step]
  unfold State.readyHeader
  dsimp only
  rw [hn]
  dsimp only
  rw [if_neg (not_not.2 ha), hw]
  dsimp only
  cases decodeHeader w with
  | none => rfl
  | some h =>
    dsimp only
    split <;> rfl

/-! ### The word about to issue -/

theorem Group.clauseLen_of_header {g : Group} {h : Header} (hh : g.header = some h) : g.clauseLen = h.n := by
  unfold Group.clauseLen
  rw [hh]
  rfl

theorem lastWord_iff {g : Group} {h : Header} (hh : g.header = some h) : g.lastWord = true ↔ g.p.cwi + 1 = h.n := by
  unfold Group.lastWord
  rw [Group.clauseLen_of_header hh, decide_eq_true_iff]

/-- A word that is fetched. -/
theorem WordDue.step {s : State} {h : Header} {w : W32} (d : WordDue s h w) : Machine.step s =
    let got := s.fetched s.g s.wordAddr.toNat
    match decode h.cls w with
    | none => .next (got.faultHere .illegalInstruction)
    | some i =>
      if mustBeLast i ∧ !s.g.lastWord then .next (got.faultHere .illegalClause)
      else if isVector h.cls w ∧ !got.pipeFree then .next (got.hold leafPipe)
      else exec i (got.begin s.g) := by
  rw [d.slotDue.step_held d.header]
  unfold State.readyWord
  dsimp only
  rw [d.header]
  dsimp only
  rw [if_neg (Nat.not_le.2 d.inside), if_neg d.count, d.unmatched]
  dsimp only
  rw [d.word]
  dsimp only
  cases decode h.cls w with
  | none => rfl
  | some i =>
    dsimp only
    split
    · rfl
    · split <;> rfl

theorem Marks.wordAddr {s t : State} (a : Marks s t) : t.wordAddr = s.wordAddr := by
  unfold State.wordAddr
  rw [a.p]

/-- A fault of the word that has been fetched. -/
theorem fetched_faults {s : State} (c : Code) :
    Faults (s.fetched s.g s.wordAddr.toNat) c s.wordAddr ((s.fetched s.g s.wordAddr.toNat).faultHere c) := by
  have h := takeFault_faults (s.fetched s.g s.wordAddr.toNat) c (s.fetched s.g s.wordAddr.toNat).wordAddr
  unfold State.faultHere
  rw [(fetched_marks s _).wordAddr] at h ⊢
  exact h

theorem State.hold_g (s : State) (leaf : Nat) : (s.hold leaf).g = s.g := by
  unfold State.hold
  simp

/-- A header's fault halts the group at its place. -/
theorem headerFault_halts (s : State) (c : Code) (a : Word) :
    (s.headerFault c a).g.stat = .halted ∧ (s.headerFault c a).g.p.pc = s.g.p.pc := by
  have reported (r : Report) : (s.stopWith r).g = { s.g.boundary with stat := .halted } := by
    unfold State.stopWith State.modTask
    cases s.team s.g.team with
    | none => rfl
    | some t => dsimp only; split <;> rfl
  unfold State.headerFault
  rw [reported]
  exact ⟨rfl, rfl⟩

/-! ### A word whose line the near cache holds -/

theorem FetchHits.traces {s t : State} (a : FetchHits s t) (g : Group) : t.traces g = s.traces g := by
  obtain ⟨-, -, -, trace⟩ := a.cores g.core
  unfold State.traces
  rw [trace]

theorem FetchHits.g {s t : State} (a : FetchHits s t) : t.g = { s.g with fetchAt := t.g.fetchAt } := by rw [a.rest]

/-- What stands outside the cores, the dies and the focused group stands under any change of these. -/
theorem outside_eq {s t : State} {cs : SMap Core} {ds : SMap Die} {g : Group}
    (h : t = { s with cores := t.cores, dies := t.dies, g := t.g }) :
    ({ t with cores := cs, dies := ds, g := g } : State) = { s with cores := cs, dies := ds, g := g } := by rw [h]

/-- After a fetch from the near cache and a quiet change, a change of the focused group. -/
theorem FetchHits.modG {s t v : State} (a : FetchHits s t) (q : Quiet t v) (hg : s.g.gid ≠ 0) (f : Group → Group) :
    v.modG f = { s with cores := (v.modG f).cores, dies := (v.modG f).dies, g := f { s.g with fetchAt := none } } ∧
    (∀ d, (v.modG f).die d = { s.die d with walks := ((v.modG f).die d).walks, llt := ((v.modG f).die d).llt } ∧
      ∀ x ∈ (s.die d).walks, x.gid ≠ s.g.gid ∨ x.kind ≠ .fetch → x ∈ ((v.modG f).die d).walks) ∧
    ∀ c, ((v.modG f).core c).pool = (s.core c).pool ∧ ((v.modG f).core c).tagSet = (s.core c).tagSet ∧
      ((v.modG f).core c).rows = (s.core c).rows := by
  have dies : v.dies = t.dies := by rw [q.rest]
  have die (d : Nat) : (v.modG f).die d = t.die d := by
    show v.die d = t.die d
    unfold State.die
    rw [dies]
  have outside : v = { s with cores := v.cores, dies := v.dies, g := v.g } := by
    have fetched : t = { s with cores := t.cores, dies := t.dies, g := t.g } := by
      rw [a.g]
      exact a.rest
    rw [dies, q.g]
    exact q.rest.trans (outside_eq fetched)
  refine ⟨?_, fun d => ?_, fun c => ?_⟩
  · have group : v.g = { s.g with fetchAt := none } := by rw [q.g, a.g, a.done hg]
    rw [← group]
    exact outside_eq outside
  · rw [die]
    exact ⟨a.die d, a.walks d⟩
  · obtain ⟨pool, tags, rows, -⟩ := a.cores c
    exact ⟨(congrArg (·.pool) (q.cores c)).trans pool, (congrArg (·.tagSet) (q.cores c)).trans tags,
      (congrArg (·.rows) (q.cores c)).trans rows⟩

/-- What the state in which a word of the near cache runs differs in from the state before its fetch. -/
theorem begin_hits {s t : State} (a : FetchHits s t) (hg : s.g.gid ≠ 0) :
    t.begin s.g = { s with
      cores := (t.begin s.g).cores, dies := (t.begin s.g).dies
      g := { s.g with fetchAt := none, syncDue := s.g.syncDue && !s.traces s.g, wordAt := (s.g.p.pc, s.g.p.cwi + 1) } } ∧
    (∀ d, (t.begin s.g).die d = { s.die d with walks := ((t.begin s.g).die d).walks, llt := ((t.begin s.g).die d).llt } ∧
      ∀ x ∈ (s.die d).walks, x.gid ≠ s.g.gid ∨ x.kind ≠ .fetch → x ∈ ((t.begin s.g).die d).walks) ∧
    ∀ c, ((t.begin s.g).core c).pool = (s.core c).pool ∧ ((t.begin s.g).core c).tagSet = (s.core c).tagSet ∧
      ((t.begin s.g).core c).rows = (s.core c).rows := by
  by_cases due : s.g.syncDue = true ∧ s.traces s.g = true
  · have begins : t.begin s.g = (t.emitPacket s.g (syncPacket s.g)).modG fun g =>
        { g with syncDue := s.g.syncDue && !s.traces s.g, wordAt := (s.g.p.pc, s.g.p.cwi + 1) } := by
      unfold State.begin
      rw [a.traces, if_pos due, due.1, due.2]
      rfl
    rw [begins]
    exact a.modG (quiet_emitPacket _ _ _) hg _
  · have begins : t.begin s.g = t.modG fun g => { g with wordAt := (s.g.p.pc, s.g.p.cwi + 1) } := by
      unfold State.begin
      rw [a.traces, if_neg due]
    have kept : (s.g.syncDue && !s.traces s.g) = s.g.syncDue := by
      cases h : s.g.syncDue with
      | false => rfl
      | true => simpa using fun e => due ⟨h, e⟩
    rw [begins, kept]
    exact a.modG (Quiet.refl t) hg _

end Sys2Proof.Machine

namespace Sys2Proof.Proofs

open Sys2Proof Sys2Proof.Machine

/-- Settles O55: a slot's step is what the core finds at its word, a hart's step its fetched word. -/
theorem stepRunsDecoded : Obligations.StepRunsDecoded := by
  unfold Obligations.StepRunsDecoded
  intro s h hw w i rest pas b got u hart piped lasts
  refine ⟨fun d hi hl hp => ?runs, fun d hi hl hp => ?pipe, fun d hi hl => ?early, fun d hi => ?undecoded, fun hg hc hp => ?near,
    fun ag ru fo he fi go => ?slot, fun hc hp => ?reads, fun p => rfl, fun ag ru he fo => ?hart, fun ag => ?agenda⟩
  case runs =>
    have last : ¬(mustBeLast i = true ∧ (!s.g.lastWord) = true) := fun ⟨m, n⟩ => by
      rw [(lastWord_iff d.header).2 (hl m)] at n; cases n
    have free : ¬(isVector h.cls w = true ∧ (!got.pipeFree) = true) := fun ⟨v, n⟩ => by rw [hp v] at n; cases n
    rw [d.step, hi]
    dsimp only
    rw [if_neg last]
    exact if_neg free
  case pipe =>
    have last : ¬(mustBeLast i = true ∧ (!s.g.lastWord) = true) := fun ⟨m, n⟩ => by
      rw [(lastWord_iff d.header).2 (hl m)] at n; cases n
    obtain ⟨vector, taken⟩ := Classical.not_imp.1 hp
    have marks : Marks s got := fetched_marks s _
    refine ⟨got.hold leafPipe, ?_, rfl, rfl, by rw [State.hold_g, marks.p], by rw [State.hold_g, marks.p]⟩
    rw [d.step, hi]
    dsimp only
    rw [if_neg last]
    exact if_pos ⟨vector, by simpa using taken⟩
  case early =>
    obtain ⟨must, notLast⟩ := Classical.not_imp.1 hl
    refine ⟨_, ?_, fetched_faults .illegalClause⟩
    rw [d.step, hi]
    dsimp only
    exact if_pos ⟨must, by simpa using fun e => notLast ((lastWord_iff d.header).1 e)⟩
  case undecoded =>
    refine ⟨_, ?_, fetched_faults .illegalInstruction⟩
    rw [d.step, hi]
  case near => exact begin_hits (fetched_hits hc hp) hg
  case slot =>
    have due : SlotDue s := ⟨ag, ru, fo, he, fi, go⟩
    refine ⟨fun hh inside full => ?run, fun hh past => ?past, fun hn odd => ?odd, fun hn ha hf => ⟨fun hd => ?bad, fun hd wait => ?waits,
      fun hd pass => ?passes⟩⟩
    case run =>
      refine ⟨_, ?_, takeFault_faults s .illegalRun s.wordAddr⟩
      rw [due.step_held hh]
      unfold State.readyWord
      dsimp only
      rw [hh]
      dsimp only
      rw [if_neg (Nat.not_le.2 inside), if_pos full]
      rfl
    case past =>
      refine ⟨s.modG fun g => g.modP fun p => { p with pc := s.g.nextHeader, cwi := 0, hdr := none }, ?_, rfl, ?_⟩
      · rw [due.step_held hh]
        unfold State.readyWord
        dsimp only
        rw [hh]
        dsimp only
        rw [if_pos past]
        rfl
      · rw [State.modG_g, Group.modP_p]
        exact ⟨rfl, rfl, rfl⟩
    case odd =>
      refine ⟨_, ?_, headerFault_halts s .misaligned (s.g.p.pc.setWidth 64)⟩
      rw [due.step]
      unfold State.readyHeader
      dsimp only
      rw [hn]
      dsimp only
      rw [if_pos odd]
      rfl
    case bad =>
      obtain ⟨halts, place⟩ := headerFault_halts (s.fetched s.g s.g.p.pc.toNat) .illegalClause (s.g.p.pc.setWidth 64)
      refine ⟨_, ?_, halts, place.trans (by rw [(fetched_marks s _).p])⟩
      rw [due.step_header hn ha hf, hd]
    case waits =>
      have marks := fetched_marks s s.g.p.pc.toNat
      refine ⟨(s.fetched s.g s.g.p.pc.toNat).hold (s.g.p.failLeaf h.wl h.ws h.wc h.wt), ?_, rfl, by rw [State.hold_g, marks.p], by rw [State.hold_g, marks.p]; exact hn⟩
      rw [due.step_header hn ha hf, hd]
      dsimp only
      rw [wait]
      rfl
    case passes =>
      rw [due.step_header hn ha hf, hd]
      dsimp only
      rw [if_pos pass]
      rfl
  case reads =>
    unfold State.fetchWord
    rw [hc]
    exact if_pos hp
  case hart =>
    have at_ : Machine.step s = stepHart s := by
      unfold Machine.step
      rw [ag]
      dsimp only
      rw [ru, he, fo]
      rfl
    refine ⟨fun clean fetched hi => ?_, fun q hq => ?_⟩
    · rw [at_]
      unfold stepHart
      dsimp only
      rw [clean]
      dsimp only
      rw [fetched]
      dsimp only
      rw [hi]
    · rw [at_]
      unfold stepHart
      dsimp only
      rw [hq]
  case agenda =>
    unfold Machine.step
    rw [ag]

end Sys2Proof.Proofs
end

section
/-! PROOFS. The encoder against the decoder, O58: how a word's fields read after an operand is put into it (01 Table 1.8), what each class's
map makes of an instruction's word (02 R46 and its tables; 20 Table 20.1), and the agreement of the two. -/

namespace Sys2Proof.Encoding

open Sys2Proof

/-! ### Fields of a word

A word is its fixed bits with the operands put into places that are still zero. -/

/-- A word with an operand added at bit `p`. -/
def put {n : Nat} (w : W32) (p : Nat) (v : BitVec n) : W32 := w + BitVec.ofNat 32 (v.toNat * 2 ^ p)

/-- A word with each value of `fs` added at its bit position. -/
def putAll (w : W32) (fs : List (Nat × Nat)) : W32 := fs.foldl (fun x f => x + BitVec.ofNat 32 (f.1 * 2 ^ f.2)) w

theorem wordOf_eq (m : Nat) (fs : List (Nat × Nat)) : wordOf m fs = some (putAll (BitVec.ofNat 32 m) fs) := by
  unfold wordOf putAll
  induction fs generalizing m with
  | nil => rfl
  | cons f fs ih => rw [List.foldl_cons, List.foldl_cons, ih, BitVec.ofNat_add]

theorem fld_eq (w : W32) (lo len : Nat) : fld w lo len = BitVec.ofNat len (fldN w lo len) := by
  rw [fld, fldN, ← BitVec.toNat_ofNat, BitVec.ofNat_toNat, BitVec.setWidth_eq]

theorem fldN_lt (w : W32) (lo len : Nat) : fldN w lo len < 2 ^ len := Nat.mod_lt _ (Nat.two_pow_pos len)

/-- A field is its low bits and, above them, the field of the rest. -/
theorem fldN_split (w : W32) (lo a b : Nat) : fldN w lo (a + b) = fldN w lo a + 2 ^ a * fldN w (lo + a) b := by
  rw [fldN, fldN, fldN, Nat.pow_add, Nat.mod_mul, Nat.div_div_eq_div_mul, ← Nat.pow_add]

/-- A field that ends inside the word does not see a carry out of the word. -/
theorem fldN_put {n : Nat} (w : W32) (v : BitVec n) (p : Nat) {lo len : Nat} (h : lo + len ≤ 32) :
    fldN (put w p v) lo len = (w.toNat + v.toNat * 2 ^ p) / 2 ^ lo % 2 ^ len := by
  rw [fldN, put, BitVec.toNat_add, BitVec.toNat_ofNat, Nat.add_mod_mod, ← Nat.mod_mul_right_div_self, ← Nat.mod_mul_right_div_self,
    ← Nat.pow_add, Nat.mod_mod_of_dvd _ (Nat.pow_dvd_pow 2 h)]

/-- An operand leaves the fields below its place as they were. -/
theorem fldN_put_below {n : Nat} (w : W32) (v : BitVec n) {lo len p : Nat} (hp : lo + len ≤ p) (h : lo + len ≤ 32) :
    fldN (put w p v) lo len = fldN w lo len := by
  obtain ⟨k, rfl⟩ := Nat.exists_eq_add_of_le hp
  have above : v.toNat * 2 ^ (lo + len + k) = 2 ^ len * (v.toNat * 2 ^ k) * 2 ^ lo := by ring
  rw [fldN_put w v _ h, fldN, above, Nat.add_mul_div_right _ _ (Nat.two_pow_pos lo), Nat.add_mul_mod_self_left]

/-- An operand put into a place that was zero reads back as it is. -/
theorem fldN_put_same {n : Nat} {w : W32} (v : BitVec n) {p : Nat} (h0 : fldN w p n = 0) (h : p + n ≤ 32) :
    fldN (put w p v) p n = v.toNat := by
  rw [fldN] at h0
  rw [fldN_put w v p h, Nat.add_mul_div_right _ _ (Nat.two_pow_pos p), Nat.add_mod, h0, Nat.zero_add, Nat.mod_mod,
    Nat.mod_eq_of_lt v.isLt]

/-- An operand put into a place that was zero carries nothing into the fields above it. -/
theorem fldN_put_above {n : Nat} {w : W32} (v : BitVec n) {p lo len : Nat} (hp : p + n ≤ lo) (h : lo + len ≤ 32)
    (h0 : fldN w p n = 0) : fldN (put w p v) lo len = fldN w lo len := by
  obtain ⟨k, rfl⟩ := Nat.exists_eq_add_of_le hp
  rw [fldN] at h0
  rw [fldN_put w v p h, fldN, Nat.pow_add, Nat.pow_add, ← Nat.div_div_eq_div_mul, ← Nat.div_div_eq_div_mul, ← Nat.div_div_eq_div_mul,
    ← Nat.div_div_eq_div_mul, Nat.add_mul_div_right _ _ (Nat.two_pow_pos p), Nat.add_div_of_dvd_right (Nat.dvd_of_mod_eq_zero h0),
    Nat.div_eq_of_lt v.isLt, Nat.add_zero]

/-- The rules that read a field of an instruction's word, as one set of rewrite rules. -/
theorem fieldRules :
    (∀ w, putAll w [] = w) ∧
    (∀ {n : Nat} (w : W32) (v : BitVec n) (p : Nat) (fs : List (Nat × Nat)), putAll w ((v.toNat, p) :: fs) = putAll (put w p v) fs) ∧
    (∀ {n : Nat} (w : W32) (v : BitVec n) {lo len p : Nat}, lo + len ≤ p → lo + len ≤ 32 →
      fldN (put w p v) lo len = fldN w lo len) ∧
    (∀ {n : Nat} {w : W32} (v : BitVec n) {p : Nat}, fldN w p n = 0 → p + n ≤ 32 → fldN (put w p v) p n = v.toNat) ∧
    (∀ {n : Nat} {w : W32} (v : BitVec n) {p lo len : Nat}, p + n ≤ lo → lo + len ≤ 32 → fldN w p n = 0 →
      fldN (put w p v) lo len = fldN w lo len) ∧
    (∀ m lo len, fldN (BitVec.ofNat 32 m) lo len = m % 2 ^ 32 / 2 ^ lo % 2 ^ len) ∧
    (∀ w lo len, fld w lo len = BitVec.ofNat len (fldN w lo len)) ∧
    (∀ {n : Nat} (v : BitVec n), BitVec.ofNat n v.toNat = v) :=
  ⟨fun _ => rfl, fun _ _ _ _ => rfl, fldN_put_below, fldN_put_same, fldN_put_above, fun _ _ _ => by rw [fldN, BitVec.toNat_ofNat],
    fld_eq, fun v => by rw [BitVec.ofNat_toNat, BitVec.setWidth_eq]⟩

/-! ### An instruction's word in its class's map -/

/-- An instruction has a word that the map `raw` of a class makes that instruction of, before WellFormed is asked. -/
def Decodes (raw : W32 → Option Instr) (i : Instr) : Prop := ∃ w, encode i = some w ∧ raw w = some i

theorem Decodes.intro {raw : W32 → Option Instr} {i : Instr} {m : Nat} {fs : List (Nat × Nat)} (he : encode i = wordOf m fs)
    (hr : raw (putAll (BitVec.ofNat 32 m) fs) = some i) : Decodes raw i := ⟨_, he.trans (wordOf_eq m fs), hr⟩

/-- Where no operand reaches into the opcode, the opcode is that of the fixed bits. -/
theorem Decodes.fixed {raw : W32 → Option Instr} {i : Instr} {m : Nat} {fs : List (Nat × Nat)} (he : encode i = wordOf m fs)
    (hop : fldN (putAll (BitVec.ofNat 32 m) fs) 25 7 = m / 2 ^ 25)
    (hr : ∀ w, w = putAll (BitVec.ofNat 32 m) fs → fldN w 25 7 = m / 2 ^ 25 → raw w = some i) : Decodes raw i :=
  .intro he (hr _ rfl hop)

/-- The first form of an opcode is taken: its fixed bits stand, and its operands are the instruction's. -/
theorem ite_eq_some_of_pos {c : Prop} [Decidable c] {i j : Instr} {x : Option Instr} (h : c) (e : i = j) :
    (if c then some i else x) = some j := by rw [if_pos h, e]

/-- The first form of an opcode is passed over: its fixed bits do not stand. -/
theorem ite_eq_some_of_neg {c : Prop} [Decidable c] {j : Instr} {x y : Option Instr} (h : ¬c) (e : y = some j) :
    (if c then x else y) = some j := by rw [if_neg h, e]

/-! ### Opcodes with an operand in their low three bits -/

/-- The opcode is eight times its high bits and a number below eight. -/
theorem opcode_eq {w : W32} {k : Nat} (h : fldN w 28 4 = k) : ∃ j < 8, fldN w 25 7 = j + 8 * k :=
  ⟨fldN w 25 3, fldN_lt w 25 3, h ▸ fldN_split w 25 3 4⟩

theorem rawSv_compareImmediate {w : W32} (h : fldN w 28 4 = 2) : rawSv w = sv10 w := by
  obtain ⟨j, hj, op⟩ := opcode_eq h
  rw [rawSv, op]
  interval_cases j <;> rfl

theorem rawSv_fusedMultiply {w : W32} (h : fldN w 28 4 = 5) : rawSv w = sv28 w := by
  obtain ⟨j, hj, op⟩ := opcode_eq h
  rw [rawSv, op]
  interval_cases j <;> rfl

theorem rawSv_compareBranch {w : W32} (h : fldN w 28 4 = 7) : rawSv w = sv38 w := by
  obtain ⟨j, hj, op⟩ := opcode_eq h
  rw [rawSv, op]
  interval_cases j <;> rfl

/-! ### The classes

The opcode leads to its arm of the class's map; there the instruction's form is the first whose fixed bits stand, and its operands read
back. In a case of its own stands a form that is not the first of its opcode, and a form with no fixed bits beside the opcode. -/

/-- SV words (02 Tables 2.1 to 2.6). -/
theorem rawSv_encode {i : Instr} (h : i.cls = .sv) : Decodes rawSv i := by
  cases i <;> cases h
  case sCmpi =>
    refine .intro rfl ?_
    rw [rawSv_compareImmediate, sv10] <;>
      simp only [fieldRules, Nat.reduceAdd, Nat.reduceLeDiff, Nat.reducePow, Nat.reduceMod, Nat.reduceDiv]
  case sFma =>
    refine .intro rfl ?_
    rw [rawSv_fusedMultiply, sv28] <;>
      simp only [fieldRules, Nat.reduceAdd, Nat.reduceLeDiff, Nat.reducePow, Nat.reduceMod, Nat.reduceDiv]
  case bcmp =>
    refine .intro rfl ?_
    rw [rawSv_compareBranch, sv38] <;>
      simp only [fieldRules, Nat.reduceAdd, Nat.reduceLeDiff, Nat.reducePow, Nat.reduceMod, Nat.reduceDiv]
  all_goals
    refine .fixed rfl
      (by simp only [fieldRules, Nat.reduceAdd, Nat.reduceLeDiff, Nat.reducePow, Nat.reduceMod, Nat.reduceDiv]) fun w hw op => ?_
    rw [rawSv, op]
  case sAdd | sSub | sAnd | sOr | sXor | sAndn | sShl | sShr | sSra | sRot | sMin | sMax | sMinn | sMaxn | sMul | sMulh | sMulhn | sDiv |
      sDivn | sRem | sRemn | sBext | sBins | sMov | sClz | sCtz | sPop =>
    change sv00 w = _
    simp only [sv00, hw, fieldRules, Nat.reduceAdd, Nat.reduceLeDiff, Nat.reducePow, Nat.reduceMod, Nat.reduceDiv,
      Nat.reduceEqDiff, false_and, and_self, reduceIte]
  case sFadd | sFsub | sFmul | sFdiv | sFsqrt | sFmin | sFmax =>
    change sv20 w = _
    simp only [sv20, hw, fieldRules, Nat.reduceAdd, Nat.reduceLeDiff, Nat.reducePow, Nat.reduceMod, Nat.reduceDiv,
      Nat.reduceEqDiff, false_and, and_self, reduceIte]
  case sAddi | sAndi | sOri | sXori | sLi | sLim | bz | bnz | loop | vFadd | vFsub | vFmul | vFdiv | vPack | vCmp | vMad | vFmaF32 |
      vFmaF64 | vFmaF16x2 | vFmaBf16x2 | vLi | vSplit =>
    refine congrArg some ?_
    simp only [hw, fieldRules, Nat.reduceAdd, Nat.reduceLeDiff, Nat.reducePow, Nat.reduceMod, Nat.reduceDiv]
  all_goals
    refine ite_eq_some_of_pos ?_ ?_ <;>
      simp only [hw, fieldRules, Nat.reduceAdd, Nat.reduceLeDiff, Nat.reducePow, Nat.reduceMod, Nat.reduceDiv, and_self]

/-- MEM words (02 Table 2.7). -/
theorem rawMem_encode {i : Instr} (h : i.cls = .mem) : Decodes rawMem i := by
  cases i <;> cases h
  all_goals
    refine .fixed rfl
      (by simp only [fieldRules, Nat.reduceAdd, Nat.reduceLeDiff, Nat.reducePow, Nat.reduceMod, Nat.reduceDiv]) fun w hw op => ?_
    rw [rawMem, op]
  case lFeTest =>
    refine ite_eq_some_of_neg ?_ (ite_eq_some_of_neg ?_ (ite_eq_some_of_pos ?_ ?_)) <;>
      simp only [hw, fieldRules, Nat.reduceAdd, Nat.reduceLeDiff, Nat.reducePow, Nat.reduceMod, Nat.reduceDiv,
        Nat.reduceEqDiff, not_false_eq_true]
  case lFeEmpty | lWopenSw | pfW =>
    refine ite_eq_some_of_neg ?_ (ite_eq_some_of_pos ?_ ?_) <;>
      simp only [hw, fieldRules, Nat.reduceAdd, Nat.reduceLeDiff, Nat.reducePow, Nat.reduceMod, Nat.reduceDiv,
        Nat.reduceEqDiff, false_and, and_self, not_false_eq_true]
  all_goals
    refine ite_eq_some_of_pos ?_ ?_ <;>
      simp only [hw, fieldRules, Nat.reduceAdd, Nat.reduceLeDiff, Nat.reducePow, Nat.reduceMod, Nat.reduceDiv, and_self]

/-- SYNC words (02 Table 2.8). -/
theorem rawSync_encode {i : Instr} (h : i.cls = .sync) : Decodes rawSync i := by
  cases i <;> cases h
  all_goals
    refine .fixed rfl
      (by simp only [fieldRules, Nat.reduceAdd, Nat.reduceLeDiff, Nat.reducePow, Nat.reduceMod, Nat.reduceDiv]) fun w hw op => ?_
    rw [rawSync, op]
  case tagWaitAll =>
    refine ite_eq_some_of_neg ?_ (ite_eq_some_of_pos ?_ ?_) <;>
      simp only [hw, fieldRules, Nat.reduceAdd, Nat.reduceLeDiff, Nat.reducePow, Nat.reduceMod, Nat.reduceDiv,
        Nat.reduceEqDiff, not_false_eq_true]
  all_goals
    refine ite_eq_some_of_pos ?_ ?_ <;>
      simp only [hw, fieldRules, Nat.reduceAdd, Nat.reduceLeDiff, Nat.reducePow, Nat.reduceMod, Nat.reduceDiv, and_self]

/-- ENG words (02 Table 2.9). -/
theorem rawEng_encode {i : Instr} (h : i.cls = .eng) : Decodes rawEng i := by
  cases i <;> cases h
  all_goals
    refine .fixed rfl
      (by simp only [fieldRules, Nat.reduceAdd, Nat.reduceLeDiff, Nat.reducePow, Nat.reduceMod, Nat.reduceDiv]) fun w hw op => ?_
    rw [rawEng, op]
  case mmRdScale =>
    refine ite_eq_some_of_neg ?_ (ite_eq_some_of_pos ?_ ?_) <;>
      simp only [hw, fieldRules, Nat.reduceAdd, Nat.reduceLeDiff, Nat.reducePow, Nat.reduceMod, Nat.reduceDiv,
        Nat.reduceEqDiff, false_and, and_self, not_false_eq_true]
  all_goals
    refine ite_eq_some_of_pos ?_ ?_ <;>
      simp only [hw, fieldRules, Nat.reduceAdd, Nat.reduceLeDiff, Nat.reducePow, Nat.reduceMod, Nat.reduceDiv, and_self]

/-- FAB words (02 Table 2.11). -/
theorem rawFab_encode {i : Instr} (h : i.cls = .fab) : Decodes rawFab i := by
  cases i <;> cases h
  all_goals
    refine .fixed rfl
      (by simp only [fieldRules, Nat.reduceAdd, Nat.reduceLeDiff, Nat.reducePow, Nat.reduceMod, Nat.reduceDiv]) fun w hw op => ?_
    rw [rawFab, op]
  case wCntO =>
    refine ite_eq_some_of_neg ?_ (ite_eq_some_of_pos ?_ ?_) <;>
      simp only [hw, fieldRules, Nat.reduceAdd, Nat.reduceLeDiff, Nat.reducePow, Nat.reduceMod, Nat.reduceDiv,
        Nat.reduceEqDiff, not_false_eq_true]
  all_goals
    refine ite_eq_some_of_pos ?_ ?_ <;>
      simp only [hw, fieldRules, Nat.reduceAdd, Nat.reduceLeDiff, Nat.reducePow, Nat.reduceMod, Nat.reduceDiv, and_self]

theorem toNat_ne_of_sysWrOwn {r : BitVec 13} (h : sysWrOwn r = true) :
    r.toNat ≠ 72 ∧ r.toNat ≠ 73 ∧ r.toNat ≠ 16 ∧ r.toNat ≠ 43 := by
  simp only [sysWrOwn, Bool.and_eq_true, decide_eq_true_eq, ne_eq, ← BitVec.toNat_inj, BitVec.reduceToNat, and_assoc] at h
  exact h

/-- SYS words (02 Table 2.12). sys.wr's own form is the last of its opcode: WSB, WSL, TAGS and TRET, which rows of their own
name, come before it. -/
theorem rawSys_encode {i : Instr} (h : i.cls = .sys) (ho : i.ownWord = true) (hf : i.wellFormed = true) : Decodes rawSys i := by
  cases i <;> cases h
  case debugResume | release | replayArm => cases ho
  all_goals
    refine .fixed rfl
      (by simp only [fieldRules, Nat.reduceAdd, Nat.reduceLeDiff, Nat.reducePow, Nat.reduceMod, Nat.reduceDiv]) fun w hw op => ?_
    rw [rawSys, op]
  case sysWr a r =>
    obtain ⟨wsb, wsl, tags, tret⟩ := toNat_ne_of_sysWrOwn hf
    refine ite_eq_some_of_neg ?_ (ite_eq_some_of_neg ?_ (ite_eq_some_of_neg ?_ (ite_eq_some_of_neg ?_ (ite_eq_some_of_pos ?_ ?_)))) <;>
      simp only [hw, fieldRules, Nat.reduceAdd, Nat.reduceLeDiff, Nat.reducePow, Nat.reduceMod, Nat.reduceDiv,
        wsb, wsl, tags, tret, and_false, not_false_eq_true]
  case sysWrWsl | sysWrTags | tret =>
    change sys01 w = _
    simp only [sys01, hw, fieldRules, Nat.reduceAdd, Nat.reduceLeDiff, Nat.reducePow, Nat.reduceMod, Nat.reduceDiv,
      Nat.reduceEqDiff, and_self, and_false, reduceIte]
  all_goals
    refine ite_eq_some_of_pos ?_ ?_ <;>
      simp only [hw, fieldRules, Nat.reduceAdd, Nat.reduceLeDiff, Nat.reducePow, Nat.reduceMod, Nat.reduceDiv, and_self]

/-- RV64 custom-0 and custom-1 words (20 Table 20.1). -/
theorem rawXlm_encode {i : Instr} (h : i.cls = .xlm) : Decodes rawXlm i := by
  cases i <;> cases h
  all_goals
    refine .intro rfl ?_
    simp only [rawXlm, fieldRules, Nat.reduceAdd, Nat.reduceLeDiff, Nat.reducePow, Nat.reduceMod, Nat.reduceDiv,
      ne_eq, not_true_eq_false, and_self, reduceIte]

/-! ### The agreement -/

theorem ownWord_of_event {i : Instr} (h : i.cls = .event) : i.ownWord = false := by cases i <;> cases h <;> rfl

theorem decodeRaw_encode {i : Instr} (ho : i.ownWord = true) (hf : i.wellFormed = true) : Decodes (decodeRaw i.cls) i := by
  cases h : i.cls with
  | sv => exact rawSv_encode h
  | mem => exact rawMem_encode h
  | sync => exact rawSync_encode h
  | eng => exact rawEng_encode h
  | fab => exact rawFab_encode h
  | sys => exact rawSys_encode h ho hf
  | xlm => exact rawXlm_encode h
  | event => exact absurd ho (by rw [ownWord_of_event h]; exact Bool.false_ne_true)

theorem decode_encode {i : Instr} (ho : i.ownWord = true) (hf : i.wellFormed = true) :
    ∃ w, encode i = some w ∧ decode i.cls w = some i := by
  obtain ⟨w, he, hr⟩ := decodeRaw_encode ho hf
  exact ⟨w, he, by rw [decode, hr, Option.filter_some, if_pos hf]⟩

theorem encodable (i : Instr) : Laws.Encodable.Statement i := by cases i <;> rfl

theorem encode_eq_none_iff (i : Instr) : i.cls = .event ↔ encode i = none := by
  have hs : (encode i).isSome = decide (i.cls ≠ .event) := encodable i
  rw [← Option.not_isSome_iff_eq_none, hs, decide_eq_true_eq, not_not]

end Sys2Proof.Encoding

namespace Sys2Proof.Proofs

/-- Settles O58: an instruction's word reads back, field by field, what the encoder put into it. -/
theorem encodeDecode : Obligations.EncodeDecode := fun i =>
  ⟨Encoding.decode_encode, Encoding.encode_eq_none_iff i, fun _ _ => ⟨rfl, rfl, rfl⟩⟩

end Sys2Proof.Proofs
end

section
/-! PROOFS. Scalar floating point (04 R98 to R102): s.fclass answers one class bit, s.fcmp of a NaN is unordered; O7. -/

namespace Sys2Proof.Machine

/-! ### The class of a value (04 Table 4.5) -/

/-- The number of the class bit of a value. -/
def classBit (t : FTy) : FVal → Nat
  | .nan s f => if FVal.snan t (.nan s f) then 8 else 9
  | .inf s => if s then 0 else 7
  | .fin s m _ => if m = 0 then (if s then 3 else 4) else if m < 2 ^ fpFrac t then (if s then 2 else 5) else (if s then 1 else 6)

theorem fpClass_eq_pow (t : FTy) (a : Nat) : fpClass t a = 2 ^ classBit t (fpDec t a) := by
  unfold fpClass classBit
  cases fpDec t a <;> dsimp only <;> split_ifs <;> rfl

theorem classBit_lt (t : FTy) (v : FVal) : classBit t v < 10 := by
  unfold classBit
  cases v <;> dsimp only <;> split_ifs <;> decide

theorem classBit_nan (t : FTy) (v : FVal) : classBit t v = 9 ∨ classBit t v = 8 ↔ v.isNaN = true := by
  unfold classBit FVal.isNaN
  cases v <;> dsimp only <;> split_ifs <;> simp

theorem classBit_zero (t : FTy) (v : FVal) : classBit t v = 4 ∨ classBit t v = 3 ↔ v.isZero = true := by
  unfold classBit FVal.isZero
  cases v <;> dsimp only <;> split_ifs <;> simp [*]

theorem classBit_inf (t : FTy) (v : FVal) : classBit t v = 7 ∨ classBit t v = 0 ↔ v.isInf = true := by
  unfold classBit FVal.isInf
  cases v <;> dsimp only <;> split_ifs <;> simp

theorem fpClass_eq_pow_iff (t : FTy) (a j : Nat) : fpClass t a = 2 ^ j ↔ classBit t (fpDec t a) = j := by
  rw [fpClass_eq_pow, Nat.pow_right_inj Nat.one_lt_two]

/-- The word that s.fclass writes holds the class bit. -/
theorem toNat_fpClass (t : FTy) (a : Nat) : (BitVec.ofNat 64 (fpClass t a)).toNat = fpClass t a := by
  rw [BitVec.toNat_ofNat, Nat.mod_eq_of_lt]
  rw [fpClass_eq_pow]
  exact Nat.pow_lt_pow_right Nat.one_lt_two ((classBit_lt t _).trans (by decide))

/-! ### Comparing with a NaN (04 Table 4.6) -/

theorem FVal.lt_of_isNaN {x y : FVal} (h : x.isNaN = true ∨ y.isNaN = true) : x.lt y = false := by
  unfold FVal.lt
  split
  · simp [FVal.isNaN] at h
  · simp [FVal.isNaN] at h
  · simp [FVal.isNaN] at h
  · simp [FVal.isNaN] at h
  · rfl

/-- A NaN is equal to nothing, neither less nor greater, and unordered; the ordering conditions raise NV. -/
theorem fpCmp_of_isNaN (t : FTy) {a b : Nat} (h : (fpDec t a).isNaN = true ∨ (fpDec t b).isNaN = true) :
    (fpCmp t 0 a b).1 = false ∧ fpCmp t 1 a b = (false, Flags.nv) ∧ fpCmp t 2 a b = (false, Flags.nv) ∧
      (fpCmp t 3 a b).1 = true := by
  have hn : ((fpDec t a).isNaN || (fpDec t b).isNaN) = true := by simpa using h
  have he : (fpDec t a).eqv (fpDec t b) = false := by
    rcases h with h | h <;> simp [FVal.eqv, h]
  simp [fpCmp, hn, he, FVal.lt_of_isNaN h, Flags.when]

theorem ofNat_b2n (c : Bool) : BitVec.ofNat 64 (b2n c) = if c then 1 else 0 := by cases c <;> rfl

end Sys2Proof.Machine

namespace Sys2Proof.Proofs

open Sys2Proof.Machine

/-- Settles O7: each word answers `scalarFp` or `scalarOut` of the function that names its result. -/
theorem scalarFloatResults : Obligations.ScalarFloatResults := by
  refine ⟨fun s d a b r f => ?_, fun s d a b c k t u r f n => ⟨?_, fun _ => ?_, fpCmp_of_isNaN _, ?_, ?_⟩⟩
  · exact ⟨scalarFp_writes _ d _ s, scalarFp_writes _ d _ s, scalarFp_writes _ d _ s, scalarFp_writes _ d _ s,
      scalarFp_writes _ d _ s, scalarFp_writes _ d _ s, scalarFp_writes _ d _ s⟩
  · refine ⟨_, ?_, scalarOut_writes _ d (BitVec.ofNat 64 (fpClass (fTy f) (s.n a))) s⟩
    simp only [toNat_fpClass, fpClass_eq_pow_iff]
    exact ⟨⟨_, classBit_lt _ _, rfl⟩, classBit_nan _ _, classBit_zero _ _, classBit_inf _ _⟩
  · rw [← ofNat_b2n]
    exact scalarFp_writes _ d ⟨b2n (fpCmp (fTy f) k.toNat (s.n a) (s.n b)).1, _⟩ s
  · exact scalarFp_writes _ d _ s
  · exact scalarFp_writes _ d _ s

end Sys2Proof.Proofs
end

section
/-! PROOFS. Vector integer words (06 R144, R145): words that raise no flag, leading zeros and set bits of a sub-element; O13. -/

namespace Sys2Proof.Machine

/-! ### Words that raise no flag -/

theorem foldl_or_flags {α : Type} (r : α → FRes) (h : ∀ x, (r x).fl = 0) (l : List α) (f : Flags) :
    l.foldl (fun f x => f ||| (r x).fl) f = f := by
  induction l with
  | nil => rfl
  | cons x l ih => rw [List.foldl_cons, h x, show f ||| 0 = f from BitVec.or_zero, ih]

theorem laneRes_fl_zero {t : VTy} {h : (VReg → Nat) → FRes} (hf : ∀ e, (h e).fl = 0) (i : Nat) : (laneRes t h i).fl = 0 := by
  show List.foldl (fun (f : Flags) (r : FRes) => f ||| r.fl) Flags.none (List.map _ _) = 0
  rw [List.foldl_map, foldl_or_flags _ fun k => hf _]
  rfl

theorem flagsOf_eq_zero (g : Group) (t : VTy) {r : Nat → FRes} (hr : ∀ i, (r i).fl = 0) : g.flagsOf t r = 0 :=
  foldl_or_flags r hr _ _

/-- Elements count at their width. -/
theorem WritesVector.congr {s t : State} {d : Reg} {ty : VTy} {f h : Nat → Nat → Nat} {fl : Flags} (w : WritesVector s d ty f fl t)
    (e : ∀ i k, i < vtCount ty → k < ty.subs → f i k % 2 ^ ty.width = h i k % 2 ^ ty.width) : WritesVector s d ty h fl t :=
  { w with elements := fun i k hi hk => by rw [w.elements i k hi hk, e i k hi hk] }

/-- An element-wise word without flags completes with any function that its elements agree with. -/
theorem vecWord_writes_noFlags (n : Nat) (d : Reg) (ty : VTy) {h : (VReg → Nat) → FRes} (f : Nat → Nat → Nat) (s : State)
    (hf : ∀ e, (h e).fl = 0) (hb : ∀ i k, k < ty.subs → (h (elemGet ty i k)).bits = f i k) :
    ∃ t, vecWord n d ty h s = .next t ∧ WritesVector s d ty f 0 t := by
  obtain ⟨t, ht, w⟩ := vecWord_writes n d ty h s
  rw [flagsOf_eq_zero _ _ (laneRes_fl_zero hf)] at w
  exact ⟨t, ht, w.congr fun i k _ hk => by rw [hb i k hk]⟩

/-- An integer word completes with the exact results at the sub-element's width. -/
theorem vecInt_writes (d a b : Reg) (c : BitVec 4) (n : BitVec 1) (op : Int → Int → Int) (s : State) :
    ∃ t, vecInt d a b c n op s = .next t ∧ WritesVector s d (VTy.of c) (fun i k =>
      (intRes (VTy.of c) n (op (toInt (VTy.of c).signed (VTy.of c).width (elemGet (VTy.of c) i k (s.g.vr a)))
        (toInt (VTy.of c).signed (VTy.of c).width (elemGet (VTy.of c) i k (s.g.vr b))))).bits) 0 t :=
  vecWord_writes_noFlags 3 d _ _ s (fun _ => rfl) fun _ _ _ => rfl

/-- A shift likewise. -/
theorem vecShift_writes (d a b : Reg) (c : BitVec 4) (n : BitVec 1) (signed : VTy → Bool) (op : Int → Nat → Int) (s : State) :
    ∃ t, vecShift d a b c n signed op s = .next t ∧ WritesVector s d (VTy.of c) (fun i k =>
      (intRes (VTy.of c) n (op (toInt (signed (VTy.of c)) (VTy.of c).width (elemGet (VTy.of c) i k (s.g.vr a)))
        (elemGet (VTy.of c) i k (s.g.vr b) % (VTy.of c).width))).bits) 0 t :=
  vecWord_writes_noFlags 3 d _ _ s (fun _ => rfl) fun _ _ _ => rfl

/-- A bitwise word completes with the numbers of its lanes combined. -/
theorem vecBits_writes (d a b : Reg) {op : W32 → W32 → W32} (f : Nat → Nat → Nat) (s : State)
    (h : ∀ x y, (op x y).toNat = f x.toNat y.toNat) :
    ∃ t, vecBits d a b op s = .next t ∧
      WritesVector s d .i32 (fun i _ => f (lane (s.g.vr a) i).toNat (lane (s.g.vr b) i).toNat) 0 t := by
  simp only [← h]
  exact vecLanes_writes 3 d (fun g i => op (lane (g.vr a) i) (lane (g.vr b) i)) s

/-! ### Sub-elements -/

theorem elemGet_lt (t : VTy) (i k : Nat) (v : VReg) : elemGet t i k v < 2 ^ t.width := by
  unfold elemGet
  split
  · next h =>
    subst h
    have h1 := (lane v (2 * i)).isLt
    have h2 := (lane v (2 * i + 1)).isLt
    simp only [elem64, VTy.width]
    omega
  · exact Nat.mod_lt _ (Nat.two_pow_pos _)

/-- The one sub-element of a 32-bit lane is the lane. -/
theorem elemGet_of_width_32 {t : VTy} (ht : t.width = 32) (i : Nat) (v : VReg) : elemGet t i 0 v = (lane v i).toNat := by
  have hf : t ≠ .f64 := fun h => by subst h; cases ht
  simp [elemGet, hf, ht, subElem, bitsAt, Nat.mod_eq_of_lt (lane v i).isLt]

theorem toInt_true_toNat (x : W32) : toInt true 32 x.toNat = x.toInt := by
  have hx := x.isLt
  simp only [toInt, bitAt, Bool.true_and, Nat.mod_eq_of_lt hx, BitVec.toInt_eq_msb_cond, BitVec.msb_eq_getLsbD_last,
    BitVec.getLsbD]

/-! ### Leading zeros and set bits (06 R144) -/

/-- Leading zeros of a number of `w` bits. -/
def leadingZeros (w x : Nat) : Nat := if x = 0 then w else w - 1 - x.log2

/-- v.clz counts the zero bits above the highest set bit. -/
theorem leadingZeros_spec {w x : Nat} (hx : x < 2 ^ w) :
    leadingZeros w x ≤ w ∧ (∀ j < leadingZeros w x, bitAt x (w - 1 - j) = false) ∧
      (leadingZeros w x < w → bitAt x (w - 1 - leadingZeros w x) = true) := by
  unfold leadingZeros bitAt
  by_cases h0 : x = 0
  · simp [h0]
  · have hl : x.log2 < w := (Nat.log2_lt h0).mpr hx
    rw [if_neg h0]
    refine ⟨by omega, fun j hj => ?_, fun _ => ?_⟩
    · exact Nat.testBit_lt_two_pow (Nat.lt_log2_self.trans_le (Nat.pow_le_pow_right Nat.two_pos (by omega)))
    · have e : w - 1 - (w - 1 - x.log2) = x.log2 := by omega
      rw [e]
      exact Nat.testBit_log2 h0

theorem popBits_eq_length (x w : Nat) : popBits x w = ((List.range w).filter fun j => bitAt x j).length := by
  induction w with
  | zero => rfl
  | succ w ih =>
    rw [popBits, ih, List.range_succ, List.filter_append, List.length_append]
    cases h : bitAt x w <;> simp [b2n, h, Nat.add_comm]

/-! ### Multiply-add (06 R145) -/

/-- A sum at a width does not depend on the sign with which an addend is read. -/
theorem wrapInt_add_toNat (p : Int) (x : W32) : wrapInt 32 (p + x.toNat) = wrapInt 32 (p + x.toInt) := by
  have hx := x.isLt
  unfold wrapInt
  rw [BitVec.toInt_eq_toNat_cond]
  split <;> omega

end Sys2Proof.Machine

namespace Sys2Proof.Proofs

open Sys2Proof.Machine

/-- Settles O13: each word is `vecInt`, `vecShift` or a word of 32-bit lanes, whose results are known by lemma. -/
theorem vectorIntegerResults : Obligations.VectorIntegerResults := by
  intro s d a b c t n
  refine ⟨?add, ?sub, ?mul, ?mulh, ?and, ?or, ?xor, ?andn, ?shl, ?shr, ?sra, ?min, ?max, ?abs, ?clz, ?pop, ?mad⟩
  case add => exact vecInt_writes d a b t n (· + ·) s
  case sub => exact vecInt_writes d a b t n (· - ·) s
  case mul => exact vecInt_writes d a b t n (· * ·) s
  case mulh => exact vecInt_writes d a b t 0 (fun x y => x * y / 2 ^ (VTy.of t).width) s
  case shl => exact vecShift_writes d a b t n VTy.signed (fun x k => x * 2 ^ k) s
  case shr => exact vecShift_writes d a b t 0 (fun _ => false) (fun x k => x / 2 ^ k) s
  case sra => exact vecShift_writes d a b t 0 (fun _ => true) (fun x k => x / 2 ^ k) s
  case min => exact vecInt_writes d a b t 0 min s
  case max => exact vecInt_writes d a b t 0 max s
  case abs => exact vecInt_writes d a a t n (fun x _ => x.natAbs) s
  case and => exact vecBits_writes d a b (· &&& ·) s BitVec.toNat_and
  case or => exact vecBits_writes d a b (· ||| ·) s BitVec.toNat_or
  case xor => exact vecBits_writes d a b (· ^^^ ·) s BitVec.toNat_xor
  case andn =>
    exact vecBits_writes (op := fun x y => x &&& ~~~y) d a b (fun x y => x &&& (2 ^ 32 - 1 - y)) s fun x y => by
      rw [BitVec.toNat_and, BitVec.toNat_not]
  case clz =>
    refine ⟨fun i k => leadingZeros (VTy.of t).width (elemGet (VTy.of t) i k (s.g.vr a)), fun i k => ?_, ?_⟩
    · exact leadingZeros_spec (elemGet_lt (VTy.of t) i k (s.g.vr a))
    · exact vecWord_writes_noFlags (h := fun e => ⟨leadingZeros (VTy.of t).width (e (s.g.vr a)), 0⟩) 3 d _ _ s (fun _ => rfl)
        fun _ _ _ => rfl
  case pop =>
    exact vecWord_writes_noFlags (h := fun e => ⟨popBits (e (s.g.vr a)) (VTy.of t).width, 0⟩) 3 d _ _ s (fun _ => rfl)
      fun _ _ _ => popBits_eq_length _ _
  case mad =>
    refine vecWord_writes_noFlags 3 d .i32 _ s (fun _ => rfl) fun i k hk => ?_
    obtain rfl : k = 0 := Nat.lt_one_iff.mp hk
    simp only [elemGet_of_width_32 (t := .i32) rfl, toInt_true_toNat, wrapInt_add_toNat]

end Sys2Proof.Proofs
end

section
/-! PROOFS. Vector floating-point words (06 R146, R147); O14. -/

namespace Sys2Proof.Machine

/-- A floating-point word completes with the operation on each active element in its TYPE, and the flags of all of them. -/
theorem vecFp_writes (n m : Nat) (d a b : Reg) (c : BitVec 4) (r : BitVec 2) (sn : BitVec 1)
    (op : FTy → Rm → Bool → Bool → Nat → Nat → FRes) (s : State) :
    let T := VTy.of c
    let f (e : VReg → Nat) : FRes := op (vFp T) (if vEight T then .rne else Rm.ofCode r) (vEight T && sn = 1#1)
      (!vEight T && sn = 1#1) (e (s.g.vr a)) (e (s.g.vr b))
    ∃ t, vecFp n m d a b c r sn op s = .next t ∧
      WritesVector s d T (fun i k => (f (elemGet T i k)).bits) (s.g.flagsOf T (laneRes T f)) t :=
  vecWord_writes _ d _ _ s

theorem decide_eight (t : VTy) : decide (t = .e4m3x4 ∨ t = .e5m2x4) = vEight t := Bool.decide_or _ _

end Sys2Proof.Machine

namespace Sys2Proof.Proofs

open Sys2Proof.Machine

/-- Settles O14: each word is `vecFp` or a fused form, whose elements and flags are known by lemma. -/
theorem vectorFloatResults : Obligations.VectorFloatResults := by
  intro s d a b c t r n
  simp only [decide_eight]
  refine ⟨vecFp_writes 3 3 d a b t r n fpAdd s, vecFp_writes 3 3 d a b t r n fpSub s, vecFp_writes 3 3 d a b t r n fpMul s,
    vecFp_writes 12 24 d a b t r n (fun y rm _ neg => fpDiv y rm neg) s, ?sqrt,
    vecFp_writes 3 3 d a b t 0 0 (fun y _ _ _ => fpMin y) s, vecFp_writes 3 3 d a b t 0 0 (fun y _ _ _ => fpMaxOp y) s,
    vecWord_writes _ d _ _ s, vecWord_writes _ d _ _ s, vecWord_writes _ d _ _ s, vecWord_writes _ d _ _ s⟩
  case sqrt =>
    have h := vecFp_writes 12 24 d a a t r 0 (fun y rm _ neg x _ => fpSqrt y rm neg x) s
    simp only [show ((0 : BitVec 1) = 1#1) = False by decide, decide_false, Bool.and_false] at h
    exact h

end Sys2Proof.Proofs
end

section
/-! PROOFS. Reductions and scans (06 R158, R159; 03 R82 to R84); O18. -/

namespace Sys2Proof.Machine

/-! ### Results whose first cycle counts under a leaf of its own -/

/-- Retiring a word under any leaf changes no register. -/
theorem spendWord_advance_noEffect (leaf n : Nat) (s : State) : NoEffect s ((s.spendWord leaf n).modG Group.advance) where
  scalars r := by rw [State.modG_g, State.spendWord_g]; exact (sameRegs_advance _).sr r
  vectors r := by rw [State.modG_g, State.spendWord_g]; exact (sameRegs_advance _).vr r
  flags := by rw [State.modG_g, State.spendWord_g]; exact fpf_advance _
  frame := registerOnly_of_quiet (quiet_spendWord _ _ _) _ (arch_advance _)

/-- A scalar result of a word that retires under any leaf. -/
theorem setS_spendWord_advance_writes (leaf n : Nat) (d : Reg) (v : Word) (s : State) :
    WritesScalar s d v 0 (((s.setS d v).spendWord leaf n).modG Group.advance) where
  toSetsScalar := (setS_sets s d v).then (spendWord_advance_noEffect leaf n _)
  goes := (samePlace_setS s d v).goesOn (by
    unfold GoesOn
    rw [State.modG_g, State.spendWord_g]
    exact Group.advance_goesOn _)

/-- Flags go to FPF before a scalar result is written. -/
theorem WritesScalar.of_orFpf {s t : State} {d : Reg} {v : Word} {fl : Flags}
    (w : WritesScalar (s.modG (·.orFpf fl)) d v 0 t) : WritesScalar s d v fl t where
  scalars x := (w.scalars x).trans rfl
  vectors x := (w.vectors x).trans rfl
  flags := w.flags.trans BitVec.or_zero
  frame := (registerOnly_of_quiet (Quiet.refl s) (·.orFpf fl) (arch_fpf s.g _)).trans w.frame
  goes := w.goes

/-- Flags go to FPF before a vector result is written. -/
theorem WritesVector.of_orFpf {s t : State} {d : Reg} {ty : VTy} {f : Nat → Nat → Nat} {fl : Flags}
    (w : WritesVector (s.modG (·.orFpf fl)) d ty f 0 t) : WritesVector s d ty f fl t where
  elements i k hi hk := (w.elements i k hi hk).trans rfl
  vectors x hx := (w.vectors x hx).trans rfl
  scalars x := (w.scalars x).trans rfl
  flags := w.flags.trans BitVec.or_zero
  frame := (registerOnly_of_quiet (Quiet.refl s) (·.orFpf fl) (arch_fpf s.g _)).trans w.frame
  goes := w.goes

/-- 32-bit types read a register in the same lanes. -/
theorem WritesVector.of_i32 {s t : State} {d : Reg} {ty : VTy} {f : Nat → Nat → Nat} {fl : Flags} (w : WritesVector s d .i32 f fl t)
    (h : ty.width = 32) : WritesVector s d ty f fl t := by
  refine { w with elements := ?_ }
  cases ty <;> cases h <;> exact w.elements

/-! ### Reductions -/

/-- Element `i` of register `r` where it is active, else the identity of a reduction (03 R83). -/
def Group.elemOr (g : Group) (t : VTy) (ident : Nat) (r : Reg) (i : Nat) : Nat :=
  if g.active (vtLane t i) then elemGet t i 0 (g.vr r) else ident

/-- A reduction completes with the root of its tree. -/
theorem vecReduce_writes (d a : Reg) (t : VTy) (ident : Nat) (op : Nat → Nat → FRes) (s : State) :
    let r := treeAll op (if t = .f64 then 4 else 5) (s.g.elemOr t ident a)
    ∃ u, vecReduce d a t ident op s = .next u ∧
      WritesScalar s d (BitVec.ofNat 64 (if t = .i32 then wrapInt 64 (toInt true 32 r.bits) else r.bits)) r.fl u :=
  ⟨_, rfl, (setS_spendWord_advance_writes s.g.vleaf 6 d _ _).of_orFpf⟩

/-- Flags of a tree whose operation raises none. -/
theorem treeLevel_noFlags {op : Nat → Nat → FRes} (h : ∀ p q, (op p q).fl = 0) : ∀ xs, (treeLevel op xs).2 = 0
  | a :: b :: r => by rw [treeLevel, h, treeLevel_noFlags h r]; rfl
  | [_] => rfl
  | [] => rfl

theorem treeBeat_noFlags {op : Nat → Nat → FRes} (h : ∀ p q, (op p q).fl = 0) (n : Nat) (xs : List Nat) :
    (treeBeat op n xs).fl = 0 := by
  induction n generalizing xs with
  | zero => rfl
  | succ n ih => rw [treeBeat, treeLevel_noFlags h, ih]; rfl

theorem treeAll_noFlags {op : Nat → Nat → FRes} (h : ∀ p q, (op p q).fl = 0) (n : Nat) (x : Nat → Nat) :
    (treeAll op n x).fl = 0 := by
  unfold treeAll
  simp only [treeBeat_noFlags h, h]
  rfl

theorem wrapInt_lt (w : Nat) (x : Int) : wrapInt w x < 2 ^ w := by
  have := Int.emod_lt_of_pos x (b := (2 ^ w : Nat)) (by exact_mod_cast Nat.two_pow_pos w)
  have := Int.emod_nonneg x (b := (2 ^ w : Nat)) (by exact_mod_cast (Nat.two_pow_pos w).ne')
  unfold wrapInt
  omega

theorem wrapInt_natCast (w : Nat) {n : Nat} (h : n < 2 ^ w) : wrapInt w n = n := by
  unfold wrapInt
  rw [← Int.natCast_emod, Nat.mod_eq_of_lt h, Int.toNat_natCast]

/-- A choice between 32-bit integers reduces, with no flag, to the value that the chosen bits hold (06 R158). -/
theorem vecReduce_pickInt_writes (d a : Reg) {t : VTy} (ht : t = .i32 ∨ t = .n32) (ident : Nat) (op : Int → Int → Int) (s : State) :
    ∃ u, vecReduce d a t ident (pickInt t op) s = .next u ∧
      WritesScalar s d (BitVec.ofNat 64 (wrapInt 64 (toInt t.signed 32 (treeAll (pickInt t op) 5 (s.g.elemOr t ident a)).bits))) 0 u := by
  have w := vecReduce_writes d a t ident (pickInt t op) s
  have hl : (treeAll (pickInt t op) 5 (s.g.elemOr t ident a)).bits < 2 ^ 32 := wrapInt_lt 32 _
  rcases ht with rfl | rfl
  · simpa only [treeAll_noFlags (fun _ _ => rfl : ∀ p q, (pickInt .i32 op p q).fl = 0), VTy.signed, if_true, reduceCtorEq,
      if_false] using w
  · have hb : wrapInt 64 (toInt (VTy.signed .n32) 32 (treeAll (pickInt .n32 op) 5 (s.g.elemOr .n32 ident a)).bits) =
        (treeAll (pickInt .n32 op) 5 (s.g.elemOr .n32 ident a)).bits := by
      simp only [toInt, VTy.signed, Bool.false_and, Bool.false_eq_true, if_false, Nat.mod_eq_of_lt hl]
      exact wrapInt_natCast 64 (hl.trans (by decide))
    rw [hb]
    simpa only [treeAll_noFlags (fun _ _ => rfl : ∀ p q, (pickInt .n32 op p q).fl = 0), reduceCtorEq, if_false] using w

/-- A reduction of f32 or f64 elements completes with the root's bits and the flags of its tree (06 R158). -/
theorem vecReduce_float_writes (d a : Reg) {t : VTy} (ht : t = .f32 ∨ t = .f64) (ident : Nat) (op : Nat → Nat → FRes) (s : State) :
    let r := treeAll op (if t = .f64 then 4 else 5) (s.g.elemOr t ident a)
    ∃ u, vecReduce d a t ident op s = .next u ∧ WritesScalar s d (BitVec.ofNat 64 r.bits) r.fl u := by
  have w := vecReduce_writes d a t ident op s
  have hi : t ≠ .i32 := by rcases ht with rfl | rfl <;> decide
  simpa only [if_neg hi] using w

theorem execVRmax_of_fty {t : BitVec 4} {p : FTy} (h : (VTy.of t).fty = some p) (d a : Reg) (s : State) :
    execVRmax d a t s = vecReduce d a (VTy.of t) (fpInf p true) (fpMaxOp p) s := by rw [execVRmax, h]
theorem execVRmin_of_fty {t : BitVec 4} {p : FTy} (h : (VTy.of t).fty = some p) (d a : Reg) (s : State) :
    execVRmin d a t s = vecReduce d a (VTy.of t) (fpInf p false) (fpMin p) s := by rw [execVRmin, h]
theorem execVRmax_of_int {t : BitVec 4} (h : (VTy.of t).fty = none) (d a : Reg) (s : State) : execVRmax d a t s =
    vecReduce d a (VTy.of t) (wrapInt 32 (intRange (VTy.of t).signed 32).1) (pickInt (VTy.of t) max) s := by rw [execVRmax, h]
theorem execVRmin_of_int {t : BitVec 4} (h : (VTy.of t).fty = none) (d a : Reg) (s : State) : execVRmin d a t s =
    vecReduce d a (VTy.of t) (wrapInt 32 (intRange (VTy.of t).signed 32).2) (pickInt (VTy.of t) min) s := by rw [execVRmin, h]

theorem ofNat_wrapInt (x : Int) : BitVec.ofNat 64 (wrapInt 64 x) = BitVec.ofInt 64 x := by
  apply BitVec.eq_of_toNat_eq
  rw [BitVec.toNat_ofNat, Nat.mod_eq_of_lt (wrapInt_lt 64 x), BitVec.toNat_ofInt]
  rfl

/-! ### Types -/

theorem fty_of_float {t : VTy} (h : t = .f32 ∨ t = .f64) : t.fty = some (vFp t) := by rcases h with rfl | rfl <;> rfl
theorem fty_of_int {t : VTy} (h : t = .i32 ∨ t = .n32) : t.fty = none := by rcases h with rfl | rfl <;> rfl
theorem width_of_int {t : VTy} (h : t = .i32 ∨ t = .n32) : t.width = 32 := by rcases h with rfl | rfl <;> rfl
theorem vtLane_of_width {t : VTy} (h : t.width = 32) (i : Nat) : vtLane t i = i := by
  cases t <;> cases h <;> rfl

/-! ### Scans -/

/-- Running value `j` of a scan that starts at lane `i`. -/
def scanAt (op : Nat → Nat → FRes) (x : Nat → Nat) (i run : Nat) : Nat → Nat
  | 0 => (op run (x i)).bits
  | j + 1 => (op (scanAt op x i run j) (x (i + j + 1))).bits

theorem scanAt_succ (op : Nat → Nat → FRes) (x : Nat → Nat) (i run j : Nat) :
    scanAt op x (i + 1) (op run (x i)).bits j = scanAt op x i run (j + 1) := by
  induction j with
  | zero => rfl
  | succ j ih =>
    rw [scanAt, ih, show i + 1 + j + 1 = i + (j + 1) + 1 by omega]
    rfl

theorem scanFrom_getD (op : Nat → Nat → FRes) (x : Nat → Nat) (n i run j : Nat) (hj : j < n) :
    (scanFrom op x n i run).1.getD j 0 = scanAt op x i run j := by
  induction n generalizing i run j with
  | zero => omega
  | succ n ih =>
    cases j with
    | zero => rfl
    | succ j => exact (ih (i + 1) _ j (by omega)).trans (scanAt_succ op x i run j)

theorem scanFrom_noFlags {op : Nat → Nat → FRes} (h : ∀ p q, (op p q).fl = 0) (x : Nat → Nat) (n i run : Nat) :
    (scanFrom op x n i run).2 = 0 := by
  induction n generalizing i run with
  | zero => rfl
  | succ n ih => rw [scanFrom, h, ih]; rfl

/-- Addition at 32 bits, as a scan's operation (03 R84). -/
def addLow (p q : Nat) : FRes := ⟨(p + q) % 2 ^ 32, Flags.none⟩

/-- The running value is the sum of the active lanes so far. -/
theorem scanAt_addLow (act : Nat → Bool) (v : Nat → Nat) (j : Nat) :
    scanAt addLow (fun i => if act i then v i else 0) 0 0 j = (((List.range (j + 1)).filter act).map v).sum % 2 ^ 32 := by
  have last (n : Nat) : (((List.range (n + 1)).filter act).map v).sum =
      (((List.range n).filter act).map v).sum + if act n then v n else 0 := by
    rw [List.range_succ, List.filter_append, List.map_append, List.sum_append]
    cases h : act n <;> simp [h]
  induction j with
  | zero =>
    rw [last 0]
    simp [scanAt, addLow]
  | succ j ih => rw [scanAt, ih, last (j + 1), addLow, Nat.zero_add, Nat.mod_add_mod]

/-- v.scan completes with the running values and their flags. -/
theorem execVScan_writes (d a : Reg) (c : BitVec 4) (r : BitVec 2) (s : State) :
    let y := VTy.of c
    let ident := if y = .f32 then fpZero .f32 true else 0
    let x (i : Nat) : Nat := if s.g.active i then (lane (s.g.vr a) i).toNat else ident
    let op (p q : Nat) : FRes := if y = .f32 then fpAdd .f32 (Rm.ofCode r) false false p q else addLow p q
    ∃ t, execVScan d a c r s = .next t ∧
      WritesVector s d .i32 (fun i _ => scanAt op x 0 ident i) (scanFrom op x 96 0 ident).2 t := by
  intro y ident x op
  obtain ⟨t, ht, w⟩ := vecLanes_writes 6 d (fun _ i => BitVec.ofNat 32 ((scanFrom op x 96 0 ident).1.getD i 0))
    (s.modG (·.orFpf (scanFrom op x 96 0 ident).2))
  refine ⟨t, ht, w.of_orFpf.congr fun i k hi _ => ?_⟩
  rw [scanFrom_getD op x 96 0 ident i hi, BitVec.toNat_ofNat]
  exact Nat.mod_mod _ _

end Sys2Proof.Machine

namespace Sys2Proof.Proofs

open Sys2Proof.Machine

/-- Settles O18: floating-point and integer reductions are roots of one tree, sums run over the active lanes, and a scan's
running values are given by recursion on the lane. -/
theorem vectorReductions : Obligations.VectorReductions := by
  intro s d a t r
  refine ⟨fun hT => ⟨?fsum, ?fmax, ?fmin⟩, fun hT => ⟨?imax, ?imin, ?isum, ?iscan⟩, fun hT => ?fscan⟩
  case fsum => exact vecReduce_float_writes d a hT (fpZero (vFp (VTy.of t)) true) (fpAdd (vFp (VTy.of t)) .rne false false) s
  case fmax =>
    have h := vecReduce_float_writes d a hT (fpInf (vFp (VTy.of t)) true) (fpMaxOp (vFp (VTy.of t))) s
    rw [← execVRmax_of_fty (fty_of_float hT)] at h
    exact h
  case fmin =>
    have h := vecReduce_float_writes d a hT (fpInf (vFp (VTy.of t)) false) (fpMin (vFp (VTy.of t))) s
    rw [← execVRmin_of_fty (fty_of_float hT)] at h
    exact h
  case imax =>
    have h := vecReduce_pickInt_writes d a hT (wrapInt 32 (intRange (VTy.of t).signed 32).1) max s
    rw [← execVRmax_of_int (fty_of_int hT)] at h
    exact h
  case imin =>
    have h := vecReduce_pickInt_writes d a hT (wrapInt 32 (intRange (VTy.of t).signed 32).2) min s
    rw [← execVRmin_of_int (fty_of_int hT)] at h
    exact h
  case isum =>
    simp only [vtLane_of_width (width_of_int hT), ofNat_wrapInt]
    exact ⟨_, rfl, setS_spendWord_advance_writes s.g.vleaf 6 d _ s⟩
  case iscan =>
    have hw := width_of_int hT
    obtain ⟨u, hu, w⟩ := execVScan_writes d a t r s
    have hf : VTy.of t ≠ .f32 := fun h => by rw [h] at hT; rcases hT with h | h <;> cases h
    simp only [if_neg hf] at w
    rw [scanFrom_noFlags fun _ _ => rfl] at w
    refine ⟨u, hu, (w.congr fun i k _ _ => ?_).of_i32 hw⟩
    simp only [vtLane_of_width hw]
    exact (congrArg (· % 2 ^ 32) (scanAt_addLow s.g.active (fun j => (lane (s.g.vr a) j).toNat) i)).trans (Nat.mod_mod _ _)
  case fscan =>
    obtain ⟨u, hu, w⟩ := execVScan_writes d a t r s
    simp only [hT, if_true] at w
    refine ⟨_, _, ?_, ?_, u, hu, w.of_i32 rfl⟩
    all_goals simp only [hT, elemGet_of_width_32 (t := .f32) rfl]
    · rfl
    · intro i hi
      rw [scanAt, Nat.zero_add]
      rfl

end Sys2Proof.Proofs
end

section
/-! PROOFS. Rounding to f32 by places (03 R71, R78): a place is the number of a finite f32 magnitude in ascending order, rounding down and
up finds the places beside a quotient, and a magnitude at a place is its own rounding. -/

namespace Sys2Proof.Machine

/-! ### Places: the finite f32 magnitudes in ascending order -/

/-- The magnitude at place `p`, in units of 2^−149: place 0 is zero, and an encoding without its sign is a place. -/
def placeUnits (p : Nat) : Nat := if p < 2 ^ 23 then p else (2 ^ 23 + p % 2 ^ 23) * 2 ^ (p / 2 ^ 23 - 1)

/-- A significand `q` and a quantum of 2^j units. -/
theorem placeUnits_mk {j q : Nat} (h : j = 0 ∨ 2 ^ 23 ≤ q) (hq : q ≤ 2 ^ 24) : placeUnits (j * 2 ^ 23 + q) = q * 2 ^ j := by
  unfold placeUnits
  by_cases h0 : q < 2 ^ 23
  · obtain rfl : j = 0 := by omega
    rw [if_pos (by omega)]
    omega
  · rw [if_neg (by omega)]
    rcases Nat.lt_or_eq_of_le hq with h1 | rfl
    · have e1 : (j * 2 ^ 23 + q) % 2 ^ 23 = q - 2 ^ 23 := by omega
      have e2 : (j * 2 ^ 23 + q) / 2 ^ 23 - 1 = j := by omega
      rw [e1, e2, Nat.add_sub_cancel' (by omega)]
    · have e1 : (j * 2 ^ 23 + 2 ^ 24) % 2 ^ 23 = 0 := by omega
      have e2 : (j * 2 ^ 23 + 2 ^ 24) / 2 ^ 23 - 1 = j + 1 := by omega
      rw [e1, e2, pow_succ]
      omega

/-- Every place has a significand and a quantum. -/
theorem exists_place_parts (p : Nat) : ∃ j q, p = j * 2 ^ 23 + q ∧ (j = 0 ∨ 2 ^ 23 ≤ q) ∧ q < 2 ^ 24 := by
  by_cases h : p < 2 ^ 23
  · exact ⟨0, p, by omega, .inl rfl, by omega⟩
  · exact ⟨p / 2 ^ 23 - 1, 2 ^ 23 + p % 2 ^ 23, by omega, .inr (by omega), by omega⟩

theorem placeUnits_lt_succ (p : Nat) : placeUnits p < placeUnits (p + 1) := by
  obtain ⟨j, q, rfl, h, hq⟩ := exists_place_parts p
  rw [Nat.add_assoc, placeUnits_mk h hq.le, placeUnits_mk (h.imp_right fun h => h.trans (Nat.le_succ q)) hq]
  exact Nat.mul_lt_mul_of_pos_right (Nat.lt_succ_self q) (Nat.two_pow_pos j)

theorem placeUnits_strictMono : StrictMono placeUnits := strictMono_nat_of_lt_succ placeUnits_lt_succ

/-- The place of the greatest finite value. -/
def maxPlace : Nat := 0x7F7FFFFF

theorem placeUnits_maxPlace : placeUnits maxPlace = (2 ^ 24 - 1) * 2 ^ 253 :=
  (congrArg placeUnits (by decide : maxPlace = 253 * 2 ^ 23 + (2 ^ 24 - 1))).trans
    (placeUnits_mk (.inr (by decide)) (by decide))

/-! ### The binade of a quotient -/

/-- floor(log2) of a positive quotient, scaled by a power of two that makes the exponent a natural number. -/
theorem floorLog2_spec {num den : Nat} (hn : 0 < num) (hd : 0 < den) (t : Nat) (ht : -(t : Int) ≤ floorLog2 num den) :
    den * 2 ^ (floorLog2 num den + t).toNat ≤ num * 2 ^ t ∧ num * 2 ^ t < den * 2 ^ (floorLog2 num den + t + 1).toNat := by
  have a1 : 2 ^ num.log2 ≤ num := Nat.log2_self_le hn.ne'
  have a2 : num < 2 ^ (num.log2 + 1) := Nat.lt_log2_self
  have b1 : 2 ^ den.log2 ≤ den := Nat.log2_self_le hd.ne'
  have b2 : den < 2 ^ (den.log2 + 1) := Nat.lt_log2_self
  generalize hA : num.log2 = A at a1 a2
  generalize hB : den.log2 = B at b1 b2
  unfold floorLog2 at ht ⊢
  rw [hA, hB] at ht ⊢
  dsimp only at ht ⊢
  -- the two ways in which the exponent is found, each with its upper or lower half
  have low (x : Nat) (hx : B + 1 + x ≤ A + t) : den * 2 ^ x ≤ num * 2 ^ t := by
    calc den * 2 ^ x ≤ 2 ^ (B + 1) * 2 ^ x := Nat.mul_le_mul_right _ b2.le
      _ = 2 ^ (B + 1 + x) := (pow_add _ _ _).symm
      _ ≤ 2 ^ (A + t) := Nat.pow_le_pow_right Nat.two_pos hx
      _ = 2 ^ A * 2 ^ t := pow_add _ _ _
      _ ≤ num * 2 ^ t := Nat.mul_le_mul_right _ a1
  have high (x : Nat) (hx : A + 1 + t ≤ B + x) : num * 2 ^ t < den * 2 ^ x := by
    calc num * 2 ^ t < 2 ^ (A + 1) * 2 ^ t := Nat.mul_lt_mul_of_pos_right a2 (Nat.two_pow_pos t)
      _ = 2 ^ (A + 1 + t) := (pow_add _ _ _).symm
      _ ≤ 2 ^ (B + x) := Nat.pow_le_pow_right Nat.two_pos hx
      _ = 2 ^ B * 2 ^ x := pow_add _ _ _
      _ ≤ den * 2 ^ x := Nat.mul_le_mul_right _ b1
  by_cases hg : (0 : Int) ≤ (A : Int) - B
  · rw [if_pos hg] at ht ⊢
    obtain ⟨g, hgB⟩ : ∃ g : Nat, A = B + g := ⟨A - B, by omega⟩
    have hgn : ((A : Int) - B).toNat = g := by omega
    rw [hgn] at ht ⊢
    by_cases hc : num < den * 2 ^ g
    · rw [if_pos hc] at ht ⊢
      refine ⟨low _ (by omega), ?_⟩
      have e : ((A : Int) - B - 1 + t + 1).toNat = g + t := by omega
      rw [e, pow_add, ← Nat.mul_assoc]
      exact Nat.mul_lt_mul_of_pos_right hc (Nat.two_pow_pos t)
    · rw [if_neg hc] at ht ⊢
      refine ⟨?_, high _ (by omega)⟩
      have e : ((A : Int) - B + t).toNat = g + t := by omega
      rw [e, pow_add, ← Nat.mul_assoc]
      exact Nat.mul_le_mul_right _ (Nat.le_of_not_lt hc)
  · rw [if_neg hg] at ht ⊢
    obtain ⟨g, hgB⟩ : ∃ g : Nat, B = A + g := ⟨B - A, by omega⟩
    have hgn : (-((A : Int) - B)).toNat = g := by omega
    rw [hgn] at ht ⊢
    by_cases hc : num * 2 ^ g < den
    · rw [if_pos hc] at ht ⊢
      refine ⟨low _ (by omega), ?_⟩
      have e : ((A : Int) - B - 1 + t + 1).toNat = t - g := by omega
      have e' : t = g + (t - g) := by omega
      rw [e]
      conv_lhs => rw [e', pow_add, ← Nat.mul_assoc]
      exact Nat.mul_lt_mul_of_pos_right hc (Nat.two_pow_pos _)
    · rw [if_neg hc] at ht ⊢
      refine ⟨?_, high _ (by omega)⟩
      have e : ((A : Int) - B + t).toNat = t - g := by omega
      have e' : t = g + (t - g) := by omega
      rw [e]
      conv_rhs => rw [e', pow_add, ← Nat.mul_assoc]
      exact Nat.mul_le_mul_right _ (Nat.le_of_not_lt hc)

/-! ### The place below a quotient -/

/-- The quantum of the f32 values about num / den is 2^(this) units. -/
def quantum (num den : Nat) : Nat := (max (floorLog2 num den) (-126) + 126).toNat

theorem quantum_low {num den : Nat} (hn : 0 < num) (hd : 0 < den) :
    quantum num den = 0 ∨ den * 2 ^ quantum num den ≤ num * 2 ^ 126 := by
  unfold quantum
  by_cases h : -126 ≤ floorLog2 num den
  · rw [max_eq_left h]
    exact .inr (floorLog2_spec hn hd 126 h).1
  · exact .inl (by omega)

theorem quantum_high {num den : Nat} (hn : 0 < num) (hd : 0 < den) : num * 2 ^ 126 < den * 2 ^ (quantum num den + 1) := by
  unfold quantum
  by_cases h : -126 ≤ floorLog2 num den
  · rw [max_eq_left h]
    have s := (floorLog2_spec hn hd 126 h).2
    have e : (floorLog2 num den + (126 : Nat) + 1).toNat = (floorLog2 num den + 126).toNat + 1 := by omega
    rwa [e] at s
  · have s := (floorLog2_spec hn hd (-floorLog2 num den).toNat (by omega)).2
    have e : (floorLog2 num den + (-floorLog2 num den).toNat + 1).toNat = 1 := by omega
    have e' : (max (floorLog2 num den) (-126) + 126).toNat = 0 := by omega
    rw [e] at s
    rw [e']
    have m : num * 2 ^ (126 + 1) ≤ num * 2 ^ (-floorLog2 num den).toNat :=
      Nat.mul_le_mul_left _ (Nat.pow_le_pow_right Nat.two_pos (by omega))
    rw [pow_succ, ← Nat.mul_assoc] at m
    omega

theorem mul_two_pow_149 (n : Nat) : n * 2 ^ 149 = 2 ^ 23 * (n * 2 ^ 126) := by
  rw [Nat.mul_left_comm, ← pow_add]

/-- The significand below num / den. -/
def floorSig (num den : Nat) : Nat := num * 2 ^ 149 / (den * 2 ^ quantum num den)

/-- The place of the greatest f32 value not above num / den, if there were no greatest finite one. -/
def floorPlace (num den : Nat) : Nat := quantum num den * 2 ^ 23 + floorSig num den

section
variable {num den : Nat} (hn : 0 < num) (hd : 0 < den)
include hn hd

theorem floorSig_lt : floorSig num den < 2 ^ 24 := by
  refine (Nat.div_lt_iff_lt_mul (Nat.mul_pos hd (Nat.two_pow_pos _))).mpr ?_
  have h := quantum_high hn hd
  rw [pow_succ 2 (quantum num den), ← Nat.mul_assoc] at h
  rw [mul_two_pow_149]
  omega

theorem floorSig_ge : quantum num den = 0 ∨ 2 ^ 23 ≤ floorSig num den := by
  refine (quantum_low hn hd).imp_right fun h => ?_
  refine (Nat.le_div_iff_mul_le (Nat.mul_pos hd (Nat.two_pow_pos _))).mpr ?_
  rw [mul_two_pow_149]
  exact Nat.mul_le_mul_left _ h

theorem placeUnits_floorPlace : placeUnits (floorPlace num den) = floorSig num den * 2 ^ quantum num den :=
  placeUnits_mk (floorSig_ge hn hd) (floorSig_lt hn hd).le

theorem placeUnits_floorPlace_succ : placeUnits (floorPlace num den + 1) = (floorSig num den + 1) * 2 ^ quantum num den := by
  rw [floorPlace, Nat.add_assoc]
  exact placeUnits_mk ((floorSig_ge hn hd).imp_right fun h => by omega) (floorSig_lt hn hd)

theorem floorPlace_le : placeUnits (floorPlace num den) * den ≤ num * 2 ^ 149 := by
  rw [placeUnits_floorPlace hn hd, Nat.mul_assoc, Nat.mul_comm (2 ^ _)]
  exact Nat.div_mul_le_self _ _

theorem lt_floorPlace_succ : num * 2 ^ 149 < placeUnits (floorPlace num den + 1) * den := by
  rw [placeUnits_floorPlace_succ hn hd, Nat.mul_assoc, Nat.mul_comm (2 ^ _)]
  rw [Nat.mul_comm (_ + 1)]
  exact Nat.lt_mul_div_succ _ (Nat.mul_pos hd (Nat.two_pow_pos _))

/-- Places at or below num / den. -/
theorem le_floorPlace {p : Nat} (h : placeUnits p * den ≤ num * 2 ^ 149) : p ≤ floorPlace num den := by
  have h' := h.trans_lt (lt_floorPlace_succ hn hd)
  exact Nat.lt_succ_iff.mp (placeUnits_strictMono.lt_iff_lt.mp (Nat.lt_of_mul_lt_mul_right h'))

/-- Places above num / den. -/
theorem floorPlace_lt {p : Nat} (h : num * 2 ^ 149 < placeUnits p * den) : floorPlace num den < p :=
  placeUnits_strictMono.lt_iff_lt.mp (Nat.lt_of_mul_lt_mul_right ((floorPlace_le hn hd).trans_lt h))

/-- The exponent field of the place below a quotient, with 1 for that of a subnormal. -/
theorem max_floorPlace_div : max (floorPlace num den / 2 ^ 23) 1 = quantum num den + 1 := by
  have h1 := floorSig_lt hn hd
  have h2 := floorSig_ge hn hd
  unfold floorPlace
  omega

end

/-! ### Rounding to f32 -/

/-- What num / den leaves above the place below it, in the scale of `floorSig`. -/
def floorRem (num den : Nat) : Nat := num * 2 ^ 149 % (den * 2 ^ quantum num den)

/-- Nothing is left where the quotient stands at a place. -/
theorem floorRem_eq_zero_iff {num den : Nat} (hn : 0 < num) (hd : 0 < den) :
    floorRem num den = 0 ↔ placeUnits (floorPlace num den) * den = num * 2 ^ 149 := by
  have h := Nat.div_add_mod (num * 2 ^ 149) (den * 2 ^ quantum num den)
  have e : placeUnits (floorPlace num den) * den = den * 2 ^ quantum num den * (num * 2 ^ 149 / (den * 2 ^ quantum num den)) := by
    rw [placeUnits_floorPlace hn hd, floorSig]
    ring
  unfold floorRem
  omega

/-- The quotient and remainder that `roundTo` forms are those of the scale in which the quantum is one unit. -/
theorem scaled_by (num den j : Nat) :
    let qe : Int := (j : Int) - 149
    let n := if 0 ≤ qe then num else num * 2 ^ (-qe).toNat
    let d := if 0 ≤ qe then den * 2 ^ qe.toNat else den
    ∃ c, 0 < c ∧ num * 2 ^ 149 = n * c ∧ den * 2 ^ j = d * c := by
  intro qe n d
  by_cases h : 0 ≤ qe
  · refine ⟨2 ^ 149, Nat.two_pow_pos _, by simp only [n, if_pos h], ?_⟩
    simp only [d, if_pos h, Nat.mul_assoc, ← pow_add]
    congr 2
    omega
  · refine ⟨2 ^ j, Nat.two_pow_pos _, ?_, by simp only [d, if_neg h]⟩
    simp only [n, if_neg h, Nat.mul_assoc, ← pow_add]
    congr 2
    omega

/-- The end of `roundTo` into f32: a rounded significand `q` with a quantum of 2^qe becomes an encoding. -/
def packSig (rm : Rm) (s : Bool) (q : Nat) (qe : Int) (inexact : Bool) : FRes :=
  let m := if q = 2 ^ 24 then 2 ^ 23 else q
  let qe' := if q = 2 ^ 24 then qe + 1 else qe
  if 104 < qe' ∨ (qe' = 104 ∧ 2 ^ 24 - 1 < m) then ⟨overflowTo .f32 rm false s, Flags.ov ||| Flags.nx⟩
  else
    let tiny : Bool := m < 2 ^ 23
    let fl := Flags.nx.when inexact ||| Flags.uf.when (inexact && tiny)
    if tiny then ⟨fpPack .f32 s 0 m, fl⟩ else ⟨fpPack .f32 s ((qe' + 23 + 127).toNat) (m - 2 ^ 23), fl⟩

/-- The encoding is the place of the significand; past the greatest finite place it overflows. -/
theorem packSig_eq (rm : Rm) (s : Bool) {j q : Nat} (hj : j = 0 ∨ 2 ^ 23 ≤ q) (hq : q ≤ 2 ^ 24) (inexact : Bool) :
    packSig rm s q ((j : Int) - 149) inexact =
      if maxPlace < j * 2 ^ 23 + q then ⟨overflowTo .f32 rm false s, Flags.ov ||| Flags.nx⟩
      else ⟨b2n s * 2 ^ 31 + (j * 2 ^ 23 + q),
        Flags.nx.when inexact ||| Flags.uf.when (inexact && j * 2 ^ 23 + q < 2 ^ 23)⟩ := by
  unfold packSig fpPack maxPlace
  rcases Nat.lt_or_eq_of_le hq with h1 | rfl
  · have hne : q ≠ 2 ^ 24 := h1.ne
    simp only [if_neg hne]
    by_cases hov : 0x7F7FFFFF < j * 2 ^ 23 + q
    · rw [if_pos hov, if_pos (by omega)]
    · rw [if_neg hov, if_neg (by omega)]
      by_cases ht : q < 2 ^ 23
      · obtain rfl : j = 0 := by omega
        have e0 : 0 * 2 ^ 23 + q = q := by omega
        have e1 : b2n s * 2 ^ (fpBits .f32 - 1) + 0 * 2 ^ fpFrac .f32 + q = b2n s * 2 ^ 31 + q := by
          rw [Nat.zero_mul, Nat.add_zero]
          rfl
        rw [e0, e1, if_pos (decide_eq_true ht)]
      · have ht' : ¬ j * 2 ^ 23 + q < 2 ^ 23 := by omega
        have he : ((j : Int) - 149 + 23 + 127).toNat = j + 1 := by omega
        simp only [ht, ht', he, decide_false, Bool.false_eq_true, if_false, fpBits, fpFrac, FRes.mk.injEq, and_true]
        omega
  · simp only [if_true]
    by_cases hov : 0x7F7FFFFF < j * 2 ^ 23 + 2 ^ 24
    · rw [if_pos hov, if_pos (by omega)]
    · rw [if_neg hov, if_neg (by omega)]
      have ht' : ¬ j * 2 ^ 23 + 2 ^ 24 < 2 ^ 23 := by omega
      have he : ((j : Int) - 149 + 1 + 23 + 127).toNat = j + 2 := by omega
      simp only [ht', he, Nat.lt_irrefl, decide_false, Bool.false_eq_true, if_false, fpBits, fpFrac, FRes.mk.injEq, and_true]
      omega

/-- Rounding into f32 takes the place below the quotient or, where its mode rounds up, the one after it. -/
theorem roundTo_f32 (rm : Rm) (s : Bool) {num den : Nat} (hn : 0 < num) (hd : 0 < den) :
    ∃ d r, 0 < d ∧ (r = 0 ↔ floorRem num den = 0) ∧
      let p := floorPlace num den + b2n (roundsUp rm s (floorSig num den) r d)
      roundTo .f32 rm false s num den =
        if maxPlace < p then ⟨overflowTo .f32 rm false s, Flags.ov ||| Flags.nx⟩
        else ⟨b2n s * 2 ^ 31 + p, Flags.nx.when (r ≠ 0) ||| Flags.uf.when (r ≠ 0 && p < 2 ^ 23)⟩ := by
  have hqe : max (floorLog2 num den) (fpEmin .f32) - (fpFrac .f32 : Int) = (quantum num den : Int) - 149 := by
    have h1 : fpEmin .f32 = -126 := rfl
    have h2 : fpFrac .f32 = 23 := rfl
    unfold quantum
    omega
  obtain ⟨c, hc, hN, hD⟩ := scaled_by num den (quantum num den)
  rw [← hqe] at hN hD
  generalize hn' : (if 0 ≤ max (floorLog2 num den) (fpEmin .f32) - (fpFrac .f32 : Int) then num
    else num * 2 ^ (-(max (floorLog2 num den) (fpEmin .f32) - (fpFrac .f32 : Int))).toNat) = n at hN
  generalize hd' : (if 0 ≤ max (floorLog2 num den) (fpEmin .f32) - (fpFrac .f32 : Int)
    then den * 2 ^ (max (floorLog2 num den) (fpEmin .f32) - (fpFrac .f32 : Int)).toNat else den) = d at hD
  have hq : n / d = floorSig num den := by rw [floorSig, hN, hD, Nat.mul_div_mul_right _ _ hc]
  have hr : n % d = 0 ↔ floorRem num den = 0 := by
    rw [floorRem, hN, hD, Nat.mul_mod_mul_right, Nat.mul_eq_zero, or_iff_left hc.ne']
  refine ⟨d, n % d, Nat.pos_of_mul_pos_right (hD ▸ Nat.mul_pos hd (Nat.two_pow_pos _)), hr, ?_⟩
  have hpack : roundTo .f32 rm false s num den =
      packSig rm s (if roundsUp rm s (n / d) (n % d) d then n / d + 1 else n / d) ((quantum num den : Int) - 149) (n % d ≠ 0) := by
    rw [← hqe, ← hn', ← hd']
    rfl
  rw [hpack, hq]
  have hup (b : Bool) : (if b = true then floorSig num den + 1 else floorSig num den) = floorSig num den + b2n b := by
    cases b <;> rfl
  have h1 := floorSig_lt hn hd
  have h2 := floorSig_ge hn hd
  have hb (b : Bool) : b2n b ≤ 1 := by cases b <;> decide
  rw [hup, packSig_eq rm s (h2.imp_right (by omega)) (by have := hb (roundsUp rm s (floorSig num den) (n % d) d); omega)]
  simp only [floorPlace, Nat.add_assoc]

/-! ### Rounding down, up, and not at all -/

section
variable {num den : Nat} (hn : 0 < num) (hd : 0 < den)
include hn hd

/-- Rounding toward zero takes the place below, or the greatest finite one. -/
theorem roundTo_rtz_bits : (roundTo .f32 .rtz false false num den).bits = min (floorPlace num den) maxPlace := by
  obtain ⟨d, r, -, -, h⟩ := roundTo_f32 .rtz false hn hd
  have hu : b2n (roundsUp .rtz false (floorSig num den) r d) = 0 := rfl
  rw [h, hu, Nat.add_zero]
  split
  · next ho => exact (min_eq_right ho.le).symm
  · next ho =>
    rw [min_eq_left (Nat.le_of_not_lt ho)]
    exact Nat.zero_add _

/-- A rounded-up magnitude is at most any place that is not below the quotient. -/
theorem roundTo_rup_bits_le {p : Nat} (hp : p ≤ maxPlace) (h : num * 2 ^ 149 ≤ placeUnits p * den) :
    (roundTo .f32 .rup false false num den).bits ≤ p := by
  obtain ⟨d, r, -, hr, e⟩ := roundTo_f32 .rup false hn hd
  have hle : floorPlace num den + b2n (roundsUp .rup false (floorSig num den) r d) ≤ p := by
    by_cases h0 : r = 0
    · have hz : placeUnits (floorPlace num den) * den = num * 2 ^ 149 := (floorRem_eq_zero_iff hn hd).mp (hr.mp h0)
      have hu : b2n (roundsUp .rup false (floorSig num den) r d) = 0 := by simp [roundsUp, h0, b2n]
      rw [hu, Nat.add_zero]
      exact placeUnits_strictMono.le_iff_le.mp (Nat.le_of_mul_le_mul_right (hz.trans_le h) hd)
    · have hz : placeUnits (floorPlace num den) * den ≠ num * 2 ^ 149 := fun hz => h0 (hr.mpr ((floorRem_eq_zero_iff hn hd).mpr hz))
      have hu : b2n (roundsUp .rup false (floorSig num den) r d) = 1 := by simp [roundsUp, h0, b2n]
      rw [hu]
      exact placeUnits_strictMono.lt_iff_lt.mp
        (Nat.lt_of_mul_lt_mul_right ((lt_of_le_of_ne (floorPlace_le hn hd) hz).trans_le h))
  rw [e, if_neg (by omega)]
  exact (Nat.zero_add _).trans_le hle

/-- A rounded-up magnitude that is finite is not below the quotient. -/
theorem le_roundTo_rup_bits (h : (roundTo .f32 .rup false false num den).bits ≤ maxPlace) :
    num * 2 ^ 149 ≤ placeUnits (roundTo .f32 .rup false false num den).bits * den := by
  obtain ⟨d, r, -, hr, e⟩ := roundTo_f32 .rup false hn hd
  rw [e] at h ⊢
  split at h
  · exact absurd h (by decide)
  · next ho =>
    rw [if_neg ho]
    show _ ≤ placeUnits (0 * 2 ^ 31 + _) * den
    rw [Nat.zero_mul, Nat.zero_add]
    by_cases h0 : r = 0
    · have hu : b2n (roundsUp .rup false (floorSig num den) r d) = 0 := by simp [roundsUp, h0, b2n]
      rw [hu, Nat.add_zero]
      exact ((floorRem_eq_zero_iff hn hd).mp (hr.mp h0)).ge
    · have hu : b2n (roundsUp .rup false (floorSig num den) r d) = 1 := by simp [roundsUp, h0, b2n]
      rw [hu]
      exact (lt_floorPlace_succ hn hd).le

/-- A finite f32 magnitude is its own rounding in every mode, without flags. -/
theorem roundTo_of_place (rm : Rm) (s : Bool) {p : Nat} (hp : p ≤ maxPlace) (h : placeUnits p * den = num * 2 ^ 149) :
    roundTo .f32 rm false s num den = ⟨b2n s * 2 ^ 31 + p, 0⟩ := by
  obtain ⟨d, r, hd0, hr, e⟩ := roundTo_f32 rm s hn hd
  have hfp : floorPlace num den = p := Nat.le_antisymm
    (Nat.lt_succ_iff.mp (floorPlace_lt hn hd (h ▸ Nat.mul_lt_mul_of_pos_right (placeUnits_lt_succ p) hd)))
    (le_floorPlace hn hd h.le)
  obtain rfl : r = 0 := hr.mpr ((floorRem_eq_zero_iff hn hd).mpr (hfp ▸ h))
  have hu : roundsUp rm s (floorSig num den) 0 d = false := by
    cases rm <;> simp [roundsUp, hd0.ne]
  rw [e, hu, hfp]
  simp [b2n, Flags.when, Nat.not_lt.mpr hp]

end

end Sys2Proof.Machine
end

section
/-! PROOFS. Approximations by places (06 R148): the ends of an error bound are places, and what is delivered stands between them. -/

namespace Sys2Proof.Machine

/-! ### The ends of an error bound (06 R148) -/

section
variable {num err den bn bd : Nat} (hd : 0 < den) (hbd : 0 < bd)
include hd hbd

/-- The upper end is a finite place. -/
theorem approxEnds_high_le (hb : 0 < bn) : 0 ≤ (approxEnds num err den bn bd).2 ∧ (approxEnds num err den bn bd).2 ≤ maxPlace := by
  have hu : 0 < num * bd + bn * den := Nat.add_pos_right _ (Nat.mul_pos hb hd)
  unfold approxEnds
  dsimp only
  rw [roundTo_rtz_bits hu (Nat.mul_pos hd hbd)]
  omega

/-- A place at or below the upper end does not exceed the quotient by more than the bound. -/
theorem le_of_le_approxEnds_high (hb : 0 < bn) {n : Nat} (h : (n : Int) ≤ (approxEnds num err den bn bd).2) :
    placeUnits n * (den * bd) ≤ (num * bd + bn * den) * 2 ^ 149 := by
  have hu : 0 < num * bd + bn * den := Nat.add_pos_right _ (Nat.mul_pos hb hd)
  have hD := Nat.mul_pos hd hbd
  unfold approxEnds at h
  dsimp only at h
  rw [roundTo_rtz_bits hu hD] at h
  have hn : n ≤ floorPlace (num * bd + bn * den) (den * bd) := by omega
  exact (Nat.mul_le_mul_right _ (placeUnits_strictMono.monotone hn)).trans (floorPlace_le hu hD)

/-- A place that does not exceed the quotient by more than the bound is at or below the upper end. -/
theorem le_approxEnds_high (hb : 0 < bn) {p : Nat} (hp : p ≤ maxPlace)
    (h : placeUnits p * (den * bd) ≤ (num * bd + bn * den) * 2 ^ 149) :
    (p : Int) ≤ (approxEnds num err den bn bd).2 := by
  have hu : 0 < num * bd + bn * den := Nat.add_pos_right _ (Nat.mul_pos hb hd)
  have hD := Nat.mul_pos hd hbd
  unfold approxEnds
  dsimp only
  rw [roundTo_rtz_bits hu hD]
  exact Int.ofNat_le.mpr (le_min (le_floorPlace hu hD h) hp)

/-- The lower end is no further below zero than the greatest finite value. -/
theorem neg_maxPlace_le_approxEnds_low : -(maxPlace : Int) ≤ (approxEnds num err den bn bd).1 := by
  unfold approxEnds
  dsimp only
  split
  · exact (Int.neg_nonpos_of_nonneg (Int.natCast_nonneg _)).trans (Int.natCast_nonneg _)
  · split
    · exact Int.neg_nonpos_of_nonneg (Int.natCast_nonneg _)
    · rw [roundTo_rtz_bits (by omega) (Nat.mul_pos hd hbd)]
      omega

/-- A place that falls short of the quotient by no more than the bound is at or above the lower end. -/
theorem approxEnds_low_le {p : Nat} (hp : p ≤ maxPlace)
    (h : (num + err) * bd * 2 ^ 149 ≤ placeUnits p * (den * bd) + bn * den * 2 ^ 149) :
    (approxEnds num err den bn bd).1 ≤ p := by
  unfold approxEnds
  dsimp only
  split
  · next ht =>
    have hl : ((num + err) * bd - bn * den) * 2 ^ 149 ≤ placeUnits p * (den * bd) := by
      rw [Nat.sub_mul]
      omega
    exact_mod_cast roundTo_rup_bits_le (by omega) (Nat.mul_pos hd hbd) hp hl
  · split
    · exact Int.natCast_nonneg _
    · omega

/-- A finite place at or above the lower end falls short of the quotient by no more than the bound. -/
theorem le_of_approxEnds_low_le {n : Nat} (hn : n ≤ maxPlace) (h : (approxEnds num err den bn bd).1 ≤ n) :
    (num + err) * bd * 2 ^ 149 ≤ placeUnits n * (den * bd) + bn * den * 2 ^ 149 := by
  by_cases ht : bn * den < (num + err) * bd
  · unfold approxEnds at h
    dsimp only at h
    rw [if_pos ht] at h
    have hle : (roundTo .f32 .rup false false ((num + err) * bd - bn * den) (den * bd)).bits ≤ n := by exact_mod_cast h
    have hl := le_roundTo_rup_bits (by omega) (Nat.mul_pos hd hbd) (hle.trans hn)
    have hm := Nat.mul_le_mul_right (den * bd) (placeUnits_strictMono.monotone hle)
    rw [Nat.sub_mul] at hl
    omega
  · exact (Nat.mul_le_mul_right _ (Nat.le_of_not_lt ht)).trans (Nat.le_add_left _ _)

end

/-! ### The delivered value -/

/-- The bound of an approximation in units of 2^−150. -/
def approxBound (ulps : Nat) (wide : Bool) (num den : Nat) : Nat :=
  let bn := ulps * 2 ^ max ((roundTo .f32 .rtz false false num den).bits / 2 ^ 23) 1
  if wide then max bn (2 ^ 128) else bn

/-- The least value that may be delivered. -/
def approxLow (ulps : Nat) (wide : Bool) (num err den : Nat) : Int :=
  let lo := (approxEnds num err den (approxBound ulps wide num den) (2 ^ 150)).1
  if !wide ∧ den ≤ num * 2 ^ 150 then max lo 1 else lo

/-- The greatest value that may be delivered. -/
def approxHigh (ulps : Nat) (wide : Bool) (num err den : Nat) : Int :=
  (approxEnds num err den (approxBound ulps wide num den) (2 ^ 150)).2

/-- A finite result that says it is inexact, and tiny where it is. -/
def Inexact (f : FRes) : Prop := f.bits % 2 ^ 31 < 0x7F800000 ∧ f.fl = Flags.nx ||| Flags.uf.when (f.bits % 2 ^ 31 < 2 ^ 23)

/-- An inexact result at a place, by its sign. -/
def atPlace (s : Bool) (n : Nat) : FRes := ⟨b2n s * 2 ^ 31 + n, Flags.nx ||| Flags.uf.when (n < 2 ^ 23)⟩

theorem atPlace_bits_mod (s : Bool) {n : Nat} (h : n ≤ maxPlace) : (atPlace s n).bits % 2 ^ 31 = n := by
  unfold maxPlace at h
  unfold atPlace
  dsimp only
  omega

theorem inexact_atPlace (s : Bool) {n : Nat} (h : n ≤ maxPlace) : Inexact (atPlace s n) := by
  unfold Inexact
  rw [atPlace_bits_mod s h]
  exact ⟨Nat.lt_succ_of_le h, rfl⟩

/-- What is delivered stands at a place between the ends, or at the lower one where they have crossed. -/
theorem approxTo_eq_atPlace (op : Nat) (x : W32) (ulps : Nat) (wide s : Bool) (num err den : Nat) :
    ∃ n : Int, approxLow ulps wide num err den ≤ n ∧
      n ≤ max (approxLow ulps wide num err den) (approxHigh ulps wide num err den) ∧
      approxTo op x ulps wide s num err den = atPlace (s != decide (n < 0)) n.natAbs := by
  have hk : Config.approxPick op x %
      ((approxHigh ulps wide num err den - approxLow ulps wide num err den).toNat + 1) ≤
        (approxHigh ulps wide num err den - approxLow ulps wide num err den).toNat := Nat.lt_succ_iff.mp (Nat.mod_lt _ (Nat.succ_pos _))
  refine ⟨approxLow ulps wide num err den + (Config.approxPick op x %
    ((approxHigh ulps wide num err den - approxLow ulps wide num err den).toNat + 1) : Nat), by omega, by omega, rfl⟩

theorem approxBound_pos {ulps : Nat} (hu : 0 < ulps) (wide : Bool) (num den : Nat) : 0 < approxBound ulps wide num den := by
  have h := Nat.mul_pos hu (Nat.two_pow_pos (max ((roundTo .f32 .rtz false false num den).bits / 2 ^ 23) 1))
  unfold approxBound
  dsimp only
  split
  · exact h.trans_le (le_max_left _ _)
  · exact h

theorem approxEnds_low_le_approxLow (ulps : Nat) (wide : Bool) (num err den : Nat) :
    (approxEnds num err den (approxBound ulps wide num den) (2 ^ 150)).1 ≤ approxLow ulps wide num err den := by
  unfold approxLow
  dsimp only
  split
  · exact le_max_left _ _
  · exact le_rfl

section
variable {ulps num err den : Nat} {wide : Bool} (hu : 0 < ulps) (hd : 0 < den)
include hu hd

theorem approxHigh_le : approxHigh ulps wide num err den ≤ maxPlace :=
  (approxEnds_high_le hd (Nat.two_pow_pos 150) (approxBound_pos hu wide num den)).2

omit hu in
theorem neg_maxPlace_le_approxLow : -(maxPlace : Int) ≤ approxLow ulps wide num err den := by
  have h := neg_maxPlace_le_approxEnds_low (num := num) (err := err) (bn := approxBound ulps wide num den) hd (Nat.two_pow_pos 150)
  unfold approxLow
  dsimp only
  split
  · exact h.trans (le_max_left _ _)
  · exact h

omit hu in
/-- A positive place that falls short by no more than the bound is not below the lower end. -/
theorem approxLow_le {p : Nat} (h1 : 1 ≤ p) (hp : p ≤ maxPlace)
    (h : (num + err) * 2 ^ 150 * 2 ^ 149 ≤ placeUnits p * (den * 2 ^ 150) + approxBound ulps wide num den * den * 2 ^ 149) :
    approxLow ulps wide num err den ≤ p := by
  have hl := approxEnds_low_le hd (Nat.two_pow_pos 150) hp h
  unfold approxLow
  dsimp only
  split
  · exact max_le hl (by exact_mod_cast h1)
  · exact hl

/-- An approximation is finite and inexact where the greatest finite place falls short by no more than the bound. -/
theorem approxTo_inexact (op : Nat) (x : W32) (s : Bool)
    (h : (num + err) * 2 ^ 150 * 2 ^ 149 ≤ placeUnits maxPlace * (den * 2 ^ 150) + approxBound ulps wide num den * den * 2 ^ 149) :
    Inexact (approxTo op x ulps wide s num err den) := by
  have h1 := neg_maxPlace_le_approxLow (ulps := ulps) (num := num) (err := err) (wide := wide) hd
  have h2 := approxLow_le hd (by decide) le_rfl h
  have h3 := approxHigh_le (num := num) (err := err) (wide := wide) hu hd
  obtain ⟨n, hl, hh, e⟩ := approxTo_eq_atPlace op x ulps wide s num err den
  rw [e]
  exact inexact_atPlace _ (by omega)

/-- An approximation without a wide bound of at least 2^−150 stands at a positive place. -/
theorem approxTo_eq_atPlace_pos (op : Nat) (x : W32) (s : Bool) (hden : den ≤ num * 2 ^ 150) {p : Nat} (h1 : 1 ≤ p)
    (hp : p ≤ maxPlace)
    (h : (num + err) * 2 ^ 150 * 2 ^ 149 ≤ placeUnits p * (den * 2 ^ 150) + approxBound ulps false num den * den * 2 ^ 149) :
    ∃ n : Nat, 0 < n ∧ n ≤ maxPlace ∧ approxLow ulps false num err den ≤ n ∧
      n ≤ max (approxLow ulps false num err den) (approxHigh ulps false num err den) ∧
      approxTo op x ulps false s num err den = atPlace s n := by
  have h2 := approxLow_le hd h1 hp h
  have h3 := approxHigh_le (num := num) (err := err) (wide := false) hu hd
  have h4 : 1 ≤ approxLow ulps false num err den := by
    unfold approxLow
    exact (le_max_right _ _).trans_eq (if_pos ⟨rfl, hden⟩).symm
  obtain ⟨n, hl, hh, e⟩ := approxTo_eq_atPlace op x ulps false s num err den
  refine ⟨n.natAbs, by omega, by omega, by omega, by omega, ?_⟩
  rw [e, show decide (n < 0) = false from decide_eq_false (by omega), Bool.bne_false]

omit hu hd in
theorem high_scale (P num den B : Nat) :
    P * (den * 2 ^ 150) ≤ (num * 2 ^ 150 + 2 * B * den) * 2 ^ 149 ↔ P * den ≤ num * 2 ^ 149 + B * den := by
  have e : (num * 2 ^ 150 + 2 * B * den) * 2 ^ 149 = (num * 2 ^ 149 + B * den) * 2 ^ 150 := by ring
  rw [e, ← Nat.mul_assoc, Nat.mul_le_mul_right_iff (Nat.two_pow_pos 150)]

omit hu hd in
theorem low_scale (P top den B : Nat) :
    top * 2 ^ 150 * 2 ^ 149 ≤ P * (den * 2 ^ 150) + 2 * B * den * 2 ^ 149 ↔ top * 2 ^ 149 ≤ P * den + B * den := by
  have e : P * (den * 2 ^ 150) + 2 * B * den * 2 ^ 149 = (P * den + B * den) * 2 ^ 150 := by ring
  rw [e, Nat.mul_right_comm, Nat.mul_le_mul_right_iff (Nat.two_pow_pos 150)]

/-- An approximation without a wide bound lies within it, where the place below the quotient does not fall short by more. -/
theorem approxTo_near (op : Nat) (x : W32) (s : Bool) (hn : 0 < num) (hden : den ≤ num * 2 ^ 149)
    (hmax : num * 2 ^ 149 ≤ placeUnits maxPlace * den)
    (h : (num + err) * 2 ^ 149 ≤ placeUnits (floorPlace num den) * den + ulps * 2 ^ quantum num den * den) :
    ∃ n : Nat, 0 < n ∧ n ≤ maxPlace ∧ approxTo op x ulps false s num err den = atPlace s n ∧
      placeUnits n * den ≤ num * 2 ^ 149 + ulps * 2 ^ quantum num den * den ∧
      (num + err) * 2 ^ 149 ≤ placeUnits n * den + ulps * 2 ^ quantum num den * den := by
  have hp : floorPlace num den ≤ maxPlace :=
    placeUnits_strictMono.le_iff_le.mp (Nat.le_of_mul_le_mul_right ((floorPlace_le hn hd).trans hmax) hd)
  have h1 : 1 ≤ floorPlace num den := le_floorPlace hn hd (by
    rw [show placeUnits 1 = 1 from rfl, Nat.one_mul]
    exact hden)
  have hb : approxBound ulps false num den = 2 * (ulps * 2 ^ quantum num den) := by
    unfold approxBound
    rw [roundTo_rtz_bits hn hd, min_eq_left hp, max_floorPlace_div hn hd, pow_succ]
    simp only [Bool.false_eq_true, if_false]
    ring
  have hfl : floorPlace num den ≤ approxHigh ulps false num err den :=
    le_approxEnds_high hd (Nat.two_pow_pos 150) (approxBound_pos hu false num den) hp
      (hb ▸ (high_scale _ _ _ _).mpr ((floorPlace_le hn hd).trans (Nat.le_add_right _ _)))
  have hlow := hb ▸ (low_scale _ _ _ _).mpr h
  have hle := approxLow_le (wide := false) hd h1 hp hlow
  obtain ⟨n, hn0, hnM, hl, hh, e⟩ := approxTo_eq_atPlace_pos hu hd op x s
    (hden.trans (Nat.mul_le_mul_left _ (Nat.pow_le_pow_right Nat.two_pos (by decide)))) h1 hp hlow
  refine ⟨n, hn0, hnM, e, ?_, ?_⟩
  · refine (high_scale _ _ _ _).mp
      (hb ▸ le_of_le_approxEnds_high (err := err) hd (Nat.two_pow_pos 150) (approxBound_pos hu false num den) ?_)
    exact hh.trans (max_le (hle.trans hfl) le_rfl)
  · exact (low_scale _ _ _ _).mp
      (hb ▸ le_of_approxEnds_low_le hd (Nat.two_pow_pos 150) hnM ((approxEnds_low_le_approxLow _ _ _ _ _).trans hl))

end

end Sys2Proof.Machine
end

section
/-! PROOFS. The encodings of f32 by places (03 Table 3.2), and powers of two. -/

namespace Sys2Proof.Machine

/-! ### Decoding f32 by places (03 Table 3.2) -/

theorem fpDec_f32 (s : Bool) {p : Nat} (hp : p < 2 ^ 31) : fpDec .f32 (b2n s * 2 ^ 31 + p) =
    if p / 2 ^ 23 = 255 then (if p % 2 ^ 23 = 0 then .inf s else .nan s (p % 2 ^ 23))
    else if p / 2 ^ 23 = 0 then .fin s (p % 2 ^ 23) (-149) else .fin s (2 ^ 23 + p % 2 ^ 23) ((p / 2 ^ 23 : Nat) - 150) := by
  have hs : bitAt (b2n s * 2 ^ 31 + p) 31 = s := by
    unfold bitAt
    rw [Nat.mul_comm, Nat.testBit_two_pow_mul_add _ hp]
    cases s <;> rfl
  have he : bitsAt (b2n s * 2 ^ 31 + p) 23 8 = p / 2 ^ 23 := by
    unfold bitsAt
    rw [Nat.shiftRight_eq_div_pow]
    omega
  have hf : bitsAt (b2n s * 2 ^ 31 + p) 0 23 = p % 2 ^ 23 := by
    unfold bitsAt
    rw [Nat.shiftRight_zero]
    omega
  unfold fpDec
  rw [if_neg (by decide), show fpBits .f32 - 1 = 31 from rfl, show fpExp .f32 = 8 from rfl, show fpFrac .f32 = 23 from rfl, hs, he, hf]
  have e1 : fpEmin .f32 - ((23 : Nat) : Int) = -149 := by decide
  have e2 : ((p / 2 ^ 23 : Nat) : Int) - (fpBias .f32 : Nat) - ((23 : Nat) : Int) = ((p / 2 ^ 23 : Nat) : Int) - 150 := by
    have h : fpBias .f32 = 127 := rfl
    omega
  rw [e1, e2]
  rfl

/-- A word is a sign and the rest. -/
theorem exists_sign_rest (x : W32) : ∃ s p, p < 2 ^ 31 ∧ x.toNat = b2n s * 2 ^ 31 + p := by
  have hx := x.isLt
  by_cases h : x.toNat < 2 ^ 31
  · exact ⟨false, x.toNat, h, (Nat.zero_add _).symm⟩
  · exact ⟨true, x.toNat - 2 ^ 31, by omega, by unfold b2n; simp only [if_true]; omega⟩

theorem f32Units_of_fin {b : Nat} {s : Bool} {m : Nat} {e : Int} (h : fpDec .f32 b = .fin s m e) :
    f32Units b = m * 2 ^ (e + 149).toNat := by
  unfold f32Units
  rw [h]

/-- The magnitude of a finite encoding is that of its place. -/
theorem f32Units_place (s : Bool) {p : Nat} (hp : p ≤ maxPlace) : f32Units (b2n s * 2 ^ 31 + p) = placeUnits p := by
  have hp' : p < 255 * 2 ^ 23 := Nat.lt_succ_of_le hp
  have hdec := fpDec_f32 s (p := p) (by omega)
  rw [if_neg (by omega)] at hdec
  unfold placeUnits
  by_cases h : p < 2 ^ 23
  · rw [if_pos (by omega)] at hdec
    rw [if_pos h, f32Units_of_fin hdec, show ((-149 : Int) + 149).toNat = 0 from rfl, pow_zero, Nat.mul_one, Nat.mod_eq_of_lt h]
  · rw [if_neg (by omega)] at hdec
    rw [if_neg h, f32Units_of_fin hdec, show (((p / 2 ^ 23 : Nat) : Int) - 150 + 149).toNat = p / 2 ^ 23 - 1 by omega]

/-- The significand and the exponent of a finite f32. -/
theorem fpDec_fin_bounds {x : W32} {s : Bool} {m : Nat} {e : Int} (h : fpDec .f32 x.toNat = .fin s m e) :
    m < 2 ^ 24 ∧ -149 ≤ e ∧ e ≤ 104 := by
  obtain ⟨t, p, hp, hx⟩ := exists_sign_rest x
  rw [hx, fpDec_f32 t hp] at h
  split at h
  · split at h <;> cases h
  · split at h
    · cases h
      omega
    · cases h
      omega

theorem fpNaN_f32 (s : Bool) (f : Nat) : fpNaN .f32 s f = 2 ^ 23 * (b2n s * 256 + 255) + f := by
  have h : fpNaN .f32 s f = b2n s * 2 ^ 31 + 255 * 2 ^ 23 + f := rfl
  rw [h]
  omega

/-- A NaN made quiet keeps its sign and its other bits (R74). -/
theorem pickNaN_of_nan {x : W32} {s : Bool} {f : Nat} (h : fpDec .f32 x.toNat = .nan s f) :
    pickNaN .f32 [.nan s f] = some ⟨x.toNat ||| 2 ^ 22, Flags.nv.when (!bitAt f 22)⟩ := by
  obtain ⟨t, p, hp, hx⟩ := exists_sign_rest x
  have hbits : x.toNat ||| 2 ^ 22 = fpNaN .f32 s (f ||| 2 ^ 22) := by
    rw [hx, fpDec_f32 t hp] at h
    split at h
    · split at h
      · cases h
      · cases h
        have hq : p % 2 ^ 23 ||| 2 ^ 22 < 2 ^ 23 := Nat.or_lt_two_pow (Nat.mod_lt _ (by decide)) (by decide)
        have e : b2n s * 2 ^ 31 + p = 2 ^ 23 * (b2n s * 256 + 255) + p % 2 ^ 23 := by omega
        rw [hx, e, fpNaN_f32, Nat.two_pow_add_eq_or_of_lt (Nat.mod_lt _ (by decide)), Nat.two_pow_add_eq_or_of_lt hq, Nat.or_assoc]
    · split at h <;> cases h
  rw [hbits]
  show some (FRes.mk _ (Flags.nv.when (_ || false))) = _
  rw [Bool.or_false]
  rfl

/-! ### Powers of two -/

theorem f32Pow_le (n : Int) (h : n ≤ 127) : f32Pow n ≤ maxPlace := by
  unfold f32Pow maxPlace
  split
  · omega
  · have : 2 ^ (n + 149).toNat ≤ 2 ^ 22 := Nat.pow_le_pow_right Nat.two_pos (by omega)
    omega

theorem placeUnits_f32Pow (n : Int) (h : -149 ≤ n) : placeUnits (f32Pow n) = 2 ^ (n + 149).toNat := by
  unfold f32Pow
  split
  · have e : (n + 127).toNat * 2 ^ 23 = (n + 126).toNat * 2 ^ 23 + 2 ^ 23 := by omega
    rw [e, placeUnits_mk (.inr le_rfl) (by decide), ← pow_add]
    congr 1
    omega
  · have hlt : 2 ^ (n + 149).toNat ≤ 2 ^ 22 := Nat.pow_le_pow_right Nat.two_pos (by omega)
    unfold placeUnits
    rw [if_pos (by omega)]

theorem fpDec_f32Pow (s : Bool) (n : Int) (h1 : -149 ≤ n) (h2 : n ≤ 127) :
    ∃ (a : Nat) (e : Int), fpDec .f32 (b2n s * 2 ^ 31 + f32Pow n) = .fin s (2 ^ a) e ∧ a + e = n := by
  have hM := f32Pow_le n h2
  unfold maxPlace at hM
  rw [fpDec_f32 s (by omega)]
  unfold f32Pow at hM ⊢
  split
  · have e1 : (n + 127).toNat * 2 ^ 23 / 2 ^ 23 = (n + 127).toNat := by omega
    have e2 : (n + 127).toNat * 2 ^ 23 % 2 ^ 23 = 0 := by omega
    rw [e1, e2, if_neg (by omega), if_neg (by omega)]
    exact ⟨23, _, rfl, by omega⟩
  · have hlt : 2 ^ (n + 149).toNat ≤ 2 ^ 22 := Nat.pow_le_pow_right Nat.two_pos (by omega)
    have e1 : 2 ^ (n + 149).toNat / 2 ^ 23 = 0 := Nat.div_eq_of_lt (hlt.trans_lt (by decide))
    rw [e1, if_neg (by decide), if_pos rfl, Nat.mod_eq_of_lt (hlt.trans_lt (by decide))]
    exact ⟨(n + 149).toNat, _, rfl, by omega⟩

/-- A power of two in range is delivered exactly. -/
theorem powF32_eq (s : Bool) (k : Int) (h1 : -149 ≤ k) (h2 : k ≤ 127) : powF32 s k = ⟨b2n s * 2 ^ 31 + f32Pow k, 0⟩ := by
  have e : powF32 s k = roundTo .f32 .rne false s (1 * 2 ^ k.toNat) (2 ^ (-k).toNat) := by
    cases s <;> rfl
  rw [e, Nat.one_mul]
  refine roundTo_of_place (Nat.two_pow_pos _) (Nat.two_pow_pos _) .rne s (f32Pow_le k h2) ?_
  rw [placeUnits_f32Pow k h1, ← pow_add, ← pow_add]
  congr 1
  omega

theorem isPow2_two_pow (a : Nat) : isPow2 (2 ^ a) = true := by
  unfold isPow2
  rw [Nat.log2_two_pow]
  exact decide_eq_true rfl

theorem eq_two_pow_of_isPow2 {m : Nat} (h : isPow2 m = true) : m = 2 ^ m.log2 := of_decide_eq_true h

/-- Small integers are finite f32 values. -/
theorem exists_place_of_lt {n : Nat} (h : n < 2 ^ 24) : ∃ p ≤ maxPlace, placeUnits p = n * 2 ^ 149 := by
  by_cases h0 : n = 0
  · exact ⟨0, Nat.zero_le _, by rw [h0, Nat.zero_mul]; rfl⟩
  · have hl : n.log2 ≤ 23 := by have := (Nat.log2_lt h0).mpr h; omega
    have h1 : 2 ^ n.log2 ≤ n := Nat.log2_self_le h0
    have h2 : n < 2 ^ (n.log2 + 1) := Nat.lt_log2_self
    have e : 2 ^ n.log2 * 2 ^ (23 - n.log2) = 2 ^ 23 := by rw [← pow_add]; congr 1; omega
    have e' : 2 ^ (n.log2 + 1) * 2 ^ (23 - n.log2) = 2 ^ 24 := by rw [← pow_add]; congr 1; omega
    have g1 : 2 ^ 23 ≤ n * 2 ^ (23 - n.log2) := e ▸ Nat.mul_le_mul_right _ h1
    have g2 : n * 2 ^ (23 - n.log2) < 2 ^ 24 := e' ▸ Nat.mul_lt_mul_of_pos_right h2 (Nat.two_pow_pos _)
    refine ⟨(n.log2 + 126) * 2 ^ 23 + n * 2 ^ (23 - n.log2), by unfold maxPlace; omega, ?_⟩
    rw [placeUnits_mk (.inr g1) g2.le, Nat.mul_assoc, ← pow_add]
    congr 2
    omega

end Sys2Proof.Machine
end

section
/-! PROOFS. The integer square root, and the digits that v.fexp2 and v.flog2 form. -/

namespace Sys2Proof.Machine

/-! ### Integer square roots -/

theorem isqrt_sq_le (n k r : Nat) (h : r * r ≤ n) : isqrt n k r * isqrt n k r ≤ n := by
  induction k generalizing r with
  | zero => exact h
  | succ k ih =>
    rw [isqrt]
    split
    · next hc => exact ih _ hc
    · exact ih _ h

theorem lt_isqrt_succ_sq (n k r : Nat) (h : n < (r + 2 ^ k) * (r + 2 ^ k)) : n < (isqrt n k r + 1) * (isqrt n k r + 1) := by
  induction k generalizing r with
  | zero => exact h
  | succ k ih =>
    rw [isqrt]
    split
    · refine ih _ ?_
      rwa [Nat.add_assoc, ← Nat.two_mul, ← pow_succ']
    · next hc => exact ih _ (Nat.lt_of_not_le hc)

/-- The root of a number below 4^k. -/
theorem isqrt_spec {n k : Nat} (h : n < 2 ^ k * 2 ^ k) :
    isqrt n k 0 * isqrt n k 0 ≤ n ∧ n < (isqrt n k 0 + 1) * (isqrt n k 0 + 1) :=
  ⟨isqrt_sq_le n k 0 (Nat.zero_le _), lt_isqrt_succ_sq n k 0 (by rwa [Nat.zero_add])⟩

/-- A square below a number is that of a number not above its root. -/
theorem le_isqrt {n k a : Nat} (h : n < 2 ^ k * 2 ^ k) (ha : a * a ≤ n) : a ≤ isqrt n k 0 :=
  Nat.lt_succ_iff.mp (Nat.mul_self_lt_mul_self_iff.mp (ha.trans_lt (isqrt_spec h).2))

/-! ### The digits of v.fexp2 and v.flog2 -/

/-- Each further root stays between 1 and the last, in units of 2^−workBits. -/
theorem exp2_root {root : Nat} (h1 : 2 ^ workBits ≤ root) (h2 : root < 2 ^ (workBits + 2)) :
    let r := isqrt (root * 2 ^ workBits) (workBits + 1) 0
    2 ^ workBits ≤ r ∧ r ≤ root ∧ r * r ≤ root * 2 ^ workBits := by
  intro r
  have hlt : root * 2 ^ workBits < 2 ^ (workBits + 1) * 2 ^ (workBits + 1) := by
    calc root * 2 ^ workBits < 2 ^ (workBits + 2) * 2 ^ workBits := Nat.mul_lt_mul_of_pos_right h2 (Nat.two_pow_pos _)
      _ = 2 ^ (workBits + 1) * 2 ^ (workBits + 1) := by ring
  have hsq := (isqrt_spec hlt).1
  exact ⟨le_isqrt hlt (Nat.mul_le_mul_right _ h1),
    Nat.mul_self_le_mul_self_iff.mp (hsq.trans (Nat.mul_le_mul_left _ h1)), hsq⟩

/-- The product of roots is at least 1 and at most its start times the number whose roots are taken. -/
theorem exp2Bits_bounds (k n root acc : Nat) (h1 : 2 ^ workBits ≤ root) (h2 : root < 2 ^ (workBits + 2)) (ha : 2 ^ workBits ≤ acc) :
    2 ^ workBits ≤ exp2Bits k n root acc ∧ exp2Bits k n root acc * 2 ^ workBits ≤ acc * root := by
  induction k generalizing root acc with
  | zero => exact ⟨ha, Nat.mul_le_mul_left _ h1⟩
  | succ k ih =>
    obtain ⟨hr1, hr2, hr3⟩ := exp2_root h1 h2
    generalize hr : isqrt (root * 2 ^ workBits) (workBits + 1) 0 = r at hr1 hr2 hr3
    rw [exp2Bits, hr]
    have hr4 : r < 2 ^ (workBits + 2) := hr2.trans_lt h2
    have hW := Nat.two_pow_pos workBits
    split
    · have hacc : 2 ^ workBits ≤ acc * r / 2 ^ workBits := (Nat.le_div_iff_mul_le hW).mpr (Nat.mul_le_mul ha hr1)
      obtain ⟨i1, i2⟩ := ih r _ hr1 hr4 hacc
      refine ⟨i1, i2.trans (Nat.le_of_mul_le_mul_right ?_ hW)⟩
      calc acc * r / 2 ^ workBits * r * 2 ^ workBits = acc * r / 2 ^ workBits * 2 ^ workBits * r := by ring
        _ ≤ acc * r * r := Nat.mul_le_mul_right _ (Nat.div_mul_le_self _ _)
        _ = acc * (r * r) := Nat.mul_assoc _ _ _
        _ ≤ acc * (root * 2 ^ workBits) := Nat.mul_le_mul_left _ hr3
        _ = acc * root * 2 ^ workBits := (Nat.mul_assoc _ _ _).symm
    · obtain ⟨i1, i2⟩ := ih r _ hr1 hr4 ha
      exact ⟨i1, i2.trans (Nat.mul_le_mul_left _ hr2)⟩

theorem log2Bits_lt (k y acc : Nat) : log2Bits k y acc < (acc + 1) * 2 ^ k := by
  induction k generalizing y acc with
  | zero => simp [log2Bits]
  | succ k ih =>
    rw [log2Bits, pow_succ' 2 k, ← Nat.mul_assoc]
    split
    · exact (ih _ _).trans_le (Nat.mul_le_mul_right _ (by omega))
    · exact (ih _ _).trans_le (Nat.mul_le_mul_right _ (by omega))

end Sys2Proof.Machine
end

section
/-! PROOFS. The approximating words (06 R148, Table 6.3); O15. -/

namespace Sys2Proof.Machine

/-- The greatest finite f32, 2^128 − 2^104. -/
theorem placeUnits_maxPlace_scaled : placeUnits maxPlace = (2 ^ 128 - 2 ^ 104) * 2 ^ 149 := by
  rw [placeUnits_maxPlace, show 253 = 104 + 149 from rfl, pow_add, ← Nat.mul_assoc]
  rfl

/-! ### v.frcp -/

/-- The quotient that v.frcp forms is the reciprocal of its operand in units of 2^−149. -/
theorem rcp_scale (m : Nat) {e : Int} (he : -149 ≤ e) :
    2 ^ (-e).toNat * (m * 2 ^ (e + 149).toNat) = 2 ^ 149 * (m * 2 ^ e.toNat) := by
  have h : 2 ^ (-e).toNat * 2 ^ (e + 149).toNat = 2 ^ 149 * 2 ^ e.toNat := by
    rw [← pow_add, ← pow_add]
    congr 1
    omega
  rw [Nat.mul_left_comm, h, Nat.mul_left_comm]

theorem frcpF32_of_fin {x : W32} {s : Bool} {m : Nat} {e : Int} (h : fpDec .f32 x.toNat = .fin s m e) (hm : m ≠ 0) :
    frcpF32 x = if isPow2 m = true ∧ -((m.log2 : Int) + e) ≤ 127 then powF32 s (-((m.log2 : Int) + e))
      else if m * 2 ^ e.toNat * (2 ^ 128 - 2 ^ 104) < 2 ^ (-e).toNat then approxOver s
      else approxTo 0 x 1 false s (2 ^ (-e).toNat) 0 (m * 2 ^ e.toNat) := by
  unfold frcpF32
  rw [h]
  exact if_neg hm

/-- The reciprocal of a power of two that is a finite f32 is exact (Table 6.3). -/
theorem frcpF32_of_pow {x : W32} {s : Bool} {a : Nat} {e n : Int} (h : fpDec .f32 x.toNat = .fin s (2 ^ a) e) (hn : a + e = n)
    (h1 : -127 ≤ n) (h2 : n ≤ 149) : frcpF32 x = ⟨b2n s * 2 ^ 31 + f32Pow (-n), 0⟩ := by
  rw [frcpF32_of_fin h (Nat.two_pow_pos a).ne', Nat.log2_two_pow, hn, if_pos ⟨isPow2_two_pow a, by omega⟩,
    powF32_eq s _ (by omega) (by omega)]

/-- A significand that is a power of two gives a power of two of units. -/
theorem units_of_isPow2 {m : Nat} (h : isPow2 m = true) (e : Int) :
    m * 2 ^ (e + 149).toNat = 2 ^ (m.log2 + (e + 149).toNat) := by
  rw [pow_add, ← eq_two_pow_of_isPow2 h]

/-- A reciprocal beyond the greatest finite value. -/
theorem frcpF32_over {x : W32} {s : Bool} {m : Nat} {e : Int} (h : fpDec .f32 x.toNat = .fin s m e) (hm : m ≠ 0)
    (ho : f32Units x.toNat * (2 ^ 128 - 2 ^ 104) < 2 ^ 149) : frcpF32 x = ⟨fpInf .f32 s, Flags.ov ||| Flags.nx⟩ := by
  obtain ⟨-, he, -⟩ := fpDec_fin_bounds h
  rw [f32Units_of_fin h] at ho
  have hnot : ¬(isPow2 m = true ∧ -((m.log2 : Int) + e) ≤ 127) := by
    rintro ⟨hp, hk⟩
    rw [units_of_isPow2 hp] at ho
    have h22 : 2 ^ 22 ≤ 2 ^ (m.log2 + (e + 149).toNat) := Nat.pow_le_pow_right Nat.two_pos (by omega)
    have := Nat.mul_le_mul_right (2 ^ 128 - 2 ^ 104) h22
    omega
  have hlt : m * 2 ^ e.toNat * (2 ^ 128 - 2 ^ 104) < 2 ^ (-e).toNat := by
    refine Nat.lt_of_mul_lt_mul_right (a := m * 2 ^ (e + 149).toNat) ?_
    rw [rcp_scale m he]
    calc m * 2 ^ e.toNat * (2 ^ 128 - 2 ^ 104) * (m * 2 ^ (e + 149).toNat)
        = m * 2 ^ (e + 149).toNat * (2 ^ 128 - 2 ^ 104) * (m * 2 ^ e.toNat) := by ring
      _ < 2 ^ 149 * (m * 2 ^ e.toNat) :=
        Nat.mul_lt_mul_of_pos_right ho (Nat.mul_pos (Nat.pos_of_ne_zero hm) (Nat.two_pow_pos _))
  rw [frcpF32_of_fin h hm, if_neg hnot, if_pos hlt]
  rfl

/-- Within one ulp of Z / u units, where the ulp is 2^k units (06 Table 6.3). -/
def RcpNear (Z u q : Nat) : Prop :=
  ∃ k, (k = 0 ∨ 2 ^ (k + 23) * u ≤ Z) ∧ Z < 2 ^ (k + 24) * u ∧ q * u ≤ Z + 2 ^ k * u ∧ Z ≤ q * u + 2 ^ k * u

/-- An approximation of num / den is near the reciprocal that the quotient stands for. -/
theorem rcpNear_of_near {num den u q : Nat} (hn : 0 < num) (hd : 0 < den) (hu : num * u = 2 ^ 149 * den)
    (h1 : q * den ≤ num * 2 ^ 149 + 2 ^ quantum num den * den) (h2 : num * 2 ^ 149 ≤ q * den + 2 ^ quantum num den * den) :
    RcpNear (2 ^ 298) u q := by
  have hu0 : 0 < u := Nat.pos_of_ne_zero fun h => by
    rw [h, Nat.mul_zero] at hu
    exact absurd hu.symm (Nat.mul_pos (Nat.two_pow_pos _) hd).ne'
  have hA : num * 2 ^ 149 * u = 2 ^ 298 * den := by
    rw [Nat.mul_right_comm, hu, show 298 = 149 + 149 from rfl, pow_add]
    ring
  have hlow := quantum_low hn hd
  have hhigh := quantum_high hn hd
  have e23 : num * 2 ^ 149 = 2 ^ 23 * (num * 2 ^ 126) := mul_two_pow_149 num
  unfold RcpNear
  generalize 2 ^ 298 = Z at hA ⊢
  generalize quantum num den = k at *
  have hhigh' : num * 2 ^ 149 < 2 ^ (k + 24) * den := by
    calc num * 2 ^ 149 = 2 ^ 23 * (num * 2 ^ 126) := e23
      _ < 2 ^ 23 * (den * 2 ^ (k + 1)) := Nat.mul_lt_mul_of_pos_left hhigh (Nat.two_pow_pos _)
      _ = 2 ^ (k + 24) * den := by ring
  refine ⟨k, hlow.imp_right fun h => ?_, ?_, ?_, ?_⟩
  · refine Nat.le_of_mul_le_mul_right ?_ hd
    have h' : 2 ^ (k + 23) * den ≤ num * 2 ^ 149 := by rw [e23, pow_add]; linarith
    calc 2 ^ (k + 23) * u * den = 2 ^ (k + 23) * den * u := Nat.mul_right_comm _ _ _
      _ ≤ num * 2 ^ 149 * u := Nat.mul_le_mul_right _ h'
      _ = _ := hA
  · refine Nat.lt_of_mul_lt_mul_right (a := den) ?_
    rw [← hA, Nat.mul_right_comm _ u]
    exact Nat.mul_lt_mul_of_pos_right hhigh' hu0
  · refine Nat.le_of_mul_le_mul_right ?_ hd
    calc q * u * den = q * den * u := Nat.mul_right_comm _ _ _
      _ ≤ (num * 2 ^ 149 + 2 ^ k * den) * u := Nat.mul_le_mul_right _ h1
      _ = num * 2 ^ 149 * u + 2 ^ k * u * den := by ring
      _ = (Z + 2 ^ k * u) * den := by rw [hA, Nat.add_mul]
  · refine Nat.le_of_mul_le_mul_right ?_ hd
    calc Z * den = num * 2 ^ 149 * u := hA.symm
      _ ≤ (q * den + 2 ^ k * den) * u := Nat.mul_le_mul_right _ h2
      _ = (q * u + 2 ^ k * u) * den := by ring

/-- The exact reciprocal of a power of two is near itself. -/
theorem rcpNear_pow {N i : Nat} (hi : i + 22 ≤ N) : RcpNear (2 ^ N) (2 ^ i) (2 ^ (N - i)) := by
  have hN : 2 ^ (N - i) * 2 ^ i = 2 ^ N := by
    rw [← pow_add, Nat.sub_add_cancel (by omega)]
  refine ⟨N - 23 - i, ?_, ?_, hN ▸ Nat.le_add_right _ _, hN ▸ Nat.le_add_right _ _⟩
  · by_cases h : N ≤ i + 23
    · exact .inl (by omega)
    · exact .inr ((pow_add 2 _ _).symm.trans_le (Nat.pow_le_pow_right Nat.two_pos (by omega)))
  · exact (Nat.pow_lt_pow_right Nat.one_lt_two (by omega)).trans_eq (pow_add 2 _ _)

/-- A reciprocal in range (06 Table 6.3): a value within 1 ulp that is inexact unless the operand is a power of two. -/
theorem frcpF32_near {x : W32} {s : Bool} {m : Nat} {e : Int} (h : fpDec .f32 x.toNat = .fin s m e) (hm : m ≠ 0)
    (hmax : 2 ^ 149 ≤ f32Units x.toNat * (2 ^ 128 - 2 ^ 104)) :
    ∃ q ≤ maxPlace, (frcpF32 x).bits = b2n s * 2 ^ 31 + q ∧ RcpNear (2 ^ 298) (f32Units x.toNat) (placeUnits q) ∧
      ((∀ n, f32Units x.toNat ≠ 2 ^ n) → Inexact (frcpF32 x)) := by
  obtain ⟨hm24, he, he'⟩ := fpDec_fin_bounds h
  have hm0 := Nat.pos_of_ne_zero hm
  have hu := f32Units_of_fin h
  by_cases hp : isPow2 m = true ∧ -((m.log2 : Int) + e) ≤ 127
  · have hl : m.log2 ≤ 23 := by have := (Nat.log2_lt hm).mpr hm24; omega
    have hpow := eq_two_pow_of_isPow2 hp.1
    rw [units_of_isPow2 hp.1] at hu
    refine ⟨f32Pow (-(m.log2 + e)), f32Pow_le _ hp.2, ?_, ?_, fun hne => absurd hu (hne _)⟩
    · rw [frcpF32_of_pow (hpow ▸ h) rfl (by omega) (by omega)]
    · rw [hu, placeUnits_f32Pow _ (by omega), show (-((m.log2 : Int) + e) + 149).toNat = 298 - (m.log2 + (e + 149).toNat) by omega]
      exact rcpNear_pow (by omega)
  · have hscale := rcp_scale m he
    rw [← hu] at hscale
    have hd : 0 < m * 2 ^ e.toNat := Nat.mul_pos hm0 (Nat.two_pow_pos _)
    have hn : 0 < 2 ^ (-e).toNat := Nat.two_pow_pos _
    have hover : 2 ^ (-e).toNat ≤ m * 2 ^ e.toNat * (2 ^ 128 - 2 ^ 104) := by
      refine Nat.le_of_mul_le_mul_right (c := f32Units x.toNat) ?_ (hu ▸ Nat.mul_pos hm0 (Nat.two_pow_pos _))
      calc _ = 2 ^ 149 * (m * 2 ^ e.toNat) := hscale
        _ ≤ f32Units x.toNat * (2 ^ 128 - 2 ^ 104) * (m * 2 ^ e.toNat) := Nat.mul_le_mul_right _ hmax
        _ = _ := by ring
    have hden : m * 2 ^ e.toNat ≤ 2 ^ (-e).toNat * 2 ^ 149 := by
      calc m * 2 ^ e.toNat ≤ 2 ^ 24 * 2 ^ 104 := Nat.mul_le_mul hm24.le (Nat.pow_le_pow_right Nat.two_pos (by omega))
        _ ≤ 1 * 2 ^ 149 := by decide
        _ ≤ 2 ^ (-e).toNat * 2 ^ 149 := Nat.mul_le_mul_right _ hn
    have hM : 2 ^ (-e).toNat * 2 ^ 149 ≤ placeUnits maxPlace * (m * 2 ^ e.toNat) := by
      rw [placeUnits_maxPlace_scaled, Nat.mul_right_comm, Nat.mul_comm (2 ^ 128 - 2 ^ 104)]
      exact Nat.mul_le_mul_right _ hover
    have hfl : (2 ^ (-e).toNat + 0) * 2 ^ 149 ≤ placeUnits (floorPlace (2 ^ (-e).toNat) (m * 2 ^ e.toNat)) * (m * 2 ^ e.toNat) +
        1 * 2 ^ quantum (2 ^ (-e).toNat) (m * 2 ^ e.toNat) * (m * 2 ^ e.toNat) := by
      have hlt := (lt_floorPlace_succ hn hd).le
      rwa [placeUnits_floorPlace_succ hn hd, Nat.add_mul, Nat.add_mul, ← placeUnits_floorPlace hn hd] at hlt
    obtain ⟨q, -, hqM, hq, h1, h2⟩ := approxTo_near Nat.one_pos hd 0 x s hn hden hM hfl
    rw [frcpF32_of_fin h hm, if_neg hp, if_neg (Nat.not_lt.mpr hover), hq]
    rw [Nat.one_mul] at h1 h2
    exact ⟨q, hqM, rfl, rcpNear_of_near hn hd hscale h1 h2, fun _ => inexact_atPlace s hqM⟩

/-! ### v.frsq -/

theorem frsqF32_of_fin {x : W32} {m : Nat} {e : Int} (h : fpDec .f32 x.toNat = .fin false m e) (hm : m ≠ 0) :
    frsqF32 x = if isPow2 m = true ∧ ((m.log2 : Int) + e) % 2 = 0 then powF32 false (-(((m.log2 : Int) + e) / 2))
      else
        let w : Nat := workBits + (e % 2).toNat
        let r := isqrt (2 ^ w / m) (workBits / 2 + 1) 0
        let z : Int := -(((w : Int) + e) / 2)
        approxTo 1 x 1 false false (r * 2 ^ z.toNat) (2 ^ z.toNat) (2 ^ (-z).toNat) := by
  unfold frsqF32
  rw [h]
  exact (if_neg hm).trans (if_neg Bool.false_ne_true)

/-- The reciprocal root of an even power of two is exact (Table 6.3). -/
theorem frsqF32_of_pow {x : W32} {a : Nat} {e n : Int} (h : fpDec .f32 x.toNat = .fin false (2 ^ a) e) (hn : a + e = 2 * n)
    (h1 : -127 ≤ n) (h2 : n ≤ 149) : frsqF32 x = ⟨f32Pow (-n), 0⟩ := by
  rw [frsqF32_of_fin h (Nat.two_pow_pos a).ne', Nat.log2_two_pow, hn, if_pos ⟨isPow2_two_pow a, by omega⟩,
    Int.mul_ediv_cancel_left n (by decide), powF32_eq false _ (by omega) (by omega)]
  exact congrArg (FRes.mk · 0) (Nat.zero_add _)

/-- Within one ulp of sqrt(Z / u) units, where the ulp is 2^k units (06 Table 6.3). -/
def RsqNear (Z u q : Nat) : Prop :=
  ∃ k, 2 ^ (2 * k + 46) * u ≤ Z ∧ Z < 2 ^ (2 * k + 48) * u ∧ Z ≤ (q + 2 ^ k) ^ 2 * u ∧
    (q ≤ 2 ^ k ∨ (q - 2 ^ k) ^ 2 * u ≤ Z)

/-! The root `r` of W / m, over `den`, stands for the reciprocal root of `u` units: products with `r` and with `r + 1` bound
squares of units. -/

section
variable {m W den u r P X : Nat} (hU : u * W = m * den * den * P)
include hU

theorem sq_mul_le_of_root (hW : 0 < W) (h1 : r * r * m ≤ W) (h : X * den ≤ r * P) : X ^ 2 * u ≤ P ^ 3 := by
  refine Nat.le_of_mul_le_mul_right ?_ hW
  calc X ^ 2 * u * W = X ^ 2 * (u * W) := Nat.mul_assoc _ _ _
    _ = X * den * (X * den) * (m * P) := by rw [hU]; ring
    _ ≤ r * P * (r * P) * (m * P) := Nat.mul_le_mul_right _ (Nat.mul_self_le_mul_self h)
    _ = r * r * m * P ^ 3 := by ring
    _ ≤ W * P ^ 3 := Nat.mul_le_mul_right _ h1
    _ = P ^ 3 * W := Nat.mul_comm _ _

theorem lt_sq_mul_of_root (hP : 0 < P) (h2 : W < (r + 1) * (r + 1) * m) (h : (r + 1) * P ≤ X * den) : P ^ 3 < X ^ 2 * u := by
  refine Nat.lt_of_mul_lt_mul_right (a := W) ?_
  calc P ^ 3 * W = W * P ^ 3 := Nat.mul_comm _ _
    _ < (r + 1) * (r + 1) * m * P ^ 3 := Nat.mul_lt_mul_of_pos_right h2 (Nat.pow_pos hP)
    _ = (r + 1) * P * ((r + 1) * P) * (m * P) := by ring
    _ ≤ X * den * (X * den) * (m * P) := Nat.mul_le_mul_right _ (Nat.mul_self_le_mul_self h)
    _ = X ^ 2 * (u * W) := by rw [hU]; ring
    _ = X ^ 2 * u * W := (Nat.mul_assoc _ _ _).symm

end

/-- A product below a multiple of its factor stays at or below it with one more. -/
theorem succ_mul_le_of_lt {r c t : Nat} (h : r * c < t * c) : (r + 1) * c ≤ t * c :=
  Nat.mul_le_mul_right c (Nat.lt_of_mul_lt_mul_right h)

/-- The root that v.frsq takes. -/
theorem rsq_root {m w : Nat} (hm : 0 < m) (hm24 : m < 2 ^ 24) (hw : 160 ≤ w) (hw' : w ≤ 161) :
    let r := isqrt (2 ^ w / m) 81 0
    r * r * m ≤ 2 ^ w ∧ 2 ^ w < (r + 1) * (r + 1) * m ∧ 2 ^ 68 ≤ r ∧ r < 2 ^ 81 := by
  intro r
  have hle : 2 ^ w / m ≤ 2 ^ 161 := (Nat.div_le_self _ _).trans (Nat.pow_le_pow_right Nat.two_pos hw')
  have hlt : 2 ^ w / m < 2 ^ 81 * 2 ^ 81 := hle.trans_lt (by decide)
  obtain ⟨h1, h2⟩ := isqrt_spec hlt
  refine ⟨(Nat.le_div_iff_mul_le hm).mp h1, (Nat.div_lt_iff_lt_mul hm).mp h2, le_isqrt hlt ?_, ?_⟩
  · refine (Nat.le_div_iff_mul_le hm).mpr ?_
    calc 2 ^ 68 * 2 ^ 68 * m ≤ 2 ^ 68 * 2 ^ 68 * 2 ^ 24 := Nat.mul_le_mul_left _ hm24.le
      _ = 2 ^ 160 := by decide
      _ ≤ 2 ^ w := Nat.pow_le_pow_right Nat.two_pos hw
  · exact Nat.mul_self_lt_mul_self_iff.mp (h1.trans_lt hlt)

/-- The quantum of a root `r` over 2^h, where neither is small. -/
theorem rsq_quantum {r h j : Nat} (hr : 2 ^ 68 ≤ r) (hh : h ≤ 132) (hlow : j = 0 ∨ 2 ^ h * 2 ^ j ≤ r * 2 ^ 126)
    (hhigh : r * 2 ^ 126 < 2 ^ h * 2 ^ (j + 1)) : 194 ≤ h + j ∧ 2 ^ h * 2 ^ j ≤ r * 2 ^ 126 := by
  constructor
  · refine Nat.lt_succ_iff.mp ((Nat.pow_lt_pow_iff_right Nat.one_lt_two).mp ?_)
    calc 2 ^ 194 = 2 ^ 68 * 2 ^ 126 := by decide
      _ ≤ r * 2 ^ 126 := Nat.mul_le_mul_right _ hr
      _ < 2 ^ h * 2 ^ (j + 1) := hhigh
      _ = 2 ^ (h + j + 1) := (pow_add 2 h (j + 1)).symm
  · rcases hlow with rfl | h0
    · have h132 : 2 ^ h ≤ 2 ^ 132 := Nat.pow_le_pow_right Nat.two_pos hh
      have h194 := Nat.mul_le_mul_right (2 ^ 126) hr
      rw [pow_zero, Nat.mul_one]
      omega
    · exact h0
/-- One more than `r` does not pass the end of its binade. -/
theorem rsq_binade {r h j : Nat} (hj : 194 ≤ h + j) (hhigh : r * 2 ^ 126 < 2 ^ h * 2 ^ (j + 1)) :
    (r + 1) * 2 ^ 149 ≤ 2 ^ (j + 24) * 2 ^ h := by
  have e : 2 ^ (j + 24) * 2 ^ h = 2 ^ (h + j - 125) * 2 ^ 149 := by
    rw [← pow_add, show j + 24 + h = h + j - 125 + 149 by omega, pow_add]
  have hlt : r * 2 ^ 149 < 2 ^ (j + 24) * 2 ^ h := by
    have h23 := Nat.mul_lt_mul_of_pos_left hhigh (Nat.two_pow_pos 23)
    have e' : 2 ^ 23 * (2 ^ h * 2 ^ (j + 1)) = 2 ^ (j + 24) * 2 ^ h := by ring
    rwa [← mul_two_pow_149, e'] at h23
  exact (succ_mul_le_of_lt (hlt.trans_eq e)).trans_eq e.symm

/-- One more than `r` does not pass the place after it. -/
theorem rsq_place {r h j q : Nat} (hj : 149 ≤ h + j) (hlt : r * 2 ^ 149 < (q + 1) * 2 ^ j * 2 ^ h) :
    (r + 1) * 2 ^ 149 ≤ (q + 1) * 2 ^ j * 2 ^ h := by
  have e : (q + 1) * 2 ^ j * 2 ^ h = (q + 1) * 2 ^ (h + j - 149) * 2 ^ 149 := by
    rw [Nat.mul_assoc, ← pow_add, show j + h = h + j - 149 + 149 by omega, pow_add, Nat.mul_assoc]
  exact (succ_mul_le_of_lt (hlt.trans_eq e)).trans_eq e.symm

/-- A reciprocal root that is no power of two (06 Table 6.3): a value within 1 ulp that is inexact. -/
theorem frsqF32_near {x : W32} {m : Nat} {e : Int} (h : fpDec .f32 x.toNat = .fin false m e) (hm : m ≠ 0)
    (hne : ∀ n, f32Units x.toNat ≠ 2 ^ (2 * n + 1)) :
    Inexact (frsqF32 x) ∧ RsqNear ((2 ^ 149) ^ 3) (f32Units x.toNat) (f32Units (frsqF32 x).bits) := by
  obtain ⟨hm24, he, he'⟩ := fpDec_fin_bounds h
  have hm0 := Nat.pos_of_ne_zero hm
  have hu := f32Units_of_fin h
  have hnot : ¬(isPow2 m = true ∧ ((m.log2 : Int) + e) % 2 = 0) := by
    rintro ⟨hp, hk⟩
    rw [units_of_isPow2 hp] at hu
    refine hne ((m.log2 + (e + 149).toNat) / 2) (hu.trans ?_)
    congr 1
    omega
  rw [frsqF32_of_fin h hm, if_neg hnot]
  dsimp only
  obtain ⟨w, hw⟩ : ∃ w, w = workBits + (e % 2).toNat := ⟨_, rfl⟩
  obtain ⟨d, hd⟩ : ∃ d : Nat, (w : Int) + e = 2 * d := ⟨((w + e) / 2).toNat, by unfold workBits at hw; omega⟩
  rw [← hw, hd, Int.mul_ediv_cancel_left _ (by decide), Int.neg_neg, Int.toNat_natCast,
    show (-(d : Int)).toNat = 0 by omega, pow_zero, Nat.mul_one]
  have hw160 : 160 ≤ w ∧ w ≤ 161 := by unfold workBits at hw; omega
  obtain ⟨hr1, hr2, hr3, hr4⟩ := rsq_root hm0 hm24 hw160.1 hw160.2
  have hroot : workBits / 2 + 1 = 81 := rfl
  rw [hroot]
  generalize isqrt (2 ^ w / m) 81 0 = r at hr1 hr2 hr3 hr4 ⊢
  have hd132 : d ≤ 132 := by omega
  have hn : 0 < r := lt_of_lt_of_le (Nat.two_pow_pos 68) hr3
  have hden : 0 < 2 ^ d := Nat.two_pow_pos d
  have hhigh := quantum_high hn hden
  have hlt := lt_floorPlace_succ hn hden
  rw [placeUnits_floorPlace_succ hn hden] at hlt
  obtain ⟨hj, hlow⟩ := rsq_quantum hr3 hd132 (quantum_low hn hden) hhigh
  have hfl : (r + 1) * 2 ^ 149 ≤ placeUnits (floorPlace r (2 ^ d)) * 2 ^ d + 1 * 2 ^ quantum r (2 ^ d) * 2 ^ d := by
    rw [placeUnits_floorPlace hn hden, ← Nat.add_mul, ← Nat.add_mul]
    exact rsq_place (by omega) hlt
  have hd1 : 2 ^ d ≤ r * 2 ^ 149 := by
    calc 2 ^ d ≤ 2 ^ 132 := Nat.pow_le_pow_right Nat.two_pos hd132
      _ ≤ 1 * 2 ^ 149 := by decide
      _ ≤ r * 2 ^ 149 := Nat.mul_le_mul_right _ hn
  have hM : r * 2 ^ 149 ≤ placeUnits maxPlace * 2 ^ d := by
    rw [placeUnits_maxPlace_scaled]
    exact (Nat.mul_le_mul_right _ (hr4.le.trans (by decide))).trans (Nat.le_mul_of_pos_right _ hden)
  obtain ⟨q, -, hqM, hq, h1, h2⟩ := approxTo_near Nat.one_pos hden 1 x false hn hd1 hM hfl
  have hbits : (atPlace false q).bits = b2n false * 2 ^ 31 + q := rfl
  rw [hq, hbits, f32Units_place false hqM]
  refine ⟨inexact_atPlace false hqM, quantum r (2 ^ d), ?_⟩
  have hU : f32Units x.toNat * 2 ^ w = m * 2 ^ d * 2 ^ d * 2 ^ 149 := by
    rw [hu, Nat.mul_assoc, ← pow_add, show (e + 149).toNat + w = d + d + 149 by omega, pow_add, pow_add]
    ring
  rw [Nat.one_mul] at h1 h2
  generalize quantum r (2 ^ d) = j at *
  refine ⟨?_, ?_, ?_, ?_⟩
  · have hX : 2 ^ (j + 23) * 2 ^ d ≤ r * 2 ^ 149 := by
      rw [mul_two_pow_149, show 2 ^ (j + 23) * 2 ^ d = 2 ^ 23 * (2 ^ d * 2 ^ j) by ring]
      exact Nat.mul_le_mul_left _ hlow
    have h := sq_mul_le_of_root hU (Nat.two_pow_pos w) hr1 hX
    rwa [← pow_mul 2 (j + 23), show (j + 23) * 2 = 2 * j + 46 by omega] at h
  · have h := lt_sq_mul_of_root hU (Nat.two_pow_pos 149) hr2 (rsq_binade hj hhigh)
    rwa [← pow_mul 2 (j + 24), show (j + 24) * 2 = 2 * j + 48 by omega] at h
  · exact (lt_sq_mul_of_root hU (Nat.two_pow_pos 149) hr2 (h2.trans_eq (Nat.add_mul _ _ _).symm)).le
  · refine (Nat.le_total (placeUnits q) (2 ^ j)).imp_right fun _ => ?_
    refine sq_mul_le_of_root hU (Nat.two_pow_pos w) hr1 ?_
    rw [Nat.sub_mul]
    exact Nat.sub_le_of_le_add h1

/-! ### v.fexp2 -/

/-- An approximation is within reach of the greatest finite place where its quotient is not above it. -/
theorem approx_reach {num err den : Nat} (ulps : Nat) (wide : Bool) (h : num + err ≤ (2 ^ 128 - 2 ^ 104) * den) :
    (num + err) * 2 ^ 150 * 2 ^ 149 ≤ placeUnits maxPlace * (den * 2 ^ 150) + approxBound ulps wide num den * den * 2 ^ 149 := by
  refine le_trans ?_ (Nat.le_add_right _ _)
  calc (num + err) * 2 ^ 150 * 2 ^ 149 ≤ (2 ^ 128 - 2 ^ 104) * den * 2 ^ 150 * 2 ^ 149 :=
        Nat.mul_le_mul_right _ (Nat.mul_le_mul_right _ h)
    _ = placeUnits maxPlace * (den * 2 ^ 150) := by rw [placeUnits_maxPlace_scaled]; ring

/-- The operand of v.fexp2 as a whole number and a fraction: the quotient that it forms is that of the units. -/
theorem exp2_whole (M : Int) {e : Int} (he : -149 ≤ e) :
    M * 2 ^ e.toNat / 2 ^ (-e).toNat = M * 2 ^ (e + 149).toNat / 2 ^ 149 ∧
      (M * 2 ^ e.toNat % 2 ^ (-e).toNat = 0 ↔ M * 2 ^ (e + 149).toNat % 2 ^ 149 = 0) := by
  have hD : (0 : Int) < 2 ^ (-e).toNat := by positivity
  have hP : (0 : Int) < 2 ^ 149 := by positivity
  have hscale : 2 ^ 149 * (M * 2 ^ e.toNat) = 2 ^ (-e).toNat * (M * 2 ^ (e + 149).toNat) := by
    rw [Int.mul_left_comm, Int.mul_left_comm (2 ^ (-e).toNat), ← pow_add, ← pow_add,
      show 149 + e.toNat = (-e).toNat + (e + 149).toNat by omega]
  generalize M * 2 ^ e.toNat = N at hscale ⊢
  generalize M * 2 ^ (e + 149).toNat = i at hscale ⊢
  generalize (2 : Int) ^ (-e).toNat = D at hscale hD ⊢
  generalize (2 : Int) ^ 149 = P at hscale hP ⊢
  constructor
  · rw [← Int.mul_ediv_mul_of_pos N D hP, hscale, Int.mul_comm P D, Int.mul_ediv_mul_of_pos i P hD]
  · have h1 := Int.mul_emod_mul_of_pos N D hP
    have h2 := Int.mul_emod_mul_of_pos i P hD
    rw [hscale, Int.mul_comm P D, h2] at h1
    constructor
    · intro h
      rw [h, Int.mul_zero] at h1
      exact (Int.mul_eq_zero.mp h1).resolve_left hD.ne'
    · intro h
      rw [h, Int.mul_zero] at h1
      exact (Int.mul_eq_zero.mp h1.symm).resolve_left hP.ne'

/-- What v.fexp2 delivers for `acc` units of 2^−workBits as the power of the fraction, at the whole number `w`. -/
def exp2Approx (x : W32) (w : Int) (acc : Nat) : FRes :=
  approxTo 2 x 2 false false (acc * 2 ^ (w - workBits).toNat) ((acc / 2 ^ 63 + 2 ^ 9) * 2 ^ (w - workBits).toNat)
    (2 ^ (-(w - workBits)).toNat)

/-- The power that v.fexp2 forms for the fraction of M · 2^e, in units of 2^−workBits. -/
def exp2Acc (M e : Int) : Nat :=
  exp2Bits (min (-e).toNat 64) (((M * 2 ^ 64 / 2 ^ (-e).toNat) % 2 ^ 64).toNat / 2 ^ (64 - min (-e).toNat 64)) (2 ^ (workBits + 1))
    (2 ^ workBits)

theorem exp2Acc_bounds (M e : Int) : 2 ^ 160 ≤ exp2Acc M e ∧ exp2Acc M e ≤ 2 ^ 161 := by
  obtain ⟨h1, h2⟩ := exp2Bits_bounds (min (-e).toNat 64)
    (((M * 2 ^ 64 / 2 ^ (-e).toNat) % 2 ^ 64).toNat / 2 ^ (64 - min (-e).toNat 64)) (2 ^ (workBits + 1)) (2 ^ workBits)
    (Nat.pow_le_pow_right Nat.two_pos (by decide)) (Nat.pow_lt_pow_right Nat.one_lt_two (by decide)) le_rfl
  rw [Nat.mul_comm] at h2
  exact ⟨h1, Nat.le_of_mul_le_mul_left h2 (Nat.two_pow_pos workBits)⟩

theorem fexp2F32_of_fin {x : W32} {s : Bool} {m : Nat} {e : Int} (h : fpDec .f32 x.toNat = .fin s m e) :
    let M : Int := if s then -(m : Int) else m
    let i : Int := M * 2 ^ (e + 149).toNat
    fexp2F32 x =
      if 128 ≤ i / 2 ^ 149 then approxOver false
      else if i / 2 ^ 149 < -150 then ⟨fpZero .f32 false, Flags.uf ||| Flags.nx⟩
      else if i % 2 ^ 149 = 0 ∧ -149 ≤ i / 2 ^ 149 then powF32 false (i / 2 ^ 149)
      else exp2Approx x (i / 2 ^ 149) (exp2Acc M e) := by
  intro M i
  obtain ⟨hq, hr⟩ := exp2_whole M (fpDec_fin_bounds h).2.1
  unfold fexp2F32
  rw [h]
  show (if 128 ≤ M * 2 ^ e.toNat / 2 ^ (-e).toNat then _ else if M * 2 ^ e.toNat / 2 ^ (-e).toNat < -150 then _
    else if M * 2 ^ e.toNat % 2 ^ (-e).toNat = 0 ∧ -149 ≤ M * 2 ^ e.toNat / 2 ^ (-e).toNat then
      powF32 false (M * 2 ^ e.toNat / 2 ^ (-e).toNat) else exp2Approx x (M * 2 ^ e.toNat / 2 ^ (-e).toNat) (exp2Acc M e)) = _
  simp only [hq, hr]
  rfl

/-- The bound of a value whose exponent field is known from below. -/
theorem le_approxBound (ulps : Nat) {num den j : Nat} (h : j * 2 ^ 23 ≤ (roundTo .f32 .rtz false false num den).bits) :
    ulps * 2 ^ j ≤ approxBound ulps false num den := by
  unfold approxBound
  have hj : j ≤ (roundTo .f32 .rtz false false num den).bits / 2 ^ 23 := (Nat.le_div_iff_mul_le (Nat.two_pow_pos 23)).mpr h
  exact Nat.mul_le_mul_left _ (Nat.pow_le_pow_right Nat.two_pos (hj.trans (le_max_left _ _)))

/-- Near 2^128 the lower end stays finite because its bound is 2^105. -/
theorem exp2_reach_top {acc err : Nat} (h1 : 2 ^ 160 ≤ acc) (h2 : acc + err ≤ 2 ^ 161 + 2 ^ 137) :
    (acc + err) * 2 ^ 150 * 2 ^ 149 ≤
      placeUnits maxPlace * (2 ^ 33 * 2 ^ 150) + approxBound 2 false acc (2 ^ 33) * 2 ^ 33 * 2 ^ 149 := by
  have h0 : 0 < acc := lt_of_lt_of_le (Nat.two_pow_pos 160) h1
  have hfp : 254 * 2 ^ 23 ≤ floorPlace acc (2 ^ 33) := by
    have hP : placeUnits (254 * 2 ^ 23) = 2 ^ 23 * 2 ^ 253 :=
      (congrArg placeUnits (by decide : 254 * 2 ^ 23 = 253 * 2 ^ 23 + 2 ^ 23)).trans (placeUnits_mk (.inr le_rfl) (by decide))
    refine le_floorPlace h0 (Nat.two_pow_pos 33) ?_
    calc placeUnits (254 * 2 ^ 23) * 2 ^ 33 = 2 ^ 160 * 2 ^ 149 := by rw [hP, ← pow_add, ← pow_add, ← pow_add]
      _ ≤ acc * 2 ^ 149 := Nat.mul_le_mul_right _ h1
  have hb : 2 * 2 ^ 254 ≤ approxBound 2 false acc (2 ^ 33) := by
    refine le_approxBound 2 ?_
    rw [roundTo_rtz_bits h0 (Nat.two_pow_pos 33)]
    exact le_min hfp (by decide)
  have e1 : placeUnits maxPlace * (2 ^ 33 * 2 ^ 150) = (2 ^ 161 - 2 ^ 137) * 2 ^ 150 * 2 ^ 149 := by
    rw [placeUnits_maxPlace_scaled, show (2 : Nat) ^ 161 - 2 ^ 137 = (2 ^ 128 - 2 ^ 104) * 2 ^ 33 by decide]
    ring
  have e2 : 2 * 2 ^ 254 * 2 ^ 33 * 2 ^ 149 = 2 ^ 138 * 2 ^ 150 * 2 ^ 149 := by
    rw [← pow_succ', ← pow_add, ← pow_add, ← pow_add, ← pow_add]
  calc (acc + err) * 2 ^ 150 * 2 ^ 149 ≤ (2 ^ 161 - 2 ^ 137 + 2 ^ 138) * 2 ^ 150 * 2 ^ 149 :=
        Nat.mul_le_mul_right _ (Nat.mul_le_mul_right _ (h2.trans (by decide)))
    _ = placeUnits maxPlace * (2 ^ 33 * 2 ^ 150) + 2 * 2 ^ 254 * 2 ^ 33 * 2 ^ 149 := by rw [e1, e2, Nat.add_mul, Nat.add_mul]
    _ ≤ _ := Nat.add_le_add_left (Nat.mul_le_mul_right _ (Nat.mul_le_mul_right _ hb)) _

/-- v.fexp2 of no whole number, within the range: positive, finite and inexact. -/
theorem exp2Approx_inexact (x : W32) {w : Int} (hw : -150 ≤ w) (hw' : w < 128) {acc : Nat} (h1 : 2 ^ 160 ≤ acc)
    (h2 : acc ≤ 2 ^ 161) : ∃ n, 0 < n ∧ n ≤ maxPlace ∧ exp2Approx x w acc = atPlace false n := by
  obtain ⟨t, ht, ht33, ht310⟩ : ∃ t : Nat, w - workBits = -t ∧ 33 ≤ t ∧ t ≤ 310 :=
    ⟨(workBits - w).toNat, by unfold workBits; omega⟩
  unfold exp2Approx
  rw [ht, Int.neg_neg, Int.toNat_natCast, show (-(t : Int)).toNat = 0 by omega, pow_zero, Nat.mul_one, Nat.mul_one]
  have herr : acc + (acc / 2 ^ 63 + 2 ^ 9) ≤ 2 ^ 161 + 2 ^ 99 :=
    Nat.add_le_add h2 ((Nat.add_le_add_right (Nat.div_le_div_right h2) _).trans (by decide))
  have hden : 2 ^ t ≤ acc * 2 ^ 150 := by
    calc 2 ^ t ≤ 2 ^ (160 + 150) := Nat.pow_le_pow_right Nat.two_pos ht310
      _ = 2 ^ 160 * 2 ^ 150 := pow_add _ _ _
      _ ≤ acc * 2 ^ 150 := Nat.mul_le_mul_right _ h1
  have hreach : (acc + (acc / 2 ^ 63 + 2 ^ 9)) * 2 ^ 150 * 2 ^ 149 ≤
      placeUnits maxPlace * (2 ^ t * 2 ^ 150) + approxBound 2 false acc (2 ^ t) * 2 ^ t * 2 ^ 149 := by
    rcases Nat.lt_or_eq_of_le ht33 with h34 | rfl
    · refine approx_reach 2 false (herr.trans ?_)
      calc 2 ^ 161 + 2 ^ 99 ≤ (2 ^ 128 - 2 ^ 104) * 2 ^ 34 := by decide
        _ ≤ (2 ^ 128 - 2 ^ 104) * 2 ^ t := Nat.mul_le_mul_left _ (Nat.pow_le_pow_right Nat.two_pos h34)
    · exact exp2_reach_top h1 (herr.trans (by decide))
  obtain ⟨n, hn, hM, -, -, e⟩ := approxTo_eq_atPlace_pos Nat.two_pos (Nat.two_pow_pos t) 2 x false hden (by decide) le_rfl hreach
  exact ⟨n, hn, hM, e⟩

/-! ### v.flog2 -/

/-- An integer below 2^24 becomes that f32, without a flag. -/
theorem intToFp_eq {n : Int} (hn : n.natAbs < 2 ^ 24) :
    ∃ p ≤ maxPlace, placeUnits p = n.natAbs * 2 ^ 149 ∧ intToFp .f32 .rne false n = ⟨b2n (n < 0) * 2 ^ 31 + p, 0⟩ := by
  obtain ⟨p, hp, hu⟩ := exists_place_of_lt hn
  refine ⟨p, hp, hu, ?_⟩
  by_cases h0 : n = 0
  · subst h0
    rw [Int.natAbs_zero, Nat.zero_mul] at hu
    obtain rfl : p = 0 := placeUnits_strictMono.injective hu
    rfl
  · have e : intToFp .f32 .rne false n = roundTo .f32 .rne false (n < 0) (n.natAbs * 2 ^ 0) (2 ^ 0) := by
      unfold intToFp
      rw [if_neg h0]
      rfl
    rw [e, pow_zero, Nat.mul_one]
    exact roundTo_of_place (Int.natAbs_pos.mpr h0) Nat.one_pos .rne _ hp (by rw [Nat.mul_one, hu])

theorem flog2F32_of_fin {x : W32} {m : Nat} {e : Int} (h : fpDec .f32 x.toNat = .fin false m e) (hm : m ≠ 0) :
    flog2F32 x = if isPow2 m = true then intToFp .f32 .rne false ((m.log2 : Int) + e)
      else
        let f := log2Bits 80 (m * 2 ^ workBits / 2 ^ m.log2) 0
        let v : Int := ((m.log2 : Int) + e) * 2 ^ 80 + f
        approxTo 3 x 2 true (v < 0) (if v < 0 then v.natAbs - 2 else v.natAbs) 2 (2 ^ 80) := by
  unfold flog2F32
  rw [h]
  exact (if_neg hm).trans (if_neg Bool.false_ne_true)

/-- The logarithm of a value that is no power of two is finite and inexact. -/
theorem flog2F32_inexact {x : W32} {m : Nat} {e : Int} (h : fpDec .f32 x.toNat = .fin false m e) (hm : m ≠ 0)
    (hne : ∀ n, f32Units x.toNat ≠ 2 ^ n) : Inexact (flog2F32 x) := by
  obtain ⟨hm24, he, he'⟩ := fpDec_fin_bounds h
  have hu := f32Units_of_fin h
  have hnot : ¬isPow2 m = true := fun hp => hne _ (hu.trans (units_of_isPow2 hp e))
  have hl : m.log2 ≤ 23 := by have := (Nat.log2_lt hm).mpr hm24; omega
  have hf := log2Bits_lt 80 (m * 2 ^ workBits / 2 ^ m.log2) 0
  rw [flog2F32_of_fin h hm, if_neg hnot]
  dsimp only
  generalize log2Bits 80 (m * 2 ^ workBits / 2 ^ m.log2) 0 = f at hf ⊢
  refine approxTo_inexact Nat.two_pos (Nat.two_pow_pos 80) 3 x _ (approx_reach 2 true ?_)
  split <;> omega

/-! ### Special operands (06 Table 6.3; 03 R74) -/

/-- An approximating word completes with a function of each lane's bits. -/
theorem vecApprox_writes (d a : Reg) (f : W32 → FRes) (s : State) :
    ∃ t, vecApprox d a f s = .next t ∧ WritesVector s d .f32 (fun j _ => (f (lane (s.g.vr a) j)).bits)
      (s.g.flagsOf .f32 (laneRes .f32 fun e => f (BitVec.ofNat 32 (e (s.g.vr a))))) t := by
  obtain ⟨t, ht, w⟩ := vecWord_writes 6 d .f32 (fun e => f (BitVec.ofNat 32 (e (s.g.vr a)))) s
  refine ⟨t, ht, w.congr fun i k _ hk => ?_⟩
  obtain rfl : k = 0 := Nat.lt_one_iff.mp hk
  rw [elemGet_of_width_32 (t := .f32) rfl, BitVec.ofNat_toNat, BitVec.setWidth_eq]

/-- A NaN is made quiet, and signals where it was not. -/
theorem approx_of_nan {x : W32} {g : Bool} {m : Nat} (h : fpDec .f32 x.toNat = .nan g m) :
    ∀ f ∈ [frcpF32, frsqF32, fexp2F32, flog2F32], f x = ⟨x.toNat ||| 2 ^ 22, Flags.nv.when (!bitAt m 22)⟩ := by
  have hp : (pickNaN .f32 [.nan g m]).getD (invalid .f32) = ⟨x.toNat ||| 2 ^ 22, Flags.nv.when (!bitAt m 22)⟩ := by
    rw [pickNaN_of_nan h, Option.getD_some]
  rw [List.forall_mem_cons, List.forall_mem_cons, List.forall_mem_cons, List.forall_mem_singleton]
  refine ⟨?_, ?_, ?_, ?_⟩
  · unfold frcpF32
    rw [h]
    exact hp
  · unfold frsqF32
    rw [h]
    exact hp
  · unfold fexp2F32
    rw [h]
    exact hp
  · unfold flog2F32
    rw [h]
    exact hp

theorem approx_of_inf {x : W32} {g : Bool} (h : fpDec .f32 x.toNat = .inf g) :
    frcpF32 x = ⟨fpZero .f32 g, 0⟩ ∧ frsqF32 x = (if g then ⟨0x7FC00000, Flags.nv⟩ else ⟨0, 0⟩) ∧
      fexp2F32 x = ⟨if g then 0 else 0x7F800000, 0⟩ ∧
      flog2F32 x = (if g then ⟨0x7FC00000, Flags.nv⟩ else ⟨0x7F800000, 0⟩) := by
  unfold frcpF32 frsqF32 fexp2F32 flog2F32
  rw [h]
  cases g
  · exact ⟨rfl, rfl, rfl, rfl⟩
  · exact ⟨rfl, rfl, rfl, rfl⟩

theorem approx_of_zero {x : W32} {g : Bool} {e : Int} (h : fpDec .f32 x.toNat = .fin g 0 e) :
    frcpF32 x = ⟨fpInf .f32 g, Flags.dz⟩ ∧ frsqF32 x = ⟨fpInf .f32 g, Flags.dz⟩ ∧ flog2F32 x = ⟨0xFF800000, Flags.dz⟩ := by
  unfold frcpF32 frsqF32 flog2F32
  rw [h]
  exact ⟨rfl, rfl, rfl⟩

theorem approx_of_negative {x : W32} {m : Nat} {e : Int} (h : fpDec .f32 x.toNat = .fin true m e) (hm : m ≠ 0) :
    frsqF32 x = ⟨0x7FC00000, Flags.nv⟩ ∧ flog2F32 x = ⟨0x7FC00000, Flags.nv⟩ := by
  unfold frsqF32 flog2F32
  rw [h]
  exact ⟨if_neg hm, if_neg hm⟩

/-! ### Whole and fractional powers of two -/

/-- v.fexp2 by the size of its operand `i`, in units of 2^−149. -/
theorem fexp2F32_cases {x : W32} {g : Bool} {m : Nat} {e : Int} (h : fpDec .f32 x.toNat = .fin g m e) :
    let i : Int := (if g then -(m : Int) else m) * 2 ^ (e + 149).toNat
    (128 * 2 ^ 149 ≤ i → fexp2F32 x = ⟨0x7F800000, Flags.ov ||| Flags.nx⟩) ∧
    (i < -150 * 2 ^ 149 → fexp2F32 x = ⟨0, Flags.uf ||| Flags.nx⟩) ∧
    (∀ n : Int, -149 ≤ n → n ≤ 127 → i = n * 2 ^ 149 → fexp2F32 x = ⟨f32Pow n, 0⟩) ∧
    (-150 * 2 ^ 149 ≤ i → i < 128 * 2 ^ 149 → (∀ n : Int, -149 ≤ n → i ≠ n * 2 ^ 149) →
      (fexp2F32 x).bits < 2 ^ 31 ∧ (fexp2F32 x).bits ≠ 0 ∧ Inexact (fexp2F32 x)) := by
  intro i
  have he := fexp2F32_of_fin h
  have hacc := exp2Acc_bounds (if g then -(m : Int) else m) e
  dsimp only at he
  change fexp2F32 x = if 128 ≤ i / 2 ^ 149 then _ else if i / 2 ^ 149 < -150 then _ else
    if i % 2 ^ 149 = 0 ∧ -149 ≤ i / 2 ^ 149 then powF32 false (i / 2 ^ 149) else exp2Approx x (i / 2 ^ 149) _ at he
  generalize exp2Acc (if g then -(m : Int) else m) e = acc at he hacc
  clear_value i
  refine ⟨fun hi => ?_, fun hi => ?_, fun n h1 h2 hi => ?_, fun h1 h2 hne => ?_⟩
  · rw [he, if_pos (by omega)]
    rfl
  · rw [he, if_neg (by omega), if_pos (by omega)]
    rfl
  · have hq : i / 2 ^ 149 = n := by omega
    rw [he, hq, if_neg (by omega), if_neg (by omega), if_pos (by omega), powF32_eq false n h1 h2]
    exact congrArg (FRes.mk · 0) (Nat.zero_add _)
  · have hnot : ¬(i % 2 ^ 149 = 0 ∧ -149 ≤ i / 2 ^ 149) := fun hw => hne (i / 2 ^ 149) hw.2 (by omega)
    rw [he, if_neg (by omega), if_neg (by omega), if_neg hnot]
    obtain ⟨n, hn, hM, hp⟩ := exp2Approx_inexact x (w := i / 2 ^ 149) (by omega) (by omega) hacc.1 hacc.2
    have hb : (atPlace false n).bits = n := Nat.zero_add n
    rw [hp, hb]
    exact ⟨hM.trans_lt (by decide), hn.ne', inexact_atPlace false hM⟩

/-! ### Operands that are powers of two -/

theorem toNat_ofNat_place (s : Bool) {p : Nat} (hp : p ≤ maxPlace) :
    (BitVec.ofNat 32 (b2n s * 2 ^ 31 + p)).toNat = b2n s * 2 ^ 31 + p := by
  have hs : b2n s ≤ 1 := by cases s <;> decide
  unfold maxPlace at hp
  rw [BitVec.toNat_ofNat, Nat.mod_eq_of_lt (by omega)]

/-- A power of two as an operand. -/
theorem fpDec_ofNat_f32Pow (s : Bool) (n : Int) (h1 : -149 ≤ n) (h2 : n ≤ 127) :
    ∃ (a : Nat) (e : Int), fpDec .f32 (BitVec.ofNat 32 (b2n s * 2 ^ 31 + f32Pow n)).toNat = .fin s (2 ^ a) e ∧ a + e = n := by
  rw [toNat_ofNat_place s (f32Pow_le n h2)]
  exact fpDec_f32Pow s n h1 h2

theorem frcpF32_f32Pow (s : Bool) (n : Int) (h1 : -127 ≤ n) (h2 : n ≤ 127) :
    frcpF32 (BitVec.ofNat 32 (b2n s * 2 ^ 31 + f32Pow n)) = ⟨b2n s * 2 ^ 31 + f32Pow (-n), 0⟩ := by
  obtain ⟨a, e, hd, hn⟩ := fpDec_ofNat_f32Pow s n (by omega) h2
  exact frcpF32_of_pow hd hn h1 (by omega)

theorem positive_ofNat_f32Pow (n : Int) : f32Pow n = b2n false * 2 ^ 31 + f32Pow n := (Nat.zero_add _).symm

theorem frsqF32_f32Pow (n : Int) (h1 : -74 ≤ n) (h2 : n ≤ 63) :
    frsqF32 (BitVec.ofNat 32 (f32Pow (2 * n))) = ⟨f32Pow (-n), 0⟩ := by
  obtain ⟨a, e, hd, hn⟩ := fpDec_ofNat_f32Pow false (2 * n) (by omega) (by omega)
  rw [positive_ofNat_f32Pow (2 * n)]
  exact frsqF32_of_pow hd hn (by omega) (by omega)

theorem flog2F32_f32Pow (n : Int) (h1 : -149 ≤ n) (h2 : n ≤ 127) :
    ∃ b, flog2F32 (BitVec.ofNat 32 (f32Pow n)) = ⟨b, 0⟩ ∧ f32Units b = n.natAbs * 2 ^ 149 ∧ b / 2 ^ 31 = b2n (n < 0) := by
  obtain ⟨a, e, hd, hn⟩ := fpDec_ofNat_f32Pow false n h1 h2
  obtain ⟨p, hp, hu, hi⟩ := intToFp_eq (n := n) (by omega)
  refine ⟨b2n (n < 0) * 2 ^ 31 + p, ?_, (f32Units_place _ hp).trans hu, ?_⟩
  · rw [positive_ofNat_f32Pow n, flog2F32_of_fin hd (Nat.two_pow_pos a).ne', if_pos (isPow2_two_pow a), Nat.log2_two_pow, hn, hi]
  · unfold maxPlace at hp
    omega

end Sys2Proof.Machine

namespace Sys2Proof.Proofs

open Sys2Proof.Machine

/-- Settles O15: special operands by evaluation, powers of two by exact rounding, and every other operand by the ends of the
error bound, between which whatever is delivered stands. -/
theorem vectorApproximations : Obligations.VectorApproximations := by
  refine ⟨fun s d a => ⟨vecApprox_writes d a _ s, vecApprox_writes d a _ s, vecApprox_writes d a _ s, vecApprox_writes d a _ s⟩,
    fun x g m e => ⟨approx_of_nan, approx_of_inf, ?zero, approx_of_negative, ?rcp, ?rsq, fexp2F32_cases, flog2F32_inexact⟩,
    fun n => ⟨fun h1 h2 => ⟨?pow, frcpF32_f32Pow true n h1 h2⟩, frsqF32_f32Pow n, flog2F32_f32Pow n⟩⟩
  case zero =>
    rintro h rfl
    exact approx_of_zero h
  case rcp =>
    intro h hm
    refine ⟨frcpF32_over h hm, fun hmax => ?_, fun hmax => ?_⟩
    · obtain ⟨q, -, -, -, hi⟩ := frcpF32_near h hm hmax
      exact hi
    · obtain ⟨q, hq, hb, hnear, -⟩ := frcpF32_near h hm hmax
      rw [hb, f32Units_place g hq]
      refine ⟨?_, hnear⟩
      unfold maxPlace at hq
      omega
  case rsq =>
    intro h hm hne
    have hnear := frsqF32_near h hm hne
    rw [← pow_mul, show 149 * 3 = 447 from rfl] at hnear
    exact hnear
  case pow =>
    have h := frcpF32_f32Pow false n h1 h2
    rwa [← positive_ofNat_f32Pow, ← positive_ofNat_f32Pow] at h

end Sys2Proof.Proofs
end

section
/-! PROOFS. Scalar integer words (04 R87 to R97): the word each of them writes, as number, integer or bits; O1 to O5. -/

namespace Sys2Proof.Machine

/-- A word that ends in one scalar result gives every property of it. -/
theorem gives_of_scalarOut {i : Instr} {s : State} {d : Reg} {n : Nat} {v : Word} {Q : Word → Prop}
    (hx : exec i s = scalarOut n d v s) (hv : Q v) : GivesScalar i s d Q :=
  ⟨v, hv, by rw [Completes, hx]; exact scalarOut_writes n d v s⟩

/-! ### Words as numbers and as bits -/

theorem toNat_shl (x : Word) (n : Nat) : (x <<< n).toNat = x.toNat * 2 ^ n % 2 ^ 64 := by
  rw [BitVec.toNat_shiftLeft, Nat.shiftLeft_eq]

theorem toNat_shr (x : Word) (n : Nat) : (x >>> n).toNat = x.toNat / 2 ^ n := by
  rw [BitVec.toNat_ushiftRight, Nat.shiftRight_eq_div_pow]

theorem toInt_sra (x : Word) (n : Nat) : (x.sshiftRight n).toInt = x.toInt / 2 ^ n := by
  rw [BitVec.toInt_sshiftRight, Int.shiftRight_eq_div_pow, Nat.cast_pow, Nat.cast_ofNat]

theorem toNat_sub_add (x y : Word) : ((x - y).toNat + y.toNat) % 2 ^ 64 = x.toNat := by
  rw [← BitVec.toNat_add, BitVec.sub_add_cancel]

theorem getLsbD_andn (x y : Word) (j : Nat) : (x &&& ~~~y).getLsbD j = (x.getLsbD j && !y.getLsbD j) := by
  by_cases hj : j < 64
  · simp [hj]
  · simp [BitVec.getLsbD_of_ge x j (Nat.le_of_not_lt hj)]

/-- A word rotated left takes each bit from `n` places below. -/
theorem getLsbD_rotl (x : Word) {n j : Nat} (hn : n < 64) (hj : j < 64) :
    (rotl x n).getLsbD j = x.getLsbD ((j + 64 - n) % 64) := by
  rw [rotl, BitVec.getLsbD_or, BitVec.getLsbD_shiftLeft, BitVec.getLsbD_ushiftRight]
  by_cases h : j < n
  · have e : (j + 64 - n) % 64 = 64 - n + j := by omega
    simp [h, e]
  · have e : (j + 64 - n) % 64 = j - n := by omega
    have above : x.getLsbD (64 - n + j) = false := BitVec.getLsbD_of_ge x _ (by omega)
    simp [h, hj, e, above]

/-! ### The lesser and the greater of two words -/

theorem apply_ite_le_eq_min {α : Type} [LinearOrder α] (f : Word → α) (x y : Word) :
    f (if f x ≤ f y then x else y) = min (f x) (f y) := by
  rw [apply_ite f, min_def]

theorem apply_ite_le_eq_max {α : Type} [LinearOrder α] (f : Word → α) (x y : Word) :
    f (if f y ≤ f x then x else y) = max (f x) (f y) := by
  rw [apply_ite f, max_comm, max_def]

/-! ### Products (04 R89) -/

/-- The high half of a signed product is an i64. -/
theorem toInt_mulHigh (x y : Word) : (BitVec.ofInt 64 (x.toInt * y.toInt / 2 ^ 64)).toInt = x.toInt * y.toInt / 2 ^ 64 := by
  have bound : |x.toInt * y.toInt| ≤ 2 ^ 63 * 2 ^ 63 := by
    rw [abs_mul]
    exact mul_le_mul (abs_le.mpr ⟨x.le_toInt, x.toInt_lt.le⟩) (abs_le.mpr ⟨y.le_toInt, y.toInt_lt.le⟩) (abs_nonneg _) (by decide)
  obtain ⟨lo, hi⟩ := abs_le.mp bound
  exact BitVec.toInt_ofInt_eq_self (by decide) (by omega) (by omega)

/-- The high half of a natural product is an n64. -/
theorem toNat_mulHigh (x y : Word) : (BitVec.ofNat 64 (x.toNat * y.toNat / 2 ^ 64)).toNat = x.toNat * y.toNat / 2 ^ 64 := by
  rw [BitVec.toNat_ofNat, Nat.mod_eq_of_lt]
  exact Nat.div_lt_of_lt_mul (Nat.mul_lt_mul'' x.isLt y.isLt)

/-! ### Zero bits and set bits (04 R89) -/

theorem clz64_eq (x : Word) : clz64 x = leadingZeros 64 x.toNat := by
  have h0 : x = 0 ↔ x.toNat = 0 := BitVec.toNat_inj.symm
  simp only [clz64, leadingZeros, h0]

/-- s.clz counts the zero bits above the highest set bit. -/
theorem clz64_spec (x : Word) :
    let v := BitVec.ofNat 64 (clz64 x)
    v.toNat ≤ 64 ∧ (∀ j < v.toNat, x.getLsbD (63 - j) = false) ∧ (v.toNat < 64 → x.getLsbD (63 - v.toNat) = true) := by
  have h := leadingZeros_spec x.isLt
  have e : (BitVec.ofNat 64 (clz64 x)).toNat = leadingZeros 64 x.toNat := by
    rw [BitVec.toNat_ofNat, clz64_eq, Nat.mod_eq_of_lt (h.1.trans_lt (by decide))]
  simp only [e]
  exact h

/-- The search for the lowest set bit passes zero bits only, and ends at a set bit or past the last place. -/
theorem ctzFrom_spec (x k i : Nat) :
    i ≤ ctzFrom x k i ∧ ctzFrom x k i ≤ i + k ∧ (∀ j, i ≤ j → j < ctzFrom x k i → bitAt x j = false) ∧
      (ctzFrom x k i < i + k → bitAt x (ctzFrom x k i) = true) := by
  induction k generalizing i with
  | zero => exact ⟨Nat.le_refl _, Nat.le_refl _, fun j h1 h2 => absurd h1 (Nat.not_le.mpr h2), fun h => absurd h (Nat.lt_irrefl _)⟩
  | succ k ih =>
    rw [ctzFrom]
    split
    · next hi => exact ⟨Nat.le_refl _, by omega, fun j h1 h2 => absurd h1 (Nat.not_le.mpr h2), fun _ => hi⟩
    · next hi =>
      obtain ⟨lo, hi', below, found⟩ := ih (i + 1)
      refine ⟨by omega, by omega, fun j h1 h2 => ?_, fun h => found (by omega)⟩
      rcases Nat.eq_or_lt_of_le h1 with rfl | h1
      · exact Bool.eq_false_iff.mpr hi
      · exact below j h1 h2

/-- s.ctz counts the zero bits below the lowest set bit. -/
theorem ctz64_spec (x : Word) :
    let v := BitVec.ofNat 64 (ctz64 x)
    v.toNat ≤ 64 ∧ (∀ j < v.toNat, x.getLsbD j = false) ∧ (v.toNat < 64 → x.getLsbD v.toNat = true) := by
  obtain ⟨-, hi, below, found⟩ := ctzFrom_spec x.toNat 64 0
  have e : (BitVec.ofNat 64 (ctz64 x)).toNat = ctzFrom x.toNat 64 0 := by
    rw [BitVec.toNat_ofNat, ctz64, Nat.mod_eq_of_lt (by omega)]
  simp only [e]
  exact ⟨by omega, fun j hj => below j (Nat.zero_le j) hj, fun h => found (by omega)⟩

/-- s.pop counts the set bits. -/
theorem toNat_popBits (x : Word) :
    (BitVec.ofNat 64 (popBits x.toNat 64)).toNat = ((List.range 64).filter fun j => x.getLsbD j).length := by
  have h : popBits x.toNat 64 = ((List.range 64).filter fun j => x.getLsbD j).length := popBits_eq_length x.toNat 64
  have hle := List.length_filter_le (fun j => x.getLsbD j) (List.range 64)
  rw [List.length_range] at hle
  rw [BitVec.toNat_ofNat, h, Nat.mod_eq_of_lt (by omega)]

/-! ### Bit fields (04 R91, Table 4.3) -/

theorem fieldOf_eq (b : Word) : fieldOf b = (min (b.toNat / 256 % 128) 64, b.toNat % 64) := by
  simp [fieldOf, bitsAt, Nat.shiftRight_eq_div_pow]

/-- s.bext moves the field to bit 0 and leaves the rest zero. -/
theorem getLsbD_bext (a b : Word) {j : Nat} (hj : j < 64) :
    (bext a b).getLsbD j = (decide (j < min (b.toNat / 256 % 128) 64) && a.getLsbD (b.toNat % 64 + j)) := by
  rw [bext, fieldOf_eq, BitVec.getLsbD_ofNat, decide_eq_true hj, Bool.true_and, bitsAt, Nat.testBit_mod_two_pow, Nat.testBit_shiftRight]
  rfl

/-- s.bins puts the low bits of `a` into the field and keeps the rest of `d`. -/
theorem getLsbD_bins (d a b : Word) {j : Nat} (hj : j < 64) :
    (bins d a b).getLsbD j =
      if b.toNat % 64 ≤ j ∧ j < b.toNat % 64 + min (b.toNat / 256 % 128) 64 then a.getLsbD (j - b.toNat % 64) else d.getLsbD j := by
  simp only [bins, fieldOf_eq]
  generalize b.toNat % 64 = lo
  generalize min (b.toNat / 256 % 128) 64 = w
  rw [BitVec.getLsbD_ofNat, Nat.testBit_or, Nat.testBit_and, Nat.testBit_xor, Nat.testBit_mod_two_pow, Nat.testBit_two_pow_sub_one,
    Nat.testBit_mul_two_pow, Nat.testBit_mul_two_pow, Nat.testBit_mod_two_pow, Nat.testBit_two_pow_sub_one]
  by_cases h1 : lo ≤ j
  · have h2 : j - lo < w ↔ j < lo + w := by omega
    by_cases h3 : j < lo + w <;> simp [hj, h1, h2, h3, BitVec.getLsbD]
  · simp [hj, h1, BitVec.getLsbD]

/-! ### Quotients and remainders (04 R90) -/

theorem divS_zero (x : Word) : divS x 0 = (BitVec.allOnes 64, x) := if_pos rfl
theorem divU_zero (x : Word) : divU x 0 = (BitVec.allOnes 64, x) := if_pos rfl

theorem divU_of_ne_zero {x y : Word} (h : y ≠ 0) :
    (divU x y).1.toNat = x.toNat / y.toNat ∧ (divU x y).2.toNat = x.toNat - x.toNat / y.toNat * y.toNat := by
  have hx := x.isLt
  have hq : x.toNat / y.toNat ≤ x.toNat := Nat.div_le_self _ _
  have hr : x.toNat % y.toNat ≤ x.toNat := Nat.mod_le _ _
  rw [divU, if_neg h, BitVec.toNat_ofNat, BitVec.toNat_ofNat, Nat.mod_eq_of_lt (by omega), Nat.mod_eq_of_lt (by omega),
    Nat.mod_eq_sub_div_mul]
  exact ⟨rfl, rfl⟩

/-- The quotient of a division that is not by zero wraps at 64 bits: for the one pair that overflows it is −2^63. -/
theorem divS_fst_of_ne_zero {x y : Word} (h : y ≠ 0) : (divS x y).1 = x.sdiv y := by
  rw [divS, if_neg h, ← BitVec.toInt_inj, BitVec.toInt_ofInt, BitVec.toInt_sdiv]

theorem divS_snd_of_ne_zero {x y : Word} (h : y ≠ 0) : (divS x y).2 = x.srem y := by
  rw [divS, if_neg h, ← BitVec.toInt_srem, BitVec.ofInt_toInt]

theorem toInt_eq_min_iff (x : Word) : x.toInt = -2 ^ 63 ↔ x = BitVec.intMin 64 := by
  rw [← BitVec.toInt_inj]
  rfl

theorem toInt_eq_neg_one_iff (x : Word) : x.toInt = -1 ↔ x = -1#64 := by
  rw [← BitVec.toInt_inj]
  rfl

/-- s.div rounds toward zero; the overflowing pair gives −2^63. -/
theorem divS_fst_spec (x y : Word) :
    (y = 0 → (divS x y).1 = BitVec.allOnes 64) ∧ (x.toInt = -2 ^ 63 ∧ y.toInt = -1 → (divS x y).1.toInt = -2 ^ 63) ∧
      (y ≠ 0 ∧ ¬(x.toInt = -2 ^ 63 ∧ y.toInt = -1) → (divS x y).1.toInt = x.toInt.tdiv y.toInt) := by
  rw [toInt_eq_min_iff x, toInt_eq_neg_one_iff y]
  refine ⟨?zero, ?overflow, ?ordinary⟩
  case zero =>
    rintro rfl
    rw [divS_zero]
  case overflow =>
    rintro ⟨rfl, rfl⟩
    rfl
  case ordinary =>
    rintro ⟨hy, hxy⟩
    rw [divS_fst_of_ne_zero hy, BitVec.toInt_sdiv_of_ne_or_ne _ _ (not_and_or.mp hxy)]

/-- s.rem takes the sign of the dividend; the overflowing pair leaves nothing. -/
theorem divS_snd_spec (x y : Word) :
    (y = 0 → (divS x y).2 = x) ∧ (y ≠ 0 → (divS x y).2.toInt = x.toInt - x.toInt.tdiv y.toInt * y.toInt) ∧
      (x.toInt = -2 ^ 63 ∧ y.toInt = -1 → (divS x y).2 = 0) := by
  rw [toInt_eq_min_iff x, toInt_eq_neg_one_iff y]
  refine ⟨?zero, ?ordinary, ?overflow⟩
  case zero =>
    rintro rfl
    rw [divS_zero]
  case ordinary =>
    intro hy
    rw [divS_snd_of_ne_zero hy, BitVec.toInt_srem, Int.tmod_def, mul_comm]
  case overflow =>
    rintro ⟨rfl, rfl⟩
    rfl

/-- s.divn and s.remn answer the natural quotient and remainder; by zero they answer all ones and the dividend. -/
theorem divU_spec (x y : Word) :
    ((y = 0 → (divU x y).1 = BitVec.allOnes 64) ∧ (y ≠ 0 → (divU x y).1.toNat = x.toNat / y.toNat)) ∧
      (y = 0 → (divU x y).2 = x) ∧ (y ≠ 0 → (divU x y).2.toNat = x.toNat - x.toNat / y.toNat * y.toNat) := by
  refine ⟨⟨?_, fun h => (divU_of_ne_zero h).1⟩, ?_, fun h => (divU_of_ne_zero h).2⟩ <;>
    · rintro rfl
      rw [divU_zero]

/-! ### Immediates and constants (04 R92 to R94) -/

/-- s.lea adds its second operand shifted. -/
theorem toNat_lea (x y : Word) (n : Nat) : (x + y <<< n).toNat = (x.toNat + y.toNat * 2 ^ n) % 2 ^ 64 := by
  rw [BitVec.toNat_add, toNat_shl, Nat.add_mod_mod]

/-- s.lim shifts 19 bits in. -/
theorem toNat_lim (z : Word) (j : BitVec 19) : (z <<< 19 + j.setWidth 64).toNat = (z.toNat * 2 ^ 19 + j.toNat) % 2 ^ 64 := by
  rw [BitVec.toNat_add, toNat_shl, BitVec.toNat_setWidth_of_le (by decide), Nat.mod_add_mod]

/-! ### Compares (04 R96) -/

/-- A compare writes 1 where its condition holds and 0 where it does not. -/
theorem b2w_iff {c : Bool} {p q : Prop} (hp : c = true ↔ p) (hq : ¬p ↔ q) : (b2w c = 1 ↔ p) ∧ (b2w c = 0 ↔ q) := by
  rw [← hq, ← hp]
  cases c <;> decide

theorem b2w_eq_zero_or_one (c : Bool) : b2w c = 0 ∨ b2w c = 1 := by cases c <;> decide

/-- What a compare answers under each condition code (02 Table 2.3). -/
theorem condHolds_code (x y : Word) (c : BitVec 3) :
    let v := b2w (condHolds (Cond.ofCode c) x y)
    (c = 0 → (v = 1 ↔ x = y) ∧ (v = 0 ↔ x ≠ y)) ∧
    (c = 1 → (v = 1 ↔ x ≠ y) ∧ (v = 0 ↔ x = y)) ∧
    (c = 2 → (v = 1 ↔ x.toInt < y.toInt) ∧ (v = 0 ↔ y.toInt ≤ x.toInt)) ∧
    (c = 3 → (v = 1 ↔ y.toInt ≤ x.toInt) ∧ (v = 0 ↔ x.toInt < y.toInt)) ∧
    (c = 4 → (v = 1 ↔ x.toNat < y.toNat) ∧ (v = 0 ↔ y.toNat ≤ x.toNat)) ∧
    (c = 5 → (v = 1 ↔ y.toNat ≤ x.toNat) ∧ (v = 0 ↔ x.toNat < y.toNat)) := by
  refine ⟨?eq, ?ne, ?lt, ?ge, ?ltn, ?gen⟩ <;> rintro rfl
  case eq => exact b2w_iff decide_eq_true_iff Iff.rfl
  case ne => exact b2w_iff decide_eq_true_iff not_not
  case lt => exact b2w_iff decide_eq_true_iff not_lt
  case ge => exact b2w_iff decide_eq_true_iff not_le
  case ltn => exact b2w_iff decide_eq_true_iff not_lt
  case gen => exact b2w_iff decide_eq_true_iff not_le

/-! ### The word of s.lea (02 Table 2.1) -/

theorem rawSv_lea {w : W32} (h : fldN w 25 7 = 3) : rawSv w = sv03 w := by
  rw [rawSv, h]
  rfl

/-- Every value of the field names a shift, so the fixed bits alone decide. -/
theorem decode_lea {w : W32} (h : fldN w 25 7 = 3) : decode .sv w = sv03 w := by
  rw [decode, decodeRaw, rawSv_lea h, sv03]
  split_ifs
  · rfl
  · rfl

end Sys2Proof.Machine

namespace Sys2Proof.Proofs

open Sys2Proof.Machine

/-- Settles O1, one property of the written word for each row of Table 4.1. -/
theorem scalarIntegerResults : Obligations.ScalarIntegerResults := by
  intro s d a b x y z sh
  have hsh : sh < 64 := Nat.mod_lt _ (by decide)
  refine ⟨?add, ?sub, ?and, ?or, ?xor, ?andn, ?shl, ?shr, ?sra, ?rot, ?min, ?max, ?minn, ?maxn, ?mov, ?mul, ?mulh, ?mulhn,
    ?clz, ?ctz, ?pop, ?bext, ?bins⟩
  case add => exact gives_of_scalarOut rfl (BitVec.toNat_add x y)
  case sub => exact gives_of_scalarOut rfl (toNat_sub_add x y)
  case and => exact gives_of_scalarOut rfl fun _ => BitVec.getLsbD_and
  case or => exact gives_of_scalarOut rfl fun _ => BitVec.getLsbD_or
  case xor => exact gives_of_scalarOut rfl fun _ => BitVec.getLsbD_xor
  case andn => exact gives_of_scalarOut rfl (getLsbD_andn x y)
  case shl => exact gives_of_scalarOut rfl (toNat_shl x sh)
  case shr => exact gives_of_scalarOut rfl (toNat_shr x sh)
  case sra => exact gives_of_scalarOut rfl (toInt_sra x sh)
  case rot => exact gives_of_scalarOut rfl fun _ => getLsbD_rotl x hsh
  case min => exact gives_of_scalarOut rfl (apply_ite_le_eq_min BitVec.toInt x y)
  case max => exact gives_of_scalarOut rfl (apply_ite_le_eq_max BitVec.toInt x y)
  case minn => exact gives_of_scalarOut rfl (apply_ite_le_eq_min BitVec.toNat x y)
  case maxn => exact gives_of_scalarOut rfl (apply_ite_le_eq_max BitVec.toNat x y)
  case mov => exact gives_of_scalarOut rfl rfl
  case mul => exact gives_of_scalarOut rfl (BitVec.toNat_mul x y)
  case mulh => exact gives_of_scalarOut rfl (toInt_mulHigh x y)
  case mulhn => exact gives_of_scalarOut rfl (toNat_mulHigh x y)
  case clz => exact gives_of_scalarOut rfl (clz64_spec x)
  case ctz => exact gives_of_scalarOut rfl (ctz64_spec x)
  case pop => exact gives_of_scalarOut rfl (toNat_popBits x)
  case bext => exact gives_of_scalarOut rfl fun _ => getLsbD_bext x y
  case bins => exact gives_of_scalarOut rfl fun _ => getLsbD_bins z x y

/-- Settles O2: but for a zero divisor, the model divides as BitVec's signed and natural division do. -/
theorem scalarDivision : Obligations.ScalarDivision := by
  intro s d a b x y
  obtain ⟨hq, hr⟩ := divU_spec x y
  exact ⟨gives_of_scalarOut rfl (divS_fst_spec x y), gives_of_scalarOut rfl (divS_snd_spec x y),
    gives_of_scalarOut rfl hq, gives_of_scalarOut rfl hr⟩

/-- Settles O3: the immediate forms are those of registers with the sign-extended immediate, and a compare answers its condition. -/
theorem scalarImmediatesAndCompares : Obligations.ScalarImmediatesAndCompares := by
  intro s d a b c i j k x y z e
  have reg {Q : Word → Prop} (h : Q (b2w (condHolds (Cond.ofCode c) x y))) : GivesScalar (.sCmp d a b c) s d Q :=
    gives_of_scalarOut rfl h
  have imm {Q : Word → Prop} (h : Q (b2w (condHolds (Cond.ofCode c) x e))) : GivesScalar (.sCmpi c d a i) s d Q :=
    gives_of_scalarOut rfl h
  obtain ⟨eq, ne, lt, ge, ltn, gen⟩ := condHolds_code x y c
  obtain ⟨eqi, nei, lti, gei, ltni, geni⟩ := condHolds_code x e c
  refine ⟨?add, ?and, ?or, ?xor, ?shl, ?shr, ?sra, ?li, ?lim, reg (b2w_eq_zero_or_one _), fun h => ⟨reg (eq h), imm (eqi h)⟩,
    fun h => ⟨reg (ne h), imm (nei h)⟩, fun h => ⟨reg (lt h), imm (lti h)⟩, fun h => ⟨reg (ge h), imm (gei h)⟩,
    fun h => ⟨reg (ltn h), imm (ltni h)⟩, fun h => ⟨reg (gen h), imm (geni h)⟩⟩
  case add => exact gives_of_scalarOut rfl (BitVec.toNat_add x e)
  case and => exact gives_of_scalarOut rfl fun _ => BitVec.getLsbD_and
  case or => exact gives_of_scalarOut rfl fun _ => BitVec.getLsbD_or
  case xor => exact gives_of_scalarOut rfl fun _ => BitVec.getLsbD_xor
  case shl => exact gives_of_scalarOut rfl (toNat_shl x k.toNat)
  case shr => exact gives_of_scalarOut rfl (toNat_shr x k.toNat)
  case sra => exact gives_of_scalarOut rfl (toInt_sra x k.toNat)
  case li => exact gives_of_scalarOut rfl (BitVec.toInt_signExtend_of_le (by decide))
  case lim => exact gives_of_scalarOut rfl (toNat_lim z j)

/-- Settles O4: the sum wraps once at 64 bits, and a word of the opcode decodes where its fixed bits stand. -/
theorem scalarLea : Obligations.ScalarLea := fun s _ a b h =>
  ⟨gives_of_scalarOut rfl (toNat_lea (s.g.sr a) (s.g.sr b) h.toNat), fun _ => decode_lea⟩

/-- Settles O5: a word is zero where all its bits are. -/
theorem scalarSelect : Obligations.ScalarSelect := by
  refine fun s d a b c => gives_of_scalarOut rfl ⟨?some, ?none⟩
  case some =>
    rintro ⟨j, hj⟩
    refine if_pos fun h0 => ?_
    rw [h0] at hj
    exact Bool.false_ne_true (BitVec.getLsbD_zero.symm.trans hj)
  case none =>
    intro h
    have h0 : s.g.sr c = 0 := BitVec.eq_of_getLsbD_eq fun j _ => (h j).trans BitVec.getLsbD_zero.symm
    exact if_neg (not_not.mpr h0)

end Sys2Proof.Proofs
end

section
/-! PROOFS. Floating-point results are encodings of their type (03 Table 3.2; 04 R87): the fields of an encoding keep to their
widths, rounding ends at most at the greatest exponent and significand, and every operation answers one of these; O6. -/

namespace Sys2Proof.Machine

/-- A result is an encoding of a type: no bit above the type's width is set. -/
def FRes.Fits (r : FRes) (t : FTy) : Prop := r.bits < 2 ^ fpBits t

/-! ### Encodings -/

theorem b2n_le_one (s : Bool) : b2n s ≤ 1 := by cases s <;> decide

/-- A sign, an exponent field and a fraction field that keep to their widths make an encoding. -/
theorem fpPack_lt {t : FTy} (s : Bool) {e f : Nat} (he : e < 2 ^ fpExp t) (hf : f < 2 ^ fpFrac t) :
    fpPack t s e f < 2 ^ fpBits t := by
  have hs := b2n_le_one s
  have hw : fpBits t - 1 = fpExp t + fpFrac t ∧ fpBits t = fpExp t + fpFrac t + 1 := by cases t <;> decide
  have hef : e * 2 ^ fpFrac t + f < 2 ^ (fpExp t + fpFrac t) := by
    calc e * 2 ^ fpFrac t + f < (e + 1) * 2 ^ fpFrac t := by rw [Nat.succ_mul]; omega
      _ ≤ 2 ^ fpExp t * 2 ^ fpFrac t := Nat.mul_le_mul_right _ he
      _ = 2 ^ (fpExp t + fpFrac t) := (pow_add _ _ _).symm
  have hsign : b2n s * 2 ^ (fpExp t + fpFrac t) ≤ 2 ^ (fpExp t + fpFrac t) := (Nat.mul_le_mul_right _ hs).trans_eq (Nat.one_mul _)
  rw [fpPack, hw.1, hw.2, pow_succ]
  omega

theorem fpNaN_lt {t : FTy} (s : Bool) {f : Nat} (hf : f < 2 ^ fpFrac t) : fpNaN t s f < 2 ^ fpBits t :=
  fpPack_lt s (Nat.sub_lt (Nat.two_pow_pos _) Nat.one_pos) hf

theorem fpInf_lt (t : FTy) (s : Bool) : fpInf t s < 2 ^ fpBits t := fpNaN_lt s (Nat.two_pow_pos _)

theorem fpZero_lt (t : FTy) (s : Bool) : fpZero t s < 2 ^ fpBits t := fpPack_lt s (Nat.two_pow_pos _) (Nat.two_pow_pos _)

theorem fpMax_lt (t : FTy) (s : Bool) : fpMax t s < 2 ^ fpBits t := by cases t <;> cases s <;> decide

theorem fpCanon_lt (t : FTy) : fpCanon t < 2 ^ fpBits t := by cases t <;> decide

/-! ### NaNs, overflows and infinities (03 R73, R74) -/

theorem nan_fraction_lt {t : FTy} {x f : Nat} {s : Bool} (h : fpDec t x = .nan s f) : f < 2 ^ fpFrac t := by
  have hf : bitsAt x 0 (fpFrac t) < 2 ^ fpFrac t := Nat.mod_lt _ (Nat.two_pow_pos _)
  unfold fpDec at h
  dsimp only at h
  split_ifs at h <;> cases h <;> exact hf

theorem quieted_lt {t : FTy} (s : Bool) {f : Nat} (hf : f < 2 ^ fpFrac t) : quieted t s f < 2 ^ fpBits t := by
  have hq : fpQuietBit t < 2 ^ fpFrac t := by cases t <;> decide
  have hnan : fpNaN t s (f ||| fpQuietBit t) < 2 ^ fpBits t := fpNaN_lt s (Nat.or_lt_two_pow hf hq)
  cases t
  case e4m3 | e5m2 => exact fpCanon_lt _
  all_goals exact hnan

/-- The NaN that R74 selects is an encoding, where the operands are decoded in that type. -/
theorem pickNaN_fits {t : FTy} {xs : List Nat} {r : FRes} (h : pickNaN t (xs.map (fpDec t)) = some r) : r.Fits t := by
  obtain ⟨v, hv, rfl⟩ := Option.map_eq_some_iff.mp h
  obtain ⟨x, -, rfl⟩ := List.mem_map.mp (List.mem_of_find?_eq_some hv)
  cases hx : fpDec t x with
  | nan s f => exact quieted_lt s (nan_fraction_lt hx)
  | inf s => exact fpCanon_lt t
  | fin s m e => exact fpCanon_lt t

/-- An operation answers the NaN that R74 selects, or else a result of its own. -/
theorem pickNaN_getD_fits {t : FTy} (xs : List Nat) {r : FRes} (hr : r.Fits t) : ((pickNaN t (xs.map (fpDec t))).getD r).Fits t := by
  cases h : pickNaN t (xs.map (fpDec t)) with
  | none => exact hr
  | some q => exact pickNaN_fits h

theorem invalid_fits (t : FTy) : (invalid t).Fits t := fpCanon_lt t

theorem overflowTo_lt (t : FTy) (rm : Rm) (sat s : Bool) : overflowTo t rm sat s < 2 ^ fpBits t := by
  have hi := fpInf_lt t s
  have hm := fpMax_lt t s
  cases t
  case e4m3 => cases sat; exacts [fpNaN_lt s (by decide), hm]
  case e5m2 => cases sat; exacts [hi, hm]
  all_goals
    cases rm
    case rne => exact hi
    case rtz => exact hm
    case rdn => cases s; exacts [hm, hi]
    case rup => cases s; exacts [hi, hm]

theorem deliverInf_fits (t : FTy) (sat s : Bool) : (deliverInf t sat s).Fits t := by
  have hi := fpInf_lt t s
  have hm := fpMax_lt t s
  cases t
  case e4m3 => cases sat; exacts [fpNaN_lt s (by decide), hm]
  case e5m2 => cases sat; exacts [hi, hm]
  all_goals exact hi

/-! ### Rounding (03 R71) -/

/-- The upper half of `floorLog2_spec`, for any scales of numerator and denominator that stand a binade apart. -/
theorem mul_pow_lt_of_floorLog2_lt {num den a b : Nat} (hn : 0 < num) (hd : 0 < den) (h : floorLog2 num den + a < b) :
    num * 2 ^ a < den * 2 ^ b := by
  obtain ⟨k, hk⟩ : ∃ k : Nat, -((a + k : Nat) : Int) ≤ floorLog2 num den := ⟨(-floorLog2 num den).toNat, by omega⟩
  obtain ⟨-, hlt⟩ := floorLog2_spec hn hd (a + k) hk
  refine Nat.lt_of_mul_lt_mul_right (a := 2 ^ k) ?_
  calc num * 2 ^ a * 2 ^ k = num * 2 ^ (a + k) := by rw [Nat.mul_assoc, ← pow_add]
    _ < den * 2 ^ (floorLog2 num den + (a + k : Nat) + 1).toNat := hlt
    _ ≤ den * 2 ^ (b + k) := Nat.mul_le_mul_left _ (Nat.pow_le_pow_right Nat.two_pos (by omega))
    _ = den * 2 ^ b * 2 ^ k := by rw [Nat.mul_assoc, ← pow_add]

/-- The quotient in a quantum that keeps `p` bits of it has at most `p` bits. -/
theorem scaled_div_lt (num den p : Nat) {qe : Int} (h : floorLog2 num den < qe + p) :
    (if 0 ≤ qe then num else num * 2 ^ (-qe).toNat) / (if 0 ≤ qe then den * 2 ^ qe.toNat else den) < 2 ^ p := by
  rcases Nat.eq_zero_or_pos num with rfl | hn
  · simp
  rcases Nat.eq_zero_or_pos den with rfl | hd
  · simp
  refine Nat.div_lt_of_lt_mul ?_
  split_ifs with hq
  · have := mul_pow_lt_of_floorLog2_lt (a := 0) (b := qe.toNat + p) hn hd (by omega)
    rwa [pow_zero, Nat.mul_one, pow_add, ← Nat.mul_assoc] at this
  · exact mul_pow_lt_of_floorLog2_lt hn hd (by omega)

/-- The exponent field of the greatest finite value fits (03 R64 for e4m3). -/
theorem fpEmax_add_bias_lt (t : FTy) : (fpEmax t + fpBias t).toNat < 2 ^ fpExp t := by cases t <;> decide

/-- A rounded significand, after the carry of R71 out of its highest place, keeps to the precision. -/
theorem carried_lt {t : FTy} {q : Nat} (hq : q ≤ 2 ^ fpPrec t) : (if q = 2 ^ fpPrec t then 2 ^ fpFrac t else q) < 2 ^ fpPrec t := by
  split_ifs with h
  · exact Nat.pow_lt_pow_right Nat.one_lt_two (Nat.lt_succ_self _)
  · exact Nat.lt_of_le_of_ne hq h

theorem roundTo_fits (t : FTy) (rm : Rm) (sat s : Bool) (num den : Nat) : (roundTo t rm sat s num den).Fits t := by
  unfold roundTo
  extract_lets e qe n d q0 r q inexact top m qe' tiny fl
  have hq0 : q0 < 2 ^ fpPrec t := scaled_div_lt num den (fpPrec t) (by simp only [qe, fpPrec]; omega)
  have hq : q ≤ 2 ^ fpPrec t := by
    simp only [q]
    split_ifs <;> omega
  have hm : m < 2 ^ (fpFrac t + 1) := carried_lt hq
  split_ifs with hov ht
  · exact overflowTo_lt t rm sat s
  · exact fpPack_lt s (Nat.two_pow_pos _) (of_decide_eq_true ht)
  · refine fpPack_lt s ((Int.toNat_le_toNat ?_).trans_lt (fpEmax_add_bias_lt t)) ?_
    · simp only [top] at hov
      omega
    · rw [pow_succ] at hm
      omega

theorem roundDy_fits (t : FTy) (rm : Rm) (sat : Bool) (x : Dy) : (roundDy t rm sat x).Fits t := roundTo_fits t rm sat _ _ _

theorem roundVal_fits (t : FTy) (rm : Rm) (sat : Bool) (v : FVal) : (roundVal t rm sat v).Fits t := by
  cases v with
  | nan s f => exact invalid_fits t
  | inf s => exact deliverInf_fits t sat s
  | fin s m e =>
    rw [roundVal]
    split_ifs
    · exact fpZero_lt t s
    · exact roundDy_fits t rm sat _

/-! ### Operations (03 R85; 04 R98, R102) -/

theorem addVals_fits (t : FTy) (rm : Rm) (sat : Bool) (x y : FVal) : (addVals t rm sat x y).Fits t := by
  unfold addVals
  split
  · split_ifs
    · exact deliverInf_fits t sat _
    · exact invalid_fits t
  · exact deliverInf_fits t sat _
  · exact deliverInf_fits t sat _
  · dsimp only
    split_ifs
    · exact fpZero_lt t _
    · exact fpZero_lt t _
    · exact roundDy_fits t rm sat _
  · exact invalid_fits t

theorem fpAdd_fits (t : FTy) (rm : Rm) (sat neg : Bool) (a b : Nat) : (fpAdd t rm sat neg a b).Fits t :=
  pickNaN_getD_fits [a, b] (addVals_fits t rm sat _ _)

theorem fpSub_fits (t : FTy) (rm : Rm) (sat neg : Bool) (a b : Nat) : (fpSub t rm sat neg a b).Fits t :=
  pickNaN_getD_fits [a, b] (addVals_fits t rm sat _ _)

theorem fpMul_fits (t : FTy) (rm : Rm) (sat neg : Bool) (a b : Nat) : (fpMul t rm sat neg a b).Fits t := by
  refine pickNaN_getD_fits [a, b] ?_
  split
  · exact roundVal_fits t rm sat _
  · exact invalid_fits t

theorem fpDiv_fits (t : FTy) (rm : Rm) (neg : Bool) (a b : Nat) : (fpDiv t rm neg a b).Fits t := by
  refine pickNaN_getD_fits [a, b] ?_
  split
  · exact invalid_fits t
  · exact fpInf_lt t _
  · exact fpZero_lt t _
  · split_ifs
    · exact invalid_fits t
    · exact fpInf_lt t _
    · exact fpZero_lt t _
    · exact roundTo_fits t rm _ _ _ _
  · exact invalid_fits t

theorem fpSqrt_fits (t : FTy) (rm : Rm) (neg : Bool) (a : Nat) : (fpSqrt t rm neg a).Fits t := by
  refine pickNaN_getD_fits [a] ?_
  split
  · split_ifs
    · exact fpZero_lt t _
    · exact invalid_fits t
    · exact roundDy_fits t rm _ _
  · split_ifs
    · exact invalid_fits t
    · exact fpInf_lt t _
  · exact invalid_fits t

/-- The low bits of one of two operands. -/
theorem operand_fits {t : FTy} (c : Prop) [Decidable c] (a b : Nat) (fl : Flags) :
    FRes.Fits ⟨if c then bitsAt a 0 (fpBits t) else bitsAt b 0 (fpBits t), fl⟩ t := by
  unfold FRes.Fits
  split_ifs
  · exact Nat.mod_lt _ (Nat.two_pow_pos _)
  · exact Nat.mod_lt _ (Nat.two_pow_pos _)

theorem fpMin_fits (t : FTy) (a b : Nat) : (fpMin t a b).Fits t := pickNaN_getD_fits [a, b] (operand_fits _ a b _)

theorem fpMaxOp_fits (t : FTy) (a b : Nat) : (fpMaxOp t a b).Fits t := pickNaN_getD_fits [a, b] (operand_fits _ a b _)

theorem fpFma_fits (t : FTy) (rm : Rm) (sat neg : Bool) (a b c : Nat) : (fpFma t rm sat neg a b c).Fits t := by
  unfold fpFma
  dsimp only
  split
  · next r h =>
    have hr : r.Fits t := pickNaN_fits (xs := [a, b, c]) h
    split_ifs <;> exact hr
  · split
    · exact invalid_fits t
    · exact addVals_fits t rm sat _ _

end Sys2Proof.Machine

namespace Sys2Proof.Proofs

open Sys2Proof.Machine

/-- Settles O6. Neither s.fdiv nor s.fsqrt needs the type to be f32 or f64. -/
theorem floatResultsFit : Obligations.FloatResultsFit := fun T m sat neg x y z =>
  ⟨fpAdd_fits T m sat neg x y, fpSub_fits T m sat neg x y, fpMul_fits T m sat neg x y, fun _ => fpDiv_fits T m neg x y,
    fun _ => fpSqrt_fits T m neg x, fpMin_fits T x y, fpMaxOp_fits T x y, fpFma_fits T m sat neg x y z⟩

end Sys2Proof.Proofs
end

section
/-! PROOFS. What leaves Chandler's tables alone: accesses behind the near caches, buffered stores that reach their ordering points, and the
machine's own writes change no task and no team. -/

namespace Sys2Proof.Machine

/-- From `s` to `t` no task and no team changes. -/
structure TablesStand (s t : State) : Prop where
  tasks : t.tasks = s.tasks
  teams : t.teams = s.teams

theorem TablesStand.refl (s : State) : TablesStand s s := ⟨rfl, rfl⟩
theorem TablesStand.trans {s t u : State} (a : TablesStand s t) (b : TablesStand t u) : TablesStand s u :=
  ⟨b.tasks.trans a.tasks, b.teams.trans a.teams⟩
/-- An update of other fields. -/
theorem TablesStand.same {s t u : State} (a : TablesStand s t) (ht : u.tasks = t.tasks := by rfl) (hm : u.teams = t.teams := by rfl) :
    TablesStand s u := a.trans ⟨ht, hm⟩
theorem TablesStand.task {s t : State} (a : TablesStand s t) (k : Nat) : t.task k = s.task k := by
  unfold State.task
  rw [a.tasks]
theorem TablesStand.team {s t : State} (a : TablesStand s t) (k : Nat) : t.team k = s.team k := by
  unfold State.team
  rw [a.teams]

theorem TablesStand.quiet {s t u : State} (a : TablesStand s t) (q : Quiet t u) : TablesStand s u :=
  a.trans ⟨by rw [q.rest], by rw [q.rest]⟩
theorem TablesStand.foldl {α : Type} {s : State} {f : State → α → State} (hf : ∀ t x, TablesStand s t → TablesStand s (f t x))
    {l : List α} {t : State} (a : TablesStand s t) : TablesStand s (l.foldl f t) := by
  induction l generalizing t with
  | nil => exact a
  | cons x l ih => exact ih (hf t x a)

/-! ### The parts of State -/

section
variable {s t : State} (a : TablesStand s t)
include a

theorem TablesStand.modCore {c : Nat} {f : Core → Core} : TablesStand s (t.modCore c f) := a.same
theorem TablesStand.modDie {d : Nat} {f : Die → Die} : TablesStand s (t.modDie d f) := a.same
theorem TablesStand.modEnc {e : Nat} {f : Enclave → Enclave} : TablesStand s (t.modEnc e f) := a.same
theorem TablesStand.modG {f : Group → Group} : TablesStand s (t.modG f) := a.same
theorem TablesStand.setGroup {x : Group} : TablesStand s (t.setGroup x) := by
  unfold State.setGroup
  split
  · exact a.same
  · exact a.same
theorem TablesStand.modGroup {k : Nat} {f : Group → Group} : TablesStand s (t.modGroup k f) := by
  unfold State.modGroup
  split
  · exact a.setGroup
  · exact a

/-! ### Lines and memory -/

theorem TablesStand.latchAll {part cls : Nat} {inst : Option Nat} {hit : Nat → Bool} {c : Cause} :
    TablesStand s (t.latchAll part cls inst hit c) := a.same
theorem TablesStand.setLine {x : LLine} : TablesStand s (t.setLine x) := a.same
theorem TablesStand.touch {x : LLine} : TablesStand s (t.touch x) := a.same
theorem TablesStand.dropLine {x : LLine} : TablesStand s (t.dropLine x) := a.same
theorem TablesStand.memWrite {ws : List (Nat × Byte)} : TablesStand s (t.memWrite ws) := a.same
theorem TablesStand.bumpChan {pa k n : Nat} : TablesStand s (t.bumpChan pa k n) := a.same
theorem TablesStand.countAt {pa : Nat} {w : Bool} : TablesStand s (t.countAt pa w) :=
  TablesStand.bumpChan (TablesStand.bumpChan (TablesStand.bumpChan (TablesStand.same (t := t.bumpChan pa (b2n w) 1) a.bumpChan)))
theorem TablesStand.countMem {ls : List Nat} {w : Bool} : TablesStand s (t.countMem ls w) := .foldl (fun _ _ a => a.countAt) a

theorem TablesStand.writeBack {x : LLine} : TablesStand s (t.writeBack x) := by
  unfold State.writeBack
  split
  · exact a
  · exact a.memWrite.setLine.countMem

theorem TablesStand.insertLine {l : Ldr} {x : LLine} : TablesStand s (t.insertLine l x) := by
  unfold State.insertLine
  dsimp only
  split
  · exact a.same
  split
  · next v _ => exact TablesStand.same (t := (t.writeBack v).dropLine v) a.writeBack.dropLine
  · exact a

theorem TablesStand.allocate {part cls die pa : Nat} {l : Ldr} {geo : Bool} {ws : List (Nat × Byte)} :
    TablesStand s (t.allocate part cls die pa l geo ws) := a.countMem.insertLine

theorem TablesStand.serveLoad {part cls die pa n : Nat} : TablesStand s (t.serveLoad part cls die pa n).2 := by
  unfold State.serveLoad
  dsimp only
  split
  · dsimp only
    split
    · exact a.touch
    · exact a
  · exact a.countMem
  split
  · exact a.countMem
  · exact a.allocate

theorem TablesStand.serveStore {part cls die : Nat} {ws : List (Nat × Byte)} {stb : Bool} :
    TablesStand s (t.serveStore part cls die ws stb) := by
  unfold State.serveStore
  dsimp only
  split
  · exact a
  split
  · split
    · refine TablesStand.touch ?_
      split
      · exact a.memWrite.countMem
      · exact a
    · refine TablesStand.setLine ?_
      split
      · exact a.memWrite.countMem
      · exact a
  · exact a.memWrite.countMem
  split
  · exact a.allocate
  · exact a.memWrite.countMem

theorem TablesStand.svtPut {die : Nat} {e : Svt} : TablesStand s (t.svtPut die e) := a.modDie
theorem TablesStand.svtSee {part die pa : Nat} {p : Party} : TablesStand s (t.svtSee part die pa p) := by
  unfold State.svtSee State.svtRecord
  split
  · exact a.svtPut
  · exact a

/-! ### Loads -/

theorem TablesStand.nearFill {core enc part pa : Nat} : TablesStand s (t.nearFill core enc part pa) := by
  unfold State.nearFill
  split
  · exact a.modCore
  · exact a.serveLoad.svtSee.modCore

theorem TablesStand.nearLoad {g : Group} {part pa : Nat} : TablesStand s (t.nearLoad g part pa) := by
  unfold State.nearLoad
  refine TablesStand.nearFill ?_
  split
  · exact a
  · exact (a.quiet (quiet_event _ _ _ _ _)).quiet (quiet_lookupEvent _ _ _ _)

theorem TablesStand.loadLine {g : Group} {r : Req} {line : Nat} : TablesStand s (t.loadLine g r line) := by
  unfold State.loadLine
  dsimp only
  split
  · exact a.nearLoad
  split
  · exact (a.quiet (quiet_lookupEvent _ _ _ _)).serveLoad.svtSee
  · exact a

/-! ### The machine's own stores -/

theorem TablesStand.markOutside {line : Nat} {own : Nat → Bool} : TablesStand s (t.markOutside line own) := .foldl (fun _ _ a => a.modEnc) a
theorem TablesStand.hubPut {part pa : Nat} {bs : List Byte} : TablesStand s (t.hubPut part pa bs) := a.serveStore.latchAll
theorem TablesStand.hubStore {part pa : Nat} {bs : List Byte} : TablesStand s (t.hubStore part pa bs) := a.markOutside.hubPut

theorem TablesStand.writeVia {put : State → Nat → Nat → List Byte → State} {enc : Nat} {hs : List Heap} {va : Nat} {bs : List Byte}
    (hput : ∀ u part pa bs, TablesStand s u → TablesStand s (put u part pa bs)) : TablesStand s (t.writeVia put enc hs va bs) := by
  refine .foldl (fun u c a => ?_) a
  split
  · exact hput _ _ _ _ a
  · exact a

theorem TablesStand.devWrite {enc va : Nat} {bs : List Byte} : TablesStand s (t.devWrite enc va bs) := a.writeVia fun _ _ _ _ a => a.hubStore

theorem TablesStand.appendBlock {enc : Nat} {b : List Word} : TablesStand s (t.appendBlock enc b) := by
  unfold State.appendBlock
  dsimp only
  split
  · exact a.modEnc
  · exact a.devWrite.modEnc

theorem TablesStand.logElement {die enc line : Nat} {pathF : Bool} {ord : Nat} : TablesStand s (t.logElement die enc line pathF ord) := by
  unfold State.logElement
  dsimp only
  split
  · split
    · exact a.modDie
    · exact a.appendBlock.modDie
  · split
    · exact a.appendBlock.modDie
    · exact a.modDie

theorem TablesStand.outsideAtomic {die line : Nat} {pathF : Bool} {own : Nat → Bool} :
    TablesStand s (t.outsideAtomic die line pathF own) := .foldl (fun _ _ a => a.logElement) a.markOutside

theorem TablesStand.flushBlocks {enc : Nat} : TablesStand s (t.flushBlocks enc) :=
  .foldl (fun _ _ a => (TablesStand.foldl (fun _ _ a => a.appendBlock) a).modDie) a

/-- A fault record's slot is written, or the record is dropped (17 R327). -/
theorem TablesStand.faultWrite {enc : Nat} {r : Report} {supp : Nat} : TablesStand s (t.faultWrite enc r supp) := by
  unfold State.faultWrite
  dsimp only
  split
  · exact a.modEnc
  · exact a.hubStore.modEnc

theorem TablesStand.pvtDrop {e i : Nat} : TablesStand s (t.pvtDrop e i) := by
  unfold State.pvtDrop State.pvtWrite
  exact a.memWrite.countMem.modEnc

theorem TablesStand.discardStaging {e : Nat} {m : Team} {x : Task} : TablesStand s (t.discardStaging e m x) := by
  refine .foldl (fun u c a => ?_) a
  split
  · exact a.pvtDrop
  · exact a

/-! ### Buffered stores and window stores -/

theorem TablesStand.colourDown {die : Nat} {k : Bool} {n : Nat} : TablesStand s (t.colourDown die k n) := a.modDie

theorem TablesStand.storeArrives {e : BufEnt} : TablesStand s (t.storeArrives e) := by
  unfold State.storeArrives
  dsimp only
  split
  · refine .colourDown (.svtSee (.latchAll (.serveStore (.markOutside ?_))))
    split
    · exact a.quiet (quiet_lookupEvent _ _ _ _)
    · exact a
  · refine .svtSee (.latchAll (.serveStore (.markOutside ?_)))
    split
    · exact a.quiet (quiet_lookupEvent _ _ _ _)
    · exact a

theorem TablesStand.performPart {p : WinPart} : TablesStand s (t.performPart p) := by
  unfold State.performPart State.setFe
  split
  · exact a
  · exact a.modCore.modCore

theorem TablesStand.performOld {gid seq : Nat} : TablesStand s (t.performOld gid seq) := by
  unfold State.performOld
  split
  · exact a
  · exact (TablesStand.foldl (fun _ _ a => a.performPart) a).modGroup

theorem TablesStand.setBuf {c : Nat} {b : List BufEnt} : TablesStand s (t.setBuf c b) := a.same

theorem TablesStand.drainEntry {older : Nat → Nat → State → State} {cluster : Nat} {e : BufEnt}
    (hold : ∀ c n u, TablesStand s u → TablesStand s (older c n u)) : TablesStand s (drainEntry older cluster t e) := by
  unfold Machine.drainEntry
  dsimp only
  split
  · exact a
  split
  · split
    · exact (hold _ _ _ a).performOld.svtPut
    · exact (hold _ _ _ a).performOld.svtPut.setBuf.storeArrives
  · split
    · exact a
    · exact a.setBuf.storeArrives

end

/-- Draining one buffer may first drain another that holds an older release back. -/
theorem TablesStand.drainTo {fuel cluster seq : Nat} {s t : State} (a : TablesStand s t) :
    TablesStand s (State.drainTo fuel cluster seq t) := by
  induction fuel generalizing cluster seq t with
  | zero =>
    refine TablesStand.foldl (fun u e a => ?_) a
    dsimp only
    split
    · exact a
    · exact a.setBuf.storeArrives
  | succ n ih =>
    rw [drainTo_succ]
    exact .foldl (fun _ _ a => .drainEntry a fun _ _ _ a => ih a) a

theorem TablesStand.drainBuf {cluster seq : Nat} {s t : State} (a : TablesStand s t) : TablesStand s (t.drainBuf cluster seq) := a.drainTo

end Sys2Proof.Machine
end

section
/-! PROOFS. launch (07 R165), O33: what reading the launch record leaves of the group and of Chandler's tables, and the new task. -/

namespace Sys2Proof.Machine

/-! ### What reading a record leaves (12 R277) -/

theorem Marks.nearLoad {s t : State} {g : Group} {part pa : Nat} (a : Marks s t) : Marks s (t.nearLoad g part pa) := by
  unfold State.nearLoad
  refine Marks.nearFill ?_
  split
  · exact a
  · exact (a.quiet (quiet_event _ _ _ _ _)).quiet (quiet_lookupEvent _ _ _ _)

theorem Marks.loadLine {s t : State} {g : Group} {r : Req} {line : Nat} (a : Marks s t) : Marks s (t.loadLine g r line) := by
  unfold State.loadLine
  dsimp only
  split
  · exact a.nearLoad
  split
  · exact (a.quiet (quiet_lookupEvent _ _ _ _)).serveLoad.svtSee
  · exact a

theorem Marks.place {s t : State} (a : Marks s t) : SamePlace s.g t.g := by
  have slot := a.p
  exact ⟨by rw [a.group], by rw [slot], by rw [slot], by rw [slot]⟩

/-- From `s` to `t` the focused group stays the same but for its monitors, its fetch and what it remembers of the store buffer, and
Chandler's tables stand. -/
structure ReadsOnly (s t : State) : Prop where
  tables : TablesStand s t
  regs : SameRegs s.g t.g
  flags : t.g.fpf = s.g.fpf
  place : SamePlace s.g t.g
  team : t.g.team = s.g.team
  enc : t.g.enc = s.g.enc

theorem SamePlace.trans {g h k : Group} (a : SamePlace g h) (b : SamePlace h k) : SamePlace g k :=
  ⟨b.curF.trans a.curF, b.pc.trans a.pc, b.cwi.trans a.cwi, b.hdr.trans a.hdr⟩

theorem ReadsOnly.trans {s t u : State} (a : ReadsOnly s t) (b : ReadsOnly t u) : ReadsOnly s u :=
  ⟨a.tables.trans b.tables, a.regs.trans b.regs, b.flags.trans a.flags, a.place.trans b.place, b.team.trans a.team, b.enc.trans a.enc⟩

theorem ReadsOnly.ofTranslates {s t : State} (a : Translates s t) : ReadsOnly s t where
  tables := ⟨by rw [a.frame.rest], by rw [a.frame.rest]⟩
  regs := by rw [a.group]; exact .refl _
  flags := by rw [a.group]
  place := by rw [a.group]; exact .refl _
  team := by rw [a.group]
  enc := by rw [a.group]

theorem ReadsOnly.ofMarks {s t : State} (a : Marks s t) (b : TablesStand s t) : ReadsOnly s t where
  tables := b
  regs := a.regs
  flags := by rw [a.group]
  place := a.place
  team := by rw [a.group]
  enc := by rw [a.group]

/-- What a load remembers of the store buffer (11 R236). -/
theorem ReadsOnly.saw (s : State) (r : Req) : ReadsOnly s (s.setGroup (s.sawOf s.g r)) := by
  obtain ⟨f, saw⟩ : ∃ f : PathState → List Nat, s.sawOf s.g r = s.g.modPath r.pathF fun p => { p with seen := f p } := by
    unfold State.sawOf
    exact ⟨_, rfl⟩
  have same : s.setGroup (s.sawOf s.g r) = { s with g := s.sawOf s.g r } := if_pos (by rw [saw]; simp)
  rw [same, saw]
  have regs := sameRegs_modPath s.g r.pathF (fun p => { p with seen := f p }) fun _ => rfl
  have place := samePlace_modPath s.g r.pathF (fun p => { p with seen := f p }) fun _ => ⟨rfl, rfl, rfl⟩
  exact ⟨⟨rfl, rfl⟩, regs, Group.modPath_fpf _ _ _, place, Group.modPath_team _ _ _, Group.modPath_enc _ _ _⟩

theorem ReadsOnly.lines (s : State) (r : Req) (ls : List Nat) : ReadsOnly s (ls.foldl (fun u l => u.loadLine u.g r l) s) :=
  .ofMarks (.foldl (fun _ _ a => a.loadLine) (.refl s)) (.foldl (fun _ _ a => a.loadLine) (.refl s))

/-- A far word either ends in a way that does not depend on what was to follow, or goes on in a state that its translation alone has
changed. -/
theorem withFar_cases (s : State) (ps : List (Nat × Int)) (len align : Nat) (k : Acc) (op : Option Atom) :
    (∃ o, ∀ next, withFar ps len align k op next s = o) ∨
      ∃ rs u, Translates s u ∧ ∀ next, withFar ps len align k op next s = next rs u := by
  unfold withFar
  dsimp only
  split
  · exact .inl ⟨_, fun _ => rfl⟩
  · exact .inl ⟨_, fun _ => rfl⟩
  · split
    · exact .inl ⟨_, fun _ => rfl⟩
    · exact .inr ⟨_, _, (Translates.refl s).translated, fun _ => rfl⟩

/-- So does a word that reads a record at issue; what it reads leaves the group and Chandler's tables. -/
theorem withRead_cases (s : State) (va : Int) (len align : Nat) :
    (∃ o, ∀ k, withRead va len align k s = o) ∨ ∃ bs u, ReadsOnly s u ∧ ∀ k, withRead va len align k s = k bs u := by
  unfold withRead
  obtain ⟨o, ends⟩ | ⟨rs, u, moved, goes⟩ := withFar_cases s (onePiece va) len align .load none
  · exact .inl ⟨o, fun k => ends _⟩
  simp only [goes]
  split
  · split
    · exact .inl ⟨_, fun _ => rfl⟩
    split
    · exact .inl ⟨_, fun _ => rfl⟩
    split
    · exact .inl ⟨_, fun _ => rfl⟩
    · exact .inr ⟨_, _, (ReadsOnly.ofTranslates moved).trans ((ReadsOnly.saw u _).trans (.lines _ _ _)), fun _ => rfl⟩
  · exact .inl ⟨_, fun _ => rfl⟩

/-- A record that is read, whatever follows, is read in a state that reading alone has changed. -/
theorem ReadsFar.readsOnly {s u : State} {va : Int} {len align : Nat} {bs : List Byte} (h : ReadsFar s va len align bs u) :
    ReadsOnly s u := by
  obtain ⟨o, ends⟩ | ⟨bs', v, reads, goes⟩ := withRead_cases s va len align
  · have next := (ends fun _ u => .next u).symm.trans (h fun _ u => .next u)
    have refused := (ends fun _ _ => .refused .baseRv64).symm.trans (h fun _ _ => .refused .baseRv64)
    exact nomatch next.symm.trans refused
  · have same : (Host.Outcome.next v : Out) = .next u := (goes fun _ u => .next u).symm.trans (h fun _ u => .next u)
    cases same
    exact reads

/-! ### Parking and the new task -/

theorem park_parks (s : State) (w : Park) : Parks s w (s.park w) := by
  have slot : (s.park w).g.p = { s.g.p with park := some w } := by
    show ({ (s.g.noteHints.modP fun p => { p with park := some w }).boundary with stat := .parked } : Group).p = _
    rw [show ∀ g : Group, ({ g.boundary with stat := .parked } : Group).p = g.p from fun _ => rfl, Group.modP_p, Group.noteHints_p]
  have file : SameFile s.g (s.park w).g :=
    (noteHints_sameFile s.g).trans ((sameFile_modP _ _).trans ⟨rfl, rfl, rfl, rfl, rfl, rfl⟩)
  have regs : SameRegs s.g (s.park w).g :=
    (sameRegs_noteHints s.g).trans ((sameRegs_modP _ (fun p => { p with park := some w }) fun _ => rfl).trans
      ((sameRegs_boundary _).trans ⟨rfl, rfl, rfl, rfl, rfl, rfl, fun b => by cases b <;> rfl⟩))
  exact ⟨rfl, by rw [slot], rfl, rfl, by rw [slot], by rw [slot], ⟨regs.sr, regs.vr, by rw [file.fpf]⟩,
    farFrame_of_cores rfl fun _ => rfl⟩

theorem le_foldl_max (l : List Nat) (b : Nat) : b ≤ l.foldl max b := by
  induction l generalizing b with
  | nil => exact le_refl b
  | cons x l ih => exact (le_max_left b x).trans (ih _)

theorem le_foldl_max_of_mem {l : List Nat} {x : Nat} (b : Nat) (h : x ∈ l) : x ≤ l.foldl max b := by
  induction l generalizing b with
  | nil => exact nomatch h
  | cons y l ih =>
    rcases List.mem_cons.1 h with rfl | h
    · exact (le_max_right b x).trans (le_foldl_max l _)
    · exact ih _ h

/-- A fresh number names no task. -/
theorem task_newId (s : State) : s.task s.newId = none := by
  cases h : s.task s.newId with
  | none => rfl
  | some x =>
    have listed : s.newId ∈ s.allGroups.map (·.gid) ++ s.teams.map (·.1) ++ s.tasks.map (·.1) :=
      List.mem_append_right _ (List.mem_map.2 ⟨_, mem_of_smFind h, rfl⟩)
    have below := le_foldl_max_of_mem s.seq listed
    unfold State.newId at below
    omega

theorem State.team_modTeam (s : State) (k : Nat) (f : Team → Team) (j : Nat) :
    (s.modTeam k f).team j = if j = k then (s.team k).map f else s.team j := by
  unfold State.modTeam
  cases h : s.team k with
  | none => by_cases hj : j = k <;> simp [hj, h]
  | some x =>
    show smFind (smPut s.teams k (f x)) j = _
    rw [smFind_smPut]
    rfl

/-- The state of a launch of a team that has made its task and holds its entry (05 R129). -/
def State.launched (s : State) (team : Nat) (x : Task) (ix : Nat) : State :=
  ({ s with tasks := smPut s.tasks x.id x, seq := s.seq + 1 } : State).modTeam team fun t =>
    { t with plq := t.plq ++ [{ ix := ix, task := x.id, order := s.seq }] }

theorem State.launched_rest (s : State) (team : Nat) (x : Task) (ix : Nat) : s.launched team x ix =
    { s with tasks := smPut s.tasks x.id x, seq := s.seq + 1, teams := (s.launched team x ix).teams } := by
  unfold State.launched State.modTeam
  split <;> rfl

theorem State.launched_g (s : State) (team : Nat) (x : Task) (ix : Nat) : (s.launched team x ix).g = s.g := by rw [s.launched_rest]
theorem State.launched_mem (s : State) (team : Nat) (x : Task) (ix : Nat) : (s.launched team x ix).mem = s.mem := by rw [s.launched_rest]

theorem State.launched_task (s : State) (team : Nat) (x : Task) (ix j : Nat) :
    (s.launched team x ix).task j = if j = x.id then some x else s.task j := by
  rw [s.launched_rest]
  exact smFind_smPut _ _ _ _

theorem State.launched_team (s : State) (team : Nat) (x : Task) (ix j : Nat) : (s.launched team x ix).team j =
    if j = team then (s.team team).map fun t => { t with plq := t.plq ++ [{ ix := ix, task := x.id, order := s.seq }] }
    else s.team j := State.team_modTeam _ _ _ j

theorem quiet_setS (s : State) (d : Reg) (v : Word) : Quiet (s.modG (·.setS d v)) (s.setS d v) := by
  unfold State.setS
  dsimp only
  split
  · exact quiet_emit _ _ _ _
  · exact .refl _

theorem TablesStand.setS_retire (s : State) (d : Reg) (v : Word) (n : Nat) : TablesStand s ((s.setS d v).retire n) :=
  (((TablesStand.refl s).modG.quiet (quiet_setS s d v)).quiet (quiet_spendWord _ _ _)).modG

theorem ReadsOnly.taskOf {s u : State} (a : ReadsOnly s u) : u.taskOf u.g = s.taskOf s.g := by
  unfold State.taskOf
  rw [a.team, a.tables.team]
  congr 1
  exact funext fun m => a.tables.task m.task

/-- What launch does once its record has been read (07 R165 steps 3 to 5). -/
theorem execLaunch_read {s u : State} {d a : Reg} {bs : List Byte} (hi : s.g.index = 0) (hd : s.g.depth ≠ 9)
    (read : ReadsFar s (s.g.sr a).toNat 512 64 bs u) : execLaunch d a s =
      match u.recordCheck s.g.enc (((u.taskOf u.g).map Task.queue).getD 0) (bytesDwords 64 bs) with
      | some c => .next (u.takeFault c (s.g.sr a))
      | none =>
        match (u.team s.g.team).bind Team.freePlq with
        | none => .next (u.park .plq)
        | some ix => packageRelease (fun v => .next (((v.launched s.g.team (newTask v.newId s.g.enc (((u.taskOf u.g).map Task.queue).getD 0)
            (v.freeGrid s.g.enc) (s.g.depth + 1) (some s.g.team) (s.g.sr a).toNat (bytesDwords 64 bs) .queued) ix).setS d
              (BitVec.ofNat 64 (v.freeGrid s.g.enc))).retire 1)) u := by
  unfold execLaunch
  dsimp only
  rw [if_neg (not_not.2 hi), if_neg hd, read]
  rfl

/-- A state's register that a word writes, in a state whose registers read the same. -/
theorem WritesScalar.oneRegister {s u t : State} {d : Reg} {v : Word} (w : WritesScalar u d v 0 t) (regs : SameRegs s.g u.g)
    (flags : u.g.fpf = s.g.fpf) : OneRegister s d v t := by
  refine ⟨fun r => (w.scalars r).trans ?_, fun r => (w.vectors r).trans (regs.vr r), w.flags.trans (BitVec.or_zero.trans flags)⟩
  unfold Group.kept
  rw [regs.sr, regs.sr]

end Sys2Proof.Machine

namespace Sys2Proof.Proofs

open Sys2Proof Sys2Proof.Machine

/-- Settles O33. What the record's reading changes is neither a register nor a table, and the new task takes a number that none has. -/
theorem launchResults : Obligations.LaunchResults := by
  unfold Obligations.LaunchResults
  intro s u d a bs tm ix c at1 r queue
  refine ⟨fun child => ⟨_, if_pos child, takeFault_faults s _ _⟩,
    fun first deep => ⟨_, (if_neg (not_not.2 first)).trans (if_pos deep), takeFault_faults s _ _⟩, fun first shallow read => ?_⟩
  have reads := read.readsOnly
  have sameQueue : ((u.taskOf u.g).map Task.queue).getD 0 = queue := by rw [reads.taskOf]
  have launch := execLaunch_read (d := d) first shallow read
  rw [sameQueue] at launch
  refine ⟨fun bad => ⟨_, launch.trans (by rw [bad]), takeFault_faults u c at1⟩,
    fun good team full => ⟨_, launch.trans ?full, park_parks u .plq⟩, fun good team free vis => ?made⟩
  case full => rw [good, reads.tables.team, team]; simp only [Option.bind_some, full]
  case made =>
    let w := u.modG Group.fenceDone
    let x := newTask w.newId s.g.enc queue (u.freeGrid s.g.enc) (s.g.depth + 1) (some s.g.team) at1.toNat r .queued
    let v := w.launched s.g.team x ix
    have made : execLaunch d a s = .next ((v.setS d (BitVec.ofNat 64 (u.freeGrid s.g.enc))).retire 1) := by
      rw [launch, good, reads.tables.team, team, Option.bind_some, free]
      show packageRelease _ u = _
      rw [packageRelease, vis]
      rfl
    have group : v.g = u.g.fenceDone := State.launched_g w s.g.team x ix
    have regs : SameRegs s.g v.g := by rw [group]; exact reads.regs.trans (sameRegs_modP _ _ fun _ => rfl)
    have place : SamePlace s.g v.g := by rw [group]; exact reads.place.trans (samePlace_modP _ _ fun _ => ⟨rfl, rfl, rfl⟩)
    have flags : v.g.fpf = s.g.fpf := by rw [group]; exact (fpf_modP _ _).trans reads.flags
    have writes := setS_retire_writes 1 d (BitVec.ofNat 64 (u.freeGrid s.g.enc)) v
    have stand := TablesStand.setS_retire v d (BitVec.ofNat 64 (u.freeGrid s.g.enc)) 1
    have other (j : Nat) (hj : j ≠ w.newId) : v.task j = s.task j :=
      (State.launched_task _ _ _ _ j).trans ((if_neg hj).trans (reads.tables.task j))
    have teams (j : Nat) := (stand.team j).trans (State.launched_team w s.g.team x ix j)
    refine ⟨_, made, w.newId, { ix := ix, task := w.newId, order := u.seq }, x, place.goesOn writes.goes, writes.oneRegister regs flags,
      (reads.tables.task _).symm.trans (task_newId w), (stand.task _).trans ((State.launched_task _ _ _ _ _).trans (if_pos rfl)),
      fun j hj => (stand.task j).trans (other j hj), rfl, rfl, rfl, rfl, rfl, rfl, rfl, rfl, ?_, rfl, rfl, fun j hj => ?_, ?_⟩
    · rw [teams, if_pos rfl, show w.team s.g.team = some tm from (reads.tables.team _).trans team]
      rfl
    · rw [teams, if_neg hj]
      exact reads.tables.team j
    · exact (congrArg State.mem writes.frame.rest).trans (State.launched_mem w s.g.team x ix)

end Sys2Proof.Proofs
end

section
/-! PROOFS. Chandler's stages, O47: the statement's clause on ARBITRATE_RELEASE fails where a rival is listed under another number than its
own. -/

namespace Sys2Proof.Machine

/-- A task that waits in Arbitrate since a cycle, of a queue of enclave 1, whose record has one W region of 64 bytes (05 Tables 5.4, 5.5).
It carries number 1. -/
def crossedTask (queue cyc : Nat) : Task :=
  { newTask 1 1 queue 7 0 none 0 ([0, 2 ^ 32] ++ List.replicate 14 0 ++ [0, 64, 1]) .arbitrate with arbCyc := cyc }

/-- Two tasks of different queues that conflict: the first listed under its number, the second, which came a cycle later, under 2 though it
carries the number of the first. -/
def crossedState : State := { State.reset with tasks := [(1, crossedTask 0 0), (2, crossedTask 1 1)] }

theorem crossed_rivals : crossedState.rivals (crossedTask 0 0) = [crossedTask 1 1] := by decide +kernel

/-- The first task is released, and what is meant for its rival reaches the first one itself: it becomes its own producer. -/
theorem crossed_released : ∃ t, exec (.arbitrateRelease 1) crossedState = .next t ∧ (t.task 1).map Task.producers = some [1] :=
  ⟨_, rfl, by decide +kernel⟩

end Sys2Proof.Machine

namespace Sys2Proof.Proofs

open Sys2Proof Sys2Proof.Machine

/-- Refutes O47. Its clause on a task's release from Arbitrate says that the task enters Lease with its producers as they were. It asks
that the task carry the number it is listed under, but not that its rivals do: a rival that carries the task's own number is put behind it
under that number, and the task enters Lease as a producer of itself. -/
theorem not_chandlerStages : ¬ Obligations.ChandlerStages := by
  unfold Obligations.ChandlerStages
  intro h
  obtain ⟨-, -, -, -, -, -, stages⟩ := h crossedState 0 0 0 0 1 0 0 0 0 0 0 [] [] (crossedTask 0 0) ⟨0, 0, 0⟩ [] .misaligned
  obtain ⟨-, -, release, -⟩ := stages rfl rfl rfl
  have behind : ∀ b ∈ crossedState.rivals (crossedTask 0 0), b = crossedTask 1 1 := by
    rw [crossed_rivals]
    exact fun b hb => List.mem_singleton.1 hb
  obtain ⟨t, ht, -, enters, -⟩ := release rfl fun b hb => by
    rw [behind b hb]
    exact ⟨rfl, fun _ => by decide, fun hd => nomatch hd⟩
  obtain ⟨u, hu, producers⟩ := crossed_released
  obtain rfl : t = u := by rw [ht] at hu; cases hu; rfl
  rw [enters] at producers
  exact absurd producers (by decide)

end Sys2Proof.Proofs
end

section
/-! PROOFS. Groups, tasks and teams under the operations of placement and of ends: what is found after a write, changes of cores alone, and
operations that leave each group as it was or in one given state. -/

namespace Sys2Proof.Machine

/-! ### Folds -/

/-- A fold that keeps `P` and `Q` and turns `P` into `Q` at one element of its list ends in `Q`. -/
theorem foldl_reaches {α β : Type} {f : α → β → α} {P Q : α → Prop} (keepP : ∀ s x, P s → P (f s x))
    (keepQ : ∀ s x, Q s → Q (f s x)) {b : β} (reach : ∀ s, P s → Q (f s b)) {l : List β} (hb : b ∈ l)
    {s : α} (hs : P s) : Q (l.foldl f s) := by
  induction l generalizing s with
  | nil => exact nomatch hb
  | cons x l ih =>
    rcases List.mem_cons.1 hb with rfl | hb
    · exact List.foldlRecOn l f (reach s hs) fun _ h _ _ => keepQ _ _ h
    · exact ih hb (keepP s x hs)

/-! ### Sparse maps -/

theorem mem_smPut {α : Type} {m : SMap α} {k : Nat} {v : α} {e : Nat × α} (h : e ∈ smPut m k v) : e = (k, v) ∨ e ∈ m ∧ e.1 ≠ k := by
  rcases List.mem_cons.1 ((smIns_perm k v (smErase m k)).mem_iff.1 h) with rfl | h
  · exact .inl rfl
  · exact .inr ⟨(smErase_sublist m k).mem h, smErase_keys m k e h⟩

/-- An entry that passes a filter is still the one found. -/
theorem smFind_filter {α : Type} {p : Nat × α → Bool} {m : SMap α} {k : Nat} {v : α} (h : smFind m k = some v) (hp : p (k, v) = true) :
    smFind (m.filter p) k = some v := by
  induction m with
  | nil => exact nomatch h
  | cons e m ih =>
    obtain ⟨j, w⟩ := e
    by_cases hj : k = j
    · subst hj
      have hv : w = v := by simpa [smFind] using h
      subst hv
      rw [List.filter_cons_of_pos hp]
      simp [smFind]
    · have hm : smFind m k = some v := by simpa [smFind, hj] using h
      rw [List.filter_cons]
      split
      · simpa [smFind, hj] using ih hm
      · exact ih hm

theorem smFind_eq_none {α : Type} {m : SMap α} {k : Nat} : smFind m k = none ↔ ∀ e ∈ m, e.1 ≠ k := by
  induction m with
  | nil => simp
  | cons e m ih =>
    obtain ⟨j, w⟩ := e
    by_cases hj : k = j
    · simp [smFind, hj]
    · simp [smFind, hj, ih, Ne.symm hj]

theorem smFind_filter_none {α : Type} {p : Nat × α → Bool} {m : SMap α} {k : Nat} (h : smFind m k = none) :
    smFind (m.filter p) k = none := smFind_eq_none.2 fun e he => smFind_eq_none.1 h e (List.mem_of_mem_filter he)

/-! ### Groups -/

/-- Each group found by a number has that number. -/
def State.Named (s : State) : Prop := ∀ i g, s.group i = some g → g.gid = i

theorem GroupsNamed.found {s : State} (h : GroupsNamed s) : s.Named := h.1

/-- What is found after a group that exists is written back. -/
theorem State.group_setGroup {s : State} {x g : Group} (h : s.group x.gid = some g) (i : Nat) :
    (s.setGroup x).group i = if i = x.gid then some x else s.group i := by
  unfold State.setGroup
  unfold State.group at h ⊢
  by_cases hx : s.g.gid = x.gid
  · rw [if_pos hx] at h ⊢
    have hne : x.gid ≠ 0 := fun h0 => by rw [if_pos h0] at h; exact nomatch h
    by_cases hi : i = x.gid
    · simp [hi, hne]
    · simp [hi, Ne.symm hi, hx]
  · rw [if_neg hx]
    by_cases hi : i = x.gid
    · simp [hi, hx, smFind_smPut]
    · simp [hi, smFind_smPut]

theorem State.group_modGroup {s : State} {k : Nat} {f : Group → Group} {g : Group} (h : s.group k = some g) (hk : (f g).gid = k) (i : Nat) :
    (s.modGroup k f).group i = if i = k then some (f g) else s.group i := by
  unfold State.modGroup
  rw [h]
  dsimp only
  rw [State.group_setGroup (g := g) (by rw [hk]; exact h), hk]

theorem State.setGroup_rest (s : State) (x : Group) : s.setGroup x = { s with g := (s.setGroup x).g, groups := (s.setGroup x).groups } := by
  unfold State.setGroup
  split <;> rfl

/-! ### Changes of cores alone -/

/-- From `s` to `t` nothing but cores changes. -/
def CoresOnly (s t : State) : Prop := t = { s with cores := t.cores }

theorem CoresOnly.refl (s : State) : CoresOnly s s := rfl
theorem CoresOnly.trans {s t u : State} (a : CoresOnly s t) (b : CoresOnly t u) : CoresOnly s u := by
  unfold CoresOnly at *
  rw [b, a]
theorem CoresOnly.modCore (s : State) (c : Nat) (f : Core → Core) : CoresOnly s (s.modCore c f) := rfl
theorem Quiet.coresOnly {s t : State} (q : Quiet s t) : CoresOnly s t := q.rest
theorem CoresOnly.foldl {α : Type} {f : State → α → State} (hf : ∀ s x, CoresOnly s (f s x)) (l : List α) (s : State) :
    CoresOnly s (l.foldl f s) := List.foldlRecOn (motive := CoresOnly s) l f (.refl s) fun _ h x _ => h.trans (hf _ x)

theorem CoresOnly.group {s t : State} (a : CoresOnly s t) (i : Nat) : t.group i = s.group i := by
  rw [show t = { s with cores := t.cores } from a]
  rfl
theorem CoresOnly.tables {s t : State} (a : CoresOnly s t) : TablesStand s t := by
  rw [show t = { s with cores := t.cores } from a]
  exact ⟨rfl, rfl⟩
theorem CoresOnly.encl {s t : State} (a : CoresOnly s t) (e : Nat) : t.encl e = s.encl e := by
  rw [show t = { s with cores := t.cores } from a]
  rfl
theorem CoresOnly.mem {s t : State} (a : CoresOnly s t) : t.mem = s.mem := by
  rw [show t = { s with cores := t.cores } from a]

theorem coresOnly_settleRows (s : State) (team : Nat) : CoresOnly s (s.settleRows team) := by
  unfold State.settleRows
  dsimp only
  split
  · exact .refl s
  split
  · exact .foldl (fun _ _ => .modCore _ _ _) _ s
  · exact .refl s

theorem coresOnly_dropBuckets (s : State) (core : Nat) : CoresOnly s (s.dropBuckets core) := .modCore _ _ _

/-! ### Teams -/

/-- Each team found in `s` is found in `t` with its task and its groups. -/
def TeamsKept (s t : State) : Prop := ∀ j m, s.team j = some m → ∃ n, t.team j = some n ∧ n.task = m.task ∧ n.gids = m.gids

theorem TablesStand.teamsKept {s t : State} (a : TablesStand s t) : TeamsKept s t := fun j m h => ⟨m, (a.team j).trans h, rfl, rfl⟩
theorem TeamsKept.trans {s t u : State} (a : TeamsKept s t) (b : TeamsKept t u) : TeamsKept s u := fun j m h => by
  obtain ⟨n, hn, task, gids⟩ := a j m h
  obtain ⟨o, ho, task', gids'⟩ := b j n hn
  exact ⟨o, ho, task'.trans task, gids'.trans gids⟩
theorem teamsKept_modTeam (s : State) (k : Nat) (f : Team → Team) (hf : ∀ m, (f m).task = m.task ∧ (f m).gids = m.gids) :
    TeamsKept s (s.modTeam k f) := fun j m h => by
  rw [State.team_modTeam]
  split
  · next hj =>
    rw [← hj, h]
    exact ⟨f m, rfl, hf m⟩
  · exact ⟨m, h, rfl, rfl⟩

theorem State.modTeam_rest (s : State) (k : Nat) (f : Team → Team) : s.modTeam k f = { s with teams := (s.modTeam k f).teams } := by
  unfold State.modTeam
  split <;> rfl
theorem State.modTask_rest (s : State) (k : Nat) (f : Task → Task) : s.modTask k f = { s with tasks := (s.modTask k f).tasks } := by
  unfold State.modTask
  split <;> rfl
@[simp] theorem State.group_modTeam (s : State) (k : Nat) (f : Team → Team) (i : Nat) : (s.modTeam k f).group i = s.group i := by
  rw [s.modTeam_rest]
  rfl
@[simp] theorem State.group_modTask (s : State) (k : Nat) (f : Task → Task) (i : Nat) : (s.modTask k f).group i = s.group i := by
  rw [s.modTask_rest]
  rfl
@[simp] theorem State.team_modTask (s : State) (k : Nat) (f : Task → Task) (j : Nat) : (s.modTask k f).team j = s.team j := by
  rw [s.modTask_rest]
  rfl

/-! ### Groups that keep their state or take a given one -/

/-- Where groups are found under their numbers in `s`, they are in `t`, and each is in the state it was in, or in `q`. -/
def Becomes (q : GSt) (s t : State) : Prop := s.Named → t.Named ∧ ∀ i g, s.group i = some g →
  ∃ h, t.group i = some h ∧ (h.stat = g.stat ∧ h.stopped = g.stopped ∨ h.stat = q)

theorem becomes_of_group {q : GSt} {s t : State} (h : ∀ i, t.group i = s.group i) : Becomes q s t := fun named =>
  ⟨fun i g hg => named i g (by rw [← h]; exact hg), fun i g hg => ⟨g, (h i).trans hg, .inl ⟨rfl, rfl⟩⟩⟩

theorem Becomes.trans {q : GSt} {s t u : State} (a : Becomes q s t) (b : Becomes q t u) : Becomes q s u := fun named => by
  obtain ⟨named', ha⟩ := a named
  obtain ⟨named'', hb⟩ := b named'
  refine ⟨named'', fun i g hg => ?_⟩
  obtain ⟨h, hh, ends⟩ := ha i g hg
  obtain ⟨k, hk, ends'⟩ := hb i h hh
  refine ⟨k, hk, ?_⟩
  rcases ends' with ⟨stat, stopped⟩ | stat
  · rw [stat, stopped]
    exact ends
  · exact .inr stat

theorem Becomes.foldl {α : Type} {q : GSt} {f : State → α → State} (hf : ∀ s x, Becomes q s (f s x)) (l : List α) (s : State) :
    Becomes q s (l.foldl f s) :=
  List.foldlRecOn (motive := Becomes q s) l f (becomes_of_group fun _ => rfl) fun _ h x _ => h.trans (hf _ x)

theorem Becomes.coresOnly {q : GSt} {s t : State} (a : CoresOnly s t) : Becomes q s t := becomes_of_group a.group

/-- A group that exists is written back. -/
theorem becomes_setGroup {q : GSt} {s : State} {x g : Group} {i : Nat} (hg : s.group i = some g) (hx : x.gid = g.gid)
    (ends : x.stat = g.stat ∧ x.stopped = g.stopped ∨ x.stat = q) : Becomes q s (s.setGroup x) := fun named => by
  have hi : x.gid = i := hx.trans (named i g hg)
  have found := State.group_setGroup (x := x) (by rw [hi]; exact hg)
  rw [hi] at found
  refine ⟨fun j h hh => ?_, fun j h hh => ?_⟩
  · rw [found] at hh
    split at hh
    · next hj => cases hh; exact hi.trans hj.symm
    · exact named j h hh
  · rw [found]
    split
    · next hj =>
      rw [hj, hg] at hh
      cases hh
      exact ⟨x, rfl, ends⟩
    · exact ⟨h, hh, .inl ⟨rfl, rfl⟩⟩

theorem becomes_modGroup {q : GSt} (s : State) (k : Nat) {f : Group → Group} (hf : ∀ g, (f g).gid = g.gid ∧ (f g).stat = g.stat ∧
    (f g).stopped = g.stopped) : Becomes q s (s.modGroup k f) := by
  unfold State.modGroup
  split
  · next g hg => exact becomes_setGroup hg (hf g).1 (.inl (hf g).2)
  · exact becomes_of_group fun _ => rfl

/-- Group `i` is found in state `q`. -/
def State.Stands (s : State) (i : Nat) (q : GSt) : Prop := ∃ g, s.group i = some g ∧ g.stat = q

theorem Becomes.stands {q : GSt} {s t : State} {i : Nat} (a : Becomes q s t) (named : s.Named) (h : s.Stands i q) : t.Stands i q := by
  obtain ⟨g, hg, stat⟩ := h
  obtain ⟨k, hk, ends⟩ := (a named).2 i g hg
  rcases ends with ⟨same, -⟩ | ends
  · exact ⟨k, hk, same.trans stat⟩
  · exact ⟨k, hk, ends⟩

end Sys2Proof.Machine
end

section
/-! PROOFS. Halting and resuming (18 R347, R349; 17 R325): a team's groups halt where they stand, and become READY again. -/

namespace Sys2Proof.Machine

/-! ### One group halts -/

/-- A group that can halt where it stands, or has. -/
def State.Haltable (s : State) (i : Nat) : Prop := s.Stands i .ready ∨ s.Stands i .parked ∨ s.Stands i .halted

theorem Becomes.haltable {s t : State} {i : Nat} (a : Becomes .halted s t) (named : s.Named) (h : s.Haltable i) : t.Haltable i := by
  have moves (q : GSt) (hq : s.Stands i q) : t.Stands i q ∨ t.Stands i .halted := by
    obtain ⟨g, hg, stat⟩ := hq
    obtain ⟨k, hk, ends⟩ := (a named).2 i g hg
    exact ends.imp (fun same => ⟨k, hk, same.1.trans stat⟩) fun ends => ⟨k, hk, ends⟩
  rcases h with h | h | h
  · exact (moves .ready h).elim .inl fun h => .inr (.inr h)
  · exact (moves .parked h).elim (fun h => .inr (.inl h)) fun h => .inr (.inr h)
  · exact .inr (.inr (a.stands named h))

theorem Haltable.intro {s : State} {i : Nat} {g : Group} (hg : s.group i = some g) (h : g.stat = .ready ∨ g.stat = .parked) :
    s.Haltable i := h.imp (fun h => ⟨g, hg, h⟩) fun h => .inl ⟨g, hg, h⟩

/-- Where a group halts it is written back, after its packet has gone out. -/
theorem haltOne_of_stops {s : State} {i : Nat} {g : Group} (keepPark : Bool) (hg : s.group i = some g)
    (h : g.stat = .ready ∨ g.stat = .parked) : ∃ u x, CoresOnly s u ∧ x.gid = g.gid ∧ x.stat = .halted ∧
      s.haltOne i keepPark = u.setGroup x := by
  unfold State.haltOne
  rw [hg]
  dsimp only
  rw [if_pos h]
  exact ⟨_, _, (quiet_emitPacket _ _ _).coresOnly, by simp [Group.latchPath], rfl, rfl⟩

theorem haltOne_of_stays {s : State} {i : Nat} {g : Group} (keepPark : Bool) (hg : s.group i = some g)
    (h : ¬(g.stat = .ready ∨ g.stat = .parked)) : s.haltOne i keepPark = s := by
  unfold State.haltOne
  rw [hg]
  exact if_neg h

theorem becomes_haltOne (s : State) (i : Nat) (keepPark : Bool) : Becomes .halted s (s.haltOne i keepPark) := by
  cases hg : s.group i with
  | none => unfold State.haltOne; rw [hg]; exact becomes_of_group fun _ => rfl
  | some g =>
    by_cases h : g.stat = .ready ∨ g.stat = .parked
    · obtain ⟨u, x, quiet, gid, stat, ends⟩ := haltOne_of_stops keepPark hg h
      rw [ends]
      exact (Becomes.coresOnly quiet).trans (becomes_setGroup ((quiet.group i).trans hg) gid (.inr stat))
    · rw [haltOne_of_stays keepPark hg h]
      exact becomes_of_group fun _ => rfl

theorem haltOne_halts {s : State} {i : Nat} (keepPark : Bool) (named : s.Named) (h : s.Haltable i) :
    (s.haltOne i keepPark).Stands i .halted := by
  have stops (g : Group) (hg : s.group i = some g) (hs : g.stat = .ready ∨ g.stat = .parked) : (s.haltOne i keepPark).Stands i .halted := by
    obtain ⟨u, x, quiet, gid, stat, ends⟩ := haltOne_of_stops keepPark hg hs
    have hx : x.gid = i := gid.trans (named i g hg)
    refine ⟨x, ?_, stat⟩
    rw [ends, State.group_setGroup (g := g) (by rw [hx, quiet.group, hg]), if_pos hx.symm]
  rcases h with ⟨g, hg, hs⟩ | ⟨g, hg, hs⟩ | h
  · exact stops g hg (.inl hs)
  · exact stops g hg (.inr hs)
  · exact (becomes_haltOne s i keepPark).stands named h

theorem TablesStand.haltOne {s t : State} (a : TablesStand s t) {i : Nat} {keepPark : Bool} : TablesStand s (t.haltOne i keepPark) := by
  unfold State.haltOne
  split
  · exact a
  dsimp only
  split
  · exact (a.quiet (quiet_emitPacket _ _ _)).setGroup
  · exact a

/-! ### A list of groups halts -/

/-- Every group of a list that can halt does. -/
theorem haltAll_halts {gids : List Nat} {s : State} {i : Nat} (keepPark : Bool) (named : s.Named) (hi : i ∈ gids) (h : s.Haltable i) :
    (gids.foldl (fun s g => s.haltOne g keepPark) s).Stands i .halted :=
  (foldl_reaches (f := fun s g => s.haltOne g keepPark) (P := fun s => s.Named ∧ s.Haltable i) (Q := fun s => s.Named ∧ s.Stands i .halted)
    (fun s x ⟨named, h⟩ => ⟨((becomes_haltOne s x keepPark) named).1, (becomes_haltOne s x keepPark).haltable named h⟩)
    (fun s x ⟨named, h⟩ => ⟨((becomes_haltOne s x keepPark) named).1, (becomes_haltOne s x keepPark).stands named h⟩)
    (fun s ⟨named, h⟩ => ⟨((becomes_haltOne s i keepPark) named).1, haltOne_halts keepPark named h⟩) hi ⟨named, h⟩).2

theorem becomes_haltAll (gids : List Nat) (s : State) (keepPark : Bool) :
    Becomes .halted s (gids.foldl (fun s g => s.haltOne g keepPark) s) := .foldl (fun s x => becomes_haltOne s x keepPark) gids s

/-- The part of a team's halt after its groups have halted. -/
def State.haltNoted (s : State) (team : Nat) : State :=
  let u := s.modTeam team fun t => { t with haltedAt := s.seq }
  ({ u with seq := u.seq + 1 } : State).settleRows team

theorem haltTeam_eq {s : State} {team : Nat} {m : Team} (h : s.team team = some m) (keepPark : Bool) :
    s.haltTeam team keepPark = (m.gids.foldl (fun s g => s.haltOne g keepPark) s).haltNoted team := by
  unfold State.haltTeam State.haltNoted
  rw [h]

theorem haltNoted_group (s : State) (team i : Nat) : (s.haltNoted team).group i = s.group i :=
  ((coresOnly_settleRows _ _).group i).trans (s.group_modTeam team _ i)

theorem haltNoted_teamsKept (s : State) (team : Nat) : TeamsKept s (s.haltNoted team) := by
  have noted := teamsKept_modTeam s team (fun t => { t with haltedAt := s.seq }) fun _ => ⟨rfl, rfl⟩
  exact noted.trans (TablesStand.teamsKept ((TablesStand.same (.refl _)).trans (coresOnly_settleRows _ team).tables))

theorem haltNoted_encl (s : State) (team e : Nat) : (s.haltNoted team).encl e = s.encl e := by
  refine ((coresOnly_settleRows _ _).encl e).trans ?_
  rw [s.modTeam_rest]
  rfl

theorem becomes_haltTeam (s : State) (team : Nat) (keepPark : Bool) : Becomes .halted s (s.haltTeam team keepPark) := by
  cases h : s.team team with
  | none => unfold State.haltTeam; rw [h]; exact becomes_of_group fun _ => rfl
  | some m => rw [haltTeam_eq h]; exact (becomes_haltAll m.gids s keepPark).trans (becomes_of_group (haltNoted_group _ _))

theorem teamsKept_haltTeam (s : State) (team : Nat) (keepPark : Bool) : TeamsKept s (s.haltTeam team keepPark) := by
  cases h : s.team team with
  | none => unfold State.haltTeam; rw [h]; exact (TablesStand.refl s).teamsKept
  | some m =>
    rw [haltTeam_eq h]
    exact (TablesStand.foldl (fun _ _ a => a.haltOne) (.refl s)).teamsKept.trans (haltNoted_teamsKept _ _)

theorem haltOne_encl (s : State) (i : Nat) (keepPark : Bool) (e : Nat) : (s.haltOne i keepPark).encl e = s.encl e := by
  unfold State.haltOne
  split
  · rfl
  dsimp only
  split
  · rw [State.setGroup_rest]
    exact (quiet_emitPacket _ _ _).coresOnly.encl e
  · rfl

theorem haltTeam_encl (s : State) (team : Nat) (keepPark : Bool) (e : Nat) : (s.haltTeam team keepPark).encl e = s.encl e := by
  cases h : s.team team with
  | none => unfold State.haltTeam; rw [h]
  | some m =>
    rw [haltTeam_eq h, haltNoted_encl]
    exact List.foldlRecOn (motive := fun t => t.encl e = s.encl e) m.gids _ rfl fun t ht i _ => (haltOne_encl t i keepPark e).trans ht

/-- A team's groups that can halt do. -/
theorem haltTeam_halts {s : State} {team i : Nat} {m : Team} (keepPark : Bool) (named : s.Named) (hm : s.team team = some m)
    (hi : i ∈ m.gids) (h : s.Haltable i) : (s.haltTeam team keepPark).Stands i .halted := by
  obtain ⟨g, hg, stat⟩ := haltAll_halts keepPark named hi h
  rw [haltTeam_eq hm]
  exact ⟨g, (haltNoted_group _ _ i).trans hg, stat⟩

/-! ### ENCLAVE_HALT (18 R347) -/

theorem State.encl_modEnc (s : State) (e : Nat) (f : Enclave → Enclave) (k : Nat) :
    (s.modEnc e f).encl k = if k = e then f (s.encl e) else s.encl k := smGet_smSet _ _ _ _ _

/-- A resident or draining team of a task of the enclave stands in it. -/
theorem mem_standing {s : State} {k e : Nat} {m : Team} {x : Task} (hm : s.team k = some m) (hx : s.task m.task = some x)
    (he : x.enc = e) (on : m.onCores = true) : k ∈ s.standing e :=
  List.mem_map.2 ⟨(k, m), List.mem_filter.2 ⟨mem_of_smFind hm, by simp [on, hx, he]⟩, rfl⟩

theorem enclaveHalt_halts {s : State} {e k : Nat} {m : Team} {x : Task} (live : (s.encl e).live = true) (named : s.Named)
    (hm : s.team k = some m) (hx : s.task m.task = some x) (he : x.enc = e) (resident : m.stat = .resident) :
    Completes (.enclaveHalt e) s fun t => (t.encl e).halted = true ∧
      ∀ a ∈ m.gids, ∀ g, s.group a = some g → g.stat = .ready ∨ g.stat = .parked → ∃ h, t.group a = some h ∧ h.stat = .halted := by
  let u := s.modEnc e fun x => { x with halted := true }
  have stands : k ∈ u.standing e := mem_standing (s := u) hm hx he (by simp [Team.onCores, resident])
  refine ⟨(u.standing e).foldl (fun s t => s.haltTeam t false) u, ?runs, ?halted, fun a ha g hg stat => ?stops⟩
  case runs => exact if_neg (by simp [live])
  case halted =>
    have same : ∀ ts : List Nat, ∀ v : State, (ts.foldl (fun s t => s.haltTeam t false) v).encl e = v.encl e := fun ts v =>
      List.foldlRecOn (motive := fun t => t.encl e = v.encl e) ts _ rfl fun t ht i _ => (haltTeam_encl t i false e).trans ht
    rw [same, State.encl_modEnc, if_pos rfl]
  case stops =>
    refine (foldl_reaches (s := u) (f := fun (s : State) t => s.haltTeam t false)
      (P := fun s : State => s.Named ∧ s.Haltable a ∧ ∃ n, s.team k = some n ∧ n.gids = m.gids)
      (Q := fun s : State => s.Named ∧ s.Stands a .halted)
      (fun v j ⟨named, h, n, hn, gids⟩ => ?_) (fun v j ⟨named, h⟩ => ?_) (fun v ⟨named, h, n, hn, gids⟩ => ?_) stands
      ⟨named, Haltable.intro (s := u) hg stat, m, hm, rfl⟩).2
    · obtain ⟨n', hn', -, gids'⟩ := teamsKept_haltTeam v j false k n hn
      exact ⟨((becomes_haltTeam v j false) named).1, (becomes_haltTeam v j false).haltable named h, n', hn', gids'.trans gids⟩
    · exact ⟨((becomes_haltTeam v j false) named).1, (becomes_haltTeam v j false).stands named h⟩
    · exact ⟨((becomes_haltTeam v k false) named).1, haltTeam_halts false named hn (by rw [gids]; exact ha) h⟩

/-! ### ENCLAVE_RESUME (18 R349) -/

/-- A group that resumes: READY, reissuing what it was parked on. -/
def Group.resumed (g : Group) : Group :=
  { g with stat := .ready, w := 0, syncDue := true, t := { g.t with park := none }, f := { g.f with park := none } }

/-- One group of a team that is given back to its slots. -/
def State.readyOne (s : State) (i : Nat) : State :=
  match s.group i with
  | none => s
  | some g =>
    if g.stat = .halted && g.stopped.isNone then
      (s.setGroup g.resumed).emitPacket g (packet 12 g.curF 0 g.ident g.p.pc.toNat g.p.mask 0)
    else s

/-- The rows of a team on its cores are LIVE again. -/
def State.rowsLive (s : State) (t : Team) : State :=
  t.cores.foldl (fun s c => s.modCore c fun k => { k with rows := k.rows.map fun (r : Nat × RowTag) =>
    if r.2.team = t.id then (r.1, { r.2 with stat := .live }) else r }) s

theorem readyTeam_eq (s : State) (t : Team) : s.readyTeam t = t.gids.foldl State.readyOne (s.rowsLive t) := rfl

theorem readyOne_of_stays {s : State} {i : Nat} (h : ∀ g, s.group i = some g → (g.stat = .halted && g.stopped.isNone) = false) :
    s.readyOne i = s := by
  unfold State.readyOne
  split
  · rfl
  · next g hg => rw [if_neg (by simp [h g hg])]

theorem readyOne_of_resumes {s : State} {i : Nat} {g : Group} (hg : s.group i = some g) (h : g.stat = .halted) (free : g.stopped = none) :
    Quiet (s.setGroup g.resumed) (s.readyOne i) := by
  unfold State.readyOne
  rw [hg]
  dsimp only
  rw [if_pos (by simp [h, free])]
  exact quiet_emitPacket _ _ _

/-- A group either resumes or stays. -/
theorem readyOne_cases (s : State) (i : Nat) : s.readyOne i = s ∨ ∃ g, s.group i = some g ∧ Quiet (s.setGroup g.resumed) (s.readyOne i) := by
  by_cases h : ∃ g, s.group i = some g ∧ (g.stat = .halted && g.stopped.isNone) = true
  · obtain ⟨g, hg, turn⟩ := h
    obtain ⟨stat, free⟩ : g.stat = .halted ∧ g.stopped = none := by simpa using turn
    exact .inr ⟨g, hg, readyOne_of_resumes hg stat free⟩
  · exact .inl (readyOne_of_stays fun g hg => Bool.eq_false_iff.2 fun turn => h ⟨g, hg, turn⟩)

theorem becomes_readyOne (s : State) (i : Nat) : Becomes .ready s (s.readyOne i) := by
  obtain h | ⟨g, hg, quiet⟩ := readyOne_cases s i
  · rw [h]
    exact becomes_of_group fun _ => rfl
  · exact (becomes_setGroup (x := g.resumed) hg rfl (.inr rfl)).trans (.coresOnly quiet.coresOnly)

theorem tablesStand_readyOne (s : State) (i : Nat) : TablesStand s (s.readyOne i) := by
  obtain h | ⟨g, hg, quiet⟩ := readyOne_cases s i
  · rw [h]
    exact .refl s
  · exact (TablesStand.refl s).setGroup.quiet quiet

theorem readyOne_encl (s : State) (i e : Nat) : (s.readyOne i).encl e = s.encl e := by
  obtain h | ⟨g, hg, quiet⟩ := readyOne_cases s i
  · rw [h]
  · rw [quiet.coresOnly.encl, State.setGroup_rest]
    rfl

/-- A group that is halted and not stopped by a debugger, or is READY. -/
def State.Resumable (s : State) (i : Nat) : Prop := (∃ g, s.group i = some g ∧ g.stat = .halted ∧ g.stopped = none) ∨ s.Stands i .ready

theorem Becomes.resumable {s t : State} {i : Nat} (a : Becomes .ready s t) (named : s.Named) (h : s.Resumable i) : t.Resumable i := by
  rcases h with ⟨g, hg, stat, free⟩ | h
  · obtain ⟨k, hk, ends⟩ := (a named).2 i g hg
    exact ends.imp (fun same => ⟨k, hk, same.1.trans stat, same.2.trans free⟩) fun ends => ⟨k, hk, ends⟩
  · exact .inr (a.stands named h)

theorem readyOne_readies {s : State} {i : Nat} (named : s.Named) (h : s.Resumable i) : (s.readyOne i).Stands i .ready := by
  rcases h with ⟨g, hg, stat, free⟩ | h
  · have quiet := readyOne_of_resumes hg stat free
    have hi : g.resumed.gid = i := named i g hg
    refine ⟨g.resumed, ?_, rfl⟩
    rw [quiet.coresOnly.group, State.group_setGroup (g := g) (by rw [hi, hg]), if_pos hi.symm]
  · exact (becomes_readyOne s i).stands named h

theorem coresOnly_rowsLive (s : State) (t : Team) : CoresOnly s (s.rowsLive t) := .foldl (fun _ _ => .modCore _ _ _) _ s

theorem becomes_readyTeam (s : State) (t : Team) : Becomes .ready s (s.readyTeam t) := by
  rw [readyTeam_eq]
  exact (Becomes.coresOnly (coresOnly_rowsLive s t)).trans (.foldl becomes_readyOne _ _)

theorem tablesStand_readyTeam (s : State) (t : Team) : TablesStand s (s.readyTeam t) := by
  rw [readyTeam_eq]
  exact .foldl (fun _ _ a => a.trans (tablesStand_readyOne _ _)) (coresOnly_rowsLive s t).tables

theorem readyTeam_encl (s : State) (t : Team) (e : Nat) : (s.readyTeam t).encl e = s.encl e := by
  rw [readyTeam_eq]
  exact List.foldlRecOn (motive := fun u => u.encl e = s.encl e) t.gids State.readyOne ((coresOnly_rowsLive s t).encl e)
    fun u hu i _ => (readyOne_encl u i e).trans hu

theorem readyTeam_readies {s : State} {t : Team} {i : Nat} (named : s.Named) (hi : i ∈ t.gids) (h : s.Resumable i) :
    (s.readyTeam t).Stands i .ready := by
  have live : Becomes .ready s (s.rowsLive t) := .coresOnly (coresOnly_rowsLive s t)
  rw [readyTeam_eq]
  exact (foldl_reaches (P := fun s : State => s.Named ∧ s.Resumable i) (Q := fun s : State => s.Named ∧ s.Stands i .ready)
    (fun s x ⟨named, h⟩ => ⟨((becomes_readyOne s x) named).1, (becomes_readyOne s x).resumable named h⟩)
    (fun s x ⟨named, h⟩ => ⟨((becomes_readyOne s x) named).1, (becomes_readyOne s x).stands named h⟩)
    (fun s ⟨named, h⟩ => ⟨((becomes_readyOne s i) named).1, readyOne_readies named h⟩) hi ⟨(live named).1, live.resumable named h⟩).2

/-- No team has rows sealed out. -/
def State.NoneLost (s : State) : Prop := ∀ j y, s.team j = some y → y.lost = []

theorem TablesStand.noneLost {s t : State} (a : TablesStand s t) (h : s.NoneLost) : t.NoneLost := fun j y hy => h j y ((a.team j).symm.trans hy)

theorem restoreTeam_of_noneLost {s : State} (h : s.NoneLost) (x : Task) (t : Team) : s.restoreTeam x t = s := by
  have core (c : Nat) : s.restoreCore x.enc t.id c 256 = s := by
    have none : ((s.team t.id).bind fun t => t.lost.find? fun l => l.1 = c) = none := by
      cases hm : s.team t.id with
      | none => rfl
      | some y => simp [h _ _ hm]
    rw [State.restoreCore, none]
  exact List.foldlRecOn (motive := fun u => u = s) t.cores _ rfl fun u hu c _ => by rw [hu, core]

/-- With no rows sealed out a team that resumes only becomes ready. -/
theorem resumeTeam_of_noneLost {s : State} {k : Nat} {m : Team} {x : Task} (h : s.NoneLost) (hm : s.team k = some m)
    (hx : s.task m.task = some x) : s.resumeTeam k = s.readyTeam m := by
  unfold State.resumeTeam
  rw [hm]
  dsimp only
  rw [hx]
  dsimp only
  rw [restoreTeam_of_noneLost h, if_pos (by simp [State.whole, hm, h _ _ hm])]

theorem resumeTeam_cases {s : State} (h : s.NoneLost) (k : Nat) : s.resumeTeam k = s ∨ ∃ m, s.resumeTeam k = s.readyTeam m := by
  cases hm : s.team k with
  | none => unfold State.resumeTeam; rw [hm]; exact .inl rfl
  | some m =>
    cases hx : s.task m.task with
    | none => unfold State.resumeTeam; rw [hm]; dsimp only; rw [hx]; exact .inl rfl
    | some x => exact .inr ⟨m, resumeTeam_of_noneLost h hm hx⟩

theorem becomes_resumeTeam {s : State} (h : s.NoneLost) (k : Nat) : Becomes .ready s (s.resumeTeam k) := by
  obtain same | ⟨m, ready⟩ := resumeTeam_cases h k
  · rw [same]
    exact becomes_of_group fun _ => rfl
  · rw [ready]
    exact becomes_readyTeam s m

theorem tablesStand_resumeTeam {s : State} (h : s.NoneLost) (k : Nat) : TablesStand s (s.resumeTeam k) := by
  obtain same | ⟨m, ready⟩ := resumeTeam_cases h k
  · rw [same]
    exact .refl s
  · rw [ready]
    exact tablesStand_readyTeam s m

theorem resumeTeam_encl {s : State} (h : s.NoneLost) (k e : Nat) : (s.resumeTeam k).encl e = s.encl e := by
  obtain same | ⟨m, ready⟩ := resumeTeam_cases h k
  · rw [same]
  · rw [ready]
    exact readyTeam_encl s m e

theorem enclaveResume_readies {s : State} {e k : Nat} {m : Team} {x : Task} (live : (s.encl e).live = true) (named : s.Named)
    (hm : s.team k = some m) (hx : s.task m.task = some x) (he : x.enc = e) (resident : m.stat = .resident) (on : x.over = false)
    (lost : s.NoneLost) :
    Completes (.enclaveResume e) s fun t => (t.encl e).halted = false ∧
      ∀ a ∈ m.gids, ∀ g, s.group a = some g → g.stat = .halted → g.stopped = none → ∃ h, t.group a = some h ∧ h.stat = .ready := by
  let u := s.modEnc e fun x => { x with halted := false }
  let ts := (u.standing e).filter fun t => (((u.team t).bind fun m => u.task m.task).map fun x => !x.over).getD false
  have stands : k ∈ ts := by
    refine List.mem_filter.2 ⟨mem_standing (s := u) hm hx he (by simp [Team.onCores, resident]), ?_⟩
    rw [show u.team k = some m from hm]
    simp [show u.task m.task = some x from hx, on]
  refine ⟨ts.foldl State.resumeTeam u, ?runs, ?resumed, fun a ha g hg stat free => ?readies⟩
  case runs => exact if_neg (by simp [live])
  case resumed =>
    refine (List.foldlRecOn (motive := fun t : State => t.NoneLost ∧ (t.encl e).halted = false) ts State.resumeTeam (b := u)
      ⟨lost, ?_⟩ fun t ⟨lost, ht⟩ j _ => ?_).2
    · rw [State.encl_modEnc, if_pos rfl]
    · exact ⟨(tablesStand_resumeTeam lost j).noneLost lost, by rw [resumeTeam_encl lost]; exact ht⟩
  case readies =>
    refine (foldl_reaches (s := u) (f := State.resumeTeam)
      (P := fun s : State => s.NoneLost ∧ s.Named ∧ s.Resumable a ∧ s.team k = some m ∧ s.task m.task = some x)
      (Q := fun s : State => s.NoneLost ∧ s.Named ∧ s.Stands a .ready)
      (fun v j ⟨lost, named, h, hm, hx⟩ => ?_) (fun v j ⟨lost, named, h⟩ => ?_) (fun v ⟨lost, named, h, hm, hx⟩ => ?_) stands
      ⟨lost, named, .inl ⟨g, hg, stat, free⟩, hm, hx⟩).2.2
    all_goals have same := tablesStand_resumeTeam lost
    all_goals have ends := becomes_resumeTeam lost
    · exact ⟨(same j).noneLost lost, (ends j named).1, (ends j).resumable named h, ((same j).team k).trans hm, ((same j).task _).trans hx⟩
    · exact ⟨(same j).noneLost lost, (ends j named).1, (ends j).stands named h⟩
    · refine ⟨(same k).noneLost lost, (ends k named).1, ?_⟩
      rw [resumeTeam_of_noneLost lost hm hx]
      exact readyTeam_readies named ha h

end Sys2Proof.Machine
end

section
/-! PROOFS. What leaves Chandler's tables alone at the end of groups, teams and tasks (05 R130, R137; 17 R325): lines, leases, colours and
the replay block. -/

namespace Sys2Proof.Machine

section
variable {s t : State} (a : TablesStand s t)
include a

theorem TablesStand.lineClean {part cls ran pa : Nat} : TablesStand s (t.lineClean part cls ran pa) :=
  .foldl (fun _ _ a => a.writeBack) (.foldl (fun _ _ a => a.writeBack) a)
theorem TablesStand.lineHome {part cls ran pa : Nat} : TablesStand s (t.lineHome part cls ran pa) :=
  .foldl (fun _ _ a => a.dropLine) a.lineClean
theorem TablesStand.replicaEnd {x : Task} : TablesStand s (t.replicaEnd x) :=
  .foldl (fun _ _ a => .foldl (fun _ _ a => .foldl (fun _ _ a => a.lineHome) a) a) a

theorem TablesStand.lowerLease {die f : Nat} : TablesStand s (t.lowerLease die f) := a.same
theorem TablesStand.uncolour {gids : List Nat} {e : Nat} : TablesStand s (t.uncolour gids e) := .foldl (fun _ _ a => a.colourDown) a
theorem TablesStand.reqDone {g : Group} {r : Req} : TablesStand s (t.reqDone g r) := by
  unfold State.reqDone
  split
  · exact a.colourDown
  · exact a
theorem TablesStand.dropHeld {g : Group} : TablesStand s (t.dropHeld g) := (TablesStand.foldl (fun _ _ a => a.reqDone) a).modGroup
theorem TablesStand.closeAll {ts : List Nat} : TablesStand s (t.closeAll ts) := .foldl (fun _ _ a => a.modCore) a

theorem TablesStand.replayEnd {x : Task} : TablesStand s (t.replayEnd x) := by
  unfold State.replayEnd
  dsimp only
  split
  · exact a
  split
  · exact a
  split
  · exact a.flushBlocks.devWrite.modEnc
  · exact a.devWrite.modEnc

theorem TablesStand.endGroup {g : Group} : TablesStand s (t.endGroup g) :=
  TablesStand.same (t := t.setGroup { g with stat := .ended }) a.setGroup
theorem TablesStand.dropGroup {gid : Nat} : TablesStand s (t.dropGroup gid) := by
  unfold State.dropGroup
  split
  · exact a
  dsimp only
  split
  · exact a.same
  · exact a.same

end

/-- A team that leaves its cores takes its own entry from the table, and no more. -/
theorem releaseTeam_tables (s : State) (x : Task) (m : Team) :
    (s.releaseTeam x m).tasks = s.tasks ∧ (s.releaseTeam x m).teams = smErase s.teams m.id := by
  have staged : TablesStand s (s.discardStaging x.enc m x) := (TablesStand.refl s).discardStaging
  have images := staged.foldl (l := m.lost) (f := fun s l =>
    match s.pvtFind x.enc kindRow (rowObj x.grid m.index 0 (m.halfOf l.1) l.2) with
    | some i => s.pvtDrop x.enc i
    | none => s) fun u l a => by
      split
      · exact a.pvtDrop
      · exact a
  have rows := images.foldl (l := m.cores) (f := fun s c => s.modCore c fun k =>
    ((k.holdRows (s.localWindowRows c) m.id).freeRows fun r => r.team = m.id).clearStaging m.id) fun _ _ a => a.modCore
  have groups := rows.foldl (f := State.dropGroup) (l := m.gids) fun _ _ a => a.dropGroup
  have buckets := groups.foldl (f := State.dropBuckets) (l := m.cores) fun _ _ a => a.modCore
  exact ⟨buckets.tasks, congrArg (smErase · m.id) buckets.teams⟩

/-! ### Tasks alone -/

theorem tasks_foldl {α : Type} {f : State → α → State} (hf : ∀ s x, (f s x).tasks = s.tasks) (l : List α) (s : State) :
    (l.foldl f s).tasks = s.tasks :=
  List.foldlRecOn (motive := fun t : State => t.tasks = s.tasks) l f rfl fun t ht x _ => (hf t x).trans ht

theorem State.task_congr {s t : State} (h : t.tasks = s.tasks) (k : Nat) : t.task k = s.task k := by
  unfold State.task
  rw [h]

theorem State.modTeam_tasks (s : State) (k : Nat) (f : Team → Team) : (s.modTeam k f).tasks = s.tasks := by rw [s.modTeam_rest]

/-- Where no task is found under a number, none is after. -/
def Forgets (j : Nat) (s t : State) : Prop := s.task j = none → t.task j = none

theorem Forgets.trans {j : Nat} {s t u : State} (a : Forgets j s t) (b : Forgets j t u) : Forgets j s u := fun h => b (a h)
theorem forgets_of_tasks {j : Nat} {s t : State} (h : t.tasks = s.tasks) : Forgets j s t := fun none => (State.task_congr h j).trans none
theorem forgets_modTask (j : Nat) (s : State) (k : Nat) (f : Task → Task) : Forgets j s (s.modTask k f) := fun h => by
  rw [State.task_modTask]
  split
  · next hj => rw [← hj, h]; rfl
  · exact h

theorem forgets_releaseLeases (j : Nat) (s : State) (k : Nat) : Forgets j s (s.releaseLeases k) := by
  unfold State.releaseLeases
  split
  · exact id
  · exact (forgets_of_tasks (TablesStand.foldl (fun _ _ a => a.lowerLease) (.refl s)).tasks).trans (forgets_modTask _ _ _ _)

theorem forgets_edgeBegin (j : Nat) (s : State) (enc queue : Nat) : Forgets j s (s.edgeBegin enc queue) := by
  unfold State.edgeBegin
  split
  · split
    · exact id
    · exact (forgets_modTask j s _ _).trans (forgets_of_tasks rfl)
  · exact id

theorem forgets_tidy (j : Nat) (s : State) : Forgets j s s.tidy := smFind_filter_none

/-! ### TASK_END (17 R325) -/

theorem becomes_dropHeld {q : GSt} (s : State) (g : Group) : Becomes q s (s.dropHeld g) := by
  refine Becomes.trans ?_ (becomes_modGroup _ _ fun _ => ⟨rfl, rfl, rfl⟩)
  refine .foldl (fun u r => becomes_of_group fun i => ?_) _ s
  unfold State.reqDone
  split <;> rfl

theorem becomes_stopGroups (s : State) (k : Nat) : Becomes .halted s (s.stopGroups k) :=
  (Becomes.foldl (fun s (m : Team) => becomes_haltAll m.gids s false) _ s).trans
    (.foldl (fun s (m : Team) => becomes_of_group (s.group_modTeam m.id _)) _ _)

theorem stopGroups_tasks (s : State) (k : Nat) : (s.stopGroups k).tasks = s.tasks :=
  (tasks_foldl (fun s (m : Team) => s.modTeam_tasks m.id _) _ _).trans
    (TablesStand.foldl (fun _ (m : Team) a => .foldl (l := m.gids) (fun _ _ a => a.haltOne) a) (.refl s)).tasks

/-- The groups of the task's teams that can halt do. -/
theorem stopGroups_halts {s : State} {j k i : Nat} {m : Team} (named : s.Named) (hm : s.team j = some m) (hk : m.task = k)
    (hi : i ∈ m.gids) (h : s.Haltable i) : (s.stopGroups k).Stands i .halted := by
  have listed : m ∈ (s.teams.filter fun m => m.2.task = k).map (·.2) :=
    List.mem_map.2 ⟨(j, m), List.mem_filter.2 ⟨mem_of_smFind hm, by simpa using hk⟩, rfl⟩
  have stop (s : State) (m : Team) : Becomes .halted s (m.gids.foldl (fun s g => s.haltOne g false) s) := becomes_haltAll m.gids s false
  obtain ⟨named', halted⟩ := foldl_reaches (s := s) (f := fun s m => m.gids.foldl (fun s g => s.haltOne g false) s)
    (P := fun s : State => s.Named ∧ s.Haltable i) (Q := fun s : State => s.Named ∧ s.Stands i .halted)
    (fun s m ⟨named, h⟩ => ⟨(stop s m named).1, (stop s m).haltable named h⟩)
    (fun s m ⟨named, h⟩ => ⟨(stop s m named).1, (stop s m).stands named h⟩)
    (fun s ⟨named, h⟩ => ⟨(stop s m named).1, haltAll_halts false named hi h⟩) listed ⟨named, h⟩
  exact (Becomes.foldl (fun s (m : Team) => becomes_of_group (s.group_modTeam m.id _)) _ _).stands named' halted

/-- A task ends and its groups stop. -/
def State.endedOne (s : State) (i : Nat) : State := (s.modTask i fun t => { t with ended := true }).stopGroups i

theorem becomes_endedOne (s : State) (i : Nat) : Becomes .halted s (s.endedOne i) :=
  (becomes_of_group (s.group_modTask i _)).trans (becomes_stopGroups _ i)

theorem endedOne_task (s : State) (i k : Nat) :
    (s.endedOne i).task k = if k = i then (s.task i).map fun x => { x with ended := true } else s.task k :=
  (State.task_congr (stopGroups_tasks _ i) k).trans (State.task_modTask s i _ k)

/-- A task that ends, among others, is found ended. -/
theorem endedAll_task {s : State} {k : Nat} {x : Task} (hx : s.task k = some x) (l : List Nat) :
    (l.foldl State.endedOne (s.endedOne k)).task k = some { x with ended := true } :=
  List.foldlRecOn (motive := fun t : State => t.task k = some { x with ended := true }) l State.endedOne
    (by rw [endedOne_task, if_pos rfl, hx]; rfl) fun t ht i _ => by
      rw [endedOne_task]
      split
      · next hk => rw [← hk, ht]; rfl
      · exact ht

theorem endedAll_halts {s : State} {j k i : Nat} {m : Team} (named : s.Named) (hm : s.team j = some m) (hk : m.task = k)
    (hi : i ∈ m.gids) (h : s.Haltable i) (l : List Nat) :
    (l.foldl State.endedOne (s.endedOne k)).Named ∧ (l.foldl State.endedOne (s.endedOne k)).Stands i .halted := by
  have ended : Becomes .halted s (s.modTask k fun t => { t with ended := true }) := becomes_of_group (s.group_modTask k _)
  have stops : (s.endedOne k).Stands i .halted :=
    stopGroups_halts (ended named).1 ((s.team_modTask k _ j).trans hm) hk hi (ended.haltable named h)
  have rest : Becomes .halted (s.endedOne k) (l.foldl State.endedOne (s.endedOne k)) := .foldl becomes_endedOne l _
  have named' := (becomes_endedOne s k named).1
  exact ⟨(rest named').1, rest.stands named' stops⟩

theorem taskEnd_unfaulted {s : State} {k : Nat} {x : Task} (hx : s.task k = some x) (hf : x.fault = none) :
    Completes (.taskEnd k) s fun t => t = s := ⟨s, by simp [exec, execTaskEnd, hx, hf], rfl⟩

theorem taskEnd_ends {s : State} {k : Nat} {x : Task} {r : Report} (hx : s.task k = some x) (hf : x.fault = some r)
    (hended : x.ended = false) (hstage : x.stage ≠ .queued) : Completes (.taskEnd k) s fun t =>
      t.task k = some { x with ended := true } ∧ (GroupsNamed s → ∀ (m : Team) j, s.team j = some m → m.task = k →
        ∀ a ∈ m.gids, ∀ g, s.group a = some g → g.stat = .ready ∨ g.stat = .parked → ∃ h, t.group a = some h ∧ h.stat = .halted) := by
  let all := k :: s.descendants 10 k
  let u := all.foldl State.endedOne s
  let v : State := { u with tasks := smFilter (fun k u => !(all.contains k && u.stage = .queued)) u.tasks }
  let gone := (v.allGroups.filter fun g =>
    ((v.teams.filter fun m => all.contains m.2.task).map (·.1)).contains g.team && v.replayMode g = 2)
  have drops (l : List Group) : (l.foldl State.dropHeld v).task k = some { x with ended := true } ∧
      (GroupsNamed s → ∀ (m : Team) j, s.team j = some m → m.task = k → ∀ a ∈ m.gids, ∀ g, s.group a = some g →
        g.stat = .ready ∨ g.stat = .parked → (l.foldl State.dropHeld v).Stands a .halted) := by
    refine ⟨?_, fun named m j hm hk a ha g hg stat => ?_⟩
    · have keeps := (TablesStand.refl v).foldl (f := State.dropHeld) (l := l) fun _ _ a => a.dropHeld
      rw [keeps.task]
      exact smFind_filter (endedAll_task hx _) (by simp [hstage])
    · obtain ⟨named', halts⟩ := endedAll_halts named.found hm hk ha (Haltable.intro hg stat) (s.descendants 10 k)
      exact (Becomes.foldl (q := .halted) becomes_dropHeld l v).stands named' halts
  refine ⟨(if x.replay ≠ 2 then v else gone.foldl State.dropHeld v), ?_, ?_⟩
  · show execTaskEnd k s = _
    unfold execTaskEnd
    rw [hx]
    exact if_neg (by simp [hf, hended])
  · split
    · exact drops []
    · exact drops gone

/-! ### FAULT_RECORD (17 R325 steps 2 to 6, R327) -/

theorem faultRecord_unfaulted {s : State} {k : Nat} {x : Task} (hx : s.task k = some x) (hf : x.fault = none) :
    Completes (.faultRecord k) s fun t => t = s := ⟨s, by simp [exec, execFaultRecord, hx, hf], rfl⟩

theorem State.mem_modTask (s : State) (k : Nat) (f : Task → Task) : (s.modTask k f).mem = s.mem := by rw [s.modTask_rest]

theorem faultRecord_writes {s : State} {k : Nat} {x : Task} {r : Report} (hx : s.task k = some x) (hf : x.fault = some r)
    (hended : x.ended = true) (stopped : s.stoppedAll (k :: s.descendants 10 k) = true) (hr : x.reported = false) :
    Completes (.faultRecord k) s fun t => t.mem = (s.faultWrite x.enc r x.supp).mem ∧ t.task k = some { x with reported := true } := by
  refine ⟨(s.faultWrite x.enc r x.supp).modTask k fun t => { t with reported := true }, ?_, State.mem_modTask _ _ _, ?_⟩
  · simp [exec, execFaultRecord, hx, hf, hended, stopped, hr]
  · rw [State.task_modTask, if_pos rfl, (TablesStand.refl s).faultWrite.task, hx]
    rfl

/-- The lines of a task that ends go home, and its groups are over (17 R325 steps 4 and 5). -/
def State.groupsCleared (s : State) (u : Task) : State :=
  let s := s.replicaEnd u
  let gs := s.groupsOf [u.id]
  gs.foldl State.endGroup (s.uncolour (gs.map (·.gid)) 0)

/-- The teams of a task that ends leave their cores. -/
def State.teamsCleared (s : State) (u : Task) : State :=
  ((s.teams.filter fun m => m.2.task = u.id).map (·.2)).foldl (fun s m => s.releaseTeam u m) s

/-- A task leaves the table, and its queue's edge goes on without it. -/
def State.taskGone (s : State) (u : Task) : State :=
  let s := s.modEnc u.enc fun x => { x with edges := if s.edgeTurn u ∧ u.stage = .edge then smErase x.edges u.queue else x.edges }
  { s with tasks := smErase s.tasks u.id }.edgeBegin u.enc u.queue

theorem eraseTask_eq (s : State) (u : Task) :
    s.eraseTask u = ((((s.groupsCleared u).releaseLeases u.id).replayEnd u).teamsCleared u).taskGone u := rfl

theorem TablesStand.groupsCleared {s t : State} (a : TablesStand s t) {u : Task} : TablesStand s (t.groupsCleared u) :=
  a.replicaEnd.uncolour.foldl fun _ _ a => a.endGroup

theorem teamsCleared_tasks (s : State) (u : Task) : (s.teamsCleared u).tasks = s.tasks :=
  tasks_foldl (fun s m => (releaseTeam_tables s u m).1) _ s

theorem taskGone_erases (s : State) (u : Task) : (s.taskGone u).task u.id = none :=
  forgets_edgeBegin _ _ _ _ ((smFind_smErase s.tasks u.id u.id).trans (if_pos rfl))

theorem forgets_taskGone (j : Nat) (s : State) (u : Task) : Forgets j s (s.taskGone u) := fun h =>
  forgets_edgeBegin _ _ _ _ ((smFind_smErase s.tasks u.id j).trans (by split; rfl; exact h))

theorem eraseTask_erases (s : State) (u : Task) : (s.eraseTask u).task u.id = none := by
  rw [eraseTask_eq]
  exact taskGone_erases _ u

theorem forgets_eraseTask (j : Nat) (s : State) (u : Task) : Forgets j s (s.eraseTask u) := by
  rw [eraseTask_eq]
  have groups : Forgets j s (s.groupsCleared u) := forgets_of_tasks (TablesStand.refl s).groupsCleared.tasks
  have leases := groups.trans (forgets_releaseLeases j _ u.id)
  have replay := leases.trans (forgets_of_tasks ((TablesStand.refl _).replayEnd (x := u)).tasks)
  exact (replay.trans (forgets_of_tasks (teamsCleared_tasks _ u))).trans (forgets_taskGone j _ u)

theorem faultRecord_clears {s : State} {k : Nat} {x : Task} {r : Report} (hx : s.task k = some x) (hid : x.id = k) (hf : x.fault = some r)
    (hended : x.ended = true) (stopped : s.stoppedAll (k :: s.descendants 10 k) = true) (hr : x.reported = true)
    (drained : s.drainedAll (k :: s.descendants 10 k) = true)
    (told : ∀ y ∈ (k :: s.descendants 10 k).filterMap s.task, y.fault.isSome → y.reported = true)
    (still : ((s.closeAll (k :: s.descendants 10 k)).groupsOf (k :: s.descendants 10 k)).any
      (s.closeAll (k :: s.descendants 10 k)).groupWindowBusy = false) :
    Completes (.faultRecord k) s fun t => t.task k = none := by
  let all := k :: s.descendants 10 k
  let u := s.closeAll all
  let ts := all.filterMap u.task
  have listed : x ∈ ts.reverse :=
    List.mem_reverse.2 (List.mem_filterMap.2 ⟨k, List.mem_cons_self, ((TablesStand.refl s).closeAll.task k).trans hx⟩)
  refine ⟨(ts.reverse.foldl (fun s u => s.eraseTask u) (u.endOthers x all r)).tidy, ?runs, forgets_tidy k _ ?erased⟩
  case runs =>
    have untold : ((k :: s.descendants 10 k).filterMap s.task).any (fun u => u.fault.isSome && !u.reported) = false :=
      List.any_eq_false.2 fun y hy => by simpa using told y hy
    show execFaultRecord k s = _
    unfold execFaultRecord
    rw [hx]
    dsimp only
    rw [hf]
    dsimp only
    rw [if_neg (by simp [hended, stopped]), if_neg (by simp [hr]), if_neg (by simp [drained, untold]), if_neg (by simp [still])]
  case erased =>
    refine foldl_reaches (f := fun (s : State) u => s.eraseTask u) (P := fun _ => True) (Q := fun s : State => s.task k = none)
      (fun _ _ _ => trivial) (fun s u h => forgets_eraseTask k s u h) (fun s _ => ?_) listed trivial
    have erased := eraseTask_erases s x
    rwa [hid] at erased

/-! ### TEAM_PUBLISH (05 R130, R137) -/

/-- The team's bit is set in the completion map, where the record names one. -/
def State.publishMap (s : State) (hs : List Heap) (x : Task) (ix : Nat) : State :=
  let own (e : Nat) : Bool := e = x.enc && x.replay ≠ 0
  if recDw x.rcd 0x28 = 0 then s
  else match s.readIn x.enc hs (recDw x.rcd 0x28 + ix / 8) 1 with
    | .ok bs => s.writeVia (fun (s : State) part pa bs => (s.markOutside (pa / 64) own).hubPut part pa bs) x.enc hs
        (recDw x.rcd 0x28 + ix / 8) (leBytes 1 (leNat bs ||| 2 ^ (ix % 8)))
    | .error _ => s

/-- The completion counter rises by 1, where the record names one. -/
def State.publishCount (s : State) (hs : List Heap) (x : Task) : State :=
  let own (e : Nat) : Bool := e = x.enc && x.replay ≠ 0
  if recDw x.rcd 0x20 = 0 then s
  else match s.readIn x.enc hs (recDw x.rcd 0x20) 8 with
    | .ok bs => s.writeVia (fun (s : State) part pa bs => (s.outsideAtomic (s.svtDie part 0 pa) (pa / 64) false own).hubPut part pa bs)
        x.enc hs (recDw x.rcd 0x20) (leBytes 8 (leNat bs + 1))
    | .error _ => s

theorem publishWrites_eq (s : State) (x : Task) (ix : Nat) : s.publishWrites x ix =
    (s.publishMap ((s.encl x.enc).heapsOf x.queue) x ix).publishCount ((s.encl x.enc).heapsOf x.queue) x := rfl

theorem TablesStand.publishMap {s t : State} (a : TablesStand s t) {hs : List Heap} {x : Task} {ix : Nat} :
    TablesStand s (t.publishMap hs x ix) := by
  unfold State.publishMap
  dsimp only
  split
  · exact a
  split
  · exact a.writeVia fun _ _ _ _ a => a.markOutside.hubPut
  · exact a

theorem TablesStand.publishCount {s t : State} (a : TablesStand s t) {hs : List Heap} {x : Task} : TablesStand s (t.publishCount hs x) := by
  unfold State.publishCount
  dsimp only
  split
  · exact a
  split
  · exact a.writeVia fun _ _ _ _ a => a.outsideAtomic.hubPut
  · exact a

theorem TablesStand.publishWrites {s t : State} (a : TablesStand s t) {x : Task} {ix : Nat} : TablesStand s (t.publishWrites x ix) := by
  rw [publishWrites_eq]
  exact a.publishMap.publishCount

/-- The state in which a team has been published and has left its cores. -/
def State.publishedTeam (s : State) (x : Task) (m : Team) : State :=
  let s := (uniq (m.cores.map clusterOf)).foldl (fun s c => s.drainBuf c (s.seq + 1)) s
  ((s.publishWrites x m.index).modTask x.id fun x => { x with published := x.published + 1 }).releaseTeam x m

/-- The grids that a team launched are retired with it. -/
def State.childrenRetired (s : State) (k : Nat) : State :=
  (s.tasks.filter fun u => u.2.parent = some k).foldl (fun s u => s.modTask u.1 fun u => { u with retired := true }) s

theorem teamPublish_waits {s : State} {k : Nat} {m : Team} {x : Task} (hm : s.team k = some m) (hx : s.task m.task = some x)
    (h : m.plq ≠ [] ∨ s.childrenDone k = false) : Completes (.teamPublish k) s fun t => t = s := by
  refine ⟨s, ?_, rfl⟩
  show execTeamPublish k s = _
  unfold execTeamPublish
  rw [hm]
  dsimp only
  rw [hx]
  exact if_pos (by rcases h with h | h <;> simp [h])

theorem execTeamPublish_eq {s : State} {k : Nat} {m : Team} {x : Task} (hm : s.team k = some m) (hx : s.task m.task = some x)
    (draining : m.stat = .draining) (on : x.over = false) (hq : m.plq = []) (hc : s.childrenDone k = true) :
    execTeamPublish k s = .next (((s.publishedTeam x m).childrenRetired k).gridDone x.id).tidy := by
  unfold execTeamPublish
  rw [hm]
  dsimp only
  rw [hx]
  exact if_neg (by simp [draining, on, hq, hc])

/-- The task counts a team more. -/
theorem publishedTeam_task {s : State} {x : Task} (m : Team) (hx : s.task x.id = some x) :
    (s.publishedTeam x m).task x.id = some { x with published := x.published + 1 } := by
  have drained : TablesStand s ((uniq (m.cores.map clusterOf)).foldl (fun s c => s.drainBuf c (s.seq + 1)) s) :=
    .foldl (fun _ _ a => a.drainBuf) (.refl s)
  refine (State.task_congr (releaseTeam_tables _ x m).1 x.id).trans ?_
  rw [State.task_modTask, if_pos rfl, drained.publishWrites.task, hx]
  rfl

theorem publishedTeam_team (s : State) (x : Task) (m : Team) : (s.publishedTeam x m).team m.id = none := by
  unfold State.team State.publishedTeam
  rw [(releaseTeam_tables _ x m).2, smFind_smErase, if_pos rfl]

/-- Retiring a team's grids leaves what a task has published and where it is. -/
theorem childrenRetired_task {s : State} {j : Nat} {y : Task} (h : s.task j = some y) (k : Nat) :
    ∃ z, (s.childrenRetired k).task j = some z ∧ z.published = y.published ∧ z.teams = y.teams ∧ z.stage = y.stage := by
  refine List.foldlRecOn (motive := fun t : State => ∃ z, t.task j = some z ∧ z.published = y.published ∧ z.teams = y.teams ∧
    z.stage = y.stage) _ _ ⟨y, h, rfl, rfl, rfl⟩ fun t ⟨z, hz, same⟩ u _ => ?_
  rw [State.task_modTask]
  split
  · next hj => exact ⟨{ z with retired := true }, by rw [← hj, hz]; rfl, same⟩
  · exact ⟨z, hz, same⟩

theorem State.modTask_teams (s : State) (k : Nat) (f : Task → Task) : (s.modTask k f).teams = s.teams := by rw [s.modTask_rest]

theorem childrenRetired_teams (s : State) (k : Nat) : (s.childrenRetired k).teams = s.teams :=
  List.foldlRecOn (motive := fun t : State => t.teams = s.teams) _ _ rfl fun t ht _ _ => (t.modTask_teams _ _).trans ht

theorem releaseLeases_teams (s : State) (k : Nat) : (s.releaseLeases k).teams = s.teams := by
  unfold State.releaseLeases
  split
  · rfl
  · exact (State.modTask_teams _ _ _).trans (TablesStand.foldl (fun _ _ a => a.lowerLease) (.refl s)).teams

theorem gridDone_teams (s : State) (k : Nat) : (s.gridDone k).teams = s.teams := by
  unfold State.gridDone
  split
  · rfl
  split
  · rfl
  · exact (State.modTask_teams _ _ _).trans ((TablesStand.refl _).replayEnd.teams.trans (releaseLeases_teams s k))

theorem gridDone_of_teams {s : State} {k : Nat} {z : Task} (hz : s.task k = some z) (h : z.published < z.teams) : s.gridDone k = s := by
  unfold State.gridDone
  rw [hz]
  exact if_pos h

theorem tidy_task {s : State} {k : Nat} {z : Task} (hz : s.task k = some z) (h : z.stage ≠ .done) : s.tidy.task k = some z :=
  smFind_filter hz (by simp [h])

/-- Every entry of the task table under a number passes a test. -/
def State.Listed (s : State) (k : Nat) (p : Task → Prop) : Prop := ∀ e ∈ s.tasks, e.1 = k → p e.2

theorem Listed.tidy {s : State} {k : Nat} {p : Task → Prop} (h : s.Listed k p) : s.tidy.Listed k p :=
  fun e he => h e (List.mem_of_mem_filter he)

/-- A grid whose teams are all published is DONE and holds no lease. -/
theorem gridDone_listed {s : State} {k : Nat} {z : Task} (hz : s.task k = some z) (h : z.teams ≤ z.published) :
    (s.gridDone k).Listed k fun z => z.stage = .done ∧ z.frames = [] := by
  have leases : (s.releaseLeases k).task k = some { z with frames := [], lease := .released } := by
    unfold State.releaseLeases
    rw [hz]
    dsimp only
    rw [State.task_modTask, if_pos rfl, (TablesStand.foldl (fun _ _ a => a.lowerLease) (.refl s)).task, hz]
    rfl
  have ended : ((s.releaseLeases k).replayEnd z).task k = some { z with frames := [], lease := .released } :=
    ((TablesStand.refl _).replayEnd.task k).trans leases
  unfold State.gridDone
  rw [hz]
  dsimp only
  rw [if_neg (Nat.not_lt.2 h)]
  refine Listed.tidy ?_
  unfold State.modTask
  rw [ended]
  intro e he hk
  rcases mem_smPut he with rfl | ⟨-, other⟩
  · exact ⟨rfl, rfl⟩
  · exact absurd hk other

theorem teamPublish_counts {s : State} {k : Nat} {m : Team} {x : Task} (hm : s.team k = some m) (hid : m.id = k)
    (hx : s.task m.task = some x) (hxid : x.id = m.task) (draining : m.stat = .draining) (on : x.over = false) (hq : m.plq = [])
    (hc : s.childrenDone k = true) (running : x.stage = .running) (more : x.published + 1 < x.teams) :
    Completes (.teamPublish k) s fun t => t.team k = none ∧
      ∃ z, t.task x.id = some z ∧ z.published = x.published + 1 ∧ z.stage = .running := by
  obtain ⟨z, hz, published, teams, stage⟩ := childrenRetired_task (publishedTeam_task m (by rw [hxid]; exact hx)) k
  have same := gridDone_of_teams hz (by rw [published, teams]; exact more)
  refine ⟨_, execTeamPublish_eq hm hx draining on hq hc, ?_, z, ?_, published, stage.trans running⟩
  · rw [same, ← hid]
    exact (congrArg (smFind · m.id) (childrenRetired_teams _ _)).trans (publishedTeam_team s x m)
  · rw [same]
    exact tidy_task hz (by rw [stage.trans running]; decide)

theorem teamPublish_ends {s : State} {k : Nat} {m : Team} {x : Task} (hm : s.team k = some m) (hid : m.id = k)
    (hx : s.task m.task = some x) (hxid : x.id = m.task) (draining : m.stat = .draining) (on : x.over = false) (hq : m.plq = [])
    (hc : s.childrenDone k = true) (last : x.teams ≤ x.published + 1) :
    Completes (.teamPublish k) s fun t => t.team k = none ∧ ∀ z, t.task x.id = some z → z.stage = .done ∧ z.frames = [] := by
  obtain ⟨z, hz, published, teams, -⟩ := childrenRetired_task (publishedTeam_task m (by rw [hxid]; exact hx)) k
  refine ⟨_, execTeamPublish_eq hm hx draining on hq hc, ?_, fun y hy => ?_⟩
  · rw [← hid]
    refine (congrArg (smFind · m.id) ((gridDone_teams _ _).trans (childrenRetired_teams _ _))).trans (publishedTeam_team s x m)
  · exact Listed.tidy (gridDone_listed hz (by rw [published, teams]; exact last)) _ (mem_of_smFind hy) rfl

end Sys2Proof.Machine
end

section
/-! PROOFS. Waits that are satisfied, spurious monitor causes, and groups that have ended (05 R138, Table 5.7; 07 R173; 09 R189). -/

namespace Sys2Proof.Machine

/-- A group that exists and is written back is found. -/
theorem setGroup_found {s : State} {x g : Group} {i : Nat} (hi : x.gid = i) (hg : s.group i = some g) :
    (s.setGroup x).group i = some x := by
  rw [State.group_setGroup (g := g) (by rw [hi]; exact hg), if_pos hi.symm]

/-! ### PARK_WAKE (05 R138) -/

theorem wakePath_none (s : State) (g : Group) {p : PathState} (h : p.park = none) : s.wakePath g p = p := by
  unfold State.wakePath
  rw [h]

theorem wakePath_some (s : State) (g : Group) {p : PathState} {v : Park} (h : p.park = some v) :
    s.wakePath g p = if s.parkMet g p v = true then { p with park := none } else p := by
  unfold State.wakePath
  rw [h]

/-- A path slot leaves its park just where its condition holds. -/
theorem wakePath_park (s : State) (g : Group) {p : PathState} {v : Park} (h : p.park = some v) :
    (s.wakePath g p).park = none ↔ s.parkMet g p v = true := by
  rw [wakePath_some s g h]
  by_cases met : s.parkMet g p v = true
  · rw [if_pos met]
    exact ⟨fun _ => met, fun _ => rfl⟩
  · rw [if_neg met, h]
    exact ⟨fun h' => (nomatch h'), fun h' => absurd h' met⟩

theorem wakePath_unmet (s : State) (g : Group) {p : PathState} (h : (p.park.map (s.parkMet g p)).getD false = false) :
    s.wakePath g p = p := by
  cases hp : p.park with
  | none => exact wakePath_none s g hp
  | some v => rw [wakePath_some s g hp, if_neg (by simpa [hp] using h)]

/-- A group after the path slots whose conditions hold have left their parks. -/
def State.woken (s : State) (g : Group) : Group :=
  { g with t := s.wakePath g g.t, f := s.wakePath g g.f, stat := if g.stat = .parked then .ready else g.stat }

theorem woken_of_unmet {s : State} {g : Group} (h : s.waitMet g = false) (parked : g.stat = .parked) : s.woken g = { g with stat := .ready } := by
  obtain ⟨ht, hf⟩ : (g.t.park.map (s.parkMet g g.t)).getD false = false ∧ (g.f.park.map (s.parkMet g g.f)).getD false = false :=
    Bool.or_eq_false_iff.1 h
  unfold State.woken
  rw [wakePath_unmet s g ht, wakePath_unmet s g hf, if_pos parked]

theorem execParkWake_wakes {s : State} {i : Nat} {g : Group} (hg : s.group i = some g)
    (h : s.waitMet g = true ∨ g.stat = .parked ∧ s.parkDone g = true) (hh : g.stat ≠ .halted) :
    execParkWake i s = .next (s.setGroup (s.woken g)) := by
  unfold execParkWake
  rw [hg]
  exact if_neg (by rcases h with h | ⟨h, d⟩ <;> simp_all)

theorem execParkWake_waits {s : State} {i : Nat} {g : Group} (hg : s.group i = some g) (h : s.waitMet g = false)
    (stays : g.stat ≠ .parked ∨ s.choosePath g = none) : execParkWake i s = .next s := by
  unfold execParkWake
  rw [hg]
  exact if_pos (.inl (by rcases stays with h' | h' <;> simp [State.parkDone, h, h']))

/-- What waking does where it writes the group back. -/
theorem parkWake_completes {s : State} {i : Nat} {g : Group} (hg : s.group i = some g) (hi : g.gid = i)
    (h : s.waitMet g = true ∨ g.stat = .parked ∧ s.parkDone g = true) (hh : g.stat ≠ .halted) :
    Completes (.parkWake i) s fun t => t = { s with g := t.g, groups := t.groups } ∧ t.group i = some (s.woken g) :=
  ⟨s.setGroup (s.woken g), execParkWake_wakes hg h hh, State.setGroup_rest _ _, setGroup_found hi hg⟩

/-! ### MONITOR_SPURIOUS (07 R173) -/

theorem Group.path_modPath (g : Group) (f : Bool) (h : PathState → PathState) : (g.modPath f h).path f = h (g.path f) := by cases f <;> rfl

theorem latchPath_mon {g : Group} {f : Bool} {n : Monitor} (h : (g.path f).mon = some n) (c : Cause) :
    ((g.latchPath f c).path f).mon = some (n.latch c) := by
  unfold Group.latchPath
  rw [Group.path_modPath]
  simp [h]

theorem latch_free {n : Monitor} (h : n.cause = none) (c : Cause) : n.latch c = { n with cause := some c } := by
  unfold Monitor.latch
  rw [h]

theorem latch_store {n : Monitor} (h : n.cause = some .store) (c : Cause) : n.latch c = n := by
  unfold Monitor.latch
  rw [h]

theorem State.modGroup_rest (s : State) (k : Nat) (f : Group → Group) :
    s.modGroup k f = { s with g := (s.modGroup k f).g, groups := (s.modGroup k f).groups } := by
  unfold State.modGroup
  split
  · exact s.setGroup_rest _
  · rfl

theorem monitorSpurious_latches {s : State} {i : Nat} {g : Group} {f : Bool} {n : Monitor} (hg : s.group i = some g) (hi : g.gid = i)
    (hn : (g.path f).mon = some n) : Completes (.monitorSpurious i f) s fun t => t = { s with g := t.g, groups := t.groups } ∧
      ∃ h, t.group i = some h ∧ (n.cause = none → (h.path f).mon = some { n with cause := some .spurious }) ∧
        (n.cause = some .store → (h.path f).mon = some n) := by
  refine ⟨s.modGroup i fun g => g.latchPath f .spurious, rfl, State.modGroup_rest _ _ _, g.latchPath f .spurious, ?_, ?_, ?_⟩
  · rw [State.group_modGroup hg (by simp [Group.latchPath, hi]), if_pos rfl]
  · intro free
    rw [latchPath_mon hn, latch_free free]
  · intro stored
    rw [latchPath_mon hn, latch_store stored]

/-! ### GROUP_ENDED (05 Table 5.7; 09 R189) -/

/-- Changes of cores that keep every core's cluster windows. -/
structure KeepsWindows (s t : State) : Prop where
  rest : CoresOnly s t
  wins : ∀ c, (t.core c).wins = (s.core c).wins

theorem KeepsWindows.refl (s : State) : KeepsWindows s s := ⟨.refl s, fun _ => rfl⟩
theorem KeepsWindows.trans {s t u : State} (a : KeepsWindows s t) (b : KeepsWindows t u) : KeepsWindows s u :=
  ⟨a.rest.trans b.rest, fun c => (b.wins c).trans (a.wins c)⟩
theorem KeepsWindows.modCore {s : State} {c : Nat} {f : Core → Core} (h : ∀ k, (f k).wins = k.wins) : KeepsWindows s (s.modCore c f) := by
  refine ⟨.modCore s c f, fun k => ?_⟩
  rw [State.core_modCore]
  split
  · next hk => rw [hk, h]
  · rfl
theorem KeepsWindows.foldl {α : Type} {f : State → α → State} (hf : ∀ s x, KeepsWindows s (f s x)) (l : List α) (s : State) :
    KeepsWindows s (l.foldl f s) := List.foldlRecOn (motive := KeepsWindows s) l f (.refl s) fun _ h x _ => h.trans (hf _ x)

theorem keepsWindows_settleRows (s : State) (team : Nat) : KeepsWindows s (s.settleRows team) := by
  unfold State.settleRows
  dsimp only
  split
  · exact .refl s
  split
  · exact .foldl (fun u c => .modCore (by intro; rfl)) _ s
  · exact .refl s

theorem setGroup_mem (s : State) (x : Group) : (s.setGroup x).mem = s.mem := by rw [s.setGroup_rest]

theorem coresOnly_endGroup (s : State) (g : Group) : CoresOnly (s.setGroup { g with stat := .ended }) (s.endGroup g) :=
  (CoresOnly.modCore (s.setGroup { g with stat := .ended }) g.core _).trans (coresOnly_dropBuckets _ _)

theorem endGroup_group {s : State} {g : Group} {i : Nat} (hg : s.group i = some g) (hi : g.gid = i) :
    (s.endGroup g).group i = some { g with stat := .ended } :=
  ((coresOnly_endGroup s g).group i).trans (setGroup_found (x := { g with stat := .ended }) hi hg)

theorem endGroup_mem (s : State) (g : Group) : (s.endGroup g).mem = s.mem := (coresOnly_endGroup s g).mem.trans (setGroup_mem s _)

/-- A group that has ended has no window left on its core. -/
theorem endGroup_windows (s : State) (g : Group) : ∀ e ∈ ((s.endGroup g).core g.core).wins, e.2.gid ≠ g.gid := by
  let u := (s.setGroup { g with stat := .ended }).modCore g.core fun c => { c with
    wins := smFilter (fun _ w => w.gid ≠ g.gid) c.wins, mons := c.mons.filter fun m => m.1 ≠ g.gid }
  have buckets : KeepsWindows u (u.dropBuckets g.core) := .modCore fun _ => rfl
  rw [show s.endGroup g = u.dropBuckets g.core from rfl, buckets.wins, State.core_modCore, if_pos rfl]
  intro e he
  simpa using List.of_mem_filter he

theorem regroupFaults_of_none {s : State} {g : Group} (h : ∀ y ∈ s.regrouping g.team, bitAt y.2 g.index = false) :
    s.regroupFaults g = s := by
  have none : (s.regrouping g.team).filter (fun x => bitAt x.2 g.index) = [] := List.filter_eq_nil_iff.2 fun y hy => by simp [h y hy]
  unfold State.regroupFaults
  rw [none]
  rfl

/-- Where the ended group leaves its team, and the team's rows. -/
def State.teamSettles (s : State) (g : Group) : State :=
  match s.team g.team with
  | none => s
  | some t =>
    let u := if s.teamEnded t ∧ t.stat = .resident then s.modTeam t.id fun t => { t with stat := .draining } else s
    if (u.encl g.enc).halted then u.settleRows t.id else u

/-- It changes teams, and rows of cores. -/
theorem teamSettles_rest (s : State) (g : Group) : ∃ u, KeepsWindows u (s.teamSettles g) ∧ u = { s with teams := u.teams } := by
  unfold State.teamSettles
  split
  · exact ⟨s, .refl s, rfl⟩
  · next t _ =>
    dsimp only
    refine ⟨if s.teamEnded t ∧ t.stat = .resident then s.modTeam t.id fun t => { t with stat := .draining } else s, ?_, ?_⟩
    · generalize (if s.teamEnded t ∧ t.stat = .resident then s.modTeam t.id fun t => { t with stat := .draining } else s) = u
      split
      · exact keepsWindows_settleRows _ _
      · exact .refl _
    · split
      · exact s.modTeam_rest _ _
      · rfl

theorem execGroupEnded_ends {s : State} {i : Nat} {g : Group} (hg : s.group i = some g) (ending : g.stat = .ending)
    (settled : g.runOver = false) (drained : g.drained = true) (still : s.groupWindowBusy g = false) :
    execGroupEnded i s = .next (((s.endGroup g).regroupFaults g).teamSettles g) := by
  unfold execGroupEnded State.teamSettles
  rw [hg]
  dsimp only
  rw [if_neg (by simp [ending, settled, drained, still])]
  generalize (s.endGroup g).regroupFaults g = u
  cases u.team g.team <;> rfl

theorem groupEnded_ends {s : State} {i : Nat} {g : Group} (hg : s.group i = some g) (hi : g.gid = i) (ending : g.stat = .ending)
    (settled : g.runOver = false) (drained : g.drained = true) (still : s.groupWindowBusy g = false)
    (unnamed : ∀ y ∈ (s.endGroup g).regrouping g.team, bitAt y.2 g.index = false) :
    Completes (.groupEnded i) s fun t => (∃ h, t.group i = some h ∧ h = { g with stat := .ended }) ∧
      (∀ j y, smFind (t.core g.core).wins j = some y → y.gid ≠ i) ∧ ∀ a, memByte t.mem a = memByte s.mem a := by
  obtain ⟨u, stand, rest⟩ := teamSettles_rest ((s.endGroup g).regroupFaults g) g
  refine ⟨_, execGroupEnded_ends hg ending settled drained still, ?_⟩
  rw [regroupFaults_of_none unnamed] at stand rest ⊢
  refine ⟨⟨_, ?_, rfl⟩, fun j y hy => ?_, fun a => ?_⟩
  · rw [stand.rest.group, rest]
    exact endGroup_group hg hi
  · rw [stand.wins, rest] at hy
    rw [← hi]
    exact endGroup_windows s g _ (mem_of_smFind hy)
  · rw [stand.rest.mem, rest]
    exact congrArg (memByte · a) (endGroup_mem s g)

theorem groupEnded_undrained {s : State} {i : Nat} {g : Group} (hg : s.group i = some g) (h : g.drained = false) :
    Completes (.groupEnded i) s fun t => t = s := by
  refine ⟨s, ?_, rfl⟩
  show execGroupEnded i s = _
  unfold execGroupEnded
  rw [hg]
  exact if_pos (by simp [h])

end Sys2Proof.Machine
end

section
/-! PROOFS. RUN_ARBITRATION (05 R135): the winner of a slot is bound for one run, and the slot's other groups age. -/

namespace Sys2Proof.Machine

/-! ### Groups of a slot -/

/-- In a table without duplicates an entry is the one found under its number. -/
theorem smFind_of_mem {α : Type} {m : SMap α} (nodup : (m.map (·.1)).Nodup) {k : Nat} {v : α} (h : (k, v) ∈ m) : smFind m k = some v := by
  induction m with
  | nil => exact nomatch h
  | cons e m ih =>
    obtain ⟨fresh, nodup⟩ := List.nodup_cons.1 nodup
    rcases List.mem_cons.1 h with rfl | h
    · simp [smFind]
    · have hk : k ≠ e.1 := fun hk => fresh (List.mem_map.2 ⟨(k, v), h, hk⟩)
      rw [← ih nodup h]
      simp [smFind, hk]

theorem homeGroups_sublist (s : State) (core slot : Nat) : (s.homeGroups core slot).Sublist s.allGroups :=
  List.filter_sublist.trans List.filter_sublist

theorem candidates_sublist (s : State) (core slot : Nat) : (s.candidates core slot).Sublist (s.homeGroups core slot) := by
  unfold State.candidates
  dsimp only
  split
  · exact List.filter_sublist
  · exact List.filter_sublist.trans List.filter_sublist

theorem allGroups_unfocused {s : State} (h : s.g.gid = 0) : s.allGroups = s.groups.map (·.2) := by
  unfold State.allGroups
  rw [if_pos h]
  rfl

/-- With no group at the focus, a listed group is found under its number. -/
theorem GroupsNamed.listed_found {s : State} (named : GroupsNamed s) (h : s.g.gid = 0) {x : Group} (hx : x ∈ s.allGroups) (h0 : x.gid ≠ 0) :
    s.group x.gid = some x := by
  rw [allGroups_unfocused h] at hx
  obtain ⟨⟨k, x⟩, he, rfl⟩ := List.mem_map.1 hx
  have hk : x.gid = k := named.2.1 _ he
  unfold State.group
  rw [if_neg (by rw [h]; exact Ne.symm h0), hk]
  exact smFind_of_mem named.2.2 he

theorem GroupsNamed.gids_nodup {s : State} (named : GroupsNamed s) (h : s.g.gid = 0) : (s.allGroups.map (·.gid)).Nodup := by
  rw [allGroups_unfocused h, List.map_map]
  exact (List.map_congr_left fun e he => named.2.1 e he) ▸ named.2.2

/-! ### Changes of groups alone -/

/-- From `s` to `t` only groups change, and the group at the focus keeps its number. -/
structure GroupsOnly (s t : State) : Prop where
  rest : t = { s with g := t.g, groups := t.groups }
  gid : t.g.gid = s.g.gid

theorem GroupsOnly.refl (s : State) : GroupsOnly s s := ⟨rfl, rfl⟩
theorem GroupsOnly.trans {s t u : State} (a : GroupsOnly s t) (b : GroupsOnly t u) : GroupsOnly s u :=
  ⟨by rw [b.rest, a.rest], b.gid.trans a.gid⟩
theorem GroupsOnly.foldl {α : Type} {f : State → α → State} (hf : ∀ s x, GroupsOnly s (f s x)) (l : List α) (s : State) :
    GroupsOnly s (l.foldl f s) := List.foldlRecOn (motive := GroupsOnly s) l f (.refl s) fun _ h x _ => h.trans (hf _ x)

theorem groupsOnly_setGroup (s : State) (x : Group) : GroupsOnly s (s.setGroup x) := by
  refine ⟨s.setGroup_rest x, ?_⟩
  unfold State.setGroup
  split
  · next h => exact h.symm
  · rfl

theorem groupsOnly_modGroup (s : State) (k : Nat) (f : Group → Group) : GroupsOnly s (s.modGroup k f) := by
  unfold State.modGroup
  split
  · exact groupsOnly_setGroup s _
  · exact .refl s

/-! ### A run is taken -/

/-- W of a group that is not the winner rises. -/
def State.ageOne (gid : Nat) (s : State) (h : Group) : State :=
  if h.gid = gid then s else s.modGroup h.gid fun h => { h with w := h.w + 1 }

/-- What Y left out counts again. -/
def State.recountOne (s : State) (h : Group) : State := s.modGroup h.gid fun h => { h with yielded := false }

theorem takeRun_eq (s : State) (core slot gid : Nat) : s.takeRun core slot gid =
    (s.homeGroups core slot).foldl State.recountOne ((s.candidates core slot).foldl (State.ageOne gid) s) := rfl

theorem groupsOnly_ageOne (gid : Nat) (s : State) (h : Group) : GroupsOnly s (s.ageOne gid h) := by
  unfold State.ageOne
  split
  · exact .refl s
  · exact groupsOnly_modGroup s _ _

theorem groupsOnly_takeRun (s : State) (core slot gid : Nat) : GroupsOnly s (s.takeRun core slot gid) := by
  rw [takeRun_eq]
  exact (GroupsOnly.foldl (groupsOnly_ageOne gid) _ s).trans (.foldl (fun s h => groupsOnly_modGroup s _ _) _ _)

/-- A change under another number leaves a group as it is. -/
theorem group_modGroup_ne {s : State} (named : s.Named) {k i : Nat} {f : Group → Group} (hf : ∀ g, (f g).gid = g.gid) (hi : i ≠ k) :
    (s.modGroup k f).group i = s.group i := by
  cases hg : s.group k with
  | none =>
    unfold State.modGroup
    rw [hg]
  | some g => rw [State.group_modGroup hg ((hf g).trans (named k g hg)), if_neg hi]

theorem group_modGroup_self {s : State} (named : s.Named) {k : Nat} {g : Group} {f : Group → Group} (hf : ∀ g, (f g).gid = g.gid)
    (hg : s.group k = some g) : (s.modGroup k f).group k = some (f g) := by
  rw [State.group_modGroup hg ((hf g).trans (named k g hg)), if_pos rfl]

theorem named_modGroup {s : State} (named : s.Named) (k : Nat) {f : Group → Group} (hf : ∀ g, (f g).gid = g.gid ∧ (f g).stat = g.stat ∧
    (f g).stopped = g.stopped) : (s.modGroup k f).Named := ((becomes_modGroup (q := .halted) s k hf) named).1

theorem named_ageOne {s : State} (named : s.Named) (gid : Nat) (h : Group) : (s.ageOne gid h).Named := by
  unfold State.ageOne
  split
  · exact named
  · exact named_modGroup named _ fun _ => ⟨rfl, rfl, rfl⟩

theorem named_recountOne {s : State} (named : s.Named) (h : Group) : (s.recountOne h).Named := named_modGroup named _ fun _ => ⟨rfl, rfl, rfl⟩

theorem ageOne_ne {s : State} (named : s.Named) (gid : Nat) {h : Group} {i : Nat} (hi : i ≠ h.gid) : (s.ageOne gid h).group i = s.group i := by
  unfold State.ageOne
  split
  · rfl
  · exact group_modGroup_ne named (fun _ => rfl) hi

theorem ageOne_self {s : State} (named : s.Named) {gid : Nat} {h g : Group} (hw : h.gid ≠ gid) (hg : s.group h.gid = some g) :
    (s.ageOne gid h).group h.gid = some { g with w := g.w + 1 } := by
  unfold State.ageOne
  rw [if_neg hw]
  exact group_modGroup_self (f := fun h => { h with w := h.w + 1 }) named (fun _ => rfl) hg

/-- Ageing a list that does not hold a group leaves it. -/
theorem ageAll_ne (gid : Nat) {i : Nat} {l : List Group} (hi : ∀ h ∈ l, i ≠ h.gid) {s : State} (named : s.Named) :
    (l.foldl (State.ageOne gid) s).Named ∧ (l.foldl (State.ageOne gid) s).group i = s.group i :=
  List.foldlRecOn (motive := fun t : State => t.Named ∧ t.group i = s.group i) l _ ⟨named, rfl⟩ fun _ ⟨named, same⟩ h hh =>
    ⟨named_ageOne named gid h, (ageOne_ne named gid (hi h hh)).trans same⟩

/-- Ageing a list that holds a group once ages it by 1. -/
theorem ageAll_self {gid : Nat} {l : List Group} (nodup : (l.map (·.gid)).Nodup) {h g : Group} (hh : h ∈ l) (hw : h.gid ≠ gid) {s : State}
    (named : s.Named) (hg : s.group h.gid = some g) : (l.foldl (State.ageOne gid) s).group h.gid = some { g with w := g.w + 1 } := by
  obtain ⟨a, b, rfl⟩ := List.append_of_mem hh
  rw [List.map_append, List.map_cons, List.nodup_append] at nodup
  obtain ⟨-, nodup, apart⟩ := nodup
  have before : ∀ x ∈ a, h.gid ≠ x.gid := fun x hx => (apart x.gid (List.mem_map_of_mem hx) h.gid List.mem_cons_self).symm
  have after : ∀ x ∈ b, h.gid ≠ x.gid := fun x hx same => (List.nodup_cons.1 nodup).1 (same ▸ List.mem_map_of_mem hx)
  obtain ⟨named', found⟩ := ageAll_ne gid before named
  rw [List.foldl_append, List.foldl_cons, (ageAll_ne gid after (named_ageOne named' gid h)).2]
  exact ageOne_self named' hw (found.trans hg)

theorem ageAll_found {gid i : Nat} {g : Group} (l : List Group) {s : State} (named : s.Named) (hg : s.group i = some g) :
    (l.foldl (State.ageOne gid) s).Named ∧ ∃ h, (l.foldl (State.ageOne gid) s).group i = some h := by
  refine List.foldlRecOn (motive := fun t : State => t.Named ∧ ∃ h, t.group i = some h) l _ ⟨named, g, hg⟩
    fun _ ⟨named, h, found⟩ x _ => ?_
  refine ⟨named_ageOne named gid x, ?_⟩
  by_cases hi : i = x.gid
  · by_cases hw : x.gid = gid
    · exact ⟨h, by unfold State.ageOne; rw [if_pos hw, found]⟩
    · subst hi
      exact ⟨_, ageOne_self named hw found⟩
  · exact ⟨h, (ageOne_ne named gid hi).trans found⟩

/-- A group keeps W as one of its slot is counted again, and has then not yielded where it is that one or had not before. -/
theorem recountOne_found {s : State} {i : Nat} {x k : Group} (named : s.Named) (hk : s.group i = some k) :
    ∃ k', (s.recountOne x).group i = some k' ∧ k'.w = k.w ∧ (k.yielded = false ∨ i = x.gid → k'.yielded = false) := by
  let f (h : Group) : Group := { h with yielded := false }
  by_cases hx : i = x.gid
  · subst hx
    exact ⟨f k, group_modGroup_self (f := f) named (fun _ => rfl) hk, rfl, fun _ => rfl⟩
  · refine ⟨k, (group_modGroup_ne (f := f) named (fun _ => rfl) hx).trans hk, rfl, fun yielded => ?_⟩
    exact yielded.elim id fun same => absurd same hx

/-- After what Y left out counts again, a group of the slot has not yielded, and W stands. -/
theorem recountAll_self {l : List Group} {h : Group} (hh : h ∈ l) {g : Group} {s : State} (named : s.Named) (hg : s.group h.gid = some g) :
    ∃ k, (l.foldl State.recountOne s).group h.gid = some k ∧ k.yielded = false ∧ k.w = g.w := by
  have ends := foldl_reaches (f := State.recountOne) (s := s)
    (P := fun s : State => s.Named ∧ ∃ k, s.group h.gid = some k ∧ k.w = g.w)
    (Q := fun s : State => s.Named ∧ ∃ k, s.group h.gid = some k ∧ k.yielded = false ∧ k.w = g.w)
    (fun s x ⟨named, k, hk, w⟩ => by
      obtain ⟨k', hk', w', -⟩ := recountOne_found (x := x) named hk
      exact ⟨named_recountOne named x, k', hk', w'.trans w⟩)
    (fun s x ⟨named, k, hk, yielded, w⟩ => by
      obtain ⟨k', hk', w', left⟩ := recountOne_found (x := x) named hk
      exact ⟨named_recountOne named x, k', hk', left (.inl yielded), w'.trans w⟩)
    (fun s ⟨named, k, hk, w⟩ => by
      obtain ⟨k', hk', w', left⟩ := recountOne_found (x := h) named hk
      exact ⟨named_recountOne named h, k', hk', left (.inr rfl), w'.trans w⟩) hh ⟨named, g, hg, rfl⟩
  exact ends.2

/-- What a taken run does to another group of the slot. -/
theorem takeRun_others {s : State} {core slot gid : Nat} (named : GroupsNamed s) (unfocused : s.g.gid = 0) {h : Group}
    (hh : h ∈ s.homeGroups core slot) (h0 : h.gid ≠ 0) (hw : h.gid ≠ gid) :
    ∃ g, (s.takeRun core slot gid).group h.gid = some g ∧ g.yielded = false ∧ (h ∈ s.candidates core slot → g.w = h.w + 1) := by
  have found := named.listed_found unfocused ((homeGroups_sublist s core slot).subset hh) h0
  obtain ⟨named', g, hg⟩ := ageAll_found (gid := gid) (s.candidates core slot) named.found found
  obtain ⟨k, hk, yielded, w⟩ := recountAll_self hh named' hg
  refine ⟨k, hk, yielded, fun hc => ?_⟩
  have listed := (candidates_sublist s core slot).trans (homeGroups_sublist s core slot)
  have nodup : ((s.candidates core slot).map (·.gid)).Nodup := (named.gids_nodup unfocused).sublist (listed.map _)
  rw [ageAll_self nodup hc hw named.found found, Option.some.injEq] at hg
  rw [w, ← hg]

/-! ### The slot's winner -/

theorem Core.slot_modSlot (c : Core) (x : Nat) (f : Slot → Slot) : (c.modSlot x f).slot x = f (c.slot x) := by
  unfold Core.modSlot Core.slot
  by_cases h : x = 0 <;> simp [h]

theorem Quiet.bound {s t : State} (q : Quiet s t) (c x : Nat) : ((t.core c).slot x).bound = ((s.core c).slot x).bound := by
  have arch (k : Core) : (k.arch.slot x).bound = (k.slot x).bound := by
    unfold Core.arch Core.slot
    split <;> rfl
  rw [← arch, q.cores, arch]

theorem unfocus_of_none {s : State} (hf : s.focus = .none) (hg : s.g.gid = 0) : s.unfocus = s := by
  unfold State.unfocus
  rw [if_pos hg, ← hf]

theorem group_focusOn {s : State} {g : Group} {core slot k : Nat} (hk : k ≠ g.gid) (hs : s.g.gid ≠ k) :
    (s.focusOn g core slot).group k = s.group k := by
  unfold State.group State.focusOn
  rw [if_neg (Ne.symm hk), if_neg hs, smFind_smErase, if_neg hk]

/-- The winner as it takes its run. -/
def Group.boundTo (w : Group) (f : Bool) (streak : Nat) : Group :=
  { w with stat := .bound, yielded := false, w := 0, curF := f, afterSplit := false, streak := streak }

/-- The slot is bound to its winner, which comes to the focus. -/
def State.bindRun (s : State) (core slot : Nat) (w : Group) : State :=
  ((s.takeRun core slot w.gid).modCore core fun c => c.modSlot slot fun x => { x with bound := some w.gid, last := some w.gid })

theorem quiet_spendUnless (p : Prop) [Decidable p] (s : State) (leaf n : Nat) : Quiet s (if p then s else s.spend leaf n) := by
  split
  · exact .refl s
  · exact quiet_spend s leaf n

theorem arbitrate_winner {s : State} {core slot : Nat} {w : Group} {f : Bool} (hf : s.focus = .none) (hg : s.g.gid = 0)
    (free : ((s.core core).slot slot).bound = none) (hw : s.winner core slot = some w) (path : s.choosePath w = some f) :
    ∃ streak, Quiet ((s.bindRun core slot w).focusOn (w.boundTo f streak) core slot) (s.arbitrate core slot) := by
  refine ⟨if !s.pathReady w (!f) then 0 else if f = w.lastF then w.streak + 1 else 1, ?_⟩
  unfold State.arbitrate
  rw [unfocus_of_none hf hg]
  dsimp only
  rw [free]
  dsimp only [Option.bind_none]
  rw [hw]
  dsimp only
  rw [path]
  dsimp only [Option.getD_some]
  exact quiet_spendUnless _ _ _ _

theorem runArbitration_idle {s : State} {core slot : Nat} (hf : s.focus = .none) (hg : s.g.gid = 0)
    (free : ((s.core core).slot slot).bound = none) (hw : s.winner core slot = none) :
    Completes (.runArbitration core slot) s fun t => t = s := by
  refine ⟨s.arbitrate core slot, rfl, ?_⟩
  unfold State.arbitrate
  rw [unfocus_of_none hf hg]
  dsimp only
  rw [free]
  dsimp only [Option.bind_none]
  rw [hw]

theorem runArbitration_binds {s : State} {core slot : Nat} {w : Group} {f : Bool} (hf : s.focus = .none) (hg : s.g.gid = 0)
    (free : ((s.core core).slot slot).bound = none) (hw : s.winner core slot = some w) (path : s.choosePath w = some f) :
    Completes (.runArbitration core slot) s fun t =>
      t.focus = .slot core slot ∧
      t.g = { w with stat := .bound, yielded := false, w := 0, curF := f, afterSplit := false, streak := t.g.streak } ∧
      ((t.core core).slot slot).bound = some w.gid ∧ t.mem = s.mem ∧
      (GroupsNamed s → ∀ h ∈ s.homeGroups core slot, h.gid ≠ 0 → h.gid ≠ w.gid → ∃ g, t.group h.gid = some g ∧ g.yielded = false ∧
        (h ∈ s.candidates core slot → g.w = h.w + 1)) := by
  obtain ⟨streak, quiet⟩ := arbitrate_winner hf hg free hw path
  have taken := groupsOnly_takeRun s core slot w.gid
  refine ⟨s.arbitrate core slot, rfl, by rw [quiet.rest]; rfl, by rw [quiet.g]; rfl, ?bound, ?mem, fun named h hh h0 hne => ?others⟩
  case bound =>
    rw [quiet.bound]
    show (((s.bindRun core slot w).core core).slot slot).bound = some w.gid
    unfold State.bindRun
    rw [State.core_modCore, if_pos rfl, Core.slot_modSlot]
  case mem =>
    rw [quiet.mem]
    exact (congrArg State.mem taken.rest :)
  case others =>
    obtain ⟨g, hg', ends⟩ := takeRun_others named hg hh h0 hne
    refine ⟨g, ?_, ends⟩
    have unfocused : (s.bindRun core slot w).g.gid ≠ h.gid := by
      rw [show (s.bindRun core slot w).g.gid = 0 from taken.gid.trans hg]
      exact Ne.symm h0
    rw [quiet.coresOnly.group, group_focusOn (g := w.boundTo f streak) hne unfocused]
    exact hg'

theorem runArbitration_goesOn {s : State} {core slot i : Nat} {w : Group} (hf : s.focus = .none) (hg : s.g.gid = 0)
    (held : ((s.core core).slot slot).bound = some i) (hw : s.group i = some w) :
    Completes (.runArbitration core slot) s fun t => t.focus = .slot core slot ∧ t.g = w ∧ t.cores = s.cores ∧ t.mem = s.mem := by
  refine ⟨s.focusOn w core slot, ?_, rfl, rfl, rfl, rfl⟩
  show Host.Outcome.next (s.arbitrate core slot) = _
  unfold State.arbitrate
  rw [unfocus_of_none hf hg]
  dsimp only
  rw [held]
  dsimp only [Option.bind_some]
  rw [hw]

end Sys2Proof.Machine
end

section
/-! PROOFS. PLACEMENT_ATTEMPT (05 R133; 08 R177): a task's next team starts, its groups as the record says. -/

namespace Sys2Proof.Machine

/-! ### A group as it starts (01 R12; 05 R123) -/

/-- Of writes to distinct keys each is read back. -/
theorem smGet_smSetAll_of_mem {α : Type} [DecidableEq α] (d : α) {ws : List (Nat × α)} (nodup : (ws.map (·.1)).Nodup) {k : Nat} {v : α}
    (h : (k, v) ∈ ws) (m : SMap α) : smGet d (smSetAll d m ws) k = v := by
  induction ws generalizing m with
  | nil => exact nomatch h
  | cons w ws ih =>
    obtain ⟨fresh, nodup⟩ := List.nodup_cons.1 nodup
    rcases List.mem_cons.1 h with rfl | h
    · refine (smGet_smSetAll_of_not_mem d ws k (smSet d m k v) fun x hx same => fresh (List.mem_map.2 ⟨x, hx, same⟩)).trans ?_
      exact smGet_smSet_self d m k v
    · exact ih nodup h (smSet d m w.1 w.2)

/-- The fixed registers of group `i` of a team at its start. -/
def startFix (x : Task) (ix i : Nat) : List (Nat × Word) :=
  ((List.range 8).map fun k => (48 + k, BitVec.ofNat 64 (recDw x.rcd (0x40 + 8 * k)))) ++
    [(56, BitVec.ofNat 64 (x.grid * 2 ^ 24 + ix * 2 ^ 8 + i)),
     (57, BitVec.ofNat 64 (x.depth * 2 ^ 28 + x.teams * 2 ^ 8 + (if x.pair then i % 2 else 0) * 2 ^ 7 + b2n x.pair * 2 ^ 6 + x.groups)),
     (58, BitVec.ofNat 64 (0x800000 + 64 * bitsAt (recDw x.rcd 0x18) 32 16))]

theorem startFix_nodup (x : Task) (ix i : Nat) : ((startFix x ix i).map (·.1)).Nodup := by
  have keys : (startFix x ix i).map (·.1) = (List.range 8).map (48 + ·) ++ [56, 57, 58] := by
    unfold startFix
    rw [List.map_append, List.map_map]
    rfl
  rw [keys]
  decide

section
variable (x : Task) (h : Heap) (team ix core slot resid gid i : Nat)

theorem startGroup_fix {a : Reg} (ha : 48 ≤ a.toNat) (ha' : a.toNat < 60) {v : Word} (hv : (a.toNat, v) ∈ startFix x ix i) :
    (startGroup x h team ix core slot resid gid i).sr a = v :=
  (Group.sr_fix _ a ha ha').trans (smGet_smSetAll_of_mem 0 (startFix_nodup x ix i) hv [])

/-- The record's arguments are in s48 to s55. -/
theorem startGroup_args {a : Reg} (ha : 48 ≤ a.toNat) (ha' : a.toNat < 56) :
    (startGroup x h team ix core slot resid gid i).sr a = BitVec.ofNat 64 (recDw x.rcd (0x40 + 8 * (a.toNat - 48))) := by
  refine startGroup_fix x h team ix core slot resid gid i ha (by omega) (List.mem_append_left _ ?_)
  exact List.mem_map.2 ⟨a.toNat - 48, List.mem_range.2 (by omega), by rw [Nat.add_sub_cancel' ha]⟩

/-- s56 names the group. -/
theorem startGroup_ident : (startGroup x h team ix core slot resid gid i).sr 56 = BitVec.ofNat 64 (x.grid * 2 ^ 24 + ix * 2 ^ 8 + i) :=
  startGroup_fix x h team ix core slot resid gid i (by decide) (by decide) (List.mem_append_right _ List.mem_cons_self)

end

/-! ### A team starts -/

/-- A fresh number is above every group's. -/
theorem gid_lt_newId (s : State) : s.g.gid < s.newId := by
  by_cases h0 : s.g.gid = 0
  · unfold State.newId
    omega
  · have first : s.g.gid ∈ s.allGroups.map (·.gid) := List.mem_map_of_mem (by simp [State.allGroups, h0])
    have below := le_foldl_max_of_mem s.seq (List.mem_append_left (s.tasks.map (·.1)) (List.mem_append_left (s.teams.map (·.1)) first))
    unfold State.newId
    omega

/-- Group `i` of a team starts. -/
def State.startOne (x : Task) (heap : Heap) (m : Team) (first : Nat) (s : State) (i : Nat) : State :=
  let core := m.cores.getD (if x.pair then i % 2 else 0) 0
  let g := startGroup x heap m.id m.index core (s.homeSlot core) (s.freeResid core) (first + i) i
  { s with groups := smPut s.groups (first + i) g }

/-- The state in which a team stands on its cores, before its groups start. -/
def State.teamStands (s : State) (x : Task) (m : Team) : State :=
  let s := m.cores.foldl (fun s c => s.modCore c (·.giveBucket (s.viOf x.enc))) s
  { s with teams := smPut s.teams m.id { m with stat := .resident, gids := addrs s.newId x.groups } }

/-- A task has one more team placed. -/
def Task.placedOne (x : Task) (cores : List Nat) : Task :=
  { x with placed := x.placed + 1, stage := .running, ranOn := cores.foldl (fun b c => b ||| 2 ^ dieOfCore c) x.ranOn }

/-- The heap that a task's groups begin with. -/
def State.heapOf (s : State) (x : Task) : Heap := ((s.encl x.enc).heaps[(s.encl x.enc).heapOf x.queue]?).getD ⟨0, 0, 0, 0⟩

theorem coresOnly_giveBuckets (s : State) (x : Task) (cs : List Nat) :
    CoresOnly s (cs.foldl (fun s c => s.modCore c (·.giveBucket (s.viOf x.enc))) s) := .foldl (fun _ _ => .modCore _ _ _) cs s

theorem newId_congr {s t : State} (a : CoresOnly s t) : t.newId = s.newId := by
  rw [show t = { s with cores := t.cores } from a]
  rfl

theorem CoresOnly.g {s t : State} (a : CoresOnly s t) : t.g = s.g := by rw [show t = { s with cores := t.cores } from a]

theorem teamStands_g (s : State) (x : Task) (m : Team) : (s.teamStands x m).g = s.g := (coresOnly_giveBuckets s x m.cores).g

theorem teamStands_team (s : State) (x : Task) (m : Team) :
    (s.teamStands x m).team m.id = some { m with stat := .resident, gids := addrs s.newId x.groups } := by
  rw [← newId_congr (coresOnly_giveBuckets s x m.cores)]
  exact (smFind_smPut _ _ _ _).trans (if_pos rfl)

theorem startTeam_eq (s : State) (x : Task) (m : Team) : s.startTeam x m =
    ((List.range x.groups).foldl (State.startOne x (s.heapOf x) m s.newId) (s.teamStands x m)).modTask x.id fun x => x.placedOne m.cores := by
  unfold State.startTeam State.teamStands
  dsimp only
  rw [newId_congr (coresOnly_giveBuckets s x m.cores)]
  rfl

/-- The groups of a team once the first `n` have started: nothing else has changed. -/
theorem startOnes (x : Task) (heap : Heap) (m : Team) (first : Nat) (s : State) (n : Nat) :
    ∃ gs, (List.range n).foldl (State.startOne x heap m first) s = { s with groups := gs } ∧
      ∀ j < n, ∃ core slot resid, smFind gs (first + j) = some (startGroup x heap m.id m.index core slot resid (first + j) j) := by
  induction n with
  | zero => exact ⟨s.groups, rfl, fun j hj => absurd hj (by omega)⟩
  | succ n ih =>
    obtain ⟨gs, same, started⟩ := ih
    rw [List.range_succ, List.foldl_append, same]
    refine ⟨_, rfl, fun j hj => ?_⟩
    by_cases hn : j = n
    · subst hn
      exact ⟨_, _, _, (smFind_smPut _ _ _ _).trans (if_pos rfl)⟩
    · obtain ⟨core, slot, resid, found⟩ := started j (by omega)
      exact ⟨core, slot, resid, (smFind_smPut _ _ _ _).trans ((if_neg (by omega)).trans found)⟩

/-- A team that has started: it is RESIDENT with its groups, each as the record says. -/
def State.Started (s : State) (x : Task) (m : Team) : Prop := ∃ y, s.team m.id = some y ∧ y.stat = .resident ∧ y.gids.length = x.groups ∧
  ∀ j < x.groups, ∃ heap core slot resid gid, s.group (y.gids.getD j 0) = some (startGroup x heap m.id m.index core slot resid gid j)

theorem startTeam_started (s : State) (x : Task) (m : Team) : (s.startTeam x m).Started x m := by
  obtain ⟨gs, same, started⟩ := startOnes x (s.heapOf x) m s.newId (s.teamStands x m) x.groups
  refine ⟨{ m with stat := .resident, gids := addrs s.newId x.groups }, ?found, rfl, by simp [addrs], fun j hj => ?groups⟩
  case found =>
    rw [startTeam_eq, State.team_modTask, same]
    exact teamStands_team s x m
  case groups =>
    obtain ⟨core, slot, resid, found⟩ := started j hj
    refine ⟨s.heapOf x, core, slot, resid, s.newId + j, ?_⟩
    have nth : (addrs s.newId x.groups).getD j 0 = s.newId + j := by simp [addrs, hj]
    have below := gid_lt_newId s
    rw [nth, startTeam_eq, State.group_modTask, same]
    unfold State.group
    rw [if_neg (by rw [show ({ s.teamStands x m with groups := gs } : State).g = s.g from teamStands_g s x m]; omega)]
    exact found

theorem startTeam_task {s : State} {x : Task} (m : Team) (hx : s.task x.id = some x) :
    (s.startTeam x m).task x.id = some (x.placedOne m.cores) := by
  obtain ⟨gs, same, -⟩ := startOnes x (s.heapOf x) m s.newId (s.teamStands x m) x.groups
  have stands : TablesStand s ((m.cores).foldl (fun s c => s.modCore c (·.giveBucket (s.viOf x.enc))) s) :=
    (coresOnly_giveBuckets s x m.cores).tables
  rw [startTeam_eq, State.task_modTask, if_pos rfl, same]
  exact congrArg (Option.map fun x => x.placedOne m.cores) ((stands.task x.id).trans hx)

/-! ### The attempt -/

theorem recall_of_none {s : State} (h : ∀ y ∈ s.teams, y.2.stat ≠ .evicted) : s.recall = s := by
  have none : (s.teams.filter fun t => t.2.stat = .evicted && t.2.gids.any fun i => ((s.group i).map s.parkDone).getD false) = [] :=
    List.filter_eq_nil_iff.2 fun y hy => by simp [h y hy]
  unfold State.recall
  rw [none]
  rfl

/-- With no team to recall or return, an attempt is a matter of the listed tasks. -/
theorem execPlacementAttempt_eq {s : State} {part : Nat} (h : ∀ y ∈ s.teams, y.2.stat ≠ .evicted) (back : s.returning part = []) :
    execPlacementAttempt part s = .next ((s.placeList part).foldl (fun s t => s.placeTask t 65536) s) := by
  unfold execPlacementAttempt
  rw [recall_of_none h]
  dsimp only
  rw [back]
  rfl

/-- A task with no team left to place is passed by. -/
theorem placeTask_full {s : State} {k : Nat} {x : Task} (hx : s.task k = some x) (full : x.teams ≤ x.placed) (n : Nat) :
    s.placeTask k n = s := by
  cases n with
  | zero => rfl
  | succ n =>
    rw [State.placeTask, hx]
    exact if_pos (.inr full)

/-- What follows the search for a task's next place: its team starts there and the next one is tried, or nothing more happens. -/
def State.afterSearch (x : Task) (k n : Nat) : Option Team × State → State
  | (some m, u) => (u.startTeam x m).placeTask k n
  | (none, u) => u

/-- One step of a task's placement, where no team with a fixed place is next. -/
theorem placeTask_succ {s : State} {k n : Nat} {x : Task} (hx : s.task k = some x) (on : x.over = false) (more : x.placed < x.teams)
    (free : s.teams.find? (fun y => y.2.task = k && y.2.index = x.placed && y.2.stat = .waiting && y.2.gids.isEmpty) = none) :
    s.placeTask k (n + 1) = State.afterSearch x k n (State.takeEvicting x (fun z => z.seatTeam x x.placed (z.places x)) 32 s) := by
  rw [State.placeTask, hx]
  dsimp only
  rw [if_neg (by simp [on, more]), free]
  dsimp only
  generalize State.takeEvicting x (fun z => z.seatTeam x x.placed (z.places x)) 32 s = found
  obtain ⟨_ | m, u⟩ := found <;> rfl

theorem placementAttempt_idle {s : State} {part : Nat} (h : ∀ y ∈ s.teams, y.2.stat ≠ .evicted) (back : s.returning part = [])
    (none : s.placeList part = []) : Completes (.placementAttempt part) s fun t => t = s := by
  refine ⟨s, ?_, rfl⟩
  show execPlacementAttempt part s = _
  rw [execPlacementAttempt_eq h back, none]
  rfl

/-- An attempt on one listed task whose last team is to be placed. -/
theorem execPlacementAttempt_last {s : State} {part k : Nat} {x : Task} (h : ∀ y ∈ s.teams, y.2.stat ≠ .evicted)
    (back : s.returning part = []) (one : s.placeList part = [k]) (hx : s.task k = some x) (on : x.over = false)
    (last : x.placed + 1 = x.teams)
    (free : s.teams.find? (fun y => y.2.task = k && y.2.index = x.placed && y.2.stat = .waiting && y.2.gids.isEmpty) = none) :
    execPlacementAttempt part s =
      .next (State.afterSearch x k 65535 (State.takeEvicting x (fun z => z.seatTeam x x.placed (z.places x)) 32 s)) := by
  rw [execPlacementAttempt_eq h back, one, ← placeTask_succ hx on (by omega) free]
  rfl

theorem placementAttempt_fails {s u : State} {part k : Nat} {x : Task} (h : ∀ y ∈ s.teams, y.2.stat ≠ .evicted)
    (back : s.returning part = []) (one : s.placeList part = [k]) (hx : s.task k = some x) (on : x.over = false)
    (last : x.placed + 1 = x.teams)
    (free : s.teams.find? (fun y => y.2.task = k && y.2.index = x.placed && y.2.stat = .waiting && y.2.gids.isEmpty) = none)
    (take : State.takeEvicting x (fun z => z.seatTeam x x.placed (z.places x)) 32 s = (none, u)) :
    Completes (.placementAttempt part) s fun t => t = u := by
  refine ⟨u, (execPlacementAttempt_last h back one hx on last free).trans ?_, rfl⟩
  rw [take]
  rfl

theorem placementAttempt_starts {s u : State} {part k : Nat} {x : Task} {m : Team} (h : ∀ y ∈ s.teams, y.2.stat ≠ .evicted)
    (back : s.returning part = []) (one : s.placeList part = [k]) (hx : s.task k = some x) (hid : x.id = k) (on : x.over = false)
    (last : x.placed + 1 = x.teams)
    (free : s.teams.find? (fun y => y.2.task = k && y.2.index = x.placed && y.2.stat = .waiting && y.2.gids.isEmpty) = none)
    (take : State.takeEvicting x (fun z => z.seatTeam x x.placed (z.places x)) 32 s = (some m, u)) (hu : u.task k = some x) :
    Completes (.placementAttempt part) s fun t => t.Started x m ∧ t.task k = some (x.placedOne m.cores) := by
  have placed : (u.startTeam x m).task k = some (x.placedOne m.cores) := by
    rw [← hid]
    exact startTeam_task m (by rw [hid]; exact hu)
  refine ⟨u.startTeam x m, (execPlacementAttempt_last h back one hx on last free).trans ?_, startTeam_started u x m, placed⟩
  rw [take]
  exact congrArg Host.Outcome.next (placeTask_full placed (by show x.teams ≤ x.placed + 1; omega) 65535)

end Sys2Proof.Machine
end

section
/-! PROOFS. The obligation on placement, runs, waits and ends (O48), from the rules of each event. -/

namespace Sys2Proof.Machine

/-! ### The parts of O48 in its own words -/

/-- What a started team's groups begin with (05 R123). -/
theorem started_groups {t : State} {x : Task} {m : Team} (h : t.Started x m) :
    ∃ y, t.team m.id = some y ∧ y.stat = .resident ∧ y.gids.length = x.groups ∧
      ∀ j < x.groups, ∃ g, t.group (y.gids.getD j 0) = some g ∧ g.stat = .ready ∧ g.team = m.id ∧ g.enc = x.enc ∧
        g.t.stat = .live ∧ g.f.stat = .free ∧ g.t.pc = BitVec.ofNat 57 (recDw x.rcd 0) ∧
        g.t.mask = BitVec.ofNat 96 (2 ^ bitsAt (recDw x.rcd 8) 24 7 - 1) ∧
        (∀ a : Reg, 48 ≤ a.toNat → a.toNat < 56 → g.sr a = BitVec.ofNat 64 (recDw x.rcd (0x40 + 8 * (a.toNat - 48)))) ∧
        g.sr 56 = BitVec.ofNat 64 (x.grid * 2 ^ 24 + m.index * 2 ^ 8 + j) := by
  obtain ⟨y, hy, resident, count, start⟩ := h
  refine ⟨y, hy, resident, count, fun j hj => ?_⟩
  obtain ⟨heap, core, slot, resid, gid, found⟩ := start j hj
  exact ⟨_, found, rfl, rfl, rfl, rfl, rfl, rfl, rfl, fun _ ha ha' => startGroup_args x heap m.id m.index core slot resid gid j ha ha',
    startGroup_ident x heap m.id m.index core slot resid gid j⟩

/-- A wait that is satisfied wakes its path slots (05 R138). -/
theorem parkWake_met {s : State} {i : Nat} {w : Group} (hw : s.group i = some w) (hi : w.gid = i) (hh : w.stat ≠ .halted)
    (met : s.waitMet w = true) : Completes (.parkWake i) s fun t => t = { s with g := t.g, groups := t.groups } ∧
      ∃ g, t.group i = some g ∧ (w.stat = .parked → g.stat = .ready) ∧
        (∀ v, w.t.park = some v → (g.t.park = none ↔ s.parkMet w w.t v = true)) ∧
        (∀ v, w.f.park = some v → (g.f.park = none ↔ s.parkMet w w.f v = true)) := by
  obtain ⟨t, ht, rest, found⟩ := parkWake_completes hw hi (.inl met) hh
  exact ⟨t, ht, rest, s.woken w, found, fun parked => if_pos parked, fun _ hv => wakePath_park s w hv, fun _ hv => wakePath_park s w hv⟩

/-- So does a path slot that is ready while the other waits at the join (05 Table 5.7). -/
theorem parkWake_joined {s : State} {i : Nat} {w : Group} (hw : s.group i = some w) (hi : w.gid = i) (unmet : s.waitMet w = false)
    (parked : w.stat = .parked) (path : (s.choosePath w).isSome = true) : Completes (.parkWake i) s fun t =>
      t = { s with g := t.g, groups := t.groups } ∧ ∃ g, t.group i = some g ∧ g = { w with stat := .ready } := by
  obtain ⟨t, ht, rest, found⟩ :=
    parkWake_completes hw hi (.inr ⟨parked, by simp [State.parkDone, path]⟩) (by rw [parked]; decide)
  exact ⟨t, ht, rest, _, found, woken_of_unmet unmet parked⟩

theorem parkWake_waits {s : State} {i : Nat} {w : Group} (hw : s.group i = some w) (unmet : s.waitMet w = false)
    (stays : w.stat ≠ .parked ∨ s.choosePath w = none) : Completes (.parkWake i) s fun t => t = s :=
  ⟨s, execParkWake_waits hw unmet stays, rfl⟩

end Sys2Proof.Machine

namespace Sys2Proof.Proofs
open Sys2Proof Sys2Proof.Machine

/-- Settles O48: each clause by the rule of its event, over every state that meets its premises. -/
theorem placementAndEnds : Obligations.PlacementAndEnds := by
  unfold Obligations.PlacementAndEnds
  intro s u part core slot i k e x m w f r n is all takeNext closed
  refine ⟨?placement, ?runs, ?waits, ?teams, ?tasks, ?slices⟩
  case placement =>
    refine fun recalled back => ⟨placementAttempt_idle recalled back, fun one hx hid on last free => ⟨fun take => ?_, fun take hu => ?_⟩⟩
    · exact placementAttempt_fails recalled back one hx on last free take
    · obtain ⟨t, ht, started, placed⟩ := placementAttempt_starts recalled back one hx hid on last free take hu
      exact ⟨t, ht, started_groups started, by rw [placed, Task.placedOne, last]⟩
  case runs =>
    intro hf hg
    exact ⟨fun free => ⟨runArbitration_idle hf hg free, runArbitration_binds hf hg free⟩, runArbitration_goesOn hf hg⟩
  case waits =>
    intro hw hi
    exact ⟨parkWake_met hw hi, parkWake_joined hw hi, parkWake_waits hw, monitorSpurious_latches hw hi, groupEnded_ends hw hi,
      fun _ => groupEnded_undrained hw⟩
  case teams =>
    intro hm hid hx hxid draining on
    refine ⟨fun hq hc running _ => ⟨?_, ?_⟩, teamPublish_waits hm hx⟩
    · exact teamPublish_counts hm hid hx hxid draining on hq hc running
    · exact teamPublish_ends hm hid hx hxid draining on hq hc
  case tasks =>
    intro hx hid
    refine ⟨fun hf => ⟨taskEnd_unfaulted hx hf, faultRecord_unfaulted hx hf⟩, fun hf ended stage => ?_, fun hf ended stopped => ⟨?_, ?_⟩⟩
    · obtain ⟨t, ht, task, halts⟩ := taskEnd_ends hx hf ended stage
      exact ⟨t, ht, task, fun named => halts named m⟩
    · exact faultRecord_writes hx hf ended stopped
    · exact faultRecord_clears hx hid hf ended stopped
  case slices =>
    intro live named hm hx he
    exact ⟨enclaveHalt_halts live named.found hm hx he, enclaveResume_readies live named.found hm hx he⟩

end Sys2Proof.Proofs
end

section
/-! PROOFS. Vector constants, moves, permutes and shuffles (06 R154 to R157); O17. -/

namespace Sys2Proof.Machine

/-- Elements count at their width, whatever the instruction. -/
theorem GivesVector.congr {i : Instr} {s : State} {d : Reg} {ty : VTy} {f h : Nat → Nat → Nat} {fl : Flags}
    (w : GivesVector i s d ty f fl) (e : ∀ i k, i < vtCount ty → k < ty.subs → f i k % 2 ^ ty.width = h i k % 2 ^ ty.width) :
    GivesVector i s d ty h fl := by
  obtain ⟨t, ht, w⟩ := w
  exact ⟨t, ht, w.congr e⟩

/-- Lane `j` of a source register as a number, whatever its activity; 0 beyond the last lane. -/
def laneOr0 (v : VReg) (j : Nat) : Nat := if j < 96 then (lane v j).toNat else 0

theorem toNat_lane_ite (v : VReg) (j : Nat) : (if j < 96 then lane v j else 0).toNat = laneOr0 v j :=
  apply_ite BitVec.toNat _ _ _

theorem shflIndex_of_mode (x i : Nat) : shflIndex (bitsAt x 0 2) (bitsAt x 2 7) i = shflIndex (x % 4) (x / 4 % 128) i := by
  simp only [bitsAt, Nat.shiftRight_eq_div_pow, Nat.reducePow, Nat.div_one]

theorem shflIndex_down (k i : Nat) : shflIndex 3 k i = if k ≤ i then i - k else 96 := rfl

/-- v.shfl completes with the source lanes of its descriptor's mode and count. -/
theorem vShfl_gives (s : State) (d a b : Reg) : GivesVector (.vShfl d a b) s d .i32 (fun i _ =>
    laneOr0 (s.g.vr a) (shflIndex ((s.g.sr b).toNat % 4) ((s.g.sr b).toNat / 4 % 128) i)) 0 := by
  obtain ⟨t, ht, w⟩ := vecLanes_writes 4 d (fun g i =>
    let j := shflIndex (bitsAt (s.g.sr b).toNat 0 2) (bitsAt (s.g.sr b).toNat 2 7) i
    if j < 96 then lane (g.vr a) j else 0) s
  refine ⟨t, ht, w.congr fun i k _ _ => ?_⟩
  simp only [toNat_lane_ite, shflIndex_of_mode]

/-- v.bcast completes with the register's low bits at the width of its type. -/
theorem vBcast_gives (s : State) (d a : Reg) (t : BitVec 4) : GivesVector (.vBcast d a t) s d (VTy.of t)
    (fun _ _ => if VTy.of t = .f64 then (s.g.sr a).toNat else (s.g.sr a).toNat % 2 ^ 32) 0 :=
  vecWord_writes_noFlags 3 d _ _ s (fun _ => rfl) fun _ _ _ => rfl

/-- v.get completes with the lane that s[b] names. -/
theorem vGet_gives (s : State) (d a b : Reg) :
    GivesScalar (.vGet d a b) s d (fun v => v.toNat = laneOr0 (s.g.vr a) (s.g.sr b).toNat) := by
  refine ⟨if (s.g.sr b).toNat < 96 then (lane (s.g.vr a) (s.g.sr b).toNat).setWidth 64 else 0, ?_, scalarOut_writes 3 d _ s⟩
  simp only [apply_ite BitVec.toNat, BitVec.toNat_setWidth_of_le (Nat.le_of_ble_eq_true rfl : 32 ≤ 64)]
  rfl

/-- v.set completes with the low bits of s[a] in the lane that s[b] names. -/
theorem vSet_gives (s : State) (d a b : Reg) : GivesVector (.vSet d a b) s d .i32
    (fun i _ => if i = (s.g.sr b).toNat then (s.g.sr a).toNat % 2 ^ 32 else (lane (s.g.vr d) i).toNat) 0 := by
  obtain ⟨t, ht, w⟩ := vecLanes_writes 3 d
    (fun g i => if i = (g.sr b).toNat then (g.sr a).setWidth 32 else lane (g.vr d) i) s
  refine ⟨t, ht, w.congr fun i k _ _ => ?_⟩
  rw [apply_ite BitVec.toNat, BitVec.toNat_setWidth]

end Sys2Proof.Machine

namespace Sys2Proof.Proofs

open Sys2Proof.Machine

/-- Settles O17: every word but v.bcast and v.get replaces 32-bit lanes, and the shuffles are one word under four modes. -/
theorem vectorMoves : Obligations.VectorMoves := by
  intro s d a b j
  refine ⟨?li, ?mov, vBcast_gives s d a 0, vBcast_gives s d a 7, vGet_gives s d a b, vSet_gives s d a b, ?iota, ?perm, ?shfl0, ?shfl1,
    ?shfl2, ?shfl3⟩
  case li => exact vecLanes_writes 3 d (fun _ _ => j.signExtend 32) s
  case mov => exact vecLanes_writes 3 d (fun g i => lane (g.vr a) i) s
  case iota =>
    obtain ⟨t, ht, w⟩ := vecLanes_writes 3 d (fun _ i => BitVec.ofNat 32 i) s
    exact ⟨t, ht, w.congr fun i k _ _ => Nat.mod_mod _ _⟩
  case perm =>
    obtain ⟨t, ht, w⟩ := vecLanes_writes 4 d
      (fun g i => let j := (lane (g.vr b) i).toNat; if j < 96 then lane (g.vr a) j else 0) s
    exact ⟨t, ht, w.congr fun i k _ _ => congrArg (· % 2 ^ 32) (toNat_lane_ite _ _)⟩
  all_goals
    intro mode
    have shuffled := vShfl_gives s d a b
    rw [mode] at shuffled
  case shfl3 =>
    refine shuffled.congr fun i k _ _ => congrArg (· % 2 ^ 32) ?_
    rw [shflIndex_down, apply_ite (laneOr0 (s.g.vr a))]
    rfl
  all_goals exact shuffled

end Sys2Proof.Proofs
end

section
/-! PROOFS. Vector conversions, packing, compares and selection (06 R149 to R153); O16. -/

namespace Sys2Proof.Machine

/-! ### Mask triples (06 R152, R153) -/

theorem testBit_foldr_bits (f : Nat → Bool) (l : List Nat) (i : Nat) :
    (l.foldr (fun j n => b2n (f j) + 2 * n) 0).testBit i = (l[i]?.map f).getD false := by
  induction l generalizing i with
  | nil => simp
  | cons j l ih =>
    have low : b2n (f j) < 2 ^ 1 := by unfold b2n; split <;> decide
    rw [List.foldr_cons, Nat.add_comm, Nat.testBit_two_pow_mul_add (i := 1) _ low]
    cases i with
    | zero => cases h : f j <;> simp [b2n, h]
    | succ i => simpa using ih i

theorem testBit_maskOf (f : Nat → Bool) {i : Nat} (hi : i < 96) : (maskOf f).toNat.testBit i = f i := by
  rw [maskOf, BitVec.toNat_ofNat, Nat.testBit_mod_two_pow, testBit_foldr_bits, List.getElem?_range hi]
  simp [hi]

/-- Bit `i` of a mask stands in its word `i / 32`. -/
theorem getLsbD_maskWord (m : Mask) (i : Nat) :
    (BitVec.ofNat 64 (maskWord m (i / 32))).getLsbD (i % 32) = m.toNat.testBit i := by
  have h : i % 32 < 32 := Nat.mod_lt i (by decide)
  rw [BitVec.getLsbD_ofNat, maskWord, bitsAt, Nat.testBit_mod_two_pow, Nat.testBit_shiftRight, Nat.div_add_mod]
  simp [h, Nat.lt_trans h (by decide : 32 < 64)]

/-- Bit `i` of a triple stands in its register `i / 32`. -/
theorem bitAt_triple (g : Group) (c : Reg) {i : Nat} (hi : i < 96) :
    bitAt (g.triple c).toNat i = (g.sr (c + BitVec.ofNat 6 (i / 32))).getLsbD (i % 32) := by
  have low (w : Word) : w.toNat % 2 ^ 32 < 2 ^ 32 := Nat.mod_lt _ (by decide)
  have whole : (g.triple c).toNat =
      2 ^ 64 * ((g.sr (c + 2)).toNat % 2 ^ 32) + (2 ^ 32 * ((g.sr (c + 1)).toNat % 2 ^ 32) + (g.sr c).toNat % 2 ^ 32) := by
    have l0 := low (g.sr c)
    have l1 := low (g.sr (c + 1))
    have l2 := low (g.sr (c + 2))
    rw [Group.triple, BitVec.toNat_ofNat]
    omega
  have l0 := low (g.sr c)
  have l1 := low (g.sr (c + 1))
  rw [bitAt, whole, Nat.testBit_two_pow_mul_add _ (by omega), Nat.testBit_two_pow_mul_add _ l0]
  simp only [Nat.testBit_mod_two_pow]
  have words : i / 32 = 0 ∨ i / 32 = 1 ∨ i / 32 = 2 := by omega
  rcases words with h | h | h
  · rw [h, if_pos (by omega), if_pos (by omega), Nat.mod_eq_of_lt (by omega : i < 32)]
    simp [BitVec.getLsbD, show i < 32 by omega]
  · rw [h, if_pos (by omega), if_neg (by omega), show i % 32 = i - 32 by omega]
    simp [BitVec.getLsbD, show i - 32 < 32 by omega]
  · rw [h, if_neg (by omega), show i % 32 = i - 64 by omega]
    simp [BitVec.getLsbD, show i - 64 < 32 by omega]

theorem Group.kept_setS (g : Group) {d e : Reg} (h : e ≠ d) (v w : Word) : (g.setS d v).kept e w = g.kept e w := by
  unfold Group.kept
  rw [Group.sr_setS, if_neg h]

/-- Reading any scalar register after a triple is written. -/
theorem Group.sr_setTriple (g : Group) (n : Reg) (m : Mask) (r : Reg) :
    (g.setTriple n m).sr r = if r = n + 2 then g.kept (n + 2) (BitVec.ofNat 64 (maskWord m 2))
      else if r = n + 1 then g.kept (n + 1) (BitVec.ofNat 64 (maskWord m 1))
      else if r = n then g.kept n (BitVec.ofNat 64 (maskWord m 0)) else g.sr r := by
  have h1 : n + 1 ≠ n := by bv_omega
  have h2 : n + 2 ≠ n := by bv_omega
  have h3 : n + 2 ≠ n + 1 := by bv_omega
  simp only [Group.setTriple, Group.sr_setS, Group.kept_setS _ h1, Group.kept_setS _ h2, Group.kept_setS _ h3]

theorem samePlace_groupSetS (s : State) (d : Reg) (v : Word) : SamePlace s.g (s.g.setS d v) := by
  have h := samePlace_setS s d v
  rwa [(quiet_setS s d v).g] at h

theorem quiet_setTriple (s : State) (n : Reg) (m : Mask) : Quiet (s.modG (·.setTriple n m)) (s.setTriple n m) := by
  unfold State.setTriple
  dsimp only
  split
  · exact Quiet.refl _
  · exact quiet_emit _ _ _ _

theorem Group.vr_setTriple (g : Group) (n : Reg) (m : Mask) (r : Reg) : (g.setTriple n m).vr r = g.vr r := by
  simp only [Group.setTriple, Group.vr_setS]
theorem Group.fpf_setTriple (g : Group) (n : Reg) (m : Mask) : (g.setTriple n m).fpf = g.fpf := by
  simp only [Group.setTriple, Group.fpf_setS]
theorem Group.arch_setTriple (g : Group) (n : Reg) (m : Mask) : (g.setTriple n m).arch = g.arch := by
  simp only [Group.setTriple, Group.arch_setS]
theorem samePlace_setTriple (s : State) (n : Reg) (m : Mask) : SamePlace s.g (s.g.setTriple n m) :=
  ((samePlace_groupSetS s n _).trans (samePlace_groupSetS (s.modG (·.setS n _)) (n + 1) _)).trans
    (samePlace_groupSetS ((s.modG (·.setS n _)).modG (·.setS (n + 1) _)) (n + 2) _)

/-- A triple takes the bits of a function of the lane, FPF takes flags, and a word retires. -/
theorem setTriple_writes (leaf n : Nat) (d : Reg) (f : Nat → Bool) (fl : Flags) (s : State) :
    let t := (((s.modG (·.orFpf fl)).setTriple d (maskOf f)).spendWord leaf n).modG Group.advance
    ∃ m : Nat → Word,
      (∀ w < 3, (m w).toNat < 2 ^ 32 ∧ t.g.sr (d + BitVec.ofNat 6 w) = s.g.kept (d + BitVec.ofNat 6 w) (m w)) ∧
      (∀ i < 96, (m (i / 32)).getLsbD (i % 32) = f i) ∧
      (∀ x : Reg, x ≠ d → x ≠ d + 1 → x ≠ d + 2 → t.g.sr x = s.g.sr x) ∧ (∀ x, t.g.vr x = s.g.vr x) ∧
      t.g.fpf = s.g.fpf ||| fl ∧ RegisterOnly s t ∧ GoesOn s t := by
  intro t
  have quiet := quiet_setTriple (s.modG (·.orFpf fl)) d (maskOf f)
  have retired := spendWord_advance_noEffect leaf n ((s.modG (·.orFpf fl)).setTriple d (maskOf f))
  have scalars (r : Reg) : t.g.sr r = ((s.g.orFpf fl).setTriple d (maskOf f)).sr r := by
    rw [retired.scalars, quiet.g, State.modG_g, State.modG_g]
  have d1 : d ≠ d + 1 := by bv_omega
  have d2 : d ≠ d + 2 := by bv_omega
  have d3 : d + 1 ≠ d + 2 := by bv_omega
  refine ⟨fun w => BitVec.ofNat 64 (maskWord (maskOf f) w), fun w hw => ⟨?_, ?_⟩, fun i hi => ?_, fun x x0 x1 x2 => ?_,
    fun x => ?_, ?_, ?_, ?_⟩
  · have := maskWord_lt (maskOf f) w
    rw [BitVec.toNat_ofNat]
    omega
  · rw [scalars, Group.sr_setTriple]
    have words : w = 0 ∨ w = 1 ∨ w = 2 := by omega
    rcases words with rfl | rfl | rfl
    · rw [show d + BitVec.ofNat 6 0 = d from BitVec.add_zero d, if_neg d2, if_neg d1, if_pos rfl]
      rfl
    · exact (if_neg d3).trans (if_pos rfl)
    · exact if_pos rfl
  · exact (getLsbD_maskWord _ i).trans (testBit_maskOf f hi)
  · rw [scalars, Group.sr_setTriple, if_neg x2, if_neg x1, if_neg x0]
    rfl
  · rw [retired.vectors, quiet.g, State.modG_g, Group.vr_setTriple]
    rfl
  · rw [retired.flags, quiet.g, State.modG_g, Group.fpf_setTriple]
    rfl
  · exact ((registerOnly_of_quiet (Quiet.refl s) (fun g => (g.orFpf fl).setTriple d (maskOf f))
      ((Group.arch_setTriple _ _ _).trans (arch_fpf _ _))).trans (registerOnly_quiet quiet)).trans retired.frame
  · have place : SamePlace s.g ((s.modG (·.orFpf fl)).setTriple d (maskOf f)).g := by
      rw [quiet.g]
      have h := samePlace_setTriple (s.modG (·.orFpf fl)) d (maskOf f)
      exact ⟨h.curF, h.pc, h.cwi, h.hdr⟩
    refine place.goesOn ?_
    unfold GoesOn
    rw [State.modG_g, State.spendWord_g]
    exact Group.advance_goesOn _

/-! ### Conversions and compares (06 R149, R152) -/

theorem gives_of_vecWord {i : Instr} {s : State} {n : Nat} {d : Reg} {ty : VTy} {h : (VReg → Nat) → FRes}
    (run : exec i s = vecWord n d ty h s) :
    GivesVector i s d ty (fun i k => (h (elemGet ty i k)).bits) (s.g.flagsOf ty (laneRes ty h)) := by
  obtain ⟨t, ht, w⟩ := vecWord_writes n d ty h s
  exact ⟨t, run.trans ht, w⟩

section
variable (s : State) (d a : Reg) {t u : BitVec 4} (r : BitVec 2) (n : BitVec 1)

theorem exec_vCvt_inPlace (ht : VTy.of t ≠ .f64) (hu : VTy.of u ≠ .f64) : exec (.vCvt d a u t r n) s =
    vecWord 3 d (VTy.of t) (fun e => cvElem (VTy.of t) (VTy.of u) (Rm.ofCode r) (n = 1#1) (e (s.g.vr a))) s :=
  (if_neg fun into => hu into.1).trans (if_neg fun outOf => ht outOf.1)

theorem exec_vCvt_into_f64 (ht : VTy.of t ≠ .f64) (hu : VTy.of u = .f64) : exec (.vCvt d a u t r n) s =
    vecWord 3 d .f64 (fun e => cvElem (VTy.of t) (VTy.of u) (Rm.ofCode r) (n = 1#1) (e (s.g.vr a) % 2 ^ 32)) s :=
  if_pos ⟨hu, ht⟩

theorem exec_vCvt_outOf_f64 (ht : VTy.of t = .f64) (hu : VTy.of u ≠ .f64) : exec (.vCvt d a u t r n) s =
    vecWord 3 d .f64 (fun e => cvElem (VTy.of t) (VTy.of u) (Rm.ofCode r) (n = 1#1) (e (s.g.vr a))) s :=
  (if_neg fun into => hu into.1).trans (if_pos ⟨ht, hu⟩)

end

/-- The condition of v.cmp between elements `i` of two registers, and its flags. -/
def Group.elemHolds (g : Group) (ty : VTy) (q : Nat) (a b : Reg) (i : Nat) : Bool × Flags :=
  vecHolds ty q (elemGet ty i 0 (g.vr a)) (elemGet ty i 0 (g.vr b))

/-- Lane `i` of the mask that v.cmp writes: an f64 element answers for both of its lanes. -/
def Group.laneHolds (g : Group) (ty : VTy) (q : Nat) (a b : Reg) (i : Nat) : Bool :=
  g.active (if ty = .f64 then i / 2 * 2 else i) && (g.elemHolds ty q a b (if ty = .f64 then i / 2 else i)).1

theorem Group.laneHolds_eq (g : Group) (ty : VTy) (q : Nat) (a b : Reg) (i : Nat) : g.laneHolds ty q a b i =
    if ty = .f64 then g.active (i / 2 * 2) && (g.elemHolds ty q a b (i / 2)).1 else g.active i && (g.elemHolds ty q a b i).1 := by
  unfold Group.laneHolds
  split <;> rfl

theorem exec_vCmp (s : State) (d a b : Reg) (t : BitVec 4) (q : BitVec 3) : exec (.vCmp d a b t q) s =
    let ty := VTy.of t
    let fl := s.g.flagsOf ty fun i => ⟨0, (s.g.elemHolds ty q.toNat a b i).2⟩
    .next ((((s.modG (·.orFpf fl)).setTriple d (maskOf (s.g.laneHolds ty q.toNat a b))).spendWord s.g.vleaf 3).modG Group.advance) :=
  rfl

end Sys2Proof.Machine

namespace Sys2Proof.Proofs

open Sys2Proof.Machine

/-- Settles O16: conversions, packing and unpacking are element-wise words, v.cmp writes the mask of the lanes that hold, and v.sel
replaces 32-bit lanes. -/
theorem vectorConversionsAndCompares : Obligations.VectorConversionsAndCompares := by
  intro s d a b c k t u r n q
  refine ⟨fun ht hu => ?inPlace, fun ht hu => ?into, fun ht hu => ?outOf, vecWord_writes 3 d .i32 _ s, vecWord_writes 3 d .i32 _ s,
    fun _ => ?cmp, fun _ => ?sel⟩
  case inPlace => exact gives_of_vecWord (exec_vCvt_inPlace s d a r n ht hu)
  case into => exact gives_of_vecWord (exec_vCvt_into_f64 s d a r n ht hu)
  case outOf => exact gives_of_vecWord (exec_vCvt_outOf_f64 s d a r n ht hu)
  case cmp =>
    obtain ⟨m, words, bits, rest⟩ := setTriple_writes s.g.vleaf 3 d (s.g.laneHolds (VTy.of t) q.toNat a b)
      (s.g.flagsOf (VTy.of t) fun i => ⟨0, (s.g.elemHolds (VTy.of t) q.toNat a b i).2⟩) s
    exact ⟨_, exec_vCmp s d a b t q, m, words, fun i hi => (bits i hi).trans (s.g.laneHolds_eq _ _ a b i), rest⟩
  case sel =>
    obtain ⟨v, hv, w⟩ := vecLanes_writes 3 d (fun g i => if bitAt (g.triple c).toNat i then lane (g.vr a) i else lane (g.vr b) i) s
    refine ⟨v, hv, w.congr fun i k hi _ => ?_⟩
    simp only [bitAt_triple s.g c hi]

end Sys2Proof.Proofs
end

section
/-! PROOFS. What the checks of a local access read, the pool bytes that it reaches, and writes of several words (09 R182 to R187). -/

namespace Sys2Proof.Machine

/-! ### Changes of pool bytes, flags and path slots -/

/-- Two groups that differ in flags and path slots only: their allocations and windows are the same. -/
def SameAlloc (g h : Group) : Prop := h = { g with fpf := h.fpf, t := h.t, f := h.f }

/-- Only pool bytes, and the flags and path slots of the focused group, differ: what the checks of a local access read stands. -/
structure PoolOnly (s t : State) : Prop where
  rest : t = { s with g := t.g, cores := t.cores }
  group : SameAlloc s.g t.g
  cores : ∀ c, t.core c = { s.core c with pool := (t.core c).pool }

theorem PoolOnly.refl (s : State) : PoolOnly s s := ⟨rfl, rfl, fun _ => rfl⟩
theorem PoolOnly.trans {s t u : State} (a : PoolOnly s t) (b : PoolOnly t u) : PoolOnly s u where
  rest := by rw [b.rest, a.rest]
  group := by
    have ha := a.group
    have hb := b.group
    unfold SameAlloc at *
    rw [hb, ha]
  cores c := by rw [b.cores c, a.cores c]

theorem poolOnly_modCore (s : State) (c : Nat) (f : Core → Core) (h : ∀ k, f k = { k with pool := (f k).pool }) :
    PoolOnly s (s.modCore c f) := by
  refine ⟨rfl, rfl, fun k => ?_⟩
  rw [State.core_modCore]
  split
  · next hk => rw [hk]; exact h _
  · rfl

theorem poolOnly_poolWrite (s : State) (x : LocalAcc) (bs : List Byte) : PoolOnly s (s.poolWrite x bs) :=
  poolOnly_modCore _ _ _ fun _ => rfl
theorem poolOnly_ownWrite (s : State) (g : Group) (off : Nat) (bs : List Byte) : PoolOnly s (s.ownWrite g off bs) :=
  poolOnly_modCore _ _ _ fun _ => rfl
theorem poolOnly_modG (s : State) (f : Group → Group) (h : SameAlloc s.g (f s.g)) : PoolOnly s (s.modG f) := ⟨rfl, h, fun _ => rfl⟩

theorem PoolOnly.feAre {s t : State} (a : PoolOnly s t) : FeAre s (fun _ _ => none) t := fun c k => by rw [a.cores c]; rfl
theorem PoolOnly.windowsStand {s t : State} (a : PoolOnly s t) : WindowsStand s t := fun c => by rw [a.cores c]
theorem PoolOnly.localFrame {s t : State} (a : PoolOnly s t) : LocalFrame s t where
  rest := a.rest
  cores c := by rw [a.cores c]; rfl
  memory x := by rw [a.rest]

/-! ### The checks of a local access -/

theorem SameAlloc.poolOff {g h : Group} (e : SameAlloc g h) {s t : State} (a : PoolOnly s t) (off : Nat) :
    t.poolOff h off = s.poolOff g off := by
  rw [e, a.rest]
  rfl

theorem SameAlloc.allocAcc {g h : Group} (e : SameAlloc g h) {s t : State} (a : PoolOnly s t) (off len enc : Nat) :
    t.allocAcc h off len enc = s.allocAcc g off len enc := by
  have offs : t.poolOff h = s.poolOff g := funext (e.poolOff a)
  unfold State.allocAcc
  rw [offs, a.cores, e]

theorem SameAlloc.sealedAt {g h : Group} (e : SameAlloc g h) {s t : State} (a : PoolOnly s t) (off : Nat) :
    t.sealedAt h off = s.sealedAt g off := by
  rw [e, a.rest]
  rfl

theorem PoolOnly.group_cases {s t : State} (a : PoolOnly s t) (i : Nat) :
    (s.group i = none ∧ t.group i = none) ∨ ∃ g h, s.group i = some g ∧ t.group i = some h ∧ SameAlloc g h := by
  have gid : t.g.gid = s.g.gid := by rw [a.group]
  have groups : t.groups = s.groups := by rw [a.rest]
  unfold State.group
  rw [gid, groups]
  by_cases focused : s.g.gid = i
  · rw [if_pos focused, if_pos focused]
    by_cases free : i = 0
    · exact .inl ⟨if_pos free, if_pos free⟩
    · exact .inr ⟨_, _, if_neg free, if_neg free, a.group⟩
  · rw [if_neg focused, if_neg focused]
    cases smFind s.groups i with
    | none => exact .inl ⟨rfl, rfl⟩
    | some g => exact .inr ⟨g, g, rfl, rfl, rfl⟩

theorem PoolOnly.selfAcc {s t : State} (p : PoolOnly s t) (a len : Nat) : t.selfAcc t.g a len = s.selfAcc s.g a len := by
  unfold State.selfAcc
  rw [p.group.allocAcc p, p.group]
  rfl

theorem PoolOnly.ownWindowBar {s t : State} (p : PoolOnly s t) (off len : Nat) :
    t.ownWindowBar t.g off len = s.ownWindowBar s.g off len := by
  unfold State.ownWindowBar
  rw [p.cores, p.group]
  rfl

theorem PoolOnly.winAcc {s t : State} (p : PoolOnly s t) (a len : Nat) (write : Bool) :
    t.winAcc t.g a len write = s.winAcc s.g a len write := by
  have same : t.g.core = s.g.core ∧ t.g.winRet = s.g.winRet ∧ t.g.enc = s.g.enc ∧ t.g.ident = s.g.ident := by
    rw [p.group]
    exact ⟨rfl, rfl, rfl, rfl⟩
  obtain ⟨core, winRet, enc, ident⟩ := same
  unfold State.winAcc
  simp only [core, winRet, enc, ident, p.windowsStand _]
  split
  · rfl
  split
  · rfl
  next w _ =>
    rcases p.group_cases w.gid with ⟨hs, ht⟩ | ⟨g, h, hs, ht, e⟩
    · rw [hs, ht]
    · simp only [hs, ht, e.sealedAt p, e.allocAcc p]

/-- The checks of a local access answer the same. -/
theorem PoolOnly.localCheck {s t : State} (p : PoolOnly s t) (a : Int) (len align : Nat) (write : Bool) :
    t.localCheck t.g a len align write = s.localCheck s.g a len align write := by
  unfold State.localCheck
  simp only [p.selfAcc, p.ownWindowBar, p.winAcc]

/-! ### The pool bytes of an access -/

theorem length_addrs (a n : Nat) : (addrs a n).length = n := by rw [addrs, List.length_map, List.length_range]
theorem getD_addrs {a n j : Nat} (h : j < n) : (addrs a n).getD j 0 = a + j := by
  rw [List.getD_eq_getElem _ _ (by rwa [length_addrs])]
  simp [addrs]

theorem poolOff_mod {s : State} {g : Group} {off o : Nat} (h : s.poolOff g off = some o) : o % 4096 = off % 4096 := by
  obtain ⟨t, -, h⟩ := Option.bind_eq_some_iff.1 h
  obtain ⟨r, -, rfl⟩ := Option.map_eq_some_iff.1 h
  omega

/-- Distinct bytes of an allocation no farther apart than a row have distinct places in the pool. -/
theorem pairwise_addrs_poolOff (s : State) (g : Group) (off : Nat) {len : Nat} (h : len ≤ 4096) :
    (addrs off len).Pairwise fun a b => ∀ o, s.poolOff g a = some o → ∀ o', s.poolOff g b = some o' → o ≠ o' := by
  refine List.pairwise_map.2 (List.pairwise_lt_range.imp_of_mem fun {i j} hi hj lt o ho o' ho' same => ?_)
  have := poolOff_mod ho
  have := poolOff_mod ho'
  have := List.mem_range.1 hj
  subst same
  omega

theorem allocAcc_offs {s : State} {g : Group} {off len enc : Nat} {x : LocalAcc} (h : s.allocAcc g off len enc = .ok x)
    (small : len ≤ 4096) : x.offs.Nodup ∧ x.offs.length = len := by
  unfold State.allocAcc at h
  dsimp only at h
  split at h
  · next owned =>
    obtain rfl := Except.ok.inj h
    have found : ∀ o ∈ (addrs off len).map (s.poolOff g), o.isSome = true := fun o ho => by
      have := List.all_eq_true.1 owned o ho
      cases o with
      | none => cases this
      | some y => rfl
    refine ⟨?_, ?_⟩
    · show (List.filterMap id _).Nodup
      rw [List.filterMap_map]
      exact List.pairwise_filterMap.2 (pairwise_addrs_poolOff s g off small)
    · refine (List.filterMap_length_eq_length.2 found).trans ?_
      rw [List.length_map, length_addrs]
  · cases h

theorem selfAcc_ok {s : State} {g : Group} {a len : Nat} {x : LocalAcc} (h : s.selfAcc g a len = .ok x) :
    s.allocAcc g (a % 2 ^ 20) len g.enc = .ok x := by
  unfold State.selfAcc at h
  split at h
  · cases h
  split at h
  · cases h
  · exact h

theorem winAcc_ok {s : State} {g : Group} {a len : Nat} {write : Bool} {x : LocalAcc} (h : s.winAcc g a len write = .ok x) :
    ∃ o off enc y, s.allocAcc o off len enc = .ok y ∧ x.offs = y.offs := by
  unfold State.winAcc at h
  dsimp only at h
  split at h
  · cases h
  split at h
  · cases h
  split at h
  · cases h
  split at h
  · cases h
  split at h
  · cases h
  split at h
  · cases h
  split at h
  · cases h
  split at h
  · next hy => exact ⟨_, _, _, _, hy, by rw [← LocRes.ok.inj h]⟩
  · cases h

/-- An access that passes its checks reaches as many pool bytes as it has, all of them distinct. -/
theorem localCheck_offs {s : State} {g : Group} {a : Int} {len align : Nat} {write : Bool} {x : LocalAcc}
    (h : s.localCheck g a len align write = .ok x) (small : len ≤ 4096) : x.offs.Nodup ∧ x.offs.length = len := by
  unfold State.localCheck at h
  dsimp only at h
  split at h
  · cases h
  split at h
  · cases h
  split at h
  · split at h
    · next hy =>
      split at h
      · cases h
      · exact LocRes.ok.inj h ▸ allocAcc_offs (selfAcc_ok hy) small
    · cases h
  · obtain ⟨o, off, enc, y, hy, offs⟩ := winAcc_ok h
    rw [offs]
    exact allocAcc_offs hy small

/-! ### Writes of pool bytes -/

theorem getD_mem_zip {α β : Type} {as : List α} {bs : List β} (a : α) (b : β) {j : Nat} (ha : j < as.length) (hb : j < bs.length) :
    (as.getD j a, bs.getD j b) ∈ as.zip bs := by
  rw [List.getD_eq_getElem _ _ ha, List.getD_eq_getElem _ _ hb, ← List.getElem_zip]
  exact List.getElem_mem (by rw [List.length_zip]; omega)

/-- Byte `j` of a written access, no byte of which is written twice. -/
theorem memByte_poolWrite {s : State} {x : LocalAcc} {bs : List Byte} (nodup : x.offs.Nodup) (len : x.offs.length = bs.length) {j : Nat}
    (hj : j < bs.length) : memByte ((s.poolWrite x bs).core x.core).pool (x.offs.getD j 0) = bs.getD j 0 := by
  have keys : (x.offs.zip bs).map (·.1) = x.offs := List.map_fst_zip (by omega)
  unfold State.poolWrite
  rw [State.core_modCore, if_pos rfl]
  exact smGet_smSetAll_of_mem _ (keys.symm ▸ nodup) (getD_mem_zip 0 0 (by omega) hj) _

theorem memByte_poolWrite_of_not_mem {s : State} {x : LocalAcc} {bs : List Byte} {k o : Nat} (h : x.core = k → o ∉ x.offs) :
    memByte ((s.poolWrite x bs).core k).pool o = memByte (s.core k).pool o := by
  unfold State.poolWrite
  rw [State.core_modCore]
  split
  · next hk =>
    subst hk
    exact memByte_memPutAll_of_not_mem _ _ _ fun w hw same => h rfl (same ▸ (List.of_mem_zip hw).1)
  · rfl

/-- A byte of the group's own allocation that is written. -/
theorem memByte_ownWrite {s : State} {g : Group} {off o j : Nat} {bs : List Byte} (small : bs.length ≤ 4096) (hj : j < bs.length)
    (ho : s.poolOff g (off + j) = some o) : memByte ((s.ownWrite g off bs).core g.core).pool o = bs.getD j 0 := by
  unfold State.ownWrite
  rw [State.core_modCore, if_pos rfl]
  refine smGet_smSetAll_of_mem _ ?_ (List.mem_filterMap.2 ⟨(off + j, bs.getD j 0), ?_, by rw [ho]; rfl⟩) _
  · rw [List.map_filterMap]
    simp only [Option.map_map, Function.comp_def, Option.map_id']
    rw [← Function.comp_def (s.poolOff g), ← List.filterMap_map, List.map_fst_zip (by rw [length_addrs])]
    exact List.pairwise_filterMap.2 (pairwise_addrs_poolOff s g off small)
  · have entry := getD_mem_zip (as := addrs off bs.length) 0 0 (by rw [length_addrs]; exact hj) hj
    rwa [getD_addrs hj] at entry

theorem memByte_ownWrite_of_ne {s : State} {g : Group} {off k o : Nat} {bs : List Byte}
    (h : k = g.core → ∀ j < bs.length, s.poolOff g (off + j) ≠ some o) :
    memByte ((s.ownWrite g off bs).core k).pool o = memByte (s.core k).pool o := by
  unfold State.ownWrite
  rw [State.core_modCore]
  split
  · next hk =>
    subst hk
    refine memByte_memPutAll_of_not_mem _ _ _ fun w hw same => ?_
    obtain ⟨b, hb, hw⟩ := List.mem_filterMap.1 hw
    obtain ⟨y, hy, rfl⟩ := Option.map_eq_some_iff.1 hw
    obtain ⟨j, hj, e⟩ := List.mem_map.1 (List.of_mem_zip hb).1
    exact h rfl j (List.mem_range.1 hj) (by rw [e, hy]; exact congrArg some same)
  · rfl

end Sys2Proof.Machine
end

section
/-! PROOFS. The elements of a sweep's step: writes of several elements, and groups folded into the elements that they share (06 R162). -/

namespace Sys2Proof.Machine

/-! ### Writing elements -/

/-- Writes an element where its checks pass. -/
def State.writeElement (s : State) (x : Int × Nat) : State :=
  match s.localCheck s.g x.1 4 4 true with
  | .ok a => s.poolWrite a (leBytes 4 x.2)
  | _ => s

/-- Writes elements in their order. -/
def State.writeElements (s : State) (xs : List (Int × Nat)) : State := xs.foldl State.writeElement s

/-- The bytes of two elements lie apart. -/
def State.Apart (s : State) (x y : Int × Nat) : Prop :=
  ∀ a b, s.localCheck s.g x.1 4 4 true = .ok a → s.localCheck s.g y.1 4 4 true = .ok b → a.core = b.core → ∀ o ∈ a.offs, o ∉ b.offs

theorem PoolOnly.apart {s t : State} (p : PoolOnly s t) {x y : Int × Nat} (h : s.Apart x y) : t.Apart x y := fun a b ha hb => by
  rw [p.localCheck] at ha hb
  exact h a b ha hb

theorem writeElement_ok {s : State} {x : Int × Nat} {a : LocalAcc} (h : s.localCheck s.g x.1 4 4 true = .ok a) :
    s.writeElement x = s.poolWrite a (leBytes 4 x.2) := by
  rw [State.writeElement, h]

/-- An element is written, or nothing is. -/
theorem writeElement_cases (s : State) (x : Int × Nat) :
    (∃ a, s.localCheck s.g x.1 4 4 true = .ok a ∧ s.writeElement x = s.poolWrite a (leBytes 4 x.2)) ∨ s.writeElement x = s := by
  unfold State.writeElement
  split
  · next h => exact .inl ⟨_, h, rfl⟩
  · exact .inr rfl

theorem poolOnly_writeElement (s : State) (x : Int × Nat) : PoolOnly s (s.writeElement x) := by
  rcases writeElement_cases s x with ⟨a, -, h⟩ | h
  · rw [h]; exact poolOnly_poolWrite _ _ _
  · rw [h]; exact .refl s

theorem writeElement_g (s : State) (x : Int × Nat) : (s.writeElement x).g = s.g := by
  rcases writeElement_cases s x with ⟨a, -, h⟩ | h <;> rw [h]
  rfl

theorem poolOnly_writeElements (s : State) (xs : List (Int × Nat)) : PoolOnly s (s.writeElements xs) := by
  induction xs generalizing s with
  | nil => exact .refl s
  | cons x xs ih => exact (poolOnly_writeElement s x).trans (ih _)

theorem writeElements_g (s : State) (xs : List (Int × Nat)) : (s.writeElements xs).g = s.g := by
  induction xs generalizing s with
  | nil => rfl
  | cons x xs ih => exact (ih _).trans (writeElement_g s x)

theorem memByte_writeElements_of_not_mem {s : State} {xs : List (Int × Nat)} {k o : Nat}
    (h : ∀ x ∈ xs, ∀ a, s.localCheck s.g x.1 4 4 true = .ok a → a.core = k → o ∉ a.offs) :
    memByte ((s.writeElements xs).core k).pool o = memByte (s.core k).pool o := by
  induction xs generalizing s with
  | nil => rfl
  | cons x xs ih =>
    obtain ⟨hx, hxs⟩ := List.forall_mem_cons.1 h
    refine (ih (s := s.writeElement x) fun y hy a ha => hxs y hy a ?_).trans ?_
    · rwa [(poolOnly_writeElement s x).localCheck] at ha
    · rcases writeElement_cases s x with ⟨a, ha, e⟩ | e
      · rw [e]; exact memByte_poolWrite_of_not_mem (hx a ha)
      · rw [e]

theorem length_leBytes (n x : Nat) : (leBytes n x).length = n := by
  induction n generalizing x with
  | zero => rfl
  | succ n ih => exact congrArg (· + 1) (ih _)

/-- Of elements that lie apart each is read back. -/
theorem memByte_writeElements {s : State} {xs : List (Int × Nat)} (apart : xs.Pairwise s.Apart) {x : Int × Nat} (hx : x ∈ xs) {a : LocalAcc}
    (ha : s.localCheck s.g x.1 4 4 true = .ok a) {j : Nat} (hj : j < 4) :
    memByte ((s.writeElements xs).core a.core).pool (a.offs.getD j 0) = (leBytes 4 x.2).getD j 0 := by
  obtain ⟨nodup, len⟩ := localCheck_offs ha (by decide)
  induction xs generalizing s with
  | nil => exact nomatch hx
  | cons y ys ih =>
    obtain ⟨first, rest⟩ := List.pairwise_cons.1 apart
    have kept := poolOnly_writeElement s y
    rcases List.mem_cons.1 hx with rfl | hx
    · have byte : a.offs.getD j 0 ∈ a.offs := by
        rw [List.getD_eq_getElem _ _ (by omega)]
        exact List.getElem_mem _
      refine (memByte_writeElements_of_not_mem (s := s.writeElement x) fun z hz b hb core => ?_).trans ?_
      · rw [kept.localCheck] at hb
        exact first z hz a b ha hb core.symm _ byte
      · rw [writeElement_ok ha]
        exact memByte_poolWrite nodup (len.trans (length_leBytes 4 x.2).symm) (by rwa [length_leBytes])
    · exact ih (s := s.writeElement y) (rest.imp kept.apart) hx (by rwa [kept.localCheck])

/-! ### Folding groups into the elements that they share (06 R162) -/

section
variable {α : Type} (key : α → Int) (init : Int → Nat) (f : Nat → α → FRes)

/-- One more group folded into an element's value. -/
def foldInto (r : FRes) (x : α) : FRes := ⟨(f r.bits x).bits, r.fl ||| (f r.bits x).fl⟩

/-- The groups of one element folded into its stored value. -/
def elementFold (xs : List α) (k : Int) : FRes := (xs.filter fun x => key x = k).foldl (foldInto f) ⟨init k, Flags.none⟩

/-- The table of the elements that have taken a group, and the flags of all. -/
def elementTable (xs : List α) : List (Int × Nat) × Flags :=
  xs.foldl (fun (r : List (Int × Nat) × Flags) x =>
    let old := match r.1.find? fun y => y.1 = key x with
      | some y => y.2
      | none => init (key x)
    ((key x, (f old x).bits) :: r.1.filter (fun y => y.1 ≠ key x), r.2 ||| (f old x).fl)) ([], Flags.none)

theorem elementFold_append (xs : List α) (x : α) (k : Int) : elementFold key init f (xs ++ [x]) k =
    if key x = k then foldInto f (elementFold key init f xs k) x else elementFold key init f xs k := by
  unfold elementFold
  rw [List.filter_append, List.foldl_append]
  by_cases h : key x = k <;> simp [h]

theorem elementFold_of_absent {xs : List α} {k : Int} (h : ∀ x ∈ xs, key x ≠ k) : elementFold key init f xs k = ⟨init k, Flags.none⟩ := by
  unfold elementFold
  rw [List.filter_eq_nil_iff.2 fun x hx => by simpa using h x hx]
  rfl

/-- What the table holds of the groups folded so far. -/
structure TableOf (xs : List α) (r : List (Int × Nat) × Flags) : Prop where
  nodup : (r.1.map (·.1)).Nodup
  entries : ∀ k v, (k, v) ∈ r.1 ↔ (∃ x ∈ xs, key x = k) ∧ v = (elementFold key init f xs k).bits
  flags : ∀ j, r.2.getLsbD j = true ↔ ∃ x ∈ xs, (elementFold key init f xs (key x)).fl.getLsbD j = true

variable {key init f}

/-- The value that the table has for an element is the fold so far. -/
theorem TableOf.old {xs : List α} {r : List (Int × Nat) × Flags} (t : TableOf key init f xs r) (k : Int) :
    (match r.1.find? fun y => y.1 = k with | some y => y.2 | none => init k) = (elementFold key init f xs k).bits := by
  split
  · next y found =>
    obtain rfl : y.1 = k := by simpa using List.find?_some found
    exact ((t.entries _ _).1 (List.mem_of_find?_eq_some found)).2
  · next missing =>
    rw [elementFold_of_absent key init f fun x hx same => ?_]
    have := List.find?_eq_none.1 missing _ ((t.entries k _).2 ⟨⟨x, hx, same⟩, rfl⟩)
    simp at this

theorem TableOf.snoc {xs : List α} {r : List (Int × Nat) × Flags} (t : TableOf key init f xs r) (x : α) :
    let y := f (elementFold key init f xs (key x)).bits x
    TableOf key init f (xs ++ [x]) ((key x, y.bits) :: r.1.filter (fun e => e.1 ≠ key x), r.2 ||| y.fl) := by
  intro y
  have others {k : Int} (h : key x ≠ k) : elementFold key init f (xs ++ [x]) k = elementFold key init f xs k := by
    rw [elementFold_append, if_neg h]
  have own : elementFold key init f (xs ++ [x]) (key x) = foldInto f (elementFold key init f xs (key x)) x := by
    rw [elementFold_append, if_pos rfl]
  refine ⟨?nodup, fun k v => ?entries, fun j => ?flags⟩
  case nodup =>
    refine List.nodup_cons.2 ⟨fun h => ?_, (List.filter_sublist.map _).nodup t.nodup⟩
    obtain ⟨e, he, same⟩ := List.mem_map.1 h
    simp [same] at he
  case entries =>
    by_cases h : key x = k
    · subst h
      simp [own, foldInto, y]
    · have : (∃ z ∈ xs ++ [x], key z = k) ↔ ∃ z ∈ xs, key z = k := by simp [or_and_right, exists_or, h]
      rw [this, others h, ← t.entries]
      simp [Ne.symm h]
  case flags =>
    have flag (k : Int) : (elementFold key init f (xs ++ [x]) k).fl.getLsbD j = true ↔
        (elementFold key init f xs k).fl.getLsbD j = true ∨ key x = k ∧ y.fl.getLsbD j = true := by
      by_cases h : key x = k
      · subst h
        simp [own, foldInto, y]
      · simp [others h, h]
    rw [BitVec.getLsbD_or, Bool.or_eq_true, t.flags]
    constructor
    · rintro (⟨z, hz, on⟩ | on)
      · exact ⟨z, List.mem_append_left _ hz, (flag _).2 (.inl on)⟩
      · exact ⟨x, List.mem_append_right _ (List.mem_singleton.2 rfl), (flag _).2 (.inr ⟨rfl, on⟩)⟩
    · rintro ⟨z, hz, on⟩
      rcases (flag _).1 on with on | ⟨-, on⟩
      · by_cases taken : ∃ z' ∈ xs, key z' = key z
        · obtain ⟨z', hz', same⟩ := taken
          exact .inl ⟨z', hz', by rwa [same]⟩
        · rw [elementFold_of_absent key init f fun z' hz' same => taken ⟨z', hz', same⟩] at on
          simp [Flags.none] at on
      · exact .inr on

variable (key init f)

theorem elementTable_tableOf (xs : List α) : TableOf key init f xs (elementTable key init f xs) := by
  induction xs using List.reverseRecOn with
  | nil => exact ⟨List.nodup_nil, by simp [elementTable], by simp [elementTable, Flags.none]⟩
  | append_singleton xs x ih =>
    have step := ih.snoc x
    rw [← ih.old (key x)] at step
    rw [elementTable, List.foldl_append]
    exact step

end

end Sys2Proof.Machine
end

section
/-! PROOFS. One step of a sweep (06 R161, R162); O20. -/

namespace Sys2Proof.Machine

/-! ### One step (06 R161) -/

/-- What a step that reduces nothing leaves at a point. -/
def Sweep.value (w : Sweep) (s : State) (q : Nat) : FRes :=
  let i := w.dst.tuple q
  let e := if w.readsD then s.localWord (w.dst.at i) else 0
  match w.op, w.b with
  | .cvt, _ => w.apply (s.localWord (w.a.at i)) 0 0
  | _, some b => w.apply (s.localWord (w.a.at i)) (s.localWord (b.at i)) e
  | _, none => w.apply e (s.localWord (w.a.at i)) 0

/-- The address of the element that a group's points share: that of its first. -/
def Sweep.groupAt (w : Sweep) (ps : List Nat) : Int := w.dst.at (w.dst.tuple (ps.headD 0))

/-- A group folded into a value of its element. -/
def Sweep.groupInto (w : Sweep) (s : State) (old : Nat) (ps : List Nat) : FRes :=
  w.foldGroup old (ps.map fun q =>
    (s.localWord (w.a.at (w.dst.tuple q)), match w.b with | some b => s.localWord (b.at (w.dst.tuple q)) | none => 0))

/-- The elements that a step writes, with their values, and its flags. -/
def Sweep.results (w : Sweep) (s : State) (p : Nat) : List (Int × Nat) × Flags :=
  if w.red then w.reduced s (w.step p) else w.plain s (w.step p).flatten

/-- IDX0 to IDX3 as saved: the next point's tuple, or zeros after the last. -/
def Sweep.saved (w : Sweep) (next : Nat) : Nat :=
  let i := if next < w.dst.points then w.dst.tuple next else []
  i.getD 0 0 + i.getD 1 0 * 2 ^ 16 + i.getD 2 0 * 2 ^ 32 + i.getD 3 0 * 2 ^ 48

/-- The state that a step leaves once its checks have passed. -/
def Sweep.stepped (w : Sweep) (p : Nat) (s : State) : State :=
  let u := (s.modG (·.orFpf (w.results s p).2)).writeElements (w.results s p).1
  u.ownWrite u.g (w.dst.addr % 2 ^ 20 + 0x30) (leBytes 8 (w.saved (p + (w.step p).flatten.length)))

theorem foldl_or_of_start {α : Type} (h : α → Flags) (xs : List α) (a : Flags) :
    a ||| xs.foldl (fun f x => f ||| h x) Flags.none = xs.foldl (fun f x => f ||| h x) a := by
  induction xs using List.reverseRecOn with
  | nil => exact BitVec.or_zero
  | append_singleton xs x ih => rw [List.foldl_append, List.foldl_append, ← ih]; exact (BitVec.or_assoc ..).symm

theorem plain_eq (w : Sweep) (s : State) (ps : List Nat) : w.plain s ps =
    (ps.map fun q => (w.dst.at (w.dst.tuple q), (w.value s q).bits), ps.foldl (fun f q => f ||| (w.value s q).fl) Flags.none) := by
  unfold Sweep.plain
  simp only [List.map_map, List.foldl_map]
  rfl

theorem reduced_eq (w : Sweep) (s : State) (gs : List (List Nat)) :
    w.reduced s gs = elementTable w.groupAt s.localWord (w.groupInto s) gs := rfl

theorem localPass_ok {s : State} {xs : List (Int × Bool)} (h : ∀ e ∈ xs, ∃ x, LocalOk s e.1 4 4 e.2 x) :
    ∃ as, localPass (xs.map fun e => (s.localCheck s.g e.1 4 4 e.2, e.1)) = .ok as ∧
      ((as.zip xs).find? fun x => (s.core x.1.core).lockedLocal x.1.offs x.2.2) = none := by
  induction xs with
  | nil => exact ⟨[], rfl, rfl⟩
  | cons e xs ih =>
    obtain ⟨⟨x, ok, free⟩, hxs⟩ := List.forall_mem_cons.1 h
    obtain ⟨as, pass, unlocked⟩ := ih hxs
    refine ⟨x :: as, ?_, ?_⟩
    · rw [List.map_cons, ok, localPass, pass]
    · rw [List.zip_cons_cons, List.find?_cons_of_neg (by simp [free])]
      exact unlocked

/-- A step whose accesses all pass is done. -/
theorem runStep_done {w : Sweep} {p : Nat} {s : State} (h : ∀ q ∈ (w.step p).flatten, ∀ e ∈ w.accesses q, ∃ x, LocalOk s e.1 4 4 e.2 x)
    (n : Nat) : w.runStep p n s = .done (w.stepped p s) := by
  obtain ⟨as, pass, unlocked⟩ := localPass_ok (s := s) (xs := (w.step p).flatten.flatMap w.accesses) fun e he => by
    obtain ⟨q, hq, he⟩ := List.mem_flatMap.1 he
    exact h q hq e he
  unfold Sweep.runStep
  dsimp only
  rw [pass]
  dsimp only
  rw [unlocked]
  rfl

/-! ### What a step leaves -/

/-- Pool byte `o` of the group's core holds saved counters of the destination's record. -/
def Sweep.SavesAt (w : Sweep) (s : State) (o : Nat) : Prop := ∃ j < 8, s.poolOff s.g (w.dst.addr % 2 ^ 20 + 0x30 + j) = some o

section
variable (w : Sweep) (p : Nat) (s : State)

theorem poolOnly_orFpf (fl : Flags) : PoolOnly s (s.modG (·.orFpf fl)) := poolOnly_modG s (·.orFpf fl) rfl

/-- The state of a step once it has written its elements. -/
theorem poolOnly_elements : PoolOnly s ((s.modG (·.orFpf (w.results s p).2)).writeElements (w.results s p).1) :=
  (poolOnly_orFpf s _).trans (poolOnly_writeElements _ _)

theorem elements_g : ((s.modG (·.orFpf (w.results s p).2)).writeElements (w.results s p).1).g = s.g.orFpf (w.results s p).2 :=
  writeElements_g _ _

theorem poolOnly_stepped : PoolOnly s (w.stepped p s) := (poolOnly_elements w p s).trans (poolOnly_ownWrite _ _ _ _)

theorem stepped_g : (w.stepped p s).g = s.g.orFpf (w.results s p).2 := elements_g w p s

variable {w p s}

/-- A byte that is neither an element's nor a saved counter's stands. -/
theorem stepped_other {k o : Nat} (h : ∀ x ∈ (w.results s p).1, ∀ a, s.localCheck s.g x.1 4 4 true = .ok a → a.core = k → o ∉ a.offs)
    (own : k = s.g.core → ¬ w.SavesAt s o) : memByte ((w.stepped p s).core k).pool o = memByte (s.core k).pool o := by
  have written := poolOnly_elements w p s
  refine (memByte_ownWrite_of_ne fun hk j hj ho => ?_).trans (memByte_writeElements_of_not_mem fun x hx a ha => h x hx a ?_)
  · rw [written.group.poolOff written] at ho
    rw [elements_g] at hk
    exact own hk ⟨j, by rwa [length_leBytes] at hj, ho⟩
  · rwa [(poolOnly_orFpf s _).localCheck] at ha

/-- Of elements that lie apart, and apart from the saved counters, each has its value. -/
theorem stepped_element (apart : (w.results s p).1.Pairwise s.Apart) {x : Int × Nat} (hx : x ∈ (w.results s p).1) {a : LocalAcc}
    (ha : s.localCheck s.g x.1 4 4 true = .ok a) (own : a.core = s.g.core → ∀ o ∈ a.offs, ¬ w.SavesAt s o) {j : Nat} (hj : j < 4) :
    memByte ((w.stepped p s).core a.core).pool (a.offs.getD j 0) = (leBytes 4 x.2).getD j 0 := by
  have written := poolOnly_elements w p s
  obtain ⟨-, len⟩ := localCheck_offs ha (by decide)
  have flagged := poolOnly_orFpf s (w.results s p).2
  refine (memByte_ownWrite_of_ne fun hk i hi ho => ?_).trans
    (memByte_writeElements (apart.imp flagged.apart) hx (by rwa [flagged.localCheck]) hj)
  rw [written.group.poolOff written] at ho
  rw [elements_g] at hk
  refine own hk _ ?_ ⟨i, by rwa [length_leBytes] at hi, ho⟩
  rw [List.getD_eq_getElem _ _ (by omega)]
  exact List.getElem_mem _

theorem stepped_saved {j o : Nat} (hj : j < 8) (ho : s.poolOff s.g (w.dst.addr % 2 ^ 20 + 0x30 + j) = some o) :
    memByte ((w.stepped p s).core s.g.core).pool o = (leBytes 8 (w.saved (p + (w.step p).flatten.length))).getD j 0 := by
  have written := poolOnly_elements w p s
  have core := congrArg Group.core (elements_g w p s)
  have len := length_leBytes 8 (w.saved (p + (w.step p).flatten.length))
  rw [← written.group.poolOff written] at ho
  have byte := memByte_ownWrite (bs := leBytes 8 (w.saved (p + (w.step p).flatten.length))) (by rw [len]; decide) (by rwa [len]) ho
  rwa [core] at byte

end

/-! ### The results of a step -/

theorem sweepGroups_ne_nil {e0 total : Nat} (h : e0 = 0 → total = 0) {n p cnt : Nat} : ∀ ps ∈ sweepGroups e0 total n p cnt, ps ≠ [] := by
  induction n generalizing p cnt with
  | zero => exact fun ps hps => nomatch hps
  | succ n ih =>
    unfold sweepGroups
    split
    · exact fun ps hps => nomatch hps
    · next more =>
      dsimp only
      split
      · exact fun ps hps => nomatch hps
      · refine List.forall_mem_cons.2 ⟨fun empty => ?_, ih⟩
        have count := congrArg List.length empty
        have inside := Nat.mod_lt p (show 0 < e0 by omega)
        rw [length_addrs, List.length_nil] at count
        omega

/-- The first point of a group is one of its points. -/
theorem headD_mem_of_mem_step {w : Sweep} (red : w.red = true) {p : Nat} {ps : List Nat} (h : ps ∈ w.step p) : ps.headD 0 ∈ ps := by
  unfold Sweep.step at h
  rw [if_pos red] at h
  have ne := sweepGroups_ne_nil (fun e => by simp [Rec.points, e]) ps h
  cases ps with
  | nil => exact absurd rfl ne
  | cons q qs => exact List.mem_cons_self

section
variable {w : Sweep} {p : Nat} {s : State}

theorem results_of_red (red : w.red = true) : w.results s p = elementTable w.groupAt s.localWord (w.groupInto s) (w.step p) :=
  (if_pos red).trans (reduced_eq w s _)

theorem step_flatten (red : w.red = false) : (w.step p).flatten = addrs p (min 96 (w.dst.points - p)) := by
  unfold Sweep.step
  rw [if_neg (by rw [red]; decide)]
  exact List.append_nil _

theorem results_of_not_red (red : w.red = false) : w.results s p =
    ((addrs p (min 96 (w.dst.points - p))).map fun q => (w.dst.at (w.dst.tuple q), (w.value s q).bits),
      (addrs p (min 96 (w.dst.points - p))).foldl (fun f q => f ||| (w.value s q).fl) Flags.none) := by
  unfold Sweep.results
  rw [if_neg (by rw [red]; decide), step_flatten red, plain_eq]

end

section
variable {w : Sweep} {p : Nat} {s : State} {acc : Nat → LocalAcc}

/-- The elements of a reducing step are those of its groups' first points. -/
theorem mem_results_of_red (red : w.red = true) {x : Int × Nat} : x ∈ (w.results s p).1 ↔
    (∃ ps ∈ w.step p, w.groupAt ps = x.1) ∧ x.2 = (elementFold w.groupAt s.localWord (w.groupInto s) (w.step p) x.1).bits := by
  rw [results_of_red red]
  exact (elementTable_tableOf w.groupAt s.localWord (w.groupInto s) (w.step p)).entries x.1 x.2

theorem apart_of_red (red : w.red = true) (checks : ∀ ps ∈ w.step p, s.localCheck s.g (w.groupAt ps) 4 4 true = .ok (acc (ps.headD 0)))
    (apart : ∀ ps ∈ w.step p, ∀ qs ∈ w.step p, w.groupAt ps ≠ w.groupAt qs → (acc (ps.headD 0)).core = (acc (qs.headD 0)).core →
      ∀ o ∈ (acc (ps.headD 0)).offs, o ∉ (acc (qs.headD 0)).offs) : (w.results s p).1.Pairwise s.Apart := by
  have nodup := (elementTable_tableOf w.groupAt s.localWord (w.groupInto s) (w.step p)).nodup
  rw [← results_of_red red] at nodup
  refine (List.pairwise_map.1 nodup).imp_of_mem fun hx hy ne a b ha hb => ?_
  obtain ⟨⟨ps, hps, ex⟩, -⟩ := (mem_results_of_red red).1 hx
  obtain ⟨⟨qs, hqs, ey⟩, -⟩ := (mem_results_of_red red).1 hy
  rw [← ex, checks ps hps] at ha
  rw [← ey, checks qs hqs] at hb
  rw [← LocRes.ok.inj ha, ← LocRes.ok.inj hb]
  exact apart ps hps qs hqs (by rwa [ex, ey])

theorem apart_of_not_red (red : w.red = false) (S : List Nat) (hS : S = addrs p (min 96 (w.dst.points - p)))
    (checks : ∀ q ∈ S, s.localCheck s.g (w.dst.at (w.dst.tuple q)) 4 4 true = .ok (acc q))
    (apart : ∀ q ∈ S, ∀ q' ∈ S, q ≠ q' → (acc q).core = (acc q').core → ∀ o ∈ (acc q).offs, o ∉ (acc q').offs) :
    (w.results s p).1.Pairwise s.Apart := by
  have nodup : S.Nodup := by
    rw [hS]
    exact List.nodup_range.map fun i j h => Nat.add_left_cancel h
  rw [results_of_not_red red, ← hS]
  refine List.pairwise_map.2 (nodup.imp_of_mem fun hq hq' ne a b ha hb => ?_)
  rw [checks _ hq] at ha
  rw [checks _ hq'] at hb
  rw [← LocRes.ok.inj ha, ← LocRes.ok.inj hb]
  exact apart _ hq _ hq' ne

end

end Sys2Proof.Machine

namespace Sys2Proof.Proofs

open Sys2Proof.Machine

/-- Settles O20: a step whose accesses pass leaves `Sweep.stepped`, whose elements are known by lemma: one for each point, or one for each
entry of the table into which the groups fold. -/
theorem sweepStepEffect : Obligations.SweepStepEffect := by
  intro s w p n acc S D word val saved own folded
  refine ⟨fun red pass apart clear => ?reduced, fun red pass checks apart clear => ?plain⟩
  case reduced =>
    have first (ps : List Nat) (h : ps ∈ w.step p) : ps.headD 0 ∈ ps := headD_mem_of_mem_step red h
    have point {ps : List Nat} (h : ps ∈ w.step p) : ps.headD 0 ∈ (w.step p).flatten := List.mem_flatten.2 ⟨ps, h, first ps h⟩
    have checks (ps : List Nat) (h : ps ∈ w.step p) : s.localCheck s.g (w.groupAt ps) 4 4 true = .ok (acc (ps.headD 0)) :=
      (pass ps h _ (first ps h)).2
    have lie := apart_of_red red checks fun ps hps qs hqs => apart _ (point hps) _ (point hqs)
    have left := poolOnly_stepped w p s
    have flags : (w.stepped p s).g = { s.g with fpf := s.g.fpf ||| (w.results s p).2 } := stepped_g w p s
    refine ⟨w.stepped p s, runStep_done (fun q hq => ?_) n, fun ps hps j hj => ?_, fun j hj o ho _ => stepped_saved hj ho,
      fun k o away off => ?_, ?_, fun j => ?_, left.feAre, left.windowsStand, left.localFrame⟩
    · obtain ⟨ps, hps, hq⟩ := List.mem_flatten.1 hq
      exact (pass ps hps q hq).1
    · exact stepped_element lie (x := (w.groupAt ps, (folded ps).bits)) ((mem_results_of_red red).2 ⟨⟨ps, hps, rfl⟩, rfl⟩) (checks ps hps)
        (clear _ (point hps)) hj
    · refine stepped_other (fun x hx a ha => ?_) off
      obtain ⟨⟨ps, hps, e⟩, -⟩ := (mem_results_of_red red).1 hx
      rw [← e, checks ps hps] at ha
      rw [← LocRes.ok.inj ha]
      exact away ps hps
    · rw [flags]
    · rw [flags, BitVec.getLsbD_or, Bool.or_eq_true, results_of_red red, (elementTable_tableOf _ _ _ _).flags]
      rfl
  case plain =>
    have steps : (w.step p).flatten = S := step_flatten red
    have results := results_of_not_red (s := s) (p := p) red
    have lie := apart_of_not_red red S rfl checks apart
    have left := poolOnly_stepped w p s
    have flags : (w.stepped p s).g = { s.g with fpf := s.g.fpf ||| (w.results s p).2 } := stepped_g w p s
    refine ⟨w.stepped p s, runStep_done (by rwa [steps]) n, fun q hq j hj => ?_, fun j hj o ho _ => ?_,
      fun k o away off => ?_, ?_, left.feAre, left.windowsStand, left.localFrame⟩
    · refine stepped_element lie (x := (D q, (w.value s q).bits)) ?_ (checks q hq) (clear q hq) hj
      rw [results]
      exact List.mem_map_of_mem hq
    · rw [← steps]
      exact stepped_saved hj ho
    · refine stepped_other (fun x hx a ha => ?_) off
      rw [results] at hx
      obtain ⟨q, hq, rfl⟩ := List.mem_map.1 hx
      rw [checks q hq] at ha
      rw [← LocRes.ok.inj ha]
      exact away q hq
    · rw [flags, results, foldl_or_of_start]
      rfl

end Sys2Proof.Proofs
end

section
/-! PROOFS. A sweep of one remaining step (06 R160, R161); O19. -/

namespace Sys2Proof.Machine

/-! ### Steps do not look at path slots -/

/-- The group with other path slots. -/
def Group.setSlots (g : Group) (a b : PathState) : Group := { g with t := a, f := b }

theorem Group.modP_eq_setSlots (g : Group) (h : PathState → PathState) : g.modP h = g.setSlots (g.modP h).t (g.modP h).f := by
  unfold Group.modP Group.setP Group.setPath
  split <;> rfl

theorem Group.setSlots_modP (g : Group) (h : PathState → PathState) (fl : Flags) :
    (g.orFpf fl).setSlots (g.modP h).t (g.modP h).f = (g.modP h).orFpf fl :=
  congrArg (·.orFpf fl) (g.modP_eq_setSlots h).symm

theorem sameAlloc_modP (g : Group) (h : PathState → PathState) : SameAlloc g (g.modP h) := by
  rw [g.modP_eq_setSlots h]
  rfl

theorem Group.orFpf_modP (g : Group) (h : PathState → PathState) (fl : Flags) : (g.orFpf fl).modP h = (g.modP h).orFpf fl := by
  unfold Group.modP Group.setP Group.p
  cases hc : g.curF <;> simp [Group.orFpf, Group.setPath, Group.path, hc]

theorem PoolOnly.localOk {s t : State} (p : PoolOnly s t) {a : Int} {len align : Nat} {write : Bool} {x : LocalAcc}
    (h : LocalOk s a len align write x) : LocalOk t a len align write x := by
  obtain ⟨ok, free⟩ := h
  refine ⟨by rwa [p.localCheck], ?_⟩
  rw [p.cores]
  exact free

theorem results_congr {s t : State} (h : t.localWord = s.localWord) (w : Sweep) (p : Nat) : w.results t p = w.results s p := by
  unfold Sweep.results Sweep.reduced Sweep.plain
  rw [h]

section
variable (s : State) (a b : PathState)

theorem poolOnly_setSlots : PoolOnly s (s.modG (·.setSlots a b)) := poolOnly_modG s (·.setSlots a b) rfl

theorem localWord_setSlots : (s.modG (·.setSlots a b)).localWord = s.localWord := by
  funext x
  unfold State.localWord
  rw [(poolOnly_setSlots s a b).localCheck]
  rfl

theorem writeElement_setSlots (x : Int × Nat) :
    (s.modG (·.setSlots a b)).writeElement x = (s.writeElement x).modG (·.setSlots a b) := by
  unfold State.writeElement
  rw [(poolOnly_setSlots s a b).localCheck]
  split <;> rfl

theorem writeElements_setSlots (xs : List (Int × Nat)) :
    (s.modG (·.setSlots a b)).writeElements xs = (s.writeElements xs).modG (·.setSlots a b) := by
  induction xs generalizing s with
  | nil => rfl
  | cons x xs ih =>
    have step := ih (s.writeElement x)
    rw [← writeElement_setSlots] at step
    exact step

/-- A step is the same under other path slots. -/
theorem stepped_setSlots (w : Sweep) (p : Nat) : w.stepped p (s.modG (·.setSlots a b)) = (w.stepped p s).modG (·.setSlots a b) := by
  have written := writeElements_setSlots (s.modG (·.orFpf (w.results s p).2)) a b (w.results s p).1
  unfold Sweep.stepped
  rw [results_congr (localWord_setSlots s a b)]
  dsimp only
  rw [show (s.modG (·.setSlots a b)).modG (·.orFpf (w.results s p).2) = (s.modG (·.orFpf (w.results s p).2)).modG (·.setSlots a b) from rfl,
    written]
  rfl

end

theorem State.modG_congr {s : State} {f k : Group → Group} (h : f s.g = k s.g) : s.modG f = s.modG k :=
  congrArg (fun g => ({ s with g := g } : State)) h

/-! ### Reading the records (15 R304, R305) -/

theorem withRecordAt_reads {s : State} {r : Word} {x : LocalAcc} (h : LocalOk s r.toNat 64 64 false x) (k : Rec → Bool → State → Out) :
    withRecordAt r k s = k (recOf r.toNat (bytesDwords 8 (s.poolRead x)))
      (recBad (recOf r.toNat (bytesDwords 8 (s.poolRead x))) (bytesDwords 8 (s.poolRead x))) s := by
  rw [withRecordAt, withLocal_ok h]

/-- What is read of slots whose records pass. -/
def slotReads (ns : List Nat) (qs : List Rec) : List (Nat × Option (Rec × Bool)) := List.zipWith (fun n q => (n, some (q, false))) ns qs

theorem withSlots_reads {s : State} {ns : List Nat} {qs : List Rec} (h : List.Forall₂ (ReadsRecord s) ns qs)
    (k : List (Nat × Option (Rec × Bool)) → State → Out) : withSlots ns k s = k (slotReads ns qs) s := by
  induction h generalizing k with
  | nil => rfl
  | cons reads _ ih =>
    obtain ⟨r, x, bound, -, -, -, ok, rfl, good⟩ := reads
    rw [withSlots, bound]
    dsimp only
    rw [withRecordAt_reads ok, good]
    exact ih _

theorem withRecords_reads {s : State} {ns : List Nat} {qs : List Rec} (h : List.Forall₂ (ReadsRecord s) ns qs)
    (k : List Rec → State → Out) : withRecords ns k s = k qs s := by
  have recs : ((slotReads ns qs).filterMap fun r => r.2.map (·.1)) = qs := by
    induction h with
    | nil => rfl
    | cons _ _ ih => exact congrArg _ ih
  have good : ((slotReads ns qs).find? fun r => (r.2.map (·.2)).getD true) = none := by
    clear recs
    induction h with
    | nil => rfl
    | cons _ _ ih => exact (List.find?_cons_of_neg Bool.false_ne_true).trans ih
  rw [withRecords, withSlots_reads h, good, recs]

/-! ### The last step -/

/-- The sweep that a word names, its records read. -/
def sweepOf (op : SweepOp) (t : BitVec 4) (r : BitVec 2) (n : BitVec 1) (x y : Rec) (z : Option Rec) : Sweep :=
  { op := op, ty := VTy.of t, rm := Rm.ofCode r, sat := n = 1#1, dst := x, a := y, b := z }

/-- At the start of a run a sweep whose records pass their checks takes its steps. -/
theorem sweepWord_runs {op : SweepOp} {d a : Nat} {b : Option Nat} {t : BitVec 4} {r : BitVec 2} {n : BitVec 1} {s : State} {x y : Rec}
    {z : Option Rec} (rc : s.g.rc = 0) (halt : (s.encl s.g.enc).halted = false)
    (records : List.Forall₂ (ReadsRecord s) (d :: a :: b.toList) (x :: y :: z.toList))
    (good : (sweepOf op t r n x y z).bad (!s.g.p.sweeping) (r ≠ 0) = none) : sweepWord op d a b t r n s =
      (sweepOf op t r n x y z).run 16 (x.pointOf x.idx) 0 (s.modG fun g => g.modP (·.setSweeping true)) := by
  rw [sweepWord, if_neg (by rw [rc]; decide)]
  dsimp only
  rw [withRecords_reads records]
  cases z
  all_goals
    dsimp only [Option.toList]
    unfold sweepOf at good ⊢
    rw [good, halt]
    rfl

theorem run_of_done {w : Sweep} {p : Nat} (h : w.dst.points ≤ p) (k n : Nat) (s : State) :
    w.run k p n s = .next ((s.modG fun g => g.modP (·.setSweeping false)).retire (6 * n)) := by
  unfold Sweep.run
  exact if_pos h

theorem run_lastStep {w : Sweep} {p : Nat} {s u : State} (more : p < w.dst.points) (last : w.dst.points ≤ p + (w.step p).flatten.length)
    {n : Nat} (done : w.runStep p n s = .done u) (k : Nat) :
    w.run (k + 1) p n s = .next ((u.modG fun g => g.modP (·.setSweeping false)).retire (6 * (n + 1))) := by
  rw [← run_of_done last k]
  conv_lhs => unfold Sweep.run
  rw [if_neg (by omega), done]

theorem PathState.setSweeping_setSweeping (p : PathState) : (p.setSweeping true).setSweeping false = p.setSweeping false := by
  simp [PathState.setSweeping]

/-- The place, the registers and the other state of a sweep that completes with the step at a point. -/
def LastStep (s : State) (w : Sweep) (p : Nat) (t : State) : Prop :=
  GoesOn s t ∧ (∀ q, t.g.sr q = s.g.sr q) ∧ (∀ q, t.g.vr q = s.g.vr q) ∧
    t.g.arch = (s.g.modP (·.setSweeping false)).arch ∧ LocalFrame s t ∧ WindowsStand s t ∧ FeAre s (fun _ _ => none) t ∧
    ∃ u, w.runStep p 0 s = .done u ∧ t.g.fpf = u.g.fpf ∧ ∀ k o, memByte (t.core k).pool o = memByte (u.core k).pool o

/-- A sweep's first step, taken while the word is marked as a sweep and then unmarked: the marks cancel. -/
theorem stepped_marked (w : Sweep) (p : Nat) (s : State) :
    (w.stepped p (s.modG fun g => g.modP (·.setSweeping true))).modG (fun g => g.modP (·.setSweeping false)) =
      (w.stepped p s).modG fun _ => (s.g.modP (·.setSweeping false)).orFpf (w.results s p).2 := by
  have twice : (s.g.modP (·.setSweeping true)).modP (·.setSweeping false) = s.g.modP (·.setSweeping false) := by
    rw [Group.modP_modP]
    exact congrArg s.g.modP (funext PathState.setSweeping_setSweeping)
  rw [State.modG_congr (f := fun g => g.modP (·.setSweeping true)) (k := (·.setSlots _ _))
    (s.g.modP_eq_setSlots (·.setSweeping true)), stepped_setSlots, State.modG_modG]
  refine State.modG_congr ?_
  rw [Function.comp_apply, stepped_g, Group.setSlots_modP, Group.orFpf_modP, twice]

/-- A word that issues at a sweep's last step completes as it should. -/
theorem lastStep_of_retire {s : State} {w : Sweep} {p : Nat} (done : w.runStep p 0 s = .done (w.stepped p s)) (n : Nat) :
    LastStep s w p (((w.stepped p s).modG fun _ => (s.g.modP (·.setSweeping false)).orFpf (w.results s p).2).retire n) := by
  generalize hu : (w.stepped p s).modG (fun _ => (s.g.modP (·.setSweeping false)).orFpf (w.results s p).2) = u
  have group : u.g = (s.g.modP (·.setSweeping false)).orFpf (w.results s p).2 := by rw [← hu]; rfl
  have left : PoolOnly s u := by
    rw [← hu]
    refine (poolOnly_stepped w p s).trans (poolOnly_modG _ _ ?_)
    rw [stepped_g, ← Group.setSlots_modP]
    rfl
  have regs : SameRegs s.g u.g := by
    rw [group]
    have marks := sameRegs_modP s.g (·.setSweeping false) fun _ => rfl
    exact marks.trans ⟨rfl, rfl, rfl, rfl, rfl, rfl, fun b => by cases b <;> rfl⟩
  have place : SamePlace s.g u.g := by
    rw [group]
    have marks := samePlace_modP s.g (·.setSweeping false) fun _ => ⟨rfl, rfl, rfl⟩
    exact marks.trans ⟨rfl, rfl, rfl, rfl⟩
  obtain ⟨scalars, vectors, flags, frame⟩ := retire_noEffect n u
  refine ⟨place.goesOn (retire_goesOn n u), fun q => (scalars q).trans (regs.sr q), fun q => (vectors q).trans (regs.vr q), ?_, ?_,
    fun c => ?_, fun c k => ?_, w.stepped p s, done, ?_, fun k o => ?_⟩
  · rw [frame.group, group]
    exact arch_fpf _ _
  · refine ⟨by rw [frame.rest, left.rest], fun c => ?_, fun a => (frame.memory a).trans (left.localFrame.memory a)⟩
    exact (congrArg (fun c : Core => ({ c with pool := [], fe := [], wins := [] } : Core)) (frame.cores c)).trans (left.localFrame.cores c)
  · exact (congrArg Core.wins (frame.cores c)).trans (left.windowsStand c)
  · exact (congrArg (fun x : Core => smGet false x.fe k) (frame.cores c)).trans (left.feAre c k)
  · rw [flags, group, stepped_g]
    exact congrArg (· ||| _) (fpf_modP _ _)
  · rw [frame.pools, ← hu]
    rfl

/-- A sweep at the start of a run whose remaining points are one step completes with it (06 R161). -/
theorem sweepWord_completes {op : SweepOp} {d a : Nat} {b : Option Nat} {t : BitVec 4} {r : BitVec 2} {n : BitVec 1} {s : State} {x y : Rec}
    {z : Option Rec} (rc : s.g.rc = 0) (halt : (s.encl s.g.enc).halted = false)
    (records : List.Forall₂ (ReadsRecord s) (d :: a :: b.toList) (x :: y :: z.toList)) {w : Sweep} (hw : w = sweepOf op t r n x y z)
    (good : w.bad (!s.g.p.sweeping) (r ≠ 0) = none) {p : Nat} (hp : p = x.pointOf x.idx) (more : p < x.points)
    (last : x.points ≤ p + (w.step p).flatten.length)
    (pass : ∀ q ∈ (w.step p).flatten, ∀ e ∈ w.accesses q, ∃ l, LocalOk s e.1 4 4 e.2 l) :
    ∃ t', sweepWord op d a b t r n s = .next t' ∧ LastStep s w p t' := by
  have marks : PoolOnly s (s.modG fun g => g.modP (·.setSweeping true)) :=
    poolOnly_modG _ _ (sameAlloc_modP _ _)
  have done := runStep_done (s := s.modG fun g => g.modP (·.setSweeping true)) (fun q hq e he => by
    obtain ⟨l, ok⟩ := pass q hq e he
    exact ⟨l, marks.localOk ok⟩) 0
  refine ⟨_, ?_, lastStep_of_retire (runStep_done pass 0) (6 * (0 + 1))⟩
  subst hw hp
  rw [sweepWord_runs rc halt records good, ← stepped_marked]
  exact run_lastStep more last done 15

/-- Later in a run a boundary comes before a sweep (06 R161). -/
theorem sweepWord_boundary {op : SweepOp} {d a : Nat} {b : Option Nat} {t : BitVec 4} {r : BitVec 2} {n : BitVec 1} {s : State}
    (rc : s.g.rc ≠ 0) : ∃ t', sweepWord op d a b t r n s = .next t' ∧ t' = { s with g := t'.g } ∧ SameRegisters s t' ∧ t'.g.rc = 0 ∧
      t'.g.runOver = true ∧ t'.g.p.pc = s.g.p.pc ∧ t'.g.p.cwi = s.g.p.cwi := by
  have regs := (sameRegs_noteHints s.g).trans (sameRegs_boundary _)
  have path : s.g.noteHints.boundary.p = s.g.p := s.g.noteHints_p
  refine ⟨_, if_pos rc, rfl, ⟨regs.sr, regs.vr, (noteHints_sameFile s.g).fpf⟩, rfl, rfl,
    congrArg PathState.pc path, congrArg PathState.cwi path⟩

theorem sweepB_of_ne {b : Reg} (h : b ≠ 63) : sweepB b = some b.toNat := if_neg h

end Sys2Proof.Machine

namespace Sys2Proof.Proofs

open Sys2Proof.Machine

/-- Settles O19: each form is `sweepWord` with its operation, whose records, step and retirement are known by lemma. -/
theorem sweepsComplete : Obligations.SweepsComplete := by
  intro s d a b c t r n x y z w p fits runs forms
  refine ⟨fun rc => ?later, fun rc halt readsD readsA => ⟨?one, ?two, ?cvt, ?fma⟩⟩
  case later =>
    simp only [forms, List.forall_mem_cons]
    exact ⟨sweepWord_boundary rc, sweepWord_boundary rc, sweepWord_boundary rc, sweepWord_boundary rc, sweepWord_boundary rc,
      sweepWord_boundary rc, fun _ h => nomatch h⟩
  all_goals
    have done {op : SweepOp} {b : Option Nat} {k : Option Rec} (records : List.Forall₂ (ReadsRecord s) b.toList k.toList)
        (h : fits (w op k)) : ∃ t', sweepWord op d.toNat a.toNat b t r n s = .next t' ∧ LastStep s (w op k) p t' := by
      obtain ⟨good, more, last, pass⟩ := h
      exact sweepWord_completes rc halt (.cons readsD (.cons readsA records)) rfl good rfl more last pass
  case one =>
    rintro rfl
    exact ⟨done .nil, done .nil, done .nil, done .nil⟩
  case two =>
    intro hb readsB
    have complete (op : SweepOp) (h : fits (w op (some z))) :
        ∃ t', sweepWord op d.toNat a.toNat (sweepB b) t r n s = .next t' ∧ LastStep s (w op (some z)) p t' := by
      rw [sweepB_of_ne hb]
      exact done (.cons readsB .nil) h
    exact ⟨complete .add, complete .mul, complete .max, complete .min⟩
  case cvt => exact done .nil
  case fma => exact fun readsC => done (.cons readsC .nil)

end Sys2Proof.Proofs
end

section
/-! PROOFS. Words that change their path slot's bookkeeping: what a word leaves that holds, parks or goes on after such a change
(01 R16, R24, R25). -/

namespace Sys2Proof.Machine

/-- Two groups with the same registers and flags, at the same place in the code. -/
structure StandsAt (g h : Group) : Prop where
  regs : SameRegs g h
  flags : h.fpf = g.fpf
  place : SamePlace g h

theorem StandsAt.refl (g : Group) : StandsAt g g := ⟨.refl g, rfl, .refl g⟩
theorem StandsAt.trans {g h k : Group} (a : StandsAt g h) (b : StandsAt h k) : StandsAt g k :=
  ⟨a.regs.trans b.regs, b.flags.trans a.flags, a.place.trans b.place⟩

/-- A change of the executing path slot that keeps its mask and its place. -/
theorem standsAt_modP (g : Group) (f : PathState → PathState) (mask : ∀ p, (f p).mask = p.mask)
    (place : ∀ p, (f p).pc = p.pc ∧ (f p).cwi = p.cwi ∧ (f p).hdr = p.hdr) : StandsAt g (g.modP f) :=
  ⟨sameRegs_modP g f mask, fpf_modP g f, samePlace_modP g f place⟩

/-- The same change of both path slots. -/
theorem standsAt_paths (g : Group) (f : PathState → PathState) (mask : ∀ p, (f p).mask = p.mask)
    (place : ∀ p, (f p).pc = p.pc ∧ (f p).cwi = p.cwi ∧ (f p).hdr = p.hdr) : StandsAt g { g with t := f g.t, f := f g.f } := by
  have slot : ({ g with t := f g.t, f := f g.f } : Group).p = f g.p := by
    unfold Group.p Group.path
    cases g.curF <;> rfl
  obtain ⟨pc, cwi, hdr⟩ := place g.p
  exact ⟨⟨rfl, rfl, rfl, rfl, rfl, rfl, fun b => by cases b <;> exact mask _⟩, rfl,
    ⟨rfl, by rw [slot, pc], by rw [slot, cwi], by rw [slot, hdr]⟩⟩

theorem standsAt_evt (g : Group) (e : Option EvtHold) : StandsAt g { g with evt := e } :=
  ⟨⟨rfl, rfl, rfl, rfl, rfl, rfl, fun b => by cases b <;> rfl⟩, rfl, ⟨rfl, rfl, rfl, rfl⟩⟩

theorem Translates.standsAt {s t : State} (a : Translates s t) : StandsAt s.g t.g := by
  rw [a.group]
  exact .refl _

theorem StandsAt.sameRegisters {s t u : State} (a : StandsAt s.g t.g) (b : SameRegisters t u) : SameRegisters s u :=
  ⟨fun r => (b.1 r).trans (a.regs.sr r), fun r => (b.2.1 r).trans (a.regs.vr r), b.2.2.trans a.flags⟩

theorem farFrame_modG (s : State) (f : Group → Group) : FarFrame s (s.modG f) := farFrame_of_cores rfl fun _ => rfl

/-! ### Holding, parking and going on after a change -/

/-- A word that goes on after a change of bookkeeping. -/
theorem StandsAt.retire {s t : State} (a : StandsAt s.g t.g) (n : Nat) : SameRegisters s (t.retire n) ∧ GoesOn s (t.retire n) := by
  obtain ⟨scalars, vectors, flags, -⟩ := retire_noEffect n t
  exact ⟨a.sameRegisters ⟨scalars, vectors, flags⟩, a.place.goesOn (retire_goesOn n t)⟩

theorem farFrame_retire (n : Nat) (s : State) : FarFrame s (s.retire n) := farFrame_noEffect (retire_noEffect n s)
theorem nearStands_retire (n : Nat) (s : State) : NearStands s (s.retire n) :=
  fun c => congrArg (·.near) ((retire_noEffect n s).frame.cores c)

/-- A word that holds its slot after a change of bookkeeping. -/
theorem StandsAt.holds {s t u : State} (a : StandsAt s.g t.g) (f : FarFrame s t) (h : Holds t u) : Holds s u := by
  obtain ⟨held, regs, pc, cwi, frame⟩ := h
  exact ⟨held, a.sameRegisters regs, pc.trans a.place.pc, cwi.trans a.place.cwi, f.trans frame⟩

/-- A word that parks after a change of bookkeeping. -/
theorem StandsAt.parks {s t u : State} {w : Park} (a : StandsAt s.g t.g) (f : FarFrame s t) (h : Parks t w u) : Parks s w u := by
  obtain ⟨stat, park, rc, ends, pc, cwi, regs, frame⟩ := h
  exact ⟨stat, park, rc, ends, pc.trans a.place.pc, cwi.trans a.place.cwi, a.sameRegisters regs, f.trans frame⟩

/-! ### What else stands in the group -/

theorem State.retire_g (n : Nat) (s : State) : (s.retire n).g = s.g.advance := by rw [State.retire, State.modG_g, State.spendWord_g]

/-- A retired word changes only the place in the code of its path slot. -/
theorem Group.advance_slot (g : Group) : g.advance.p =
    { g.p with pc := g.advance.p.pc, cwi := g.advance.p.cwi, hdr := g.advance.p.hdr, noMatch := g.advance.p.noMatch } := by
  have ended (h : Group) : h.clauseEnd.p = h.p := by unfold Group.p; rw [h.clauseEnd_curF, h.clauseEnd_path]
  unfold Group.advance
  dsimp only
  split
  · rw [Group.modP_p, ended]; rfl
  · rw [Group.modP_p]; rfl

theorem Group.advance_evt (g : Group) : g.advance.evt = g.evt := by
  have kept (h : Group) : h.arch.evt = h.evt := by simp [Group.arch]
  rw [← kept, arch_advance, kept]
theorem Group.advance_team (g : Group) : g.advance.team = g.team := by
  have kept (h : Group) : h.arch.team = h.team := by simp [Group.arch]
  rw [← kept, arch_advance, kept]

/-- The group of a path slot that parks. -/
theorem State.park_g (s : State) (w : Park) : (s.park w).g = { s.g.modP fun p => { p with park := some w } with
    y := s.g.noteHints.y, lastPh := s.g.noteHints.lastPh, rc := 0, runOver := true, winRet := none, stat := .parked } := by
  have hints : s.g.noteHints = { s.g with y := s.g.noteHints.y, lastPh := s.g.noteHints.lastPh } := by
    unfold Group.noteHints
    split <;> rfl
  unfold State.park
  rw [State.modG_g, hints]
  unfold Group.modP Group.setP Group.p
  cases hc : s.g.curF <;> simp [Group.setPath, Group.path, Group.boundary, hc]

theorem State.park_p (s : State) (w : Park) : (s.park w).g.p = { s.g.p with park := some w } := by
  rw [s.park_g]
  exact Group.modP_p _ _

end Sys2Proof.Machine
end

section
/-! PROOFS. Joins and events (07 R166, R167); O34. -/

namespace Sys2Proof.Machine

/-! ### Joins (07 R166) -/

/-- A path slot after a grid retires with an id: a join that waits on it has completed. -/
def PathState.joinEnds (k : Nat) (h : Option Nat) (p : PathState) : PathState :=
  if p.joinOf = some k then { p with joinOf := none, joined := h } else p

theorem PathState.joinEnds_mask (k : Nat) (h : Option Nat) (p : PathState) : (p.joinEnds k h).mask = p.mask := by
  unfold PathState.joinEnds
  split <;> rfl
theorem PathState.joinEnds_place (k : Nat) (h : Option Nat) (p : PathState) :
    (p.joinEnds k h).pc = p.pc ∧ (p.joinEnds k h).cwi = p.cwi ∧ (p.joinEnds k h).hdr = p.hdr := by
  unfold PathState.joinEnds
  split <;> exact ⟨rfl, rfl, rfl⟩

/-- A group after a grid retires with an id. -/
def Group.joinEnds (k : Nat) (h : Option Nat) (g : Group) : Group := { g with t := g.t.joinEnds k h, f := g.f.joinEnds k h }

theorem State.retireGrid_eq (s : State) (k : Nat) : s.retireGrid k =
    { s with tasks := (s.modTask k fun t => { t with retired := true }).tasks, g := s.g.joinEnds k ((s.task k).map Task.grid)
             groups := s.groups.map fun x => (x.1, x.2.joinEnds k ((s.task k).map Task.grid)) } := by
  unfold State.retireGrid
  rw [s.modTask_rest]
  rfl

/-- The state of a join that completes: it waits on nothing and goes on. -/
def State.joinCompletes (s : State) : State := (s.modG fun g => g.modP fun p => { p with joinOf := none, joined := none }).retire 1

/-- The state once a join on `need` teams of a grid is met: the grid retires where every team is needed (07 R166). -/
def State.joinOn (s : State) (x : Task) (need : Nat) : State := if need = x.teams then s.retireGrid x.id else s

theorem joinOn_standsAt (s : State) (x : Task) (need : Nat) : StandsAt s.g (s.joinOn x need).g := by
  unfold State.joinOn
  split
  · rw [s.retireGrid_eq]
    exact standsAt_paths s.g _ (PathState.joinEnds_mask _ _) (PathState.joinEnds_place _ _)
  · exact .refl _

theorem joinOn_rest (s : State) (x : Task) (need : Nat) : s.joinOn x need =
    { s with tasks := (s.joinOn x need).tasks, g := (s.joinOn x need).g, groups := (s.joinOn x need).groups } := by
  unfold State.joinOn
  split
  · rw [s.retireGrid_eq]
  · rfl

theorem joinOn_task {s : State} {x y : Task} (need : Nat) (h : s.task x.id = some y) :
    (s.joinOn x need).task x.id = some { y with retired := y.retired || (need = x.teams : Bool) } := by
  unfold State.joinOn
  split
  · next all =>
    rw [s.retireGrid_eq]
    refine (State.task_modTask s x.id _ x.id).trans ?_
    simp [h, all]
  · next few => simp [h, few]

/-- Every join that waits on a grid which retires has completed. -/
theorem joinOn_joins {s : State} {x y : Task} {need : Nat} (all : need = x.teams) (hy : s.task x.id = some y) {i : Nat} {g : Group}
    (hg : (i, g) ∈ s.groups) (waits : g.t.joinOf = some x.id) :
    ∃ g', (i, g') ∈ (s.joinOn x need).groups ∧ g'.t = { g.t with joinOf := none, joined := some y.grid } := by
  refine ⟨g.joinEnds x.id (some y.grid), ?_, if_pos waits⟩
  rw [State.joinOn, if_pos all, s.retireGrid_eq, hy]
  exact List.mem_map.2 ⟨(i, g), hg, rfl⟩

/-- What a join leaves that completes. -/
theorem joinCompletes_leaves {s t : State} (a : StandsAt s.g t.g) : (SameRegisters s t.joinCompletes ∧ GoesOn s t.joinCompletes) ∧
    t.joinCompletes.g.p.joined = none ∧ NearStands t t.joinCompletes ∧
    t.joinCompletes = { t with g := t.joinCompletes.g, cores := t.joinCompletes.cores } := by
  let f (p : PathState) : PathState := { p with joinOf := none, joined := none }
  let u := t.modG fun g => g.modP f
  have ends : StandsAt s.g u.g := a.trans (standsAt_modP t.g f (fun _ => rfl) fun _ => ⟨rfl, rfl, rfl⟩)
  refine ⟨ends.retire 1, ?_, nearStands_retire 1 u, (retire_noEffect 1 u).frame.rest⟩
  rw [State.joinCompletes, State.retire_g, Group.advance_slot, State.modG_g, Group.modP_p]

section
variable {s : State} {a b : Reg}

theorem execJoin_joined (h : s.g.p.joined = some (s.g.sr a).toNat) : execJoin a b s = .next s.joinCompletes := if_pos h

theorem execJoin_privilege (h : s.g.p.joined ≠ some (s.g.sr a).toNat)
    (bad : 2 ^ 24 ≤ (s.g.sr a).toNat ∨ s.childGrid s.g (s.g.sr a).toNat = none) :
    execJoin a b s = .next (s.takeFault .privilege (s.g.sr a)) := by
  refine (if_neg h).trans ?_
  split
  · rfl
  · next small => rw [bad.resolve_left small]

theorem execJoin_child {x : Task} (h : s.g.p.joined ≠ some (s.g.sr a).toNat) (small : (s.g.sr a).toNat < 2 ^ 24)
    (child : s.childGrid s.g (s.g.sr a).toNat = some x) : execJoin a b s =
      let need := if (s.g.sr b).toNat = 0 ∨ x.teams ≤ (s.g.sr b).toNat then x.teams else (s.g.sr b).toNat
      if x.published < need then .next ((s.modG fun g => g.modP fun p => { p with joinOf := some x.id }).park (.join x.id need))
      else .next (s.joinOn x need).joinCompletes := by
  refine (if_neg h).trans ((if_neg (Nat.not_le.2 small)).trans ?_)
  rw [child]
  rfl

end

/-! ### What translation leaves of the rest of the state -/

/-- From `s` to `t` nothing but cores and dies changes. -/
def CoresDies (s t : State) : Prop := t = { s with cores := t.cores, dies := t.dies }

theorem CoresDies.trans {s t u : State} (a : CoresDies s t) (b : CoresDies t u) : CoresDies s u := by
  unfold CoresDies at *
  rw [b, a]

theorem coresDies_refill (s : State) (g : Group) (va : Nat) (k : Acc) : CoresDies s (s.refill g va k) := by
  unfold State.refill
  split <;> rfl

theorem coresDies_translated (s : State) (g : Group) (vas : List Nat) (k : Acc) : CoresDies s (s.translated g vas k) := by
  unfold State.translated
  refine List.foldlRecOn (motive := CoresDies s) _ _ ?_ fun _ a _ _ => a.trans (coresDies_refill _ _ _ _)
  unfold State.clearWalks State.forgetWalks
  refine CoresDies.trans (t := ite _ _ _) ?_ rfl
  split
  · rfl
  · have quiet := quiet_spend s (accLeaf k) 6
    unfold CoresDies
    rw [quiet.rest]

theorem CoresDies.packageLeaf {s t : State} (a : CoresDies s t) : t.packageLeaf = s.packageLeaf := by
  rw [show t = _ from a]
  rfl

theorem CoresDies.peek {s t : State} (a : CoresDies s t) (part cls die pa n : Nat) :
    t.peek part cls die pa n = s.peek part cls die pa n := by
  rw [show t = _ from a]
  rfl

theorem translates_passedFar (s : State) (va : Int) (len : Nat) (k : Acc) (heap : Bool) : Translates s (s.passedFar va len k heap) :=
  (Translates.refl s).translated
theorem coresDies_passedFar (s : State) (va : Int) (len : Nat) (k : Acc) (heap : Bool) : CoresDies s (s.passedFar va len k heap) :=
  coresDies_translated _ _ _ _

theorem withAtomic_ok {s : State} {a : Reg} {op : Atom} {pas : List Nat} {heap : Bool}
    (h : FarOk s (s.g.sr a).toNat op.w op.w .atomic (some op) pas heap) (k : List Nat → Bool → State → Out) :
    withAtomic a op k s = k pas heap (s.passedFar (s.g.sr a).toNat op.w .atomic heap) := withFar_ok h _

/-! ### Requests with a change of the group -/

/-- A request that leaves after a change of the executing path slot. -/
theorem Sends.afterModP {s t : State} {f : PathState → PathState} {k : Group → Group} {ok : Req → Prop}
    (h : Sends (s.modG fun g => g.modP f) k ok t) (a : StandsAt s.g (s.g.modP f)) : Sends s (fun g => k (g.modP f)) ok t := by
  obtain ⟨q, fits, path, waiting, group, regs, frame⟩ := h
  refine ⟨q, fits, path.trans a.place.curF, waiting, group.trans ?_, StandsAt.sameRegisters (t := s.modG fun g => g.modP f) a regs,
    (farFrame_modG s _).trans frame⟩
  have joined : ({ s.g.modP f with reqs := (s.g.modP f).reqs ++ [q] } : Group) = ({ s.g with reqs := s.g.reqs ++ [q] } : Group).modP f := by
    unfold Group.modP Group.setP Group.p
    cases hc : s.g.curF <;> simp [Group.setPath, Group.path, hc]
  exact congrArg (fun g => (k g).arch) joined

theorem Group.arch_evt (g : Group) (e : Option EvtHold) : ({ g with evt := e } : Group).arch = { g.arch with evt := e } := by
  unfold Group.arch Group.modP Group.setP Group.p
  cases hc : g.curF <;> simp [Group.setPath, Group.path, hc]

/-- A request whose word waits for its answer. -/
theorem Sends.waits {s t : State} {ok : Req → Prop} (h : Sends s id ok t) (e : Option EvtHold) (leaf : Nat) :
    Sends s (fun g => { g with evt := e }) ok ((t.modG fun g => { g with evt := e }).hold leaf) := by
  obtain ⟨q, fits, path, waiting, group, regs, frame⟩ := h
  obtain ⟨-, stands, -, -, holds⟩ := hold_holds (.refl (t.modG fun g => { g with evt := e })) leaf
  refine ⟨q, fits, path, waiting, ?_, ?_, (frame.trans (farFrame_modG t _)).trans holds⟩
  · rw [State.hold_g, State.modG_g, Group.arch_evt, group]
    exact (Group.arch_evt _ e).symm
  · obtain ⟨scalars, vectors, flags⟩ := regs
    have held := StandsAt.sameRegisters (standsAt_evt t.g e) stands
    exact ⟨fun r => (held.1 r).trans (scalars r), fun r => (held.2.1 r).trans (vectors r), held.2.2.trans flags⟩

/-! ### evt.pub (07 R167) -/

theorem packageRelease_now {s : State} (h : s.packageLeaf = none) (k : State → Out) :
    packageRelease k s = k (s.modG Group.fenceDone) := by
  unfold packageRelease
  rw [h]

theorem packageRelease_waits {s : State} {leaf : Nat} (h : s.packageLeaf = some leaf) (k : State → Out) :
    packageRelease k s = .next (s.holdFence leaf) := by
  unfold packageRelease
  rw [h]

/-- A fence that waits holds its slot. -/
theorem holdFence_holds {s t : State} (a : Translates s t) (leaf : Nat) : Holds s (t.holdFence leaf) := by
  let f (p : PathState) : PathState := { p with fence := some (p.fence.getD t.seq) }
  have noted : StandsAt s.g (t.modG fun g => g.modP f).g :=
    a.standsAt.trans (standsAt_modP t.g f (fun _ => rfl) fun _ => ⟨rfl, rfl, rfl⟩)
  exact noted.holds (a.frame.trans (farFrame_modG t _)) (hold_holds (.refl _) leaf)

/-- A release and a request: the group's earlier stores are visible, and the request leaves. -/
theorem release_sends {s u : State} (moved : Translates s u) {op : Atom} {pas : List Nat} {heap : Bool} {va : Nat} (room : s.g.p.ld < 63) :
    ∃ t, sendAtomic .zero op pas heap true va (State.retire 1) (u.modG Group.fenceDone) = .next t ∧
      Sends s (fun g => g.fenceDone.moreLd) (fun q => q.atom = some op ∧ q.elems = [{ lane := 0, va := va, pas := pas }]) t := by
  have stands : StandsAt s.g s.g.fenceDone := standsAt_modP s.g _ (fun _ => rfl) fun _ => ⟨rfl, rfl, rfl⟩
  have after : Translates (s.modG Group.fenceDone) (u.modG Group.fenceDone) :=
    ⟨congrArg Group.fenceDone moved.group, by rw [moved.frame.rest]; rfl, moved.frame.pools⟩
  have free : ¬(true = true ∧ 63 ≤ (u.modG Group.fenceDone).g.p.ld) := by
    rw [State.modG_g, moved.group, Group.fenceDone, Group.modP_p]
    exact fun full => absurd full.2 (Nat.not_le.2 room)
  refine ⟨_, if_neg free, Sends.afterModP (k := Group.moreLd) ?_ stands⟩
  exact send_sends (counted := true) after (retire_noEffect 1) (fun _ _ _ => ⟨rfl, rfl⟩) (congrArg (·.curF) after.group) rfl

/-! ### evt.wait (07 R167) -/

/-- A request whose answer the group waits for. -/
theorem event_sends {s u : State} (moved : Translates s u) (op : Atom) (pas : List Nat) (heap : Bool) (va : Nat) (e : Option EvtHold) :
    ∃ t, sendAtomic .zero op pas heap false va (fun s => (s.modG fun g => { g with evt := e }).hold leafLd) u = .next t ∧
      t.held = true ∧
      Sends s (fun g => { g with evt := e }) (fun q => q.atom = some op ∧ q.elems = [{ lane := 0, va := va, pas := pas }]) t := by
  refine ⟨_, if_neg (by simp), rfl, Sends.waits ?_ e leafLd⟩
  exact send_sends (retire := id) (counted := false) moved (fun v => quiet_noEffect (.refl v)) (fun _ _ _ => ⟨rfl, rfl⟩)
    (congrArg (·.curF) moved.group) rfl

/-- The word of an event as the atomic would find it (07 R167). -/
def State.eventWord (s : State) (pa : Nat) : Nat := leNat (s.peek (s.partOf s.g) (s.clsOf pa) (dieOfCore s.g.core) pa 8)

theorem eventWord_moved {s u : State} (group : u.g = s.g) (a : CoresDies s u) (pa : Nat) : u.eventWord pa = s.eventWord pa := by
  unfold State.eventWord
  rw [a.peek, group, show u = _ from a]
  rfl

section
variable {s : State} {a : Reg}

theorem execEvtWait_free (free : s.g.evt = none) {pas : List Nat} {heap : Bool}
    (h : FarOk s (s.g.sr a).toNat 8 8 .atomic (some (eventAtom .evtWait)) pas heap) : execEvtWait a s =
      if s.eventWord (pas.headD 0) = 0 then .next ((s.passedFar (s.g.sr a).toNat 8 .atomic heap).park (.event (s.g.sr a).toNat))
      else sendAtomic .zero (eventAtom .evtWait) pas heap false (s.g.sr a).toNat
        (fun s => (s.modG fun g => { g with evt := some ⟨pas.headD 0, none⟩ }).hold leafLd)
        (s.passedFar (s.g.sr a).toNat 8 .atomic heap) := by
  have same := eventWord_moved (translates_passedFar s (s.g.sr a).toNat 8 .atomic heap).group (coresDies_passedFar s _ 8 .atomic heap)
    (pas.headD 0)
  rw [← same, execEvtWait, free]
  exact withAtomic_ok h _

theorem execEvtWait_held {pa : Nat} (h : s.g.evt = some ⟨pa, none⟩) : execEvtWait a s = .next (s.hold leafLd) := by
  unfold execEvtWait
  rw [h]

theorem execEvtWait_back {pa : Nat} {old : Word} (h : s.g.evt = some ⟨pa, some old⟩) : execEvtWait a s =
    if old = 0 then .next ((s.modG fun g => { g with evt := none }).park (.event (s.g.sr a).toNat))
    else .next ((s.modG fun g => { g with evt := none }).retire 1) := by
  unfold execEvtWait
  rw [h]

end

end Sys2Proof.Machine

namespace Sys2Proof.Proofs

open Sys2Proof Sys2Proof.Machine

/-- Settles O34: a join or a wait that completes changes only its bookkeeping before it goes on, and what an event's translation changes
is read by neither the release nor the test of the word. -/
theorem joinAndEvents : Obligations.JoinAndEvents := by
  unfold Obligations.JoinAndEvents
  intro s a b pas heap x old at1 h n need va pa ev req word
  have join : exec (.join a b) s = execJoin a b s := rfl
  refine ⟨fun joined => ?joined, fun new bad => ⟨_, join.trans (execJoin_privilege new bad), takeFault_faults _ _ _⟩,
    fun new small child => ⟨fun few => ?waits, fun enough => ?done⟩, fun ok room visible => ?published, fun ok hidden => ?hidden,
    fun free ok => ⟨fun zero => ?zero, fun found => ?sent⟩, fun held => ⟨_, execEvtWait_held held, hold_holds (.refl s) _⟩,
    fun back taken => ?taken, fun back => ?missed⟩
  case joined =>
    obtain ⟨⟨regs, goes⟩, ended, near, rest⟩ := joinCompletes_leaves (.refl s.g)
    exact ⟨_, join.trans (execJoin_joined joined), regs, goes, ended, near, by rw [rest]⟩
  case waits =>
    let f (p : PathState) : PathState := { p with joinOf := some x.id }
    let u := s.modG fun g => g.modP f
    have noted : StandsAt s.g u.g := standsAt_modP s.g f (fun _ => rfl) fun _ => ⟨rfl, rfl, rfl⟩
    refine ⟨_, join.trans ((execJoin_child new small child).trans (if_pos few)), noted.parks (farFrame_modG s _) (park_parks u _), ?_⟩
    rw [State.park_p, State.modG_g, Group.modP_p]
  case done =>
    obtain ⟨⟨regs, goes⟩, -, near, rest⟩ := joinCompletes_leaves (joinOn_standsAt s x need)
    have kept := joinOn_rest s x need
    refine ⟨_, join.trans ((execJoin_child new small child).trans (if_neg (Nat.not_lt.2 enough))), regs, goes,
      fun c => (near c).trans (by rw [kept]; rfl), fun y hy => ?_, fun all y hy i g hg waits => ?_, by rw [rest, kept]⟩
    · have retired := joinOn_task need hy
      rw [rest]
      exact retired
    · rw [rest]
      exact joinOn_joins all hy hg waits
  case published =>
    obtain ⟨t, ht, sends⟩ := release_sends (op := eventAtom .evtPub) (pas := pas) (heap := heap) (va := va)
      (translates_passedFar s va 8 .atomic heap) room
    refine ⟨t, ((withAtomic_ok ok _).trans (packageRelease_now ?_ _)).trans ht, sends⟩
    exact (coresDies_passedFar s va 8 .atomic heap).packageLeaf.trans visible
  case hidden =>
    obtain ⟨leaf, hl⟩ := Option.ne_none_iff_exists'.1 hidden
    refine ⟨_, (withAtomic_ok ok _).trans (packageRelease_waits ?_ _), holdFence_holds (translates_passedFar s va 8 .atomic heap) leaf⟩
    exact (coresDies_passedFar s va 8 .atomic heap).packageLeaf.trans hl
  case zero =>
    have moved := translates_passedFar s va 8 .atomic heap
    exact ⟨_, (execEvtWait_free free ok).trans (if_pos zero), moved.standsAt.parks moved.frame (park_parks _ _)⟩
  case sent =>
    obtain ⟨t, ht, held, sends⟩ := event_sends (translates_passedFar s va 8 .atomic heap) (eventAtom .evtWait) pas heap va
      (some ⟨pa, none⟩)
    exact ⟨t, ((execEvtWait_free free ok).trans (if_neg found)).trans ht, held, sends⟩
  case taken =>
    let u := s.modG fun g => { g with evt := none }
    have stands : StandsAt s.g u.g := standsAt_evt s.g none
    refine ⟨_, (execEvtWait_back back).trans (if_neg taken), (stands.retire 1).1, (stands.retire 1).2, ?_, nearStands_retire 1 u,
      (farFrame_modG s _).trans (farFrame_retire 1 u)⟩
    rw [State.retire_g, Group.advance_evt]
    rfl
  case missed =>
    let u := s.modG fun g => { g with evt := none }
    have stands : StandsAt s.g u.g := standsAt_evt s.g none
    refine ⟨_, (execEvtWait_back back).trans (if_pos rfl), stands.parks (farFrame_modG s _) (park_parks u _), ?_⟩
    rw [State.park_g]
    exact Group.modP_evt _ _

end Sys2Proof.Proofs
end

section
/-! PROOFS. Barriers (07 R168, R169); O35. -/

namespace Sys2Proof.Machine

/-! ### A barrier's state -/

theorem State.barrier_congr {s t : State} (hg : t.g.team = s.g.team) (hm : t.teams = s.teams) (n : Nat) : t.barrier n = s.barrier n := by
  unfold State.barrier State.team
  rw [hg, hm]

theorem State.setBarrier_rest (s : State) (n : Nat) (b : Barrier) : s.setBarrier n b = { s with teams := (s.setBarrier n b).teams } :=
  s.modTeam_rest _ _

/-- Of a team that exists, the barrier that is written is read back and each other stands. -/
theorem State.barrier_setBarrier {s : State} {tm : Team} (ht : s.team s.g.team = some tm) (n : Nat) (b : Barrier) (j : Nat) :
    (s.setBarrier n b).barrier j = if j = n then b else s.barrier j := by
  have group : (s.setBarrier n b).g = s.g := by rw [s.setBarrier_rest]
  unfold State.barrier
  rw [group, State.setBarrier, State.team_modTeam, if_pos rfl, ht]
  exact smGet_smSet _ _ _ _ _

/-! ### What a barrier word leaves -/

/-- From `s` to `t` registers, flags and place stand, and beside the teams only what a far word changes. -/
structure AtBarrier (s t : State) : Prop where
  stands : StandsAt s.g t.g
  frame : FarFrame s { t with teams := s.teams }

theorem AtBarrier.refl (s : State) : AtBarrier s s := ⟨.refl _, .refl _⟩

theorem AtBarrier.setBarrier {s t : State} (a : AtBarrier s t) (n : Nat) (b : Barrier) : AtBarrier s (t.setBarrier n b) := by
  rw [t.setBarrier_rest]
  exact ⟨a.stands, a.frame⟩

theorem AtBarrier.modP {s t : State} (a : AtBarrier s t) (f : PathState → PathState) (mask : ∀ p, (f p).mask = p.mask)
    (place : ∀ p, (f p).pc = p.pc ∧ (f p).cwi = p.cwi ∧ (f p).hdr = p.hdr) : AtBarrier s (t.modG fun g => g.modP f) :=
  ⟨a.stands.trans (standsAt_modP _ f mask place), a.frame.trans (farFrame_of_cores rfl fun _ => rfl)⟩

theorem AtBarrier.retire {s t : State} (a : AtBarrier s t) (n : Nat) :
    SameRegisters s (t.retire n) ∧ FarFrame s { t.retire n with teams := s.teams } := by
  obtain ⟨rest, pools⟩ := farFrame_retire n t
  have frame : FarFrame { t with teams := s.teams } { t.retire n with teams := s.teams } := ⟨by rw [rest], pools⟩
  exact ⟨(a.stands.retire n).1, a.frame.trans frame⟩

theorem State.barrier_modP (s : State) (f : PathState → PathState) (j : Nat) : (s.modG fun g => g.modP f).barrier j = s.barrier j :=
  State.barrier_congr (t := s.modG fun g => g.modP f) (Group.modP_team s.g f) rfl j
theorem State.barrier_retire (s : State) (n j : Nat) : (s.retire n).barrier j = s.barrier j :=
  State.barrier_congr (by rw [s.retire_g, Group.advance_team]) (by rw [(retire_noEffect n s).frame.rest]) j
theorem State.barrier_park (s : State) (w : Park) (j : Nat) : (s.park w).barrier j = s.barrier j :=
  State.barrier_congr (s := s) (t := s.park w) (by rw [s.park_g]; exact Group.modP_team s.g _) rfl j

/-! ### Arriving (07 R168) -/

/-- The count of an arrival is one that its barrier takes. -/
def CountFits (s : State) (n : Nat) (c : Word) : Prop :=
  c ≠ 0 ∧ c.toNat ≤ s.g.teamGroups ∧ ((s.barrier n).a = 0 ∨ c.toNat = (s.barrier n).c)

/-- No earlier store of the path slot is outstanding that an arrival waits for. -/
def StoresDone (s : State) : Prop := s.g.p.st = 0 ∧ (s.g.pair = true → s.g.p.rst = 0)

/-- A barrier after an arrival with a count: the last one starts the next generation. -/
def Barrier.arrived (b : Barrier) (c : Nat) : Barrier :=
  if b.a + 1 = c then { c := c, a := 0, g := b.g + 1 } else { b with c := c, a := b.a + 1 }

/-- The state of a path slot that has arrived at a barrier and holds its token. -/
def State.arrivedAt (s : State) (n : Nat) (c : Word) : State :=
  (s.setBarrier n ((s.barrier n).arrived c.toNat)).modG fun g => g.modP fun p => { p with toks := smPut p.toks n (s.barrier n).g }

theorem countFits_iff {s : State} {n : Nat} {c : Word} :
    CountFits s n c ↔ ¬(c = 0 ∨ s.g.teamGroups < c.toNat ∨ ((s.barrier n).a ≠ 0 ∧ c.toNat ≠ (s.barrier n).c)) := by
  simp only [CountFits, not_or, not_and_or, not_not, Nat.not_lt, ne_eq]

theorem arrive_misfit {s : State} {a : Reg} {n : Nat} (h : ¬CountFits s n (s.g.sr a)) (k : State → Out) :
    arrive a n k s = .next (s.takeFault .barrierCount (s.g.sr a)) :=
  if_pos (not_not.1 (mt countFits_iff.2 h))

theorem arrive_fits {s : State} {a : Reg} {n : Nat} (h : CountFits s n (s.g.sr a)) (k : State → Out) :
    arrive a n k s = if s.g.p.st ≠ 0 ∨ (s.g.pair = true ∧ s.g.p.rst ≠ 0) then .next (s.hold leafSt)
      else k (s.arrivedAt n (s.g.sr a)) :=
  if_neg (countFits_iff.1 h)

theorem arrive_waits {s : State} {a : Reg} {n : Nat} (h : CountFits s n (s.g.sr a)) (hs : ¬StoresDone s) (k : State → Out) :
    arrive a n k s = .next (s.hold leafSt) := by
  refine (arrive_fits h k).trans (if_pos ?_)
  unfold StoresDone at hs
  tauto

theorem arrive_counts {s : State} {a : Reg} {n : Nat} (h : CountFits s n (s.g.sr a)) (hs : StoresDone s) (k : State → Out) :
    arrive a n k s = k (s.arrivedAt n (s.g.sr a)) := by
  refine (arrive_fits h k).trans (if_neg ?_)
  unfold StoresDone at hs
  tauto

theorem arrivedAt_atBarrier (s : State) (n : Nat) (c : Word) : AtBarrier s (s.arrivedAt n c) :=
  ((AtBarrier.refl s).setBarrier n _).modP _ (fun _ => rfl) fun _ => ⟨rfl, rfl, rfl⟩

theorem arrivedAt_barrier {s : State} {tm : Team} (ht : s.team s.g.team = some tm) (n : Nat) (c : Word) (j : Nat) :
    (s.arrivedAt n c).barrier j = if j = n then (s.barrier n).arrived c.toNat else s.barrier j :=
  (State.barrier_modP _ _ j).trans (State.barrier_setBarrier ht n _ j)

theorem arrivedAt_token (s : State) (n : Nat) (c : Word) : smFind (s.arrivedAt n c).g.p.toks n = some (s.barrier n).g := by
  unfold State.arrivedAt
  rw [State.modG_g, Group.modP_p, smFind_smPut, if_pos rfl]

/-- The last arrival starts another generation than that of its token, and each other stays in it. -/
theorem Barrier.arrived_g (b : Barrier) (c : Nat) : (b.arrived c).g = b.g ↔ b.a + 1 ≠ c := by
  unfold Barrier.arrived
  split <;> simp [*]

/-! ### Waiting (07 R168) -/

/-- The state of a path slot whose wait has ended: it has left the token and goes on. -/
def State.passedAt (s : State) (n : Nat) : State :=
  (s.modG fun g => g.modP fun p => { p with toks := smErase p.toks n, arrived := false }).retire 1

theorem barrierWait_passes {s : State} {n : Nat} (h : smFind s.g.p.toks n ≠ some (s.barrier n).g) :
    barrierWait n s = .next (s.passedAt n) := by
  unfold barrierWait
  cases ht : smFind s.g.p.toks n with
  | none => rfl
  | some k => exact if_pos fun e => h (by rw [ht, e])

theorem barrierWait_parks {s : State} {n : Nat} (h : smFind s.g.p.toks n = some (s.barrier n).g) :
    barrierWait n s = .next (s.park (.barrier n)) := by
  unfold barrierWait
  rw [h]
  exact if_neg (not_not.2 rfl)

/-- What a path slot leaves that has passed a barrier. -/
theorem AtBarrier.passed {s t : State} (a : AtBarrier s t) (n : Nat) :
    ((SameRegisters s (t.passedAt n) ∧ FarFrame s { t.passedAt n with teams := s.teams }) ∧ GoesOn s (t.passedAt n) ∧
      smFind (t.passedAt n).g.p.toks n = none ∧ (t.passedAt n).g.p.arrived = false) ∧ ∀ j, (t.passedAt n).barrier j = t.barrier j := by
  have left := a.modP (fun p => { p with toks := smErase p.toks n, arrived := false }) (fun _ => rfl) fun _ => ⟨rfl, rfl, rfl⟩
  have slot := Group.advance_slot (t.g.modP fun p => { p with toks := smErase p.toks n, arrived := false })
  refine ⟨⟨left.retire 1, (left.stands.retire 1).2, ?_, ?_⟩, fun j => ?_⟩
  · rw [State.passedAt, State.retire_g, State.modG_g, slot, Group.modP_p]
    exact (smFind_smErase _ _ _).trans (if_pos rfl)
  · rw [State.passedAt, State.retire_g, State.modG_g, slot, Group.modP_p]
  · exact (State.barrier_retire _ 1 j).trans (State.barrier_modP t _ j)

/-! ### Arriving and waiting in one word (07 R169) -/

/-- The state of a bar.sync that has arrived and has yet to wait. -/
def State.syncing (s : State) (n : Nat) (c : Word) : State :=
  (s.arrivedAt n c).modG fun g => g.modP fun p => { p with arrived := true }

theorem syncing_atBarrier (s : State) (n : Nat) (c : Word) : AtBarrier s (s.syncing n c) :=
  (arrivedAt_atBarrier s n c).modP _ (fun _ => rfl) fun _ => ⟨rfl, rfl, rfl⟩

theorem syncing_slot (s : State) (n : Nat) (c : Word) : (s.syncing n c).g.p = { (s.arrivedAt n c).g.p with arrived := true } :=
  Group.modP_p _ _

theorem syncing_token (s : State) (n : Nat) (c : Word) : smFind (s.syncing n c).g.p.toks n = some (s.barrier n).g := by
  rw [syncing_slot]
  exact arrivedAt_token s n c

theorem syncing_barrier {s : State} {tm : Team} (ht : s.team s.g.team = some tm) (n : Nat) (c : Word) :
    (s.syncing n c).barrier n = (s.barrier n).arrived c.toNat :=
  (State.barrier_modP _ _ n).trans ((arrivedAt_barrier ht n c n).trans (if_pos rfl))

theorem execBarSync_again {s : State} {a : Reg} {n : BitVec 4} (h : s.g.p.arrived = true) :
    execBarSync a n s = barrierWait n.toNat s := if_pos h

theorem execBarSync_first {s : State} {a : Reg} {n : BitVec 4} (h : s.g.p.arrived = false) (fits : CountFits s n.toNat (s.g.sr a))
    (done : StoresDone s) : execBarSync a n s = barrierWait n.toNat (s.syncing n.toNat (s.g.sr a)) :=
  (if_neg (by simp [h])).trans (arrive_counts fits done _)

end Sys2Proof.Machine

namespace Sys2Proof.Proofs

open Sys2Proof Sys2Proof.Machine

/-- Settles O35: an arrival leaves `State.arrivedAt`, a wait that ends `State.passedAt`, and bar.sync is one after the other. -/
theorem barriers : Obligations.Barriers := by
  unfold Obligations.Barriers
  intro s a n tm c b b' counts ordered frame passed team
  have word : exec (.barArrive a n) s = arrive a n.toNat (fun s => .next (s.retire 1)) s := rfl
  refine ⟨fun fits done => ?arrives, fun misfit => ⟨_, word.trans (arrive_misfit misfit _), takeFault_faults _ _ _⟩,
    fun fits wait => ⟨_, word.trans (arrive_waits fits wait _), hold_holds (.refl s) _⟩, fun h => ?waited,
    fun h => ⟨_, barrierWait_parks h, park_parks s _⟩, fun first fits done last => ?last, fun first fits done more => ?parks,
    fun again moved => ⟨_, (execBarSync_again again).trans (barrierWait_passes moved), ((AtBarrier.refl s).passed n.toNat).1⟩⟩
  case arrives =>
    have arrived := arrivedAt_atBarrier s n.toNat c
    have barrier (j : Nat) := (State.barrier_retire (s.arrivedAt n.toNat c) 1 j).trans (arrivedAt_barrier team n.toNat c j)
    refine ⟨_, word.trans (arrive_counts fits done _), arrived.retire 1, (arrived.stands.retire 1).2, (barrier _).trans (if_pos rfl), ?_,
      fun j hj => (barrier j).trans (if_neg hj)⟩
    rw [State.retire_g, Group.advance_slot]
    exact arrivedAt_token s n.toNat c
  case waited =>
    refine ⟨_, barrierWait_passes ?_, ((AtBarrier.refl s).passed n.toNat).1⟩
    rcases h with empty | ⟨g, held, moved⟩
    · rw [empty]; exact nofun
    · rw [held]; exact fun e => moved (Option.some.inj e).symm
  case last =>
    have moved : smFind (s.syncing n.toNat c).g.p.toks n.toNat ≠ some ((s.syncing n.toNat c).barrier n.toNat).g := by
      rw [syncing_token, syncing_barrier team]
      exact fun e => (Barrier.arrived_g b c.toNat).1 (Option.some.inj e).symm last
    obtain ⟨left, stands⟩ := (syncing_atBarrier s n.toNat c).passed n.toNat
    exact ⟨_, (execBarSync_first first fits done).trans (barrierWait_passes moved), left, (stands _).trans (syncing_barrier team _ _)⟩
  case parks =>
    have same : smFind (s.syncing n.toNat c).g.p.toks n.toNat = some ((s.syncing n.toNat c).barrier n.toNat).g := by
      rw [syncing_token, syncing_barrier team, (Barrier.arrived_g b c.toNat).2 more]
    obtain ⟨stat, park, -, -, -, -, regs, -⟩ := park_parks (s.syncing n.toNat c) (.barrier n.toNat)
    refine ⟨_, (execBarSync_first first fits done).trans (barrierWait_parks same),
      (State.barrier_park _ _ _).trans (syncing_barrier team _ _), ?_, stat, park,
      (syncing_atBarrier s n.toNat c).stands.sameRegisters regs⟩
    rw [State.park_p, syncing_slot]

end Sys2Proof.Proofs
end

section
/-! PROOFS. Monitors, O37: the statement's clause on mon.arm fails where the group whose monitor is evicted is listed under another number
than its own. -/

namespace Sys2Proof.Machine

/-- Group 1, whose core has 64 monitors armed, that of group 5 the longest, and whose s6 names far memory that it may read. The group
listed under 5 carries number 1. -/
def crowdedState : State :=
  let s := (State.reset.placeWord .sv 0x3E000000#32).modG (·.setS 6 0x10000)
  { s.modCore 0 (fun c => { c with mons := (List.range 64).map fun n => (n + 5, false) }) with groups := [(5, { gid := 1 })] }

theorem crowded_reads : crowdedState.farCheck crowdedState.g (crowdedState.g.sr 6).toNat 1 .load none = .ok [0x10000] true := by
  decide +kernel

theorem crowded_free : crowdedState.svtBlocked (crowdedState.partOf crowdedState.g) (dieOfCore crowdedState.g.core) 0x10000
    (.core crowdedState.g.core) = false := by decide +kernel

/-- The LOST of the evicted monitor is latched in the group listed under 5, which then stands at the focus, with no monitor armed. -/
theorem crowded_disarms : ∃ t, exec (.monArm 6) crowdedState = .next t ∧ t.g.p.mon = none := ⟨_, rfl, by decide +kernel⟩

end Sys2Proof.Machine

namespace Sys2Proof.Proofs

open Sys2Proof Sys2Proof.Machine

/-- Refutes O37. Its clause on mon.arm says that the executing path's monitor is armed. It does not ask that the groups of the core's
armed monitors carry the numbers they are listed under: the 65th entry evicts the one armed longest, and where the group listed there
carries the executing group's number, latching LOST puts it in the executing group's place. -/
theorem not_monitorsAndTags : ¬ Obligations.MonitorsAndTags := by
  unfold Obligations.MonitorsAndTags
  intro h
  obtain ⟨arm, -⟩ := h crowdedState 0 6 0 0 0 0 [0x10000] true ⟨0, none⟩ .store
  obtain ⟨t, ht, -, -, armed, -⟩ := (arm crowded_reads).1 crowded_free
  obtain ⟨u, hu, disarmed⟩ := crowded_disarms
  obtain rfl : t = u := by rw [ht] at hu; cases hu; rfl
  rw [armed] at disarmed
  exact nomatch disarmed

end Sys2Proof.Proofs
end

section
/-! PROOFS. Local words (12 R264, R266; 09 R183, R188): a word whose pieces all pass goes on with their accesses, and what it writes are pool
bytes, F/E bits and window stores; O22. -/

namespace Sys2Proof.Machine

/-! ### Changes of pool bytes and F/E bits -/

/-- From `s` to `t` the pool bytes and F/E bits to which `w` and `f` give a value take it. Every other byte and bit, the windows, memory, and
all that lies outside the cores and the focused group stand. -/
structure LocalEffect (s : State) (w : Nat → Nat → Option Byte) (f : Nat → Nat → Option Bool) (t : State) : Prop where
  bytes : PoolsAre s w t
  bits : FeAre s f t
  windows : WindowsStand s t
  frame : LocalFrame s t

theorem LocalEffect.refl (s : State) : LocalEffect s (fun _ _ => none) (fun _ _ => none) s :=
  ⟨fun _ _ => rfl, fun _ _ => rfl, fun _ => rfl, rfl, fun _ => rfl, fun _ => rfl⟩

theorem LocalFrame.trans {s t u : State} (a : LocalFrame s t) (b : LocalFrame t u) : LocalFrame s u :=
  ⟨by rw [b.rest, a.rest], fun c => (b.cores c).trans (a.cores c), fun x => (b.memory x).trans (a.memory x)⟩

theorem LocalEffect.trans {s t u : State} {w w' : Nat → Nat → Option Byte} {f f' : Nat → Nat → Option Bool} (a : LocalEffect s w f t)
    (b : LocalEffect t w' f' u) : LocalEffect s (fun c o => (w' c o).or (w c o)) (fun c k => (f' c k).or (f c k)) u where
  bytes c o := by rw [b.bytes, a.bytes, Option.getD_or]
  bits c k := by rw [b.bits, a.bits, Option.getD_or]
  windows c := (b.windows c).trans (a.windows c)
  frame := a.frame.trans b.frame

theorem localEffect_registerOnly {s t : State} (a : RegisterOnly s t) : LocalEffect s (fun _ _ => none) (fun _ _ => none) t where
  bytes c o := a.pools c o
  bits c k := (congrArg (fun x : Core => smGet false x.fe k) (a.cores c) : smGet false (t.core c).arch.fe k = _)
  windows c := congrArg (·.wins) (a.cores c)
  frame := ⟨a.rest, fun c => congrArg (fun x : Core => ({ x with pool := [], fe := [], wins := [] } : Core)) (a.cores c), a.memory⟩

theorem localEffect_modG (s : State) (h : Group → Group) : LocalEffect s (fun _ _ => none) (fun _ _ => none) (s.modG h) :=
  ⟨fun _ _ => rfl, fun _ _ => rfl, fun _ => rfl, rfl, fun _ => rfl, fun _ => rfl⟩

/-- A change that no register sees, after which a word goes on, leaves bytes and bits alone. -/
theorem LocalEffect.then {s t u : State} {w : Nat → Nat → Option Byte} {f : Nat → Nat → Option Bool} (a : LocalEffect s w f t)
    (b : LocalEffect t (fun _ _ => none) (fun _ _ => none) u) : LocalEffect s w f u := a.trans b

/-- Writing the bytes of one access, none of them twice. -/
theorem localEffect_poolWrite (s : State) {x : LocalAcc} {bs : List Byte} (nodup : x.offs.Nodup) (len : x.offs.length = bs.length) :
    LocalEffect s (storedByte [({ x with win := none }, bs)]) (fun _ _ => none) (s.poolWrite x bs) := by
  have left := poolOnly_poolWrite s x bs
  refine ⟨fun c o => ?_, left.feAre, left.windowsStand, left.localFrame⟩
  by_cases hit : x.core = c ∧ o ∈ x.offs
  · obtain ⟨rfl, ho⟩ := hit
    have lt : x.offs.idxOf o < bs.length := len ▸ List.idxOf_lt_length_of_mem ho
    have at_ : x.offs.getD (x.offs.idxOf o) 0 = o := by
      rw [List.getD_eq_getElem _ _ (len.symm ▸ lt)]
      exact List.getElem_idxOf _
    have byte := memByte_poolWrite (s := s) nodup len lt
    rw [at_] at byte
    rw [byte]
    simp [storedByte, ho, lt]
  · rw [memByte_poolWrite_of_not_mem fun hc ho => hit ⟨hc, ho⟩]
    simp [storedByte, hit]

/-- The last piece wins a byte. -/
theorem storedByte_append (xs : List (LocalAcc × List Byte)) {p : LocalAcc × List Byte} (len : p.1.offs.length = p.2.length) (c o : Nat) :
    storedByte (xs ++ [p]) c o = (storedByte [p] c o).or (storedByte xs c o) := by
  unfold storedByte
  rw [List.reverse_append, List.reverse_singleton, List.singleton_append, List.find?_cons, List.find?_cons]
  split
  · next hit =>
    have ho : o ∈ p.1.offs := by simp at hit; exact hit.2
    have lt : p.1.offs.idxOf o < p.2.length := len ▸ List.idxOf_lt_length_of_mem ho
    simp [lt]
  · rfl

/-- A piece that goes through a window reaches no byte at once. -/
theorem storedByte_window {p : LocalAcc × List Byte} (h : p.1.win.isNone = false) (c o : Nat) : storedByte [p] c o = none := by
  simp [storedByte, h]

/-! ### Writing the pieces of a store (12 R266) -/

/-- The pieces in the group's own rows, written in ascending lane order. -/
def State.writePieces (s : State) (xs : List (LocalAcc × List Byte)) : State :=
  (xs.filter fun x => x.1.win.isNone).foldl (fun s x => s.poolWrite x.1 x.2) s

theorem writePieces_append (s : State) (xs : List (LocalAcc × List Byte)) (p : LocalAcc × List Byte) :
    s.writePieces (xs ++ [p]) = if p.1.win.isNone then (s.writePieces xs).poolWrite p.1 p.2 else s.writePieces xs := by
  unfold State.writePieces
  rw [List.filter_append, List.foldl_append]
  cases h : p.1.win.isNone <;> simp [h]

theorem writePieces_g (s : State) (xs : List (LocalAcc × List Byte)) : (s.writePieces xs).g = s.g := by
  induction xs using List.reverseRecOn with
  | nil => rfl
  | append_singleton xs p ih => rw [writePieces_append]; split <;> exact ih

/-- Each byte holds what the last piece to reach it brings. -/
theorem localEffect_writePieces (s : State) (xs : List (LocalAcc × List Byte))
    (h : ∀ p ∈ xs, p.1.offs.Nodup ∧ p.1.offs.length = p.2.length) :
    LocalEffect s (storedByte xs) (fun _ _ => none) (s.writePieces xs) := by
  induction xs using List.reverseRecOn with
  | nil => exact .refl s
  | append_singleton xs p ih =>
    have before := ih fun q hq => h q (by simp [hq])
    obtain ⟨nodup, len⟩ := h p (by simp)
    have bytes : storedByte (xs ++ [p]) = fun c o => (storedByte [p] c o).or (storedByte xs c o) :=
      funext fun c => funext fun o => storedByte_append xs len c o
    rw [writePieces_append, bytes]
    split
    · next own =>
      obtain ⟨x, bs⟩ := p
      have same : ({ x with win := none } : LocalAcc) = x := by rw [← Option.isNone_iff_eq_none.1 own]
      have write := localEffect_poolWrite (s.writePieces xs) nodup len
      rw [same] at write
      exact before.trans write
    · next window =>
      have none' : storedByte [p] = fun _ _ => none := funext fun c => funext fun o => storedByte_window (Bool.eq_false_iff.2 window) c o
      rw [none']
      exact before

theorem localWrite_eq (s : State) (xs : List (LocalAcc × List Byte)) :
    s.localWrite xs = if localParts xs = [] then s.writePieces xs else (s.writePieces xs).addWinStore (localParts xs) := by
  unfold State.localWrite State.writePieces
  simp only [List.isEmpty_iff]

/-- A window store changes no register and no flag, and not the place in the code. -/
theorem standsAt_addWinStore (s : State) (ps : List WinPart) : StandsAt s.g (s.addWinStore ps).g :=
  (standsAt_modP s.g (fun p => { p with rst := p.rst + 1 }) (fun _ => rfl) fun _ => ⟨rfl, rfl, rfl⟩).trans
    ⟨⟨rfl, rfl, rfl, rfl, rfl, rfl, fun b => by cases b <;> rfl⟩, rfl, ⟨rfl, rfl, rfl, rfl⟩⟩

theorem localEffect_addWinStore (s : State) (ps : List WinPart) :
    LocalEffect s (fun _ _ => none) (fun _ _ => none) (s.addWinStore ps) := localEffect_modG s _

theorem localEffect_localWrite (s : State) (xs : List (LocalAcc × List Byte))
    (h : ∀ p ∈ xs, p.1.offs.Nodup ∧ p.1.offs.length = p.2.length) :
    LocalEffect s (storedByte xs) (fun _ _ => none) (s.localWrite xs) := by
  rw [localWrite_eq]
  have pieces := localEffect_writePieces s xs h
  split
  · exact pieces
  · exact pieces.then (localEffect_addWinStore _ _)

/-- What a store does to its group before it goes on. -/
theorem localWrite_group (s : State) (xs : List (LocalAcc × List Byte)) : StandsAt s.g (s.localWrite xs).g ∧
    (s.localWrite xs).g.arch = if localParts xs = [] then s.g.arch
      else ({ s.g.modP (fun p => { p with rst := p.rst + 1 }) with
        winStores := s.g.winStores ++ [{ seq := s.seq, pathF := s.g.curF, parts := localParts xs }] } : Group).arch := by
  have seq : (s.writePieces xs).seq = s.seq := by
    induction xs using List.reverseRecOn with
    | nil => rfl
    | append_singleton xs p ih => rw [writePieces_append]; split <;> exact ih
  rw [localWrite_eq]
  split
  · rw [writePieces_g]
    exact ⟨.refl _, rfl⟩
  · refine ⟨writePieces_g s xs ▸ standsAt_addWinStore _ _, ?_⟩
    unfold State.addWinStore
    rw [State.modG_g, writePieces_g, seq]

/-! ### Local words whose pieces all pass -/

theorem localCheck_range {s : State} {g : Group} {a : Int} {len align : Nat} {write : Bool} {x : LocalAcc}
    (h : s.localCheck g a len align write = .ok x) : 0 ≤ a ∧ a < 2 ^ 24 := by
  unfold State.localCheck at h
  dsimp only at h
  split at h
  · cases h
  split at h
  · cases h
  · omega

theorem wrapInt_of_range {a : Int} (h : 0 ≤ a ∧ a < 2 ^ 24) : wrapInt 64 a = a.toNat := by
  unfold wrapInt
  omega

theorem localPass_all {ps : List (Nat × Int)} {f : Nat × Int → LocRes} {P : Nat → LocalAcc} (h : ∀ p ∈ ps, f p = .ok (P p.1)) :
    localPass (ps.map fun p => (f p, p.2)) = .ok (ps.map fun p => P p.1) := by
  induction ps with
  | nil => rfl
  | cons p ps ih =>
    obtain ⟨hp, hps⟩ := List.forall_mem_cons.1 h
    rw [List.map_cons, hp, localPass, ih hps]
    rfl

/-- A local word whose pieces all pass goes on with their accesses. -/
theorem withLocal_all {s : State} {ps : List (Nat × Int)} {len align : Nat} {write : Bool} {P : Nat → LocalAcc}
    (h : ∀ p ∈ ps, LocalOk s p.2 len align write (P p.1)) (k : List LocalAcc → State → Out) :
    withLocal ps len align write k s = k (ps.map fun p => P p.1) s := by
  have free : ((ps.map fun p => P p.1).zip ps).find? (fun x => (s.core x.1.core).lockedLocal x.1.offs write) = none := by
    refine List.find?_eq_none.2 fun x hx => ?_
    rw [List.zip_map_left, List.mem_map] at hx
    obtain ⟨⟨p, q⟩, hpq, rfl⟩ := hx
    obtain rfl : p = q := by
      have := List.mem_iff_getElem.1 hpq
      simp only [List.getElem_zip] at this
      obtain ⟨i, hi, e⟩ := this
      exact (Prod.ext_iff.1 e).1.symm.trans (Prod.ext_iff.1 e).2
    simp [(h p (List.of_mem_zip hpq).1).2]
  unfold withLocal
  rw [localPass_all fun p hp => (h p hp).1]
  dsimp only
  rw [free]

/-- A store instruction that counts itself first, in the state `v` (21 R391, R392). -/
theorem counts_withStoreCount {i : Instr} {s v : State} {bs : List (Nat × Byte)} {k : State → Out} {P : State → State → Prop}
    (h : exec i s = withStoreCount bs k v) (hk : ∀ u, ∃ t, k u = .next t ∧ P u t) : Counts i s v bs P := by
  unfold withStoreCount at h
  refine ⟨fun plain => ?_, fun u e => ?_, fun u a e => ⟨u.takeFault .replayDiverged a, ?_, takeFault_faults u _ a⟩⟩
  · obtain ⟨t, ht, hp⟩ := hk v
    have e : v.countStore bs = (v, none) := if_pos (.inl plain)
    exact ⟨t, by rw [h, e]; exact ht, hp⟩
  · obtain ⟨t, ht, hp⟩ := hk u
    exact ⟨t, by rw [h, e]; exact ht, hp⟩
  · rw [h, e]

/-- The bytes of a store by address, where its accesses pass. -/
theorem storeBytes_of_range {ps : List (Nat × Int)} (h : ∀ p ∈ ps, 0 ≤ p.2 ∧ p.2 < 2 ^ 24) (len : Nat) (data : Nat → Nat) :
    storeBytes ps len data = ps.flatMap fun p => (addrs p.2.toNat len).zip (leBytes len (data p.1)) :=
  List.flatMap_congr fun p hp => by rw [wrapInt_of_range (h p hp)]

/-- A store's data at its pieces. -/
theorem storeData (ps : List (Nat × Int)) (P : Nat → LocalAcc) (size : Nat) (data : Nat → Nat) :
    (((ps.map fun p => P p.1).zip ps).map fun x => (x.1, leBytes size (data x.2.1))) = ps.map fun p => (P p.1, leBytes size (data p.1)) := by
  induction ps with
  | nil => rfl
  | cons p ps ih => exact congrArg _ ih

/-- A local store whose pieces all pass, no piece of it longer than a row. -/
theorem localStore_counts {i : Instr} {s : State} {ps : List (Nat × Int)} {size : Nat} {data : Nat → Nat} {retire : State → State}
    {P : Nat → LocalAcc} (hi : exec i s = localStore ps size data retire s) (hr : ∀ v, NoEffect v (retire v)) (small : size ≤ 4096)
    (h : ∀ p ∈ ps, LocalOk s p.2 size size true (P p.1)) :
    Counts i s s (ps.flatMap fun p => (addrs p.2.toNat size).zip (leBytes size (data p.1)))
      fun u => StoresLocal u (ps.map fun p => (P p.1, leBytes size (data p.1))) := by
  have bytes := storeBytes_of_range (fun p hp => localCheck_range (h p hp).1) size data
  have stores : exec i s = withStoreCount (ps.flatMap fun p => (addrs p.2.toNat size).zip (leBytes size (data p.1)))
      (fun u => .next (retire (u.localWrite (ps.map fun p => (P p.1, leBytes size (data p.1)))))) s := by
    rw [hi, localStore, withLocal_all h, bytes, storeData]
  refine counts_withStoreCount stores fun u => ⟨_, rfl, ?_⟩
  · have offs : ∀ x ∈ ps.map fun p => (P p.1, leBytes size (data p.1)), x.1.offs.Nodup ∧ x.1.offs.length = x.2.length := fun x hx => by
      obtain ⟨p, hp, rfl⟩ := List.mem_map.1 hx
      rw [length_leBytes]
      exact localCheck_offs (h p hp).1 small
    obtain ⟨stands, arch⟩ := localWrite_group u (ps.map fun p => (P p.1, leBytes size (data p.1)))
    obtain ⟨scalars, vectors, flags, frame⟩ := hr (u.localWrite (ps.map fun p => (P p.1, leBytes size (data p.1))))
    obtain ⟨bytes, bits, windows, left⟩ := (localEffect_localWrite u _ offs).then (localEffect_registerOnly frame)
    exact ⟨bytes, bits, windows, ⟨stands.sameRegisters ⟨scalars, vectors, flags⟩, frame.group.trans arch⟩, left⟩

end Sys2Proof.Machine

namespace Sys2Proof.Proofs

open Sys2Proof Sys2Proof.Machine

/-- Settles O22. A store's pieces are written in ascending lane order, each over those before it. -/
theorem localStores : Obligations.LocalStores := by
  unfold Obligations.LocalStores
  intro s d a b z o e x xs n at1 row ix m data at_
  have lanes {f : Nat → Int} {size : Nat} (h : ∀ i ∈ s.g.lanes, LocalOk s (f i) size size true (xs i)) :
      ∀ p ∈ s.g.lanes.map fun i => (i, f i), LocalOk s p.2 size size true (xs p.1) := fun p hp => by
    obtain ⟨i, hi, rfl⟩ := List.mem_map.1 hp
    exact h i hi
  refine ⟨fun ok => ?scalar, fun aligned ok => ?vector, fun _ ok => ?indexed⟩
  case scalar =>
    have counts := localStore_counts (i := .lSts d b z o) (s := s) (ps := onePiece at1) (size := n) (data := fun _ => (s.g.sr d).toNat)
      (retire := State.retire 1) (P := fun _ => x) ?_ (retire_noEffect 1) ?_ fun p hp => by rw [List.mem_singleton.1 hp]; exact ok
    · simpa [onePiece] using counts
    · show execLSts d b z o s = _
      rw [execLSts, sizeOf_pow]
      rfl
    · have := z.isLt
      exact (Nat.pow_le_pow_right (by decide) (show z.toNat ≤ 3 by omega)).trans (by decide)
  case vector =>
    have counts := localStore_counts (i := .lStv d b o) (retire := State.retireV 3) (data := data) ?_ (retireV_noEffect 3) (by decide) (lanes ok)
    · rwa [List.flatMap_map, List.map_map] at counts
    · refine if_neg fun misaligned => ?_
      exact misaligned.2 (aligned misaligned.1)
  case indexed =>
    have counts := localStore_counts (i := .lStvX d a b e) (size := m) (retire := State.retireV 3) (data := data) rfl (retireV_noEffect 3) ?_
      (lanes ok)
    · rwa [Group.indexPieces, List.flatMap_map, List.map_map] at counts
    · have := e.isLt
      exact (Nat.pow_le_pow_right (by decide) (show e.toNat ≤ 3 by omega)).trans (by decide)

end Sys2Proof.Proofs
end

section
/-! PROOFS. Cluster windows (09 R186, R189; 12 R270, R271); O24. -/

namespace Sys2Proof.Machine

/-! ### Changes of a core's windows -/

/-- Changes the windows of one core. -/
def State.modWins (s : State) (c : Nat) (f : SMap Win → SMap Win) : State := s.modCore c fun k => { k with wins := f k.wins }

theorem modWins_core (s : State) (c : Nat) (f : SMap Win → SMap Win) (k : Nat) :
    (s.modWins c f).core k = { s.core k with wins := if k = c then f (s.core c).wins else (s.core k).wins } := by
  unfold State.modWins
  rw [State.core_modCore]
  split
  · next h => rw [h]
  · rfl

/-- What a word leaves that changes the windows of one core and then goes on. -/
theorem modWins_then {s t : State} {c : Nat} {f : SMap Win → SMap Win} (h : RegisterOnly (s.modWins c f) t) :
    t.g.arch = s.g.arch ∧ LocalFrame s t ∧
      (∀ k, (t.core k).wins = if k = c then f (s.core c).wins else (s.core k).wins) ∧
      (∀ k o, memByte (t.core k).pool o = memByte (s.core k).pool o) ∧ FeAre s (fun _ _ => none) t := by
  have frame : LocalFrame s (s.modWins c f) := ⟨rfl, fun k => by rw [modWins_core]; rfl, fun _ => rfl⟩
  obtain ⟨bytes, bits, windows, stands⟩ := localEffect_registerOnly h
  exact ⟨h.group, frame.trans stands, fun k => (windows k).trans (by rw [modWins_core]),
    fun k o => (bytes k o).trans (by rw [modWins_core]; rfl), fun k o => (bits k o).trans (by rw [modWins_core])⟩

/-! ### Opening (09 R186; 12 R270) -/

theorem bitAt_23_of_lt {x : Nat} (low : x < 2 ^ 24) : bitAt x 23 = decide (2 ^ 23 ≤ x) := by
  unfold bitAt
  rw [Nat.testBit_eq_decide_div_mod_eq]
  exact decide_eq_decide.2 (by omega)

/-- The opener's address passes its checks: it is aligned and names 128 bytes of the group's own allocation. -/
structure Opens (s : State) (a : Reg) : Prop where
  aligned : (s.g.sr a).toNat % 128 = 0
  low : (s.g.sr a).toNat < 2 ^ 24
  self : 2 ^ 23 ≤ (s.g.sr a).toNat
  fits : (s.g.sr a).toNat % 2 ^ 20 + 128 ≤ s.g.allocBytes

/-- A window entry of the executing group at the address in `s[a]`. -/
def State.newWin (s : State) (a : Reg) (sw : Bool) (writer : Nat) : Win :=
  { gid := s.g.gid, enc := s.g.enc, addr := (s.g.sr a).toNat, sw := sw, writer := writer, closing := false }

section
variable {s : State} {sw : Bool} {d a : Reg} {writer : Nat}

theorem winOpen_misaligned (h : (s.g.sr a).toNat % 128 ≠ 0) : winOpen sw d a writer s = .next (s.takeFault .misaligned (s.g.sr a)) :=
  if_pos h

theorem Opens.passes (h : Opens s a) :
    ¬(2 ^ 24 ≤ (s.g.sr a).toNat ∨ (!bitAt (s.g.sr a).toNat 23) = true ∨ s.g.allocBytes < (s.g.sr a).toNat % 2 ^ 20 + 128) := by
  obtain ⟨-, low, self, fits⟩ := h
  rw [bitAt_23_of_lt low, decide_eq_true self]
  simp only [Bool.not_true, Bool.false_eq_true, false_or, not_or]
  omega

/-- With the lowest free entry of the core, the window opens there. -/
theorem winOpen_opens {w : Nat} (h : Opens s a) (hw : w < 512) (free : smFind (s.core s.g.core).wins w = none)
    (lowest : ∀ j < w, smFind (s.core s.g.core).wins j ≠ none) : winOpen sw d a writer s =
      .next (((s.modWins s.g.core fun m => smPut m w (s.newWin a sw writer)).setS d (BitVec.ofNat 64 (s.g.core % 8 * 2 ^ 20 + w * 128))).retire 1) := by
  have found : ((List.range 512).find? fun w => (smFind (s.core s.g.core).wins w).isNone) = some w :=
    List.find?_range_eq_some.2 ⟨Option.isNone_iff_eq_none.2 free, List.mem_range.2 hw, fun j hj => by
      rw [Option.isNone_eq_false_iff.2 (Option.isSome_iff_ne_none.2 (lowest j hj))]; rfl⟩
  unfold winOpen
  dsimp only
  rw [if_neg (not_not.2 h.aligned), if_neg h.passes, found]
  rfl

theorem winOpen_full (h : Opens s a) (full : ∀ j < 512, smFind (s.core s.g.core).wins j ≠ none) :
    winOpen sw d a writer s = .next ((s.setS d (BitVec.allOnes 64)).retire 1) := by
  have none_ : ((List.range 512).find? fun w => (smFind (s.core s.g.core).wins w).isNone) = none :=
    List.find?_eq_none.2 fun j hj => by simpa using full j (List.mem_range.1 hj)
  unfold winOpen
  dsimp only
  rw [if_neg (not_not.2 h.aligned), if_neg h.passes, none_]

end

/-! ### Closing (09 R189; 12 R271) -/

section
variable {s : State} {a : Reg} {e : Win}

/-- `s[a]` names a window address of the executing core. -/
structure NamesWin (s : State) (a : Reg) : Prop where
  low : (s.g.sr a).toNat < 2 ^ 23
  field : (s.g.sr a).toNat / 2 ^ 16 % 16 = 0
  core : (s.g.sr a).toNat / 2 ^ 20 % 8 = s.g.core % 8

/-- The entry that `s[a]` names. -/
def State.winOf (s : State) (a : Reg) : Nat := (s.g.sr a).toNat / 128 % 512

theorem NamesWin.passes (h : NamesWin s a) :
    ¬(2 ^ 24 ≤ (s.g.sr a).toNat ∨ bitAt (s.g.sr a).toNat 23 = true ∨ bitsAt (s.g.sr a).toNat 16 4 ≠ 0 ∨
      bitsAt (s.g.sr a).toNat 20 3 ≠ s.g.core % 8) := by
  obtain ⟨low, field, core⟩ := h
  rw [bitAt_23_of_lt (by omega), decide_eq_false (by omega)]
  simp only [bitsAt, Nat.shiftRight_eq_div_pow, Bool.false_eq_true, false_or, not_or, not_not]
  omega

/-- What closing does with the entry that `s[a]` names. -/
theorem execLWclose_found (h : NamesWin s a) (found : smFind (s.core s.g.core).wins (s.winOf a) = some e) : execLWclose a s =
    if e.gid ≠ s.g.gid then .next (s.faultHere .privilege)
    else if s.windowBusy s.g.core (s.winOf a) then
      .next ((s.modWins s.g.core fun m => smPut m (s.winOf a) { e with closing := true }).hold leafSt)
    else .next ((s.modWins s.g.core fun m => smErase m (s.winOf a)).retire 1) := by
  have entry : bitsAt (s.g.sr a).toNat 7 9 = s.winOf a := by rw [bitsAt, Nat.shiftRight_eq_div_pow]; rfl
  unfold execLWclose
  dsimp only
  rw [if_neg h.passes, entry, found]
  rfl

end

/-- A hold leaves the windows. -/
theorem hold_wins (s : State) (leaf k : Nat) : ((s.hold leaf).core k).wins = (s.core k).wins := by
  have frame := (hold_holds (.refl s) leaf).2.2.2.2
  exact (frame.pools k).2.2.1

end Sys2Proof.Machine

namespace Sys2Proof.Proofs

open Sys2Proof Sys2Proof.Machine

/-- Settles O24. Opening lists an entry and closing unlists it; both leave all else. -/
theorem clusterWindows : Obligations.ClusterWindows := by
  unfold Obligations.ClusterWindows
  intro s d a b w e x wins k opened n
  have readOnly : exec (.lWopenRo d a b) s = winOpen false d a 0 s := rfl
  have single : exec (.lWopenSw d a b) s = winOpen true d a ((s.g.sr b).toNat % 2 ^ 48) s := rfl
  have opens {i : Instr} {sw : Bool} {writer : Nat} (hi : exec i s = winOpen sw d a writer s) (h : Opens s a) (hw : w < 512)
      (free : smFind wins w = none) (lowest : ∀ j < w, smFind wins j ≠ none) : Completes i s (opened sw writer) := by
    have writes := setS_retire_writes 1 d (BitVec.ofNat 64 (k % 8 * 2 ^ 20 + w * 128))
      (s.modWins s.g.core fun m => smPut m w (s.newWin a sw writer))
    obtain ⟨arch, frame, windows, bytes, bits⟩ := modWins_then writes.frame
    refine ⟨_, hi.trans (winOpen_opens h hw free lowest), writes.oneRegister (.refl s.g) rfl, arch, frame, fun c j => ?_, bytes, bits⟩
    rw [windows]
    by_cases hc : c = k
    · rw [if_pos hc, smFind_smPut, hc]
      by_cases hj : j = w
      · rw [if_pos hj, if_pos ⟨rfl, hj⟩]; rfl
      · rw [if_neg hj, if_neg fun both => hj both.2]
    · rw [if_neg hc, if_neg fun both => hc both.1]
  have full {i : Instr} {sw : Bool} {writer : Nat} (hi : exec i s = winOpen sw d a writer s) (h : Opens s a)
      (none_ : ∀ j < 512, smFind wins j ≠ none) : Completes i s (WritesScalar s d (BitVec.allOnes 64) 0) :=
    ⟨_, hi.trans (winOpen_full h none_), setS_retire_writes 1 d _ s⟩
  have misaligned {i : Instr} {sw : Bool} {writer : Nat} (hi : exec i s = winOpen sw d a writer s) (h : x % 128 ≠ 0) :
      Completes i s (Faults s .misaligned (s.g.sr a)) := ⟨_, hi.trans (winOpen_misaligned h), takeFault_faults _ _ _⟩
  refine ⟨fun aligned low self fits => ?_, fun h => ⟨misaligned readOnly h, misaligned single h⟩, fun low field core found => ?_⟩
  · have h : Opens s a := ⟨aligned, low, self, fits⟩
    exact ⟨fun hw free lowest => ⟨opens readOnly h hw free lowest, opens single h hw free lowest⟩,
      fun none_ => ⟨full readOnly h none_, full single h none_⟩⟩
  have close : exec (.lWclose a) s = _ := execLWclose_found ⟨low, field, core⟩ found
  refine ⟨fun own idle => ?frees, fun own busy => ?holds, fun other => ⟨_, close.trans (if_pos other), takeFault_faults _ _ _⟩⟩
  case frees =>
    have after := retire_noEffect 1 (s.modWins s.g.core fun m => smErase m n)
    obtain ⟨arch, frame, windows, bytes, bits⟩ := modWins_then after.frame
    refine ⟨(s.modWins s.g.core fun m => smErase m n).retire 1,
      close.trans ((if_neg (not_not.2 own)).trans (if_neg (Bool.eq_false_iff.1 idle))),
      ⟨after.scalars, after.vectors, after.flags⟩, retire_goesOn 1 (s.modWins s.g.core fun m => smErase m n), arch, frame,
      ?_, fun c j hj => ?_, bytes, bits⟩
    · rw [windows, if_pos rfl, smFind_smErase, if_pos rfl]
    · rw [windows]
      by_cases hc : c = k
      · rw [if_pos hc, smFind_smErase, if_neg fun same => hj ⟨hc, same⟩, hc]
      · rw [if_neg hc]
  case holds =>
    refine ⟨(s.modWins s.g.core fun m => smPut m n { e with closing := true }).hold leafSt,
      close.trans ((if_neg (not_not.2 own)).trans (if_pos busy)), rfl, State.hold_g _ _, ?_⟩
    rw [hold_wins, modWins_core, if_pos rfl, smFind_smPut, if_pos rfl]

end Sys2Proof.Proofs
end

section
/-! PROOFS. Where a local access stops (09 R183; 11 R248; 12 R264); O25. -/

namespace Sys2Proof.Machine

/-! ### A word of one piece that stops -/

section
variable {s : State} {a : Int} {len align : Nat} {write : Bool}

theorem withLocal_bad {c : Code} (h : s.localCheck s.g a len align write = .bad c) (k : List LocalAcc → State → Out) :
    withLocal (onePiece a) len align write k s = .next (s.takeFault c (BitVec.ofInt 64 a)) := by
  simp [withLocal, onePiece, localPass, h]

theorem withLocal_sealedOut {c w : Nat} (h : s.localCheck s.g a len align write = .sealedOut c w) (k : List LocalAcc → State → Out) :
    withLocal (onePiece a) len align write k s = .next (s.park (.sealedWindow c w)) := by
  simp [withLocal, onePiece, localPass, h]

theorem withLocal_locked {x : LocalAcc} (h : s.localCheck s.g a len align write = .ok x)
    (locked : (s.core x.core).lockedLocal x.offs write = true) (k : List LocalAcc → State → Out) :
    withLocal (onePiece a) len align write k s = .next (s.takeTrap .rangeLocked (BitVec.ofInt 64 a)) := by
  simp [withLocal, onePiece, localPass, h, locked]

/-! ### The checks that fail first -/

theorem wrapInt_emod {n : Nat} (h : n ∣ 2 ^ 64) (a : Int) : ((wrapInt 64 a % n : Nat) : Int) = a % n := by
  unfold wrapInt
  rw [Int.natCast_mod, Int.toNat_of_nonneg (Int.emod_nonneg _ (by decide))]
  exact Int.emod_emod_of_dvd a (Int.natCast_dvd_natCast.2 h)

theorem localCheck_misaligned {n : Nat} (small : n ≤ 128) (h : n ∣ 2 ^ 64) (ha : a % n ≠ 0) :
    s.localCheck s.g a len n write = .bad .misaligned := by
  refine if_pos fun zero => ha ?_
  rw [Nat.min_eq_left small] at zero
  rw [← wrapInt_emod h, zero]
  rfl

/-- An aligned address outside the 16 MiB of local addresses. -/
theorem localCheck_outside {n : Nat} (small : n ≤ 128) (h : n ∣ 2 ^ 64) (ha : a % n = 0) (out : a < 0 ∨ 2 ^ 24 ≤ a) :
    s.localCheck s.g a len n write = .bad .windowBounds := by
  have aligned : ¬wrapInt 64 a % min n 128 ≠ 0 := by
    have := wrapInt_emod h a
    rw [Nat.min_eq_left small]
    omega
  exact (if_neg aligned).trans (if_pos out)

/-- An aligned SELF address past the group's allocation. -/
theorem localCheck_pastAllocation {n : Nat} (small : n ≤ 128) (h : n ∣ 2 ^ 64) (ha : a % n = 0) (self : 2 ^ 23 ≤ a) (low : a < 2 ^ 24)
    (past : s.g.allocBytes < a.toNat % 2 ^ 20 + len) : s.localCheck s.g a len n write = .bad .windowBounds := by
  have aligned : ¬wrapInt 64 a % min n 128 ≠ 0 := by
    have := wrapInt_emod h a
    rw [Nat.min_eq_left small]
    omega
  have range : 0 ≤ a ∧ a < 2 ^ 24 := by omega
  have bit : bitAt a.toNat 23 = true := by
    rw [bitAt_23_of_lt (by omega)]
    exact decide_eq_true (by omega)
  have bounds : s.selfAcc s.g a.toNat len = .error .windowBounds := by
    unfold State.selfAcc
    rw [bit, if_neg (by simp only [Bool.not_true, Bool.false_eq_true, or_false, not_not]; omega), if_pos past]
  unfold State.localCheck
  dsimp only
  rw [if_neg aligned, if_neg (by omega), wrapInt_of_range range, if_pos bit, bounds]

end

end Sys2Proof.Machine

namespace Sys2Proof.Proofs

open Sys2Proof Sys2Proof.Machine

/-- Settles O25. A local word's first pass over its one piece decides where it stops. -/
theorem localAccessStops : Obligations.LocalAccessStops := by
  unfold Obligations.LocalAccessStops
  intro s d b z o c x k w n a
  have small : n ≤ 8 := Nat.pow_le_pow_right (by decide) (show z.toNat ≤ 3 by have := z.isLt; omega)
  have divides : n ∣ 2 ^ 64 := pow_dvd_pow 2 (by have := z.isLt; omega)
  have load : exec (.lLds d b z o) s = localLoad d b z o true s := rfl
  have loadN : exec (.lLdsN d b z o) s = localLoad d b z o false s := rfl
  have loads (signed : Bool) (r : Out) (h : ∀ f, withLocal (onePiece a) n n false f s = r) : localLoad d b z o signed s = r := by
    unfold localLoad
    rw [sizeOf_pow]
    exact h _
  have stores (r : Out) (h : ∀ f, withLocal (onePiece a) n n true f s = r) : exec (.lSts d b z o) s = r := by
    show execLSts d b z o s = r
    unfold execLSts localStore
    rw [sizeOf_pow]
    exact h _
  refine ⟨fun bad => ⟨?_, ?_⟩, fun bad => ?_, localCheck_misaligned (by omega) divides, localCheck_outside (by omega) divides,
    localCheck_pastAllocation (by omega) divides, fun ok locked => stores _ (withLocal_locked ok locked), fun out => ?_⟩
  · exact ⟨_, load.trans (loads true _ (withLocal_bad bad)), takeFault_faults _ _ _⟩
  · exact ⟨_, loadN.trans (loads false _ (withLocal_bad bad)), takeFault_faults _ _ _⟩
  · exact ⟨_, stores _ (withLocal_bad bad), takeFault_faults _ _ _⟩
  · obtain ⟨stat, park, rc, -, -, -, regs, -⟩ := park_parks s (.sealedWindow k w)
    exact ⟨_, load.trans (loads true _ (withLocal_sealedOut out)), regs, stat, park, rc⟩

end Sys2Proof.Proofs
end

section
/-! PROOFS. The full/empty forms (12 R268, R269; 09 R184, R185, R188, R189; 11 R247); O23. -/

namespace Sys2Proof.Machine

/-! ### F/E bits (09 R184) -/

/-- The F/E bits of the words at some pool bytes of a core, each with one value. -/
def feBits (core : Nat) (offs : List Nat) (v : Option Bool) (c k : Nat) : Option Bool := if c = core ∧ ∃ w ∈ offs, w / 4 = k then v else none

theorem smGet_foldl_fe (offs : List Nat) (b : Bool) (m : SMap Bool) (k : Nat) :
    smGet false (offs.foldl (fun m o => smSet false m (o / 4) b) m) k = if ∃ w ∈ offs, w / 4 = k then b else smGet false m k := by
  induction offs generalizing m with
  | nil => simp
  | cons o offs ih =>
    rw [List.foldl_cons, ih, smGet_smSet]
    by_cases later : ∃ w ∈ offs, w / 4 = k
    · have : ∃ w ∈ o :: offs, w / 4 = k := later.imp fun w h => ⟨List.mem_cons_of_mem _ h.1, h.2⟩
      rw [if_pos later, if_pos this]
    · rw [if_neg later]
      by_cases first : k = o / 4
      · rw [if_pos first, if_pos ⟨o, List.mem_cons_self, first.symm⟩]
      · refine (if_neg first).trans (if_neg ?_).symm
        rintro ⟨w, hw, e⟩
        rcases List.mem_cons.1 hw with rfl | hw
        · exact first e.symm
        · exact later ⟨w, hw, e⟩

/-- Setting or clearing F/E bits. -/
theorem localEffect_setFe (s : State) (core : Nat) (offs : List Nat) (b : Bool) :
    LocalEffect s (fun _ _ => none) (feBits core offs (some b)) (s.setFe core offs b) := by
  have cores (c : Nat) : (s.setFe core offs b).core c = { s.core c with
      fe := if c = core then offs.foldl (fun m o => smSet false m (o / 4) b) (s.core core).fe else (s.core c).fe } := by
    unfold State.setFe
    rw [State.core_modCore]
    split
    · next h => rw [h]
    · rfl
  refine ⟨fun c o => by rw [cores]; rfl, fun c k => ?_, fun c => by rw [cores], rfl, fun c => by rw [cores]; rfl, fun _ => rfl⟩
  rw [cores]
  unfold feBits
  by_cases hc : c = core
  · subst hc
    simp only [if_true, smGet_foldl_fe, true_and]
    split <;> rfl
  · simp [hc]

theorem feBits_none (core : Nat) (offs : List Nat) : feBits core offs none = fun _ _ => none :=
  funext fun _ => funext fun _ => ite_self _

theorem feAll_iff {s : State} {x : LocalAcc} {full : Bool} : s.feAll x full = true ↔ ∀ w ∈ x.words, s.feFull x.core w = full := by
  simp [State.feAll]

theorem not_feAll_iff {s : State} {x : LocalAcc} {full : Bool} : s.feAll x full = false ↔ ∃ w ∈ x.words, s.feFull x.core w = !full := by
  simp [State.feAll, Bool.eq_not]

/-! ### What a word leaves that goes on after a change of pool bytes and F/E bits -/

section
variable {s t : State} {w : Nat → Nat → Option Byte} {f : Nat → Nat → Option Bool}

/-- A change before which neither a byte nor a bit changes. -/
theorem LocalEffect.before {r : State} (b : LocalEffect s w f t) (a : LocalEffect r (fun _ _ => none) (fun _ _ => none) s) :
    LocalEffect r w f t := by
  have e := a.trans b
  simp only [Option.or_none] at e
  exact e

/-- It goes on with a result. -/
theorem LocalEffect.writes (a : LocalEffect s w f t) (n : Nat) (d : Reg) (v : Word) :
    LocalEffect s w f ((t.setS d v).retire n) ∧ ((t.setS d v).retire n).g.arch = t.g.arch := by
  have writes := setS_retire_writes n d v t
  exact ⟨a.then (localEffect_registerOnly writes.frame), writes.frame.group⟩

/-- It goes on without one. -/
theorem LocalEffect.retires (a : LocalEffect s w f t) (stands : StandsAt s.g t.g) (n : Nat) :
    SameRegisters s (t.retire n) ∧ LocalEffect s w f (t.retire n) ∧ (t.retire n).g.arch = t.g.arch := by
  have after := retire_noEffect n t
  exact ⟨(stands.retire n).1, a.then (localEffect_registerOnly after.frame), after.frame.group⟩

end

/-- The result of a word that has changed no register before it. -/
theorem StandsAt.oneRegister {s t : State} (a : StandsAt s.g t.g) (n : Nat) (d : Reg) (v : Word) :
    OneRegister s d v ((t.setS d v).retire n) := (setS_retire_writes n d v t).oneRegister a.regs a.flags

/-! ### Loads through windows (12 R267) -/

section
variable {s : State} {x : LocalAcc} {k : State → Out}

/-- The state in which a load goes on whose data the owning core has returned. -/
def State.dataBack (s : State) (x : LocalAcc) : State := if x.win = none then s else s.modG fun g => { g with winRet := none }

theorem withWindowData_back (h : x.win = none ∨ ∃ l, s.g.winRet = some (l, true)) : withWindowData [x] k s = k (s.dataBack x) := by
  unfold withWindowData State.dataBack
  cases hw : x.win with
  | none => simp [winsOf, hw]
  | some w =>
    obtain ⟨l, back⟩ := h.resolve_left (by simp [hw])
    simp [winsOf, hw, back]

theorem withWindowData_asks {w : Nat} (hw : x.win = some w) (h : s.g.winRet = none) : withWindowData [x] k s =
    .next ((s.modG fun g => { g with winRet := some ([(x.core, w)], false) }).hold leafLd) := by
  simp [withWindowData, winsOf, hw, h]

theorem standsAt_winRet (g : Group) (r : Option (List (Nat × Nat) × Bool)) :
    StandsAt g { g with winRet := r } ∧ ({ g with winRet := r } : Group).arch = g.arch := by
  refine ⟨⟨⟨rfl, rfl, rfl, rfl, rfl, rfl, fun b => by cases b <;> rfl⟩, rfl, ⟨rfl, rfl, rfl, rfl⟩⟩, ?_⟩
  unfold Group.arch Group.modP Group.setP Group.p
  cases hc : g.curF <;> simp [Group.setPath, Group.path, hc]

theorem dataBack_stands (s : State) (x : LocalAcc) : StandsAt s.g (s.dataBack x).g ∧ (s.dataBack x).g.arch = s.g.arch ∧
    LocalEffect s (fun _ _ => none) (fun _ _ => none) (s.dataBack x) ∧ (s.dataBack x).cores = s.cores := by
  unfold State.dataBack
  split
  · exact ⟨.refl _, rfl, .refl _, rfl⟩
  · obtain ⟨stands, arch⟩ := standsAt_winRet s.g none
    exact ⟨stands, arch, localEffect_modG _ _, rfl⟩

theorem dataBack_poolRead (s : State) (x y : LocalAcc) : (s.dataBack x).poolRead y = s.poolRead y := by
  unfold State.poolRead State.core
  rw [(dataBack_stands s x).2.2.2]

theorem dataBack_feCount (s : State) (x y : LocalAcc) (q : Bool) : (s.dataBack x).feCount y q = s.feCount y q := by
  unfold State.feCount State.feFull State.core
  rw [(dataBack_stands s x).2.2.2]

/-- A hold changes neither the group nor a pool byte nor an F/E bit. -/
theorem hold_effect (s : State) (leaf : Nat) : PoolsAre s (fun _ _ => none) (s.hold leaf) ∧ FeAre s (fun _ _ => none) (s.hold leaf) := by
  have frame := (hold_holds (.refl s) leaf).2.2.2.2
  exact ⟨fun c o => by rw [(frame.pools c).1]; rfl, fun c k => by rw [(frame.pools c).2.1]; rfl⟩

end

/-! ### Writes through windows (11 R247; 09 R188) -/

section
variable {s : State} {x : LocalAcc} {k : State → Out}

theorem withBefore_goes (h : x.win = none ∨ s.sealedBefore x.core = none) : withBefore x k s = k s := by
  unfold withBefore
  rcases h with h | h
  · exact if_pos (by rw [h]; rfl)
  · split
    · rfl
    · rw [h]

theorem withBefore_parks {p : WinPart} (hw : x.win ≠ none) (h : s.sealedBefore x.core = some p) :
    withBefore x k s = .next (s.park (.sealedWindow p.core p.win)) := by
  unfold withBefore
  rw [if_neg (by simpa using hw), h]

/-- The state in which an F/E write acts: the earlier window stores of its path slot to the owning core are performed. -/
def State.afterStores (s : State) (x : LocalAcc) : State := if x.win = none then s else s.performBefore x.core

theorem afterStores_eq (s : State) (x : LocalAcc) : (if x.win.isSome then s.performBefore x.core else s) = s.afterStores x := by
  unfold State.afterStores
  cases x.win <;> rfl

theorem performPart_g (s : State) (p : WinPart) : (s.performPart p).g = s.g := by
  unfold State.performPart
  split <;> rfl

theorem afterStores_stands (s : State) (x : LocalAcc) : StandsAt s.g (s.afterStores x).g := by
  have parts (l : List WinPart) (s : State) : (l.foldl State.performPart s).g = s.g := by
    induction l generalizing s with
    | nil => rfl
    | cons p l ih => exact (ih _).trans (performPart_g s p)
  unfold State.afterStores
  split
  · exact .refl _
  · unfold State.performBefore
    rw [State.modG_g, parts]
    exact ⟨⟨rfl, rfl, rfl, rfl, rfl, rfl, fun b => by cases b <;> rfl⟩, rfl, ⟨rfl, rfl, rfl, rfl⟩⟩

/-- A window store of parts `ps` of the executing path slot in the group, unacknowledged. -/
def State.sentGroup (s : State) (ps : List WinPart) : Group :=
  { s.g.modP (fun p => { p with rst := p.rst + 1 }) with winStores := s.g.winStores ++ [{ seq := s.seq, pathF := s.g.curF, parts := ps }] }

theorem addWinStore_g (s : State) (ps : List WinPart) : (s.addWinStore ps).g = s.sentGroup ps := rfl

/-- What a window store of an F/E store still has to do. -/
theorem part_window {w n v : Nat} (hw : x.win = some w) : x.part (leBytes n v) true =
    ⟨x.core, w, x.owner, (addrs x.base n).zip (leBytes n v), (addrs x.base n).filter fun o => o % 4 = 0⟩ := by
  unfold LocalAcc.part
  rw [hw, length_leBytes]
  rfl

/-- What a write with its effect at issue counts as: a remote store where it goes through a window. -/
def State.counting (s : State) (x : LocalAcc) : State := if x.win.isSome then s.addWinStore [] else s

theorem counting_stands (s : State) (x : LocalAcc) : StandsAt s.g (s.counting x).g := by
  unfold State.counting
  split
  · exact standsAt_addWinStore s []
  · exact .refl _

theorem localEffect_counting (s : State) (x : LocalAcc) : LocalEffect s (fun _ _ => none) (fun _ _ => none) (s.counting x) := by
  unfold State.counting
  split
  · exact localEffect_addWinStore s []
  · exact .refl _

theorem counting_g (s : State) (x : LocalAcc) : (s.counting x).g = if x.win = none then s.g else s.sentGroup [] := by
  unfold State.counting
  cases x.win <;> rfl

end

/-! ### The words (12 R268, R269) -/

theorem feSize_eq (z : BitVec 1) : feSize z = if z = 1 then 8 else 4 := rfl

section
variable {s : State} {d a b : Reg} {z : BitVec 1} {o : BitVec 10} {x : LocalAcc}

theorem feLoad_waits {take : Bool} (ok : LocalOk s (s.g.ea b o (feSize z)) (feSize z) (feSize z) false x) (h : s.feAll x true = false) :
    feLoad take d b z o s = .next (s.park (.fe x.owner x.base (feSize z) true)) := by
  unfold feLoad
  dsimp only
  rw [withLocal_ok ok]
  exact if_pos (by rw [h]; rfl)

theorem feLoad_full {take : Bool} (ok : LocalOk s (s.g.ea b o (feSize z)) (feSize z) (feSize z) false x) (h : s.feAll x true = true) :
    feLoad take d b z o s = withWindowData [x] (fun s =>
      .next (((if take then s.setFe x.core x.words false else s).setS d (BitVec.ofNat 64 (leNat (s.poolRead x)))).retire 1)) s := by
  unfold feLoad
  dsimp only
  rw [withLocal_ok ok]
  exact if_neg (by rw [h]; decide)

/-- The bytes of an F/E store by address. -/
def Group.feBytes (g : Group) (d b : Reg) (z : BitVec 1) (o : BitVec 10) : List (Nat × Byte) :=
  (addrs (g.ea b o (feSize z)).toNat (feSize z)).zip (leBytes (feSize z) (g.sr d).toNat)

/-- An F/E store with its effect at issue, which goes on. -/
def State.filled (s : State) (x : LocalAcc) (bs : List Byte) : State := (((s.poolWrite x bs).setFe x.core x.words true).counting x).retire 1

section
variable (ok : LocalOk s (s.g.ea b o (feSize z)) (feSize z) (feSize z) true x) (free : x.win = none ∨ s.sealedBefore x.core = none)
include ok free

theorem feFill_waits (h : (s.afterStores x).feAll x false = false) :
    feStore true d b z o s = .next ((s.afterStores x).park (.fe x.owner x.base (feSize z) false)) := by
  unfold feStore
  dsimp only
  rw [withLocal_ok ok]
  dsimp only
  rw [withBefore_goes free, afterStores_eq]
  exact if_pos ⟨rfl, by rw [h]; rfl⟩

omit free in
theorem storeBytes_fe : storeBytes (onePiece (s.g.ea b o (feSize z))) (feSize z) (fun _ => (s.g.sr d).toNat) = s.g.feBytes d b z o := by
  rw [storeBytes_of_range fun p hp => by rw [List.mem_singleton.1 hp]; exact localCheck_range ok.1]
  exact List.append_nil _

theorem feFill_counts (h : (s.afterStores x).feAll x false = true) : feStore true d b z o s =
    withStoreCount (s.g.feBytes d b z o) (fun s' => .next (s'.filled x (leBytes (feSize z) (s.g.sr d).toNat))) (s.afterStores x) := by
  unfold feStore
  dsimp only
  rw [withLocal_ok ok]
  dsimp only
  rw [withBefore_goes free, afterStores_eq, storeBytes_fe ok]
  simp only [h, Bool.not_true, Bool.false_eq_true, and_false, if_false]
  rfl

omit free in
/-- An F/E store of l.stf.force in the group's own rows. -/
theorem feForce_own (own : x.win = none) : feStore false d b z o s =
    withStoreCount (s.g.feBytes d b z o) (fun s' => .next (s'.filled x (leBytes (feSize z) (s.g.sr d).toNat))) s := by
  unfold feStore
  dsimp only
  rw [withLocal_ok ok]
  dsimp only
  rw [withBefore_goes (.inl own), storeBytes_fe ok]
  simp [own, State.filled, State.counting]

/-- Through a window it is a window store of its own. -/
theorem feForce_window {w : Nat} (hw : x.win = some w) : feStore false d b z o s =
    withStoreCount (s.g.feBytes d b z o)
      (fun s' => .next ((s'.addWinStore [x.part (leBytes (feSize z) (s.g.sr d).toNat) true]).retire 1)) (s.afterStores x) := by
  unfold feStore
  dsimp only
  rw [withLocal_ok ok]
  dsimp only
  rw [withBefore_goes free, afterStores_eq, storeBytes_fe ok]
  simp [hw]

end

/-- An F/E store that goes through a window whose path slot has a store waiting for sealed-out rows parks with it. -/
theorem feStore_parks {fill : Bool} {p : WinPart} (ok : LocalOk s (s.g.ea b o (feSize z)) (feSize z) (feSize z) true x) (hw : x.win ≠ none)
    (h : s.sealedBefore x.core = some p) : feStore fill d b z o s = .next (s.park (.sealedWindow p.core p.win)) := by
  unfold feStore
  dsimp only
  rw [withLocal_ok ok]
  dsimp only
  rw [withBefore_parks hw h]

/-- The range of an l.fe form: whole words from a word's address. -/
structure FeRange (s : State) (a b : Reg) (write : Bool) (x : LocalAcc) : Prop where
  base : (s.g.sr a).toNat % 4 = 0
  words : (s.g.sr b).toNat % 4 = 0
  some : (s.g.sr b).toNat ≠ 0
  ok : LocalOk s (s.g.sr a).toNat (s.g.sr b).toNat 4 write x

/-- Slot cycles of an l.fe form (12 R269). -/
def State.feCycles (s : State) (b : Reg) : Nat := 1 + ceilDiv ((s.g.sr b).toNat / 4) 32

theorem feRange_writes {k : LocalAcc → State → State × Nat} (h : FeRange s a b true x) (free : x.win = none ∨ s.sealedBefore x.core = none) :
    feRange true d a b k s = .next ((((k x (s.afterStores x)).1.counting x).setS d (BitVec.ofNat 64 (k x (s.afterStores x)).2)).retire
      (s.feCycles b)) := by
  unfold feRange
  dsimp only
  rw [if_neg (not_not.2 h.base), if_neg (not_not.2 h.words), if_neg h.some, withLocal_ok h.ok]
  dsimp only
  rw [if_pos rfl, withBefore_goes free, afterStores_eq]
  simp only [true_and]
  rfl

theorem feRange_parks {k : LocalAcc → State → State × Nat} {p : WinPart} (h : FeRange s a b true x) (hw : x.win ≠ none)
    (sealed : s.sealedBefore x.core = some p) : feRange true d a b k s = .next (s.park (.sealedWindow p.core p.win)) := by
  unfold feRange
  dsimp only
  rw [if_neg (not_not.2 h.base), if_neg (not_not.2 h.words), if_neg h.some, withLocal_ok h.ok]
  dsimp only
  rw [if_pos rfl, withBefore_parks hw sealed]

theorem feRange_reads {k : LocalAcc → State → Nat} (h : FeRange s a b false x) (back : x.win = none ∨ ∃ l, s.g.winRet = some (l, true)) :
    feRange false d a b (fun x s => (s, k x s)) s =
      .next (((s.dataBack x).setS d (BitVec.ofNat 64 (k x (s.dataBack x)))).retire (s.feCycles b)) := by
  unfold feRange
  dsimp only
  rw [if_neg (not_not.2 h.base), if_neg (not_not.2 h.words), if_neg h.some, withLocal_ok h.ok]
  dsimp only
  rw [if_neg (by decide), withWindowData_back back]
  simp only [Bool.false_eq_true, false_and, if_false]
  rfl

theorem feRange_empty {write : Bool} {k : LocalAcc → State → State × Nat} (base : (s.g.sr a).toNat % 4 = 0) (len : (s.g.sr b).toNat = 0) :
    feRange write d a b k s = .next ((s.setS d 0).retire 1) := by
  unfold feRange
  dsimp only
  rw [if_neg (not_not.2 base), if_neg (by rw [len]; decide), if_pos len]

end

/-! ### What the words leave -/

/-- What a write with its effect at issue leaves before it goes on: its bytes, its words' F/E bits, and its count. -/
theorem localEffect_filled {s : State} {x : LocalAcc} {bs : List Byte} (nodup : x.offs.Nodup) (len : x.offs.length = bs.length) :
    SameRegisters s (s.filled x bs) ∧ LocalEffect s (storedByte [({ x with win := none }, bs)]) (feBits x.core x.words (some true)) (s.filled x bs) ∧
      (s.filled x bs).g.arch = if x.win = none then s.g.arch else (s.sentGroup []).arch := by
  have bits := ((localEffect_poolWrite s nodup len).trans (localEffect_setFe _ x.core x.words true)).then (localEffect_counting _ x)
  simp only [Option.or_none] at bits
  have stands := counting_stands ((s.poolWrite x bs).setFe x.core x.words true) x
  obtain ⟨regs, effect, arch⟩ := bits.retires (s := s) stands 1
  refine ⟨regs, effect, ?_⟩
  rw [State.filled, arch, counting_g]
  split <;> rfl

/-- A path slot that parks on F/E bits changes no register, no pool byte and no F/E bit. -/
theorem park_fe {r : State} {w : Park} : (r.park w).g.stat = .parked ∧ (r.park w).g.p.park = some w ∧ (r.park w).g.rc = 0 ∧
    SameRegisters r (r.park w) ∧ PoolsAre r (fun _ _ => none) (r.park w) ∧ FeAre r (fun _ _ => none) (r.park w) := by
  obtain ⟨stat, park, rc, -, -, -, regs, -⟩ := park_parks r w
  exact ⟨stat, park, rc, regs, fun _ _ => rfl, fun _ _ => rfl⟩

/-- What a load through F/E bits leaves, from the state with its data back. -/
theorem dataBack_writes {s u : State} {x : LocalAcc} {f : Nat → Nat → Option Bool} (same : u.g = (s.dataBack x).g)
    (effect : LocalEffect (s.dataBack x) (fun _ _ => none) f u) (n : Nat) (d : Reg) (v : Word) :
    OneRegister s d v ((u.setS d v).retire n) ∧ LocalEffect s (fun _ _ => none) f ((u.setS d v).retire n) ∧
      ((u.setS d v).retire n).g.arch = s.g.arch := by
  obtain ⟨stands, arch, back, -⟩ := dataBack_stands s x
  obtain ⟨left, same'⟩ := (effect.before back).writes n d v
  exact ⟨StandsAt.oneRegister (same ▸ stands) n d v, left, same'.trans ((congrArg (·.arch) same).trans arch)⟩

/-- A load through a window that has still to be answered. -/
theorem asks_holds (s : State) (l : List (Nat × Nat)) : let u := (s.modG fun g => { g with winRet := some (l, false) }).hold leafLd
    u.held = true ∧ u.g.winRet = some (l, false) ∧ SameRegisters s u ∧ u.g.arch = s.g.arch ∧ PoolsAre s (fun _ _ => none) u ∧
      FeAre s (fun _ _ => none) u := by
  intro u
  obtain ⟨held, regs, -, -, -⟩ := hold_holds (.refl (s.modG fun g => { g with winRet := some (l, false) })) leafLd
  obtain ⟨bytes, fe⟩ := hold_effect (s.modG fun g => { g with winRet := some (l, false) }) leafLd
  obtain ⟨stands, arch⟩ := standsAt_winRet s.g (some (l, false))
  have same : u.g = { s.g with winRet := some (l, false) } := State.hold_g _ leafLd
  exact ⟨held, congrArg (·.winRet) same, stands.sameRegisters (t := s.modG fun g => { g with winRet := some (l, false) }) regs,
    (congrArg (·.arch) same).trans arch, bytes, fe⟩

/-- What an l.fe form that writes leaves, from the state in which it acts. -/
theorem feRange_leaves (s : State) (x : LocalAcc) (q : Bool) (n : Nat) (d : Reg) (v : Word) :
    let t := ((((s.afterStores x).setFe x.core x.words q).counting x).setS d v).retire n
    OneRegister s d v t ∧ LocalEffect (s.afterStores x) (fun _ _ => none) (feBits x.core x.words (some q)) t ∧
      t.g.arch = if x.win = none then (s.afterStores x).g.arch else ((s.afterStores x).sentGroup []).arch := by
  intro t
  have stands : StandsAt s.g (((s.afterStores x).setFe x.core x.words q).counting x).g :=
    (afterStores_stands s x).trans (counting_stands ((s.afterStores x).setFe x.core x.words q) x)
  have effect := (localEffect_setFe (s.afterStores x) x.core x.words q).then (localEffect_counting _ x)
  obtain ⟨left, arch⟩ := effect.writes n d v
  refine ⟨stands.oneRegister n d v, left, arch.trans ?_⟩
  rw [counting_g]
  split <;> rfl

/-- What an F/E store leaves that goes as a window store of its own. -/
theorem sent_leaves (s : State) (ps : List WinPart) : let t := (s.addWinStore ps).retire 1
    SameRegisters s t ∧ LocalEffect s (fun _ _ => none) (fun _ _ => none) t ∧ t.g.arch = (s.sentGroup ps).arch :=
  (localEffect_addWinStore s ps).retires (standsAt_addWinStore s ps) 1

end Sys2Proof.Machine

namespace Sys2Proof.Proofs

open Sys2Proof Sys2Proof.Machine

/-- Settles O23. Each word's first pass decides whether it parks, holds or acts; what it changes are the bytes and the F/E bits of its
access and the window stores of its path slot. -/
theorem fullEmptyForms : Obligations.FullEmptyForms := by
  unfold Obligations.FullEmptyForms
  intro s d a b z o x n at1 base len v full words frame bits quiet put waits remote counted returned bs
  have take : exec (.lLdfTake d b z o) s = feLoad true d b z o s := rfl
  have peek : exec (.lLdfPeek d b z o) s = feLoad false d b z o s := rfl
  have fill : exec (.lStfFill d b z o) s = feStore true d b z o s := rfl
  have force : exec (.lStfForce d b z o) s = feStore false d b z o s := rfl
  have feFull : exec (.lFeFull d a b) s = execLFeFull d a b s := rfl
  have feEmpty : exec (.lFeEmpty d a b) s = execLFeEmpty d a b s := rfl
  have feTest : exec (.lFeTest d a b) s = execLFeTest d a b s := rfl
  have noBits : bits none = fun _ _ => none := feBits_none x.core words
  have acts (r : State) (h : r = if x.win = none then s else s.performBefore x.core) : r = s.afterStores x := h
  have parks (r : State) (q : Bool) : waits r q (r.park (.fe x.owner x.base n q)) := by
    obtain ⟨stat, park, rc, regs, bytes, fe⟩ := park_fe (r := r) (w := .fe x.owner x.base n q)
    exact ⟨stat, park, rc, regs, bytes, noBits ▸ fe⟩
  have counts {r t : State} (h : t.g.arch = if x.win = none then r.g.arch else (r.sentGroup []).arch) : counted r t := by
    show if x.win = none then _ else _
    by_cases own : x.win = none
    · rw [if_pos own] at h ⊢; exact h
    · rw [if_neg own] at h ⊢; exact h
  refine ⟨fun ok ret all => ⟨?take, ?peek⟩, fun ok some => ?empty, fun w ok hw ret all i hi => ?asks, ?stores, ?ranges, ?sealed, ?test,
    fun aligned none_ => ?zero⟩
  case take =>
    obtain ⟨one, ⟨bytes, fe, windows, left⟩, arch⟩ := dataBack_writes (s := s) (x := x)
      (u := (s.dataBack x).setFe x.core x.words false) rfl (localEffect_setFe (s.dataBack x) x.core x.words false) 1 d (BitVec.ofNat 64 (leNat (s.poolRead x)))
    exact ⟨_, take.trans ((feLoad_full ok (feAll_iff.2 all)).trans ((withWindowData_back ret).trans (by rw [dataBack_poolRead]; rfl))),
      one, bytes, fe, ⟨windows, left⟩, arch⟩
  case peek =>
    obtain ⟨one, ⟨bytes, fe, windows, left⟩, arch⟩ := dataBack_writes (s := s) (x := x) rfl (.refl (s.dataBack x)) 1 d
      (BitVec.ofNat 64 (leNat (s.poolRead x)))
    exact ⟨_, peek.trans ((feLoad_full ok (feAll_iff.2 all)).trans ((withWindowData_back ret).trans (by rw [dataBack_poolRead]; rfl))),
      one, bytes, noBits ▸ fe, ⟨windows, left⟩, arch⟩
  case empty =>
    have empty : s.feAll x true = false := not_feAll_iff.2 some
    exact ⟨⟨_, take.trans (feLoad_waits ok empty), parks s true⟩, ⟨_, peek.trans (feLoad_waits ok empty), parks s true⟩⟩
  case asks =>
    have asks {q : Bool} := (feLoad_full (d := d) (take := q) ok (feAll_iff.2 all)).trans (withWindowData_asks hw ret)
    obtain ⟨held, sent, regs, arch, bytes, fe⟩ := asks_holds s [(x.core, w)]
    refine ⟨_, ?_, held, sent, regs, arch, bytes, noBits ▸ fe⟩
    rcases List.mem_pair.1 hi with rfl | rfl
    · exact take.trans asks
    · exact peek.trans asks
  case stores =>
    intro r hr ok free
    obtain rfl := acts r hr
    obtain ⟨nodup, size⟩ := localCheck_offs ok.1 (show n ≤ 4096 by unfold n; split <;> decide)
    have effect (u : State) := localEffect_filled (s := u) nodup (size.trans (length_leBytes n v.toNat).symm)
    refine ⟨fun all => ?fills, fun some => ?full, fun own => ?own, fun w hw => ?window⟩
    case fills =>
      refine counts_withStoreCount (fill.trans (feFill_counts ok free (feAll_iff.2 all))) fun u => ⟨_, rfl, ?_⟩
      obtain ⟨regs, ⟨bytes, fe, windows, left⟩, arch⟩ := effect u
      exact ⟨regs, bytes, fe, ⟨windows, left⟩, counts arch⟩
    case full =>
      exact ⟨_, fill.trans (feFill_waits ok free (not_feAll_iff.2 some)), parks _ false⟩
    case own =>
      refine counts_withStoreCount (force.trans (feForce_own ok own)) fun u => ⟨_, rfl, ?_⟩
      obtain ⟨regs, ⟨bytes, fe, windows, left⟩, arch⟩ := effect u
      exact ⟨regs, bytes, fe, ⟨windows, left⟩, arch.trans (if_pos own)⟩
    case window =>
      refine counts_withStoreCount (force.trans (feForce_window ok free hw)) fun u => ⟨_, rfl, ?_⟩
      obtain ⟨regs, ⟨bytes, fe, windows, left⟩, arch⟩ := sent_leaves u [x.part (leBytes n v.toNat) true]
      refine ⟨regs, bytes, noBits ▸ fe, ⟨windows, left⟩, arch.trans ?_⟩
      rw [part_window hw]
      rfl
  case ranges =>
    intro r hr free aligned whole some ok
    obtain rfl := acts r hr
    have h : FeRange s a b true x := ⟨aligned, whole, some, ok⟩
    refine ⟨⟨_, feFull.trans (feRange_writes h free), ?_⟩, ⟨_, feEmpty.trans (feRange_writes h free), ?_⟩⟩
    · obtain ⟨one, ⟨bytes, fe, windows, left⟩, arch⟩ := feRange_leaves s x true (s.feCycles b) d
        (BitVec.ofNat 64 ((s.afterStores x).feCount x false))
      exact ⟨one, bytes, fe, ⟨windows, left⟩, counts arch⟩
    · obtain ⟨one, ⟨bytes, fe, windows, left⟩, arch⟩ := feRange_leaves s x false (s.feCycles b) d
        (BitVec.ofNat 64 ((s.afterStores x).feCount x true))
      exact ⟨one, bytes, fe, ⟨windows, left⟩, counts arch⟩
  case sealed =>
    intro p hw sealed
    have stops {i : Instr} (hi : exec i s = .next (s.park (.sealedWindow p.core p.win))) : Completes i s (Parks s (.sealedWindow p.core p.win)) :=
      ⟨_, hi, park_parks s _⟩
    refine ⟨fun ok => ⟨stops (fill.trans (feStore_parks ok hw sealed)), stops (force.trans (feStore_parks ok hw sealed))⟩,
      fun aligned whole some ok => ?_⟩
    have h : FeRange s a b true x := ⟨aligned, whole, some, ok⟩
    exact ⟨stops (feFull.trans (feRange_parks h hw sealed)), stops (feEmpty.trans (feRange_parks h hw sealed))⟩
  case test =>
    intro aligned whole some ok ret
    obtain ⟨one, ⟨bytes, fe, windows, left⟩, arch⟩ := dataBack_writes (s := s) (x := x) rfl (.refl (s.dataBack x)) (s.feCycles b) d
      (BitVec.ofNat 64 (s.feCount x true))
    have reads := feRange_reads (d := d) (k := fun x s => s.feCount x true) ⟨aligned, whole, some, ok⟩ ret
    rw [dataBack_feCount] at reads
    exact ⟨_, feTest.trans reads, one, bytes, noBits ▸ fe, ⟨windows, left⟩, arch⟩
  case zero =>
    have writes : WritesScalar s d 0 0 ((s.setS d 0).retire 1) := setS_retire_writes 1 d 0 s
    exact ⟨⟨_, feFull.trans (feRange_empty aligned none_), writes⟩, ⟨_, feEmpty.trans (feRange_empty aligned none_), writes⟩,
      ⟨_, feTest.trans (feRange_empty aligned none_), writes⟩⟩

end Sys2Proof.Proofs
end

section
/-! PROOFS. Collectives, O41: the statement's clause on coll.cancel fails where a group that waits for the result is listed under another
number than its own. -/

namespace Sys2Proof.Machine

/-- The slot of a collective in progress on which group 5 waits. -/
def cancelledSlot : CollSlot := { cgroup := 0, k := 0, status := none, waiters := [(5, false)] }

/-- A collective group whose collective 0 has the contribution of slot 0 and has not ended. -/
def cancelledGroup : CGroup :=
  { cgroup := 0, part := 0, nmemb := 2, attested := none, gone := [], issued := [], ended := []
    contribs := [{ k := 0, rank := 0, enc := 0, wid := 0, off := 0, len := 4, typ := 0, op := 0, bcast := false, slot := 0, gid := 1
                   pathF := false, seq := 0 }] }

/-- Group 1, whose s7 holds 9, cancels the collective of slot 0. The group listed under 5 carries number 1. -/
def cancelState : State :=
  { State.reset with
    g := ({ gid := 1 } : Group).setS 7 9
    groups := [(5, { gid := 1 })]
    encs := [(0, { colls := [(0, cancelledSlot)] })]
    cgroups := [cancelledGroup] }

/-- The status is delivered to the group listed under 5, which then stands at the focus, with its own registers. -/
theorem cancel_replaces : ∃ t, exec (.collCancel 0) cancelState = .next t ∧ t.g.sr 7 = 0 := ⟨_, rfl, by decide +kernel⟩

theorem cancel_holds : cancelState.g.sr 7 = 9 := by decide +kernel

end Sys2Proof.Machine

namespace Sys2Proof.Proofs

open Sys2Proof Sys2Proof.Machine

/-- Refutes O41. Its clause on coll.cancel says that no register of the executing group changes. It does not ask that the groups that wait
on the collective carry the numbers they are listed under: where one carries the executing group's number, delivering the status puts
it in the executing group's place. -/
theorem not_collectiveAndQueueWords : ¬ Obligations.CollectiveAndQueueWords := by
  unfold Obligations.CollectiveAndQueueWords
  intro h
  obtain ⟨-, -, -, -, -, -, -, -, cancel, -⟩ := h cancelState cancelState 0 0 0 0 0 
    { wid := 0, enc := 0, gid := 0, core := 0, desc := [], stat := .opened } 0 0 0 0 cancelledGroup cancelledSlot [] []
  obtain ⟨t, ht, ⟨regs, -, -⟩, -⟩ := cancel (by decide +kernel) (by decide +kernel) rfl (by decide +kernel) (by decide +kernel)
  obtain ⟨u, hu, zero⟩ := cancel_replaces
  obtain rfl : t = u := by rw [ht] at hu; cases hu; rfl
  rw [regs, cancel_holds] at zero
  exact absurd zero (by decide)

end Sys2Proof.Proofs
end

section
/-! PROOFS. What follows the issue of memory accesses, O49: the statement's clause on an atomic that executes fails where a full table's
eviction settles the release of a group listed under another number than its own. -/

namespace Sys2Proof.Machine

/-- An entry whose release by group 5 has not been widened. -/
def settledEntry : Svt :=
  { rel := true, remote := false, host := false, line := 99, cl := 0, multi := false, core := 0, relCl := 0, relMulti := false, relCore := 0
    relGid := 5, relSeq := 0, want := none }

/-- An atomic of one word at address 0 that waits at its ordering point. -/
def evictingAtomic : Req :=
  blankReq {} false .zero 8 false false false [{ lane := 0, va := 0, pas := [0] }]
    (some { op := .xchg, w := 8, nat := true, merge := false, x := 0, y := 0 })

/-- Group 1 waits with an atomic whose line has no entry in a full table. The group listed under 5 carries number 1 and has no request. -/
def evictState : State :=
  { State.reset with
    g := { gid := 1, reqs := [evictingAtomic] }
    groups := [(5, { gid := 1 })]
    dies := [(0, { svt := List.replicate 4096 settledEntry })] }

/-- The requests of a group in the state that an answer goes on in. -/
def reqsOf (i : Nat) : Out → Option (List Req)
  | .next t => (t.group i).map (·.reqs)
  | _ => none

theorem evict_waits : ∃ m, evictState.waiting (1, 0) = some m ∧ m.g.gid = 1 ∧ m.line ∉ evictState.poison ∧ evictState.gate m = some 0 ∧
    evictState.atPoint m = true := ⟨_, rfl, by decide +kernel⟩

/-- Where an atomic waits, its group has a request. -/
theorem reqs_ne_nil_of_waiting {s : State} {x : Nat × Nat} {m : Waiting} (waits : s.waiting x = some m) : m.g.reqs ≠ [] := by
  simp only [State.waiting, Option.bind_eq_some_iff, Option.map_eq_some_iff] at waits
  obtain ⟨g, -, r, listed, -, -, rfl⟩ := waits
  exact List.ne_nil_of_mem (List.mem_of_getElem? listed)

/-- The eviction settles the release of the group listed under 5, which then stands at the focus without the atomic. -/
theorem evict_replaces : reqsOf 1 (exec (.atomicExecute [(1, 0)]) evictState) = some [] := by decide +kernel

/-- A team and a task of no account: the clause speaks of neither. -/
def someTeam : Team :=
  { id := 0, task := 0, index := 0, stat := .waiting, cores := [], rows := [], lost := [], stagingLost := [], gids := [], bars := [], e := 0
    plq := [], haltedAt := 0 }
def someTask : Task :=
  { id := 0, enc := 0, queue := 0, grid := 0, depth := 0, parent := none, recAt := 0, rcd := [], stage := .queued, lease := .walk
    attempts := 0, waitFrom := 0, pendFrom := 0, frames := [], producers := [], admitted := 0, arbitrated := 0, arbCyc := 0
    forward := none, fixed := [], edgeAt := none, placed := 0, published := 0, retired := false, fault := none, supp := 0
    ended := false, reported := false, replay := 0, ranOn := 0 }

end Sys2Proof.Machine

namespace Sys2Proof.Proofs

open Sys2Proof Sys2Proof.Machine

/-- Refutes O49. Its clause on an atomic that executes says that the group's other requests stand and its own has its value. Naming the
line in a full table first settles the release of the oldest entry; where the releasing group is listed under another number than its
own, settling puts it in the place of the group that carries that number, and the atomic's request is gone. -/
theorem not_memoryEvents : ¬ Obligations.MemoryEvents := by
  unfold Obligations.MemoryEvents
  intro h
  obtain ⟨m, waits, gid, clean, gate, atPoint⟩ := evict_waits
  obtain ⟨-, -, -, -, atomics, -⟩ := h evictState 1 0 0 0 {} evictingAtomic ⟨0, false, [], false, 0, 0, none, []⟩ []
    ⟨0, 0, false, 0, 0, [], false, none⟩ m [] 0 [] settledEntry someTeam someTask ⟨0, false, []⟩ [] false
    ⟨0, 0, 0, false, 0, false, [], [], [], none, 0, 0, none, 0, []⟩
  obtain ⟨t, ht, g, atGroup, reqs, -⟩ := (((atomics waits gid).1 clean atPoint).1 0 gate).1
  have replaced := evict_replaces
  rw [ht] at replaced
  simp only [reqsOf, atGroup, Option.map_some, reqs, Option.some.injEq, List.set_eq_nil_iff] at replaced
  exact reqs_ne_nil_of_waiting waits replaced

end Sys2Proof.Proofs
end

section
/-! PROOFS. Invalidations, walks and migration, O51: the statement's clause on an acknowledgement fails where the cores of the state are
listed twice under one number. -/

namespace Sys2Proof.Machine

/-- The invalidation of frame 0 is the last that waits for an acknowledgement. Core 0 is listed twice: its entry that counts holds only a
line of frame 0, the later one a line of frame 5. -/
def coreTwiceState : State :=
  { State.reset with
    cores := [(0, { near := [{ line := 0, owner := 0, data := [] }] }), (0, { near := [{ line := 320, owner := 0, data := [] }] })]
    dies := [(0, { inval := some (.frames 0 1) })] }

/-- The near-cache lines of core 0 in the state that an answer goes on in. -/
def nearOf : Out → List NearLine
  | .next t => (t.core 0).near
  | _ => []

theorem coreTwice_frame0 : ((coreTwiceState.core 0).near.filter fun y => !(0 ≤ y.line / 64 && y.line / 64 < 0 + 1)) = [] := by
  decide +kernel

/-- The entry that counts becomes the default and is no longer listed, so the later one counts. -/
theorem acknowledge_uncovers : nearOf (exec (.dtuAcknowledge 0) coreTwiceState) ≠ [] := by decide +kernel

theorem coreTwice_acknowledges : (coreTwiceState.die 0).inval = some (.frames 0 1) ∧
    (coreTwiceState.die 0).count (!(coreTwiceState.die 0).colour) = 0 ∧ (coreTwiceState.die 0).invalQ = [] ∧
    ∀ j < 4, j ≠ 0 → (coreTwiceState.die 0).accepted ≤ (coreTwiceState.die j).acked := by decide +kernel

end Sys2Proof.Machine

namespace Sys2Proof.Proofs

open Sys2Proof Sys2Proof.Machine

/-- Refutes O51. Its clause on the last acknowledgement says that the near caches lose the lines of the frames and no others come. Unlike
its clause on the invalidation it does not ask for a canonical map of cores: in one that lists a core twice, the entry that loses
its only line is no longer listed, and the other one's lines appear. -/
theorem not_translationEvents : ¬ Obligations.TranslationEvents := by
  unfold Obligations.TranslationEvents
  intro h
  obtain ⟨inval, idle, queue, acked⟩ := coreTwice_acknowledges
  obtain ⟨-, acknowledge, -⟩ := h coreTwiceState (.frames 0 1) .all [] 0 0 0 0 0
    { gid := 0, enc := 0, asid := 0, va := 0, kind := .load, res := none } ⟨.k4, 0, 0, false, false, false, false, false, false, 0⟩
    .privilege
  obtain ⟨t, ht, -, -, -, near⟩ := (acknowledge inval).2.1 idle queue
  have uncovered := acknowledge_uncovers
  rw [ht] at uncovered
  exact uncovered ((near acked 0 1 rfl 0).trans coreTwice_frame0)

end Sys2Proof.Proofs
end

section
/-! PROOFS. What serving an access, a write-back and an engine's element leave: the tables of the machine, and each group but for its
monitors. -/

namespace Sys2Proof.Machine

/-! ### Groups whose monitors alone change -/

/-- Two groups that differ in their monitors alone. -/
def Marked (g h : Group) : Prop := h = { g with t := { g.t with mon := h.t.mon }, f := { g.f with mon := h.f.mon } }

theorem Marked.refl (g : Group) : Marked g g := rfl
theorem Marked.trans {g h k : Group} (a : Marked g h) (b : Marked h k) : Marked g k := by
  unfold Marked at *
  rw [b, a]
theorem Marked.gid {g h : Group} (a : Marked g h) : h.gid = g.gid := by rw [show h = _ from a]
theorem Marked.team {g h : Group} (a : Marked g h) : h.team = g.team := by rw [show h = _ from a]
theorem Marked.path {g h : Group} (a : Marked g h) (f : Bool) : h.path f = { g.path f with mon := (h.path f).mon } := by
  rw [show h = _ from a]
  cases f <;> rfl
theorem Marked.sameRegs {g h : Group} (a : Marked g h) : SameRegs g h := by
  rw [show h = _ from a]
  exact ⟨rfl, rfl, rfl, rfl, rfl, rfl, fun b => by cases b <;> rfl⟩

theorem marked_latch (g : Group) (hit : Nat → Bool) (c : Cause) : Marked g (g.latch hit c) := Group.latch_eq _ _ _

/-! ### The frame -/

/-- A state in which accesses have been served: of the groups the monitors alone change, of the rest the memory with its counts, the
lines, the cores, the dies, the buffers and the place in the order of issue. -/
structure Serves (s t : State) : Prop where
  rest : t = { s with
    g := t.g, groups := t.groups, mem := t.mem, poison := t.poison, lines := t.lines, chans := t.chans, fresh := t.fresh
    cores := t.cores, dies := t.dies, bufs := t.bufs, seq := t.seq }
  focus : Marked s.g t.g
  groups : List.Forall₂ (fun x y => y.1 = x.1 ∧ Marked x.2 y.2) s.groups t.groups

theorem Serves.refl (s : State) : Serves s s := ⟨rfl, .refl _, List.forall₂_same.2 fun _ _ => ⟨rfl, .refl _⟩⟩

theorem Serves.trans {s t u : State} (a : Serves s t) (b : Serves t u) : Serves s u where
  rest := by rw [b.rest, a.rest]
  focus := a.focus.trans b.focus
  groups := by
    have ha := a.groups
    have hb := b.groups
    revert hb
    generalize u.groups = zs
    generalize s.groups = xs at ha
    generalize t.groups = ys at ha ⊢
    induction ha generalizing zs with
    | nil => intro hb; cases hb; exact .nil
    | cons h _ ih =>
      intro hb
      cases hb with
      | cons k hb => exact .cons ⟨k.1.trans h.1, h.2.trans k.2⟩ (ih _ hb)

/-- An update of the fields that the frame leaves open. -/
theorem Serves.same {s t u : State} (a : Serves s t) (rest : u = { t with
    mem := u.mem, poison := u.poison, lines := u.lines, chans := u.chans, fresh := u.fresh, cores := u.cores, dies := u.dies
    bufs := u.bufs, seq := u.seq } := by rfl) : Serves s u := by
  refine a.trans ⟨?_, ?_, ?_⟩
  · rw [rest]
  · rw [rest]; exact .refl _
  · rw [rest]; exact (Serves.refl t).groups

theorem Serves.quiet {s t u : State} (a : Serves s t) (q : Quiet t u) : Serves s u := a.same (by rw [q.rest])

theorem Serves.foldl {α : Type} {s : State} {f : State → α → State} (hf : ∀ t a, Serves s t → Serves s (f t a)) {l : List α} {t : State}
    (a : Serves s t) : Serves s (l.foldl f t) := List.foldlRecOn (motive := Serves s) l f a fun _ h x _ => hf _ x h

/-- A group stands, and its monitors alone may have changed. -/
theorem Serves.group {s t : State} (a : Serves s t) {i : Nat} {g : Group} (hg : s.group i = some g) :
    ∃ h, t.group i = some h ∧ Marked g h := by
  unfold State.group at hg ⊢
  rw [a.focus.gid]
  split
  next focus =>
    rw [if_pos focus] at hg
    split
    next zero => rw [if_pos zero] at hg; exact nomatch hg
    next pos =>
      rw [if_neg pos] at hg
      cases hg
      exact ⟨_, rfl, a.focus⟩
  next other =>
    rw [if_neg other] at hg
    have gs := a.groups
    revert hg
    generalize t.groups = ys at gs ⊢
    generalize s.groups = xs at gs ⊢
    induction gs with
    | nil => exact nofun
    | @cons x y _ _ h _ ih =>
      obtain ⟨n, x⟩ := x
      obtain ⟨_, y⟩ := y
      obtain ⟨rfl, marked⟩ := h
      intro hg
      rw [smFind] at hg ⊢
      split
      next here => rw [if_pos here] at hg; cases hg; exact ⟨y, rfl, marked⟩
      next there => rw [if_neg there] at hg; exact ih hg

section Operations
variable {s t : State} (a : Serves s t)
include a

theorem Serves.tables : TablesStand s t := ⟨by rw [a.rest], by rw [a.rest]⟩

theorem Serves.latchAll {part cls : Nat} {inst : Option Nat} {hit : Nat → Bool} {c : Cause} :
    Serves s (t.latchAll part cls inst hit c) := by
  refine a.trans ⟨rfl, ?_, ?_⟩
  · unfold State.latchAll
    dsimp only
    generalize ((t.g.t.mon.isSome || t.g.f.mon.isSome) && _ && _ : Bool) = sees
    cases sees
    · exact .refl _
    · exact marked_latch _ _ _
  · unfold State.latchAll
    dsimp only
    rw [List.forall₂_map_right_iff, List.forall₂_same]
    intro x _
    refine ⟨rfl, ?_⟩
    dsimp only
    generalize ((x.2.t.mon.isSome || x.2.f.mon.isSome) && _ && _ : Bool) = sees
    cases sees
    · exact .refl _
    · exact marked_latch _ _ _

theorem Serves.bumpChan {pa k n : Nat} : Serves s (t.bumpChan pa k n) := a.same
theorem Serves.draw : Serves s t.draw.2 := a.same
theorem Serves.countAt {pa : Nat} {w : Bool} : Serves s (t.countAt pa w) := a.bumpChan.draw.bumpChan.bumpChan.bumpChan
theorem Serves.countMem {ls : List Nat} {w : Bool} : Serves s (t.countMem ls w) := .foldl (fun _ _ a => a.countAt) a
theorem Serves.dropLine {x : LLine} : Serves s (t.dropLine x) := Serves.latchAll (t := { t with lines := _ }) a.same

theorem Serves.writeBack {x : LLine} : Serves s (t.writeBack x) := by
  unfold State.writeBack
  split
  · exact a
  · exact Serves.countMem (t := (t.memWrite _).setLine _) a.same

theorem Serves.insertLine {l : Ldr} {x : LLine} : Serves s (t.insertLine l x) := by
  unfold State.insertLine
  dsimp only
  split
  · exact a.same
  split
  · exact a.writeBack.dropLine.same
  · exact a

theorem Serves.allocate {part cls die pa : Nat} {l : Ldr} {geo : Bool} {ws : List (Nat × Byte)} :
    Serves s (t.allocate part cls die pa l geo ws) := a.countMem.insertLine

theorem Serves.serveLoad {part cls die pa n : Nat} : Serves s (t.serveLoad part cls die pa n).2 := by
  unfold State.serveLoad
  dsimp only
  split
  · dsimp only
    split
    · exact a.same
    · exact a
  · exact a.countMem
  split
  · exact a.countMem
  · exact a.allocate

end Operations

/-! ### What a write-back leaves of the lines and of memory -/

theorem countAt_lines (s : State) (pa : Nat) (w : Bool) : (s.countAt pa w).lines = s.lines := by
  have bump (s : State) (pa k n : Nat) : (s.bumpChan pa k n).lines = s.lines := rfl
  have draw (s : State) : s.draw.2.lines = s.lines := rfl
  simp only [State.countAt, bump, draw]
theorem countAt_mem (s : State) (pa : Nat) (w : Bool) : (s.countAt pa w).mem = s.mem := by
  have bump (s : State) (pa k n : Nat) : (s.bumpChan pa k n).mem = s.mem := rfl
  have draw (s : State) : s.draw.2.mem = s.mem := rfl
  simp only [State.countAt, bump, draw]
@[simp] theorem countMem_lines (s : State) (ls : List Nat) (w : Bool) : (s.countMem ls w).lines = s.lines :=
  List.foldlRecOn (motive := fun t : State => t.lines = s.lines) ls _ rfl fun t h _ _ => (countAt_lines t _ _).trans h
@[simp] theorem countMem_mem (s : State) (ls : List Nat) (w : Bool) : (s.countMem ls w).mem = s.mem :=
  List.foldlRecOn (motive := fun t : State => t.mem = s.mem) ls _ rfl fun t h _ _ => (countAt_mem t _ _).trans h

theorem writeBack_mem (s : State) (x : LLine) (flat : ∀ a, s.home a = a ∧ s.canon a = a) :
    (s.writeBack x).mem = memPutAll s.mem x.dirtyBytes := by
  unfold State.writeBack
  split
  next clean =>
    have none_ : x.dirtyBytes = [] := by simp [LLine.dirtyBytes, clean, bitAt]
    rw [none_]
    rfl
  next =>
    rw [countMem_mem]
    have here : (fun w : Nat × Byte => (s.home (s.canon w.1), w.2)) = id := by
      funext w
      rw [(flat _).2, (flat _).1]
      rfl
    show memPutAll s.mem (x.dirtyBytes.map _) = _
    rw [here, List.map_id]

/-- A line that is written back and dropped leaves its place, and no other line changes. -/
theorem writeBack_dropLine_lines (s : State) (x : LLine) :
    ((s.writeBack x).dropLine x).lines = s.lines.filter fun y => !y.same x := by
  show (s.writeBack x).lines.filter _ = _
  unfold State.writeBack
  split
  · rfl
  · rw [countMem_lines]
    show (s.lines.map fun y => if y.same { x with dirty := 0 } then { x with dirty := 0 } else y).filter _ = _
    induction s.lines with
    | nil => rfl
    | cons y ys ih =>
      have place : y.same { x with dirty := 0 } = y.same x := rfl
      rw [List.map_cons, List.filter_cons, List.filter_cons, ih, place]
      by_cases h : y.same x = true
      · have self : LLine.same { x with dirty := 0 } x = true := by simp [LLine.same]
        rw [if_pos h, self, h]
        rfl
      · rw [if_neg h]

end Sys2Proof.Machine
end

section
/-! PROOFS. The management registers, metering and Lamplight acquisition (19 R352 to R361; 21 R376, R384; 27 R434): O52. -/

namespace Sys2Proof.Machine

/-! ### Management writes while the package runs, and before -/

theorem whenRunning_of_running {s : State} (run : s.running = true) (k : State → State) : whenRunning k s = .next (k s) := by
  rw [whenRunning, if_pos run]

theorem whenRunning_of_not_running {s : State} (held : s.running = false) (k : State → State) : whenRunning k s = .next s := by
  rw [whenRunning, held, if_neg (by decide)]

/-- A management write of a running package does its register's own write. -/
theorem completes_whenRunning {s : State} {i : Instr} {k : State → State} {P : State → Prop} (runs : exec i s = whenRunning k s)
    (run : s.running = true) (p : P (k s)) : Completes i s P :=
  ⟨_, runs.trans (whenRunning_of_running run k), p⟩

/-- A package that its boot has not released takes no management write. -/
theorem completes_not_running {s : State} {i : Instr} {k : State → State} (runs : exec i s = whenRunning k s)
    (held : s.running = false) : Completes i s fun t => t = s :=
  ⟨_, runs.trans (whenRunning_of_not_running held k), rfl⟩

/-! ### The management instructions as writes of a running package -/

theorem exec_mmtWrite (k h : Nat) (s : State) : exec (.mmtWrite k h) s = whenRunning (·.writeMmt k h) s := rfl
theorem exec_partitionRecordWrite (part : Nat) (ds : List Word) (s : State) :
    exec (.partitionRecordWrite part ds) s = whenRunning (·.writeRecord part ds) s := rfl
theorem exec_virtualInterfaceWrite (vi : Nat) (d0 d1 : Word) (name : Bool) (s : State) :
    exec (.virtualInterfaceWrite vi d0 d1 name) s =
      whenRunning (fun s => if name then { s.writeVi vi d0 d1 with viNamed := vi } else s.writeVi vi d0 d1) s := rfl
theorem exec_frameAccountWrite (vi : Nat) (burst : Bool) (n : Nat) (s : State) :
    exec (.frameAccountWrite vi burst n) s = whenRunning (·.writeAccount vi burst n) s := rfl
theorem exec_coreTokensWrite (die n : Nat) (s : State) : exec (.coreTokensWrite die n) s = whenRunning (·.writeCoreTokens die n) s := rfl
theorem exec_fabTokensWrite (n : Nat) (s : State) : exec (.fabTokensWrite n) s = whenRunning (·.writeFabTokens n) s := rfl
theorem exec_pkgidWrite (n : Nat) (s : State) : exec (.pkgidWrite n) s = whenRunning (·.writePkgid n) s := rfl
theorem exec_plimitWrite (n : Nat) (s : State) : exec (.plimitWrite n) s = whenRunning (·.writePlimit n) s := rfl
theorem exec_lamplightAcquisition (core : Nat) (trace acquire : Bool) (s : State) :
    exec (.lamplightAcquisition core trace acquire) s = whenRunning (·.acquireUnit core trace acquire) s := rfl

/-- What an access of the management window changes. -/
def State.mgmtAccess (s : State) (src : MgmtFrom) (off : Nat) (v : Option Word) : State :=
  if !s.reachesMgmt src then s
  else match v with
    | some v => s.mgmtStore off v
    | none => { s with outbox := s.outbox ++ [.mgmt (s.mgmtRead off)] }

theorem exec_managementWrite (src : MgmtFrom) (off : Nat) (v : Option Word) (s : State) :
    exec (.managementWrite src off v) s = whenRunning (·.mgmtAccess src off v) s := rfl

theorem managementWrites_not_running {s : State} (held : s.running = false) (k h part vi die n core off : Nat) (ds : List Word)
    (d0 d1 : Word) (burst name : Bool) (src : MgmtFrom) (w : Option Word) :
    ∀ j ∈ [Instr.mmtWrite k h, .partitionRecordWrite part ds, .virtualInterfaceWrite vi d0 d1 name, .frameAccountWrite vi burst n,
      .coreTokensWrite die n, .fabTokensWrite n, .pkgidWrite n, .plimitWrite n, .managementWrite src off w,
      .lamplightAcquisition core burst name], Completes j s fun t => t = s := by
  simp only [List.mem_cons, List.not_mem_nil, or_false, forall_eq_or_imp, forall_eq]
  exact ⟨completes_not_running (exec_mmtWrite ..) held, completes_not_running (exec_partitionRecordWrite ..) held,
    completes_not_running (exec_virtualInterfaceWrite ..) held, completes_not_running (exec_frameAccountWrite ..) held,
    completes_not_running (exec_coreTokensWrite ..) held, completes_not_running (exec_fabTokensWrite ..) held,
    completes_not_running (exec_pkgidWrite ..) held, completes_not_running (exec_plimitWrite ..) held,
    completes_not_running (exec_managementWrite ..) held, completes_not_running (exec_lamplightAcquisition ..) held⟩

/-! ### Single registers -/

section Registers
variable {s : State} (run : s.running = true)
include run

theorem mmtWrite_admitted {k h : Nat} (hk : k < 2816) (free : s.mmtLocked k = false) (hash : 768 ≤ k → h % 4 ≠ 2) :
    Completes (.mmtWrite k h) s fun t => t = { s with mmt := t.mmt } ∧ ∀ j, smGet 0 t.mmt j = if j = k then h % 4 else smGet 0 s.mmt j := by
  refine completes_whenRunning (exec_mmtWrite ..) run ?_
  rw [State.writeMmt, if_neg (not_or.2 ⟨by omega, not_or.2 ⟨by simp [free], fun bad => hash bad.1 bad.2⟩⟩)]
  exact ⟨rfl, fun j => smGet_smSet _ _ _ _ _⟩

theorem mmtWrite_ignored {k h : Nat} (bar : s.mmtLocked k = true ∨ 2816 ≤ k ∨ (768 ≤ k ∧ h % 4 = 2)) :
    Completes (.mmtWrite k h) s fun t => t = s :=
  completes_whenRunning (exec_mmtWrite ..) run (if_pos (by rcases bar with h | h | h <;> simp [h]))

theorem coreTokensWrite_admitted {die n : Nat} (hd : die < 4) (lo : 1 ≤ n) (hi : n ≤ 4096) :
    Completes (.coreTokensWrite die n) s fun t => t = { s with dies := t.dies } ∧
      ∀ j, t.die j = if j = die then { s.die die with coreTokens := n } else s.die j := by
  refine completes_whenRunning (exec_coreTokensWrite ..) run ?_
  rw [State.writeCoreTokens, if_neg (by omega)]
  exact ⟨rfl, fun j => State.die_modDie _ _ _ _⟩

theorem coreTokensWrite_ignored {die n : Nat} (out : n = 0 ∨ 4096 < n) : Completes (.coreTokensWrite die n) s fun t => t = s :=
  completes_whenRunning (exec_coreTokensWrite ..) run (if_pos (.inr out))

theorem plimitWrite_admitted {n : Nat} (lo : 800 ≤ n) (hi : n ≤ 3200) :
    Completes (.plimitWrite n) s fun t => t = { s with plimit := n, thr := t.thr } ∧ (t.thr = true ↔ n < s.pnow ∨ 95 ≤ s.tmax) := by
  refine completes_whenRunning (exec_plimitWrite ..) run ?_
  rw [State.writePlimit, if_neg (by omega)]
  exact ⟨rfl, by simp [State.throttle]⟩

theorem fabTokensWrite_admitted {n : Nat} (lo : 1 ≤ n) (hi : n ≤ 16384) :
    Completes (.fabTokensWrite n) s fun t => t = { s with fabTokens := n } :=
  completes_whenRunning (exec_fabTokensWrite ..) run (if_neg (by omega))

theorem fabTokensWrite_ignored {n : Nat} (out : n = 0 ∨ 16384 < n) : Completes (.fabTokensWrite n) s fun t => t = s :=
  completes_whenRunning (exec_fabTokensWrite ..) run (if_pos out)

theorem plimitWrite_ignored {n : Nat} (out : n < 800 ∨ 3200 < n) : Completes (.plimitWrite n) s fun t => t = s :=
  completes_whenRunning (exec_plimitWrite ..) run (if_pos out)

theorem pkgidWrite_first {n : Nat} (free : s.pkgidSet = false) :
    Completes (.pkgidWrite n) s fun t => t = { s with pkgid := n % 2 ^ 11, pkgidSet := true } :=
  completes_whenRunning (exec_pkgidWrite ..) run (if_neg (by simp [free]))

theorem pkgidWrite_later {n : Nat} (written : s.pkgidSet = true) : Completes (.pkgidWrite n) s fun t => t = s :=
  completes_whenRunning (exec_pkgidWrite ..) run (if_pos written)

/-! ### Interfaces and frame accounts -/

theorem virtualInterfaceWrite_admitted {vi : Nat} {d0 d1 : Word} {name : Bool} {y : Vi}
    (hy : y = { valid := bitAt d0.toNat 63, part := bitsAt d0.toNat 0 8, share := bitsAt d1.toNat 0 17 }) (hvi : vi < 256)
    (share : y.share ≤ 65536)
    (sum : ((s.vis.filter fun x => x.1 ≠ vi && x.2.valid).map fun x => x.2.share).sum + (if y.valid then y.share else 0) ≤ 65536) :
    Completes (.virtualInterfaceWrite vi d0 d1 name) s fun t =>
      t = { s with vis := t.vis, viNamed := if name then vi else s.viNamed } ∧ ∀ j, t.vi j = if j = vi then
        (if s.encs.any fun x => x.2.live && x.2.vi = vi then { y with part := (s.vi vi).part } else y) else s.vi j := by
  subst hy
  refine completes_whenRunning (exec_virtualInterfaceWrite ..) run ?_
  rw [State.writeVi, if_neg (not_or.2 ⟨Nat.not_le.2 hvi, not_or.2 ⟨Nat.not_lt.2 share, Nat.not_lt.2 sum⟩⟩)]
  have read (j : Nat) := smGet_smSet ({} : Vi) s.vis vi
    { valid := bitAt d0.toNat 63, share := bitsAt d1.toNat 0 17
      part := if s.encs.any fun x => x.2.live && x.2.vi = vi then (s.vi vi).part else bitsAt d0.toNat 0 8 } j
  refine ⟨by cases name <;> rfl, fun j => ?_⟩
  have stored : (if name then ({ s with vis := smSet {} s.vis vi _, viNamed := vi } : State) else { s with vis := smSet {} s.vis vi _ }).vi j
      = _ := (by cases name <;> rfl : _ = smGet {} (smSet {} s.vis vi _) j).trans (read j)
  refine stored.trans ?_
  split
  · split <;> rfl
  · rfl

theorem virtualInterfaceWrite_ignored {vi : Nat} {d0 d1 : Word} {name : Bool} {sum : Nat}
    (hsum : sum = ((s.vis.filter fun x => x.1 ≠ vi && x.2.valid).map fun x => x.2.share).sum +
      (if bitAt d0.toNat 63 then bitsAt d1.toNat 0 17 else 0)) (high : 65536 < bitsAt d1.toNat 0 17 ∨ 65536 < sum) :
    Completes (.virtualInterfaceWrite vi d0 d1 name) s fun t => t = { s with viNamed := if name then vi else s.viNamed } := by
  subst hsum
  refine completes_whenRunning (exec_virtualInterfaceWrite ..) run ?_
  have kept : s.writeVi vi d0 d1 = s := if_pos (.inr high)
  rw [kept]
  cases name <;> rfl

theorem frameAccountWrite_admitted {vi n : Nat} {burst : Bool} {b : Acct}
    (hb : b = if burst then { s.acct vi with burst := n % 2 ^ 32 } else { s.acct vi with guar := n % 2 ^ 32 }) (hvi : vi < 256)
    (guar : b.guar ≤ b.burst)
    (room : ((s.accts.filter fun x => x.1 ≠ vi).map fun x => x.2.guar).sum + b.guar ≤ packageFrames) :
    Completes (.frameAccountWrite vi burst n) s fun t =>
      t = { s with accts := t.accts } ∧ ∀ j, t.acct j = if j = vi then b else s.acct j := by
  subst hb
  refine completes_whenRunning (exec_frameAccountWrite ..) run ?_
  rw [State.writeAccount, if_neg (not_or.2 ⟨Nat.not_le.2 hvi, not_or.2 ⟨Nat.not_lt.2 guar, Nat.not_lt.2 room⟩⟩)]
  exact ⟨rfl, fun j => smGet_smSet _ _ _ _ _⟩

theorem frameAccountWrite_ignored {vi n : Nat} {burst : Bool} {b : Acct}
    (hb : b = if burst then { s.acct vi with burst := n % 2 ^ 32 } else { s.acct vi with guar := n % 2 ^ 32 }) (low : b.burst < b.guar) :
    Completes (.frameAccountWrite vi burst n) s fun t => t = s := by
  subst hb
  exact completes_whenRunning (exec_frameAccountWrite ..) run (if_pos (.inr (.inl low)))

/-! ### Partition records -/

theorem partitionRecordWrite_ignored {part : Nat} {ds : List Word} (bar : 255 ≤ part ∨ s.partOver part (partOf64 ds) = true ∨
    (s.partLive part = true ∧ s.partMayAmend part (partOf64 ds) = false)) :
    Completes (.partitionRecordWrite part ds) s fun t => t = s := by
  refine completes_whenRunning (exec_partitionRecordWrite ..) run (if_pos ?_)
  rcases bar with h | h | ⟨h, k⟩
  · exact .inl h
  · exact .inr (.inl h)
  · exact .inr (.inr (by simp [h, k]))

end Registers

/-- A record that is VALID or does not become so is put in its place. -/
theorem writePart_plain {s : State} {part : Nat} {p : Part} (h : p.valid = false ∨ (s.part part).valid = true) :
    s.writePart part p = s.modPart part fun _ => p := by
  rw [State.writePart, if_neg (by rcases h with h | h <;> simp [h])]

/-- The lines of a partition whose record becomes VALID are written back and dropped. -/
def State.linesCleared (s : State) (part : Nat) : State :=
  (s.lines.filter fun l => l.part = part).foldl (fun s l => (s.writeBack l).dropLine l) s

theorem writePart_becomes {s : State} {part : Nat} {p : Part} (new : p.valid = true) (old : (s.part part).valid = false) :
    s.writePart part p =
      { s.linesCleared part with classes := smFilter (fun k _ => k / 64 ≠ part) (s.linesCleared part).classes }.modPart part fun _ => p := by
  rw [State.writePart, if_pos (by simp [new, old])]
  rfl

theorem serves_linesCleared (s : State) (part : Nat) : Serves s (s.linesCleared part) :=
  .foldl (fun _ _ a => a.writeBack.dropLine) (.refl s)

theorem mem_foldl_writeBack_dropLine {xs : List LLine} {s : State} {y : LLine}
    (h : y ∈ (xs.foldl (fun s l => (s.writeBack l).dropLine l) s).lines) : y ∈ s.lines ∧ ∀ x ∈ xs, y.same x = false := by
  induction xs generalizing s with
  | nil => exact ⟨h, nofun⟩
  | cons x xs ih =>
    obtain ⟨here, away⟩ := ih h
    rw [writeBack_dropLine_lines, List.mem_filter] at here
    exact ⟨here.1, List.forall_mem_cons.2 ⟨by simpa using here.2, away⟩⟩

/-- No line of the partition is left. -/
theorem part_ne_of_mem_linesCleared {s : State} {part : Nat} {y : LLine} (h : y ∈ (s.linesCleared part).lines) : y.part ≠ part := by
  intro mine
  obtain ⟨listed, away⟩ := mem_foldl_writeBack_dropLine h
  have gone := away y (List.mem_filter.2 ⟨listed, by simpa using mine⟩)
  simp [LLine.same] at gone

theorem State.part_modPart (s : State) (p : Nat) (f : Part → Part) (j : Nat) :
    (s.modPart p f).part j = if j = p then f (s.part p) else s.part j := smGet_smSet _ _ _ _ _

theorem smFind_smFilter_keys {α : Type} (m : SMap α) (p : Nat → Bool) (k : Nat) :
    smFind (smFilter (fun k _ => p k) m) k = if p k then smFind m k else none := by
  induction m with
  | nil => simp [smFilter, smFind]
  | cons x m ih =>
    obtain ⟨n, v⟩ := x
    have tail : smFilter (fun k _ => p k) ((n, v) :: m) = if p n then (n, v) :: smFilter (fun k _ => p k) m
      else smFilter (fun k _ => p k) m := List.filter_cons
    rw [tail, smFind]
    by_cases hp : p n = true
    · rw [if_pos hp, smFind, ih]
      by_cases hk : k = n
      · subst hk
        simp [hp]
      · simp [hk]
    · rw [if_neg hp, ih]
      by_cases hk : k = n
      · subst hk
        simp [hp]
      · simp [hk]

theorem classDef_of_none {s : State} {part cls : Nat} (h : smFind s.classes (part * 64 + cls) = none) :
    s.classDef part cls = if cls = 0 ∧ (s.part part).valid then some ⟨defaultLdr part, none⟩ else none := by
  rw [State.classDef, h]

/-- 09 R196: a partition whose record becomes VALID has class 0 as BYPASS and no other class, and no line of it is left. -/
theorem writePart_becomes_classes {s : State} {part : Nat} {p : Part} (new : p.valid = true) (old : (s.part part).valid = false) :
    (s.writePart part p).classDef part 0 = some ⟨defaultLdr part, none⟩ ∧
      (∀ c, 0 < c → c < 64 → (s.writePart part p).classDef part c = none) ∧ (∀ y ∈ (s.writePart part p).lines, y.part ≠ part) ∧
      ∀ j c, j ≠ part → c < 64 → smFind (s.writePart part p).classes (j * 64 + c) = smFind s.classes (j * 64 + c) := by
  rw [writePart_becomes new old]
  have classes : (s.linesCleared part).classes = s.classes := by rw [(serves_linesCleared s part).rest]
  have find (k : Nat) := smFind_smFilter_keys s.classes (fun k => decide (k / 64 ≠ part)) k
  rw [classes]
  have gone (c : Nat) (hc : c < 64) : smFind (smFilter (fun k _ => decide (k / 64 ≠ part)) s.classes) (part * 64 + c) = none := by
    rw [find, if_neg (by simp; omega)]
  have valid : ((({ s.linesCleared part with classes := smFilter (fun k _ => decide (k / 64 ≠ part)) s.classes } : State).modPart part
      fun _ => p).part part).valid = true := by rw [State.part_modPart, if_pos rfl, new]
  refine ⟨(classDef_of_none (gone 0 (by omega))).trans (if_pos ⟨rfl, valid⟩), fun c pos hc =>
    (classDef_of_none (gone c hc)).trans (if_neg (by omega)), fun y hy => part_ne_of_mem_linesCleared hy, fun j c hj hc => ?_⟩
  · exact (find _).trans (if_pos (by simp; omega))

theorem part_writePart (s : State) (part : Nat) (p : Part) (j : Nat) :
    (s.writePart part p).part j = if j = part then p else s.part j := by
  by_cases h : p.valid = true ∧ (s.part part).valid = false
  · have parts (k : Nat) : (s.linesCleared part).part k = s.part k := by
      unfold State.part
      rw [(serves_linesCleared s part).rest]
    rw [writePart_becomes h.1 h.2, State.part_modPart]
    exact if_congr Iff.rfl rfl (parts j)
  · rw [writePart_plain (by simpa [-not_and, not_and_or] using h), State.part_modPart]

theorem partitionRecordWrite_admitted {s : State} (run : s.running = true) {part : Nat} {ds : List Word} {p : Part} (hp : p = partOf64 ds)
    (range : part < 255) (free : s.partOver part p = false) (may : s.partLive part = false ∨ s.partMayAmend part p = true) :
    Completes (.partitionRecordWrite part ds) s fun t => (∀ j, t.part j = if j = part then p else s.part j) ∧
      (p.valid = false ∨ (s.part part).valid = true → t = { s with parts := t.parts }) ∧
      (p.valid = true → (s.part part).valid = false → t.classDef part 0 = some ⟨defaultLdr part, none⟩ ∧
        (∀ c, 0 < c → c < 64 → t.classDef part c = none) ∧ (∀ y ∈ t.lines, y.part ≠ part) ∧
        ∀ j c, j ≠ part → c < 64 → smFind t.classes (j * 64 + c) = smFind s.classes (j * 64 + c)) := by
  subst hp
  refine completes_whenRunning (exec_partitionRecordWrite ..) run ?_
  rw [State.writeRecord, if_neg (not_or.2 ⟨by omega, not_or.2 ⟨by simp [free], by rcases may with h | h <;> simp [h]⟩⟩)]
  exact ⟨part_writePart s part _, fun h => by rw [writePart_plain h]; rfl, writePart_becomes_classes⟩

/-- 19 R352, R361: the record of a live partition takes amendments alone. -/
theorem partitionRecordWrite_live {s : State} (run : s.running = true) {part : Nat} {ds : List Word} (live : s.partLive part = true) :
    Completes (.partitionRecordWrite part ds) s fun t => t = { s with parts := t.parts } ∧
      ∃ qs c, t.part part = { s.part part with quotas := qs, commons := c } ∧ (s.part part).commons &&& c = (s.part part).commons ∧
        ∀ j < 4, (s.part part).quotas.getD j 0 ≤ qs.getD j 0 ∨ s.committed part j ≤ qs.getD j 0 := by
  refine completes_whenRunning (exec_partitionRecordWrite ..) run ?_
  unfold State.writeRecord
  dsimp only
  split
  · exact ⟨rfl, _, _, rfl, Nat.and_self _, fun _ _ => .inl le_rfl⟩
  next admitted =>
    obtain ⟨-, -, may⟩ : _ ∧ _ ∧ ¬(s.partLive part && !s.partMayAmend part (partOf64 ds)) = true := by
      simpa only [not_or] using admitted
    rw [live, Bool.true_and, Bool.not_eq_true, Bool.not_eq_false', State.partMayAmend] at may
    simp only [Bool.and_eq_true, decide_eq_true_eq, List.all_eq_true, List.mem_range, Bool.or_eq_true] at may
    obtain ⟨⟨same, commons⟩, quotas⟩ := may
    have kept : (partOf64 ds).valid = (s.part part).valid := by rw [same]
    have plain : (partOf64 ds).valid = false ∨ (s.part part).valid = true := by
      rw [kept]
      exact (Bool.eq_false_or_eq_true _).symm
    rw [writePart_plain plain]
    exact ⟨rfl, _, _, (State.part_modPart ..).trans ((if_pos rfl).trans same), commons, quotas⟩

/-! ### The management window (27 R434) -/

theorem reachesMgmt_iff (s : State) (n h : Nat) : (s.reachesMgmt (.function n) = true ↔ n = 0) ∧
    (s.reachesMgmt (.hart h) = true ↔ (s.hart h).mode = .m ∧ (s.hart h).inside = none) := by
  simp [State.reachesMgmt]

section Window
variable {s : State} (run : s.running = true) {src : MgmtFrom}
include run

theorem managementWrite_not_reached {off : Nat} {w : Option Word} (bar : s.reachesMgmt src = false) :
    Completes (.managementWrite src off w) s fun t => t = s :=
  completes_whenRunning (exec_managementWrite ..) run (if_pos (by simp [bar]))

variable (reach : s.reachesMgmt src = true)
include reach

theorem managementWrite_load (off : Nat) :
    Completes (.managementWrite src off none) s fun t => t = { s with outbox := s.outbox ++ [.mgmt (s.mgmtRead off)] } :=
  completes_whenRunning (exec_managementWrite ..) run (if_neg (by simp [reach]))

/-- A store in the window does what the register's own write does. -/
theorem managementWrite_store {off : Nat} {v : Word} {i : Instr} {k : State → State} (own : exec i s = whenRunning k s)
    (stores : s.mgmtStore off v = k s) : exec (.managementWrite src off (some v)) s = exec i s := by
  rw [own, exec_managementWrite, whenRunning_of_running run, whenRunning_of_running run, ← stores]
  exact congrArg _ (if_neg (by simp [reach]))

end Window

theorem mgmtStore_mmt (s : State) {k : Nat} (hk : k < 2816) (v : Word) : s.mgmtStore (0x10000 + 8 * k) v = s.writeMmt k v.toNat := by
  have ix : (0x10000 + 8 * k - 0x10000) / 8 = k := by omega
  unfold State.mgmtStore
  simp only [Bool.and_eq_true, decide_eq_true_eq]
  rw [if_neg (by omega), if_neg (by omega), if_pos (by omega), ix]

theorem mgmtStore_record (s : State) {part n : Nat} (hp : part < 255) (hn : n < 64) (v : Word) :
    s.mgmtStore (0x20000 + 512 * part + 8 * n) v = s.writeRecord part ((s.part part).dwords.set n v) := by
  have ix : (0x20000 + 512 * part + 8 * n - 0x20000) / 512 = part := by omega
  have dw : (0x20000 + 512 * part + 8 * n - 0x20000) % 512 / 8 = n := by omega
  unfold State.mgmtStore
  simp only [Bool.and_eq_true, decide_eq_true_eq]
  rw [if_neg (by omega), if_neg (by omega), if_neg (by omega), if_pos (by omega), ix, dw]

theorem mgmtStore_interface (s : State) {vi : Nat} (hvi : vi < 256) (v : Word) : s.mgmtStore (0x40008 + 16 * vi) v =
    s.writeVi vi (BitVec.ofNat 64 (b2n (s.vi vi).valid * 2 ^ 63 + (s.vi vi).part)) v := by
  have ix : (0x40008 + 16 * vi - 0x40000) / 16 = vi := by omega
  unfold State.mgmtStore
  simp only [Bool.and_eq_true, decide_eq_true_eq]
  rw [if_neg (by omega), if_neg (by omega), if_neg (by omega), if_neg (by omega), if_pos (by omega), if_neg (by omega), ix]

theorem mgmtStore_account (s : State) {vi : Nat} (hvi : vi < 256) (burst : Bool) (v : Word) :
    s.mgmtStore (0x41000 + 32 * vi + (if burst then 8 else 0)) v = s.writeAccount vi burst v.toNat := by
  have low : (if burst then 8 else 0 : Nat) = 8 ∨ (if burst then 8 else 0 : Nat) = 0 := by cases burst <;> simp
  have field : decide ((0x41000 + 32 * vi + (if burst then 8 else 0)) % 32 = 8) = burst := by
    cases burst
    · exact decide_eq_false (by simp only [Bool.false_eq_true, if_false]; omega)
    · exact decide_eq_true (by simp only [if_true]; omega)
  generalize (if burst then 8 else 0 : Nat) = o at low field
  have ix : (0x41000 + 32 * vi + o - 0x41000) / 32 = vi := by omega
  unfold State.mgmtStore
  simp only [Bool.and_eq_true, decide_eq_true_eq]
  rw [if_neg (by omega), if_neg (by omega), if_neg (by omega), if_neg (by omega), if_neg (by omega), if_pos (by omega),
    if_pos (by omega), ix, field]

theorem mgmtStore_coreTokens (s : State) {die : Nat} (hd : die < 4) (v : Word) :
    s.mgmtStore (0x50000 + 8 * die) v = s.writeCoreTokens die v.toNat := by
  have ix : (0x50000 + 8 * die - 0x50000) / 8 = die := by omega
  unfold State.mgmtStore
  simp only [Bool.and_eq_true, decide_eq_true_eq]
  rw [if_neg (by omega), if_neg (by omega), if_neg (by omega), if_neg (by omega), if_neg (by omega), if_neg (by omega),
    if_pos (by omega), ix]

theorem mgmtStore_acquisition (s : State) {core : Nat} (hc : core < 512) (trace : Bool) (v : Word) :
    s.mgmtStore (0x200000 + 16 * core + (if trace then 8 else 0)) v = s.acquireUnit core trace (bitAt v.toNat 0) := by
  have low : (if trace then 8 else 0 : Nat) = 8 ∨ (if trace then 8 else 0 : Nat) = 0 := by cases trace <;> simp
  have field : decide ((0x200000 + 16 * core + (if trace then 8 else 0)) / 8 % 2 = 1) = trace := by
    cases trace
    · exact decide_eq_false (by simp only [Bool.false_eq_true, if_false]; omega)
    · exact decide_eq_true (by simp only [if_true]; omega)
  generalize (if trace then 8 else 0 : Nat) = o at low field
  have ix : (0x200000 + 16 * core + o - 0x200000) / 16 = core := by omega
  unfold State.mgmtStore
  simp only [Bool.and_eq_true, decide_eq_true_eq]
  rw [if_neg (by omega), if_neg (by omega), if_neg (by omega), if_neg (by omega), if_neg (by omega), if_neg (by omega),
    if_neg (by omega), if_neg (by omega), if_neg (by omega), if_pos (by omega), ix, field]

theorem mgmtStore_fabTokens (s : State) (v : Word) : s.mgmtStore 0x50020 v = s.writeFabTokens v.toNat := rfl
theorem mgmtStore_plimit (s : State) (v : Word) : s.mgmtStore 0x300000 v = s.writePlimit (v.toNat % 2 ^ 16) := rfl
theorem mgmtStore_pkgid (s : State) (v : Word) : s.mgmtStore 0 v = s.writePkgid v.toNat := rfl

theorem mgmtRead_registers (s : State) (off : Nat) :
    s.mgmtRead 0 = BitVec.ofNat 64 s.pkgid ∧ s.mgmtRead 0x300000 = BitVec.ofNat 64 s.plimit ∧
      s.mgmtRead 0x300018 = BitVec.ofNat 64 (2 * b2n s.trip + b2n s.thr) ∧ (off % 8 ≠ 0 → s.mgmtRead off = 0) :=
  ⟨rfl, rfl, rfl, fun odd => if_pos odd⟩

/-! ### Acquisition and return (21 R376) -/

section Acquisition
variable {s : State} (run : s.running = true) {core e : Nat}
include run

theorem acquisition_bank (holder : (s.core core).bank.holder = some (.enc e)) :
    Completes (.lamplightAcquisition core false true) s fun t => t = { s with cores := t.cores } ∧
      (t.core core).bank = { (s.core core).bank with holder := some .hyp, suspended := some e, snap := (t.core core).bank.snap } := by
  refine completes_whenRunning (exec_lamplightAcquisition ..) run ⟨rfl, ?_⟩
  have taken : (s.acquireUnit core false true).core core = (s.core core).bankTaken := (State.core_modCore ..).trans (if_pos rfl)
  rw [taken, Core.bankTaken, if_neg (by simp [holder]), holder]

theorem acquisition_trace (holder : (s.core core).trace.holder = some (.enc e)) :
    Completes (.lamplightAcquisition core true true) s fun t => t = { s with cores := t.cores } ∧ (t.core core).trace.queue = [] ∧
      (t.core core).trace.holder = some .hyp ∧ (t.core core).trace.suspended = some e ∧
      (t.core core).trace.cmps = (s.core core).trace.cmps := by
  refine completes_whenRunning (exec_lamplightAcquisition ..) run ⟨rfl, ?_⟩
  have taken : (s.acquireUnit core true true).core core = (s.core core).traceTaken := (State.core_modCore ..).trans (if_pos rfl)
  rw [taken, Core.traceTaken, if_neg (by simp [holder]), holder]
  exact ⟨rfl, rfl, rfl, rfl⟩

theorem return_bank_free (holder : (s.core core).bank.holder = some .hyp) (none_ : (s.core core).bank.suspended = none) :
    Completes (.lamplightAcquisition core false false) s fun t => (t.core core).bank = {} := by
  refine completes_whenRunning (exec_lamplightAcquisition ..) run ?_
  show ((s.bankReturned core).core core).bank = {}
  rw [State.bankReturned, if_neg (by simp [holder]), none_]
  exact congrArg Core.bank ((State.core_modCore ..).trans (if_pos rfl))

theorem return_bank (holder : (s.core core).bank.holder = some .hyp) (guest : (s.core core).bank.suspended = some e)
    (kept : (s.core core).bank.kept = []) :
    Completes (.lamplightAcquisition core false false) s fun t => (t.core core).bank.holder = some (.enc e) ∧
      (t.core core).bank.suspended = none ∧ (t.core core).bank.cfg = (s.core core).bank.cfg ∧
      (t.core core).bank.count = (s.core core).bank.count := by
  refine completes_whenRunning (exec_lamplightAcquisition ..) run ?_
  show (fun c : Core => c.bank.holder = some (.enc e) ∧ c.bank.suspended = none ∧ c.bank.cfg = (s.core core).bank.cfg ∧
    c.bank.count = (s.core core).bank.count) ((s.bankReturned core).core core)
  rw [State.bankReturned, if_neg (by simp [holder]), guest, kept]
  dsimp only [State.applyKept, List.foldl_nil]
  rw [State.core_modCore, if_pos rfl]
  exact ⟨rfl, rfl, rfl, rfl⟩

theorem return_trace (holder : (s.core core).trace.holder = some .hyp) (guest : (s.core core).trace.suspended = some e)
    (kept : (s.core core).trace.kept = []) :
    Completes (.lamplightAcquisition core true false) s fun t => (t.core core).trace.holder = some (.enc e) ∧
      (t.core core).trace.hostLost = true ∧ (t.core core).trace.dropped = (s.core core).trace.saved ∧
      (t.core core).trace.cmps = (s.core core).trace.cmps := by
  refine completes_whenRunning (exec_lamplightAcquisition ..) run ?_
  show (fun c : Core => c.trace.holder = some (.enc e) ∧ c.trace.hostLost = true ∧ c.trace.dropped = (s.core core).trace.saved ∧
    c.trace.cmps = (s.core core).trace.cmps) ((s.traceReturned core).core core)
  rw [State.traceReturned, if_neg (by simp [holder]), guest, kept]
  dsimp only [State.applyKept, List.foldl_nil]
  rw [State.core_modCore, if_pos rfl]
  exact ⟨rfl, rfl, rfl, rfl⟩

end Acquisition

/-! ### A trace unit that has dropped packets (21 R384) -/

/-- A unit that the hypervisor does not hold takes the packets that its queue has room for, and counts the others. -/
theorem foldl_put {u : Trace} (guest : u.holder ≠ some .hyp) (room : u.queue.length ≤ 64) (ps : List (List Word)) :
    (ps.foldl Trace.put u).queue = (u.queue ++ ps).take 64 ∧ (ps.foldl Trace.put u).hostLost = u.hostLost ∧
      (u.queue.length + ps.length ≤ 64 → (ps.foldl Trace.put u).dropped = u.dropped) := by
  induction ps generalizing u with
  | nil => exact ⟨by rw [List.append_nil, List.take_of_length_le room, List.foldl_nil], rfl, fun _ => rfl⟩
  | cons p ps ih =>
    rw [List.foldl_cons, List.length_cons]
    by_cases full : u.queue.length < 64
    · have put : u.put p = { u with queue := u.queue ++ [p] } := by rw [Trace.put, if_pos full, if_neg guest]
      rw [put]
      obtain ⟨queue, lost, dropped⟩ := ih (u := { u with queue := u.queue ++ [p] }) guest (by rw [List.length_append]; exact full)
      refine ⟨by rw [queue, List.append_assoc]; rfl, lost, fun h => dropped ?_⟩
      rw [List.length_append, List.length_singleton]
      omega
    · have put : u.put p = { u with dropped := min (u.dropped + 1) (2 ^ 31 - 1) } := by rw [Trace.put, if_neg full]
      rw [put]
      obtain ⟨queue, lost, -⟩ := ih (u := { u with dropped := min (u.dropped + 1) (2 ^ 31 - 1) }) guest room
      have stays (qs : List (List Word)) : (u.queue ++ qs).take 64 = u.queue := List.take_left' (by omega)
      exact ⟨by rw [queue, stays, stays], lost, fun h => by omega⟩

theorem traceLost_catchesUp {s : State} {core e : Nat} {tr : Trace} (htr : tr = (s.core core).trace) (holder : tr.holder = some (.enc e))
    (lost : tr.dropped ≠ 0 ∨ tr.hostLost = true) (room : tr.queue.length < 64) :
    Completes (.traceLost core) s fun t => t = { s with cores := t.cores } ∧ (t.core core).trace.hostLost = false ∧
      (t.core core).trace.queue = (tr.queue ++ packet 9 false 0 0 0 0 (tr.dropped + b2n tr.hostLost * 2 ^ 31) ::
        (s.allGroups.filter fun g => g.core = core && s.traces g).map syncPacket).take 64 ∧
      (tr.queue.length + (s.allGroups.filter fun g => g.core = core && s.traces g).length < 64 → (t.core core).trace.dropped = 0) := by
  subst htr
  refine ⟨_, rfl, ?_⟩
  rw [State.catchUp, if_neg (by
    rintro (⟨none_, quiet⟩ | full)
    · rcases lost with h | h
      · exact h none_
      · rw [h] at quiet
        exact absurd quiet (by decide)
    · omega)]
  refine ⟨rfl, ?_⟩
  dsimp only
  rw [State.core_modCore, if_pos rfl]
  dsimp only
  rw [← List.foldl_map, ← List.foldl_cons (f := Trace.put) (b := _)]
  have puts := foldl_put (u := { (s.core core).trace with dropped := 0, hostLost := false }) (by simp [holder]) (Nat.le_of_lt room)
    (packet 9 false 0 0 0 0 ((s.core core).trace.dropped + b2n (s.core core).trace.hostLost * 2 ^ 31) ::
      (s.allGroups.filter fun g => g.core = core && s.traces g).map syncPacket)
  obtain ⟨queue, host, dropped⟩ := puts
  exact ⟨host, queue, fun h => dropped (by rw [List.length_cons, List.length_map]; exact h)⟩

theorem traceLost_waits {s : State} {core : Nat} {tr : Trace} (htr : tr = (s.core core).trace)
    (bar : tr.dropped = 0 ∧ tr.hostLost = false ∨ 64 ≤ tr.queue.length) : Completes (.traceLost core) s fun t => t = s := by
  subst htr
  exact ⟨_, rfl, if_pos (bar.imp_left fun h => ⟨h.1, by simp [h.2]⟩)⟩

/-! ### Refills (19 R359; 25 R406) -/

/-- An entry with its own grant. -/
def Bucket.granted (c : Nat) (share : Nat → Nat) (b : Bucket) : Bucket :=
  let q := (b.frac + c * share b.vi) / 65536
  { b with frac := (b.frac + c * share b.vi) % 65536, level := min (b.level + q) (max (2 * q) 1), cap := max (2 * q) 1 }

theorem refillOwn_entries (c : Nat) (share : Nat → Nat) (bs : List Bucket) : (refillOwn c share bs).1 = bs.map (·.granted c share) := by
  induction bs with
  | nil => rfl
  | cons b bs ih => rw [List.map_cons, ← ih]; rfl

/-- An entry with its part of a pool that the active entries share by a total `w`; it is active no longer. -/
def Bucket.pooled (share : Nat → Nat) (pool w : Nat) (b : Bucket) : Bucket :=
  let b : Bucket := if b.act ∧ 0 < w then { b with level := min (b.level + pool * share b.vi / w) b.cap } else b
  { b with act := false }

theorem refillTable_entries (c : Nat) (share : Nat → Nat) (bs : List Bucket) :
    ∃ pool w, refillTable c share bs = bs.map fun b => (b.granted c share).pooled share pool w := by
  unfold refillTable
  dsimp only
  rw [refillOwn_entries, List.map_map]
  exact ⟨_, _, rfl⟩

/-- The pool lowers no level and passes no cap. -/
theorem pooled_level (share : Nat → Nat) (pool w : Nat) {b : Bucket} (h : b.level ≤ b.cap) :
    b.pooled share pool w = { b with act := false, level := (b.pooled share pool w).level } ∧
      b.level ≤ (b.pooled share pool w).level ∧ (b.pooled share pool w).level ≤ b.cap := by
  unfold Bucket.pooled
  dsimp only
  split
  · exact ⟨rfl, Nat.le_min.2 ⟨Nat.le_add_right _ _, h⟩, Nat.min_le_right _ _⟩
  · exact ⟨rfl, le_rfl, h⟩

/-- An entry after a refill: each interface has at least its share, at most its cap. -/
theorem refillTable_entry (tok : Nat) (share : Nat → Nat) (old : List Bucket) (i : Nat) (b : Bucket) :
    (refillTable tok share old).length = old.length ∧ (old[i]? = some b →
      ∃ z, (refillTable tok share old)[i]? = some z ∧ z.vi = b.vi ∧ z.act = false ∧ z.frac = (b.frac + tok * share b.vi) % 65536 ∧
        z.cap = max (2 * ((b.frac + tok * share b.vi) / 65536)) 1 ∧
        min (b.level + (b.frac + tok * share b.vi) / 65536) z.cap ≤ z.level ∧ z.level ≤ z.cap) := by
  obtain ⟨pool, w, entries⟩ := refillTable_entries tok share old
  rw [entries]
  refine ⟨List.length_map _, fun listed =>
    ⟨(b.granted tok share).pooled share pool w, by rw [List.getElem?_map, listed]; rfl, ?_⟩⟩
  obtain ⟨same, low, high⟩ := pooled_level share pool w (b := b.granted tok share) (Nat.min_le_right _ _)
  rw [same]
  exact ⟨rfl, rfl, rfl, rfl, low, high⟩

theorem tokenRefill_due {s : State} {core i : Nat} {b : Bucket} (due : (s.core core).cyc.toNat / 1024 ≠ (s.core core).refills) :
    Completes (.tokenRefill core) s fun t => t = { s with cores := t.cores } ∧ (t.core core).refills = (s.core core).refills + 1 ∧
      (t.core core).buckets.length = (s.core core).buckets.length ∧ ((s.core core).buckets[i]? = some b →
        ∃ z, (t.core core).buckets[i]? = some z ∧ z.vi = b.vi ∧ z.act = false ∧
          z.frac = (b.frac + (s.die (dieOfCore core)).coreTokens * s.shareOf b.vi) % 65536 ∧
          z.cap = max (2 * ((b.frac + (s.die (dieOfCore core)).coreTokens * s.shareOf b.vi) / 65536)) 1 ∧
          min (b.level + (b.frac + (s.die (dieOfCore core)).coreTokens * s.shareOf b.vi) / 65536) z.cap ≤ z.level ∧ z.level ≤ z.cap) := by
  have run : exec (.tokenRefill core) s = .next (s.modCore core fun c => { c with
    buckets := refillTable (s.die (dieOfCore core)).coreTokens s.shareOf c.buckets, refills := c.refills + 1 }) := if_neg due
  refine ⟨_, run, rfl, ?_⟩
  rw [State.core_modCore, if_pos rfl]
  exact ⟨rfl, refillTable_entry _ _ _ _ _⟩

theorem tokenRefill_done {s : State} {core : Nat} (done : (s.core core).cyc.toNat / 1024 = (s.core core).refills) :
    Completes (.tokenRefill core) s fun t => t = s := by
  have run : exec (.tokenRefill core) s = .next s := if_pos done
  exact ⟨s, run, rfl⟩

theorem fabricTokenRefill_due {s : State} {i : Nat} {b : Bucket} (due : s.fabClock / 1024 ≠ s.fabRefills) :
    Completes .fabricTokenRefill s fun t => t.fabRefills = s.fabRefills + 1 ∧
      t.fabBuckets.length = s.fabBuckets.length ∧ (s.fabBuckets[i]? = some b →
        ∃ z, t.fabBuckets[i]? = some z ∧ z.vi = b.vi ∧ z.act = false ∧ z.frac = (b.frac + s.fabTokens * s.shareOf b.vi) % 65536 ∧
          z.cap = max (2 * ((b.frac + s.fabTokens * s.shareOf b.vi) / 65536)) 1 ∧
          min (b.level + (b.frac + s.fabTokens * s.shareOf b.vi) / 65536) z.cap ≤ z.level ∧ z.level ≤ z.cap) := by
  have run : exec .fabricTokenRefill s = .next { s with
    fabBuckets := refillTable s.fabTokens s.shareOf s.fabBuckets, fabRefills := s.fabRefills + 1 } := if_neg due
  exact ⟨_, run, rfl, refillTable_entry _ _ _ _ _⟩

theorem fabricTokenRefill_done {s : State} (done : s.fabClock / 1024 = s.fabRefills) :
    Completes .fabricTokenRefill s fun t => t = s := by
  have run : exec .fabricTokenRefill s = .next s := if_pos done
  exact ⟨s, run, rfl⟩

/-! ### The pager queue's GET (10 R222) -/

theorem memWrite_mem_of_flat {s : State} (flat : ∀ a, s.home a = a ∧ s.canon a = a) (ws : List (Nat × Byte)) :
    (s.memWrite ws).mem = memPutAll s.mem ws := by
  have here : (fun w : Nat × Byte => (s.home (s.canon w.1), w.2)) = id := by
    funext w
    rw [(flat _).2, (flat _).1]
    rfl
  show memPutAll s.mem (ws.map _) = _
  rw [here, List.map_id]

/-- What memory itself serves is written there. -/
theorem serveStore_mem_of_memory {s : State} (flat : ∀ a, s.home a = a ∧ s.canon a = a) {part cls die pa : Nat} {b : Byte}
    {ws : List (Nat × Byte)} (memory : s.serving part cls die pa = .memory) (stb : Bool) :
    (s.serveStore part cls die ((pa, b) :: ws) stb).mem = memPutAll s.mem ((pa, b) :: ws) := by
  have here : (fun w : Nat × Byte => (s.canon w.1, w.2)) = id := by
    funext w
    rw [(flat _).2]
    rfl
  unfold State.serveStore
  rw [here, List.map_id]
  dsimp only
  rw [memory]
  exact (countMem_mem _ _ _).trans (memWrite_mem_of_flat flat _)

theorem markOutside_rest (s : State) (line : Nat) (own : Nat → Bool) :
    s.markOutside line own = { s with encs := (s.markOutside line own).encs } :=
  List.foldlRecOn (motive := fun t : State => t = { s with encs := t.encs }) _ _ rfl fun t h _ _ => by rw [h]; rfl

theorem hubStore_mem_of_memory {s : State} (flat : ∀ a, s.home a = a ∧ s.canon a = a) {part pa : Nat} {b : Byte} {bs : List Byte}
    (memory : s.serving part (s.potOf (pa / 4096)).cls 0 pa = .memory) :
    (s.hubStore part pa (b :: bs)).mem = memPutAll s.mem ((addrs pa (b :: bs).length).zip (b :: bs)) := by
  have first : (addrs pa (b :: bs).length).zip (b :: bs) = (pa, b) :: (((List.range bs.length).map (· + 1)).map (pa + ·)).zip bs := by
    rw [addrs, List.length_cons, List.range_succ_eq_map]
    rfl
  rw [State.hubStore, markOutside_rest]
  generalize (s.markOutside (pa / 64) fun _ => false).encs = es
  show (State.serveStore { s with encs := es } part (s.potOf (pa / 4096)).cls 0 ((addrs pa (b :: bs).length).zip (b :: bs)) false).mem = _
  rw [first]
  exact serveStore_mem_of_memory (s := { s with encs := es }) flat memory false

theorem pagerGetAdvance_dead {s : State} {e : Nat} (dead : (s.encl e).live = false) : Completes (.pagerGetAdvance e) s fun t => t = s :=
  ⟨_, if_pos (by simp [dead]), rfl⟩

theorem pagerGetAdvance_mem {s : State} {e : Nat} (live : (s.encl e).live = true) (idle : (s.encl e).resHeld = [])
    (flat : ∀ a, s.home a = a ∧ s.canon a = a)
    (memory : s.serving (s.encl e).part (s.potOf (((s.encl e).ecs + 0x1008) / 4096)).cls 0 ((s.encl e).ecs + 0x1008) = .memory) :
    Completes (.pagerGetAdvance e) s fun t => t.mem = memPutAll s.mem ((addrs ((s.encl e).ecs + 0x1008) 8).zip
      (leBytes 8 (leNat (s.coherent (s.encl e).part ((s.encl e).ecs + 0x1008) 8) + 1))) := by
  refine ⟨_, if_neg (by simp [live]), ?_⟩
  rw [idle]
  exact hubStore_mem_of_memory flat memory

end Sys2Proof.Machine

namespace Sys2Proof.Proofs

open Sys2Proof Sys2Proof.Machine

/-- Settles O52: each register's write by its own lemma, a store of the window by the write that it names. -/
theorem managementEvents : Obligations.ManagementEvents := by
  unfold Obligations.ManagementEvents
  intro s k h part vi n die core e ds d0 d1 v burst name b i off src w
  dsimp only
  refine ⟨fun held => managementWrites_not_running held k h part vi die n core off ds d0 d1 burst name src w, fun run => ?_,
    fun holder => ⟨?_, ?_⟩, ?_, ?_, ?_, ?_, ?_, ?_⟩
  rotate_left
  · exact traceLost_catchesUp rfl holder
  · exact traceLost_waits rfl
  · exact tokenRefill_due
  · exact tokenRefill_done
  · exact fabricTokenRefill_due
  · exact fabricTokenRefill_done
  · exact pagerGetAdvance_dead
  · exact pagerGetAdvance_mem
  have store {o : Nat} {j : Instr} {f : State → State} (reach : s.reachesMgmt src = true) (own : exec j s = whenRunning f s)
      (stores : s.mgmtStore o v = f s) := managementWrite_store run reach own stores
  refine ⟨mmtWrite_admitted run, mmtWrite_ignored run, partitionRecordWrite_admitted run rfl, partitionRecordWrite_live run,
    partitionRecordWrite_ignored run, ⟨virtualInterfaceWrite_admitted run rfl, virtualInterfaceWrite_ignored run rfl⟩,
    ⟨frameAccountWrite_admitted run rfl, frameAccountWrite_ignored run rfl⟩, coreTokensWrite_admitted run, coreTokensWrite_ignored run,
    fabTokensWrite_admitted run, fabTokensWrite_ignored run, pkgidWrite_first run, pkgidWrite_later run, plimitWrite_admitted run,
    plimitWrite_ignored run, managementWrite_not_reached run, reachesMgmt_iff s n h, ?_, ?_, ?_, ?_, ?_, ?_⟩
  · intro reach
    refine ⟨managementWrite_load run reach off, ?_, ?_, ?_, ?_, ?_, ?_, ?_, ?_, ?_⟩
    · exact fun hk => store reach (exec_mmtWrite ..) (mgmtStore_mmt s hk v)
    · exact fun hp hn => store reach (exec_partitionRecordWrite ..) (mgmtStore_record s hp hn v)
    · exact fun hvi => store reach (exec_virtualInterfaceWrite ..) (mgmtStore_interface s hvi v)
    · exact fun hvi => store reach (exec_frameAccountWrite ..) (mgmtStore_account s hvi burst v)
    · exact fun hd => store reach (exec_coreTokensWrite ..) (mgmtStore_coreTokens s hd v)
    · exact fun hc => store reach (exec_lamplightAcquisition ..) (mgmtStore_acquisition s hc burst v)
    · exact store reach (exec_fabTokensWrite ..) (mgmtStore_fabTokens s v)
    · exact store reach (exec_plimitWrite ..) (mgmtStore_plimit s v)
    · exact store reach (exec_pkgidWrite ..) (mgmtStore_pkgid s v)
  · exact mgmtRead_registers s off
  · exact acquisition_bank run
  · exact acquisition_trace run
  · exact fun holder => ⟨return_bank_free run holder, return_bank run holder⟩
  · exact return_trace run

end Sys2Proof.Proofs
end

section
/-! PROOFS. Copy commands as they complete, wait or fail (14 R289; 15 R306): O50's first part. -/

namespace Sys2Proof.Machine

/-! ### What the end of an engine operation leaves (14 R291; 24 R402) -/

/-- From `s` to `t` the cores' rows and bucket tables alone change. -/
structure SeatsOnly (s t : State) : Prop where
  rest : t = { s with cores := t.cores }
  cores : ∀ c, t.core c = { s.core c with rows := (t.core c).rows, buckets := (t.core c).buckets }

theorem SeatsOnly.refl (s : State) : SeatsOnly s s := ⟨rfl, fun _ => rfl⟩
theorem SeatsOnly.trans {s t u : State} (a : SeatsOnly s t) (b : SeatsOnly t u) : SeatsOnly s u :=
  ⟨by rw [b.rest, a.rest], fun c => by rw [b.cores c, a.cores c]⟩

theorem seatsOnly_modCore (s : State) (c : Nat) {f : Core → Core}
    (hf : ∀ k, f k = { k with rows := (f k).rows, buckets := (f k).buckets }) : SeatsOnly s (s.modCore c f) := by
  refine ⟨rfl, fun k => ?_⟩
  rw [State.core_modCore]
  split
  next here => rw [here]; exact hf _
  next => rfl

theorem seatsOnly_settleRows (s : State) (team : Nat) : SeatsOnly s (s.settleRows team) := by
  unfold State.settleRows
  dsimp only
  split
  · exact .refl s
  split
  · exact List.foldlRecOn (motive := SeatsOnly s) _ _ (.refl s) fun _ a _ _ => a.trans (seatsOnly_modCore _ _ fun _ => rfl)
  · exact .refl s

theorem seatsOnly_opOver (s : State) (gid core : Nat) : SeatsOnly s (s.opOver gid core) := by
  unfold State.opOver
  split
  · split
    · exact (seatsOnly_settleRows s _).trans (seatsOnly_modCore _ _ fun _ => rfl)
    · exact .refl s
  · exact .refl s

/-! ### What a command changes as it runs -/

section Serving
variable {s t : State} (a : Serves s t)
include a

theorem Serves.svtRecord {die line : Nat} {p : Party} : Serves s (t.svtRecord die line p) := by
  unfold State.svtRecord
  split
  · exact a.same
  · exact a

theorem Serves.usePage {g : Group} {va : Int} {heap : Bool} {k : Acc} : Serves s (t.usePage g va heap k) := by
  unfold State.usePage
  split
  · exact a
  · have kept := coresDies_refill t g va.toNat k
    unfold CoresDies at kept
    exact a.same (by rw [kept])

theorem Serves.engineStore {g : Group} {f : Bool} {pas : List Nat} {heap : Bool} {bs : List Byte} :
    Serves s (t.engineStore g f pas heap bs) := by
  unfold State.engineStore
  cases heap
  · exact a.same
  · exact a.same

end Serving

theorem serves_read {s : State} {r : CopyRun} (a : Serves s r.s) (g : Group) (c : Copy) (x : CopyArr) (far : Bool) (at_ : Int) (n : Nat) :
    Serves s (r.read g c x far at_ n).1.s := by
  have request (r : CopyRun) : (r.request x at_).s = r.s := by
    unfold CopyRun.request
    split <;> rfl
  unfold CopyRun.read
  cases far
  · exact a
  rw [if_pos rfl]
  split
  · exact a
  · exact a
  · dsimp only
    split
    · rw [request]
      exact a.usePage
    · simp only [request]
      exact ((a.usePage.quiet (quiet_lookupEvent _ _ _ _)).serveLoad).svtRecord

theorem serves_write {s : State} {r : CopyRun} (a : Serves s r.s) (g : Group) (c : Copy) (far : Bool) (at_ : Int) (bs : List Byte) :
    Serves s (r.write g c far at_ bs).s := by
  have request (r : CopyRun) : (r.request .dst at_).s = r.s := by
    unfold CopyRun.request
    split <;> rfl
  unfold CopyRun.write
  split
  · exact a
  cases far
  · rw [if_neg (by decide)]
    exact (a.quiet (quiet_event _ _ _ _ _)).same
  rw [if_pos rfl]
  split
  · exact a
  · exact a
  · simp only [request]
    exact (a.usePage.quiet (quiet_event _ _ _ _ _)).engineStore

theorem serves_elem {s : State} {r : CopyRun} (a : Serves s r.s) (g : Group) (c : Copy) (x : Rec) (i : List Nat) :
    Serves s (r.elem g c x i).1.s := by
  unfold CopyRun.elem
  split
  · exact a
  · exact serves_read a ..

theorem serves_source {s : State} {r : CopyRun} (a : Serves s r.s) (g : Group) (c : Copy) (src : Rec) (idx : Option Rec) (i : List Nat) :
    Serves s (r.source g c src idx i).1.s := by
  unfold CopyRun.source
  split
  · exact a
  · dsimp only
    split
    · exact serves_elem a ..
    · exact serves_elem a ..

theorem serves_scaleOf {s : State} {r : CopyRun} (a : Serves s r.s) (g : Group) (c : Copy) (dst : Bool) (x : Rec) (row : Nat) :
    Serves s (r.scaleOf g c dst x row).1.s := by
  unfold CopyRun.scaleOf
  split
  · exact a
  split
  · exact a
  split
  · exact a
  · exact serves_read a ..

theorem serves_point {s : State} {r : CopyRun} (a : Serves s r.s) (g : Group) (c : Copy) (dst : Rec) (p : Nat) :
    Serves s (r.point g c dst p).s := by
  unfold CopyRun.point
  split
  · exact a
  dsimp only
  split
  · exact serves_write a ..
  · have flags (z : CopyRun) (fl : Flags) : (if z.over then z else { z with fl := z.fl ||| fl }).s = z.s := by split <;> rfl
    rw [flags]
    exact serves_write (serves_scaleOf (serves_scaleOf (serves_elem (serves_source a ..) ..) ..) ..) ..

theorem serves_points {s : State} (g : Group) (c : Copy) (dst : Rec) (n p : Nat) {r : CopyRun} (a : Serves s r.s) :
    Serves s (CopyRun.points g c dst n p r).1.s := by
  induction n generalizing p r with
  | zero => exact a
  | succ n ih =>
    unfold CopyRun.points
    dsimp only
    split
    · exact serves_point a ..
    · exact ih _ (serves_point a ..)

theorem serves_runCopy (s : State) (g : Group) (c : Copy) : Serves s (s.runCopy g c).1.s := by
  unfold State.runCopy
  dsimp only
  have points := serves_points g c (recOf 0 c.dst) (recOf 0 c.dst).points 0 (r := { s := s }) (.refl s)
  split
  · exact points
  · exact List.foldlRecOn (motive := fun r : CopyRun => Serves s r.s) _ _ points fun _ a _ _ => serves_write a ..

/-! ### A command leaves the engine -/

/-- The core that a command has left, but for what the end of an operation does to rows and bucket tables. -/
def Core.copyLeft (x : Core) (k : Nat) (c : Copy) (set : Bool) : Core :=
  { x with
    copies := x.copies.eraseIdx k, locks := x.locks.filter fun r => r.op ≠ c.id
    tagBusy := x.tagBusy &&& ~~~(BitVec.ofNat 64 (2 ^ c.tag))
    tagSet := if set then x.tagSet ||| BitVec.ofNat 64 (2 ^ c.tag) else x.tagSet }

/-- The group whose command has left. -/
def Group.copyLeft (g : Group) (c : Copy) (fl : Flags) : Group := (g.modPath c.pathF fun p => { p with cp := p.cp - 1 }).orFpf fl

/-- A command that has left, before the end of the operation is noted. -/
def State.copyOut (s : State) (core k : Nat) (c : Copy) (set : Bool) (fl : Flags) : State :=
  ((match s.group c.gid with
    | some g => s.forgetWalks g c.id
    | none => s).modCore core (·.copyLeft k c set)).modGroup c.gid (·.copyLeft c fl)

theorem finishCopy_eq (s : State) (core k : Nat) (c : Copy) (set : Bool) (fl : Flags) :
    s.finishCopy core k c set fl = (s.copyOut core k c set fl).opOver c.gid core := rfl

theorem copyOut_core (s : State) (core k : Nat) (c : Copy) (set : Bool) (fl : Flags) :
    (s.copyOut core k c set fl).core core = (s.core core).copyLeft k c set := by
  unfold State.copyOut
  rw [State.modGroup_rest]
  refine (State.core_modCore _ core (·.copyLeft k c set) core).trans ((if_pos rfl).trans (congrArg (Core.copyLeft · k c set) ?_))
  split <;> rfl

theorem copyOut_rest (s : State) (core k : Nat) (c : Copy) (set : Bool) (fl : Flags) :
    (s.copyOut core k c set fl).mem = s.mem ∧ (s.copyOut core k c set fl).bufs = s.bufs ∧
      (s.copyOut core k c set fl).tasks = s.tasks := by
  unfold State.copyOut
  rw [State.modGroup_rest]
  split
  · exact ⟨rfl, rfl, rfl⟩
  · exact ⟨rfl, rfl, rfl⟩

theorem copyOut_group {s : State} {c : Copy} {g : Group} (hg : s.group c.gid = some g) (named : g.gid = c.gid) (core k : Nat) (set : Bool)
    (fl : Flags) : (s.copyOut core k c set fl).group c.gid = some (g.copyLeft c fl) := by
  have stands : ((s.forgetWalks g c.id).modCore core (·.copyLeft k c set)).group c.gid = some g := hg
  have gid : (g.copyLeft c fl).gid = c.gid := by
    rw [← named]
    unfold Group.copyLeft Group.modPath Group.setPath
    split <;> rfl
  unfold State.copyOut
  rw [hg]
  exact (State.group_modGroup stands gid c.gid).trans (if_pos rfl)

/-- What a command's end leaves of its core, of memory and of its group. -/
structure CopyGone (s : State) (core k : Nat) (c : Copy) (set : Bool) (fl : Flags) (t : State) : Prop where
  copies : (t.core core).copies = (s.core core).copies.eraseIdx k
  tagBusy : (t.core core).tagBusy = (s.core core).tagBusy &&& ~~~(BitVec.ofNat 64 (2 ^ c.tag))
  tagSet : (t.core core).tagSet = if set then (s.core core).tagSet ||| BitVec.ofNat 64 (2 ^ c.tag) else (s.core core).tagSet
  locks : ∀ y ∈ (t.core core).locks, y.op ≠ c.id
  pool : (t.core core).pool = (s.core core).pool
  mem : t.mem = s.mem
  bufs : t.bufs = s.bufs
  group : ∀ g, s.group c.gid = some g → g.gid = c.gid → t.group c.gid = some (g.copyLeft c fl)

theorem finishCopy_gone (s : State) (core k : Nat) (c : Copy) (set : Bool) (fl : Flags) :
    CopyGone s core k c set fl (s.finishCopy core k c set fl) := by
  rw [finishCopy_eq]
  have over_ := seatsOnly_opOver (s.copyOut core k c set fl) c.gid core
  have left := over_.cores core
  rw [copyOut_core] at left
  obtain ⟨mem, bufs, -⟩ := copyOut_rest s core k c set fl
  have coresOnly : CoresOnly (s.copyOut core k c set fl) _ := over_.rest
  refine ⟨by rw [left]; rfl, by rw [left]; rfl, by rw [left]; rfl, ?_, by rw [left]; rfl, coresOnly.mem.trans mem, ?_, fun g hg named => ?_⟩
  · rw [left]
    intro y hy
    simpa using (List.mem_filter.1 hy).2
  · rw [over_.rest]
    exact bufs
  · rw [coresOnly.group]
    exact copyOut_group hg named core k set fl

theorem finishCopy_task (s : State) (core k : Nat) (c : Copy) (set : Bool) (fl : Flags) (j : Nat) :
    (s.finishCopy core k c set fl).task j = s.task j := by
  obtain ⟨-, -, tasks⟩ := copyOut_rest s core k c set fl
  rw [finishCopy_eq, (seatsOnly_opOver _ c.gid core).rest]
  exact congrArg (smFind · j) tasks

/-- The group whose command has left has its CP lower, and the flags of the conversions. -/
theorem copyLeft_group {w g : Group} (marked : Marked w g) (c : Copy) (fl : Flags) :
    ((g.copyLeft c fl).path c.pathF).cp = (w.path c.pathF).cp - 1 ∧ (g.copyLeft c fl).fpf = w.fpf ||| fl ∧
      (∀ a, (g.copyLeft c fl).sr a = w.sr a) ∧ ∀ a, (g.copyLeft c fl).vr a = w.vr a := by
  have regs : SameRegs w (g.copyLeft c fl) := marked.sameRegs.trans
    ((sameRegs_modPath g c.pathF (fun p => { p with cp := p.cp - 1 }) fun _ => rfl).trans
      ⟨rfl, rfl, rfl, rfl, rfl, rfl, fun b => by cases b <;> rfl⟩)
  refine ⟨?_, ?_, regs.sr, regs.vr⟩
  · have path : ((g.copyLeft c fl).path c.pathF).cp = (g.path c.pathF).cp - 1 := by
      unfold Group.copyLeft Group.modPath
      cases c.pathF <;> rfl
    rw [path, marked.path]
  · have fpf : (g.copyLeft c fl).fpf = g.fpf ||| fl := by
      unfold Group.copyLeft Group.modPath
      cases c.pathF <;> rfl
    rw [fpf, show g = _ from marked]

/-! ### The events of a command -/

section Events
variable {s : State} {core k : Nat}

theorem copyComplete_idle (idle : s.copyReady core k = none) : Completes (.copyComplete core k) s fun t => t = s := by
  have run : exec (.copyComplete core k) s = .next s := by
    show execCopyComplete core k s = _
    rw [execCopyComplete, idle]
  exact ⟨s, run, rfl⟩

variable {w : Group} {cp : Copy} (ready : s.copyReady core k = some (w, cp))
include ready

theorem copyReady_group : s.group cp.gid = some w := by
  unfold State.copyReady at ready
  obtain ⟨c, -, found⟩ := Option.bind_eq_some_iff.1 ready
  split at found
  · exact nomatch found
  · obtain ⟨g, hg, same⟩ := Option.map_eq_some_iff.1 found
    cases same
    exact hg

theorem copyComplete_failing {e : Code × Word} (err : (s.runCopy w cp).1.err = some e) :
    Completes (.copyComplete core k) s fun t => t = s := by
  have run : exec (.copyComplete core k) s = .next s := by
    show execCopyComplete core k s = _
    rw [execCopyComplete, ready]
    exact if_pos (by rw [err]; rfl)
  exact ⟨s, run, rfl⟩

theorem copyComplete_walks (fine : (s.runCopy w cp).1.err = none) {va : Nat} {a : Acc} (miss : (s.runCopy w cp).1.miss = some (va, a)) :
    Completes (.copyComplete core k) s fun t => t = s.walkFor w cp.id va a := by
  have run : exec (.copyComplete core k) s = .next (s.walkFor w cp.id va a) := by
    show execCopyComplete core k s = _
    rw [execCopyComplete, ready]
    dsimp only
    rw [if_neg (by simp [fine]), miss]
  exact ⟨_, run, rfl⟩

theorem copyComplete_held (fine : (s.runCopy w cp).1.err = none) (here : (s.runCopy w cp).1.miss = none) {y : Nat}
    (held : (s.runCopy w cp).1.held = some y) : Completes (.copyComplete core k) s fun t =>
      t = { s with dies := t.dies } ∧ t = s.svtAsk (s.partOf w) (dieOfCore w.core) y (.core w.core) := by
  have run : exec (.copyComplete core k) s = .next (s.svtAsk (s.partOf w) (dieOfCore w.core) y (.core w.core)) := by
    show execCopyComplete core k s = _
    rw [execCopyComplete, ready]
    dsimp only
    rw [if_neg (by simp [fine]), here]
    dsimp only
    rw [held]
  exact ⟨_, run, rfl, rfl⟩

theorem copyElementFault_fine (fine : (s.runCopy w cp).1.err = none) : Completes (.copyElementFault core k) s fun t => t = s := by
  have run : exec (.copyElementFault core k) s = .next s := by
    show execCopyElementFault core k s = _
    rw [execCopyElementFault, ready]
    dsimp only
    rw [fine]
  exact ⟨s, run, rfl⟩

theorem copyElementFault_held {e : Code × Word} (err : (s.runCopy w cp).1.err = some e) {y : Nat}
    (held : (s.runCopy w cp).1.held = some y) : Completes (.copyElementFault core k) s fun t => t = { s with dies := t.dies } := by
  have run : exec (.copyElementFault core k) s = .next (s.svtAsk (s.partOf w) (dieOfCore w.core) y (.core w.core)) := by
    show execCopyElementFault core k s = _
    rw [execCopyElementFault, ready]
    dsimp only
    rw [err]
    dsimp only
    rw [held]
  exact ⟨_, run, rfl⟩

end Events

/-! ### A command that completes, or whose element fails -/

theorem setFe_rest (s : State) (core : Nat) (offs : List Nat) (b : Bool) : s.setFe core offs b = { s with cores := (s.setFe core offs b).cores } :=
  rfl
theorem setFe_core (s : State) (core : Nat) (offs : List Nat) (b : Bool) (c : Nat) :
    (s.setFe core offs b).core c = { s.core c with fe := ((s.setFe core offs b).core c).fe } := by
  unfold State.setFe
  rw [State.core_modCore]
  split
  next here => rw [here]
  next => rfl

/-- The F/E bits that a flagged command sets stand in one core, and a report on its task; nothing else of a state changes. -/
structure BitsSet (s t : State) : Prop where
  rest : t = { s with cores := t.cores, tasks := t.tasks }
  cores : ∀ c, t.core c = { s.core c with fe := (t.core c).fe }

theorem bitsSet_fill (r : CopyRun) (g : Group) (dst : Rec) (left : List (List Nat)) (flag : Bool) :
    BitsSet r.s (if flag then r.fill g dst left else r.s) := by
  split
  · exact ⟨setFe_rest _ _ _ _, setFe_core _ _ _ _⟩
  · exact ⟨rfl, fun _ => rfl⟩

theorem coresOnly_fill (r : CopyRun) (g : Group) (dst : Rec) (left : List (List Nat)) (flag : Bool) :
    CoresOnly r.s (if flag then r.fill g dst left else r.s) := by
  split
  · exact setFe_rest _ _ _ _
  · exact .refl _

theorem reportOf_rest (s : State) (g : Group) (r : Report) : s.reportOf g r = { s with tasks := (s.reportOf g r).tasks } := by
  unfold State.reportOf
  split
  · split
    · rfl
    · exact State.modTask_rest _ _ _
  · rfl

theorem BitsSet.reportOf {s t : State} (a : BitsSet s t) (g : Group) (r : Report) : BitsSet s (t.reportOf g r) where
  rest := by rw [reportOf_rest, a.rest]
  cores c := by
    rw [reportOf_rest]
    exact a.cores c

/-- What a command that has run leaves once it has gone. -/
theorem CopyGone.of_bits {s t u : State} {core k : Nat} {c : Copy} {set : Bool} {fl : Flags} (gone : CopyGone t core k c set fl u)
    (bits : BitsSet s t) : CopyGone s core k c set fl u where
  copies := by rw [gone.copies, bits.cores core]
  tagBusy := by rw [gone.tagBusy, bits.cores core]
  tagSet := by rw [gone.tagSet, bits.cores core]
  locks := gone.locks
  pool := by rw [gone.pool, bits.cores core]
  mem := by rw [gone.mem, bits.rest]
  bufs := by rw [gone.bufs, bits.rest]
  group g hg named := gone.group g (by rw [bits.rest]; exact hg) named

/-! ### A task's report -/

theorem descendants_of_tables {s t : State} (a : TablesStand s t) (n k : Nat) : t.descendants n k = s.descendants n k := by
  have teams : t.team = s.team := funext a.team
  induction n generalizing k with
  | zero => rfl
  | succ n ih =>
    unfold State.descendants
    rw [a.tasks, teams, funext ih]

theorem all_of_forall₂ {α : Type} {R : α → α → Prop} {p q : α → Bool} {xs ys : List α} (h : List.Forall₂ R xs ys)
    (pq : ∀ x y, R x y → p x = q y) : xs.all p = ys.all q := by
  induction h with
  | nil => rfl
  | cons r _ ih => rw [List.all_cons, List.all_cons, pq _ _ r, ih]

theorem Serves.allGroups {s t : State} (a : Serves s t) : List.Forall₂ Marked s.allGroups t.allGroups := by
  have others : List.Forall₂ Marked (s.groups.map (·.2)) (t.groups.map (·.2)) := by
    rw [List.forall₂_map_left_iff, List.forall₂_map_right_iff]
    exact a.groups.imp fun _ _ h => h.2
  unfold State.allGroups
  rw [a.focus.gid]
  split
  · exact others
  · exact .cons a.focus others

/-- Serving accesses stops no task. -/
theorem Serves.taskStopped {s t : State} (a : Serves s t) (k : Nat) : t.taskStopped k = s.taskStopped k := by
  have teams : t.team = s.team := funext a.tables.team
  have stopped (ts : List Nat) : t.stoppedAll ts = s.stoppedAll ts := by
    unfold State.stoppedAll State.groupsOf
    rw [List.all_filter, List.all_filter, teams]
    refine (all_of_forall₂ a.allGroups fun g h marked => ?_).symm
    rw [show h = _ from marked]
  unfold State.taskStopped
  rw [a.tables.task, stopped, descendants_of_tables a.tables]

/-- A report that comes while some group of its task still runs reaches the task. -/
theorem reportOf_task {s : State} {g : Group} {tm : Team} {tk : Task} (team : s.team g.team = some tm) (task : s.task tm.task = some tk)
    (runs : s.taskStopped tm.task = false) (r : Report) : (s.reportOf g r).task tm.task = some (tk.addReport r) := by
  unfold State.reportOf
  rw [team]
  dsimp only
  rw [if_neg (by simp [runs]), State.modTask, task]
  exact (smFind_smPut _ _ _ _).trans (if_pos rfl)

section Finished
variable {s : State} {core k : Nat} {w : Group} {cp : Copy} (ready : s.copyReady core k = some (w, cp)) (named : w.gid = cp.gid)
  (free : (s.runCopy w cp).1.held = none) (clean : (s.runCopy w cp).1.bad = false)
include ready named free clean

theorem copyComplete_done (fine : (s.runCopy w cp).1.err = none) (here : (s.runCopy w cp).1.miss = none) :
    Completes (.copyComplete core k) s fun t => CopyGone (s.runCopy w cp).1.s core k cp true (s.runCopy w cp).1.fl t ∧
      ∃ g, t.group cp.gid = some (g.copyLeft cp (s.runCopy w cp).1.fl) ∧ Marked w g := by
  have bits := bitsSet_fill (s.runCopy w cp).1 w (recOf 0 cp.dst) [] cp.flag
  generalize hb : (if cp.flag then (s.runCopy w cp).1.fill w (recOf 0 cp.dst) [] else (s.runCopy w cp).1.s) = b at bits
  have run : exec (.copyComplete core k) s = .next (b.finishCopy core k cp true (s.runCopy w cp).1.fl) := by
    show execCopyComplete core k s = _
    rw [execCopyComplete, ready]
    dsimp only
    rw [if_neg (by simp [fine]), here]
    dsimp only
    rw [free, hb]
    dsimp only
    rw [clean]
    rfl
  have gone := (finishCopy_gone b core k cp true (s.runCopy w cp).1.fl).of_bits bits
  obtain ⟨g, hg, marked⟩ := (serves_runCopy s w cp).group (copyReady_group ready)
  exact ⟨_, run, gone, g, gone.group g hg (marked.gid.trans named), marked⟩

theorem copyElementFault_fails {code : Code} {fra : Word} {tm : Team} {tk : Task} (err : (s.runCopy w cp).1.err = some (code, fra))
    (team : s.team w.team = some tm) (task : s.task tm.task = some tk) (runs : s.taskStopped tm.task = false) :
    Completes (.copyElementFault core k) s fun t => CopyGone (s.runCopy w cp).1.s core k cp false Flags.none t ∧
      (∃ q : Report, t.task tm.task = some (tk.addReport q) ∧ q.code = code ∧ q.fra = fra ∧ q.prec = false ∧ q.pc = cp.pc) ∧
      ∃ g, t.group cp.gid = some (g.copyLeft cp Flags.none) ∧ Marked w g := by
  have serves := serves_runCopy s w cp
  have filled := coresOnly_fill (s.runCopy w cp).1 w (recOf 0 cp.dst)
    (((List.range ((recOf 0 cp.dst).points - (s.runCopy w cp).2)).map fun p => (recOf 0 cp.dst).tuple ((s.runCopy w cp).2 + p)) ++
      (recOf 0 cp.dst).padding) cp.flag
  have bits := bitsSet_fill (s.runCopy w cp).1 w (recOf 0 cp.dst)
    (((List.range ((recOf 0 cp.dst).points - (s.runCopy w cp).2)).map fun p => (recOf 0 cp.dst).tuple ((s.runCopy w cp).2 + p)) ++
      (recOf 0 cp.dst).padding) cp.flag
  generalize hb : (if cp.flag then (s.runCopy w cp).1.fill w (recOf 0 cp.dst) _ else (s.runCopy w cp).1.s) = b at bits filled
  have run : exec (.copyElementFault core k) s =
      .next ((b.reportOf w (b.groupReport w cp.pathF code fra cp.pc cp.cwi)).finishCopy core k cp false Flags.none) := by
    show execCopyElementFault core k s = _
    rw [execCopyElementFault, ready]
    dsimp only
    rw [err]
    dsimp only
    rw [free, hb]
    dsimp only
    rw [clean]
    rfl
  have gone := (finishCopy_gone (b.reportOf w (b.groupReport w cp.pathF code fra cp.pc cp.cwi)) core k cp false Flags.none).of_bits
    (bits.reportOf w _)
  obtain ⟨g, hg, marked⟩ := serves.group (copyReady_group ready)
  have stopped : b.taskStopped tm.task = false := by
    rw [show b = _ from filled]
    exact (serves.taskStopped _).trans runs
  have reported := reportOf_task ((filled.tables.team _).trans ((serves.tables.team _).trans team))
    ((filled.tables.task _).trans ((serves.tables.task _).trans task)) stopped (b.groupReport w cp.pathF code fra cp.pc cp.cwi)
  exact ⟨_, run, gone, ⟨b.groupReport w cp.pathF code fra cp.pc cp.cwi, (finishCopy_task ..).trans reported, rfl, rfl, rfl, rfl⟩, g,
    gone.group g hg (marked.gid.trans named), marked⟩

end Finished

/-! ### A point of a command whose destination is in its own core -/

section Point
variable {u : CopyRun} (fine : u.err = none) (here : u.miss = none)
include fine here

theorem not_over : u.over = false := by rw [CopyRun.over, fine, here]; rfl

theorem write_own (g : Group) (c : Copy) (at_ : Int) (bs : List Byte) : (u.write g c false at_ bs).s =
    (u.s.event g 0x0208 0x1F bs.length).ownWrite g (wrapInt 20 at_) bs := by
  rw [CopyRun.write, not_over fine here]
  rfl

variable {w : Group} {cp : Copy} {dst : Rec} (own : dst.far = false)
include own

theorem point_fill {y : Word} (fill : cp.fill = some y) (p : Nat) : (u.point w cp dst p).s =
    (u.s.event w 0x0208 0x1F dst.e).ownWrite w (wrapInt 20 (dst.at (dst.tuple p))) (leBytes dst.e y.toNat) := by
  unfold CopyRun.point
  rw [not_over fine here, if_neg (by decide)]
  dsimp only
  rw [fill]
  dsimp only
  rw [own, write_own fine here, length_leBytes]

theorem point_copy (plain : cp.fill = none) (direct : cp.idx = []) (ownSrc : (recOf 0 cp.src).far = false)
    (etype : (recOf 0 cp.src).etype = dst.etype) (srcScale : (recOf 0 cp.src).scale = 0) (dstScale : dst.scale = 0) (p : Nat) :
    (u.point w cp dst p).s = (u.s.event w 0x0208 0x1F dst.e).ownWrite w (wrapInt 20 (dst.at (dst.tuple p)))
      (leBytes dst.e (u.read w cp .src false ((recOf 0 cp.src).at (dst.tuple p)) (recOf 0 cp.src).e).2) := by
  have running := not_over fine here
  have elem : u.elem w cp (recOf 0 cp.src) (dst.tuple p) =
      (u, (u.read w cp .src false ((recOf 0 cp.src).at (dst.tuple p)) (recOf 0 cp.src).e).2) := by
    rw [CopyRun.elem, running, ownSrc]
    rfl
  have scale (x : Rec) (hx : x.scale = 0) (d : Bool) (row : Nat) : u.scaleOf w cp d x row = (u, none) := if_pos hx
  have source : u.source w cp (recOf 0 cp.src) (if cp.idx.isEmpty then none else some (recOf 0 cp.idx)) (dst.tuple p) =
      (u, dst.tuple p) := by
    rw [direct]
    rfl
  have flags (z : CopyRun) (fl : Flags) : (if z.over then z else { z with fl := z.fl ||| fl }).s = z.s := by split <;> rfl
  unfold CopyRun.point
  rw [running, if_neg (by decide)]
  dsimp only
  rw [plain]
  dsimp only
  rw [source]
  dsimp only
  rw [elem, flags, scale _ srcScale]
  dsimp only
  rw [scale _ dstScale, own, write_own fine here, length_leBytes, convElem, if_pos ⟨rfl, rfl, etype⟩]

end Point

end Sys2Proof.Machine
end

section
/-! PROOFS. Tile operations as they start and retire (14 R296 to R300; 15 R312 to R316): O50's second part. -/

namespace Sys2Proof.Machine

/-! ### An operation leaves its queues -/

/-- From `s` to `t` the groups change, and of a core its tile queue, its locks, its rows and its bucket table. -/
structure QueueLeft (s t : State) : Prop where
  rest : t = { s with g := t.g, groups := t.groups, cores := t.cores }
  cores : ∀ c, t.core c = { s.core c with
    tileq := (t.core c).tileq, locks := (t.core c).locks, rows := (t.core c).rows, buckets := (t.core c).buckets }

theorem QueueLeft.refl (s : State) : QueueLeft s s := ⟨rfl, fun _ => rfl⟩
theorem QueueLeft.trans {s t u : State} (a : QueueLeft s t) (b : QueueLeft t u) : QueueLeft s u :=
  ⟨by rw [b.rest, a.rest], fun c => by rw [b.cores c, a.cores c]⟩
theorem SeatsOnly.queueLeft {s t : State} (a : SeatsOnly s t) : QueueLeft s t := ⟨by rw [a.rest], fun c => by rw [a.cores c]⟩

theorem queueLeft_modCore (s : State) (c : Nat) {f : Core → Core}
    (hf : ∀ k, f k = { k with tileq := (f k).tileq, locks := (f k).locks, rows := (f k).rows, buckets := (f k).buckets }) :
    QueueLeft s (s.modCore c f) := by
  refine ⟨rfl, fun k => ?_⟩
  rw [State.core_modCore]
  split
  next here => rw [here]; exact hf _
  next => rfl

theorem queueLeft_modGroup (s : State) (k : Nat) (f : Group → Group) : QueueLeft s (s.modGroup k f) := by
  have rest := s.modGroup_rest k f
  exact ⟨by rw [rest], fun c => by rw [rest]; rfl⟩

/-- The operation has left the queues of its cores, and its lock the table, before TL is looked at. -/
def State.tileOut (s : State) (g : Group) (e : TileOp) (cs : List Nat) : State :=
  let s := cs.foldl (fun (s : State) c => s.modCore c fun x => { x with tileq := x.tileq.drop 1 }) s
  let s := if e.lock = 0 then s else s.modCore g.core fun x => { x with locks := x.locks.filter fun r => r.op ≠ e.lock }
  cs.foldl (fun (s : State) c => s.opOver e.gid c) s

/-- Whether an entry of an operation is left in some core's queue. -/
def State.tileLeft (s : State) (g : Group) (e : TileOp) : Bool :=
  (((s.team e.team).map Team.cores).getD [g.core]).any fun c => (s.core c).tileq.any fun x => x.seq = e.seq

/-- The group with an operation fewer under way. -/
def Group.tileLowered (g : Group) (e : TileOp) : Group := g.modPath e.pathF fun p => { p with tl := p.tl - 1 }

theorem leaveQueue_eq (s : State) (g : Group) (e : TileOp) (cs : List Nat) : s.leaveQueue g e cs =
    if (s.tileOut g e cs).tileLeft g e then s.tileOut g e cs
    else ((s.tileOut g e cs).modGroup e.gid (·.tileLowered e)).opOver e.gid g.core := rfl

theorem queueLeft_drops (s : State) (cs : List Nat) :
    QueueLeft s (cs.foldl (fun (s : State) c => s.modCore c fun x => { x with tileq := x.tileq.drop 1 }) s) :=
  List.foldlRecOn (motive := QueueLeft s) _ _ (.refl s) fun _ a _ _ => a.trans (queueLeft_modCore _ _ fun _ => rfl)

theorem seatsOnly_opOvers (s : State) (gid : Nat) (cs : List Nat) : SeatsOnly s (cs.foldl (fun (s : State) c => s.opOver gid c) s) :=
  List.foldlRecOn (motive := SeatsOnly s) _ _ (.refl s) fun _ a _ _ => a.trans (seatsOnly_opOver _ _ _)

theorem queueLeft_tileOut (s : State) (g : Group) (e : TileOp) (cs : List Nat) : QueueLeft s (s.tileOut g e cs) := by
  unfold State.tileOut
  refine (queueLeft_drops s cs).trans (QueueLeft.trans (t := ite _ _ _) ?_ (seatsOnly_opOvers _ e.gid cs).queueLeft)
  split
  · exact .refl _
  · exact queueLeft_modCore _ _ fun _ => rfl

theorem queueLeft_leaveQueue (s : State) (g : Group) (e : TileOp) (cs : List Nat) : QueueLeft s (s.leaveQueue g e cs) := by
  rw [leaveQueue_eq]
  split
  · exact queueLeft_tileOut s g e cs
  · exact ((queueLeft_tileOut s g e cs).trans (queueLeft_modGroup _ _ _)).trans (seatsOnly_opOver _ _ _).queueLeft

theorem drops_tileq (s : State) (cs : List Nat) (nodup : cs.Nodup) (j : Nat) :
    ((cs.foldl (fun (s : State) c => s.modCore c fun x => { x with tileq := x.tileq.drop 1 }) s).core j).tileq =
      if j ∈ cs then (s.core j).tileq.drop 1 else (s.core j).tileq := by
  induction cs generalizing s with
  | nil => rfl
  | cons c cs ih =>
    obtain ⟨fresh, nodup⟩ := List.nodup_cons.1 nodup
    rw [List.foldl_cons, ih _ nodup, State.core_modCore]
    by_cases here : j = c
    · subst here
      simp [fresh]
    · simp [here]

theorem tileOut_tileq (s : State) (g : Group) (e : TileOp) {cs : List Nat} (nodup : cs.Nodup) (j : Nat) :
    ((s.tileOut g e cs).core j).tileq = if j ∈ cs then (s.core j).tileq.drop 1 else (s.core j).tileq := by
  unfold State.tileOut
  dsimp only
  rw [(seatsOnly_opOvers _ e.gid cs).cores j]
  dsimp only
  split
  · exact drops_tileq s cs nodup j
  · refine Eq.trans ?_ (drops_tileq s cs nodup j)
    rw [State.core_modCore]
    split
    next here => rw [here]
    next => rfl

theorem leaveQueue_tileq (s : State) (g : Group) (e : TileOp) {cs : List Nat} (nodup : cs.Nodup) (j : Nat) :
    ((s.leaveQueue g e cs).core j).tileq = if j ∈ cs then (s.core j).tileq.drop 1 else (s.core j).tileq := by
  rw [← tileOut_tileq s g e nodup, leaveQueue_eq]
  split
  · rfl
  · rw [(seatsOnly_opOver _ _ _).cores j, (s.tileOut g e cs).modGroup_rest]
    rfl

theorem tileOut_group (s : State) (g : Group) (e : TileOp) (cs : List Nat) (i : Nat) : (s.tileOut g e cs).group i = s.group i := by
  unfold State.tileOut
  dsimp only
  rw [CoresOnly.group (seatsOnly_opOvers _ e.gid cs).rest]
  have drops : CoresOnly s (cs.foldl (fun (s : State) c => s.modCore c fun x => { x with tileq := x.tileq.drop 1 }) s) :=
    .foldl (fun _ _ => .modCore _ _ _) cs s
  split
  · exact drops.group i
  · exact (CoresOnly.modCore _ _ _).group i |>.trans (drops.group i)

/-- The group of an operation that has left: TL is lower once no entry of it is left. -/
theorem leaveQueue_group {s : State} {h : Group} {e : TileOp} (stands : s.group e.gid = some h) (named : h.gid = e.gid) (g : Group)
    (cs : List Nat) : (s.leaveQueue g e cs).group e.gid =
      some (if (s.leaveQueue g e cs).tileLeft g e then h else h.tileLowered e) := by
  have out : (s.tileOut g e cs).group e.gid = some h := (tileOut_group ..).trans stands
  have gid : (h.tileLowered e).gid = e.gid := by
    rw [← named]
    unfold Group.tileLowered Group.modPath Group.setPath
    split <;> rfl
  have left : (s.leaveQueue g e cs).tileLeft g e = (s.tileOut g e cs).tileLeft g e := by
    rw [leaveQueue_eq]
    split
    · rfl
    · have over_ := seatsOnly_opOver ((s.tileOut g e cs).modGroup e.gid (·.tileLowered e)) e.gid g.core
      have queue (j : Nat) : ((((s.tileOut g e cs).modGroup e.gid (·.tileLowered e)).opOver e.gid g.core).core j).tileq =
          ((s.tileOut g e cs).core j).tileq := by
        rw [over_.cores j, (s.tileOut g e cs).modGroup_rest]
        rfl
      unfold State.tileLeft
      simp only [queue]
      rw [over_.rest, (s.tileOut g e cs).modGroup_rest]
      rfl
  rw [left, leaveQueue_eq]
  split
  · exact out
  · rw [CoresOnly.group (seatsOnly_opOver _ e.gid g.core).rest]
    exact (State.group_modGroup out gid e.gid).trans (if_pos rfl)

theorem tileLowered_tl (g : Group) (e : TileOp) : ((g.tileLowered e).path e.pathF).tl = (g.path e.pathF).tl - 1 := by
  unfold Group.tileLowered Group.modPath
  cases e.pathF <;> rfl
theorem sameRegs_tileLowered (g : Group) (e : TileOp) : SameRegs g (g.tileLowered e) :=
  sameRegs_modPath g e.pathF (fun p => { p with tl := p.tl - 1 }) fun _ => rfl
theorem tileLowered_fpf (g : Group) (e : TileOp) : (g.tileLowered e).fpf = g.fpf := by
  unfold Group.tileLowered Group.modPath
  cases e.pathF <;> rfl

/-- The heads of an operation's queues are gone, and its group's TL is lower where no entry of it is left. -/
def TileDone (s : State) (w : Group) (e : TileOp) (cs : List Nat) (t : State) : Prop :=
  (∀ j ∈ cs, (t.core j).tileq = (s.core j).tileq.drop 1) ∧
  ((∀ j ∈ ((s.team e.team).map Team.cores).getD [w.core], ∀ y ∈ (t.core j).tileq, y.seq ≠ e.seq) →
    ∃ g, t.group e.gid = some g ∧ (g.path e.pathF).tl = (w.path e.pathF).tl - 1)

/-- An operation whose effect has left the queues, the teams and TL in place. -/
theorem tileDone_leaveQueue {s u : State} {w h : Group} {e : TileOp} {cs : List Nat} (nodup : cs.Nodup)
    (queues : ∀ j ∈ cs, (u.core j).tileq = (s.core j).tileq) (teams : u.teams = s.teams) (stands : u.group e.gid = some h)
    (named : h.gid = e.gid) (tl : (h.path e.pathF).tl = (w.path e.pathF).tl) : TileDone s w e cs (u.leaveQueue w e cs) := by
  refine ⟨fun j hj => ?_, fun gone => ⟨_, leaveQueue_group stands named w cs, ?_⟩⟩
  · rw [leaveQueue_tileq u w e nodup, if_pos hj, queues j hj]
  · have none_ : (u.leaveQueue w e cs).tileLeft w e = false := by
      have team : (u.leaveQueue w e cs).team e.team = s.team e.team := by
        rw [(queueLeft_leaveQueue u w e cs).rest]
        exact congrArg (smFind · e.team) teams
      rw [State.tileLeft, team, List.any_eq_false]
      intro j hj
      simpa using gone j hj
    rw [none_, if_neg (by decide), tileLowered_tl, tl]

/-! ### The head of a queue -/

theorem tileHead_iff {s : State} {core : Nat} {w : Group} {e : TileOp} {cs : List Nat} (head : s.tileHead core = some (w, e, cs)) :
    (s.core core).tileq.head? = some e ∧ s.group e.gid = some w ∧
      (cs = [core] ∨ cs = [core, core + 1] ∧ (s.core (core + 1)).tileq.head?.map TileOp.seq = some e.seq) ∧
      (e.kind ≠ .pair → cs = [core]) := by
  unfold State.tileHead at head
  obtain ⟨x, listed, found⟩ := Option.bind_eq_some_iff.1 head
  obtain ⟨g, stands, found⟩ := Option.bind_eq_some_iff.1 found
  split at found
  next kind =>
    split at found
    · exact nomatch found
    next share =>
      cases found
      exact ⟨listed, stands, .inr ⟨rfl, not_not.1 (not_or.1 share).2⟩, fun h => absurd kind h⟩
  next =>
    cases found
    exact ⟨listed, stands, .inl rfl, fun _ => rfl⟩

theorem tileHead_nodup {s : State} {core : Nat} {w : Group} {e : TileOp} {cs : List Nat} (head : s.tileHead core = some (w, e, cs)) :
    cs.Nodup := by
  obtain ⟨-, -, rfl | ⟨rfl, -⟩, -⟩ := tileHead_iff head
  · simp
  · simp

/-- Each core of an operation has a head in its queue. -/
theorem tileHead_cons {s : State} {core : Nat} {w : Group} {e : TileOp} {cs : List Nat} (head : s.tileHead core = some (w, e, cs)) :
    ∀ j ∈ cs, ∃ h rs, (s.core j).tileq = h :: rs := by
  have cons {j : Nat} {x : TileOp} (h : (s.core j).tileq.head? = some x) : ∃ h rs, (s.core j).tileq = h :: rs :=
    ⟨x, _, List.eq_cons_of_mem_head? h⟩
  obtain ⟨first, -, rfl | ⟨rfl, second⟩, -⟩ := tileHead_iff head
  · simpa using cons first
  · obtain ⟨y, hy, -⟩ := Option.map_eq_some_iff.1 second
    simpa using ⟨cons first, cons hy⟩

/-! ### Start (14 R296; 27 R435) -/

/-- A core whose head starts in this cycle. -/
def Core.tileStarted (x : Core) : Core := { x.setHead fun e => { e with running := true } with admitted := some x.cyc }

theorem starts_core (s : State) {cs : List Nat} (nodup : cs.Nodup) (j : Nat) :
    (cs.foldl (fun (s : State) c => s.modCore c Core.tileStarted) s).core j = if j ∈ cs then (s.core j).tileStarted else s.core j := by
  induction cs generalizing s with
  | nil => rfl
  | cons c cs ih =>
    obtain ⟨fresh, nodup⟩ := List.nodup_cons.1 nodup
    rw [List.foldl_cons, ih _ nodup, State.core_modCore]
    by_cases here : j = c
    · subst here
      simp [fresh]
    · simp [here]

theorem admitsNone_iff (s : State) (j : Nat) :
    s.admitsNone j = true ↔ s.thr = true ∧ ((s.core j).cyc.toNat % 2 = 1 ∨ (s.core j).admitted = some (s.core j).cyc) := by
  simp [State.admitsNone]

section Start
variable {s : State} {core : Nat} {w : Group} {e : TileOp} {cs : List Nat} (head : s.tileHead core = some (w, e, cs))
include head

theorem tileOpStart_starts (idle : e.running = false) (free : (s.core w.core).heldBack e.lock = false)
    (admits : ∀ j ∈ cs, ¬(s.thr = true ∧ ((s.core j).cyc.toNat % 2 = 1 ∨ (s.core j).admitted = some (s.core j).cyc))) :
    Completes (.tileOpStart core) s fun t => t = { s with cores := t.cores } ∧ ∀ j ∈ cs, (t.core j).admitted = some (s.core j).cyc ∧
      ∃ h rs, (s.core j).tileq = h :: rs ∧ (t.core j).tileq = { h with running := true } :: rs := by
  have none_ : cs.any s.admitsNone = false := List.any_eq_false.2 fun j hj h => admits j hj ((admitsNone_iff s j).1 h)
  have run : exec (.tileOpStart core) s = .next (cs.foldl (fun (s : State) c => s.modCore c Core.tileStarted) s) := by
    show execTileOpStart core s = _
    rw [execTileOpStart, head]
    exact if_neg (by simp [idle, free, none_])
  have only : CoresOnly s (cs.foldl (fun (s : State) c => s.modCore c Core.tileStarted) s) := .foldl (fun _ _ => .modCore _ _ _) cs s
  refine ⟨_, run, only, fun j hj => ?_⟩
  obtain ⟨h, rs, queue⟩ := tileHead_cons head j hj
  rw [starts_core s (tileHead_nodup head), if_pos hj]
  refine ⟨rfl, h, rs, queue, ?_⟩
  unfold Core.tileStarted Core.setHead
  rw [queue]

theorem tileOpStart_waits (bar : (s.core w.core).heldBack e.lock = true ∨ ∃ j ∈ cs,
    s.thr = true ∧ ((s.core j).cyc.toNat % 2 = 1 ∨ (s.core j).admitted = some (s.core j).cyc)) :
    Completes (.tileOpStart core) s fun t => t = s := by
  have run : exec (.tileOpStart core) s = .next s := by
    show execTileOpStart core s = _
    rw [execTileOpStart, head]
    refine if_pos (.inr (bar.imp id fun ⟨j, hj, delayed⟩ => ?_))
    exact List.any_eq_true.2 ⟨j, hj, (admitsNone_iff s j).2 delayed⟩
  exact ⟨s, run, rfl⟩

theorem tileOpRetire_idle (fs : List (List (Nat × Nat × Nat))) (idle : e.running = false) :
    Completes (.tileOpRetire core fs) s fun t => t = s := by
  have run : exec (.tileOpRetire core fs) s = .next s := by
    show execTileOpRetire core fs s = _
    rw [execTileOpRetire, head]
    exact if_pos (by simp [idle])
  exact ⟨s, run, rfl⟩

end Start

/-! ### Retirement -/

/-- What the head of a queue does to a state as it retires, before it leaves. -/
def State.tileEffect (s : State) (w : Group) (e : TileOp) (core : Nat) (cs : List Nat) (faults : List (List (Nat × Nat × Nat))) : State :=
  match e.kind with
  | .zero => (s.tilePut (e.tile w core) 8 ((List.range 4608).map fun i => (8 * i, 0))).setTileStat (e.tile w core) {}
  | .rd row scale =>
    s.modGroup e.gid fun g => (g.vwr e.dst (s.tileRow e (e.tile w core) row scale (w.vrd e.dst)).1).orFpf
      (s.tileRow e (e.tile w core) row scale (w.vrd e.dst)).2
  | .wr row v =>
    s.tilePut (e.tile w core) (if (s.tileStat (e.tile w core)).typ = 7 then 8 else 4)
      (wrEntries (decide ((s.tileStat (e.tile w core)).typ = 7)) e.mask row v)
  | .chk => s.writeReturn e.gid e.dst (BitVec.ofNat 64 (s.tileStat (e.tile w core)).word)
  | .one | .pair => s.retireProduct w e cs faults

theorem exec_tileOpRetire {s : State} {core : Nat} {w : Group} {e : TileOp} {cs : List Nat} (head : s.tileHead core = some (w, e, cs))
    (running : e.running = true) (fs : List (List (Nat × Nat × Nat))) :
    exec (.tileOpRetire core fs) s = .next ((s.tileEffect w e core cs fs).leaveQueue w e cs) := by
  show execTileOpRetire core fs s = _
  rw [execTileOpRetire, head]
  dsimp only
  rw [if_neg (by simp [running])]
  unfold State.tileEffect
  cases e.kind <;> rfl

/-! ### What effects leave of queues, groups and teams -/

/-- From `s` to `t` the records of errors change, and of the cores no tile queue. -/
structure TileFrame (s t : State) : Prop where
  rest : t = { s with cores := t.cores, errs := t.errs, retired := t.retired, errlog := t.errlog, errTotal := t.errTotal }
  queues : ∀ c, (t.core c).tileq = (s.core c).tileq

theorem TileFrame.refl (s : State) : TileFrame s s := ⟨rfl, fun _ => rfl⟩
theorem TileFrame.trans {s t u : State} (a : TileFrame s t) (b : TileFrame t u) : TileFrame s u :=
  ⟨by rw [b.rest, a.rest], fun c => (b.queues c).trans (a.queues c)⟩
theorem TileFrame.group {s t : State} (a : TileFrame s t) (i : Nat) : t.group i = s.group i := by
  rw [a.rest]
  rfl
theorem TileFrame.teams {s t : State} (a : TileFrame s t) : t.teams = s.teams := by rw [a.rest]

theorem tileFrame_modCore (s : State) (c : Nat) {f : Core → Core} (hf : ∀ k, (f k).tileq = k.tileq) : TileFrame s (s.modCore c f) := by
  refine ⟨rfl, fun k => ?_⟩
  rw [State.core_modCore]
  split
  next here => rw [here]; exact hf _
  next => rfl

theorem tileFrame_tilePut (s : State) (t : Tile) (w : Nat) (es : List (Nat × Nat)) : TileFrame s (s.tilePut t w es) := by
  unfold State.tilePut
  exact tileFrame_modCore _ _ fun _ => rfl
theorem tileFrame_setTileStat (s : State) (t : Tile) (x : TileStat) : TileFrame s (s.setTileStat t x) := by
  unfold State.setTileStat
  exact tileFrame_modCore _ _ fun _ => rfl
theorem tileFrame_commitProduct (s : State) (w : Group) (e : TileOp) (c : WorkCopy) : TileFrame s (s.commitProduct w e c) :=
  (tileFrame_tilePut ..).trans (tileFrame_setTileStat ..)

section Retired
variable {s u : State} {w : Group} {e : TileOp} {cs : List Nat}

/-- An effect on cores alone: the operation leaves its queues. -/
theorem TileFrame.done (a : TileFrame s u) (nodup : cs.Nodup) (stands : s.group e.gid = some w) (named : w.gid = e.gid) :
    TileDone s w e cs (u.leaveQueue w e cs) :=
  tileDone_leaveQueue nodup (fun j _ => a.queues j) a.teams ((a.group _).trans stands) named rfl

/-- An effect on the group alone: the operation leaves its queues, and the group's registers stand as the effect left them. -/
theorem leaveQueue_of_group {f : Group → Group} (nodup : cs.Nodup) (stands : s.group e.gid = some w) (gid : (f w).gid = e.gid)
    (tl : ((f w).path e.pathF).tl = (w.path e.pathF).tl) :
    TileDone s w e cs ((s.modGroup e.gid f).leaveQueue w e cs) ∧ ((s.modGroup e.gid f).leaveQueue w e cs).mem = s.mem ∧
      ∃ g, ((s.modGroup e.gid f).leaveQueue w e cs).group e.gid = some g ∧ SameRegs (f w) g ∧ g.fpf = (f w).fpf := by
  have rest := s.modGroup_rest e.gid f
  have effect : (s.modGroup e.gid f).group e.gid = some (f w) := (State.group_modGroup stands gid e.gid).trans (if_pos rfl)
  refine ⟨tileDone_leaveQueue nodup (fun j _ => by rw [rest]; rfl) (by rw [rest]) effect gid tl, ?_, _,
    leaveQueue_group effect gid w cs, ?_, ?_⟩
  · rw [(queueLeft_leaveQueue _ w e cs).rest, rest]
  · split
    · exact .refl _
    · exact sameRegs_tileLowered _ _
  · split
    · rfl
    · exact tileLowered_fpf _ _

theorem writeReturn_ring (s : State) (gid y : Nat) (v : Word) : s.writeReturn gid (.ring y) v = s.modGroup gid (·.wr (.ring y) v) := rfl

/-- A value returned to a register of the ring stands there once the operation has left. -/
theorem leaveQueue_written (nodup : cs.Nodup) (stands : s.group e.gid = some w) (named : w.gid = e.gid) (y : Nat) (v : Word) :
    TileDone s w e cs ((s.writeReturn e.gid (.ring y) v).leaveQueue w e cs) ∧
      ∃ g, ((s.writeReturn e.gid (.ring y) v).leaveQueue w e cs).group e.gid = some g ∧ g.rd (.ring y) = v := by
  rw [writeReturn_ring]
  obtain ⟨done, -, g, hg, regs, -⟩ := leaveQueue_of_group (f := (·.wr (.ring y) v)) nodup stands named (by cases e.pathF <;> rfl)
  refine ⟨done, g, hg, ?_⟩
  show smGet 0 g.sring y = v
  rw [regs.sring]
  exact smGet_smSet_self _ _ _ _

theorem leaveQueue_pool (u : State) (w : Group) (e : TileOp) (cs : List Nat) (c : Nat) :
    ((u.leaveQueue w e cs).core c).pool = (u.core c).pool := by rw [(queueLeft_leaveQueue u w e cs).cores c]
theorem leaveQueue_tileStat (u : State) (w : Group) (e : TileOp) (cs : List Nat) (t : Tile) :
    (u.leaveQueue w e cs).tileStat t = u.tileStat t := by
  unfold State.tileStat
  rw [(queueLeft_leaveQueue u w e cs).cores t.core]
theorem leaveQueue_tileEntry (u : State) (w : Group) (e : TileOp) (cs : List Nat) (t : Tile) (b n : Nat) :
    (u.leaveQueue w e cs).tileEntry t b n = u.tileEntry t b n := by
  unfold State.tileEntry
  rw [leaveQueue_pool, (queueLeft_leaveQueue u w e cs).rest]
  rfl

end Retired

/-! ### mm.zero -/

theorem memByte_memPutAll_zero {ws : List (Nat × Byte)} (zero : ∀ x ∈ ws, x.2 = 0#8) {k : Nat} (hit : ∃ x ∈ ws, x.1 = k)
    (m : List Host.Cell) : memByte (memPutAll m ws) k = 0#8 := by
  induction ws generalizing m with
  | nil => obtain ⟨_, h, -⟩ := hit; exact nomatch h
  | cons x ws ih =>
    show memByte (memPutAll (memPut m x.1 x.2) ws) k = 0#8
    have later (y : Nat × Byte) (hy : y ∈ ws) : y.2 = 0#8 := zero y (List.mem_cons_of_mem _ hy)
    by_cases again : ∃ y ∈ ws, y.1 = k
    · exact ih later again _
    · rw [memByte_memPutAll_of_not_mem _ _ _ fun y hy h => again ⟨y, hy, h⟩, memByte_memPut]
      obtain ⟨y, hy, here⟩ := hit
      obtain rfl | hy := List.mem_cons.1 hy
      · rw [if_pos here.symm]
        exact zero y List.mem_cons_self
      · exact absurd ⟨y, hy, here⟩ again

theorem leNat_eq_zero {bs : List Byte} (zero : ∀ b ∈ bs, b = 0#8) : leNat bs = 0 := by
  induction bs with
  | nil => rfl
  | cons b bs ih =>
    rw [leNat, zero b List.mem_cons_self, ih fun c hc => zero c (List.mem_cons_of_mem _ hc)]
    rfl

/-- The pool bytes that entries of a tile write. -/
def State.tileBytes (s : State) (t : Tile) (w : Nat) (es : List (Nat × Nat)) : List (Nat × Byte) :=
  es.flatMap fun e => ((addrs e.1 w).zip (leBytes w e.2)).filterMap fun b =>
    (s.tileOff t.team t.core t.regs t.scr t.n b.1).map fun o => (o, b.2)

theorem tilePut_pool (s : State) (t : Tile) (w : Nat) (es : List (Nat × Nat)) :
    ((s.tilePut t w es).core t.core).pool = memPutAll (s.core t.core).pool (s.tileBytes t w es) := by
  unfold State.tilePut
  rw [State.core_modCore, if_pos rfl]
  rfl

theorem mem_tileBytes_zero {s : State} {t : Tile} {n : Nat} {x : Nat × Byte}
    (h : x ∈ s.tileBytes t 8 ((List.range n).map fun i => (8 * i, 0))) : x.2 = 0#8 := by
  have zip (b : Nat) : (addrs b 8).zip (leBytes 8 0) = (addrs b 8).map fun o => (o, 0#8) := rfl
  simp only [State.tileBytes, List.mem_flatMap, List.mem_map, List.mem_filterMap] at h
  obtain ⟨_, ⟨i, -, rfl⟩, b, hb, off⟩ := h
  rw [zip, List.mem_map] at hb
  obtain ⟨_, -, rfl⟩ := hb
  obtain ⟨_, -, rfl⟩ := Option.map_eq_some_iff.1 off
  rfl

theorem mem_tileBytes {s : State} {t : Tile} {n y o k : Nat} (hy : y < n) (ho : o ∈ addrs (8 * y) 8)
    (off : s.tileOff t.team t.core t.regs t.scr t.n o = some k) :
    (k, 0#8) ∈ s.tileBytes t 8 ((List.range n).map fun i => (8 * i, 0)) := by
  have zip (b : Nat) : (addrs b 8).zip (leBytes 8 0) = (addrs b 8).map fun o => (o, 0#8) := rfl
  refine List.mem_flatMap.2 ⟨(8 * y, 0), List.mem_map.2 ⟨y, List.mem_range.2 hy, rfl⟩, List.mem_filterMap.2 ⟨(o, 0#8), ?_, ?_⟩⟩
  · rw [zip]
    exact List.mem_map.2 ⟨o, ho, rfl⟩
  · rw [off]
    rfl

/-- Every entry of a tile that mm.zero has written is zero. -/
theorem tileEntry_zeroed (s : State) (t : Tile) {n y : Nat} (hy : y < n) :
    (s.tilePut t 8 ((List.range n).map fun i => (8 * i, 0))).tileEntry t (8 * y) 8 = 0 := by
  refine leNat_eq_zero fun b hb => ?_
  obtain ⟨o, ho, rfl⟩ := List.mem_map.1 hb
  rw [tilePut_pool]
  show ((s.tileOff t.team t.core t.regs t.scr t.n o).map _).getD 0 = _
  cases off : s.tileOff t.team t.core t.regs t.scr t.n o with
  | none => rfl
  | some k => exact memByte_memPutAll_zero (fun _ => mem_tileBytes_zero) ⟨_, mem_tileBytes hy ho off, rfl⟩ _

theorem tileStat_setTileStat (s : State) (t : Tile) (x : TileStat) : (s.setTileStat t x).tileStat t = x := by
  unfold State.tileStat State.setTileStat
  rw [State.core_modCore, if_pos rfl]
  exact smGet_smSet_self _ _ _ _

theorem setTileStat_pool (s : State) (t : Tile) (x : TileStat) (c : Nat) : ((s.setTileStat t x).core c).pool = (s.core c).pool := by
  unfold State.setTileStat
  rw [State.core_modCore]
  split
  next here => rw [here]
  next => rfl

theorem tileEntry_setTileStat (s : State) (t r : Tile) (x : TileStat) (b n : Nat) :
    (s.setTileStat t x).tileEntry r b n = s.tileEntry r b n := by
  unfold State.tileEntry
  rw [setTileStat_pool]
  rfl

/-! ### mm.rd and mm.chk -/

theorem tileRow_plain {s : State} {t : Tile} (word : (s.tileStat t).typ ≠ 7) (e : TileOp) (row : Nat) (old : VReg) :
    s.tileRow e t row none old =
      (mergeLanes e.mask old fun i => BitVec.ofNat 32 (s.tileEntry t (384 * row + 4 * i) 4), Flags.none) := by
  have flags (l : List Nat) : l.foldl (fun f _ => f ||| Flags.none) Flags.none = Flags.none := by
    induction l with
    | nil => rfl
    | cons _ _ ih => exact ih
  unfold State.tileRow
  rw [if_neg word]
  exact congrArg (Prod.mk _) (flags _)

theorem vrd_vwr {l : RLoc} (h : ∃ y, l = .ring y ∨ l = .fix y) (g : Group) (v : VReg) : (g.vwr l v).vrd l = v := by
  obtain ⟨y, rfl | rfl⟩ := h
  · exact smGet_smSet_self _ _ _ _
  · exact smGet_smSet_self _ _ _ _

theorem SameRegs.vrd {g h : Group} (a : SameRegs g h) (l : RLoc) : h.vrd l = g.vrd l := by
  unfold Group.vrd
  rw [a.vring, a.vfix]

/-- A write of a vector register changes no scalar register, no flag and no path slot. -/
theorem vwr_rest (g : Group) (l : RLoc) (v : VReg) : g.vwr l v = { g with vring := (g.vwr l v).vring, vfix := (g.vwr l v).vfix } := by
  unfold Group.vwr
  split <;> rfl

theorem sr_vwr (g : Group) (l : RLoc) (v : VReg) (r : Reg) : (g.vwr l v).sr r = g.sr r := by
  rw [vwr_rest]
  rfl

/-! ### Products (14 R299) -/

theorem commitProduct_pool (s : State) (w : Group) (e : TileOp) (c : WorkCopy) : ∃ es,
    ((s.commitProduct w e c).core c.core).pool = memPutAll (s.core c.core).pool (s.tileBytes (e.tile w c.core) (matW e.typ) es) ∧
      ∀ r : State, ((r.commitProduct w e c).core c.core).pool =
        memPutAll (r.core c.core).pool (r.tileBytes (e.tile w c.core) (matW e.typ) es) := by
  have pool (r : State) : ((r.commitProduct w e c).core c.core).pool = memPutAll (r.core c.core).pool
      (r.tileBytes (e.tile w c.core) (matW e.typ) (c.new.zipIdx.flatMap fun r => r.1.zipIdx.map fun x =>
        (384 * r.2 + matW e.typ * x.2, x.1.bits))) :=
    (setTileStat_pool ..).trans (tilePut_pool r (e.tile w c.core) (matW e.typ) _)
  exact ⟨_, pool s, pool⟩

theorem commitProduct_tileStat (s : State) (w : Group) (e : TileOp) (c : WorkCopy) :
    (s.commitProduct w e c).tileStat (e.tile w c.core) = { s.tileStat (e.tile w c.core) with
      used := true, typ := e.typ
      flags := (s.tileStat (e.tile w c.core)).flags ||| c.new.flatten.foldl (fun f x => f ||| x.fl) Flags.none } :=
  tileStat_setTileStat _ _ _

theorem tileFrame_logError (s : State) (kind unit part ix addr remain : Nat) :
    TileFrame s (s.logError kind unit part ix addr remain) ∧ (s.logError kind unit part ix addr remain).cores = s.cores := by
  have written (l : List (List Word)) (n : Nat) : TileFrame s { s with errlog := l, errTotal := n } := ⟨rfl, fun _ => rfl⟩
  exact ⟨written _ _, by simp only [State.logError]⟩

theorem tileFrame_correctable (s : State) (c : Nat) :
    TileFrame s (s.correctable .array c) ∧ (s.correctable .array c).cores = s.cores := by
  have counted (x : SMap (Nat × Nat)) : TileFrame s { s with errs := x } := ⟨rfl, fun _ => rfl⟩
  unfold State.correctable
  split
  · exact ⟨.refl s, rfl⟩
  · dsimp only
    split
    · unfold State.retireUnit
      dsimp only
      rw [if_neg fun link => nomatch link.1]
      generalize State.remaining _ _ _ = n
      generalize smSet _ s.errs _ _ = x
      have retired : TileFrame s { s with errs := x, retired := s.retired ++ [(UnitKind.array.code, c)] } := ⟨rfl, fun _ => rfl⟩
      have logged := tileFrame_logError { s with errs := x, retired := s.retired ++ [(UnitKind.array.code, c)] } 0 UnitKind.array.code 0xFF c 0 n
      exact ⟨retired.trans logged.1, logged.2⟩
    · exact ⟨counted _, rfl⟩

/-- The tile's status after a rerun. -/
def TileStat.rerun (x : TileStat) : TileStat := { x with reruns := min (x.reruns + 1) 255 }

/-- What a rerun on one core leaves: the pools, the teams, the groups and the tasks; the tile's count is higher. -/
structure Reran (s : State) (w : Group) (e : TileOp) (core : Nat) (t : State) : Prop where
  frame : TileFrame s t
  pool : ∀ c, (t.core c).pool = (s.core c).pool
  stat : t.tileStat (e.tile w core) = (s.tileStat (e.tile w core)).rerun

theorem rerun_reran (s : State) (w : Group) (e : TileOp) (core n : Nat) : Reran s w e core (s.rerun w e [core] n) := by
  have quiet := quiet_event s w 0x0209 0x1F 1
  have arch (c : Nat) := quiet.cores c
  have queue (c : Nat) : ((s.event w 0x0209 0x1F 1).core c).tileq = (s.core c).tileq := (congrArg Core.tileq (arch c) :)
  have stat : (s.event w 0x0209 0x1F 1).tileStat (e.tile w core) = s.tileStat (e.tile w core) := by
    have same : ((s.event w 0x0209 0x1F 1).core core).tstat = (s.core core).tstat := (congrArg Core.tstat (arch core) :)
    exact congrArg (smGet {} · _) same
  have counted : Reran s w e core ((s.event w 0x0209 0x1F 1).setTileStat (e.tile w core) (s.tileStat (e.tile w core)).rerun) := by
    refine ⟨.trans ⟨by rw [quiet.rest], queue⟩ (tileFrame_setTileStat ..), fun c => ?_,
      tileStat_setTileStat _ _ _⟩
    exact (setTileStat_pool ..).trans (quiet.pool c)
  unfold State.rerun
  dsimp only [List.foldl_cons, List.foldl_nil]
  rw [stat]
  refine List.foldlRecOn (motive := Reran s w e core) _ _ counted fun t a _ _ => ?_
  obtain ⟨frame, cores⟩ := tileFrame_correctable t core
  have same (c : Nat) : (t.correctable .array core).core c = t.core c := by
    unfold State.core
    rw [cores]
  exact ⟨a.frame.trans frame, fun c => by rw [same]; exact a.pool c, by unfold State.tileStat; rw [same]; exact a.stat⟩

/-- A product whose check fails once commits what the second compute forms, with the tile's count higher. -/
theorem Reran.commit {s t : State} {w : Group} {e : TileOp} {c : WorkCopy} (a : Reran s w e c.core t) :
    ((t.commitProduct w e c).core c.core).pool = ((s.commitProduct w e c).core c.core).pool ∧
      (t.commitProduct w e c).tileStat (e.tile w c.core) = { (s.commitProduct w e c).tileStat (e.tile w c.core) with
        reruns := min ((s.tileStat (e.tile w c.core)).reruns + 1) 255 } := by
  obtain ⟨es, own, pool⟩ := commitProduct_pool s w e c
  have bytes : t.tileBytes (e.tile w c.core) (matW e.typ) es = s.tileBytes (e.tile w c.core) (matW e.typ) es := by
    rw [a.frame.rest]
    rfl
  refine ⟨by rw [own, pool, a.pool, bytes], ?_⟩
  rw [commitProduct_tileStat, commitProduct_tileStat, a.stat]
  rfl

/-- Whether a compute on one core goes wrong: the array gets some entries wrong, and the check finds it. -/
def State.computeFails (s : State) (w : Group) (e : TileOp) (core : Nat) (f : List (Nat × Nat × Nat)) : Prop :=
  f ≠ [] ∧ checkFails e.typ e.k (s.matRows w e) [s.workCopy w e core (s.matRows w e) f] = true

section Product
variable (s : State) (w : Group) (e : TileOp) (core : Nat)

theorem retireProduct_fine :
    s.retireProduct w e [core] [] = s.commitProduct w e (s.workCopy w e core (s.matRows w e) []) := by
  unfold State.retireProduct
  dsimp only
  exact if_pos rfl

variable {s w e core} {f0 f1 : List (Nat × Nat × Nat)}

theorem not_fails_false (h : s.computeFails w e core f0) :
    (!f0.isEmpty && checkFails e.typ e.k (s.matRows w e) ([core].map fun c => s.workCopy w e c (s.matRows w e) f0)) = true := by
  obtain ⟨some_, fails⟩ := h
  rw [List.isEmpty_eq_false_iff.2 some_]
  exact fails

theorem retireProduct_once (h : s.computeFails w e core f0) : s.retireProduct w e [core] [f0] =
    (s.rerun w e [core] 1).commitProduct w e (s.workCopy w e core (s.matRows w e) []) := by
  unfold State.retireProduct
  simp only [List.getD_cons_zero, List.getD_cons_succ, List.getD_nil]
  rw [not_fails_false h]
  rfl

theorem retireProduct_twice (h : s.computeFails w e core f0) (k : s.computeFails w e core f1) :
    s.retireProduct w e [core] [f0, f1] = (s.rerun w e [core] 2).reportOf w
      (s.groupReport w e.pathF .matrixCheck (BitVec.ofNat 64 e.aAddr) e.pc e.cwi) := by
  unfold State.retireProduct
  simp only [List.getD_cons_zero, List.getD_cons_succ]
  rw [not_fails_false h, not_fails_false k]
  rfl

end Product

/-! ### The retirement of each kind of operation -/

section Retirement
variable {s : State} {core : Nat} {w : Group} {e : TileOp} {cs : List Nat} (head : s.tileHead core = some (w, e, cs))
  (running : e.running = true)
include head running

theorem tileOpRetire_twice {f0 f1 : List (Nat × Nat × Nat)} {tm : Team} {tk : Task} (kind : e.kind = .one)
    (first : s.computeFails w e core f0) (second : s.computeFails w e core f1) (team : s.team w.team = some tm)
    (task : s.task tm.task = some tk) (runs : s.taskStopped tm.task = false) : Completes (.tileOpRetire core [f0, f1]) s fun t =>
      (t.core core).pool = (s.core core).pool ∧
      (t.tileStat (e.tile w core)).reruns = min ((s.tileStat (e.tile w core)).reruns + 1) 255 ∧
      ∃ q : Report, t.task tm.task = some (tk.addReport q) ∧ q.code = .matrixCheck ∧ q.fra = BitVec.ofNat 64 e.aAddr := by
  obtain ⟨-, -, -, single⟩ := tileHead_iff head
  obtain rfl : cs = [core] := single (by rw [kind]; exact nofun)
  obtain ⟨frame, pool, stat⟩ := rerun_reran s w e core 2
  refine ⟨_, exec_tileOpRetire head running [f0, f1], ?_⟩
  simp only [State.tileEffect, kind]
  rw [retireProduct_twice first second]
  generalize hq : s.groupReport w e.pathF .matrixCheck (BitVec.ofNat 64 e.aAddr) e.pc e.cwi = q
  generalize s.rerun w e [core] 2 = r at frame pool stat ⊢
  have reported := reportOf_rest r w q
  refine ⟨?_, ?_, q, ?_, by rw [← hq]; rfl, by rw [← hq]; rfl⟩
  · rw [leaveQueue_pool, reported]
    exact pool core
  · rw [leaveQueue_tileStat, reported]
    exact congrArg TileStat.reruns stat
  · have kept : TablesStand s r := ⟨by rw [frame.rest], by rw [frame.rest]⟩
    have stopped : r.taskStopped tm.task = false := by
      rw [frame.rest]
      exact runs
    have told := reportOf_task ((kept.team _).trans team) ((kept.task _).trans task) stopped q
    rw [(queueLeft_leaveQueue (r.reportOf w q) w e [core]).rest]
    exact told

variable (named : w.gid = e.gid)
include named

theorem tileOpRetire_zero (kind : e.kind = .zero) (fs : List (List (Nat × Nat × Nat))) : Completes (.tileOpRetire core fs) s fun t =>
    TileDone s w e cs t ∧ t.tileStat (e.tile w core) = {} ∧ ∀ y < 4608, t.tileEntry (e.tile w core) (8 * y) 8 = 0 := by
  obtain ⟨-, stands, -⟩ := tileHead_iff head
  refine ⟨_, exec_tileOpRetire head running fs, ?_⟩
  simp only [State.tileEffect, kind]
  have frame := (tileFrame_tilePut s (e.tile w core) 8 ((List.range 4608).map fun i => (8 * i, 0))).trans
    (tileFrame_setTileStat _ (e.tile w core) {})
  exact ⟨frame.done (tileHead_nodup head) stands named, (leaveQueue_tileStat ..).trans (tileStat_setTileStat ..),
    fun y hy => (leaveQueue_tileEntry ..).trans ((tileEntry_setTileStat ..).trans (tileEntry_zeroed s _ hy))⟩

theorem tileOpRetire_rd {row : Nat} (kind : e.kind = .rd row none) (dst : ∃ y, e.dst = .ring y ∨ e.dst = .fix y)
    (word : (s.tileStat (e.tile w core)).typ ≠ 7) (fs : List (List (Nat × Nat × Nat))) : Completes (.tileOpRetire core fs) s fun t =>
      TileDone s w e cs t ∧ t.mem = s.mem ∧ ∃ g, t.group e.gid = some g ∧ g.fpf = w.fpf ∧ (∀ a, g.sr a = w.sr a) ∧
        ∀ y < 96, lane (g.vrd e.dst) y = if bitAt e.mask.toNat y then
          BitVec.ofNat 32 (s.tileEntry (e.tile w core) (384 * row + 4 * y) 4) else lane (w.vrd e.dst) y := by
  obtain ⟨-, stands, -⟩ := tileHead_iff head
  have effect : s.tileEffect w e core cs fs = s.modGroup e.gid fun g => (g.vwr e.dst (mergeLanes e.mask (w.vrd e.dst) fun i =>
      BitVec.ofNat 32 (s.tileEntry (e.tile w core) (384 * row + 4 * i) 4))).orFpf Flags.none := by
    rw [State.tileEffect, kind]
    dsimp only
    rw [tileRow_plain word]
  generalize hv : (mergeLanes e.mask (w.vrd e.dst) fun i =>
      BitVec.ofNat 32 (s.tileEntry (e.tile w core) (384 * row + 4 * i) 4)) = v at effect
  have gid : ((w.vwr e.dst v).orFpf Flags.none).gid = e.gid := by
    rw [vwr_rest]
    exact named
  obtain ⟨done, mem, g, hg, regs, fpf⟩ := leaveQueue_of_group (f := fun g => (g.vwr e.dst v).orFpf Flags.none) (tileHead_nodup head)
    stands gid (by rw [vwr_rest]; cases e.pathF <;> rfl)
  refine ⟨_, exec_tileOpRetire head running fs, ?_⟩
  rw [effect]
  refine ⟨done, mem, g, hg, fpf.trans ?_, fun a => (regs.sr a).trans (sr_vwr w e.dst v a), fun y hy => ?_⟩
  · rw [vwr_rest]
    exact BitVec.or_zero
  · have stored : g.vrd e.dst = v := (regs.vrd _).trans (vrd_vwr dst w v)
    rw [stored, ← hv]
    exact lane_mergeLanes _ _ _ _ hy

theorem tileOpRetire_wr {row : Nat} {v : VReg} (kind : e.kind = .wr row v) (fs : List (List (Nat × Nat × Nat))) :
    Completes (.tileOpRetire core fs) s fun t => TileDone s w e cs t ∧ (t.core core).pool =
      ((s.tilePut (e.tile w core) (if (s.tileStat (e.tile w core)).typ = 7 then 8 else 4)
        (wrEntries (decide ((s.tileStat (e.tile w core)).typ = 7)) e.mask row v)).core core).pool := by
  obtain ⟨-, stands, -⟩ := tileHead_iff head
  refine ⟨_, exec_tileOpRetire head running fs, ?_⟩
  simp only [State.tileEffect, kind]
  exact ⟨(tileFrame_tilePut ..).done (tileHead_nodup head) stands named, leaveQueue_pool ..⟩

theorem tileOpRetire_chk (kind : e.kind = .chk) (dst : ∃ y, e.dst = .ring y) (fs : List (List (Nat × Nat × Nat))) :
    Completes (.tileOpRetire core fs) s fun t => TileDone s w e cs t ∧
      ∃ g, t.group e.gid = some g ∧ g.rd e.dst = BitVec.ofNat 64 (s.tileStat (e.tile w core)).word := by
  obtain ⟨-, stands, -⟩ := tileHead_iff head
  obtain ⟨y, ring⟩ := dst
  refine ⟨_, exec_tileOpRetire head running fs, ?_⟩
  simp only [State.tileEffect, kind]
  rw [ring]
  exact leaveQueue_written (tileHead_nodup head) stands named y _

theorem tileOpRetire_product (kind : e.kind = .one) : Completes (.tileOpRetire core []) s fun t => TileDone s w e cs t ∧
    (t.core core).pool = ((s.commitProduct w e (s.workCopy w e core (s.matRows w e) [])).core core).pool ∧
    t.tileStat (e.tile w core) = (s.commitProduct w e (s.workCopy w e core (s.matRows w e) [])).tileStat (e.tile w core) := by
  obtain ⟨-, stands, -, single⟩ := tileHead_iff head
  obtain rfl : cs = [core] := single (by rw [kind]; exact nofun)
  refine ⟨_, exec_tileOpRetire head running [], ?_⟩
  simp only [State.tileEffect, kind]
  rw [retireProduct_fine]
  exact ⟨(tileFrame_commitProduct ..).done (tileHead_nodup head) stands named, leaveQueue_pool .., leaveQueue_tileStat ..⟩

theorem tileOpRetire_once {f0 : List (Nat × Nat × Nat)} (kind : e.kind = .one) (first : s.computeFails w e core f0) :
    Completes (.tileOpRetire core [f0]) s fun t => TileDone s w e cs t ∧
      (t.core core).pool = ((s.commitProduct w e (s.workCopy w e core (s.matRows w e) [])).core core).pool ∧
      t.tileStat (e.tile w core) = { (s.commitProduct w e (s.workCopy w e core (s.matRows w e) [])).tileStat (e.tile w core) with
        reruns := min ((s.tileStat (e.tile w core)).reruns + 1) 255 } := by
  obtain ⟨-, stands, -, single⟩ := tileHead_iff head
  obtain rfl : cs = [core] := single (by rw [kind]; exact nofun)
  have reran := rerun_reran s w e core 1
  obtain ⟨pool, stat⟩ := Reran.commit (c := s.workCopy w e core (s.matRows w e) []) reran
  refine ⟨_, exec_tileOpRetire head running [f0], ?_⟩
  simp only [State.tileEffect, kind]
  rw [retireProduct_once first]
  exact ⟨(reran.frame.trans (tileFrame_commitProduct ..)).done (tileHead_nodup head) stands named, (leaveQueue_pool ..).trans pool,
    (leaveQueue_tileStat ..).trans stat⟩

end Retirement

end Sys2Proof.Machine
end

section
/-! PROOFS. The cursors of a change and the write-backs of a lantern action (09 R200, R201; 12 R278): O50's third part. -/

namespace Sys2Proof.Machine

/-! ### One slice of an old pane-set -/

/-- What a cursor step does in one slice of the pane-set at `pos`. -/
def State.cursorSlice (s : State) (part cls die : Nat) (old new : Ldr) (pos : Nat) (flushAll : Bool) (k : Nat) : State :=
  match s.oldLine part cls die old pos k with
  | some y => s.cursorLine new flushAll y
  | none => s

/-- What a cursor step does in some slices of it. -/
def State.cursorSlices (s : State) (part cls die : Nat) (old new : Ldr) (pos : Nat) (flushAll : Bool) (ks : List Nat) : State :=
  ks.foldl (fun s k => s.cursorSlice part cls die old new pos flushAll k) s

/-- Whether a change ends with the given cursors. -/
def Change.ended (c : Change) : Bool := c.old.instDies.all fun i => c.old.total ≤ smGet 0 c.cursors i

/-- A change whose cursor on a die has advanced past `pos`. -/
def Change.advanced (c : Change) (die pos : Nat) : Change := { c with cursors := smSet 0 c.cursors die (pos + 1) }

/-- The state after the slices of a step: the class with its cursors as they stand now, its lines of one geometry where the change has
ended. -/
def State.cursorStepped (u : State) (part cls : Nat) (d : ClassDef) (c : Change) : State :=
  { u with
    classes := smPut u.classes (part * 64 + cls) { d with change := if c.ended then none else some c }
    lines := if c.ended then u.lines.map fun l => if l.own part cls then { l with newGeo := false } else l else u.lines }

theorem classDef_of_some {s : State} {part cls : Nat} {d : ClassDef} (h : smFind s.classes (part * 64 + cls) = some d) :
    s.classDef part cls = some d := by rw [State.classDef, h]

theorem cursorStepped_classDef (u : State) (part cls : Nat) (d : ClassDef) (c : Change) :
    (u.cursorStepped part cls d c).classDef part cls = some { d with change := if c.ended then none else some c } :=
  classDef_of_some ((smFind_smPut ..).trans (if_pos rfl))

@[simp] theorem cursorStepped_mem (u : State) (part cls : Nat) (d : ClassDef) (c : Change) : (u.cursorStepped part cls d c).mem = u.mem := rfl

theorem cursorStep_eq {s : State} {part cls die : Nat} {d : ClassDef} {c : Change} (found : s.classDef part cls = some d)
    (change : d.change = some c) (here : die ∈ c.old.instDies) (more : smGet 0 c.cursors die < c.old.total) :
    s.cursorStep part cls die c.flushAll =
      (s.cursorSlices part cls die c.old d.ldr (smGet 0 c.cursors die) c.flushAll (List.range 16)).cursorStepped part cls d
        (c.advanced die (smGet 0 c.cursors die)) := by
  unfold State.cursorStep
  rw [found]
  dsimp only
  rw [change]
  dsimp only
  rw [if_neg (by
    have listed : c.old.instDies.contains die = true := List.elem_iff.2 here
    simp [here]
    exact more)]
  rfl

theorem cursorStep_idle {s : State} {part cls die : Nat} {d : ClassDef} {c : Change} (found : s.classDef part cls = some d)
    (change : d.change = some c) (bar : die ∉ c.old.instDies ∨ c.old.total ≤ smGet 0 c.cursors die) (flushAll : Bool) :
    s.cursorStep part cls die flushAll = s := by
  unfold State.cursorStep
  rw [found]
  dsimp only
  rw [change]
  exact if_pos (.inr (bar.imp (by simp) id))

section Slices
variable {s : State} {part cls die : Nat} {old new : Ldr} {pos : Nat}

theorem cursorSlice_none {k : Nat} (h : s.oldLine part cls die old pos k = none) (flushAll : Bool) :
    s.cursorSlice part cls die old new pos flushAll k = s := by rw [State.cursorSlice, h]

theorem cursorSlice_some {k : Nat} {y : LLine} (h : s.oldLine part cls die old pos k = some y) (flushAll : Bool) :
    s.cursorSlice part cls die old new pos flushAll k = s.cursorLine new flushAll y := by rw [State.cursorSlice, h]

theorem cursorSlices_cons (s : State) (part cls die : Nat) (old new : Ldr) (pos : Nat) (flushAll : Bool) (k : Nat) (ks : List Nat) :
    s.cursorSlices part cls die old new pos flushAll (k :: ks) =
      (s.cursorSlice part cls die old new pos flushAll k).cursorSlices part cls die old new pos flushAll ks := rfl

/-- A pane-set without lines is left as it is. -/
theorem cursorSlices_none {ks : List Nat} (h : ∀ k ∈ ks, s.oldLine part cls die old pos k = none) (flushAll : Bool) :
    s.cursorSlices part cls die old new pos flushAll ks = s := by
  induction ks with
  | nil => rfl
  | cons k ks ih =>
    obtain ⟨hk, hks⟩ := List.forall_mem_cons.1 h
    rw [cursorSlices_cons, cursorSlice_none hk, ih hks]

/-- A pane-set with one line in its slices: that line alone moves or leaves. -/
theorem cursorSlices_one {ks : List Nat} (nodup : ks.Nodup) {n : Nat} {l : LLine} (hn : n ∈ ks)
    (line : s.oldLine part cls die old pos n = some l) (flushAll : Bool)
    (before : ∀ k ∈ ks, k ≠ n → s.oldLine part cls die old pos k = none)
    (after : ∀ k ∈ ks, k ≠ n → (s.cursorLine new flushAll l).oldLine part cls die old pos k = none) :
    s.cursorSlices part cls die old new pos flushAll ks = s.cursorLine new flushAll l := by
  induction ks with
  | nil => exact nomatch hn
  | cons k ks ih =>
    obtain ⟨fresh, nodup⟩ := List.nodup_cons.1 nodup
    rw [cursorSlices_cons]
    by_cases here : k = n
    · subst here
      rw [cursorSlice_some line]
      exact cursorSlices_none (fun j hj => after j (List.mem_cons_of_mem _ hj) fun h => fresh (h ▸ hj)) flushAll
    · rw [cursorSlice_none (before k List.mem_cons_self here)]
      exact ih nodup ((List.mem_cons.1 hn).resolve_left (Ne.symm here)) (fun j hj => before j (List.mem_cons_of_mem _ hj))
        fun j hj => after j (List.mem_cons_of_mem _ hj)

theorem oldLine_spec {k : Nat} {y : LLine} (h : s.oldLine part cls die old pos k = some y) : y ∈ s.lines ∧ y.die = die ∧ y.slice = k := by
  have holds := List.find?_some h
  simp only [Bool.and_eq_true, decide_eq_true_eq] at holds
  obtain ⟨⟨⟨⟨⟨⟨-, die_⟩, -⟩, -⟩, slice⟩, -⟩, -⟩ := holds
  exact ⟨List.mem_of_find?_eq_some h, die_, slice⟩

/-- Lines of one slice that leave do not change what another slice holds. -/
theorem oldLine_filter {t : State} {y : LLine} (lines : t.lines = s.lines.filter fun z => !z.same y) {k : Nat} (other : k ≠ y.slice) :
    t.oldLine part cls die old pos k = s.oldLine part cls die old pos k := by
  unfold State.oldLine
  rw [lines, List.find?_filter]
  refine congrArg (List.find? · s.lines) (funext fun z => ?_)
  by_cases slice : z.slice = k
  · have apart : z.same y = false := by
      have ne : z.slice ≠ y.slice := fun h => other (slice.symm.trans h)
      simp [LLine.same, ne]
    simp [apart]
  · simp [slice]

/-- No line of the pane-set comes from lines that were there and lines of the new geometry. -/
theorem oldLine_none_of_lines {t : State} {k : Nat} (none_ : s.oldLine part cls die old pos k = none)
    (lines : ∀ z ∈ t.lines, z ∈ s.lines ∨ z.newGeo = true) : t.oldLine part cls die old pos k = none := by
  refine List.find?_eq_none.2 fun z hz => ?_
  rcases lines z hz with there | new
  · exact List.find?_eq_none.1 none_ z there
  · simp [new]

/-! ### FLUSH-ALL (09 R201) -/

theorem cursorLine_flush (y : LLine) : s.cursorLine new true y = (s.writeBack y).dropLine y := if_pos (.inl rfl)

/-- After a FLUSH-ALL step no line that was in the pane-set is left. -/
theorem mem_cursorSlices_flush {ks : List Nat} (nodup : ks.Nodup) {z : LLine}
    (hz : z ∈ (s.cursorSlices part cls die old new pos true ks).lines) :
    z ∈ s.lines ∧ ∀ k ∈ ks, ∀ x, s.oldLine part cls die old pos k = some x → z.same x = false := by
  induction ks generalizing s with
  | nil => exact ⟨hz, nofun⟩
  | cons k ks ih =>
    obtain ⟨fresh, nodup⟩ := List.nodup_cons.1 nodup
    rw [cursorSlices_cons] at hz
    obtain ⟨here, away⟩ := ih nodup hz
    cases line : s.oldLine part cls die old pos k with
    | none =>
      rw [cursorSlice_none line] at here away
      exact ⟨here, List.forall_mem_cons.2 ⟨fun x hx => (nomatch line.symm.trans hx), away⟩⟩
    | some y =>
      rw [cursorSlice_some line, cursorLine_flush] at here away
      have lines := writeBack_dropLine_lines s y
      rw [lines, List.mem_filter] at here
      refine ⟨here.1, List.forall_mem_cons.2 ⟨fun x hx => ?_, fun j hj x hx => away j hj x ?_⟩⟩
      · cases line.symm.trans hx
        simpa using here.2
      · obtain ⟨-, -, slice⟩ := oldLine_spec line
        exact (oldLine_filter lines fun h => fresh (h.trans slice ▸ hj)).trans hx

/-! ### KEEP-LINES (09 R200) -/

/-- A line always finds a slice of its pane-set in a definition. -/
theorem insertLine_lines (s : State) (l : Ldr) (x : LLine) : ∃ w rest, (s.insertLine l x).lines =
    { x with pane := (l.place x.line).2.1, set := (l.place x.line).2.2, slice := w } :: rest ∧ ∀ y ∈ rest, y ∈ s.lines := by
  unfold State.insertLine
  dsimp only
  split
  next w _ => exact ⟨w, _, rfl, fun _ h => h⟩
  next full =>
    have first : l.wfirst ∈ l.slices :=
      List.mem_map.2 ⟨0, List.mem_range.2 (Nat.two_pow_pos _), rfl⟩
    split
    next v _ => exact ⟨v.slice, _, rfl, fun y hy => (List.mem_filter.1 ((writeBack_dropLine_lines s v) ▸ hy)).1⟩
    next none_ =>
      have taken := List.find?_eq_none.1 full _ first
      rw [List.getLast?_eq_none_iff.1 none_] at taken
      exact absurd rfl taken

theorem cursorLine_keep {y : LLine} (kept : s.paneRetired y.die (new.place y.line).2.1 = false) : s.cursorLine new false y =
    ({ s with lines := s.lines.filter fun z => !z.same y } : State).insertLine new { y with newGeo := true } := by
  rw [State.cursorLine, if_neg (by simp [kept])]

section Alone
variable {n : Nat} {l : LLine} (hn : n < 16) (line : s.oldLine part cls die old pos n = some l)
  (alone : ∀ y < 16, y ≠ n → s.oldLine part cls die old pos y = none)
include hn line alone

/-- FLUSH-ALL: the only line of a pane-set goes to memory. -/
theorem cursorSlices_flush_mem (flat : ∀ a, s.home a = a ∧ s.canon a = a) :
    (s.cursorSlices part cls die old new pos true (List.range 16)).mem = memPutAll s.mem l.dirtyBytes := by
  obtain ⟨-, -, slice⟩ := oldLine_spec line
  rw [cursorSlices_one List.nodup_range (List.mem_range.2 hn) line true (fun k hk other => alone k (List.mem_range.1 hk) other)
    fun k hk other => by
      rw [cursorLine_flush, oldLine_filter (writeBack_dropLine_lines s l) (slice.symm ▸ other)]
      exact alone k (List.mem_range.1 hk) other, cursorLine_flush]
  exact writeBack_mem s l flat

/-- KEEP-LINES: the only line of a pane-set moves into the new geometry. -/
theorem cursorSlices_keep_lines (kept : s.paneRetired die (new.place l.line).2.1 = false) : ∃ w rest,
    (s.cursorSlices part cls die old new pos false (List.range 16)).lines =
      { l with newGeo := true, pane := (new.place l.line).2.1, set := (new.place l.line).2.2, slice := w } :: rest := by
  obtain ⟨-, die_, -⟩ := oldLine_spec line
  have move := cursorLine_keep (y := l) (new := new) (die_.symm ▸ kept)
  obtain ⟨w, rest, lines, old_⟩ := insertLine_lines ({ s with lines := s.lines.filter fun z => !z.same l } : State) new
    { l with newGeo := true }
  rw [← move] at lines
  refine ⟨w, rest, ?_⟩
  rw [cursorSlices_one List.nodup_range (List.mem_range.2 hn) line false (fun k hk other => alone k (List.mem_range.1 hk) other)
    fun k hk other => oldLine_none_of_lines (alone k (List.mem_range.1 hk) other) fun z hz => by
      rw [lines] at hz
      rcases List.mem_cons.1 hz with rfl | hz
      · exact .inr rfl
      · exact .inl (List.mem_filter.1 (old_ z hz)).1]
  exact lines

end Alone

end Slices

/-! ### A step of a cursor -/

section Step
variable {s : State} {part cls die : Nat}

theorem exec_cursorStep (part cls die : Nat) (flushAll : Bool) (s : State) :
    exec (if flushAll then .flushCursorStep part cls die else .resizeCursorStep part cls die) s =
      .next (s.cursorStep part cls die flushAll) := by cases flushAll <;> rfl

theorem ended_iff (c : Change) : c.ended = true ↔ ∀ j ∈ c.old.instDies, c.old.total ≤ smGet 0 c.cursors j := by
  simp [Change.ended]

/-- The lines after a step are those of its slices, whatever the geometry they are marked with. -/
theorem mem_stepLines {u : State} {part cls : Nat} {d : ClassDef} {c : Change} {z : LLine}
    (hz : z ∈ (u.cursorStepped part cls d c).lines) : ∃ y ∈ u.lines, ∃ b, z = { y with newGeo := b } := by
  unfold State.cursorStepped at hz
  dsimp only at hz
  split at hz
  · obtain ⟨y, hy, rfl⟩ := List.mem_map.1 hz
    refine ⟨y, hy, ?_⟩
    split
    · exact ⟨_, rfl⟩
    · exact ⟨y.newGeo, rfl⟩
  · exact ⟨z, hz, z.newGeo, rfl⟩

theorem stepLines_mem {u : State} (part cls : Nat) (d : ClassDef) (c : Change) {y : LLine} (hy : y ∈ u.lines) :
    ∃ b, { y with newGeo := b } ∈ (u.cursorStepped part cls d c).lines := by
  unfold State.cursorStepped
  dsimp only
  split
  · have moved := List.mem_map_of_mem (f := fun l : LLine => if l.own part cls then { l with newGeo := false } else l) hy
    by_cases own : y.own part cls
    · exact ⟨false, by simpa [own] using moved⟩
    · exact ⟨y.newGeo, by simpa [own] using moved⟩
  · exact ⟨y.newGeo, hy⟩

/-- The class after a step: the same definition, its change with the advanced cursor, or none where the change has ended. -/
theorem cursorStepped_class (u : State) (part cls : Nat) (d : ClassDef) (c : Change) (die pos : Nat) :
    ∃ d', (u.cursorStepped part cls d (c.advanced die pos)).classDef part cls = some d' ∧ d'.ldr = d.ldr ∧
      (∀ c', d'.change = some c' → c' = { c with cursors := smSet 0 c.cursors die (pos + 1) }) ∧
      (d'.change = none ↔ ∀ j ∈ c.old.instDies, c.old.total ≤ smGet 0 (smSet 0 c.cursors die (pos + 1)) j) := by
  have ended : (c.advanced die pos).ended = true ↔ ∀ j ∈ c.old.instDies, c.old.total ≤ smGet 0 (smSet 0 c.cursors die (pos + 1)) j :=
    ended_iff (c.advanced die pos)
  refine ⟨_, cursorStepped_classDef .., rfl, ?_⟩
  cases fin : (c.advanced die pos).ended with
  | true => exact ⟨nofun, iff_of_true rfl (ended.1 fin)⟩
  | false => exact ⟨fun c' h => (Option.some.inj h).symm, iff_of_false nofun fun all => by simp [ended.2 all] at fin⟩

section Cleared
variable {pos : Nat} {old new : Ldr}

/-- After a FLUSH-ALL step no line of the pane-set is left. -/
theorem stepLines_flush (d : ClassDef) (c : Change) {y : Nat} (hy : y < 16) {x z : LLine}
    (line : s.oldLine part cls die old pos y = some x)
    (hz : z ∈ ((s.cursorSlices part cls die old new pos true (List.range 16)).cursorStepped part cls d c).lines) : z.same x = false := by
  obtain ⟨w, hw, b, rfl⟩ := mem_stepLines hz
  exact (mem_cursorSlices_flush List.nodup_range hw).2 y (List.mem_range.2 hy) x line

/-- After a KEEP-LINES step the only line of the pane-set stands in the new geometry. -/
theorem stepLines_keep (d : ClassDef) (c : Change) {n : Nat} {l : LLine} (hn : n < 16)
    (line : s.oldLine part cls die old pos n = some l) (alone : ∀ y < 16, y ≠ n → s.oldLine part cls die old pos y = none)
    (kept : s.paneRetired die (new.place l.line).2.1 = false) :
    ∃ z ∈ ((s.cursorSlices part cls die old new pos false (List.range 16)).cursorStepped part cls d c).lines,
      z.line = l.line ∧ z.data = l.data ∧ z.dirty = l.dirty ∧ z.die = l.die ∧ z.pane = (new.place l.line).2.1 ∧
        z.set = (new.place l.line).2.2 := by
  obtain ⟨w, rest, lines⟩ := cursorSlices_keep_lines hn line alone kept
  have first := lines ▸ List.mem_cons_self
  obtain ⟨b, hb⟩ := stepLines_mem part cls d c first
  exact ⟨_, hb, rfl, rfl, rfl, rfl, rfl, rfl⟩

end Cleared

/-- A step of a cursor: its pane-set leaves for memory or for the new definition, and the cursor advances. -/
theorem cursorStep_completes {d : ClassDef} {c : Change} (found : s.classDef part cls = some d) (change : d.change = some c)
    (here : die ∈ c.old.instDies) (more : smGet 0 c.cursors die < c.old.total) (n : Nat) (l : LLine) :
    let pos := smGet 0 c.cursors die
    let old (y : Nat) : Option LLine := s.oldLine part cls die c.old pos y
    let alone : Prop := n < 16 ∧ old n = some l ∧ ∀ y < 16, y ≠ n → old y = none
    Completes (if c.flushAll then .flushCursorStep part cls die else .resizeCursorStep part cls die) s fun t =>
      ∃ d', t.classDef part cls = some d' ∧ d'.ldr = d.ldr ∧
        (∀ c', d'.change = some c' → c' = { c with cursors := smSet 0 c.cursors die (pos + 1) }) ∧
        (d'.change = none ↔ ∀ j ∈ c.old.instDies, c.old.total ≤ smGet 0 (smSet 0 c.cursors die (pos + 1)) j) ∧
        ((∀ y < 16, old y = none) → t.mem = s.mem) ∧
        (c.flushAll = true → ∀ y < 16, ∀ x, old y = some x → ∀ z ∈ t.lines, z.same x = false) ∧
        (c.flushAll = true → alone → (∀ a, s.home a = a ∧ s.canon a = a) → t.mem = memPutAll s.mem l.dirtyBytes) ∧
        (c.flushAll = false → alone → s.paneRetired die (d.ldr.place l.line).2.1 = false → ∃ z ∈ t.lines,
          z.line = l.line ∧ z.data = l.data ∧ z.dirty = l.dirty ∧ z.die = l.die ∧ z.pane = (d.ldr.place l.line).2.1 ∧
          z.set = (d.ldr.place l.line).2.2) := by
  intro pos old alone
  have run := exec_cursorStep part cls die c.flushAll s
  rw [cursorStep_eq found change here more] at run
  have mem := cursorStepped_mem (s.cursorSlices part cls die c.old d.ldr pos c.flushAll (List.range 16)) part cls d (c.advanced die pos)
  obtain ⟨d', class_, ldr, cursors, over_⟩ :=
    cursorStepped_class (s.cursorSlices part cls die c.old d.ldr pos c.flushAll (List.range 16)) part cls d c die pos
  refine ⟨_, run, d', class_, ldr, cursors, over_, fun none_ => ?_, fun flush y hy x line z hz => ?_, fun flush only flat => ?_,
    fun keep only kept => ?_⟩
  · rw [mem, cursorSlices_none (fun j hj => none_ j (List.mem_range.1 hj)) c.flushAll]
  · rw [flush] at hz
    exact stepLines_flush d _ hy line hz
  · obtain ⟨hn, line, single⟩ := only
    rw [mem, flush]
    exact cursorSlices_flush_mem hn line single flat
  · obtain ⟨hn, line, single⟩ := only
    rw [keep]
    exact stepLines_keep d _ hn line single kept

end Step

/-! ### The write-backs of a lantern action (12 R278) -/

/-- The group after an arrival that leaves its action as `o'`. -/
def Group.lnAfter (g : Group) (k : Nat) (o o' : LnOp) : Group :=
  if o'.lines.isEmpty then { g.modPath o.pathF (fun p => { p with st := p.st - 1 }) with lnOps := g.lnOps.eraseIdx k }
  else { g with lnOps := g.lnOps.set k o' }

theorem lnAfter_gid (g : Group) (k : Nat) (o o' : LnOp) : (g.lnAfter k o o').gid = g.gid := by
  unfold Group.lnAfter Group.modPath
  split
  · cases o.pathF <;> rfl
  · rfl

theorem lnAfter_last {o' : LnOp} (none_ : o'.lines = []) {w g : Group} (marked : Marked w g) (k : Nat) (o : LnOp) :
    (g.lnAfter k o o').lnOps = w.lnOps.eraseIdx k ∧ ((g.lnAfter k o o').path o.pathF).st = (w.path o.pathF).st - 1 := by
  rw [Group.lnAfter, if_pos (List.isEmpty_iff.2 none_), show g = _ from marked]
  cases o.pathF <;> exact ⟨rfl, rfl⟩

theorem lnAfter_more {o' : LnOp} (more : o'.lines ≠ []) {w g : Group} (marked : Marked w g) (k : Nat) (o : LnOp) :
    (g.lnAfter k o o').lnOps = w.lnOps.set k o' ∧ ((g.lnAfter k o o').path o.pathF).st = (w.path o.pathF).st := by
  rw [Group.lnAfter, if_neg (by simpa using more), show g = _ from marked]
  cases o.pathF <;> exact ⟨rfl, rfl⟩

theorem Serves.lnStart {s : State} (w : Group) (o : LnOp) : Serves s (s.lnStart w o).1 := by
  unfold State.lnStart
  dsimp only
  split
  · exact .foldl (fun _ _ a => a.dropLine) (.refl s)
  · exact .refl s

theorem Serves.lnLine {s : State} (part : Nat) (inv : Bool) (x : Nat × Nat) : Serves s (s.lnLine part inv x) := by
  unfold State.lnLine
  split
  · dsimp only
    split
    · exact (Serves.refl s).writeBack.dropLine
    · exact (Serves.refl s).writeBack
  · exact .refl s

theorem lnLine_mem {s : State} {part : Nat} {x : Nat × Nat} {l : LLine}
    (found : (s.lines.find? fun y => y.die = x.1 && y.line = x.2 && y.part = part) = some l) (flat : ∀ a, s.home a = a ∧ s.canon a = a)
    (inv : Bool) : (s.lnLine part inv x).mem = memPutAll s.mem l.dirtyBytes := by
  unfold State.lnLine
  rw [found]
  cases inv <;> exact writeBack_mem s l flat

section Arrival
variable {s : State} {i k : Nat} {w : Group} {o : LnOp} (stands : s.group i = some w) (op : w.lnOps[k]? = some o)
include stands

/-- The group after an arrival, where what was served left the state at `t`. -/
theorem lnAfter_group {t : State} (served : Serves s t) (named : w.gid = i) (o' : LnOp) :
    ∃ g, Marked w g ∧ (t.modGroup i (·.lnAfter k o o')).group i = some (g.lnAfter k o o') := by
  obtain ⟨g, here, marked⟩ := served.group stands
  exact ⟨g, marked, (State.group_modGroup here ((lnAfter_gid ..).trans (marked.gid.trans named)) i).trans (if_pos rfl)⟩

include op

theorem writeBackArrival_waits (fresh : o.started = false) (bar : w.lnMayStart o = false ∨ s.lnBehind w o = true) :
    Completes (.writeBackArrival i k) s fun t => t = s := by
  refine ⟨s, ?_, rfl⟩
  show execWriteBackArrival i k s = _
  unfold execWriteBackArrival
  have waits : ¬(w.lnMayStart o && !s.lnBehind w o) = true := by
    rcases bar with h | h <;> simp [h]
  simp only [stands, op, fresh, Bool.not_false, if_pos, if_neg waits]

theorem writeBackArrival_starts (fresh : o.started = false) (may : w.lnMayStart o = true) (clear : s.lnBehind w o = false) :
    exec (.writeBackArrival i k) s = .next ((s.lnStart w o).1.modGroup i (·.lnAfter k o (s.lnStart w o).2)) := by
  show execWriteBackArrival i k s = _
  unfold execWriteBackArrival
  simp only [stands, op, fresh, may, clear, Bool.not_false, Bool.and_self, if_pos]
  rfl

theorem writeBackArrival_next {x : Nat × Nat} {rest : List (Nat × Nat)} (started : o.started = true) (lines : o.lines = x :: rest) :
    exec (.writeBackArrival i k) s =
      .next ((s.lnLine (s.partOf w) o.inv x).modGroup i (·.lnAfter k o { o with lines := rest })) := by
  show execWriteBackArrival i k s = _
  unfold execWriteBackArrival
  simp only [stands, op, started, lines, Bool.not_true, Bool.false_eq_true, if_false, List.drop_one, List.tail_cons]
  rfl

theorem writeBackArrival_none (fresh : o.started = false) (may : w.lnMayStart o = true) (clear : s.lnBehind w o = false)
    (named : w.gid = i) (none_ : (s.lnStart w o).2.lines = []) : Completes (.writeBackArrival i k) s fun t =>
      ∃ g, t.group i = some g ∧ g.lnOps = w.lnOps.eraseIdx k ∧ (g.path o.pathF).st = (w.path o.pathF).st - 1 := by
  obtain ⟨g, marked, after⟩ := lnAfter_group (k := k) (o := o) stands (.lnStart w o) named (s.lnStart w o).2
  exact ⟨_, writeBackArrival_starts stands op fresh may clear, _, after, lnAfter_last none_ marked k o⟩

theorem writeBackArrival_some (fresh : o.started = false) (may : w.lnMayStart o = true) (clear : s.lnBehind w o = false)
    (named : w.gid = i) (some_ : (s.lnStart w o).2.lines ≠ []) : Completes (.writeBackArrival i k) s fun t =>
      ∃ g, t.group i = some g ∧ g.lnOps = w.lnOps.set k (s.lnStart w o).2 ∧ (g.path o.pathF).st = (w.path o.pathF).st := by
  obtain ⟨g, marked, after⟩ := lnAfter_group (k := k) (o := o) stands (.lnStart w o) named (s.lnStart w o).2
  exact ⟨_, writeBackArrival_starts stands op fresh may clear, _, after, lnAfter_more some_ marked k o⟩

theorem writeBackArrival_line {x : Nat × Nat} {rest : List (Nat × Nat)} {l : LLine} (named : w.gid = i) (started : o.started = true)
    (lines : o.lines = x :: rest)
    (found : (s.lines.find? fun y => y.die = x.1 && y.line = x.2 && y.part = s.partOf w) = some l)
    (flat : ∀ a, s.home a = a ∧ s.canon a = a) : Completes (.writeBackArrival i k) s fun t =>
      t.mem = memPutAll s.mem l.dirtyBytes ∧
      (rest = [] → ∃ g, t.group i = some g ∧ g.lnOps = w.lnOps.eraseIdx k ∧ (g.path o.pathF).st = (w.path o.pathF).st - 1) ∧
      (rest ≠ [] → ∃ g, t.group i = some g ∧ g.lnOps = w.lnOps.set k { o with lines := rest }) := by
  obtain ⟨g, marked, after⟩ := lnAfter_group (k := k) (o := o) stands (.lnLine (s.partOf w) o.inv x) named { o with lines := rest }
  refine ⟨_, writeBackArrival_next stands op started lines, ?_, fun last => ⟨_, after, lnAfter_last last marked k o⟩,
    fun more => ⟨_, after, (lnAfter_more (o' := { o with lines := rest }) more marked k o).1⟩⟩
  rw [State.modGroup_rest]
  exact lnLine_mem found flat o.inv

end Arrival

end Sys2Proof.Machine

namespace Sys2Proof.Proofs

open Sys2Proof Sys2Proof.Machine

/-- Settles O50: copies, tiles, cursors and write-backs, each event by its own lemma. -/
theorem engineAndLanternEvents : Obligations.EngineAndLanternEvents := by
  unfold Obligations.EngineAndLanternEvents
  intro s core k n part cls die i w cp code fra tm tk fs f0 f1 e cs row v d c l o x rest
  dsimp only
  refine ⟨?_, ?_, ?_, ?_, ?_, ?_, ?_, ?_⟩
  · exact fun ready fine va a miss => copyComplete_walks ready fine miss
  · refine fun ready named free clean => ⟨fun fine here => ?_, fun fine => copyElementFault_fine ready fine,
      fun err team task runs => ?_, fun err => copyComplete_failing ready err⟩
    · obtain ⟨t, run, gone, g, group, marked⟩ := copyComplete_done ready named free clean fine here
      exact ⟨t, run, ⟨gone.copies, gone.tagBusy, gone.locks⟩, gone.mem, gone.bufs, gone.pool, gone.tagSet, _, group,
        copyLeft_group marked cp _⟩
    · obtain ⟨t, run, gone, report, g, group, marked⟩ := copyElementFault_fails ready named free clean err team task runs
      exact ⟨t, run, ⟨gone.copies, gone.tagBusy, gone.locks⟩, gone.tagSet, report, _, group, (copyLeft_group marked cp _).1⟩
  · exact fun ready y held => ⟨fun fine here => copyComplete_held ready fine here held, fun err => copyElementFault_held ready err held⟩
  · exact copyComplete_idle
  · exact fun u p fine here own => ⟨fun y fill => point_fill fine here own fill p,
      fun plain direct ownSrc etype srcScale dstScale => point_copy fine here own plain direct ownSrc etype srcScale dstScale p⟩
  · refine fun head => ⟨tileOpStart_starts head, tileOpStart_waits head, tileOpRetire_idle head fs, fun running named =>
      ⟨fun kind => ?_, fun kind dst word => ?_, fun kind => ?_, fun kind dst => ?_, fun kind _ => ?_, fun kind _ first => ?_,
        fun kind first second team task runs => ?_⟩⟩
    · exact tileOpRetire_zero head running named kind fs
    · exact tileOpRetire_rd head running named kind dst word fs
    · exact tileOpRetire_wr head running named kind fs
    · exact tileOpRetire_chk head running named kind dst fs
    · exact tileOpRetire_product head running named kind
    · exact tileOpRetire_once head running named kind first
    · exact tileOpRetire_twice head running kind first second team task runs
  · refine fun found change => ⟨fun here more => ?_, fun bar => ?_⟩
    · exact cursorStep_completes found change here more n l
    · exact ⟨⟨_, rfl, cursorStep_idle found change bar false⟩, ⟨_, rfl, cursorStep_idle found change bar true⟩⟩
  · exact fun stands named op => ⟨writeBackArrival_waits stands op,
      fun fresh may clear none_ => writeBackArrival_none stands op fresh may clear named (List.map_eq_nil_iff.2 none_),
      fun fresh may clear some_ => writeBackArrival_some stands op fresh may clear named (fun h => some_ (List.map_eq_nil_iff.1 h)),
      fun started lines found flat => writeBackArrival_line stands op named started lines found flat⟩

end Sys2Proof.Proofs
end
